-- ==== Sys2Proof/Word.lean ====
section
/-!
DEFINITION. The byte and register-word types of the module, and the little-endian packing of R3.
-/

namespace Sys2Proof

/-- A byte of host memory, HBM, a descriptor or a packet. -/
abbrev Byte := BitVec 8

/-- A register word (R7). -/
abbrev Word := BitVec 32

/-- The little-endian value of a byte list (R3). -/
def leNat : List Byte → Nat
  | [] => 0
  | b :: bs => b.toNat + 256 * leNat bs

/-- The low `n` bytes of a value, little-endian (R3). -/
def leBytes : Nat → Nat → List Byte
  | 0, _ => []
  | n + 1, v => BitVec.ofNat 8 v :: leBytes n (v / 256)

/-- Two's complement: the signed value of the low `w` bits of `v`. -/
def signed (w v : Nat) : Int :=
  let u := v % 2 ^ w
  if 2 ^ w ≤ 2 * u then (u : Int) - (2 ^ w : Nat) else u

/-- The low `w` bits of an integer, as a natural number. -/
def unsigned (w : Nat) (v : Int) : Nat := (v % ((2 ^ w : Nat) : Int)).toNat

/-- `a / b` rounded up. -/
def ceilDiv (a b : Nat) : Nat := (a + b - 1) / b

/-- Bit `i` of a mask. -/
def bitOf (mask i : Nat) : Bool := Nat.testBit mask i

/-- The set bits of a mask below `n`, rising. -/
def bitsOf (mask n : Nat) : List Nat := (List.range n).filter (bitOf mask)

/-- A mask of the listed bits. -/
def maskOf (l : List Nat) : Nat := l.foldl (fun m i => m ||| 2 ^ i) 0

/-- A counter that saturates at `top`. -/
def satAdd (top a b : Nat) : Nat := min top (a + b)

/-- The saturation value of a 32-bit counter. -/
def top32 : Nat := 0xFFFFFFFF

/-- One more on a saturating 32-bit counter. -/
def bump (a : Nat) : Nat := satAdd top32 a 1

/-- Keep `v` within `lo` and `hi`. -/
def clampNat (lo hi v : Nat) : Nat := max lo (min hi v)

def clampInt (lo hi v : Int) : Int := max lo (min hi v)

/-- Replace or add the value of a key in an association list. -/
def setKey {α β : Type} [BEq α] (k : α) (v : β) : List (α × β) → List (α × β)
  | [] => [(k, v)]
  | e :: es => if e.1 == k then (k, v) :: es else e :: setKey k v es

/-- Remove a key. -/
def dropKey {α β : Type} [BEq α] (k : α) (l : List (α × β)) : List (α × β) :=
  l.filter (fun e => !(e.1 == k))

/-- The value of a key. -/
def getKey {α β : Type} [BEq α] (k : α) (l : List (α × β)) : Option β :=
  (l.find? (fun e => e.1 == k)).map (·.2)

/-- Little-endian fields, for details, payloads and reports (R3). -/
def u8 (v : Nat) : List Byte := leBytes 1 v
def u16 (v : Nat) : List Byte := leBytes 2 v
def u24 (v : Nat) : List Byte := leBytes 3 v
def u32 (v : Nat) : List Byte := leBytes 4 v
def u48 (v : Nat) : List Byte := leBytes 6 v
def u64 (v : Nat) : List Byte := leBytes 8 v
def s16 (v : Int) : List Byte := leBytes 2 (unsigned 16 v)
def s32 (v : Int) : List Byte := leBytes 4 (unsigned 32 v)
def s64 (v : Int) : List Byte := leBytes 8 (unsigned 64 v)

/-- The first `n` bytes of a list, filled up with zero bytes. -/
def padTo (n : Nat) (l : List Byte) : List Byte := (l ++ List.replicate n 0).take n

/-- The `n` bytes at offset `i`, zero beyond the end. -/
def slice (l : List Byte) (i n : Nat) : List Byte := padTo n ((l.drop i).take n)

/-- Little-endian field of `n` bytes at offset `i`. -/
def fieldOf (l : List Byte) (i n : Nat) : Nat := leNat (slice l i n)

def bit (b : Bool) : Nat := if b then 1 else 0

/-- Replace element `i` by its image. -/
def upd {α : Type} (l : List α) (i : Nat) (f : α → α) : List α := l.modify i f

/-- Bits `lo` to `lo + n - 1` of a value. -/
def bits (v lo n : Nat) : Nat := v / 2 ^ lo % 2 ^ n

/-- Sum of a list. -/
def total (l : List Nat) : Nat := l.foldl (· + ·) 0

/-- A 32-bit word from a natural number. -/
def wordOf (v : Nat) : Word := BitVec.ofNat 32 v

end Sys2Proof
end

