-- ==== Sys2Proof/Syntax.lean ====
section
/-!
DEFINITION. The commands of the block: one constructor of `Instr` per row of spec/opcode_table.json, in the table's
order.  The table gives its rows no operands; the operands here are what the chapters name: the instant (as `dt`, the
stamp units since the previous command), the head, port, channel, ring or register concerned, the descriptor, and what
reaches the module from outside (host bytes, packets, converter codes, test outcomes).  See notes/assumptions/1.md.
-/

namespace Sys2Proof

/-- A descriptor as the module holds it (R121, R125): its ring, its 64 bytes, its doorbell stamp (R117), the end of a
hold under R124 (the module's own, 0 when it was not held; a command's value of it is ignored), and for a forwarded one (R513) the lead's device and submission ring and the
virtual channel it came on. -/
structure Desc where
  ring  : Nat
  bytes : List Byte
  db    : Nat
  hold  : Nat
  fwd   : Option (Nat × Nat × Nat)
  deriving DecidableEq, Repr

/-- A host access to BAR0 or BAR2 of a function: its byte offset and its width in bytes (R7, R115). -/
structure BarAddr where
  bar2  : Bool
  off   : Nat
  bytes : Nat
  poisoned : Bool
  deriving DecidableEq, Repr

/-- What a host-memory read brought: all bytes, or the bytes before an error or poisoned completion (Table 5.7). -/
inductive HostBuf where
  | data (bytes : List Byte)
  | error (before : List Byte)
  deriving DecidableEq, Repr

/-- What a read of host memory for a follower brought: the bytes, or those before a host error or a poisoned completion (R514,
Table 22.8). -/
inductive DmaBuf where
  | data (bytes : List Byte)
  | error (before : List Byte)
  | poisoned (before : List Byte)
  deriving DecidableEq, Repr

/-- What the Keeper meets at a boot (step 2 of Table 4.1): both factory copies bad, the firmware slots that fail their
check, the hold-up energy in mJ (R66) and the rings whose context entry fails, in the order of the test (R541). -/
structure BootInfo where
  factoryBad : Bool
  slotBad    : List Nat
  holdup     : Nat
  ringsBad   : List Nat
  deriving DecidableEq, Repr

/-- The two voltages of the supply monitor, mV: the sense voltage and the local input voltage (R37). -/
structure Supply where
  sense : Nat
  blade : Nat
  deriving DecidableEq, Repr

/-- VIN: the lower of the two (R37). -/
def Supply.vin (v : Supply) : Nat := min v.sense v.blade

/-- A transaction on the management port: stamp units since the previous command, the address on the bus, and whether its
packet error check holds (R56). -/
structure BusFrame where
  dt    : Nat
  addr  : Nat
  pecOk : Bool
  deriving DecidableEq, Repr

/-- A pin at high level: stamp units since the previous command, and how long it has been high (R51). -/
structure PinHigh where
  dt   : Nat
  high : Nat
  deriving DecidableEq, Repr

/-- An edge on a PULSE pin (R50). -/
inductive PinEdge where
  | rising | falling
  deriving DecidableEq, Repr

/-- A test access port instruction (R58). -/
inductive TapInstr where
  | bypass | idcode | sample | other
  deriving DecidableEq, Repr

/-- One sample row segment of a packet or line: line, first pixel, samples in the order of R186. -/
structure SampleRow where
  line    : Nat
  offset  : Nat
  samples : List Nat
  deriving DecidableEq, Repr

/-- An Ethernet packet after the port's frame checks (R174, R175). `cls` is the class of Table 23.3: 0 ST 2110-20,
1 ST 2110-40, 2 PTP, 3 other. -/
structure EthPkt where
  cls     : Nat
  fcsOk   : Bool
  size    : Nat
  vlan    : Nat
  src     : Nat
  dst     : Nat
  udp     : Nat
  pt      : Nat
  marker  : Bool
  rtp     : Nat
  seq     : Nat
  rows    : List SampleRow
  anc     : List Byte
  deriving DecidableEq, Repr

/-- A DisplayPort active line with the stream's timing attributes (R180). -/
structure DpLine where
  line     : Nat
  width    : Nat
  height   : Nat
  sampling : Nat
  depth    : Nat
  samples  : List Nat
  deriving DecidableEq, Repr

/-- PTP message kinds: those of R151; `other` stands for the peer-delay, management and signalling messages. -/
inductive PtpKind where
  | syncOne | syncTwo | followUp | delayResp | announce | other
  deriving DecidableEq, Repr

/-- An IEEE 1588 timestamp with its quarters of a nanosecond (R147). -/
structure PtpTime where
  seconds  : Nat
  nanos    : Nat
  quarters : Nat
  deriving DecidableEq, Repr

/-- The stamp of a timestamp (R147). -/
def PtpTime.stamp (t : PtpTime) : Nat := (t.seconds * 4000000000 + t.nanos * 4 + t.quarters) % 2 ^ 64

/-- What an Announce says of its grandmaster, in the order in which the default best-master algorithm compares it (R151). -/
structure MasterData where
  prio1    : Nat
  cls      : Nat
  accuracy : Nat
  variance : Nat
  prio2    : Nat
  gm       : Nat          -- grandmaster identity
  steps    : Nat          -- stepsRemoved
  deriving DecidableEq, Repr

/-- A PTP message heard on an Ethernet port (Table 6.2). -/
structure PtpMsg where
  port     : Nat
  kind     : PtpKind
  multi    : Bool         -- UDP over IPv4 to 224.0.1.129, in the clear of unicast negotiation
  vlan     : Nat          -- its tag, 0 = untagged
  domain   : Nat
  interval : Int          -- logSyncInterval or logAnnounceInterval
  origin   : PtpTime      -- the origin or receive timestamp it carries
  seq      : Nat
  sender   : Nat          -- source port identity
  ours     : Bool         -- a Delay_Resp that names this port's identity
  master   : MasterData   -- of an Announce
  utc      : Option Nat   -- current UTC offset of the metadata TLV
  deriving DecidableEq, Repr

/-- Uncorrectable reads met by the Press in a frame (Table 11.8, Table 12.4). -/
structure PressErr where
  tiles    : List (Nat × Nat × Nat)   -- array, first tile, tile count
  dither   : List (Nat × Nat)         -- failed entries: tile, and 256 row + column
  copy     : List Nat                 -- slot entries or header offsets of the Recipe of which one copy failed (R276)
  eCopy    : List Nat                 -- byte offsets within E of which one copy failed (R353)
  slots    : List (Nat × Nat)         -- sequence and order of slot entries with both copies failed
  field    : List (Nat × Nat)         -- first block and count of each run of failed field entries
  prev     : List (Nat × Nat)         -- first and last line of each run of lines of the previous frame that failed
  band     : List (Nat × Nat)         -- first and last canvas line of each run whose source band failed
  matrix   : Bool                     -- a copy pair of E (R364)
  deriving DecidableEq, Repr

/-- What a training session measured: the bits that its compares read wrong (repetition, offset of the sweep or VERIFY step, counted from
0; burst; stream bit); and of one that trains, the bursts its VERIFY steps compared, the 144 delays and windows it found, and the two
reference codes (R447, R455). -/
structure SessionResult where
  flips  : List (Nat × Nat × Nat)
  verify : Nat
  values : List Byte
  refs   : List Byte
  deriving DecidableEq, Repr

/-- The traffic of Table 18.2, by what reads or writes. -/
inductive Traffic where
  | videoFrame | hostPush
  | layerRead | tableRead | composedWrite | vitrineRead
  | composedRead | previousRead | fieldRead | planeWrite | sampleWrite | fieldWrite
  | planeRead | retransmitRead
  | capture | stampLog
  | bar4 | exhWrite | exhRead | vitrineLoad | vectorLoad | sparingCopy
  | solverHistory | ledgerStore | startBuffer
  | scrub
  deriving DecidableEq, Repr

/-- A memory request (R424 to R427): its traffic, the bytes it reads or writes, and its age.  It goes to HBM through the port of its
traffic, or to a pool of on-die SRAM, where `addr` is the pool offset (R464); `reg` is the BAR0 offset of the register whose SRAM
copy it reads, and whether the host reads it (R474).  `flips` are the stored bits that have come to differ by then, an address or
offset each with its bits: 0 to 7 data, 8 to 12 c0 to c4 of Class S, 13 the parity bit of Class L (R460). -/
structure MemReq where
  traffic : Traffic
  addr    : Nat
  len     : Nat
  write   : Bool
  age     : Nat
  pool    : Option Nat
  reg     : Option (Nat × Bool)
  unit_   : Nat                      -- the requesting unit
  flips   : List (Nat × Nat)
  deriving DecidableEq, Repr

/-- A descriptor of CAL_CORRECT, and the HBM addresses that its read of the colour solver's history found uncorrectable (Table 20.3). -/
structure HistDesc where
  desc : Desc
  lost : List Nat
  deriving DecidableEq, Repr

/-- A Catum packet (Table 22.1) with its payload bytes. -/
structure CatPkt where
  type_   : Nat
  vc      : Nat
  dest    : Nat
  src     : Nat
  hops    : Nat
  lsn     : Nat
  tag     : Nat
  payload : List Byte
  deriving DecidableEq, Repr

/-- A firmware image as the loader sees it (chapter 24). -/
structure FwImage where
  ok      : Bool
  badAt   : Nat
  size    : Nat
  level   : Nat
  version : Nat
  deriving DecidableEq, Repr

/-- A transaction on the management bus that is not a Vitrine command (R56, R93, R94, R111). -/
inductive MgmtOp where
  | clampRead (entry : Nat)
  | statusRead
  | bankWrite (bytes : List Byte)
  | slotWrite (slot : Nat) (image : FwImage)
  | protectedWrite (offset : Nat)
  | other
  deriving DecidableEq, Repr

/-- The outcome of a pattern test or of step VERIFY (R440, R447). -/
structure DiagResult where
  retrain : Bool
  pattern : Bool
  pprRows : Option (List Nat)        -- 4 * SID + bank group of each failing row, where the repeat after their repair passes (R539)
  unreadable : List Nat              -- addresses in those rows that could not be copied (R539)
  deriving DecidableEq, Repr

/-- A failed read of the scaler (R250): a coefficient of a layer, or an entry of its line buffer: source line and buffered column. -/
inductive ScalerErr where
  | coef (layer : Nat)
  | buffer (layer line col : Nat)
  deriving DecidableEq, Repr

def ScalerErr.layer : ScalerErr → Nat
  | .coef l => l
  | .buffer l _ _ => l

/-- The commands.  Every one begins with `dt`, the stamp units since the previous command. -/
inductive Instr where
  -- power, start-up and pins (chapters 2, 3, 4)
  | inputValid (dt : Nat) (vin : Supply) (cab : Nat) (boot : BootInfo)
  | trnPointDone (dt point us : Nat) (failed : List (Nat × Nat × Nat))
  | configReady (dt : Nat) (slotFails : List Nat)
  | vinOver (dt : Nat) (vin : Supply)
  | shedEnter (dt stage : Nat) (vin : Supply)
  | capacityShrinkHold (dt : Nat)
  | shedClear (dt stage : Nat) (vin : Supply)
  | stage4Park (dt : Nat)
  | ledgerSave (dt : Nat) (badSectors : List Nat)
  | refclkLost (dt : Nat)
  | refclkCheckRetry (dt : Nat) (ok : Bool)
  | pwrSetState (dt : Nat) (d : Desc)
  | enterP2 (dt : Nat)
  | wakeBFall (dt : Nat)
  | mgmtBusWake (dt : BusFrame)
  | keeperTimer (dt : Nat)
  | catumWake (dt port : Nat)
  | pwrClrMin (dt : Nat)
  | resetBAssert (dt : Nat)
  | resetBRelease (dt cab : Nat) (boot : BootInfo)
  | perstBAssert (dt : Nat)
  | perstBRelease (dt : Nat)
  | pcieLinkDownTimeout (dt : Nat)
  | pf0Flr (dt : Nat)
  | pf1Flr (dt : Nat)
  | intlkTrip (dt : Nat)
  | intlkLowDuringTrip (dt len : Nat)
  | intlkRelease (dt : PinHigh)
  | boundaryScanForce (dt : Nat) (instr : TapInstr)
  -- the host interface (chapter 5)
  | tailDoorbell (dt ring value : Nat) (pf1 aligned : Bool)
  | cqHeadDoorbell (dt ring value : Nat) (pf1 aligned : Bool)
  | ledgerHeadDoorbell (dt value : Nat) (pf1 aligned : Bool)
  | descriptorFetch (dt : Nat) (slot : HostBuf) (cacheBad : List Nat)
  | completionPost (dt ring : Nat) (bad : List Nat)
  | ledgerDeliver (dt count : Nat) (pf1 : Bool) (lost : List (Nat × Nat))
  | coalesceTimer (dt ring : Nat)
  | darkNow (dt heads : Nat) (domain pf1 : Bool)
  | darkRamp (dt heads : Nat) (domain : Bool)
  | stopHeads (dt heads : Nat) (domain : Bool)
  | haltRings (dt heads : Nat) (domain : Bool)
  | resumeRings (dt heads : Nat) (domain : Bool)
  | stopIngest (dt heads : Nat) (domain : Bool)
  | ucwRejected (dt : Nat) (word : Word) (pf1 : Bool)
  | ucwAction (dt action : Nat)
  | ucwStatRead (dt : Nat)
  | setupLock (dt : Nat)
  | sqEnable (dt ring : Nat) (pf1 : Bool)
  | sqDisable (dt ring : Nat) (pf1 : Bool)
  | cqEnable (dt ring : Nat) (pf1 : Bool)
  | cqDisable (dt ring : Nat) (pf1 : Bool)
  | ledgerRingEnable (dt : Nat) (pf1 : Bool)
  | registerWrite (dt : Nat) (offset : BarAddr) (value : Word) (pf1 : Bool)
  | pairLoRead (dt : Nat) (offset : BarAddr) (pf1 : Bool)
  | bar4Read (dt addr len : Nat)
  | bar4Write (dt addr : Nat) (bytes : List Byte) (poisoned : Bool)
  | bar4DiscardReport (dt : Nat)
  | nop (dt : Nat) (d : Desc)
  | ledgerMark (dt : Nat) (d : Desc)
  | nvmWriteBank (dt : Nat) (d : Desc) (buf : HostBuf)
  | cabSelect (dt : Nat) (d : Desc)
  -- the timebase (chapter 6)
  | ptpCfg (dt : Nat) (d : Desc)
  | stampRead (dt : Nat) (d : Desc)
  | ptpMessage (dt : Nat) (m : PtpMsg)
  | slewDone (dt : Nat)
  | announceTimeout (dt : Nat)
  -- ingest (chapter 7)
  | flowOpen (dt : Nat) (d : Desc)
  | flowClose (dt : Nat) (d : Desc)
  | hostPush (dt : Nat) (d : Desc)
  | ethPacket (dt port : Nat) (p : EthPkt)
  | ethArpIcmp (dt port addr : Nat) (arp : Bool)
  | packetGroupEnd (dt ctx : Nat)
  | frameDeadline (dt ctx : Nat)
  | flowStall (dt ctx : Nat)
  | flowFallback (dt ctx : Nat)
  | pathLost (dt ctx : Nat) (secondary : Bool)
  | dpLine (dt sink : Nat) (l : DpLine)
  | dpLinkUp (dt sink rate lanes : Nat)
  | dpLinkLost (dt sink : Nat)
  | dpAuxTransaction (dt sink addr len : Nat) (edid : Bool)
  | flowCountersClear (dt : Nat)
  -- exhibits and admission (chapter 8)
  | exhRegister (dt : Nat) (d : Desc)
  | exhFree (dt : Nat) (d : Desc)
  | exhWrite (dt : Nat) (d : Desc)
  | exhRead (dt : Nat) (d : Desc)
  | admQuery (dt : Nat) (d : Desc)
  | transferDone (dt ring tag : Nat) (buf : HostBuf)
  | retireFence (dt head : Nat)
  -- composition and commit (chapter 9)
  | headConfig (dt : Nat) (d : Desc) (buf : HostBuf)
  | headRelease (dt : Nat) (d : Desc)
  | layerSet (dt : Nat) (d : Desc)
  | commit (dt : Nat) (d : Desc)
  | groupCommit (dt : Nat) (d : Desc)
  | vitrineSet (dt : Nat) (d : Desc)
  | vitrineLoad (dt : Nat) (d : Desc)
  | vitrineMgmtSet (dt : BusFrame) (key : Nat) (payload : List Byte)
  | vitrineStatusRead (dt : BusFrame)
  | vitrineLockoutEnd (dt : Nat)
  | composeStartEvent (dt head : Nat) (bad : List (Nat × Nat × Nat)) (lbErr : List ScalerErr)
  | groupReady (dt gid src e : Nat)
  | groupDecision (dt gid : Nat)
  | groupGo (dt gid frame : Nat)
  | groupAbandoned (dt gid : Nat)
  | cmpClrLate (dt head : Nat)
  | cmpClrGap (dt head : Nat)
  | coefLoad (dt : Nat) (d : Desc)
  | recipeLoad (dt : Nat) (d : Desc) (buf : HostBuf)
  | ditherLoad (dt : Nat) (d : Desc)
  | pressStartEvent (dt head : Nat) (errs : PressErr)
  | pressFrameDone (dt head : Nat) (errs : PressErr)
  | prsClrSlack (dt head : Nat)
  | prsClrDark (dt head : Nat)
  -- motion rendering (chapter 12)
  | motionCfg (dt : Nat) (d : Desc)
  | vectorLoad (dt : Nat) (d : Desc)
  | surveyFieldDone (dt head : Nat)
  | motClrMiss (dt head : Nat)
  -- Plane Link (chapter 13)
  | portConfig (dt : Nat) (d : Desc)
  | portPark (dt : Nat) (d : Desc)
  | caveEnter (dt : Nat) (d : Desc)
  | caveExit (dt : Nat) (d : Desc)
  | retCredit (dt port limit : Nat)
  | retNak (dt port psn reason : Nat)
  | retLaneLock (dt port lock : Nat) (aligned : Bool) (bip : List Nat)
  | retCaps (dt port page data : Nat)
  | retStatus (dt port state flags frame : Nat)
  | returnMessageBad (dt port : Nat)
  | laneLockTimeout (dt port lane : Nat)
  | portTrainTimeout (dt port : Nat)
  | returnSilent (dt port : Nat)
  | loadStart (dt port frame order : Nat) (bad : List Nat)
  | slotFlip (dt head frame seq order : Nat)
  | portIdleTimer (dt port : Nat)
  | portStatusTimer (dt port : Nat)
  | plkClr (dt port : Nat)
  -- scan-line mode (chapter 14)
  | scanConfig (dt : Nat) (d : Desc)
  | scanProfileLoad (dt : Nat) (d : Desc)
  | scanPhaseEdge (dt head : Nat)
  | scanPhaseLost (dt head : Nat)
  | scanPass (dt head : Nat) (bad : Bool)
  | scnClr (dt head : Nat)
  -- the colour solver (chapter 15)
  | solverCfg (dt : Nat) (d : Desc)
  | calLoad (dt : Nat) (d : Desc) (buf : HostBuf)
  | calCorrect (dt : Nat) (d : HistDesc)
  | solveDone (dt head : Nat) (readErr : Bool)
  | clrLimitedClear (dt head : Nat)
  -- the loop engine and set-points (chapters 16, 17)
  | loopSet (dt : Nat) (d : Desc)
  | chanEnable (dt : Nat) (d : Desc)
  | coefWrite (dt : Nat) (d : Desc)
  | loopSample (dt chan : Nat) (ys : List Int) (dist : Int) (sp : List Int) (sense : Int) (memErr : Option Nat)
  | spSafe (dt chan : Nat)
  | aoutUpdate (dt chan : Nat)
  | rampEnd (dt chan : Nat)
  | aoutRangeWrite (dt chan : Nat) (value : Word)
  | gleChClr (dt chan : Nat)
  | setpointCfg (dt : Nat) (d : Desc)
  | modeSet (dt : Nat) (d : Desc)
  | inject (dt : Nat) (d : Desc)
  | capture (dt : Nat) (d : Desc)
  | gleSpClr (dt chan : Nat)
  -- the HBM controllers (chapter 18)
  | freqSet (dt : Nat) (d : Desc)
  | hbmFreqMove (dt : Nat)
  | hbmFreqChanged (dt : Nat)
  | refreshDue (dt stack pc : Nat) (queued : Bool)
  | hbmRdWindow (dt : Nat)
  | memoryRequest (dt : Nat) (r : List MemReq)
  | hbmRdNeighbour (dt : Nat)
  | hbmParityFail (dt stack pc cause cmd : Nat)
  | hbmDiagDone (dt : Nat) (r : DiagResult)
  | hbmSpared (dt : Nat) (unreadable : List Nat)
  | channelSpare (dt : Nat) (d : Desc)
  | hbmCfgWrite (dt : Nat) (value : Word)
  | hbmClr (dt : Nat)
  -- training (chapter 19)
  | trnHelper (dt : Nat) (d : Desc)
  | trnSessionDone (dt stack pc steps : Nat) (pass : Bool) (report : SessionResult)
  -- stored-data protection (chapter 20)
  | regionCfg (dt : Nat) (d : Desc)
  | archiveReady (dt index : Nat)
  | errCounts (dt : Nat) (d : Desc)
  | bucketLeak (dt : Nat)
  | scrubRead (dt region offset err : Nat)
  | eccClr (dt : Nat)
  -- thermal (chapter 21)
  | sensorReading (dt sensor : Nat) (temp : Int) (fault : Option Nat)
  | thermWarnClear (dt zone : Nat)
  | throttleDecay (dt zone : Nat)
  | throttleRecover (dt zone : Nat)
  | thermLatchClear (dt : Nat)
  | thmRead (dt : Nat) (d : Desc)
  -- Catum Link (chapter 22)
  | catConfig (dt : Nat) (d : Desc) (buf : HostBuf)
  | frameLock (dt : Nat) (d : Desc)
  | catLinkPacket (dt port : Nat) (p : CatPkt)
  | catHello (dt port : Nat) (p : CatPkt)
  | catPacketBad (dt port : Nat) (p : CatPkt)
  | catPacketForward (dt port : Nat) (p : CatPkt)
  | mbReq (dt port : Nat) (p : CatPkt)
  | mbResp (dt port : Nat) (p : CatPkt)
  | catUcwRequest (dt port : Nat) (p : CatPkt)
  | catUcwReport (dt port : Nat) (p : CatPkt)
  | ucwDomainTimeout (dt : Nat)
  | catHostLost (dt port : Nat) (p : CatPkt)
  | fwdDesc (dt port : Nat) (p : CatPkt)
  | fwdCompl (dt port : Nat) (p : CatPkt)
  | dmaRdReq (dt port : Nat) (p : CatPkt) (buf : DmaBuf)
  | dmaRdData (dt port : Nat) (p : CatPkt)
  | dmaWr (dt port : Nat) (p : CatPkt)
  | catLedger (dt port : Nat) (p : CatPkt)
  | timeMark (dt port exchange : Nat) (answer : Bool)
  | timeReq (dt port : Nat) (p : CatPkt)
  | timeResp (dt port : Nat) (p : CatPkt)
  | timeExchange (dt : Nat)
  | timeRespTimeout (dt : Nat)
  | catLockPacket (dt port : Nat) (p : CatPkt)
  | lockAnnounceTimer (dt head : Nat)
  | lockRequestTimeout (dt head : Nat)
  | frameLockLost (dt head : Nat)
  | catTrainTimeout (dt port : Nat)
  | catTrainRetry (dt port : Nat)
  | catLinkDown (dt port cause : Nat)
  | helloTimer (dt : Nat)
  | catFollowerLost (dt device : Nat)
  | followHoldExpiry (dt : Nat)
  | mailboxGo (dt : Nat) (write : Bool)
  | mailboxTimeout (dt : Nat)
  -- provoked faults (chapter 23)
  | testArmed (dt : Nat)
  | testDisarmed (dt : Nat)
  | faultSet (dt : Nat) (d : Desc)
  | faultRulesCleared (dt : Nat)
  | faultReorderRelease (dt point rule : Nat)
  | faultDelayRelease (dt point rule : Nat)
  -- service life (chapter 24)
  | wearReport (dt : Nat) (d : Desc)
  | wearRecordSave (dt : Nat)
  | fwWriteSlot (dt : Nat) (d : Desc) (image : FwImage) (readErr : Option Nat)
  | blPin (dt : Nat) (d : Desc)
  -- the table's closing rows
  | pulseEdge (dt pulse : Nat) (edge : PinEdge)
  | auxFreeSample (dt aux : Nat) (code : Int)
  | catLaneLock (dt port lock : Nat) (aligned : Bool)
  | catLaneLockTimeout (dt port lane : Nat)
  | catAckTimer (dt port : Nat)
  | delayReqSend (dt : Nat)
  | portParkTimeout (dt port : Nat)
  | bankWriteDone (dt : Nat) (badSectors : List Nat)
  | slotWriteDone (dt : Nat) (badSectors : List Nat)
  | pwrStateAt (dt : Nat)
  | hostTransferDone (dt ring tag : Nat) (buf : HostBuf)
  | mgmtBusTransaction (dt addr : Nat) (pecOk : Bool) (op : MgmtOp)
  | pageIdleClose (dt stack pc bank : Nat)
  | pcieLinkChange (dt : Nat) (up : Bool) (width speed : Nat)
  | ethLinkChange (dt port : Nat) (link fec : Bool)
  deriving DecidableEq, Repr

end Sys2Proof
end

