-- ==== Sys2Proof/Config.lean ====
section
/-!
DEFINITION. What manufacture or an implementation fixes, and the values the spec leaves open.  Every constant here is
opaque: no proof can see a value of it, so a statement that holds of the model holds for every value
(notes/assumptions/3.md names each one).
-/

namespace Sys2Proof.Config

/-- The n-th free value: what a result that the spec calls undefined, or does not state, turns out to be. -/
opaque freeValue : Nat → Nat

/-- Neighbour set of a temperature sensor with the expected differences in 1/256 °C (R487), fixed at manufacture. -/
opaque neighbours : Nat → List (Nat × Int)

/-- Whether entry i of a preset table is rounded up: table 0 is a LUT by transfer and PEAK, 1 a matrix A by encoding, sampling and
range, 2 a matrix B by encoding and working primaries (R214). -/
opaque roundUp : List Nat → Nat → Bool

/-- The blue-noise threshold tile BN1 (R258): tile, x, y. -/
opaque bn1 : Nat → Nat → Nat → Nat

/-- What an Ethernet packet becomes when the listed bits of its UDP payload are inverted (R532). -/
opaque corruptPacket : List Nat → Nat → Nat

/-- A quotient by zero in the colour solve, by its dividend: the spec states no result there (R360, R363). -/
opaque divZero : Rat → Rat

/-- The DPCD capability byte of a DisplayPort sink, by MAX_RATE and address (R179). -/
opaque dpcd : Nat → Nat → Nat

/-- The factory value of a factory-only field ID, written once at manufacture (R94, Table 4.7). -/
opaque factoryOnly : Nat → Nat

end Sys2Proof.Config
end

