-- ==== Sys2Proof/Machine/State.lean ====
section
/-!
DEFINITION. The state of the module as plain data: every register, ring, buffer, counter, mode and pin that spec/
gives the BZ4832, the queue of waiting commands, the faults and refusals, and the state after reset.
INVENTORY.md, '## State', lists each field with its rule and its reset value.
-/

namespace Sys2Proof.Machine

/-! ### Power, clocks and pins (chapters 2 and 3) -/

/-- The power states of Table 1.6 (R32).  State holds P1 as p0; `powerNow` tells them apart by the frequency point. -/
inductive PowerState where
  | p0 | p1 | p2 | p3 | p4
  deriving DecidableEq, Repr

/-- Why an orderly stop of R72 is under way; it decides where LEDGER_SAVE leads. -/
inductive StopCause where
  | stage4 | stage5 | vinOver | refclkLost | p3Request | thermal | hostLink
  deriving DecidableEq, Repr

/-- How far the sequence of R72 has come: steps 1 and 2, or PARK sent and the save ahead. -/
inductive StopPhase where
  | ramping | saving
  deriving DecidableEq, Repr

/-- Supply, pins, interlock and clocks: R31, R51 to R58, R62 to R84. -/
structure Power where
  state       : PowerState        -- PWR_STAT.STATE, Table 3.8
  target      : Nat               -- PWR_STAT.TARGET, R78
  targetFp    : Nat               -- frequency point asked for with the target (R78)
  pendingSets : List Desc         -- accepted PWR_SET_STATEs whose AT is still to come (R78)
  inputValid  : Bool              -- R63
  overStop    : Bool              -- R64: stopped by VIN_OVER, wants 9.0 to 60.0 V for 100 ms
  vin         : Nat               -- PWR_VIN, mV
  vinMin      : Nat               -- PWR_VIN_MIN, mV
  stage       : Nat               -- highest recognised stage, 0 to 5 (R68, R69)
  thr         : List Nat          -- thresholds in force, mV, T_1 to T_4 (R67)
  hyst        : Nat               -- hysteresis in force, mV (R67)
  holdup      : Nat               -- PWR_HOLDUP.ENERGY, mJ (R66)
  fastClocks  : Bool              -- R82
  refclkOk    : Bool              -- the check of R43 passes
  resetB      : Bool              -- RESET_B asserted (R54, R55)
  perstB      : Bool              -- PERST_B asserted (R90, R143)
  stop        : Option (StopCause × StopPhase)   -- R72
  intlkLow    : Bool              -- GLE_INTLK_STAT.LEVEL: INTLK_B asserted and not yet released (R51)
  intlkCount  : Nat               -- GLE_INTLK_STAT.COUNT
  intlkStamp  : Nat               -- GLE_INTLK_STAMP
  intlkAt     : Nat               -- when the trip not yet released was detected, whatever GLE_INTLK_STAMP reads (R51, R81)
  intlkRise   : Nat               -- the rising edge of a low level since then that restarted the 10 ms, 0 = none (R51)
  bscan       : Bool              -- a test access port instruction forces the outputs (R58)
  bootStage   : Nat               -- of the stages still recognised, the highest recognised during start-up (R76)
  rampedDark  : Bool              -- stage 4 has completed its ramp to dark (R52)
  smbAddr     : Nat               -- management-bus address (R56, Table 4.8)
  pcieUp      : Bool              -- HST_STAT.LINK_UP
  pcieWidth   : Nat               -- HST_STAT.WIDTH
  pcieSpeed   : Nat               -- HST_STAT.SPEED
  pcieDownAt  : Option Nat        -- start of the 100 ms wait of Table 5.9
  deriving DecidableEq, Repr

/-! ### Start-up and the non-volatile image (chapters 4 and 24) -/

/-- One Clamp Report entry, Table 4.10. -/
structure ClampEntry where
  field  : Nat
  scope  : Nat
  rule   : Nat
  flags  : Nat
  bank   : Nat
  stored : Nat
  used   : Nat
  offset : Nat
  deriving DecidableEq, Repr

/-- A pending CAB_SELECT (R108 to R110): its descriptor, cabinet, the heads still to apply and AT. -/
structure PendingCab where
  desc    : Desc
  cabinet : Nat
  heads   : List Nat
  at_     : Nat
  diff    : Nat     -- class K and S values that differ and stay as they are (R108)
  values  : List (Nat × List (BitVec 8))   -- class H values of the cabinet selected
  cse     : Nat     -- CSE stamp of the head that applied last, 0 before the first (R109)
  deriving DecidableEq, Repr

/-- A bank or slot write (R100, R546); none of a descriptor when it came over the management bus. -/
inductive NorWrite where
  | bank (desc : Option Desc) (bytes : List (BitVec 8))
  | slot (desc : Option Desc) (slot : Nat) (image : FwImage)
  deriving DecidableEq, Repr

/-- Start-up progress and the NVM block's state: R87 to R111. -/
structure Startup where
  step       : Nat                 -- NVM_START_STAT.STEP
  ready      : Bool                -- NVM_START_STAT.READY
  degraded   : Bool                -- NVM_START_STAT.HBM_DEGRADED
  abandoned  : Bool                -- NVM_START_STAT.ABANDONED
  running    : Bool                -- a start-up is under way
  waking     : Bool                -- it is a wake from P3 (R85)
  factoryBad : Bool                -- both copies of the factory area fail (Table 4.3)
  bank       : Nat                 -- NVM_STAT.BANK
  gen        : Nat                 -- NVM_GEN
  bankBad    : Bool                -- NVM_STAT.BANK_BAD
  cabinet    : Nat                 -- NVM_STAT.CABINET
  cabPins    : Nat                 -- NVM_STAT.CAB_PINS: the pins at their last sampling (R55)
  bootCab    : Nat                 -- the cabinet that the pins selected at the last Keeper boot (R107, R108)
  cabSrc     : Bool                -- NVM_STAT.CAB_SRC, true = CAB_SELECT
  clamps     : List ClampEntry     -- at most 256 (R106)
  clampTotal : Nat                 -- NVM_CLAMP_COUNT.TOTAL
  readyStamp : Nat                 -- NVM_READY_STAMP
  kFields    : List (Nat × Nat)    -- class K values resolved at the last Keeper boot (R103, R107)
  sFields    : List (Nat × Nat)    -- class S values resolved at the last Keeper boot (R89, R107)
  hFields    : List (Nat × List (BitVec 8))   -- class H values of the cabinet in force (R102, R108)
  bankA      : List (BitVec 8)     -- user bank A as written in the flash, [] when erased
  bankB      : List (BitVec 8)     -- user bank B
  pendingCab : Option PendingCab
  norWrites  : List NorWrite         -- the first is under way, the others wait
  deriving DecidableEq, Repr

/-! ### Completions, the ledger and the rings (chapter 5) -/

/-- A completion or notice, Table 5.5, before PHASE is set. -/
structure Comp where
  tag     : Nat
  status  : Nat
  sq      : Nat                     -- the submission ring it answers (R125)
  freeRun : Bool
  notice  : Bool
  stamp   : Nat
  detail  : List (BitVec 8)
  db      : Nat
  irq     : Bool
  took    : Bool                    -- an entry of its ring was taken for it when its descriptor was fetched (R123)
  deriving DecidableEq, Repr

/-- A ledger record, Table 5.10, before PHASE is set. -/
structure Rec where
  event   : Nat
  device  : Nat
  unit    : Nat
  seq     : Nat
  freeRun : Bool
  saved   : Bool
  stamp   : Nat
  detail  : List (BitVec 8)
  deriving DecidableEq, Repr

/-- A submission ring: R117, R120 to R124. -/
structure SubRing where
  enabled   : Bool
  halted    : Bool
  haltedUcw : Bool                  -- halted by HALT_RINGS, not by a fetch error (R141)
  err       : Bool
  head      : Nat
  tail      : Nat
  stamps    : List (Nat × Nat)      -- (tail rung, doorbell stamp), oldest first (R117)
  credit    : Nat                   -- fetches left in this round (R123)
  heldTill  : Nat                   -- when it last resumed after a halt (R124)
  deriving DecidableEq, Repr

/-- A completion ring: R128, R130, R138. -/
structure CompRing where
  enabled : Bool
  phase   : Bool
  head    : Nat
  tail    : Nat
  taken   : Nat                     -- entries taken by fetched descriptors and not written yet (R123)
  hold    : List Comp               -- hold area, at most 256 (R130)
  unsent  : Nat                     -- completions posted since the last vector (R138)
  since   : Nat                     -- stamp of the first unsent completion
  freedAt : Nat                     -- when entries of it last came free while it was full (R124)
  deriving DecidableEq, Repr

/-- A ledger ring (PF0's, or the PF1 copy's) with its holding store: R116, R134, R135. -/
structure LedgerRing where
  enabled   : Bool
  phase     : Bool
  head      : Nat
  tail      : Nat
  hold      : List Rec              -- at most 16,384
  lost      : Nat                   -- records discarded since the last LEDGER_OVERFLOW
  lostFirst : Nat
  lostLast  : Nat
  lastOut   : Nat                   -- stamp of the last record delivered (R476)
  gap       : Nat                   -- records since then that read as uncorrectable (R476)
  deriving DecidableEq, Repr

/-- An Urgent Control Word action that has not finished (R141). -/
structure UcwRun where
  action : Nat
  heads  : List Nat
  ramps  : List Nat               -- channels whose ramp the action began (DARK_RAMP)
  word   : Nat                    -- the word as written, for UCW_ACTION
  pf1    : Bool                   -- written through PF1
  start  : Nat
  deriving DecidableEq, Repr

/-- The host interface: R112 to R145. -/
structure HostIf where
  locked     : Bool                 -- KPR_LOCK_STAT.LOCKED
  sq         : List SubRing         -- 256
  cq         : List CompRing        -- 256
  rrPrio     : Nat                  -- last PRIO ring fetched (R123)
  rrPlain    : Nat                  -- last other ring fetched
  fetched    : List Desc            -- copied, not begun: held by FENCE (R121, R124)
  begun      : List Desc            -- begun, first completion not yet posted
  dropped    : List Desc            -- begun before a PF1 function-level reset: their completions are discarded (R144)
  firsts     : List (Nat × Nat)     -- by submission ring, when its last first completion was posted (R124, R125)
  fences     : List (Nat × Nat)     -- by submission ring, the end of the hold of the last FENCE that began (R124)
  ucwAction  : Nat                  -- UCW_STAT bits 7:0
  ucwCount   : Nat                  -- UCW_STAT bits 15:8
  ucwReject  : Bool                 -- UCW_STAT.REJECTED
  ucwRuns    : List UcwRun          -- UCW_STAT.BUSY while not empty
  ingestStop : Bool                 -- STOP_INGEST
  bar4Count  : Nat                  -- writes discarded in the current millisecond (R114)
  bar4First  : Nat                  -- stamp of the first of them
  bar4Addr   : Nat
  loHeld     : List (Nat × BitVec 32)   -- _LO writes held for their _HI (R7)
  hiCap      : List (Nat × BitVec 32)   -- upper halves captured by _LO reads (R7)
  smbAlert   : Bool                 -- SMB_ALERT_B driven
  deriving DecidableEq, Repr

/-- The ledger: sequences (R157), start-up records (R91), the rings and the non-volatile save (R72). -/
structure Ledger where
  seqs      : List Nat              -- next SEQUENCE of each of the 64 units
  runs      : List (List (Nat × Nat))   -- of each unit: the stamps its records carry, and how many carry each (R157)
  startBuf  : List Rec              -- at most 1,024 (R91)
  startLost : Nat
  main      : LedgerRing
  pf1       : LedgerRing
  saved     : List Rec              -- in the flash, delivered with SAVED = 1
  deriving DecidableEq, Repr

/-! ### The timebase (chapter 6) -/

/-- Timebase states, Table 6.1. -/
inductive TimeState where
  | powerOn | acquiring | locked | holdover | slewing
  deriving DecidableEq, Repr

/-- What is measured towards the master heard on the other named port (R151, R152). -/
structure PtpPath where
  who   : Nat                       -- its source port identity
  sync  : Option (Nat × Nat)        -- origin and arrival of its last Sync
  sent  : Option Nat                -- departure stamp of the Delay_Req outstanding
  delay : Option Int                -- mean path delay
  deriving DecidableEq, Repr

/-- A master heard by Announce (R151): where from, what it says of its grandmaster, its interval, and the stamps of its last
Announce and of the one before (0 for none). -/
structure Foreign where
  port     : Nat
  sender   : Nat
  data     : MasterData
  interval : Int
  at_      : Nat
  prev     : Nat
  deriving DecidableEq, Repr

structure Timebase where
  state      : TimeState
  source     : Nat                  -- TMB_STAT.SOURCE
  portPri    : Nat
  portSec    : Option Nat
  domain     : Nat
  annTimeout : Nat
  dscp       : Nat
  vlan       : Nat
  port       : Nat                  -- TMB_STAT.PORT
  offset     : Int                  -- TMB_OFFSET
  utc        : Nat
  utcValid   : Bool
  gmId       : Nat
  slew       : Nat                  -- TMB_SLEW
  slewStart  : Nat                  -- stamp of SLEW_START
  slewFrom   : Nat                  -- stamp of the measurement that gave the remaining slew
  ptpDrop    : Nat
  refused    : Bool                 -- TMB_STAT.REFUSED
  refusedGm  : Option Nat           -- unbroken run of refusals against this grandmaster (R153)
  everLocked : Bool                 -- LOCKED at some time since input power was applied
  good       : Nat                  -- consecutive intervals within 100 ns (R152)
  bad        : Nat                  -- consecutive intervals beyond 1 us
  secGm      : Option Nat           -- grandmaster and offset seen on the secondary port (R152)
  secOffset  : Int
  reqSent    : Option Nat           -- departure stamp of the Delay_Req outstanding (R151)
  syncTs     : List (Nat × Nat × Nat × Nat)   -- two-step Syncs awaiting a Follow_Up: port, sender, sequence, arrival (R151)
  ratePpb    : Int                  -- rate correction held, at most 100 ppm (R152)
  lastSync   : Option (Nat × Nat)   -- origin and arrival of the last Sync measured (R151)
  pathDelay  : Option Int           -- mean path delay of the end-to-end mechanism (R151)
  other      : PtpPath              -- of the other named port (R152)
  masters    : List Foreign         -- masters heard by Announce on the selected ports (R151)
  parent     : Nat                  -- source port identity of the selected master
  reqSeq     : Nat                  -- sequence number of the next Delay_Req
  keeperPos  : Nat                  -- units since 16 crystal ticks of the Keeper began, while the fast clocks stand (R148)
  deriving DecidableEq, Repr

/-! ### Ingest (chapter 7) -/

/-- What FLOW_OPEN declares, Table 7.2. -/
structure FlowCfg where
  source    : Nat
  portPri   : Nat
  portSec   : Option Nat
  stampLog  : Bool
  width     : Nat            -- for SOURCE 1 the attached video context
  height    : Nat
  sampling  : Nat
  depth     : Nat
  packing   : Nat
  freeze    : Nat
  groupPri  : Nat
  groupSec  : Nat
  udpPri    : Nat
  udpSec    : Nat
  srcPri    : Nat
  srcSec    : Nat
  rateN     : Nat
  rateD     : Nat
  chainBase : Nat
  chainLen  : Nat
  pt        : Nat
  window    : Nat            -- in units of 10 us
  stampExh  : Nat
  deriving DecidableEq, Repr

/-- The open frame of a flow (R166 to R169). -/
structure OpenFrame where
  number   : Nat
  exh      : Option Nat                -- none: a starved frame, discarded whole
  tStart   : Nat
  rtp      : Nat
  got      : List (Nat × Nat)          -- sample ranges written, merged and rising (R167)
  endSeen  : Bool
  lastLine : Option Nat
  anc      : Nat                       -- bytes of ancillary payload written (R176)
  seqs     : List Nat                  -- extended sequence numbers received (R177)
  first    : Option Nat                -- its first extended sequence number, where the frame before it ended at a marker (R167)
  cut      : Bool                      -- the flow has frozen since it began: what arrives is discarded (R171)
  deriving DecidableEq, Repr

/-- A packet group being collected (R182). -/
structure Group where
  stamp : Nat
  first : Nat
  count : Nat
  pri   : Bool
  sec   : Bool
  start : Bool
  fin   : Bool
  last  : Nat
  deriving DecidableEq, Repr

inductive FlowState where
  | live | frozen | fallback
  deriving DecidableEq, Repr

/-- An open flow context: R163 to R184. -/
structure Flow where
  cfg        : FlowCfg
  desc       : Desc
  state      : FlowState
  frameNo    : Nat                     -- ING_FLOW_FRAME: last frame number begun
  begunAny   : Bool
  lastStart  : Nat                     -- T_start of the last frame begun
  lastRtp    : Nat
  closedRtps : List Nat                -- RTP timestamps of frames closed since (late data, R168)
  starvedRtps : List Nat               -- RTP timestamps of starved frames, whose packets are not whey (R166)
  frames     : List (Nat × Nat)        -- RTP timestamp and number of each frame begun, newest first (R176)
  newest     : Option (Nat × Nat)      -- newest complete frame: handle and frame number
  fresh      : List (Nat × Nat × Nat)  -- completed frames: completion stamp, handle, frame number (R167)
  frozenAt   : Option Nat              -- freeze start (R170)
  openFrame  : Option OpenFrame
  starveRun  : Bool                    -- within an unbroken run of starved frames (R166)
  incomplete : Nat
  whey       : Nat
  midframe   : Nat
  starved    : Nat
  dup        : Nat
  pathPri    : Bool
  pathSec    : Bool
  lastPri    : Nat                     -- stamp of the path's last packet, of FLOW_OPEN before the first (R178)
  lastSec    : Nat
  lostPri    : Bool                    -- PATH_LOST recorded (R178)
  lostSec    : Bool
  group      : Option Group
  logIdx     : Nat
  closing    : Option (List Desc)      -- the flow is to stop, revoked or by the FLOW_CLOSE descriptors that wait (R172)
  due        : List (Nat × Option OpenFrame)   -- deadlines still to pass: T_start, and a superseded frame (R168)
  nextSeq    : Option Nat              -- the extended sequence number after the newest frame's marker (R167)
  attached   : Bool                    -- an ancillary flow whose video flow has not closed (R176)
  deriving DecidableEq, Repr

/-- An Ethernet port: R174. -/
structure EthPort where
  link    : Bool
  fec     : Bool
  stopped : Bool                       -- stopped by stage 2 (R173)
  whey    : Nat
  drop    : Nat
  deriving DecidableEq, Repr

/-- A DisplayPort sink: R179, R180. -/
structure DpSink where
  trained   : Bool
  rate      : Nat
  lanes     : Nat
  stopped   : Bool
  discard   : Bool                     -- the present frame is discarded: a format mismatch, or a flow that stops
  begun     : Bool                     -- the flow began a frame at the present one's first line
  line      : Option Nat               -- last active line received, none in vertical blanking
  deriving DecidableEq, Repr

/-- A host-memory transfer of a descriptor under way: R181, R192, R193, R223, R248, R258, R288, R347. -/
structure Transfer where
  desc   : Desc
  opcode : Nat
  object : Nat                         -- exhibit handle, flow context or head
  force  : Bool
  held   : Option Nat                  -- a held write: frame number of the retire at which it began (R193)
  torn   : List (Nat × Nat)            -- head frames already recorded by EXH_TORN for this write
  fin    : Bool                        -- HOST_PUSH END
  group  : Option Group := none        -- the packet group of a HOST_PUSH (R182)
  place  : Nat := 0                    -- HBM address of an exhibit transfer's first byte, fixed when it begins (R192)
  item   : Nat := 0                    -- number of its admitted item, 0 for none (R192, R198)
  deriving DecidableEq, Repr

structure Ingest where
  flows    : List (Nat × Flow)         -- open contexts
  closed   : List (Nat × Flow)         -- closed flows whose layers still follow R170 (R172)
  eth      : List EthPort              -- 4
  dp       : List DpSink               -- 2
  pushStop : Bool                      -- the host-push instance is stopped by stage 2
  deriving DecidableEq, Repr

/-! ### Exhibits and admission (chapter 8) -/

inductive ExhState where
  | free | filling | ready | pinned | retiring
  deriving DecidableEq, Repr

/-- A pending EXH_FREE: its descriptor, RELEASE and whether it waits for a fill. -/
structure PendFree where
  desc     : Desc
  release  : Bool
  afterFill : Bool
  deriving DecidableEq, Repr

/-- One entry of the queue behind a pinned exhibit: a held write or a deferred free, in ring order (R191). -/
inductive Held where
  | write (d : Desc) (item : Nat)
  | free (f : PendFree)
  deriving DecidableEq, Repr

/-- A registered exhibit: R185 to R194. -/
structure Exhibit where
  kind     : Nat
  archive  : Bool
  base     : Nat
  size     : Nat
  sampling : Nat
  depth    : Nat
  width    : Nat
  height   : Nat
  pitch    : Nat
  state    : ExhState
  frame    : Nat                       -- ADM_EXH_FRAME: frame number of its last pin
  number   : Nat                       -- flow frame number it carries (R167)
  pins     : List (Nat × Nat)          -- head and frame, one pin per head (R189)
  fences   : List Nat                  -- stamps of the retire fences at which a pin on it retired, newest first (R191)
  held     : List Held
  deriving DecidableEq, Repr

/-- What an admitted item is (Table 8.6). -/
inductive ItemKind where
  | flow (ctx : Nat)
  | transfer (ring tag n : Nat)        -- n tells items of one ring and TAG apart, as a TAG is not unique (R126)
  | head (k : Nat)
  | layer (k l : Nat)
  | recipe (k : Nat)
  | motion (k : Nat)
  | port (k p : Nat)
  | scan (k : Nat)
  | loopSet (c : Nat) (owner : Option Nat) (core : Bool)
  | capture (ctx : Nat) (on : Option Nat)
  deriving DecidableEq, Repr

/-- An admitted item: R198 to R201.  `units` and `old` pair a capacity slot of R204 with budget units. -/
structure Item where
  kind    : ItemKind
  cls     : Nat                        -- CLASS flag: 0 C, 1 B, 2 A
  stamp   : Nat                        -- admission stamp
  desc    : Desc                       -- the descriptor that admitted it
  units   : List (Nat × Nat)
  old     : List (Nat × Nat)           -- units of the item it replaces, released when it takes effect
  leaving : Bool                       -- revoked, not yet stopped (R29)
  deriving DecidableEq, Repr

structure Admission where
  exhibits  : List (Nat × Exhibit)
  items     : List Item
  caps      : List Nat                 -- ADM_CAP0 to 43
  passes    : Nat
  lastRev   : Nat
  fpPriced  : Nat
  pendingCaps : List (Nat × Nat)       -- a scheduled shrink, taken hold of by CAPACITY_SHRINK_HOLD (R202)
  inForce   : List (Nat × Nat)         -- of each slot, the frequency point and θ x 256 its capacity stands at (R196, R202)
  transfers : List Transfer
  deriving DecidableEq, Repr

/-! ### Heads: composition, layers and commit (chapters 1, 9 and 10) -/

/-- What a head configuration fixes, Table 9.1, with the anchor of R15. -/
structure HeadCfg where
  scan       : Bool                    -- MODE
  forerunner : Nat
  rateN      : Nat
  rateD      : Nat
  anchor     : Nat                     -- A
  anchorF    : Nat                     -- a
  lead       : Nat                     -- L
  guard      : Nat                     -- G
  canvasW    : Nat
  canvasH    : Nat
  ports      : Nat                     -- mask
  channels   : Nat                     -- mask
  comp       : List Nat                -- COMP_EXH0 to 2
  peak       : Nat
  bg         : List Nat                -- three working values
  prims      : List Nat                -- PRIM_R, PRIM_G, PRIM_B, WHITE
  f0         : List Nat := []          -- F_0 as its block named it, and as R16 moved it (R207)
  deriving DecidableEq, Repr

/-- The conversion tables of a layer (Table 9.5): matrices A and B, nine coefficients and three offsets each,
and the LUT, three times 4,096 entries. -/
structure ConvTables where
  matA : List Int
  matB : List Int
  lut  : List Nat
  deriving DecidableEq, Repr

/-- One layer's state, Table 9.4. -/
structure Layer where
  enable   : Bool
  srcFlow  : Bool
  hidden   : Bool                      -- FALLBACK_HIDDEN
  full     : Bool                      -- FULL_RANGE
  blend    : Nat
  source   : Nat                       -- exhibit handle, or flow context when srcFlow
  z        : Nat
  tf       : Nat
  enc      : Nat
  hset     : Nat
  vset     : Nat
  srcX     : Nat
  srcY     : Nat
  srcW     : Nat
  srcH     : Nat
  dstX     : Int
  dstY     : Int
  dstW     : Nat
  dstH     : Nat
  alpha    : Nat
  tables   : ConvTables
  fill     : List Nat
  key      : List Nat
  deriving DecidableEq, Repr

/-- One phase of a coefficient set: layer, set, phase and its eight taps (R241). -/
structure CoefPhase where
  layer : Nat
  set   : Nat
  phase : Nat
  taps  : List Int
  deriving DecidableEq, Repr

/-- A shadow of a head (R228): what LAYER_SET, COEF_LOAD, DITHER_LOAD, SCAN_PROFILE_LOAD and R207 wrote. -/
structure Shadow where
  layers  : List (Nat × Layer)
  coefs   : List CoefPhase
  dither  : List (Nat × List Nat)      -- tile, 65,536 entries
  profile : Option (List Int)          -- slow-axis profile p_0 to p_(POINTS-1) (R347)
  guard   : Option Nat
  peak    : Option Nat
  bg      : Option (List Nat)
  prims   : Option (List Nat)
  deriving DecidableEq, Repr

/-- One write that waits in the open shadow, with its ring and the stamp at which it completed (R228). -/
structure ShadowWrite where
  ring   : Nat
  at_    : Nat
  shadow : Shadow
  deriving DecidableEq, Repr

/-- A commit waiting for its CSE (R229): the frame it names, late where its target is another already. -/
structure PendCommit where
  desc  : Desc
  frame : Nat
  late  : Bool
  group : Option Nat                   -- GROUP_ID of a group commit
  deriving DecidableEq, Repr

structure Sealed where
  target  : Nat
  shadow  : Shadow
  commits : List PendCommit
  deriving DecidableEq, Repr

/-- Validation outcome of a video layer in force (Table 10.1, Table 10.4). -/
structure ScalerStat where
  widthIn  : Nat
  d        : Nat                       -- 1, 2 or 4
  reason   : Nat
  hset     : Nat
  vset     : Nat
  hstep    : Nat
  vstep    : Nat
  deriving DecidableEq, Repr

/-- What a layer reads in the frame in force: the exhibit and its frame number, none for its fallback. -/
structure Taken where
  layer  : Nat
  handle : Option Nat
  number : Nat
  run    : Bool                        -- within an unbroken run of unavailable frames (R189)
  deriving DecidableEq, Repr

/-- A Vitrine setting (Table 9.7) waiting for its CSE. -/
structure VitSet where
  desc    : Option Desc                -- none: from the management bus
  flags   : Nat
  canvasW : Nat
  canvasH : Nat
  key     : Nat
  db      : Nat
  deriving DecidableEq, Repr

structure Vitrine where
  content : Bool                       -- CONTENT_EN
  mask    : Bool                       -- MASK_EN
  bank    : Nat                        -- active bank
  gate    : Bool
  loaded  : Bool
  canvasW : Nat
  canvasH : Nat
  factors : List (List Nat)            -- two tables of 256 factors, [] stands for all 4,096
  pending : List VitSet
  deriving DecidableEq, Repr

/-- The composition pipe of a head. -/
structure Pipe where
  cfg       : Option HeadCfg
  nextRate  : Option (Nat × Nat × Nat × Nat)   -- frame m, N, D, L waiting for F_m (R207)
  reAt      : Option Nat               -- F* when F_m moves to it: a frame-lock re-anchor (R522)
  forms     : List Nat                 -- block offsets whose value came from the profile (R102, R108)
  cls       : Nat
  count     : Nat                      -- compose count at the next CSE (R209)
  frame     : Nat                      -- CMP_HEADk_FRAME
  cse       : Nat                      -- CMP_HEADk_CSE
  composing : Bool                     -- between a CSE and its retire fence
  composed  : List (Nat × Nat)         -- frame and compose count of the three frames composed last, newest first (R209)
  retired   : Nat                      -- stamp of the last retire fence
  late      : Nat
  gapMin    : Nat
  fence     : Nat                      -- ADM_FENCEk
  layers    : List (Nat × Layer)       -- in force
  coefs     : List CoefPhase           -- in force; a phase not listed is bilinear (R244)
  dither    : List (Nat × List Nat)    -- in force; a tile not listed is BN1 (R258)
  openSh    : List ShadowWrite         -- the open shadow, oldest write first (R228)
  sealed_   : List Sealed              -- at most two
  frMap     : List (Nat × Nat)         -- generic layer to layer code (R219)
  decim     : Nat                      -- mask
  disabled  : Nat                      -- mask of layers disabled by the commit in force
  scaler    : List ScalerStat          -- four
  taken     : List Taken
  lbErr     : Nat
  releasing : Option (Desc × Nat)      -- HEAD_RELEASE and the frame not composed
  stopping  : Bool                     -- revoked, stops at its next CSE (R29)
  shift     : List Int                 -- the TIMELINE_SHIFTs owed at the head's next flip, oldest first (R18)
  parkDue   : Option (Nat × Nat × Nat) -- PARK owed once dark: port mask, channel mask, cause
  flipped   : Nat                      -- last frame whose first flip has been reached
  flipAny   : Bool
  flips     : List (Nat × Nat)         -- frame and stamp of the last three first flips reached, newest first (R15)
  bg0       : List Nat                 -- BG in force for composition
  safeDark  : Bool                     -- the head's ports send no plane and no pass mark after a freeze (R438)
  deriving DecidableEq, Repr

/-! ### Recipes and the Press (chapter 11), motion rendering (chapter 12) -/

structure ArrayEnt where
  ports : Nat
  seq   : Nat
  cls   : Nat
  wx    : Nat
  wy    : Nat
  ww    : Nat
  wh    : Nat
  deriving DecidableEq, Repr

structure Slot where
  seq    : Nat
  order  : Nat
  prim   : Nat
  bit    : Nat
  amp    : Nat
  settle : Nat
  offset : Nat
  onTime : Nat
  deriving DecidableEq, Repr

/-- A validated Recipe: Tables 11.2 to 11.4, or Tables 14.1 and 14.2 in scan-line mode. -/
structure Recipe where
  id      : Nat
  stores  : List Nat
  dither  : Nat
  tiles   : Nat
  seqs    : Nat
  depth   : List Nat
  depthR  : List Nat
  chans   : List Nat
  arrays  : List ArrayEnt
  slots   : List Slot
  scan    : List Nat                   -- scan-line header fields (R341), [] in plane mode
  red     : Bool                       -- form at its admission (R272)
  first   : Nat                        -- the frame from which it was applied (R269)
  dark    : List (Nat × Nat × Nat)     -- its RECIPE_SLOT_DARK slots: first dark frame, sequence, order (R276)
  deriving DecidableEq, Repr

structure MotionCfg where
  source  : Nat
  ref     : Nat
  confMin : Nat
  occThr  : Nat
  band    : Nat
  fields  : List Nat
  pyrs    : List Nat
  deriving DecidableEq, Repr

/-- What the Press works from in frame n, as it stood when the frame was begun (R25, R256, R258, R284). -/
structure PressEnv where
  k      : Nat
  c      : HeadCfg
  n      : Nat
  cnt    : Nat                         -- compose count of frame n
  motion : Option MotionCfg            -- in force with a usable field
  band   : Nat                         -- BAND of the motion rendering in force, usable field or not, 0 with none (R285)
  prev   : Bool                        -- prev_ok
  dither : List (Nat × List Nat)
  vit    : Vitrine
  mix    : List Int                    -- E as loaded at PSE
  errs   : PressErr                    -- failed reads met (R276, R296)
  deriving DecidableEq, Repr

/-- A frame being pressed: its Recipe and form, and how many of its tiles have been taken in the order of R255. -/
structure PressJob where
  env     : PressEnv
  recipe  : Recipe
  reduced : Bool
  taken   : Nat
  deriving DecidableEq, Repr

structure Press where
  recipe    : Option Recipe            -- applied at a CSE and governing frames from `since`
  since     : Nat
  old       : List (Nat × Recipe × Bool)   -- what governed before it: first frame, Recipe, form; newest first (R269)
  gone      : Option (Nat × Recipe × Bool) -- what governed the frame before the one shown, for passes that end late (R331)
  reduced   : Bool                     -- form in force
  wantForm  : Option (Bool × Nat)      -- form change due at the first CSE at or after the stamp (R71, R272)
  pending   : Option (Recipe × Desc)
  pressing  : Option Nat
  job       : Option PressJob          -- the frame being pressed
  frame     : Nat
  pressed   : List Nat                 -- frames in the plane store, newest first, at most two
  slackMin  : Nat
  darkTiles : Nat
  done      : Nat
  deriving DecidableEq, Repr

structure Motion where
  cfg       : Option MotionCfg
  since     : Nat
  pending   : Option (MotionCfg × Desc)
  ending    : Bool                     -- ends at the next CSE (R294)
  fieldsFor : List Nat                 -- frames whose field has been written in time
  kept      : List Nat                 -- compose counts whose pyramid stands in PYR_EXH, newest first (R289)
  missRun   : Bool
  fieldOk   : Bool
  prevOk    : Bool
  lowConf   : Nat
  occ       : Nat
  clip      : Nat
  miss      : Nat
  deriving DecidableEq, Repr

/-! ### Plane Link (chapter 13) -/

inductive CaveState where
  | off | entering | hold | leaving
  deriving DecidableEq, Repr

structure Cave where
  state   : CaveState
  armed   : Nat                        -- COUNT with MODE 1, 0 when not armed
  run     : Nat                        -- consecutive identical frames
  frame   : Nat                        -- loop frame m
  request : Option Nat                 -- doorbell stamp of a MODE 0 entry not yet begun (R320, R323)
  desc    : Option Desc                -- CAVE_ENTER waiting for F_(m+1)
  exitAt  : Nat                        -- t_x
  cause   : Nat
  live    : Nat                        -- first live frame after the exit
  exits   : List Desc                  -- CAVE_EXIT waiting for F_n
  changed : Bool                       -- a change of R320 since the last CSE
  latest  : Nat                        -- latest doorbell stamp of a change that waits for its CSE (R321)
  lost    : Nat                        -- channels ramped dark by a lost loop, to run again from F_n (R325)
  deriving DecidableEq, Repr

inductive PortState where
  | down | bitlock | align | caps | ready | hold | failed
  deriving DecidableEq, Repr

/-- A Plane Link packet that waits for credit (R314), or that the port still holds for retransmission (R315). -/
structure SentPkt where
  psn     : Nat
  type_   : Nat
  flags   : Nat                        -- FLAGS of its header (Table 13.4)
  stamp   : Nat                        -- STAMP: S of its slot, t_s of its pass
  frame   : Nat
  order   : Nat
  primary : Nat
  offset  : Nat
  len     : Nat
  word    : Nat
  payload : List (BitVec 8)            -- PASS, WARP and STATUS; the stores are read when a packet is sent
  bad     : Nat                        -- 1: its store read fails, 2: the substitute read too (R316)
  rev     : Bool                       -- BEAM_DATA of a reverse pass
  line    : Nat                        -- BEAM_DATA: the line it carries
  deriving DecidableEq, Repr

structure Port where
  state    : PortState
  owner    : Option Nat                -- configured for this head
  scan     : Bool
  pair     : Option Nat                -- the other port of a locked pair
  split    : Nat
  cls      : Nat
  ww       : Nat
  wh       : Nat
  rtx      : Nat
  pol      : Nat
  lock     : Nat                       -- lock mask of the nine lanes
  spared   : Nat                       -- logical lane on the reserve, 15 = none
  spareReq : Nat                       -- SPARE_LANE with SPARE_NOW, 15 = none
  told     : Nat                       -- head state of the last STATUS sent (R308)
  caps     : List Nat                  -- six pages
  capsSeen : Nat                       -- mask of the pages received in this training
  limit    : Nat
  used     : Nat                       -- C
  credited : Bool                      -- a CREDIT has been received since training
  psn      : Nat
  parked   : Bool
  desc     : Option Desc               -- PORT_CONFIG still training
  parkDesc : List (Desc × Nat)         -- PORT_PARK waiting for parked, and when it sent PARK (R319)
  parkOwed : Option Nat                -- a PARK that waits for credit or for training, with its cause (R314, R325)
  ending   : Bool                      -- its head has stopped: DOWN once the PARK has gone (R210)
  sent     : List SentPkt
  queue    : List SentPkt              -- costed packets that wait for credit, in order (R314)
  lastLoad : Option (Nat × Nat)        -- frame and order of the last slot whose loading began (R313)
  trainAt  : Nat                       -- start of the training under way (R305, R306)
  lastRet  : Nat                       -- stamp of the last return message (R306)
  nak      : Nat
  retry    : Nat
  stale    : Nat
  subst    : Nat
  retErr   : Nat
  badRun   : List Nat                  -- stamps of CRC-failed return messages in the last 1 ms
  bip      : List Nat
  lastSend : Nat
  lastStatus : Nat                     -- when the last STATUS went (R308)
  crc      : Nat                       -- CRC-32 register over the image that is being read, for PLANE_CRC (R309)
  readyAt  : Nat                       -- resumes at the first F_n at least T_lead after this (R306)
  loopEnd  : Bool                      -- the next FLIP carries LOOP_END (R324)
  deriving DecidableEq, Repr

/-! ### Scan-line mode (chapter 14) -/

structure ScanCfg where
  port     : Nat
  fastChan : Nat
  slowChan : Nat
  pulse    : Nat
  fastAin  : Nat
  active   : Nat
  fastMin  : Nat
  fastMax  : Nat
  phaseOfs : Nat
  ampTgt   : Nat
  ampMin   : Nat
  line0    : Nat
  deriving DecidableEq, Repr

inductive ScanLock where
  | idle | acquiring | locked | lost
  deriving DecidableEq, Repr

/-- A predicted pass: start, half-period T_h in 1/256 units, reverse (R332). -/
structure PassPred where
  start   : Nat
  th      : Nat
  reverse : Bool
  deriving DecidableEq, Repr

/-- A pass the port has announced, or will (R331, R335). -/
structure PassAnn where
  start   : Nat
  th      : Nat
  reverse : Bool
  id      : Nat                        -- PASS_ID
  frame   : Nat
  g       : Nat
  line    : Nat                        -- its line and order, 0 beyond the last line
  order   : Nat
  dark    : Bool
  deriving DecidableEq, Repr

/-- The light window of a pass (R342). -/
structure PassWin where
  opens   : Nat
  closes  : Nat
  frame   : Nat
  order   : Nat
  deriving DecidableEq, Repr

structure Scan where
  cfg     : Option ScanCfg
  since   : Nat                        -- first frame it governs
  pending : Option (ScanCfg × Desc)
  nextCfg : List (ScanCfg × Nat)       -- applied at CSEs, each governs from its F_n; oldest first
  lock    : ScanLock
  edges   : List Nat                   -- last nine edge stamps, newest first
  good    : Nat
  t8      : Nat
  preds   : List PassPred              -- predicted, not yet announced
  ann     : List PassAnn               -- announced, not yet started
  annFrame : Nat                       -- frame of the last pass announced
  annNext : Nat                        -- g of the next pass announced in it
  warped  : Nat                        -- first frame of the set-up whose WARP was sent last (R335)
  lastEdge : Nat                       -- SCN_HEADk_EDGE: stamp of the last edge
  lit     : Nat                        -- passes started of the present frame up to the last that output allowed (R331)
  outFrom : Option Nat                 -- first frame after the lock (R333)
  wins    : List PassWin               -- light windows of the last passes and those announced, newest last
  th      : Nat                        -- T_h of the last pass
  thSum   : Nat                        -- T_h of the passes of the present frame started so far, summed, and how many (R360)
  thN     : Nat
  output  : Bool                       -- passes carry samples
  frame   : Nat                        -- frame the passes belong to
  pass    : Nat                        -- g of the last pass started
  line    : Nat                        -- line carried, 65535 = dark
  passId  : Nat
  amp     : Nat                        -- amplitude of the last pass
  ampRun  : Nat                        -- largest |code| so far in the present pass
  lowRun  : Nat                        -- consecutive passes below AMP_MIN
  cut     : Nat
  lost    : Nat
  profile : List Int                   -- profile in force, [] before any
  nextProfile : List (List Int × Nat)  -- applied at CSEs, each governs from its F_n; oldest first
  deriving DecidableEq, Repr

/-! ### The colour solver (chapter 15) -/

/-- A channel entry of a calibration, Table 15.3. -/
structure CalEntry where
  chan  : Nat
  ain   : Nat
  tsrc  : Nat
  tidx  : Nat
  dark  : Int
  resp  : Nat
  cx    : Int
  cy    : Int
  tGain : Int
  tOff  : Int
  ax    : Int
  ay    : Int
  bx    : Int
  by_   : Int
  ak    : Int
  deriving DecidableEq, Repr

structure Calib where
  tRef    : Int
  fixed   : List Int                   -- six rows of three
  share   : List Nat
  entries : List CalEntry
  deriving DecidableEq, Repr

structure SolverCfg where
  closed   : Bool                      -- MODE
  policy   : Nat
  jump     : Bool
  lum      : Nat
  skip     : Nat
  minSamp  : Nat
  staleN   : Nat
  headWarn : Nat
  deriving DecidableEq, Repr

/-- A SOLVER_CFG, CAL_LOAD or CAL_CORRECT waiting for F_m (R356). -/
inductive SolverChange where
  | cfg (c : SolverCfg)
  | cal (c : Calib)
  | correct (prim : Nat) (f dx dy : Int)
  deriving DecidableEq, Repr

/-- What one channel has accumulated and last gave (R358). -/
structure Meas where
  chan  : Nat
  n     : Nat
  sumY  : Int
  sumA  : Int
  sumT  : Int
  lastN : Nat                          -- samples of the last frame that ended
  light : Option (Rat × Rat × Rat × Rat)   -- T_c, x_c, y_c, eta_c of the last frame in which it was measured
  deriving DecidableEq, Repr

/-- What the solve of a displayed frame works from: settings, Recipe and form, P_m, mean half-period and measurements
(R356, R360). -/
structure Closed where
  frame  : Nat
  cfg    : SolverCfg
  cal    : Option Calib
  recipe : Option (Recipe × Bool)
  period : Nat
  th     : Nat × Nat                   -- T_h of its passes summed, and how many
  meas   : List Meas
  past   : Bool                        -- the calibration has changed since the frame ended (R366)
  deriving DecidableEq, Repr

/-- Estimates kept for one measured frame (R366): Phi of each primary and the predicted white, 24 fraction bits. -/
structure Estimate where
  frame : Nat
  phi   : List (List Int)
  white : List Int
  deriving DecidableEq, Repr

/-- A solved load waiting for its PSE (R25). -/
structure SolveLoad where
  frame     : Nat                      -- frame measured
  at_       : Nat                      -- frame m + 2 at whose first flip it loads
  target    : List Rat                 -- the entries before the limiter, 24 fraction bits (R362)
  closed    : Bool                     -- MODE of its solve
  policy    : Nat                      -- and POLICY
  stale     : Bool                     -- a primary was stale
  exhausted : Bool                     -- headroom was exhausted (R361)
  gamutOut  : Bool                     -- an entry of D was negative
  white     : Nat                      -- WHITE
  phi       : List (Rat × Rat × Rat)   -- Phi it was solved from
  temps     : List Int                 -- mean T_c per primary, 1/256 C
  deriving DecidableEq, Repr

structure Solver where
  cfg       : SolverCfg
  cal       : Option Calib
  pending   : Option (SolverChange × Desc × Nat)   -- change, its descriptor, frame m
  e         : List Int                 -- E in force, six rows of three
  jumpDue   : Option Nat               -- the first load measured from this frame on bypasses the limiter (JUMP)
  meas      : List Meas
  closed    : List Closed              -- frames ended, not yet solved, oldest first
  loads     : List SolveLoad
  history   : List Estimate            -- at most 64, newest first
  staleRun  : Nat
  staleMask : Nat
  staleHold : Bool                     -- holding under R359
  holding   : Bool                     -- holding under R364
  exhausted : Bool                     -- headroom exhausted in the last solve (R361)
  lowHead   : Bool
  loadedExh : Bool                     -- and in the solve of the last load
  gamutOut  : Bool                     -- of the last load
  inRange   : Bool
  limited   : Bool
  limitedN  : Nat
  frame     : Nat                      -- CLR_HEADk_FRAME
  duv       : Nat
  lum       : Nat
  temps     : List Int                 -- mean T_c per primary for the last load, 1/256 C
  est       : List (List Int)          -- Phi of each primary for the last load, 24 fraction bits
  deriving DecidableEq, Repr

/-- One head of the module. -/
structure Head where
  pipe   : Pipe
  vit    : Vitrine
  press  : Press
  motion : Motion
  cave   : Cave
  scan   : Scan
  solver : Solver
  deriving DecidableEq, Repr

/-! ### The Gheler loop engine and set-points (chapters 16 and 17) -/

inductive ChanState where
  | off | run | ramp | unavailable
  deriving DecidableEq, Repr

/-- A loop set, Table 16.4. -/
structure LoopCfg where
  sched   : Bool
  n       : Nat
  m       : Nat
  ts      : Nat
  ins     : List Nat                   -- IN0 to IN2
  dsrc    : Nat
  didx    : Nat
  lead    : Nat                        -- stamp units
  holdoff : Nat
  rDark   : Int
  rFull   : Int
  uMin    : Int
  uMax    : Int
  deriving DecidableEq, Repr

/-- The set-point configuration of a channel, Table 17.2. -/
structure SpCfg where
  source  : Nat
  input   : Nat
  accSh   : Nat
  value   : Int
  gain    : Int
  offset  : Int
  rateMax : Int
  accMax  : Int
  fFull   : Nat
  validLo : Int
  validHi : Int
  holdT   : Nat
  safe    : Int
  deriving DecidableEq, Repr

inductive InputState where
  | live | holding | safe
  deriving DecidableEq, Repr

/-- A stored MODE_SET (R406). -/
structure ModeReq where
  desc    : Desc
  mode    : Nat
  hold    : Bool
  uMan    : Int
  members : List Nat
  at_     : Nat
  deriving DecidableEq, Repr

/-- A test signal, Table 17.5. -/
structure Injection where
  desc   : Desc
  point  : Nat
  wave   : Nat
  div    : Nat
  amp    : Int
  freq0  : Int
  freq1  : Int
  seed   : Nat
  count  : Nat
  start  : Nat
  active : Bool
  i      : Nat
  phase  : Nat
  lfsr   : Nat
  bit    : Bool
  stops  : List (Desc × Nat)           -- WAVE 4 waiting, with START
  deriving DecidableEq, Repr

/-- A capture session, Table 17.6. -/
structure CaptureS where
  desc    : Desc
  ctx     : Nat
  trigger : Nat
  decim   : Nat
  count   : Nat
  pre     : Nat
  exh     : Nat
  sels    : List Nat
  start   : Nat
  state   : Nat                        -- 0 none, 1 armed, 2 triggered, 3 done
  phase   : Nat                        -- samples since the last record
  preN    : Nat                        -- records written before the trigger
  written : Nat
  trig    : Nat
  lastTgt : Option Int
  revoked : Bool
  deriving DecidableEq, Repr

/-- A COEF_WRITE whose entries wait, one per sample (R391). -/
structure CoefReq where
  desc    : Desc
  entries : List (Nat × Int)
  at_     : Nat                        -- completion of the checks
  deriving DecidableEq, Repr

/-- The output of a sample that waits for its AOUT update (R371 item 5). -/
structure NextOut where
  due  : Nat                           -- (j + 1) × T_s
  u    : Int
  r    : Int
  hold : Bool                          -- R378 does not act on it: manual or a select group (R407, R411)
  deriving DecidableEq, Repr

/-- What CHAN_ENABLE still owes a channel (R386). -/
structure EnableReq where
  action : Nat
  at_    : Nat                         -- the later of AT and the completion of the checks
  desc   : Desc
  acted  : Nat                         -- the latest instant at which another channel of the mask has acted
  deriving DecidableEq, Repr

/-- One Source Control Channel with the state of its slot. -/
structure Chan where
  state    : ChanState
  slot     : Nat                       -- 63 = none
  cause    : Nat
  cfg      : Option LoopCfg
  pendCfg  : Option (LoopCfg × Desc × Option Nat)   -- LOOP_SET waiting, and frame n where it waits for F_n (R394)
  pendAt   : Nat                       -- when the LOOP_SET that waits was admitted
  coefs    : List (Nat × Int)          -- index and value; an index not listed is 0 (R391)
  coefQ    : List CoefReq              -- COEF_WRITEs waiting, oldest first
  x        : List Int                  -- eight states
  z        : Int
  uPrev    : Int
  dPrev    : Int
  u        : Int                       -- u_j of the most recent sample applied
  rj       : Int                       -- r_j
  r        : Int                       -- set-point in force, before injection
  applied  : Bool                      -- a sample's output is in force since the entry to RUN
  uHold    : Bool                      -- R378 does not act on it
  uNew     : List NextOut              -- outputs that wait for their AOUT update, oldest first
  held     : Option Nat                -- set-point held at R_DARK after the stamp of a freeze (R438)
  upd      : Nat                       -- stamp of the last AOUT update
  code     : Int                       -- GLE_CHc_OUT, after the clamp
  satHi    : Bool
  satLo    : Bool
  gate     : Bool
  unsat    : Nat                       -- samples since the last saturated one (R377)
  sat      : Nat
  clampHit : Nat
  clampRun : Bool
  sample   : Nat                       -- GLE_CHc_SAMPLE
  edge     : Nat                       -- last sample instant, in any state
  lastStep : Option Nat                -- stamp of the last set-point step since the entry to RUN
  rampC0   : Int
  rampI    : Nat
  rampWhy  : Nat
  offNext  : Bool                      -- enters OFF at the next AOUT update (R387, R384)
  enable   : List EnableReq
  revoked  : Bool                      -- its loop set stops at the next sample instant
  zeroTill : Nat                       -- the pin is driven to 0 V until this stamp (R47)
  y        : List Int                  -- last measured inputs, as captured
  vLast    : Int
  wLast    : Int
  eLast    : Int
  dLast    : Int
  sLast    : Int
  dz       : Int                       -- increment of the integrator formed by the last sample
  uRaw     : Int
  uLim     : Int                       -- limited output of the last sample
  rIn      : Int                       -- set-point of the last sample, after injection
  deriving DecidableEq, Repr

/-- Set-point state of a channel. -/
structure SetPoint where
  cfg      : SpCfg
  applied  : Bool                      -- a SETPOINT_CFG has applied
  pending  : Option (SpCfg × Desc × Nat)
  target   : Int
  p        : Int
  v        : Int
  dv       : Int
  input    : InputState
  lostAt   : Nat
  liveRun  : Nat
  stopRun  : Nat                       -- samples stopped
  haveLive : Option Int                -- last target formed from a live input
  formed   : Bool                      -- a target has been formed since the channel entered RUN
  lost     : Nat
  manual   : Bool
  uMan     : Int
  modes    : List ModeReq
  group    : Option Nat                -- output channel of its select group
  inject   : Option Injection          -- the active one, else the first that waits for its START
  waiting  : List Injection            -- the others that wait
  capture  : Option CaptureS
  deriving DecidableEq, Repr

/-- A select group (R410 to R412). -/
structure SelGroup where
  out     : Nat
  members : List Nat
  winner  : Option Nat
  held    : Nat
  edge    : Nat                        -- the sample being gathered
  us      : List (Nat × Int)           -- limited outputs of the members at that sample
  ug      : Int                        -- group output of the last sample
  done    : Nat                        -- the last sample settled
  deriving DecidableEq, Repr

/-- A PULSE input: the last counted edges and opposite edges, newest first. -/
structure Pulse where
  edges : List Nat
  opp   : List Nat
  last  : Nat                          -- the instant of the last edge kept, before rounding; 0 where the next is not measured
  deriving DecidableEq, Repr

structure Gheler where
  chans    : List Chan                 -- 48
  auxAt    : List Nat                  -- 16: the last instant at which an AUX input was sampled for no loop (R373)
  sps      : List SetPoint             -- 48
  slotsBad : List Nat                  -- slots that failed the known-answer test
  groups   : List SelGroup
  switches : List Nat                  -- GLE_GRPc_SWITCH, 48
  ain      : List Int                  -- latest AIN codes, 48
  aux      : List Int                  -- latest AUX codes, 16
  pulses   : List Pulse                -- 16
  deriving DecidableEq, Repr

/-! ### The HBM controllers and training (chapters 18 and 19) -/

/-- One slot of the map (R420 to R422). -/
structure MapSlot where
  stack   : Nat
  pc      : Nat
  frozen  : Bool
  reserve : Bool
  deriving DecidableEq, Repr

/-- An open page: stack, pseudo-channel, bank index 0 to 47, row and the stamp of the last hit (R427). -/
structure OpenPage where
  stack : Nat
  pc    : Nat
  bank  : Nat
  row   : Nat
  last  : Nat
  deriving DecidableEq, Repr

/-- Activates of one row group in the present window (R430). -/
structure RowCount where
  stack : Nat
  pc    : Nat
  bank  : Nat
  group : Nat
  count : Nat
  told  : Bool                         -- HBM_RD_THROTTLE already recorded in this window
  deriving DecidableEq, Repr

/-- Refresh state of one pseudo-channel: debt of postponed refreshes (R428). -/
structure RefDebt where
  stack : Nat
  pc    : Nat
  debt  : Nat
  deriving DecidableEq, Repr

/-- A diagnosis or sparing job, or a frozen pseudo-channel waiting its turn (R440 to R442). -/
structure DiagJob where
  stack   : Nat
  pc      : Nat
  action  : Nat                        -- 0 diagnose, 1 spare with copy, 2 spare without copy, 3 automatic
  desc    : Option Desc
  running : Bool
  sparing : Option (Nat × Nat)         -- the reserve taken
  deriving DecidableEq, Repr

/-- A frozen pseudo-channel (R436), a reserve among them. -/
structure FrozenPc where
  stack     : Nat
  pc        : Nat
  diagnosed : Bool                     -- its diagnosis finished with outcome 3
  lost      : Bool                     -- contents marked lost (R456)
  deriving DecidableEq, Repr

/-- A throttled port on a pseudo-channel until the window ends (R431). -/
structure Throttle where
  port  : Nat
  stack : Nat
  pc    : Nat
  deriving DecidableEq, Repr

/-- A training session of a helper (R446, R450, R452). -/
structure Session where
  desc      : Desc
  action    : Nat
  stack     : Nat
  pc        : Nat
  point     : Nat
  suspended : Bool
  steps     : Nat
  susps     : Nat
  start     : Nat
  since     : Nat                      -- start of its present run, after `steps` steps
  pace      : Nat                      -- index of its free value (R446)
  deriving DecidableEq, Repr

/-- Bursts that a helper has written into a frozen pseudo-channel: the pattern of Table 19.3 and its seed; pattern 6 stands for
what a session that was aborted left, which the spec does not state. -/
structure PatternRun where
  pc      : Nat                        -- 32 * stack + pseudo-channel
  first   : Nat
  bursts  : Nat
  pattern : Nat
  seed    : Nat
  deriving DecidableEq, Repr

/-- A targeted refresh of the rows beside a row group (R431). -/
structure RdTarget where
  stack : Nat
  pc    : Nat
  bank  : Nat
  group : Nat
  tell  : Bool                         -- the first of its window: HBM_RD_NEIGHBOUR is owed
  deriving DecidableEq, Repr

/-- A host access that waits in the host port while the stacks are in self-refresh (R434): a BAR4 read or write, or the end of a
transfer, whose `load` tells HOST_TRANSFER_DONE from TRANSFER_DONE. -/
inductive HostAccess where
  | read (a n : Nat)
  | write (a : Nat) (bs : List Byte) (poisoned : Bool)
  | ended (ring tag : Nat) (load : Bool) (buf : HostBuf)
  deriving DecidableEq, Repr

structure Hbm where
  m         : Nat                      -- slots in use (R420)
  map       : List MapSlot             -- 62
  reserves  : List (Nat × Nat)         -- free reserves
  cells     : List (Nat × BitVec 8)    -- bytes of the HBM address space, canonical (R421, R481)
  lanes     : List (Nat × Byte)        -- the ECC lane bits (R446, R461), in the form of `cells`: 1 where the bit is set
  patterns  : List PatternRun          -- newest first (R454, R456)
  commanded : Nat                      -- R432
  fp        : Nat                      -- point in force
  moving    : Option (Nat × Nat)       -- target point and cause of a move under way (R434)
  pendFreq  : Option (Desc × Nat × Nat)   -- FREQ_SET waiting: descriptor, FP, AT
  why       : Nat                      -- cause of the last change of the point called for (R434)
  selfRef   : Bool
  doubled   : List Bool                -- per stack
  coolSince : List (Option Nat)        -- per stack: since when below 82 C (R428)
  debts     : List RefDebt
  refAt     : List Nat                 -- when the last refresh fell due, by 32 * stack + pc (R428)
  rows      : List RowCount
  window    : Nat                      -- start of the present row-disturb window
  throttled : List Throttle
  queued    : List RdTarget            -- targeted neighbour refreshes, in order
  waiting   : List (MemReq × Nat)      -- requests that wait in their ports and queues, with when they came (R426, R434)
  host      : List HostAccess          -- host accesses that wait out self-refresh (R434)
  busyTill  : List Nat                 -- when a queue last held a request, by 32 * stack + pc (R428)
  pages     : List OpenPage
  lastBank  : List (Nat × Nat × Nat)   -- stack, pc, last activated bank (R426)
  urg3      : List Nat                 -- 8
  throt     : List Nat                 -- 8
  frozen    : List FrozenPc
  jobs      : List DiagJob
  tsValid   : List Bool                -- four timing sets
  capBytes  : Nat                      -- HBM_CAP, from configuration ready
  deriving DecidableEq, Repr

structure Training where
  state    : Nat                       -- TRN_STAT.STATE
  owner    : Nat
  point    : Nat
  stack    : Nat
  pc       : Nat
  action   : Nat
  steps    : Nat                       -- of the latest session, when its present run began or at its end
  since    : Nat                       -- start of that run
  pace     : Nat                       -- index of its free value (R446)
  kept     : List Nat                  -- points of which the Keeper's copy held results when training began (R447, R449)
  susp     : Nat
  last     : Nat                       -- TRN_LAST
  time     : Nat                       -- TRN_TIME, us
  began    : Nat
  fail     : Nat                       -- TRN_FAIL mask
  sessions : List Session
  records  : List (Nat × List (BitVec 8))   -- result records by 64 * point + 32 * stack + pc; none is untrained
  deriving DecidableEq, Repr

/-! ### Stored-data protection (chapter 20) -/

/-- Counts of one reporting region (R477). -/
structure RegionCount where
  region   : Nat
  ce       : Nat
  ue       : Nat
  level    : Nat
  ovf      : Nat
  first    : Option Nat                -- stamp of the first correction since the last overflow
  last     : Nat                       -- ECC_LAST
  ueSince  : Nat                       -- uncorrectable bytes since the last MEM_UE record
  ueFirst  : Nat                       -- the first of them
  ueUnit   : Nat                       -- the unit that met the last of them
  ueAt     : Option Nat                -- millisecond of the last MEM_UE record
  deriving DecidableEq, Repr

structure Archive where
  index : Nat
  base  : Nat
  size  : Nat
  comp  : Nat
  ready : Bool
  since : Nat
  deriving DecidableEq, Repr

structure Ecc where
  archives  : List Archive
  regions   : List RegionCount
  scrubReg  : Nat                      -- ECC_STAT.SCRUB_REGION
  scrubOff  : Nat
  lapTime   : Nat
  lapCount  : Nat
  lapBegan  : Nat
  lapLast   : Option Nat               -- stamp of the last read of the lap under way
  leaked    : Nat                      -- stamp of the last leak
  sram      : List (Nat × Nat)         -- SRAM bytes in error, by 2^32 * pool + offset: the bits of a MemReq flip that differ (R460)
  compBad   : List Nat                 -- companion bytes marked bad (R442, R463, R470)
  deriving DecidableEq, Repr

/-! ### Thermal sensing (chapter 21) -/

/-- A temperature sensor (R486, R487).  Temperatures are in 1/256 °C. -/
structure Sensor where
  temp    : Int
  stamp   : Nat
  seen    : Bool                       -- read since the Keeper boot
  suspect : Bool
  deviant : Nat                        -- 0 to 16
  hist    : List Int                   -- the zone temperature at its last 20 readings, newest first (R493)
  deriving DecidableEq, Repr

/-- A thermal zone (R488 to R493). -/
structure Zone where
  warn      : Bool
  warnBelow : Option Nat               -- since when below warning less 3 °C
  theta     : Nat                      -- units of 1/256
  reached   : Bool                     -- the throttle threshold has been reached and has not cleared (R489)
  thrAbove  : Option Nat               -- since when at or above the throttle threshold, or the last fall of θ
  thrBelow  : Option Nat               -- since when below throttle less 3 °C, or the last rise of θ
  blind     : Bool
  critical  : Bool                     -- at or above critical since it was last below
  deriving DecidableEq, Repr

/-- A carrier diode (R57). -/
structure Carrier where
  temp  : Int
  stamp : Nat
  fault : Option Nat                   -- 0 open, 1 short
  deriving DecidableEq, Repr

structure Thermal where
  sensors  : List Sensor               -- 44
  zones    : List Zone                 -- 8
  carriers : List Carrier              -- 2
  latch    : Bool
  latchBelow : Option Nat              -- since when every zone is below its warning threshold (R495)
  trip     : Nat                       -- THM_TRIP_STAMP
  deriving DecidableEq, Repr

/-! ### Catum Link (chapter 22) -/

inductive CatState where
  | down | bitlock | align | ident | ready | failed
  deriving DecidableEq, Repr

structure CatPort where
  state   : CatState
  enabled : Bool
  dup     : Bool                       -- disabled by R509
  spared  : Nat                        -- logical lane on lane 4, 15 = none
  lock    : Nat                        -- lock mask of the five lanes
  trainAt : Nat                        -- start of the training under way, or when it FAILED (R502)
  linkAt  : Nat                        -- when a LINK packet last arrived, or READY was entered (R502)
  partner : Nat
  helloIn : Bool                       -- the partner's HELLO has come in this training
  lsnTx   : Nat                        -- LSN of the next packet sent
  lsnRx   : Nat                        -- LSN expected
  nakSent : Bool                       -- a NAK is outstanding: later packets are discarded (R508)
  replay  : List CatPkt                -- unacknowledged packets, oldest first
  sentAt  : List Nat                   -- when each of them was sent (R502)
  waiting : List CatPkt                -- waiting for credit, replay room or the end of a VC3 hold
  limits  : List Nat                   -- credit limits of VC0 to VC3 from the partner
  used    : List Nat                   -- 64-byte units sent on VC0 to VC3
  wrr     : Nat                        -- VC2 packets sent since the last of VC3, at most 3 (R507)
  rxUnits : List Nat                   -- 64-byte units received on VC0 to VC3 (for the limits it grants)
  crc     : Nat
  resent  : Nat
  offset  : Int                        -- picoseconds
  delay   : Int
  asym    : Int
  deriving DecidableEq, Repr

/-- A time exchange of R519 under way on the port towards the time master. -/
structure Exchange where
  number : Nat
  t1     : Nat
  t4     : Option Nat
  resp   : Option (Nat × Nat × Nat)    -- t2, t3, the responder's state
  deriving DecidableEq, Repr

/-- The announcement a follower last heard (Table 22.8, LOCK). -/
structure LockWord where
  n        : Nat
  d        : Nat
  anchor   : Nat
  anchorF  : Nat
  changeAt : Nat
  newN     : Nat
  newD     : Nat
  deriving DecidableEq, Repr

/-- Frame lock of one head (R521 to R523). -/
structure FrameLock where
  role      : Nat                      -- 0 none, 1 master, 2 follower
  lockId    : Nat
  masterDev : Nat
  masterHead : Nat
  followers : List Nat                 -- devices that have sent a request (master)
  request   : Option (Desc × Nat × Nat × Nat × Nat)  -- FRAME_LOCK waiting for an announcement: id, device, head, sent at
  heard     : Nat                      -- stamp of the last LOCK packet (follower)
  toldAt    : Nat                      -- stamp of the last announcement (master)
  word      : Option LockWord          -- last announcement
  degraded  : Bool
  reanchor  : Option (Desc × Nat × Nat × Nat)   -- FRAME_LOCK accepted: frame m, F*, frame k
  deriving DecidableEq, Repr

/-- An entry of FWD (Table 22.3). -/
structure FwdEnt where
  ring   : Nat                         -- lead submission ring q
  device : Nat
  fring  : Nat                         -- follower ring r
  deriving DecidableEq, Repr

/-- A follower's read of lead host memory (R514): the request's tag, the descriptor it serves, bytes asked for and received,
and how it ended. -/
structure DmaRead where
  tag   : Nat
  ring  : Nat
  dtag  : Nat
  want  : Nat
  got   : List (BitVec 8)
  err   : Bool
  done  : Bool
  deriving DecidableEq, Repr

/-- An Urgent Control Word sent to the domain (R516): followers still to report, and the end of the lead's own action. -/
structure UcwDomain where
  action  : Nat
  word    : Nat
  pf1     : Bool
  start   : Nat
  waiting : List Nat
  ownEnd  : Option Nat
  deriving DecidableEq, Repr

/-- The mailbox of R518. -/
structure Mailbox where
  busy   : Bool
  write  : Bool
  err    : Bool
  tag    : Nat
  since  : Nat
  device : Nat
  deriving DecidableEq, Repr

structure Catum where
  ports     : List CatPort             -- 4
  dup       : Bool                     -- CAT_STAT.DUP
  members   : List (Nat × Nat)         -- follower device and stamp of its last HELLO
  routes    : List (Nat × Nat)         -- device and entry; 0xFE (learn) where not listed
  learned   : List (Nat × Nat)         -- device and port on which it last arrived
  master    : Nat                      -- TIME_MASTER
  followHold : Nat                     -- ms
  leadLost  : Option Nat               -- since when no route to the lead (R517)
  fwd       : List FwdEnt
  hopDrop   : Nat
  hopTold   : Option Nat               -- stamp of the last CAT_HOP_EXPIRED
  mailbox   : Mailbox
  tag       : Nat                      -- next request TAG
  exchange  : Option Exchange
  exNumber  : Nat
  exAt      : Nat                      -- when the last exchange began (R519)
  helloAt   : Nat                      -- when a follower last greeted its lead by the timer (R511)
  good      : Nat
  bad       : Nat
  lastResp  : Nat                      -- stamp of the last TIME_RESP
  neighbour : Nat                      -- state of the timebase it reported
  neighDev  : Option Nat               -- the neighbour that answered (R519)
  neighMaster : Nat                    -- the time master that it reported
  askers    : List Nat                 -- devices that take their time from this module (R519)
  marksIn   : List (Nat × Nat × Nat)   -- time marks received, not yet answered: port, exchange, arrival
  locks     : List FrameLock           -- 8
  reads     : List DmaRead
  fwdHeld   : List (Nat × Desc)        -- descriptors sent to a follower, not yet completed: device and descriptor
  ucw       : List UcwDomain
  ucwIn     : List (Nat × Nat × Nat)   -- requests of the lead being carried out: word, received, tag
  deriving DecidableEq, Repr

/-! ### Group commits (R234 to R236) -/

/-- A group commit waiting in this module: its GROUP_COMMIT descriptors and, on the leader, what has been heard. -/
structure GroupC where
  gid      : Nat
  desc     : Option Desc               -- this module's GROUP_COMMIT; none on a leader that has heard READY first
  heads    : List Nat                  -- heads of this module still to apply
  members  : Nat                       -- members of the whole group
  leader   : Nat                       -- leader device
  target   : Nat                       -- T
  go       : Option Nat                -- frame of the GO, or of the commit itself with MEMBERS = 1
  ready    : List (Nat × Nat)          -- leader: device and e of the READY heard
  deferred : Nat                       -- frames deferred
  decim    : Nat                       -- heads with a decimated layer
  disabled : Nat                       -- heads with a disabled layer
  deriving DecidableEq, Repr

/-! ### Provoked link faults (chapter 23) -/

/-- A fault rule (R529 to R531). -/
structure FaultRule where
  point   : Nat
  rule    : Nat
  kind    : Nat
  trigger : Nat
  classes : Nat
  flags   : Nat
  flow    : Nat
  window  : Nat
  param   : Nat
  at_     : Nat
  n       : Nat
  limit   : Nat
  gen     : Nat                        -- 64-bit generator x
  matched : Nat
  fired   : Nat
  bits    : Nat
  deriving DecidableEq, Repr

/-- A packet that a reorder or delay rule holds at a point (R532). -/
inductive HeldBody where
  | eth (p : EthPkt)
  | arp (addr : Nat) (isArp : Bool)
  | ptp (m : PtpMsg)
  | dp (l : DpLine)
  | cat (bytes : List (BitVec 8)) (buf : DmaBuf)
  | catOut (lsn : Nat) (bytes : List (BitVec 8))
  | plk (psn : Nat) (bytes : List (BitVec 8))
  | mark (value : Nat) (bytes : List (BitVec 8)) (instant : Nat)
  | ret (chars : List (BitVec 8)) (bip : List Nat)
  deriving DecidableEq, Repr

structure HeldPkt where
  point   : Nat
  rule    : Nat
  body    : HeldBody
  arr     : Nat                        -- stamp of its arrival at the point (R156)
  order   : Bool                       -- KIND 4
  left    : Nat                        -- KIND 4: packets still to pass before it
  release : Nat                        -- KIND 5: stamp of its release; KIND 4: 100 us after the last packet
  deriving DecidableEq, Repr

structure Faults where
  armed : Bool
  rules : List FaultRule
  old   : List FaultRule               -- replaced rules that act until their successors' AT (R530)
  held  : List HeldPkt
  total : Nat
  deriving DecidableEq, Repr

/-! ### Wear and service (chapter 24) -/

/-- The wear record of Table 24.2, and what R538 to R547 keep beside it. -/
structure Wear where
  powerUps  : Nat
  p3        : Nat
  trips     : Nat
  freezes   : Nat
  ppr       : List Nat                 -- 64
  pprRows   : List (Nat × Nat)         -- repair rows used, by 12 * (32 * stack + pc) + 4 * SID + bank group (R539)
  plSpared  : List Nat                 -- 16, 255 = none
  clSpared  : List Nat                 -- 4
  erases    : List Nat                 -- erases of firmware slots 0 and 1, banks A and B, and the ledger save
  holdFirst : Nat
  holdLast  : Nat
  status    : Nat
  causes    : Nat
  saved     : Nat                      -- stamp of the last write of the record
  spares    : Nat                      -- spare NOR sectors free, 0 to 126
  remap     : List (Nat × Nat)         -- remapped sector and its spare
  slots     : List FwImage             -- the two firmware slots
  slot      : Nat                      -- slot loaded
  pin       : Nat                      -- pin in force
  pinStored : Nat                      -- pin of the wear record, applied at the next Keeper boot
  mismatch  : Bool
  ringsBad  : List Nat                 -- unavailable rings (R541)
  ringSpared : Nat                     -- spare ring context entries in use, 0 to 8 (R541)
  deriving DecidableEq, Repr

/-- The hours of Table 24.2 as time in stamp units, and the 24 hour records written (R542). -/
structure Meter where
  run   : Nat                          -- in P0 to P2
  warn  : List Nat                     -- per zone, in warning
  ref2x : List Nat                     -- per stack, in doubled refresh
  days  : Nat                          -- whole days of `run` for which the record was written
  deriving DecidableEq, Repr

/-! ### What leaves the module -/

/-- What an Ethernet port sends (R151, R174). -/
inductive EthOut where
  /-- An ARP reply, an ICMP echo reply, to the asking address. -/
  | arp (addr : Nat)
  | icmp (addr : Nat)
  /-- A PTP Delay_Req from the port's address. -/
  | delayReq (src dscp seq : Nat)
  /-- An IGMPv3 membership report: joins or leaves a group, for one source where `src` is not 0. -/
  | igmp (group src : Nat) (join : Bool)
  deriving DecidableEq, Repr

/-- An output of the module, in the order it leaves.  The block's outputs are kept as a trace: what a completion, a
ledger record or a packet carries is part of the effect the spec gives a command (notes/assumptions/4.md). -/
inductive Out where
  /-- A completion written at an index of a completion ring with its PHASE (R130). -/
  | comp (ring index : Nat) (phase : Bool) (c : Comp)
  /-- A ledger record written at an index of the PF0 or PF1 ledger ring (R134). -/
  | ledg (pf1 : Bool) (index : Nat) (phase : Bool) (r : Rec)
  /-- An interrupt vector of PF0 or PF1 (R137 to R139). -/
  | vector (pf1 : Bool) (v : Nat)
  /-- Bytes written to host memory (DMA). -/
  | host (addr : Nat) (bytes : List (BitVec 8))
  /-- An aligned 64-byte block of host memory, or the answer, at an address carried EP = 1 (Table 20.3). -/
  | poison (addr : Nat)
  /-- A completer abort on BAR0 or BAR4 (R114, R437, R474). -/
  | abort (addr : Nat)
  /-- Bytes answered to a register, BAR4 or management-bus read. -/
  | read (addr : Nat) (bytes : List (BitVec 8))
  /-- A Plane Link packet, header to CRC (Tables 13.4, 13.5, 14.1). -/
  | plk (port : Nat) (bytes : List (BitVec 8))
  /-- A lane 0 mark: its eight bytes, type 0x4B first, and the instant it marks (R310, R319, R336). -/
  | plkMark (port : Nat) (bytes : List (BitVec 8)) (instant : Nat)
  /-- A Catum packet sent on a port, header to CRC (Table 22.1). -/
  | cat (port : Nat) (bytes : List (BitVec 8))
  /-- A Catum time mark (R519). -/
  | mark (port exchange : Nat) (answer : Bool)
  /-- A frame sent on an Ethernet port, with its VLAN tag, 0 for none (R174). -/
  | eth (port vlan : Nat) (f : EthOut)
  /-- A DisplayPort AUX answer. -/
  | aux (sink addr len : Nat)
  /-- AOUT pin code of a channel (R47, R378). -/
  | aout (chan : Nat) (code : Int)
  /-- SMB_ALERT_B (R56). -/
  | alert (low : Bool)
  deriving DecidableEq, Repr

/-- Vitrine key failures from the management bus and the host (R225, R227). -/
structure KeyFail where
  key     : Nat                        -- KEY, in Keeper retention; 0 disables the management path (R226)
  count   : Nat
  recent  : List Nat                   -- stamps of the failures that count towards a lockout, newest first
  lockout : Option Nat                 -- end of the lockout
  status  : Nat                        -- answer of the last management-bus Vitrine command
  deriving DecidableEq, Repr

/-! ### The whole module -/

structure State where
  now      : Nat                       -- stamp count (R146, R147)
  power    : Power
  startup  : Startup
  host     : HostIf
  ledger   : Ledger
  time     : Timebase
  ingest   : Ingest
  adm      : Admission
  heads    : List Head                 -- 8
  ports    : List Port                 -- 16
  gheler   : Gheler
  hbm      : Hbm
  training : Training
  ecc      : Ecc
  thermal  : Thermal
  catum    : Catum
  groups   : List GroupC
  fault    : Faults
  wear     : Wear
  meter    : Meter
  vitKey   : KeyFail
  /-- Register bits a write sets and a read returns (RW, RWL, W1C), by BAR0 offset; PF1's own registers at offset
  plus 2^32.  A register not listed holds its reset value. -/
  regs     : List (Nat × BitVec 32)
  /-- How many free values have been taken (notes/assumptions/3.md). -/
  free     : Nat
  /-- Everything that has left the module, newest first. -/
  out      : List Out
  /-- Commands waiting, first in first out. -/
  pending  : List Instr
  deriving DecidableEq, Repr

/-! ### How a step can stop -/

/-- Faults.  No rule of the spec stops the block, so only the queue's own discipline could; nothing in this model
raises one (safe: it is never an outcome). -/
inductive Fault where
  /-- Never raised; the block has no access that stops it (safe). -/
  | none_
  deriving DecidableEq, Repr

/-- Refusals. -/
inductive Refusal where
  /-- Raised by an arm of exec whose command has no meaning yet (safe). -/
  | notModelled (mnemonic : String)
  deriving DecidableEq, Repr

/-! ### Reset

Values the registers of the spec give (Tables 2.10 to 24.6, reset column) stand as they are; a value the spec gives no
reset for is the model's (notes/assumptions/2.md). -/

namespace Reset

def power : Power :=
  { state := .p4, target := 0, targetFp := 0, pendingSets := [], inputValid := false, overStop := false,
    vin := 0, vinMin := 0xFFFF, stage := 0, thr := [8700, 8400, 8100, 7800], hyst := 300, holdup := 0,
    fastClocks := false, refclkOk := true, resetB := false, perstB := false, stop := none,
    intlkLow := false, intlkCount := 0, intlkStamp := 0, intlkAt := 0, intlkRise := 0, bscan := false, bootStage := 0, rampedDark := false,
    smbAddr := 0x5A, pcieUp := false, pcieWidth := 0, pcieSpeed := 0, pcieDownAt := none }

def startup : Startup :=
  { step := 0, ready := false, degraded := false, abandoned := false, running := false, waking := false, factoryBad := false,
    bank := 0, gen := 0, bankBad := false, cabinet := 0, cabPins := 0, bootCab := 0, cabSrc := false, clamps := [],
    clampTotal := 0, readyStamp := 0, kFields := [], sFields := [], hFields := [], bankA := [], bankB := [],
    pendingCab := none, norWrites := [] }

def subRing : SubRing :=
  { enabled := false, halted := false, haltedUcw := false, err := false, head := 0, tail := 0, stamps := [],
    credit := 0, heldTill := 0 }

def compRing : CompRing :=
  { enabled := false, phase := true, head := 0, tail := 0, taken := 0, hold := [], unsent := 0, since := 0,
    freedAt := 0 }

def ledgerRing : LedgerRing :=
  { enabled := false, phase := true, head := 0, tail := 0, hold := [], lost := 0, lostFirst := 0, lostLast := 0, lastOut := 0, gap := 0 }

def host : HostIf :=
  { locked := false, sq := List.replicate 256 subRing, cq := List.replicate 256 compRing, rrPrio := 0, rrPlain := 0,
    fetched := [], begun := [], dropped := [], firsts := [], fences := [], ucwAction := 0, ucwCount := 0, ucwReject := false, ucwRuns := [], ingestStop := false,
    bar4Count := 0, bar4First := 0, bar4Addr := 0, loHeld := [], hiCap := [], smbAlert := false }

def ledger : Ledger :=
  { seqs := List.replicate 64 0, runs := List.replicate 64 [], startBuf := [], startLost := 0, main := ledgerRing, pf1 := ledgerRing, saved := [] }

def time : Timebase :=
  { state := .powerOn, source := 0, portPri := 0, portSec := none, domain := 127, annTimeout := 3, dscp := 0, vlan := 0,
    port := 0, offset := 0, utc := 0, utcValid := false, gmId := 0, slew := 0, slewStart := 0, slewFrom := 0, ptpDrop := 0,
    refused := false, refusedGm := none, everLocked := false, good := 0, bad := 0, secGm := none, secOffset := 0,
    reqSent := none, syncTs := [], ratePpb := 0, lastSync := none, pathDelay := none,
    other := ⟨0, none, none, none⟩,
    masters := [], parent := 0, reqSeq := 0, keeperPos := 0 }

def ethPort : EthPort := { link := false, fec := false, stopped := false, whey := 0, drop := 0 }

def dpSink : DpSink :=
  { trained := false, rate := 0, lanes := 0, stopped := false, discard := false, begun := false, line := none }

def ingest : Ingest :=
  { flows := [], closed := [], eth := List.replicate 4 ethPort, dp := List.replicate 2 dpSink, pushStop := false }

def adm : Admission :=
  { exhibits := [], items := [], caps := List.replicate 44 0, passes := 0, lastRev := 0, fpPriced := 0,
    pendingCaps := [], inForce := List.replicate 44 (0, 256), transfers := [] }

def shadow : Shadow :=
  { layers := [], coefs := [], dither := [], profile := none, guard := none, peak := none, bg := none, prims := none }

def scalerStat : ScalerStat :=
  { widthIn := 0, d := 1, reason := 0, hset := 0, vset := 0, hstep := 0, vstep := 0 }

def pipe : Pipe :=
  { cfg := none, nextRate := none, reAt := none, forms := [], cls := 0, count := 0, frame := 0, cse := 0, composing := false,
    composed := [], retired := 0, late := 0, gapMin := 0xFFFFFFFF, fence := 0xFFFFFFFF, layers := [], coefs := [],
    dither := [], openSh := [], sealed_ := [], frMap := [], decim := 0, disabled := 0,
    scaler := List.replicate 4 scalerStat, taken := [], lbErr := 0, releasing := none, stopping := false,
    shift := [], parkDue := none, flipped := 0, flipAny := false, flips := [], bg0 := [0, 0, 0], safeDark := false }

def vitrine : Vitrine :=
  { content := false, mask := false, bank := 0, gate := false, loaded := false, canvasW := 0, canvasH := 0,
    factors := [[], []], pending := [] }

def press : Press :=
  { recipe := none, since := 0, old := [], gone := none, reduced := false, wantForm := none, pending := none, pressing := none, job := none,
    frame := 0, pressed := [], slackMin := 0xFFFFFFFF, darkTiles := 0, done := 0 }

def motion : Motion :=
  { cfg := none, since := 0, pending := none, ending := false, fieldsFor := [], kept := [], missRun := false, fieldOk := false,
    prevOk := false, lowConf := 0, occ := 0, clip := 0, miss := 0 }

def cave : Cave :=
  { state := .off, armed := 0, run := 0, frame := 0, request := none, desc := none, exitAt := 0, cause := 0, live := 0, exits := [],
    changed := false, latest := 0, lost := 0 }

def scan : Scan :=
  { cfg := none, since := 0, pending := none, nextCfg := [], lock := .idle, edges := [], good := 0, t8 := 0,
    preds := [], ann := [], annFrame := 0, annNext := 0, warped := 0, lastEdge := 0, lit := 0, outFrom := none, wins := [], th := 0, thSum := 0, thN := 0, output := false, frame := 0, pass := 0, line := 0, passId := 0, amp := 0, ampRun := 0, lowRun := 0, cut := 0,
    lost := 0, profile := [], nextProfile := [] }

/-- The identity of a head: E_pj = 1.0 where j = p mod 3, with 24 fraction bits (R354). -/
def unitE : List Int :=
  (List.range 6).flatMap fun p => (List.range 3).map fun j => if j = p % 3 then 0x01000000 else 0

def solver : Solver :=
  { cfg := { closed := false, policy := 0, jump := false, lum := 0, skip := 0, minSamp := 0, staleN := 0,
             headWarn := 0 },
    cal := none, pending := none, e := unitE, jumpDue := none, meas := [], closed := [], loads := [], history := [],
    staleRun := 0, staleMask := 0, staleHold := false, holding := false, exhausted := false, lowHead := false, loadedExh := false, gamutOut := false,
    inRange := false, limited := false, limitedN := 0, frame := 0, duv := 0, lum := 0, temps := List.replicate 6 0, est := [] }

def head : Head :=
  { pipe := pipe, vit := vitrine, press := press, motion := motion, cave := cave, scan := scan, solver := solver }

def port : Port :=
  { state := .down, owner := none, scan := false, pair := none, split := 0, cls := 0, ww := 0, wh := 0, rtx := 0,
    pol := 0, lock := 0, spared := 15, spareReq := 15, told := 0, caps := List.replicate 6 0, capsSeen := 0, limit := 0, used := 0,
    credited := false, psn := 0, parked := false, desc := none, parkDesc := [], parkOwed := none, ending := false, sent := [], queue := [],
    lastLoad := none, trainAt := 0, lastRet := 0, nak := 0, retry := 0,
    stale := 0, subst := 0, retErr := 0, badRun := [], bip := List.replicate 9 0, lastSend := 0,
    lastStatus := 0, crc := 0xFFFFFFFF, readyAt := 0, loopEnd := false }

def chan : Chan :=
  { state := .off, slot := 63, cause := 0, cfg := none, pendCfg := none, pendAt := 0, coefs := [], coefQ := [],
    x := List.replicate 8 0, z := 0, uPrev := 0, dPrev := 0, u := 0, rj := 0, r := 0, applied := false,
    uHold := false, uNew := [], held := none, upd := 0, code := 0, satHi := false, satLo := false, gate := false, unsat := 0,
    sat := 0, clampHit := 0, clampRun := false, sample := 0, edge := 0, lastStep := none, rampC0 := 0, rampI := 0, rampWhy := 0,
    offNext := false, enable := [], revoked := false, zeroTill := 0, y := [0, 0, 0], vLast := 0, wLast := 0,
    eLast := 0, dLast := 0, sLast := 0, dz := 0, uRaw := 0, uLim := 0, rIn := 0 }

def spCfg : SpCfg :=
  { source := 0, input := 0, accSh := 0, value := 0, gain := 0, offset := 0, rateMax := 0, accMax := 0, fFull := 0,
    validLo := 0, validHi := 0, holdT := 0, safe := 0 }

def setPoint : SetPoint :=
  { cfg := spCfg, applied := false, pending := none, target := 0, p := 0, v := 0, dv := 0, input := .live,
    lostAt := 0, liveRun := 0, stopRun := 0, haveLive := none, formed := false, lost := 0, manual := false, uMan := 0,
    modes := [], group := none, inject := none, waiting := [], capture := none }

def gheler : Gheler :=
  { chans := List.replicate 48 chan, sps := List.replicate 48 setPoint, auxAt := List.replicate 16 0, slotsBad := [], groups := [],
    switches := List.replicate 48 0, ain := List.replicate 48 0, aux := List.replicate 16 0,
    pulses := List.replicate 16 { edges := [], opp := [], last := 0 } }

/-- R422: slot i maps to stack i mod 2, pseudo-channel i div 2. -/
def mapSlot (i : Nat) : MapSlot := { stack := i % 2, pc := i / 2, frozen := false, reserve := false }

def hbm : Hbm :=
  { m := 0, map := (List.range 62).map mapSlot, reserves := [], cells := [], lanes := [], patterns := [], commanded := 0, fp := 0,
    moving := none, pendFreq := none, why := 0, selfRef := false, doubled := [false, false],
    coolSince := [none, none], debts := [], refAt := List.replicate 64 0, rows := [], window := 0, throttled := [], queued := [],
    waiting := [], host := [], busyTill := List.replicate 64 0, pages := [],
    lastBank := [], urg3 := List.replicate 8 0, throt := List.replicate 8 0, frozen := [], jobs := [],
    tsValid := List.replicate 4 false, capBytes := 0 }

def training : Training :=
  { state := 0, owner := 0, point := 0, stack := 0, pc := 0, action := 0, steps := 0, since := 0, pace := 0, kept := [],
    susp := 0, last := 0, time := 0,
    began := 0, fail := 0, sessions := [], records := [] }

def ecc : Ecc :=
  { archives := [], regions := [], scrubReg := 0, scrubOff := 0, lapTime := 0, lapCount := 0, lapBegan := 0,
    lapLast := none, leaked := 0, sram := [], compBad := [] }

def sensor : Sensor := { temp := 0, stamp := 0, seen := false, suspect := false, deviant := 0, hist := [] }

def zone : Zone :=
  { warn := false, warnBelow := none, theta := 256, reached := false, thrAbove := none, thrBelow := none, blind := false,
    critical := false }

def thermal : Thermal :=
  { sensors := List.replicate 44 sensor, zones := List.replicate 8 zone,
    carriers := List.replicate 2 { temp := 0, stamp := 0, fault := none }, latch := false, latchBelow := none,
    trip := 0 }

def catPort : CatPort :=
  { state := .down, enabled := false, dup := false, spared := 15, lock := 0, trainAt := 0, linkAt := 0, partner := 0, helloIn := false,
    lsnTx := 0, lsnRx := 0, nakSent := false, replay := [], sentAt := [], waiting := [], limits := List.replicate 4 0,
    used := List.replicate 4 0, wrr := 0, rxUnits := List.replicate 4 0, crc := 0, resent := 0, offset := 0, delay := 0,
    asym := 0 }

def mailbox : Mailbox := { busy := false, write := false, err := false, tag := 0, since := 0, device := 0 }

def frameLock : FrameLock :=
  { role := 0, lockId := 0, masterDev := 0, masterHead := 0, followers := [], request := none, heard := 0, toldAt := 0,
    word := none, degraded := false, reanchor := none }

def catum : Catum :=
  { ports := List.replicate 4 catPort, dup := false, members := [], routes := [], learned := [], master := 0,
    followHold := 0, leadLost := none, fwd := [], hopDrop := 0, hopTold := none, mailbox := mailbox, tag := 0,
    exchange := none, exNumber := 0, exAt := 0, helloAt := 0, good := 0, bad := 0, lastResp := 0, neighbour := 0, neighDev := none, neighMaster := 0, askers := [], marksIn := [],
    locks := List.replicate 8 frameLock, reads := [], fwdHeld := [], ucw := [], ucwIn := [] }

def fault : Faults := { armed := false, rules := [], old := [], held := [], total := 0 }

def fwSlot : FwImage := { ok := true, badAt := 0, size := 0, level := 1, version := 0 }

def wear : Wear :=
  { powerUps := 0, p3 := 0, trips := 0, freezes := 0,
    ppr := List.replicate 64 0, pprRows := [], plSpared := List.replicate 16 255, clSpared := List.replicate 4 255,
    erases := List.replicate 5 0, holdFirst := 0, holdLast := 0, status := 0, causes := 0, saved := 0, spares := 126,
    remap := [], slots := [fwSlot, fwSlot], slot := 0, pin := 0, pinStored := 0, mismatch := false, ringsBad := [], ringSpared := 0 }

end Reset

/-- The module as it leaves manufacture, before input power (P4): every register at its reset value. -/
def State.reset : State :=
  { now := 0, power := Reset.power, startup := Reset.startup, host := Reset.host, ledger := Reset.ledger,
    time := Reset.time, ingest := Reset.ingest, adm := Reset.adm, heads := List.replicate 8 Reset.head,
    ports := List.replicate 16 Reset.port, gheler := Reset.gheler, hbm := Reset.hbm, training := Reset.training,
    ecc := Reset.ecc, thermal := Reset.thermal, catum := Reset.catum, groups := [], fault := Reset.fault,
    wear := Reset.wear, meter := { run := 0, warn := List.replicate 8 0, ref2x := [0, 0], days := 0 }, vitKey := { key := 0, count := 0, recent := [], lockout := none, status := 0 }, regs := [], free := 0,
    out := [], pending := [] }

end Sys2Proof.Machine
end

