-- ==== Sys2Proof/Machine/RegTable.lean ====
section
/-!
DEFINITION. The writable registers of BAR0 (the rows of Tables 2.10 to 24.6 whose access is not RO, and their
field tables): offset, stride, number, the bits of each access code of Table 0.2, and the reset value.
Read-only bits are computed from State in Registers.lean.
-/

namespace Sys2Proof.Machine

/-- One writable register, or a row of equal ones. -/
structure RegDef where
  base   : Nat
  stride : Nat
  count  : Nat
  rw     : Nat
  rwl    : Nat
  w1c    : Nat
  reset  : Nat
  deriving DecidableEq, Repr

def regDefsA : List RegDef :=
  [⟨0x00000100, 4, 1, 0, 0, 0, 0⟩,                          -- KPR_SETUP_LOCK, WO
   ⟨0x00000108, 4, 1, 0, 0, 0, 0⟩,                          -- KPR_TEST_ENABLE, WO
   ⟨0x00100004, 4, 1, 0, 0, 0x0107013F, 0⟩,                 -- HST_IRQ_CAUSE
   ⟨0x00100008, 4, 1, 0xFFFFFFFF, 0, 0, 0xFFFFFFFF⟩,        -- HST_IRQ_MASK
   ⟨0x00100010, 4, 2, 0, 0xFFFFFFFF, 0, 0⟩,                 -- HST_LR_BASE_LO, _HI
   ⟨0x00100018, 4, 1, 0, 0xF, 0, 0xA⟩,                      -- HST_LR_CFG
   ⟨0x0010001C, 4, 1, 0, 0, 0, 0⟩,                          -- HST_LR_CTL; ENABLE in State.ledger
   ⟨0x00101000, 32, 256, 0, 0xFFFFFFFF, 0, 0⟩,              -- HST_SQq_BASE_LO
   ⟨0x00101004, 32, 256, 0, 0xFFFFFFFF, 0, 0⟩,              -- HST_SQq_BASE_HI
   ⟨0x00101008, 32, 256, 0, 0x000F1FFF, 0, 6⟩,              -- HST_SQq_CFG
   ⟨0x0010100C, 32, 256, 0, 0, 0, 0⟩,                       -- HST_SQq_CTL; ENABLE in State.host
   ⟨0x00103000, 32, 256, 0, 0xFFFFFFFF, 0, 0⟩,              -- HST_CQc_BASE_LO
   ⟨0x00103004, 32, 256, 0, 0xFFFFFFFF, 0, 0⟩,              -- HST_CQc_BASE_HI
   ⟨0x00103008, 32, 256, 0, 0xFFFF03FF, 0, 6⟩,              -- HST_CQc_CFG
   ⟨0x0010300C, 32, 256, 0, 0, 2, 0⟩,                       -- HST_CQc_CTL; ENABLE in State.host
   ⟨0x00200010, 64, 4, 0, 0x3FFF, 0, 0⟩,                    -- ING_Ek_CFG
   ⟨0x00200014, 64, 4, 0, 0xFFFFFFFF, 0, 0⟩,                -- ING_Ek_MAC_LO
   ⟨0x00200018, 64, 4, 0, 0xFFFF, 0, 0⟩,                    -- ING_Ek_MAC_HI
   ⟨0x0020001C, 64, 4, 0, 0xFFFFFFFF, 0, 0⟩,                -- ING_Ek_IPV4
   ⟨0x00200200, 256, 2, 0, 0xF, 0, 0xC⟩,                    -- ING_Dd_CFG
   ⟨0x00200400, 4, 256, 0, 0xFFFFFFFF, 0, 0⟩,               -- ING_Dd_EDID0 to 127, d = 0 and 1
   ⟨0x00201000, 4, 1, 0x3FF, 0, 0, 0⟩,                      -- ING_FLOW_SEL
   ⟨0x00201024, 4, 1, 0, 0, 0, 0⟩]                          -- ING_FLOW_CTL, WO

def regDefsB : List RegDef :=
  [⟨0x00300010, 4, 1, 0x3FFF, 0, 0, 0⟩,                     -- ADM_EXH_SEL
   ⟨0x00400028, 0x1000, 8, 0, 0, 0, 0⟩,                     -- CMP_HEADk_CTL, WO
   ⟨0x00600014, 0x1000, 8, 0, 0, 0, 0⟩,                     -- PRS_HEADk_CTL, WO
   ⟨0x00600034, 0x1000, 8, 0, 0, 0, 0⟩,                     -- PRS_HEADk_MOT_CTL, WO
   ⟨0x0070000C, 0x100, 16, 0, 0, 0, 0⟩,                     -- PLK_PORTp_CTL, WO
   ⟨0x00800020, 0x100, 8, 0, 0, 0, 0⟩,                      -- SCN_HEADk_CTL, WO
   ⟨0x00900010, 0x100, 8, 7, 0, 0, 0⟩,                      -- CLR_HEADk_SEL
   ⟨0x00900038, 0x100, 8, 0, 0, 0, 0⟩,                      -- CLR_HEADk_CTL, WO
   ⟨0x00A01000, 0x40, 48, 0, 0, 0x2000, 0⟩,                 -- GLE_CHc_STAT
   ⟨0x00A01004, 0x40, 48, 0, 0xFFFFFFFF, 0, 0⟩,             -- GLE_CHc_CLAMP
   ⟨0x00A01008, 0x40, 48, 0, 0xFFFF, 0, 0⟩,                 -- GLE_CHc_DARK
   ⟨0x00A01024, 0x40, 48, 0, 0, 0, 0⟩,                      -- GLE_CHc_CTL, WO
   ⟨0x00A02014, 0x20, 48, 0, 0, 0, 0⟩,                      -- GLE_SPc_CTL, WO
   ⟨0x00A08000, 4, 48, 0, 1, 0, 0⟩,                         -- GLE_AOUT_CFGc
   ⟨0x00A08100, 4, 48, 0, 3, 0x100, 0⟩,                     -- GLE_AIN_CFGc
   ⟨0x00A08200, 4, 16, 0, 3, 0x100, 0⟩,                     -- GLE_AUX_CFGa
   ⟨0x00A08240, 4, 16, 0, 7, 0, 0⟩,                         -- GLE_PULSE_CFGp
   ⟨0x00A08280, 4, 1, 0, 0xFFFFFFFF, 0, 0x3F⟩,              -- GLE_LEN_MAPk_LO and _HI, Table 2.12
   ⟨0x00A08284, 4, 1, 0, 0xFFFF, 0, 0⟩,
   ⟨0x00A08288, 4, 1, 0, 0xFFFFFFFF, 0, 0xFC0⟩,
   ⟨0x00A0828C, 4, 1, 0, 0xFFFF, 0, 0⟩,
   ⟨0x00A08290, 4, 1, 0, 0xFFFFFFFF, 0, 0x3F000⟩,
   ⟨0x00A08294, 4, 1, 0, 0xFFFF, 0, 0⟩,
   ⟨0x00A08298, 4, 1, 0, 0xFFFFFFFF, 0, 0xFC0000⟩,
   ⟨0x00A0829C, 4, 1, 0, 0xFFFF, 0, 0⟩,
   ⟨0x00A082A0, 4, 1, 0, 0xFFFFFFFF, 0, 0x3F000000⟩,
   ⟨0x00A082A4, 4, 1, 0, 0xFFFF, 0, 0⟩,
   ⟨0x00A082A8, 4, 1, 0, 0xFFFFFFFF, 0, 0xC0000000⟩,
   ⟨0x00A082AC, 4, 1, 0, 0xFFFF, 0, 0xF⟩,
   ⟨0x00A082B0, 4, 1, 0, 0xFFFFFFFF, 0, 0⟩,
   ⟨0x00A082B4, 4, 1, 0, 0xFFFF, 0, 0x3F0⟩,
   ⟨0x00A082B8, 4, 1, 0, 0xFFFFFFFF, 0, 0⟩,
   ⟨0x00A082BC, 4, 1, 0, 0xFFFF, 0, 0xFC00⟩,
   ⟨0x00A082C0, 4, 1, 0, 0, 2, 0⟩]                          -- GLE_INTLK_STAT

def regDefsC : List RegDef :=
  [⟨0x00B00004, 4, 1, 0, 0x1F, 0, 0x1C⟩,                    -- HBM_CFG
   ⟨0x00B00008, 4, 1, 0, 0xFFF, 0, 0xC8⟩,                   -- HBM_PAGE
   ⟨0x00B0000C, 4, 1, 0, 0xFFFFFF, 0, 0xA0400⟩,             -- HBM_RD_CFG
   ⟨0x00B0001C, 4, 1, 0, 0, 0, 0⟩,                          -- HBM_CTL, WO
   ⟨0x00B00110, 4, 1, 0, 0xFFFF, 0, 80⟩,                    -- HBM_PORT4_QOS to HBM_PORT6_QOS
   ⟨0x00B00114, 4, 1, 0, 0xFFFF, 0, 100⟩,
   ⟨0x00B00118, 4, 1, 0, 0xFFFF, 0, 200⟩,
   ⟨0x00D00004, 4, 1, 0, 0xFFFFFF, 0, 0x3E840⟩,             -- ECC_BUCKET_CFG
   ⟨0x00D00008, 4, 1, 0, 0xFFFF, 0, 0xE10⟩,                 -- ECC_SCRUB_CFG
   ⟨0x00D00014, 4, 1, 0xFF, 0, 0, 0⟩,                       -- ECC_SEL
   ⟨0x00D00030, 4, 1, 0, 0, 0, 0⟩,                          -- ECC_CTL, WO
   ⟨0x00E00004, 4, 1, 0x3F, 0, 0, 0⟩,                       -- THM_SEL
   ⟨0x00F00004, 4, 1, 0, 0x3FFFFFF, 0, 0⟩,                  -- CAT_ID
   ⟨0x00F00010, 4, 1, 0x3FF, 0, 0, 0⟩,                      -- CAT_MB_DEV
   ⟨0x00F00014, 4, 1, 0x3FFFFFC, 0, 0, 0⟩,                  -- CAT_MB_ADDR
   ⟨0x00F00018, 4, 1, 0xFFFFFFFF, 0, 0, 0⟩,                 -- CAT_MB_DATA
   ⟨0x00F0001C, 4, 1, 2, 0, 0, 0⟩,                          -- CAT_MB_CTL; ERR in State.catum
   ⟨0x01000004, 4, 1, 0x3FF, 0, 0, 0⟩,                      -- FIJ_SEL
   ⟨0x0100001C, 4, 1, 0, 0, 0, 0⟩,                          -- FIJ_CTL, WO
   ⟨0x0110000C, 4, 1, 0, 0, 0, 0⟩,                          -- PWR_CTL, WO
   ⟨0x01100010, 4, 1, 0, 0x3FFF, 0, 0x21FC⟩,                -- PWR_SHED_THR1 to 4
   ⟨0x01100014, 4, 1, 0, 0x3FFF, 0, 0x20D0⟩,
   ⟨0x01100018, 4, 1, 0, 0x3FFF, 0, 0x1FA4⟩,
   ⟨0x0110001C, 4, 1, 0, 0x3FFF, 0, 0x1E78⟩,
   ⟨0x01100020, 4, 1, 0, 0x3FF, 0, 0x12C⟩,                  -- PWR_SHED_HYST
   ⟨0x01100024, 4, 1, 0, 0xFF, 0, 0xFF⟩,                    -- PWR_KEEP_SET
   ⟨0x01100028, 4, 1, 0, 0, 0x11F, 0⟩,                      -- PWR_SHED_STAT
   ⟨0x01100030, 4, 1, 0, 0x1F, 0, 0x1F⟩,                    -- PWR_WAKE_EN
   ⟨0x01100034, 4, 1, 0, 0, 0x1F, 0⟩,                       -- PWR_WAKE_SRC
   ⟨0x01100038, 4, 2, 0xFFFFFFFF, 0, 0, 0⟩,                 -- PWR_TIMER_LO, _HI
   ⟨0x01300010, 4, 1, 0xFF, 0, 0, 0⟩]                       -- NVM_CLAMP_IDX

def regDefs : List RegDef := regDefsA ++ regDefsB ++ regDefsC

def RegDef.holds (r : RegDef) (off : Nat) : Bool :=
  decide (r.base ≤ off) && decide ((off - r.base) % r.stride = 0) && decide ((off - r.base) / r.stride < r.count)

def findReg (off : Nat) : Option RegDef := regDefs.find? (·.holds off)

/-- Where PF1's own registers are kept (R137). -/
def pf1Base : Nat := 2 ^ 32

/-- The reset value of a writable register, at its key in State.regs. -/
def regReset (key : Nat) : Word :=
  wordOf ((findReg (if pf1Base ≤ key then key - pf1Base else key)).elim 0 (·.reset))

/-- The stored bits of a writable register. -/
def rawReg (s : State) (key : Nat) : Word := (getKey key s.regs).getD (regReset key)

/-- Store a register's bits; a register at its reset value is not listed. -/
def setRaw (key : Nat) (v : Word) (s : State) : State :=
  { s with regs := if v = regReset key then dropKey key s.regs else setKey key v s.regs }

/-- The field of `n` bits at `lo` of a stored register. -/
def regField (s : State) (key lo n : Nat) : Nat := bits (rawReg s key).toNat lo n

end Sys2Proof.Machine
end

