-- ==== Sys2Proof/Machine/Ops.lean ====
section
/-!
DEFINITION. The shared operations over State: time, register causes and vectors, and ledger records (R91, R134, R135,
R157).
-/

namespace Sys2Proof

/-! ### Descriptors -/

/-- The instant that stands for the doorbell stamp in every comparison (R124). -/
def Desc.t (d : Desc) : Nat := if d.hold = 0 then d.db else d.hold

def Desc.opcode (d : Desc) : Nat := fieldOf d.bytes 0 2
def Desc.flags (d : Desc) : Nat := fieldOf d.bytes 2 2
def Desc.tag (d : Desc) : Nat := fieldOf d.bytes 4 4
def Desc.length (d : Desc) : Nat := fieldOf d.bytes 8 3
def Desc.context (d : Desc) : Nat := bits (fieldOf d.bytes 12 2) 0 10
def Desc.cls (d : Desc) : Nat := bits d.flags 4 2
def Desc.flag (d : Desc) (i : Nat) : Bool := bitOf d.flags i
def Desc.force (d : Desc) : Bool := d.flag 0
def Desc.fence (d : Desc) : Bool := d.flag 1
def Desc.quiet (d : Desc) : Bool := d.flag 2
def Desc.irq (d : Desc) : Bool := d.flag 3

/-- Payload fields at their byte offsets within the descriptor. -/
def Desc.p8 (d : Desc) (i : Nat) : Nat := fieldOf d.bytes i 1
def Desc.p16 (d : Desc) (i : Nat) : Nat := fieldOf d.bytes i 2
def Desc.p32 (d : Desc) (i : Nat) : Nat := fieldOf d.bytes i 4
def Desc.p64 (d : Desc) (i : Nat) : Nat := fieldOf d.bytes i 8
def Desc.s16 (d : Desc) (i : Nat) : Int := signed 16 (d.p16 i)
def Desc.s32 (d : Desc) (i : Nat) : Int := signed 32 (d.p32 i)

/-- Bytes beyond 15 + LENGTH read as zero where LENGTH counts payload bytes (R126). -/
def Desc.trunc (d : Desc) : Desc := { d with bytes := padTo 64 (d.bytes.take (16 + d.length)) }

/-- Bytes a host transfer brought, and whether it ended in an error (Table 5.7). -/
def HostBuf.bytes : HostBuf → List Byte
  | .data b => b
  | .error b => b

def HostBuf.bad : HostBuf → Bool
  | .data _ => false
  | .error _ => true

end Sys2Proof

namespace Sys2Proof.Machine

/-- The outcome type of every meaning. -/
abbrev Res := Host.Outcome State Fault Refusal

/-! ### Time -/

/-- The hour counters of R542 while time passes: in P0 to P2, in warning, in doubled refresh. -/
def Meter.pass (dt : Nat) (p : PowerState) (warn doubled : List Bool) (m : Meter) : Meter :=
  { m with run := if p = .p3 ∨ p = .p4 then m.run else m.run + dt
           warn := List.zipWith (fun n w => if w then n + dt else n) m.warn warn
           ref2x := List.zipWith (fun n w => if w then n + dt else n) m.ref2x doubled }

/-- What the Keeper has added to the count after a time: 122,071 units on 5 of every 16 crystal ticks and 122,070 on the
others, 1,953,125 units in 16 ticks (R148); which 5 is the model's choice (notes/assumptions/70.md). -/
def keeperUnits (t : Nat) : Nat := t * 16 / 1953125 * 1953125 / 16

/-- Time passes: the count advances and wraps at 64 bits (R8, R146), by the Keeper's ticks while the fast clocks stand
(R148), and with it the hour counters. -/
def tick (dt : Nat) (s : State) : State :=
  let pos := s.time.keeperPos
  let step := if s.power.fastClocks then dt else keeperUnits (pos + dt) - keeperUnits pos
  { s with now := (s.now + step) % 2 ^ 64
           time := if s.power.fastClocks then s.time else { s.time with keeperPos := (pos + dt) % 1953125 }
           meter := s.meter.pass dt s.power.state (s.thermal.zones.map (·.warn)) s.hbm.doubled }

/-- Whole hours of a time, saturating at 32 bits (R542). -/
def hours (t : Nat) : Nat := min 0xFFFFFFFF (t / (3600 * 4000000000))

/-- One microsecond and one millisecond in stamp units (R8). -/
def usec : Nat := 4000
def msec : Nat := 4000000
def sec : Nat := 4000000000

/-- FREE_RUN is 0 only in LOCKED (R149). -/
def freeRun (s : State) : Bool := s.time.state != .locked

/-- A free value, and the state that has taken it. -/
def takeFree (s : State) : Nat × State := (Config.freeValue s.free, { s with free := s.free + 1 })

/-- Something leaves the module. -/
def emit (o : Out) (s : State) : State := { s with out := o :: s.out }

/-! ### Parts of State -/

def modHead (k : Nat) (f : Head → Head) (s : State) : State := { s with heads := upd s.heads k f }
def headOf (s : State) (k : Nat) : Head := s.heads.getD k Reset.head
def modPipe (k : Nat) (f : Pipe → Pipe) : State → State := modHead k fun h => { h with pipe := f h.pipe }
def modPress (k : Nat) (f : Press → Press) : State → State := modHead k fun h => { h with press := f h.press }
def modCave (k : Nat) (f : Cave → Cave) : State → State := modHead k fun h => { h with cave := f h.cave }
def modMotion (k : Nat) (f : Motion → Motion) : State → State := modHead k fun h => { h with motion := f h.motion }
def modScan (k : Nat) (f : Scan → Scan) : State → State := modHead k fun h => { h with scan := f h.scan }
def modVit (k : Nat) (f : Vitrine → Vitrine) : State → State := modHead k fun h => { h with vit := f h.vit }
def modSolver (k : Nat) (f : Solver → Solver) : State → State := modHead k fun h => { h with solver := f h.solver }
def modPort (p : Nat) (f : Port → Port) (s : State) : State := { s with ports := upd s.ports p f }
def portOf (s : State) (p : Nat) : Port := s.ports.getD p Reset.port
def modChan (c : Nat) (f : Chan → Chan) (s : State) : State :=
  { s with gheler := { s.gheler with chans := upd s.gheler.chans c f } }
def chanOf (s : State) (c : Nat) : Chan := s.gheler.chans.getD c Reset.chan
def modSp (c : Nat) (f : SetPoint → SetPoint) (s : State) : State :=
  { s with gheler := { s.gheler with sps := upd s.gheler.sps c f } }
def spOf (s : State) (c : Nat) : SetPoint := s.gheler.sps.getD c Reset.setPoint
def modCat (p : Nat) (f : CatPort → CatPort) (s : State) : State :=
  { s with catum := { s.catum with ports := upd s.catum.ports p f } }
def catOf (s : State) (p : Nat) : CatPort := s.catum.ports.getD p Reset.catPort
def modLock (k : Nat) (f : FrameLock → FrameLock) (s : State) : State :=
  { s with catum := { s.catum with locks := upd s.catum.locks k f } }
def lockOf (s : State) (k : Nat) : FrameLock := s.catum.locks.getD k Reset.frameLock
def modSq (q : Nat) (f : SubRing → SubRing) (s : State) : State :=
  { s with host := { s.host with sq := upd s.host.sq q f } }
def sqOf (s : State) (q : Nat) : SubRing := s.host.sq.getD q Reset.subRing
def modCq (c : Nat) (f : CompRing → CompRing) (s : State) : State :=
  { s with host := { s.host with cq := upd s.host.cq c f } }
def cqOf (s : State) (c : Nat) : CompRing := s.host.cq.getD c Reset.compRing
def flowOf (s : State) (ctx : Nat) : Option Flow := getKey ctx s.ingest.flows
def setFlow (ctx : Nat) (f : Flow) (s : State) : State :=
  { s with ingest := { s.ingest with flows := setKey ctx f s.ingest.flows } }
def modFlow (ctx : Nat) (g : Flow → Flow) (s : State) : State :=
  match flowOf s ctx with
  | some f => setFlow ctx (g f) s
  | none => s
def exhOf (s : State) (h : Nat) : Option Exhibit := getKey h s.adm.exhibits
def setExh (h : Nat) (e : Exhibit) (s : State) : State :=
  { s with adm := { s.adm with exhibits := setKey h e s.adm.exhibits } }
def modExh (h : Nat) (g : Exhibit → Exhibit) (s : State) : State :=
  match exhOf s h with
  | some e => setExh h (g e) s
  | none => s

/-- A fold over a list of indices, in order. -/
def forEach {α : Type} (l : List α) (f : α → State → State) (s : State) : State := l.foldl (fun s a => f a s) s

/-! ### Register bits with effects elsewhere -/

def regIrqCause : Nat := 0x00100004
def regIrqMask : Nat := 0x00100008

/-- CAT_ID fields (R509): DEVICE, DOMAIN, ROLE (3 reads and acts as 0) and LEAD. -/
def catDevice (s : State) : Nat := regField s 0x00F00004 0 10
def catDomain (s : State) : Nat := regField s 0x00F00004 10 4
def catRole (s : State) : Nat := let r := regField s 0x00F00004 14 2; if r = 3 then 0 else r
def catLead (s : State) : Nat := regField s 0x00F00004 16 10

/-- The vector of a cause bit (R136, R137). -/
def causeVector (pf1 : Bool) (b : Nat) : Nat :=
  if b = 8 then 1 else if pf1 || decide (b < 8) then 0 else if b < 24 then 2 else 3

/-- Set a bit of HST_IRQ_CAUSE; its vector goes out when the bit rises while unmasked (R136). -/
def raiseCause (pf1 : Bool) (b : Nat) (s : State) : State :=
  let off := regIrqCause + if pf1 then pf1Base else 0
  let v := rawReg s off
  let m := rawReg s (regIrqMask + if pf1 then pf1Base else 0)
  let s' := setRaw off (v ||| wordOf (2 ^ b)) s
  if !v.getLsbD b && !m.getLsbD b then emit (.vector pf1 (causeVector pf1 b)) s' else s'

/-- Set bits of a stored register. -/
def setBits (off mask : Nat) (s : State) : State := setRaw off (rawReg s off ||| wordOf mask) s

/-! ### Ledger records -/

/-- A ledger ring's holding store takes a record, or counts it lost when it holds 16,384 (R135). -/
def LedgerRing.put (r : Rec) (l : LedgerRing) : LedgerRing :=
  if l.hold.length < 16384 then { l with hold := l.hold ++ [r] }
  else { l with lost := l.lost + 1, lostFirst := if l.lost = 0 then r.stamp else l.lostFirst, lostLast := r.stamp }

/-- A record is held: in the start-up buffer of 1,024 while start-up runs (R91), else in the holding store; the PF1
copy takes the events of the 0x09 range and those marked for it (R116). -/
def keepRec (pf1 : Bool) (r : Rec) (s : State) : State :=
  let l := s.ledger
  let l := if s.startup.running then
      if l.startBuf.length < 1024 then { l with startBuf := l.startBuf ++ [r] }
      else { l with startLost := l.startLost + 1 }
    else { l with main := l.main.put r }
  let l := if pf1 || decide (r.event / 256 = 9) then { l with pf1 := l.pf1.put r } else l
  { s with ledger := l }

/-- How many of a unit's records carry a stamp. -/
def stampCount (t : Nat) (x : List (Nat × Nat)) : Nat := (getKey t x).getD 0

/-- The first stamp from t on that fewer than 16 records carry: each of the listed stamps can be passed once. -/
def freeStamp (x : List (Nat × Nat)) : Nat → Nat → Nat
  | 0, t => t
  | n + 1, t => if stampCount t x < 16 then t else freeStamp x n (t + 1)

/-- The stamp that a unit gives a record which asks for t: t itself while fewer than 16 of its records carry it, else the first
later one (R157 bounds them and names no remedy: DESIGN CHOICE, notes/assumptions/96.md). -/
def recStamp (unit t : Nat) (s : State) : Nat :=
  let x := s.ledger.runs.getD unit []
  freeStamp x x.length t

/-- A unit's stamps once a record has asked for t (R157). -/
def runNext (t : Nat) (x : List (Nat × Nat)) : List (Nat × Nat) :=
  let u := freeStamp x x.length t
  setKey u (stampCount u x + 1) x

/-- Raise a record: the unit's next SEQUENCE is used (R157), the given stamp, and FREE_RUN as it stands when the record is raised,
also where the stamp is an earlier instant's (DESIGN CHOICE, notes/assumptions/97.md). -/
def recordAt (pf1 : Bool) (t unit event : Nat) (det : List Byte) (s : State) : State :=
  let r : Rec := { event := event, device := catDevice s, unit := unit, seq := s.ledger.seqs.getD unit 0,
                   freeRun := freeRun s, saved := false, stamp := recStamp unit t s, detail := padTo 16 det }
  keepRec pf1 r { s with ledger := { s.ledger with seqs := upd s.ledger.seqs unit (fun n => (n + 1) % 65536)
                                                   runs := upd s.ledger.runs unit (runNext t) } }

def record (unit event : Nat) (det : List Byte) (s : State) : State := recordAt false s.now unit event det s

/-- A record that goes only into the ledger save, with SAVED = 1 on delivery (R143, R494). -/
def recordSaved (unit event : Nat) (det : List Byte) (s : State) : State :=
  let r : Rec := { event := event, device := catDevice s, unit := unit, seq := s.ledger.seqs.getD unit 0,
                   freeRun := freeRun s, saved := true, stamp := recStamp unit s.now s, detail := padTo 16 det }
  { s with ledger := { s.ledger with seqs := upd s.ledger.seqs unit (fun n => (n + 1) % 65536),
                                     runs := upd s.ledger.runs unit (runNext s.now),
                                     saved := s.ledger.saved ++ [r] } }

/-- PROMISE_MISS: unit, deadline, and by how much it was missed (R30), then for a head the part that raised it (R11): 1 the
pipe, 2 the Press, 3 the Survey estimator, 4 the colour solver, 0 another unit.  The spec gives the event no layout, and does not
say from where the amount counts: the deadline is the reference instant of Table 1.4, without its bound, and the amount the time
since it (DESIGN CHOICE, notes/assumptions/50.md). -/
def promiseMiss (part unit deadline : Nat) (s : State) : State :=
  raiseCause true 0 (raiseCause false 0
    (record unit 0x0101 (u8 unit ++ u64 deadline ++ u32 (min 0xFFFFFFFF (s.now - deadline)) ++ u8 part) s))

/-- The offsets from `a` to `b`, both included. -/
def span (a b : Nat) : List Nat := (List.range (b + 1 - a)).map (· + a)

/-- The first of the listed payload bytes that is not zero. -/
def firstNonZero (d : Desc) (l : List Nat) : Option Nat := l.find? fun i => d.p8 i != 0

/-- The PRIO bit of a PF0 submission ring (R123). -/
def ringPrio (s : State) (q : Nat) : Bool := decide (regField s (0x00101008 + 32 * q) 12 1 = 1)
/-- The completion ring bound to a submission ring (R129). -/
def ringCq (s : State) (q : Nat) : Nat := regField s (0x00101008 + 32 * q) 4 8
/-- Entries of a completion ring, and slots of a submission ring.  SIZE may be 16 (R120, R128, R134) but its field has four bits:
the model takes the values 6 to 15 that the field can hold (DESIGN CHOICE, notes/assumptions/48.md). -/
def cqSize (s : State) (c : Nat) : Nat := 2 ^ regField s (0x00103008 + 32 * c) 0 4
def sqSize (s : State) (q : Nat) : Nat := 2 ^ regField s (0x00101008 + 32 * q) 0 4

/-! ### What an Ethernet port sends (R174) -/

def ethEnabled (s : State) (k : Nat) : Bool := decide (regField s (0x00200010 + 64 * k) 0 1 = 1)
def ethVlan (s : State) (k : Nat) : Nat := regField s (0x00200010 + 64 * k) 1 12

/-- ING_Ek_IPV4 (R151, R174). -/
def ethAddr (s : State) (k : Nat) : Nat := (rawReg s (0x0020001C + 64 * k)).toNat

/-- A frame leaves with the port's tag. -/
def ethSend (port : Nat) (f : EthOut) (s : State) : State := emit (.eth port (ethVlan s port) f) s

/-- An IGMPv3 membership report; a port that is not enabled sends none (R174). -/
def igmpReport (port group src : Nat) (join : Bool) (s : State) : State :=
  if ethEnabled s port then ethSend port (.igmp group src join) s else s

end Sys2Proof.Machine
end

