-- ==== Sys2Proof/Machine/FaultPoint.lean ====
section
/-!
DEFINITION. An injection point as a shared operation (chapter 23): how its rules count, fire and act on a packet (R531 to
R535), and the CRC-32 of R308.
-/

namespace Sys2Proof.Machine

/-- One step of the 64-bit generator of R531. -/
def genStep (x : Nat) : Nat :=
  let m := 2 ^ 64
  let x := Nat.xor x (x * 2 ^ 13 % m)
  let x := Nat.xor x (x / 2 ^ 7)
  Nat.xor x (x * 2 ^ 17 % m)

/-- The draw of a generator state. -/
def draw (x : Nat) : Nat := x / 2 ^ 32

/-- What a rule decides for one matching packet. -/
structure Firing where
  rule  : FaultRule
  fires : Bool
  deriving DecidableEq, Repr

/-- Count a matching packet and decide whether the rule fires on it (R531).  `t` is the instant at the point. -/
def FaultRule.meet (t : Nat) (r : FaultRule) : Firing :=
  if r.limit ≠ 0 ∧ r.limit ≤ r.fired then ⟨{ r with matched := r.matched + 1 }, false⟩
  else if t < r.at_ then ⟨r, false⟩
  else
    let r := { r with matched := r.matched + 1 }
    match r.trigger with
    | 0 => ⟨r, true⟩
    | 1 => ⟨r, decide (r.n ≠ 0 ∧ r.matched % r.n = 0)⟩
    | _ => let x := genStep r.gen
           ⟨{ r with gen := x }, decide (draw x < r.n)⟩

/-- KIND 3: one draw per bit in bit order; the flipped bits and the generator after them. -/
def flipBits : Nat → Nat → Nat → Nat → List Nat → List Nat × Nat
  | 0, _, _, x, acc => (acc, x)
  | n + 1, i, p, x, acc =>
    let x := genStep x
    flipBits n (i + 1) p x (if draw x < p then acc ++ [i] else acc)

/-- What happens to one packet at a point (Table 23.4). -/
structure FaultFate where
  drop  : Bool
  flips : List Nat          -- bits inverted
  fix   : Bool              -- FIX_CRC with a corruption
  hold  : Option (Bool × Nat × Nat)   -- KIND 4 or 5: reorder, WINDOW or delay, rule
  deriving DecidableEq, Repr

def clearFate : FaultFate := ⟨false, [], false, none⟩

/-- Whether a rule has the number of another at its point. -/
def FaultRule.sameKey (r q : FaultRule) : Bool := r.point == q.point && r.rule == q.rule

def replaceRule (r : FaultRule) (l : List FaultRule) : List FaultRule := l.map fun q => if q.sameKey r then r else q

/-- A rule that acts is kept where it stands: among those set, or among those that wait for their successor's AT. -/
def setRule (r : FaultRule) (s : State) : State :=
  if s.fault.rules.any (fun q => q.sameKey r && decide (q.at_ ≤ s.now)) then
    { s with fault := { s.fault with rules := replaceRule r s.fault.rules } }
  else { s with fault := { s.fault with old := replaceRule r s.fault.old } }

/-- The rules that act at a point, in rule number order: one set for a later AT leaves the rule it replaces in force until
then (R530). -/
def rulesAt (point : Nat) (s : State) : List FaultRule :=
  (List.range 4).flatMap fun i =>
    let mine := fun l : List FaultRule => l.filter fun r => r.point = point ∧ r.rule = i
    match (mine s.fault.rules).filter fun r => r.at_ ≤ s.now with
    | [] => mine s.fault.old
    | l => l

/-- FAULT_INJECTED (R534). -/
def recordFault (r : FaultRule) (ident info : Nat) (s : State) : State :=
  record 9 0x1701 (u8 r.point ++ u8 r.rule ++ u8 r.kind ++ u8 0 ++ u32 ident ++ u32 info ++ u32 r.fired)
    { s with fault := { s.fault with total := bump s.fault.total } }

/-- One rule acts on a packet of `nbits` bits (R531 to R533). -/
def applyRule (ident nbits : Nat) (r : FaultRule) (x : FaultFate × State) : FaultFate × State :=
  let (fate, s) := x
  let f := r.meet s.now
  let r := f.rule
  let busy := fate.drop || (fate.hold.isSome && (r.kind = 4 || r.kind = 5))
  if !f.fires || busy then (fate, setRule r s)
  else
    let hit := { r with fired := r.fired + 1 }
    match r.kind with
    | 1 => ({ fate with drop := true }, recordFault hit ident 0 (setRule hit s))
    | 2 =>
      if r.param < nbits then
        let hit := { hit with bits := bump hit.bits }
        ({ fate with flips := fate.flips ++ [r.param], fix := fate.fix || bitOf r.flags 0 },
          recordFault hit ident 1 (setRule hit s))
      else (fate, setRule r s)
    | 3 =>
      let (fl, g) := flipBits nbits 0 r.param r.gen []
      let hit := { hit with gen := g, bits := satAdd top32 hit.bits fl.length }
      ({ fate with flips := fate.flips ++ fl, fix := fate.fix || bitOf r.flags 0 },
        recordFault hit ident fl.length (setRule hit s))
    | 4 => ({ fate with hold := some (true, r.window, r.rule) }, recordFault hit ident r.window (setRule hit s))
    | _ => ({ fate with hold := some (false, r.param, r.rule) }, recordFault hit ident r.param (setRule hit s))

/-- A packet of class bit `cls` passes an injection point: its fate, with every rule counted (R531, R533). -/
def meetFaults (point cls flow ident nbits : Nat) (retry : Bool) (s : State) : FaultFate × State :=
  let rs := (rulesAt point s).filter fun r =>
    bitOf r.classes cls && !(retry && bitOf r.flags 1) &&
      (decide (point < 0x30) || bitOf r.flow 15 || decide (bits r.flow 0 10 = flow))
  rs.foldl (fun x r => applyRule ident nbits r x) (clearFate, s)

/-- Invert a bit of a byte list (Table 23.1). -/
def flipBit (l : List Byte) (b : Nat) : List Byte := upd l (b / 8) fun v => v ^^^ BitVec.ofNat 8 (2 ^ (b % 8))

/-- The last packet that a delay holds at a point: its delay, rule and release. -/
def lastDelayed (point : Nat) (s : State) : Option HeldPkt := (s.fault.held.filter fun h => h.point = point ∧ !h.order).getLast?

/-- Hold a packet at a point (KIND 4, KIND 5); a delayed one never leaves before one that stands ahead of it. -/
def holdPkt (point : Nat) (body : HeldBody) (h : Bool × Nat × Nat) (s : State) : State :=
  let ahead := ((lastDelayed point s).map (·.release)).getD 0
  { s with fault := { s.fault with held := s.fault.held ++
      [{ point := point, rule := h.2.2, body := body, arr := s.now, order := h.1, left := h.2.1,
         release := if h.1 then s.now + 100 * usec else max ahead (s.now + h.2.1) }] } }

/-- Another packet passes a point: a reordered packet held there has one fewer to wait for (R532). -/
def passPoint (point : Nat) (s : State) : State :=
  { s with fault := { s.fault with held := s.fault.held.map (fun h =>
      if h.point = point ∧ h.order then { h with left := h.left - 1, release := s.now + 100 * usec } else h) } }

/-- A packet meets its fate at a point: dropped, held by a rule or behind a delayed packet (KIND 5), or passed on by `go`. -/
def throughPoint (point : Nat) (fate : FaultFate) (body : HeldBody) (go : State → State) (s : State) : State :=
  let s := passPoint point s
  if fate.drop then s
  else match fate.hold with
    | some h => holdPkt point body h s
    | none => match lastDelayed point s with
      | some h => holdPkt point body (false, h.left, h.rule) s
      | none => go s

/-- The identity of a held packet (R534). -/
def HeldBody.ident : HeldBody → Nat
  | .eth p => p.seq
  | .arp _ _ => 0
  | .ptp m => m.seq
  | .dp l => l.line
  | .cat l _ => fieldOf l 10 2
  | .catOut lsn _ => lsn
  | .plk psn _ => psn
  | .mark v _ _ => v
  | .ret cs _ => if fieldOf cs 0 1 = 2 then fieldOf cs 1 2 else 0

/-- A link loses link: packets held at its points are discarded, each with FAULT_HELD_LOST (R535). -/
def loseHeld (point : Nat) (s : State) : State :=
  let l := s.fault.held.filter fun h => h.point = point
  let s := { s with fault := { s.fault with held := s.fault.held.filter fun h => h.point ≠ point } }
  forEach l (fun h => record 9 0x1705 (u8 h.point ++ u8 h.rule ++ u16 0 ++ u32 h.body.ident)) s

/-! ### CRC-32 -/

/-- One step of CRC-32, reflected (R308). -/
def crc32Bit (c : Nat) : Nat := if c % 2 = 1 then Nat.xor (c / 2) 0xEDB88320 else c / 2

/-- The CRC-32 register after more bytes. -/
def crc32Over (c : Nat) (l : List Byte) : Nat :=
  l.foldl (fun c b => (List.range 8).foldl (fun c _ => crc32Bit c) (Nat.xor c b.toNat)) c

/-- CRC-32 of R308: over "123456789" it yields 0xCBF43926. -/
def crc32 (l : List Byte) : Nat := Nat.xor 0xFFFFFFFF (crc32Over 0xFFFFFFFF l)

end Sys2Proof.Machine
end

