-- ==== Sys2Proof/Machine/CatTx.lean ====
section
/-!
DEFINITION. Sending over Catum Link as a shared operation: packet bytes (R504), routes (R510), credit and service order
(R507), the replay buffer (R508) and the transmit injection point (R528).
-/

namespace Sys2Proof

/-- The bytes of a packet: header of Table 22.1, payload, CRC (R504). -/
def CatPkt.bytes (p : CatPkt) : List Byte :=
  let l := u8 p.type_ ++ u8 p.vc ++ u16 p.payload.length ++ u16 p.dest ++ u16 p.src ++ u8 p.hops ++ u8 0 ++ u16 p.lsn ++
    u32 p.tag ++ p.payload
  l ++ u32 (Machine.crc32 l)

def CatPkt.size (p : CatPkt) : Nat := 20 + p.payload.length

/-- Credit units of a packet (R507; notes/assumptions/30.md). -/
def CatPkt.units (p : CatPkt) : Nat := ceilDiv p.size 64

end Sys2Proof

namespace Sys2Proof.Machine

/-- What corruption makes of a packet; with FIX_CRC its CRC is computed again (R532). -/
def corrupt (fate : FaultFate) (l : List Byte) : List Byte :=
  let m := fate.flips.foldl flipBit l
  if fate.fix then m.take (l.length - 4) ++ u32 (crc32 (m.take (l.length - 4))) else m

/-- A packet leaves through a port's transmit point (R528). -/
def catOut (port : Nat) (again : Bool) (p : CatPkt) (s : State) : State :=
  let l := p.bytes
  let point := 0x20 + port
  let (fate, s) := meetFaults point p.type_ 0 p.lsn (8 * l.length) again s
  throughPoint point fate (.catOut p.lsn (corrupt fate l)) (emit (.cat port (corrupt fate l))) s

/-- A packet other than LINK leaves with the next LSN, into the replay buffer, its credit spent (R504, R507, R508). -/
def catLaunch (port : Nat) (p : CatPkt) (s : State) : State :=
  let p := { p with lsn := (catOf s port).lsnTx }
  let s := modCat port (fun c => { c with
    lsnTx := (c.lsnTx + 1) % 65536, replay := c.replay ++ [p], sentAt := c.sentAt ++ [s.now], used := upd c.used p.vc fun n => (n + p.units) % 65536 }) s
  catOut port false p s

/-- The credit limit of a packet's channel lets it go (R507). -/
def CatPort.credit (c : CatPort) (p : CatPkt) : Bool :=
  decide ((c.limits.getD p.vc 0 + 2 * 65536 - c.used.getD p.vc 0 % 65536 - p.units) % 65536 < 32768)

/-- The replay buffer of 64 KiB has room (R508). -/
def CatPort.room (c : CatPort) (p : CatPkt) : Bool := decide (total (c.replay.map CatPkt.size) + p.size ≤ 65536)

/-- The first waiting packet of a channel, if it may go. -/
def CatPort.ready (c : CatPort) (vc : Nat) : Option CatPkt := (c.waiting.find? fun p => p.vc = vc).filter fun p => c.credit p && c.room p

/-- The packet served next: VC1, then VC0, then VC2 and VC3 by three to one; VC3 is held while stage 1 is recognised (R507,
R68). -/
def CatPort.next (c : CatPort) (hold3 : Bool) : Option CatPkt :=
  let v3 := if hold3 then none else c.ready 3
  ((c.ready 1).or (c.ready 0)).or (if c.wrr < 3 then (c.ready 2).or v3 else v3.or (c.ready 2))

/-- Packets that wait at a READY port leave while they may, at most `n` of them. -/
def catServe (port : Nat) : Nat → State → State
  | 0, s => s
  | n + 1, s =>
    let c := catOf s port
    if c.state != .ready then s
    else match c.next (decide (1 ≤ s.power.stage)) with
      | none => s
      | some p =>
        let w := if p.vc = 3 then 0 else if p.vc = 2 then min 3 (c.wrr + 1) else c.wrr
        catServe port n (catLaunch port p (modCat port (fun c => { c with waiting := c.waiting.erase p, wrr := w }) s))

/-- Serve a port. -/
def catPump (port : Nat) (s : State) : State := catServe port (catOf s port).waiting.length s

/-- A packet joins the output port's queue, which is served at once (R507). -/
def catQueue (port : Nat) (p : CatPkt) (s : State) : State :=
  catPump port (modCat port (fun c => { c with waiting := c.waiting ++ [p] }) s)

/-- The ROUTE entry of a device: 0 to 3 a port, none where the packet is discarded (R510). -/
def routeOf (s : State) (dev : Nat) : Option Nat :=
  match (getKey dev s.catum.routes).getD 0xFE with
  | 0xFE => getKey dev s.catum.learned
  | 0xFF => none
  | p => some p

/-- Send a packet of this module towards a device (R504, R510). -/
def catSend (ty vc dest tag : Nat) (payload : List Byte) (s : State) : State :=
  match routeOf s dest with
  | some p => catQueue p { type_ := ty, vc := vc, dest := dest, src := catDevice s, hops := 16, lsn := 0, tag := tag,
                           payload := payload } s
  | none => s

/-! ### Host memory of a forwarded descriptor (R514) -/

/-- Cut a stretch into pieces of at most `most` bytes that cross no 4 KiB boundary: start and length, at most `n`. -/
def pieces (most : Nat) : Nat → Nat → Nat → List (Nat × Nat)
  | 0, _, _ => []
  | n + 1, a, len =>
    if len = 0 then []
    else
      let k := min len (min most (4096 - a % 4096))
      (a, k) :: pieces most n (a + k) (len - k)

/-- Bytes go to host memory: on PCIe, or for a forwarded descriptor as DMA_WR packets to the lead (R514). -/
def hostWrite (d : Desc) (a : Nat) (bs : List Byte) (s : State) : State :=
  match d.fwd with
  | none => emit (.host a bs) s
  | some (lead, _) =>
    forEach (pieces 496 bs.length a bs.length) (fun x =>
      catSend 0x0A 2 lead 0 (u64 x.1 ++ List.replicate 8 0 ++ (bs.drop (x.1 - a)).take x.2)) s

/-- A follower asks its lead for host bytes, up to 4,096 a request (R514). -/
def dmaAsk (d : Desc) (a len : Nat) (s : State) : State :=
  match d.fwd with
  | none => s
  | some (lead, _) =>
    forEach (pieces 4096 len a len) (fun x s =>
      let tag := s.catum.tag
      let r : DmaRead := { tag := tag, ring := d.ring, dtag := d.tag, want := x.2, got := [], err := false, done := false }
      catSend 8 2 lead tag (u64 x.1 ++ u32 x.2 ++ u32 0)
        { s with catum := { s.catum with tag := (tag + 1) % 2 ^ 32, reads := s.catum.reads ++ [r] } }) s

/-- The bytes of a descriptor's host buffer: those that DMA_RD_DATA brought to a follower, else what PCIe brought. -/
def bufOf (d : Desc) (buf : HostBuf) (s : State) : HostBuf :=
  let rs := s.catum.reads.filter fun r => r.ring = d.ring ∧ r.dtag = d.tag
  if d.fwd.isNone || rs.isEmpty || rs.any (!·.done) then buf
  else
    let before := rs.takeWhile fun r => !r.err
    match rs.find? (·.err) with
    | none => .data (rs.flatMap (·.got))
    | some r => .error (before.flatMap (·.got) ++ r.got)

end Sys2Proof.Machine
end

