-- ==== Sys2Proof/Machine/Complete.lean ====
section
/-!
DEFINITION. Completions and notices (R128 to R130, R138, R513), and the one check of every descriptor (Table 5.4, R126,
R127, R556), as shared operations.
-/

namespace Sys2Proof.Machine

/-! ### Completions -/

/-- Entries written and not yet freed (R128). -/
def CompRing.used (size : Nat) (c : CompRing) : Nat := (c.tail + size - c.head) % size

/-- Whether a completion ring has room: 2^SIZE - 1 entries at most, those taken by fetched descriptors counted for a
notice (R123, R128).  The spec does not say whether a notice may use an entry kept for a fetched descriptor's first
completion: it may not, and waits in the hold area (DESIGN CHOICE, notes/assumptions/47.md). -/
def cqRoom (c : Nat) (notice : Bool) (s : State) : Bool :=
  let r := cqOf s c
  r.enabled && decide (r.used (cqSize s c) + (if notice then r.taken else 0) < cqSize s c - 1)

/-- The vector of a completion ring (R136, R138). -/
def sendCqVector (c : Nat) (s : State) : State :=
  modCq c (fun r => { r with unsent := 0 })
    (emit (.vector (decide (252 ≤ c)) (regField s (0x00103008 + 32 * c) 4 6)) s)

/-- A submission ring's first completion is posted now (R124, R125). -/
def markFirst (q : Nat) (s : State) : State :=
  { s with host := { s.host with firsts := setKey q s.now s.host.firsts } }

/-- Write one entry: ring order, PHASE, coalescing; it is the entry taken for it, if one was (R123, R128, R138). -/
def writeComp (c : Nat) (m : Comp) (s : State) : State :=
  let r := cqOf s c
  let size := cqSize s c
  let next := (r.tail + 1) % size
  let s := emit (.comp c r.tail r.phase m) (if m.notice then s else markFirst m.sq s)
  let s := modCq c (fun r => { r with tail := next, phase := if next = 0 then !r.phase else r.phase,
                                      taken := if m.took then r.taken - 1 else r.taken
                                      unsent := r.unsent + 1,
                                      since := if r.unsent = 0 then s.now else r.since }) s
  let s := if m.status = 0x21 && m.notice && decide (c < 252) then raiseCause false 18 s else s
  if m.irq || decide (regField s (0x00103008 + 32 * c) 16 8 ≤ (cqOf s c).unsent) then sendCqVector c s else s

/-- An entry that a fetched descriptor took is free again without having been written; where the ring was full, this ends the hold
of the descriptors bound to it (R123, R124). -/
def freeEntry (c : Nat) (s : State) : State :=
  modCq c (fun r => { r with taken := r.taken - 1, freedAt := if cqRoom c true s then r.freedAt else s.now }) s

/-- A completion joins the hold area in stamp order (R130). -/
def holdComp (m : Comp) (l : List Comp) : List Comp :=
  l.takeWhile (fun x => decide (x.stamp ≤ m.stamp)) ++ m :: l.dropWhile fun x => decide (x.stamp ≤ m.stamp)

/-- Post a completion to a ring, or hold it, or discard it with OVF and CQ_OVERFLOW when 256 are held (R130).  A discard on
one of PF1's rings raises OVERFLOW of PF1 alone: the spec does not say whether PF0's is raised beside it (DESIGN CHOICE,
notes/assumptions/46.md). -/
def postTo (c : Nat) (m : Comp) (s : State) : State :=
  if (cqOf s c).hold.isEmpty && cqRoom c m.notice s then writeComp c m s
  else if (cqOf s c).hold.length < 256 then modCq c (fun r => { r with hold := holdComp m r.hold }) s
  else
    let pf1 := decide (252 ≤ c)
    let s := if m.took then freeEntry c s else s
    raiseCause pf1 4 (recordAt pf1 s.now 3 0x0504 (u32 m.tag ++ u16 m.status) (setBits (0x0010300C + 32 * c) 2 s))

/-- The 32 bytes of a completion with PHASE 0 (Table 5.5). -/
def Comp.bytes (m : Comp) : List Byte :=
  u32 m.tag ++ u16 m.status ++ u16 (2 * bit m.freeRun + 4 * bit m.notice) ++ u64 m.stamp ++ padTo 8 m.detail ++ u64 m.db

/-- A completion of a descriptor goes to the completion ring bound to its ring, or back to the lead of a forwarded
descriptor as FWD_COMPL (R129, R513). -/
def postFor (d : Desc) (m : Comp) (s : State) : State :=
  match d.fwd with
  | some (lead, q, vc) =>
    catSend 7 vc lead 0 (u8 q ++ List.replicate 7 0 ++ m.bytes) s
  | none => postTo (ringCq s d.ring) m s

/-- HOST_READ_ERROR sets ERR_HOST of its function (R136, R137). -/
def hostErr (d : Desc) (status : Nat) (s : State) : State :=
  if status = 0x501 then raiseCause (decide (252 ≤ d.ring)) 5 s else s

/-- Whether an earlier descriptor of a ring still has its first completion to post: begun, or in the hold area of the ring's
completion ring (FENCE, Table 5.3). -/
def fenceWaits (q : Nat) (s : State) : Bool :=
  s.host.begun.any (fun e => e.ring == q) || (cqOf s (ringCq s q)).hold.any fun m => !m.notice && m.sq == q

/-- The first completion of a descriptor (R129): QUIET suppresses DONE, and the entry it took is free; any other keeps that entry
for its posting.  One that a PF1 function-level reset has discarded posts nothing (R144).  FREE_RUN is as it stands when the
completion is made, whatever its STAMP (DESIGN CHOICE, notes/assumptions/97.md). -/
def firstAt (t : Nat) (d : Desc) (status : Nat) (det : List Byte) (s : State) : State :=
  if s.host.dropped.contains d then { s with host := { s.host with dropped := s.host.dropped.erase d } }
  else
    let s := hostErr d status { s with host := { s.host with begun := s.host.begun.erase d } }
    let s := if d.fwd.isNone then s
             else { s with catum := { s.catum with reads := s.catum.reads.filter fun r => !(r.ring == d.ring && r.dtag == d.tag) } }
    let s := markFirst d.ring s
    if d.quiet && decide (status = 0) then (if d.fwd.isNone then freeEntry (ringCq s d.ring) s else s)
    else postFor d { tag := d.tag, status := status, sq := d.ring, freeRun := freeRun s, notice := false, stamp := t,
                     detail := padTo 8 det, db := d.db, irq := d.irq, took := d.fwd.isNone } s

/-- Operation codes of Table 5.6. -/
def opcodes : List Nat :=
  [0x0101, 0x0102, 0x0201, 0x0301, 0x0302, 0x0401, 0x0402, 0x0403, 0x0501, 0x0502, 0x0503, 0x0504, 0x0505, 0x0601, 0x0602] ++
  [0x0701, 0x0702, 0x0703, 0x0710, 0x0711, 0x0801, 0x0901, 0x0902, 0x0A01, 0x0A02, 0x0B01, 0x0B02, 0x0B03, 0x0B04] ++
  [0x0C01, 0x0C02, 0x0D01, 0x0D02, 0x0D03, 0x0E01, 0x0E02, 0x0E03, 0x0F01, 0x0F02, 0x0F03, 0x0F04, 0x1001, 0x1002] ++
  [0x1101, 0x1201, 0x1202, 0x1301, 0x1401, 0x1402, 0x1501, 0x1601, 0x1602, 0x1603, 0x1701, 0x1702]

/-- The descriptor of a ring that begins next: its earliest fetched one (R122). -/
def frontOf (q : Nat) (s : State) : Option Desc := s.host.fetched.find? fun e => e.ring == q

/-- A ring's earliest fetched descriptor is taken from those not begun. -/
def dropFront (q : Nat) (s : State) : State :=
  { s with host := { s.host with fetched := s.host.fetched.eraseP fun e => e.ring == q } }

/-- A descriptor as it begins: a FENCE is held until its ring's last first completion, and one behind a FENCE that was held is
held as long as it (R124). -/
def fenced (e : Desc) (s : State) : Desc :=
  let t := max (if e.fence then (getKey e.ring s.host.firsts).getD 0 else 0) ((getKey e.ring s.host.fences).getD 0)
  if e.t < t then { e with hold := t } else e

/-- A FENCE has begun: the end of its hold holds what lies behind it too (R124). -/
def noteFence (d : Desc) (s : State) : State :=
  if d.fence then { s with host := { s.host with fences := setKey d.ring d.t s.host.fences } } else s

/-- A ring's next descriptors whose OPCODE is not in Table 5.6 complete with BAD_OPCODE as their turn comes, at most `n` of
them (R122, R127, R132). -/
def settleBad (q : Nat) : Nat → State → State
  | 0, s => s
  | n + 1, s =>
    match frontOf q s with
    | none => s
    | some d =>
      if opcodes.contains d.opcode || (d.fence && fenceWaits q s) then s
      else settleBad q n (firstAt s.now d 0x10 [] (noteFence (fenced d s) (dropFront q s)))

/-- The first completion of a descriptor, and what of its ring waited for it only to be refused. -/
def completeAt (t : Nat) (d : Desc) (status : Nat) (det : List Byte) (s : State) : State :=
  let s := firstAt t d status det s
  settleBad d.ring s.host.fetched.length s

def complete (d : Desc) (status : Nat) (det : List Byte) (s : State) : State := completeAt s.now d status det s

/-- A notice under a descriptor's tag, NOTICE = 1 (R129). -/
def noticeAt (t : Nat) (d : Desc) (status : Nat) (det : List Byte) (s : State) : State :=
  postFor d { tag := d.tag, status := status, sq := d.ring, freeRun := freeRun s, notice := true, stamp := t,
              detail := padTo 8 det, db := d.db, irq := d.irq, took := false } (hostErr d status s)

/-- Whether a descriptor still owes its first completion. -/
def owes (d : Desc) (s : State) : Bool := s.host.begun.contains d

/-! ### The checks of every descriptor (Table 5.4) -/

/-- What Table 5.6 and an opcode's own table say of its descriptors. -/
structure OpSpec where
  /-- its OPCODE -/
  code    : Nat
  /-- a Vitrine operation, accepted from PF1 only (R113) -/
  vitrine : Bool
  /-- a host-family operation (0x01), accepted from both functions -/
  hostFam : Bool
  /-- latency class I0 or I1 (check 3) -/
  prioOk  : Bool
  /-- requests admission (Table 8.6) -/
  admits  : Bool
  /-- names a host buffer, so LENGTH counts its bytes (R126) -/
  hostBuf : Bool
  /-- reserved payload bytes for which R556 gives RESERVED_SET -/
  zero    : List Nat
  deriving DecidableEq, Repr

end Sys2Proof.Machine

namespace Sys2Proof

/-- A descriptor as its operation reads it: the bytes beyond 15 + LENGTH are zero where LENGTH counts payload (R126). -/
def Desc.seen (o : Machine.OpSpec) (d : Desc) : Desc := if o.hostBuf then d else d.trunc

end Sys2Proof

namespace Sys2Proof.Machine

/-- Checks 2 to 5 of Table 5.4; `d` already truncated by R126. -/
def headCheck (o : OpSpec) (d : Desc) (s : State) : Option (Nat × List Byte) :=
  let pf1 := decide (252 ≤ d.ring)
  if !(o.hostFam || (pf1 == o.vitrine)) then some (0x580, [])
  else if ringPrio s d.ring && !o.prioOk then some (0x582, [])
  else if bits d.flags 6 10 != 0 || d.p8 11 != 0 || bits (d.p16 12) 10 6 != 0 || d.p16 14 != 0 ||
      (o.admits && decide (d.cls = 3)) then some (0x583, [])
  else match firstNonZero d o.zero with
    | some i => some (0x583, u16 i)
    | none => if d.length = 0 then some (0x11, []) else none

/-- Checks 6 to 8: the object check with its DETAIL, the lock, and the LENGTH limit. -/
def objectCheck (o : OpSpec) (d : Desc) (bad : Option (List Byte)) (tooLong : Bool) (s : State) :
    Option (Nat × List Byte) :=
  match bad with
  | some det => some (0x13, det)
  | none =>
    if o.admits && !s.host.locked then some (0x581, [])
    else if tooLong || (!o.hostBuf && decide (48 < d.length)) then some (0x12, [])
    else none

/-- The descriptor that a command begins: the earliest fetched one of its ring (R122), of the command's own OPCODE (R132),
not waiting for a FENCE (Table 5.3).  The end of its hold is the module's. -/
def beginsAs (o : OpSpec) (d : Desc) (s : State) : Option Desc :=
  match frontOf d.ring s with
  | none => none
  | some e =>
    if { e with hold := d.hold } = d ∧ d.opcode = o.code ∧ (d.fence && fenceWaits d.ring s) = false then some (fenced e s)
    else none

/-- The state in which a descriptor, as its operation reads it, has begun and owes its first completion (R127); those behind
it that are only to be refused follow (R122). -/
def begun (d seen : Desc) (s : State) : State :=
  let s := noteFence d (dropFront d.ring s)
  let s := { s with host := { s.host with begun := s.host.begun ++ [seen] } }
  settleBad d.ring s.host.fetched.length s

/-- A descriptor begins: it leaves the fetched ones, owes a completion, passes checks 2 to 8 in order, then does what
its chapter says (R127).  A command whose descriptor is not the one to begin finds nothing to do. -/
def runDesc (o : OpSpec) (d : Desc) (bad : Desc → State → Option (List Byte)) (tooLong : Desc → State → Bool)
    (act : Desc → State → State) (s : State) : State :=
  match beginsAs o d s with
  | none => s
  | some e =>
    let d := e.seen o
    let s := begun e d s
    match headCheck o d s with
    | some (st, det) => complete d st det s
    | none =>
      match objectCheck o d (bad d s) (tooLong d s) s with
      | some (st, det) => complete d st det s
      | none => act d s

/-- No object check, and no limit of its own. -/
def noBad : Desc → State → Option (List Byte) := fun _ _ => none
def noOver : Desc → State → Bool := fun _ _ => false

/-- The first of a list of range checks that fails, with its payload offset (R556). -/
def badField (l : List (Bool × Nat)) : Option (List Byte) := (l.find? (·.1)).map fun x => u16 x.2

/-- The first listed check that fails gives status and detail; none passes. -/
def firstBad (l : List (Bool × Nat × List Byte)) : Option (Nat × List Byte) := (l.find? (·.1)).map (·.2)

/-- Complete with the first failing check, or go on. -/
def orElseDo (d : Desc) (c : Option (Nat × List Byte)) (act : State → State) (s : State) : State :=
  match c with
  | some (st, det) => complete d st det s
  | none => act s

/-! ### Specifications of the operations of Table 5.6 -/

def specI0 (code : Nat) (zero : List Nat) : OpSpec := ⟨code, false, false, true, false, false, zero⟩
def specBuf (code : Nat) (prio : Bool) (zero : List Nat) : OpSpec := ⟨code, false, false, prio, false, true, zero⟩
def specAdm (code : Nat) (zero : List Nat) : OpSpec := ⟨code, false, false, true, true, false, zero⟩
def specI3 (code : Nat) (zero : List Nat) : OpSpec := ⟨code, false, false, false, false, false, zero⟩

end Sys2Proof.Machine
end

