-- ==== Sys2Proof/Machine/Outputs.lean ====
section
/-!
DEFINITION. The module's output side as shared operations: Source Control Channels entering OFF or RAMP (R383 to R388),
the hardware clamp, LASER_EN (R52), Plane Link packets (R308), PARK (R319) and fault injection at transmit points
(R531 to R534).
-/

namespace Sys2Proof.Machine

/-! ### Channels -/

def Chan.enabled (c : Chan) : Bool := c.state == .run || c.state == .ramp

/-- RANGE of an AOUT channel: true for the ±5 V range (R46). -/
def aoutBipolar (s : State) (c : Nat) : Bool := decide (regField s (0x00A08000 + 4 * c) 0 1 = 1)

/-- A 16-bit code as the channel's range reads it (R46, R388). -/
def codeOf (bip : Bool) (v : Nat) : Int := if bip then signed 16 v else (v % 65536 : Nat)

/-- Round a / b with halves away from zero (R384). -/
def roundDiv (a b : Int) : Int := if a < 0 then -((2 * (-a) + b) / (2 * b)) else (2 * a + b) / (2 * b)

/-- The clamp of R388: raised to CLAMP_LO, then lowered to CLAMP_HI. -/
def clampCode (s : State) (c : Nat) (v : Int) : Int :=
  let bip := aoutBipolar s c
  let r := (rawReg s (0x00A01004 + 0x40 * c)).toNat
  min (codeOf bip (bits r 16 16)) (max (codeOf bip (bits r 0 16)) v)

/-- A code is written to AOUT_c: it passes the clamp, a clamped update is counted, and CLAMP_HIT is recorded when a run
of clamped updates begins (R388). -/
def writeAout (c : Nat) (v : Int) (s : State) : State :=
  let w := clampCode s c v
  let hit := decide (w ≠ v)
  let first := hit && !(chanOf s c).clampRun
  let s := modChan c (fun ch => { ch with code := w, clampRun := hit,
                                          clampHit := if hit then bump ch.clampHit else ch.clampHit }) s
  let s := emit (.aout c w) s
  if first then record 8 0x1004 (u8 c ++ s32 v) s else s

/-- A pin driven to 0 V without the converter (R51, R383). -/
def pinZero (c : Nat) (s : State) : State :=
  emit (.aout c 0) (modChan c (fun ch => { ch with code := 0, clampRun := false }) s)

/-- An injection ends at an instant (R414): its record, and the completion of the WAVE 4 that waits for it; the next that waits takes
its place. -/
def endInjectAt (c cause t : Nat) (s : State) : State :=
  match (spOf s c).inject with
  | none => s
  | some j =>
    let s := modSp c (fun sp => { sp with inject := sp.waiting.head?, waiting := sp.waiting.tail }) s
    let s := if j.active then recordAt false t 8 0x1107 (u8 c ++ u8 cause ++ u16 0 ++ u32 j.i) s else s
    let s := if owes j.desc s then completeAt t j.desc 0 [] s else s
    forEach j.stops (fun x => completeAt t x.1 0 []) s

/-- The injection in progress and every one that waits end (R414). -/
def endInject (c cause : Nat) (s : State) : State :=
  forEach (List.range ((spOf s c).waiting.length + 1)) (fun _ s => endInjectAt c cause s.now s) s

/-- The item is channel c's loop set. -/
def Item.isLoop (c : Nat) (i : Item) : Bool :=
  match i.kind with
  | .loopSet c' _ _ => c' == c
  | _ => false

/-- Whether channel c has an admitted loop set, in force or pending (R392, R400). -/
def loopAdmitted (s : State) (c : Nat) : Bool := s.adm.items.any fun i => i.isLoop c && !i.leaving

/-- What takes all work out of the promise (R28): INTLK_B, a thermal trip, shedding stage 5, a stop under way, and the
consequences of injected faults, taken as the time while a fault rule that has fired stands or a packet is held (DESIGN
CHOICE, notes/assumptions/51.md). -/
def excused (s : State) : Bool :=
  s.power.intlkLow || s.thermal.latch || decide (s.power.stage = 5) || s.power.stop.isSome || !s.fault.held.isEmpty ||
    (s.fault.rules ++ s.fault.old).any fun r => decide (0 < r.fired)

/-- A head whose work the promise covers: configured, not revoked, not dark for a frozen channel (R28). -/
def promised (s : State) (k : Nat) : Bool :=
  let p := (headOf s k).pipe
  p.cfg.isSome && !p.stopping && !p.safeDark

/-- A miss of a part of a head, or of a unit that serves it, unless R28 excludes it (R26, R28, R30). -/
def headMiss (k part unit deadline : Nat) (s : State) : State :=
  if excused s || !promised s k then s else promiseMiss part unit deadline s

/-- A miss of a channel's loop, unless R28 excludes it: its set is admitted and not revoked, and a head that owns the
channel is covered. -/
def loopMiss (c deadline : Nat) (s : State) : State :=
  let dark := (List.range 8).any fun k => (headOf s k).pipe.cfg.any (fun h => bitOf h.channels c) && !promised s k
  if excused s || dark || (chanOf s c).revoked || !loopAdmitted s c then s else promiseMiss 0 8 deadline s

/-- One channel has acted on a CHAN_ENABLE, or cannot any more: the last one named completes it, with the latest of their instants
(R386). -/
def enableDone (c t : Nat) (q : EnableReq) (s : State) : State :=
  let t := max t q.acted
  let s := modChan c (fun ch => { ch with enable := ch.enable.filter (· ≠ q) }) s
  if s.gheler.chans.any (fun ch => ch.enable.any fun e => e.desc = q.desc) then
    { s with gheler := { s.gheler with chans := s.gheler.chans.map fun ch =>
      { ch with enable := ch.enable.map fun e => if e.desc = q.desc then { e with acted := t } else e } } }
  else completeAt t q.desc 0 [] s

/-- Coefficient entries that wait apply at once when the channel leaves RUN (R391). -/
def flushCoef (c : Nat) (s : State) : State :=
  let l := (chanOf s c).coefQ
  let s := modChan c (fun ch => { ch with
    coefQ := [], coefs := l.foldl (fun m q => q.entries.foldl (fun m e => setKey e.1 e.2 m) m) ch.coefs }) s
  forEach l (fun q => complete q.desc 0 []) s

/-- A loop set leaves with the end of its channel's run: its item is released, and what waited for its samples ends
(R395; notes/assumptions/26.md). -/
def dropLoop (c : Nat) (s : State) : State :=
  let s := { s with adm := { s.adm with items := s.adm.items.filter fun i => !(i.isLoop c && i.leaving) } }
  let s := modChan c (fun ch => { ch with
    cfg := none, revoked := false, held := none, pendCfg := if loopAdmitted s c then ch.pendCfg else none }) s
  if loopAdmitted s c then s
  else
    let s := forEach (chanOf s c).enable (enableDone c s.now) s
    let s := endInject c 3 s
    let sp := spOf s c
    let s := modSp c (fun sp => { sp with pending := none, modes := [] }) s
    let s := forEach (sp.pending.toList.map (·.2.1)) (fun d => complete d 0x1082 (u8 c)) s
    forEach sp.modes (fun m => complete m.desc 0x1082 (u8 c)) s

/-- The channel enters OFF: states at 0; the pin follows at its next update, or at once where the caller forces it (R383). -/
def chanRest (c : Nat) (s : State) : State :=
  let rev := (chanOf s c).revoked
  let s := flushCoef c (endInject c 3 s)
  let s := modChan c (fun ch => { ch with
      state := (if ch.state = .unavailable then .unavailable else .off),
      x := List.replicate 8 0, z := 0, uPrev := 0, dPrev := 0, uNew := [], applied := false, offNext := false, held := none,
      lastStep := none }) s
  let s := modSp c (fun sp => { sp with formed := false }) s
  if rev then dropLoop c s else s

/-- Enter OFF at once, the pin at 0 V (R383, R385). -/
def chanOff (c : Nat) (s : State) : State := pinZero c (chanRest c s)

/-- The channels now in RUN or RAMP. -/
def enabledChans (s : State) : List Nat := (List.range 48).filter fun c => (chanOf s c).enabled

def setCause (c cause : Nat) : State → State := modChan c fun ch => { ch with cause := cause }

/-- LOOP_DISABLED, where it names a channel (R385, Table 16.6). -/
def loopDisabled (mask cause : Nat) (s : State) : State :=
  if mask = 0 then s else record 8 0x1002 (leBytes 6 mask ++ u8 cause) s

/-- A CHAN_ENABLE with ACTION 0 ends when INTLK_B or RESET_B is asserted before every named channel has acted (R386). -/
def failEnables (s : State) : State :=
  let ds := (s.gheler.chans.flatMap fun ch => (ch.enable.filter fun q => q.action = 0).map (·.desc)).eraseDups
  let s := { s with gheler := { s.gheler with chans := s.gheler.chans.map fun ch =>
    { ch with enable := ch.enable.filter fun q => q.action ≠ 0 } } }
  forEach ds (fun d => complete d 0x1081 []) s

/-- Every channel enters OFF at once, without RAMP, with one LOOP_DISABLED (R385). -/
def allOff (cause : Nat) (s : State) : State :=
  let l := enabledChans s
  let s := forEach l (fun c s => setCause c cause (chanOff c s)) s
  let s := loopDisabled (maskOf l) cause s
  if s.power.intlkLow ∨ s.power.resetB then failEnables s else s

/-- A running channel begins its ramp to dark, its updates those strictly later than this instant (R384); one already in RAMP goes
on. -/
def rampChan (c why : Nat) (s : State) : State :=
  if (chanOf s c).state = .run then
    modChan c (fun ch => { ch with state := .ramp, rampC0 := ch.code, rampI := 0, rampWhy := why, upd := max ch.upd (s.now / 200 * 200), uNew := [], applied := false })
      (flushCoef c (endInject c 3 s))
  else s

/-- The running channels of a mask ramp to dark, with one LOOP_DISABLED (R384, Table 16.6). -/
def rampMask (mask why : Nat) (s : State) : State :=
  let l := (bitsOf mask 48).filter fun c => (chanOf s c).state = .run
  loopDisabled (maskOf l) why (forEach l (fun c => rampChan c why) s)

/-- LASER_EN_k is high: a channel of its map is enabled and no forcing condition holds (R52). -/
def laserEn (s : State) (k : Nat) : Bool :=
  let m := (rawReg s (0x00A08280 + 8 * k)).toNat + 2 ^ 32 * (rawReg s (0x00A08284 + 8 * k)).toNat
  let p := s.power
  (List.range 48).any (fun c => bitOf m c && (chanOf s c).enabled) && !p.intlkLow && !p.resetB &&
    p.state != .p3 && p.state != .p4 && !p.rampedDark && !p.bscan && !s.thermal.latch

/-! ### Plane Link transmit -/

/-- The bytes of a packet: header of Table 13.4, payload, CRC (R308). -/
def SentPkt.bytes (p : Nat) (q : SentPkt) (payload : List Byte) : List Byte :=
  let l := u8 q.type_ ++ u8 q.flags ++ u16 q.psn ++ u16 payload.length ++ u8 p ++ u8 0 ++ u64 q.stamp ++ u32 q.frame ++
    u8 q.order ++ u8 q.primary ++ u16 0 ++ u32 q.offset ++ u32 q.word ++ payload
  l ++ u32 (crc32 l)

/-- A packet with every field zero but its TYPE and STAMP. -/
def barePkt (type_ stamp : Nat) : SentPkt :=
  { psn := 0, type_ := type_, flags := 0, stamp := stamp, frame := 0, order := 0, primary := 0, offset := 0, len := 0,
    word := 0, payload := [], bad := 0, rev := false, line := 0 }

/-- RETRY (Table 13.4). -/
def SentPkt.isRetry (q : SentPkt) : Bool := bitOf q.flags 0

/-- MATCH bit of a TYPE (Table 23.3). -/
def plkClass (type_ : Nat) : Nat := if type_ < 16 then type_ - 1 else type_ - 6

/-- Packet bytes pass a port's transmit point (R528). -/
def plkOut (p psn type_ : Nat) (retry : Bool) (l : List Byte) (s : State) : State :=
  let (fate, s) := meetFaults p (plkClass type_) 0 psn (8 * l.length) retry s
  throughPoint p fate (.plk psn (corrupt fate l)) (emit (.plk p (corrupt fate l))) s

/-- The types a port holds for retransmission: all but PARK, IDLE and STATUS (R315). -/
def SentPkt.kept (q : SentPkt) : Bool := q.type_ != 3 && q.type_ != 6 && q.type_ != 7

/-- Credits of a packet (R314, R335). -/
def SentPkt.cost (q : SentPkt) : Nat := if q.type_ = 6 ∨ q.type_ = 7 then 0 else ceilDiv (36 + q.len) 64

/-- Whether the credit limit lets a packet go (R314). -/
def Port.allows (o : Port) (q : SentPkt) : Bool :=
  q.cost == 0 || decide ((o.limit + 2 * 2 ^ 32 - o.used % 2 ^ 32 - q.cost) % 2 ^ 32 < 2 ^ 31)

/-- Send a packet with the next PSN; its credits are consumed (R308, R314). -/
def sendPkt (p : Nat) (q : SentPkt) (payload : List Byte) (s : State) : State :=
  let q := { q with psn := (portOf s p).psn }
  let s := modPort p (fun o => { o with psn := (o.psn + 1) % 65536, lastSend := s.now, used := (o.used + q.cost) % 2 ^ 32,
                                        retry := if q.isRetry then bump o.retry else o.retry
                                        sent := if q.kept then o.sent ++ [q] else o.sent }) s
  plkOut p q.psn q.type_ q.isRetry (q.bytes p payload) s

/-- A lane 0 mark, a 0x4B block given by its byte 1, bytes 2 to 3 and FINE; fault class bit 8 (R310, R319, R336).  Behind a delayed
packet it waits like any other (R532). -/
def plkMark (p code value fine instant : Nat) (s : State) : State :=
  let (fate, s) := meetFaults p 8 0 value 64 false s
  let b := u8 0x4B ++ u8 code ++ u16 value ++ u8 fine ++ u24 0
  throughPoint p fate (.mark value b instant) (emit (.plkMark p b instant)) s

/-- FINE of the marks of one instant: 0 to 65, as the port's bit clock stands to the stamp count, so a free value for each
array; the two ports of a locked pair share theirs (R310, R317, notes/assumptions/83.md). -/
def fineOf (s : State) (p : Nat) : Nat := Config.freeValue (s.free + (portOf s p).pair.elim p (min p)) % 66

/-- Past the free values that `fineOf` reads. -/
def afterFine (s : State) : State := { s with free := s.free + 16 }

/-- PARK leaves a port now, a park mark in HOLD, with PLK_PARKED (R319, Table 13.5). -/
def parkNow (p cause : Nat) (s : State) : State :=
  let s := modPort p (fun o => { o with parkOwed := none }) s
  let s := if (portOf s p).state = .hold then plkMark p 0x66 0 0 s.now s else sendPkt p (barePkt 3 s.now) [] s
  record (0x18 + p) 0x0D08 (u8 p ++ u8 cause) s

/-- A port that was READY trains again (R306). -/
def Port.retrains (o : Port) : Bool :=
  (o.state == .bitlock || o.state == .align || o.state == .caps) && o.readyAt != 0

/-- PARK on a port: at once where it may be sent; it waits for credit, or until the port is READY again (R314, R319, R325). -/
def parkPort (p cause : Nat) (s : State) : State :=
  let o := portOf s p
  if o.state = .hold ∨ (o.state = .ready ∧ o.allows (barePkt 3 s.now)) then parkNow p cause s
  else if o.state = .ready ∨ o.retrains then modPort p (fun o => { o with parkOwed := some cause }) s
  else s

/-- PARK on every port of a mask. -/
def parkPorts (mask cause : Nat) (s : State) : State := forEach (bitsOf mask 16) (fun p => parkPort p cause) s

/-- A port whose item ends is not configured any more: DOWN, its counters kept until a PORT_CONFIG (R304, R328).  A request
of its own that has not completed stays, for the head's end to complete (R210). -/
def downPort (p : Nat) : State → State :=
  modPort p fun q => { Reset.port with nak := q.nak, retry := q.retry, stale := q.stale, subst := q.subst,
                                       retErr := q.retErr, bip := q.bip, caps := q.caps, psn := q.psn,
                                       parkDesc := q.parkDesc, desc := q.desc }

/-- A port of a stopped head sends PARK and goes DOWN, or goes DOWN once it has sent it. -/
def parkAndEnd (cause p : Nat) (s : State) : State :=
  if (portOf s p).ending then s
  else
    let s := parkPort p cause s
    if (portOf s p).parkOwed.isSome then modPort p (fun o => { o with ending := true }) s else downPort p s

/-- The ports of a mask that a head still has. -/
def portsLeft (s : State) (k ports : Nat) : List Nat := (bitsOf ports 16).filter fun p => (portOf s p).owner == some k

/-- A stopped head whose channels are all dark sends the PARK it owes, and its ports end; with the last of them nothing is
owed any more (R72, R83, R210, Table 5.12). -/
def parkIfDark (k : Nat) (s : State) : State :=
  match (headOf s k).pipe.parkDue with
  | some (ports, chans, cause) =>
    if (bitsOf chans 48).any fun c => (chanOf s c).enabled then s
    else
      let why := if s.power.stop.any (fun x => x.1 == .refclkLost) then 2 else cause
      let s := forEach (portsLeft s k ports) (parkAndEnd why) s
      if (portsLeft s k ports).isEmpty then modPipe k (fun p => { p with parkDue := none }) s else s
  | none => s

end Sys2Proof.Machine
end

