-- ==== Sys2Proof/Machine/Admit.lean ====
section
/-!
DEFINITION. The Admission unit (chapter 8): capacities (R195, R196, R492), committed units (R199), admission of a
request, the revocation pass (R200, R201), capacity changes and the hold of a scheduled shrink (R202), and how each kind
of revoked item stops and releases its units (R29).
-/

namespace Sys2Proof.Machine

/-! ### Capacities -/

/-- Resource code and instance of a capacity slot (R204, Table 8.3). -/
def slotName (i : Nat) : Nat × Nat :=
  if i < 2 then (1, i) else if i < 10 then (2, i - 2) else if i = 10 then (3, 0) else if i < 19 then (4, i - 11)
  else if i = 19 then (5, 0) else if i < 36 then (6, i - 20) else if i = 36 then (7, 0) else (8, i - 37)

/-- The capacity slot of a resource instance; none where Table 8.3 has no such instance. -/
def slotOf (code inst : Nat) : Option Nat :=
  (List.range 44).find? fun i => slotName i = (code, inst)

/-- Pin rate of a frequency point in 0.1 Gbit/s (Table 8.5). -/
def pinRate (fp : Nat) : Nat := [96, 64, 32, 16].getD fp 16

/-- R196 before θ: 1,024 r_p (a/32) × 0.92 × 0.97 × 0.88, rounded down. -/
def hbmCapacity (fp a : Nat) : Nat := 1024 * pinRate fp * a * 92 * 97 * 88 / (10 * 32 * 1000000)

/-- a_s: the slots in use that map into a stack and are not frozen (R196, R422). -/
def activePcs (s : State) (stack : Nat) : Nat :=
  ((s.hbm.map.take s.hbm.m).filter fun e => e.stack = stack ∧ !e.frozen).length

/-- The lowest frequency point that any condition calls for (R70, R432): the commanded point, P1's, shedding stage 2. -/
def calledFp (s : State) : Nat :=
  max s.hbm.commanded (max (if s.power.target = 1 then s.power.targetFp else 0) (if 2 ≤ s.power.stage then 1 else 0))

/-- The point at which admitted work is priced: capacities rise only when a move to a higher point ends (R70, R434). -/
def pricedFp (s : State) : Nat := max s.hbm.fp (calledFp s)

/-- The point at which requests are priced: a FREQ_SET and a PWR_SET_STATE to P1 still pending count (R197). -/
def priceFp (s : State) : Nat :=
  s.power.pendingSets.foldl (fun m d => if d.p8 16 = 1 then max m (d.p8 17) else m)
    (max (pricedFp s) (s.hbm.pendFreq.elim 0 (·.2.1)))

/-- The zones that cover a resource instance (Table 21.1). -/
def zonesOf (code inst : Nat) : List Nat :=
  match code with
  | 1 => [3, 4 + inst, 7]
  | 6 => [1, 7]
  | 8 => [1, 7]
  | 7 => [2, 6, 7]
  | _ => [0, 7]

/-- Smallest θ of the listed zones, in 1/256. -/
def minTheta (s : State) (zs : List Nat) : Nat :=
  zs.foldl (fun m z => min m (s.thermal.zones.getD z Reset.zone).theta) 256

/-- Capacity of a sink by its MAX_RATE (Table 8.4; 7 reads as 6). -/
def dpUnits (s : State) (d : Nat) : Nat := [5, 8, 17, 25, 38, 52, 77, 77].getD (regField s (0x00200200 + 256 * d) 1 3) 77

/-- Capacity of a slot when nothing throttles it (Table 8.3). -/
def baseCap (fp : Nat) (s : State) (i : Nat) : Nat :=
  match slotName i with
  | (1, st) => hbmCapacity fp (activePcs s st)
  | (2, _) => 4400
  | (3, _) => 24000
  | (4, _) => 300
  | (5, _) => 800
  | (6, _) => 192
  | (7, _) => 12000
  | (_, n) => if n < 4 then 100 else if n < 6 then dpUnits s (n - 4) else 400

/-- The throttle factor, times 256, on a slot (R196, R492). -/
def thetaOn (s : State) (i : Nat) : Nat := minTheta s (zonesOf (slotName i).1 (slotName i).2)

/-- The capacity of a slot at a frequency point (R196, R492). -/
def capAt (fp : Nat) (s : State) (i : Nat) : Nat := thetaOn s i * baseCap fp s i / 256

/-- The capacity of a slot under the conditions in force (R70, R196, R492). -/
def capNow (s : State) (i : Nat) : Nat := capAt (pricedFp s) s i

def capsNow (s : State) : List Nat := (List.range 44).map (capNow s)

/-! ### Committed units -/

def unitsOn (l : List (Nat × Nat)) (i : Nat) : Nat := total ((l.filter fun e => e.1 = i).map (·.2))

/-- What an item holds on a slot: its units, or those of the item it replaces while these are more (R198). -/
def Item.holds (i : Item) (slot : Nat) : Nat := max (unitsOn i.units slot) (unitsOn i.old slot)

def usedBy (items : List Item) (slot : Nat) : Nat := total (items.map fun i => i.holds slot)

/-- ADM_USEDi. -/
def committed (s : State) (slot : Nat) : Nat := usedBy s.adm.items slot

/-- The capacity a request is held against: the one in force, or a smaller one under a pending condition (R197). -/
def capFor (s : State) (slot : Nat) : Nat := min (s.adm.caps.getD slot 0) (capAt (priceFp s) s slot)

/-- Items of the same kind and owner are replaced (R198). -/
def ItemKind.same : ItemKind → ItemKind → Bool
  | .loopSet c _ _, .loopSet c' _ _ => c == c'
  | .capture c _, .capture c' _ => c == c'
  | a, b => a == b

/-- The DETAIL of NOT_ADMITTED (Table 8.7). -/
def shortDetail (slot short : Nat) : List Byte :=
  u8 (slotName slot).1 ++ u8 (slotName slot).2 ++ u16 0 ++ u32 short

/-- The first instance, in the order of Table 8.3, on which a request does not fit, with the units it is short. -/
def shortage (s : State) (kind : ItemKind) (units : List (Nat × Nat)) : Option (Nat × Nat) :=
  let old := (s.adm.items.find? fun i => i.kind.same kind && !i.leaving)
  (List.range 44).findSome? fun slot =>
    let n := unitsOn units slot
    if n = 0 then none
    else
      let o := old.elim 0 (·.holds slot)
      let want := committed s slot - o + max o n
      if want ≤ capFor s slot then none else some (slot, want - capFor s slot)

/-- Enter an item, replacing one of the same kind and owner; its old units stay until `settle` (R198). -/
def putItem (kind : ItemKind) (d : Desc) (units : List (Nat × Nat)) (s : State) : State :=
  let old := s.adm.items.find? fun i => i.kind.same kind && !i.leaving
  let it : Item := { kind := kind, cls := d.cls, stamp := s.now, desc := d, units := units,
                     old := old.elim [] (fun o => (List.range 44).filterMap fun sl =>
                       if o.holds sl = 0 then none else some (sl, o.holds sl)),
                     leaving := false }
  { s with adm := { s.adm with items := (s.adm.items.filter fun i => !(i.kind.same kind && !i.leaving)) ++ [it] } }

/-- The new item takes effect: the units of the one it replaced are released (R198). -/
def settle (kind : ItemKind) (s : State) : State :=
  { s with adm := { s.adm with items := s.adm.items.map fun i => if i.kind.same kind then { i with old := [] } else i } }

/-- Remove items. -/
def dropItems (p : Item → Bool) (s : State) : State :=
  { s with adm := { s.adm with items := s.adm.items.filter fun i => !p i } }

def dropItem (kind : ItemKind) : State → State := dropItems fun i => i.kind.same kind

/-- Admit a request, or complete it with NOT_ADMITTED (R199). -/
def admitDesc (kind : ItemKind) (d : Desc) (units : List (Nat × Nat)) (go : State → State) (s : State) : State :=
  match shortage s kind units with
  | some (slot, n) => complete d 0x20 (shortDetail slot n) s
  | none => go (putItem kind d units s)

/-! ### Flows that end (R172 to R174) -/

/-- P_f times k plus W after an instant has come; exact, P_f = 4,000,000,000 x RATE_D / RATE_N (R168, R170). -/
def flowReached (s : State) (c : FlowCfg) (t k w : Nat) : Bool :=
  decide ((t + w * 40000) * c.rateN + k * sec * c.rateD ≤ s.now * c.rateN)

/-- The ingest ports a flow uses, each once. -/
def FlowCfg.ports (c : FlowCfg) : List Nat := (c.portPri :: c.portSec.toList).eraseDups

/-- Flows that use a port. -/
def flowsOn (s : State) (p : Nat) : Nat := (s.ingest.flows.filter fun f => f.2.cfg.ports.contains p).length

/-- The ports, groups and sources of a flow (R174). -/
def FlowCfg.groups (c : FlowCfg) : List (Nat × Nat × Nat) :=
  if 1 < c.source then []
  else (c.portPri, c.groupPri, c.srcPri) :: (c.portSec.toList.map fun p => (p, c.groupSec, c.srcSec))

def modEth (k : Nat) (g : EthPort → EthPort) (s : State) : State :=
  { s with ingest := { s.ingest with eth := upd s.ingest.eth k g } }

def modDp (k : Nat) (g : DpSink → DpSink) (s : State) : State :=
  { s with ingest := { s.ingest with dp := upd s.ingest.dp k g } }

/-- Whether a port is marked stopped (R173). -/
def portStopped (s : State) (p : Nat) : Bool :=
  if p < 4 then (s.ingest.eth.getD p Reset.ethPort).stopped
  else if p < 6 then (s.ingest.dp.getD (p - 4) Reset.dpSink).stopped else s.ingest.pushStop

/-- An Ethernet port drops its link, a DisplayPort sink drives HPD low; what its points held is lost (R173, R535). -/
def dropLink (p : Nat) (s : State) : State :=
  if p < 4 then modEth p (fun e => { e with link := false, fec := false })
    (if (s.ingest.eth.getD p Reset.ethPort).link then loseHeld (0x30 + p) s else s)
  else if p < 6 then modDp (p - 4) (fun d => { d with trained := false, rate := 0, lanes := 0, line := none, discard := false, begun := false })
    (if (s.ingest.dp.getD (p - 4) Reset.dpSink).trained then loseHeld (0x34 + p) s else s)
  else s

/-- A stopped port whose flows have all stopped drops its link (R29, R173). -/
def restPort (p : Nat) (s : State) : State := if portStopped s p && flowsOn s p == 0 then dropLink p s else s

/-- A port is marked stopped. -/
def markPort (p : Nat) (s : State) : State :=
  if p < 4 then modEth p (fun e => { e with stopped := true }) s
  else if p < 6 then modDp (p - 4) (fun d => { d with stopped := true }) s
  else { s with ingest := { s.ingest with pushStop := true } }

/-- A port stops: no new flow, and its link goes once its flows have stopped (R173). -/
def stopPort (p : Nat) (s : State) : State := restPort p (markPort p s)

/-- A flow is gone: its context is free, its item released, groups no other flow uses are left, a FLOW_CLOSE completes
(R172, R174). -/
def endFlow (ctx : Nat) (s : State) : State :=
  match flowOf s ctx with
  | none => s
  | some f =>
    let left := (dropKey ctx s.ingest.flows).map fun e =>
      if e.2.cfg.source = 1 ∧ e.2.cfg.width = ctx then (e.1, { e.2 with attached := false }) else e
    let s := { s with ingest := { s.ingest with flows := left,
                                                closed := setKey ctx { f with closing := none, pathPri := false, pathSec := false } s.ingest.closed } }
    let s := forEach f.cfg.groups (fun g s =>
      if s.ingest.flows.any (fun e => e.2.cfg.groups.contains g) then s else igmpReport g.1 g.2.1 g.2.2 false s) s
    let s := forEach f.cfg.ports restPort (dropItem (.flow ctx) s)
    forEach (f.closing.getD []) (fun d s => complete d 0 [] s) s

/-- No frame of a flow is open within P_f + W (R172). -/
def Flow.idle (s : State) (f : Flow) : Bool :=
  f.openFrame.isNone && f.due.isEmpty && (!f.begunAny || flowReached s f.cfg f.lastStart 1 f.cfg.window)

/-! ### Groups and stops -/

/-- The head whose group an item belongs to (Table 8.6). -/
def Item.group (i : Item) : Option Nat :=
  match i.kind with
  | .head k => some k
  | .layer k _ => some k
  | .recipe k => some k
  | .motion k => some k
  | .port k _ => some k
  | .scan k => some k
  | .loopSet _ o core => if core then o else none
  | .capture _ o => o
  | _ => none

/-- A root or core item, whose revocation takes the whole group (R200). -/
def Item.core (i : Item) : Bool :=
  match i.kind with
  | .motion _ => false
  | .capture _ _ => false
  | .flow _ => false
  | .transfer _ _ _ => false
  | .loopSet _ _ c => c
  | _ => true

/-- The revoked item is told to stop at its natural boundary (R29). -/
def beginStop (i : Item) : State → State :=
  match i.kind with
  | .head k => modPipe k fun p => { p with stopping := true }
  | .loopSet c _ _ => modChan c fun ch => { ch with revoked := true, pendCfg := none }
  | .motion k => modMotion k fun m => { m with ending := true, pending := m.pending.filter fun x => x.1.source = 0 }
  | .flow x => modFlow x fun f => { f with closing := some (f.closing.getD []) }
  | .capture x _ => modSp x fun sp => { sp with capture := sp.capture.map fun c => { c with revoked := true } }
  | _ => id

/-- A held write of a ring, tag and item. -/
def Held.isWrite (ring tag n : Nat) : Held → Bool
  | .write d m => d.ring == ring && d.tag == tag && m == n
  | .free _ => false

/-- An item that never ran stops at the instant of its revocation: a channel not in RUN or RAMP, a held write, a flow
with no frame open (R172). -/
def stopIdle (i : Item) (s : State) : State :=
  match i.kind with
  | .transfer r t n =>
    if s.adm.transfers.any fun x => x.desc.ring == r && x.desc.tag == t && x.item == n then s
    else { s with adm := { s.adm with
        items := s.adm.items.filter fun j => !(j.kind == i.kind)
        exhibits := s.adm.exhibits.map fun e => (e.1, { e.2 with held := e.2.held.filter fun h => !h.isWrite r t n }) } }
  | .loopSet c _ _ => if (chanOf s c).enabled then s else dropLoop c s
  | .flow x => match flowOf s x with
    | some f => if f.idle s then endFlow x s else s
    | none => s
  | _ => s

/-- DETAIL of a REVOKED notice (R201). -/
def revDetail (res inst cause tag : Nat) : List Byte := u8 res ++ u8 inst ++ u8 cause ++ u8 0 ++ u32 tag

/-- One item is revoked: ADM_REVOKED, and REVOKED as a notice or, where the request still owes it, as its first
completion (R129, R201); `quiet` where no notice is posted (R83, R143, R494). -/
def revokeOne (quiet : Bool) (t res inst cause tag : Nat) (i : Item) (s : State) : State :=
  let det := revDetail res inst cause tag
  let s := { s with adm := { s.adm with items := s.adm.items.map fun j => if j = i then { j with leaving := true } else j } }
  let s := record 2 0x0804 (u8 res ++ u8 inst ++ u8 cause ++ u8 i.cls ++ u32 tag ++ u64 i.stamp) s
  let s := if owes i.desc s then completeAt t i.desc 0x21 det s
           else if quiet then s else noticeAt t i.desc 0x21 det s
  stopIdle i (beginStop i s)

/-- An item is revoked, with its whole head group where it is root or core (R200 step 3, R201). -/
def revoke (quiet alone : Bool) (t res inst cause : Nat) (i : Item) (s : State) : State :=
  if (s.adm.items.contains i && !i.leaving) = false then s
  else
    let s' := revokeOne quiet t res inst cause 0 i s
    if alone || !i.core then s'
    else match i.group with
      | none => s'
      | some k =>
        let rest := s'.adm.items.filter fun j => !j.leaving && j.group == some k
        let s' := forEach rest (fun j => revokeOne quiet t res inst 5 i.desc.tag j) s'
        modPipe k (fun p => { p with stopping := true }) s'

/-- Class C before B before A, and within a class newest first (R200). -/
def revBefore (a b : Item) : Bool := decide (a.cls < b.cls) || (decide (a.cls = b.cls) && decide (b.stamp ≤ a.stamp))

def insertItem (i : Item) : List Item → List Item
  | [] => [i]
  | j :: l => if revBefore i j then i :: j :: l else j :: insertItem i l

/-- The revocation order of the items not yet revoked (R200). -/
def revOrder (items : List Item) : List Item := (items.filter fun i => !i.leaving).foldr insertItem []

/-- The instance that decides an item: the first still over its capacity on which the item holds units. -/
def overOn (caps : List Nat) (i : Item) (s : State) : Option Nat :=
  let live := s.adm.items.filter fun j => !j.leaving
  (List.range 44).find? fun sl => decide (0 < i.holds sl) && decide (caps.getD sl 0 < usedBy live sl)

/-- The walk of R200 over the ordered items. -/
def passWalk (caps : List Nat) (cause : Nat) : List Item → State → State
  | [], s => s
  | i :: rest, s =>
    let s := match s.adm.items.find? fun j => j.kind == i.kind && j.stamp == i.stamp && !j.leaving with
      | none => s
      | some j => match overOn caps j s with
        | none => s
        | some sl => revoke false false s.now (slotName sl).1 (slotName sl).2 cause j s
    passWalk caps cause rest s

/-- Whether any live item exceeds the given capacities. -/
def anyOver (caps : List Nat) (s : State) : Bool :=
  let live := s.adm.items.filter fun j => !j.leaving
  (List.range 44).any fun sl => decide (caps.getD sl 0 < usedBy live sl)

/-- One revocation pass against given capacities, where one is needed (R200). -/
def revocationPass (caps : List Nat) (cause : Nat) (s : State) : State :=
  if anyOver caps s then
    let s := passWalk caps cause (revOrder s.adm.items) s
    { s with adm := { s.adm with passes := min 255 (s.adm.passes + 1), lastRev := s.now } }
  else s

/-- One capacity takes its new value: ADM_CAPACITY (R201). -/
def setCap (i c : Nat) (s : State) : State :=
  let o := s.adm.caps.getD i 0
  if o = c then s
  else record 2 0x0805 (u8 (slotName i).1 ++ u8 (slotName i).2 ++ u16 0 ++ u32 o ++ u32 c)
    { s with adm := { s.adm with caps := upd s.adm.caps i fun _ => c } }

/-- Whether revoked work has still to stop (R202). -/
def anyLeaving (s : State) : Bool := s.adm.items.any (·.leaving)

/-- A kept head still has to change to its reduced form (R272). -/
def formsDue (s : State) : Bool := s.heads.any fun h => !h.press.reduced && h.press.wantForm.any (·.1)

/-- What the capacity of a slot stands at when it is the present one: the frequency point priced and θ (R196). -/
def standsAt (s : State) (i : Nat) : Nat × Nat := (pricedFp s, thetaOn s i)

/-- A pending shrink takes hold once no revoked item and no form change is left (R202, R272). -/
def takeShrink (s : State) : State :=
  if anyLeaving s || formsDue s then s
  else forEach s.adm.pendingCaps (fun e => setCap e.1 e.2)
    { s with adm := { s.adm with pendingCaps := [], inForce := (List.range 44).map (standsAt s) } }

/-- From configuration ready (R204) the capacities follow the conditions in force: growth at once; one pass against the combined result; a shrink when
the work it revoked has stopped (R70, R199, R200, R202). -/
def reprice (cause : Nat) (s : State) : State :=
  if !s.startup.ready then s else
  let caps := capsNow s
  let s := forEach (List.range 44) (fun i s => if s.adm.caps.getD i 0 < caps.getD i 0 then setCap i (caps.getD i 0) s else s)
    { s with adm := { s.adm with fpPriced := pricedFp s } }
  let s := revocationPass caps cause s
  let pend := (List.range 44).filterMap fun i =>
    if caps.getD i 0 < s.adm.caps.getD i 0 then some (i, caps.getD i 0) else none
  let stands := (List.range 44).map fun i =>
    if pend.any (fun e => e.1 == i) then s.adm.inForce.getD i (0, 256) else standsAt s i
  takeShrink { s with adm := { s.adm with pendingCaps := pend, inForce := stands } }

/-- The capacity of a slot at the frequency point and θ it stands at, with the pseudo-channels now in use (R196, R439). -/
def heldCap (s : State) (i : Nat) : Nat :=
  let c := s.adm.inForce.getD i (0, 256)
  c.2 * baseCap c.1 s i / 256

/-- A shrink that the module does not schedule takes hold at once; the pass follows (R439).  A shrink it has scheduled keeps
waiting for the work it revoked (R202). -/
def repriceNow (cause : Nat) (s : State) : State :=
  let s := reprice cause s
  let at_ := s.adm.pendingCaps.map fun e => (e.1, e.2, max e.2 (heldCap s e.1))
  forEach at_ (fun e => setCap e.1 e.2.2)
    { s with adm := { s.adm with pendingCaps := (at_.filter fun e => decide (e.2.1 < e.2.2)).map fun e => (e.1, e.2.1) } }

/-- The items of a stopped head's group go once the ramps of its loop sets have ended (R29). -/
def reapGroup (k : Nat) (s : State) : State :=
  let mine := fun i : Item => i.leaving && i.group == some k
  let ramping := s.adm.items.any fun i => mine i &&
    (match i.kind with
     | .loopSet c _ _ => (chanOf s c).enabled
     | _ => false)
  if (headOf s k).pipe.cfg.isSome || ramping then s
  else dropItems mine s

/-- Revoke every item that a test names, each alone or with its group, in the order of R200. -/
def revokeAll (quiet alone : Bool) (t res cause : Nat) (p : Item → Bool) (s : State) : State :=
  forEach ((revOrder s.adm.items).filter p) (fun i s =>
    match s.adm.items.find? fun j => j.kind == i.kind && j.stamp == i.stamp && !j.leaving with
    | some j => revoke quiet alone t res 0 cause j s
    | none => s) s

/-- Work admitted while a stage recognised during start-up still stands meets that stage's revocation (R68, R76;
DEDUCED, notes/assumptions/67.md). -/
def bootShed (stage cause : Nat) (p : Item → Bool) (s : State) : State :=
  if stage ≤ s.power.bootStage then revokeAll false false s.now 0xFF cause p s else s

end Sys2Proof.Machine
end

