-- ==== Sys2Proof/Machine/Timeline.lean ====
section
/-!
DEFINITION. The head timeline in stamps (R15 to R20, R229) and the bytes of HBM (R421, R463, R481) with the exhibits
that lie in them (R186).
-/

namespace Sys2Proof.Machine

/-! ### The timeline -/

/-- F_n (R15). -/
def HeadCfg.flip (c : HeadCfg) (n : Nat) : Nat :=
  ((c.anchor : Int) + (((n : Int) - c.anchorF) * (sec * c.rateD)) / (c.rateN : Int)).toNat

/-- The first integer n with F_n at or after t. -/
def HeadCfg.flipFrom (c : HeadCfg) (t : Nat) : Int :=
  let x : Int := ((t : Int) - c.anchor) * c.rateN
  let d : Int := sec * c.rateD
  (c.anchorF : Int) + -((-x) / d)

/-- The first frame n, from 0 up, with F_n at or after t. -/
def HeadCfg.firstFlip (c : HeadCfg) (t : Nat) : Nat := (c.flipFrom t).toNat

/-- CSE_n = F_(n-1) - L (R20). -/
def HeadCfg.cse (c : HeadCfg) (n : Nat) : Nat :=
  (((c.anchor : Int) + (((n : Int) - 1 - c.anchorF) * (sec * c.rateD)) / (c.rateN : Int)) - c.lead).toNat

/-- The first frame whose CSE is at or after t. -/
def HeadCfg.firstCse (c : HeadCfg) (t : Nat) : Nat := (c.flipFrom (t + c.lead) + 1).toNat

/-- The first frame whose CSE a doorbell stamp meets: at or before CSE_n less the commit guard (R229). -/
def HeadCfg.meets (c : HeadCfg) (t : Nat) : Nat := c.firstCse (t + c.guard)

/-- k nominal periods, rounded up to whole stamp units. -/
def HeadCfg.periods (c : HeadCfg) (k : Nat) : Nat := ceilDiv (k * sec * c.rateD) c.rateN

/-- The frame composed at the next CSE: frame 0 first, then one after another (R15, R209). -/
def Pipe.nextFrame (p : Pipe) : Nat := if p.count = 0 then 0 else p.frame + 1

/-- The configuration from F_m on, after a rate change (R17): x holds m, N, D and L; a re-anchor moves F_m to F* (R522). -/
def HeadCfg.rebase (c : HeadCfg) (x : Nat × Nat × Nat × Nat) (at_ : Option Nat) : HeadCfg :=
  { c with anchor := at_.getD (c.flip x.1), anchorF := x.1, rateN := x.2.1, rateD := x.2.2.1, lead := x.2.2.2 }

/-- F_n, across a rate change or a re-anchor still ahead (R15, R17, R522). -/
def Pipe.flipAt (p : Pipe) (n : Nat) : Nat :=
  match p.cfg, p.nextRate with
  | some c, some x => if x.1 ≤ n then (c.rebase x p.reAt).flip n else c.flip n
  | some c, none => c.flip n
  | none, _ => 0

/-- F_n as it was when frame n was reached, else as the configuration now gives it (R15, R17). -/
def Pipe.flipWas (p : Pipe) (n : Nat) : Nat := (getKey n p.flips).getD (p.flipAt n)

/-- P_n = F_n - F_(n-1) (R15), F_(-1) lying the nominal period before F_0. -/
def Pipe.period (p : Pipe) (n : Nat) : Nat :=
  match n with
  | 0 => p.cfg.elim 0 (·.periods 1)
  | m + 1 => p.flipWas (m + 1) - p.flipWas m

/-- CSE_n (R20, R207). -/
def Pipe.cseAt (p : Pipe) (n : Nat) : Nat :=
  match p.cfg, p.nextRate with
  | some c, some x => if x.1 < n then (c.rebase x p.reAt).cse n else c.cse n
  | some c, none => c.cse n
  | none, _ => 0

/-- The first frame whose CSE is at or after t. -/
def Pipe.firstCse (p : Pipe) (t : Nat) : Nat :=
  match p.cfg, p.nextRate with
  | some c, some x => if c.firstCse t ≤ x.1 then c.firstCse t else max (x.1 + 1) ((c.rebase x p.reAt).firstCse t)
  | some c, none => c.firstCse t
  | none, _ => 0

/-- The first frame whose first flip is at or after t. -/
def Pipe.firstFlip (p : Pipe) (t : Nat) : Nat :=
  match p.cfg, p.nextRate with
  | some c, some x => if c.firstFlip t < x.1 then c.firstFlip t else max x.1 ((c.rebase x p.reAt).firstFlip t)
  | some c, none => c.firstFlip t
  | none, _ => 0

/-- The first frame whose guard a stamp meets (R229). -/
def Pipe.meets (p : Pipe) (t : Nat) : Nat := p.firstCse (t + (p.cfg.elim 0 (·.guard)))

/-- The frame whose CSE comes last at or before t, if any. -/
def Pipe.lastCse (p : Pipe) (t : Nat) : Option Nat :=
  match p.firstCse (t + 1) with
  | 0 => none
  | n + 1 => some n

/-- P_min: the nominal period rounded down (R263). -/
def HeadCfg.pmin (c : HeadCfg) : Nat := sec * c.rateD / max 1 c.rateN

/-- Whether a head is configured. -/
def configured (s : State) (k : Nat) : Bool := (headOf s k).pipe.cfg.isSome

/-- The heads that are configured, of a mask; 0 names every head where `zeroAll`. -/
def namedHeads (mask : Nat) : List Nat := if mask = 0 then List.range 8 else bitsOf mask 8

/-- The head that owns a channel (R12). -/
def chanOwner (s : State) (c : Nat) : Option Nat :=
  (List.range 8).find? fun k => (headOf s k).pipe.cfg.any fun h => bitOf h.channels c

/-- The head that owns a port (R12). -/
def portHead (s : State) (p : Nat) : Option Nat :=
  (List.range 8).find? fun k => (headOf s k).pipe.cfg.any fun h => bitOf h.ports p

/-! ### The address space (R420 to R422) -/

/-- Usable capacity in bytes (R420). -/
def usable (s : State) : Nat := s.hbm.m * 805306368

/-- Slot and byte within its pseudo-channel of an address (R421). -/
def decodeAddr (s : State) (a : Nat) : Nat × Nat :=
  let g := regField s 0x00B00004 0 4
  let m := max 1 s.hbm.m
  let b := a / 2 ^ g
  (b % m, b / m * 2 ^ g + a % 2 ^ g)

/-- The pseudo-channel that holds an address. -/
def pcOf (s : State) (a : Nat) : MapSlot := s.hbm.map.getD (decodeAddr s a).1 (Reset.mapSlot 0)

/-- The grain blocks a range touches, by their first addresses: the first one of each slot (R421). -/
def blocksOf (s : State) (a n : Nat) : List Nat :=
  let g := 2 ^ regField s 0x00B00004 0 4
  if n = 0 then []
  else (List.range (min ((a + n - 1) / g - a / g + 1) (max 1 s.hbm.m))).map fun i => (a / g + i) * g

/-! ### The stored bytes and their Class S code (R460 to R471) -/

/-- Insert a cell in rising order of address; zero bytes are not listed. -/
def putCell (a : Nat) (v : Byte) : List (Nat × Byte) → List (Nat × Byte)
  | [] => if v = 0 then [] else [(a, v)]
  | e :: l =>
    if a < e.1 then (if v = 0 then e :: l else (a, v) :: e :: l)
    else if a = e.1 then (if v = 0 then l else (a, v) :: l)
    else e :: putCell a v l

/-- The canonical form of memory: addresses strictly rising, no zero byte listed. -/
def cellsWf : List (Nat × Byte) → Bool
  | [] => true
  | [e] => e.2 != 0
  | e :: f :: l => e.2 != 0 && decide (e.1 < f.1) && cellsWf (f :: l)

/-- The canonical form of the HBM contents. -/
abbrev Memory.wf (m : List (Nat × Byte)) : Prop := cellsWf m = true

def putCells : Nat → List Byte → List (Nat × Byte) → List (Nat × Byte)
  | _, [], m => m
  | a, b :: bs, m => putCells (a + 1) bs (putCell a b m)

/-- A stored byte: an address nothing has written reads as the fill of step 5, zero (R481). -/
def rawByte (s : State) (a : Nat) : Byte := (getKey a s.hbm.cells).getD 0

/-- XOR of a list of bits. -/
def xorAll (l : List Bool) : Bool := l.foldl Bool.xor false

/-- The Class L bit of a byte: the XOR of its data bits (R461). -/
def parityL (b : Byte) : Bool := xorAll ((List.range 8).map b.getLsbD)

def laneCell (v : Bool) : Byte := if v then 1 else 0

/-- The stored ECC lane bit of a byte (R446). -/
def laneBit (s : State) (a : Nat) : Bool := (getKey a s.hbm.lanes).any (· = 1)

/-- The addresses in one of two rising lists only. -/
def onlyOne : List Nat → List Nat → List Nat
  | [], l => l
  | a :: as, l =>
    let (less, rest) := l.span (· < a)
    less ++ (if rest.head? = some a then onlyOne as rest.tail else a :: onlyOne as rest)

/-- The bytes of a list of addresses whose data and lane bit disagree (R461). -/
def oddBytes (cells lanes : List (Nat × Byte)) : List Nat :=
  onlyOne ((cells.filter fun e => parityL e.2).map (·.1)) ((lanes.filter fun e => e.2 = 1).map (·.1))

/-- Every byte of HBM whose nine bits have odd parity: a Class L byte among them reads as uncorrectable (R460, R461). -/
def badBytes (s : State) : List Nat := oddBytes s.hbm.cells s.hbm.lanes

/-- Bytes are stored with the lane bits that R461 gives them. -/
def storeRaw (a : Nat) (bs : List Byte) (s : State) : State :=
  { s with hbm := { s.hbm with
    cells := putCells a bs s.hbm.cells, lanes := putCells a (bs.map fun b => laneCell (parityL b)) s.hbm.lanes } }

/-- One byte is stored with the inverted lane bit (R463). -/
def storeOdd (a : Nat) (b : Byte) (s : State) : State :=
  { s with hbm := { s.hbm with cells := putCell a b s.hbm.cells, lanes := putCell a (laneCell !(parityL b)) s.hbm.lanes } }

/-- The check field c4:c0 of a data byte (R462). -/
def checkField (b : Byte) : Nat :=
  let x := fun l : List Nat => xorAll (l.map b.getLsbD)
  let c := [x [0, 1, 3, 4, 6], x [0, 2, 3, 5, 6], x [1, 2, 3, 7], x [4, 5, 6, 7]]
  let c4 := Bool.xor (x [0, 1, 2, 3, 4, 5, 6, 7]) (xorAll c)
  bit (c.getD 0 false) + 2 * bit (c.getD 1 false) + 4 * bit (c.getD 2 false) + 8 * bit (c.getD 3 false) + 16 * bit c4

/-- The data bit at a Hamming position; none for a check bit (R462). -/
def hammingBit (pos : Nat) : Option Nat :=
  match pos with
  | 3 => some 0
  | 5 => some 1
  | 6 => some 2
  | 7 => some 3
  | 9 => some 4
  | 10 => some 5
  | 11 => some 6
  | 12 => some 7
  | _ => none

/-- The decoding of R462: the byte, corrected where one of the 13 bits is wrong; none where it is uncorrectable. -/
def decodeS (b : Byte) (cf : Nat) : Option Byte :=
  let syn := Nat.xor (checkField b % 16) (cf % 16)
  let p := Bool.xor (xorAll ((List.range 8).map b.getLsbD)) (xorAll ((List.range 5).map (bitOf cf)))
  if p then
    if syn ≤ 12 then some ((hammingBit syn).elim b fun i => b ^^^ BitVec.ofNat 8 (2 ^ i)) else none
  else if syn = 0 then some b else none

/-- The check field of a byte marked bad (R463). -/
def badField_ (b : Byte) : Nat := Nat.xor (checkField b) 3

/-- An Archive region and its companion of 5/8 of its size (R466, R467). -/
def Archive.ranges (r : Archive) : List (Nat × Nat) := [(r.base, r.size), (r.comp, r.size / 8 * 5)]

/-- Two ranges overlap. -/
def overlaps (a n b m : Nat) : Bool := decide (a < b + m) && decide (b < a + n)

/-- The Archive region, defined and filled, whose data holds an address (R466, R468). -/
def archiveData (s : State) (a : Nat) : Option Archive :=
  s.ecc.archives.find? fun r => r.ready && decide (r.base ≤ a) && decide (a < r.base + r.size)

/-- The five addresses of the group that holds the check field of a data address (R466). -/
def Archive.group (r : Archive) (a : Nat) : List Nat := (List.range 5).map (r.comp + 5 * ((a - r.base) / 8) + ·)

/-- The stored check field of a data address (R466). -/
def checkAt (s : State) (r : Archive) (a : Nat) : Nat :=
  bits (leNat ((r.group a).map (rawByte s))) (5 * ((a - r.base) % 8)) 5

/-- Whether an address itself lies in a frozen pseudo-channel. -/
def pcFrozen (s : State) (a : Nat) : Bool := (pcOf s a).frozen

/-- Whether an access to an address meets a frozen pseudo-channel: its own, or that of its companion group (R436,
Table 20.4). -/
def frozenAt (s : State) (a : Nat) : Bool :=
  pcFrozen s a || (archiveData s a).elim false fun r => (r.group a).any (pcFrozen s)

/-- The addresses of a range from which a frozen stretch of it can run. -/
def stretches (s : State) (a n : Nat) : List Nat :=
  (blocksOf s a n).map (max a) ++ (s.ecc.archives.filter fun r => overlaps a n r.base r.size).flatMap fun r =>
    let lo := max a r.base
    let hi := min (a + n) (r.base + r.size)
    let g := r.comp + 5 * ((lo - r.base) / 8)
    (blocksOf s g (5 * ((hi - r.base + 7) / 8 - (lo - r.base) / 8))).map fun b => max lo (r.base + 8 * ((b - r.comp) / 5))

def anyFrozen (s : State) (a n : Nat) : Bool := (stretches s a n).any (frozenAt s)

/-- The least of a list. -/
def leastOf (l : List Nat) : Option Nat := l.foldl (fun m x => some (m.elim x (min x))) none

/-- The first address of a range that lies in a frozen pseudo-channel. -/
def firstFrozen (s : State) (a n : Nat) : Option Nat := leastOf ((stretches s a n).filter (frozenAt s))

/-- A byte of the HBM address space as a read returns it: corrected where the code corrects it, else as stored (R472). -/
def hbmByte (s : State) (a : Nat) : Byte :=
  match archiveData s a with
  | none => rawByte s a
  | some r => (decodeS (rawByte s a) (checkAt s r a)).getD (rawByte s a)

def readHbm (s : State) (a n : Nat) : List Byte := (List.range n).map fun i => hbmByte s (a + i)

/-- A byte of an Archive region reads as uncorrectable: by its code, or with a byte of its group marked bad (R470, R472).  Lane bits
have no part in it (R466). -/
def archiveBad (s : State) (r : Archive) (a : Nat) : Bool :=
  (decodeS (rawByte s a) (checkAt s r a)).isNone || (r.group a).any fun x => s.ecc.compBad.contains x

/-- The data or companion of a defined Archive region holds an address: its lane bit is not used (R466). -/
def inArchive (s : State) (a : Nat) : Bool :=
  s.ecc.archives.any fun r => r.ranges.any fun x => decide (x.1 ≤ a) && decide (a < x.1 + x.2)

/-- The bytes of a range in a READY Archive region whose stored bits are not all zero, or whose group holds a byte marked bad: the
only ones there that can be in error, as zero data with zero check bits is valid (R481). -/
def archiveCells (s : State) (r : Archive) (a n : Nat) : List Nat :=
  let near := fun x : Nat =>
    if r.base ≤ x ∧ x < r.base + r.size then [x]
    else if r.comp ≤ x ∧ x < r.comp + r.size / 8 * 5 then (List.range 8).map (r.base + 8 * ((x - r.comp) / 5) + ·) else []
  if r.ready && overlaps a n r.base r.size then
    (((s.hbm.cells.map (·.1) ++ s.ecc.compBad).flatMap near).filter fun x => decide (a ≤ x) && decide (x < a + n)).eraseDups
  else []

/-- The addresses of a range that read as uncorrectable (R463, R472): by parity in Class L, by the stored code in Archive regions, and
companion bytes marked bad. -/
def badAddrs (s : State) (a n : Nat) : List Nat :=
  let inside := fun x : Nat => decide (a ≤ x) && decide (x < a + n)
  let cells := s.hbm.cells.filter fun e => inside e.1
  let lanes := s.hbm.lanes.filter fun e => inside e.1
  (oddBytes cells lanes).filter (fun x => !inArchive s x) ++ s.ecc.compBad.filter inside ++
    s.ecc.archives.flatMap fun r => (archiveCells s r a n).filter (archiveBad s r)

/-- Whether a range holds an uncorrectable byte. -/
def anyBad (s : State) (a n : Nat) : Bool := !(badAddrs s a n).isEmpty

/-- The first uncorrectable address of a range. -/
def firstBadAddr (s : State) (a n : Nat) : Option Nat := leastOf (badAddrs s a n)

/-- Nothing in HBM reads as uncorrectable. -/
def noBadBytes (s : State) : Bool := (badBytes s).isEmpty && s.ecc.archives.isEmpty

/-- No byte of HBM reads as uncorrectable, and no pseudo-channel is frozen. -/
def allReadable (s : State) : Bool := noBadBytes s && !(s.hbm.map.any (·.frozen))

/-- Replace the check field of a data address in its group; a group in a frozen pseudo-channel is not written. -/
def putField (r : Archive) (a v : Nat) (s : State) : State :=
  if (r.group a).any (pcFrozen s) then s
  else
    let g := leNat ((r.group a).map (rawByte s))
    let sh := 2 ^ (5 * ((a - r.base) % 8))
    let g' := g - g / sh % 32 * sh + v % 32 * sh
    storeRaw (r.comp + 5 * ((a - r.base) / 8)) (leBytes 5 g') s

/-- Companion bytes are no longer marked bad. -/
def mendComp (p : Nat → Bool) (s : State) : State :=
  { s with ecc := { s.ecc with compBad := s.ecc.compBad.filter fun x => !p x } }

/-- The check fields of written Archive bytes.  A group that reads as uncorrectable has its other bytes marked bad
(R470). -/
def protectByte (a n x : Nat) (s : State) : State :=
  match archiveData s x with
  | none => s
  | some r =>
    let g := r.group x
    let s := if g.any (fun y => s.ecc.compBad.contains y && !pcFrozen s y) then
        let first := r.base + (x - r.base) / 8 * 8
        forEach ((List.range 8).map (first + ·)) (fun y s =>
          if a ≤ y ∧ y < a + n then s else putField r y (badField_ (rawByte s y)) s) (mendComp g.contains s)
      else s
    putField r x (checkField (rawByte s x)) s

/-- Store bytes with their check bits; a byte written anew no longer reads as uncorrectable (R463, R471). -/
def storeHbm (a : Nat) (bs : List Byte) (s : State) : State :=
  let s := mendComp (fun x => decide (a ≤ x) && decide (x < a + bs.length)) (storeRaw a bs s)
  if s.ecc.archives.isEmpty then s
  else forEach ((List.range bs.length).map (a + ·)) (protectByte a bs.length) s

/-- The address lies in an Archive region, or its companion, whose fill has not ended: writes are discarded (R468). -/
def filling (s : State) (a n : Nat) : Bool :=
  s.ecc.archives.any fun r => !r.ready && r.ranges.any fun x => overlaps a n x.1 x.2

/-- Write bytes; those of a range still being filled are discarded (R468). -/
def writeHbm (a : Nat) (bs : List Byte) (s : State) : State :=
  if filling s a bs.length then
    (bs.zipIdx).foldl (fun s x => if filling s (a + x.2) 1 then s else storeHbm (a + x.2) [x.1] s) s
  else storeHbm a bs s

/-- Mark one byte bad: its check field in an Archive region, else its lane bit (R463).  A companion byte, whose lane bit is not used,
is noted as marked (DEDUCED, notes/assumptions/120.md). -/
def markByte (a : Nat) (s : State) : State :=
  match archiveData s a with
  | some r => putField r a (badField_ (rawByte s a)) s
  | none =>
    if inArchive s a then { s with ecc := { s.ecc with compBad := if s.ecc.compBad.contains a then s.ecc.compBad
                                                                   else s.ecc.compBad ++ [a] } }
    else storeOdd a (rawByte s a) s

/-- Mark bytes bad (R463). -/
def markBad (l : List Nat) (s : State) : State := forEach l markByte s

/-- Stored data bits and the lane bit of a byte flip. -/
def flipRaw (a m : Nat) (s : State) : State :=
  let b := rawByte s a ^^^ BitVec.ofNat 8 m
  let l := Bool.xor (laneBit s a) (bitOf m 13)
  { s with hbm := { s.hbm with cells := putCell a b s.hbm.cells, lanes := putCell a (laneCell l) s.hbm.lanes } }

/-- Stored bits of an HBM byte flip: data in bits 0 to 7 of the mask, the check field of an Archive byte in bits 8 to 12, the lane bit
in bit 13 (R460).  A region still being filled is written over (R468). -/
def flipByte (a m : Nat) (s : State) : State :=
  if filling s a 1 then s
  else match archiveData s a with
    | none => flipRaw a m s
    | some r => forEach ((r.group a).zip (leBytes 5 (m / 256 % 32 * 2 ^ (5 * ((a - r.base) % 8))))) (fun x => flipRaw x.1 x.2.toNat)
        (flipRaw a m s)

/-! ### Exhibits in HBM -/

/-- Samples of one line: two a pixel for 4:2:2 (SAMPLING 2), else three (R186, R197). -/
def perPixel (sampling : Nat) : Nat := if sampling = 2 then 2 else 3

def lineBytes (sampling depth width : Nat) : Nat := width * perPixel sampling * (if depth = 8 then 1 else 2)

/-- The default PITCH of R186. -/
def defPitch (sampling depth width : Nat) : Nat := ceilDiv (lineBytes sampling depth width) 256 * 256

def Exhibit.frameSize (e : Exhibit) : Nat := e.pitch * e.height

/-- The exhibits a configured head owns: its composed frames, the plane stores of its Recipes in force, and the fields
and pyramids of motion rendering in force (R187, R274, R287). -/
def headOwned (s : State) (h : Nat) : Option Nat :=
  (List.range 8).find? fun k =>
    let hd := headOf s k
    hd.pipe.cfg.any (fun c => c.comp.contains h) ||
      (hd.pipe.cfg.isSome && (hd.press.recipe.any (fun r => r.stores.contains h) ||
        hd.press.old.any (fun r => r.2.1.stores.contains h) ||
        hd.motion.cfg.any (fun m => m.fields.contains h || m.pyrs.contains h)))

/-- The open flow whose chain a handle belongs to (R165). -/
def inChain (s : State) (h : Nat) : Option Nat :=
  (s.ingest.flows.find? fun f => decide (f.2.cfg.chainBase ≤ h) && decide (h < f.2.cfg.chainBase + f.2.cfg.chainLen)).map (·.1)

/-- The Vitrine region: the top 3 GiB of the usable capacity (R221). -/
def vitBase (s : State) : Nat := usable s - 3221225472

def touchesVit (s : State) (a n : Nat) : Bool := overlaps a n (vitBase s) 3221225472

/-- How the bytes of a range divide between the stacks: (stack 0, stack 1) bytes of whole grain blocks (R197, R421). -/
def stackShare (s : State) (a n : Nat) : Nat × Nat :=
  let g := 2 ^ regField s 0x00B00004 0 4
  let b0 := a / g
  let cnt := if n = 0 then 0 else (a + n - 1) / g - b0 + 1
  let m := max 1 s.hbm.m
  let inSlot := fun i : Nat => (cnt + m - 1 - (i + m - b0 % m) % m) / m
  (List.range m).foldl (fun acc i =>
    if (s.hbm.map.getD i (Reset.mapSlot 0)).stack = 0 then (acc.1 + inSlot i, acc.2) else (acc.1, acc.2 + inSlot i)) (0, 0)

/-- Sum of two fractions. -/
def fracAdd (x y : Nat × Nat) : Nat × Nat := (x.1 * y.2 + y.1 * x.2, x.2 * y.2)

/-- The whole Gbit/s of a fraction of bit/s, rounded up (R195). -/
def gbits (x : Nat × Nat) : Nat := ceilDiv x.1 (max 1 x.2 * 1000000000)

/-- What one term of a row of HBM cost puts on each stack, before rounding: num/den bit/s carried in equal shares by the listed
exhibits, those in Archive regions at 13/8, split by the share of each exhibit's grain blocks in each stack; split evenly where
no exhibit carries it (R197). -/
def hbmTerm (s : State) (num den : Nat) (hs : List Nat) : (Nat × Nat) × (Nat × Nat) :=
  let n := hs.length
  if n = 0 then ((num, 2 * den), (num, 2 * den))
  else
    let parts := hs.map fun h =>
      match exhOf s h with
      | none => ((num, 2 * den * n), (num, 2 * den * n))
      | some e =>
        let sh := stackShare s e.base e.size
        let t := max 1 (sh.1 + sh.2)
        let w := if e.archive then (13, 8) else (1, 1)
        ((num * w.1 * sh.1, den * n * w.2 * t), (num * w.1 * sh.2, den * n * w.2 * t))
    (parts.foldl (fun a p => fracAdd a p.1) (0, 1), parts.foldl (fun a p => fracAdd a p.2) (0, 1))

/-- The same for traffic at a fixed address range, such as the Vitrine region. -/
def hbmTermAt (s : State) (num den base size : Nat) : (Nat × Nat) × (Nat × Nat) :=
  let sh := stackShare s base size
  let t := max 1 (sh.1 + sh.2)
  ((num * sh.1, den * t), (num * sh.2, den * t))

/-- One row of HBM cost: each stack's part of the row is rounded up once, whatever terms it has (R195, R197). -/
def hbmRow (terms : List ((Nat × Nat) × (Nat × Nat))) : List (Nat × Nat) :=
  [(0, gbits ((terms.map (·.1)).foldl fracAdd (0, 1))), (1, gbits ((terms.map (·.2)).foldl fracAdd (0, 1)))]

/-- A row of one term. -/
def hbmCost (s : State) (num den : Nat) (hs : List Nat) : List (Nat × Nat) := hbmRow [hbmTerm s num den hs]

/-- A write by an internal engine: bytes in a frozen pseudo-channel are discarded (R437). -/
def writeInternal (a : Nat) (bs : List Byte) (s : State) : State :=
  if anyFrozen s a bs.length then
    (bs.zipIdx).foldl (fun s x => if frozenAt s (a + x.2) then s else writeHbm (a + x.2) [x.1] s) s
  else writeHbm a bs s

/-- The range of a registered exhibit. -/
def exhRange (s : State) (h : Nat) : Nat × Nat := ((exhOf s h).map fun e => (e.base, e.size)).getD (0, 0)

end Sys2Proof.Machine
end

