-- ==== Sys2Proof/Machine/ServiceStatus.lean ====
section
/-!
DEFINITION. The thermal zones and their sensors (R485), and the service status derived from the causes of Table 24.3
(R543): one shared operation that every change of a cause calls.
-/

namespace Sys2Proof.Machine

/-- Sensors of a zone (Table 21.1). -/
def zoneSensors (z : Nat) : List Nat :=
  match z with
  | 0 => span 0 11
  | 1 => span 12 19
  | 2 => span 20 25
  | 3 => span 26 31
  | 4 => [32]
  | 5 => [33]
  | 6 => span 34 37
  | 7 => span 38 43
  | _ => []

/-- Zone of a sensor (Table 21.1). -/
def sensorZone (x : Nat) : Nat := ((List.range 8).find? fun z => (zoneSensors z).contains x).getD 7

/-- A sensor is suspect (R487). -/
def suspect (s : State) (x : Nat) : Bool := (s.thermal.sensors.getD x Reset.sensor).suspect

/-- Loop slots 48 to 51 that are neither in use nor failed (R370, R542). -/
def freeLoopSlots (s : State) : Nat :=
  ((span 48 51).filter fun x => !(s.gheler.chans.any fun c => c.slot == x) && !s.gheler.slotsBad.contains x).length

/-- Some reserve of Table 24.1 is in use (R538). -/
def reserveInUse (s : State) : Bool :=
  (s.hbm.map.take s.hbm.m).any (·.reserve) || s.wear.ppr.any (· != 0) || s.wear.plSpared.any (· != 255) ||
    s.wear.clSpared.any (· != 255) || s.gheler.chans.any (fun c => decide (48 ≤ c.slot) && c.slot != 63) ||
    !s.wear.remap.isEmpty || s.thermal.sensors.any (·.suspect) || s.wear.ringSpared != 0

/-- PWR_HOLDUP.LOW, from the first measurement on (R66). -/
def holdupLow (s : State) : Bool := decide (2 ≤ s.startup.step) && decide (s.power.holdup < 2000)

/-- The causes present, in the order of Table 24.3. -/
def serviceCauses (s : State) : List Bool :=
  [reserveInUse s,
   s.hbm.m != 0 && [0, 1].any (fun st => !s.hbm.reserves.any fun r => r.1 == st),
   freeLoopSlots s == 0,
   [0, 1, 2, 3, 6, 7].any (fun z => ((zoneSensors z).filter fun x => !suspect s x).length == 1),
   holdupLow s,
   decide (s.wear.spares < 16),
   s.startup.degraded || s.gheler.chans.any (fun c => c.state == .unavailable) || s.thermal.zones.any (·.blind) ||
     !s.wear.ringsBad.isEmpty,
   s.ports.any fun p => p.state == .failed && p.spared != 15]

/-- The level of a cause (Table 24.3). -/
def causeLevel (i : Nat) : Nat := if i = 0 then 1 else if i < 6 then 2 else 3

/-- The status: the highest level among the causes present; 0 with none. -/
def serviceLevel (l : List Bool) : Nat :=
  (l.zipIdx).foldl (fun m x => if x.1 then max m (causeLevel x.2) else m) 0

/-- The status follows the causes; a change of status is recorded (R543). -/
def serviceStep (s : State) : State :=
  let l := serviceCauses s
  let st := serviceLevel l
  let mask := maskOf ((List.range 8).filter fun i => l.getD i false)
  let old := s.wear.status
  let s := { s with wear := { s.wear with status := st, causes := mask } }
  if st = old then s else record 1 0x1801 (u8 old ++ u8 st ++ u16 mask) s

end Sys2Proof.Machine
end

