-- ==== Sys2Proof/Machine/EccOps.lean ====
section
/-!
DEFINITION. Errors of stored data as shared operations: the bytes of the SRAM pools that are in error (R460, R471), what a read of
HBM or of a pool finds and corrects (R472, R473), reporting regions (R464, R465, R477), the leaky buckets, and MEM_UE.
-/

namespace Sys2Proof.Machine

/-- The stacks are powered: not in P3 or P4 (R80, R435). -/
def hbmPowered (s : State) : Bool := s.power.state != .p3 && s.power.state != .p4

/-- The Archive region whose data or companion holds an address (R466). -/
def archiveAt (s : State) (a : Nat) : Option Archive :=
  s.ecc.archives.find? fun r => r.ranges.any fun x => decide (x.1 ≤ a) && decide (a < x.1 + x.2)

/-- Reporting region of an HBM address: 0x10 + n in an Archive region, else the Class L bytes of its stack (R465). -/
def regionOf (s : State) (a : Nat) : Nat :=
  (archiveAt s a).elim (0x20 + (pcOf s a).stack) fun r => 0x10 + r.index

/-- Class S regions keep a bucket (R464, R477). -/
def regionS (r : Nat) : Bool := decide (r < 5) || (decide (0x10 ≤ r) && decide (r < 0x20))

def noCount (r : Nat) : RegionCount :=
  { region := r, ce := 0, ue := 0, level := 0, ovf := 0, first := none, last := 0, ueSince := 0, ueFirst := 0, ueUnit := 0, ueAt := none }

def regionCount (s : State) (r : Nat) : RegionCount := (s.ecc.regions.find? fun c => c.region = r).getD (noCount r)

def setRegion (c : RegionCount) (s : State) : State :=
  { s with ecc := { s.ecc with regions := c :: s.ecc.regions.filter fun x => x.region ≠ c.region } }

/-- CAP and LEAK of ECC_BUCKET_CFG; 0 is used as 1 (Table 20.7). -/
def bucketCap (s : State) : Nat := max 1 (regField s 0x00D00004 0 8)
def bucketLeak (s : State) : Nat := max 1 (regField s 0x00D00004 8 16)

/-- The unit that raises the records of a region: the controller of the stack, or the Conservator for SRAM. -/
def regionUnit (s : State) (r a : Nat) : Nat := if r < 0x10 then 7 else 5 + (pcOf s a).stack

/-- One byte is corrected: the count, and for Class S the bucket, which overflows at CAP (R477). -/
def countCe (r a : Nat) (s : State) : State :=
  let c := regionCount s r
  let c := { c with ce := bump c.ce }
  if !regionS r then setRegion c s
  else
    let first := c.first.getD s.now
    if bucketCap s ≤ c.level + 1 then
      raiseCause false 2 (record (regionUnit s r a) 0x1402 (u8 r ++ u24 0 ++ u32 0 ++ u64 first)
        (setRegion { c with level := 0, ovf := satAdd 0xFFFF c.ovf 1, first := none } s))
    else setRegion { c with level := c.level + 1, first := some first } s

/-- MEM_UE for a region with uncorrectable bytes not yet told, at most once in a millisecond (R477). -/
def tellUe (r : Nat) (s : State) : State :=
  let c := regionCount s r
  if c.ueSince = 0 ∨ c.ueAt = some (s.now / msec) then s
  else record (regionUnit s r c.ueFirst) 0x1401 (u8 r ++ u64 c.ueFirst ++ u8 c.ueUnit ++ u32 c.ueSince)
    (setRegion { c with ueSince := 0, ueAt := some (s.now / msec) } s)

/-- Bytes of one read are found uncorrectable: the counts and MEM_UE (R477). -/
def countUe (r unit_ : Nat) (l : List Nat) (s : State) : State :=
  match l with
  | [] => s
  | a :: _ =>
    let c := regionCount s r
    tellUe r (setRegion { c with
      ue := satAdd top32 c.ue l.length
      ueSince := c.ueSince + l.length
      ueUnit := unit_
      ueFirst := if c.ueSince = 0 then a else c.ueFirst
      last := (l.getLast?).getD a } s)

/-- What the stored code of an Archive byte says of it: 0 no error, 1 correctable, 2 uncorrectable (R462, R470). -/
def storedErr (s : State) (a : Nat) : Nat :=
  match archiveData s a with
  | none => 0
  | some r => if archiveBad s r a then 2 else if hbmByte s a ≠ rawByte s a ∨ checkAt s r a ≠ checkField (rawByte s a) then 1 else 0

/-- The bytes of a range that a read corrects (R462, R472). -/
def fixable (s : State) (a n : Nat) : List Nat :=
  s.ecc.archives.flatMap fun r => (archiveCells s r a n).filter fun x => storedErr s x = 1

/-- A write to a byte is queued: it drops a write-back (R473). -/
def writeQueued (s : State) (a : Nat) : Bool :=
  s.hbm.waiting.any fun w => w.1.write && w.1.pool.isNone && decide (w.1.addr ≤ a) && decide (a < w.1.addr + w.1.len)

/-- A corrected byte is written back with its check field, unless a write to it is queued (R473). -/
def writeBack (a : Nat) (s : State) : State :=
  if storedErr s a = 1 && !writeQueued s a then storeHbm a [hbmByte s a] s else s

/-- One byte of HBM is corrected: counted, and written back (R473, R477). -/
def correctByte (a : Nat) (s : State) : State := writeBack a (countCe (regionOf s a) a s)

/-- HBM bytes that a read by a unit found uncorrectable are counted in their regions (R477). -/
def countBad (unit_ : Nat) (ue : List Nat) (s : State) : State :=
  forEach (ue.map (regionOf s)).eraseDups (fun r s => countUe r unit_ (ue.filter fun x => regionOf s x = r) s) s

/-- What a read of a range of HBM by a unit finds: the bytes it corrects are counted and written back, those it cannot correct are
counted in their regions and stay as they are (R472, R473, R477).  Frozen pseudo-channels are not read (R437). -/
def noteRead (unit_ a n : Nat) (s : State) : State :=
  if allReadable s then s
  else
    let ue := (badAddrs s a n).filter fun x => !frozenAt s x
    countBad unit_ ue (forEach ((fixable s a n).filter fun x => !frozenAt s x) correctByte s)

/-- The same for a list of ranges, each by its address and length. -/
def noteReads (unit_ : Nat) (l : List (Nat × Nat)) (s : State) : State :=
  if allReadable s then s else forEach l (fun x => noteRead unit_ x.1 x.2) s

/-! ### SRAM (R460 to R464) -/

/-- Data bytes of an SRAM pool (Table 20.2). -/
def poolSize (r : Nat) : Nat := [14, 4, 1, 1, 8, 48, 16, 20].getD r 0 * 1048576

def poolKey (p o : Nat) : Nat := 2 ^ 32 * p + o

/-- The bits of an SRAM byte that are in error. -/
def poolBits (s : State) (p o : Nat) : Nat := (getKey (poolKey p o) s.ecc.sram).getD 0

/-- The bits in error of an SRAM byte become m; a byte without error is not listed. -/
def setPoolBits (p o m : Nat) (s : State) : State :=
  let key := poolKey p o
  let l := s.ecc.sram.filter fun e => e.1 ≠ key
  let l := if m = 0 then l else l.takeWhile (fun e => decide (e.1 < key)) ++ (key, m) :: l.dropWhile (fun e => decide (e.1 < key))
  { s with ecc := { s.ecc with sram := l } }

/-- Stored bits of an SRAM byte flip. -/
def flipPool (p o m : Nat) (s : State) : State :=
  if poolSize p ≤ o then s
  else setPoolBits p o (Nat.xor (poolBits s p o) (m % (if p < 5 then 2 ^ 13 else 2 ^ 14))) s

/-- The decoding of an SRAM byte with some bits in error: 0 no error found, 1 corrected, 2 uncorrectable; and the bits in error after the
write-back of a correction (R461, R462, R473).  Both codes are linear, so the errors alone decide. -/
def poolDecode (p m : Nat) : Nat × Nat :=
  let b : Byte := BitVec.ofNat 8 m
  if 5 ≤ p then (if Bool.xor (parityL b) (bitOf m 13) then 2 else 0, m)
  else match decodeS b (m / 256 % 32) with
    | none => (2, m)
    | some d => if d = b ∧ m / 256 % 32 = checkField b then (0, m) else (1, d.toNat + 256 * checkField d)

/-- The offsets of a range of a pool with bits in error, in order. -/
def poolCells (s : State) (p o n : Nat) : List Nat :=
  (s.ecc.sram.filter fun e => decide (poolKey p o ≤ e.1) && decide (e.1 < poolKey p (o + n))).map fun e => e.1 - poolKey p 0

/-- The uncorrectable bytes of a range of a pool. -/
def poolBad (s : State) (p o n : Nat) : List Nat := (poolCells s p o n).filter fun x => (poolDecode p (poolBits s p x)).1 = 2

/-- What a read of a range of a pool by a unit finds, as `noteRead` says it of HBM (R472, R473, R477). -/
def notePool (p unit_ o n : Nat) (s : State) : State :=
  let ue := poolBad s p o n
  let ce := (poolCells s p o n).filter fun x => (poolDecode p (poolBits s p x)).1 = 1
  countUe p unit_ ue (forEach ce (fun x s => setPoolBits p x (poolDecode p (poolBits s p x)).2 (countCe p x s)) s)

end Sys2Proof.Machine
end

