-- ==== Sys2Proof/Machine/Bar4.lean ====
section
/-!
DEFINITION. The BAR4 window onto HBM (R114): reads (Table 20.3, Table 18.5), writes before and after set-up lock (R194,
R437, R463), what waits out self-refresh (R434), and the report of discarded writes.
-/

namespace Sys2Proof.Machine

/-! ### Reads -/

/-- A host access waits in the host port (R434). -/
def holdHost (x : HostAccess) (s : State) : State := { s with hbm := { s.hbm with host := s.hbm.host ++ [x] } }

/-- A read through BAR4 is served: in a frozen pseudo-channel a completer abort, with an uncorrectable byte the data as stored and
EP = 1 (R114, Table 18.5, Table 20.3); what it finds is counted for the Host interface (R473, R477). -/
def serveRead (a n : Nat) (s : State) : State :=
  if anyFrozen s a n then emit (.abort a) s
  else
    let bad := badAddrs s a n
    noteRead 3 a n (emit (.read a ((List.range n).map fun i => if bad.contains (a + i) then rawByte s (a + i) else hbmByte s (a + i)))
      (if bad.isEmpty then s else emit (.poison a) s))

/-- A read through BAR4: beyond the usable capacity a completer abort; it waits out self-refresh (R114, R434). -/
def bar4Read (a n : Nat) (s : State) : State :=
  if usable s < a + n then emit (.abort a) s
  else if s.hbm.selfRef then holdHost (.read a n) s
  else serveRead a n s

def execBar4Read (dt a n : Nat) (s : State) : Res := .next (bar4Read a n (tick dt s))

/-! ### Writes -/

/-- After set-up lock: wholly within a registered exhibit that is not head-owned, and outside every companion region
(R114). -/
def bar4Allowed (s : State) (a n : Nat) : Bool :=
  s.adm.exhibits.any (fun e => decide (e.2.base ≤ a) && decide (a + n ≤ e.2.base + e.2.size) && (headOwned s e.1).isNone) &&
    !(s.ecc.archives.any fun r => overlaps a n r.comp (r.size / 8 * 5))

/-- The record of a millisecond's discarded writes, stamped with the first of them (R114). -/
def bar4Report (s : State) : State :=
  let h := s.host
  if h.bar4Count = 0 ∨ s.now / msec = h.bar4First / msec then s
  else recordAt false h.bar4First 3 0x0502 (u8 4 ++ u24 0 ++ u64 h.bar4Addr ++ u32 h.bar4Count)
    { s with host := { h with bar4Count := 0 } }

/-- A write is discarded after set-up lock, and counted in its millisecond (R114). -/
def bar4Discard (a : Nat) (s : State) : State :=
  let s := bar4Report s
  let h := s.host
  { s with host := { h with
      bar4Count := h.bar4Count + 1
      bar4First := if h.bar4Count = 0 then s.now else h.bar4First
      bar4Addr := if h.bar4Count = 0 then a else h.bar4Addr } }

/-- The bytes of a write that reach HBM: those in a frozen pseudo-channel or a region still being filled do not (R437,
R468). -/
def landed (s : State) (a n : Nat) : List Nat :=
  ((List.range n).map (a + ·)).filter fun x => !frozenAt s x && !filling s x 1

/-- A write through BAR4 is served; the data of a poisoned one is marked bad (R463). -/
def serveWrite (a : Nat) (bs : List Byte) (poisoned : Bool) (s : State) : State :=
  let l := landed s a bs.length
  let s := writeInternal a bs s
  if poisoned then markBad l s else s

/-- A write through BAR4, abandoned or discarded where the rules say; it waits out self-refresh (R114, R434). -/
def bar4Write (a : Nat) (bs : List Byte) (poisoned : Bool) (s : State) : State :=
  if usable s < a + bs.length then emit (.abort a) s
  else if s.host.locked && !bar4Allowed s a bs.length then bar4Discard a s
  else if touchesVit s a bs.length then s
  else if s.hbm.selfRef then holdHost (.write a bs poisoned) s
  else serveWrite a bs poisoned s

/-- A BAR4 access that waited is served; the end of a transfer stays. -/
def serveBar4 (x : HostAccess) (s : State) : State :=
  match x with
  | .read a n => serveRead a n s
  | .write a bs p => serveWrite a bs p s
  | .ended .. => holdHost x s

def execBar4Write (dt a : Nat) (bs : List Byte) (poisoned : Bool) (s : State) : Res := .next (bar4Write a bs poisoned (tick dt s))

def execBar4DiscardReport (dt : Nat) (s : State) : Res := .next (bar4Report (tick dt s))

end Sys2Proof.Machine
end

