-- ==== Sys2Proof/Machine/Wake.lean ====
section
/-!
DEFINITION. Leaving Cave hold and power state P2 as shared operations (R79, R84, R324, R435).
-/

namespace Sys2Proof.Machine

/-- An exit cause of R324 reaches a head at stamp t: in HOLD it leaves towards the first live frame; a head still
entering remembers the first one for the CSE or flip that follows (R321). -/
def caveExit (k cause t : Nat) (s : State) : State :=
  let h := headOf s k
  match h.pipe.cfg with
  | none => s
  | some c =>
    match h.cave.state with
    | .hold => modCave k (fun v => { v with state := .leaving, exitAt := t, cause := cause,
                                            live := h.pipe.firstCse (max (t + c.periods 1) s.now) }) s
    | .entering => if h.cave.exitAt = 0 then modCave k (fun v => { v with exitAt := t, cause := cause }) s else s
    | _ => s

/-- The pixel domain runs again and both stacks leave self-refresh, unless a move still holds them there (R324 step 1, R434, R435); the
BAR4 accesses that waited are served. -/
def leaveP2 (s : State) : State :=
  if s.power.state = .p2 then
    let stay := s.hbm.moving.isSome
    let w := s.hbm.host
    let s := { s with power := { s.power with state := .p0 } }
    if stay then s else forEach w serveBar4 { s with hbm := { s.hbm with selfRef := false, host := [] } }
  else s

/-- A wake source in P2: its bit in PWR_WAKE_SRC, and P0 until R323 holds again (R84, R324). -/
def wakeP2 (src : Nat) (s : State) : State :=
  if s.power.state = .p2 && decide (regField s 0x01100030 src 1 = 1) then leaveP2 (setBits 0x01100034 (2 ^ src) s) else s

/-- A change reaches a head at stamp t: an exit cause in HOLD. -/
def exitCause (k cause t : Nat) (s : State) : State :=
  if (headOf s k).cave.state = .hold then leaveP2 (caveExit k cause t s) else caveExit k cause t s

/-- A change of the kind R320 lists, with its doorbell, waits for a head's CSE: an exit cause in HOLD, and one for a frame after
the loop frame where an entry begins before it is met (R321, R324). -/
def headChanged (k t : Nat) (s : State) : State :=
  exitCause k 1 t (modCave k (fun v => { v with latest := max v.latest t }) s)

/-- A change of R320 that counts when it happens: a write into an exhibit a layer reads, or a field loaded. -/
def noteChange (t k : Nat) (s : State) : State := exitCause k 1 t (modCave k (fun v => { v with changed := true }) s)

end Sys2Proof.Machine
end

