-- ==== Sys2Proof/Machine/Halt.lean ====
section
/-!
DEFINITION. Stops as shared operations: pins retiring and the queue behind a pinned exhibit (R190, R191, R193), a head
that stops (R29, R141, R210), ingest that stops (R172, R173), the orderly stop of R72, the loss of state on entry to P3
(R80, R81), and the resets of chapter 5.
-/

namespace Sys2Proof.Machine

/-! ### The queue behind a pinned exhibit -/

/-- The layers a head has at its next CSE: those in force under the sealed shadows due there; none for a head that stops
or is released at it (R29, R193, R210). -/
def layersDue (p : Pipe) : List (Nat × Layer) :=
  if p.cfg.isNone || p.stopping || p.releasing.any (fun x => decide (x.2 ≤ p.nextFrame)) then []
  else (p.sealed_.filter fun x => decide (x.target ≤ p.nextFrame)).foldl
    (fun l x => x.shadow.layers.foldl (fun l y => setKey y.1 y.2 l) l) p.layers

/-- A layer due at some head's next CSE names the exhibit as its source (R193). -/
def layerNames (s : State) (h : Nat) : Bool :=
  (List.range 8).any fun k =>
    (layersDue (headOf s k).pipe).any fun l => l.2.enable && !l.2.srcFlow && l.2.source == h

/-- A held write begins (R193): its transfer runs, the exhibit fills; `fin` notes a range frozen when it begins. -/
def beginHeld (h frame : Nat) (w : Desc × Nat) (s : State) : State :=
  let d := w.1
  let place := (exhRange s h).1 + d.p64 32
  let s := modExh h (fun e => { e with state := .filling }) s
  let no := anyFrozen s place d.length
  { s with adm := { s.adm with transfers := s.adm.transfers ++
      [{ desc := d, opcode := 0x0503, object := h, force := false, held := some frame, torn := [], fin := no, place := place, item := w.2 }] } }

/-- The descriptors of held writes. -/
def Exhibit.heldWrites (e : Exhibit) : List (Desc × Nat) :=
  e.held.filterMap fun x => match x with | .write d n => some (d, n) | .free _ => none

/-- Held writes to a handle that has been unregistered: EXH_STATE, nothing written, and their items are released (R191, R198).
The spec says so of a write behind a deferred free; an EXH_FREE with RELEASE of a READY exhibit does the same to the writes
that still wait there (DEDUCED, notes/assumptions/72.md). -/
def dropExh (h : Nat) (e : Exhibit) (s : State) : State :=
  forEach e.heldWrites (fun w s => dropItem (.transfer w.1.ring w.1.tag w.2) (noticeAt s.now w.1 0x883 (u8 0) s))
    { s with adm := { s.adm with exhibits := dropKey h s.adm.exhibits } }

/-- Retire fences of the pinning heads from a stamp to now (R191). -/
def Exhibit.fencesSince (e : Exhibit) (t : Nat) : Nat := (e.fences.filter fun x => decide (t ≤ x)).length

def Held.isFree : Held → Bool
  | .free _ => true
  | .write _ _ => false

/-- A deferred free takes effect with every EXH_FREE queued: FREE, the notices, and unregistration where one carried
RELEASE; writes that waited behind it then run or complete with EXH_STATE (R191). -/
def freeNow (h frame : Nat) (s : State) : State :=
  match exhOf s h with
  | none => s
  | some e =>
    let frees := e.held.filterMap fun x => match x with | .free f => some f | .write _ _ => none
    let writes := e.heldWrites
    let gone := frees.any (·.release)
    let s := setExh h { e with state := .free, held := (writes.drop 1).map fun w => Held.write w.1 w.2 } s
    let s := forEach frees (fun f s =>
      if f.afterFill then complete f.desc 0 [] s
      else noticeAt s.now f.desc 0x31 (u32 (e.fencesSince f.desc.db) ++ u32 frame) s) s
    if gone then dropExh h e s
    else match writes with
      | [] => s
      | w :: _ => beginHeld h frame w s

/-- What stands at the head of the queue of an exhibit without pins goes on (R191, R193). -/
def runHeld (h frame : Nat) (s : State) : State :=
  match exhOf s h with
  | none => s
  | some e =>
    if !e.pins.isEmpty || e.state = .filling then s
    else match e.held with
      | [] => s
      | .free _ :: _ => freeNow h frame s
      | .write d n :: rest =>
        if layerNames s h && !e.held.any Held.isFree then s
        else beginHeld h frame (d, n) (setExh h { e with held := rest } s)

/-- One head's pin on an exhibit retires, by a retire fence of a frame or by the stop of a revoked head (R190). -/
def unpin (k : Nat) (fence : Option Nat) (h : Nat) (s : State) : State :=
  match exhOf s h with
  | none => s
  | some e =>
    let mine := e.pins.any fun p => p.1 = k
    let pins := e.pins.filter fun p => p.1 ≠ k
    let st := if pins.isEmpty && (e.state = .pinned || e.state = .retiring) then ExhState.ready else e.state
    setExh h { e with pins := pins, state := st, fences := if mine && fence.isSome then s.now :: e.fences else e.fences } s

/-- A head's pins on every exhibit retire, and what waits behind any exhibit without pins is looked at again: a held write may
have waited for a layer alone (R190, R193). -/
def unpinAll (k : Nat) (fence : Option Nat) (s : State) : State :=
  let hs := s.adm.exhibits.map (·.1)
  forEach hs (fun h => runHeld h (fence.getD 0xFFFFFFFF)) (forEach hs (unpin k fence) s)

/-! ### A head stops -/

/-- Requests of a head that have not posted their first completion (R129, R210). -/
def headRequests (s : State) (k : Nat) : List Desc :=
  let h := headOf s k
  (h.pipe.sealed_.flatMap fun x => x.commits.map (·.desc)) ++
  (h.pipe.releasing.toList.map (·.1)) ++ (h.press.pending.toList.map (·.2)) ++ (h.motion.pending.toList.map (·.2)) ++
  (h.vit.pending.filterMap (·.desc)) ++ (h.scan.pending.toList.map (·.2)) ++ (h.solver.pending.toList.map (·.2.1)) ++ h.cave.exits ++ h.cave.desc.toList ++
  (s.ports.filterMap fun q => q.desc.filter fun d => d.p8 17 = k) ++
  ((bitsOf (h.pipe.cfg.elim 0 (·.channels)) 48).filterMap fun c => (chanOf s c).pendCfg.map (·.2.1)) ++
  ((lockOf s k).request.toList.map (·.1)) ++ ((lockOf s k).reanchor.toList.map (·.1)) ++
  (s.adm.transfers.filter fun t => t.object = k ∧ (t.opcode = 0x0801 ∨ t.opcode = 0x0902 ∨ t.opcode = 0x0C02 ∨
    t.opcode = 0x0A02)).map (·.desc)

/-- What a head's end leaves behind: the Vitrine state, the counters and the coefficient sets, which only a commit or a memory
fill changes (R244, R249); everything else is as never configured. -/
def bareHead (h : Head) : Head :=
  { Reset.head with
    vit := { h.vit with pending := [] },
    pipe := { Reset.pipe with fence := h.pipe.fence, late := h.pipe.late, gapMin := h.pipe.gapMin, lbErr := h.pipe.lbErr,
                              frame := h.pipe.frame, cse := h.pipe.cse, parkDue := h.pipe.parkDue, coefs := h.pipe.coefs, dither := h.pipe.dither },
    press := { Reset.press with slackMin := h.press.slackMin, darkTiles := h.press.darkTiles, frame := h.press.frame,
                                done := h.press.done },
    motion := { Reset.motion with miss := h.motion.miss },
    scan := { Reset.scan with cut := h.scan.cut, lost := h.scan.lost },
    solver := { Reset.solver with limitedN := h.solver.limitedN } }

/-- A FRAME_LOCK that has not completed ends with CAT_UNREACHABLE, its re-anchor undone (notes/assumptions/31.md). -/
def dropLockDesc (k : Nat) (l : FrameLock) (s : State) : State :=
  let s := if l.reanchor.isSome then modPipe k (fun p => { p with nextRate := none, reAt := none }) s else s
  forEach (l.request.toList.map (·.1) ++ l.reanchor.toList.map (·.1))
    (fun d s => if owes d s then complete d 0x1682 (u16 l.masterDev) s else s) s

/-- The lock of a head ends: a master withdraws (R521), a follower records the loss with a cause (R523). -/
def dropLock (k cause : Nat) (s : State) : State :=
  let l := lockOf s k
  let s := dropLockDesc k l (modLock k (fun _ => Reset.frameLock) s)
  if l.role = 1 then
    forEach l.followers (fun dev => catSend 0x0E 1 dev 0 (u16 l.lockId ++ u8 k ++ u8 2 ++ List.replicate 44 0)) s
  else if l.role = 2 then record 4 0x160A (u8 k ++ u8 cause) s
  else s

/-- A CAB_SELECT completes at a stamp: NVM_STAT follows, with the CSE stamp of the last head that applied and the values left
as they are (R108, R109). -/
def finishCab (x : PendingCab) (cse at_ : Nat) (s : State) : State :=
  let s := { s with startup := { s.startup with pendingCab := none, cabinet := x.cabinet, cabSrc := true } }
  completeAt at_ x.desc (if x.diff = 0 then 0 else 1) (u48 cse ++ u16 x.diff) s

/-- A head that ends drops out of the selection (R109).  With the last one gone the selection completes DONE, naming the head
that applied last; where every head was revoked before it applied, its detail carries this instant
(DESIGN CHOICE; notes/assumptions/59.md). -/
def leaveCab (k : Nat) (s : State) : State :=
  match s.startup.pendingCab with
  | none => s
  | some x =>
    let rest := x.heads.filter (· ≠ k)
    if !x.heads.contains k then s
    else if rest.isEmpty then finishCab x (if x.cse = 0 then s.now else x.cse) s.now s
    else { s with startup := { s.startup with pendingCab := some { x with heads := rest } } }

/-- A head ends: its pins retire without a fence, its requests complete with a status, its composed frames become FREE,
it is no longer configured, and it owes PARK once its channels are dark (R190, R210, Table 5.12). -/
def endHead (k cause status : Nat) (s : State) : State :=
  let h := headOf s k
  match h.pipe.cfg with
  | none => s
  | some c =>
    let s := unpinAll k none s
    let s := forEach (headRequests s k) (fun d s => if owes d s then complete d status (u8 k) s else s) s
    let s := { s with adm := { s.adm with transfers := s.adm.transfers.filter fun t =>
      !(t.object == k && (t.opcode == 0x0801 || t.opcode == 0x0902 || t.opcode == 0x0C02 || t.opcode == 0x0A02)) } }
    let s := forEach (bitsOf c.channels 48) (fun x => modChan x fun ch => { ch with pendCfg := none }) s
    let s := forEach c.comp (fun e => modExh e fun x => { x with state := .free, pins := [] }) s
    let s := modHead k bareHead s
    let s := { s with groups := (s.groups.map fun g => { g with heads := g.heads.filter (· ≠ k) }).filter fun g =>
                        g.desc.isNone || !g.heads.isEmpty }
    let s := modPipe k (fun p => { p with parkDue := some (c.ports, c.channels, if s.power.stop.isSome then 1 else cause) }) s
    let s := leaveCab k (dropLock k 3 s)
    reapGroup k s

/-- A revoked head stops (R29). -/
def stopHead (k cause : Nat) (s : State) : State := parkIfDark k (endHead k cause 0x0984 s)

/-- The channels of a head ramp to dark now (R141, R210, R325). -/
def rampHead (mask why : Nat) (s : State) : State := rampMask mask why s

/-! ### Ingest stops -/

/-- The unit that receives a flow (Table 1.1): ports 0 to 3 Ethernet, 4 and 5 DisplayPort, else host push. -/
def flowUnit (f : Flow) : Nat := if f.cfg.portPri < 6 then 0x0A + f.cfg.portPri else 0x2F

/-- The stamp log record of a group (R182). -/
def groupRecord (s : State) (g : Group) : List Byte :=
  u64 g.stamp ++ u32 g.first ++ u16 g.count ++ u8 (bit g.pri + 2 * bit g.sec) ++
    u8 (bit g.start + 2 * bit g.fin + 4 * bit (freeRun s))

/-- A group's record is written at the log index, which goes round (R182). -/
def logGroup (ctx : Nat) (g : Group) (s : State) : State :=
  match flowOf s ctx with
  | none => s
  | some f =>
    let (base, size) := exhRange s f.cfg.stampExh
    let n := size / 16
    if !f.cfg.stampLog ∨ n = 0 then s
    else setFlow ctx { f with logIdx := (f.logIdx + 1) % n } (writeInternal (base + 16 * f.logIdx) (groupRecord s g) s)

/-- The group being collected ends (R182). -/
def endGroup (ctx : Nat) (s : State) : State :=
  match (flowOf s ctx).bind (·.group) with
  | none => s
  | some g => logGroup ctx g (modFlow ctx (fun f => { f with group := none }) s)

/-- A frame of a flow closes incomplete: FLOW_INCOMPLETE with a cause, its exhibit returns to FREE; a starved frame only
ends (R166, R168, R169). -/
def closeOne (ctx cause : Nat) (o : OpenFrame) (s : State) : State :=
  match flowOf s ctx with
  | none => s
  | some f =>
    match o.exh with
    | none => setFlow ctx { f with starvedRtps := (o.rtp :: f.starvedRtps).take 8 } s
    | some e =>
      let f := { f with closedRtps := (o.rtp :: f.closedRtps).take 8 }
      let s := setFlow ctx { f with incomplete := bump f.incomplete } s
      let s := record (flowUnit f) 0x0701 (u16 ctx ++ u16 0 ++ u32 o.number ++ u16 cause ++ u16 (o.lastLine.getD 0xFFFF)) s
      runHeld e 0xFFFFFFFF (modExh e (fun x => { x with state := .free }) s)

/-- The open frame of a flow closes incomplete, and its packet group ends; before its deadline, the deadline is still to pass
(R170, R182). -/
def closeFrame (ctx cause : Nat) (s : State) : State :=
  match (flowOf s ctx).bind (·.openFrame) with
  | none => s
  | some o =>
    let s := endGroup ctx s
    closeOne ctx cause o (modFlow ctx (fun f => { f with
      openFrame := none
      due := if o.exh.isNone || flowReached s f.cfg o.tStart 1 f.cfg.window then f.due else f.due ++ [(o.tStart, none)] }) s)

/-- Superseded frames close too; their deadlines are still to pass (R170). -/
def closeDue (ctx cause : Nat) (s : State) : State :=
  match flowOf s ctx with
  | none => s
  | some f => forEach f.due (fun x s => x.2.elim s fun o => closeOne ctx cause o s)
      (setFlow ctx { f with due := f.due.filterMap fun x => if x.2.any (·.exh.isNone) then none else some (x.1, none) } s)

/-- Ingest and host push stop at once: every open frame closes incomplete and every flow ends (R72, R141, R173). -/
def stopIngestNow (cause : Nat) (s : State) : State :=
  let s := forEach (s.ingest.flows.map (·.1)) (fun x s => endFlow x (closeDue x cause (closeFrame x cause s))) s
  forEach (List.range 7) stopPort s

/-! ### The orderly stop (R72) -/

/-- Steps that a session finishes in a time: none lasts longer than 50 µs, the largest Max of Table 19.1, and how much faster they
go is a free value (R446; DESIGN CHOICE, notes/assumptions/121.md). -/
def stepsIn (pace t : Nat) : Nat := t * (1 + Config.freeValue pace) / (50 * usec)

/-- Steps a helper's session has finished by a stamp. -/
def Session.stepsAt (x : Session) (t : Nat) : Nat := min top32 (x.steps + if x.suspended then 0 else stepsIn x.pace (t - x.since))

/-- Steps finished in the latest session (TRN_STEPS). -/
def stepsNow (s : State) : Nat :=
  min top32 (s.training.steps + if s.training.state = 1 then stepsIn s.training.pace (s.now - s.training.since) else 0)

/-- The latest session stands still or has ended, with the steps it has finished. -/
def restSession (state : Nat) (s : State) : State :=
  { s with training := { s.training with steps := stepsNow s, state := state } }

/-- The latest session is one on a pseudo-channel. -/
def isLatest (s : State) (st pc : Nat) : Bool := s.training.stack == st && s.training.pc == pc

/-- Host training sessions end with TRN_ABORTED where they still owe a completion (R457). -/
def abortSessions (p : Session → Bool) (s : State) : State :=
  let l := s.training.sessions.filter p
  let s := if l.any (fun x => isLatest s x.stack x.pc) then restSession 0 s else s
  let s := { s with training := { s.training with sessions := s.training.sessions.filter fun x => !p x } }
  forEach l (fun x s => if owes x.desc s then complete x.desc 0x1307 (u32 (x.stepsAt s.now)) s else s) s

/-- Diagnoses under way or waiting are abandoned; a sparing copy is no session (R457). -/
def dropDiagnoses (s : State) : State :=
  let l := s.hbm.jobs.filter fun j => j.sparing.isNone
  let s := if l.any (fun j => j.running && isLatest s j.stack j.pc) then restSession 0 s else s
  { s with hbm := { s.hbm with jobs := s.hbm.jobs.filter fun j => j.sparing.isSome } }

/-- Step 1 and the start of step 2: everything admitted is revoked, ingest stops, channels ramp at their sample
instants (R72); the stop in progress is remembered. -/
def beginStop4 (why : StopCause) (quiet : Bool) (cause : Nat) (s : State) : State :=
  match s.power.stop with
  | some _ => s
  | none =>
    let s := leaveP2 s
    let s := { s with power := { s.power with stop := some (why, .ramping), pendingSets := [] } }
    let s := revokeAll quiet false s.now 0xFF cause (fun _ => true) s
    stopIngestNow 5 (dropDiagnoses (abortSessions (fun _ => true) s))

/-! ### What P3 and a restart lose (Table 3.9) -/

/-- Fault injection is disarmed and every rule cleared without a record (R527). -/
def dropFaults (s : State) : State := { s with fault := { Reset.fault with total := s.fault.total } }

/-- Registers that the Keeper retains: the PWR block (Table 3.9). -/
def keptReg (key : Nat) : Bool := decide (0x01100000 ≤ key) && decide (key < 0x01200000)

/-- The timebase across a stop of the fast clocks: HOLDOVER if it had ever been LOCKED, else POWER_ON; PTP_CFG and every other
TMB register are lost (Table 3.9). -/
def timeAfterStop (t : Timebase) : Timebase :=
  { Reset.time with
    state := if t.everLocked then .holdover else .powerOn
    everLocked := t.everLocked }

/-- A restart that passes through step 3 keeps what the left column of Table 3.9 keeps and loses the rest.  The set-up lock
goes, and with it the shedding values in force: the defaults act until the next one (R67). -/
def loseVolatile (s : State) : State :=
  { s with
    host := { Reset.host with ucwAction := s.host.ucwAction, ucwCount := s.host.ucwCount, ucwReject := s.host.ucwReject,
                              smbAlert := s.host.smbAlert }
    ledger := { s.ledger with main := Reset.ledgerRing, pf1 := Reset.ledgerRing }
    time := timeAfterStop s.time
    ingest := Reset.ingest
    adm := Reset.adm
    heads := s.heads.map fun h => { Reset.head with vit := { Reset.vitrine with gate := h.vit.gate } }
    ports := List.replicate 16 Reset.port
    gheler := { Reset.gheler with slotsBad := s.gheler.slotsBad }
    hbm := { Reset.hbm with reserves := s.hbm.reserves, m := s.hbm.m
                            map := s.hbm.map.map fun e => { e with frozen := false } }
    training := { s.training with state := 0, owner := 0, point := 0, stack := 0, pc := 0, action := 0, steps := 0, since := 0, pace := 0, susp := 0
                                  sessions := [] }
    ecc := Reset.ecc
    catum := Reset.catum
    groups := []
    fault := Reset.fault
    regs := s.regs.filter fun e => keptReg e.1
    thermal := { s.thermal with zones := s.thermal.zones.map fun z => { Reset.zone with blind := z.blind } }
    startup := { s.startup with ready := false, pendingCab := none, norWrites := [], cabinet := s.startup.bootCab, cabSrc := false }
    vitKey := { s.vitKey with count := 0 }
    power := { s.power with intlkCount := 0, intlkStamp := 0, thr := Reset.power.thr, hyst := Reset.power.hyst } }

/-- PWR_STAT.TARGET reads 3 from here on, and 0 after the restart (DESIGN CHOICE; notes/assumptions/58.md).
Enter P3 or P4: fast clocks stop, links go idle, HBM loses power (R72 step 5, R80, R494).  A start-up under way ends; it stays
after step 2 (Table 4.3). -/
def enterStandby (off : Bool) (s : State) : State :=
  let on := s.catum.ports.map (·.enabled)
  let s := loseVolatile s
  { s with
    catum := { s.catum with ports := on.map fun e => { Reset.catPort with enabled := e } }
    power := { s.power with state := if off then .p4 else .p3
                            stop := none
                            target := 3
                            fastClocks := false
                            pcieUp := false
                            rampedDark := true }
    startup := { s.startup with step := if s.startup.running then min 2 s.startup.step else s.startup.step
                                running := false, waking := false }
    wear := { s.wear with p3 := if off then s.wear.p3 else bump s.wear.p3 } }

/-- The ledger save of R72 step 4: records held and start-up records are kept in the flash and will carry SAVED = 1; the
wear record is written too (R542).  It takes what the 6 MiB region holds (Table 4.4). -/
def saveLedger (s : State) : State :=
  let rs := (s.ledger.startBuf ++ s.ledger.main.hold).map fun r => { r with saved := true }
  { s with
    ledger := { s.ledger with saved := (s.ledger.saved ++ rs).take 196608
                              startBuf := []
                              main := { s.ledger.main with hold := [] } }
    wear := { s.wear with saved := s.now }
    startup := { s.startup with norWrites := [] } }

/-- Start-up from step 3, without a Keeper boot (R74, R89, R143); the target state is P0 again (notes/assumptions/58.md).  The first
stamp after the fast clocks stood is greater than any before (R148). -/
def restart3 (s : State) : State :=
  let s := loseVolatile s
  { s with
    now := if s.power.fastClocks then s.now else (s.now + 1) % 2 ^ 64
    time := { s.time with keeperPos := 0 }
    power := { s.power with state := .p0, stop := none, target := 0, targetFp := 0, pendingSets := [], fastClocks := true, rampedDark := false }
    startup := { s.startup with step := 2, running := true, ready := false } }

end Sys2Proof.Machine
end

