-- ==== Sys2Proof/Machine/LoopOps.lean ====
section
/-!
DEFINITION. Loop sets taking effect and channels entering RUN, as shared operations (R383, R386, R394, R402).
-/

namespace Sys2Proof.Machine

/-- Which fields of Table 16.4 differ, as a mask in the order of the table. -/
def loopDiff (a b : LoopCfg) : Nat :=
  let fs := [a.sched != b.sched, a.n != b.n, a.m != b.m, a.ts != b.ts, a.ins != b.ins, a.dsrc != b.dsrc, a.didx != b.didx,
             a.lead != b.lead, a.holdoff != b.holdoff, a.rDark != b.rDark, a.rFull != b.rFull, a.uMin != b.uMin, a.uMax != b.uMax]
  (fs.zipIdx).foldl (fun m x => m + bit x.1 * 2 ^ x.2) 0

/-- A pending LOOP_SET takes effect at instant t (R394): LOOP_APPLIED, the units of the set it replaces, its completion. -/
def applyLoop (c t : Nat) (s : State) : State :=
  match (chanOf s c).pendCfg with
  | none => s
  | some (x, d, _) =>
    let diff := (chanOf s c).cfg.elim 0x1FFF (loopDiff x)
    let s := modChan c (fun ch => { ch with cfg := some x, pendCfg := none, held := none }) s
    let s := settle (.loopSet c none false) s
    completeAt t d 0 [] (recordAt false t 8 0x1001 (u16 c ++ u64 t ++ u16 diff) s)

/-- Loop sets of a head's channels that wait for F_n (R394). -/
def applyLoopsAt (mask n t : Nat) (s : State) : State :=
  forEach ((bitsOf mask 48).filter fun c => (chanOf s c).pendCfg.any fun x => x.2.2.any fun m => decide (m ≤ n))
    (fun c => applyLoop c t) s

/-- A channel enters RUN: x, z and u_prev at 0, and the limiter at the dark level (R386, R402). -/
def enterRun (c : Nat) (s : State) : State :=
  match (chanOf s c).cfg with
  | none => s
  | some x =>
    let s := modChan c (fun ch => { ch with
      state := .run, x := List.replicate 8 0, z := 0, uPrev := 0, dPrev := 0, uNew := [], applied := false, lastStep := none,
      offNext := false, unsat := 0, r := x.rDark }) s
    modSp c (fun p => { p with p := x.rDark * 65536, v := 0, dv := 0, formed := false, target := x.rDark }) s

end Sys2Proof.Machine
end

