-- ==== Sys2Proof/Machine/Trig.lean ====
section
/-!
DEFINITION. Cosine and arc cosine in integer arithmetic with 128 fraction bits, rounded to IEEE 754 binary64 for the scanner's
sample phases (R330), and for the test-signal generator (R414).
-/

namespace Sys2Proof.Machine

/-- π with 128 fraction bits. -/
def piFix : Int := 1069028584064966747859680373161870783300

/-- Product with 128 fraction bits. -/
def mulFix (a b : Int) : Int := a * b / 2 ^ 128

/-- The terms of the Taylor series of cos from index k on, the last one given; 40 terms leave less than 2^-120 for |x| ≤ π. -/
def cosTerms : Nat → Int → Int → Int → Int
  | 0, _, _, _ => 0
  | f + 1, x2, k, t => t + cosTerms f x2 (k + 1) (-(mulFix t x2) / ((2 * k + 1) * (2 * k + 2)))

/-- cos(π n / d) with 128 fraction bits, for |n| ≤ d. -/
def cosPi (n : Int) (d : Nat) : Int :=
  let x := piFix * n / (max 1 d : Nat)
  cosTerms 40 (mulFix x x) 0 (2 ^ 128)

/-- The largest m below 2^f more than `lo`, and at most 2^96, for which cos(π m / 2^96) is not below x (128 fraction bits): a
binary search over the bits of the angle. -/
def arccosSearch (x : Int) : Nat → Nat → Nat
  | 0, lo => lo
  | f + 1, lo =>
    let m := lo + 2 ^ f
    if m ≤ 2 ^ 96 ∧ x ≤ cosPi m (2 ^ 96) then arccosSearch x f m else arccosSearch x f lo

/-- The binary64 number nearest to a value given with 128 fraction bits, a tie to the even significand: 53 significant bits. -/
def round53 (x : Int) : Int :=
  let u := 2 ^ (Nat.log2 x.natAbs - 52)
  let q : Nat := x.natAbs / u
  let r : Nat := x.natAbs % u
  let q := if 2 * r < u ∨ (2 * r = u ∧ q % 2 = 0) then q else q + 1
  if x < 0 then -(q * u : Nat) else (q * u : Nat)

/-- round(arccos(x) / π × 2^32), ties upward, for x with 128 fraction bits: arc cosine, π and quotient are binary64 numbers (R330;
DEDUCED, notes/assumptions/20.md). -/
def arccosTurns (x : Int) : Nat :=
  let angle := round53 (piFix * arccosSearch x 97 0 / 2 ^ 96)
  let turn := round53 (angle * 2 ^ 128 / round53 piFix)
  ((turn * 2 ^ 32 + 2 ^ 127) / 2 ^ 128).toNat

end Sys2Proof.Machine
end

