-- ==== Sys2Proof/Machine/LoopMath.lean ====
section
/-!
DEFINITION. The arithmetic of the loop engine: number formats and rounding (R374, R375), one sample (R376, R407), AOUT codes
(R382), the limiter (R402) and test signals (R414).
-/

namespace Sys2Proof.Machine

/-! ### Formats (R374, R375) -/

def sat20 (v : Int) : Int := clampInt (-524288) 524287 v
def sat31 (v : Int) : Int := clampInt (-2147483648) 2147483647 v

/-- Whether a value is an S20 integer. -/
def isS20 (v : Int) : Bool := decide (-524288 ≤ v) && decide (v ≤ 524287)

/-- The 48-bit accumulator takes one product; it holds at ±2^47, which is noted. -/
def accAdd (a : Int × Bool) (p : Int × Int) : Int × Bool :=
  let v := a.1 + p.1 * p.2
  (clampInt (-140737488355328) 140737488355328 v, a.2 || decide (140737488355328 < v) || decide (v < -140737488355328))

def accSum (l : List (Int × Int)) : Int × Bool := l.foldl accAdd (0, false)

/-- rnd(acc, E): sh = 19 - E. -/
def rnd (acc : Int) (e : Int) : Int :=
  let sh := (19 - e).toNat
  sat20 ((acc + 2 ^ (sh - 1)) / 2 ^ sh)

/-- rnd31(acc, E): sh = 7 - E; a shift that is not positive is an exact left shift. -/
def rnd31 (acc : Int) (e : Int) : Int :=
  if e < 7 then
    let sh := (7 - e).toNat
    sat31 ((acc + 2 ^ (sh - 1)) / 2 ^ sh)
  else sat31 (acc * 2 ^ (e - 7).toNat)

/-- The AOUT code of an output (R382). -/
def outCode (bip : Bool) (u : Int) : Int :=
  if bip then clampInt (-32768) 32767 ((u + 8) / 16) else min ((max u 0 + 4) / 8) 65535

/-! ### Coefficients (Table 16.3) -/

def coef (l : List (Nat × Int)) (i : Nat) : Int := (getKey i l).getD 0
def expP (l : List (Nat × Int)) : Int := coef l 140
def expC (l : List (Nat × Int)) : Int := coef l 141
def expL (l : List (Nat × Int)) : Int := coef l 142
def expO (l : List (Nat × Int)) : Int := coef l 143

/-! ### One sample (R376) -/

/-- What a sample reads. -/
structure SampleIn where
  n     : Nat
  m     : Nat
  k     : List (Nat × Int)
  x     : List Int
  z     : Int
  uPrev : Int
  dPrev : Int
  y     : List Int
  r     : Int
  d     : Int
  s1    : Int                          -- test signal at POINT 1
  s2    : Int                          -- test signal at POINT 2
  deriving DecidableEq, Repr

/-- What a sample forms, and the stages whose accumulator reached its bound. -/
structure SampleOut where
  x    : List Int
  e    : Int
  dz   : Int
  v    : Int
  w    : Int
  uRaw : Int
  sat  : List Nat
  deriving DecidableEq, Repr

/-- The observer: states and the stages whose accumulator reached its bound. -/
def observe (i : SampleIn) : List Int × List Nat :=
  if i.n = 0 then (i.x, [])
  else
    let ns := List.range i.n
    let ms := List.range i.m
    let pre := ns.map fun a =>
      accSum ((ns.map fun b => (coef i.k (8 * a + b), i.x.getD b 0)) ++ [(coef i.k (64 + a), i.uPrev), (coef i.k (72 + a), i.dPrev)])
    let xp := pre.map fun p => rnd p.1 (expP i.k)
    let est := ms.map fun q => accSum (ns.map fun a => (coef i.k (80 + 8 * q + a), xp.getD a 0))
    let eps := (est.zipIdx).map fun p => sat20 (i.y.getD p.2 0 - rnd p.1.1 (expC i.k))
    let cor := ns.map fun a => accSum (ms.map fun q => (coef i.k (104 + 3 * a + q), eps.getD q 0))
    let xs := (cor.zipIdx).map fun p => sat20 (xp.getD p.2 0 + rnd p.1.1 (expC i.k))
    (padInts i.x xs, (if pre.any (·.2) then [0] else []) ++ (if est.any (·.2) || cor.any (·.2) then [1] else []))
where
  /-- The new states, and those beyond n as they stand. -/
  padInts (old new : List Int) : List Int := new ++ old.drop new.length

def computeSample (i : SampleIn) : SampleOut :=
  let (xs, st) := observe i
  let e := sat20 (i.r - i.y.getD 0 0 + i.s1)
  let az := accSum [(coef i.k 136, e)]
  let dz := rnd31 az.1 (expL i.k)
  let av := accSum ((coef i.k 137, i.d) :: (List.range i.n).map fun a => (-coef i.k (128 + a), xs.getD a 0))
  let v := rnd av.1 (expL i.k)
  let aw := accSum [(coef i.k 138, i.r)]
  let w := rnd aw.1 (expO i.k)
  let uRaw := v + (i.z + dz + 2048) / 4096 + w + i.s2
  { x := xs, e := e, dz := dz, v := v, w := w, uRaw := uRaw,
    sat := st ++ (if az.2 || av.2 then [2] else []) ++ (if aw.2 then [3] else []) }

/-- The integrator of an automatic sample (R376, R377). -/
def integrate (z dz uRaw uMin uMax : Int) (gate : Bool) : Int :=
  if gate ∧ ¬(uMax < uRaw ∧ 0 < dz) ∧ ¬(uRaw < uMin ∧ dz < 0) then sat31 (z + dz) else z

/-- The integrator preset of a manual sample or of a loser (R407, R411). -/
def preset (u v w : Int) : Int := sat31 ((u - v - w) * 4096)

/-- Output between samples (R378). -/
def between (u f expo r rj uMin uMax : Int) : Int := min (max (u + rnd (f * (r - rj)) expo) uMin) uMax

/-! ### The limiter (R402) -/

/-- floor(√x), by bits from the top. -/
def isqrtBits (x : Nat) : Nat → Nat → Nat
  | 0, r => r
  | f + 1, r => if (r + 2 ^ f) * (r + 2 ^ f) ≤ x then isqrtBits x f (r + 2 ^ f) else isqrtBits x f r

def sqrtFloor (x : Nat) : Nat := isqrtBits x 64 0

/-- P and V after a sample with target t. -/
def limiter (rateMax accMax t p v : Int) : Int × Int :=
  let tt := t * 65536
  if rateMax = 0 then (tt, 0)
  else
    let e := tt - p
    let sgn : Int := if e < 0 then -1 else if e = 0 then 0 else 1
    let vd := if accMax = 0 then sgn * min rateMax e.natAbs
              else sgn * min rateMax (sqrtFloor (2 * accMax * e.natAbs).toNat : Nat)
    let v := if accMax = 0 then vd else v + clampInt (-accMax) accMax (vd - v)
    let p := p + v
    if ((tt - p).natAbs : Int) ≤ accMax ∧ (v.natAbs : Int) ≤ accMax then (tt, 0) else (p, v)

/-- r from P. -/
def limited (p : Int) : Int := sat20 ((p + 32768) / 65536)

/-! ### Test signals (R414) -/

/-- S(k) = round(32,767 sin(2πk / 4,096)). -/
def sineTable (k : Nat) : Int :=
  let n : Int := (k % 4096 : Nat)
  let q := if n < 1024 then 1024 - n else if n < 3072 then n - 1024 else n - 5120
  roundDiv (32767 * cosPi q 2048) (2 ^ 128)

/-- The signal of the present injected sample, and the injection after it. -/
def testSignal (j : Injection) : Int × Injection :=
  let wave := (j.amp * sineTable (j.phase / 1048576) + 16384) / 32768
  let step := fun df : Int => unsigned 32 ((j.phase : Int) + j.freq0 + df)
  match j.wave with
  | 0 => (j.amp, { j with i := j.i + 1 })
  | 1 => (wave, { j with i := j.i + 1, phase := step 0 })
  | 2 => (wave, { j with i := j.i + 1, phase := step ((j.freq1 - j.freq0) * j.i / (max 1 j.count : Nat)) })
  | _ =>
    let j := if j.i % (j.div + 1) = 0 then
        let b := bitOf j.lfsr 30 != bitOf j.lfsr 27
        { j with lfsr := j.lfsr * 2 % 2147483648 + bit b, bit := b }
      else j
    (if j.bit then j.amp else -j.amp, { j with i := j.i + 1 })

end Sys2Proof.Machine
end

