-- ==== Sys2Proof/Machine/Registers.lean ====
section
/-!
DEFINITION. Writing registers: access codes (R4 to R7), the set-up lock (R5, R118), the field rules of the defining
tables, and pairs (R7).
-/

namespace Sys2Proof.Machine

/-- Mask of bits taken by a write under the lock state; PF1's registers are RW (R119, R137). -/
def RegDef.writable (r : RegDef) (locked : Bool) : Nat := r.rw ||| (if locked then 0 else r.rwl)

/-- Values that a register takes for values its table says are read or used as others (Tables 2.11, 7.6, 18.10, 20.7,
22.7). -/
def normField (off v : Nat) : Nat :=
  if 0x00A08100 ≤ off ∧ off < 0x00A081C0 ∧ v % 4 = 3 then v - 3
  else if (off = 0x00200200 ∨ off = 0x00200300) ∧ bits v 1 3 = 7 then v - 2
  else if off = 0x00B0000C then
    max 256 (bits v 0 16) + 65536 * max 1 (bits v 16 8)
  else if off = 0x00D00004 then max 1 (bits v 0 8) + 256 * max 1 (bits v 8 16)
  else if off = 0x00F00004 ∧ bits v 14 2 = 3 then v - 0xC000
  else v

/-- A write that the register's own rule discards: a QOS target outside 20 to 10,000 (Table 18.10). -/
def fieldDiscarded (off v : Nat) : Bool :=
  decide (0x00B00110 ≤ off) && decide (off ≤ 0x00B00118) && (decide (v < 20) || decide (10000 < v))

/-- The part of a write that takes effect on stored bits (R4, R6). -/
def storeReg (key off : Nat) (v : Word) (locked : Bool) (s : State) : State :=
  match findReg off with
  | none => s
  | some r =>
    let old := (rawReg s key).toNat
    let m := r.writable locked
    let w1c := if off = 0x00A082C0 ∧ s.power.intlkLow then 0
      else if key = regIrqCause + pf1Base then 0x17B      -- PF1's causes (R137)
      else r.w1c
    let taken := if fieldDiscarded off (v.toNat &&& 0xFFFF) then old &&& m else v.toNat &&& m
    let put := (old - (old &&& m)) + normField off taken
    let put := if m = 0 then old else put
    setRaw key (wordOf (put - (put &&& (v.toNat &&& w1c)))) s

/-- Whether a write to a locked register would change a field that the lock holds (R5). -/
def rwlChanged (key off : Nat) (v : Word) (s : State) : Bool :=
  match findReg off with
  | none => false
  | some r => (v.toNat &&& r.rwl) != ((rawReg s key).toNat &&& r.rwl)

/-- RWL_WRITE_DISCARDED: BAR, offset, value (R5, R119). -/
def rwlRecord (bar off v : Nat) (s : State) : State := record 3 0x0502 (u8 bar ++ u24 0 ++ u32 off ++ u32 v) s

/-- Lower registers of the writable 64-bit pairs. -/
def pairLoWritable (off : Nat) : Bool :=
  off = 0x00100010 || off = 0x01100038 ||
  (decide (0x00101000 ≤ off) && decide (off < 0x00103000) && off % 32 == 0) ||
  (decide (0x00103000 ≤ off) && decide (off < 0x00105000) && off % 32 == 0) ||
  (decide (0x00200000 ≤ off) && decide (off < 0x00200100) && off % 64 == 0x14) ||
  (decide (0x00A08280 ≤ off) && decide (off < 0x00A082C0) && off % 8 == 0)

/-- Registers whose write is a command of its own (Table of operations): their effect is that command's. -/
def ownCommand (off : Nat) : Bool :=
  off = 0x00000100 || off = 0x00000108 || off = 0x00B00004 ||
  (decide (0x00A08000 ≤ off) && decide (off < 0x00A080C0))

/-- One 32-bit write with its pair rule: `locked` is the lock state that binds the register, `key` where it is kept.  A _LO
write of RWL fields held before set-up lock whose _HI is written after it: the spec does not say what becomes of the half
held; both halves are discarded, and the record follows the _HI value alone (DESIGN CHOICE, notes/assumptions/49.md). -/
def writeWord (key off : Nat) (v : Word) (locked : Bool) (s : State) : State :=
  let pf := key - off
  let s := if locked && rwlChanged key off v s then rwlRecord 0 off v.toNat s else s
  if pairLoWritable off then
    { s with host := { s.host with loHeld := setKey key v s.host.loHeld } }
  else if 4 ≤ off ∧ pairLoWritable (off - 4) then
    match getKey (key - 4) s.host.loHeld with
    | some lo =>
      let s := { s with host := { s.host with loHeld := dropKey (key - 4) s.host.loHeld } }
      storeReg key off v locked (storeReg (off - 4 + pf) (off - 4) lo locked s)
    | none => storeReg key off v locked s
  else
    let s := storeReg key off v locked s
    if off = 0x00F0001C ∧ v.getLsbD 3 then
      { s with catum := { s.catum with mailbox := { s.catum.mailbox with err := false } } }
    else s

/-- Whether PF1 BAR0 holds a register, given as its PF0 offset (R112, R137). -/
def pf1Own (off : Nat) : Bool :=
  off = 0x00100004 || off = 0x00100008 || (decide (0x00100010 ≤ off) && decide (off ≤ 0x00100020))

def ringReg (off : Nat) : Option Nat :=
  if 0x00101000 ≤ off ∧ off < 0x00103000 then some ((off - 0x00101000) / 32)
  else if 0x00103000 ≤ off ∧ off < 0x00105000 then some ((off - 0x00103000) / 32)
  else none

/-- The stored effect of an aligned 32-bit write to BAR0 of a function (R112, R113, R137). -/
def writeBar0 (off : Nat) (v : Word) (pf1 : Bool) (s : State) : State :=
  if pf1 then
    let o := off + 0x00100000
    if pf1Own o then writeWord (o + pf1Base) o v false s
    else if (ringReg o).any (fun r => decide (252 ≤ r)) then writeWord o o v false s
    else s
  else if (ringReg off).any (fun r => decide (252 ≤ r)) || ownCommand off then s
  else writeWord off off v s.host.locked s

/-! ### Clears of the WO registers

Each clears what its field names and leaves everything else. -/

def execCmpClrLate (dt head : Nat) (s : State) : Res :=
  .next (modPipe head (fun p => { p with late := 0 }) (tick dt s))

def execCmpClrGap (dt head : Nat) (s : State) : Res :=
  .next (modPipe head (fun p => { p with gapMin := 0xFFFFFFFF }) (tick dt s))

def execPrsClrSlack (dt head : Nat) (s : State) : Res :=
  .next (modPress head (fun p => { p with slackMin := 0xFFFFFFFF }) (tick dt s))

def execPrsClrDark (dt head : Nat) (s : State) : Res :=
  .next (modPress head (fun p => { p with darkTiles := 0 }) (tick dt s))

def execMotClrMiss (dt head : Nat) (s : State) : Res :=
  .next (modMotion head (fun m => { m with miss := 0 }) (tick dt s))

def execScnClr (dt head : Nat) (s : State) : Res :=
  .next (modScan head (fun c => { c with cut := 0, lost := 0 }) (tick dt s))

def execClrLimitedClear (dt head : Nat) (s : State) : Res :=
  .next (modSolver head (fun c => { c with limitedN := 0 }) (tick dt s))

def clearChan (chan : Nat) : State → State := modChan chan fun c => { c with sat := 0, clampHit := 0 }

def execGleChClr (dt chan : Nat) (s : State) : Res := .next (clearChan chan (tick dt s))

def clearSp (chan : Nat) : State → State := modSp chan fun p => { p with lost := 0 }

def execGleSpClr (dt chan : Nat) (s : State) : Res := .next (clearSp chan (tick dt s))

def clearHbm (s : State) : State :=
  { s with hbm := { s.hbm with urg3 := List.replicate 8 0, throt := List.replicate 8 0 } }

def execHbmClr (dt : Nat) (s : State) : Res := .next (clearHbm (tick dt s))

def clearMin (s : State) : State := { s with power := { s.power with vinMin := s.power.vin } }

def execPwrClrMin (dt : Nat) (s : State) : Res := .next (clearMin (tick dt s))

end Sys2Proof.Machine
end

