-- ==== Sys2Proof/Machine/LinAlg.lean ====
section
/-!
DEFINITION. Three-vectors and 3 x 3 matrices of exact rational numbers, for the preset matrices (R214), and the same
operations in binary64 for the colour solver (R360), every sum, product and quotient rounded (DEDUCED, notes/assumptions/20.md).
-/

namespace Sys2Proof.Machine

abbrev Vec3 := Rat × Rat × Rat

def vadd (a b : Vec3) : Vec3 := (a.1 + b.1, a.2.1 + b.2.1, a.2.2 + b.2.2)
def vscale (k : Rat) (a : Vec3) : Vec3 := (k * a.1, k * a.2.1, k * a.2.2)
def vdot (a b : Vec3) : Rat := a.1 * b.1 + a.2.1 * b.2.1 + a.2.2 * b.2.2
def vcross (a b : Vec3) : Vec3 := (a.2.1 * b.2.2 - a.2.2 * b.2.1, a.2.2 * b.1 - a.1 * b.2.2, a.1 * b.2.1 - a.2.1 * b.1)
def rabs (a : Rat) : Rat := if a < 0 then -a else a
def rmax (a b : Rat) : Rat := if a < b then b else a
def rmin (a b : Rat) : Rat := if a < b then a else b

/-- A 3 x 3 matrix by its rows. -/
abbrev Mat3 := Vec3 × Vec3 × Vec3

def mdet (m : Mat3) : Rat := vdot m.1 (vcross m.2.1 m.2.2)

/-- A quotient; by zero it is a value the spec does not state (notes/assumptions/3.md). -/
def rquot (a b : Rat) : Rat := if b = 0 then Config.divZero a else a / b

/-- The inverse, by cross products. -/
def minv (m : Mat3) : Mat3 :=
  let d := mdet m
  let a := vcross m.2.1 m.2.2
  let b := vcross m.2.2 m.1
  let c := vcross m.1 m.2.1
  ((rquot a.1 d, rquot b.1 d, rquot c.1 d), (rquot a.2.1 d, rquot b.2.1 d, rquot c.2.1 d),
   (rquot a.2.2 d, rquot b.2.2 d, rquot c.2.2 d))

def mvec (m : Mat3) (v : Vec3) : Vec3 := (vdot m.1 v, vdot m.2.1 v, vdot m.2.2 v)
def mtrans (m : Mat3) : Mat3 := ((m.1.1, m.2.1.1, m.2.2.1), (m.1.2.1, m.2.1.2.1, m.2.2.2.1), (m.1.2.2, m.2.1.2.2, m.2.2.2.2))

/-! ### In binary64 -/

/-- a × 2^e. -/
def scalePow (a : Rat) (e : Int) : Rat := if e < 0 then a / 2 ^ (-e).toNat else a * 2 ^ e.toNat

/-- Nearest integer, a tie to the even one. -/
def roundEven (a : Rat) : Int :=
  let n := a.floor
  let d := a - n
  if d < 1 / 2 ∨ (d = 1 / 2 ∧ n % 2 = 0) then n else n + 1

/-- The binary64 number nearest to a value, a tie to the even significand: 53 significant bits.  Its exponent is not bounded; no
value of R330 or R360 comes near a bound. -/
def b64 (a : Rat) : Rat :=
  let m := if a < 0 then -a else a
  let e : Int := 52 - ((Nat.log2 m.num.natAbs : Int) - Nat.log2 m.den)
  let e := if m = 0 then 0 else if scalePow m e < 2 ^ 52 then e + 1 else e
  let r := scalePow (roundEven (scalePow m e)) (-e)
  if a < 0 then -r else r

def fadd (a b : Rat) : Rat := b64 (a + b)
def fsub (a b : Rat) : Rat := b64 (a - b)
def fmul (a b : Rat) : Rat := b64 (a * b)

/-- A quotient; by zero it is a value the spec does not state (notes/assumptions/3.md). -/
def fdiv (a b : Rat) : Rat := b64 (rquot a b)
def fvadd (a b : Vec3) : Vec3 := (fadd a.1 b.1, fadd a.2.1 b.2.1, fadd a.2.2 b.2.2)
def fscale (k : Rat) (a : Vec3) : Vec3 := (fmul k a.1, fmul k a.2.1, fmul k a.2.2)
def fdot (a b : Vec3) : Rat := fadd (fadd (fmul a.1 b.1) (fmul a.2.1 b.2.1)) (fmul a.2.2 b.2.2)
def fcross (a b : Vec3) : Vec3 :=
  let m := fun p q r t : Rat => fsub (fmul p q) (fmul r t)
  (m a.2.1 b.2.2 a.2.2 b.2.1, m a.2.2 b.1 a.1 b.2.2, m a.1 b.2.1 a.2.1 b.1)
def fmadd (a b : Mat3) : Mat3 := (fvadd a.1 b.1, fvadd a.2.1 b.2.1, fvadd a.2.2 b.2.2)
def fmvec (m : Mat3) (v : Vec3) : Vec3 := (fdot m.1 v, fdot m.2.1 v, fdot m.2.2 v)

def fdet (m : Mat3) : Rat := fdot m.1 (fcross m.2.1 m.2.2)

/-- The inverse: the cross products over the determinant. -/
def finv (m : Mat3) : Mat3 :=
  let quot := fun v : Vec3 => (fdiv v.1 (fdet m), fdiv v.2.1 (fdet m), fdiv v.2.2 (fdet m))
  mtrans (quot (fcross m.2.1 m.2.2), quot (fcross m.2.2 m.1), quot (fcross m.1 m.2.1))

/-- Largest column sum of magnitudes. -/
def fnorm (m : Mat3) : Rat :=
  let t := mtrans m
  let s := fun v : Vec3 => fadd (fadd (rabs v.1) (rabs v.2.1)) (rabs v.2.2)
  rmax (s t.1) (rmax (s t.2.1) (s t.2.2))

/-- Reciprocal condition number, in the 1-norm. -/
def rcond (m : Mat3) : Rat := if fdet m = 0 then 0 else fdiv 1 (fmul (fnorm m) (fnorm (finv m)))

end Sys2Proof.Machine
end

