-- ==== Sys2Proof/Machine/Timebase.lean ====
section
/-!
DEFINITION. The timebase (chapter 6): states and epoch moves (R149 to R155), the PTP messages of R151, PTP_CFG (R159)
and STAMP_READ (R160).
-/

namespace Sys2Proof.Machine

def modTime (f : Timebase → Timebase) (s : State) : State := { s with time := f s.time }

/-- HOLDOVER if LOCKED at some time since input power was applied, else POWER_ON (R150, R154). -/
def Timebase.fallen (t : Timebase) : TimeState := if t.everLocked then .holdover else .powerOn

/-- The stamps a channel and its set-point keep move with a step of the count (R155). -/
def moveChan (d : Int) (ch : Chan) : Chan :=
  let f := fun n : Nat => ((n : Int) + d).toNat
  { ch with edge := f ch.edge, upd := f ch.upd, lastStep := ch.lastStep.map f,
            zeroTill := if ch.zeroTill = 0 then 0 else f ch.zeroTill, pendAt := f ch.pendAt
            coefQ := ch.coefQ.map fun q => { q with at_ := f q.at_ }
            uNew := ch.uNew.map fun u => { u with due := f u.due } }

def moveLoops (d : Int) (g : Gheler) : Gheler :=
  let f := fun n : Nat => ((n : Int) + d).toNat
  { g with chans := g.chans.map (moveChan d), auxAt := g.auxAt.map f, sps := g.sps.map fun p => { p with lostAt := f p.lostAt },
           pulses := g.pulses.map fun p => { p with edges := p.edges.map f, opp := p.opp.map f, last := if p.last = 0 then 0 else f p.last } }

/-- The instants that a head's timeline and scanner keep move with the count (R18): the anchor, a re-anchor still ahead, the
last retire fence, Cave hold's exit, and the edges, passes and windows of scan-line mode. -/
def moveHead (d : Int) (h : Head) : Head :=
  let f := fun n : Nat => ((n : Int) + d).toNat
  match h.pipe.cfg with
  | none => h
  | some c => { h with
      pipe := { h.pipe with
        cfg := some { c with anchor := f c.anchor, f0 := c.f0.map f ++ c.f0 }, reAt := h.pipe.reAt.map f, retired := f h.pipe.retired
        shift := h.pipe.shift ++ [d], flips := h.pipe.flips.map fun x => (x.1, f x.2) }
      cave := { h.cave with exitAt := if h.cave.exitAt = 0 then 0 else f h.cave.exitAt, request := h.cave.request.map f,
                            latest := if h.cave.latest = 0 then 0 else f h.cave.latest }
      press := { h.press with wantForm := h.press.wantForm.map fun x => (x.1, f x.2) }
      scan := { h.scan with
        edges := h.scan.edges.map f, lastEdge := if h.scan.lastEdge = 0 then 0 else f h.scan.lastEdge
        preds := h.scan.preds.map fun p => { p with start := f p.start }
        ann := h.scan.ann.map fun p => { p with start := f p.start }
        wins := h.scan.wins.map fun w => { w with opens := f w.opens, closes := f w.closes } } }

/-- What a Plane Link port keeps of the timeline moves too: the slots of its packets and the instants it waits for. -/
def movePort (d : Int) (o : Port) : Port :=
  let f := fun n : Nat => ((n : Int) + d).toNat
  { o with sent := o.sent.map (fun q => { q with stamp := f q.stamp }), queue := o.queue.map (fun q => { q with stamp := f q.stamp }),
           trainAt := f o.trainAt, lastRet := f o.lastRet, lastSend := f o.lastSend, lastStatus := f o.lastStatus, readyAt := f o.readyAt
           badRun := o.badRun.map f }

/-- The instants from which the release of a trip counts move with the count (R18, R51). -/
def moveIntlk (d : Int) (p : Power) : Power :=
  let f := fun n : Nat => ((n : Int) + d).toNat
  { p with intlkAt := f p.intlkAt, intlkRise := if p.intlkRise = 0 then 0 else f p.intlkRise }

/-- The instants from which the steps of training sessions count move with the count. -/
def moveTraining (d : Int) (t : Training) : Training :=
  let f := fun n : Nat => ((n : Int) + d).toNat
  { t with since := f t.since, sessions := t.sessions.map fun x => { x with since := f x.since } }

/-- An epoch move by d: every configured head's instants move with it, and the head owes a TIMELINE_SHIFT (R18, R155). -/
def epochMove (d : Int) (s : State) : State :=
  { s with gheler := if d = 0 then s.gheler else moveLoops d s.gheler
           heads := s.heads.map (moveHead d)
           power := if s.power.intlkLow then moveIntlk d s.power else s.power
           training := if d = 0 then s.training else moveTraining d s.training
           ports := if d = 0 then s.ports else s.ports.map (movePort d) }

/-- FRAME_LOCK_DEGRADED once for each loss of lock, of every locked head (R523). -/
def degradeLocks (s : State) : State :=
  forEach (List.range 8) (fun k s =>
    let l := lockOf s k
    if l.role = 0 ∨ l.degraded then s
    else record 4 0x160B (u8 k) (modLock k (fun l => { l with degraded := true }) s)) s

/-- The timebase leaves LOCKED with a cause of R152, or ends a slew for want of its source (R154). -/
def loseLock (cause : Nat) (s : State) : State :=
  match s.time.state with
  | .locked =>
    let s := modTime (fun t => { t with state := .holdover, good := 0, bad := 0 }) s
    let s := record 4 0x0602 (u8 cause) s
    degradeLocks (epochMove 0 s)
  | .slewing => modTime (fun t => { t with state := t.fallen, slew := 0, good := 0 }) s
  | .acquiring => modTime (fun t => { t with state := t.fallen, good := 0 }) s
  | _ => s

/-- The timebase enters LOCKED (R152, R155).  Under SOURCE 2 the spec gives no grandmaster identity: the record and TMB_GM_ID keep
the last one of PTP (DESIGN CHOICE, notes/assumptions/108.md). -/
def enterLocked (s : State) : State :=
  let s := modTime (fun t => { t with state := .locked, everLocked := true, good := 0, bad := 0, slew := 0 }) s
  let s := record 4 0x0601 (u8 s.time.source ++ u64 s.time.gmId) s
  let s := epochMove 0 s
  forEach (List.range 8) (fun k => modLock k fun l => { l with degraded := false }) s

/-- The count steps forward by d (R153, R155). -/
def stepCount (d : Int) (s : State) : State :=
  let s := { s with now := ((s.now : Int) + d).toNat % 2 ^ 64 }
  let s := modTime (fun t => { t with state := .acquiring, good := 0, slew := 0, refusedGm := none }) s
  epochMove d (record 4 0x0603 (u64 s.now ++ s64 d) s)

/-- A slew towards the source begins or goes on (R154). -/
def slewTo (d : Int) (s : State) : State :=
  if s.time.state = .slewing then modTime (fun t => { t with slew := d.natAbs, slewFrom := s.now, refusedGm := none }) s
  else
    let s := modTime (fun t => { t with state := .slewing, slew := d.natAbs, slewStart := s.now, slewFrom := s.now, good := 0, refusedGm := none }) s
    record 4 0x0604 (s64 d) s

/-- A backward offset is refused (R153). -/
def refuseBack (d : Int) (s : State) : State :=
  let told := decide (s.time.refusedGm = some s.time.gmId)
  let s := modTime (fun t => { t with state := t.fallen, slew := 0, good := 0, refused := true, refusedGm := some t.gmId }) s
  if told then s else record 4 0x0606 (s64 d) s

/-- Treat a measured offset outside LOCKED (R152, R153, R154): `near` is the bound in which measurements count towards
LOCKED, and `ready` that the source lets the timebase lock; towards one that does not no slew begins
(notes/assumptions/69.md). -/
def treatOffset (d : Int) (near : Nat) (ready : Bool) (s : State) : State :=
  if 400000 < d then stepCount d s
  else if d < -400000000 then refuseBack d s
  else if s.time.state = .acquiring ∧ d.natAbs ≤ near then
    let s := modTime (fun t => { t with good := t.good + 1, refusedGm := none }) s
    if 16 ≤ s.time.good ∧ ready then enterLocked s else s
  else if ready then slewTo d s
  else modTime (fun t => { t with good := 0 }) s

/-- The rate correction the servo then holds: a free value within 100 ppm (R152). -/
def correctRate (s : State) : State :=
  let (v, s) := takeFree s
  modTime (fun t => { t with ratePpb := (v % 200001 : Nat) - (100000 : Int) }) s

/-- TMB_OFFSET takes a measurement, saturating (Table 6.7). -/
def noteOffset (d : Int) (s : State) : State :=
  modTime (fun t => { t with offset := clampInt (-2147483648) 2147483647 d }) s

/-- A measurement outside LOCKED: a refusal keeps the rate correction (R153). -/
def takeOffset (d : Int) (near : Nat) (ready : Bool) (s : State) : State :=
  treatOffset d near ready (if d < -400000000 then s else correctRate s)

/-- A measurement of the selected PTP master (R152, R153): treated from ACQUIRING, which an Announce begins, and in a slew. -/
def measurePtp (d : Int) (s : State) : State :=
  let s := noteOffset d s
  match s.time.state with
  | .powerOn | .holdover => s
  | .locked =>
    let s := correctRate s
    if 4000 < d.natAbs then
      let s := modTime (fun t => { t with bad := t.bad + 1 }) s
      if 8 ≤ s.time.bad then loseLock 2 s else s
    else modTime (fun t => { t with bad := 0 }) s
  | _ => takeOffset d 400 true s

/-- The secondary view agrees with the primary within 1 µs on one grandmaster (R152). -/
def secAgrees (t : Timebase) (gm : Nat) : Bool :=
  decide (t.secGm = some gm) && decide ((t.secOffset - t.offset).natAbs ≤ 4000)

/-! ### Masters (R151) -/

/-- A message interval 2^i s, in stamp units. -/
def intervalUnits (i : Int) : Nat := if 0 ≤ i then sec * 2 ^ i.toNat else sec / 2 ^ (-i).toNat

/-- The Announce receipt timeout of a master has not run out (R152). -/
def Foreign.fresh (t : Timebase) (now : Nat) (f : Foreign) : Bool := decide (now < f.at_ + t.annTimeout * intervalUnits f.interval)

/-- The master in use. -/
def Foreign.selected (t : Timebase) (f : Foreign) : Bool := f.port == t.port && f.sender == t.parent

/-- A master counts once two Announces have come within four of its intervals; one in use counts while fresh; 255 steps or
more never count (IEEE 1588-2019, notes/assumptions/68.md). -/
def Foreign.counts (t : Timebase) (now : Nat) (f : Foreign) : Bool :=
  f.fresh t now && decide (f.data.steps < 255) &&
    (f.selected t || (f.prev != 0 && decide (f.at_ - f.prev ≤ 4 * intervalUnits f.interval)))

/-- What the default best-master algorithm compares, in order (IEEE 1588-2019). -/
def Foreign.rank (f : Foreign) : List Nat :=
  [f.data.prio1, f.data.cls, f.data.accuracy, f.data.variance, f.data.prio2, f.data.gm, f.data.steps, f.sender, f.port]

def lexLess : List Nat → List Nat → Bool
  | a :: l, b :: m => decide (a < b) || (a == b && lexLess l m)
  | _, _ => false

/-- The best master heard. -/
def bestMaster (t : Timebase) (now : Nat) : Option Foreign :=
  (t.masters.filter (·.counts t now)).foldl (fun m f => match m with
    | none => some f
    | some g => if lexLess f.rank g.rank then some f else m) none

/-- An Announce is noted under its port and sender. -/
def hearMaster (m : PtpMsg) (s : State) : State :=
  modTime (fun t =>
    let same := fun f : Foreign => f.port == m.port && f.sender == m.sender
    let prev := ((t.masters.find? same).map (·.at_)).getD 0
    { t with masters := (t.masters.filter fun f => !same f && f.fresh t s.now) ++
        [{ port := m.port, sender := m.sender, data := m.master, interval := m.interval, at_ := s.now, prev := prev }] }) s

/-- What has been measured towards the master in use. -/
def Timebase.path (t : Timebase) : PtpPath := ⟨t.parent, t.lastSync, t.reqSent, t.pathDelay⟩

/-- Nothing is measured yet towards a sender. -/
def PtpPath.fresh (who : Nat) : PtpPath := ⟨who, none, none, none⟩

/-- Another master is in use: on the other port with what was measured there, else timed afresh. -/
def useMaster (f : Foreign) : State → State :=
  modTime fun t =>
    let x := if f.port = t.port then { PtpPath.fresh f.sender with delay := if f.data.gm = t.gmId then t.pathDelay else none }
             else if t.other.who = f.sender then t.other else PtpPath.fresh f.sender
    { t with gmId := f.data.gm, port := f.port, parent := f.sender, lastSync := x.sync, reqSent := x.sent, pathDelay := x.delay
             other := if f.port = t.port then t.other else t.path }

/-- The best master is selected.  A move between the named ports loses no lock where both see one grandmaster and agree; a
change of grandmaster does (R152). -/
def selectMaster (f : Foreign) (s : State) : State :=
  let t := s.time
  if f.selected t ∧ t.gmId = f.data.gm then s
  else if t.gmId = f.data.gm then
    let ok := decide (t.port = f.port) || secAgrees t f.data.gm
    let s := useMaster f s
    if ok then s else loseLock 2 s
  else
    let was := decide (t.state = .locked ∨ t.state = .slewing)
    let s := if was then loseLock 3 s else s
    let s := useMaster f s
    if was then record 4 0x0607 (u48 t.gmId ++ u48 f.data.gm) s else s

/-- An Announce: the best master is chosen again, and from the one in use the servo begins to measure (R151, R153).  The spec does
not say which message carries the synchronization metadata TLV: the UTC offset is read from an Announce, and a management message
is one of an option not supported (DESIGN CHOICE, notes/assumptions/109.md). -/
def announced (m : PtpMsg) (s : State) : State :=
  let s := hearMaster m s
  match bestMaster s.time s.now with
  | none => s
  | some f =>
    let s := selectMaster f s
    if m.port ≠ s.time.port ∨ m.sender ≠ s.time.parent then s
    else
      let s := modTime (fun t => { t with utc := m.utc.getD t.utc, utcValid := t.utcValid || m.utc.isSome }) s
      if s.time.state = .powerOn ∨ s.time.state = .holdover then modTime (fun t => { t with state := .acquiring, good := 0 }) s
      else s

/-! ### Messages -/

/-- The grandmaster that the best master heard on a port follows, where a message comes from it. -/
def portGm (m : PtpMsg) (t : Timebase) (now : Nat) : Option Nat :=
  (bestMaster { t with masters := t.masters.filter (·.port == m.port) } now).bind fun f =>
    if f.sender = m.sender then some f.data.gm else none

/-- The named port that is not in use. -/
def Timebase.otherPort (t : Timebase) : Option Nat := (t.portPri :: t.portSec.toList).find? (· ≠ t.port)

/-- A Sync of the best master heard on the other port: its offset by that port's own path delay (R151, R152). -/
def otherTimed (gm : Nat) (m : PtpMsg) (origin arrival : Nat) (s : State) : State :=
  modTime (fun t =>
    let x := { (if t.other.who = m.sender then t.other else PtpPath.fresh m.sender) with sync := some (origin, arrival) }
    match x.delay with
    | some dly => { t with other := x, secGm := some gm, secOffset := (origin : Int) + dly - arrival }
    | none => { t with other := x }) s

/-- A Sync has been timed: that of the master in use is measured, one heard on the other port is kept for a change of port. -/
def syncTimed (m : PtpMsg) (origin arrival : Nat) (s : State) : State :=
  if m.port = s.time.port then
    if m.sender ≠ s.time.parent then s
    else
      let s := modTime (fun t => { t with lastSync := some (origin, arrival) }) s
      match s.time.pathDelay with
      | some dly => measurePtp ((origin : Int) + dly - arrival) s
      | none => s
  else match portGm m s.time s.now with
    | some gm => otherTimed gm m origin arrival s
    | none => s

/-- The mean path delay of the end-to-end mechanism, from a Sync and the Delay_Req that the response answers (R151). -/
def meanPath (sync : Nat × Nat) (sent resp : Nat) : Int := ((((sync.2 : Int) - sync.1) + ((resp : Int) - sent)) / 2)

/-- A Delay_Resp to the Delay_Req last sent gives the path delay of its port. -/
def delayAnswered (m : PtpMsg) (s : State) : State :=
  let t := s.time
  if !m.ours ∨ (m.seq + 1) % 65536 ≠ t.reqSeq then s
  else if m.port = t.port then
    match t.reqSent, t.lastSync with
    | some t3, some x => modTime (fun t => { t with reqSent := none, pathDelay := some (meanPath x t3 m.origin.stamp) }) s
    | _, _ => s
  else match t.other.sent, t.other.sync with
    | some t3, some x => modTime (fun t => { t with other := { t.other with sent := none, delay := some (meanPath x t3 m.origin.stamp) } }) s
    | _, _ => s

/-- The two-step Sync of a port and sender waits for its Follow_Up (R151). -/
def waitFollowUp (m : PtpMsg) (arrival : Nat) (l : List (Nat × Nat × Nat × Nat)) : List (Nat × Nat × Nat × Nat) :=
  l.filter (fun x => !(x.1 == m.port && x.2.1 == m.sender)) ++ [(m.port, m.sender, m.seq, arrival)]

/-- A Follow_Up times the Sync of its own port, sender and sequence number (R151). -/
def followedUp (m : PtpMsg) (s : State) : State :=
  match s.time.syncTs.find? fun x => x.1 == m.port && x.2.1 == m.sender && x.2.2.1 == m.seq with
  | some x => syncTimed m m.origin.stamp x.2.2.2 (modTime (fun t => { t with syncTs := t.syncTs.erase x }) s)
  | none => s

/-- Whether a message uses only the options of Table 6.2. -/
def ptpSupported (m : PtpMsg) : Bool :=
  m.multi && decide (m.domain ≤ 127) &&
  (match m.kind with
   | .syncOne | .syncTwo => decide (-7 ≤ m.interval) && decide (m.interval ≤ -1)
   | .announce => decide (-3 ≤ m.interval) && decide (m.interval ≤ 1)
   | .other => false
   | _ => true)

/-- A PTP message, stamped at the port's PCS, that has come through the port's injection point (R151); one without the
port's tag is discarded like any other packet (R159, R174). -/
def ptpReceived (m : PtpMsg) (arrival : Nat) (s : State) : State :=
  let t := s.time
  if m.vlan ≠ ethVlan s m.port then
    { s with ingest := { s.ingest with eth := upd s.ingest.eth m.port fun e => { e with drop := bump e.drop } } }
  else if t.source ≠ 1 ∨ !(m.port == t.portPri || t.portSec == some m.port) then s
  else if !ptpSupported m then modTime (fun t => { t with ptpDrop := bump t.ptpDrop }) s
  else if m.domain ≠ t.domain then s
  else match m.kind with
    | .announce => announced m s
    | .syncOne => syncTimed m m.origin.stamp arrival s
    | .syncTwo => modTime (fun t => { t with syncTs := waitFollowUp m arrival t.syncTs }) s
    | .followUp => followedUp m s
    | .delayResp => delayAnswered m s
    | .other => s

/-- Bits of a PTP message at an Ethernet injection point (IEEE 1588 message lengths). -/
def ptpBits (k : PtpKind) : Nat :=
  match k with
  | .delayResp => 432
  | .announce => 512
  | _ => 352

def execPtpMessage (dt : Nat) (m : PtpMsg) (s : State) : Res :=
  let s := tick dt s
  let (fate, s) := meetFaults (0x30 + m.port) 2 0xFFFF m.seq (ptpBits m.kind) false s
  let (v, s) := if fate.flips.isEmpty then (m.origin, s) else
    let (v, s) := takeFree s
    (⟨v / 4000000000, v / 4 % 1000000000, v % 4⟩, s)
  let m := { m with origin := v }
  .next (throughPoint (0x30 + m.port) fate (.ptp m) (ptpReceived m s.now) s)

/-- What is left of a slew at one unit in 10,000 since the measurement that gave it (R154). -/
def slewLeft (s : State) : Nat :=
  if s.time.state = .slewing then s.time.slew - (s.now - s.time.slewFrom) / 10000 else 0

/-- A slew ends with at most 100 ns left: LOCKED, or without its source the loss of R152 (R150, R154). -/
def slewDone (s : State) : State :=
  if s.time.state ≠ .slewing ∨ 400 < slewLeft s then s
  else if s.time.source = 2 ∧ s.catum.neighbour ≠ 2 then loseLock 5 s
  else enterLocked (record 4 0x0605 (u64 (s.now - s.time.slewStart)) s)

def execSlewDone (dt : Nat) (s : State) : Res := .next (slewDone (tick dt s))

/-- The Announce receipt timeout of the master in use has run out: the other named port takes over where it agrees, else the
lock is lost (R152). -/
def announceTimeout (s : State) : State :=
  let t := s.time
  if t.source ≠ 1 ∨ t.masters.any (fun f => f.selected t && f.fresh t s.now) then s
  else
    let s := modTime (fun t => { t with masters := t.masters.filter fun f => !f.selected t }) s
    match bestMaster s.time s.now with
    | some f => if f.port ≠ t.port ∧ secAgrees t f.data.gm then selectMaster f s else loseLock 1 s
    | none => loseLock 1 s

def execAnnounceTimeout (dt : Nat) (s : State) : Res := .next (announceTimeout (tick dt s))

/-- A Delay_Req of the end-to-end mechanism, with the port's address and tag and the DSCP of Table 6.4 (R151, R159). -/
def sendDelayReq (port : Nat) (s : State) : State :=
  ethSend port (.delayReq (ethAddr s port) s.time.dscp s.time.reqSeq) s

/-- A Delay_Req goes to the master in use, and to the one heard on the other named port, whose offset is measured too (R152;
DEDUCED, notes/assumptions/107.md). -/
def delayReqSend (s : State) : State :=
  let t := s.time
  let mine := t.source == 1 && t.lastSync.isSome
  let its := t.otherPort.filter fun _ => t.source == 1 && t.other.sync.isSome
  let s := if mine then sendDelayReq t.port (modTime (fun t => { t with reqSent := some s.now }) s) else s
  let s := match its with
    | some p => sendDelayReq p (modTime (fun t => { t with other := { t.other with sent := some s.now } }) s)
    | none => s
  if mine || its.isSome then modTime (fun t => { t with reqSeq := (t.reqSeq + 1) % 65536 }) s else s

def execDelayReqSend (dt : Nat) (s : State) : Res := .next (delayReqSend (tick dt s))

/-! ### PTP_CFG and STAMP_READ -/

def ptpBad (d : Desc) (_ : State) : Option (List Byte) :=
  badField [(decide (2 < d.p8 16), 16), (decide (3 < d.p8 17), 17), (decide (3 < d.p8 18 ∧ d.p8 18 ≠ 0xFF), 18),
            (decide (127 < d.p8 19), 19), (decide (d.p8 20 < 2 ∨ 10 < d.p8 20), 20), (decide (63 < d.p8 21), 21),
            (decide (4094 < d.p16 22), 22)]

/-- The checks of R159, whatever the SOURCE: the ports it names, a Catum Link port, VLAN. -/
def ptpCheck (d : Desc) (s : State) : Option (Nat × List Byte) :=
  let sec := decide (d.p8 18 ≠ 0xFF)
  firstBad [(!ethEnabled s (d.p8 17), 0x680, u16 17),
            (sec && !ethEnabled s (d.p8 18), 0x680, u16 18),
            (decide (d.p8 16 = 2) && !s.catum.ports.any (·.enabled), 0x680, u16 16),
            (ethVlan s (d.p8 17) != d.p16 22 || (sec && ethVlan s (d.p8 18) != d.p16 22), 0x680, u16 22)]

/-- The Ethernet ports that PTP uses. -/
def Timebase.ptpPorts (t : Timebase) : List Nat := if t.source = 1 then t.portPri :: t.portSec.toList else []

/-- Membership of the PTP group 224.0.1.129 (R151, R174). -/
def ptpGroup (join : Bool) (l : List Nat) : State → State := forEach l fun p => igmpReport p 0xE0000181 0 join

/-- TIME_SOURCE: the source, and the device whose count the module follows (R158, R161). -/
def timeSource (s : State) : State :=
  record 4 0x0608 (u8 s.time.source ++ u8 0 ++ u16 (if s.time.source = 2 then s.catum.master else catDevice s)) s

/-- PTP_CFG applies (R150, R159). -/
def applyPtp (d : Desc) (s : State) : State :=
  let changed := decide (s.time.source ≠ d.p8 16)
  let old := s.time.ptpPorts
  let s := if changed then loseLock 4 s else s
  let s := modTime (fun t => { t with
    source := d.p8 16
    state := if changed && d.p8 16 == 0 then t.fallen else t.state
    portPri := d.p8 17
    portSec := if d.p8 18 = 0xFF then none else some (d.p8 18)
    domain := d.p8 19
    annTimeout := d.p8 20
    dscp := d.p8 21
    vlan := d.p16 22
    port := d.p8 17
    lastSync := none
    syncTs := []
    reqSent := none
    pathDelay := none
    other := PtpPath.fresh 0
    masters := []
    parent := 0
    secGm := none }) s
  let new := s.time.ptpPorts
  let s := ptpGroup false (old.filter fun p => !new.contains p) s
  let s := ptpGroup true (new.filter fun p => !old.contains p) s
  let s := if changed then timeSource s else s
  complete d 0 [] s

def execPtpCfg (dt : Nat) (d : Desc) (s : State) : Res :=
  .next (runDesc (specI3 0x1701 (span 24 63)) d ptpBad noOver
    (fun d s => orElseDo d (ptpCheck d s) (applyPtp d) s) (tick dt s))

/-- TMB_STAT bits 15:0 (Table 6.7). -/
def tmbStat (s : State) : Nat :=
  let t := s.time
  let st := match t.state with
    | .powerOn => 0
    | .acquiring => 1
    | .locked => 2
    | .holdover => 3
    | .slewing => 4
  st + 16 * t.source + 256 * bit (freeRun s) + 512 * t.port + 2048 * bit t.utcValid + 4096 * bit t.refused

def execStampRead (dt : Nat) (d : Desc) (s : State) : Res :=
  .next (runDesc (specI0 0x1702 []) d noBad noOver
    (fun d s => complete d 0 (u16 (tmbStat s) ++ u16 s.time.utc) s) (tick dt s))

end Sys2Proof.Machine
end

