-- ==== Sys2Proof/Machine/Ingest.lean ====
section
/-!
DEFINITION. Ingest (chapter 7): opening and closing flows (R163 to R165, R172), frames (R166 to R169), freeze, fallback
and resumption (R170, R171), the Ethernet ports (R174 to R178), the DisplayPort sinks (R179, R180), host push (R181) and
packet groups (R182).
-/

namespace Sys2Proof.Machine

/-! ### Formats and instants -/

/-- Samples of one line, and of a frame. -/
def FlowCfg.lineSamples (c : FlowCfg) : Nat := c.width * perPixel c.sampling

def FlowCfg.samples (c : FlowCfg) : Nat := c.lineSamples * c.height

/-- The frame size of the declared format in the layout of R186. -/
def FlowCfg.frameSize (c : FlowCfg) : Nat := defPitch c.sampling c.depth c.width * c.height

/-- Handles of the chain. -/
def FlowCfg.chain (c : FlowCfg) : List Nat := (List.range c.chainLen).map (· + c.chainBase)

/-- The open flow of a context, or a closed one whose layers still follow R170 (R172). -/
def lookFlow (s : State) (ctx : Nat) : Option Flow :=
  match flowOf s ctx with
  | some f => some f
  | none => getKey ctx s.ingest.closed

/-- Change a flow, open or closed. -/
def modAnyFlow (ctx : Nat) (g : Flow → Flow) (s : State) : State :=
  match flowOf s ctx with
  | some f => setFlow ctx (g f) s
  | none =>
    match getKey ctx s.ingest.closed with
    | some f => { s with ingest := { s.ingest with closed := setKey ctx (g f) s.ingest.closed } }
    | none => s

/-- The configured heads with an enabled layer fed by a flow. -/
def fedHeads (s : State) (ctx : Nat) : List Nat :=
  (List.range 8).filter fun k => configured s k &&
    (headOf s k).pipe.layers.any fun l => l.2.enable && l.2.srcFlow && l.2.source == ctx

/-- A chain brings a new frame or its fallback: an exit cause for the heads it feeds (R324). -/
def chainChanged (ctx : Nat) (s : State) : State :=
  forEach (fedHeads s ctx) (fun k s => exitCause k 2 s.now s) s

/-! ### FLOW_OPEN and FLOW_CLOSE -/

/-- The port code of Table 7.2 as a flow keeps it: 0 to 3 Ethernet, 4 and 5 DisplayPort, 6 host push. -/
def flowPort (source p : Nat) : Nat := if source < 2 then p else if source = 2 then 4 + p else 6

def flowCfgOf (d : Desc) : FlowCfg :=
  let src := d.p8 16
  { source := src, portPri := flowPort src (d.p8 17), portSec := if 1 < src ∨ d.p8 18 = 0xFF then none else some (d.p8 18),
    stampLog := bitOf (d.p8 19) 0, width := d.p16 20, height := d.p16 22, sampling := d.p8 24, depth := d.p8 25,
    packing := d.p8 26, freeze := d.p8 27, groupPri := d.p32 28, groupSec := d.p32 32, udpPri := d.p16 36,
    udpSec := d.p16 38, srcPri := d.p32 40, srcSec := d.p32 44, rateN := d.p32 48, rateD := d.p32 52,
    chainBase := d.p16 56, chainLen := d.p8 58, pt := d.p8 59, window := d.p16 60, stampExh := d.p16 62 }

/-- A context that an open flow holds (R163).  A capture session names none: with at most 578 flows and 48 sessions the 1,024
contexts never run out (notes/assumptions/71.md). -/
def ctxInUse (s : State) (ctx : Nat) : Bool := (flowOf s ctx).isSome

/-- Bytes per line of the exhibit a flow writes: its PITCH where it declares the same picture, else the default. -/
def flowPitch (c : FlowCfg) (e : Exhibit) : Nat :=
  if e.kind = 0 ∧ e.sampling = c.sampling ∧ e.depth = c.depth ∧ e.width = c.width then e.pitch
  else defPitch c.sampling c.depth c.width

/-- A chain handle that R165 refuses. -/
def chainBad (s : State) (c : FlowCfg) (h : Nat) : Bool :=
  match exhOf s h with
  | none => true
  | some e => e.archive || decide (e.size < if c.source = 1 then 16 else flowPitch c e * c.height) || (inChain s h).isSome ||
      s.ingest.flows.any fun f => f.2.cfg.stampLog && f.2.cfg.stampExh == h

/-- A stamp log exhibit that R165 refuses. -/
def stampBad (s : State) (c : FlowCfg) : Bool :=
  c.stampLog && match exhOf s c.stampExh with
  | none => true
  | some e => e.archive || e.kind != 1 || decide (e.size < 16384) || (inChain s c.stampExh).isSome ||
      (headOwned s c.stampExh).isSome || s.ingest.flows.any fun f => f.2.cfg.stampLog && f.2.cfg.stampExh == c.stampExh

def flowOpenBad (d : Desc) (s : State) : Option (List Byte) :=
  let c := flowCfgOf d
  if ctxInUse s d.context || c.chain.any (chainBad s c) || stampBad s c then some [] else none

/-- Bytes that must be zero where a condition holds: whether one is not, and the first such. -/
def mustBeZero (cond : Bool) (d : Desc) (a b : Nat) : Bool × Nat :=
  let x := firstNonZero d (span a b)
  (cond && x.isSome, x.getD a)

/-- Table 7.2: the offset of the first byte that breaks a rule; bytes a source does not use must be zero (R164). -/
def flowFormatBad (d : Desc) (s : State) : Option Nat :=
  let src := d.p8 16
  let eth := decide (src < 2)
  let anc := decide (src = 1)
  let sec := eth && decide (d.p8 18 ≠ 0xFF)
  let n := d.p32 48
  let q := d.p32 52
  let pics := !anc
  (List.find? (·.1)
    [(decide (3 < src), 16),
     (decide ((if src < 2 then 3 else if src = 2 then 1 else 0) < d.p8 17), 17),
     (if eth then decide (3 < d.p8 18 ∧ d.p8 18 ≠ 0xFF) else decide (d.p8 18 ≠ 0), 18),
     (decide (1 < d.p8 19), 19),
     (if anc then !(flowOf s (d.p16 20)).any (fun f => f.cfg.source == 0)
      else decide (d.p16 20 < 16 ∨ 8192 < d.p16 20) || (decide (d.p8 24 = 2) && decide (d.p16 20 % 2 = 1)), 20),
     mustBeZero anc d 22 23,
     (!anc && decide (d.p16 22 < 16 ∨ 4320 < d.p16 22), 22),
     (decide ((if pics then 2 else 0) < d.p8 24), 24),
     (if anc then decide (d.p8 25 ≠ 0) else !([8, 10, 12, 16].contains (d.p8 25)), 25),
     (decide ((if src = 0 then 1 else 0) < d.p8 26), 26),
     (anc && decide (d.p8 27 ≠ 0), 27),
     mustBeZero (!eth) d 28 31,
     mustBeZero (!sec) d 32 35,
     mustBeZero (!eth) d 36 37,
     mustBeZero (!sec) d 38 39,
     mustBeZero (!eth) d 40 43,
     mustBeZero (!sec) d 44 47,
     (decide (n * 1001 < 24000 * q) || decide (480 * q < n) || decide (q = 0), 48),
     (decide (16383 < d.p16 56), 57),
     (decide (d.p8 58 < 2 ∨ 16 < d.p8 58 ∨ 16384 < d.p16 56 + d.p8 58), 58),
     (if eth then decide (d.p8 59 < 96 ∨ 127 < d.p8 59) else decide (d.p8 59 ≠ 0), 59),
     (decide (d.p16 60 < 1 ∨ 2000 < d.p16 60), 60),
     mustBeZero (!bitOf (d.p8 19) 0) d 62 63]).map (·.2)

/-- Whether a port is stopped (R173). -/
def ingestStopped (s : State) (p : Nat) : Bool := s.host.ingestStop || portStopped s p

/-- A port that cannot take one more flow (R163, R173). -/
def portTaken (s : State) (p : Nat) : Bool :=
  ingestStopped s p || decide ((if p < 4 then 128 else if p < 6 then 1 else 64) ≤ flowsOn s p)

/-- Budget units of a flow (R197); an ancillary flow declares no picture and costs none. -/
def flowUnits (s : State) (c : FlowCfg) : List (Nat × Nat) :=
  if c.source = 1 then []
  else
    let f := if c.source = 0 then 106 else if c.source = 2 then 125 else 100
    let u := ceilDiv (c.samples * c.depth * c.rateN * f) (c.rateD * 100000000000)
    c.ports.map (fun p => (37 + p, u)) ++ hbmCost s (c.frameSize * 8 * c.rateN) c.rateD c.chain

def newFlow (c : FlowCfg) (d : Desc) (now : Nat) : Flow :=
  { cfg := c, desc := d, state := .live, frameNo := 0, begunAny := false, lastStart := 0, lastRtp := 0, closedRtps := [],
    starvedRtps := [], frames := [], lostPri := false, lostSec := false,
    newest := none, fresh := [], frozenAt := none, openFrame := none, starveRun := false, incomplete := 0, whey := 0,
    midframe := 0, starved := 0, dup := 0, pathPri := false, pathSec := false, lastPri := now, lastSec := now,
    group := none, logIdx := 0, closing := none, due := [], nextSeq := none, attached := decide (c.source = 1) }

def openFlow (d : Desc) (s : State) : State :=
  let c := flowCfgOf d
  let s := { s with ingest := { s.ingest with closed := dropKey d.context s.ingest.closed } }
  let s := setFlow d.context (newFlow c d s.now) s
  let s := forEach c.groups (fun g => igmpReport g.1 g.2.1 g.2.2 true) s
  complete d 0 [] s

def flowOpenAct (d : Desc) (s : State) : State :=
  match flowFormatBad d s with
  | some o => complete d 0x780 (u16 o) s
  | none =>
    let c := flowCfgOf d
    match c.ports.find? (portTaken s) with
    | some p => complete d 0x783 (u8 (if p = c.portPri then d.p8 17 else d.p8 18)) s
    | none => admitDesc (.flow d.context) d (flowUnits s c) (openFlow d) s

def execFlowOpen (dt : Nat) (d : Desc) (s : State) : Res :=
  .next (runDesc (specAdm 0x0401 []) d flowOpenBad noOver flowOpenAct (tick dt s))

def flowBad (d : Desc) (s : State) : Option (List Byte) := if (flowOf s d.context).isNone then some [] else none

/-- FLOW_CLOSE waits for the next frame start while one is due, else takes effect at once; a second one waits beside the
first (R172). -/
def flowCloseAct (d : Desc) (s : State) : State :=
  match flowOf s d.context with
  | none => complete d 0 [] s
  | some f =>
    let s := setFlow d.context { f with closing := some (f.closing.getD [] ++ [d]) } s
    if f.idle s then endFlow d.context s else s

def execFlowClose (dt : Nat) (d : Desc) (s : State) : Res :=
  .next (runDesc (specI0 0x0402 (span 16 63)) d flowBad noOver flowCloseAct (tick dt s))

/-! ### Frames -/

/-- The exhibit for a new frame: the lowest FREE handle of the chain, else the unpinned READY one with the lowest frame
number (R166). -/
def pickExh (s : State) (c : FlowCfg) : Option Nat :=
  let es := c.chain.filterMap fun h => (exhOf s h).map fun e => (h, e)
  match es.find? fun x => x.2.state = .free with
  | some x => some x.1
  | none =>
    (es.filter fun x => x.2.state = .ready ∧ x.2.pins.isEmpty).foldl (fun b x =>
      match b with
      | none => some x
      | some y => if x.2.number < y.2.number then some x else b) none |>.map (·.1)

/-- Whole flow frame periods, to the nearest, in an advance of RTP ticks of the 90 kHz clock (R171). -/
def rtpPeriods (c : FlowCfg) (ticks : Nat) : Nat := (2 * ticks * c.rateN + 90000 * c.rateD) / (2 * 90000 * c.rateD)

/-- The number of the next frame begun (R166). -/
def Flow.nextNumber (f : Flow) : Nat := if f.begunAny then (f.frameNo + 1) % 2 ^ 32 else 0

/-- A frame begins, T_start being the stamp `arr` of its first group, line or push (R168): its number is consumed, an exhibit is
chosen or the frame is starved, and a flow that was not LIVE records FLOW_RESUME (R166, R171); the group of the frame before
it ends (R182), and a READY exhibit it takes is no longer among the complete frames.  Its first sequence number is known where
the frame one period before it ended at a marker (R167). -/
def startFrame (ctx rtp arr : Nat) (s : State) : State :=
  let s := endGroup ctx s
  match flowOf s ctx with
  | none => s
  | some f =>
    let n := f.nextNumber
    let adv := if f.cfg.source < 2 ∧ f.begunAny then rtpPeriods f.cfg ((rtp + 2 ^ 32 - f.lastRtp) % 2 ^ 32) else 0
    let s := if f.state = .live then s else record (flowUnit f) 0x0704 (u16 ctx ++ u16 0 ++ u32 n ++ u32 adv) s
    let e := pickExh s f.cfg
    let o : OpenFrame := { number := n, exh := e, tStart := arr, rtp := rtp, got := [], endSeen := false, lastLine := none,
                           anc := 0, seqs := [], first := if adv = 1 then f.nextSeq else none, cut := false }
    let due := match f.openFrame with
      | some p => f.due ++ [(p.tStart, some p)]
      | none => f.due
    let fresh := f.fresh.filter fun x => e ≠ some x.2.1
    let f := { f with frameNo := n, begunAny := true, lastStart := arr, lastRtp := rtp, openFrame := some o, due := due,
                      nextSeq := none, frames := (rtp, n) :: f.frames, fresh := fresh, newest := fresh.head?.map (·.2),
                      starveRun := e.isNone, starved := if e.isNone then bump f.starved else f.starved }
    match e with
    | some h => modExh h (fun x => { x with state := .filling }) (setFlow ctx f s)
    | none =>
      let told := (flowOf s ctx).any (·.starveRun)
      let s := setFlow ctx f s
      if told then s else record (flowUnit f) 0x0709 (u16 ctx ++ u16 0 ++ u32 n) s

/-- A flow that is to stop ends at a frame start (R172); true where the flow is gone or a new frame may not begin. -/
def stopAtStart (ctx : Nat) (s : State) : Bool × State :=
  match flowOf s ctx with
  | none => (true, s)
  | some f =>
    if f.closing.isNone then (false, s)
    else if f.openFrame.isNone && f.due.all (·.2.isNone) then (true, endFlow ctx s) else (true, s)

/-- A frame completes: its exhibit is READY with the frame number, the flow is LIVE (R167, R171). -/
def completeFrame (ctx : Nat) (s : State) : State :=
  match flowOf s ctx with
  | none => s
  | some f =>
    match f.openFrame with
    | none => s
    | some o =>
      let f := { f with openFrame := none }
      match o.exh with
      | none => setFlow ctx { f with starvedRtps := (o.rtp :: f.starvedRtps).take 8 } s
      | some h =>
        let s := setFlow ctx { f with closedRtps := (o.rtp :: f.closedRtps).take 8
                                      newest := some (h, o.number), fresh := ((s.now, h, o.number) :: f.fresh).take 16,
                                      state := .live, frozenAt := none } s
        let s := modExh h (fun x => { x with state := .ready, number := o.number }) s
        chainChanged ctx (runHeld h 0xFFFFFFFF s)

/-- A LIVE flow enters FROZEN, and a frame open at that instant takes no more data; an ancillary flow has no freeze (R170, R171,
R176). -/
def freezeFlow (ctx : Nat) (s : State) : State :=
  match lookFlow s ctx with
  | none => s
  | some f =>
    if f.state = .live ∧ f.cfg.source ≠ 1 then
      record (flowUnit f) 0x0702 (u16 ctx ++ u16 0 ++ u32 (f.newest.elim 0xFFFFFFFF (·.2)))
        (modAnyFlow ctx (fun f => { f with state := .frozen, frozenAt := some s.now,
                                           openFrame := f.openFrame.map fun o => { o with cut := true } }) s)
    else s

/-- At a frame deadline, of an open flow or of one that has closed: a superseded frame's comes first, then the open frame's; a
stopping flow with nothing open ends (R168, R170, R172). -/
def deadline (ctx : Nat) (s : State) : State :=
  match lookFlow s ctx with
  | none => s
  | some f =>
    let c := f.cfg
    match f.due with
    | (t, o) :: rest =>
      if flowReached s c t 1 c.window then
        let s := modAnyFlow ctx (fun f => { f with due := rest }) s
        match o with
        | none => freezeFlow ctx s
        | some o => if o.exh.isNone then closeOne ctx 1 o s else freezeFlow ctx (closeOne ctx 1 o s)
      else s
    | [] =>
      match f.openFrame with
      | some o =>
        if flowReached s c o.tStart 1 c.window then
          let s := closeFrame ctx 1 s
          let s := if o.exh.isNone then s else freezeFlow ctx s
          if f.closing.isSome then endFlow ctx s else s
        else s
      | none =>
        if f.closing.isSome && (!f.begunAny || flowReached s c f.lastStart 1 c.window) then endFlow ctx s else s

def execFrameDeadline (dt ctx : Nat) (s : State) : Res := .next (deadline ctx (tick dt s))

def execFlowStall (dt ctx : Nat) (s : State) : Res :=
  let s := tick dt s
  match lookFlow s ctx with
  | none => .next s
  | some f =>
    if f.begunAny && flowReached s f.cfg f.lastStart 2 f.cfg.window then .next (freezeFlow ctx s) else .next s

def execFlowFallback (dt ctx : Nat) (s : State) : Res :=
  let s := tick dt s
  match lookFlow s ctx with
  | none => .next s
  | some f =>
    match f.state, f.frozenAt with
    | .frozen, some t =>
      if flowReached s f.cfg t f.cfg.freeze 0 then
        let s := modAnyFlow ctx (fun f => { f with state := .fallback }) s
        .next (chainChanged ctx (record (flowUnit f) 0x0703 (u16 ctx) s))
      else .next s
    | _, _ => .next s

/-! ### Packet groups and the stamp log -/

/-- A packet that arrived at a port at stamp t joins the group being collected, or begins one; the group ends at 32 packets, and
at the packet or line that ends its frame (R156, R182). -/
def joinGroup (ctx first t : Nat) (start fin sec : Bool) (s : State) : State :=
  match flowOf s ctx with
  | none => s
  | some f =>
    let s := match f.group with
      | some g => if start || decide (g.last + usec ≤ t) then endGroup ctx s else s
      | none => s
    let s := modFlow ctx (fun f =>
      let g := f.group.getD { stamp := t, first := first, count := 0, pri := false, sec := false, start := start,
                              fin := false, last := t }
      { f with group := some { g with count := g.count + 1, pri := g.pri || !sec, sec := g.sec || sec, fin := fin, last := t } }) s
    if (flowOf s ctx).any (fun f => f.group.any fun g => fin || decide (32 ≤ g.count)) then endGroup ctx s else s

def execPacketGroupEnd (dt ctx : Nat) (s : State) : Res :=
  let s := tick dt s
  match (flowOf s ctx).bind (·.group) with
  | some g => if g.last + usec ≤ s.now then .next (endGroup ctx s) else .next s
  | none => .next s

/-! ### Writing samples -/

/-- Insert a sample range into merged rising ranges. -/
def addRange (a b : Nat) : List (Nat × Nat) → List (Nat × Nat)
  | [] => [(a, b)]
  | r :: rs =>
    if r.2 < a then r :: addRange a b rs
    else if b < r.1 then (a, b) :: r :: rs
    else addRange (min a r.1) (max b r.2) rs

/-- A sample as R186 stores it: one byte at DEPTH 8, else two, MSB-aligned. -/
def sampleBytes (depth v : Nat) : List Byte := if depth = 8 then u8 v else u16 (v % 2 ^ depth * 2 ^ (16 - depth))

/-- One row of samples is written and noted (R167). -/
def writeRow (ctx line first : Nat) (vs : List Nat) (s : State) : State :=
  match flowOf s ctx with
  | none => s
  | some f =>
    match f.openFrame with
    | none => s
    | some o =>
      let c := f.cfg
      let s := match o.exh.bind fun h => exhOf s h with
        | none => s
        | some e =>
          writeInternal (e.base + line * flowPitch c e + first * (if c.depth = 8 then 1 else 2))
            (vs.flatMap (sampleBytes c.depth)) s
      let a := line * c.lineSamples + first
      setFlow ctx { f with openFrame := some { o with got := if vs.isEmpty then o.got else addRange a (a + vs.length) o.got,
                                                      lastLine := some (max line (o.lastLine.getD 0)) } } s

/-- All data written and the end seen (R167). -/
def frameFull (f : Flow) : Bool :=
  f.openFrame.any fun o => o.endSeen && decide (o.got = [(0, f.cfg.samples)])

/-! ### Ethernet (R174 to R178) -/

def ethOf (s : State) (k : Nat) : EthPort := s.ingest.eth.getD k Reset.ethPort

def ethDrop (k : Nat) : State → State := modEth k fun e => { e with drop := bump e.drop }

/-- Whether a port receives: enabled, and not stopped with its link down (R173, R174). -/
def ethRuns (s : State) (k : Nat) : Bool := ethEnabled s k && (!(ethOf s k).stopped || (ethOf s k).link)

/-- The flow a packet belongs to, with its path: true for the secondary (R163, R177). -/
def matchFlow (s : State) (k : Nat) (p : EthPkt) : Option (Nat × Bool) :=
  s.ingest.flows.findSome? fun x =>
    let c := x.2.cfg
    if 1 < c.source then none
    else if c.portPri = k ∧ c.groupPri = p.dst ∧ c.udpPri = p.udp ∧ (c.srcPri = 0 ∨ c.srcPri = p.src) then some (x.1, false)
    else if c.portSec = some k ∧ c.groupSec = p.dst ∧ c.udpSec = p.udp ∧ (c.srcSec = 0 ∨ c.srcSec = p.src) then
      some (x.1, true)
    else none

/-- A packet of a flow arrives on a path: a lost path is restored (R178). -/
def pathHeard (ctx k : Nat) (sec : Bool) (s : State) : State :=
  match flowOf s ctx with
  | none => s
  | some f =>
    let lost := if sec then f.lostSec else f.lostPri
    let s := setFlow ctx (if sec then { f with pathSec := true, lostSec := false, lastSec := s.now }
                          else { f with pathPri := true, lostPri := false, lastPri := s.now }) s
    if lost then record (flowUnit f) 0x0706 (u16 ctx ++ u8 k) s else s

/-- The extended sequence numbers received of an ancillary frame leave no gap from its first one; where the packet before it was
not seen, its earliest counts as its first (R167, R176; notes/assumptions/112.md). -/
def noGap (o : OpenFrame) : Bool :=
  (match o.first with
    | some a => [a]
    | none => o.seqs).any fun a => o.seqs.all fun q => decide ((q + 2 ^ 32 - a) % 2 ^ 32 < o.seqs.length)

/-- An ancillary frame ends: its header is written; the frame number is that of the video flow it attached to, while that is open
(R176). -/
def endAnc (ctx : Nat) (s : State) : State :=
  match flowOf s ctx with
  | none => s
  | some f =>
    match f.openFrame with
    | none => s
    | some o =>
      let video := if f.attached then flowOf s f.cfg.width else none
      let n := (video.bind fun v => getKey o.rtp v.frames).getD 0xFFFFFFFF
      let s := match o.exh.bind fun h => exhOf s h with
        | some e => writeInternal e.base (u64 o.rtp ++ u32 n ++ u32 o.anc) s
        | none => s
      completeFrame ctx s

/-- A packet's data goes into the open frame (R167, R175, R176). -/
def takePacket (ctx arr : Nat) (sec : Bool) (p : EthPkt) (s : State) : State :=
  match flowOf s ctx with
  | none => s
  | some f =>
    match f.openFrame with
    | none => s
    | some o =>
      let first := o.seqs.isEmpty
      let s := setFlow ctx { f with openFrame := some { o with seqs := p.seq :: o.seqs, endSeen := o.endSeen || p.marker }
                                    nextSeq := if p.marker then some ((p.seq + 1) % 2 ^ 32) else f.nextSeq } s
      let s := if f.cfg.stampLog then joinGroup ctx p.seq arr first p.marker sec s else s
      if f.cfg.source = 1 then
        let s := match o.exh.bind fun h => exhOf s h with
          | some e => writeInternal (e.base + 16 + o.anc) p.anc s
          | none => s
        let s := modFlow ctx (fun f => { f with openFrame := f.openFrame.map fun o => { o with anc := o.anc + p.anc.length } }) s
        if (flowOf s ctx).any (fun f => f.openFrame.any fun o => o.endSeen && noGap o) then endAnc ctx (endGroup ctx s) else s
      else
        let s := forEach p.rows (fun r s => writeRow ctx r.line (r.offset * perPixel f.cfg.sampling) r.samples s) s
        if (flowOf s ctx).any frameFull then completeFrame ctx (endGroup ctx s) else s

/-- Rows outside WIDTH x HEIGHT, more than three row headers, or ancillary data that the exhibit cannot hold (R175). -/
def rowsOutside (s : State) (f : Flow) (p : EthPkt) : Bool :=
  if f.cfg.source = 1 then
    match f.openFrame.bind fun o => o.exh.bind fun h => (exhOf s h).map fun e => (o, e) with
    | some (o, e) => decide (e.size < 16 + o.anc + p.anc.length)
    | none => false
  else decide (3 < p.rows.length) || p.rows.any fun r =>
    decide (f.cfg.height ≤ r.line) ||
      decide (f.cfg.lineSamples < r.offset * perPixel f.cfg.sampling + r.samples.length)

/-- Late data: of a closed frame, or before the open frame's timestamp (R168). -/
def isLate (f : Flow) (rtp : Nat) : Bool :=
  f.closedRtps.contains rtp || f.due.any (fun x => x.2.any fun o => o.exh.isSome && o.rtp == rtp) ||
  f.openFrame.any fun o => decide (rtp ≠ o.rtp) && decide ((o.rtp + 2 ^ 32 - rtp) % 2 ^ 32 < 2 ^ 31)

/-- A packet of a starved frame that is over: discarded, and not whey (R166). -/
def ofStarved (f : Flow) (rtp : Nat) : Bool :=
  f.starvedRtps.contains rtp || f.due.any (fun x => x.2.any fun o => o.exh.isNone && o.rtp == rtp)

/-- A FROZEN or FALLBACK flow without a frame begun since: what arrives is discarded and counted in ING_FLOW_MIDFRAME (R171). -/
def Flow.waits (f : Flow) : Bool := f.state != .live && f.openFrame.all (·.cut)

/-- Data of a flow that waits for a frame start (R171). -/
def midframe (ctx : Nat) : State → State := modFlow ctx fun f => { f with midframe := bump f.midframe }

/-- A packet that matched a flow: drop, late, duplicate, mid-frame, frame start or data (R168, R171, R175, R177).  A second copy
that comes once its frame has closed counts as late only, not in ING_FLOW_DUP (DESIGN CHOICE, notes/assumptions/111.md). -/
def flowPacket (ctx k arr : Nat) (sec : Bool) (p : EthPkt) (s : State) : State :=
  match flowOf s ctx with
  | none => s
  | some f =>
    if p.pt ≠ f.cfg.pt ∨ rowsOutside s f p then ethDrop k s
    else if ofStarved f p.rtp then s
    else if isLate f p.rtp then
      if f.waits then midframe ctx s
      else modEth k (fun e => { e with whey := bump e.whey }) (setFlow ctx { f with whey := bump f.whey } s)
    else match f.openFrame with
      | some o =>
        if o.rtp = p.rtp then
          if o.cut then midframe ctx s
          else if o.seqs.contains p.seq then setFlow ctx { f with dup := bump f.dup } s else takePacket ctx arr sec p s
        else begin_ f s
      | none => begin_ f s
where
  /-- A packet with a new timestamp: a frame start, unless the flow is not LIVE and the packet not the first of one. -/
  begin_ (f : Flow) (s : State) : State :=
    let first := f.cfg.source = 1 ∨ (p.rows.head?.any fun r => r.line == 0 && r.offset == 0)
    if f.state ≠ .live ∧ ¬ first then midframe ctx s
    else
      let (gone, s) := stopAtStart ctx s
      if gone then s else takePacket ctx arr sec p (startFrame ctx p.rtp arr s)

/-- A packet, stamped at the port's PCS, that has passed the injection point (R156, R174, R175). -/
def ethReceived (k : Nat) (p : EthPkt) (arr : Nat) (s : State) : State :=
  if p.cls = 2 then s
  else match matchFlow s k p with
    | none => ethDrop k s
    | some (ctx, sec) => flowPacket ctx k arr sec p (pathHeard ctx k sec s)

/-- The effect of inverted bits of the UDP payload on a big-endian field of n bytes at byte o. -/
def beFlip (flips : List Nat) (o n v : Nat) : Nat :=
  flips.foldl (fun v b => if o ≤ b / 8 ∧ b / 8 < o + n then Nat.xor v (2 ^ (8 * (n - 1 - (b / 8 - o)) + b % 8)) else v) v

/-- What a packet becomes when bits of it are inverted: the RTP header exactly, row data by Config (R528, R532). -/
def corruptEth (flips : List Nat) (p : EthPkt) : EthPkt :=
  if flips.isEmpty then p
  else
    let mpt := beFlip flips 1 1 (p.pt + 128 * bit p.marker)
    let f := Config.corruptPacket flips
    { p with
      pt := mpt % 128
      marker := decide (128 ≤ mpt)
      seq := beFlip flips 2 2 (p.seq % 65536) + 65536 * beFlip flips 12 2 (p.seq / 65536)
      rtp := beFlip flips 4 4 p.rtp
      rows := if flips.any (fun b => decide (112 ≤ b)) then
          p.rows.map fun r => { r with samples := r.samples.map fun v => f v % 65536 }
        else p.rows
      anc := if flips.any (fun b => decide (112 ≤ b)) then p.anc.map (fun v => BitVec.ofNat 8 (f v.toNat)) else p.anc }

/-- Frame checks of a port: FCS, size and VLAN (R174). -/
def ethFits (s : State) (k : Nat) (p : EthPkt) : Bool :=
  let jumbo := decide (regField s (0x00200010 + 64 * k) 13 1 = 1)
  p.fcsOk && decide (p.size ≤ if jumbo then 9022 else 1522) && decide (p.vlan = ethVlan s k)

def execEthPacket (dt port : Nat) (p : EthPkt) (s : State) : Res :=
  let s := tick dt s
  if !ethRuns s port then .next s
  else if !ethFits s port p then .next (ethDrop port s)
  else
    let bits_ := 8 * (p.size - if p.vlan = 0 then 46 else 50)
    let ctx := ((matchFlow s port p).map (·.1)).getD 0x400
    let (fate, s) := meetFaults (0x30 + port) p.cls ctx p.seq bits_ false s
    let p := corruptEth fate.flips p
    .next (throughPoint (0x30 + port) fate (.eth p) (ethReceived port p s.now) s)

/-- A port answers ARP and echo requests for its own address (R174). -/
def arpReceived (k addr : Nat) (arp : Bool) (s : State) : State :=
  if addr = ethAddr s k then ethSend k (if arp then .arp addr else .icmp addr) s else s

def execEthArpIcmp (dt port addr : Nat) (arp : Bool) (s : State) : Res :=
  let s := tick dt s
  if !ethRuns s port then .next s
  else
    let (fate, s) := meetFaults (0x30 + port) 3 0x400 0 0 false s
    .next (throughPoint (0x30 + port) fate (.arp addr arp) (arpReceived port addr arp) s)

/-- PATH_LOST: no packet on one path, since its last one or FLOW_OPEN, for 100 ms while the other receives (R178). -/
def execPathLost (dt ctx : Nat) (secondary : Bool) (s : State) : Res :=
  let s := tick dt s
  match flowOf s ctx with
  | none => .next s
  | some f =>
    let (lost, last, up, other) :=
      if secondary then (f.lostSec, f.lastSec, f.pathPri, f.lastPri) else (f.lostPri, f.lastPri, f.pathSec, f.lastSec)
    match f.cfg.portSec with
    | none => .next s
    | some p2 =>
      if !lost && decide (last + 100 * msec ≤ s.now) && up && decide (s.now < other + 100 * msec) then
        let s := setFlow ctx (if secondary then { f with pathSec := false, lostSec := true }
                              else { f with pathPri := false, lostPri := true }) s
        .next (record (flowUnit f) 0x0705 (u16 ctx ++ u8 (if secondary then p2 else f.cfg.portPri)) s)
      else .next s

/-- The link state of an Ethernet port; a stopped port holds its link down, a lost link loses held packets (R173, R535). -/
def execEthLinkChange (dt port : Nat) (link fec : Bool) (s : State) : Res :=
  let s := tick dt s
  let up := link && ethRuns s port
  let s := if (ethOf s port).link && !up then loseHeld (0x30 + port) s else s
  .next (modEth port (fun e => { e with link := up, fec := fec && up }) s)

/-! ### DisplayPort (R179, R180) -/

def dpOf (s : State) (k : Nat) : DpSink := s.ingest.dp.getD k Reset.dpSink

/-- HPD is high: HPD_EN = 1 at configuration ready, and the sink not stopped (R173, R179). -/
def hpdHigh (s : State) (k : Nat) : Bool :=
  decide (regField s (0x00200200 + 256 * k) 0 1 = 1) && s.startup.ready && !(dpOf s k).stopped

/-- The flow of a sink. -/
def sinkFlow (s : State) (k : Nat) : Option (Nat × Flow) :=
  s.ingest.flows.find? fun x => x.2.cfg.source == 2 && x.2.cfg.portPri == 4 + k

/-- The stream's timing attributes are the declared ones (R180). -/
def dpAgrees (c : FlowCfg) (l : DpLine) : Bool :=
  decide (l.width = c.width ∧ l.height = c.height ∧ l.sampling = c.sampling ∧ l.depth = c.depth)

/-- A frame whose attributes differ is discarded and counted with cause format mismatch (R180). -/
def dpMismatch (ctx : Nat) (s : State) : State :=
  match flowOf s ctx with
  | none => s
  | some f => record (flowUnit f) 0x0701 (u16 ctx ++ u16 0 ++ u32 f.nextNumber ++ u16 3 ++ u16 0xFFFF)
      (setFlow ctx { f with incomplete := bump f.incomplete } s)

/-- The data of one active line of the open frame; each line is a packet group (R182). -/
def takeLine (ctx arr : Nat) (l : DpLine) (s : State) : State :=
  match flowOf s ctx with
  | none => s
  | some f =>
    let last := decide (l.line + 1 = f.cfg.height)
    let first := f.openFrame.any (·.lastLine.isNone)
    let s := if f.cfg.stampLog then endGroup ctx (joinGroup ctx l.line arr first last false s) else s
    let s := writeRow ctx l.line 0 (l.samples.take f.cfg.lineSamples) s
    let s := modFlow ctx (fun f => { f with openFrame := f.openFrame.map fun o => { o with endSeen := o.endSeen || last } }) s
    if (flowOf s ctx).any frameFull then completeFrame ctx s else s

/-- The first active line of a stream frame: a frame start, unless the flow stops there or the attributes differ (R171, R172,
R180). -/
def firstLine (k ctx arr : Nat) (f : Flow) (l : DpLine) (s : State) : State :=
  let (gone, s) := stopAtStart ctx s
  if gone then modDp k (fun x => { x with discard := true }) s
  else if dpAgrees f.cfg l then takeLine ctx arr l (startFrame ctx 0 arr (modDp k (fun x => { x with begun := true }) s))
  else modDp k (fun x => { x with discard := true }) (dpMismatch ctx s)

/-- An active line that has passed the injection point (R180): the first of a stream frame begins a frame, line 0 always, and after
a line not above the last one received another line too where the flow is LIVE; a later one is data of the frame that began
with this stream frame, late once it is closed, but not where it was starved; what a flow that waits for a frame start gets is
mid-frame data (R166, R168, R171; notes/assumptions/113.md). -/
def dpReceived (k : Nat) (l : DpLine) (arr : Nat) (s : State) : State :=
  let more := decide (l.line ≠ 0) && (dpOf s k).line.all fun n => decide (n < l.line)
  let s := modDp k (fun x => { x with line := some l.line, discard := x.discard && more, begun := x.begun && more }) s
  match sinkFlow s k with
  | none => s
  | some (ctx, f) =>
    let s := modFlow ctx (fun f => { f with pathPri := true, lastPri := s.now }) s
    if !more && (decide (l.line = 0) || f.state == .live) then firstLine k ctx arr f l s
    else if (dpOf s k).discard then s
    else if !(dpOf s k).begun then midframe ctx s
    else if f.starveRun && f.openFrame.isNone then s
    else if f.waits then midframe ctx s
    else if f.openFrame.isSome then takeLine ctx arr l s
    else modFlow ctx (fun f => { f with whey := bump f.whey }) s

/-- A line with bits inverted. -/
def corruptDp (flips : List Nat) (l : DpLine) : DpLine :=
  if flips.isEmpty then l
  else { l with samples := l.samples.map fun v => Config.corruptPacket flips v % 65536 }

def execDpLine (dt sink : Nat) (l : DpLine) (s : State) : Res :=
  let s := tick dt s
  if !(dpOf s sink).trained then .next s
  else
    let ctx := ((sinkFlow s sink).map (·.1)).getD 0x400
    let (fate, s) := meetFaults (0x38 + sink) 0 ctx l.line (l.samples.length * l.depth) false s
    let l := corruptDp fate.flips l
    .next (throughPoint (0x38 + sink) fate (.dp l) (dpReceived sink l s.now) s)

/-- MAX_RATE of a sink; 7 reads as 6 (Table 7.6). -/
def maxRate (s : State) (k : Nat) : Nat := min 6 (regField s (0x00200200 + 256 * k) 1 3)

/-- Training succeeds (R180). -/
def execDpLinkUp (dt sink rate lanes : Nat) (s : State) : Res :=
  let s := tick dt s
  if hpdHigh s sink && decide (rate ≤ maxRate s sink) && !(dpOf s sink).trained then
    .next (record (0x0E + sink) 0x0707 (u8 sink ++ u8 rate ++ u8 lanes)
      (modDp sink (fun x => { x with trained := true, rate := rate, lanes := lanes, line := none, discard := false, begun := false }) s))
  else .next s

/-- Clock recovery or symbol lock is lost (R180). -/
def dpLost (k : Nat) (s : State) : State :=
  if (dpOf s k).trained then
    let s := loseHeld (0x38 + k) s
    let s := match sinkFlow s k with
      | some (ctx, _) => closeFrame ctx 2 (closeDue ctx 2 s)
      | none => s
    record (0x0E + k) 0x0708 (u8 k)
      (modDp k (fun x => { x with trained := false, rate := 0, lanes := 0, line := none, discard := false, begun := false }) s)
  else s

def execDpLinkLost (dt sink : Nat) (s : State) : Res := .next (dpLost sink (tick dt s))

/-- The EDID bytes exactly as written (R179). -/
def edidBytes (s : State) (k addr len : Nat) : List Byte :=
  (List.range len).map fun i =>
    BitVec.ofNat 8 (regField s (0x00200400 + 512 * k + (addr + i) / 4 * 4) (8 * ((addr + i) % 4)) 8)

/-- DPCD bytes: the sink's own capability set limited to MAX_RATE, whose bytes the spec does not give (free values). -/
def dpcdBytes (s : State) (k addr len : Nat) : List Byte :=
  (List.range len).map fun i => BitVec.ofNat 8 (Config.dpcd (maxRate s k) (addr + i))

/-- An AUX read: the EDID from its registers, or DPCD (R179). -/
def execDpAuxTransaction (dt sink addr len : Nat) (edid : Bool) (s : State) : Res :=
  let s := tick dt s
  let s := emit (.aux sink addr len) s
  .next (if edid then emit (.read (0x00200400 + 512 * sink + addr) (edidBytes s sink addr (min len (512 - addr)))) s
    else emit (.read addr (dpcdBytes s sink addr len)) s)

/-! ### Host push (R181) -/

def pushBad (d : Desc) (s : State) : Option (List Byte) :=
  match flowOf s d.context with
  | none => some []
  | some f => if f.cfg.source ≠ 3 then some [] else if 3 < d.p8 28 then some (u16 28) else none

/-- The exhibit a push writes: with START the one its new frame will take, the open frame closed first, else the open frame's
(R166, R181). -/
def pushExh (d : Desc) (f : Flow) (s : State) : Option Exhibit :=
  (if bitOf (d.p8 28) 0 then pickExh (closeFrame d.context 1 s) f.cfg else f.openFrame.bind (·.exh)).bind (exhOf s)

/-- A push past the frame size, PITCH x HEIGHT of its exhibit (R181, R186). -/
def pushOver (d : Desc) (s : State) : Bool :=
  (flowOf s d.context).any fun f =>
    let size := (pushExh d f s).elim f.cfg.frameSize fun e => flowPitch f.cfg e * f.cfg.height
    decide (size < d.p32 24 + d.length)

/-- The push writes into the open frame: its transfer begins, a packet group of its own (R182), unless its range lies in a frozen pseudo-channel
(Table 18.8). -/
def pushInto (d : Desc) (f : Flow) (o : OpenFrame) (s : State) : State :=
  let frozen := match o.exh.bind fun h => exhOf s h with
    | some e => anyFrozen s (e.base + d.p32 24) d.length
    | none => false
  if frozen then complete d 0x41 [] s
  else
    let (g, s) := if f.cfg.stampLog then
        let (v, s) := takeFree s
        (some { stamp := s.now, first := v, count := 1, pri := true, sec := false, start := bitOf (d.p8 28) 0,
                fin := bitOf (d.p8 28) 1, last := s.now }, s)
      else (none, s)
    { s with adm := { s.adm with transfers := s.adm.transfers ++
        [{ desc := d, opcode := 0x0403, object := d.context, force := false, held := some o.number, torn := [],
           fin := bitOf (d.p8 28) 1, group := g }] } }

/-- A push begins a frame, joins the open one, or finds none open or its frame closed (R181).  A frame that the flow's freeze has
cut off takes no push: NO_FRAME_OPEN (R171; DESIGN CHOICE, notes/assumptions/114.md). -/
def pushAct (d : Desc) (s : State) : State :=
  let ctx := d.context
  match flowOf s ctx with
  | none => complete d 0x13 [] s
  | some f =>
    if bitOf (d.p8 28) 0 then
      let (gone, s') := stopAtStart ctx s
      if gone then complete d 0x13 [] s'
      else
        let s' := closeFrame ctx 1 s'
        let range := (pickExh s' f.cfg).bind fun h => exhOf s' h
        if range.any fun e => anyFrozen s' (e.base + d.p32 24) d.length then complete d 0x41 [] s'
        else
        let s' := startFrame ctx 0 s.now s'
        match (flowOf s' ctx).bind fun f => f.openFrame.map fun o => (f, o) with
        | some (f, o) => pushInto d f o s'
        | none => complete d 0x781 (u16 ctx) s'
    else match f.openFrame with
      | some o => if o.cut then complete d 0x781 (u16 ctx) s else pushInto d f o s
      | none =>
        if f.begunAny ∧ f.newest.map (·.2) ≠ some f.frameNo ∧ !f.starveRun then
          complete d 0x782 (u16 ctx ++ u16 0 ++ u32 f.frameNo) (setFlow ctx { f with whey := bump f.whey } s)
        else complete d 0x781 (u16 ctx) s

def execHostPush (dt : Nat) (d : Desc) (s : State) : Res :=
  .next (runDesc (specBuf 0x0403 false (span 29 63)) d pushBad pushOver pushAct (tick dt s))

/-- A push ends: its bytes lie in the frame it was pushed into, END completes it, an error closes it (R181, R437). -/
def finishPush (t : Transfer) (buf : HostBuf) (s : State) : State :=
  let ctx := t.object
  let s := { s with adm := { s.adm with transfers := s.adm.transfers.erase t } }
  let s := t.group.elim s fun g => logGroup ctx g s
  match (flowOf s ctx).bind fun f => f.openFrame.map fun o => (f, o) with
  | none => late s
  | some (f, o) =>
    if t.held ≠ some o.number then late s
    else
      let data := buf.bytes.take t.desc.length
      let exh := o.exh.bind fun h => exhOf s h
      let at_ := exh.map fun e => e.base + t.desc.p32 24
      let s := at_.elim s fun a => writeInternal a data s
      let pitch := exh.elim (defPitch f.cfg.sampling f.cfg.depth f.cfg.width) (flowPitch f.cfg)
      let line := (t.desc.p32 24 + data.length - 1) / max 1 pitch
      let s := if data.isEmpty then s
               else setFlow ctx { f with openFrame := some { o with lastLine := some (max line (o.lastLine.getD 0)) } } s
      if buf.bad then complete t.desc 0x501 (u64 data.length) (closeFrame ctx 4 s)
      else match at_.bind fun a => firstFrozen s a t.desc.length with
        | some a => complete t.desc 0x40 (u64 a) s
        | none => complete t.desc 0 [] (if t.fin then completeFrame ctx s else s)
where
  /-- The frame has closed while the push was under way. -/
  late (s : State) : State :=
    match flowOf s t.object with
    | none => complete t.desc 0x13 [] s
    | some f => complete t.desc 0x782 (u16 t.object ++ u16 0 ++ u32 (t.held.getD 0))
        (setFlow t.object { f with whey := bump f.whey } s)

/-- ING_FLOW_CTL.CLR: the counters of the selected context, open or closed (R184). -/
def clearFlow (s : State) : State :=
  modAnyFlow (regField s 0x00201000 0 10) (fun f => { f with incomplete := 0, whey := 0, midframe := 0, starved := 0, dup := 0 }) s

def execFlowCountersClear (dt : Nat) (s : State) : Res := .next (clearFlow (tick dt s))

end Sys2Proof.Machine
end

