-- ==== Sys2Proof/Machine/Exhibits.lean ====
section
/-!
DEFINITION. Exhibits and transfers (chapter 8): registration (R185, R186, R469), frees (R191), reads and writes (R192,
R193), ADM_QUERY (R199), retire fences (R190) and the hold of a shrink (R202).
-/

namespace Sys2Proof.Machine

/-- State code of an exhibit (Table 8.10). -/
def exhState (s : State) (h : Nat) : Nat :=
  match exhOf s h with
  | none => 0
  | some e => match e.state with
    | .free => 1
    | .filling => 2
    | .ready => 3
    | .pinned => 4
    | .retiring => 5

/-! ### EXH_REGISTER -/

/-- PITCH as registered: 0 gives the default (R186). -/
def pitchOf (d : Desc) : Nat := if d.p32 48 = 0 then defPitch (d.p8 40) (d.p8 41) (d.p16 42) else d.p32 48

/-- A range wholly within one READY Archive region, or one that keeps clear of them all (R469). -/
def archiveFits (s : State) (arch : Bool) (a n : Nat) : Bool :=
  if arch then s.ecc.archives.any fun r => r.ready && decide (r.base ≤ a) && decide (a + n ≤ r.base + r.size)
  else !(s.ecc.archives.any fun r => r.ranges.any fun x => overlaps a n x.1 x.2)

def exhRegisterBad (d : Desc) (s : State) : Option (List Byte) :=
  let base := d.p64 24
  let size := d.p64 32
  let pix := decide (d.p8 18 = 0)
  let line := lineBytes (d.p8 40) (d.p8 41) (d.p16 42)
  badField
    [(decide (16383 < d.p16 16), 16), (decide (1 < d.p8 18), 18), (decide (1 < d.p8 19), 19),
     (decide (base % 4096 ≠ 0), 24), (decide (size % 4096 ≠ 0 ∨ size = 0 ∨ 4294967296 < size), 32),
     (decide (usable s < base + size), 24),
     (!archiveFits s (d.p8 19 == 1) base size, 19),
     (pix && decide (2 < d.p8 40), 40), (pix && !([8, 10, 12, 16].contains (d.p8 41)), 41),
     (pix && (decide (d.p16 42 < 16 ∨ 8192 < d.p16 42) || (decide (d.p8 40 = 2) && decide (d.p16 42 % 2 = 1))), 42),
     (pix && decide (d.p16 44 < 16 ∨ 4320 < d.p16 44), 44),
     (pix && decide (d.p32 48 ≠ 0) && decide (d.p32 48 % 256 ≠ 0 ∨ d.p32 48 < line), 48),
     (pix && decide (size < pitchOf d * d.p16 44), 48)]

/-- The registered exhibit that a range overlaps; the Vitrine region as 0xFFFF. -/
def exhClash (s : State) (a n : Nat) : Option Nat :=
  match s.adm.exhibits.find? fun e => overlaps a n e.2.base e.2.size with
  | some e => some e.1
  | none => if touchesVit s a n then some 0xFFFF else none

def exhRegisterAct (d : Desc) (s : State) : State :=
  let h := d.p16 16
  if exhState s h ≠ 0 then complete d 0x883 (u8 (exhState s h)) s
  else match exhClash s (d.p64 24) (d.p64 32) with
    | some o => complete d 0x880 (u16 o) s
    | none =>
      let e : Exhibit := { kind := d.p8 18, archive := d.p8 19 == 1, base := d.p64 24, size := d.p64 32,
                           sampling := d.p8 40, depth := d.p8 41, width := d.p16 42, height := d.p16 44,
                           pitch := if d.p8 18 = 0 then pitchOf d else d.p32 48, state := .free, frame := 0,
                           number := 0, pins := [], fences := [], held := [] }
      complete d 0 [] (setExh h e s)

def execExhRegister (dt : Nat) (d : Desc) (s : State) : Res :=
  .next (runDesc (specI0 0x0501 (span 20 23 ++ span 46 47 ++ span 52 63)) d exhRegisterBad noOver exhRegisterAct (tick dt s))

/-! ### EXH_FREE -/

def exhFreeBad (d : Desc) (_ : State) : Option (List Byte) :=
  badField [(decide (16383 < d.p16 16), 16), (decide (1 < d.p8 18), 18)]

/-- A free that waits behind the fill or the pins, in ring order (R191). -/
def deferFree (d : Desc) (h : Nat) (e : Exhibit) (afterFill : Bool) (s : State) : State :=
  setExh h { e with held := e.held ++ [.free { desc := d, release := bitOf (d.p8 18) 0, afterFill := afterFill }] } s

def exhFreeAct (d : Desc) (s : State) : State :=
  let h := d.p16 16
  match exhOf s h with
  | none => complete d 0x883 (u8 0) s
  | some e =>
    match headOwned s h, inChain s h with
    | some k, _ => complete d 0x882 (u8 k) s
    | _, some x => complete d 0x881 (u16 x) s
    | none, none =>
      match e.state with
      | .free | .ready =>
        let s := if bitOf (d.p8 18) 0 then dropExh h e s else setExh h { e with state := .free } s
        complete d 0 [] s
      | .filling => deferFree d h e true s
      | .pinned | .retiring =>
        let s := deferFree d h { e with state := .retiring } false s
        complete d 0x801 (u32 e.pins.length) s

def execExhFree (dt : Nat) (d : Desc) (s : State) : Res :=
  .next (runDesc (specI0 0x0502 (span 19 63)) d exhFreeBad noOver exhFreeAct (tick dt s))

/-! ### EXH_WRITE and EXH_READ -/

/-- A transfer of RATE 0 requests no admission (R192). -/
def xferSpec (code : Nat) (d : Desc) : OpSpec := ⟨code, false, false, false, d.p32 28 != 0, true, span 26 27 ++ span 40 63⟩

def xferBad (d : Desc) (s : State) : Option (List Byte) := if (exhOf s (d.p16 24)).isNone then some [] else none

def xferOver (d : Desc) (s : State) : Bool :=
  (exhOf s (d.p16 24)).any fun e => decide (e.size < d.p64 32 + d.length)

/-- Units of a transfer: RATE on host push and on HBM (R192). -/
def xferUnits (d : Desc) (s : State) : List (Nat × Nat) :=
  (43, d.p32 28) :: hbmCost s (d.p32 28 * 1000000000) 1 [d.p16 24]

/-- EXH_TORN for every head frame that holds a pin on an exhibit under a FORCE write (R193). -/
def tearPins (h : Nat) (s : State) : State :=
  match exhOf s h with
  | none => s
  | some e =>
    let mine := fun t : Transfer => t.force && t.opcode == 0x0503 && t.object == h && t.place == e.base + t.desc.p64 32
    if !s.adm.transfers.any mine then s
    else
      let fresh := e.pins.filter fun p => s.adm.transfers.any fun t => mine t && !t.torn.contains p
      let s := forEach fresh (fun p s => record (0x10 + p.1) 0x0803 (u8 p.1 ++ u24 0 ++ u32 p.2 ++ u16 h) s) s
      let torn := s.adm.transfers.map fun t => if mine t then { t with torn := t.torn ++ e.pins } else t
      { s with adm := { s.adm with transfers := torn } }

/-- The transfer is under way, under the item n (0 for none); the bytes of an exhibit transfer are those of the range that the
handle names now, whatever becomes of the handle (R192). -/
def startXfer (d : Desc) (op h n : Nat) (force : Bool) (s : State) : State :=
  let place := if op = 0x0503 ∨ op = 0x0504 then (exhRange s h).1 + d.p64 32 else 0
  { s with adm := { s.adm with transfers := s.adm.transfers ++
      [{ desc := d, opcode := op, object := h, force := force, held := none, torn := [], fin := false, place := place,
         item := n }] } }

/-- A write that has passed its checks and admission (R193, Table 18.5). -/
def writeExh (d : Desc) (n : Nat) (s : State) : State :=
  let h := d.p16 24
  match exhOf s h with
  | none => complete d 0x13 [] s
  | some e =>
    let pinned := decide (e.state = .pinned ∨ e.state = .retiring)
    if pinned && !d.force then
      complete d 0x802 (u32 e.pins.length) (setExh h { e with held := e.held ++ [.write d n] } s)
    else if anyFrozen s (e.base + d.p64 32) d.length then complete d 0x41 [] (dropItem (.transfer d.ring d.tag n) s)
    else if pinned then tearPins h (startXfer d 0x0503 h n true s)
    else startXfer d 0x0503 h n false (setExh h { e with state := .filling } s)

def readExh (d : Desc) (n : Nat) (s : State) : State :=
  let h := d.p16 24
  if anyFrozen s ((exhRange s h).1 + d.p64 32) d.length then complete d 0x41 [] (dropItem (.transfer d.ring d.tag n) s)
  else startXfer d 0x0504 h n false s

/-- A number that no admitted item of the descriptor's ring and TAG has: every transfer has an item of its own (R126, R198). -/
def freshItem (d : Desc) (s : State) : Nat :=
  s.adm.items.foldl (fun n i => match i.kind with
    | .transfer r t m => if r = d.ring ∧ t = d.tag then max n (m + 1) else n
    | _ => n) 1

/-- RATE other than 0 asks for admission first (R192). -/
def admitXfer (d : Desc) (go : Nat → State → State) (s : State) : State :=
  if d.p32 28 = 0 then go 0 s
  else admitDesc (.transfer d.ring d.tag (freshItem d s)) d (xferUnits d s) (go (freshItem d s)) s

def exhWriteAct (d : Desc) (s : State) : State :=
  let h := d.p16 24
  match headOwned s h, inChain s h with
  | some k, _ => complete d 0x882 (u8 k) s
  | _, some x => complete d 0x881 (u16 x) s
  | none, none => admitXfer d (writeExh d) s

def execExhWrite (dt : Nat) (d : Desc) (s : State) : Res :=
  .next (runDesc (xferSpec 0x0503 d) d xferBad xferOver exhWriteAct (tick dt s))

def execExhRead (dt : Nat) (d : Desc) (s : State) : Res :=
  .next (runDesc (xferSpec 0x0504 d) d xferBad xferOver (fun d s => admitXfer d (readExh d) s) (tick dt s))

/-! ### TRANSFER_DONE -/

/-- Whether the admitted item of a transfer has been revoked (R29). -/
def xferRevoked (t : Transfer) (s : State) : Bool :=
  s.adm.items.any fun i => i.kind == .transfer t.desc.ring t.desc.tag t.item && i.leaving

/-- Bytes that a revoked transfer has moved of those its buffer or its length brought: up to a 64 KiB boundary, or all of it
(R29; DEDUCED, notes/assumptions/52.md). -/
def movedBytes (length n : Nat) : Nat := if length ≤ n then length else n / 65536 * 65536

/-- The first completion of a transfer, or for a held write its notice (R193). -/
def xferComplete (t : Transfer) (status : Nat) (det : List Byte) (s : State) : State :=
  match t.held with
  | none => if owes t.desc s then complete t.desc status det s else s
  | some n => if status = 0 then noticeAt s.now t.desc 0x30 (u32 n) s else noticeAt s.now t.desc status det s

/-- The heads with an enabled layer that reads an exhibit. -/
def readers (s : State) (h : Nat) : List Nat :=
  (List.range 8).filter fun k => (headOf s k).pipe.layers.any fun l => l.2.enable && !l.2.srcFlow && l.2.source == h

/-- An exhibit write ends: bytes moved, the exhibit's state, its item, its completion, then what waited (R193). -/
def endWrite (t : Transfer) (buf : HostBuf) (s : State) : State :=
  let h := t.object
  let a := t.place
  let rev := xferRevoked t s
  let got := buf.bytes.take t.desc.length
  let data := if t.fin then [] else if rev then got.take (movedBytes t.desc.length got.length) else got
  let s := tearPins h (writeInternal a data s)
  let s := { s with adm := { s.adm with transfers := s.adm.transfers.erase t } }
  let (st, det) :=
    if t.fin then (0x41, [])
    else if buf.bad then (0x501, u64 data.length)
    else match firstFrozen s a t.desc.length with
      | some x => (0x40, u64 x)
      | none => (0, [])
  let busy := s.adm.transfers.any fun u => u.object == h && u.opcode == 0x0503 && !u.force
  let s := if t.force || busy then s
           else modExh h (fun e => { e with state := if st = 0 ∧ !rev then .ready else .free }) s
  let s := dropItem (.transfer t.desc.ring t.desc.tag t.item) s
  let s := if rev then s else xferComplete t st det s
  let s := forEach (readers s h) (noteChange t.desc.t) s
  runHeld h (t.held.getD 0xFFFFFFFF) s

/-- An exhibit read ends: the bytes go to host memory; a failed byte gives MEM_UNCORRECTABLE (R192, Table 20.3). -/
def endRead (t : Transfer) (buf : HostBuf) (s : State) : State :=
  let a := t.place
  let rev := xferRevoked t s
  let n := if rev then movedBytes t.desc.length buf.bytes.length else t.desc.length
  let s := hostWrite t.desc (t.desc.p64 16) (readHbm s a n) s
  let bad := badAddrs s a n
  let s := forEach (bad.map fun x => (t.desc.p64 16 + (x - a)) / 64 * 64).eraseDups (fun x => emit (.poison x)) s
  let s := noteRead 3 a n { s with adm := { s.adm with transfers := s.adm.transfers.erase t } }
  let s := dropItem (.transfer t.desc.ring t.desc.tag t.item) s
  if rev then s
  else match leastOf ((firstFrozen s a n).toList ++ bad) with
    | some x => xferComplete t 0x40 (u64 x) s
    | none => xferComplete t 0 [] s

/-- An EXH_WRITE or EXH_READ has moved its bytes. -/
def endExhXfer (t : Transfer) (buf : HostBuf) (s : State) : State :=
  if t.opcode = 0x0503 then endWrite t (bufOf t.desc buf s) s else endRead t (bufOf t.desc buf s) s

/-- The transfer of a ring and tag that a command of its kind ends. -/
def xferOf (s : State) (ring tag : Nat) (ops : List Nat) : Option Transfer :=
  s.adm.transfers.find? fun t => t.desc.ring == ring && t.desc.tag == tag && ops.contains t.opcode

/-- TRANSFER_DONE; it waits out self-refresh (R192, R434). -/
def execTransferDone (dt ring tag : Nat) (buf : HostBuf) (s : State) : Res :=
  let s := tick dt s
  match xferOf s ring tag [0x0503, 0x0504] with
  | none => .next s
  | some t => .next (if s.hbm.selfRef then holdHost (.ended ring tag false buf) s else endExhXfer t buf s)

/-! ### ADM_QUERY, retire fences, the shrink's hold -/

def admQueryBad (d : Desc) (_ : State) : Option (List Byte) :=
  badField [(decide (d.p8 16 < 1 ∨ 8 < d.p8 16), 16), ((slotOf (d.p8 16) (d.p8 17)).isNone, 17)]

def admQueryAct (d : Desc) (s : State) : State :=
  let i := (slotOf (d.p8 16) (d.p8 17)).getD 0
  complete d 0 (u32 (s.adm.caps.getD i 0) ++ u32 (committed s i)) s

def execAdmQuery (dt : Nat) (d : Desc) (s : State) : Res :=
  .next (runDesc (specI0 0x0505 (span 18 63)) d admQueryBad noOver admQueryAct (tick dt s))

/-- A head's last read for the frame being composed ends (R190). -/
def execRetireFence (dt head : Nat) (s : State) : Res :=
  let s := tick dt s
  let p := (headOf s head).pipe
  if p.composing && p.cfg.isSome then
    let s := modPipe head (fun p => { p with composing := false, retired := s.now, fence := p.frame }) s
    .next (unpinAll head (some p.frame) s)
  else .next s

def execCapacityShrinkHold (dt : Nat) (s : State) : Res := .next (takeShrink (tick dt s))

end Sys2Proof.Machine
end

