-- ==== Sys2Proof/Machine/Pricing.lean ====
section
/-!
DEFINITION. What heads, layers, Recipes, motion rendering, ports and scanners cost (Tables 9.2, 11.7, 12.3; R218, R318,
R349), and the admission of several replacements together (R108, R198).
-/

namespace Sys2Proof.Machine

/-! ### Layers as they run -/

def Layer.scaled (l : Layer) : Bool := l.dstW != l.srcW || l.dstH != l.srcH

/-- A layer that forerunner mode disables although it is mapped (R219 step 5). -/
def Layer.keyedScaled (l : Layer) : Bool := l.scaled && l.blend == 3

/-- The layers that run: number as loaded, layer code, state. -/
def runningLayers (c : HeadCfg) (frMap : List (Nat × Nat)) (layers : List (Nat × Layer)) : List (Nat × Nat × Layer) :=
  layers.filterMap fun x =>
    if !x.2.enable then none
    else if c.forerunner = 0 then some (x.1, x.1, x.2)
    else if x.2.keyedScaled then none
    else (getKey x.1 frMap).map fun code => (x.1, code, { x.2 with z := x.1 })

/-- The layers of a pipe as they run. -/
def Pipe.running (p : Pipe) (c : HeadCfg) : List (Nat × Nat × Layer) := runningLayers c p.frMap p.layers

/-- The outcome of Table 10.1: as given, pre-decimated, or rejected for one of three reasons. -/
def ScalerStat.outcome (x : ScalerStat) : Nat := if x.reason ≠ 0 then x.reason + 1 else if 1 < x.d then 1 else 0

/-! ### Several items at once -/

/-- The first instance on which a set of replacements does not fit, with the units short (R198). -/
def shortageMany (s : State) (reqs : List (ItemKind × List (Nat × Nat))) : Option (Nat × Nat) :=
  (List.range 44).findSome? fun slot =>
    let old := fun k : ItemKind => (s.adm.items.find? fun i => i.kind.same k && !i.leaving).elim 0 (·.holds slot)
    let olds := total (reqs.map fun r => old r.1)
    let want := committed s slot - olds + total (reqs.map fun r => max (old r.1) (unitsOn r.2 slot))
    if total (reqs.map fun r => unitsOn r.2 slot) = 0 ∨ want ≤ capFor s slot then none else some (slot, want - capFor s slot)

/-- An item takes new units, keeping its class, stamp and descriptor; the old units stay until it settles (R108). -/
def reUnit (kind : ItemKind) (units : List (Nat × Nat)) (s : State) : State :=
  let f := fun i : Item =>
    if i.kind.same kind && !i.leaving then
      { i with units := units, old := (List.range 44).filterMap fun sl => if i.holds sl = 0 then none else some (sl, i.holds sl) }
    else i
  { s with adm := { s.adm with items := s.adm.items.map f } }

/-! ### Heads and layers -/

def tiles (w h : Nat) : Nat := ceilDiv w 64 * ceilDiv h 64

/-- Pitch of a composed frame (R208). -/
def compPitch (w : Nat) : Nat := ceilDiv (8 * w) 256 * 256

/-- Table 9.2. -/
def headUnits (s : State) (k : Nat) (c : HeadCfg) : List (Nat × Nat) :=
  let px := ceilDiv (c.canvasW * c.canvasH * c.rateN) (c.rateD * 1000000)
  let pr := ceilDiv (tiles c.canvasW c.canvasH * c.rateN) (c.rateD * 1000000)
  let bits_ := fun n : Nat => n * c.canvasW * c.canvasH * 8 * c.rateN
  [(2 + k, px), (10, px), (11 + k, pr), (19, pr)] ++
    hbmRow [hbmTerm s (bits_ 8) c.rateD c.comp, hbmTermAt s (bits_ 5) c.rateD (vitBase s + k * 0x18000000) 0x18000000]

/-- The picture a layer reads: width, height, sampling, depth (R212). -/
def layerSource (s : State) (l : Layer) : Option (Nat × Nat × Nat × Nat) :=
  if l.srcFlow then (lookFlow s l.source).map fun f => (f.cfg.width, f.cfg.height, f.cfg.sampling, f.cfg.depth)
  else (exhOf s l.source).map fun e => (e.width, e.height, e.sampling, e.depth)

/-- The exhibits that carry a layer's traffic. -/
def layerHandles (s : State) (l : Layer) : List Nat :=
  if l.srcFlow then (lookFlow s l.source).elim [] (·.cfg.chain) else [l.source]

/-- R218; a generic layer is priced as a video layer (R219). -/
def layerUnits (s : State) (k : Nat) (c : HeadCfg) (layer : Nat) (l : Layer) : List (Nat × Nat) :=
  if !l.enable then []
  else
    let video := decide (layer < 4) || decide (c.forerunner ≠ 0)
    let px := if video then ceilDiv (c.rateN * (l.srcW * l.srcH - l.dstW * l.dstH)) (c.rateD * 1000000) else 0
    match layerSource s l with
    | none => [(2 + k, px), (10, px)]
    | some (_, _, sm, dp) =>
      let bpp := perPixel sm * (if dp = 8 then 1 else 2)
      [(2 + k, px), (10, px)] ++ hbmCost s (l.srcW * l.srcH * bpp * 8 * c.rateN) c.rateD (layerHandles s l)

/-! ### Recipes -/

def Recipe.isScan (r : Recipe) : Bool := !r.scan.isEmpty

/-- Whether the form keeps a slot (R272, R340). -/
def Recipe.keeps (r : Recipe) (red : Bool) (x : Slot) : Bool :=
  let dr := r.depthR.getD x.prim 0
  !red || decide (dr = 0) || decide (r.depth.getD x.prim 0 - dr ≤ x.bit)

/-- Slots of a sequence in a form. -/
def Recipe.inSeq (r : Recipe) (red : Bool) (q : Nat) : List Slot := r.slots.filter fun x => x.seq = q ∧ r.keeps red x

/-- Mirrors of each plane that a port sends: the whole window, or its side of a locked pair's split (R254, R317). -/
def portMirrors (s : State) (a : ArrayEnt) (p : Nat) : Nat :=
  let q := portOf s p
  match q.pair with
  | some o => (if p < o then q.split else a.ww - q.split) * a.wh
  | none => a.ww * a.wh

/-- Row pitch and plane size of an array (R273). -/
def ArrayEnt.rowPitch (a : ArrayEnt) : Nat := ceilDiv a.ww 512 * 64
def ArrayEnt.planeSize (a : ArrayEnt) : Nat := a.rowPitch * a.wh

/-- Bytes of the plane store, or of the sample store (R273, R341). -/
def Recipe.storeSize (r : Recipe) (c : HeadCfg) : Nat :=
  if r.isScan then c.canvasW * c.canvasH * r.slots.length * 2
  else total (r.arrays.map fun a => a.planeSize * (r.inSeq false a.seq).length)

/-- Table 11.7, or R349 in scan-line mode, for a form and a rate. -/
def recipeUnits (s : State) (k : Nat) (c : HeadCfg) (r : Recipe) (red : Bool) : List (Nat × Nat) :=
  let n := c.rateN
  let d := c.rateD
  if r.isScan then
    let rr := (r.slots.filter (r.keeps red)).length
    let pr := ceilDiv (tiles c.canvasW c.canvasH * r.slots.length / max 1 r.chans.length * n) (d * 1000000)
    let pl := ceilDiv (c.canvasW * c.canvasH * rr * 16 * n * 104) (d * 100000000000)
    [(11 + k, pr), (19, pr)] ++ ((bitsOf c.ports 16).take 1).map (fun p => (20 + p, pl)) ++
      hbmRow [hbmTerm s (2 * c.canvasW * c.canvasH * rr * 2 * 8 * n) d r.stores,
              hbmTerm s (64 * c.canvasW * c.canvasH * n) d c.comp]
  else
    let cnt := fun a : ArrayEnt => (r.inSeq red a.seq).length
    let pr := ceilDiv (total (r.arrays.map fun a => tiles a.ww a.wh * cnt a) * n) (d * 1000000)
    [(11 + k, pr), (19, pr)] ++
      (r.arrays.flatMap fun a => (bitsOf a.ports 16).map fun p =>
        (20 + p, ceilDiv (portMirrors s a p * cnt a * n * 104) (d * 100000000000))) ++
      hbmRow [hbmTerm s (total (r.arrays.map fun a => 2 * a.planeSize * 8 * cnt a) * n) d r.stores,
              hbmTerm s (total (r.arrays.map fun a => 64 * a.ww * a.wh) * n) d c.comp]

/-! ### Motion rendering, ports, scanners -/

/-- Field entries across and down (R286). -/
def fieldW (c : HeadCfg) : Nat := ceilDiv c.canvasW 16
def fieldH (c : HeadCfg) : Nat := ceilDiv c.canvasH 16

/-- Table 12.3 with the Recipe that counts, if any. -/
def motionUnits (s : State) (k : Nat) (c : HeadCfg) (m : MotionCfg) (r : Option Recipe) (red : Bool) : List (Nat × Nat) :=
  let n := c.rateN
  let d := c.rateD
  let ts := r.elim 0 fun r => total (r.arrays.map fun a => tiles a.ww a.wh * (r.inSeq red a.seq).length)
  let win := r.elim 0 fun r => total (r.arrays.map fun a => 64 * a.ww * a.wh)
  let pr := ceilDiv (ts * n) (d * 1000000) +
    (if m.source = 2 then ceilDiv (tiles c.canvasW c.canvasH * 16 * n) (d * 1000000) else 0)
  [(11 + k, pr), (19, pr)] ++ hbmCost s (win * n) d c.comp ++
    hbmCost s (2 * 4 * fieldW c * fieldH c * 8 * n) d m.fields ++
    (if m.source = 2 then hbmCost s (48 * c.canvasW * c.canvasH * n) d m.pyrs else [])

/-- A port: one Plane Link unit, and 8 Gbit/s of HBM split evenly (R318). -/
def portUnits (p : Nat) : List (Nat × Nat) := [(20 + p, 1), (0, 4), (1, 4)]

/-- SCAN_CONFIG (R349). -/
def scanUnits (p : Nat) : List (Nat × Nat) := [(20 + p, 1), (36, 40), (0, 1), (1, 1)]

/-- The Recipe of a head that counts for pricing: the pending one, else the one in force. -/
def Press.counted (p : Press) : Option Recipe :=
  match p.pending with
  | some x => some x.1
  | none => p.recipe

/-- The form that the pricing of a head takes: the pending Recipe's, else the one the Recipe in force is changing to (R68, R272). -/
def Press.countedForm (p : Press) : Bool :=
  match p.pending with
  | some x => x.1.red
  | none => p.wantForm.elim p.reduced (·.1)

/-- The motion rendering that counts for pricing: the one pending, else the one in force (R295). -/
def Motion.counted (m : Motion) : Option MotionCfg :=
  match m.pending with
  | some x => if x.1.source = 0 then m.cfg else some x.1
  | none => m.cfg

/-- The most units that any of several states holds on each slot. -/
def mostUnits (l : List (List (Nat × Nat))) : List (Nat × Nat) :=
  (List.range 44).filterMap fun sl =>
    let m := (l.map fun u => unitsOn u sl).foldl max 0
    if m = 0 then none else some (sl, m)

/-- What a head's Recipe item holds beside its newest Recipe's units: those of the Recipe in force while another, or a form change,
waits to replace it, and of each earlier one, in its last form, that still governs a frame to be shown (R198, R269, R272). -/
def Press.heldUnits (p : Press) (units : Recipe → Bool → List (Nat × Nat)) : List (List (Nat × Nat)) :=
  let now := p.recipe.toList.filter fun _ => p.pending.isSome || p.wantForm.isSome
  let past := ((p.old.map (·.2.1.first)).eraseDups.filter fun n => p.recipe.all (·.first != n)).filterMap fun n =>
    p.old.find? fun o => o.2.1.first == n
  now.map (fun r => units r p.reduced) ++ past.map fun o => units o.2.1 o.2.2

/-- The units of what a head's Recipe replaced are released when the new one takes effect, and those of its motion rendering once
nothing of theirs is pending (R198, R269, R272). -/
def settleRecipe (k : Nat) (s : State) : State :=
  let h := headOf s k
  let held := h.pipe.cfg.elim [] fun c => h.press.heldUnits (recipeUnits s k c)
  let items := s.adm.items.map fun i => if i.kind.same (.recipe k) then { i with old := mostUnits held } else i
  let s := { s with adm := { s.adm with items := items } }
  if h.press.pending.isSome ∨ h.pipe.flipped < h.press.since ∨ h.motion.pending.isSome then s else settle (.motion k) s

/-- The layers as last written: in force, sealed or in the open shadow (R228). -/
def Pipe.latest (p : Pipe) : List (Nat × Layer) :=
  ((p.sealed_.map (·.shadow)) ++ p.openSh.map (·.shadow)).foldl (fun l sh => sh.layers.foldl (fun l x => setKey x.1 x.2 l) l) p.layers

/-- What every item of a head costs at another rate or profile (R17, R108). -/
def repriceHead (s : State) (k : Nat) (c : HeadCfg) : List (ItemKind × List (Nat × Nat)) :=
  let h := headOf s k
  let ls := h.pipe.latest.map fun l => (ItemKind.layer k l.1, layerUnits s k c l.1 l.2)
  let rs := h.press.counted.toList.map fun r => (ItemKind.recipe k, recipeUnits s k c r h.press.countedForm)
  let ms := h.motion.counted.toList.map fun m => (ItemKind.motion k, motionUnits s k c m h.press.counted h.press.countedForm)
  (ItemKind.head k, headUnits s k c) :: ls ++ rs ++ ms

end Sys2Proof.Machine
end

