-- ==== Sys2Proof/Machine/Pixels.lean ====
section
/-!
DEFINITION. The arithmetic of composition: input conversion (R214, R215, R242), the polyphase scaler (R239 to R246),
blending and fallback (R213, R216, R217), the Vitrine content (R221) and the composed frame (R209).
-/

namespace Sys2Proof.Machine

/-! ### Coefficients and the scaler's geometry -/

/-- The bilinear kernel of a memory fill (R244). -/
def bilinear (phase : Nat) : List Int := [0, 0, 0, 16384 - 256 * (phase : Int), 256 * (phase : Int), 0, 0, 0]

/-- The taps of a layer's set and phase (R241, R244). -/
def tapsOf (coefs : List CoefPhase) (layer set phase : Nat) : List Int :=
  match coefs.find? fun c => c.layer == layer && c.set == set && c.phase == phase with
  | some c => c.taps
  | none => bilinear phase

/-- Σ c_t s_t with 14 fraction bits, rounded and clamped (R241, R242). -/
def filter8 (taps : List Int) (top : Int) (f : Nat → Int) : Int :=
  clampInt 0 top (((taps.zipIdx.map fun x => x.1 * f x.2).foldl (· + ·) 8192) / 16384)

/-- Integer part and phase of an output position (R243). -/
def scalePos (nin nout i : Nat) : Int × Nat :=
  let p : Int := ((2 * i + 1) * nin * 65536 / (2 * max 1 nout) : Nat) - 32768
  let m := p / 65536
  let phi := ((p % 65536).toNat + 512) / 1024
  if phi = 64 then (m + 1, 0) else (m, phi)

/-- Keep a position within 0 to n - 1. -/
def edge (n : Nat) (x : Int) : Nat := (clampInt 0 ((n : Int) - 1) x).toNat

/-- Pre-decimation: d and SRC_W', or the reason of a rejection (R245). -/
def decimation (srcW srcH dstW dstH : Nat) : Nat × Nat × Nat :=
  match [1, 2, 4].find? fun d => decide (ceilDiv srcW d ≤ 8192) && decide (ceilDiv srcW d ≤ 4 * dstW) with
  | none => (1, 0, 2)
  | some d =>
    let w := ceilDiv srcW d
    if 1 < d ∧ w < dstW then (d, w, 3) else if 4 * dstH < srcH then (d, w, 1) else (d, w, 0)

/-! ### Input conversion -/

/-- A stored sample as a 16-bit value, MSB-aligned (Table 9.5, stage 1). -/
def sample16 (s : State) (e : Exhibit) (idx y : Nat) : Nat :=
  if e.depth = 8 then 256 * (hbmByte s (e.base + y * e.pitch + idx)).toNat
  else
    let a := e.base + y * e.pitch + 2 * idx
    (hbmByte s a).toNat + 256 * (hbmByte s (a + 1)).toNat

/-- The pixel's own three stored samples: for 4:2:2 its Y and its pair's Cb and Cr (R186, R216). -/
def storedAt (s : State) (e : Exhibit) (x y : Nat) : List Nat :=
  if e.sampling = 2 then
    let j := 4 * (x / 2)
    [sample16 s e (j + 1 + 2 * (x % 2)) y, sample16 s e j y, sample16 s e (j + 2) y]
  else [sample16 s e (3 * x) y, sample16 s e (3 * x + 1) y, sample16 s e (3 * x + 2) y]

/-- Where a layer reads its picture. -/
structure LayerIn where
  key    : Nat               -- as loaded: layer code, or generic number
  code   : Nat               -- layer code
  l      : Layer
  exh    : Option Exhibit    -- none: the layer shows its fallback
  bad    : List Nat          -- source lines whose read failed whole
  holes  : List Nat          -- source lines with samples that HBM cannot return
  errs   : List ScalerErr    -- failed reads of coefficients and line buffers
  d      : Nat
  width  : Nat               -- SRC_W'
  deriving DecidableEq, Repr

/-- Source lines of a layer that a failed read of the scaler affects. -/
def ScalerErr.lines (l : Layer) : ScalerErr → List Nat
  | .coef _ => if l.srcH = 0 then [] else span l.srcY (l.srcY + l.srcH - 1)
  | .buffer _ y _ => [y]

/-- Chroma of a 4:2:2 pixel: the scaler's horizontal filter at phase 32, or the mean of the neighbours (R242, Table 9.5). -/
def chroma (s : State) (coefs : List CoefPhase) (v : LayerIn) (e : Exhibit) (video : Bool) (which x y : Nat) : Int :=
  let lo := v.l.srcX / 2
  let n := v.l.srcW / 2
  let c := fun j : Int => (sample16 s e (4 * (lo + edge n (j - lo)) + which) y : Int)
  let j : Int := (x / 2 : Nat)
  if x % 2 = 0 then c j
  else if video then filter8 (tapsOf coefs v.key v.l.hset 32) 65535 fun t => c (j - 3 + t)
  else (c j + c (j + 1) + 1) / 2

/-- Stages 1 and 2. -/
def unpack (s : State) (coefs : List CoefPhase) (v : LayerIn) (e : Exhibit) (x y : Nat) : List Int :=
  if e.sampling = 2 then
    let video := decide (v.code < 4)
    [(sample16 s e (4 * (x / 2) + 1 + 2 * (x % 2)) y : Int), chroma s coefs v e video 0 x y, chroma s coefs v e video 2 x y]
  else (storedAt s e x y).map Int.ofNat

/-- A matrix stage (Table 9.5, stages 3 and 5): nine coefficients and three offsets. -/
def matrixStage (m : List Int) (top : Int) (v : List Int) : List Int :=
  (List.range 3).map fun i =>
    let sum := (List.range 3).foldl (fun a j => a + m.getD (3 * i + j) 0 * v.getD j 0) 32768
    clampInt 0 top (sum / 65536 + m.getD (9 + i) 0)

/-- Stage 4: the LUT with linear interpolation. -/
def lutStage (lut : List Nat) (v : List Int) : List Int :=
  (List.range 3).map fun i =>
    let x := (v.getD i 0).toNat
    let k := x / 16
    let a : Int := lut.getD (4096 * i + k) 0
    let b : Int := lut.getD (4096 * i + min 4095 (k + 1)) 0
    a + ((b - a) * (x % 16 : Nat) + 8) / 16

/-- Stages 1 to 5: one source pixel in working components. -/
def linearPixel (s : State) (coefs : List CoefPhase) (v : LayerIn) (e : Exhibit) (x y : Nat) : List Int :=
  let t := v.l.tables
  matrixStage t.matB 1048575 (lutStage t.lut (matrixStage t.matA 65535 (unpack s coefs v e x y)))

/-- A decimated pixel of a buffered line (R246). -/
def bufferPixel (s : State) (coefs : List CoefPhase) (v : LayerIn) (e : Exhibit) (c k y : Nat) : Int :=
  let sum := (List.range v.d).foldl (fun a u =>
    a + (linearPixel s coefs v e (v.l.srcX + min (v.d * k + u) (v.l.srcW - 1)) y).getD c 0) ((v.d / 2 : Nat) : Int)
  sum / v.d

/-- One output pixel of a video layer: the vertical pass, then the horizontal one (R239, R241, R243). -/
def videoPixel (s : State) (coefs : List CoefPhase) (v : LayerIn) (e : Exhibit) (i j : Nat) : List Int :=
  let (mx, px) := scalePos v.width v.l.dstW i
  let (my, py) := scalePos v.l.srcH v.l.dstH j
  let hv := tapsOf coefs v.key v.l.hset px
  let vv := tapsOf coefs v.key v.l.vset py
  (List.range 3).map fun c =>
    filter8 hv 1048575 fun t =>
      filter8 vv 1048575 fun u =>
        bufferPixel s coefs v e c (edge v.width (mx - 3 + t)) (v.l.srcY + edge v.l.srcH (my - 3 + u))

/-- Source lines that an output line reads. -/
def linesRead (v : LayerIn) (j : Nat) : List Nat :=
  if v.code < 4 then
    let (my, _) := scalePos v.l.srcH v.l.dstH j
    (List.range 8).map fun (u : Nat) => v.l.srcY + edge v.l.srcH (my - 3 + (u : Int))
  else [v.l.srcY + j]

/-- Buffered columns that an output column of a video layer reads. -/
def colsRead (v : LayerIn) (i : Nat) : List Nat :=
  let (mx, _) := scalePos v.width v.l.dstW i
  (List.range 8).map fun (t : Nat) => edge v.width (mx - 3 + (t : Int))

/-- Source columns that an output column reads. -/
def sourceCols (v : LayerIn) (i : Nat) : List Nat :=
  if v.code < 4 then (colsRead v i).flatMap fun k => (List.range v.d).map fun u => v.l.srcX + min (v.d * k + u) (v.l.srcW - 1)
  else [v.l.srcX + i]

/-- Whether a read fails (R437, R463). -/
def readFails (s : State) (a n : Nat) : Bool := !allReadable s && (anyBad s a n || anyFrozen s a n)

/-- Samples of a line that stages 1 and 2 read for a source column (R186, R242). -/
def samplesRead (v : LayerIn) (e : Exhibit) (x : Nat) : List Nat :=
  if e.sampling = 2 then
    let lo := v.l.srcX / 2
    let pairs : List Int := if x % 2 = 0 then [0] else if v.code < 4 then (List.range 8).map fun t => (t : Int) - 3 else [0, 1]
    (4 * (x / 2) + 1 + 2 * (x % 2)) :: pairs.flatMap fun t =>
      let j := lo + edge (v.l.srcW / 2) ((x / 2 : Nat) + t - lo)
      [4 * j, 4 * j + 2]
  else [3 * x, 3 * x + 1, 3 * x + 2]

/-- An output pixel of a layer is fed by a read that failed (R217, R250). -/
def spoilt (s : State) (v : LayerIn) (e : Exhibit) (i j : Nat) : Bool :=
  let ys := linesRead v j
  let b := if e.depth = 8 then 1 else 2
  ys.any v.bad.contains || v.errs.any (fun r => match r with
    | .coef _ => true
    | .buffer _ y k => ys.contains y && (colsRead v i).contains k) ||
  (ys.filter v.holes.contains).any fun y => (sourceCols v i).any fun x => (samplesRead v e x).any fun q =>
    readFails s (e.base + y * e.pitch + q * b) b

/-! ### Blending -/

/-- One component of a blend (R216). -/
def blendOne (blend : Nat) (a s d : Int) : Int :=
  match blend with
  | 1 => min (d + (a * s + 2048) / 4096) 1048575
  | 2 => (d * ((4096 - a) * 1048576 + a * s) + 2147483648) / 4294967296
  | _ => (a * s + (4096 - a) * d + 2048) / 4096

def blendPix (blend : Nat) (a : Int) (s d : List Int) : List Int :=
  (List.range 3).map fun i => blendOne blend a (s.getD i 0) (d.getD i 0)

/-- ALPHA as the pipe uses it: 0 to 255 in forerunner mode (R219). -/
def alphaOf (fore : Bool) (l : Layer) : Int := if fore then ((l.alpha * 4096 + 127) / 255 : Nat) else (l.alpha : Int)

/-- One layer at a canvas pixel (R213, R216, R217). -/
def layerAt (s : State) (coefs : List CoefPhase) (fore : Bool) (v : LayerIn) (cx cy : Nat) (below : List Int) : List Int :=
  let x : Int := (cx : Int) - v.l.dstX
  let y : Int := (cy : Int) - v.l.dstY
  if x < 0 ∨ y < 0 ∨ (v.l.dstW : Int) ≤ x ∨ (v.l.dstH : Int) ≤ y then below
  else
    let i := x.toNat
    let j := y.toNat
    let a := alphaOf fore v.l
    let fall := if v.l.hidden then below
      else blendPix (if v.l.blend = 3 then 0 else v.l.blend) a (v.l.fill.map Int.ofNat) below
    match v.exh with
    | none => fall
    | some e =>
      if spoilt s v e i j then fall
      else if v.code < 4 then blendPix v.l.blend a (videoPixel s coefs v e i j) below
      else if v.l.blend = 3 ∧ storedAt s e (v.l.srcX + i) (v.l.srcY + j) = v.l.key then below
      else blendPix (if v.l.blend = 3 then 0 else v.l.blend) a (linearPixel s coefs v e (v.l.srcX + i) (v.l.srcY + j)) below

/-- round((code / 255)^2.4 x 1,048,575), by comparing fifth powers (R221). -/
def vitLevel (code : Nat) : Nat :=
  let fits := fun v : Nat => decide (v = 0) || decide ((2 * v - 1) ^ 5 * 255 ^ 12 ≤ (2 * 1048575) ^ 5 * code ^ 12)
  (List.range 20).foldl (fun acc b => if fits (acc + 2 ^ (19 - b)) then acc + 2 ^ (19 - b) else acc) 0

/-- Address of a head's Vitrine bank (R221). -/
def vitBank (s : State) (k bank : Nat) : Nat := vitBase s + k * 0x18000000 + bank * 0x0A8C0000

/-- What the Composer reads of a head's Vitrine content, line by line (R221). -/
def vitReads (s : State) (k : Nat) (v : Vitrine) (c : HeadCfg) : List (Nat × Nat) :=
  if v.content then (List.range c.canvasH).map fun y => (vitBank s k v.bank + 32768 * y, 4 * c.canvasW) else []

/-- The Vitrine content over a pixel, with VIT (R221). -/
def vitAt (s : State) (k : Nat) (v : Vitrine) (cx cy : Nat) (below : List Int) : List Int × Bool :=
  if !v.content then (below, false)
  else
    let a := vitBank s k v.bank + 32768 * cy + 4 * cx
    if readFails s a 4 then (below, false)
    else
      let al := (hbmByte s (a + 3)).toNat
      let px := (List.range 3).map fun i => (vitLevel (hbmByte s (a + i)).toNat : Int)
      (blendPix 0 (((al * 4096 + 127) / 255 : Nat) : Int) px below, decide (al ≠ 0))

/-- Enabled layers from the bottom up: rising Z, then rising code (R213). -/
def insertLayer (v : LayerIn) : List LayerIn → List LayerIn
  | [] => [v]
  | w :: ws => if v.l.z < w.l.z ∨ (v.l.z = w.l.z ∧ v.code ≤ w.code) then v :: w :: ws else w :: insertLayer v ws

def stackLayers (l : List LayerIn) : List LayerIn := l.foldr insertLayer []

/-- One composed pixel as stored (R209). -/
def composedPixel (s : State) (k : Nat) (vit : Vitrine) (bg : List Nat) (coefs : List CoefPhase) (fore : Bool)
    (ls : List LayerIn) (cx cy : Nat) : List Byte :=
  let base := bg.map Int.ofNat
  let v := ls.foldl (fun d x => layerAt s coefs fore x cx cy d) base
  let (v, mark) := vitAt s k vit cx cy v
  let c := fun i => (v.getD i 0).toNat % 1048576
  u64 (c 0 + 2 ^ 20 * c 1 + 2 ^ 40 * c 2 + 2 ^ 63 * bit mark)

/-- The composed frame is written line by line into its exhibit (R208, R209). -/
def composeFrame (k : Nat) (c : HeadCfg) (vit : Vitrine) (bg : List Nat) (coefs : List CoefPhase) (ls : List LayerIn)
    (base : Nat) (s : State) : State :=
  let src := s
  forEach (List.range c.canvasH) (fun y s =>
    writeInternal (base + y * compPitch c.canvasW)
      ((List.range c.canvasW).flatMap fun x => composedPixel src k vit bg coefs (c.forerunner != 0) (stackLayers ls) x y) s) s

end Sys2Proof.Machine
end

