-- ==== Sys2Proof/Machine/Recipes.lean ====
section
/-!
DEFINITION. Recipes: parsing (Tables 11.2 to 11.4), the checks of Table 11.6 and Table 14.2, flip intervals and plane
leads (R254, R313), and the fit of a scanner (R343, R344).
-/

namespace Sys2Proof.Machine

/-! ### Parsing -/

def parseSlot (b : List Byte) (j : Nat) : Slot :=
  let o := 160 + 16 * j
  { seq := fieldOf b o 1, order := fieldOf b (o + 1) 1, prim := fieldOf b (o + 2) 1, bit := fieldOf b (o + 3) 1,
    amp := fieldOf b (o + 4) 2, settle := fieldOf b (o + 6) 2, offset := fieldOf b (o + 8) 4, onTime := fieldOf b (o + 12) 4 }

def parseArray (b : List Byte) (a : Nat) : ArrayEnt :=
  let o := 64 + 16 * a
  { ports := fieldOf b o 2, seq := fieldOf b (o + 2) 1, cls := fieldOf b (o + 3) 1, wx := fieldOf b (o + 4) 2,
    wy := fieldOf b (o + 6) 2, ww := fieldOf b (o + 8) 2, wh := fieldOf b (o + 10) 2 }

/-- A Recipe buffer read by Tables 11.2 to 11.4. -/
def parseRecipe (b : List Byte) (id : Nat) (stores : List Nat) (scan : Bool) : Recipe :=
  let np := min 6 (fieldOf b 2 1)
  { id := id, stores := stores, dither := fieldOf b 5 1, tiles := fieldOf b 6 1, seqs := fieldOf b 4 1,
    depth := (List.range np).map fun p => fieldOf b (8 + p) 1,
    depthR := (List.range np).map fun p => fieldOf b (14 + p) 1,
    chans := (List.range np).map fun p => fieldOf b (24 + 6 * p) 6,
    arrays := (List.range (min 6 (fieldOf b 3 1))).map (parseArray b),
    slots := (List.range (min 256 (fieldOf b 0 2))).map (parseSlot b),
    scan := if scan then [fieldOf b 0 2 / max 1 np] else [], red := false, first := 0, dark := [] }

/-! ### Intervals -/

/-- T_arr of a class (Table 11.1). -/
def tArr (cls : Nat) : Nat := if cls = 3 then 200000 else if cls = 2 then 100000 else 83334

/-- T_load of a port (R254). -/
def tLoad (mirrors : Nat) : Nat := ceilDiv (mirrors * 13) 600

/-- I_min of an array (R254). -/
def iMin (s : State) (a : ArrayEnt) : Nat :=
  (bitsOf a.ports 16).foldl (fun m p => max m (tLoad (portMirrors s a p))) (tArr a.cls)

/-- The arrays that show a sequence. -/
def Recipe.showing (r : Recipe) (q : Nat) : List ArrayEnt := r.arrays.filter fun a => a.seq = q

/-- The largest I_min of the arrays that show a sequence. -/
def seqMin (s : State) (r : Recipe) (q : Nat) : Nat := (r.showing q).foldl (fun m a => max m (iMin s a)) 0

/-- T_lead of a head: the largest T_load + T_rtx of its ports, or the scan-line value (R313, R338). -/
def tLead (s : State) (c : HeadCfg) (r : Recipe) : Nat :=
  if r.isScan then
    ceilDiv (c.canvasW * r.chans.length * 16 * 13) 600 + ((bitsOf c.ports 16).head?.elim 0 fun p => (portOf s p).rtx)
  else r.arrays.foldl (fun m a => (bitsOf a.ports 16).foldl (fun m p => max m (tLoad (portMirrors s a p) + (portOf s p).rtx)) m) 0

/-- The slots of a sequence by ORDER. -/
def Recipe.ordered (r : Recipe) (q : Nat) : List Slot :=
  (List.range 256).filterMap fun o => r.slots.find? fun x => x.seq = q ∧ x.order = o

def Slot.gap (x : Slot) : Nat := 200 * x.settle

/-- R22 and R263 for one slot against the next, or against the next frame (R263). -/
def spaced (imin pmin : Nat) (x : Slot) (next : Option Slot) : Bool :=
  match next with
  | some y => decide (x.offset < y.offset) && decide (x.offset + x.gap + x.onTime ≤ y.offset) &&
      decide (x.offset + imin ≤ y.offset)
  | none => decide (x.offset + max (x.gap + x.onTime) imin ≤ pmin)

/-- The slots of a sequence that R22 or R263 refuses at a period. -/
def spacingFails (s : State) (r : Recipe) (pmin q : Nat) : List Slot :=
  let l := r.ordered q
  (l.take 1).filter (fun x => x.offset != 0) ++
    (l.zip (l.tail.map some ++ [none])).filterMap fun x => if spaced (seqMin s r q) pmin x.1 x.2 then none else some x.1

/-- The first slot entry of a Recipe, in the order of its bytes, that R22 or R263 refuses at a period (R266). -/
def spacingBad (s : State) (r : Recipe) (pmin : Nat) : Option Slot :=
  let l := (List.range r.seqs).flatMap (spacingFails s r pmin)
  r.slots.find? l.contains

/-- The byte offset of a slot entry. -/
def Recipe.slotOffset (r : Recipe) (x : Slot) : Nat := 160 + 16 * (r.slots.findIdx fun y => y == x)

/-! ### Leads of channels -/

/-- The leads of a channel in force and pending (Table 11.6, reason 8). -/
def leadsOf (s : State) (c : Nat) : List Nat :=
  ((chanOf s c).cfg.toList.map (·.lead)) ++ ((chanOf s c).pendCfg.toList.map (·.1.lead))

/-- The largest lead of the channels of a mask. -/
def maxLead (s : State) (mask : Nat) : Nat :=
  (bitsOf mask 48).foldl (fun m c => (leadsOf s c).foldl max m) 0

/-! ### The scanner's fit (R343, R344) -/

/-- Ψ of an ACTIVE value (R330). -/
def psi (active : Nat) : Nat := arccosTurns (active * 2 ^ 112)

/-- φ_i: the sample phase of pixel i of a line of w (R330). -/
def samplePhase (active w i : Nat) : Nat :=
  arccosTurns (-round53 (active * (2 * (i : Int) + 1 - w) * 2 ^ 112 / (max 1 w : Nat)))

/-- G_t: the turnaround gap (R343). -/
def turnGap (sc : ScanCfg) : Nat := 4000000000000 * psi sc.active / (max 1 sc.fastMax * 2 ^ 32)

/-- The first item of R344 that fails, for W, H, P_min, R passes, P primaries, T_rtx and the largest lead. -/
def scanFitBad (c : HeadCfg) (sc : ScanCfg) (r p rtx lead : Nat) : Option Nat :=
  if (c.pmin - sc.line0) * sc.fastMin < (r * c.canvasH + 1) * 2000000000000 ∨ c.pmin < sc.line0 then some 1
  else if 2000000000 * 1000 * sc.active * 10 ^ 31 < 31415926535897932384626433832795 * c.canvasW * sc.fastMax * 65536 then
    some 2
  else if 2000000000000 < (ceilDiv (c.canvasW * p * 16 * 13) 600 + rtx) * sc.fastMax then some 3
  else if turnGap sc < lead + 200 then some 4
  else none

/-- The scanner set-ups in force or pending. -/
def Scan.setups (x : Scan) : List ScanCfg := x.cfg.toList ++ x.pending.toList.map (·.1) ++ x.nextCfg.map (·.1)

/-! ### Table 11.6 -/

/-- Reason 1: the header. -/
def headerBad (b : List Byte) (len : Nat) : Option Nat :=
  let np := fieldOf b 2 1
  let z := fun i => decide (fieldOf b i 1 ≠ 0)
  (List.find? (·.1)
    ([(decide (fieldOf b 0 2 < 1 ∨ 256 < fieldOf b 0 2 ∨ len ≠ 160 + 16 * fieldOf b 0 2), 0),
      (decide (np < 1 ∨ 6 < np), 2), (decide (fieldOf b 3 1 < 1 ∨ 6 < fieldOf b 3 1), 3),
      (decide (fieldOf b 4 1 < 1 ∨ 3 < fieldOf b 4 1), 4), (decide (2 ^ np ≤ fieldOf b 5 1), 5),
      (decide (fieldOf b 6 1 < 1 ∨ 4 < fieldOf b 6 1), 6), (z 7, 7)] ++
     (List.range 6).map (fun p => (if p < np then decide (fieldOf b (8 + p) 1 < 1 ∨ 18 < fieldOf b (8 + p) 1) else z (8 + p), 8 + p)) ++
     (List.range 6).map (fun p => (if p < np then decide (fieldOf b (8 + p) 1 ≤ fieldOf b (14 + p) 1) else z (14 + p), 14 + p)) ++
     (span 20 23 ++ span 60 63).map fun i => (z i, i))).map (·.2)

/-- Reason 1 in the array entries in use: their reserved bytes (Table 11.3). -/
def arraysReserved (b : List Byte) : Option Nat :=
  ((List.range (min 6 (fieldOf b 3 1))).flatMap fun a => span (76 + 16 * a) (79 + 16 * a)).find? fun j => fieldOf b j 1 ≠ 0

/-- The port arrangement a class allows (Table 11.1). -/
def arrangement (s : State) (a : ArrayEnt) : Bool :=
  match bitsOf a.ports 16 with
  | [p] => decide (a.cls ≠ 3) && (portOf s p).pair.isNone
  | [p, q] => decide (a.cls ≠ 1) && decide ((portOf s p).pair = some q)
  | _ => false

/-- The window size of a class, or its range for class 0 (Table 11.1). -/
def windowSize (a : ArrayEnt) : Bool :=
  match a.cls with
  | 0 => decide (64 ≤ a.ww ∧ a.ww ≤ 8192 ∧ 64 ≤ a.wh ∧ a.wh ≤ 4320)
  | 1 => decide (a.ww = 2048 ∧ a.wh = 1080)
  | 2 => decide (a.ww = 4096 ∧ a.wh = 2160)
  | _ => decide (a.ww = 8192 ∧ a.wh = 4320)

/-- Reason 2: the array entries; one at or above ARRAYS that is not zero too, as R260 gives it no other reason (DESIGN CHOICE,
notes/assumptions/79.md). -/
def arraysBad (s : State) (k : Nat) (c : HeadCfg) (b : List Byte) : Option Nat :=
  let n := fieldOf b 3 1
  (List.range 6).findSome? fun i =>
    let o := 64 + 16 * i
    if n ≤ i then ((span o (o + 15)).find? fun j => fieldOf b j 1 ≠ 0)
    else
      let a := parseArray b i
      let ps := bitsOf a.ports 16
      let others := ((List.range n).filter (· ≠ i)).map (parseArray b)
      (List.find? (·.1)
        [(ps.isEmpty || ps.any (fun p => !bitOf c.ports p || (portOf s p).owner != some k || (portOf s p).scan) ||
            !arrangement s a || others.any (fun x => ps.any fun p => bitOf x.ports p), o),
         (decide (fieldOf b 4 1 ≤ a.seq), o + 2), (decide (3 < a.cls), o + 3),
         (decide (c.canvasW < a.wx + a.ww), o + 4), (decide (c.canvasH < a.wy + a.wh), o + 6),
         (!windowSize a, o + 8)]).map (·.2)

/-- Reason 3: PRIM_CHAN under R264; scan-line mode bars the axis channels too. -/
def chansBad (c : HeadCfg) (r : Recipe) (barred : List Nat) : Option Nat :=
  ((r.chans.zipIdx).find? fun x =>
    decide (x.1 = 0) || decide (x.1 &&& c.channels ≠ x.1) || barred.any (bitOf x.1) ||
      (r.chans.zipIdx).any fun y => decide (y.2 < x.2) && decide (x.1 &&& y.1 ≠ 0)).map fun x => 24 + 6 * x.2

/-- Reason 4: the slot entries; τ_k and g_k are held to the limits of the arrays that show the sequence, 8,000 in every class
(R263, Table 11.1). -/
def slotsBad (r : Recipe) : Option Nat :=
  (r.slots.zipIdx).findSome? fun (x, j) =>
    let o := 160 + 16 * j
    let mine := r.slots.filter fun y => y.prim = x.prim
    let shown := !(r.showing x.seq).isEmpty
    (List.find? (·.1)
      [(decide (r.seqs ≤ x.seq) || mine.any (fun y => y.seq != x.seq), o),
       (decide ((r.slots.filter fun y => y.seq = x.seq).length ≤ x.order), o + 1),
       (decide (r.chans.length ≤ x.prim) || decide (64 < mine.length), o + 2),
       (decide (r.depth.getD x.prim 0 ≤ x.bit), o + 3), (decide (x.amp < 1 ∨ 4096 < x.amp), o + 4),
       (decide (x.settle < 1) || (shown && decide (x.gap < 8000)), o + 6), (shown && decide (x.onTime < 8000), o + 12)]).map (·.2)

/-- Reason 5: ORDER values of each sequence. -/
def ordersBad (r : Recipe) : Option Nat :=
  match (List.range r.seqs).find? fun q => (r.slots.filter fun x => x.seq = q).isEmpty with
  | some _ => some 4
  | none => (r.slots.zipIdx).findSome? fun (x, j) =>
      let n := (r.slots.filter fun y => y.seq = x.seq).length
      let dup := ((r.slots.take j).any fun y => y.seq = x.seq ∧ y.order = x.order)
      if n ≤ x.order ∨ dup then some (161 + 16 * j) else none

/-- W_b of a primary (R262). -/
def weightOf (r : Recipe) (p b : Nat) : Nat :=
  total ((r.slots.filter fun x => x.prim = p ∧ x.bit = b).map fun x => x.onTime * x.amp)

/-- |a - b| x 2,048 is at most b. -/
def near2048 (a b : Nat) : Bool := decide (((a : Int) - b).natAbs * 2048 ≤ b)

/-- Reason 7: weights (R262); of the bits that fail, the one whose byte comes first. -/
def weightsBad (r : Recipe) : Option Nat :=
  leastOf ((r.depth.zipIdx).flatMap fun (d, p) =>
    (List.range d).filterMap fun b =>
      match r.slots.find? fun x => x.prim = p ∧ x.bit = b with
      | none => some (8 + p)
      | some x => if near2048 (weightOf r p b) (2 ^ b * weightOf r p 0) then none else some (r.slotOffset x + 4))

/-- Reason 8: every settle gap covers the leads of its primary's channels (R24). -/
def leadsBad (s : State) (r : Recipe) : Option Nat :=
  (r.slots.find? fun x => decide (x.gap < maxLead s (r.chans.getD x.prim 0))).map fun x => r.slotOffset x + 6

/-- The checks of Table 11.6 in order: offset and reason of the first that fails. -/
def planeRecipeBad (s : State) (k : Nat) (c : HeadCfg) (b : List Byte) (len : Nat) (r : Recipe) : Option (Nat × Nat) :=
  let tag := fun (n : Nat) (x : Option Nat) => x.map fun o => (o, n)
  (tag 1 ((headerBad b len).orElse fun _ => arraysReserved b)).orElse fun _ =>
  (tag 2 (arraysBad s k c b)).orElse fun _ =>
  (tag 3 (chansBad c r [])).orElse fun _ =>
  (tag 4 (slotsBad r)).orElse fun _ =>
  (tag 5 (ordersBad r)).orElse fun _ =>
  (tag 6 ((spacingBad s r c.pmin).map fun x => r.slotOffset x + 8)).orElse fun _ =>
  (tag 7 (weightsBad r)).orElse fun _ => tag 8 (leadsBad s r)

/-! ### Table 14.2 -/

/-- Field width of a scan-line slot: to the next higher BIT of its primary, or to DEPTH (R339). -/
def fieldWidth (r : Recipe) (x : Slot) : Nat :=
  let up := (r.slots.filter fun y => y.prim = x.prim ∧ x.bit < y.bit).map (·.bit)
  up.foldl min (r.depth.getD x.prim 0) - x.bit

/-- The scan-line header: ARRAYS 0 and SEQUENCES 1. -/
def scanHeaderBad (b : List Byte) (len : Nat) : Option Nat :=
  let as := fun n v (b : List Byte) => upd b n fun _ => BitVec.ofNat 8 v
  let l := (headerBad (padTo (max b.length 160) (as 3 1 (as 4 1 b))) len).toList ++
    (if fieldOf b 3 1 ≠ 0 then [3] else []) ++ (if fieldOf b 4 1 ≠ 1 then [4] else [])
  l.foldl (fun m o => some (m.elim o (min o))) none

def scanSlotsBad (r : Recipe) : Option Nat :=
  let n := r.chans.length
  let per := r.slots.length / max 1 n
  (r.slots.zipIdx).findSome? fun (x, j) =>
    let o := 160 + 16 * j
    let mine := (r.slots.filter fun y => y.prim = x.prim).length
    (List.find? (·.1)
      [(decide (x.seq ≠ 0), o), (decide (n ≤ x.prim ∨ mine ≠ per ∨ per < 1 ∨ 4 < per ∨ per * n ≠ r.slots.length), o + 2),
       (decide (x.amp < 1 ∨ 4096 < x.amp), o + 4), (decide (x.settle ≠ 0), o + 6), (decide (x.offset ≠ 0), o + 8),
       (decide (x.onTime ≠ 0), o + 12)]).map (·.2)

def scanOrdersBad (r : Recipe) : Option Nat :=
  let per := r.slots.length / max 1 r.chans.length
  ((r.slots.zipIdx).findSome? fun (x, j) =>
    let before := (r.slots.take j).filter fun y => y.prim = x.prim
    let o := 160 + 16 * j
    (List.find? (·.1)
      [(decide (per ≤ x.order) || before.any (fun y => y.order == x.order), o + 1),
       (before.any (fun y => y.bit == x.bit) || decide (fieldWidth r x < 1 ∨ 16 < fieldWidth r x), o + 3)]).map (·.2)).orElse
  fun _ =>
    (r.depth.zipIdx).findSome? fun (d, p) =>
      let bits_ := (r.slots.filter fun y => y.prim = p).map (·.bit)
      if !bits_.contains 0 then some (8 + p)
      else
        let dr := r.depthR.getD p 0
        if dr ≠ 0 ∧ !bits_.contains (d - dr) then some (14 + p) else none

/-- Reason 7 of Table 14.2. -/
def scanWeightsBad (r : Recipe) : Option Nat :=
  let w := fun x : Slot => x.amp * 2 ^ (16 - fieldWidth r x)
  (r.slots.find? fun x =>
    let u := (r.slots.find? fun y => y.prim = x.prim ∧ y.bit = 0).elim 0 w
    !near2048 (w x) (2 ^ x.bit * u)).map fun x => r.slotOffset x + 4

/-- R344 against every set-up of the scanner in force or pending: the least item that one of them fails. -/
def scanRecipeFit (s : State) (k : Nat) (c : HeadCfg) (r : Recipe) : Option Nat :=
  leastOf ((headOf s k).scan.setups.filterMap fun sc =>
    scanFitBad c sc (r.slots.length / max 1 r.chans.length) r.chans.length (portOf s sc.port).rtx
      (r.chans.foldl (fun m x => max m (maxLead s x)) 0))

/-- The checks of Table 14.2 in order. -/
def scanRecipeBad (s : State) (k : Nat) (c : HeadCfg) (b : List Byte) (len : Nat) (r : Recipe) : Option (Nat × Nat) :=
  let tag := fun (n : Nat) (x : Option Nat) => x.map fun o => (o, n)
  let axes := (headOf s k).scan.setups.flatMap fun sc => [sc.fastChan, sc.slowChan]
  (tag 1 (scanHeaderBad b len)).orElse fun _ =>
  (tag 2 ((span 64 159).find? fun i => fieldOf b i 1 ≠ 0)).orElse fun _ =>
  (tag 3 (chansBad c r axes)).orElse fun _ =>
  (tag 4 (scanSlotsBad r)).orElse fun _ =>
  (tag 5 (scanOrdersBad r)).orElse fun _ =>
  match scanRecipeFit s k c r with
  | some 4 => (tag 7 (scanWeightsBad r)).orElse fun _ => some (24, 8)
  | some _ => some (0, 6)
  | none => tag 7 (scanWeightsBad r)

/-- Whether a Recipe in force or pending fails R263, or the fit of R344, at a new rate: the first failing slot's offset
(R271). -/
def rateRefused (s : State) (k : Nat) (c : HeadCfg) : Option Nat :=
  let h := headOf s k
  (h.press.recipe.toList ++ h.press.pending.toList.map (·.1)).findSome? fun r =>
    if r.isScan then (match scanRecipeFit s k c r with | some 1 => some 160 | _ => none)
    else (spacingBad s r c.pmin).map r.slotOffset

end Sys2Proof.Machine
end

