-- ==== Sys2Proof/Machine/HeadConfig.lean ====
section
/-!
DEFINITION. Meanings of HEAD_CONFIG and HEAD_RELEASE (R12 to R19, R205 to R210), with the announcement of a frame lock
(R521) that a change of rate sends.
-/

namespace Sys2Proof.Machine

/-! ### The block and the head's profile -/

/-- Profile quantities of Table 9.1: block offset, width and index of the field ID 0x8000 + 8 q + k. -/
def profileFields : List (Nat × Nat × Nat) :=
  [(4, 4, 0), (8, 4, 1), (20, 4, 2), (24, 4, 3), (28, 2, 4), (30, 2, 5), (52, 4, 6), (56, 8, 7), (64, 4, 8), (68, 4, 9),
   (72, 4, 10), (76, 4, 11)]

/-- The factory profile (R205). -/
def factoryProfile : List Nat :=
  [60, 1, 2000000, 80000, 4096, 2160, 48, 0, 35400 + 65536 * 14600, 8500 + 65536 * 39850, 6550 + 65536 * 2300,
   15635 + 65536 * 16450]

/-- A quantity of a head's profile (R102, R205). -/
def profileValue (s : State) (k q : Nat) : Nat :=
  ((getKey (0x8000 + 8 * q + k) s.startup.hFields).map leNat).getD (factoryProfile.getD q 0)

def isForm (b : List Byte) (f : Nat × Nat × Nat) : Bool := decide (fieldOf b f.1 f.2.1 = 256 ^ f.2.1 - 1)

/-- The block offsets that hold the profile code. -/
def formsOf (b : List Byte) : List Nat := (profileFields.filter (isForm b)).map (·.1)

/-- The block with every profile code replaced by the profile's value. -/
def resolveBlock (s : State) (b : List Byte) : List Byte :=
  let k := fieldOf b 0 1
  profileFields.foldl (fun r f =>
    if isForm b f then r.take f.1 ++ leBytes f.2.1 (profileValue s k f.2.2) ++ r.drop (f.1 + f.2.1) else r) b

/-- Three 20-bit working values (BG, FILL). -/
def working3 (v : Nat) : List Nat := [bits v 0 20, bits v 20 20, bits v 40 20]

/-- LEAD within R19, and GUARD within Table 9.1. -/
def clampLead (n d v : Nat) : Nat := clampNat 200000 (min 16000000 (sec * d / (2 * max 1 n))) v
def clampGuard (n d v : Nat) : Nat := clampNat 40000 (min 4000000 (sec * d / (4 * max 1 n))) v

/-- The configuration a resolved block asks for. -/
def blockCfg (b : List Byte) : HeadCfg :=
  let n := fieldOf b 4 4
  let d := fieldOf b 8 4
  { scan := fieldOf b 1 1 == 1, forerunner := fieldOf b 2 1, rateN := n, rateD := d, anchor := fieldOf b 12 8, anchorF := 0,
    lead := clampLead n d (fieldOf b 20 4), guard := clampGuard n d (fieldOf b 24 4), canvasW := fieldOf b 28 2,
    canvasH := fieldOf b 30 2, ports := fieldOf b 32 2, channels := fieldOf b 36 6,
    comp := [fieldOf b 44 2, fieldOf b 46 2, fieldOf b 48 2], peak := fieldOf b 52 4, bg := working3 (fieldOf b 56 8),
    prims := [fieldOf b 64 4, fieldOf b 68 4, fieldOf b 72 4, fieldOf b 76 4] }

/-- Whether LEAD or GUARD was outside its range. -/
def blockClamped (b : List Byte) (c : HeadCfg) : Bool :=
  c.lead != fieldOf b 20 4 || c.guard != fieldOf b 24 4

/-- Step 1 of R206: the block offset of the first field outside its range, or reserved byte that is not zero (R329). -/
def blockBad (b : List Byte) : Option Nat :=
  let f := fieldOf b
  let np := (bitsOf (f 32 2) 16).length
  let z := fun i => (decide (f i 1 ≠ 0), i)
  (List.find? (·.1)
    ([(decide (7 < f 0 1), 0), (decide (1 < f 1 1), 1), (decide (f 2 1 = 1 ∨ 8 < f 2 1), 2), z 3,
      (decide (f 4 4 = 0), 4), (decide (f 8 4 = 0), 8),
      (decide (f 28 2 < 64 ∨ 8192 < f 28 2 ∨ f 28 2 % 4 ≠ 0), 28), (decide (f 30 2 < 64 ∨ 4320 < f 30 2), 30),
      (decide (np = 0 ∨ 6 < np) || (decide (f 1 1 = 1) && decide (np ≠ 1)), 32), z 34, z 35, z 42, z 43, z 50, z 51,
      (decide (f 52 4 < 48 ∨ 10000 < f 52 4), 52), (decide (16 ≤ f 63 1), 56)] ++
     [64, 68, 72, 76].map (fun i => (decide (f (i + 2) 2 = 0), i)) ++ (span 80 127).map z)).map (·.2)

/-! ### Checks 2 to 5 -/

/-- Step 2 of R206 for one handle. -/
def compBad (s : State) (k : Nat) (c : HeadCfg) (h : Nat) : Bool :=
  match exhOf s h with
  | none => true
  | some e => e.kind != 1 || e.archive || decide (e.size < compPitch c.canvasW * c.canvasH) ||
      !(e.state == .free || e.state == .ready) || (inChain s h).isSome || (headOwned s h).any (fun o => o != k)

/-- Step 3 of R206 (R225). -/
def vitrineRefuses (s : State) (k : Nat) (c : HeadCfg) : Option (Nat × List Byte) :=
  let v := (headOf s k).vit
  if v.mask ∧ (v.canvasW ≠ c.canvasW ∨ v.canvasH ≠ c.canvasH) then
    some (0x985, u16 c.canvasW ++ u16 c.canvasH ++ u16 v.canvasW ++ u16 v.canvasH)
  else if v.gate ∧ !v.loaded then some (0x986, u8 k)
  else none

/-- R207: the first field that may not change.  F_0 is unchanged where it is what the block that configured the head named, or what
R16 made of it (DESIGN CHOICE; notes/assumptions/73.md). -/
def runningDiff (old new : HeadCfg) : Option Nat :=
  (List.find? (·.1)
    [(old.scan != new.scan, 1), (old.forerunner != new.forerunner, 2), (!old.f0.contains new.anchor, 12),
     (old.canvasW != new.canvasW, 28), (old.canvasH != new.canvasH, 30), (old.ports != new.ports, 32),
     (old.channels != new.channels, 36), (old.comp.getD 0 0 != new.comp.getD 0 0, 44),
     (old.comp.getD 1 0 != new.comp.getD 1 0, 46), (old.comp.getD 2 0 != new.comp.getD 2 0, 48)]).map (·.2)

/-- 24,000/1,001 <= N/D <= 480 (R14). -/
def rateOk (n d : Nat) : Bool := decide (24000 * d ≤ 1001 * n) && decide (n ≤ 480 * d)

/-- R13 and R14: resource code and instance. -/
def resourceRefused (s : State) (k : Nat) (c : HeadCfg) : Option (Nat × Nat) :=
  let other := fun o : Option Nat => o.any (fun x => x != k)
  match (bitsOf c.ports 16).find? fun p => other (portHead s p) with
  | some p => some (0xF0, p)
  | none => match (bitsOf c.channels 48).find? fun x => other (chanOwner s x) with
    | some x => some (0xF1, x)
    | none => match (bitsOf c.ports 16).find? fun p => (portOf s p).pair.any fun q => !bitOf c.ports q with
      | some p => some (0xF2, p)
      | none => if rateOk c.rateN c.rateD then none else some (0xF3, 0)

/-- R16: the anchor used. -/
def anchorFor (c : HeadCfg) (now : Nat) : Nat :=
  let bound := now + c.periods 2 + c.lead
  if c.anchor < bound then c.flip (c.firstFlip bound) else c.anchor

/-! ### Frame-lock announcements -/

/-- The payload of a LOCK announcement (Table 22.8, R521, R523). -/
def lockPayload (s : State) (k : Nat) : List Byte :=
  let p := (headOf s k).pipe
  match p.cfg with
  | none => []
  | some c =>
    let ch := p.nextRate.elim (0, 0, 0) fun x => (p.flipAt x.1, x.2.1, x.2.2.1)
    u16 (lockOf s k).lockId ++ u8 k ++ u8 1 ++ u32 c.rateN ++ u32 c.rateD ++ u64 c.anchor ++ u32 c.anchorF ++
      u64 ch.1 ++ u32 ch.2.1 ++ u32 ch.2.2 ++ List.replicate 8 0

/-- A master announces to every device that has sent it a request (R521). -/
def announceLock (k : Nat) (s : State) : State :=
  let l := lockOf s k
  if l.role = 1 ∧ configured s k then
    forEach l.followers (fun dev s => catSend 0x0E 1 dev 0 (lockPayload s k) s) (modLock k (fun l => { l with toldAt := s.now }) s)
  else s

/-! ### HEAD_CONFIG -/

/-- A new head starts with every layer disabled (R206, R209, R354, R355). -/
def startHead (d : Desc) (k : Nat) (c : HeadCfg) (forms : List Nat) (s : State) : State :=
  let s := putItem (.head k) d (headUnits s k c) s
  modHead k (fun h =>
    let b := bareHead h
    { b with
      pipe := { b.pipe with cfg := some c, forms := forms, cls := d.cls, fence := 0xFFFFFFFF, bg0 := c.bg, parkDue := none }
      solver := { b.solver with cfg := { b.solver.cfg with lum := 65536, skip := 2000, minSamp := 16, staleN := 8 } } }) s

def configureNew (d : Desc) (k : Nat) (c : HeadCfg) (b : List Byte) (forms : List Nat) (s : State) : State :=
  match shortage s (.head k) (headUnits s k c) with
  | some (slot, n) => complete d 0x20 (shortDetail slot n) s
  | none =>
    let a := anchorFor c s.now
    let s := startHead d k { c with anchor := a, f0 := [c.anchor, a] } forms s
    if a ≠ c.anchor ∨ blockClamped b c then complete d 1 (u64 a) s else complete d 0 [] s

/-- A write of a descriptor joins the open shadow (R228). -/
def openWrite (k : Nat) (d : Desc) (sh : Shadow) (s : State) : State :=
  modPipe k (fun p => { p with openSh := p.openSh ++ [{ ring := d.ring, at_ := s.now, shadow := sh }] }) s

/-- The fields other than RATE and LEAD go to the open shadow (R207). -/
def shadowFields (k : Nat) (d : Desc) (c : HeadCfg) : State → State :=
  openWrite k d { Reset.shadow with guard := some c.guard, peak := some c.peak, bg := some c.bg, prims := some c.prims }

/-- Whether a change of the head's rate is its lock's and not its own: a follower's, or a re-anchor (R522, R523). -/
def rateFollows (s : State) (k : Nat) : Bool := decide ((lockOf s k).role = 2) || (headOf s k).pipe.reAt.isSome

/-- RATE and LEAD wait for F_m, the first flip at least 2 P + L after the completion, at the larger values (R207).  They take the
place of a change still waiting; one that the head follows keeps its frame and its rate (DESIGN CHOICE;
notes/assumptions/73.md). -/
def scheduleRate (k : Nat) (old new : HeadCfg) (s : State) : State :=
  if old.rateN * new.rateD = new.rateN * old.rateD ∧ old.lead = new.lead then s
  else if rateFollows s k && (headOf s k).pipe.nextRate.isSome then
    modPipe k (fun p => { p with nextRate := p.nextRate.map fun x => (x.1, x.2.1, x.2.2.1, new.lead) }) s
  else
    let m := old.firstFlip (s.now + max (old.periods 2) (new.periods 2) + max old.lead new.lead)
    announceLock k (modPipe k (fun p => { p with nextRate := some (m, new.rateN, new.rateD, new.lead) }) s)

/-- A HEAD_CONFIG that names the RATE and LEAD in force takes back a change of them that still waits. -/
def keepRate (k : Nat) (old new : HeadCfg) (s : State) : State :=
  if old.rateN * new.rateD = new.rateN * old.rateD ∧ old.lead = new.lead ∧ !rateFollows s k ∧ (headOf s k).pipe.nextRate.isSome then
    announceLock k (modPipe k (fun p => { p with nextRate := none }) s)
  else s

def rateChanged (old new : HeadCfg) : Bool := decide (old.rateN * new.rateD ≠ new.rateN * old.rateD)

/-- A follower meets the rate its master announced (R523): a pending change applies at the same F_m under R17; where R271 or
admission forbids it, or the rates differ with no change to follow, the lock is lost with cause 1. -/
def followChange (k : Nat) (s : State) : State :=
  let l := lockOf s k
  let p := (headOf s k).pipe
  match l.word, p.cfg with
  | some w, some c =>
    let n := if w.changeAt = 0 then w.n else w.newN
    let dn := if w.changeAt = 0 then w.d else w.newD
    if l.role ≠ 2 then s
    else match l.reanchor with
    | some (_, _, fs, _) => if w.changeAt ≠ 0 ∧ w.changeAt ≤ fs ∧ n * c.rateD ≠ c.rateN * dn then dropLock k 1 s else s
    | none =>
      if p.nextRate.isSome ∨ n * c.rateD = c.rateN * dn then s
      else
        let cost := { c with rateN := n, rateD := dn }
        if w.changeAt = 0 ∨ !rateOk n dn ∨ (rateRefused s k cost).isSome ∨ (shortageMany s (repriceHead s k cost)).isSome then
          dropLock k 1 s
        else
          let s := forEach (repriceHead s k cost) (fun x => reUnit x.1 x.2) s
          modPipe k (fun p => { p with nextRate := some (c.firstFlip w.changeAt, n, dn, c.lead) }) s
  | _, _ => s

/-- A HEAD_CONFIG for a configured head (R207, R271, R523). -/
def configureRunning (d : Desc) (k : Nat) (old new : HeadCfg) (b : List Byte) (forms : List Nat) (s : State) : State :=
  let cost := { new with anchor := old.anchor, anchorF := old.anchorF }
  match runningDiff old new with
  | some o => complete d 0x981 (u16 o) s
  | none =>
    if rateChanged old new ∧ (lockOf s k).role = 2 then complete d 0x1685 (u8 k) s
    else match (if rateChanged old new then rateRefused s k cost else none) with
    | some o => complete d 0xB82 (u32 o) s
    | none =>
      match resourceRefused s k new with
      | some (r, i) => complete d 0x20 (u8 r ++ u8 i) s
      | none =>
        match shortageMany s (repriceHead s k cost) with
        | some (slot, n) => complete d 0x20 (shortDetail slot n) s
        | none =>
          let s := forEach (repriceHead s k cost) (fun x => reUnit x.1 x.2) s
          let s := scheduleRate k old new (keepRate k old new (shadowFields k d new s))
          let s := modPipe k (fun p => { p with forms := forms }) s
          if blockClamped b new then complete d 1 (u64 old.anchor) s else complete d 0 [] s

def headConfigGo (d : Desc) (raw : List Byte) (s : State) : State :=
  let b := resolveBlock s raw
  let forms := formsOf raw
  match blockBad b with
  | some o => complete d 0x98A (u16 o) s
  | none =>
    let k := fieldOf b 0 1
    let c := blockCfg b
    if c.comp.any (compBad s k c) then complete d 0x13 [] s
    else match vitrineRefuses s k c with
      | some (st, det) => complete d st det s
      | none =>
        match (headOf s k).pipe.cfg with
        | some old => configureRunning d k old c b forms s
        | none => match resourceRefused s k c with
          | some (r, i) => complete d 0x20 (u8 r ++ u8 i) s
          | none => bootShed 3 6 (fun i => i.kind == .head k && !bitOf (regField s 0x01100024 0 8) k) (configureNew d k c b forms s)

/-- LENGTH and the block's read (R205, Table 5.7), then the checks of R206. -/
def headConfigAct (buf : HostBuf) (d : Desc) (s : State) : State :=
  if d.length < 128 then complete d 0x980 (u32 d.length) s
  else match bufOf d buf s with
    | .error x => complete d 0x501 (u64 x.length) s
    | .data x => headConfigGo d (padTo 128 x) s

def headConfigOver (d : Desc) (_ : State) : Bool := decide (128 < d.length)

def execHeadConfig (dt : Nat) (d : Desc) (buf : HostBuf) (s : State) : Res :=
  .next (runDesc ⟨0x0601, false, false, true, true, true, span 24 63⟩ d noBad headConfigOver (headConfigAct buf) (tick dt s))

/-! ### HEAD_RELEASE -/

/-- A payload byte that must name a configured head. -/
def headBad (i : Nat) (d : Desc) (s : State) : Option (List Byte) :=
  badField [(decide (7 < d.p8 i) || !configured s (d.p8 i), i)]

/-- The release takes effect at the first CSE that meets the guard (R210); it ends a Cave hold (R324). -/
def headReleaseAct (d : Desc) (s : State) : State :=
  let k := d.p8 16
  if (headOf s k).pipe.releasing.isSome then complete d 0x984 (u8 k) s
  else
    let s := headChanged k d.t s
    let n := (headOf s k).pipe.meets d.t
    modPipe k (fun p => { p with releasing := some (d, if (headOf s k).cave.state = .leaving then
      max n (headOf s k).cave.live else n) }) s

def execHeadRelease (dt : Nat) (d : Desc) (s : State) : Res :=
  .next (runDesc (specI0 0x0602 (span 17 63)) d (headBad 16) noOver headReleaseAct (tick dt s))

end Sys2Proof.Machine
end

