-- ==== Sys2Proof/Machine/Presets.lean ====
section
/-!
DEFINITION. The conversion presets of Table 9.6 (R214): transfer curves and encoding matrices, each entry one of the two
integers next to the value that the curve or matrix gives.  Which one is open (Config.roundUp), and so are the standards'
constants, taken from the standards the table names (notes/assumptions/74.md).
-/

namespace Sys2Proof.Machine

/-! ### Powers with 128 fraction bits -/

/-- Terms of z + z^3/3 + z^5/5 + …; z at most 1/3, 44 terms leave less than 2^-128. -/
def atanhTerms : Nat → Int → Int → Int → Int
  | 0, _, _, _ => 0
  | f + 1, z2, k, t => t / (2 * k + 1) + atanhTerms f z2 (k + 1) (mulFix t z2)

/-- ln of a value of 1 to 2, both with 128 fraction bits. -/
def lnUnit (m : Int) : Int :=
  let z := (m - 2 ^ 128) * 2 ^ 128 / (m + 2 ^ 128)
  2 * atanhTerms 44 (mulFix z z) 0 z

def ln2Fix : Int := lnUnit (2 ^ 129)

/-- ln of a positive value with 128 fraction bits. -/
def lnFix (x : Nat) : Int :=
  let e := Nat.log2 x
  lnUnit (if e < 128 then (x * 2 ^ (128 - e) : Nat) else (x / 2 ^ (e - 128) : Nat)) + ((e : Int) - 128) * ln2Fix

/-- Terms of r^k / k! from index k on, the last one given. -/
def expTerms : Nat → Int → Int → Int → Int
  | 0, _, _, _ => 0
  | f + 1, r, k, t => t + expTerms f r (k + 1) (mulFix t r / (k + 1))

/-- e^y with 128 fraction bits. -/
def expFix (y : Int) : Nat :=
  let k := y / ln2Fix
  let v := (expTerms 40 (y - k * ln2Fix) 0 (2 ^ 128)).toNat
  if 0 ≤ k then v * 2 ^ k.toNat else v / 2 ^ (-k).toNat

/-- x^(n/d) of a value that is not negative, with 128 fraction bits. -/
def powFix (x : Nat) (n : Int) (d : Nat) : Nat := if x = 0 then 0 else expFix (lnFix x * n / (max 1 d : Nat))

/-! ### Transfer presets (Table 9.6) -/

/-- One as a value with 128 fraction bits. -/
def oneFix : Nat := 2 ^ 128

/-- PQ of SMPTE ST 2084: luminance over 10,000 cd/m2. -/
def pqEotf (x : Nat) : Nat :=
  let p := powFix x 32 2523
  let c1 := oneFix * 3424 / 4096
  powFix ((p - c1) * oneFix / (oneFix * 2413 / 128 - 2392 * p / 128)) 8192 1305

/-- HLG of BT.2100 without its OOTF: scene light of a signal value. -/
def hlgScene (x : Nat) : Nat :=
  let a := oneFix * 17883277 / 100000000
  let b := oneFix - 4 * a
  let c : Int := (oneFix / 2 : Nat) - mulFix a (lnFix (4 * a))
  if 2 * x ≤ oneFix then (mulFix x x / 3).toNat else (expFix (((x : Int) - c) * oneFix / (a : Int)) + b) / 12

/-- The system gamma 1.2 + 0.42 log10(PEAK / 1,000) with 128 fraction bits. -/
def hlgGamma (peak : Nat) : Int :=
  oneFix * 12 / 10 + (42 : Int) * ((lnFix (peak * oneFix / 1000)) * oneFix / lnFix (10 * oneFix)) / 100

/-- The light of a signal value, 1.0 for PEAK: presets 0 to 5 of Table 9.6, each component on its own. -/
def transferOf (tf peak x : Nat) : Nat :=
  match tf with
  | 0 => x
  | 1 => powFix x 24 10
  | 2 => powFix x 22 10
  | 3 => powFix x 26 10
  | 4 => min oneFix (pqEotf x * 10000 / max 1 peak)
  | _ => let e := hlgScene x
         if e = 0 then 0 else expFix (mulFix (lnFix e) (hlgGamma peak))

/-- A value with 128 fraction bits as the table holds it: one of its two neighbouring integers, itself where it is one. -/
def roundFix (key : List Nat) (i : Nat) (x : Nat) : Nat :=
  x / oneFix + (if x % oneFix = 0 then 0 else bit (Config.roundUp key i))

/-- The LUT of a transfer preset: entry i is the light of the 16-bit signal value 16 i, in 20 bits, for each component. -/
def transferLut (tf peak : Nat) : List Nat :=
  let one := (List.range 4096).map fun i =>
    min 1048575 (roundFix [0, tf, peak] i (transferOf tf peak (16 * i * oneFix / 65535) * 1048575))
  one ++ one ++ one

/-! ### Encoding presets (Table 9.6) -/

/-- A rational coefficient as a matrix holds it. -/
def roundRat (key : List Nat) (i : Nat) (x : Rat) : Int :=
  x.floor + (if x.den = 1 then 0 else (bit (Config.roundUp key i) : Int))

/-- Luma weights of red and blue. -/
def lumaOf (enc : Nat) : Rat × Rat := if enc = 1 then (2627 / 10000, 593 / 10000) else (2126 / 10000, 722 / 10000)

/-- Y'CbCr to R'G'B', or the identity for RGB and XYZ: rows of three. -/
def toRgb (enc sampling : Nat) : Mat3 :=
  if sampling = 0 then ((1, 0, 0), (0, 1, 0), (0, 0, 1))
  else
    let (kr, kb) := lumaOf enc
    let kg := 1 - kr - kb
    ((1, 0, 2 * (1 - kr)), (1, -(2 * kb * (1 - kb) / kg), -(2 * kr * (1 - kr) / kg)), (1, 2 * (1 - kb), 0))

/-- Zero and range of component j as stored, MSB-aligned in 16 bits: narrow range covers Y and R, G, B codes 16 to 235 and C codes
16 to 240; a full-range component covers all 16 bits. -/
def rangeOf (full : Bool) (sampling j : Nat) : Rat × Rat :=
  let c := decide (sampling ≠ 0) && decide (j ≠ 0)
  if full then (if c then (32768, 65535) else (0, 65535))
  else if c then (32768, 57344) else (4096, 56064)

/-- Matrix A of a preset: nine coefficients with 16 fraction bits, three offsets in output units. -/
def presetA (enc sampling : Nat) (full : Bool) : List Int :=
  let m := toRgb enc sampling
  let rows : List Vec3 := [m.1, m.2.1, m.2.2]
  let gain := fun j : Nat => 65535 / (rangeOf full sampling j).2
  let key := [1, enc, sampling, bit full]
  let at_ := fun (v : Vec3) (j : Nat) => [v.1, v.2.1, v.2.2].getD j 0 * gain j
  (rows.zipIdx.flatMap fun x => (List.range 3).map fun j => roundRat key (3 * x.2 + j) (65536 * at_ x.1 j)) ++
    rows.zipIdx.map fun x => roundRat key (9 + x.2)
      (-(at_ x.1 0 * (rangeOf full sampling 0).1 + at_ x.1 1 * (rangeOf full sampling 1).1 + at_ x.1 2 * (rangeOf full sampling 2).1))

/-- XYZ of a chromaticity with Y = 1. -/
def xyzOf (c : Rat × Rat) : Vec3 := (rquot c.1 c.2, 1, rquot (1 - c.1 - c.2) c.2)

/-- The matrix to XYZ of primaries and a white of luminance 1. -/
def toXyz (r g b w : Rat × Rat) : Mat3 :=
  let m := mtrans (xyzOf r, xyzOf g, xyzOf b)
  let k := mvec (minv m) (xyzOf w)
  mtrans (vscale k.1 (xyzOf r), vscale k.2.1 (xyzOf g), vscale k.2.2 (xyzOf b))

def d65 : Rat × Rat := (3127 / 10000, 3290 / 10000)

/-- An encoding's primaries to XYZ. -/
def encXyz (enc : Nat) : Mat3 :=
  match enc with
  | 0 => toXyz (64 / 100, 33 / 100) (30 / 100, 60 / 100) (15 / 100, 6 / 100) d65
  | 1 => toXyz (708 / 1000, 292 / 1000) (170 / 1000, 797 / 1000) (131 / 1000, 46 / 1000) d65
  | 2 => toXyz (680 / 1000, 320 / 1000) (265 / 1000, 690 / 1000) (150 / 1000, 60 / 1000) (314 / 1000, 351 / 1000)
  | 3 => toXyz (680 / 1000, 320 / 1000) (265 / 1000, 690 / 1000) (150 / 1000, 60 / 1000) d65
  | _ => ((1, 0, 0), (0, 1, 0), (0, 0, 1))

/-- A chromaticity as Table 9.1 codes it. -/
def chromaOf (v : Nat) : Rat × Rat := ((bits v 0 16 : Nat) / 50000, (bits v 16 16 : Nat) / 50000)

/-- Matrix B of a preset: the encoding's primaries to the working ones and their white, without chromatic adaptation; the bound
of ±8.0 is the caller's. -/
def presetB (enc : Nat) (prims : List Nat) : List Int :=
  let p := fun i => chromaOf (prims.getD i 0)
  let inv := minv (toXyz (p 0) (p 1) (p 2) (p 3))
  let t := mtrans (encXyz enc)
  let cols := [mvec inv t.1, mvec inv t.2.1, mvec inv t.2.2]
  (List.range 3).flatMap (fun i => (List.range 3).map fun j =>
    let v := cols.getD j (0, 0, 0)
    roundRat ([2, enc] ++ prims) (3 * i + j) (65536 * [v.1, v.2.1, v.2.2].getD i 0)) ++ [0, 0, 0]

end Sys2Proof.Machine
end

