-- ==== Sys2Proof/Machine/Layers.lean ====
section
/-!
DEFINITION. Shadows and their commits: meanings of LAYER_SET (R211 to R215), COEF_LOAD (R248, R249), COMMIT (R228,
R229), GROUP_COMMIT and the group packets (R234 to R236).
-/

namespace Sys2Proof.Machine

/-! ### Shadows -/

/-- Newer values prevail (R228). -/
def Shadow.merge (a b : Shadow) : Shadow :=
  { layers := b.layers.foldl (fun l x => setKey x.1 x.2 l) a.layers
    coefs := (a.coefs.filter fun c => !(b.coefs.any fun x => x.layer = c.layer ∧ x.set = c.set ∧ x.phase = c.phase)) ++ b.coefs
    dither := b.dither.foldl (fun l x => setKey x.1 x.2 l) a.dither
    profile := b.profile.orElse fun _ => a.profile
    guard := b.guard.orElse fun _ => a.guard
    peak := b.peak.orElse fun _ => a.peak
    bg := b.bg.orElse fun _ => a.bg
    prims := b.prims.orElse fun _ => a.prims }

/-- What a load writes: the sealed shadow that covers it, or the open one (R228). -/
def modShadow (k : Nat) (cover : Option Nat) (d : Desc) (sh : Shadow) (s : State) : State :=
  match cover.bind fun t => (headOf s k).pipe.sealed_.find? fun x => x.target = t with
  | some x => modPipe k (fun p => { p with sealed_ := p.sealed_.map fun y =>
      if y.target = x.target then { y with shadow := y.shadow.merge sh } else y }) s
  | none => openWrite k d sh s

/-- Loads that a commit covers as it covers a LAYER_SET (R228, R249, R258, R347). -/
def isShadowLoad (op : Nat) : Bool := op = 0x0801 || op = 0x0902 || op = 0x0C02

/-- Sealed shadows of one target are one, newer values prevailing (R228). -/
def joinSealed (l : List Sealed) : List Sealed :=
  l.foldl (fun acc x =>
    if acc.any fun y => y.target = x.target then
      acc.map fun y => if y.target = x.target then
        { y with shadow := y.shadow.merge x.shadow, commits := y.commits ++ x.commits } else y
    else acc ++ [x]) []

/-- The sealed shadow of one target moves to another, and the loads it covers with it. -/
def retarget (k a b : Nat) (s : State) : State :=
  let s := modPipe k (fun p => { p with sealed_ := joinSealed (p.sealed_.map fun x => if x.target = a then { x with target := b } else x) }) s
  { s with adm := { s.adm with transfers := s.adm.transfers.map fun t =>
      if t.object == k && isShadowLoad t.opcode && t.held == some a then { t with held := some b } else t } }

/-- A covered load that has missed its target's CSE ends: the commit waits for the first CSE whose guard the end meets
(R228). -/
def releaseCover (k : Nat) (t : Transfer) (s : State) : State :=
  match t.held with
  | some n => if t.fin then retarget k n (max n ((headOf s k).pipe.meets s.now)) s else s
  | none => s

/-- A buffer load has passed its checks: its transfer runs. -/
def startLoad (d : Desc) (op k : Nat) (s : State) : State := startXfer d op k 0 false s

/-- A buffer load ends: with its bytes, or with HOST_READ_ERROR and nothing changed (Table 5.7). -/
def endLoad (t : Transfer) (buf : HostBuf) (good : List Byte → State → State) (s : State) : State :=
  let s := { s with adm := { s.adm with transfers := s.adm.transfers.erase t } }
  let s := match buf with
    | .error b => if owes t.desc s then complete t.desc 0x501 (u64 b.length) s else s
    | .data b => good (padTo t.desc.length b) s
  if isShadowLoad t.opcode then releaseCover t.object t s else s

/-! ### LAYER_SET -/

/-- Whether an open flow may feed a layer (R212). -/
def flowFeeds (s : State) (ctx : Nat) : Bool :=
  match flowOf s ctx with
  | some f => decide (f.cfg.source = 0) || decide (f.cfg.source = 2) || decide (f.cfg.source = 3)
  | none => false

def layerOf (d : Desc) : Layer :=
  { enable := bitOf (d.p8 18) 0, srcFlow := bitOf (d.p8 18) 1, hidden := bitOf (d.p8 18) 2, full := bitOf (d.p8 18) 3,
    blend := d.p8 19, source := if bitOf (d.p8 18) 1 then d.context else d.p16 20, z := d.p8 22, tf := d.p8 23, enc := d.p8 24,
    hset := bits (d.p8 25) 0 2, vset := bits (d.p8 25) 2 2, srcX := d.p16 26, srcY := d.p16 28, srcW := d.p16 30,
    srcH := d.p16 32, dstX := d.s16 34, dstY := d.s16 36, dstW := d.p16 38, dstH := d.p16 40, alpha := d.p16 42,
    tables := ⟨[], [], []⟩, fill := working3 (d.p64 48), key := [d.p16 56, d.p16 58, d.p16 60] }

/-- The head, the source and the table exhibit (check 6). -/
def layerBad (d : Desc) (s : State) : Option (List Byte) :=
  let l := layerOf d
  let custom := decide (l.tf = 15 ∨ l.enc = 15)
  let src := if l.srcFlow then flowFeeds s l.source else (exhOf s l.source).any fun e => e.kind = 0
  let tab := !custom || (exhOf s (d.p16 44)).any fun e => e.kind = 1 ∧ 49248 ≤ e.size
  match headBad 16 d s with
  | some x => some x
  | none => badField [(l.enable && !src, 20), (l.enable && !tab, 44)]

/-- LAYER_INVALID: the payload offset of the first offending field (R212). -/
def layerInvalid (s : State) (c : HeadCfg) (d : Desc) : Option Nat :=
  let l := layerOf d
  let y := d.p8 17
  let fore := decide (c.forerunner ≠ 0)
  let gfx := !fore && decide (4 ≤ y)
  let (w, h, sm, _) := (layerSource s l).getD (0, 0, 0, 0)
  let odd := decide (sm = 2)
  if (if fore then c.forerunner ≤ y else 16 ≤ y) then some 17
  else if !l.enable then none
  else (List.find? (·.1)
    [(decide (16 ≤ d.p8 18), 18),
     (decide (3 < l.blend) || (fore && decide (l.blend ≠ 0 ∧ l.blend ≠ 3)) || (!fore && decide (y < 4 ∧ l.blend = 3)), 19),
     mustBeZero l.srcFlow d 20 21, (!fore && decide (15 < l.z), 22), (decide (5 < l.tf ∧ l.tf ≠ 15), 23),
     (decide (4 < l.enc ∧ l.enc ≠ 15) || decide (2 ≤ l.enc ∧ l.enc ≤ 4 ∧ sm ≠ 0), 24), (decide (16 ≤ d.p8 25), 25),
     (decide (w ≤ l.srcX) || (odd && decide (l.srcX % 2 = 1)), 26), (decide (h ≤ l.srcY), 28),
     (decide (l.srcW = 0 ∨ w < l.srcX + l.srcW) || (gfx && decide (8192 < l.srcW)) || (odd && decide (l.srcW % 2 = 1)) ||
        decide (32768 < l.srcW), 30),
     (decide (l.srcH = 0 ∨ h < l.srcY + l.srcH), 32),
     (decide (l.dstX < -8192 ∨ 8191 < l.dstX), 34), (decide (l.dstY < -8192 ∨ 8191 < l.dstY), 36),
     (decide (l.dstW < 1 ∨ 8192 < l.dstW) || (gfx && decide (l.dstW ≠ l.srcW)), 38),
     (decide (l.dstH < 1 ∨ 4320 < l.dstH) || (gfx && decide (l.dstH ≠ l.srcH)), 40),
     (decide ((if fore then 255 else 4096) < l.alpha), 42), (decide (d.p8 46 ≠ 0), 46), (decide (d.p8 47 ≠ 0), 47),
     (decide (16 ≤ d.p8 55), 55), (decide (d.p8 62 ≠ 0), 62), (decide (d.p8 63 ≠ 0), 63)]).map (·.2)

/-! ### Conversion tables (R214, R215) -/

/-- Twelve values of a matrix, clamped: coefficients to ±8.0, offsets to ±2^20; whether one was (R214). -/
def clampMatrix (raw : List Int) : List Int × Bool :=
  let lim : Nat → Int := fun i => if i < 9 then 524288 else 1048576
  let cl := raw.zipIdx.map fun x => clampInt (-(lim x.2)) (lim x.2) x.1
  (cl, cl != raw)

/-- Matrices A and B of a layer's encoding preset, clamped (Table 9.6, R214). -/
def presetMatrices (s : State) (c : HeadCfg) (l : Layer) : (List Int × Bool) × (List Int × Bool) :=
  let (_, _, sm, _) := (layerSource s l).getD (0, 0, 0, 16)
  (clampMatrix (presetA l.enc sm l.full), clampMatrix (presetB l.enc c.prims))

/-- Tables of a layer with the presets it names (Table 9.6). -/
def presetTables (s : State) (c : HeadCfg) (l : Layer) (t : ConvTables) : ConvTables :=
  let m := presetMatrices s c l
  { matA := if l.enc = 15 then t.matA else m.1.1
    matB := if l.enc = 15 then t.matB else m.2.1
    lut := if l.tf = 15 then t.lut else transferLut l.tf c.peak }

/-- Whether a value of the encoding preset that a layer names was clamped. -/
def presetClamped (s : State) (c : HeadCfg) (l : Layer) : Bool :=
  let m := presetMatrices s c l
  decide (l.enc ≠ 15) && (m.1.2 || m.2.2)

/-- Twelve S32 values of a custom table. -/
def customMatrix (b : List Byte) (o : Nat) : List Int × Bool :=
  clampMatrix ((List.range 12).map fun i => signed 32 (fieldOf b (o + 4 * i) 4))

/-- Custom tables of R215, and whether a value was clamped. -/
def customTables (s : State) (l : Layer) (h : Nat) : ConvTables × Bool :=
  if l.tf ≠ 15 ∧ l.enc ≠ 15 then (⟨[], [], []⟩, false)
  else
    let b := readHbm s (exhRange s h).1 49248
    let a := customMatrix b 0
    let m := customMatrix b 48
    ({ matA := a.1, matB := m.1, lut := (List.range 12288).map fun i => fieldOf b (96 + 4 * i) 4 % 2 ^ 20 },
      decide (l.enc = 15) && (a.2 || m.2))

def layerSetAct (d : Desc) (s : State) : State :=
  let k := d.p8 16
  match (headOf s k).pipe.cfg with
  | none => complete d 0x13 [] s
  | some c =>
    match layerInvalid s c d with
    | some o => complete d 0x982 (u16 o) s
    | none =>
      let y := d.p8 17
      let l := layerOf d
      admitDesc (.layer k y) d (layerUnits s k c y l) (fun s =>
        let (t, clamped) := if l.enable then customTables s l (d.p16 44) else (⟨[], [], []⟩, false)
        let s := if l.enable ∧ (l.tf = 15 ∨ l.enc = 15) then noteReads (0x10 + k) [((exhRange s (d.p16 44)).1, 49248)] s else s
        let clamped := clamped || (l.enable && presetClamped s c l)
        let l := if l.enable then { l with tables := presetTables s c l t } else l
        complete d (bit clamped) [] (openWrite k d { Reset.shadow with layers := [(y, l)] } s)) s

def execLayerSet (dt : Nat) (d : Desc) (s : State) : Res :=
  .next (runDesc (specAdm 0x0701 []) d layerBad noOver layerSetAct (tick dt s))

/-! ### COEF_LOAD -/

def coefBad (d : Desc) (s : State) : Option (List Byte) :=
  let fore := ((headOf s (d.p8 24)).pipe.cfg.map (·.forerunner)).getD 0
  badField [(decide (7 < d.p8 24) || !configured s (d.p8 24), 24),
            (decide ((if fore = 0 then 4 else fore) ≤ d.p8 25), 25), (decide (3 < d.p8 26), 26)]

def coefOver (d : Desc) (_ : State) : Bool := decide (64 < d.p8 27 + ceilDiv d.length 16)

def coefAct (d : Desc) (s : State) : State :=
  if d.length % 16 ≠ 0 then complete d 0xA80 (u8 0xFF) s else startLoad d 0x0801 (d.p8 24) s

def execCoefLoad (dt : Nat) (d : Desc) (s : State) : Res :=
  .next (runDesc (specBuf 0x0801 false (span 28 63)) d coefBad coefOver coefAct (tick dt s))

def phaseTaps (b : List Byte) (i : Nat) : List Int := (List.range 8).map fun t => signed 16 (fieldOf b (16 * i + 2 * t) 2)

def tapSum (l : List Int) : Int := l.foldl (· + ·) 0

/-- Unit gain at DC: the difference goes to tap 3 or tap 4 (R248). -/
def adjustTaps (phase : Nat) (l : List Int) : List Int :=
  upd l (if phase < 32 then 3 else 4) fun x => x + (16384 - tapSum l)

/-- The transfer of a COEF_LOAD has ended (R248, R249). -/
def finishCoef (t : Transfer) (buf : HostBuf) (s : State) : State :=
  endLoad t buf (fun b s =>
    let d := t.desc
    let n := d.length / 16
    match (List.range n).find? fun i => decide (tapSum (phaseTaps b i) < 16320 ∨ 16448 < tapSum (phaseTaps b i)) with
    | some i => complete d 0xA80 (u8 (d.p8 27 + i)) s
    | none =>
      let off := ((List.range n).filter fun i => tapSum (phaseTaps b i) ≠ 16384).length
      let new := (List.range n).map fun i =>
        ({ layer := d.p8 25, set := d.p8 26, phase := d.p8 27 + i, taps := adjustTaps (d.p8 27 + i) (phaseTaps b i) } : CoefPhase)
      let s := modShadow (d.p8 24) t.held d { Reset.shadow with coefs := new } s
      if off = 0 then complete d 0 [] s else complete d 1 (u16 off) s) s

/-! ### Sealing (R228) -/

/-- Whether a commit for a target would need a third sealed shadow. -/
def sealBusy (s : State) (k T : Nat) : Bool :=
  let l := (headOf s k).pipe.sealed_
  decide (2 ≤ l.length) && !(l.any fun x => decide (T ≤ x.target))

/-- The target a new commit takes: an equal one, or the nearest later sealed one. -/
def joinTarget (l : List Sealed) (T : Nat) : Nat :=
  ((l.filter fun x => decide (T ≤ x.target)).map (·.target)).foldl
    (fun m t => match m with | none => some t | some u => some (min u t)) none |>.getD T

/-- What a commit seals of the open shadow: the writes of its own ring, all of which precede it, and those of other rings that
completed before its doorbell stamp (R228). -/
def sealsWrite (d : Desc) (w : ShadowWrite) : Bool := w.ring == d.ring || decide (w.at_ < d.db)

/-- Writes as one shadow, newer values prevailing. -/
def shadowOf (l : List ShadowWrite) : Shadow := l.foldl (fun a w => a.merge w.shadow) Reset.shadow

/-- Seal what a commit seals for frame T, which it asked for as `frame`; loads of the same ring still under way are covered
(R228). -/
def sealShadow (k T frame : Nat) (d : Desc) (gid : Option Nat) (s : State) : State :=
  let p := (headOf s k).pipe
  let u := joinTarget p.sealed_ T
  let c : PendCommit := { desc := d, frame := frame, late := decide (T < u), group := gid }
  let put := joinSealed (p.sealed_ ++ [{ target := u, shadow := shadowOf (p.openSh.filter (sealsWrite d)), commits := [c] }])
  let s := modPipe k (fun p => { p with openSh := p.openSh.filter fun w => !sealsWrite d w, sealed_ := put }) s
  { s with adm := { s.adm with transfers := s.adm.transfers.map fun t =>
      if t.object = k ∧ isShadowLoad t.opcode ∧ t.desc.ring = d.ring ∧ t.held = none then { t with held := some u } else t } }

/-- DETAIL of COMMIT_BUSY: the sealed targets. -/
def busyDetail (s : State) (k : Nat) : List Byte := (headOf s k).pipe.sealed_.flatMap fun x => u32 x.target

/-- T of a TARGET field: all ones is the first CSE after the doorbell (R229). -/
def targetOf (p : Pipe) (t v : Nat) : Nat := if v = 0xFFFFFFFF then p.firstCse (t + 1) else v

/-- The frame at which a commit applies: T, or the first later CSE whose guard it meets, not before the next CSE, nor
before the first live frame after a Cave hold (R229, R230). -/
def applyFrame (h : Head) (t T : Nat) : Nat :=
  let n := max T (max (h.pipe.meets t) h.pipe.nextFrame)
  if h.cave.state = .leaving then max n h.cave.live else n

/-! ### COMMIT -/

/-- COMMIT (R229, R230).  It is late where it applies after the frame that its doorbell stamp names (R124). -/
def commitAct (d : Desc) (s : State) : State :=
  let k := d.p8 16
  let s := headChanged k d.t s
  let h := headOf s k
  let T := targetOf h.pipe d.t (d.p32 20)
  let n := applyFrame h d.t T
  if sealBusy s k n then complete d 0x983 (busyDetail s k) s
  else sealShadow k n (targetOf h.pipe d.db (d.p32 20)) d none s

def execCommit (dt : Nat) (d : Desc) (s : State) : Res :=
  .next (runDesc (specI0 0x0702 (span 17 19 ++ span 24 63)) d (headBad 16) noOver commitAct (tick dt s))

/-! ### Group commits -/

def groupBad (d : Desc) (s : State) : Option (List Byte) :=
  badField [(decide (d.p8 18 = 0) || (bitsOf (d.p8 18) 8).any (fun k => !configured s k), 18),
            (decide (d.p16 20 < 1 ∨ 1024 < d.p16 20), 20), (decide (1023 < d.p16 22), 22)]

/-- The refusals of R234: status and head. -/
def groupRefused (s : State) (heads : List Nat) (members : Nat) : Option (Nat × Nat) :=
  let cfg := fun k => (headOf s k).pipe.cfg
  let first := heads.head?.bind cfg
  let differs := fun (f : HeadCfg → HeadCfg → Bool) => heads.find? fun k =>
    match first, cfg k with
    | some a, some b => f a b
    | _, _ => true
  match differs fun a b => a.flip 0 != b.flip 0 || a.rateN * b.rateD != b.rateN * a.rateD with
  | some k => some (0x988, k)
  | none => match differs fun a b => a.guard != b.guard with
    | some k => some (0x989, k)
    | none =>
      if members < 2 then none
      else match heads.find? fun k => (lockOf s k).role = 0 with
        | some k => some (0x988, k)
        | none => (heads.find? fun k => (cfg k).any fun c => c.guard < 60000).map fun k => (0x989, k)

def modGroup (gid : Nat) (f : GroupC → GroupC) (s : State) : State :=
  { s with groups := s.groups.map fun g => if g.gid = gid then f g else g }

/-- A group packet (Table 22.8). -/
def groupPacket (gid kind frame members : Nat) : List Byte := u16 gid ++ u8 kind ++ u8 0 ++ u32 frame ++ u16 members ++ u16 0

/-- READY of a member is noted at the leader; a leader that has not yet its own GROUP_COMMIT keeps it (R235). -/
def hearReady (gid src e : Nat) (s : State) : State :=
  if (s.groups.any fun g => g.gid = gid) then modGroup gid (fun g => { g with ready := setKey src e g.ready }) s
  else { s with groups := s.groups ++ [{ gid := gid, desc := none, heads := [], members := 0, leader := catDevice s, target := 0,
                                         go := none, ready := [(src, e)], deferred := 0, decim := 0, disabled := 0 }] }

def groupCommitAct (d : Desc) (s : State) : State :=
  let heads := bitsOf (d.p8 18) 8
  let gid := d.p16 16
  let members := d.p16 20
  match groupRefused s heads members with
  | some (st, k) => complete d st (u8 k) s
  | none =>
    let s := forEach heads (fun k => headChanged k d.t) s
    let T := heads.foldl (fun m k => max m (targetOf (headOf s k).pipe d.t (d.p32 24))) 0
    let e := heads.foldl (fun m k => max m (applyFrame (headOf s k) d.t T)) T
    match heads.find? fun k => sealBusy s k e with
    | some k => complete d 0x983 (busyDetail s k) s
    | none =>
      let frame := heads.foldl (fun m k => max m (targetOf (headOf s k).pipe d.db (d.p32 24))) 0
      let at_ := if members = 1 then e else T
      let s := forEach heads (fun k => sealShadow k at_ frame d (some gid)) s
      let old := s.groups.find? fun g => g.gid = gid ∧ g.desc = none
      let g : GroupC := { gid := gid, desc := some d, heads := heads, members := members, leader := d.p16 22, target := T,
                          go := if members = 1 then some e else none, ready := (old.map (·.ready)).getD [], deferred := 0,
                          decim := 0, disabled := 0 }
      let s := { s with groups := (s.groups.filter fun g => !(g.gid = gid ∧ g.desc = none)) ++ [g] }
      if members = 1 then s
      else if d.p16 22 = catDevice s then hearReady gid (catDevice s) e s
      else catSend 0x0F 0 (d.p16 22) 0 (groupPacket gid 0 e members) s

def execGroupCommit (dt : Nat) (d : Desc) (s : State) : Res :=
  .next (runDesc (specI0 0x0703 (19 :: span 28 63)) d groupBad noOver groupCommitAct (tick dt s))

def execGroupReady (dt gid src e : Nat) (s : State) : Res := .next (hearReady gid src e (tick dt s))

/-- The GO of a frame reaches this module: its heads apply there, or at their next CSE with GROUP_SPLIT (R235).  The frames from T
up to the GO's have been deferred, on every member alike (R236). -/
def groupGo (gid frame : Nat) (s : State) : State :=
  match s.groups.find? fun g => g.gid = gid ∧ g.desc.isSome ∧ g.go.isNone with
  | none => s
  | some g =>
    let next := g.heads.foldl (fun m k => max m (headOf s k).pipe.nextFrame) 0
    let split := decide (∃ k ∈ g.heads, (headOf s k).pipe.cseAt frame < s.now)
    let n := if split then max next (frame + 1) else frame
    let s := forEach g.heads (fun k s =>
      ((headOf s k).pipe.sealed_.find? fun x => x.commits.any fun c => c.group = some gid).elim s fun x =>
        retarget k x.target (max n x.target) s) s
    let s := modGroup gid (fun g => { g with go := some n, deferred := frame - g.target }) s
    if split then record (0x10 + g.heads.headD 0) 0x0904 (u16 gid ++ u32 frame ++ u32 n) s else s

def execGroupGo (dt gid frame : Nat) (s : State) : Res := .next (groupGo gid frame (tick dt s))

/-- D_m on the leader (R235), once for each frame. -/
def execGroupDecision (dt gid : Nat) (s : State) : Res :=
  let s := tick dt s
  match s.groups.find? fun g => g.gid = gid ∧ g.desc.isSome ∧ g.go.isNone ∧ g.leader = catDevice s with
  | none => .next s
  | some g =>
    let p := (headOf s (g.heads.headD 0)).pipe
    match p.lastCse (s.now + (p.cfg.elim 0 (·.guard)) - 24000) with
    | none => .next s
    | some m =>
      if m < g.target then .next s
      else if g.ready.length = g.members ∧ g.ready.all (fun r => decide (r.2 ≤ m)) then
        let s := forEach (g.ready.filter fun r => r.1 ≠ catDevice s) (fun r =>
          catSend 0x0F 0 r.1 0 (groupPacket gid 1 m g.members)) s
        .next (groupGo gid m s)
      else
        let missing := g.members - (g.ready.filter fun r => decide (r.2 ≤ m)).length
        if m < g.target + g.deferred then .next s
        else .next (record (0x10 + g.heads.headD 0) 0x0903 (u16 gid ++ u32 m ++ u16 missing)
          (modGroup gid (fun g => { g with deferred := m + 1 - g.target }) s))

/-- The sealed shadows of a group that no GO has reached by CSE_(T+16) are discarded: frames T to T + 16 have been deferred
(R236). -/
def execGroupAbandoned (dt gid : Nat) (s : State) : Res :=
  let s := tick dt s
  match s.groups.find? fun g => g.gid = gid ∧ g.desc.isSome ∧ g.go.isNone with
  | none => .next s
  | some g =>
    if (g.heads.any fun k => decide (s.now < (headOf s k).pipe.cseAt (g.target + 16))) then .next s
    else
      let lost := g.heads.flatMap fun k => (headOf s k).pipe.sealed_.filter fun x => x.commits.any fun c => c.group = some gid
      let s := forEach g.heads (fun k => modPipe k fun p => { p with sealed_ := p.sealed_.filter fun x =>
        !(x.commits.any fun c => c.group = some gid) }) s
      let s := { s with groups := s.groups.filter fun x => x.gid ≠ gid }
      let det := u8 0 ++ u8 0 ++ u16 17 ++ u32 g.target
      let s := forEach ((lost.flatMap fun x => x.commits.map (·.desc)).eraseDups) (fun d s =>
        if owes d s then complete d 0x60 det s else s) s
      .next (if g.leader = catDevice s then record (0x10 + g.heads.headD 0) 0x0905 (u16 gid ++ u32 g.target) s else s)

end Sys2Proof.Machine
end

