-- ==== Sys2Proof/Machine/Vitrine.lean ====
section
/-!
DEFINITION. The Vitrine function: meanings of VITRINE_SET, VITRINE_LOAD and the management-bus path (R220 to R227).
-/

namespace Sys2Proof.Machine

/-! ### Settings -/

def vitOf (d : Desc) (mgmt : Bool) : VitSet :=
  { desc := if mgmt then none else some d, flags := d.p8 17, canvasW := d.p16 18, canvasH := d.p16 20, key := d.p32 24,
    db := d.t }

/-- A setting takes hold at an instant (R224, R226). -/
def applyVit (k at_ : Nat) (v : VitSet) (s : State) : State :=
  let s := modVit k (fun x => { x with
    content := bitOf v.flags 0, mask := bitOf v.flags 1, bank := if bitOf v.flags 2 then 1 - x.bank else x.bank,
    gate := bitOf v.flags 3, loaded := x.loaded || bitOf v.flags 1, canvasW := v.canvasW, canvasH := v.canvasH }) s
  let s := if bitOf v.flags 4 && v.desc.isSome then { s with vitKey := { s.vitKey with key := v.key } } else s
  let s := record (0x10 + k) 0x0906 (u8 k ++ u8 v.flags ++ u8 (headOf s k).vit.bank ++ u8 (bit v.desc.isNone)) s
  match v.desc with
  | some d => completeAt at_ d 0 [] s
  | none => s

/-- The refusal of R225: a mask made for another canvas. -/
def vitMismatch (s : State) (k : Nat) (v : VitSet) : Option (List Byte) :=
  match (headOf s k).pipe.cfg with
  | some c => if bitOf v.flags 1 ∧ (v.canvasW ≠ c.canvasW ∨ v.canvasH ≠ c.canvasH) then
      some (u16 v.canvasW ++ u16 v.canvasH ++ u16 c.canvasW ++ u16 c.canvasH) else none
  | none => none

/-- A setting that has passed its checks: at once, or at the first CSE whose guard it meets (R224). -/
def takeVit (k : Nat) (v : VitSet) (s : State) : State :=
  if configured s k then headChanged k v.db (modVit k (fun x => { x with pending := x.pending ++ [v] }) s)
  else applyVit k s.now v s

def vitrineBad (d : Desc) (_ : State) : Option (List Byte) :=
  badField [(decide (7 < d.p8 16), 16), (decide (32 ≤ d.p8 17), 17)]

def vitrineSetAct (d : Desc) (s : State) : State :=
  let k := d.p8 16
  let v := vitOf d false
  match vitMismatch s k v with
  | some det => complete d 0x985 det s
  | none => takeVit k v s

def specVit (code : Nat) (buf : Bool) (zero : List Nat) : OpSpec := ⟨code, true, false, !buf, false, buf, zero⟩

def execVitrineSet (dt : Nat) (d : Desc) (s : State) : Res :=
  .next (runDesc (specVit 0x0710 false ([22, 23] ++ span 28 63)) d vitrineBad noOver vitrineSetAct (tick dt s))

/-- Settings due at a CSE (R224, R231). -/
def vitDue (k cse guard : Nat) (s : State) : State :=
  let v := (headOf s k).vit
  let due := v.pending.filter fun x => decide (x.db + guard ≤ cse)
  let s := modVit k (fun x => { x with pending := x.pending.filter fun y => !decide (y.db + guard ≤ cse) }) s
  forEach due (applyVit k cse) s

/-! ### Loads -/

/-- Bytes of each part of a bank (R223). -/
def vitPartSize (p : Nat) : Nat := [141557760, 35389440, 512].getD p 0

def vitLoadBad (d : Desc) (_ : State) : Option (List Byte) := badField [(decide (7 < d.p8 24), 24), (decide (2 < d.p8 25), 25)]
def vitLoadOver (d : Desc) (_ : State) : Bool := decide (vitPartSize (d.p8 25) < d.p32 28 + d.length)

/-- Address of a byte of a part of a bank (R221). -/
def vitAddr (s : State) (k bank part off : Nat) : Nat := vitBank s k bank + (if part = 1 then 0x08700000 else 0) + off

def vitLoadAct (d : Desc) (s : State) : State :=
  let k := d.p8 24
  let bank := 1 - (headOf s k).vit.bank
  if d.p8 25 < 2 && anyFrozen s (vitAddr s k bank (d.p8 25) (d.p32 28)) d.length then complete d 0x41 [] s
  else { s with adm := { s.adm with transfers := s.adm.transfers ++
    [{ desc := d, opcode := 0x0711, object := k, force := false, held := some bank, torn := [], fin := false }] } }

def execVitrineLoad (dt : Nat) (d : Desc) (s : State) : Res :=
  .next (runDesc (specVit 0x0711 true ([26, 27] ++ span 32 63)) d vitLoadBad vitLoadOver vitLoadAct (tick dt s))

/-- A factor table: 256 entries, [] stands for all 4,096 (R222). -/
def factorTable (v : Vitrine) (bank : Nat) : List Nat :=
  match v.factors.getD bank [] with
  | [] => List.replicate 256 4096
  | l => l

/-- The factor of a mask code in the active bank. -/
def vitFactor (v : Vitrine) (code : Nat) : Nat := (factorTable v v.bank).getD code 4096

/-- The bytes of a VITRINE_LOAD have come (R223); entries above 4,096 are stored as 4,096. -/
def finishVit (t : Transfer) (buf : HostBuf) (s : State) : State :=
  let d := t.desc
  let k := t.object
  let bank := t.held.getD 0
  let b := buf.bytes.take d.length
  let s := { s with adm := { s.adm with transfers := s.adm.transfers.erase t } }
  let a := vitAddr s k bank (d.p8 25) (d.p32 28)
  let (s, clamped) :=
    if d.p8 25 < 2 then (writeInternal a b s, false)
    else
      let old := (factorTable (headOf s k).vit bank).flatMap u16
      let new := old.take (d.p32 28) ++ b ++ old.drop (d.p32 28 + b.length)
      let raw := (List.range 256).map fun i => fieldOf new (2 * i) 2
      (modVit k (fun v => { v with factors := upd v.factors bank fun _ => raw.map (min 4096) }) s, raw.any fun x => decide (4096 < x))
  if buf.bad then complete d 0x501 (u64 b.length) s
  else match (if d.p8 25 < 2 then firstFrozen s a d.length else none) with
    | some x => complete d 0x40 (u64 x) s
    | none => complete d (bit clamped) [] s

/-! ### The management-bus path (R227) -/

/-- A wrong key: VITRINE_KEY_BAD, and a lockout of 10 s after three within 1 s. -/
def wrongKey (s : State) : State :=
  let k := s.vitKey
  let recent := s.now :: k.recent.filter fun t => decide (s.now < t + sec)
  let s := { s with vitKey := { k with count := min 65535 (k.count + 1), status := 0x987,
                                       recent := if recent.length < 3 then recent else [],
                                       lockout := if recent.length < 3 then k.lockout else some (s.now + 10 * sec) } }
  raiseCause true 6 (recordAt true s.now 0 0x0907 (u16 recent.length) s)

def vitStatus (st : Nat) (s : State) : State := { s with vitKey := { s.vitKey with status := st } }

/-- A keyed command acts as VITRINE_SET, with SET_KEY ignored. -/
def vitMgmt (d : Desc) (s : State) : State :=
  let k := d.p8 16
  let v := vitOf d true
  if (([22, 23] ++ span 28 63).any fun i => d.p8 i != 0) then vitStatus 0x583 s
  else if (vitrineBad d s).isSome then vitStatus 0x13 s
  else if (vitMismatch s k v).isSome then vitStatus 0x985 s
  else vitStatus 0 (takeVit k v s)

/-- A transaction that the Keeper serves: at the module's address, its packet error check good, not in P4 (R56). -/
def served (b : BusFrame) (s : State) : Bool := s.power.state != .p4 && b.addr == s.power.smbAddr && b.pecOk

def execVitrineMgmtSet (dt : BusFrame) (key : Nat) (payload : List Byte) (s : State) : Res :=
  let s := tick dt.dt s
  let d : Desc := { ring := 252, bytes := padTo 64 (List.replicate 16 0 ++ payload), db := s.now, hold := 0, fwd := none }
  if !served dt s then .next s
  else if s.vitKey.key = 0 ∨ s.vitKey.lockout.isSome then .next (vitStatus 0x987 s)
  else if key % 2 ^ 32 ≠ s.vitKey.key then .next (wrongKey s)
  else .next (vitMgmt d s)

/-- The 0xB2 read word. -/
def execVitrineStatusRead (dt : BusFrame) (s : State) : Res :=
  let s := tick dt.dt s
  if !served dt s then .next s else .next (emit (.read 0xB2 (u16 s.vitKey.status)) s)

def execVitrineLockoutEnd (dt : Nat) (s : State) : Res :=
  let s := tick dt s
  match s.vitKey.lockout with
  | some t => if t ≤ s.now then .next { s with vitKey := { s.vitKey with lockout := none } } else .next s
  | none => .next s

end Sys2Proof.Machine
end

