-- ==== Sys2Proof/Machine/Press.lean ====
section
/-!
DEFINITION. The Press: meanings of RECIPE_LOAD and DITHER_LOAD (R258, R265 to R271), which Recipe and form govern a frame
(R269, R272), and a pending Recipe's application at a CSE.
-/

namespace Sys2Proof.Machine

/-! ### What governs a frame -/

/-- The Recipe and form of frame n (R269, R272): the newest whose first frame is not later. -/
def Press.governing (p : Press) (n : Nat) : Option (Recipe × Bool) :=
  match p.recipe with
  | some r => if p.since ≤ n then some (r, p.reduced) else ((p.old ++ p.gone.toList).find? fun x => decide (x.1 ≤ n)).map (·.2)
  | none => none

/-- A new Recipe or form governs from frame n (R269). -/
def Press.govern (p : Press) (n : Nat) (r : Recipe) (red : Bool) : Press :=
  { p with recipe := some r, since := n, reduced := red,
           old := match p.recipe with
             | some o => (p.since, o, p.reduced) :: p.old
             | none => [] }

/-- At F_n the Recipes and forms that governed earlier frames are done with (R269); the one of frame n - 1 is remembered for its last
passes (R331). -/
def Press.settleAt (p : Press) (n : Nat) : Press :=
  let p := { p with gone := if n = 0 ∨ p.since ≤ n - 1 then none else p.old.find? fun x => decide (x.1 ≤ n - 1) }
  if p.since ≤ n then { p with old := [] }
  else { p with old := match p.old.filter (fun x => decide (n < x.1)), p.old.find? (fun x => decide (x.1 ≤ n)) with
    | l, some x => l ++ [x]
    | l, none => l }

/-- A slot is dark in frame n: a RECIPE_SLOT_DARK of that frame or of an earlier one (R276). -/
def Recipe.darkAt (r : Recipe) (n : Nat) (x : Slot) : Bool :=
  r.dark.any fun d => decide (d.1 ≤ n) && d.2.1 == x.seq && d.2.2 == x.order

/-- A slot entry both of whose copies failed in frame n: from that frame it stays dark while its Recipe governs (R276). -/
def Press.darken (p : Press) (n : Nat) (x : Nat × Nat) : Press :=
  match p.governing n with
  | none => p
  | some (g, _) =>
    let f := fun r : Recipe => if r.first = g.first ∧ !(r.dark.map (·.2)).contains x then { r with dark := (n, x) :: r.dark } else r
    { p with recipe := p.recipe.map f, old := p.old.map fun o => (o.1, f o.2.1, o.2.2)
             gone := p.gone.map fun o => (o.1, f o.2.1, o.2.2) }

/-- S_(n,k) (R20, R22). -/
def slotStamp_ (p : Pipe) (n : Nat) (x : Slot) : Nat := p.flipAt n + x.offset

/-! ### RECIPE_LOAD -/

/-- A plane store handle (R266). -/
def storeBad (s : State) (k h : Nat) : Bool :=
  match exhOf s h with
  | none => true
  | some e => e.kind != 1 || e.archive || !(e.state == .free || e.state == .ready) || (inChain s h).isSome ||
      (headOwned s h).any (fun o => o != k)

def recipeBad (d : Desc) (s : State) : Option (List Byte) :=
  match headBad 24 d s with
  | some x => some x
  | none => badField [(storeBad s (d.p8 24) (d.p16 28), 28), (storeBad s (d.p8 24) (d.p16 30), 30)]

def recipeOver (d : Desc) (_ : State) : Bool := decide (4256 < d.length)

/-- Whether new Recipes take their reduced form: shedding stage 3 recognised (R272). -/
def reducedNow (s : State) : Bool := decide (3 ≤ s.power.stage)

/-- Admission of a checked Recipe, with motion rendering re-priced for it (R266, R295).  The form it is admitted in is the one it
applies in (R272). -/
def admitRecipe (d : Desc) (k : Nat) (c : HeadCfg) (r : Recipe) (s : State) : State :=
  let red := reducedNow s
  let units := recipeUnits s k c r red
  let ms := (headOf s k).motion.counted.toList.map fun m => (ItemKind.motion k, motionUnits s k c m (some r) red)
  match shortageMany s ((ItemKind.recipe k, units) :: ms) with
  | some (slot, n) => complete d 0x20 (shortDetail slot n) s
  | none =>
    let s := putItem (.recipe k) d units s
    let s := forEach ms (fun x => reUnit x.1 x.2) s
    headChanged k d.t (modPress k (fun p => { p with pending := some ({ r with red := red }, d) }) s)

/-- Tables 11.6 and 14.2, then the stores' sizes (R266, R339). -/
def checkRecipe (d : Desc) (b : List Byte) (s : State) : State :=
  let k := d.p8 24
  match (headOf s k).pipe.cfg with
  | none => complete d 0x13 [] s
  | some c =>
    let r := parseRecipe b (d.p16 26) [d.p16 28, d.p16 30] c.scan
    match (if c.scan then scanRecipeBad s k c b d.length r else planeRecipeBad s k c b d.length r) with
    | some (o, why) => complete d 0xB80 (u16 o ++ u8 why) s
    | none =>
      let need := r.storeSize c
      let small := fun h : Nat => decide ((exhRange s h).2 < need)
      match badField [(small (d.p16 28), 28), (small (d.p16 30), 30)] with
      | some det => complete d 0x13 det s
      | none => admitRecipe d k c r s

def recipeAct (buf : HostBuf) (d : Desc) (s : State) : State :=
  match (headOf s (d.p8 24)).press.pending with
  | some x => complete d 0xB81 (u32 x.2.tag) s
  | none => match bufOf d buf s with
    | .error x => complete d 0x501 (u64 x.length) s
    | .data x => checkRecipe d (padTo (max 160 d.length) (x.take d.length)) s

def execRecipeLoad (dt : Nat) (d : Desc) (buf : HostBuf) (s : State) : Res :=
  .next (runDesc ⟨0x0901, false, false, true, true, true, 25 :: span 32 63⟩ d recipeBad recipeOver (recipeAct buf) (tick dt s))

/-! ### DITHER_LOAD -/

def ditherBad (d : Desc) (s : State) : Option (List Byte) :=
  match headBad 24 d s with
  | some x => some x
  | none => badField [(decide (3 < d.p8 25), 25)]

def ditherOver (d : Desc) (_ : State) : Bool := decide (d.length ≠ 131072)

def execDitherLoad (dt : Nat) (d : Desc) (s : State) : Res :=
  .next (runDesc (specBuf 0x0902 false (span 26 63)) d ditherBad ditherOver
    (fun d s => headChanged (d.p8 24) d.t (startLoad d 0x0902 (d.p8 24) s)) (tick dt s))

/-- The tile's bytes have come: it goes to the open shadow (R258). -/
def finishDither (t : Transfer) (buf : HostBuf) (s : State) : State :=
  endLoad t buf (fun b s =>
    let tile := (List.range 65536).map fun i => fieldOf b (2 * i) 2
    complete t.desc 0 [] (modShadow (t.desc.p8 24) t.held t.desc { Reset.shadow with dither := [(t.desc.p8 25, tile)] } s)) s

/-! ### Application at a CSE -/

/-- Whether something that waits for the first CSE whose guard its doorbell meets applies at a CSE: not before the first
live frame after a Cave hold (R229, R270). -/
def dueAt (c : HeadCfg) (cse t : Nat) : Bool := decide (t + c.guard ≤ cse)

/-- A pending Recipe applies at CSE_n and governs frame n, in the form it was admitted in (R269, R272, RECIPE_APPLIED). -/
def applyRecipe (k n cse : Nat) (s : State) : State :=
  match (headOf s k).press.pending with
  | none => s
  | some (r, d) =>
    let s := modPress k (fun p => { (p.govern n { r with first := n } r.red) with pending := none }) s
    let s := record (0x10 + k) 0x0B01 (u8 k ++ u16 r.id ++ u32 n ++ u8 (bit r.red)) s
    completeAt cse d 0 (u32 0 ++ u32 n) s

/-- A form change applies at CSE_n: the units of the other form are released, and the item takes those of the new one where no
pending Recipe has replaced it (R71, R198, R272). -/
def applyForm (k n : Nat) (c : HeadCfg) (s : State) : State :=
  let p := (headOf s k).press
  match p.wantForm, p.recipe with
  | some (red, _), some r =>
    let s := modPress k (fun p => { p with wantForm := none }) s
    if red = p.reduced then s
    else
      let s := modPress k (fun p => p.govern n r red) s
      let s := settleRecipe k (if p.pending.isNone then reUnit (.recipe k) (recipeUnits s k c r red) s else s)
      record (0x10 + k) 0x0B02 (u8 k ++ u32 n ++ u8 (bit red)) s
  | _, _ => modPress k (fun p => { p with wantForm := none }) s

end Sys2Proof.Machine
end

