-- ==== Sys2Proof/Machine/Motion.lean ====
section
/-!
DEFINITION. Motion-compensated plane rendering: meanings of MOTION_CFG, VECTOR_LOAD and SURVEY_FIELD_DONE (R286 to R295),
the Survey estimator (R289, R290), and the sample that a slot takes of the composed frames (R282 to R285).
-/

namespace Sys2Proof.Machine

/-! ### Composed frames -/

/-- A composed pixel and its VIT bit, in the exhibit of a compose count (R209). -/
def pixAt (s : State) (c : HeadCfg) (cnt x y : Nat) : List Int × Bool :=
  let a := (exhRange s (c.comp.getD (cnt % 3) 0)).1 + y * compPitch c.canvasW + 8 * x
  let v := leNat (readHbm s a 8)
  ([(bits v 0 20 : Int), (bits v 20 20 : Int), (bits v 40 20 : Int)], bitOf v 63)

/-- The compose count of a frame, while the head still holds it. -/
def countOf (p : Pipe) (n : Nat) : Option Nat := (p.composed.find? fun x => x.1 = n).map (·.2)

/-- Frame n - 1 is available to frame n: composed at the count before (R284). -/
def prevAvailable (p : Pipe) (n : Nat) : Bool :=
  match countOf p n with
  | some c => decide (0 < n) && decide (0 < c) && p.composed.contains (n - 1, c - 1)
  | none => false

/-- The bilinear interpolation of R283 in units of 1/8. -/
def interp8 (f : Int → Int → Int) (X Y : Int) : Int :=
  let ix := X / 8
  let fx := X % 8
  let iy := Y / 8
  let fy := Y % 8
  ((8 - fx) * (8 - fy) * f ix iy + fx * (8 - fy) * f (ix + 1) iy + (8 - fx) * fy * f ix (iy + 1) +
    fx * fy * f (ix + 1) (iy + 1) + 32) / 64

/-! ### Motion fields -/

/-- An entry of a field (R286): VX, VY, CONF. -/
structure Vec where
  x    : Int
  y    : Int
  conf : Nat
  deriving DecidableEq, Repr

def vecOf (v : Nat) : Vec := ⟨signed 13 (bits v 0 13), signed 13 (bits v 13 13), bits v 26 6⟩
def Vec.word (v : Vec) : Nat := unsigned 13 v.x + 8192 * unsigned 13 v.y + 2 ^ 26 * v.conf

/-- The field exhibit of frame n (R287). -/
def fieldExh (m : MotionCfg) (n : Nat) : Nat := m.fields.getD (n % 3) 0

def fieldBytes (c : HeadCfg) : Nat := 4 * fieldW c * fieldH c

/-- Entry (bx, by) of the field of frame n. -/
def fieldAt (s : State) (c : HeadCfg) (m : MotionCfg) (n bx bY : Nat) : Vec :=
  vecOf (leNat (readHbm s ((exhRange s (fieldExh m n)).1 + 4 * (bY * fieldW c + bx)) 4))

/-! ### MOTION_CFG -/

/-- Bytes of a pyramid (R292). -/
def pyramidBytes (c : HeadCfg) : Nat :=
  total ((List.range 4).map fun l => ceilDiv c.canvasW (2 ^ l) * ceilDiv c.canvasH (2 ^ l) * 2)

/-- Band SRAM of a head (R285). -/
def bandBytes (c : HeadCfg) (band : Nat) : Nat := 2 * (64 + 2 * band) * c.canvasW * 8

def motionPool : Nat := 50331648

/-- The bands of other heads, in force or pending. -/
def otherBands (s : State) (k : Nat) : Nat :=
  total ((List.range 8).map fun i =>
    let h := headOf s i
    match h.pipe.cfg with
    | some c => if i = k then 0
        else max (h.motion.cfg.elim 0 fun m => bandBytes c m.band) (h.motion.pending.elim 0 fun m =>
          if m.1.source = 0 then 0 else bandBytes c m.1.band)
    | none => 0)

def motionOf (d : Desc) : MotionCfg :=
  if d.p8 17 = 0 then { source := 0, ref := 0, confMin := 0, occThr := 0, band := 0, fields := [], pyrs := [] }
  else { source := d.p8 17, ref := d.p8 18, confMin := d.p8 19, occThr := d.p16 20, band := d.p16 22,
         fields := [d.p16 24, d.p16 26, d.p16 28], pyrs := if d.p8 17 = 2 then [d.p16 30, d.p16 32] else [] }

def motionBad (d : Desc) (s : State) : Option (List Byte) :=
  match headBad 16 d s, (headOf s (d.p8 16)).pipe.cfg with
  | some x, _ => some x
  | none, none => none
  | none, some c =>
    let m := motionOf d
    let bad := fun h need : Nat => storeBad s (d.p8 16) h || decide ((exhRange s h).2 < need)
    badField (((m.fields.zipIdx).map fun x => (bad x.1 (fieldBytes c), 24 + 2 * x.2)) ++
      (m.pyrs.zipIdx).map fun x => (bad x.1 (pyramidBytes c), 30 + 2 * x.2))

/-- MOTION_INVALID: the payload offset. -/
def motionInvalid (c : HeadCfg) (d : Desc) : Option Nat :=
  if d.p8 17 = 0 then none
  else (List.find? (·.1)
    ([(c.scan, 16), (decide (2 < d.p8 17), 17), (decide (63 < d.p8 19), 19), (decide (d.p16 20 < 1 ∨ 4096 < d.p16 20), 20),
      (decide (d.p16 22 < 16 ∨ 256 < d.p16 22), 22), (decide (d.p8 17 = 1 ∧ d.p16 30 ≠ 0), 30),
      (decide (d.p8 17 = 1 ∧ d.p16 32 ≠ 0), 32)] ++ (span 34 63).map fun i => (decide (d.p8 i ≠ 0), i))).map (·.2)

def motionAct (d : Desc) (s : State) : State :=
  let k := d.p8 16
  let h := headOf s k
  match h.pipe.cfg with
  | none => complete d 0x13 [] s
  | some c =>
    match motionInvalid c d with
    | some o => complete d 0xC82 (u16 o) s
    | none =>
      let m := motionOf d
      let want := if m.source = 0 then 0 else otherBands s k + bandBytes c m.band
      if motionPool < want then complete d 0xC83 (u32 (want - motionPool)) s
      else match h.motion.pending with
        | some x => complete d 0xC84 (u32 x.2.tag) s
        | none =>
          let go := fun s => headChanged k d.t (modMotion k (fun x => { x with pending := some (m, d) }) s)
          if m.source = 0 then go s
          else admitDesc (.motion k) d (motionUnits s k c m h.press.counted (h.press.countedForm || reducedNow s)) go s

def execMotionCfg (dt : Nat) (d : Desc) (s : State) : Res :=
  let shed := bootShed 3 1 fun i => i.kind == .motion (d.p8 16)
  .next (runDesc (specAdm 0x0A01 []) d motionBad noOver (fun d s => shed (motionAct d s)) (tick dt s))

/-- Motion rendering is not in force any more; the counts of the last frame pressed stand (R294, R298). -/
def Motion.stop (m : Motion) : Motion := { m with cfg := none, since := 0, ending := false, fieldsFor := [], kept := [], missRun := false }

/-- Motion rendering ends, revoked (R294). -/
def endMotion (k : Nat) (s : State) : State :=
  let s := modMotion k Motion.stop s
  dropItems (fun i => i.kind == .motion k && (i.leaving || (headOf s k).motion.pending.isNone)) s

/-- A MOTION_CFG in force from frame n: with the same SOURCE, motion rendering goes on with its fields and its run; with another,
frame n is its first (R291, R293). -/
def Motion.take (x : Motion) (m : MotionCfg) (n : Nat) : Motion :=
  let kept := if x.cfg.any fun o => o.pyrs = m.pyrs then x.kept else []
  if x.cfg.any fun o => o.source = m.source then { x with cfg := some m, pending := none, kept := kept, ending := false }
  else { x with cfg := some m, since := n, pending := none, fieldsFor := [], kept := [], missRun := false, ending := false }

/-- A pending MOTION_CFG applies at CSE_n (R293, MOTION_APPLIED). -/
def applyMotion (k n cse : Nat) (s : State) : State :=
  match (headOf s k).motion.pending with
  | none => s
  | some (m, d) =>
    let s := modMotion k (fun x => if m.source = 0 then { x.stop with pending := none } else x.take m n) s
    let s := if m.source = 0 then dropItem (.motion k) s else if (headOf s k).press.pending.isSome then s else settle (.motion k) s
    completeAt cse d 0 (u32 0 ++ u32 n) (record (0x10 + k) 0x0C02 (u8 k ++ u8 m.source ++ u32 n) s)

/-! ### VECTOR_LOAD -/

def vectorBad (d : Desc) (s : State) : Option (List Byte) :=
  match headBad 24 d s with
  | some x => some x
  | none => badField [((headOf s (d.p8 24)).motion.cfg.all (fun m => m.source != 1), 24)]

def vectorOver (d : Desc) (s : State) : Bool := (headOf s (d.p8 24)).pipe.cfg.any fun c => decide (fieldBytes c < d.length)

/-- PRD_n (R20): with no Recipe, F_n. -/
def prdOf (s : State) (k n : Nat) : Nat :=
  let h := headOf s k
  let lead := match h.pipe.cfg, h.press.governing n with
    | some c, some r => tLead s c r.1
    | _, _ => 0
  h.pipe.flipAt n - lead

/-- PSE_n = F_(n-1) (R20). -/
def pseOf (s : State) (k n : Nat) : Nat :=
  let p := (headOf s k).pipe
  p.cseAt n + (match p.cfg, p.nextRate with
    | some c, some x => if x.1 < n then (c.rebase x p.reAt).lead else c.lead
    | some c, none => c.lead
    | none, _ => 0)

def vectorAct (d : Desc) (s : State) : State :=
  let k := d.p8 24
  let n := d.p32 28
  match (headOf s k).pipe.cfg, (headOf s k).motion.cfg with
  | some c, some m =>
    let a := (exhRange s (fieldExh m n)).1
    if d.length < fieldBytes c then complete d 0xC82 (u16 8) s
    else if 3 ≤ n ∧ s.now < prdOf s k (n - 3) then complete d 0xC81 (u32 n) s
    else if pseOf s k n ≤ s.now then complete d 0xC80 (u32 n ++ u32 (pseOf s k n)) s
    else if anyFrozen s a d.length then complete d 0x41 [] s
    else headChanged k d.t (startLoad d 0x0A02 k s)
  | _, _ => complete d 0x13 [] s

def execVectorLoad (dt : Nat) (d : Desc) (s : State) : Res :=
  .next (runDesc (specBuf 0x0A02 false (span 25 27 ++ span 32 63)) d vectorBad vectorOver vectorAct (tick dt s))

/-- An entry with VX and VY kept within ±2,048 (R288). -/
def clampVec (v : Nat) : Nat :=
  let e := vecOf v
  Vec.word { e with x := clampInt (-2048) 2048 e.x, y := clampInt (-2048) 2048 e.y }

/-- The field's bytes have come (R288). -/
def finishVector (t : Transfer) (buf : HostBuf) (s : State) : State :=
  endLoad t buf (fun b s =>
    let d := t.desc
    let k := t.object
    let n := d.p32 28
    match (headOf s k).motion.cfg with
    | none => complete d 0xC01 (u32 n) s
    | some m =>
      let a := (exhRange s (fieldExh m n)).1
      let raw := (List.range (d.length / 4)).map fun i => fieldOf b (4 * i) 4
      let cut := (raw.filter fun v => clampVec v ≠ v).length
      let s := noteChange d.t k (writeInternal a (raw.flatMap fun v => u32 (clampVec v)) s)
      match firstFrozen s a d.length with
      | some x => complete d 0x40 (u64 x) s
      | none =>
        if pseOf s k n < s.now then complete d 0xC01 (u32 n) s
        else
          let s := modMotion k (fun x => { x with fieldsFor := n :: x.fieldsFor.take 7 }) s
          if cut = 0 then complete d 0 [] s else complete d 1 (u32 cut) s) s

/-! ### The Survey estimator -/

def det3 (a b c : Int × Int × Int) : Int :=
  a.1 * (b.2.1 * c.2.2 - b.2.2 * c.2.1) - b.1 * (a.2.1 * c.2.2 - a.2.2 * c.2.1) + c.1 * (a.2.1 * b.2.2 - a.2.2 * b.2.1)

/-- Luma weights in 1/4,096: the Y row of the working primaries' RGB-to-XYZ matrix (R289). -/
def lumaWeights (prims : List Nat) : List Int :=
  let col := fun i : Nat =>
    let v := prims.getD i 0
    let x : Int := bits v 0 16
    let y : Int := bits v 16 16
    (x, y, 50000 - x - y)
  let (r, g, b, w) := (col 0, col 1, col 2, col 3)
  let q := det3 r g b * w.2.1
  let share := fun (y d : Int) => if q < 0 then roundDiv (-(4096 * y * d)) (-q) else roundDiv (4096 * y * d) (max 1 q)
  let y0 := share r.2.1 (det3 w g b)
  let y2 := share b.2.1 (det3 r g w)
  [y0, 4096 - y0 - y2, y2]

/-- Size of level l. -/
def levelSize (n l : Nat) : Nat := (List.range l).foldl (fun m _ => ceilDiv m 2) n

/-- Luma of a composed pixel (R289). -/
def luma (s : State) (c : HeadCfg) (cnt : Nat) (x y : Int) : Int :=
  let w := lumaWeights c.prims
  let (p, _) := pixAt s c cnt (edge c.canvasW x) (edge c.canvasH y)
  (w.getD 0 0 * p.getD 0 0 + w.getD 1 0 * p.getD 1 0 + w.getD 2 0 * p.getD 2 0 + 2097152) / 4194304

/-- Pyramid level l of a frame at a position, clamped to the level. -/
def pyrAt (s : State) (c : HeadCfg) (cnt : Nat) : Nat → Int → Int → Int
  | 0, x, y => luma s c cnt x y
  | l + 1, x, y =>
    let x : Int := edge (levelSize c.canvasW (l + 1)) x
    let y : Int := edge (levelSize c.canvasH (l + 1)) y
    let f := pyrAt s c cnt l
    (f (2 * x) (2 * y) + f (2 * x + 1) (2 * y) + f (2 * x) (2 * y + 1) + f (2 * x + 1) (2 * y + 1) + 2) / 4

/-- Offsets from -r to r, each way. -/
def square (r : Nat) : List (Int × Int) :=
  (List.range (2 * r + 1)).flatMap fun (j : Nat) => (List.range (2 * r + 1)).map fun (i : Nat) => ((i : Int) - r, (j : Int) - r)

/-- Ties go to the smaller |ex| + |ey|, then the smaller ey, then the smaller ex. -/
def beats (a b : Int × (Int × Int)) : Bool :=
  let m := fun e : Int × Int => e.1.natAbs + e.2.natAbs
  decide (a.1 < b.1) || (decide (a.1 = b.1) && (decide (m a.2 < m b.2) || (decide (m a.2 = m b.2) &&
    (decide (a.2.2 < b.2.2) || (decide (a.2.2 = b.2.2) && decide (a.2.1 < b.2.1))))))

def argmin (f : Int × Int → Int) (l : List (Int × Int)) : Int × Int :=
  (l.foldl (fun best e => match best with
    | none => some (f e, e)
    | some b => if beats (f e, e) b then some (f e, e) else some b) none).elim (0, 0) (·.2)

/-- Sum over the 16 x 16 window of a block at a level, its positions clamped to the level before a displacement is taken from them
(R289; DEDUCED, notes/assumptions/78.md). -/
def windowSum (c : HeadCfg) (bx bY l : Nat) (f : Int → Int → Int) : Int :=
  let cx : Int := ((16 * bx + 8) / 2 ^ l : Nat)
  let cy : Int := ((16 * bY + 8) / 2 ^ l : Nat)
  let at_ := fun (x y : Int) => f (edge (levelSize c.canvasW l) x) (edge (levelSize c.canvasH l) y)
  (square 8).foldl (fun a e => if e.1 < 8 ∧ e.2 < 8 then a + at_ (cx + e.1) (cy + e.2) else a) 0

/-- Samples of the levels below l in a pyramid exhibit, which holds level after level. -/
def levelBase (c : HeadCfg) (l : Nat) : Nat := total ((List.range l).map fun i => levelSize c.canvasW i * levelSize c.canvasH i)

/-- The pyramid exhibit of a compose count (R289). -/
def pyrExh (m : MotionCfg) (cnt : Nat) : Nat := m.pyrs.getD (cnt % 2) 0

/-- Address of a sample of a kept pyramid. -/
def keptAddr (s : State) (c : HeadCfg) (m : MotionCfg) (cnt l x y : Nat) : Nat :=
  (exhRange s (pyrExh m cnt)).1 + 2 * (levelBase c l + y * levelSize c.canvasW l + x)

/-- A sample of the kept pyramid of a compose count, its position clamped to the level (R289). -/
def keptAt (s : State) (c : HeadCfg) (m : MotionCfg) (cnt l : Nat) (x y : Int) : Int :=
  leNat (readHbm s (keptAddr s c m cnt l (edge (levelSize c.canvasW l) x) (edge (levelSize c.canvasH l) y)) 2)

/-- sad(l, u) of a block: the level of frame n against the kept one of frame n - 1. -/
def sadAt (s : State) (c : HeadCfg) (m : MotionCfg) (cnt bx bY l : Nat) (u : Int × Int) : Int :=
  windowSum c bx bY l fun x y => (pyrAt s c cnt l x y - keptAt s c m (cnt - 1) l (x - u.1) (y - u.2)).natAbs

/-- sad8(w): the same at level 0 with frame n - 1 interpolated. -/
def sad8At (s : State) (c : HeadCfg) (m : MotionCfg) (cnt bx bY : Nat) (w : Int × Int) : Int :=
  windowSum c bx bY 0 fun x y =>
    (luma s c cnt x y - interp8 (keptAt s c m (cnt - 1) 0) (8 * x - w.1) (8 * y - w.2)).natAbs

/-- The kept samples of level l that a search of radius r about u reads for a block have failed. -/
def windowFails (s : State) (c : HeadCfg) (m : MotionCfg) (cnt bx bY l : Nat) (u : Int × Int) (r : Int) : Bool :=
  let cx : Int := ((16 * bx + 8) / 2 ^ l : Nat)
  let cy : Int := ((16 * bY + 8) / 2 ^ l : Nat)
  let x0 := edge (levelSize c.canvasW l) (cx - 8 - u.1 - r)
  let x1 := edge (levelSize c.canvasW l) (cx + 7 - u.1 + r)
  (span (edge (levelSize c.canvasH l) (cy - 8 - u.2 - r)) (edge (levelSize c.canvasH l) (cy + 7 - u.2 + r))).any fun y =>
    readFails s (keptAddr s c m (cnt - 1) l x0 y) (2 * (x1 + 1 - x0))

/-- One block of E_n (R289); CONF 0 where a window of its search used data that could not be read (R296). -/
def surveyBlock (s : State) (c : HeadCfg) (m : MotionCfg) (cnt bx bY : Nat) : Vec × Bool :=
  let step := fun (v : (Int × Int) × Bool) (l : Nat) =>
    let u := v.1
    let r := if l = 3 then 32 else 2
    let e := argmin (fun e => sadAt s c m cnt bx bY l (u.1 + e.1, u.2 + e.2)) (square r)
    let b := v.2 || windowFails s c m cnt bx bY l u r
    let v := (u.1 + e.1, u.2 + e.2)
    (if l = 0 then v else (2 * v.1, 2 * v.2), b)
  let (u, b) := [3, 2, 1, 0].foldl step ((0, 0), false)
  let e := argmin (fun e => sad8At s c m cnt bx bY (8 * u.1 + e.1, 8 * u.2 + e.2)) (square 4)
  let b := b || windowFails s c m cnt bx bY 0 u 1
  let w := (8 * u.1 + e.1, 8 * u.2 + e.2)
  (⟨clampInt (-2048) 2048 w.1, clampInt (-2048) 2048 w.2, if b then 0 else (63 - sad8At s c m cnt bx bY w / 256).toNat⟩, b)

/-- The pyramid of a frame as kept in PYR_EXH, level after level (R289). -/
def pyramid (s : State) (c : HeadCfg) (cnt : Nat) : List Byte :=
  (List.range 4).flatMap fun l => (List.range (levelSize c.canvasH l)).flatMap fun (y : Nat) =>
    (List.range (levelSize c.canvasW l)).flatMap fun (x : Nat) => u16 (pyrAt s c cnt l x y).toNat

/-- The pyramid of a composed frame is kept in PYR_EXH (R289). -/
def keepPyramid (k cnt : Nat) (c : HeadCfg) (m : MotionCfg) (s : State) : State :=
  modMotion k (fun x => { x with kept := (cnt :: x.kept.filter fun i => i % 2 ≠ cnt % 2).take 2 })
    (writeInternal (exhRange s (pyrExh m cnt)).1 (pyramid s c cnt) s)

/-- FIELD_READ_ERR with the first block and the count of those concerned (R296). -/
def fieldReadErr (k n first cnt : Nat) : State → State :=
  record (0x10 + k) 0x0C04 (u8 k ++ u24 0 ++ u32 n ++ u32 first ++ u32 cnt)

/-- E_n in full: with frame n - 1, by the search, its pyramid built first where none is kept; without, CONF 0 throughout, with vectors the spec does not state (R289, R290). -/
def surveyField (k n cnt : Nat) (c : HeadCfg) (m : MotionCfg) (s : State) : List Byte × State :=
  let count := fieldW c * fieldH c
  if prevAvailable (headOf s k).pipe n then
    let s := if (headOf s k).motion.kept.contains (cnt - 1) then s else keepPyramid k (cnt - 1) c m s
    let l := (List.range (fieldH c)).flatMap fun bY => (List.range (fieldW c)).map fun bx => surveyBlock s c m cnt bx bY
    let bad := (l.zipIdx).filter fun v => v.1.2
    let s := noteReads (0x10 + k) [((exhRange s (pyrExh m (cnt - 1))).1, 2 * levelBase c 4)] s
    (l.flatMap fun v => u32 v.1.word, match bad with
      | [] => s
      | x :: _ => fieldReadErr k n x.2 bad.length s)
  else ((List.range count).flatMap fun i => u32 (Config.freeValue (s.free + i) % 2 ^ 26), { s with free := s.free + count })

/-- The frame whose E_n completes: the earliest composed one whose field is not complete and can still be in time, else the newest
(R290). -/
def surveyFrame (s : State) (k : Nat) (m : Motion) : Option (Nat × Nat) :=
  let l := (headOf s k).pipe.composed.filter fun x => decide (m.since ≤ x.1) && !m.fieldsFor.contains (x.1 + 1)
  (l.reverse.find? fun x => decide (s.now ≤ pseOf s k (x.1 + 1))).orElse fun _ => l.head?

/-- E_n is complete, and frame n + 1 may use it where that is so by its PSE (R289 to R291). -/
def execSurveyFieldDone (dt head : Nat) (s : State) : Res :=
  let s := tick dt s
  let h := headOf s head
  match h.pipe.cfg, h.motion.cfg, surveyFrame s head h.motion with
  | some c, some m, some (n, cnt) =>
    if m.source ≠ 2 then .next s
    else
      let (field, s) := surveyField head n cnt c m s
      let s := keepPyramid head cnt c m s
      let s := writeInternal (exhRange s (fieldExh m (n + 1))).1 field s
      .next (if s.now ≤ pseOf s head (n + 1) then modMotion head (fun x => { x with fieldsFor := (n + 1) :: x.fieldsFor.take 7 }) s
             else s)
  | _, _, _ => .next s

/-! ### The sample of a slot (R282 to R285) -/

/-- d_k (R282). -/
def slotPhase (c : HeadCfg) (m : MotionCfg) (x : Slot) : Int :=
  let t : Int := (x.offset + x.gap + x.onTime / 2 : Nat)
  let ref : Int := (m.ref * c.pmin / 256 : Nat)
  clampInt (-65536) 65536 ((t - ref) * 65536 / c.pmin)

/-- Whether the entry of a block of the field of a frame cannot be read. -/
def entryFails (s : State) (m : MotionCfg) (n i : Nat) : Bool := readFails s ((exhRange s (fieldExh m n)).1 + 4 * i) 4

/-- Whether a number lies in one of several runs, given by first and last. -/
def inRuns (l : List (Nat × Nat)) (i : Nat) : Bool := l.any fun f => decide (f.1 ≤ i) && decide (i ≤ f.2)

/-- The blocks whose field entries the Press was told have failed, as runs from first to last. -/
def errBlocks (e : PressErr) : List (Nat × Nat) := (e.field.filter fun f => f.2 ≠ 0).map fun f => (f.1, f.1 + f.2 - 1)

/-- The block of a canvas position, CONF 0 where its entry failed (R296). -/
def PressEnv.block (e : PressEnv) (s : State) (m : MotionCfg) (x y : Nat) : Vec :=
  let v := fieldAt s e.c m e.n (x / 16) (y / 16)
  let i := y / 16 * fieldW e.c + x / 16
  if inRuns (errBlocks e.errs) i || entryFails s m e.n i then { v with conf := 0 } else v

/-- A sample: its value, and whether case 5 or case 6 of Table 12.1 left it unshifted. -/
structure Sampled where
  val  : List Int
  occ  : Bool
  clip : Bool
  deriving DecidableEq, Repr

/-- Why an interp position is rejected (Table 12.1): 0 not, else the case. -/
def PressEnv.reject (e : PressEnv) (s : State) (m : MotionCfg) (cnt : Nat) (b : Vec) (cy : Nat) (X Y : Int) : Nat :=
  let x := edge e.c.canvasW (X / 8)
  let y := edge e.c.canvasH (Y / 8)
  let v := e.block s m x y
  if (pixAt s e.c cnt x y).2 then 4
  else if (m.occThr : Int) < (v.x - b.x).natAbs ∨ (m.occThr : Int) < (v.y - b.y).natAbs then 5
  else if (m.band : Int) - 1 < ((y : Int) - cy).natAbs then 6
  else 0

/-- Three components interpolated. -/
def interpPix (s : State) (c : HeadCfg) (cnt : Nat) (X Y : Int) : List Int :=
  (List.range 3).map fun i =>
    interp8 (fun x y => ((pixAt s c cnt (edge c.canvasW x) (edge c.canvasH y)).1).getD i 0) X Y

/-- Whether a line of a composed frame cannot be read. -/
def lineFails (s : State) (c : HeadCfg) (cnt y : Nat) : Bool :=
  readFails s ((exhRange s (c.comp.getD (cnt % 3) 0)).1 + y * compPitch c.canvasW) (8 * c.canvasW)

/-- Whether lines of the previous frame that a sample uses failed (R296). -/
def PressEnv.prevBad (e : PressEnv) (s : State) (Y : Int) : Bool :=
  [edge e.c.canvasH (Y / 8), edge e.c.canvasH (Y / 8 + 1)].any fun y =>
    inRuns e.errs.prev y || lineFails s e.c (e.cnt - 1) y

/-- sample(cx, cy, k) of R283.  A mirror whose canvas line lies among the lines of a failed band is not shifted (R296; DEDUCED,
notes/assumptions/81.md). -/
def PressEnv.sample (e : PressEnv) (s : State) (cx cy : Nat) (x : Slot) : Sampled :=
  let (here, vit) := pixAt s e.c e.cnt cx cy
  match e.motion with
  | none => ⟨here, false, false⟩
  | some m =>
    let b := e.block s m cx cy
    if vit ∨ b.conf < m.confMin ∨ inRuns e.errs.band cy then ⟨here, false, false⟩
    else
      let d := slotPhase e.c m x
      let pos := fun (q : Int) (v : Int) (p : Nat) => 8 * (p : Int) - (v * q + 32768) / 65536
      let X := pos d b.x cx
      let Y := pos d b.y cy
      match e.reject s m e.cnt b cy X Y with
      | 0 =>
        let cur := interpPix s e.c e.cnt X Y
        let X2 := pos (d + 65536) b.x cx
        let Y2 := pos (d + 65536) b.y cy
        if 0 ≤ d ∨ !e.prev ∨ e.prevBad s Y2 ∨ e.reject s m (e.cnt - 1) b cy X2 Y2 ≠ 0 then ⟨cur, false, false⟩
        else
          let prv := interpPix s e.c (e.cnt - 1) X2 Y2
          ⟨(List.range 3).map fun i => ((65536 + d) * cur.getD i 0 - d * prv.getD i 0 + 32768) / 65536, false, false⟩
      | w => ⟨here, w == 5, w == 6⟩

end Sys2Proof.Machine
end

