-- ==== Sys2Proof/Machine/Solver.lean ====
section
/-!
DEFINITION. The colour solver (chapter 15): meanings of SOLVER_CFG, CAL_LOAD, CAL_CORRECT, SOLVE_DONE and the clear; the
measurement of a frame (R358, R359), the solve (R360 to R362), and the load into the Press (R25, R363).  What R360 computes is
rounded to binary64 after every operation (notes/assumptions/20.md).
-/

namespace Sys2Proof.Machine

/-! ### Rounding -/

/-- Nearest integer, ties away from zero (R362). -/
def roundAway (a : Rat) : Int := if a < 0 then -((-a + 1 / 2).floor) else (a + 1 / 2).floor

/-- Largest integer with a square at most n, by bits. -/
def isqrt (n : Nat) : Nat :=
  (List.range 64).foldl (fun acc b => if (acc + 2 ^ (63 - b)) ^ 2 ≤ n then acc + 2 ^ (63 - b) else acc) 0

/-! ### Settings (R355 to R357, R366) -/

def solverBusy (s : State) (k : Nat) : Option Nat := (headOf s k).solver.pending.map (·.2.1.tag)

/-- F_m of R356. -/
def changeFrame (s : State) (k t : Nat) : Nat := (headOf s k).pipe.firstFlip (t + 400000)

def pendSolver (k : Nat) (d : Desc) (x : SolverChange) (s : State) : State :=
  modSolver k (fun v => { v with pending := some (x, d, changeFrame s k d.t) }) s

/-- Recipe in force of a head. -/
def recipeInForce (s : State) (k : Nat) : Option Recipe := (headOf s k).press.recipe

def solverInvalid (s : State) (d : Desc) : Option Nat :=
  let few := d.p8 17 == 1 && (recipeInForce s (d.p8 16)).any fun r => decide (r.chans.length < 3)
  (List.find? (·.1)
    ([(decide (1 < d.p8 17) || few, 17), (decide (1 < d.p8 18), 18), (decide (1 < d.p8 19), 19),
      (decide (d.p32 20 < 16384 ∨ 65536 < d.p32 20), 20), (decide (40000 < d.p32 24), 24),
      (decide (d.p16 28 < 1 ∨ 1024 < d.p16 28), 28), (decide (d.p8 30 = 0), 30)] ++
     (span 32 63).map fun i => (decide (d.p8 i ≠ 0), i))).map (·.2)

def solverAct (d : Desc) (s : State) : State :=
  let k := d.p8 16
  match solverInvalid s d, solverBusy s k with
  | some o, _ => complete d 0xF80 (u16 o) s
  | none, some tag => complete d 0xF84 (u32 tag) s
  | none, none =>
    pendSolver k d (.cfg { closed := d.p8 17 == 1, policy := d.p8 18, jump := bitOf (d.p8 19) 0, lum := d.p32 20,
                           skip := d.p32 24, minSamp := d.p16 28, staleN := d.p8 30, headWarn := d.p8 31 }) s

def execSolverCfg (dt : Nat) (d : Desc) (s : State) : Res :=
  .next (runDesc (specI0 0x0D01 []) d (headBad 16) noOver solverAct (tick dt s))

/-- Channel entry i of a calibration block (Table 15.3). -/
def calEntry (b : List Byte) (i : Nat) : CalEntry :=
  let o := 128 + 32 * i
  let g := fun j n => signed (8 * n) (fieldOf b (o + j) n)
  { chan := fieldOf b o 1, ain := fieldOf b (o + 1) 1, tsrc := fieldOf b (o + 2) 1, tidx := fieldOf b (o + 3) 1,
    dark := g 4 2, resp := fieldOf b (o + 8) 4, cx := fieldOf b (o + 12) 2, cy := fieldOf b (o + 14) 2, tGain := g 16 4,
    tOff := g 20 2, ax := g 22 2, ay := g 24 2, bx := g 26 2, by_ := g 28 2, ak := g 30 2 }

def calOf (b : List Byte) : Calib :=
  { tRef := signed 32 (fieldOf b 0 4)
    fixed := (List.range 18).map fun i => signed 32 (fieldOf b (8 + 4 * i) 4)
    share := (List.range 6).map fun i => fieldOf b (80 + 4 * i) 4
    entries := (List.range (min 48 (fieldOf b 4 2))).map (calEntry b) }

/-- CAL_INVALID: the first rule of Tables 15.2 and 15.3 broken, by block offset (R357). -/
def calInvalid (b : List Byte) (len : Nat) : Option Nat :=
  let n := fieldOf b 4 2
  let z := fun i => (decide (fieldOf b i 1 ≠ 0), i)
  (List.find? (·.1)
    ([(decide (n < 1 ∨ 48 < n ∨ len ≠ 128 + 32 * n), 4), z 6, z 7] ++
     (List.range 6).map (fun i => (decide (fieldOf b (80 + 4 * i) 4 < 256 ∨ 16777216 < fieldOf b (80 + 4 * i) 4), 80 + 4 * i)) ++
     (span 104 127).map z ++
     (List.range (min 48 n)).flatMap fun i =>
       let o := 128 + 32 * i
       let e := calEntry b i
       [(decide (47 < e.chan) || ((List.range i).any fun j => (calEntry b j).chan = e.chan), o), (decide (47 < e.ain), o + 1),
        (decide (2 < e.tsrc), o + 2),
        (decide ((match e.tsrc with | 0 => 1 | 1 => 8 | _ => 16) ≤ e.tidx), o + 3), z (o + 6), z (o + 7),
        (decide (e.resp = 0), o + 8), (decide (e.cy = 0), o + 14)])).map (·.2)

def calAct (buf : HostBuf) (d : Desc) (s : State) : State :=
  let k := d.p8 24
  match bufOf d buf s with
  | .error x => complete d 0x501 (u64 x.length) s
  | .data x =>
    let b := padTo (max 128 d.length) (x.take d.length)
    match calInvalid b d.length with
    | some o => complete d 0xF81 (u16 o) s
    | none =>
      let c := calOf b
      match (c.entries.zipIdx).find? fun e => chanOwner s e.1.chan != some k, solverBusy s k with
      | some e, _ => complete d 0x13 (u16 (128 + 32 * e.2)) s
      | none, some tag => complete d 0xF84 (u32 tag) s
      | none, none => pendSolver k d (.cal c) s

def calOver (d : Desc) (_ : State) : Bool := decide (1664 < d.length)

def execCalLoad (dt : Nat) (d : Desc) (buf : HostBuf) (s : State) : Res :=
  .next (runDesc (specBuf 0x0D02 true (span 25 63)) d (headBad 24) calOver (calAct buf) (tick dt s))

/-! ### Estimates -/

/-- T_c, x_c, y_c and η_c of a channel from the sums of a frame in which it was measured (R358, Table 15.3). -/
def lightOf (cal : Calib) (e : CalEntry) (m : Meas) : Rat × Rat × Rat × Rat :=
  let ref := b64 ((cal.tRef : Rat) / 256)
  let temp := if e.tsrc = 0 then ref
    else fadd (fdiv (fmul e.tGain (fdiv m.sumT m.n)) 65536) ((e.tOff : Rat) / 256)
  let dT := fsub temp ref
  let at_ := fun (c a b : Rat) => fadd (fadd (fdiv c 50000) (fmul (fdiv a 10000000) dT)) (fmul (fmul (fdiv b 1000000000) dT) dT)
  let resp := fmul ((e.resp : Rat) / 4294967296) (fadd 1 (fmul (fdiv e.ak 1000000) dT))
  (temp, at_ e.cx e.ax e.bx, at_ e.cy e.ay e.by_, fdiv (fmul resp m.sumY) ((m.sumA : Rat) / 4096))

/-- η_c × (x/y, 1, (1 - x - y)/y) of a channel; nothing before it was measured (R359, R360). -/
def chanLight (m : Meas) : Vec3 :=
  m.light.elim (0, 0, 0) fun (_, x, y, eta) => fscale eta (fdiv x y, 1, fdiv (fsub (fsub 1 x) y) y)

def measOf (l : List Meas) (c : Nat) : Meas :=
  (l.find? fun m => m.chan = c).getD
    { chan := c, n := 0, sumY := 0, sumA := 0, sumT := 0, lastN := 0, light := none }

/-- Length of the light window of R342 at a half-period. -/
def windowLen (th : Rat) (psiV : Nat) : Int := (th * (2 ^ 32 - psiV) / 2 ^ 40).floor - (th * psiV / 2 ^ 40).floor

/-- duty of primary p, times P_m (R360); in scan-line mode with H light windows at the mean half-period of the frame. -/
def dutyOf (r : Recipe) (red : Bool) (th : Nat × Nat) (canvasH psiV p : Nat) : Rat :=
  (r.slots.filter fun x => x.prim = p ∧ r.keeps red x).foldl (fun a x =>
    if r.isScan then
      let w := fieldWidth r x
      let win := (canvasH : Rat) * windowLen (fdiv th.1 th.2) psiV
      fadd a (fmul (fmul win ((x.amp : Rat) / 4096)) ((2 ^ w - 1 : Rat) / 2 ^ w))
    else fadd a (fmul x.onTime ((x.amp : Rat) / 4096))) 0

/-- Phi: the tristimulus values of each primary at v_p = 1.0 (R360). -/
def phiOf (z : Closed) (r : Recipe) (red : Bool) (canvasH psiV : Nat) (cal : Calib) : List Vec3 :=
  (r.chans.zipIdx).map fun x =>
    let sum := (cal.entries.filter fun e => bitOf x.1 e.chan).foldl (fun a e => fvadd a (chanLight (measOf z.meas e.chan))) (0, 0, 0)
    fscale (fdiv (dutyOf r red z.th canvasH psiV x.2) z.period) sum

/-- The stale primaries of a frame (R359). -/
def staleOf (z : Closed) (r : Recipe) (cal : Calib) : List Nat :=
  ((r.chans.zipIdx).filter fun x => (bitsOf x.1 48).any fun c =>
    !(cal.entries.any fun e => e.chan = c) || decide ((measOf z.meas c).lastN < z.cfg.minSamp)).map (·.2)

/-- A chromaticity word as X, Y, Z with Y = 1. -/
def chroma3 (v : Nat) : Vec3 :=
  let x : Rat := bits v 0 16
  let y : Rat := bits v 16 16
  (fdiv x y, 1, fdiv (50000 - x - y) y)

/-- Mw by its columns' rows: RGB to XYZ with white at Y = LUM_TARGET / 65,536 (R360). -/
def whiteMatrix (prims : List Nat) (lum : Nat) : Mat3 :=
  let r := chroma3 (prims.getD 0 0)
  let g := chroma3 (prims.getD 1 0)
  let b := chroma3 (prims.getD 2 0)
  let sc := fmvec (finv (mtrans (r, g, b))) (chroma3 (prims.getD 3 0))
  let k : Rat := (lum : Rat) / 65536
  mtrans (fscale (fmul k sc.1) r, fscale (fmul k sc.2.1) g, fscale (fmul k sc.2.2) b)

/-- D of R360 by rows, or none where the solve is ill-conditioned. -/
def solveD (phi : List Vec3) (share : List Nat) (mw : Mat3) : Option (List Vec3) :=
  let w := fun i : Nat => (share.getD i 0 : Rat) / 65536
  let a := (phi.zipIdx).foldl (fun m x =>
    fmadd m (fscale (fmul (w x.2) x.1.1) x.1, fscale (fmul (w x.2) x.1.2.1) x.1, fscale (fmul (w x.2) x.1.2.2) x.1))
    ((0, 0, 0), (0, 0, 0), (0, 0, 0))
  if rcond a < b64 (1 / 1000000) then none
  else match phi with
    | [p, q, r] =>
      let i := finv (mtrans (p, q, r))
      some ([i.1, i.2.1, i.2.2].map (fmvec (mtrans mw)))
    | _ => some ((phi.zipIdx).map fun x => fmvec (mtrans mw) (fmvec (mtrans (finv a)) (fscale (w x.2) x.1)))

def rowGain (v : Vec3) : Rat := v.1 + v.2.1 + v.2.2

/-- POLICY (R361). -/
def applyPolicy (policy : Nat) (d : List Vec3) : List Vec3 :=
  let top := d.foldl (fun m v => rmax m (rowGain v)) 0
  if policy = 0 then (if 1 < top then d.map (vscale (1 / top)) else d)
  else d.map fun v => if 1 < rowGain v then vscale (1 / rowGain v) v else v

def entries3 (l : List Vec3) : List Rat := l.flatMap fun v => [v.1, v.2.1, v.2.2]

/-- One entry through the limiter against E' (R362): its value, and whether it was limited. -/
def limitEntry (top : Nat) (old : Int) (target : Rat) : Int × Bool :=
  let b : Rat := (top : Rat) / 400
  if b < rabs (target - old) then (if target < old then (old - b.floor, true) else (old + b.floor, true))
  else (roundAway target, false)

/-- The entries of E through the limiter; a row that the result does not have stays. -/
def limitAll (jump : Bool) (old : List Int) (target : List Rat) : List Int × Bool :=
  let one := fun i : Nat =>
    let row := (List.range 3).foldl (fun m j => max m (old.getD (3 * (i / 3) + j) 0).natAbs) 0
    match target[i]? with
    | none => (old.getD i 0, false)
    | some t => if jump then (roundAway t, false) else limitEntry row (old.getD i 0) t
  let l := (List.range 18).map one
  (l.map (·.1), l.any (·.2))

/-- Predicted white Φ E (1, 1, 1) (R363). -/
def predictWhite (phi : List Vec3) (e : List Int) : Vec3 :=
  (phi.zipIdx).foldl (fun a x =>
    let g : Int := e.getD (3 * x.2) 0 + e.getD (3 * x.2 + 1) 0 + e.getD (3 * x.2 + 2) 0
    vadd a (vscale ((g : Rat) / 16777216) x.1)) (0, 0, 0)

/-- Δu'v' squared between two colours (R363). -/
def duvSquared (a b : Vec3) : Rat :=
  let den := fun v : Vec3 => v.1 + 15 * v.2.1 + 3 * v.2.2
  let u := fun v : Vec3 => rquot (4 * v.1) (den v)
  let w := fun v : Vec3 => rquot (9 * v.2.1) (den v)
  (u a - u b) * (u a - u b) + (w a - w b) * (w a - w b)

def fix24 (v : Vec3) : List Int := [(v.1 * 16777216).floor, (v.2.1 * 16777216).floor, (v.2.2 * 16777216).floor]

/-! ### SOLVE_DONE -/

/-- Headroom events of a solve (R361).  HEADROOM_RESTORED keeps Table 15.5's head and frame in their places; the primary of largest
g and that g, which R361 has each record carry, lie in byte 17 and after the frame (DEDUCED, notes/assumptions/88.md). -/
def headroom (k : Nat) (z : Closed) (d : List Vec3) (s : State) : State :=
  let v := (headOf s k).solver
  let (best, top) := (d.zipIdx).foldl (fun (b : Nat × Rat) x => if b.2 < rowGain x.1 then (x.2, rowGain x.1) else b)
    (0, (d.head?.map rowGain).getD 0)
  let g := u32 (top * 65536).floor.toNat
  let exh := decide (1 < top)
  let low := !exh && decide (1 - top < (z.cfg.headWarn : Rat) / 256)
  let s := if exh && !v.exhausted then record (0x10 + k) 0x0F03 (u8 k ++ u8 best ++ u16 0 ++ g ++ u32 z.frame) s else s
  let s := if !exh && v.exhausted then record (0x10 + k) 0x0F04 (u8 k ++ u8 best ++ u16 0 ++ u32 z.frame ++ g) s else s
  let s := if low && !v.lowHead then record (0x10 + k) 0x0F02 (u8 k ++ u8 best ++ u16 0 ++ g) s else s
  modSolver k (fun v => { v with exhausted := exh, lowHead := low }) s

/-- Cave hold, up to the PSE of the first live frame (R365). -/
def inHold (s : State) (k : Nat) : Bool :=
  let h := headOf s k
  h.cave.state == .hold || (h.cave.state == .leaving && decide (s.now < pseOf s k h.cave.live))

/-- A result through the limiter: against E, but for MODE 0 and the first load after a SOLVER_CFG with JUMP (R362). -/
def SolveLoad.limit (l : SolveLoad) (e : List Int) (jump : Option Nat) : List Int × Bool :=
  limitAll (!l.closed || jump.any fun m => decide (m ≤ l.frame)) e l.target

/-- JUMP is spent by the first load measured under it. -/
def SolveLoad.spend (l : SolveLoad) (jump : Option Nat) : Option Nat := jump.filter fun m => decide (l.frame < m)

/-- E as it stands when every result that waits has loaded. -/
def Solver.expected (v : Solver) : List Int :=
  (v.loads.foldl (fun (a : List Int × Option Nat) l => ((l.limit a.1 a.2).1, l.spend a.2)) (v.e, v.jumpDue)).1

/-- The result waits for F_(m+2); in Cave hold only the newest does (R365).  The limiter takes it when it loads, against the E then
in force, which is the E' of R362. -/
def queueLoad (k : Nat) (load : SolveLoad) (s : State) : State :=
  let hold := inHold s k
  modSolver k (fun v => { v with loads := if hold then [load] else v.loads ++ [load], holding := false }) s

/-- Mean T_c of each primary in 1/256 °C. -/
def meanTemps (z : Closed) (r : Recipe) (cal : Calib) : List Int :=
  r.chans.map fun m =>
    let l := cal.entries.filter fun e => bitOf m e.chan
    let t := l.foldl (fun a e => a + ((measOf z.meas e.chan).light.elim ((cal.tRef : Rat) / 256) (·.1))) (0 : Rat)
    if l.isEmpty then 0 else (t * 256 / l.length).floor

/-- The estimates of a measured frame join the history of 64 (R366). -/
def keepEstimate (k : Nat) (z : Closed) (phi : List Vec3) (e : List Int) (s : State) : State :=
  modSolver k (fun v => { v with history :=
    ({ frame := z.frame, phi := phi.map fix24, white := fix24 (predictWhite phi e) } :: v.history).take 64 }) s

/-- A hold of one frame (R360, R364); HOLDING reports that of R364 (Table 15.7). -/
def holdFrame (k frame cause : Nat) (s : State) : State :=
  record (0x10 + k) 0x0F09 (u8 k ++ u24 0 ++ u32 frame ++ u8 cause) (modSolver k (fun v => { v with holding := cause == 2 }) s)

/-- The primaries that are stale in a frame, for how many frames of MODE 1 on end one has been, and the hold that STALE_FRAMES of
them begin and a frame without one ends (R359): a MODE 0 head loads its matrix whatever is stale, so it holds nothing (R362;
DEDUCED, notes/assumptions/88.md). -/
def seeStale (k : Nat) (z : Closed) (stale : List Nat) (s : State) : State :=
  let v := (headOf s k).solver
  let run := if stale.isEmpty || !z.cfg.closed then 0 else v.staleRun + 1
  let hold := decide (0 < run) && (v.staleHold || decide (z.cfg.staleN ≤ run))
  let s := modSolver k (fun v => { v with staleMask := maskOf stale, staleRun := run, staleHold := hold }) s
  if hold && !v.staleHold then record (0x10 + k) 0x0F05 (u8 k ++ u8 (maskOf stale) ++ u16 0 ++ u32 z.frame) s else s

/-- What a solve hands to its load, without a result. -/
def loadOf (z : Closed) (c : HeadCfg) (phi : List Vec3) (temps : List Int) (stale : Bool) : SolveLoad :=
  { frame := z.frame, at_ := z.frame + 2, target := [], closed := z.cfg.closed, policy := z.cfg.policy, stale := stale,
    exhausted := false, gamutOut := false, white := c.prims.getD 3 0, phi := phi, temps := temps }

/-- The solve in MODE 1 (R359 to R362); a late one loads nothing (R364). -/
def solveClosed (k : Nat) (c : HeadCfg) (z : Closed) (load : SolveLoad) (late : Bool) (s : State) : State :=
  if (headOf s k).solver.staleHold then s
  else match solveD load.phi (z.cal.elim [] (·.share)) (whiteMatrix c.prims z.cfg.lum) with
    | none => holdFrame k z.frame 1 s
    | some d =>
      let s := headroom k z d s
      if late then s
      else queueLoad k { load with
        exhausted := (headOf s k).solver.exhausted, gamutOut := (entries3 d).any fun x => decide (x < 0)
        target := (entries3 (applyPolicy z.cfg.policy d)).map (· * 16777216) } s

/-- The matrix that a frame's predicted white is taken with: that of the load it gave, or with none the one in force (R363, R366;
DEDUCED, notes/assumptions/88.md). -/
def solvedE (s : State) (k frame : Nat) : List Int :=
  let v := (headOf s k).solver
  if v.loads.any fun l => l.frame = frame then v.expected else v.e

/-- The solve of the oldest frame that has ended is done (R25, R360, R364). -/
def solveDone (k : Nat) (readErr : Bool) (s : State) : State :=
  let h := headOf s k
  match h.solver.closed, h.pipe.cfg with
  | z :: rest, some c =>
    let s := modSolver k (fun v => { v with closed := rest }) s
    let due := h.pipe.flipAt (z.frame + 2)
    let late := decide (due ≤ s.now)
    let s := if late then headMiss k 4 (0x10 + k) due s else s
    match z.recipe with
    | none => if readErr then holdFrame k z.frame 2 s else s
    | some (r, red) =>
      let stale := z.cal.elim (List.range r.chans.length) (staleOf z r)
      let s := seeStale k z stale s
      if readErr then holdFrame k z.frame 2 s
      else
        let psiV := (h.scan.cfg.map (psi ·.active)).getD 0
        let phi := z.cal.elim (r.chans.map fun _ => (0, 0, 0)) (phiOf z r red c.canvasH psiV)
        let load := loadOf z c phi (z.cal.elim [] (meanTemps z r)) (!stale.isEmpty)
        let s := if z.cfg.closed then solveClosed k c z load late s
          else if late then s
          else queueLoad k { load with target := (z.cal.elim Reset.unitE (·.fixed)).map fun (x : Int) => (x : Rat) } s
        if z.cal.isSome && !z.past then keepEstimate k z phi (solvedE s k z.frame) s else s
  | _, _ => s

def execSolveDone (dt head : Nat) (readErr : Bool) (s : State) : Res := .next (solveDone head readErr (tick dt s))

/-! ### The load at PSE (R25, R363, R365) -/

/-- A result loads: the limiter, the predicted white and the registers of the load (R362, R363, R368). -/
def loadResult (k : Nat) (l : SolveLoad) (s : State) : State :=
  let v := (headOf s k).solver
  let (e, lim) := l.limit v.e v.jumpDue
  let w := predictWhite l.phi e
  let q := duvSquared w (chroma3 l.white)
  let ok := l.closed && !l.stale && !lim && !(l.exhausted && l.policy == 1) && decide (q ≤ 9 / 4000000)
  let duv := min 65535 (isqrt (q * 10000000000).floor.toNat)
  let s := modSolver k (fun v => { v with
    e := e, jumpDue := l.spend v.jumpDue, limited := lim, inRange := ok, frame := l.frame, duv := duv
    lum := (w.2.1 * 65536).floor.toNat, est := l.phi.map fix24, temps := l.temps, loadedExh := l.exhausted, gamutOut := l.gamutOut
    limitedN := if lim then bump v.limitedN else v.limitedN }) s
  if v.inRange ∧ !ok then record (0x10 + k) 0x0F06 (u8 k ++ u24 0 ++ u32 l.frame ++ u16 duv) s
  else if !v.inRange ∧ ok then record (0x10 + k) 0x0F07 (u8 k ++ u24 0 ++ u32 l.frame) s
  else s

/-- PSE_n: the result due at F_(n-1) loads, unless a copy pair of E failed (R364). -/
def solverLoad (k n : Nat) (matrixBad : Bool) (s : State) : State :=
  let v := (headOf s k).solver
  let due := v.loads.filter fun l => decide (l.at_ + 1 ≤ n)
  let s := modSolver k (fun v => { v with loads := v.loads.filter fun l => !decide (l.at_ + 1 ≤ n) }) s
  if matrixBad then holdFrame k n 2 s
  else due.getLast?.elim s fun l => loadResult k l s

/-! ### Measurement (R358) and changes of settings (R356) -/

/-- One valid sample of a channel (R358). -/
def solverSample (k c : Nat) (y amp temp : Int) (s : State) : State :=
  modSolver k (fun v =>
    let m := measOf v.meas c
    let m := { m with n := m.n + 1, sumY := m.sumY + y, sumA := m.sumA + amp, sumT := m.sumT + temp }
    { v with meas := m :: v.meas.filter fun x => x.chan ≠ c }) s

/-- The sums of a frame that ends become its measurement where MIN_SAMP is met, under the calibration in force for it; a channel
that is not measured keeps what it last gave (R358). -/
def Meas.roll (minSamp : Nat) (cal : Option Calib) (m : Meas) : Meas :=
  let z := { m with n := 0, sumY := 0, sumA := 0, sumT := 0, lastN := m.n }
  match cal.bind fun c => (c.entries.find? fun e => e.chan = m.chan).map fun e => lightOf c e m with
  | some x => if minSamp ≤ m.n then { z with light := some x } else z
  | none => z

/-- T_h of the passes of a frame summed, and how many; of the last pass where none began in it. -/
def halfPeriods (x : Scan) (n : Nat) : Nat × Nat := if x.frame = n ∧ 0 < x.thN then (x.thSum, x.thN) else (x.th, 1)

/-- At F_n the measurement of frame n - 1 ends (R25, R358). -/
def solverRoll (k n : Nat) (s : State) : State :=
  let h := headOf s k
  if n = 0 then s
  else
    modSolver k (fun v =>
      let ms := v.meas.map (Meas.roll v.cfg.minSamp v.cal)
      { v with meas := ms
               closed := v.closed ++ [{ frame := n - 1, cfg := v.cfg, cal := v.cal, recipe := h.press.governing (n - 1)
                                        period := h.pipe.period (n - 1), th := halfPeriods h.scan (n - 1), meas := ms
                                        past := false }] }) s

/-- RESP and chromaticity of a primary's channels corrected (R366). -/
def correctCal (cal : Calib) (mask : Nat) (f dx dy : Int) : Calib :=
  { cal with entries := cal.entries.map fun e =>
      if bitOf mask e.chan then
        { e with resp := (e.resp * f.toNat + 2147483648) / 4294967296, cx := e.cx + dx, cy := e.cy + dy } else e }

/-- What a CAL_CORRECT reports: f × 65,536 and the differences in 1/50,000 (R366). -/
def correctDetail (f dx dy : Int) : List Byte := u32 (min top32 (f / 65536).toNat) ++ s16 dx ++ s16 dy

/-- A change of settings takes effect at F_m (R356). -/
def solverDue (k : Nat) (s : State) : State :=
  let h := headOf s k
  match h.solver.pending with
  | none => s
  | some (x, d, m) =>
    let t := h.pipe.flipAt m
    if s.now < t then s
    else
      let s := modSolver k (fun v => { v with pending := none }) s
      match x with
      | .cfg c =>
        let s := modSolver k (fun v => { v with cfg := c, jumpDue := if c.jump then some m else none }) s
        completeAt t d 0 (u32 0 ++ u32 m) (record (0x10 + k) 0x0F01 (u8 k ++ u8 (bit c.closed) ++ u8 c.policy ++ u8 0 ++ u32 m) s)
      | .cal c =>
        completeAt t d 0 (u32 0 ++ u32 m) (modSolver k (fun v => { v with
          cal := some c, meas := [], history := [], closed := v.closed.map fun z => { z with past := true } }) s)
      | .correct p f dx dy =>
        let all := (h.press.recipe.map (·.chans)).getD []
        let mask := if p = 255 then h.pipe.cfg.elim 0 (·.channels) else all.getD p 0
        let s := modSolver k (fun v => { v with
          cal := v.cal.map fun c => correctCal c mask f (if p = 255 then 0 else dx) (if p = 255 then 0 else dy)
          history := [], closed := v.closed.map fun z => { z with past := true } }) s
        completeAt t d 0 (correctDetail f dx dy)
          (record (0x10 + k) 0x0F08 (u8 k ++ u8 p ++ u16 0 ++ correctDetail f dx dy) s)

/-! ### CAL_CORRECT -/

def correctBad (d : Desc) (s : State) : Option (List Byte) :=
  let np := ((recipeInForce s (d.p8 16)).map (·.chans.length)).getD 0
  match headBad 16 d s with
  | some x => some x
  | none => badField [(decide (np ≤ d.p8 17 ∧ d.p8 17 ≠ 255), 17), (decide (d.p16 18 < 1 ∨ 64 < d.p16 18), 18),
                      (decide (d.p32 28 = 0), 28)]

/-- Mean of estimates kept with 24 fraction bits. -/
def meanEst (l : List (List Int)) : Vec3 :=
  let sum := fun i : Nat => (l.foldl (fun a x => a + x.getD i 0) 0 : Int)
  let q := fun i : Nat => (sum i : Rat) / (16777216 * max 1 l.length)
  (q 0, q 1, q 2)

def correctAct (lost : List Nat) (d : Desc) (s : State) : State :=
  let k := d.p8 16
  let v := (headOf s k).solver
  let frames := (List.range (d.p16 18)).map fun i => (d.p32 20 + i) % 2 ^ 32
  let held := frames.map fun n => v.history.find? fun e => e.frame = n
  match solverBusy s k with
  | some tag => complete d 0xF84 (u32 tag) s
  | none =>
    if held.any Option.isNone || !lost.isEmpty then
      complete d 0xF82 (u32 (v.history.getLast?.elim top32 (·.frame))) (countBad (0x10 + k) lost s)
    else
      let ests := held.filterMap id
      let e := meanEst (ests.map fun x => if d.p8 17 = 255 then x.white else x.phi.getD (d.p8 17) [])
      let m : Vec3 := ((d.p32 24 : Rat) / 65536, (d.p32 28 : Rat) / 65536, (d.p32 32 : Rat) / 65536)
      let sum := fun x : Vec3 => x.1 + x.2.1 + x.2.2
      let chr := fun x : Vec3 => (rquot x.1 (sum x), rquot x.2.1 (sum x))
      let dx := (chr m).1 - (chr e).1
      let dy := (chr m).2 - (chr e).2
      let f := rquot m.2.1 e.2.1
      let (fi, dxi, dyi) := ((f * 4294967296).floor, roundAway (dx * 50000), roundAway (dy * 50000))
      if f < 1 / 2 ∨ 2 < f ∨ 1 / 50 < rabs dx ∨ 1 / 50 < rabs dy then complete d 0xF83 (correctDetail fi dxi dyi) s
      else pendSolver k d (.correct (d.p8 17) fi dxi dyi) s

def execCalCorrect (dt : Nat) (d : HistDesc) (s : State) : Res :=
  .next (runDesc (specI0 0x0D03 (span 36 63)) d.desc correctBad noOver (correctAct d.lost) (tick dt s))

end Sys2Proof.Machine
end

