-- ==== Sys2Proof/Machine/PressRun.lean ====
section
/-!
DEFINITION. The Press at work: plane bits and codes (R256, R257, R340, R353), the plane and sample stores (R274, R341),
the order in which tiles are taken (R255, R285), error handling (R276, R284, R296), and meanings of PRESS_START_EVENT, PRESS_FRAME_DONE and the clears.
-/

namespace Sys2Proof.Machine

/-! ### Plane bits (R256, R257) -/

/-- th of R257: 524,288 with dithering off, and for a failed entry (R276). -/
def threshold (e : PressEnv) (r : Recipe) (p cx cy : Nat) : Nat :=
  if !bitOf r.dither p then 524288
  else
    let n := e.n % 2 ^ 32
    let t := (n + p) % max 1 r.tiles
    let row := (cy + (109 * n + 37 * p) % 256) % 256
    let col := (cx + (73 * n + 151 * p) % 256) % 256
    if e.errs.dither.contains (t, 256 * row + col) then 524288
    else
      let v := match getKey t e.dither with
        | some l => l.getD (256 * row + col) 0
        | none => Config.bn1 t row col % 65536
      16 * v + 8

/-- mix(p, c) (R353). -/
def mixRow (m : List Int) (p : Nat) (c : List Int) : Int :=
  let sum := (List.range 3).foldl (fun a j => a + m.getD (3 * p + j) 0 * c.getD j 0) (0 : Int)
  clampInt 0 1048575 ((sum + 8388608) / 16777216)

/-- The attenuation mask at a canvas position; factor 0 where the mask cannot be read (R222). -/
def maskPix (s : State) (e : PressEnv) (cx cy : Nat) (c : List Int) : List Int :=
  let v := e.vit
  if !v.mask then c
  else
    let a := vitBank s e.k v.bank + 0x08700000 + 8192 * cy + cx
    let f : Int := if readFails s a 1 then 0 else vitFactor v (hbmByte s a).toNat
    c.map fun x => x * f / 4096

/-- Depth of a primary in a form (R256, R272). -/
def depthIn (r : Recipe) (red : Bool) (p : Nat) : Nat :=
  let dr := r.depthR.getD p 0
  if red ∧ dr ≠ 0 then dr else r.depth.getD p 0

/-- q of R256 for a primary, from the sample of a slot. -/
def quantise (s : State) (e : PressEnv) (r : Recipe) (red : Bool) (p cx cy : Nat) (c : List Int) : Nat :=
  let v := (mixRow e.mix p (maskPix s e cx cy c)).toNat
  let d := depthIn r red p
  min ((v * (2 ^ d - 1) + threshold e r p cx cy) / 2 ^ 20) (2 ^ d - 1)

/-- plane(a, k, x, y) of R256. -/
def planeBit (s : State) (e : PressEnv) (r : Recipe) (red : Bool) (a : ArrayEnt) (x : Slot) (mx my : Nat) : Bool :=
  let cx := a.wx + mx
  let cy := a.wy + my
  let q := quantise s e r red x.prim cx cy (e.sample s cx cy x).val
  bitOf q (x.bit - (r.depth.getD x.prim 0 - depthIn r red x.prim))

/-! ### Dark tiles and dark slots (R276) -/

/-- Columns of tiles of an array. -/
def ArrayEnt.across (a : ArrayEnt) : Nat := ceilDiv a.ww 64

/-- Tile number of a mirror: rows of tiles from the top, left to right. -/
def tileOf (a : ArrayEnt) (mx my : Nat) : Nat := my / 64 * a.across + mx / 64

/-- A tile of array i whose composed frame could not be read. -/
def tileDark (errs : PressErr) (i tile : Nat) : Bool :=
  errs.tiles.any fun t => t.1 == i && decide (t.2.1 ≤ tile) && decide (tile < t.2.1 + t.2.2)

/-- A slot whose planes are 0 in frame n. -/
def slotDark (r : Recipe) (n : Nat) (errs : PressErr) (x : Slot) : Bool :=
  r.darkAt n x || errs.slots.contains (x.seq, x.order)

/-! ### The order of tiles (R255, R285) -/

/-- The arrays of a Recipe; in scan-line mode the canvas in their place. -/
def Recipe.windows (r : Recipe) (c : HeadCfg) : List ArrayEnt :=
  if r.isScan then [{ ports := 0, seq := 0, cls := 0, wx := 0, wy := 0, ww := c.canvasW, wh := c.canvasH }] else r.arrays

/-- The last canvas line that a tile reads: its own, or the last of the source band under motion rendering. -/
def lastLine (e : PressEnv) (a : ArrayEnt) (t : Nat) : Nat :=
  let bottom := a.wy + min a.wh (t / a.across * 64 + 64) - 1
  if e.band = 0 then bottom else min (e.c.canvasH - 1) (bottom + e.band)

/-- What a tile, given with its array number, is taken by: last line read, array, column, row.  The spec gives no order to the rows of
one column that read the same last line (DESIGN CHOICE, notes/assumptions/77.md). -/
def tileKey (e : PressEnv) (l : List ArrayEnt) (x : Nat × Nat) : List Nat :=
  l[x.1]?.elim [] fun a => [lastLine e a x.2, x.1, x.2 % a.across, x.2 / a.across]

/-- Whether a list of numbers comes before another, the first difference deciding. -/
def before : List Nat → List Nat → Bool
  | a :: l, b :: m => decide (a < b) || (a == b && before l m)
  | _, _ => false

def insertBy (key : Nat × Nat → List Nat) (x : Nat × Nat) : List (Nat × Nat) → List (Nat × Nat)
  | [] => [x]
  | y :: l => if before (key y) (key x) then y :: insertBy key x l else x :: y :: l

/-- Every tile of a frame, with its array number, in the order in which the Press takes them. -/
def tileOrder (e : PressEnv) (r : Recipe) : List (Nat × Nat) :=
  let l := r.windows e.c
  ((l.zipIdx).flatMap fun (a, i) => (List.range (tiles a.ww a.wh)).map fun t => (i, t)).foldr (insertBy (tileKey e l)) []

/-- The rows, and the columns, of a tile. -/
def tileRows (a : ArrayEnt) (t : Nat) : List Nat := (List.range (min 64 (a.wh - t / a.across * 64))).map (t / a.across * 64 + ·)
def tileCols (a : ArrayEnt) (t : Nat) : Nat × Nat := (t % a.across * 64, min 64 (a.ww - t % a.across * 64))

/-! ### The plane store (R274) -/

/-- Byte offset of array i in the store: full-form slot counts. -/
def arrayOffset (r : Recipe) (i : Nat) : Nat := total ((r.arrays.take i).map fun a => a.planeSize * (r.inSeq false a.seq).length)

/-- Address of row y of the plane of a slot of array i in the store of frame n. -/
def planeRowAddr (s : State) (r : Recipe) (n i : Nat) (a : ArrayEnt) (order y : Nat) : Nat :=
  (exhRange s (r.stores.getD (n % 2) 0)).1 + arrayOffset r i + order * a.planeSize + y * a.rowPitch

/-- The bytes of a tile in one row of a plane; the last tile of a row brings the pad bytes of the row too. -/
def tileBytes (s : State) (e : PressEnv) (r : Recipe) (red : Bool) (i : Nat) (a : ArrayEnt) (x : Slot) (t y : Nat) : List Byte :=
  let j0 := t % a.across * 8
  let dark := slotDark r e.n e.errs x || tileDark e.errs i t
  (List.range (if t % a.across + 1 = a.across then a.rowPitch - j0 else 8)).map fun j =>
    BitVec.ofNat 8 (total ((List.range 8).map fun b =>
      let mx := 8 * (j0 + j) + b
      if dark ∨ a.ww ≤ mx then 0 else 2 ^ b * bit (planeBit s e r red a x mx y)))

/-- A tile of every plane of its array, computed from the state `src` (R256, R275). -/
def writeTile (src : State) (e : PressEnv) (r : Recipe) (red : Bool) (i : Nat) (a : ArrayEnt) (t : Nat) (s : State) : State :=
  forEach (r.inSeq red a.seq) (fun x s =>
    forEach (tileRows a t) (fun y s =>
      writeInternal (planeRowAddr src r e.n i a x.order y + t % a.across * 8) (tileBytes src e r red i a x t y) s) s) s

/-! ### The sample store (R340, R341) -/

/-- Passes per line. -/
def Recipe.passes (r : Recipe) : Nat := r.slots.length / max 1 r.chans.length

/-- The slot of a primary at an order. -/
def Recipe.slotAt (r : Recipe) (p order : Nat) : Option Slot := r.slots.find? fun x => x.prim = p ∧ x.order = order

/-- The code of a pixel, R340. -/
def beamCode (s : State) (e : PressEnv) (r : Recipe) (red : Bool) (p order i j : Nat) : Nat :=
  match r.slotAt p order with
  | none => 0
  | some x =>
    if !r.keeps red x ∨ slotDark r e.n e.errs x ∨ tileDark e.errs 0 (j / 64 * ceilDiv e.c.canvasW 64 + i / 64) then 0
    else
      let q := quantise s e r red p i j (pixAt s e.c e.cnt i j).1
      let w := fieldWidth r x
      q / 2 ^ (x.bit - (r.depth.getD p 0 - depthIn r red p)) % 2 ^ w * 2 ^ (16 - w)

/-- Address of the pass image of a line and order in the store of frame n. -/
def passAddr (s : State) (c : HeadCfg) (r : Recipe) (n j order : Nat) : Nat :=
  (exhRange s (r.stores.getD (n % 2) 0)).1 + (j * r.passes + order) * c.canvasW * r.chans.length * 2

/-- A tile of every pass image, computed from the state `src` (R340, R341). -/
def writeTileSamples (src : State) (e : PressEnv) (r : Recipe) (red : Bool) (a : ArrayEnt) (t : Nat) (s : State) : State :=
  let (i0, n) := tileCols a t
  forEach (tileRows a t) (fun j s =>
    forEach (List.range r.passes) (fun o s =>
      writeInternal (passAddr src e.c r e.n j o + i0 * r.chans.length * 2)
        ((List.range n).flatMap fun i => (List.range r.chans.length).flatMap fun p => u16 (beamCode src e r red p o (i0 + i) j)) s) s) s

/-- Tiles of a frame, given with their array numbers, are written. -/
def writeTiles (e : PressEnv) (r : Recipe) (red : Bool) (ts : List (Nat × Nat)) (s : State) : State :=
  let src := s
  forEach ts (fun x s => (r.windows e.c)[x.1]?.elim s fun a =>
    if r.isScan then writeTileSamples src e r red a x.2 s else writeTile src e r red x.1 a x.2 s) s

/-! ### Errors met (R276, R296) -/

def addErrs (a b : PressErr) : PressErr :=
  { tiles := a.tiles ++ b.tiles, dither := a.dither ++ b.dither, copy := a.copy ++ b.copy, eCopy := a.eCopy ++ b.eCopy,
    slots := a.slots ++ b.slots, field := a.field ++ b.field, prev := a.prev ++ b.prev, band := a.band ++ b.band,
    matrix := a.matrix || b.matrix }

def noErr : PressErr :=
  { tiles := [], dither := [], copy := [], eCopy := [], slots := [], field := [], prev := [], band := [], matrix := false }

/-- The composed pixels that a tile reads: those of its own window; with motion rendering in force, the canvas lines of its source band
(R285, R296; DEDUCED, notes/assumptions/115.md). -/
def tileReads (s : State) (e : PressEnv) (a : ArrayEnt) (t : Nat) : List (Nat × Nat) :=
  let base := (exhRange s (e.c.comp.getD (e.cnt % 3) 0)).1
  if e.band = 0 then
    let (x0, n) := tileCols a t
    (tileRows a t).map fun y => (base + (a.wy + y) * compPitch e.c.canvasW + 8 * (a.wx + x0), 8 * n)
  else (span (a.wy + t / a.across * 64 - e.band) (lastLine e a t)).map fun y => (base + y * compPitch e.c.canvasW, 8 * e.c.canvasW)

/-- Whether the composed pixels that a tile reads fail (R276, R437, R463). -/
def tileFails (s : State) (e : PressEnv) (a : ArrayEnt) (t : Nat) : Bool :=
  !allReadable s && (tileReads s e a t).any fun x => readFails s x.1 x.2

/-- The entries of the motion field of a frame that cannot be read, and the lines of the frame before, each as a run of its own
(R296). -/
def foundErrs (s : State) (e : PressEnv) : PressErr :=
  match e.motion with
  | none => noErr
  | some m =>
    if allReadable s then noErr
    else
      let fs := (List.range (fieldW e.c * fieldH e.c)).filter (entryFails s m e.n)
      let ls := if e.prev then (List.range e.c.canvasH).filter (lineFails s e.c (e.cnt - 1)) else []
      { noErr with field := fs.map fun f => (f, 1), prev := ls.map fun y => (y, y) }

/-- The dark tiles of a frame, in the order in which the Press takes them. -/
def darkOrder (e : PressEnv) (r : Recipe) : List (Nat × Nat) := (tileOrder e r).filter fun x => tileDark e.errs x.1 x.2

/-- PRESS_TILE_DARK, once for each array of a frame: its first dark tile in the order of R255, and how many (R276). -/
def recordDark (l : List (Nat × Nat)) (e : PressEnv) (s : State) : State :=
  forEach ((l.map (·.1)).eraseDups) (fun a s =>
    let ts := l.filter fun t => t.1 = a
    let s := record (0x10 + e.k) 0x0B03
      (u8 e.k ++ u8 a ++ u16 0 ++ u32 e.n ++ u32 ((ts.head?.map (·.2)).getD 0) ++ u32 ts.length) s
    modPress e.k (fun p => { p with darkTiles := satAdd top32 p.darkTiles ts.length }) s) s

/-- First and last of several runs of lines. -/
def spanOf (l : List (Nat × Nat)) : Option (Nat × Nat) :=
  (leastOf (l.map (·.1))).map fun a => (a, l.foldl (fun m r => max m r.2) a)

/-- How many numbers below n the runs hold. -/
def runCount (l : List (Nat × Nat)) (n : Nat) : Nat := ((List.range n).filter (inRuns l)).length

/-- The records of the other errors of a frame, but for tiles of threshold and slots already told (R276, R296, R353). -/
def recordErrs (k n : Nat) (told errs : PressErr) (s : State) : State :=
  let u := 0x10 + k
  let s := forEach (((errs.dither.map (·.1)).eraseDups).filter fun t => !(told.dither.map (·.1)).contains t) (fun t =>
    record u 0x0B06 (u8 k ++ u8 t ++ u16 0 ++ u32 n)) s
  let s := forEach (errs.copy ++ errs.eCopy) (fun o => record u 0x0B05 (u8 k ++ u8 0 ++ u16 o)) s
  let s := forEach (errs.slots.filter fun x => !told.slots.contains x) (fun x s =>
    record u 0x0B04 (u8 k ++ u8 x.1 ++ u8 x.2 ++ u8 0 ++ u32 n) (modPress k (·.darken n x) s)) s
  let s := (spanOf (errBlocks errs)).elim s fun f => fieldReadErr k n f.1 (runCount (errBlocks errs) (f.2 + 1)) s
  let lines := fun (f : Nat × Nat) (s : State) => record u 0x0C05 (u8 k ++ u24 0 ++ u32 n ++ u16 f.1 ++ u16 f.2) s
  let s := (spanOf errs.prev).elim s fun f => lines f s
  (spanOf errs.band).elim s fun f => lines f s

/-! ### PRESS_FRAME_DONE -/

def noErrs (e : PressErr) : Bool :=
  e.tiles.isEmpty && e.dither.isEmpty && e.copy.isEmpty && e.eCopy.isEmpty && e.slots.isEmpty && e.field.isEmpty && e.prev.isEmpty &&
    e.band.isEmpty && !e.matrix

/-- Tiles are taken: those whose composed pixels cannot be read are dark from then on (R276). -/
def seeTiles (s : State) (e : PressEnv) (r : Recipe) (ts : List (Nat × Nat)) : PressEnv :=
  let bad := ts.filter fun x => (r.windows e.c)[x.1]?.any fun a => tileFails s e a x.2
  { e with errs := { e.errs with tiles := e.errs.tiles ++ bad.map fun x => (x.1, x.2, 1) } }

/-- The Press takes the next m tiles of a frame in hand and writes them. -/
def takeTiles (k m : Nat) (s : State) : State :=
  match (headOf s k).press.job with
  | none => s
  | some j =>
    let ts := ((tileOrder j.env j.recipe).drop j.taken).take m
    let e := seeTiles s j.env j.recipe ts
    writeTiles e j.recipe j.reduced ts (modPress k (fun p => { p with job := some { j with env := e, taken := j.taken + ts.length } }) s)

/-- A port loads rows of a frame that is not finished: they stand as far as the Press has got, and how far that is, the spec does not
state (a free value, R276, notes/assumptions/80.md). -/
def pressOn (k n : Nat) (s : State) : State :=
  let p := (headOf s k).press
  match p.job with
  | none => s
  | some j =>
    if p.pressing ≠ some n then s
    else
      let (v, s) := takeFree s
      takeTiles k (v % ((tileOrder j.env j.recipe).length - j.taken + 1)) s

/-- Counts of Table 12.7 for the frame being pressed. -/
def motionCounts (s : State) (e : PressEnv) (m : MotionCfg) (r : Recipe) (red : Bool) : Nat × Nat × Nat :=
  let blocks := total ((List.range (fieldH e.c)).map fun bY => ((List.range (fieldW e.c)).filter fun bx =>
    decide ((e.block s m (16 * bx) (16 * bY)).conf < m.confMin)).length)
  let sum := fun f : Sampled → Bool => total (r.arrays.map fun a => total ((r.inSeq red a.seq).map fun x =>
    total ((List.range a.wh).map fun y => ((List.range a.ww).filter fun mx => f (e.sample s (a.wx + mx) (a.wy + y) x)).length)))
  (blocks, sum (·.occ), sum (·.clip))

/-- The per-frame counts of Table 12.7 for a frame as it is pressed (R298). -/
def countMotion (e : PressEnv) (r : Recipe) (red : Bool) (s : State) : State :=
  let (low, occ, clip) := e.motion.elim (0, 0, 0) fun m => motionCounts s e m r red
  modMotion e.k (fun x => { x with lowConf := low, occ := occ, clip := clip }) s

/-- What the Press reads for a frame from HBM: composed pixels by tile; the field and the previous frame where motion rendering has a usable
field; the attenuation mask (Table 18.2, Table 20.3). -/
def pressReads (s : State) (e : PressEnv) (r : Recipe) (ts : List (Nat × Nat)) : List (Nat × Nat) :=
  let lines := List.range e.c.canvasH
  let prev := (exhRange s (e.c.comp.getD ((e.cnt - 1) % 3) 0)).1
  (ts.flatMap fun x => (r.windows e.c)[x.1]?.elim [] fun a => tileReads s e a x.2).eraseDups ++
    (e.motion.elim [] fun m => ((exhRange s (fieldExh m e.n)).1, 4 * fieldW e.c * fieldH e.c) ::
      if e.prev then lines.map fun y => (prev + y * compPitch e.c.canvasW, 8 * e.c.canvasW) else []) ++
    if e.vit.mask then lines.map fun y => (vitBank s e.k e.vit.bank + 0x08700000 + 8192 * y, e.c.canvasW) else []

/-- A frame in hand is finished: the tiles left are taken, errors met since its start change what they concern, and every plane or
sample of the frame stands (R275, R276). -/
def pressAll (k n : Nat) (errs : PressErr) (s : State) : State :=
  match (headOf s k).press.job with
  | none => s
  | some j =>
    let ts := tileOrder j.env j.recipe
    let e := seeTiles s { j.env with errs := addErrs j.env.errs errs } j.recipe (ts.drop j.taken)
    let s := noteReads (0x10 + k) (pressReads s e j.recipe ts) s
    let s := recordErrs k n j.env.errs errs (recordDark (darkOrder e j.recipe) e s)
    let s := if noErrs errs then s else countMotion e j.recipe j.reduced s
    writeTiles e j.recipe j.reduced ts (modPress k (fun p => { p with job := none }) s)

/-- A frame in hand is done, late where that is after its PRD (R275, R276). -/
def finishPress (k n : Nat) (errs : PressErr) (s : State) : State :=
  let told := (headOf s k).press.job.any (·.env.errs.matrix)
  let s := pressAll k n errs s
  let s := if errs.matrix && !told then holdFrame k n 2 s else s
  let prd := prdOf s k n
  let s := if prd < s.now then headMiss k 2 (0x10 + k) prd s else s
  modPress k (fun p => { p with
    pressing := none, frame := n, pressed := (n :: p.pressed).take 2, done := s.now, slackMin := min p.slackMin (prd - s.now) }) s

def execPressFrameDone (dt head : Nat) (errs : PressErr) (s : State) : Res :=
  let s := tick dt s
  .next ((headOf s head).press.pressing.elim s fun n => finishPress head n errs s)

/-! ### PRESS_START_EVENT -/

/-- A usable field, with FIELD_MISSING at the start of a run without one (R291). -/
def fieldCheck (k n : Nat) (m : MotionCfg) (s : State) : Bool × State :=
  let x := (headOf s k).motion
  let first := m.source = 2 ∧ n = x.since
  let ok := x.fieldsFor.contains n && !decide first
  if ok ∨ first then (ok, modMotion k (fun x => { x with fieldOk := ok, missRun := false }) s)
  else
    let s := modMotion k (fun x => { x with fieldOk := false, missRun := true, miss := bump x.miss }) s
    (false, if x.missRun then s else record (0x10 + k) 0x0C03 (u8 k ++ u24 0 ++ u32 n) s)

/-- What a frame that begins now is pressed from. -/
def pressEnv (s : State) (k : Nat) (c : HeadCfg) (n cnt : Nat) (usable : Bool) (errs : PressErr) : PressEnv :=
  let h := headOf s k
  let band := if h.motion.since ≤ n then h.motion.cfg.elim 0 (·.band) else 0
  { k := k, c := c, n := n, cnt := cnt, motion := if usable then h.motion.cfg else none, band := band, prev := prevAvailable h.pipe n,
    dither := h.pipe.dither, vit := h.vit, mix := h.solver.e, errs := errs }

/-- The Press begins frame n (R25, R275), a frame still in hand finished first (R276): the solver's result loads, and what the frame is pressed from is held until it is
finished. -/
def pressStart (k n cnt : Nat) (c : HeadCfg) (r : Recipe) (red : Bool) (errs : PressErr) (s : State) : State :=
  let s := (headOf s k).press.pressing.elim s fun m => finishPress k m noErr s
  let s := solverLoad k n errs.matrix s
  let (usable, s) := match (headOf s k).motion.cfg.filter fun _ => (headOf s k).motion.since ≤ n with
    | some m => fieldCheck k n m s
    | none => (false, modMotion k (fun x => { x with fieldOk := false }) s)
  let e := pressEnv s k c n cnt usable errs
  let errs := addErrs (foundErrs s e) errs
  let e := { e with errs := errs }
  let s := recordErrs k n noErr errs s
  let s := countMotion e r red (modMotion k (fun x => { x with prevOk := e.prev }) s)
  modPress k (fun p => { p with pressing := some n, job := some { env := e, recipe := r, reduced := red, taken := 0 } }) s

def execPressStartEvent (dt head : Nat) (errs : PressErr) (s : State) : Res :=
  let s := tick dt s
  let h := headOf s head
  match h.pipe.cfg, h.pipe.composed.head? with
  | some c, some (n, cnt) =>
    match h.press.governing n with
    | some (r, red) =>
      if s.now < pseOf s head n ∨ h.press.pressing = some n ∨ h.press.pressed.contains n then .next s
      else .next (pressStart head n cnt c r red errs s)
    | none => .next s
  | _, _ => .next s

end Sys2Proof.Machine
end

