-- ==== Sys2Proof/Machine/PlaneLink.lean ====
section
/-!
DEFINITION. Plane Link (chapter 13): what a packet carries (R309, R316, R338), credits and retransmission (R314, R315),
training (R304 to R307), and meanings of PORT_CONFIG, PORT_PARK, the return messages, the port timers and PLK_CLR.
-/

namespace Sys2Proof.Machine

/-! ### Plane images (R309) -/

/-- The array a port shows, with its number. -/
def Recipe.arrayOf (r : Recipe) (p : Nat) : Option (ArrayEnt × Nat) := r.arrays.zipIdx.find? fun a => bitOf a.1.ports p

/-- The columns c0 to c1 - 1 of a port (R317). -/
def portCols (s : State) (a : ArrayEnt) (p : Nat) : Nat × Nat :=
  let q := portOf s p
  match q.pair with
  | some o => if p < o then (0, q.split) else (q.split, a.ww)
  | none => (0, a.ww)

/-- Bytes of a port's plane image. -/
def imageSize (s : State) (a : ArrayEnt) (p : Nat) : Nat := ceilDiv (portMirrors s a p) 8

/-- Byte i of the image of the slot of an order, as the plane store of frame n holds it. -/
def imageByte (s : State) (r : Recipe) (n : Nat) (ai : ArrayEnt × Nat) (order p i : Nat) : Byte :=
  let (c0, c1) := portCols s ai.1 p
  let w := max 1 (c1 - c0)
  BitVec.ofNat 8 (total ((List.range 8).map fun b =>
    let m := 8 * i + b
    let x := c0 + m % w
    if m < w * ai.1.wh ∧ bitOf (hbmByte s (planeRowAddr s r n ai.2 ai.1 order (m / w) + x / 8)).toNat (x % 8) then 2 ^ b else 0))

/-- First and last array row that image bytes hold. -/
def rowsOf (s : State) (a : ArrayEnt) (p off len : Nat) : Nat × Nat :=
  let (c0, c1) := portCols s a p
  let w := max 1 (c1 - c0)
  (8 * off / w, min (a.wh - 1) ((8 * (off + len) - 1) / w))

/-- The bytes of the store that an image range reads, row by row. -/
def imageReads (s : State) (r : Recipe) (n : Nat) (ai : ArrayEnt × Nat) (order p off len : Nat) : List (Nat × Nat) :=
  let (c0, c1) := portCols s ai.1 p
  let (y0, y1) := rowsOf s ai.1 p off len
  (span y0 y1).map fun y => (planeRowAddr s r n ai.2 ai.1 order y + c0 / 8, ceilDiv c1 8 - c0 / 8)

/-- Whether the store cannot return the rows of an image range. -/
def imageFails (s : State) (r : Recipe) (n : Nat) (ai : ArrayEnt × Nat) (order p off len : Nat) : Bool :=
  (imageReads s r n ai order p off len).any fun x => readFails s x.1 x.2

def imageRange (s : State) (r : Recipe) (n : Nat) (ai : ArrayEnt × Nat) (order p off len : Nat) : List Byte :=
  (List.range len).map fun i => imageByte s r n ai order p (off + i)

/-- The slots of a sequence in a form, by ORDER. -/
def Recipe.flips (r : Recipe) (red : Bool) (q : Nat) : List Slot := (r.ordered q).filter (r.keeps red)

/-- What stands in for a plane that cannot be read: frame and order (R316). -/
def standIn (s : State) (k : Nat) (r : Recipe) (red : Bool) (q n order : Nat) : Option (Nat × Nat) :=
  match ((r.flips red q).filter fun x => decide (x.order < order)).getLast? with
  | some x => some (n, x.order)
  | none =>
    match n with
    | 0 => none
    | m + 1 =>
      let pr := (headOf s k).press
      match pr.governing m with
      | some (r', red') => if r'.first = r.first ∧ pr.pressed.contains m then ((r.flips red' q).getLast?).map fun x => (m, x.order) else none
      | none => none

/-- The bytes of the store that a LOAD reads: its own rows, and those of the plane that stands in where they fail (R316). -/
def loadReads (s : State) (k p : Nat) (q : SentPkt) : List (Nat × Nat) :=
  match (headOf s k).press.governing q.frame with
  | none => []
  | some (r, red) => (r.arrayOf p).elim [] fun ai =>
      imageReads s r q.frame ai q.order p q.offset q.len ++
        (if q.bad = 0 ∧ !imageFails s r q.frame ai q.order p q.offset q.len then []
         else (standIn s k r red ai.1.seq q.frame q.order).elim [] fun x => imageReads s r x.1 ai x.2 p q.offset q.len)

/-- The bytes of a LOAD, and whether they were substituted (R316). -/
def loadBytes (s : State) (k p : Nat) (q : SentPkt) : List Byte × Bool :=
  match (headOf s k).press.governing q.frame with
  | none => (List.replicate q.len 0, false)
  | some (r, red) =>
    match r.arrayOf p with
    | none => (List.replicate q.len 0, false)
    | some ai =>
      if q.bad = 0 ∧ !imageFails s r q.frame ai q.order p q.offset q.len then (imageRange s r q.frame ai q.order p q.offset q.len, false)
      else match standIn s k r red ai.1.seq q.frame q.order with
        | some (n, o) =>
          if q.bad = 2 ∨ imageFails s r n ai o p q.offset q.len then (List.replicate q.len 0, true)
          else (imageRange s r n ai o p q.offset q.len, true)
        | none => (List.replicate q.len 0, true)

/-! ### Pass images (R335, R341) -/

/-- The address in the sample store of byte i of the pass image of a line and order, in output order. -/
def passByte (s : State) (c : HeadCfg) (r : Recipe) (q : SentPkt) (i : Nat) : Nat :=
  let set := 2 * max 1 r.chans.length
  let x := if q.rev then c.canvasW - 1 - i / set else i / set
  passAddr s c r q.frame q.line q.order + x * set + i % set

/-- The bytes of the store that a BEAM_DATA reads (R338). -/
def beamReads (s : State) (k : Nat) (q : SentPkt) : List (Nat × Nat) :=
  match (headOf s k).pipe.cfg, (headOf s k).press.governing q.frame with
  | some c, some (r, _) => (List.range q.len).map fun i => (passByte s c r q (q.offset + i), 1)
  | _, _ => []

/-- The bytes of a BEAM_DATA, and whether zeros were sent for a range that cannot be read (R338). -/
def beamBytes (s : State) (k : Nat) (q : SentPkt) : List Byte × Bool :=
  match (headOf s k).pipe.cfg, (headOf s k).press.governing q.frame with
  | some c, some (r, _) =>
    let as := (List.range q.len).map fun i => passByte s c r q (q.offset + i)
    if q.bad ≠ 0 ∨ (!allReadable s && as.any fun a => readFails s a 1) then (List.replicate q.len 0, true)
    else (as.map (hbmByte s), false)
  | _, _ => (List.replicate q.len 0, false)

/-! ### Sending, credits and stale rows (R314, R315) -/

/-- LOAD and LOOP_STORE. -/
def SentPkt.isLoad (q : SentPkt) : Bool := q.type_ = 1 || q.type_ = 4

/-- PLK_READ_SUBST or SCAN_READ_SUBST. -/
def recordSubst (p k : Nat) (q : SentPkt) (s : State) : State :=
  if q.type_ = 0x10 then record (0x10 + k) 0x0E05 (u8 k ++ u24 0 ++ u32 q.frame ++ u16 q.line ++ u8 q.order) s
  else
    let rows := match (headOf s k).press.governing q.frame with
      | some (r, _) => (r.arrayOf p).elim (0, 0) fun ai => rowsOf s ai.1 p q.offset q.len
      | none => (0, 0)
    record (0x18 + p) 0x0D05 (u8 p ++ u24 0 ++ u32 q.frame ++ u8 q.order ++ u8 0 ++ u16 rows.1 ++ u16 rows.2)
      (modPort p (fun o => { o with subst := bump o.subst }) s)

/-- A LOAD, LOOP_STORE or BEAM_DATA reads its bytes from the store now; the image bytes of a first transmission enter
PLANE_CRC as read, and a substitute is recorded (R309, R316, R338). -/
def readStore (p : Nat) (q : SentPkt) (s : State) : List Byte × State :=
  let k := (portOf s p).owner.getD 0
  if q.isLoad then
    let s := pressOn k q.frame s
    let (b, sub) := loadBytes s k p q
    let s := noteReads (0x18 + p) (loadReads s k p q) s
    let s := if q.isRetry then s else
      modPort p (fun o => { o with crc := crc32Over (if q.offset = 0 then 0xFFFFFFFF else o.crc) b }) s
    (b, if sub then recordSubst p k q s else s)
  else if q.type_ = 0x10 then
    let s := pressOn k q.frame s
    let (b, sub) := beamBytes s k q
    let s := noteReads (0x18 + p) (beamReads s k q) s
    (b, if sub then recordSubst p k q s else s)
  else (q.payload, s)

/-- A packet leaves; a FLIP carries the PLANE_CRC of the image read before it (R309). -/
def sendNow (p : Nat) (q : SentPkt) (s : State) : State :=
  let (b, s) := readStore p q s
  let q := if q.type_ = 2 ∧ !q.isRetry then { q with word := Nat.xor 0xFFFFFFFF (portOf s p).crc } else q
  sendPkt p q b s

/-- PLK_STALE_FLIP (R315); a scan-line port gives the line in place of the rows (R338). -/
def staleFlip (p : Nat) (q : SentPkt) (s : State) : State :=
  let k := (portOf s p).owner.getD 0
  let rows := if q.type_ = 0x10 then (q.line, q.line) else
    match (headOf s k).press.governing q.frame with
    | some (r, _) => (r.arrayOf p).elim (0, 0) fun ai => rowsOf s ai.1 p q.offset q.len
    | none => (0, 0)
  record (0x18 + p) 0x0D03 (u8 p ++ u24 0 ++ u32 q.frame ++ u8 q.order ++ u8 0 ++ u16 rows.1 ++ u16 rows.2)
    (modPort p (fun o => { o with stale := bump o.stale }) s)

/-- Whether a packet can no longer bring its rows in time: past S - T_rtx (R314, R315). -/
def tooLate (o : Port) (now : Nat) (q : SentPkt) : Bool := (q.isLoad || q.type_ = 0x10) && decide (q.stamp < now + o.rtx)

/-- Whether a FLIP, LOOP_RUN or PASS can no longer be sent by 800 units before its STAMP: 36 bytes, or 52, take at most 11
units.  Then it is not sent (R312, R315, R320 step 4, R336; DEDUCED, notes/assumptions/84.md). -/
def missed (now : Nat) (q : SentPkt) : Bool := (q.type_ == 2 || q.type_ == 5 || q.type_ == 0x11) && decide (q.stamp < now + 811)

/-- A FLIP or PASS that cannot be sent in time misses the promise; its deadline is 800 units before its STAMP (R26, R350). -/
def missPkt (p : Nat) (q : SentPkt) (s : State) : State :=
  if q.type_ = 5 then s else (portOf s p).owner.elim s fun k => headMiss k 0 (0x18 + p) (q.stamp - 800) s

/-- Send what waits, in order, while credit lasts; rows that come too late are stale (R314). -/
def pumpQueue (p : Nat) : Nat → State → State
  | 0, s => s
  | f + 1, s =>
    let o := portOf s p
    match o.queue with
    | [] => s
    | q :: rest =>
      if tooLate o s.now q then
        let s := modPort p (fun o => { o with queue := rest }) s
        pumpQueue p f (staleFlip p q (if q.isRetry then s else (readStore p q s).2))
      else if missed s.now q then pumpQueue p f (missPkt p q (modPort p (fun o => { o with queue := rest }) s))
      else if o.allows q then pumpQueue p f (sendNow p q (modPort p (fun o => { o with queue := rest }) s))
      else s

def pump (p : Nat) (s : State) : State := pumpQueue p (portOf s p).queue.length s

/-- Costed packets join the queue and go while credit lasts. -/
def sendAll (p : Nat) (l : List SentPkt) (s : State) : State := pump p (modPort p (fun o => { o with queue := o.queue ++ l }) s)

/-! ### STATUS and IDLE (R308) -/

/-- Head state of a STATUS packet (Table 13.5). -/
def headState (s : State) (k p : Nat) : Nat :=
  let h := headOf s k
  if (portOf s p).parked then 3 else if h.cave.state = .entering then 2 else if h.press.recipe.isSome then 1 else 0

/-- One STATUS packet of a port. -/
def sendStatus (p : Nat) (s : State) : State :=
  let k := (portOf s p).owner.getD 0
  let st := headState s k p
  let b := u8 k ++ u8 st ++ u16 0 ++ u32 (headOf s k).pipe.flipped ++ u64 0
  modPort p (fun o => { o with told := st, lastStatus := s.now }) (sendPkt p { barePkt 7 s.now with len := 16 } b s)

/-- STATUS on each change of head state, on the READY ports of a head. -/
def tellState (k : Nat) (s : State) : State :=
  forEach ((List.range 16).filter fun p => (portOf s p).state = .ready && (portOf s p).owner == some k) (fun p s =>
    if (portOf s p).told = headState s k p then s else sendStatus p s) s

/-- 100 µs without any other packet: IDLE (R308). -/
def execPortIdleTimer (dt port : Nat) (s : State) : Res :=
  let s := tick dt s
  let o := portOf s port
  if o.state = .ready ∧ o.lastSend + 100 * usec ≤ s.now then .next (sendPkt port (barePkt 6 s.now) [] s) else .next s

/-- How often a port sends STATUS: every 1 ms in READY, every 100 µs in CAPS (R308, Table 13.2). -/
def statusEvery : PortState → Option Nat
  | .ready => some msec
  | .caps => some (100 * usec)
  | _ => none

/-- A STATUS falls due. -/
def execPortStatusTimer (dt port : Nat) (s : State) : Res :=
  let s := tick dt s
  let o := portOf s port
  if (statusEvery o.state).any fun t => decide (o.lastStatus + t ≤ s.now) then .next (sendStatus port s) else .next s

/-- The counters clear (R328). -/
def clearCounts (o : Port) : Port :=
  { o with nak := 0, retry := 0, stale := 0, subst := 0, retErr := 0, bip := List.replicate 9 0 }

def execPlkClr (dt port : Nat) (s : State) : Res := .next (modPort port clearCounts (tick dt s))

/-! ### Training (R304 to R307) -/

/-- The physical lanes a port needs. -/
def Port.needed (o : Port) : Nat := if o.spared < 8 then 0x1FF - 2 ^ o.spared else 0xFF

def Port.lockedAll (o : Port) : Bool := o.needed &&& o.lock == o.needed

/-- The reserve takes a lane's place: PLK_LANE_SPARED, and the wear record (R305, R538). -/
def spareLane (p lane : Nat) (s : State) : State :=
  let s := modPort p (fun o => { o with spared := lane }) s
  let s := { s with wear := { s.wear with plSpared := upd s.wear.plSpared p fun _ => lane } }
  record (0x18 + p) 0x0D04 (u8 p ++ u8 lane) s

/-- Training starts; the reserve is chosen again: SPARE_NOW brings it in from the start (R304, R305, R538). -/
def startTraining (p : Nat) (s : State) : State :=
  let s := modPort p (fun o => { o with
    state := .bitlock, lock := 0, spared := 15, capsSeen := 0, limit := 0, used := 0, credited := false, sent := [],
    queue := [], badRun := [], trainAt := s.now, lastRet := s.now }) s
  let r := (portOf s p).spareReq
  if r < 8 then spareLane p r s else s

/-! ### A head that ends with its release (R210) -/

/-- Once the channels are dark: PARK, the items end without notices, other requests complete with HEAD_GONE, and the
HEAD_RELEASE completes (R210 step 4). -/
def finishRelease (k : Nat) (d : Desc) (s : State) : State :=
  let chans := ((headOf s k).pipe.cfg.elim 0 (·.channels))
  let s := modPipe k (fun p => { p with releasing := none }) s
  let s := endHead k 3 0x984 s
  let mine := s.adm.items.filter fun i => i.group == some k
  let s := forEach ((bitsOf chans 48).filter fun c => mine.any (Item.isLoop c)) dropLoop s
  let s := dropItems (fun i => i.group == some k) s
  complete d 0 [] (modPipe k (fun p => { p with parkDue := none }) s)

/-- What waits for a head's channels to be dark: PARK, and the end of a release (R72, R210, Table 5.12). -/
def headDark (k : Nat) (s : State) : State :=
  let due := (headOf s k).pipe.parkDue.isSome
  let s := parkIfDark k s
  match (headOf s k).pipe.parkDue, (headOf s k).pipe.releasing with
  | none, some (d, _) => if due then finishRelease k d s else s
  | _, _ => s

/-- Outputs are forced at once; the heads that waited for their channels to be dark send PARK (R51, R58, R141). -/
def forceOff (cause : Nat) (s : State) : State := forEach (List.range 8) headDark (allOff cause s)

/-- A PARK that waited goes as soon as the port is READY and has credit; with it goes a port that was to end (R314, R325). -/
def payPark (p : Nat) (s : State) : State :=
  let o := portOf s p
  match o.parkOwed with
  | none => s
  | some cause =>
    if o.state = .ready ∧ o.allows (barePkt 3 s.now) then
      let s := parkNow p cause s
      if o.ending then o.owner.elim s fun k => headDark k (downPort p s) else s
    else s

/-- The port's PORT_CONFIG item ends with its units (R318); the other port of a pair goes DOWN. -/
def endPort (p : Nat) (s : State) : State :=
  let o := portOf s p
  let root := o.pair.elim p fun q => min p q
  let s := o.owner.elim s fun k => dropItem (.port k root) s
  o.pair.elim s fun q => downPort q s

/-- Training fails: FAILED, and the PORT_CONFIG completes if it still trains (R306, R307). -/
def trainFailed (p status : Nat) (det : List Byte) (s : State) : State :=
  let o := portOf s p
  let d := o.desc.orElse fun _ => o.pair.bind fun q => (portOf s q).desc
  let s := endPort p s
  let s := modPort p (fun o => { o with
    state := .failed, owner := none, pair := none, desc := none, parkOwed := none, ending := false, sent := [], queue := [] }) s
  let s := d.elim s fun d => if owes d s then complete d status det s else s
  o.owner.elim s fun k => headDark k s

def failTraining (p : Nat) (s : State) : State := serviceStep (trainFailed p 0xD83 (u16 (portOf s p).lock) s)

/-- Loss of link of a READY port: PLK_LINK_DOWN, and training at once (R306); held packets are lost (R535). -/
def linkDown (p cause : Nat) (s : State) : State :=
  let s := record (0x18 + p) 0x0D02 (u8 p ++ u8 cause) s
  startTraining p (loseHeld (0x10 + p) (loseHeld p s))

/-- The WARP of a scan-line port: sample phases of the set-up in force (R335). -/
def warpPkts (s : State) (k stamp : Nat) : List SentPkt :=
  match (headOf s k).pipe.cfg, (headOf s k).scan.cfg with
  | some c, some sc =>
    let all := (List.range c.canvasW).flatMap fun i => u32 (samplePhase sc.active c.canvasW i)
    (List.range (ceilDiv (4 * c.canvasW) 4096)).map fun j =>
      let b := (all.drop (4096 * j)).take 4096
      { barePkt 0x12 stamp with offset := 4096 * j, len := b.length, word := c.canvasW, payload := b }
  | _, _ => []

/-- The profile in force for a frame (R347). -/
def Scan.profileFor (v : Scan) (n : Nat) : List Int :=
  ((v.nextProfile.filter fun x => decide (x.2 ≤ n)).getLast?).elim v.profile (·.1)

/-- The set-up that governs a frame, with its first frame (R348). -/
def Scan.governing (x : Scan) (n : Nat) : Option (ScanCfg × Nat) :=
  match (x.nextCfg.filter fun e => decide (e.2 ≤ n)).getLast? with
  | some e => some e
  | none => x.cfg.map fun c => (c, x.since)

/-- The frame of a pass start: the last n with F_n + LINE0_OFS at or before it; LINE0_OFS is less than a period (R331). -/
def passFrame (h : Head) (t : Nat) : Option Nat :=
  match h.pipe.firstFlip (t + 1) with
  | 0 => none
  | n + 1 =>
    match h.scan.governing n with
    | none => none
    | some (sc, _) => if h.pipe.flipAt n + sc.line0 ≤ t then some n else if n = 0 then none else some (n - 1)

/-- A port that reached READY resumes at the first F_n at least T_lead later (R306, R338). -/
def scanResumed (s : State) (k p n : Nat) : Bool :=
  let h := headOf s k
  let lead := match h.pipe.cfg, h.press.governing n with
    | some c, some (r, _) => tLead s c r
    | _, _ => (portOf s p).rtx
  decide ((portOf s p).readyAt + lead ≤ h.pipe.flipAt n)

/-- WARP goes out on a port with the start of the first pass it governs; before that one is predicted, what its STAMP holds the
spec does not state (a free value, R335, notes/assumptions/85.md). -/
def sendWarp (k p : Nat) (s : State) : State :=
  let h := headOf s k
  let first := h.scan.preds.find? fun x => decide (s.now + 811 ≤ x.start) && (passFrame h x.start).any (scanResumed s k p)
  let (t, s) : Nat × State := match first with
    | some x => (x.start, s)
    | none => let (v, s) := takeFree s
              (v % 2 ^ 64, s)
  sendAll p (warpPkts s k t) (modScan k (fun v => { v with warped := v.since }) s)

/-- Nibble l is the physical lane of logical lane l. -/
def laneMap (spared : Nat) : Nat := total ((List.range 8).map fun l => 16 ^ l * (if l = spared then 8 else l))

/-- A port reaches READY: PLK_LINK_UP; a PORT_CONFIG completes when every port it configures is READY (R306, R318). -/
def portReady (p : Nat) (s : State) : State :=
  let s := modPort p (fun o => { o with state := .ready, readyAt := s.now, told := 0 }) s
  let o := portOf s p
  let s := serviceStep { s with wear := { s.wear with plSpared := upd s.wear.plSpared p fun _ =>
    if o.spared = 15 then 255 else o.spared } }
  let s := record (0x18 + p) 0x0D01 (u8 p ++ u24 0 ++ u32 (laneMap o.spared)) s
  let s := if o.scan then sendWarp (o.owner.getD 0) p s else s
  let s := payPark p s
  let done := o.pair.all fun q => (portOf s q).state = .ready
  match o.desc.orElse fun _ => o.pair.bind fun q => (portOf s q).desc with
  | some d =>
    if done then
      let s := modPort p (fun o => { o with desc := none }) s
      complete d 0 [] (o.pair.elim s fun q => modPort q (fun o => { o with desc := none }) s)
    else s
  | none => s

/-! ### PORT_CONFIG -/

def portLock (d : Desc) : Bool := bitOf (d.p8 19) 0

/-- The ports a PORT_CONFIG configures. -/
def portsNamed (d : Desc) : List Nat := if portLock d then [d.p8 16, d.p8 16 + 1] else [d.p8 16]

def portBad (d : Desc) (s : State) : Option (List Byte) :=
  match headBad 17 d s with
  | some x => some x
  | none => badField [((headOf s (d.p8 17)).pipe.cfg.all fun c => decide (15 < d.p8 16) || !bitOf c.ports (d.p8 16), 16)]

/-- Table 13.6 and R329: the offset of the first field out of range. -/
def portInvalid (c : HeadCfg) (d : Desc) : Option Nat :=
  let scan := decide (d.p8 18 = 1)
  let lock := portLock d
  let ww := d.p16 24
  let split := d.p16 20
  (List.find? (·.1)
    ([(lock && decide (d.p8 16 % 2 = 1), 16), (decide (1 < d.p8 18) || (scan != c.scan), 18),
      (decide (3 < d.p8 19) || (scan && lock), 19),
      (if lock then decide (split % 8 ≠ 0 ∨ split < 8 ∨ ww < split + 8) else decide (split ≠ 0), 20),
      (decide (3 < d.p8 22) || (scan && decide (d.p8 22 ≠ 0)), 22),
      (if bitOf (d.p8 19) 1 then decide (7 < d.p8 23) else decide (d.p8 23 ≠ 0xFF), 23),
      (decide (ww = 0) || (scan && decide (ww ≠ c.canvasW)), 24), (decide (d.p16 26 = 0) || (scan && decide (d.p16 26 ≠ c.canvasH)), 26),
      (decide (d.p32 28 < 800 ∨ 40000 < d.p32 28), 28), (decide (511 < d.p16 32), 32), (decide (511 < d.p16 34), 34)] ++
     (span 36 63).map fun i => (decide (d.p8 i ≠ 0), i))).map (·.2)

/-- A Recipe in force or pending names a port (R318). -/
def recipeNames (s : State) (pend : Bool) (p : Nat) : Bool :=
  (List.range 8).any fun k =>
    let h := headOf s k
    let scan := h.pipe.cfg.any fun c => c.scan && bitOf c.ports p
    let names := fun r : Recipe => r.arrays.any (fun a => bitOf a.ports p) || (r.isScan && scan)
    h.press.recipe.any names || h.press.old.any (fun x => names x.2.1) || (pend && h.press.pending.any fun x => names x.1)

/-- The port is configured and trains (R304, R318). -/
def configurePort (d : Desc) (p : Nat) (s : State) : State :=
  let lock := portLock d
  let old := portOf s p
  let s := old.desc.elim s fun o => if owes o s then complete o 0xD83 (u16 old.lock) s else s
  let s := match old.pair with
    | some q => if (portsNamed d).contains q then s else downPort q s
    | none => s
  let scan := decide (d.p8 18 = 1)
  let s := if old.scan = scan then s else { s with fault := { s.fault with
    rules := s.fault.rules.filter fun r => r.point ≠ p ∧ r.point ≠ 0x10 + p
    old := s.fault.old.filter fun r => r.point ≠ p ∧ r.point ≠ 0x10 + p
    held := s.fault.held.filter fun h => h.point ≠ p ∧ h.point ≠ 0x10 + p } }
  startTraining p (modPort p (fun o => { clearCounts o with
    owner := some (d.p8 17), scan := scan, pair := if lock then some (if p % 2 = 0 then p + 1 else p - 1) else none,
    split := d.p16 20, cls := d.p8 22, ww := d.p16 24, wh := d.p16 26, rtx := d.p32 28,
    pol := d.p16 (if p = d.p8 16 then 32 else 34), spareReq := if bitOf (d.p8 19) 1 then d.p8 23 else 15,
    caps := List.replicate 6 0, desc := some d, parked := false, parkOwed := none,
    ending := false, readyAt := 0, loopEnd := false, lastLoad := none }) s)

def portConfigAct (d : Desc) (s : State) : State :=
  let k := d.p8 17
  let p := d.p8 16
  match (headOf s k).pipe.cfg with
  | none => complete d 0x13 [] s
  | some c =>
    let ps := portsNamed d
    if portLock d ∧ d.p8 18 ≠ 1 ∧ p % 2 = 0 ∧ !bitOf c.ports (p + 1) then complete d 0x20 (u8 0xF2 ++ u8 (p + 1)) s
    else match portInvalid c d with
      | some o => complete d 0xD85 (u16 o) s
      | none => match ps.find? (recipeNames s true) with
        | some q => complete d 0xD82 (u8 q) s
        | none =>
          admitDesc (.port k p) d (ps.flatMap portUnits) (fun s =>
            let s := forEach ps (fun q => dropItems fun i => i.kind == .port k (q - 1) && q - 1 != p && (portOf s (q - 1)).pair == some q) s
            forEach ps (configurePort d) (settle (.port k p) s)) s

def execPortConfig (dt : Nat) (d : Desc) (s : State) : Res :=
  .next (runDesc (specAdm 0x0B01 []) d portBad noOver portConfigAct (tick dt s))

/-! ### PORT_PARK -/

def portParkBad (d : Desc) (s : State) : Option (List Byte) :=
  badField [((bitsOf (d.p16 16) 16).any (fun p => (portOf s p).state != .ready), 16)]

/-- A PORT_PARK completes when none of its ports waits any more. -/
def parkSettled (d : Desc) (status : Nat) (s : State) : State :=
  if s.ports.any (fun o => o.parkDesc.any fun x => x.1 == d) ∨ !owes d s then s else complete d status [] s

def portParkAct (d : Desc) (s : State) : State :=
  let ps := bitsOf (d.p16 16) 16
  match ps.find? (recipeNames s false) with
  | some p => complete d 0xD82 (u8 p) s
  | none => parkSettled d 0 (forEach ps (fun p s => parkPort p 5 (modPort p (fun o => { o with parkDesc := o.parkDesc ++ [(d, s.now)] }) s)) s)

def execPortPark (dt : Nat) (d : Desc) (s : State) : Res :=
  .next (runDesc (specI0 0x0B04 (span 18 63)) d portParkBad noOver portParkAct (tick dt s))

/-- 1 ms without STATUS parked: TIMEOUT (R319). -/
def execPortParkTimeout (dt port : Nat) (s : State) : Res :=
  let s := tick dt s
  let l := ((portOf s port).parkDesc.filter fun x => decide (x.2 + msec ≤ s.now)).map (·.1)
  let s := { s with ports := s.ports.map fun o => { o with parkDesc := o.parkDesc.filter fun x => !l.contains x.1 } }
  .next (forEach l (fun d => parkSettled d 0x60) s)

/-! ### Return messages -/

/-- CREDIT raises the limit; the first one after every page has matched makes the port READY (Table 13.2, R314). -/
def retCredit (p limit : Nat) (s : State) : State :=
  let o := portOf s p
  let s := modPort p (fun o => { o with limit := limit % 2 ^ 32 }) s
  match o.state with
  | .caps => if o.capsSeen = 63 then portReady p (modPort p (fun o => { o with credited := true }) s) else s
  | .ready => pump p (payPark p s)
  | _ => s

/-- A packet the port still holds is sent again with RETRY and a new PSN, if it can still come in time (R315). -/
def resend (p : Nat) (q : SentPkt) (s : State) : State :=
  let s := modPort p (fun o => { o with sent := o.sent.filter fun x => x.psn ≠ q.psn }) s
  let again := { q with flags := q.flags ||| 1, bad := 0 }
  let go := pump p (modPort p (fun o => { o with queue := again :: o.queue }) s)
  if q.isLoad ∨ q.type_ = 0x10 then
    if s.now + (portOf s p).rtx ≤ q.stamp then go else staleFlip p q s
  else if q.type_ = 2 ∨ q.type_ = 0x11 then if missed s.now q then missPkt p q s else go
  else if q.type_ = 0x12 then if s.now + (portOf s p).rtx ≤ q.stamp then go else s
  else s

/-- NAK (R315). -/
def retNak (p psn : Nat) (s : State) : State :=
  let s := modPort p (fun o => { o with nak := bump o.nak }) s
  match (portOf s p).sent.find? fun q => q.psn = psn with
  | some q => resend p q s
  | none => s

/-- LANE_LOCK: training advances, or a READY port has lost a lane (R304 to R306). -/
def retLaneLock (p lock : Nat) (aligned : Bool) (bip : List Nat) (s : State) : State :=
  let s := modPort p (fun o => { o with lock := lock % 512, bip := o.bip.zipIdx.map fun x => satAdd top32 x.1 (bip.getD x.2 0) }) s
  let o := portOf s p
  match o.state with
  | .bitlock =>
    let out := (List.range 8).filter fun l => !bitOf o.lock l
    let s := match out with
      | [l] => if o.spared = 15 ∧ bitOf o.lock 8 ∧ o.trainAt + 5 * msec ≤ s.now then spareLane p l s else s
      | _ => s
    if (portOf s p).lockedAll then modPort p (fun o => { o with state := .align }) s else s
  | .align => if aligned then modPort p (fun o => { o with state := .caps }) s else s
  | .ready => if o.lockedAll then s else linkDown p 2 s
  | .hold =>
    if o.lockedAll ∧ aligned ∧ o.owner.any (fun k => (headOf s k).cave.state = .leaving) then
      modPort p (fun o => { o with state := .ready, readyAt := s.now }) s
    else s
  | _ => s

/-- What a page must match (Table 13.3). -/
def pageMatches (o : Port) (page data : Nat) : Bool :=
  match page with
  | 0 => decide (bits data 0 8 = 1 ∧ bits data 8 8 = o.cls ∧ bits data 16 16 = o.ww)
  | 1 => decide (bits data 0 16 = o.wh ∧ 2 ≤ bits data 16 8) && (!o.pair.isSome || bitOf data 25) && (!o.scan || bitOf data 26)
  | 2 => decide (130 ≤ data)
  | _ => true

/-- CAPS: the page is stored and matched; a mismatch fails the port (R307). -/
def retCaps (p page data : Nat) (s : State) : State :=
  if 5 < page then s
  else
    let s := modPort p (fun o => { o with caps := upd o.caps page fun _ => data % 2 ^ 32 }) s
    let o := portOf s p
    if pageMatches o page (data % 2 ^ 32) then
      if o.state = .caps then modPort p (fun o => { o with capsSeen := o.capsSeen ||| 2 ^ page }) s else s
    else trainFailed p 0xD84 (u8 page) s

/-- A lost loop: Cave hold is left, the channels ramp to dark until F_n, the port retrains (R324, R325). -/
def loseLoop (p : Nat) (s : State) : State :=
  match (portOf s p).owner with
  | none => s
  | some k =>
    match (headOf s k).pipe.cfg with
    | none => s
    | some c =>
      let lit := maskOf ((bitsOf c.channels 48).filter fun x => (chanOf s x).state = .run)
      let s := modCave k (fun v => { v with lost := v.lost ||| lit }) (leaveP2 (caveExit k 4 s.now s))
      startTraining p (rampHead c.channels 7 s)

/-- STATUS: parked, and the formatter's report (R311, R319, R324). -/
def retStatus (p st flags frame : Nat) (s : State) : State :=
  let o := portOf s p
  let s := modPort p (fun o => { o with parked := decide (st = 1) }) s
  let s := if flags % 8 = 0 then s else record (0x18 + p) 0x0D09 (u8 p ++ u8 flags ++ u16 0 ++ u24 frame) s
  let s := if bitOf flags 1 ∧ o.state = .hold then loseLoop p s else s
  let s := if st = 1 then
      forEach (o.parkDesc.map (·.1)) (fun d => parkSettled d 0) (modPort p (fun o => { o with parkDesc := [] }) s)
    else s
  o.owner.elim s fun k => tellState k s

/-- A return message whose CRC fails is counted; five within 1 ms lose the link (R303, R306). -/
def badReturn (p : Nat) (s : State) : State :=
  let run := s.now :: (portOf s p).badRun.filter fun t => decide (s.now ≤ t + msec)
  let s := modPort p (fun o => { o with retErr := bump o.retErr, badRun := run.take 5 }) s
  if (portOf s p).state = .ready ∧ 5 ≤ run.length then linkDown p 3 s else s

/-- CRC-16 of R303: over "123456789" it yields 0x29B1. -/
def crc16 (l : List Byte) : Nat :=
  l.foldl (fun c b => (List.range 8).foldl (fun c _ => if 32768 ≤ c then Nat.xor (c * 2 % 65536) 0x1021 else c * 2 % 65536)
    (Nat.xor c (256 * b.toNat))) 0xFFFF

/-- The eight characters of a return message (R303, Table 13.1). -/
def retChars (ty : Nat) (fields : List Byte) : List Byte :=
  let l := u8 ty ++ padTo 5 fields
  let c := crc16 l
  l ++ u8 (c / 256) ++ u8 (c % 256)

/-- A message that has passed its CRC check acts by its TYPE (Table 13.1). -/
def retDispatch (p : Nat) (bip : List Nat) (cs : List Byte) (s : State) : State :=
  match fieldOf cs 0 1 with
  | 1 => retCredit p (fieldOf cs 1 4) s
  | 2 => retNak p (fieldOf cs 1 2) s
  | 3 => retLaneLock p (fieldOf cs 1 2) (bitOf (fieldOf cs 3 1) 0) bip s
  | 4 => retCaps p (fieldOf cs 1 1) (fieldOf cs 2 4) s
  | 5 => retStatus p (fieldOf cs 1 1) (fieldOf cs 2 1) (fieldOf cs 3 3) s
  | _ => s

/-- A port that is neither DOWN nor FAILED hears its return pair. -/
def Port.hears (o : Port) : Bool := o.state != .down && o.state != .failed

/-- Characters reach the check: those whose CRC fails are discarded (R303). -/
def retReceived (p : Nat) (bip : List Nat) (cs : List Byte) (s : State) : State :=
  if !(portOf s p).hears then s
  else if crc16 (cs.take 6) = 256 * fieldOf cs 6 1 + fieldOf cs 7 1 then retDispatch p bip cs s
  else badReturn p s

/-- A return message arrives at the injection point of its pair (R303, R528, R532). -/
def retArrive (p ty : Nat) (bip : List Nat) (fields : List Byte) (s : State) : State :=
  if !(portOf s p).hears then s
  else
    let s := modPort p (fun o => { o with lastRet := s.now }) s
    let cs := retChars ty fields
    let point := 0x10 + p
    let (fate, s) := meetFaults point (ty - 1) 0 (HeldBody.ident (.ret cs [])) 64 false s
    let m := fate.flips.foldl flipBit cs
    let m := if fate.fix then m.take 6 ++ u8 (crc16 (m.take 6) / 256) ++ u8 (crc16 (m.take 6) % 256) else m
    throughPoint point fate (.ret m bip) (retReceived p bip m) s

def execRetCredit (dt port limit : Nat) (s : State) : Res := .next (retArrive port 1 [] (u32 limit) (tick dt s))
def execRetNak (dt port psn reason : Nat) (s : State) : Res := .next (retArrive port 2 [] (u16 psn ++ u8 reason) (tick dt s))
def execRetLaneLock (dt port lock : Nat) (aligned : Bool) (bip : List Nat) (s : State) : Res :=
  .next (retArrive port 3 bip (u16 (lock % 512) ++ u8 (bit aligned)) (tick dt s))
def execRetCaps (dt port page data : Nat) (s : State) : Res := .next (retArrive port 4 [] (u8 page ++ u32 data) (tick dt s))
def execRetStatus (dt port state flags frame : Nat) (s : State) : Res :=
  .next (retArrive port 5 [] (u8 state ++ u8 flags ++ u24 frame) (tick dt s))

def execReturnMessageBad (dt port : Nat) (s : State) : Res :=
  let s := tick dt s
  if (portOf s port).hears then .next (badReturn port (modPort port (fun o => { o with lastRet := s.now }) s)) else .next s

/-! ### Training timers -/

/-- 5 ms in BITLOCK: the reserve takes the one lane that fails; two or more fail the training (R305). -/
def execLaneLockTimeout (dt port lane : Nat) (s : State) : Res :=
  let s := tick dt s
  let o := portOf s port
  if o.state ≠ .bitlock ∨ s.now < o.trainAt + 5 * msec then .next s
  else
    match (List.range 9).filter fun l => bitOf o.needed l && !bitOf o.lock l with
    | [l] =>
      if l = lane ∧ l < 8 ∧ o.spared = 15 ∧ bitOf o.lock 8 then
        .next (modPort port (fun o => { o with state := .align }) (spareLane port l s))
      else .next s
    | [] => .next s
    | _ => .next (failTraining port s)

/-- 100 ms without READY (R306). -/
def execPortTrainTimeout (dt port : Nat) (s : State) : Res :=
  let s := tick dt s
  let o := portOf s port
  let training := o.state = .bitlock ∨ o.state = .align ∨ o.state = .caps
  if training ∧ o.trainAt + 100 * msec ≤ s.now then .next (failTraining port s) else .next s

/-- The return pair is silent for 100 µs: a READY port loses link, a port in HOLD its loop (R306, R324). -/
def execReturnSilent (dt port : Nat) (s : State) : Res :=
  let s := tick dt s
  let o := portOf s port
  if s.now < o.lastRet + 100 * usec then .next s
  else match o.state with
    | .ready => .next (linkDown port 1 s)
    | .hold => .next (loseLoop port s)
    | _ => .next s

end Sys2Proof.Machine
end

