-- ==== Sys2Proof/Machine/Cave.lean ====
section
/-!
DEFINITION. Cave hold and the flips of a head (chapter 13): meanings of CAVE_ENTER, CAVE_EXIT and SLOT_FLIP,
with what the first flip of a frame brings (R17, R18, R210, R269, R320, R324, R333, R346, R522).
-/

namespace Sys2Proof.Machine

/-! ### CAVE_ENTER and CAVE_EXIT -/

/-- The first port that lacks what a replay needs (R322, reason 3). -/
def loopLacking (s : State) (r : Recipe) : Option Nat :=
  r.arrays.findSome? fun a => (bitsOf a.ports 16).find? fun p =>
    let c := (portOf s p).caps
    let n := (r.ordered a.seq).length
    !bitOf (c.getD 1 0) 24 || decide (bits (c.getD 3 0) 0 16 < n) || decide (bits (c.getD 3 0) 16 16 * 1048576 < n * imageSize s a p)

/-- Reasons 1 to 3 of R322, with the port. -/
def caveRefused (s : State) (k : Nat) : Option (Nat × Nat) :=
  let h := headOf s k
  match h.press.recipe with
  | none => some (1, 0)
  | some r =>
    if r.isScan then some (2, 0)
    else (loopLacking s r).map fun p => (3, p)

/-- All reasons that refuse a MODE 0 entry; open flows count for P2 only (R322, R323). -/
def holdRefused (s : State) (k : Nat) (p2 : Bool) : Option (Nat × Nat) :=
  let h := headOf s k
  match caveRefused s k with
  | some x => some x
  | none =>
    if p2 ∧ !s.ingest.flows.isEmpty then some (4, 0)
    else if h.cave.state ≠ .off ∨ h.cave.request.isSome then some (5, 0)
    else if h.press.pending.isSome ∨ h.motion.pending.isSome ∨ !h.pipe.sealed_.isEmpty then some (6, 0)
    else none

def caveBad (d : Desc) (s : State) : Option (List Byte) :=
  match headBad 16 d s with
  | some x => some x
  | none => badField [(decide (2 < d.p8 17), 17), (decide (d.p8 17 = 1) != decide (d.p16 18 ≠ 0), 18)]

def caveEnterAct (d : Desc) (s : State) : State :=
  let k := d.p8 16
  let refuse := fun x : Nat × Nat => complete d 0xD80 (u8 x.1 ++ u8 x.2) s
  match d.p8 17 with
  | 0 => match holdRefused s k false with
    | some x => refuse x
    | none => modCave k (fun v => { v with request := some d.t, desc := some d }) s
  | 1 => match caveRefused s k with
    | some x => refuse x
    | none => complete d 0 [] (modCave k (fun v => { v with armed := d.p16 18 }) s)
  | _ => complete d 0 [] (modCave k (fun v => { v with armed := 0 }) s)

def execCaveEnter (dt : Nat) (d : Desc) (s : State) : Res :=
  .next (runDesc (specI0 0x0B02 (span 20 63)) d caveBad noOver caveEnterAct (tick dt s))

def caveExitAct (d : Desc) (s : State) : State :=
  let k := d.p8 16
  match (headOf s k).cave.state with
  | .hold => modCave k (fun v => { v with exits := v.exits ++ [d] }) (leaveP2 (caveExit k 1 d.t s))
  | .leaving => modCave k (fun v => { v with exits := v.exits ++ [d] }) s
  | _ => complete d 0xD86 (u8 k) s

def execCaveExit (dt : Nat) (d : Desc) (s : State) : Res :=
  .next (runDesc (specI0 0x0B03 (span 17 63)) d (headBad 16) noOver caveExitAct (tick dt s))

/-! ### LOAD_START (R312, R313) -/

/-- The flip that frees a buffer for slot i of a list: that of slot i - B + 1, in frame n - 1 where it falls below 0. -/
def bufferFree (s : State) (k : Nat) (q n i b : Nat) (l : List Slot) : Nat :=
  let p := (headOf s k).pipe
  let back := b - 1
  if back ≤ i then (l[i - back]?).elim 0 (slotStamp_ p n)
  else match n, (headOf s k).press.governing (n - 1) with
    | m + 1, some (r, red) =>
      let prev := r.flips red q
      if prev.length + i < back then 0 else (prev[prev.length + i - back]?).elim 0 (slotStamp_ p m)
    | _, _ => 0

/-- The LOADs, or LOOP_STOREs, of a plane image and the FLIP after them, which takes its PLANE_CRC when it leaves. -/
def slotPackets (s : State) (p n : Nat) (ai : ArrayEnt × Nat) (x : Slot) (stamp : Nat) (store loopEnd : Bool)
    (bad : List Nat) : List SentPkt :=
  let size := imageSize s ai.1 p
  let loads := (List.range (ceilDiv size 4096)).map fun j =>
    { barePkt (if store then 4 else 1) stamp with
      frame := n, order := x.order, primary := x.prim, offset := 4096 * j, len := min 4096 (size - 4096 * j), word := size,
      bad := if bad.contains (65536 + j) then 2 else if bad.contains j then 1 else 0 }
  loads ++ [{ barePkt 2 stamp with frame := n, order := x.order, primary := x.prim, flags := if loopEnd then 2 else 0 }]

/-- LOOP_RUN after the last FLIP of the loop frame (R320 step 4). -/
def loopRun (s : State) (k n : Nat) (slots : Nat) : SentPkt :=
  { barePkt 5 ((headOf s k).pipe.flipAt (n + 1)) with frame := n, word := slots }

/-- A port starts loading a slot.  `bad` names LOADs whose store read is uncorrectable: j, and 65536 + j where the
substitute read fails too (R316). -/
def loadStart (p n order : Nat) (bad : List Nat) (k : Nat) (c : HeadCfg) (r : Recipe) (red : Bool) (ai : ArrayEnt × Nat) (s : State) : State :=
  let h := headOf s k
  let o := portOf s p
  let l := r.flips red ai.1.seq
  match l.findIdx? (fun x => x.order = order) with
  | none => s
  | some i =>
    match l[i]? with
    | none => s
    | some x =>
      let stamp := slotStamp_ h.pipe n x
      let free := bufferFree s k ai.1.seq n i (bits (o.caps.getD 1 0) 16 8) l
      let later := match o.lastLoad with
        | none => true
        | some (fr, od) => decide (fr < n) || (decide (fr = n) && decide (od < order))
      let shown := h.press.pressed.contains n || h.press.pressing == some n
      let allowed := match h.cave.state with
        | .hold => false
        | .leaving => decide (h.cave.live ≤ n)
        | .entering => decide (n ≤ h.cave.frame)
        | .off => true
      if h.pipe.safeDark ∨ !shown ∨ !allowed ∨ !later ∨ s.now < max free (prdOf s k n) ∨ stamp ≤ s.now ∨
          h.pipe.flipAt n < o.readyAt + tLead s c r then s
      else
        let store := h.cave.state = .entering ∧ n = h.cave.frame
        let lend := h.cave.state = .leaving ∧ n = h.cave.live ∧ i = 0
        let pk := slotPackets s p n ai x stamp store lend bad
        let pk := if store ∧ i + 1 = l.length then pk ++ [loopRun s k n (r.ordered ai.1.seq).length] else pk
        tellState k (sendAll p pk (modPort p (fun o => { o with
          lastLoad := some (n, order), loopEnd := lend, state := if o.state = .hold then .ready else o.state }) s))

/-! ### The first flip of a frame -/

/-- Every number that a head keeps for a frame still to be shown or just made moves with a re-anchor (R522).  A store half keeps the
frame pressed into it: an odd move turns the two round (DEDUCED, notes/assumptions/31.md). -/
def renumberHead (delta : Int) (h : Head) : Head :=
  let f := fun n : Nat => ((n : Int) + delta).toNat
  let turn := fun r : Recipe => { r with first := f r.first, dark := r.dark.map fun x => (f x.1, x.2), stores := if delta % 2 = 0 then r.stores else r.stores.reverse }
  { h with
    pipe := { h.pipe with
      frame := f h.pipe.frame, composed := h.pipe.composed.map fun x => (f x.1, x.2), flipped := f h.pipe.flipped, flips := h.pipe.flips.map fun x => (f x.1, x.2),
      sealed_ := h.pipe.sealed_.map fun x => { x with
        target := f x.target, commits := x.commits.map fun c => { c with frame := f c.frame } },
      releasing := h.pipe.releasing.map fun x => (x.1, f x.2) }
    press := { h.press with
      since := f h.press.since, recipe := h.press.recipe.map turn, old := h.press.old.map fun x => (f x.1, turn x.2.1, x.2.2),
      gone := h.press.gone.map fun x => (f x.1, turn x.2.1, x.2.2),
      pending := h.press.pending.map fun x => (turn x.1, x.2),
      pressing := h.press.pressing.map f,
      job := h.press.job.map fun j => { j with env := { j.env with n := f j.env.n }, recipe := turn j.recipe },
      frame := f h.press.frame, pressed := h.press.pressed.map f }
    motion := { h.motion with since := f h.motion.since, fieldsFor := h.motion.fieldsFor.map f }
    cave := { h.cave with frame := f h.cave.frame, live := f h.cave.live }
    scan := { h.scan with
      since := f h.scan.since, frame := f h.scan.frame, annFrame := f h.scan.annFrame, warped := f h.scan.warped, outFrom := h.scan.outFrom.map f,
      ann := h.scan.ann.map fun x => { x with frame := f x.frame }, wins := h.scan.wins.map fun x => { x with frame := f x.frame },
      nextCfg := h.scan.nextCfg.map fun x => (x.1, f x.2), nextProfile := h.scan.nextProfile.map fun x => (x.1, f x.2) }
    solver := { h.solver with
      pending := h.solver.pending.map fun x => (x.1, x.2.1, f x.2.2), jumpDue := h.solver.jumpDue.map f,
      closed := h.solver.closed.map fun x => { x with frame := f x.frame },
      loads := h.solver.loads.map fun x => { x with at_ := f x.at_, frame := f x.frame } } }

/-- The frame numbers that a port keeps. -/
def renumberPort (delta : Int) (o : Port) : Port :=
  let f := fun n : Nat => ((n : Int) + delta).toNat
  let pkt := fun q : SentPkt => { q with frame := f q.frame }
  { o with sent := o.sent.map pkt, queue := o.queue.map pkt, lastLoad := o.lastLoad.map fun x => (f x.1, x.2) }

/-- Frame numbers of a head move with a re-anchor (R522): its own, those of its ports and of its pins. -/
def renumber (k : Nat) (delta : Int) (s : State) : State :=
  let mine := ((headOf s k).pipe.cfg.elim [] fun c => (bitsOf c.ports 16).filter fun p => (portOf s p).owner == some k)
  let s := forEach mine (fun p => modPort p (renumberPort delta)) (modHead k (renumberHead delta) s)
  let move := fun p : Nat × Nat => if p.1 = k then (k, ((p.2 : Int) + delta).toNat) else p
  { s with adm := { s.adm with exhibits := s.adm.exhibits.map fun e => (e.1, { e.2 with pins := e.2.pins.map move }) } }

/-- Whether what an item stands for has still to take the place of what it replaced (R198). -/
def replacing (s : State) : ItemKind → Bool
  | .layer k l => let p := (headOf s k).pipe
    (p.openSh.map (·.shadow) ++ p.sealed_.map (·.shadow)).any fun x => (getKey l x.layers).isSome
  | .recipe k => let h := headOf s k
    h.press.pending.isSome || decide (h.pipe.flipped < h.press.since)
  | .motion k => let h := headOf s k
    h.motion.pending.isSome || h.press.pending.isSome || decide (h.pipe.flipped < h.press.since)
  | .scan k => let h := headOf s k
    h.scan.pending.isSome || !h.scan.nextCfg.isEmpty
  | .loopSet c _ _ => (chanOf s c).pendCfg.isSome
  | _ => false

/-- A rate change or re-anchor takes effect at F_m (R17, R207, R522); answers the frame's number from then on. -/
def rebaseAt (k n : Nat) (s : State) : Nat × State :=
  let p := (headOf s k).pipe
  match p.cfg, p.nextRate with
  | some c, some x =>
    if n < x.1 then (n, s)
    else
      let s := modPipe k (fun p => { p with cfg := some (c.rebase x p.reAt), nextRate := none, reAt := none }) s
      match p.reAt, (lockOf s k).reanchor with
      | some fs, some (d, m, _, new) =>
        let s := renumber k ((new : Int) - m) (modPipe k (fun p => { p with
          cfg := p.cfg.map fun c => { c with anchorF := new }
          shift := p.shift ++ [(fs : Int) - c.flip m] }) s)
        let s := modLock k (fun l => { l with reanchor := none }) s
        let s := record 4 0x1609 (u8 k ++ u8 0 ++ u16 (lockOf s k).lockId ++ u32 m ++ u32 new ++ leBytes 4 fs) s
        (n - m + new, followChange k (completeAt fs d 0 [] s))
      | _, _ =>
        let mine := s.adm.items.filter fun i => i.group == some k && !i.leaving
        (n, announceLock k (forEach (mine.filter fun i => !replacing s i.kind) (fun i => settle i.kind) s))
  | _, _ => (n, s)

/-- One TIMELINE_SHIFT for each move of the timeline, at the head's first flip after it, a slot's as well as a frame's, with
the number of that flip's frame (R18, R310). -/
def recordShift (k n : Nat) (s : State) : State :=
  forEach (headOf s k).pipe.shift (fun d => record (0x10 + k) 0x0102 (s64 d ++ u32 n))
    (modPipe k (fun p => { p with shift := [] }) s)

/-- Ports of a head that the Recipe of a frame drives. -/
def drivenPorts (s : State) (k n : Nat) : List Nat :=
  match (headOf s k).press.governing n with
  | some (r, _) => r.arrays.flatMap fun a => (bitsOf a.ports 16).filter fun p => (portOf s p).owner == some k
  | none => []

/-- F_(m+1): the ports go into HOLD, CAVE_ENTERED (R320 step 5); a change since is an exit cause (R321). -/
def enterHold (k n : Nat) (s : State) : State :=
  let v := (headOf s k).cave
  let f := (headOf s k).pipe.flipAt n
  let s := forEach (drivenPorts s k v.frame) (modPort · fun o => { o with
    state := if o.state = .ready then .hold else o.state, queue := [], sent := [] }) s
  let s := modCave k (fun v => { v with state := .hold, desc := none }) s
  let s := record (0x10 + k) 0x0D06 (u8 k ++ u24 0 ++ u32 v.frame ++ u64 f) s
  let s := v.desc.elim s fun d => if owes d s then completeAt f d 0 [] s else s
  if v.exitAt = 0 then s else caveExit k v.cause v.exitAt s

/-- F_n of the first live frame: CAVE_LEFT, CAVE_EXIT completes, channels of a lost loop run again (R324, R325). -/
def leaveHold (k n : Nat) (s : State) : State :=
  let v := (headOf s k).cave
  let f := (headOf s k).pipe.flipAt n
  let s := modCave k (fun v => { v with state := .off, exits := [], exitAt := 0, lost := 0 }) s
  let s := record (0x10 + k) 0x0D07 (u8 k ++ u8 v.cause ++ u16 0 ++ u32 n) s
  let s := forEach v.exits (fun d s => if owes d s then completeAt f d 0 [] s else s) s
  forEach ((bitsOf v.lost 48).filter fun c => (chanOf s c).state = .off) enterRun s

/-- Cave hold at the first flip of a frame. -/
def caveFlip (k n : Nat) (s : State) : State :=
  let h := headOf s k
  match h.cave.state with
    | .entering => if h.cave.frame < n then enterHold k n s else s
    | .leaving => if h.cave.live ≤ n then leaveHold k n s else s
    | _ => s

/-- A released head's channels ramp from F_n of the frame not composed (R210 step 3). -/
def releaseFlip (k n : Nat) (s : State) : State :=
  match (headOf s k).pipe.cfg, (headOf s k).pipe.releasing with
  | some c, some (_, m) =>
    if n < m ∨ (headOf s k).pipe.parkDue.isSome then s
    else headDark k (modPipe k (fun p => { p with parkDue := some (c.ports, c.channels, 3) }) (rampHead c.channels 7 s))
  | _, _ => s

/-- A set-up governs from frame m; a change of PHASE_OFS, FAST_MIN, FAST_MAX or PHASE_PULSE restarts acquisition (R348). -/
def Scan.take (x : Scan) (sc : ScanCfg) (m : Nat) : Scan :=
  let again := x.cfg.all fun (o : ScanCfg) => o.phaseOfs != sc.phaseOfs || o.fastMin != sc.fastMin || o.fastMax != sc.fastMax || o.pulse != sc.pulse
  let x := { x with cfg := some sc, since := m }
  if again then
    { x with lock := .acquiring, edges := [], good := 0, preds := [], ann := [], wins := [], outFrom := none, output := false, lowRun := 0 }
  else x

/-- Scan-line mode at F_n: the set-ups and profiles applied for frames up to n govern, in their order (R347, R348). -/
def scanFlip (k n : Nat) (s : State) : State :=
  let x := (headOf s k).scan
  let due := x.nextCfg.filter fun e => decide (e.2 ≤ n)
  let later := x.nextCfg.filter fun e => decide (n < e.2)
  let y := due.foldl (fun (v : Scan) e => v.take e.1 e.2) x
  let y := { y with nextCfg := later, profile := x.profileFor n, nextProfile := x.nextProfile.filter fun e => decide (n < e.2) }
  let s := modScan k (fun _ => y) s
  if later.isEmpty ∧ !due.isEmpty then settle (.scan k) s else s

/-- F_n. -/
def frameFlip (k n0 : Nat) (s : State) : State :=
  let (n, s) := rebaseAt k n0 s
  let s := modPipe k (fun p => { p with flipped := n, flipAny := true, flips := ((n, p.flipAt n) :: p.flips).take 3 }) s
  let s := solverDue k (solverRoll k n s)
  let s := modPress k (fun p => p.settleAt n) s
  let s := settleRecipe k s
  let s := applyLoopsAt ((headOf s k).pipe.cfg.elim 0 (·.channels)) n ((headOf s k).pipe.flipAt n) s
  let s := scanFlip k n (recordShift k n s)
  tellState k (releaseFlip k n (caveFlip k n s))

/-! ### SLOT_FLIP (R310) -/

/-- The value of a flip mark: the PSN of the slot's FLIP, or 0x8000 + ORDER in HOLD; a slot whose FLIP was never sent has
a free value there (notes/assumptions/3.md). -/
def markValue (s : State) (k p n order : Nat) : Nat × State :=
  let h := headOf s k
  match ((portOf s p).sent.filter fun q => q.type_ = 2 ∧ q.frame = n ∧ q.order = order).getLast? with
  | some q => (q.psn, s)
  | none =>
    if h.cave.state = .hold ∨ (h.cave.state = .leaving ∧ n < h.cave.live) then (0x8000 + order, s)
    else let (v, s) := takeFree s
         (v % 65536, s)

/-- One port marks a flip with its FINE; rows that never came are stale (R310, R314). -/
def markFlip (k n : Nat) (x : Slot) (stamp : Nat) (fine : Nat → Nat) (p : Nat) (s : State) : State :=
  let o := portOf s p
  let h := headOf s k
  let back : Bool := match h.pipe.cfg, h.press.governing n with
    | some c, some (r, _) => (o.state == .hold) || decide (o.readyAt + tLead s c r ≤ h.pipe.flipAt n) || h.cave.state != .off
    | _, _ => false
  if (o.state = .ready ∨ o.state = .hold) ∧ back then
    let s := pump p s
    let (v, s) := markValue s k p n x.order
    let s := plkMark p 0x5F v (fine p) stamp s
    let s := if stamp + 4 < s.now then headMiss k 0 (0x18 + p) stamp s else s
    modPort p (fun o => { o with queue := o.queue.filter fun q => decide (stamp < q.stamp) || q.type_ = 3,
                                 sent := o.sent.filter fun q => decide (stamp < q.stamp) }) s
  else s

def slotFlip (k n seq order : Nat) (s : State) : State :=
  let h := headOf s k
  match h.press.governing n with
  | none => s
  | some (r, red) =>
    match (r.flips red seq).find? fun x => x.order = order with
    | none => s
    | some x =>
      let stamp := slotStamp_ h.pipe n x
      if s.now < stamp then s
      else
        let ps := (r.showing seq).flatMap fun a => (bitsOf a.ports 16).filter fun p => (portOf s p).owner == some k
        forEach ps (markFlip k n x stamp (fineOf s)) (afterFine s)

/-- A flip instant: the first of its frame brings F_n, then every port of the sequence marks the slot. -/
def execSlotFlip (dt head frame seq order : Nat) (s : State) : Res :=
  let s := tick dt s
  let p := (headOf s head).pipe
  if p.cfg.isNone ∨ s.now < p.flipAt frame ∨ (p.flipAny ∧ frame < p.flipped) then .next s
  else
    let s := if !p.flipAny ∨ p.flipped < frame then frameFlip head frame s else s
    let n := if !p.flipAny ∨ p.flipped < frame then (headOf s head).pipe.flipped else frame
    .next (slotFlip head n seq order (recordShift head n s))

end Sys2Proof.Machine
end

