-- ==== Sys2Proof/Machine/Scan.lean ====
section
/-!
DEFINITION. Scan-line mode (chapter 14): meanings of LOAD_START, SCAN_CONFIG, SCAN_PROFILE_LOAD, SCAN_PHASE_EDGE, SCAN_PHASE_LOST and
SCAN_PASS, with the announcing of passes (R331, R335, R336) and their light windows (R342).
-/

namespace Sys2Proof.Machine

/-! ### SCAN_CONFIG -/

def scanOf (d : Desc) : ScanCfg :=
  { port := d.p8 17, fastChan := d.p8 18, slowChan := d.p8 19, pulse := d.p8 20, fastAin := d.p8 21, active := d.p16 22,
    fastMin := d.p32 24, fastMax := d.p32 28, phaseOfs := d.p16 32, ampTgt := d.p16 34, ampMin := d.p16 36, line0 := d.p32 40 }

/-- A payload byte that must name a configured head in scan-line mode. -/
def scanHeadBad (i : Nat) (d : Desc) (s : State) : Option (List Byte) :=
  match headBad i d s with
  | some x => some x
  | none => badField [((headOf s (d.p8 i)).pipe.cfg.all fun c => !c.scan, i)]

def scanBad (d : Desc) (s : State) : Option (List Byte) :=
  match scanHeadBad 16 d s with
  | some x => some x
  | none => badField [((headOf s (d.p8 16)).pipe.cfg.all fun c => decide (15 < d.p8 17) || !bitOf c.ports (d.p8 17), 17)]

/-- Table 14.3: the offset of the first field out of range or reserved byte that is not zero. -/
def scanInvalid (c : HeadCfg) (d : Desc) : Option Nat :=
  let x := scanOf d
  (List.find? (·.1)
    ([(decide (47 < x.fastChan), 18), (decide (47 < x.slowChan), 19), (decide (15 < x.pulse), 20), (decide (47 < x.fastAin), 21),
      (decide (x.active < 16384 ∨ 64880 < x.active), 22), (decide (x.fastMin < 15000000 ∨ x.fastMax < x.fastMin), 24),
      (decide (60000000 < x.fastMax), 28), (decide (x.ampTgt < 1 ∨ 32767 < x.ampTgt), 34), (decide (d.p8 38 ≠ 0), 38),
      (decide (d.p8 39 ≠ 0), 39), (decide (c.pmin / 2 < x.line0), 40)] ++
     (span 44 63).map fun i => (decide (d.p8 i ≠ 0), i))).map (·.2)

/-- The Recipes of a head in force or pending; one that another has replaced is in force until that one governs. -/
def recipesOf (s : State) (k : Nat) : List Recipe :=
  let p := (headOf s k).press
  p.recipe.toList ++ p.pending.toList.map (·.1) ++ p.old.map (·.2.1)

/-- A channel that SCAN_CONFIG may not bind (R348, check 3). -/
def scanBound (s : State) (k : Nat) (c : HeadCfg) (x : ScanCfg) : Option Nat :=
  let lit := fun ch : Nat => (recipesOf s k).any fun r => r.chans.any fun m => bitOf m ch
  let axes := [x.fastChan, x.slowChan]
  (axes.find? fun ch => !bitOf c.channels ch).orElse fun _ =>
    if x.fastChan = x.slowChan then some x.slowChan else axes.find? lit

/-- R344 against the Recipes in force or pending; with none, the items as a Recipe without passes or primaries would leave
them, which fail only where every Recipe would (DEDUCED, notes/assumptions/86.md). -/
def scanUnfit (s : State) (k : Nat) (c : HeadCfg) (x : ScanCfg) : Option Nat :=
  let rtx := (portOf s x.port).rtx
  match recipesOf s k with
  | [] => scanFitBad c x 0 0 rtx 0
  | l => l.findSome? fun r => scanFitBad c x r.passes r.chans.length rtx (r.chans.foldl (fun m ch => max m (maxLead s ch)) 0)

/-- The first SCAN_CONFIG of a head takes effect at once and starts acquisition; its WARP goes out (R333, R335, R348). -/
def scanFirst (d : Desc) (k : Nat) (x : ScanCfg) (s : State) : State :=
  let s := settle (.scan k) s
  let s := modScan k (fun v => { v with cfg := some x, since := 0, lock := .acquiring, edges := [], good := 0, t8 := 0, preds := [] }) s
  let s := record (0x10 + k) 0x0E06 (u8 k ++ u24 0 ++ u32 (headOf s k).pipe.nextFrame) s
  let s := if (portOf s x.port).state = .ready ∧ (portOf s x.port).owner = some k then sendWarp k x.port s else s
  complete d 0 [] s

def scanConfigAct (d : Desc) (s : State) : State :=
  let k := d.p8 16
  let h := headOf s k
  let x := scanOf d
  match h.pipe.cfg with
  | none => complete d 0x13 [] s
  | some c =>
    orElseDo d (((scanInvalid c d).map fun o => (0xE80, u16 o)).orElse fun _ =>
        ((scanBound s k c x).map fun ch => (0xE82, u8 ch)).orElse fun _ =>
        (h.scan.pending.map fun p => (0xE83, u32 p.2.tag)).orElse fun _ =>
        (scanUnfit s k c x).map fun i => (0xE81, u8 i))
      (admitDesc (.scan k) d (scanUnits x.port) (fun s =>
        if (headOf s k).scan.cfg.isNone then scanFirst d k x s
        else modScan k (fun v => { v with pending := some (x, d) }) s)) s

def execScanConfig (dt : Nat) (d : Desc) (s : State) : Res :=
  .next (runDesc (specAdm 0x0C01 []) d scanBad noOver scanConfigAct (tick dt s))

/-- A pending SCAN_CONFIG applies at CSE_n and governs from F_n (R348, SCAN_APPLIED). -/
def applyScan (k n cse : Nat) (s : State) : State :=
  match (headOf s k).scan.pending with
  | none => s
  | some (x, d) =>
    let s := modScan k (fun v => { v with pending := none, nextCfg := v.nextCfg ++ [(x, n)] }) s
    completeAt cse d 0 (u32 0 ++ u32 n) (record (0x10 + k) 0x0E06 (u8 k ++ u24 0 ++ u32 n) s)

/-! ### SCAN_PROFILE_LOAD -/

def profBad (d : Desc) (s : State) : Option (List Byte) :=
  match scanHeadBad 24 d s with
  | some x => some x
  | none => badField [(!([1024, 2048, 4096, 8192, 16384].contains (d.p16 26)), 26), (decide (d.length < 4 * d.p16 26), 8)]

def profOver (d : Desc) (_ : State) : Bool := decide (4 * d.p16 26 < d.length)

def execScanProfileLoad (dt : Nat) (d : Desc) (s : State) : Res :=
  .next (runDesc (specBuf 0x0C02 false (25 :: span 28 63)) d profBad profOver (fun d => startLoad d 0x0C02 (d.p8 24)) (tick dt s))

/-- The profile's bytes have come: it goes to the open shadow (R347). -/
def finishProfile (t : Transfer) (buf : HostBuf) (s : State) : State :=
  endLoad t buf (fun b s =>
    let prof := (List.range (t.desc.p16 26)).map fun i => signed 32 (fieldOf b (4 * i) 4)
    complete t.desc 0 [] (modShadow (t.desc.p8 24) t.held t.desc { Reset.shadow with profile := some prof } s)) s

/-! ### Announcing passes (R331, R333, R335) -/

/-- Whether passes of a frame carry samples (R333). -/
def passesLit (s : State) (k n : Nat) : Bool :=
  let h := headOf s k
  h.scan.lock == .locked && h.scan.outFrom.any (fun m => decide (m ≤ n)) && (h.press.governing n).isSome

/-- Line and order of pass g of a frame; none past the last line (R331). -/
def passRow (s : State) (k n g : Nat) : Option (Nat × Nat) :=
  let h := headOf s k
  match h.pipe.cfg, h.press.governing n with
  | some c, some (r, _) => if g < r.passes * c.canvasH then some (g / max 1 r.passes, g % max 1 r.passes) else none
  | _, _ => none

/-- Line and order of pass g of a frame; none for a dark pass (R331, R333, R340). -/
def passLine (s : State) (k n g : Nat) : Option (Nat × Nat) :=
  match (headOf s k).press.governing n with
  | none => none
  | some (r, red) => (passRow s k n g).filter fun x =>
      passesLit s k n && (List.range r.chans.length).any fun p => (r.slotAt p x.2).any (r.keeps red)

/-- The packets of one pass: its image, then PASS (Table 14.1). -/
def passPackets (c : HeadCfg) (prims : Nat) (a : PassAnn) (bad : Bool) : List SentPkt :=
  let size := if a.dark then 0 else c.canvasW * prims * 2
  let data := (List.range (ceilDiv size 4096)).map fun j =>
    { barePkt 0x10 a.start with
      frame := a.frame, order := a.order, offset := 4096 * j, len := min 4096 (size - 4096 * j), word := a.id, line := a.line,
      rev := a.reverse, bad := bit bad }
  let b := u16 a.id ++ u8 (bit a.reverse) ++ u8 (bit a.dark) ++ u32 a.th ++ u32 c.canvasW ++ u32 0
  data ++ [{ barePkt 0x11 a.start with
    frame := a.frame, order := a.order, offset := a.line, len := 16, word := a.id, payload := b, line := a.line }]

/-- The window of an announced pass (R342). -/
def passWin (active : Nat) (a : PassAnn) : PassWin :=
  let y := psi active
  { opens := a.start + a.th * y / 2 ^ 40, closes := a.start + a.th * (2 ^ 32 - y) / 2 ^ 40, frame := a.frame, order := a.order }

/-- One predicted pass is announced: WARP before the first pass of a frame with a new set-up, BEAM_DATA and PASS. -/
def announcePass (k p : Nat) (c : HeadCfg) (x : PassPred) (n : Nat) (bad : Bool) (s : State) : State :=
  let h := headOf s k
  let v := h.scan
  let g := if n = v.annFrame then v.annNext else 0
  let row := passRow s k n g
  let lo := passLine s k n g
  let prims := (h.press.governing n).elim 0 fun r => r.1.chans.length
  let a : PassAnn := { start := x.start, th := x.th, reverse := x.reverse, id := v.passId, frame := n, g := g,
                       line := row.elim 0 (·.1), order := row.elim 0 (·.2), dark := lo.isNone }
  let gov := v.governing n
  let warp := gov.any fun y => decide (v.warped < y.2)
  let s := modScan k (fun v => { v with
    passId := (v.passId + 1) % 65536, warped := if warp then gov.elim 0 (·.2) else v.warped, annFrame := n, annNext := g + 1, ann := v.ann ++ [a],
    wins := if lo.isSome then (v.wins ++ [passWin (gov.elim 0 (·.1.active)) a]) else v.wins }) s
  let pre := if warp then
      let t := modScan k (fun v => { v with cfg := gov.map (·.1) }) s
      warpPkts t k x.start
    else []
  sendAll p (pre ++ passPackets c prims a bad) s

/-- A predicted pass that comes too late to be announced is still a pass of its frame (R331). -/
def skipPass (k n : Nat) : State → State :=
  modScan k fun v => { v with annFrame := n, annNext := (if n = v.annFrame then v.annNext else 0) + 1 }

/-- A predicted pass comes too late to be announced: a missed promise where its port has resumed (R26, R350). -/
def latePass (k p : Nat) (x : PassPred) (n : Nat) (s : State) : State :=
  let o := portOf s p
  skipPass k n (if o.state = .ready ∧ o.scan ∧ scanResumed s k p n then headMiss k 0 (0x18 + p) (x.start - 800) s else s)

/-- Announce predicted passes, up to B - 1 ahead of the pass that runs, each not before PRD of its frame (R336), on a port that is
READY and has resumed (R306); a pass that cannot be announced in time is still a pass of its frame. -/
def fillPasses (k : Nat) (bad : Bool) : Nat → State → State
  | 0, s => s
  | f + 1, s =>
    let h := headOf s k
    match h.pipe.cfg, h.scan.cfg, h.scan.preds with
    | some c, some sc, x :: rest =>
      let o := portOf s sc.port
      let rest_ := modScan k (fun v => { v with preds := rest }) s
      match passFrame h x.start with
      | none => fillPasses k bad f rest_
      | some n =>
        if x.start < s.now + 811 then fillPasses k bad f (latePass k sc.port x n rest_)
        else if o.state ≠ .ready ∨ !o.scan ∨ max 1 (bits (o.caps.getD 1 0) 16 8 - 1) ≤ h.scan.ann.length then s
        else if !scanResumed s k sc.port n then fillPasses k bad f (skipPass k n rest_)
        else if passesLit s k n ∧ s.now < prdOf s k n then s
        else fillPasses k bad f (announcePass k sc.port c x n bad rest_)
    | _, _, _ => s

def fillAhead (k : Nat) (bad : Bool) (s : State) : State := fillPasses k bad (headOf s k).scan.preds.length s

/-! ### LOAD_START -/

/-- PRD of a frame, or a buffer that frees: a port begins to load a slot (R313), or the passes that wait (R336). -/
def execLoadStart (dt port frame order : Nat) (bad : List Nat) (s : State) : Res :=
  let s := tick dt s
  let o := portOf s port
  match o.owner with
  | none => .next s
  | some k =>
    let h := headOf s k
    let up := o.state = .ready ∨ (o.state = .hold ∧ h.cave.state = .leaving)
    if o.scan then .next (fillAhead k (!bad.isEmpty) s)
    else match h.pipe.cfg, h.press.governing frame with
    | some c, some (r, red) =>
      match r.arrayOf port with
      | some ai => .next (if up then loadStart port frame order bad k c r red ai s else s)
      | none => .next s
    | _, _ => .next s

/-! ### SCAN_PHASE_EDGE -/

/-- A scanner enters LOST: its channels go dark and no further pass is marked (R334). -/
def loseScan (k : Nat) (s : State) : State :=
  modScan k (fun v => { v with
    lock := .lost, lost := bump v.lost, good := 0, ann := [], preds := [], wins := [], outFrom := none, output := false, lowRun := 0 }) s

/-- The two pass starts predicted from edge m (R332). -/
def predict (e t8 phaseOfs : Nat) : List PassPred :=
  [0, 1].map fun h =>
    { start := e + t8 * (131072 + (32768 * h + 65536 - phaseOfs) % 65536) / 524288, th := 16 * t8, reverse := decide (h = 1) }

def insertPred (x : PassPred) : List PassPred → List PassPred
  | [] => [x]
  | y :: l => if x.start < y.start then x :: y :: l else y :: insertPred x l

/-- An edge is good (R333). -/
def goodEdge (sc : ScanCfg) (interval t8 : Nat) : Bool :=
  decide (((8 * interval : Nat) - (t8 : Int)).natAbs * 100 ≤ t8) && decide (32000000000000 ≤ t8 * sc.fastMax) &&
    decide (t8 * sc.fastMin ≤ 32000000000000)

/-- A counted edge of a PULSE input, which several scanners may take: stamped once at 5 units (R50). -/
def countEdge (p e : Nat) (s : State) : State :=
  let f := fun x : Pulse => if x.edges.head? = some e then x else { x with edges := (e :: x.edges).take 16, last := s.now }
  { s with gheler := { s.gheler with pulses := upd s.gheler.pulses p f } }

/-- A pickup edge of the fast axis at this instant: an edge of the PHASE_PULSE input that its EDGE and GLITCH select (R50, R332 to
R334, notes/assumptions/87.md). -/
def phaseEdge (k : Nat) (sc : ScanCfg) (s : State) : State :=
  let v := (headOf s k).scan
  let e := s.now / 5 * 5
  let s := countEdge sc.pulse e s
  let edges := (e :: v.edges).take 9
  let t8 := edges[8]?.elim 0 fun x => e - x
  let good := t8 != 0 && goodEdge sc (v.edges.head?.elim 0 fun x => e - x) t8
  let s := modScan k (fun v => { v with edges := edges, lastEdge := e, t8 := if t8 = 0 then v.t8 else t8 }) s
  if v.lock = .locked ∧ !good then record (0x10 + k) 0x0E02 (u8 k ++ u8 2) (loseScan k s)
  else
    let s := modScan k (fun v => { v with
      lock := if v.lock = .lost then .acquiring else v.lock, good := if good then min 255 (v.good + 1) else 0
      preds := if t8 = 0 then v.preds else (predict e t8 sc.phaseOfs).foldr insertPred v.preds }) s
    let now := (headOf s k).scan
    let s := if now.lock = .acquiring ∧ 64 ≤ now.good then
        record (0x10 + k) 0x0E01 (u8 k ++ u24 0 ++ u32 t8) (modScan k (fun v => { v with
          lock := .locked, outFrom := some ((headOf s k).pipe.firstFlip s.now), lowRun := 0 }) s)
      else s
    fillAhead k false s

def execScanPhaseEdge (dt head : Nat) (s : State) : Res :=
  let s := tick dt s
  match (headOf s head).scan.cfg with
  | some sc => .next (phaseEdge head sc s)
  | none => .next s

/-- No edge by e_m + floor(3 T8 / 16) (R334). -/
def execScanPhaseLost (dt head : Nat) (s : State) : Res :=
  let s := tick dt s
  let v := (headOf s head).scan
  match v.edges with
  | e :: _ =>
    if v.lock = .locked ∧ e + 3 * v.t8 / 16 < s.now then .next (record (0x10 + head) 0x0E02 (u8 head ++ u8 1) (loseScan head s))
    else .next s
  | [] => .next s

/-! ### SCAN_PASS -/

/-- A frame that carried samples has ended: SCAN_LINES_CUT for the lines not shown, whose passes did not all start before output
stopped (R331). -/
def cutLines (k n lit : Nat) (s : State) : State :=
  let h := headOf s k
  match h.pipe.cfg, h.press.governing n with
  | some c, some (r, _) =>
    let shown := lit / max 1 r.passes
    if lit ≠ 0 ∧ shown < c.canvasH then
      record (0x10 + k) 0x0E04 (u8 k ++ u24 0 ++ u32 n ++ u16 (c.canvasH - shown))
        (modScan k (fun v => { v with cut := satAdd top32 v.cut (c.canvasH - shown) }) s)
    else s
  | _, _ => s

/-- The amplitude of the pass that ends (R345); four low passes in a row lose a locked scanner (R334). -/
def passAmp (k : Nat) (sc : ScanCfg) (s : State) : State :=
  let s := modScan k (fun v => { v with
    amp := v.ampRun, ampRun := 0, lowRun := if v.ampRun * 65536 < sc.ampTgt * sc.ampMin then v.lowRun + 1 else 0 }) s
  let v := (headOf s k).scan
  if v.lock = .locked ∧ 4 ≤ v.lowRun then record (0x10 + k) 0x0E03 (u8 k ++ u8 0 ++ u16 v.amp) (loseScan k s) else s

/-- A pass starts: its mark, its place in the frame, then the passes ahead are announced (R331, R336). -/
def passStart (k : Nat) (sc : ScanCfg) (a : PassAnn) (bad : Bool) (s : State) : State :=
  let v := (headOf s k).scan
  let again := decide (a.frame = v.frame)
  let s := if again then s else cutLines k v.frame v.lit s
  let lit := passesLit s k a.frame
  let s := modScan k (fun v => { v with
    ann := v.ann.tail, frame := a.frame, pass := a.g, line := if a.dark then 65535 else a.line, th := a.th, output := lit,
    lit := if lit then a.g + 1 else if again then v.lit else 0,
    thSum := (if again then v.thSum else 0) + a.th, thN := (if again then v.thN else 0) + 1,
    wins := v.wins.filter fun w => decide (a.start < w.closes + 40000) }) s
  let o := portOf s sc.port
  let marks := decide (o.state = .ready) && !(headOf s k).pipe.safeDark
  let s := if marks then plkMark sc.port 0x5B a.id (fineOf s sc.port) a.start (pump sc.port (afterFine s)) else s
  let s := modPort sc.port (fun o => { o with sent := o.sent.filter (fun q => decide (a.start < q.stamp) || q.type_ = 0x12),
                                              queue := o.queue.filter fun q => decide (a.start < q.stamp) || q.type_ = 0x12 || q.type_ = 3 }) s
  let s := if marks ∧ a.start + 4 < s.now then headMiss k 0 (0x18 + sc.port) a.start s else s
  fillAhead k bad s

/-- The first announced pass begins, unless the amplitude of the pass before has lost the scanner. -/
def passBegins (k : Nat) (sc : ScanCfg) (bad : Bool) (s : State) : State :=
  match (headOf s k).scan.ann with
  | a :: _ => passStart k sc a bad s
  | [] => s

def execScanPass (dt head : Nat) (bad : Bool) (s : State) : Res :=
  let s := tick dt s
  match (headOf s head).scan.cfg with
  | none => .next s
  | some sc =>
    match (headOf s head).scan.ann with
    | a :: _ => .next (if a.start ≤ s.now then passBegins head sc bad (passAmp head sc s) else s)
    | [] => .next (fillAhead head bad (passAmp head sc s))

end Sys2Proof.Machine
end

