-- ==== Sys2Proof/Machine/Gheler.lean ====
section
/-!
DEFINITION. The Gheler loop engine (chapter 16): meanings of LOOP_SET, CHAN_ENABLE, COEF_WRITE, AOUT_UPDATE, RAMP_END and
AOUT_RANGE_WRITE, with the amplitude schedule (R23, R342, R379) and PULSE and AUX inputs (R50, R373).
-/

namespace Sys2Proof.Machine

/-! ### Channels and their loop sets -/

/-- The loop set of a channel that counts for a check: the pending one, else the one in force. -/
def Chan.admittedCfg (ch : Chan) : Option LoopCfg :=
  match ch.pendCfg with
  | some x => some x.1
  | none => ch.cfg

/-- A channel bound by the SCAN_CONFIG in force of a head: the head, its set-up, and whether it is FAST_CHAN (R345). -/
def boundOf (s : State) (c : Nat) : Option (Nat × ScanCfg × Bool) :=
  (List.range 8).findSome? fun k =>
    match (headOf s k).scan.cfg with
    | some sc => if sc.fastChan = c then some (k, sc, true) else if sc.slowChan = c then some (k, sc, false) else none
    | none => none

/-- The inputs a loop set reads; FAST_AIN takes the place of IN0 of a FAST_CHAN (R373, R345). -/
def loopReads (s : State) (c : Nat) (x : LoopCfg) : List Nat :=
  let ins := match boundOf s c with
    | some (_, sc, true) => sc.fastAin :: (x.ins.take x.m).drop 1
    | _ => x.ins.take x.m
  ins ++ (if x.dsrc = 1 then [0x40 + x.didx] else [])

/-- AUX inputs of a channel's set-points of source 2, in force and pending, under a loop set; a channel that follows the schedule
or is bound has no set-point of its own (R345, R373, R398). -/
def spReads (s : State) (c : Nat) (x : LoopCfg) : List Nat :=
  let p := spOf s c
  let f := fun x : SpCfg => if x.source = 2 then [0x40 + x.input] else []
  if x.sched || (boundOf s c).isSome then []
  else ((if p.applied then f p.cfg else []) ++ p.pending.toList.flatMap fun x => f x.1).eraseDups

/-- The loop sets of a channel, in force or pending. -/
def loopCfgs (s : State) (c : Nat) : List LoopCfg := (chanOf s c).cfg.toList ++ (chanOf s c).pendCfg.toList.map (·.1)

/-- Another loop reads the input with another T_s (R373). -/
def inputClash (s : State) (c ts input : Nat) : Bool :=
  (List.range 48).any fun o => o != c && (loopCfgs s o).any fun x =>
    x.ts != ts && (loopReads s o x ++ spReads s o x).contains input

/-- Whether a loop reads an input (R373). -/
def isRead (s : State) (input : Nat) : Bool :=
  (List.range 48).any fun o => (loopCfgs s o).any fun x => (loopReads s o x ++ spReads s o x).contains input

/-- Table 2.8: the latency of an input at its BW setting, in stamp units. -/
def inputLatency (s : State) (input : Nat) : Nat :=
  if input < 0x30 then [600, 1600, 4600, 600].getD (regField s (0x00A08100 + 4 * input) 0 2) 600
  else [8000, 24000, 168000, 1608000].getD (regField s (0x00A08200 + 4 * (input - 0x40)) 0 2) 8000

/-! ### LOOP_SET -/

def loopOf (d : Desc) : LoopCfg :=
  { sched := bitOf (d.p8 17) 0, n := d.p8 18, m := d.p8 19, ts := d.p32 20, ins := [d.p8 24, d.p8 25, d.p8 26], dsrc := d.p8 27,
    didx := d.p8 28, lead := 200 * d.p16 30, holdoff := d.p32 32, rDark := d.s32 36, rFull := d.s32 40, uMin := d.s32 44,
    uMax := d.s32 48 }

def loopBad (d : Desc) (s : State) : Option (List Byte) :=
  badField [(bitOf (d.p8 17) 0 && (decide (47 < d.p8 16) || (chanOwner s (d.p8 16)).isNone), 16)]

/-- An input code of Table 16.4. -/
def inputOk (m i v : Nat) : Bool :=
  if m ≤ i then v == 0xFF else decide (v ≤ 0x2F) || (decide (0x40 ≤ v) && decide (v ≤ 0x4F))

/-- Table 16.4, R372 and R373: the offset of the first field that breaks them. -/
def loopInvalid (s : State) (d : Desc) : Option Nat :=
  let x := loopOf d
  let c := d.p8 16
  let ranges := (List.find? (·.1)
    ([(decide (47 < c), 16), (decide (1 < d.p8 17), 17), (decide (8 < x.n), 18), (decide (x.m < 1 ∨ 3 < x.m), 19),
      (decide (x.ts < 2000 ∨ 80000 < x.ts ∨ x.ts % 5 ≠ 0), 20), (!inputOk x.m 0 (d.p8 24), 24), (!inputOk x.m 1 (d.p8 25), 25),
      (!inputOk x.m 2 (d.p8 26), 26), (decide (2 < x.dsrc), 27),
      (if x.dsrc = 1 then decide (15 < x.didx) else decide (x.didx ≠ 0), 28), (decide (d.p8 29 ≠ 0), 29),
      (decide (d.p16 30 < 1 ∨ 200 < d.p16 30), 30), (decide (40000 < x.holdoff), 32), (!isS20 x.rDark, 36), (!isS20 x.rFull, 40),
      (!isS20 x.uMin, 44), (!isS20 x.uMax || decide (x.uMax ≤ x.uMin), 48)] ++
      (span 52 63).map fun i => (decide (d.p8 i ≠ 0), i))).map (·.2)
  match ranges with
  | some o => some o
  | none =>
    let reads := loopReads s c x
    if x.ts < (reads.map (inputLatency s)).foldl max 0 + 1000 then some 20
    else
      let clash := fun i : Nat => inputClash s c x.ts i
      let ins := (x.ins.take x.m).zipIdx
      match ins.find? fun p => clash ((loopReads s c x).getD p.2 0) with
      | some p => some (24 + p.2)
      | none => if x.dsrc = 1 ∧ clash (0x40 + x.didx) then some 28
                else if (spReads s c x).any clash then some 20 else none

/-- A field that may not change in RUN or RAMP (R393, check 4). -/
def loopRunning (a b : LoopCfg) : Option Nat :=
  let ins := (List.range 3).find? fun i => a.ins.getD i 0 != b.ins.getD i 0
  if a.sched != b.sched then some 17 else if a.n ≠ b.n then some 18 else if a.m ≠ b.m then some 19
  else if a.ts ≠ b.ts then some 20 else match ins with
    | some i => some (24 + i)
    | none => if a.dsrc ≠ b.dsrc then some 27 else if a.didx ≠ b.didx then some 28 else none

/-- R24 for a channel's new lead against the Recipes in force or pending: the slot's Recipe offset (R393, check 6). -/
def leadBreach (s : State) (c lead : Nat) : Option (Nat × List Byte) :=
  match chanOwner s c with
  | none => none
  | some k =>
    (recipesOf s k).findSome? fun r =>
      let lights := fun p : Nat => bitOf (r.chans.getD p 0) c
      if r.isScan then
        if r.chans.any (bitOf · c) ∧ (headOf s k).scan.setups.any (fun sc => turnGap sc < lead + 200) then some (0xE81, u8 4) else none
      else ((r.slots.zipIdx).find? fun x => lights x.1.prim && decide (x.1.gap < lead)).map fun x =>
        (0x1087, u16 (r.slotOffset x.1))

/-- MAC units of a loop set (R395). -/
def LoopCfg.cost (x : LoopCfg) : Nat := ceilDiv ((x.n * x.n + 3 * x.n + 2 * x.m * x.n + 3) * 4000) (max 1 x.ts)

def loopSetAct (d : Desc) (s : State) : State :=
  let c := d.p8 16
  let x := loopOf d
  let ch := chanOf s c
  let owner := chanOwner s c
  let run := ch.state == .run || ch.state == .ramp
  orElseDo d
    ((if ch.state = .unavailable ∧ c < 48 then some (0x1084, u8 c) else none).orElse fun _ =>
     ((loopInvalid s d).map fun o => (0x1080, u16 o)).orElse fun _ =>
     ((if run then ch.cfg.bind (loopRunning x) else none).map fun o => (0x1086, u16 o)).orElse fun _ =>
     (ch.pendCfg.map fun p => (0x1083, u32 p.2.1.tag)).orElse fun _ => leadBreach s c x.lead)
    (admitDesc (.loopSet c owner x.sched) d [(36, x.cost)] (fun s =>
      let wait := if ch.state = .run ∧ x.sched then owner.map fun k => (headOf s k).pipe.meets d.t else none
      modChan c (fun ch => { ch with pendCfg := some (x, d, wait), pendAt := s.now }) s)) s

def execLoopSet (dt : Nat) (d : Desc) (s : State) : Res :=
  .next (runDesc (specAdm 0x0E01 []) d loopBad noOver loopSetAct (tick dt s))

/-! ### CHAN_ENABLE -/

def enableInvalid (d : Desc) : Option Nat :=
  if 2 < d.p8 22 then some 22 else if fieldOf d.bytes 16 6 = 0 then some 16
  else (23 :: span 32 63).find? fun i => d.p8 i != 0

/-- Channels of a CHAN_ENABLE that have sample instants act at one; the others are already as asked (R386).  A boundary-scan
instruction that forces the outputs is none of check 3's conditions: the channels enter RUN, their pins at 0 V (R385, R388). -/
def chanEnableAct (d : Desc) (s : State) : State :=
  let l := bitsOf (fieldOf d.bytes 16 6) 48
  let act := d.p8 22
  orElseDo d
    (((enableInvalid d).map fun o => (0x1080, u16 o)).orElse fun _ =>
     (if act = 0 then (l.find? fun c => !loopAdmitted s c).map fun c => (0x1082, u8 c) else none).orElse fun _ =>
     if act = 0 ∧ (s.power.intlkLow ∨ s.power.resetB) then some (0x1081, []) else none)
    (fun s =>
      let l := l.filter fun c => (chanOf s c).admittedCfg.isSome
      if l.isEmpty then complete d 0 [] s
      else forEach l (modChan · fun ch => { ch with enable := ch.enable ++ [{ action := act, at_ := max s.now (d.p64 24), desc := d, acted := 0 }] }) s) s

def execChanEnable (dt : Nat) (d : Desc) (s : State) : Res :=
  .next (runDesc (specI0 0x0E02 []) d noBad noOver chanEnableAct (tick dt s))

/-! ### COEF_WRITE -/

/-- The reserved payload bytes of a COEF_WRITE: 18 to 23, bytes 2 to 3 of each entry, and what follows the entries (R556). -/
def coefZero (d : Desc) : List Nat :=
  let n := min 5 (d.trunc.p8 17)
  span 18 23 ++ (List.range n).flatMap (fun i => [26 + 8 * i, 27 + 8 * i]) ++ span (24 + 8 * n) 63

def coefWriteBad (d : Desc) (_ : State) : Option (List Byte) :=
  badField [(decide (47 < d.p8 16), 16), (decide (d.p8 17 < 1 ∨ 5 < d.p8 17), 17)]

def coefEntries (d : Desc) : List (Nat × Int) :=
  (List.range (d.p8 17)).map fun i => (d.p16 (24 + 8 * i), d.s32 (28 + 8 * i))

/-- An entry within Table 16.3 and its ranges. -/
def coefEntryOk (e : Nat × Int) : Bool :=
  if 140 ≤ e.1 then decide (e.1 ≤ 143) && decide (-20 ≤ e.2) && decide (e.2 ≤ 8) else e.1 != 139 && isS20 e.2

def coefWriteAct (d : Desc) (s : State) : State :=
  let c := d.p8 16
  let l := coefEntries d
  if (chanOf s c).state = .unavailable then complete d 0x1084 (u8 c) s
  else match l.findIdx? fun e => !coefEntryOk e with
    | some i => complete d 0x1085 (u8 i) s
    | none =>
      let s := modChan c (fun ch => { ch with coefQ := ch.coefQ ++ [{ desc := d, entries := l, at_ := s.now }] }) s
      if (chanOf s c).state = .run then s else flushCoef c s

def execCoefWrite (dt : Nat) (d : Desc) (s : State) : Res :=
  .next (runDesc (specI0 0x0E03 (coefZero d)) d coefWriteBad noOver coefWriteAct (tick dt s))

/-! ### The amplitude schedule (R23, R268, R342, R381) -/

/-- AMP of the slot of a frame that lights a channel at an instant of display time (its light window, R22). -/
def litSlot (s : State) (k c t : Nat) : Option (Slot × Nat × Nat) :=
  let h := headOf s k
  let n := h.pipe.firstFlip (t + 1)
  if n = 0 then none
  else match h.press.governing (n - 1) with
    | none => none
    | some (r, red) =>
      (r.slots.find? fun x =>
        let o := slotStamp_ h.pipe (n - 1) x + x.gap
        bitOf (r.chans.getD x.prim 0) c && r.keeps red x && !r.darkAt (n - 1) x &&
          decide (o ≤ t) && decide (t < o + x.onTime)).map fun x =>
        (x, slotStamp_ h.pipe (n - 1) x + x.gap, n - 1)

/-- The same in scan-line mode, from the light windows of the passes (R342). -/
def litPass (s : State) (k c t : Nat) : Option (Slot × Nat × Nat) :=
  let h := headOf s k
  (h.scan.wins.find? fun w => decide (w.opens ≤ t) && decide (t < w.closes)).bind fun w =>
    match h.press.governing w.frame with
    | none => none
    | some (r, red) =>
      (r.slots.find? fun x => bitOf (r.chans.getD x.prim 0) c && x.order == w.order && r.keeps red x &&
        !r.darkAt w.frame x).map fun x => (x, w.opens, w.frame)

def litAt (s : State) (k c t : Nat) : Option (Slot × Nat × Nat) :=
  if (headOf s k).pipe.cfg.any (·.scan) then litPass s k c t else litSlot s k c t

/-- The scheduled set-point at AOUT update t (R23, R379). -/
def scheduled (s : State) (c t : Nat) (x : LoopCfg) : Int :=
  match (chanOwner s c).bind fun k => litAt s k c (t + x.lead) with
  | some (slot, _, _) => x.rDark + (slot.amp * (x.rFull - x.rDark) + 2048) / 4096
  | none => x.rDark

/-- Whether a channel follows its head's schedule (R345, R398). -/
def follows (s : State) (c : Nat) (x : LoopCfg) : Bool := x.sched && (boundOf s c).isNone

/-- Whether a freeze holds the set-point at an instant: strictly after it (R438). -/
def Chan.heldAt (ch : Chan) (t : Nat) : Bool := ch.held.any fun f => decide (f < t)

/-- The set-point that an AOUT update takes: held at R_DARK, scheduled, or that of the last sample (R378, R402, R438). -/
def setPointAt (s : State) (c t : Nat) (x : LoopCfg) : Int :=
  if (chanOf s c).heldAt t then x.rDark else if follows s c x then scheduled s c t x else (chanOf s c).r

/-- Test signal at POINT 0 while an injection is active (R414). -/
def pointZero (s : State) (c : Nat) : Int :=
  if (spOf s c).inject.any fun j => j.active && j.point == 0 then (chanOf s c).sLast else 0

/-! ### AOUT_UPDATE (R371, R378, R384) -/

/-- Whether the outputs are forced to 0 V (R51, R54, R58). -/
def forcedLow (s : State) : Bool := s.power.intlkLow || s.power.resetB || s.power.bscan

/-- The select group a channel belongs to (R410). -/
def groupOf (s : State) (c : Nat) : Option SelGroup := s.gheler.groups.find? fun g => g.members.contains c

def setGroup (g : SelGroup) (s : State) : State :=
  { s with gheler := { s.gheler with groups := s.gheler.groups.map fun h => if h.out = g.out then g else h } }

/-- A member of a group that is not its output channel: its pin stays at 0 V (R410). -/
def pinHeld (s : State) (c : Nat) : Bool := (groupOf s c).any fun g => g.out != c

/-- A code reaches a channel's pin at update t, unless the pin stands at 0 V: for 10 µs after a RANGE change (R47), outside
its group's output channel (R410), or forced (R51). -/
def drivePin (c t : Nat) (k : Int) (s : State) : State :=
  if t < (chanOf s c).zeroTill ∨ pinHeld s c ∨ forcedLow s then (if (chanOf s c).code = 0 then s else pinZero c s)
  else writeAout c k s

/-- The output of a running channel reaches its pin. -/
def driveOut (c t : Nat) (u : Int) (s : State) : State := drivePin c t (outCode (aoutBipolar s c) u) s

/-- What stands at an AOUT pin: none while it is high-impedance, before input is valid, else the code that drives it (R54). -/
def aoutPin (s : State) (c : Nat) : Option Int := if s.power.state = .p4 then none else some (chanOf s c).code

/-- Sample results due at update t are in force from it; one more than an update late is a missed promise (R26, R30, R371). -/
def takeDue (c t : Nat) (s : State) : State :=
  let ch := chanOf s c
  match (ch.uNew.filter fun x => decide (x.due ≤ t)).getLast? with
  | none => s
  | some x =>
    let s := modChan c (fun ch => { ch with
      u := x.u, rj := x.r, uHold := x.hold, applied := true, uNew := ch.uNew.filter fun x => decide (t < x.due) }) s
    if x.due + 200 < t then loopMiss c x.due s else s

/-- The first of the update instants before t, back to `fuel` of them, from which a channel's set-point has been what it is at t. -/
def stepDue (s : State) (c : Nat) (x : LoopCfg) (v : Int) : Nat → Nat → Option Nat
  | 0, _ => none
  | f + 1, t =>
    if t < 200 ∨ setPointAt s c (t - 200) x ≠ v then none else some ((stepDue s c x v f (t - 200)).getD (t - 200))

/-- A scheduled step that an update before this one, after the channel's last, should have applied is a missed promise (R23, R26,
R342, R350). -/
def lateStep (c last t : Nat) (x : LoopCfg) (s : State) : State :=
  let v := setPointAt s c t x
  if follows s c x ∧ v ≠ (chanOf s c).r then
    (stepDue s c x v ((t - last) / 200 - 1) t).elim s fun g => loopMiss c g s
  else s

/-- An update of a channel in RUN, its last one at `last` (R378). -/
def updateRun (c last t : Nat) (x : LoopCfg) (s : State) : State :=
  let s := lateStep c last t x (takeDue c t s)
  let ch := chanOf s c
  let base := setPointAt s c t x
  let step := follows s c x && base != ch.r
  let s := if follows s c x ∨ ch.heldAt t then
      modChan c (fun ch => { ch with r := base, lastStep := if step then some t else ch.lastStep }) s
    else s
  if !ch.applied then s
  else
    let acts := !ch.uHold && (follows s c x || ch.heldAt t)
    let u := if acts then between ch.u (coef ch.coefs 138) (expO ch.coefs) (sat20 (base + pointZero s c)) ch.rj x.uMin x.uMax
             else ch.u
    driveOut c t u (modChan c (fun ch => { ch with uPrev := u }) s)

/-- DARK_CODE of a channel (R384). -/
def darkCode (s : State) (c : Nat) : Int := codeOf (aoutBipolar s c) (bits (rawReg s (0x00A01008 + 0x40 * c)).toNat 0 16)

/-- Update i of a ramp (R384). -/
def rampCode (s : State) (c i : Nat) : Int :=
  let c0 := (chanOf s c).rampC0
  c0 + roundDiv ((darkCode s c - c0) * i) 10000

/-- One AOUT update of a channel at a grid instant; each instant counts once, after a step of the count the first one
at least half an interval after the update before it (R155), and the 10,000th of a ramp is RAMP_END's. -/
def aoutStep (c t : Nat) (s : State) : State :=
  let ch := chanOf s c
  if t < ch.upd + 100 ∨ (ch.state = .ramp ∧ 9999 ≤ ch.rampI) then s
  else
    let s := modChan c (fun ch => { ch with upd := t }) s
    match ch.state with
    | .run =>
      if ch.offNext then loopDisabled (2 ^ c) 6 (setCause c 6 (chanOff c s))
      else ch.cfg.elim s fun x => updateRun c ch.upd t x s
    | .ramp => drivePin c t (rampCode s c (ch.rampI + 1)) (modChan c (fun ch => { ch with rampI := ch.rampI + 1 }) s)
    | _ => if ch.code = 0 then s else pinZero c s

/-- The update instant at or before a stamp (R45). -/
def grid (t : Nat) : Nat := t / 200 * 200

def execAoutUpdate (dt chan : Nat) (s : State) : Res :=
  let s := tick dt s
  .next (aoutStep chan (grid s.now) s)

/-! ### Capture sessions and items that end (R415 to R417) -/

/-- A capture session ends: its exhibit is READY, its item goes (R417). -/
def endCapture (c cause : Nat) (s : State) : State :=
  match (spOf s c).capture with
  | none => s
  | some x =>
    if x.state = 3 then s
    else
      let s := if owes x.desc s then complete x.desc 0 [] s else s
      let s := modSp c (fun sp => { sp with capture := some { x with state := 3 } }) s
      let s := record 8 0x1108 (u8 c ++ u24 x.written ++ u64 x.trig ++ u8 cause) s
      let s := dropItem (.capture c none) s
      runHeld x.exh 0xFFFFFFFF (modExh x.exh (fun e => { e with state := .ready }) s)

/-- A session of a channel without an admitted loop set ends (R416). -/
def reapCapture (c : Nat) (s : State) : State :=
  if (spOf s c).capture.isSome ∧ !loopAdmitted s c then endCapture c 2 s else s

/-! ### RAMP_END (R384) -/

/-- The 10,000th update of a ramp: DARK_CODE, OFF; a revoked loop set releases its units, and what waits for dark channels
goes on (R29, R72, R210, R395). -/
def rampEnd (c t : Nat) (s : State) : State :=
  let why := (chanOf s c).rampWhy
  let s := modChan c (fun ch => { ch with upd := t, rampI := 10000 }) (drivePin c t (darkCode s c) s)
  let s := setCause c why (chanRest c s)
  let s := reapCapture c s
  forEach (List.range 8) (fun k s => headDark k (reapGroup k s)) s

def execRampEnd (dt chan : Nat) (s : State) : Res :=
  let s := tick dt s
  let ch := chanOf s chan
  let t := grid s.now
  .next (if ch.state = .ramp ∧ ch.rampI = 9999 ∧ ch.upd + 100 ≤ t then rampEnd chan t s else s)

/-! ### AOUT_RANGE_WRITE (R47) -/

/-- Every LASER_EN output whose map contains the channel is low. -/
def lasersLow (s : State) (c : Nat) : Bool :=
  (List.range 8).all fun k =>
    let m := (rawReg s (0x00A08280 + 8 * k)).toNat + 2 ^ 32 * (rawReg s (0x00A08284 + 8 * k)).toNat
    !(bitOf m c && laserEn s k)

/-- A write of GLE_AOUT_CFGc, RANGE in bit 0 (R47, Table 2.11); RWL discards it after set-up lock, with the value written in the
record (R5, R118). -/
def aoutRange (chan : Nat) (v : Word) (s : State) : State :=
  let off := 0x00A08000 + 4 * chan
  let bipolar := v.getLsbD 0
  let same := aoutBipolar s chan == bipolar
  if s.host.locked then (if same then s else rwlRecord 0 off v.toNat s)
  else if (chanOf s chan).enabled || !lasersLow s chan then record 8 0x0204 (u8 chan) s
  else if same then s
  else modChan chan (fun ch => { ch with zeroTill := s.now + 10 * usec }) (pinZero chan (setRaw off (wordOf (bit bipolar)) s))

def execAoutRangeWrite (dt chan : Nat) (value : Word) (s : State) : Res := .next (aoutRange chan value (tick dt s))

/-! ### Inputs (R49, R50, R373) -/

/-- The code of an input: beyond full scale, the end code (R49). -/
def adcCode (k : Int) : Int := max (-32768) (min 32767 k)

/-- An end code (R49). -/
def endCode (k : Int) : Bool := decide (32767 ≤ k) || decide (k ≤ -32768)

/-- The amplitude detectors of the scanners whose FAST_AIN the code is of (R345). -/
def noteAmp (i : Nat) (k : Int) (s : State) : State :=
  forEach ((List.range 8).filter fun h => (headOf s h).scan.cfg.any fun c => c.fastAin = i) (fun h =>
    modScan h fun v => { v with ampRun := max v.ampRun k.natAbs }) s

/-- A converter delivers a code: OVR and FRONT_END_OVR at an end code (R49).  Inputs are numbered as in Table 16.4. -/
def takeCode (input : Nat) (k : Int) (s : State) : State :=
  let aux := decide (0x40 ≤ input)
  let i := if aux then input - 0x40 else input
  let off := (if aux then 0x00A08200 else 0x00A08100) + 4 * i
  let k := adcCode k
  let s := { s with gheler := if aux then { s.gheler with aux := upd s.gheler.aux i fun _ => k }
                              else { s.gheler with ain := upd s.gheler.ain i fun _ => k } }
  let s := if aux then s else noteAmp i k s
  if !endCode k then s
  else
    let was := regField s off 8 1
    let s := setBits off 0x100 s
    if was = 0 then record 8 0x0203 (u8 (bit aux) ++ u8 i) s else s

/-- The shortest pulse that GLITCH accepts, in stamp units (Table 2.11). -/
def glitch (s : State) (p : Nat) : Nat := [0, 40, 80, 160].getD (regField s (0x00A08240 + 4 * p) 1 2) 0

/-- EDGE of the input counts this edge (Table 2.11). -/
def countsEdge (s : State) (p : Nat) (e : PinEdge) : Bool :=
  match e with
  | .rising => regField s (0x00A08240 + 4 * p) 0 1 == 0
  | .falling => regField s (0x00A08240 + 4 * p) 0 1 == 1

/-- An edge on a PULSE input: counted or opposite under EDGE, its stamp kept at 5 units.  Where the pulse that it ends is
shorter than GLITCH both its edges are dropped; the width is that of the pin, before rounding (R50).  Until then the first
edge stands (DESIGN CHOICE, notes/assumptions/65.md). -/
def pulseEdge (p : Nat) (e : PinEdge) (s : State) : State :=
  let t := s.now / 5 * 5
  let g := glitch s p
  let counted := countsEdge s p e
  let f := fun x : Pulse =>
    if x.last ≠ 0 ∧ s.now < x.last + g then
      if counted then { x with opp := x.opp.tail, last := 0 } else { x with edges := x.edges.tail, last := 0 }
    else if counted then { x with edges := (t :: x.edges).take 16, last := s.now }
    else { x with opp := (t :: x.opp).take 16, last := s.now }
  { s with gheler := { s.gheler with pulses := upd s.gheler.pulses p f } }

def execPulseEdge (dt pulse : Nat) (edge : PinEdge) (s : State) : Res := .next (pulseEdge pulse edge (tick dt s))

/-- An AUX input that no loop reads is sampled, once at each multiple of 4,000 units (R373). -/
def execAuxFreeSample (dt aux : Nat) (code : Int) (s : State) : Res :=
  let s := tick dt s
  let t := s.now / 4000 * 4000
  .next (if isRead s (0x40 + aux) ∨ t ≤ s.gheler.auxAt.getD aux 0 then s
    else takeCode (0x40 + aux) code { s with gheler := { s.gheler with auxAt := upd s.gheler.auxAt aux fun _ => t } })

end Sys2Proof.Machine
end

