-- ==== Sys2Proof/Machine/Ecc.lean ====
section
/-!
DEFINITION. Stored-data protection (chapter 20): Archive regions (R465 to R470), counts on request (R478), the leak of the
buckets (R477), the Conservator (R479, R480), and meanings of their commands.
-/

namespace Sys2Proof.Machine

def archiveNo (s : State) (n : Nat) : Option Archive := s.ecc.archives.find? fun r => r.index = n

/-- The first check of REGION_CFG that fails, by payload offset; of a remove only INDEX and ACTION (R467 check 1). -/
def regionInvalid (d : Desc) (s : State) : Option Nat :=
  let define_ := d.p8 17 == 0
  let base := d.p64 24
  let size := d.p64 32
  let comp := d.p64 40
  let csize := size / 8 * 5
  let l : List (Bool × Nat) :=
    [(decide (15 < d.p8 16) || (define_ && (archiveNo s (d.p8 16)).isSome), 16), (decide (1 < d.p8 17), 17),
     (define_ && (base % 65536 != 0 || decide (usable s < base + size) || touchesVit s base size), 24),
     (define_ && (size % 65536 != 0 || size == 0 || decide (17179869184 < size)), 32),
     (define_ && (comp % 4096 != 0 || decide (usable s < comp + csize) || touchesVit s comp csize), 40)]
  (l.find? (·.1)).map (·.2)

/-- What the region or its companion overlaps: an Archive index, or a handle (R467 check 2). -/
def regionOverlap (d : Desc) (s : State) : Option Nat :=
  let base := d.p64 24
  let size := d.p64 32
  let comp := d.p64 40
  let csize := size / 8 * 5
  let hit := fun b n => overlaps base size b n || overlaps comp csize b n
  if overlaps base size comp csize then some (d.p8 16)
  else ((s.ecc.archives.find? fun r => r.ranges.any fun x => hit x.1 x.2).map (·.index)).orElse fun _ =>
    (s.adm.exhibits.find? fun e => hit e.2.base e.2.size).map (·.1)

/-- A registered exhibit in a region (R467 check 3). -/
def regionUser (s : State) (r : Archive) : Option Nat :=
  (s.adm.exhibits.find? fun e => overlaps e.2.base e.2.size r.base r.size).map (·.1)

/-- A range holds zero data and valid check bits (R468, R481). -/
def zeroRange (a n : Nat) (s : State) : State :=
  let out := fun x : Nat => decide (x < a) || decide (a + n ≤ x)
  mendComp (fun x => !out x)
    { s with hbm := { s.hbm with cells := s.hbm.cells.filter fun e => out e.1, lanes := s.hbm.lanes.filter fun e => out e.1 } }

def newArchive (d : Desc) (s : State) : Archive :=
  { index := d.p8 16, base := d.p64 24, size := d.p64 32, comp := d.p64 40, ready := false, since := s.now }

/-- A region is removed: its bytes and those of its companion read as Class L through their parity bits (R468). -/
def removeArchive (n : Nat) (s : State) : State :=
  match archiveNo s n with
  | none => s
  | some r =>
    let mine := fun x : Nat => decide (r.comp ≤ x) && decide (x < r.comp + r.size / 8 * 5)
    let bad := s.ecc.compBad.filter mine
    let s := mendComp mine { s with ecc := { s.ecc with archives := s.ecc.archives.filter fun r => r.index ≠ n } }
    forEach bad (fun x s => storeOdd x (rawByte s x) s) s

def regionCfgAct (d : Desc) (s : State) : State :=
  let remove := d.p8 17 == 1
  let old := archiveNo s (d.p8 16)
  orElseDo d (firstBad
      [((regionInvalid d s).isSome, 0x1480, u16 ((regionInvalid d s).getD 0)),
       (!remove && (regionOverlap d s).isSome, 0x1481, u16 ((regionOverlap d s).getD 0)),
       (remove && (old.bind (regionUser s)).isSome, 0x1482, u16 ((old.bind (regionUser s)).getD 0)),
       (old.any fun r => !r.ready, 0x1483, u8 (d.p8 16))])
    (fun s =>
      if remove then
        complete d 0 [] (removeArchive (d.p8 16) s)
      else
        let r := newArchive d s
        let s := zeroRange r.comp (r.size / 8 * 5) (zeroRange r.base r.size s)
        complete d 0 [] { s with ecc := { s.ecc with archives := s.ecc.archives ++ [r] } }) s

/-- REGION_CFG (R467, R468). -/
def execRegionCfg (dt : Nat) (d : Desc) (s : State) : Res :=
  .next (runDesc (specI0 0x1201 (span 18 23 ++ span 48 63)) d noBad noOver regionCfgAct (tick dt s))

/-- ARCHIVE_READY: the fill of a region ends; a move suspends it (R468). -/
def archiveFilled (n : Nat) (s : State) : State :=
  match archiveNo s n with
  | none => s
  | some r =>
    if r.ready || s.hbm.moving.isSome || s.hbm.selfRef then s
    else record (5 + (pcOf s r.base).stack) 0x1404 (u8 n ++ u24 0 ++ u32 ((s.now - r.since) / msec))
      { s with ecc := { s.ecc with archives := s.ecc.archives.map fun x => if x.index = n then { x with ready := true } else x } }

def execArchiveReady (dt n : Nat) (s : State) : Res := .next (archiveFilled n (tick dt s))

/-! ### Counts -/

/-- A region code names a region: a pool, a defined Archive index, a stack's Class L bytes (Table 20.7). -/
def regionExists (s : State) (r : Nat) : Bool :=
  decide (r < 8) || (decide (0x10 ≤ r) && decide (r < 0x20) && (archiveNo s (r - 0x10)).isSome) || r == 0x20 || r == 0x21

/-- Both counts, LEVEL and OVF_COUNT return to zero (R478). -/
def clearRegion (r : Nat) (s : State) : State :=
  setRegion { regionCount s r with ce := 0, ue := 0, level := 0, ovf := 0 } s

def errCountsBad (d : Desc) (s : State) : Option (List Byte) :=
  badField [(!regionExists s (d.p8 16), 16), (decide (1 < d.p8 17), 17)]

def errCountsAct (d : Desc) (s : State) : State :=
  let c := regionCount s (d.p8 16)
  complete d 0 (u32 c.ce ++ u32 c.ue) (if bitOf (d.p8 17) 0 then clearRegion (d.p8 16) s else s)

/-- ERR_COUNTS (R478). -/
def execErrCounts (dt : Nat) (d : Desc) (s : State) : Res :=
  .next (runDesc (specI0 0x1202 (span 18 63)) d errCountsBad noOver errCountsAct (tick dt s))

/-- ECC_CLR: a write of ECC_CTL.CLR clears the region that ECC_SEL names (Table 20.7). -/
def execEccClr (dt : Nat) (s : State) : Res :=
  let s := tick dt s
  .next (clearRegion (regField s 0x00D00014 0 8) s)

/-- BUCKET_LEAK: every LEVEL falls by 1 after LEAK ms, and uncorrectable bytes not yet told are told (R477). -/
def execBucketLeak (dt : Nat) (s : State) : Res :=
  let s := tick dt s
  let s := if s.ecc.leaked + bucketLeak s * msec ≤ s.now then
      { s with ecc := { s.ecc with leaked := s.now
                                   regions := s.ecc.regions.map fun c => { c with level := c.level - 1 } } }
    else s
  .next (forEach (s.ecc.regions.map (·.region)) tellUe s)

/-! ### The Conservator -/

/-- The Conservator pauses while stage 1 is recognised, in P2 and during a move (R479). -/
def scrubPaused (s : State) : Bool :=
  decide (1 ≤ s.power.stage) || s.power.state == .p2 || s.hbm.moving.isSome || !s.startup.ready

/-- Bytes of a Class S region the Conservator reads: a pool, or a READY Archive region with its companion, but not in the lap
during which it was defined (R479, R480). -/
def scrubSize (s : State) (r : Nat) : Nat :=
  if r < 5 then poolSize r
  else if r < 0x10 then 0
  else match archiveNo s (r - 0x10) with
    | some x => if x.ready && (s.ecc.lapLast.isNone || decide (x.since < s.ecc.lapBegan)) then x.size + x.size / 8 * 5 else 0
    | none => 0

/-- An Archive region's two ranges in address order, each with the number of the region's bytes before it (R480). -/
def Archive.inOrder (r : Archive) : List (Nat × Nat × Nat) :=
  let n := r.size / 8 * 5
  if r.comp < r.base then [(r.comp, n, 0), (r.base, r.size, n)] else [(r.base, r.size, 0), (r.comp, n, r.size)]

/-- The HBM address of the byte of an Archive region at a place in address order. -/
def archiveByte (r : Archive) (o : Nat) : Nat :=
  ((r.inOrder.find? fun x => decide (o < x.2.2 + x.2.1)).map fun x => x.1 + (o - x.2.2)).getD r.base

/-- The last byte of a lap, in region code order (R480). -/
def lapEnd (s : State) : Nat × Nat :=
  let r := ((span 0x10 0x1F).reverse.find? fun r => decide (0 < scrubSize s r)).getD 4
  (r, scrubSize s r - 1)

/-- A lap ends: its time and count, and SCRUB_SLOW where it exceeds LAP_WARN (R480). -/
def endLap (t : Nat) (s : State) : State :=
  let ms := (t - s.ecc.lapBegan) / msec
  let s := { s with ecc := { s.ecc with lapTime := min top32 ms, lapCount := bump s.ecc.lapCount, lapLast := none } }
  let warn := regField s 0x00D00008 0 16
  if warn ≠ 0 ∧ warn * 1000 < ms then record 7 0x1403 (u32 ms) s else s

/-- The regions in the order of a lap (R480). -/
def scrubRegions : List Nat := span 0 4 ++ span 0x10 0x1F

/-- The Conservator reads the bytes of a region from one place up to another: corrections are written back and counted, uncorrectable
bytes counted and left (R479). -/
def scrubPart (r lo hi : Nat) (s : State) : State :=
  if r < 0x10 then notePool r 7 lo (hi - lo) s
  else (archiveNo s (r - 0x10)).elim s fun a =>
    forEach a.inOrder (fun x s =>
      let b := max lo x.2.2
      let e := min hi (x.2.2 + x.2.1)
      if b < e then noteRead 7 (x.1 + (b - x.2.2)) (e - b) s else s) s

/-- Every byte from one place of a lap up to another is read, in region code order and then in address order (R480). -/
def scrubRun (p q : Nat × Nat) (s : State) : State :=
  forEach scrubRegions (fun r s =>
    let lo := if r < p.1 then scrubSize s r else if r = p.1 then p.2 else 0
    let hi := if r < q.1 then scrubSize s r else if r = q.1 then q.2 + 1 else 0
    if lo < hi then scrubPart r lo hi s else s) s

/-- Whether a place of a lap lies before another. -/
def placeLe (p q : Nat × Nat) : Bool := decide (p.1 < q.1) || (p.1 == q.1 && decide (p.2 ≤ q.2))

/-- The place of the next read: after the last one, or the first of a lap (R479, R480). -/
def scrubNext (s : State) : Nat × Nat := if s.ecc.lapLast.isNone then (0, 0) else (s.ecc.scrubReg, s.ecc.scrubOff + 1)

/-- The reads of a lap up to a place, the first of which begins it. -/
def lapReads (q : Nat × Nat) (s : State) : State :=
  let p := scrubNext s
  let began := if s.ecc.lapLast.isNone then s.now else s.ecc.lapBegan
  let s := scrubRun p q { s with ecc := { s.ecc with lapBegan := began } }
  { s with ecc := { s.ecc with lapLast := some s.now, scrubReg := q.1, scrubOff := q.2 } }

/-- What is left of a lap is read, and the lap ends. -/
def lapRest (s : State) : State :=
  let last := lapEnd s
  if placeLe (scrubNext s) last then endLap s.now (lapReads last s)
  else endLap (s.ecc.lapLast.getD s.now) s

/-- Bits of a Class S byte have flipped, at a place of a lap. -/
def flipPlace (r o m : Nat) (s : State) : State :=
  if m = 0 then s
  else if r < 0x10 then flipPool r o m s
  else (archiveNo s (r - 0x10)).elim s fun a => flipByte (archiveByte a o) m s

/-- SCRUB_READ: the Conservator reads on, each byte in turn, up to and with the byte at offset o of region r, whose bits of the mask have
flipped; where that byte lies behind, it first reads the rest of the lap (R479, R480).  How many bytes one command reads is not the
spec's (DESIGN CHOICE, notes/assumptions/92.md). -/
def scrubByte (r o err : Nat) (s : State) : State :=
  if scrubPaused s || decide (scrubSize s r ≤ o) then s
  else
    let s := flipPlace r o err s
    let s := if placeLe (scrubNext s) (r, o) then s else lapRest s
    let s := lapReads (r, o) s
    if (r, o) = lapEnd s then endLap s.now s else s

def execScrubRead (dt r o err : Nat) (s : State) : Res := .next (scrubByte r o err (tick dt s))

end Sys2Proof.Machine
end

