-- ==== Sys2Proof/Machine/HbmCtl.lean ====
section
/-!
DEFINITION. The HBM controllers (chapter 18): refresh modes and debts (R428, R429), row disturbance (R430, R431),
scheduling of a request (R424 to R427), moves between frequency points (R432 to R435), freeze, safe-dark, diagnosis and
sparing (R436 to R443), and meanings of their commands.
-/

namespace Sys2Proof.Machine

/-- The unit of a stack's controller (Table 1.1). -/
def hbmUnit (stack : Nat) : Nat := 5 + stack

def modHbm (f : Hbm → Hbm) (s : State) : State := { s with hbm := f s.hbm }

/-! ### Refresh -/

def debtOf (s : State) (st pc : Nat) : Nat :=
  ((s.hbm.debts.find? fun d => d.stack = st ∧ d.pc = pc).map (·.debt)).getD 0

/-- A pseudo-channel's debt of postponed refreshes; one without debt is not listed. -/
def setDebt (st pc n : Nat) : State → State := modHbm fun h =>
  let l := h.debts.filter fun d => !(d.stack == st && d.pc == pc)
  { h with debts := if n = 0 then l else { stack := st, pc := pc, debt := n } :: l }

/-- Close the pages of a pseudo-channel that a test names (R427). -/
def closePages (p : OpenPage → Bool) : State → State := modHbm fun h => { h with pages := h.pages.filter fun g => !p g }

/-- An all-bank refresh closes every page of the pseudo-channel. -/
def refreshPc (st pc : Nat) : State → State := closePages fun g => g.stack == st && g.pc == pc

/-- The latest reading of a stack's own sensor (R428, Table 21.1). -/
def stackSensor (s : State) (st : Nat) : Sensor := s.thermal.sensors.getD (32 + st) Reset.sensor

def isDoubled (s : State) (st : Nat) : Bool := s.hbm.doubled.getD st false

/-- Entering doubled mode, each debt d becomes 2d in the new interval and is repaid ahead of all traffic; leaving it,
each becomes half, rounded up (R429). -/
def setDoubled (st : Nat) (on : Bool) (s : State) : State :=
  let mine := s.hbm.debts.filter fun d => d.stack = st
  let most := if on then mine.foldl (fun m d => max m (2 * d.debt)) 0 else 0
  let s := if on then closePages (fun g => mine.any fun d => d.stack == g.stack && d.pc == g.pc) s else s
  let s := modHbm (fun h => { h with
    doubled := upd h.doubled st fun _ => on
    debts := if on then h.debts.filter fun d => d.stack ≠ st
             else h.debts.map fun d => if d.stack = st then { d with debt := ceilDiv d.debt 2 } else d }) s
  record (hbmUnit st) 0x1202 (u8 st ++ u8 (bit on) ++ u16 most) s

/-- The refresh mode follows the stack's temperature: doubled from 85 °C or with the sensor suspect, normal after 10 ms
below 82 °C (Table 18.3).  During a move the change waits for the exit of self-refresh (R443). -/
def refreshMode (st : Nat) (s : State) : State :=
  let x := stackSensor s st
  let cool := decide (x.temp < 82 * 256) && !x.suspect
  let since := if cool then some ((s.hbm.coolSince.getD st none).getD s.now) else none
  if !hbmPowered s then s else
  let s := modHbm (fun h => { h with coolSince := upd h.coolSince st fun _ => since }) s
  if s.hbm.moving.isSome || !(x.seen || x.suspect) then s
  else if isDoubled s st then
    if cool && since.any (fun t => decide (t + 10 * msec ≤ s.now)) then setDoubled st false s else s
  else if decide (85 * 256 ≤ x.temp) || x.suspect then setDoubled st true s else s

/-- A pseudo-channel is frozen (R436). -/
def isFrozenPc (s : State) (st pc : Nat) : Bool := s.hbm.frozen.any fun f => f.stack == st && f.pc == pc

/-- t_REFI of a pseudo-channel in stamp units (Table 18.3); a frozen one is refreshed at the doubled interval (R436). -/
def refInterval (s : State) (st pc : Nat) : Nat := if isDoubled s st || isFrozenPc s st pc then 7800 else 15600

/-- The next refresh of a pseudo-channel is due. -/
def refreshIsDue (s : State) (st pc : Nat) : Bool :=
  decide (s.hbm.refAt.getD (32 * st + pc) 0 + refInterval s st pc ≤ s.now)

/-- The postponement cap of Table 18.3; a frozen pseudo-channel never postpones (R436). -/
def refCap (s : State) (st pc : Nat) : Nat := if isFrozenPc s st pc then 0 else if isDoubled s st then 4 else 8

/-- The refresh of an interval is dealt with now. -/
def markRefresh (st pc : Nat) : State → State := fun s =>
  modHbm (fun h => { h with refAt := upd h.refAt (32 * st + pc) fun _ => s.now }) s

/-- A queue of the pseudo-channel holds a request now. -/
def markBusy (st pc : Nat) : State → State := fun s =>
  modHbm (fun h => { h with busyTill := upd h.busyTill (32 * st + pc) fun _ => s.now }) s

/-- The postponed debt of a pseudo-channel is repaid (R428). -/
def repayDebt (st pc : Nat) (s : State) : State := if debtOf s st pc = 0 then s else refreshPc st pc (setDebt st pc 0 s)

/-- A refresh that falls due: postponed while requests are queued, up to the cap; otherwise issued, and without a queue the
debt is repaid (R428). -/
def takeRefresh (st pc : Nat) (queued : Bool) (s : State) : State :=
  if queued then
    let s := markBusy st pc s
    if debtOf s st pc < refCap s st pc then setDebt st pc (debtOf s st pc + 1) s else refreshPc st pc s
  else refreshPc st pc (setDebt st pc 0 s)

/-- REFRESH_DUE: a refresh falls due on each interval t_REFI (R428); in self-refresh the stack refreshes by itself, and an unpowered one
not at all (R434, R435). -/
def refreshDueStep (st pc : Nat) (queued : Bool) (s : State) : State :=
  if s.hbm.selfRef ∨ !hbmPowered s ∨ !refreshIsDue s st pc then s else takeRefresh st pc queued (markRefresh st pc s)

def execRefreshDue (dt st pc : Nat) (queued : Bool) (s : State) : Res := .next (refreshDueStep st pc queued (tick dt s))

/-! ### Row disturbance and the schedule -/

/-- WIN in stamp units and THR of HBM_RD_CFG (Table 18.10). -/
def rdWindow (s : State) : Nat := max 1 (regField s 0x00B0000C 16 8) * 400000
def rdThr (s : State) : Nat := max 256 (regField s 0x00B0000C 0 16)

/-- At the start of a window, the multiples of its length, every count clears and every throttle ends (R430, R431). -/
def rollWindow (s : State) : State :=
  let w := s.now / rdWindow s * rdWindow s
  if s.hbm.window = w then s else modHbm (fun h => { h with rows := [], throttled := [], window := w }) s

/-- HBM_RD_WINDOW (R430). -/
def execHbmRdWindow (dt : Nat) (s : State) : Res := .next (rollWindow (tick dt s))

/-- The fields of Table 18.1 of a byte within its pseudo-channel: bank index 16 SID + 4 bank group + bank, and row. -/
def bankOf (apc : Nat) : Nat := 16 * (apc / 2 ^ 28) + 4 * bits apc 10 2 + bits apc 12 2
def rowOf (apc : Nat) : Nat := bits apc 14 14

/-- Stack, PC, SID, bank group, bank and row group, as the records of R431 carry them. -/
def rdDetail (st pc bank group : Nat) : List Byte :=
  u8 st ++ u8 pc ++ u8 (bank / 16) ++ u8 (bank / 4 % 4) ++ u8 (bank % 4) ++ u16 group

/-- A row group reaches THR: a targeted refresh of its neighbours; the first time in a window the port is throttled,
counted and recorded (R431).  The scrubber takes no idle slots (R443). -/
def rdHit (port : Nat) (c : RowCount) (s : State) : State :=
  let s := modHbm (fun h => { h with
    queued := h.queued ++ [{ stack := c.stack, pc := c.pc, bank := c.bank, group := c.group, tell := !c.told }]
    throttled := if port = 7 ∨ h.throttled.any (fun t => t.port = port ∧ t.stack = c.stack ∧ t.pc = c.pc) then h.throttled
                 else { port := port, stack := c.stack, pc := c.pc } :: h.throttled }) s
  if c.told then s
  else record (hbmUnit c.stack) 0x1203 (u8 port ++ rdDetail c.stack c.pc c.bank c.group)
    (modHbm (fun h => { h with throt := upd h.throt port bump }) s)

/-- One activate of a row counts in its row group (R430). -/
def rdCount (port st pc bank row : Nat) (s : State) : State :=
  let g := row / 16
  let here := fun r : RowCount => r.stack == st && r.pc == pc && r.bank == bank && r.group == g
  let c := (s.hbm.rows.find? here).getD { stack := st, pc := pc, bank := bank, group := g, count := 0, told := false }
  let n := c.count + 1
  let hit := decide (rdThr s ≤ n)
  let c' := { c with count := if hit then 0 else n, told := c.told || hit }
  let s' := modHbm (fun h => { h with rows := c' :: h.rows.filter fun r => !here r }) s
  if hit then rdHit port c s' else s'

/-- A targeted refresh is done; one that is not a row group's first in its window leaves no record (R431). -/
def targetDone (x : RdTarget) (s : State) : State :=
  let s := closePages (fun p => p.stack == x.stack && p.pc == x.pc && p.bank == x.bank) s
  if x.tell then record (hbmUnit x.stack) 0x1204 (rdDetail x.stack x.pc x.bank x.group) s else s

/-- The targeted refreshes that wait for a pseudo-channel are done, in order (R426). -/
def targetsFirst (st pc : Nat) (s : State) : State :=
  let here := fun x : RdTarget => x.stack == st && x.pc == pc
  let l := s.hbm.queued.filter here
  if l.isEmpty then s else forEach l targetDone (modHbm (fun h => { h with queued := h.queued.filter fun x => !here x }) s)

/-- The memory port of a traffic (Table 18.2). -/
def trafficPort : Traffic → Nat
  | .videoFrame | .hostPush => 0
  | .layerRead | .tableRead | .composedWrite | .vitrineRead => 1
  | .composedRead | .previousRead | .fieldRead | .planeWrite | .sampleWrite | .fieldWrite => 2
  | .planeRead | .retransmitRead => 3
  | .capture | .stampLog => 4
  | .bar4 | .exhWrite | .exhRead | .vitrineLoad | .vectorLoad | .sparingCopy => 5
  | .solverHistory | .ledgerStore | .startBuffer => 6
  | .scrub => 7

/-- T_p in stamp units: fixed for ports 0 to 3, HBM_PORTp_QOS for 4 to 6 (Table 18.2). -/
def latencyTarget (s : State) (p : Nat) : Nat :=
  if p < 4 then [16000, 8000, 8000, 4000].getD p 0 else 400 * regField s (0x00B00100 + 4 * p) 0 16

/-- Urgency of a request of a port at an age (R425). -/
def urgency (s : State) (p age : Nat) : Nat :=
  let t := latencyTarget s p
  let u := if 2 * age < t then 0 else if 4 * age < 3 * t then 1 else if age < t then 2 else 3
  if p = 7 then 0 else if 4 ≤ p then min 2 u else u

/-- A request is served: a page hit, or an activate that opens its row (R426, R427, R430). -/
def accessBank (port st pc bank row : Nat) (s : State) : State :=
  let here := fun g : OpenPage => g.stack == st && g.pc == pc && g.bank == bank
  let idle := 4 * regField s 0x00B00008 0 12
  let hit := s.hbm.pages.any fun g => here g && g.row == row && decide (s.now < g.last + idle)
  let s := closePages here s
  let s := if idle = 0 then s
    else modHbm (fun h => { h with pages := { stack := st, pc := pc, bank := bank, row := row, last := s.now } :: h.pages }) s
  if hit then s
  else rdCount port st pc bank row (modHbm (fun h => { h with
    lastBank := (st, pc, bank) :: h.lastBank.filter fun b => !(b.1 == st && b.2.1 == pc) }) s)

/-- The refreshes that go before a request which came at `arrived`: the debt, where the queues have stood empty since it was postponed;
a refresh that is due and can be postponed no longer, or before the scrubber any that is due; and targeted ones (R426, R428). -/
def refreshFirst (st pc arrived : Nat) (scrub : Bool) (s : State) : State :=
  let s := if s.hbm.busyTill.getD (32 * st + pc) 0 < arrived then repayDebt st pc s else s
  let s := if refreshIsDue s st pc && (scrub || decide (refCap s st pc ≤ debtOf s st pc)) then refreshPc st pc (markRefresh st pc s) else s
  targetsFirst st pc s

/-- Stored bits of HBM bytes have flipped. -/
def flipAll (l : List (Nat × Nat)) (s : State) : State := forEach (l.filter fun e => decide (e.1 < usable s)) (fun e => flipByte e.1 e.2) s

/-- A request of an age is served, after the refreshes that go before it; a read finds what its bytes hold (R425 to R427, R472).  A
frozen pseudo-channel answers it under Table 18.5 without an access. -/
def accessReq (r : MemReq) (age : Nat) (s : State) : State :=
  let x := decodeAddr s r.addr
  let e := pcOf s r.addr
  let p := trafficPort r.traffic
  if e.frozen then s
  else
    let s := rollWindow s
    let s := if urgency s p age = 3 then modHbm (fun h => { h with urg3 := upd h.urg3 p bump }) s else s
    let s := refreshFirst e.stack e.pc (s.now - age) (p == 7) s
    let s := markBusy e.stack e.pc (accessBank p e.stack e.pc (bankOf x.2) (rowOf x.2) s)
    if r.write then s else noteRead r.unit_ r.addr r.len s

/-- The age of a request that waits. -/
def ageOf (s : State) (w : MemReq × Nat) : Nat := w.1.age + (s.now - w.2)

/-- Stack, PC and bank of a request. -/
def bankKey (s : State) (r : MemReq) : Nat × Nat × Nat :=
  ((pcOf s r.addr).stack, (pcOf s r.addr).pc, bankOf (decodeAddr s r.addr).2)

/-- The rank of a request in the order of R426: scrubber last, the highest urgency, a page hit before a miss, then the bank
that follows the last activated one in rotation over the 48. -/
def serveRank (s : State) (w : MemReq × Nat) : Nat :=
  let (st, pc, bank) := bankKey s w.1
  let p := trafficPort w.1.traffic
  let hit := s.hbm.pages.any fun g => g.stack = st ∧ g.pc = pc ∧ g.bank = bank ∧ g.row = rowOf (decodeAddr s w.1.addr).2
  let last := ((s.hbm.lastBank.find? fun b => b.1 = st ∧ b.2.1 = pc).map (·.2.2)).getD 47
  ((4 * bit (p == 7) + (3 - urgency s p (ageOf s w))) * 2 + bit (!hit)) * 48 + (bank + 47 - last) % 48

/-- The requests a pseudo-channel's queues hold, 16 in each bank in the order of arrival; the others wait in their ports
(R426). -/
def candidates (s : State) (l : List (MemReq × Nat)) : List (MemReq × Nat) :=
  l.foldl (fun q w => if 16 ≤ (q.filter fun x => bankKey s x.1 == bankKey s w.1).length then q else q ++ [w]) []

/-- The next waiting request served: the best rank, and the oldest of it (R426). -/
def nextWaiting (s : State) : Option (MemReq × Nat) :=
  (candidates s s.hbm.waiting).foldl (fun b w => match b with
    | none => some w
    | some v => if serveRank s w < serveRank s v ∨ (serveRank s w = serveRank s v ∧ ageOf s v < ageOf s w) then some w
                else some v) none

/-- The requests that wait are served in the order of R426. -/
def serveWaiting (s : State) : State :=
  forEach s.hbm.waiting (fun _ s => (nextWaiting s).elim s fun w =>
    accessReq w.1 (ageOf s w) (modHbm (fun h => { h with waiting := h.waiting.erase w }) s)) s

/-- Requests that stand in their ports and queues together are served in the order of R426; while the stacks are in self-refresh they
wait, and are served with those that stand there after it (R434, R435; DESIGN CHOICE, notes/assumptions/90.md). -/
def hbmServe (l : List MemReq) (s : State) : State :=
  if !hbmPowered s then s
  else
    let s := flipAll (l.flatMap (·.flips)) s
    let l := l.filter fun r => decide (r.addr < usable s)
    let s := modHbm (fun h => { h with waiting := h.waiting ++ l.map fun r => (r, s.now) }) s
    if s.hbm.selfRef then s else serveWaiting s

/-- The unit that owns a register of BAR0: the function of its block (Table 1.1; DESIGN CHOICE, notes/assumptions/119.md). -/
def regUnit (off : Nat) : Nat :=
  match off / 0x100000 with
  | 1 => 3
  | 2 => if off < 0x00200200 then 0xA + (off / 64) % 4 else 0xE + (off / 256) % 2
  | 3 => 2
  | 4 => 0x10 + off / 0x1000 % 8
  | 5 => 4
  | 6 => 0x10 + off / 0x1000 % 8
  | 7 => 0x18 + off / 0x100 % 16
  | 8 => 0x10 + off / 0x100 % 8
  | 9 => 0x10 + off / 0x100 % 8
  | 10 => 8
  | 11 => 5
  | 12 => 1
  | 13 => 7
  | 14 => 0x2C
  | 15 => 0x28
  | 16 => 9
  | 17 => 0
  | 18 => 1
  | 19 => 0x2E
  | _ => 0

/-- The address that a stored byte has under another grain: its slot and place in the pseudo-channel stay (R421, R423). -/
def movedAddr (s : State) (g a : Nat) : Nat :=
  let x := decodeAddr s a
  (x.2 / 2 ^ g * max 1 s.hbm.m + x.1) * 2 ^ g + x.2 % 2 ^ g

/-- Stored bytes under another grain, in canonical form. -/
def regrain (s : State) (g : Nat) (l : List (Nat × Byte)) : List (Nat × Byte) :=
  l.foldl (fun m e => putCell (movedAddr s g e.1) e.2 m) []

/-- Stored bytes keep their places in the pseudo-channels under the GRAIN of a new value of HBM_CFG (R421, R423). -/
def setGrain (w : Nat) (s : State) : State :=
  let g := bits w 0 4
  if g = regField s 0x00B00004 0 4 then s
  else modHbm (fun h => { h with cells := regrain s g h.cells, lanes := regrain s g h.lanes }) s

/-- A register whose SRAM copy the owning unit reads as uncorrectable takes its reset value: SHADOW_LOST (R474). -/
def shadowLost (off unit_ : Nat) (s : State) : State :=
  record unit_ 0x1406 (u32 off) (setRaw off (regReset off) (if off = 0x00B00004 then setGrain (regReset off).toNat s else s))

/-- A register whose SRAM copy reads as uncorrectable: a completer abort to the host, or SHADOW_LOST where the owning unit reads it
(R474). -/
def regLost (off : Nat) (host : Bool) (unit_ : Nat) (s : State) : State := if host then emit (.abort off) s else shadowLost off unit_ s

/-- A request to a pool of SRAM: a write leaves its bytes without error, a read finds what they hold (R471, R472, R474). -/
def poolServe (r : MemReq) (p : Nat) (s : State) : State :=
  let s := forEach r.flips (fun e => flipPool p e.1 e.2) s
  if r.write then forEach (poolCells s p r.addr r.len) (fun o => setPoolBits p o 0) s
  else
    let lost := !(poolBad s p r.addr r.len).isEmpty
    let s := notePool p r.unit_ r.addr r.len s
    match r.reg with
    | some (off, host) =>
      if !lost then s
      else if host then regLost off true r.unit_ s
      else regLost off false r.unit_ (forEach (poolCells s p r.addr r.len) (fun o => setPoolBits p o 0) s)
    | none => s

/-- MEMORY_REQUEST (R424 to R428, R431, R472 to R474, R477): requests that stand together, those of the pools first. -/
def execMemoryRequest (dt : Nat) (r : List MemReq) (s : State) : Res :=
  let s := forEach r (fun x s => x.pool.elim s fun p => poolServe x p s) (tick dt s)
  .next (hbmServe (r.filter (·.pool.isNone)) s)

/-- HBM_RD_NEIGHBOUR: the first targeted refresh waiting is done (R431). -/
def execHbmRdNeighbour (dt : Nat) (s : State) : Res :=
  let s := tick dt s
  .next (match s.hbm.queued with
    | [] => s
    | x :: rest => if s.hbm.selfRef then s else targetDone x (modHbm (fun h => { h with queued := rest }) s))

/-- PAGE_IDLE_CLOSE: a page without a hit for HBM_PAGE.IDLE closes (R427). -/
def execPageIdleClose (dt st pc bank : Nat) (s : State) : Res :=
  let s := tick dt s
  let idle := 4 * regField s 0x00B00008 0 12
  .next (closePages (fun g => g.stack == st && g.pc == pc && g.bank == bank && decide (g.last + idle ≤ s.now)) s)

/-! ### Frequency points -/

/-- A FREQ_SET whose commanded point has taken effect completes when the point in force has reached its final value
(R433, R434). -/
def settleFreq (s : State) : State :=
  match s.hbm.pendFreq with
  | some (d, p, at_) =>
    if at_ ≤ s.now ∧ s.hbm.commanded = p ∧ s.hbm.moving.isNone ∧ calledFp s = s.hbm.fp then
      let s := modHbm (fun h => { h with pendFreq := none }) s
      if s.hbm.fp = p then complete d 0 [] s else complete d 1 (u8 s.hbm.fp) s
    else s
  | none => s

/-- The point called for may have changed for a cause of R201: the work is priced at it, and a move follows (R432, R434
step 1). -/
def pointChanged (cause : Nat) (s : State) : State :=
  settleFreq (reprice cause (modHbm (fun h => { h with why := cause }) s))

/-- The commanded point of a FREQ_SET takes effect at AT (R433). -/
def takeCommand (s : State) : State :=
  match s.hbm.pendFreq with
  | some (_, p, at_) =>
    if at_ ≤ s.now ∧ s.hbm.commanded ≠ p then pointChanged 4 (modHbm (fun h => { h with commanded := p }) s) else s
  | none => s

/-- The timing set of a point holds trained results. -/
def tsValid (s : State) (p : Nat) : Bool := s.hbm.tsValid.getD p false

def freqSetAct (d : Desc) (s : State) : State :=
  orElseDo d (firstBad
      [(decide (3 < d.p8 16), 0x1280, u16 16),
       ((firstNonZero d (span 17 23 ++ span 32 63)).isSome, 0x1280, u16 ((firstNonZero d (span 17 23 ++ span 32 63)).getD 0)),
       (!tsValid s (d.p8 16), 0x1281, u8 (d.p8 16)),
       (s.hbm.pendFreq.isSome, 0x1282, u32 (s.hbm.pendFreq.elim 0 (·.1.tag)))])
    (fun s => settleFreq (takeCommand (modHbm (fun h => { h with pendFreq := some (d, d.p8 16, d.p64 24) }) s))) s

/-- FREQ_SET (R433). -/
def execFreqSet (dt : Nat) (d : Desc) (s : State) : Res :=
  .next (runDesc (specI3 0x1001 []) d noBad noOver freqSetAct (tick dt s))

/-- A running session suspends after its step (R450). -/
def suspendSessions (s : State) : State :=
  let p := s.hbm.fp
  let run := s.training.sessions.filter fun x => !x.suspended
  let s := { s with training := { s.training with
    sessions := s.training.sessions.map fun x =>
      if x.suspended then x else { x with suspended := true, susps := x.susps + 1, steps := x.stepsAt s.now } } }
  let tell := fun (st pc owner : Nat) (s : State) =>
    let s := if isLatest s st pc then restSession 2 s else s
    record 1 0x1302 (u8 st ++ u8 pc ++ u8 p ++ u8 owner) { s with training := { s.training with susp := bump s.training.susp } }
  let s := forEach run (fun x => tell x.stack x.pc 1) s
  let diag := s.hbm.jobs.filter fun j => j.running && j.sparing.isNone
  forEach diag (fun j => tell j.stack j.pc 0) s

/-- HBM_FREQ_MOVE: a FREQ_SET takes effect at AT; the move begins once the work it revoked has stopped: every page
closes and both stacks enter self-refresh (R434 steps 2 and 3). -/
def freqMove (s : State) : State :=
  let s := takeCommand s
  let q := calledFp s
  if s.hbm.moving.isSome ∨ q = s.hbm.fp ∨ s.hbm.m = 0 ∨ s.startup.running ∨ (s.hbm.fp < q ∧ anyLeaving s) then settleFreq s
  else
    modHbm (fun h => { h with moving := some (q, h.why), selfRef := true, pages := [], debts := [] })
      (suspendSessions (takeShrink s))

def execHbmFreqMove (dt : Nat) (s : State) : Res := .next (freqMove (tick dt s))

/-- The latest session started or resumed, as TRN_STAT reports it (Table 19.8). -/
def noteSession (owner point st pc action : Nat) (s : State) : State :=
  { s with training := { s.training with state := 1, owner := owner, point := point, stack := st, pc := pc, action := action,
                                         steps := 0, since := s.now, pace := s.free }
           free := s.free + 1 }

/-- Suspended sessions of the point now in force resume; a diagnosis begins anew (R450, R451). -/
def resumeSessions (s : State) : State :=
  let p := s.hbm.fp
  let mine := s.training.sessions.filter fun x => x.suspended && x.point == p
  let s := { s with training := { s.training with
    sessions := s.training.sessions.map fun x =>
      if x.point = p ∧ x.suspended then { x with suspended := false, since := s.now } else x } }
  let s := forEach mine (fun x s =>
    let s := if isLatest s x.stack x.pc then { s with training := { s.training with state := 1, since := s.now } } else s
    record 1 0x1303 (u8 x.stack ++ u8 x.pc ++ u8 p ++ u8 1) s) s
  forEach (s.hbm.jobs.filter fun j => j.running && j.sparing.isNone) (fun j => noteSession 0 p j.stack j.pc 0) s

/-- The stacks leave self-refresh at the new point, capacities rise, refresh modes follow the
temperatures, sessions resume, a FREQ_SET completes, and the requests that waited are served (R433, R434 steps 4 and 5, R443, R450). -/
def freqChanged (s : State) : State :=
  match s.hbm.moving with
  | none => s
  | some (q, cause) =>
    let p := s.hbm.fp
    let s := modHbm (fun h => { h with moving := none, fp := q, selfRef := decide (s.power.state = .p2), debts := [] }) s
    let s := reprice cause s
    let s := record (hbmUnit 0) 0x1201 (u8 p ++ u8 q ++ u8 cause) s
    let s := settleFreq (resumeSessions (refreshMode 1 (refreshMode 0 s)))
    if s.hbm.selfRef then s else serveWaiting s

/-! ### The map -/

/-- The slot that maps to a pseudo-channel. -/
def slotOfPc (s : State) (st pc : Nat) : Option Nat :=
  (s.hbm.map.take s.hbm.m).findIdx? fun e => e.stack = st ∧ e.pc = pc

/-- A range has a grain block in a slot (R421). -/
def touchesSlot (s : State) (i a n : Nat) : Bool := (blocksOf s a n).any fun b => (decodeAddr s b).1 == i

/-- Every byte of a slot reads zero (R442, R456). -/
def zeroSlot (i : Nat) (s : State) : State :=
  modHbm (fun h => { h with
    cells := h.cells.filter fun e => (decodeAddr s e.1).1 ≠ i
    lanes := h.lanes.filter fun e => (decodeAddr s e.1).1 ≠ i }) s

/-- The addresses of a slot within a range, one grain block after another. -/
def slotAddrs (s : State) (i a n : Nat) : List Nat :=
  let g := 2 ^ regField s 0x00B00004 0 4
  let m := max 1 s.hbm.m
  (List.range (n / g + 2)).flatMap fun j =>
    let b := a / g + j
    if b % m = i ∧ a ≤ b * g ∧ b * g < a + n then (List.range g).map fun o => b * g + o else []

/-! ### Freeze and safe-dark -/

/-- Stores of the Recipes that govern a head now: its plane or sample stores in force (R438). -/
def storesInForce (s : State) (k : Nat) : List Nat :=
  let h := headOf s k
  (h.press.recipe.toList.flatMap (·.stores)) ++ (h.press.old.flatMap fun r => r.2.1.stores)

/-- The configured heads with a store in a slot. -/
def headsIn (s : State) (i : Nat) : List Nat :=
  (List.range 8).filter fun k => configured s k && (storesInForce s k).any fun e =>
    let r := exhRange s e
    touchesSlot s i r.1 r.2

/-- The channels in a PRIM_CHAN of the head's Recipes in force or pending (R438). -/
def litChans (s : State) (k : Nat) : Nat :=
  let p := (headOf s k).press
  ((p.recipe.toList ++ p.old.map (·.2.1) ++ p.pending.toList.map (·.1)).flatMap (·.chans)).foldl (· ||| ·) 0

/-- A head goes safe-dark: its lit channels are held at R_DARK; plane ports send PARK, a scan-line port stops its pass
marks, and neither sends a plane again (R438). -/
def safeDark (k : Nat) (s : State) : State :=
  let c := (headOf s k).pipe.cfg
  let s := forEach (bitsOf (litChans s k) 48) (fun x => modChan x fun ch => { ch with held := ch.cfg.map fun _ => s.now }) s
  let mine := (bitsOf (c.elim 0 (·.ports)) 16).filter fun p => (portOf s p).owner == some k
  let s := forEach mine (fun p => modPort p fun o => { o with queue := [] }) s
  let s := modPipe k (fun p => { p with safeDark := true }) s
  if c.any (·.scan) then s else parkPorts (maskOf mine) 7 s

/-- No diagnosis or sparing is under way. -/
def diagIdle (s : State) : Bool := !s.hbm.jobs.any (·.running)

/-- The diagnosis of the first waiting job begins (R440), unless a helper's session still runs on that pseudo-channel (R446; DEDUCED,
notes/assumptions/91.md). -/
def nextDiag (s : State) : State :=
  if diagIdle s then
    match s.hbm.jobs with
    | [] => s
    | j :: l =>
      if s.training.sessions.any fun x => x.stack == j.stack && x.pc == j.pc then s
      else noteSession 0 s.hbm.fp j.stack j.pc 0 (modHbm (fun h => { h with jobs := { j with running := true } :: l }) s)
  else s

def addJob (st pc action : Nat) (d : Option Desc) (s : State) : State :=
  nextDiag (modHbm (fun h => { h with jobs := h.jobs ++
    [{ stack := st, pc := pc, action := action, desc := d, running := false, sparing := none }] }) s)

/-- A pseudo-channel freezes (R436 to R440). -/
def freezePc (st pc cause cmd : Nat) (s : State) : State :=
  let slot := slotOfPc s st pc
  let free := s.hbm.reserves.contains (st, pc)
  if (slot.isNone && !free) || isFrozenPc s st pc || !hbmPowered s || (s.hbm.selfRef && s.hbm.moving.isNone) then s
  else
    let s := modHbm (fun h => { h with
      frozen := h.frozen ++ [{ stack := st, pc := pc, diagnosed := false, lost := false }]
      map := slot.elim h.map fun i => upd h.map i fun e => { e with frozen := true }
      reserves := h.reserves.filter (· ≠ (st, pc))
      debts := h.debts.filter fun d => !(d.stack == st && d.pc == pc)
      throttled := h.throttled.filter fun t => !(t.stack == st && t.pc == pc)
      queued := h.queued.filter fun t => !(t.stack == st && t.pc == pc)
      pages := h.pages.filter fun g => !(g.stack == st && g.pc == pc) }) s
    let s := { s with wear := { s.wear with freezes := bump s.wear.freezes } }
    let s := abortSessions (fun x => x.stack == st && x.pc == pc) s
    let s := raiseCause true 1 <| raiseCause false 1 (record (hbmUnit st) 0x1205 (u8 st ++ u8 pc ++ u8 cause ++ u8 cmd) s)
    let s := match slot with
      | none => s
      | some i =>
        let ks := headsIn s i
        let s := forEach ks safeDark s
        let s := if ks.isEmpty then s else record (hbmUnit st) 0x1206 (u8 (maskOf ks) ++ u8 st ++ u8 pc) s
        let s := revokeAll false false s.now 0xFF 3 (fun i => match i.kind with
          | .head k => ks.contains k
          | _ => false) s
        repriceNow 3 s
    serviceStep (addJob st pc 3 none s)

/-- HBM_PARITY_FAIL (R436 to R440). -/
def execHbmParityFail (dt st pc cause cmd : Nat) (s : State) : Res := .next (freezePc st pc cause cmd (tick dt s))

/-! ### Diagnosis and sparing -/

/-- The reserve taken for a pseudo-channel of a stack: the same stack's first (R440). -/
def reserveFor (s : State) (st : Nat) : Option (Nat × Nat) :=
  (s.hbm.reserves.find? fun r => r.1 = st).orElse fun _ => s.hbm.reserves.head?

/-- The running job. -/
def runningJob (s : State) : Option DiagJob := s.hbm.jobs.find? (·.running)

/-- The running job ends; the next one waiting begins. -/
def endJob (s : State) : State := nextDiag (modHbm (fun h => { h with jobs := h.jobs.filter fun j => !j.running }) s)

/-- A diagnosis passes: the pseudo-channel is unfrozen, and a reserve is free again (R436, R440).  Contents marked lost
under R456 read as uncorrectable, as do the bytes a repair could not read. -/
def unfreeze (st pc : Nat) (bad : List Nat) (s : State) : State :=
  let slot := slotOfPc s st pc
  let lost := s.hbm.frozen.any fun f => f.stack == st && f.pc == pc && f.lost
  let s := modHbm (fun h => { h with
    frozen := h.frozen.filter fun f => !(f.stack == st && f.pc == pc)
    patterns := h.patterns.filter fun x => x.pc ≠ 32 * st + pc
    map := slot.elim h.map fun i => upd h.map i fun e => { e with frozen := false }
    reserves := if slot.isNone then h.reserves ++ [(st, pc)] else h.reserves }) s
  let s := markBad bad (if lost then slot.elim s fun i => markBad (slotAddrs s i 0 (usable s)) s else s)
  reprice 3 (record (hbmUnit st) 0x1209 (u8 st ++ u8 pc) s)

/-- Repair rows used of a bank group and SID of a pseudo-channel. -/
def pprUsed (s : State) (st pc g : Nat) : Nat := (getKey (12 * (32 * st + pc) + g) s.wear.pprRows).getD 0

/-- The failing rows, each by its bank group and SID, are no more than the free repair rows there, two of each (R538, R539). -/
def pprFits (s : State) (st pc : Nat) (rows : List Nat) : Bool :=
  rows.all (· < 12) && (List.range 12).all fun g => decide (pprUsed s st pc g + rows.count g ≤ 2)

/-- Rows of a pseudo-channel are repaired: PPR_DONE (R539). -/
def usePpr (st pc : Nat) (rows : List Nat) (s : State) : State :=
  let used := min 24 (s.wear.ppr.getD (32 * st + pc) 0 + rows.length)
  let s := { s with wear := { s.wear with
    ppr := upd s.wear.ppr (32 * st + pc) fun _ => used
    pprRows := rows.foldl (fun l g => let k := 12 * (32 * st + pc) + g; setKey k ((getKey k l).getD 0 + 1) l) s.wear.pprRows } }
  record 1 0x1802 (u8 st ++ u8 pc ++ u8 rows.length ++ u8 (24 - used)) s

/-- DETAIL of CHANNEL_SPARE: outcome, reserve stack and PC; 0xFF where none was used (R441). -/
def spareDetail (outcome : Nat) (r : Option (Nat × Nat)) : List Byte :=
  u8 outcome ++ u8 (r.elim 0xFF (·.1)) ++ u8 (r.elim 0xFF (·.2))

def completeJob (j : DiagJob) (det : List Byte) (s : State) : State :=
  j.desc.elim s fun d => if owes d s then complete d 0 det s else s

/-- A diagnosis finishes (R440): unfrozen, sparing begins, or frozen until the next reset. -/
def diagDone (r : DiagResult) (j : DiagJob) (s : State) : State :=
  let tell := fun o : Nat => record (hbmUnit j.stack) 0x1207 (u8 j.stack ++ u8 j.pc ++ u8 o)
  let s := if isLatest s j.stack j.pc then restSession 0 s else s
  let repair := r.pprRows.filter (pprFits s j.stack j.pc)
  if r.retrain && (r.pattern || repair.isSome) then
    let mine := r.unreadable.filter fun a => (pcOf s a).stack == j.stack && (pcOf s a).pc == j.pc
    let s := if r.pattern then s else repair.elim s fun l => usePpr j.stack j.pc l s
    completeJob j (spareDetail 1 none) (endJob (unfreeze j.stack j.pc (if r.pattern then [] else mine) (tell 1 s)))
  else
    match (if j.action = 3 ∧ (slotOfPc s j.stack j.pc).isSome ∧ regField s 0x00B00004 4 1 = 1 then reserveFor s j.stack
           else none) with
    | some x =>
      modHbm (fun h => { h with
        reserves := h.reserves.filter (· ≠ x)
        jobs := h.jobs.map fun q => if q.running then { q with sparing := some x } else q }) (tell 2 s)
    | none =>
      let s := modHbm (fun h => { h with frozen := h.frozen.map fun f =>
        if f.stack = j.stack ∧ f.pc = j.pc then { f with diagnosed := true } else f }) (tell 3 s)
      completeJob j (spareDetail 3 none) (endJob s)

/-- HBM_DIAG_DONE: the diagnosis under way finishes; during a move it is closed and begins anew (R440, R451, R539). -/
def execHbmDiagDone (dt : Nat) (r : DiagResult) (s : State) : Res :=
  let s := tick dt s
  .next (match runningJob s with
    | some j => if j.sparing.isNone && s.hbm.moving.isNone then serviceStep (diagDone r j s) else s
    | none => s)

/-- Without copy the reserve reads zero, but every block of the Vitrine region marked bad (R442). -/
def spareBlank (i : Nat) (s : State) : State := markBad (slotAddrs s i (vitBase s) 3221225472) (zeroSlot i s)

/-- Sparing ends: contents, the map entry, the receiving stack's capacity, HBM_SPARED (R442). -/
def sparedDone (unreadable : List Nat) (j : DiagJob) (x : Nat × Nat) (s : State) : State :=
  match slotOfPc s j.stack j.pc with
  | none => endJob s
  | some i =>
    let lost := s.hbm.frozen.any fun f => f.stack == j.stack && f.pc == j.pc && f.lost
    let mine := unreadable.filter fun a => (decodeAddr s a).1 == i
    let bad := ((badAddrs s 0 (usable s)).filter fun a => (decodeAddr s a).1 == i && !mine.contains a).length + mine.eraseDups.length
    let blank := lost || j.action == 2
    let n := if lost then 805306368 else if j.action = 2 then 0 else bad
    let s := modHbm (fun h => { h with
      map := upd h.map i fun _ => { stack := x.1, pc := x.2, frozen := false, reserve := true }
      frozen := h.frozen.filter fun f => !(f.stack == j.stack && f.pc == j.pc) }) s
    let s := if blank then spareBlank i s else markBad mine s
    let s := record (hbmUnit j.stack) 0x1208 (u8 j.stack ++ u8 j.pc ++ u8 x.1 ++ u8 x.2 ++ u32 n) s
    serviceStep (completeJob j (spareDetail 2 (some x)) (endJob (repriceNow 3 s)))

/-- HBM_SPARED: the sparing under way finishes, with the addresses the copy could not read (R442). -/
def execHbmSpared (dt : Nat) (unreadable : List Nat) (s : State) : Res :=
  let s := tick dt s
  .next (match runningJob s with
    | some j => (match j.sparing with
      | some x => if s.hbm.moving.isSome then s else sparedDone unreadable j x s
      | none => s)
    | none => s)

/-- The pseudo-channel SPARE_BUSY names: the one running, else the first waiting (R441). -/
def busyPc (s : State) : List Byte :=
  ((runningJob s).orElse fun _ => s.hbm.jobs.head?).elim [] fun j => u8 j.stack ++ u8 j.pc

def spareBad (d : Desc) (_ : State) : Option (List Byte) :=
  badField [(decide (1 < d.p8 16), 16), (decide (31 < d.p8 17), 17), (decide (2 < d.p8 18), 18)]

def spareAct (d : Desc) (s : State) : State :=
  let st := d.p8 16
  let pc := d.p8 17
  let a := d.p8 18
  orElseDo d (firstBad
      [(!isFrozenPc s st pc, 0x1283, u8 st ++ u8 pc),
       (!s.hbm.jobs.isEmpty, 0x1284, busyPc s),
       (a ≠ 0 && (s.hbm.reserves.isEmpty || (slotOfPc s st pc).isNone), 0x1285, [])])
    (fun s =>
      if a = 0 then addJob st pc 0 (some d) s
      else
        let x := (reserveFor s st).getD (0, 0)
        modHbm (fun h => { h with
          reserves := h.reserves.filter (· ≠ x)
          jobs := [{ stack := st, pc := pc, action := a, desc := some d, running := true, sparing := some x }] }) s) s

/-- CHANNEL_SPARE (R441). -/
def execChannelSpare (dt : Nat) (d : Desc) (s : State) : Res :=
  .next (runDesc (specI3 0x1002 (span 19 63)) d spareBad noOver spareAct (tick dt s))

/-! ### HBM_CFG -/

/-- A Vitrine in the reset state of R222, its banks zero among it. -/
def vitReset (s : State) (k : Nat) : Bool :=
  let v := (headOf s k).vit
  let base := vitBase s + k * 0x18000000
  !v.content && !v.mask && v.bank == 0 && !v.loaded && v.factors.all (fun f => f.all fun x => x == 4096) &&
    !(s.hbm.cells ++ s.hbm.lanes).any fun e => decide (base ≤ e.1) && decide (e.1 < base + 0x18000000)

/-- A write of HBM_CFG: applied only with GRAIN from 8 to 16, no exhibit registered and every Vitrine in reset; otherwise it is
discarded and recorded.  After set-up lock RWL discards it (R118, R423). -/
def cfgWrite (w : Word) (s : State) : State :=
  let off := 0x00B00004
  if s.host.locked then (if rwlChanged off off w s then rwlRecord 0 off w.toNat s else s)
  else if decide (8 ≤ bits w.toNat 0 4) && s.adm.exhibits.isEmpty && (List.range 8).all (vitReset s) then
    setRaw off (wordOf (w.toNat % 32)) (setGrain w.toNat s)
  else record (hbmUnit 0) 0x120A (u32 w.toNat) s

/-- HBM_CFG_WRITE (R423). -/
def execHbmCfgWrite (dt : Nat) (w : Word) (s : State) : Res := .next (cfgWrite w (tick dt s))

end Sys2Proof.Machine
end

