-- ==== Sys2Proof/Machine/Thermal.lean ====
section
/-!
DEFINITION. Thermal sensing and protection (chapter 21): the cross-check of sensors (R487), zone temperatures and
thresholds (R488 to R490), the throttle factor θ (R491, R492), the critical stop and the hard trip (R493 to R495), and
meanings of their commands.
-/

namespace Sys2Proof.Machine

/-- Warning, throttle, critical and hard-trip thresholds of a zone in 1/256 °C (Table 21.2). -/
def zoneLimits (z : Nat) : List Int :=
  (if z = 4 ∨ z = 5 then [90, 95, 100, 105] else if z = 7 then [80, 85, 95, 105] else [95, 100, 110, 120]).map (· * 256)

def limitOf (z i : Nat) : Int := (zoneLimits z).getD i 0

def sensorOf (s : State) (x : Nat) : Sensor := s.thermal.sensors.getD x Reset.sensor
def modSensor (x : Nat) (f : Sensor → Sensor) (s : State) : State :=
  { s with thermal := { s.thermal with sensors := upd s.thermal.sensors x f } }
def zoneOf (s : State) (z : Nat) : Zone := s.thermal.zones.getD z Reset.zone
def modZone (z : Nat) (f : Zone → Zone) (s : State) : State :=
  { s with thermal := { s.thermal with zones := upd s.thermal.zones z f } }

/-- The largest of a list of temperatures. -/
def hottest : List Int → Option Int
  | [] => none
  | x :: l => some (l.foldl max x)

/-- The zone temperature: the highest latest reading among the sensors that are not suspect; a blind zone's is its
throttle threshold (R488). -/
def zoneTemp (s : State) (z : Nat) : Int :=
  if (zoneSensors z).all (suspect s) then limitOf z 1
  else (hottest (((zoneSensors z).filter fun x => !suspect s x && (sensorOf s x).seen).map fun x => (sensorOf s x).temp)).getD 0

/-- Insert in rising order. -/
def insertInt (x : Int) : List Int → List Int
  | [] => [x]
  | y :: l => if x ≤ y then x :: y :: l else y :: insertInt x l

/-- The median; of an even count, the mean of the middle two rounded down. -/
def median (l : List Int) : Int :=
  let r := l.foldr insertInt []
  let n := r.length
  if n % 2 = 1 then r.getD (n / 2) 0 else (r.getD (n / 2 - 1) 0 + r.getD (n / 2) 0) / 2

/-- T_n + δ(s, n) over the neighbours that are not suspect and have been read; none below three (R487). -/
def neighbourMedian (s : State) (x : Nat) : Option Int :=
  let l := ((Config.neighbours x).filter fun n => !suspect s n.1 && (sensorOf s n.1).seen).map fun n => (sensorOf s n.1).temp + n.2
  if l.length < 3 then none else some (median l)

/-- One reading is cross-checked: deviant beyond 6 °C; suspect after 16 in a row (R487). -/
def crossCheck (x : Nat) (temp : Int) (s : State) : State :=
  match neighbourMedian s x with
  | none => s
  | some m =>
    let o := sensorOf s x
    let n := if 1536 < (temp - m).natAbs then min 16 (o.deviant + 1) else 0
    let s := modSensor x (fun y => { y with deviant := n, suspect := y.suspect || n == 16 }) s
    if n = 16 ∧ !o.suspect then record 0x2C 0x1506 (u8 x ++ u24 0 ++ s32 temp ++ s32 m) s else s

/-! ### θ -/

/-- θ changes: THERM_THROTTLE, the capacities and one pass with cause 2 (R491, R492). -/
def setTheta (z v : Nat) (s : State) : State :=
  let o := (zoneOf s z).theta
  if o = v then s
  else reprice 2 (record 0x2C 0x1503 (u8 z ++ u8 0 ++ u16 o ++ u16 v ++ u16 0 ++ s32 (zoneTemp s z))
    (modZone z (fun y => { y with theta := v }) s))

/-- Since when a condition has held: kept, begun now, or ended. -/
def sinceWhen (on : Bool) (old : Option Nat) (now : Nat) : Option Nat := if on then some (old.getD now) else none

/-- The throttle threshold against a zone temperature (R489, R491). -/
def throttleStep (z : Nat) (t : Int) (s : State) : State :=
  let y := zoneOf s z
  let above := decide (limitOf z 1 ≤ t)
  let below := decide (t < limitOf z 1 - 768)
  let hit := above && !y.reached
  let s := modZone z (fun y => { y with
    reached := y.reached || hit
    thrAbove := sinceWhen above (if hit then none else y.thrAbove) s.now
    thrBelow := if 256 ≤ y.theta then none else sinceWhen below y.thrBelow s.now }) s
  if hit then raiseCause false 17 (setTheta z 192 s) else s

/-- THROTTLE_DECAY: θ falls by 32 after each 100 ms at or above the threshold (R491). -/
def thetaFall (z : Nat) (s : State) : State :=
  let y := zoneOf s z
  if y.thrAbove.any fun t => decide (t + 100 * msec ≤ s.now) then
    setTheta z (max 128 (y.theta - 32)) (modZone z (fun y => { y with thrAbove := some s.now }) s)
  else s

def execThrottleDecay (dt z : Nat) (s : State) : Res := .next (thetaFall z (tick dt s))

/-- THROTTLE_RECOVER: θ rises by 32 after each 1 s below the threshold less 3 °C; the first clears the throttle (R491). -/
def thetaRise (z : Nat) (s : State) : State :=
  let y := zoneOf s z
  if y.thrBelow.any fun t => decide (t + sec ≤ s.now) then
    let v := min 256 (y.theta + 32)
    setTheta z v (modZone z (fun y => { y with reached := false, thrBelow := if v = 256 then none else some s.now }) s)
  else s

def execThrottleRecover (dt z : Nat) (s : State) : Res := .next (thetaRise z (tick dt s))

/-! ### Warning -/

/-- The warning threshold against a zone temperature (R489, R490). -/
def warnStep (z x : Nat) (t : Int) (s : State) : State :=
  let y := zoneOf s z
  let hit := decide (limitOf z 0 ≤ t) && !y.warn
  let s := modZone z (fun y => { y with
    warn := y.warn || hit
    warnBelow := if y.warn then sinceWhen (decide (t < limitOf z 0 - 768)) y.warnBelow s.now else none }) s
  if hit then raiseCause false 17 (record 0x2C 0x1501 (u8 z ++ u8 x ++ u16 0 ++ s32 t) s) else s

/-- THERM_WARN_CLEAR: 100 ms below the warning threshold less 3 °C (R489, R490). -/
def warnClear (z : Nat) (s : State) : State :=
  let y := zoneOf s z
  if y.warn && y.warnBelow.any (fun t => decide (t + 100 * msec ≤ s.now)) then
    record 0x2C 0x1502 (u8 z) (modZone z (fun y => { y with warn := false, warnBelow := none }) s)
  else s

def execThermWarnClear (dt z : Nat) (s : State) : Res := .next (warnClear z (tick dt s))

/-! ### Critical and hard trip -/

/-- The hard trip: every channel OFF at once, P3 without PARK, LATCH, and THERM_TRIP into the ledger save (R494). -/
def hardTrip (z x : Nat) (t : Int) (s : State) : State :=
  let s := allOff 7 s
  let s := recordSaved 0x2C 0x1505 (u8 z ++ u8 x ++ u16 0 ++ s32 t) s
  let s := enterStandby false s
  { s with
    thermal := { s.thermal with latch := true, latchBelow := none, trip := s.now }
    wear := { s.wear with trips := bump s.wear.trips, saved := s.now } }

/-- T_now less T_20 in 1/256 °C: the rise over the last 1 ms (R493). -/
def riseRate (s : State) (x : Nat) (t : Int) : Int :=
  let h := (sensorOf s x).hist
  t - (h.getD 19 (h.getLast?.getD t))

/-- t_h reaches P_max + 2 ms: time enough for the orderly stop (R493). -/
def orderly (s : State) (z : Nat) (t r : Int) : Bool :=
  let left := limitOf z 3 - t
  let fits := fun n d : Nat => decide (r * (sec * d + 2 * msec * n : Nat) ≤ left * (msec * n : Nat))
  decide (r ≤ 0) || (fits 1 0 && (List.range 8).all fun k => ((headOf s k).pipe.cfg.elim true fun c => fits c.rateN c.rateD))

/-- t_h in µs; all ones where it is unbounded (R493). -/
def tripTime (z : Nat) (t r : Int) : Nat :=
  if r ≤ 0 then 0xFFFFFFFF else min 0xFFFFFFFF ((limitOf z 3 - t) * 1000 / r).toNat

/-- A zone reaches its critical threshold: the orderly stop with cause 2, or the actions of a hard trip (R493).  A stop
already under way goes on, unless the time is too short (R496). -/
def criticalStep (z x : Nat) (t : Int) (s : State) : State :=
  let r := riseRate s x t
  let ok := orderly s z t r
  let s := modZone z (fun y => { y with critical := true }) s
  let tell := fun a : Nat => record 0x2C 0x1504 (u8 z ++ s32 t ++ s32 r ++ u32 (tripTime z t r) ++ u8 a)
  if ok then (if s.power.stop.isSome then s else beginStop4 .thermal false 2 (tell 0 s))
  else hardTrip z x t (tell 1 s)

/-- Since when every zone that is not blind has been below its warning threshold (R495). -/
def latchStep (s : State) : State :=
  let cool := (List.range 8).all fun z => (zoneOf s z).blind || decide (zoneTemp s z < limitOf z 0)
  { s with thermal := { s.thermal with latchBelow := if s.thermal.latch then sinceWhen cool s.thermal.latchBelow s.now else none } }

/-- THERM_LATCH_CLEAR: after 10 s, LATCH clears and the module stays in P3 (R495). -/
def latchClear (s : State) : State :=
  if s.thermal.latch && s.thermal.latchBelow.any (fun t => decide (t + 10 * sec ≤ s.now)) then
    recordSaved 0x2C 0x1508 (u64 s.thermal.trip) { s with thermal := { s.thermal with latch := false, latchBelow := none } }
  else s

def execThermLatchClear (dt : Nat) (s : State) : Res := .next (latchClear (tick dt s))

/-- A zone whose sensors are all suspect is blind (R488). -/
def blindStep (z : Nat) (s : State) : State :=
  if (zoneSensors z).all (suspect s) && !(zoneOf s z).blind then
    record 0x2C 0x1507 (u8 z) (modZone z (fun y => { y with blind := true }) s)
  else s

/-- A zone's temperature is compared with its thresholds (R488 to R494). -/
def compareZone (z x : Nat) (s : State) : State :=
  let t := zoneTemp s z
  let rate := fun s : State => modSensor x (fun y => { y with hist := (t :: y.hist).take 20 }) s
  let s := throttleStep z t (warnStep z x t (blindStep z s))
  let y := zoneOf s z
  if y.blind then rate s
  else if limitOf z 3 ≤ t then (if s.thermal.latch then s else hardTrip z x t s)
  else if limitOf z 2 ≤ t then (if y.critical then rate s else rate (criticalStep z x t s))
  else rate (modZone z (fun y => { y with critical := false }) s)

/-- A reading of sensor x (R486 to R494); in P3 only LATCH acts (R493, R495).  Readings further apart than those at 20 kHz give no
rate of rise (R493, Table 21.4; DEDUCED, notes/assumptions/93.md). -/
def readSensor (x : Nat) (temp : Int) (s : State) : State :=
  let s := crossCheck x temp s
  let s := modSensor x (fun y => { y with
    temp := temp, stamp := s.now, seen := true, hist := if s.now ≤ y.stamp + 51 * usec then y.hist else [] }) s
  let s := if s.power.state = .p3 ∨ s.power.state = .p4 then blindStep (sensorZone x) s else compareZone (sensorZone x) x s
  let s := if x = 32 ∨ x = 33 then refreshMode (x - 32) s else s
  serviceStep (latchStep s)

/-- A reading of a carrier diode; a fault is recorded when it appears (R57). -/
def readCarrier (c : Nat) (temp : Int) (fault : Option Nat) (s : State) : State :=
  let old := s.thermal.carriers[c]?
  let s := { s with thermal := { s.thermal with carriers := upd s.thermal.carriers c fun y =>
    { y with temp := temp, stamp := s.now, fault := fault } } }
  match fault with
  | some f => if old.any fun y => y.fault.isNone then record 0x2C 0x1509 (u8 c ++ u8 f) s else s
  | none => s

/-- SENSOR_READING: sensors 0 to 43, and carrier diodes at 0x50 and 0x51 (R57, R486). -/
def execSensorReading (dt x : Nat) (temp : Int) (fault : Option Nat) (s : State) : Res :=
  let s := tick dt s
  .next (if x < 44 then readSensor x temp s
    else if x = 0x50 ∨ x = 0x51 then readCarrier (x - 0x50) temp fault s else s)

/-! ### THM_READ -/

/-- The latest reading that a zone's temperature stands on: of the hottest sensor that is not suspect; of a blind zone the latest
reading of any (R488, R498). -/
def zoneStamp (s : State) (z : Nat) : Nat :=
  let trusted := (zoneSensors z).filter fun x => !suspect s x && (sensorOf s x).seen && (sensorOf s x).temp == zoneTemp s z
  ((if trusted.isEmpty then zoneSensors z else trusted).map fun x => (sensorOf s x).stamp).foldl max 0

def thmReadBad (d : Desc) (_ : State) : Option (List Byte) :=
  let c := d.p8 16
  badField [(!(decide (c < 44) || (decide (0x40 ≤ c) && decide (c < 0x48)) || c == 0x50 || c == 0x51), 16)]

/-- DETAIL of THM_READ: temperature, flags, age in µs (R498). -/
def thmDetail (temp : Int) (flags stamp : Nat) (s : State) : List Byte :=
  s32 temp ++ u8 flags ++ u24 (min 0xFFFFFF ((s.now - stamp) / usec))

def thmReadAct (d : Desc) (s : State) : State :=
  let c := d.p8 16
  let det :=
    if c < 44 then thmDetail (sensorOf s c).temp (bit (suspect s c)) (sensorOf s c).stamp s
    else if c < 0x50 then thmDetail (zoneTemp s (c - 0x40)) (2 * bit (zoneOf s (c - 0x40)).blind) (zoneStamp s (c - 0x40)) s
    else match s.thermal.carriers[c - 0x50]? with
      | some y => thmDetail y.temp (4 * bit y.fault.isSome) y.stamp s
      | none => []
  complete d 0 det s

/-- THM_READ (R498). -/
def execThmRead (dt : Nat) (d : Desc) (s : State) : Res :=
  .next (runDesc (specI0 0x1301 (span 17 63)) d thmReadBad noOver thmReadAct (tick dt s))

end Sys2Proof.Machine
end

