-- ==== Sys2Proof/Machine/ReadView.lean ====
section
/-!
DEFINITION. Reading BAR0: the read-only fields of every register of Table 25.2, computed from State by block, the stored
fields beside them, the register pairs (R7), and the meaning of PAIR_LO_READ.
-/

namespace Sys2Proof.Machine

/-- Instance and remainder of an offset in a row of registers. -/
def rowIdx (base stride count off : Nat) : Option (Nat × Nat) :=
  if base ≤ off ∧ (off - base) / stride < count then some ((off - base) / stride, (off - base) % stride) else none

def lo32 (v : Nat) : Nat := v % 2 ^ 32
def hi32 (v : Nat) : Nat := v / 2 ^ 32 % 2 ^ 32

/-- A word put together from fields: value and lowest bit. -/
def pack (l : List (Nat × Nat)) : Nat := total (l.map fun x => x.1 * 2 ^ x.2)

/-! ### KPR, HST, ING (Tables 5.14, 7.6, 23.8) -/

def viewKpr (s : State) (off : Nat) : Nat :=
  match off with
  | 0x104 => bit s.host.locked
  | 0x10C => bit s.fault.armed
  | _ => 0

def viewSq (r : SubRing) : Nat → Nat
  | 0xC => pack [(bit r.enabled, 0), (bit r.halted, 1), (bit r.err, 2)]
  | 0x10 => r.head
  | 0x14 => r.tail
  | _ => 0

def viewCq (r : CompRing) : Nat → Nat
  | 0xC => pack [(bit r.enabled, 0), (min 0xFFFF r.hold.length, 16)]
  | 0x10 => r.tail
  | 0x14 => r.head
  | _ => 0

def viewHst (s : State) (pf1 : Bool) (off : Nat) : Nat :=
  let l := if pf1 then s.ledger.pf1 else s.ledger.main
  match rowIdx 0x1000 32 256 off, rowIdx 0x3000 32 256 off with
  | some (q, r), _ => viewSq (sqOf s q) r
  | _, some (c, r) => viewCq (cqOf s c) r
  | none, none =>
    match off with
    | 0x0 => pack [(bit s.power.pcieUp, 0), (s.power.pcieWidth, 1), (s.power.pcieSpeed, 6)]
    | 0x1C => pack [(bit l.enabled, 0), (min 0xFFFF (l.hold.length + if pf1 then 0 else s.ledger.startBuf.length), 16)]
    | 0x20 => l.tail
    | _ => 0

/-- The flow that ING_FLOW_SEL names: open, or closed with its last counts. -/
def selFlow (s : State) : Option Flow :=
  let c := regField s 0x00201000 0 10
  (flowOf s c).orElse fun _ => getKey c s.ingest.closed

def flowStateCode (s : State) : Nat :=
  match flowOf s (regField s 0x00201000 0 10) with
  | none => 0
  | some f => (match f.state with
    | .live => 1
    | .frozen => 2
    | .fallback => 3)

def viewIng (s : State) (off : Nat) : Nat :=
  let fl := fun g : Flow → Nat => (selFlow s).elim 0 g
  match off with
  | 0x0 => pack [(maskOf ((List.range 4).filter fun k => (s.ingest.eth.getD k Reset.ethPort).link), 0),
                 (maskOf ((List.range 2).filter fun d => (s.ingest.dp.getD d Reset.dpSink).trained), 4),
                 (s.ingest.flows.length, 16)]
  | 0x204 => viewDp s 0
  | 0x304 => viewDp s 1
  | 0x1004 => pack [(flowStateCode s, 0), (fl fun f => bit f.pathPri, 4), (fl fun f => bit f.pathSec, 5)]
  | 0x1008 => fl (·.frameNo)
  | 0x100C => fl (·.incomplete)
  | 0x1010 => fl (·.whey)
  | 0x1014 => fl (·.midframe)
  | 0x1018 => fl (·.starved)
  | 0x101C => fl (·.dup)
  | 0x1020 => fl (·.logIdx)
  | _ =>
    match rowIdx 0 64 4 off with
    | some (k, r) =>
      let e := s.ingest.eth.getD k Reset.ethPort
      let flows := (s.ingest.flows.filter fun f => decide (f.2.cfg.source ≤ 1) &&
        (f.2.cfg.portPri == k || f.2.cfg.portSec == some k)).length
      (match r with
       | 0x20 => pack [(bit e.link, 0), (bit e.fec, 1), (min 255 flows, 8)]
       | 0x24 => e.whey
       | 0x28 => e.drop
       | _ => 0)
    | none => 0
where
  viewDp (s : State) (d : Nat) : Nat :=
    let e := s.ingest.dp.getD d Reset.dpSink
    pack [(e.rate, 0), (e.lanes, 3), (bit e.trained, 6)]

/-! ### ADM (Table 8.10) -/

def exhCode : ExhState → Nat
  | .free => 1
  | .filling => 2
  | .ready => 3
  | .pinned => 4
  | .retiring => 5

def Held.isPut : Held → Bool
  | .write _ _ => true
  | .free _ => false

def viewAdm (s : State) (off : Nat) : Nat :=
  let a := s.adm
  let h := regField s 0x00300010 0 14
  let e := exhOf s h
  match rowIdx 0x100 4 44 off, rowIdx 0x200 4 44 off, rowIdx 0x300 4 8 off with
  | some (i, 0), _, _ => a.caps.getD i 0
  | _, some (i, 0), _ => committed s i
  | _, _, some (k, 0) => (headOf s k).pipe.fence
  | _, _, _ =>
    match off with
    | 0x0 => pack [(min 0xFFFF (a.items.filter fun i => !i.leaving).length, 0), (min 0xFF a.passes, 16), (a.fpPriced, 24)]
    | 0x4 => minTheta s (List.range 8)
    | 0x8 => lo32 a.lastRev
    | 0xC => hi32 a.lastRev
    | 0x14 => pack [(e.elim 0 (exhCode ·.state), 0), (e.elim 0 (·.pins.length), 8), (bit (e.any (·.held.any Held.isPut)), 16),
                    (bit (e.isSome && (headOwned s h).isSome), 17)]
    | 0x18 => e.elim 0 (·.frame)
    | _ => 0

/-! ### CMP, SCL, PRS (Tables 9.11, 10.4, 11.12, 12.7) -/

/-- Byte g of FR_MAP: the layer code of generic layer g, 0xFF when unmapped (R219). -/
def frByte (p : Pipe) (g : Nat) : Nat := (getKey g p.frMap).getD 0xFF

def viewCmpHead (s : State) (k off : Nat) : Nat :=
  let h := headOf s k
  let p := h.pipe
  let v := h.vit
  match off with
  | 0x0 => pack [(bit p.cfg.isSome, 0), (bit (p.cfg.any (·.scan)), 1), (p.cfg.elim 0 (·.forerunner), 2),
                 (bit (h.cave.state == .hold), 6), (min 2 p.sealed_.length, 7), (bit p.releasing.isSome, 9)]
  | 0x4 => p.frame
  | 0x8 => lo32 p.cse
  | 0xC => hi32 p.cse
  | 0x10 => p.late
  | 0x14 => p.gapMin
  | 0x18 => pack [(p.cfg.elim 0 fun c => maskOf (((p.running c).filter fun x => !bitOf p.disabled x.1).map (·.2.1)), 0),
                   (maskOf ((List.range 4).filter fun i => (p.scaler.getD i Reset.scalerStat).outcome = 1), 16)]
  | 0x1C => pack ((List.range 4).map fun g => (frByte p g, 8 * g))
  | 0x20 => pack ((List.range 4).map fun g => (frByte p (4 + g), 8 * g))
  | 0x24 => pack [(bit v.content, 0), (bit v.mask, 1), (v.bank, 2), (bit v.gate, 3), (bit v.loaded, 4),
                  (bit (s.vitKey.key != 0), 5), (v.canvasW, 16)]
  | _ => 0

def viewCmp (s : State) (off : Nat) : Nat :=
  if off = 0x8000 then pack [(min 0xFFFF s.vitKey.count, 0), (bit s.vitKey.lockout.isSome, 16)]
  else if off < 0x8000 then viewCmpHead s (off / 0x1000) (off % 0x1000)
  else 0

def viewScl (s : State) (off : Nat) : Nat :=
  let p := (headOf s (off / 0x100)).pipe
  if 0x800 ≤ off then 0
  else if off % 0x100 = 0x40 then p.lbErr
  else if off % 0x100 < 0x40 then
    let v := p.scaler.getD (off % 0x100 / 0x10) Reset.scalerStat
    (match off % 0x10 with
     | 0x0 => pack [(if v.reason = 0 then v.widthIn else 0, 0), (if v.reason ≠ 0 then 0 else if v.d = 4 then 2 else v.d - 1, 16), (v.reason, 18), (bit (v.reason != 0), 20),
                    (v.hset, 24), (v.vset, 26)]
     | 0x4 => v.hstep
     | 0x8 => v.vstep
     | _ => 0)
  else 0

def viewPrs (s : State) (off : Nat) : Nat :=
  let h := headOf s (off / 0x1000)
  let q := h.press
  let m := h.motion
  let r := fun g : Recipe → Nat => q.recipe.elim 0 g
  let mc := fun g : MotionCfg → Nat => m.cfg.elim 0 g
  if 0x8000 ≤ off then 0
  else match off % 0x1000 with
  | 0x0 => pack [(bit q.recipe.isSome, 0), (bit q.reduced, 1), (bit q.pending.isSome, 2),
                 (r fun r => (r.slots.filter (r.keeps q.reduced)).length, 3), (r (·.seqs), 12), (r (·.chans.length), 14),
                 (r (·.arrays.length), 17)]
  | 0x4 => pack [(r (·.id), 0), (q.pending.elim 0 (·.1.id), 16)]
  | 0x8 => q.frame
  | 0xC => q.slackMin
  | 0x10 => q.darkTiles
  | 0x18 => lo32 q.done
  | 0x1C => hi32 q.done
  | 0x20 => pack [(bit m.cfg.isSome, 0), (mc (·.source), 1), (bit m.fieldOk, 3), (bit m.prevOk, 4), (bit m.pending.isSome, 5),
                  (mc (·.ref), 8), (mc (·.band), 16)]
  | 0x24 => m.lowConf
  | 0x28 => m.occ
  | 0x2C => m.clip
  | 0x30 => m.miss
  | _ => 0

/-! ### PLK, SCN, CLR (Tables 13.10, 14.6, 15.7) -/

def portCode : PortState → Nat
  | .down => 0
  | .bitlock => 1
  | .align => 2
  | .caps => 3
  | .ready => 4
  | .hold => 5
  | .failed => 6

def caveCode : CaveState → Nat
  | .off => 0
  | .entering => 1
  | .hold => 2
  | .leaving => 3

def viewPort (o : Port) (off : Nat) : Nat :=
  match rowIdx 0x10 4 6 off, rowIdx 0x40 4 9 off with
  | some (g, 0), _ => o.caps.getD g 0
  | _, some (l, 0) => o.bip.getD l 0
  | _, _ =>
    match off with
    | 0x0 => pack [(portCode o.state, 0), (bit o.scan, 3), (bit o.pair.isSome, 4), (bit o.parked, 5), (o.owner.getD 0, 6),
                   (bit o.owner.isSome, 9)]
    | 0x4 => pack [(o.lock, 0), (o.spared, 9)]
    | 0x8 => (o.limit + 2 ^ 32 - o.used % 2 ^ 32) % 2 ^ 32
    | 0x28 => o.nak
    | 0x2C => o.retry
    | 0x30 => o.stale
    | 0x34 => o.subst
    | 0x38 => o.retErr
    | _ => 0

def viewPlk (s : State) (off : Nat) : Nat :=
  if off < 0x1000 then viewPort (portOf s (off / 0x100)) (off % 0x100)
  else match rowIdx 0x2000 0x10 8 off with
  | some (k, r) =>
    let v := (headOf s k).cave
    (match r with
     | 0x0 => pack [(caveCode v.state, 0), (bit (v.armed != 0), 2), (v.armed, 16)]
     | 0x4 => v.frame
     | 0x8 => v.run
     | _ => 0)
  | none => 0

def scanCode : ScanLock → Nat
  | .idle => 0
  | .acquiring => 1
  | .locked => 2
  | .lost => 3

def viewScn (s : State) (off : Nat) : Nat :=
  let v := (headOf s (off / 0x100)).scan
  if 0x800 ≤ off then 0
  else match off % 0x100 with
  | 0x0 => pack [(scanCode v.lock, 0), (bit (v.cfg.any fun c => decide (c.ampTgt * c.ampMin < v.amp * 65536)), 2),
                 (bit v.output, 3), (bit v.pending.isSome, 4), (min 0xFF v.good, 8)]
  | 0x4 => v.t8
  | 0x8 => lo32 v.lastEdge
  | 0xC => hi32 v.lastEdge
  | 0x10 => v.amp % 65536
  | 0x14 => pack [(v.pass % 65536, 0), (v.line % 65536, 16)]
  | 0x18 => v.cut
  | 0x1C => v.lost
  | _ => 0

def viewClr (s : State) (off : Nat) : Nat :=
  let k := off / 0x100
  let v := (headOf s k).solver
  let p := regField s (0x00900010 + 0x100 * k) 0 3
  let e := fun j : Nat => if p < 6 then v.e.getD (3 * p + j) 0 else 0
  let est := fun j : Nat => (v.est.getD p []).getD j 0
  if 0x800 ≤ off then 0
  else match off % 0x100 with
  | 0x0 => pack [(bit v.cfg.closed, 0), (v.cfg.policy % 2, 1), (bit v.inRange, 2), (bit v.limited, 3), (bit v.loadedExh, 4),
                 (bit (v.staleMask != 0), 5), (bit (v.holding || v.staleHold), 6), (bit v.gamutOut, 7), (bit v.cal.isSome, 8), (v.staleMask, 9),
                 (bit v.pending.isSome, 15)]
  | 0x4 => v.frame
  | 0x8 => v.duv
  | 0xC => v.lum
  | 0x14 => unsigned 32 (e 0)
  | 0x18 => unsigned 32 (e 1)
  | 0x1C => unsigned 32 (e 2)
  | 0x20 => unsigned 32 (e 0 + e 1 + e 2)
  | 0x24 => unsigned 32 (est 0)
  | 0x28 => unsigned 32 (est 1)
  | 0x2C => unsigned 32 (est 2)
  | 0x30 => unsigned 32 (v.temps.getD p 0)
  | 0x34 => v.limitedN
  | _ => 0

/-! ### GLE (Tables 2.11, 16.8, 17.10) -/

def chanCode : ChanState → Nat
  | .off => 0
  | .run => 1
  | .ramp => 2
  | .unavailable => 3

def inputCode : InputState → Nat
  | .live => 0
  | .holding => 1
  | .safe => 2

def viewChan (s : State) (c off : Nat) : Nat :=
  let h := chanOf s c
  match off with
  | 0x0 => pack [(chanCode h.state, 0), (h.cause, 4), (bit h.satHi, 8), (bit h.satLo, 9), (bit (loopAdmitted s c), 10),
                 (bit (h.cfg.any (·.sched)), 11), (bit h.gate, 12), (h.cfg.elim 0 (·.n), 16), (h.cfg.elim 0 (·.m), 20)]
  | 0xC => h.slot
  | 0x10 => unsigned 16 h.code
  | 0x14 => lo32 h.sample
  | 0x18 => hi32 h.sample
  | 0x1C => h.sat
  | 0x20 => h.clampHit
  | _ => 0

/-- The source a channel's set-point has: 0 for the schedule or no loop set; source 1 until a SETPOINT_CFG applies (R398). -/
def spSource (s : State) (c : Nat) : Nat :=
  match ((chanOf s c).pendCfg.map (·.1)).orElse fun _ => (chanOf s c).cfg with
  | none => 0
  | some x => if x.sched then 0 else if (spOf s c).applied then (spOf s c).cfg.source else 1

def viewSp (s : State) (c off : Nat) : Nat :=
  let p := spOf s c
  match off with
  | 0x0 => pack [(spSource s c, 0), (bit p.manual, 3), (inputCode p.input, 4),
                 (bit (spSource s c != 0 && (!p.applied || p.cfg.rateMax == 0)), 6),
                 (bit (p.inject.any (·.active)), 7), (bit p.group.isSome, 8), (bit p.pending.isSome, 9)]
  | 0x4 => unsigned 32 p.target
  | 0x8 => unsigned 32 (chanOf s c).r
  | 0xC => unsigned 32 p.v
  | 0x10 => p.lost
  | _ => 0

def viewGroup (s : State) (c off : Nat) : Nat :=
  match off with
  | 0x0 =>
    (match s.gheler.groups.find? fun g => g.out = c with
     | some g =>
       let m := g.members.filter (· ≠ c)
       pack [(g.winner.getD 0, 0), (1, 6), (m.getD 0 0x3F, 8), (m.getD 1 0x3F, 14), (m.getD 2 0x3F, 20), (m.length + 1, 26)]
     | none => 0)
  | 0x4 => s.gheler.switches.getD c 0
  | _ => 0

def viewCap (s : State) (c off : Nat) : Nat :=
  let v := (spOf s c).capture
  match off with
  | 0x0 => pack [(v.elim 0 (·.state), 0), (v.elim 0 (·.written), 8)]
  | 0x4 => lo32 (v.elim 0 (·.trig))
  | 0x8 => hi32 (v.elim 0 (·.trig))
  | _ => 0

/-- The GLE block.  LEVEL reads 1 from the trip until its release is recognised, the 10 ms of high level included, and TRIPPED does not
clear before: the spec does not say whether INTLK_B counts as asserted there (DESIGN CHOICE, notes/assumptions/106.md). -/
def viewGle (s : State) (off : Nat) : Nat :=
  match rowIdx 0x1000 0x40 48 off, rowIdx 0x2000 0x20 48 off, rowIdx 0x3000 0x10 48 off, rowIdx 0x4000 0x10 48 off with
  | some (c, r), _, _, _ => viewChan s c r
  | _, some (c, r), _, _ => viewSp s c r
  | _, _, some (c, r), _ => viewGroup s c r
  | _, _, _, some (c, r) => viewCap s c r
  | _, _, _, _ =>
    match off with
    | 0x0 => pack [((enabledChans s).length, 0), (freeLoopSlots s, 8)]
    | 0x82C0 => pack [(bit s.power.intlkLow, 0), (min 0xFF s.power.intlkCount, 8)]
    | 0x82C8 => lo32 s.power.intlkStamp
    | 0x82CC => hi32 s.power.intlkStamp
    | _ => 0

/-! ### HBM, TRN, ECC, THM (Tables 18.10, 19.8, 20.7, 21.7) -/

def viewMap (s : State) (i : Nat) : Nat :=
  let e := s.hbm.map.getD i (Reset.mapSlot i)
  pack [(e.pc, 0), (e.stack, 5), (bit e.frozen, 8), (bit e.reserve, 9), (bit (decide (s.hbm.m ≤ i) && s.hbm.m != 0), 10)]

/-- Latency targets that no write changes: ports 0 to 3 and 7 (Table 18.2). -/
def fixedQos (p : Nat) : Nat := [40, 20, 20, 10, 0, 0, 0, 0].getD p 0

def viewHbm (s : State) (off : Nat) : Nat :=
  let h := s.hbm
  match rowIdx 0x100 4 8 off, rowIdx 0x140 4 8 off, rowIdx 0x180 4 8 off, rowIdx 0x200 4 62 off with
  | some (p, 0), _, _, _ => fixedQos p
  | _, some (p, 0), _, _ => h.urg3.getD p 0
  | _, _, some (p, 0), _ => h.throt.getD p 0
  | _, _, _, some (i, 0) => viewMap s i
  | _, _, _, _ =>
    match off with
    | 0x0 => pack [(h.fp, 0), (h.commanded, 2), (bit h.moving.isSome, 4), (bit (h.doubled.getD 0 false), 5),
                   (bit (h.doubled.getD 1 false), 6), (bit h.selfRef, 7), (h.m, 8), (min 15 h.frozen.length, 16),
                   (min 3 h.reserves.length, 20), (bit (h.jobs.any (·.running)), 22)]
    | 0x10 => lo32 h.capBytes
    | 0x14 => hi32 h.capBytes
    | 0x18 => maskOf ((List.range 4).filter fun t => h.tsValid.getD t false)
    | _ => 0

def viewTrn (s : State) (off : Nat) : Nat :=
  let t := s.training
  match off with
  | 0x0 => pack [(t.state, 0), (t.owner, 2), (t.point, 3), (t.stack, 5), (t.pc, 6), (if t.owner = 0 then 0 else t.action, 11)]
  | 0x4 => stepsNow s
  | 0x8 => t.susp
  | 0x10 => lo32 t.last
  | 0x14 => hi32 t.last
  | 0x18 => t.time
  | 0x20 => lo32 t.fail
  | 0x24 => hi32 t.fail
  | _ => 0

def viewArchive (s : State) (n off : Nat) : Nat :=
  match archiveNo s n with
  | none => 0
  | some r =>
    match off with
    | 0x0 => pack [(1, 0), (bit r.ready, 1),
        (min 0xFFFF (s.adm.exhibits.filter fun e => e.2.archive && decide (r.base ≤ e.2.base) && decide (e.2.base < r.base + r.size)).length, 16)]
    | 0x4 => lo32 r.base
    | 0x8 => hi32 r.base
    | 0xC => r.size / 65536
    | 0x10 => lo32 r.comp
    | 0x14 => hi32 r.comp
    | _ => 0

def viewEcc (s : State) (off : Nat) : Nat :=
  let e := s.ecc
  let c := regionCount s (regField s 0x00D00014 0 8)
  match rowIdx 0x100 0x20 16 off with
  | some (n, r) => viewArchive s n r
  | none =>
    match off with
    | 0x0 => pack [(bit (!scrubPaused s), 0), (e.scrubReg, 8), (maskOf (e.archives.map (·.index)), 16)]
    | 0xC => e.lapTime
    | 0x10 => e.lapCount
    | 0x18 => c.ce
    | 0x1C => c.ue
    | 0x20 => pack [(c.level, 0), (c.ovf, 16)]
    | 0x28 => lo32 c.last
    | 0x2C => hi32 c.last
    | _ => 0

def zoneMask (s : State) (f : Zone → Bool) : Nat := maskOf ((List.range 8).filter fun z => f (zoneOf s z))

def viewThm (s : State) (off : Nat) : Nat :=
  let x := regField s 0x00E00004 0 6
  let o := sensorOf s x
  let bad := maskOf ((List.range 44).filter (suspect s))
  match rowIdx 0x100 8 8 off with
  | some (z, 0) => unsigned 32 (zoneTemp s z)
  | some (z, 4) => (zoneOf s z).theta
  | _ =>
    match off with
    | 0x0 => pack [(zoneMask s (·.warn), 0), (zoneMask s fun z => decide (z.theta < 256), 8), (zoneMask s (·.blind), 16),
                   (bit s.thermal.latch, 24)]
    | 0x8 => unsigned 32 o.temp
    | 0xC => if x < 44 then pack [(bit o.suspect, 0), (o.deviant, 1), ((Config.neighbours x).length, 8), (sensorZone x, 11)] else 0
    | 0x10 => lo32 bad
    | 0x14 => hi32 bad
    | 0x18 => unsigned 32 ((s.thermal.carriers.map (·.temp)).getD 0 0)
    | 0x1C => unsigned 32 ((s.thermal.carriers.map (·.temp)).getD 1 0)
    | 0x20 => lo32 s.thermal.trip
    | 0x24 => hi32 s.thermal.trip
    | _ => 0

/-! ### CAT, FIJ (Tables 22.7, 23.8) -/

def catCode : CatState → Nat
  | .down => 0
  | .bitlock => 1
  | .align => 2
  | .ident => 3
  | .ready => 4
  | .failed => 5

def viewCatPort (c : CatPort) (off : Nat) : Nat :=
  match off with
  | 0x0 => pack [(catCode c.state, 0), (c.spared, 4), (c.partner, 16)]
  | 0x4 => c.resent
  | 0x8 => c.crc
  | 0xC => unsigned 32 c.offset
  | 0x10 => unsigned 32 c.delay
  | _ => 0

def viewCat (s : State) (off : Nat) : Nat :=
  let c := s.catum
  match rowIdx 0x100 0x40 4 off, rowIdx 0x200 4 8 off with
  | some (p, r), _ => viewCatPort (catOf s p) r
  | _, some (k, 0) => let l := lockOf s k; pack [(l.role, 0), (bit l.degraded, 2), (l.lockId, 16)]
  | _, _ =>
    match off with
    | 0x0 => pack [(maskOf ((List.range 4).filter fun p => (catOf s p).state == .ready), 0), (bit c.dup, 4)]
    | 0x8 => min 63 c.members.length
    | 0x1C => pack [(bit c.mailbox.busy, 2), (bit c.mailbox.err, 3)]
    | 0x20 => c.hopDrop
    | _ => 0

/-- The link of an injection point passes packets (Table 23.1). -/
def pointReady (s : State) (point : Nat) : Bool :=
  if point < 0x20 then (portOf s (point % 0x10)).state == .ready || (portOf s (point % 0x10)).state == .hold
  else if point < 0x30 then (catOf s (point % 8)).state == .ready
  else if point < 0x38 then (s.ingest.eth.getD (point % 8) Reset.ethPort).link
  else (s.ingest.dp.getD (point % 8) Reset.dpSink).trained

/-- FIJ_RULE_STAT.STATE of a rule that is set: waiting, active or spent. -/
def ruleCode (s : State) (r : FaultRule) : Nat :=
  if r.limit ≠ 0 ∧ r.limit ≤ r.fired then 3 else if s.now < r.at_ ∨ !pointReady s r.point then 1 else 2

def viewFij (s : State) (off : Nat) : Nat :=
  let sel := (rawReg s 0x01000004).toNat
  let r := s.fault.rules.find? fun r => r.point = bits sel 0 8 ∧ r.rule = bits sel 8 2
  let f := fun g : FaultRule → Nat => r.elim 0 g
  match off with
  | 0x0 => pack [(min 0xFF s.fault.rules.length, 0), (min 0xFF s.fault.held.length, 8)]
  | 0x8 => pack [(f (ruleCode s), 0), (f (·.kind), 2), (f (·.trigger), 5)]
  | 0xC => f fun r => min top32 r.matched
  | 0x10 => f fun r => min top32 r.fired
  | 0x14 => f (·.bits)
  | 0x18 => s.fault.total
  | _ => 0

/-! ### PWR, TMB, NVM (Tables 3.8, 4.13, 6.7, 24.6) -/

def powerCode : PowerState → Nat
  | .p0 => 0
  | .p1 => 1
  | .p2 => 2
  | .p3 => 3
  | .p4 => 4

/-- The power state in force (Table 1.6, R78): P0 with HBM below F0 is P1. -/
def powerNow (s : State) : PowerState := if s.power.state = .p0 ∧ s.hbm.fp ≠ 0 then .p1 else s.power.state

def viewPwr (s : State) (off : Nat) : Nat :=
  let p := s.power
  match off with
  | 0x0 => pack [(powerCode (powerNow s), 0), (p.stage, 3), (s.hbm.fp, 6), (p.target, 8)]
  | 0x4 => p.vin % 65536
  | 0x8 => p.vinMin % 65536
  | 0x2C => pack [(min 0xFFFF p.holdup, 0), (bit (holdupLow s), 16)]
  | _ => 0

def viewTmb (s : State) (off : Nat) : Nat :=
  let t := s.time
  match off with
  | 0x0 => tmbStat s
  | 0x8 => lo32 s.now
  | 0xC => hi32 s.now
  | 0x10 => unsigned 32 (clampInt (-2147483648) 2147483647 t.offset)
  | 0x14 => t.utc % 65536
  | 0x18 => lo32 t.gmId
  | 0x1C => hi32 t.gmId
  | 0x20 => min top32 (slewLeft s)
  | 0x24 => t.ptpDrop
  | _ => 0

/-- The 32 bytes of a Clamp Report entry (Table 4.10). -/
def ClampEntry.bytes (e : ClampEntry) : List Byte :=
  u16 e.field ++ u8 e.scope ++ u8 e.rule ++ u8 e.flags ++ u8 e.bank ++ u16 0 ++ u64 e.stored ++ u64 e.used ++ u32 e.offset ++ u32 0

/-- NVM_FWs_VER: 0 where the slot fails its check (R547). -/
def slotVersion (s : State) (i : Nat) : Nat :=
  let f := s.wear.slots.getD i Reset.fwSlot
  if f.ok then f.version else 0

/-- The highest behaviour level the module supports (Table 24.6). -/
def hwMax : Nat := 1

def viewNvm (s : State) (off : Nat) : Nat :=
  let u := s.startup
  let w := s.wear
  match rowIdx 0x20 4 8 off with
  | some (i, 0) => fieldOf ((u.clamps[regField s 0x01300010 0 8]?).elim [] (·.bytes)) (4 * i) 4
  | _ =>
    match off with
    | 0x0 => pack [(u.bank, 0), (u.cabinet, 2), (u.cabPins, 5), (bit u.cabSrc, 8), (bit u.bankBad, 9)]
    | 0x4 => u.gen
    | 0x8 => pack [(u.step, 0), (bit u.ready, 4), (bit u.degraded, 5), (bit u.abandoned, 6)]
    | 0xC => pack [(u.clamps.length, 0), (bit (decide (256 < u.clampTotal)), 9), (min 0xFFFF u.clampTotal, 16)]
    | 0x40 => lo32 u.readyStamp
    | 0x44 => hi32 u.readyStamp
    | 0x100 => pack [((w.slots.getD w.slot Reset.fwSlot).level, 0), (w.pin, 8), (bit w.mismatch, 16), (w.slot, 17), (hwMax, 24)]
    | 0x104 => slotVersion s 0
    | 0x108 => slotVersion s 1
    | 0x10C => pack [(w.status, 0), (w.causes, 8)]
    | 0x110 => hours s.meter.run
    | _ => 0

/-! ### One register -/

/-- The read-only bits of a register of PF0's map; `pf1` selects PF1's own ledger registers (R137). -/
def roView (s : State) (pf1 : Bool) (off : Nat) : Nat :=
  let o := off % 0x100000
  match off / 0x100000 with
  | 0x00 => viewKpr s off
  | 0x01 => viewHst s pf1 o
  | 0x02 => viewIng s o
  | 0x03 => viewAdm s o
  | 0x04 => viewCmp s o
  | 0x05 => viewScl s o
  | 0x06 => viewPrs s o
  | 0x07 => viewPlk s o
  | 0x08 => viewScn s o
  | 0x09 => viewClr s o
  | 0x0A => viewGle s o
  | 0x0B => viewHbm s o
  | 0x0C => viewTrn s o
  | 0x0D => viewEcc s o
  | 0x0E => viewThm s o
  | 0x0F => viewCat s o
  | 0x10 => viewFij s o
  | 0x11 => viewPwr s o
  | 0x12 => viewTmb s o
  | 0x13 => viewNvm s o
  | _ => 0

/-- Where a function keeps a register's stored bits (R137). -/
def regKey (pf1 : Bool) (off : Nat) : Nat := if pf1 && pf1Own off then off + pf1Base else off

/-- A register as a read finds it: its stored bits and its read-only ones. -/
def regWord (s : State) (pf1 : Bool) (off : Nat) : Word :=
  (if (findReg off).isSome then rawReg s (regKey pf1 off) else 0) ||| wordOf (roView s pf1 off)

/-- The lower registers of the read-only 64-bit pairs. -/
def pairLoRo (off : Nat) : Bool :=
  let k := off / 0x100000
  let o := off % 0x100000
  off = 0x00300008 ||
  (decide (k = 4) && decide (o < 0x8000) && (decide (o % 0x1000 = 0x8) || decide (o % 0x1000 = 0x1C))) ||
  (decide (k = 6) && decide (o < 0x8000) && decide (o % 0x1000 = 0x18)) ||
  (decide (k = 8) && decide (o < 0x800) && decide (o % 0x100 = 0x8)) ||
  ((rowIdx 0xA01000 0x40 48 off).any fun x => x.2 = 0x14) ||
  ((rowIdx 0xA04000 0x10 48 off).any fun x => x.2 = 0x4) ||
  off = 0x00A082C8 || off = 0x00B00010 || off = 0x00C00010 || off = 0x00C00020 || off = 0x00D00028 ||
  ((rowIdx 0xD00100 0x20 16 off).any fun x => x.2 = 0x4 || x.2 = 0x10) ||
  off = 0x00E00010 || off = 0x00E00020 || off = 0x01200008 || off = 0x01200018 || off = 0x01300040

def pairLo (off : Nat) : Bool := pairLoWritable off || pairLoRo off

/-- The PF0 offset of a register of a function's BAR0, where the function has it (R112, R137). -/
def barOffset (pf1 : Bool) (off : Nat) : Option Nat :=
  if pf1 then
    if 65536 ≤ off then none
    else
      let o := off + 0x00100000
      if pf1Own o || (ringReg o).any (fun r => decide (252 ≤ r)) then some o else none
  else if 67108864 ≤ off ∨ (ringReg off).any (fun r => decide (252 ≤ r)) then none
  else some off

/-- One 32-bit read of BAR0 (R7): _LO captures the upper half for the next read of _HI. -/
def readBar0 (off : Nat) (pf1 : Bool) (s : State) : Word × State :=
  match barOffset pf1 off with
  | none => (0, s)
  | some o =>
    let key := regKey pf1 o
    let v := regWord s pf1 o
    if pairLo o then
      (v, { s with host := { s.host with hiCap := setKey key (regWord s pf1 (o + 4)) s.host.hiCap } })
    else if 4 ≤ o ∧ pairLo (o - 4) then
      match getKey (key - 4) s.host.hiCap with
      | some h => (h, { s with host := { s.host with hiCap := dropKey (key - 4) s.host.hiCap } })
      | none => (v, s)
    else (v, s)

end Sys2Proof.Machine
end

