-- ==== Sys2Proof/Machine/HostLoss.lean ====
section
/-!
DEFINITION. The loss of the host link (R143): what PERST_B, a lost PCIe link, a PF0 function-level reset, HOST_LOST and a
follower's hold expiry all do.
-/

namespace Sys2Proof.Machine

/-- HOST_LOST to every follower of the domain (R516). -/
def tellHostLost (s : State) : State :=
  if catRole s = 1 then
    forEach (s.catum.members.map (·.1)) (fun dev => catSend 5 0 dev 0 (u16 (catDevice s) ++ u16 0)) s
  else s

/-- Where a stop under way leads once the host link is lost too: one that would leave the module in P3 leads to start-up from
step 3 (R143); one that waits for the input or for REFCLK goes on as it is (R74, R83). -/
def joinStop (why : StopCause) : StopCause :=
  match why with
  | .p3Request | .thermal => .hostLink
  | w => w

/-- The action of R143: HOST_LOST goes out first, fault injection is disarmed, and the stage 4 sequence runs without
REVOKED notices; its ledger save takes HOST_LINK_STOP and leads to start-up from step 3.  A stop already under way goes on,
and its save takes the record. -/
def hostLost (s : State) : State :=
  if s.startup.ready = false then s
  else match s.power.stop with
    | none => beginStop4 .hostLink true 1 (recordSaved 3 0x0507 [] (dropFaults (tellHostLost s)))
    | some (.hostLink, _) => s
    | some (why, ph) =>
      recordSaved 3 0x0507 [] { dropFaults (tellHostLost s) with power := { s.power with stop := some (joinStop why, ph) } }

end Sys2Proof.Machine
end

