-- ==== Sys2Proof/Machine/Rings.lean ====
section
/-!
DEFINITION. Meanings of the ring commands (chapter 5): doorbells, descriptor fetch, completions, ledger delivery, ring
enables, NOP and LEDGER_MARK.
-/

namespace Sys2Proof.Machine

/-! ### Doorbells (R115 to R117, R128) -/

/-- DOORBELL_BAD with the BAR2 offset and the value; ERR_HOST (R115). -/
def doorbellBad (pf1 : Bool) (off value : Nat) (s : State) : State :=
  raiseCause pf1 5 (recordAt pf1 s.now 3 0x0505 (u8 2 ++ u8 (bit pf1) ++ u16 off ++ u32 value) s)

/-- Whether a ring's doorbell acts through a function: 252 to 255 through PF1 only, the others through PF0 (R113). -/
def ringVisible (ring : Nat) (pf1 : Bool) : Bool := pf1 == decide (252 ≤ ring)

/-- A write of a tail doorbell (R115, R117); DOORBELL_BAD of a ring of PF1's raises ERR_HOST of PF1 alone. -/
def tailDoorbell (ring value : Nat) (pf1 aligned : Bool) (s : State) : State :=
  let r := sqOf s ring
  if !ringVisible ring pf1 then s
  else if !aligned || decide (sqSize s ring ≤ value) || !r.enabled then doorbellBad pf1 (0x1000 + 16 * ring) value s
  else if value = r.tail then s
  else modSq ring (fun q => { q with tail := value, stamps := q.stamps ++ [(value, s.now)] }) s

def execTailDoorbell (dt ring value : Nat) (pf1 aligned : Bool) (s : State) : Res :=
  .next (tailDoorbell ring value pf1 aligned (wakeP2 0 (tick dt s)))

/-- A write of a completion ring's head doorbell: where the ring was full, the hold of the descriptors bound to it ends
(R115, R124, R128). -/
def cqDoorbell (ring value : Nat) (pf1 aligned : Bool) (s : State) : State :=
  if !ringVisible ring pf1 then s
  else if !aligned || decide (cqSize s ring ≤ value) || !(cqOf s ring).enabled then
    doorbellBad pf1 (0x2000 + 16 * ring) value s
  else modCq ring (fun q => { q with head := value, freedAt := if cqRoom ring true s then q.freedAt else s.now }) s

def execCqHeadDoorbell (dt ring value : Nat) (pf1 aligned : Bool) (s : State) : Res :=
  .next (cqDoorbell ring value pf1 aligned (wakeP2 0 (tick dt s)))

/-- Records of a ledger ring (R134), with SIZE as sqSize takes it (notes/assumptions/48.md). -/
def lrSize (s : State) (pf1 : Bool) : Nat := 2 ^ regField s (0x00100018 + if pf1 then pf1Base else 0) 0 4

def modLedger (pf1 : Bool) (f : LedgerRing → LedgerRing) (s : State) : State :=
  { s with ledger := if pf1 then { s.ledger with pf1 := f s.ledger.pf1 } else { s.ledger with main := f s.ledger.main } }

def ledgerOf (s : State) (pf1 : Bool) : LedgerRing := if pf1 then s.ledger.pf1 else s.ledger.main

/-- A write of a ledger ring's head doorbell (R115, R116). -/
def ledgerDoorbell (value : Nat) (pf1 aligned : Bool) (s : State) : State :=
  if !aligned || decide (lrSize s pf1 ≤ value) || !(ledgerOf s pf1).enabled then doorbellBad pf1 0x3000 value s
  else modLedger pf1 (fun r => { r with head := value }) s

def execLedgerHeadDoorbell (dt value : Nat) (pf1 aligned : Bool) (s : State) : Res :=
  .next (ledgerDoorbell value pf1 aligned (wakeP2 0 (tick dt s)))

/-! ### Fetching (R121 to R124) -/

/-- Whether a ring may be fetched from: enabled, not halted, not empty, its completion ring with a free entry. -/
def fetchable (s : State) (q : Nat) : Bool :=
  let r := sqOf s q
  r.enabled && !r.halted && decide (r.head ≠ r.tail) && cqRoom (ringCq s q) true s

/-- The next ring of a tier in round-robin order after the last one fetched. -/
def nextOf (last : Nat) (l : List Nat) : Option Nat :=
  match l.find? fun q => decide (last < q) with
  | some q => some q
  | none => l.head?

/-- The ring fetched next: the PRIO tier first, then the others by weight, a ring with credit left going on (R123). -/
def pickRing (s : State) : Option Nat :=
  let ok := (List.range 256).filter (fetchable s)
  let prio := ok.filter (ringPrio s ·)
  match nextOf s.host.rrPrio prio with
  | some q => some q
  | none =>
    if ok.contains s.host.rrPlain && decide (0 < (sqOf s s.host.rrPlain).credit) then some s.host.rrPlain
    else nextOf s.host.rrPlain ok

/-- The doorbell stamp of the descriptor in the slot at HEAD: that of the first tail rung beyond it (R117). -/
def slotStamp (r : SubRing) (size : Nat) : Nat :=
  let ahead := fun v : Nat => (v + size - r.head) % size
  ((r.stamps.find? fun e => decide (ahead e.1 ≠ 0)).map (·.2)).getD 0

/-- Stamps whose tails HEAD has reached are dropped. -/
def trimStamps (head : Nat) (l : List (Nat × Nat)) : List (Nat × Nat) :=
  match l with
  | [] => []
  | e :: es => if e.1 = head then es else e :: es

/-- Fetches that a ring has left in its round after the one now made: WEIGHT + 1 of them in a round, and a round ends where the
ring runs empty (R123). -/
def creditAfter (s : State) (q head : Nat) : Nat :=
  let r := sqOf s q
  if head = r.tail then 0
  else if q = s.host.rrPlain ∧ 0 < r.credit then r.credit - 1
  else regField s (0x00101008 + 32 * q) 16 4

/-- HEAD passes one slot, the completion entry is taken, the round-robin place is kept (R121, R123). -/
def advance (q : Nat) (s : State) : State :=
  let h := ((sqOf s q).head + 1) % sqSize s q
  let w := creditAfter s q h
  let s := modSq q (fun r => { r with head := h, stamps := trimStamps h r.stamps, credit := w }) s
  let s := modCq (ringCq s q) (fun c => { c with taken := c.taken + 1 }) s
  { s with host := if ringPrio s q then { s.host with rrPrio := q } else { s.host with rrPlain := q } }

/-- A fetch that fails halts its ring (R138). -/
def fetchError (q : Nat) (s : State) : State :=
  let pf1 := decide (252 ≤ q)
  raiseCause pf1 5 (recordAt pf1 s.now 3 0x0508 (u16 q) (modSq q (fun r => { r with halted := true, err := r.err }) s))

/-- A descriptor whose cached copy reads as uncorrectable, at the given offsets of its pool, is not executed (R475, R477). -/
def cacheLost (q : Nat) (bad : List Nat) (s : State) : State :=
  let slot := (sqOf s q).head
  let s := advance q (countUe 2 3 bad s)
  postTo (ringCq s q) { tag := 0xFFFFFFFF, status := 0x40, sq := q, freeRun := freeRun s, notice := false, stamp := s.now,
                        detail := padTo 8 (u16 q ++ u16 slot), db := 0, irq := false, took := true } s

/-- The forwarding entry of a lead ring (R513). -/
def fwdOf (s : State) (q : Nat) : Option FwdEnt := s.catum.fwd.find? fun e => e.ring = q

/-- A fetched descriptor of a forwarded ring goes to its follower unchecked (R513, Table 22.8).  A QUIET one keeps no
completion entry: its follower may return none.  It is taken and given back at one instant, so no descriptor is held by it (R124). -/
def forwardDesc (q : Nat) (e : FwdEnt) (d : Desc) (s : State) : State :=
  let s := { s with catum := { s.catum with fwdHeld := s.catum.fwdHeld ++ [(e.device, d)] } }
  let s := if d.quiet then modCq (ringCq s q) (fun r => { r with taken := r.taken - 1 }) s else s
  catSend 6 (if ringPrio s q then 0 else 2) e.device 0
    (u8 e.fring ++ u8 0 ++ u8 q ++ List.replicate 5 0 ++ u64 d.db ++ padTo 64 d.bytes) s

/-- The end of the hold of a descriptor fetched now: of its ring's halt, or of its full completion ring, after its doorbell
(R124); 0 when it was not held. -/
def fetchHold (q db : Nat) (s : State) : Nat :=
  let t := max (sqOf s q).heldTill (cqOf s (ringCq s q)).freedAt
  if db < t then t else 0

def execDescriptorFetch (dt : Nat) (slot : HostBuf) (cacheBad : List Nat) (s : State) : Res :=
  let s := tick dt s
  match pickRing s with
  | none => .next s
  | some q =>
    match slot with
    | .error _ => .next (fetchError q s)
    | .data bs =>
      if !cacheBad.isEmpty then .next (cacheLost q cacheBad s)
      else
        let db := slotStamp (sqOf s q) (sqSize s q)
        let d : Desc := { ring := q, bytes := padTo 64 bs, db := db, hold := fetchHold q db s, fwd := none }
        let s := advance q s
        match fwdOf s q with
        | some e => .next (forwardDesc q e d s)
        | none =>
          let s := { s with host := { s.host with fetched := s.host.fetched ++ [d] } }
          .next (settleBad q s.host.fetched.length s)

/-! ### Completions and the ledger (R130, R135, R138) -/

/-- A hold-area entry that reads as uncorrectable, at the given offsets of its pool, is discarded as for a full hold area, with TAG
0xFFFF_FFFF (R475, R477). -/
def lostComp (c status : Nat) (bad : List Nat) (s : State) : State :=
  let pf1 := decide (252 ≤ c)
  let s := countUe 2 3 bad s
  raiseCause pf1 4 (recordAt pf1 s.now 3 0x0504 (u32 0xFFFFFFFF ++ u16 status) (setBits (0x0010300C + 32 * c) 2 s))

def execCompletionPost (dt ring : Nat) (bad : List Nat) (s : State) : Res :=
  let s := tick dt s
  match (cqOf s ring).hold with
  | [] => .next s
  | m :: rest =>
    if !cqRoom ring m.notice s then .next s
    else
      let s := modCq ring (fun r => { r with hold := rest }) s
      let s := if bad.isEmpty then writeComp ring m s
               else lostComp ring m.status bad (if m.took then freeEntry ring s else s)
      .next (settleBad m.sq s.host.fetched.length s)

def execCoalesceTimer (dt ring : Nat) (s : State) : Res :=
  let s := tick dt s
  let t := regField s (0x00103008 + 32 * ring) 24 8
  let r := cqOf s ring
  if t ≠ 0 ∧ 0 < r.unsent ∧ r.since + t * usec ≤ s.now then .next (sendCqVector ring s) else .next s

/-- Room in a ledger ring (R128, R134). -/
def ledgerRoom (pf1 : Bool) (s : State) : Bool :=
  let r := ledgerOf s pf1
  let size := lrSize s pf1
  r.enabled && decide ((r.tail + size - r.head) % size < size - 1)

/-- Write one record in ring order with PHASE; the LEDGER cause (R134, R136). -/
def writeRec (pf1 : Bool) (m : Rec) (s : State) : State :=
  let r := ledgerOf s pf1
  let next := (r.tail + 1) % lrSize s pf1
  let s := emit (.ledg pf1 r.tail r.phase m) s
  raiseCause pf1 8 (modLedger pf1 (fun r => { r with tail := next, phase := if next = 0 then !r.phase else r.phase }) s)

/-- R9: by stamp, device and unit, then by SEQUENCE, where `b` is not earlier when (b - a) mod 65,536 is below 32,768
(R157). -/
def recBefore (a b : Rec) : Bool :=
  let ka := [a.stamp, a.device, a.unit]
  let kb := [b.stamp, b.device, b.unit]
  decide (ka < kb) || (decide (ka = kb) && decide ((b.seq + 65536 - a.seq) % 65536 < 32768))

/-- Take the earliest record of a list in the order of R9. -/
def earliest : List Rec → Option (Rec × List Rec)
  | [] => none
  | r :: rs => match earliest rs with
    | none => some (r, [])
    | some (m, rest) => if recBefore r m then some (r, rs) else some (m, r :: rest)

/-- The next record of the PF0 ledger: saved ones and start-up records come before any later record (R72, R91). -/
def nextRec (pf1 : Bool) (s : State) : Option (Rec × State) :=
  let l := s.ledger
  if pf1 then (earliest l.pf1.hold).map fun x => (x.1, { s with ledger := { l with pf1 := { l.pf1 with hold := x.2 } } })
  else match earliest l.saved with
    | some x => some (x.1, { s with ledger := { l with saved := x.2 } })
    | none => match earliest l.startBuf with
      | some x => some (x.1, { s with ledger := { l with startBuf := x.2 } })
      | none => (earliest l.main.hold).map fun x => (x.1, { s with ledger := { l with main := { l.main with hold := x.2 } } })

/-- LEDGER_OVERFLOW once its holding store, or the start-up buffer, has space again (R91, R116, R135). -/
def overflowRec (pf1 : Bool) (s : State) : State :=
  let l := ledgerOf s pf1
  if l.lost ≠ 0 ∧ l.hold.length < 16384 then
    let det := u24 (min 0xFFFFFF l.lost) ++ u8 (bit pf1) ++ u48 l.lostFirst ++ u48 l.lostLast
    let s := modLedger pf1 (fun r => { r with lost := 0, lostFirst := 0, lostLast := 0 }) s
    raiseCause pf1 4 (recordAt pf1 s.now (if pf1 then 3 else 1) 0x0501 det s)
  else if !pf1 ∧ s.ledger.startLost ≠ 0 ∧ s.ledger.startBuf.length < 1024 ∧
      (s.startup.running ∨ s.ledger.main.hold.length < 16384) then
    let n := s.ledger.startLost
    raiseCause false 4 (record 1 0x0501 (u32 n) { s with ledger := { s.ledger with startLost := 0 } })
  else s

/-- The next `n` held records, in the order in which they are delivered. -/
def takeRecs : Nat → State → List Rec × State
  | 0, s => ([], s)
  | n + 1, s =>
    match nextRec false s with
    | none => ([], s)
    | some (r, s) => let x := takeRecs n s; (r :: x.1, x.2)

/-- A record has been delivered; LEDGER_RECORD_LOST follows those lost before it, with the stamps of the records delivered on
either side (R476). -/
def noteDelivered (pf1 : Bool) (stamp : Nat) (s : State) : State :=
  let r := ledgerOf s pf1
  let s := modLedger pf1 (fun r => { r with lastOut := stamp, gap := 0 }) s
  if r.gap = 0 then s else record 7 0x1405 (u32 r.gap ++ u48 r.lastOut ++ u48 stamp) s

/-- A held record reads as uncorrectable at some addresses of its store: it is not delivered (R476, R477). -/
def loseRecord (pf1 : Bool) (bad : List Nat) (s : State) : State :=
  countBad 1 bad (modLedger pf1 (fun r => { r with gap := bump r.gap }) s)

/-- The addresses at which the record of a position reads as uncorrectable. -/
def badOf (lost : List (Nat × Nat)) (i : Nat) : List Nat := (lost.filter (·.1 = i)).map (·.2)

/-- Up to sixteen held records leave a follower for its lead, in the order of delivery (R514); while VC3 is held, or no route leads
there, they stay (R510, R514).  Those of the listed positions read as
uncorrectable and do not (R476). -/
def ledgerToLead (n : Nat) (lost : List (Nat × Nat)) (s : State) : State :=
  let x := takeRecs (min n 16) s
  if x.1.isEmpty ∨ 1 ≤ s.power.stage ∨ (routeOf s (catLead s)).isNone then s
  else
    let kept := (x.1.zipIdx.filter fun r => (badOf lost r.2).isEmpty).map (·.1)
    let bytes := kept.flatMap fun r => u16 r.event ++ u16 (r.device + 1024 * r.unit) ++ u16 r.seq ++
      u16 (2 * bit r.freeRun + 4 * bit r.saved) ++ u64 r.stamp ++ padTo 16 r.detail
    let s := if kept.isEmpty then x.2 else catSend 0x0B 3 (catLead s) 0 bytes x.2
    overflowRec false (forEach x.1.zipIdx (fun r s => if (badOf lost r.2).isEmpty then noteDelivered false r.1.stamp s
      else loseRecord false (badOf lost r.2) s) s)

/-- Deliver records one by one in the order of R9; those of the listed positions read as uncorrectable and are not delivered
(R476). -/
def deliver (pf1 : Bool) (lost : List (Nat × Nat)) : Nat → Nat → State → State
  | 0, _, s => s
  | n + 1, i, s =>
    if !ledgerRoom pf1 s then s
    else match nextRec pf1 s with
      | none => s
      | some (r, s) =>
        deliver pf1 lost n (i + 1) (if (badOf lost i).isEmpty then noteDelivered pf1 r.stamp (writeRec pf1 r s)
          else loseRecord pf1 (badOf lost i) s)

def execLedgerDeliver (dt count : Nat) (pf1 : Bool) (lost : List (Nat × Nat)) (s : State) : Res :=
  let s := tick dt s
  if !pf1 && decide (catRole s = 2) then .next (ledgerToLead count lost s)
  else .next (overflowRec pf1 (deliver pf1 lost count 0 s))

/-! ### Enables (R120, R128, R136, R145) -/

/-- Whether PF0 already has four enabled rings with PRIO = 1 beside this one. -/
def prioFull (s : State) (q : Nat) : Bool :=
  decide (4 ≤ ((List.range 252).filter fun r => r ≠ q ∧ (sqOf s r).enabled ∧ ringPrio s r).length)

/-- Whether the enable of a submission ring is refused (R120, R541). -/
def sqRefused (s : State) (q : Nat) : Bool :=
  let size := regField s (0x00101008 + 32 * q) 0 4
  decide (size < 6) || decide (16 < size) || !(cqOf s (ringCq s q)).enabled ||
    (decide (q < 252) && ringPrio s q && prioFull s q) || s.wear.ringsBad.contains q ||
    (decide (252 ≤ q) != decide (252 ≤ ringCq s q))

/-- HST_SQq_CTL.ENABLE is set (R120). -/
def sqEnable (ring : Nat) (pf1 : Bool) (s : State) : State :=
  if !ringVisible ring pf1 || (sqOf s ring).enabled then s
  else if sqRefused s ring then modSq ring (fun r => { r with err := true }) s
  else modSq ring (fun _ => { Reset.subRing with
      enabled := true }) s

def execSqEnable (dt ring : Nat) (pf1 : Bool) (s : State) : Res := .next (sqEnable ring pf1 (tick dt s))

/-- Fetched descriptors not begun complete with FLUSHED (R120). -/
def flushRing (q : Nat) (s : State) : State :=
  let l := s.host.fetched.filter fun d => d.ring = q ∧ d.fwd = none
  let s := { s with host := { s.host with fetched := s.host.fetched.filter fun d => !(d.ring == q && d.fwd.isNone) } }
  forEach l (fun d => complete d 0x584 []) s

/-- HST_SQq_CTL.ENABLE is cleared (R120). -/
def sqDisable (ring : Nat) (pf1 : Bool) (s : State) : State :=
  if !ringVisible ring pf1 then s
  else flushRing ring (modSq ring (fun r => { r with enabled := false, halted := false, haltedUcw := false }) s)

def execSqDisable (dt ring : Nat) (pf1 : Bool) (s : State) : Res := .next (sqDisable ring pf1 (tick dt s))

/-- Whether a completion ring's set-up allows its enable: SIZE and a VECTOR of its function (R128, R136, R541). -/
def cqRefused (s : State) (c : Nat) : Bool :=
  let size := regField s (0x00103008 + 32 * c) 0 4
  let v := regField s (0x00103008 + 32 * c) 4 6
  decide (size < 6) || decide (16 < size) || decide (v < if 252 ≤ c then 2 else 4) || s.wear.ringsBad.contains (256 + c)

/-- HST_CQc_CTL.ENABLE is set (Table 5.14); the entries taken by descriptors still at work stay taken (R123). -/
def cqEnable (ring : Nat) (pf1 : Bool) (s : State) : State :=
  if !ringVisible ring pf1 || (cqOf s ring).enabled || cqRefused s ring then s
  else modCq ring (fun r => { Reset.compRing with enabled := true, hold := r.hold, taken := r.taken }) s

def execCqEnable (dt ring : Nat) (pf1 : Bool) (s : State) : Res := .next (cqEnable ring pf1 (tick dt s))

/-- HST_CQc_CTL.ENABLE is cleared: refused while an enabled submission ring is bound (Table 5.14). -/
def cqDisable (ring : Nat) (pf1 : Bool) (s : State) : State :=
  if !ringVisible ring pf1 || (List.range 256).any (fun q => (sqOf s q).enabled && decide (ringCq s q = ring)) then s
  else modCq ring (fun r => { r with enabled := false }) s

def execCqDisable (dt ring : Nat) (pf1 : Bool) (s : State) : Res := .next (cqDisable ring pf1 (tick dt s))

/-- Whether a ledger ring's SIZE lies outside 10 to 16 (R134): no ring of that size exists, so the enable is refused. -/
def ledgerRefused (pf1 : Bool) (s : State) : Bool :=
  let size := regField s (0x00100018 + if pf1 then pf1Base else 0) 0 4
  decide (size < 10) || decide (16 < size)

/-- HST_LR_CTL.ENABLE is set: the tail starts from 0 (Table 5.14). -/
def ledgerEnable (pf1 : Bool) (s : State) : State :=
  if (ledgerOf s pf1).enabled || ledgerRefused pf1 s then s
  else modLedger pf1 (fun r => { r with enabled := true, head := 0, tail := 0, phase := true }) s

def execLedgerRingEnable (dt : Nat) (pf1 : Bool) (s : State) : Res := .next (ledgerEnable pf1 (tick dt s))

/-! ### The host family (R133) -/

def specHost : OpSpec := ⟨0x0101, false, true, true, false, false, []⟩

def execNop (dt : Nat) (d : Desc) (s : State) : Res :=
  .next (runDesc specHost d noBad noOver (fun d s => complete d 0 [] s) (tick dt s))

def markSpec : OpSpec := { specHost with code := 0x0102, zero := span 32 63 }

def execLedgerMark (dt : Nat) (d : Desc) (s : State) : Res :=
  .next (runDesc markSpec d noBad noOver
    (fun d s => complete d 0 [] (recordAt (decide (252 ≤ d.ring)) d.db 3 0x050A (slice d.bytes 16 16) s)) (tick dt s))

/-! ### PF1 (R144) -/

/-- Remove every register of PF1's own (R137). -/
def clearPf1Regs (s : State) : State := { s with regs := s.regs.filter fun e => decide (e.1 < pf1Base) }

/-- A PF1 function-level reset (R144): its rings disabled with their completions, those still to come of begun descriptors
among them; the records that its ledger copy holds stay, for FUNCTION_RESET and what precedes it to be delivered. -/
def pf1Flr (s : State) : State :=
  let s := forEach [252, 253, 254, 255] (fun q s =>
    modCq q (fun _ => Reset.compRing) (modSq q (fun _ => Reset.subRing) s)) s
  let mine := fun d : Desc => decide (252 ≤ d.ring)
  let s := { s with host := { s.host with
    fetched := s.host.fetched.filter fun d => !mine d
    begun := s.host.begun.filter fun d => !mine d
    dropped := s.host.dropped ++ s.host.begun.filter mine } }
  let s := modLedger true (fun r => { r with enabled := false, phase := true, head := 0, tail := 0 }) (clearPf1Regs s)
  recordAt true s.now 3 0x0509 (u8 1) s

def execPf1Flr (dt : Nat) (s : State) : Res := .next (pf1Flr (tick dt s))

end Sys2Proof.Machine
end

