-- ==== Sys2Proof/Machine/Ucw.lean ====
section
/-!
DEFINITION. Meanings of the Urgent Control Word commands (R141, Table 5.12, R516).
-/

namespace Sys2Proof.Machine

/-- The Urgent Control Word of an action (R141). -/
def ucwWord (action heads : Nat) (domain : Bool) : Nat := action + 256 * (heads % 256) + 65536 * bit domain + 0xC3000000

/-- The channels of a mask's heads that DARK_RAMP ramps: those a named head owns, in RUN or RAMP (Table 5.12). -/
def rampsOf (action heads : Nat) (s : State) : List Nat :=
  if action ≠ 2 then []
  else (List.range 48).filter fun c =>
    (chanOf s c).enabled && (chanOwner s c).any fun k => (namedHeads heads).contains k

/-- A legal word is received: UCW_STAT, BUSY, and the word on VC0 to every follower of the domain (R141, R516). -/
def ucwBegin (action heads : Nat) (domain pf1 : Bool) (s : State) : State :=
  let w := ucwWord action heads domain
  let run : UcwRun := { action := action, heads := namedHeads heads, ramps := rampsOf action heads s, word := w, pf1 := pf1, start := s.now }
  let s := { s with host := { s.host with ucwAction := action, ucwCount := (s.host.ucwCount + 1) % 256,
                                          ucwRuns := s.host.ucwRuns ++ [run] } }
  if domain && decide (catRole s = 1) then
    let devs := s.catum.members.map (·.1)
    let s := forEach devs (fun dev =>
      catSend 4 0 dev 0 (u32 w ++ List.replicate 4 0 ++ u64 s.now ++ u64 0)) s
    { s with catum := { s.catum with ucw := s.catum.ucw ++ [{ action := action, word := w, pf1 := pf1, start := s.now, waiting := devs, ownEnd := none }] } }
  else s

/-- DARK_NOW: outputs forced as under INTLK_B, every channel OFF (R141, R385). -/
def darkNowAct (s : State) : State := forceOff 4 s

/-- DARK_RAMP: the loop sets of channels the named heads own are revoked alone and ramp from the start of the action. -/
def darkRampAct (heads : Nat) (s : State) : State :=
  let owned := fun c : Nat => (chanOwner s c).any fun k => (namedHeads heads).contains k
  let t := s.now
  let s := revokeAll false true t 0xFF 7 (fun i => match i.kind with | .loopSet c _ _ => owned c | _ => false) s
  rampMask (maskOf ((List.range 48).filter owned)) 2 s

/-- STOP_HEADS: the named heads are revoked and stop at once; their channels ramp; PARK once dark (Table 5.12). -/
def stopHeadsAct (heads : Nat) (s : State) : State :=
  let t := s.now
  forEach (namedHeads heads) (fun k s =>
    match (headOf s k).pipe.cfg with
    | none => s
    | some c =>
      let s := revokeAll false false t 0xFF 7 (fun i => i.kind == .head k) s
      let s := rampHead c.channels 7 s
      stopHead k 4 s) s

/-- HALT_RINGS: fetching stops on every PF0 ring with PRIO = 0 (Table 5.12).  Whether a disabled ring, which fetches nothing, gets
HALTED too the spec does not say: it does not (DESIGN CHOICE, notes/assumptions/104.md). -/
def haltRingsAct (s : State) : State :=
  forEach (List.range 252) (fun q s =>
    if ringPrio s q || !(sqOf s q).enabled then s
    else modSq q (fun r => { r with halted := true, haltedUcw := r.haltedUcw || !r.halted }) s) s

def resumeRingsAct (s : State) : State :=
  forEach (List.range 252) (modSq · fun r =>
    if r.haltedUcw then { r with halted := false, haltedUcw := false, heldTill := s.now } else r) s

/-- STOP_INGEST: every flow is revoked and ends at once, so that a push under way completes with BAD_CONTEXT; ingest ports
stop (Table 5.12, R173). -/
def stopIngestAct (s : State) : State :=
  let s := revokeAll false true s.now 0xFF 7 (fun i => match i.kind with
    | .flow _ => true
    | _ => false) s
  let s := { s with host := { s.host with ingestStop := true } }
  stopIngestNow 6 s

/-- The action of a word (Table 5.12). -/
def ucwAct (action heads : Nat) (s : State) : State :=
  match action with
  | 1 => darkNowAct s
  | 2 => darkRampAct heads s
  | 3 => stopHeadsAct heads s
  | 4 => haltRingsAct s
  | 5 => resumeRingsAct s
  | _ => stopIngestAct s

/-- A word written is legal: CHECK 0xC3, reserved bits 0, an ACTION of Table 5.12, and through PF1 only DARK_NOW (R141). -/
def ucwLegal (pf1 : Bool) (w : Nat) : Bool :=
  bits w 24 8 == 0xC3 && bits w 17 7 == 0 && decide (1 ≤ w % 256) && decide (w % 256 ≤ if pf1 then 1 else 6)

/-- A word that is not legal is discarded and recorded (R141). -/
def ucwReject (pf1 : Bool) (word : Word) (s : State) : State :=
  recordAt pf1 s.now 3 0x0506 (u32 word.toNat ++ u16 0 ++ u8 1 ++ u8 0) { s with host := { s.host with ucwReject := true } }

/-- A 32-bit write at BAR2 offset 0: the Urgent Control Word acts at once, or is rejected (R141). -/
def ucwWrite (pf1 : Bool) (w : Nat) (s : State) : State :=
  if ucwLegal pf1 w then ucwAct (w % 256) (bits w 8 8) (ucwBegin (w % 256) (bits w 8 8) (bitOf w 16) pf1 s)
  else ucwReject pf1 (wordOf w) s

/-- The word of an action as the host writes it, received while the module may be in P2. -/
def ucwSent (action heads : Nat) (domain pf1 : Bool) (dt : Nat) (s : State) : State :=
  ucwWrite pf1 (ucwWord action heads domain) (wakeP2 0 (tick dt s))

def execDarkNow (dt heads : Nat) (domain pf1 : Bool) (s : State) : Res := .next (ucwSent 1 heads domain pf1 dt s)

def execDarkRamp (dt heads : Nat) (domain : Bool) (s : State) : Res := .next (ucwSent 2 heads domain false dt s)

def execStopHeads (dt heads : Nat) (domain : Bool) (s : State) : Res := .next (ucwSent 3 heads domain false dt s)

def execHaltRings (dt heads : Nat) (domain : Bool) (s : State) : Res := .next (ucwSent 4 heads domain false dt s)

def execResumeRings (dt heads : Nat) (domain : Bool) (s : State) : Res := .next (ucwSent 5 heads domain false dt s)

def execStopIngest (dt heads : Nat) (domain : Bool) (s : State) : Res := .next (ucwSent 6 heads domain false dt s)

def execUcwRejected (dt : Nat) (word : Word) (pf1 : Bool) (s : State) : Res :=
  .next (ucwWrite pf1 word.toNat (wakeP2 0 (tick dt s)))

/-- Whether an action has finished (R141): ramps ended, PARK sent, nothing left to stop. -/
def ucwFinished (s : State) (r : UcwRun) : Bool :=
  match r.action with
  | 2 => r.ramps.all fun c => (chanOf s c).state != .ramp && (chanOf s c).state != .run
  | 3 => r.heads.all fun k => (headOf s k).pipe.parkDue.isNone
  | 6 => s.ingest.flows.isEmpty && s.adm.transfers.all fun t => t.opcode != 0x0403
  | _ => true

/-- The lead's report of an action, or the follower's answer to its lead (R141, R516). -/
def ucwDone (r : UcwRun) (s : State) : State :=
  let late := (s.catum.ucw.find? fun u => u.action = r.action && u.ownEnd.isNone).map (·.waiting)
  let s := { s with host := { s.host with ucwRuns := s.host.ucwRuns.erase r } }
  match late with
  | some (_ :: _) =>
    { s with catum := { s.catum with ucw := s.catum.ucw.map fun u =>
        if u.action = r.action ∧ u.ownEnd = none then { u with ownEnd := some s.now } else u } }
  | _ =>
    let s := { s with catum := { s.catum with ucw := s.catum.ucw.filter fun u => !(u.action == r.action && u.ownEnd.isNone) } }
    raiseCause false 24 (recordAt r.pf1 s.now 3 0x0506 (u32 r.word ++ u32 0 ++ u64 r.start) s)

/-- A follower that carried out its lead's word reports when the action has finished (R516). -/
def ucwReport (action : Nat) (s : State) : State :=
  match s.catum.ucwIn.find? fun x => x.1 % 256 = action with
  | none => s
  | some x =>
    catSend 4 0 (catLead s) x.2.2 (u32 x.1 ++ u8 1 ++ List.replicate 3 0 ++ u64 x.2.1 ++ u64 s.now)
      { s with catum := { s.catum with ucwIn := s.catum.ucwIn.erase x } }

def execUcwAction (dt action : Nat) (s : State) : Res :=
  let s := tick dt s
  match s.host.ucwRuns.find? fun r => r.action = action with
  | none => .next s
  | some r => if ucwFinished s r then .next (ucwReport action (ucwDone r s)) else .next s

/-- UCW_STAT (R141). -/
def ucwStat (s : State) : Nat :=
  s.host.ucwAction + 256 * s.host.ucwCount + 65536 * bit (!s.host.ucwRuns.isEmpty) + 131072 * bit s.host.ucwReject

/-- A read of BAR2 offset 0, which clears REJECTED (R141). -/
def ucwRead (s : State) : State :=
  { emit (.read 0 (u32 (ucwStat s))) s with host := { s.host with ucwReject := false } }

def execUcwStatRead (dt : Nat) (s : State) : Res := .next (ucwRead (tick dt s))

end Sys2Proof.Machine
end

