-- ==== Sys2Proof/Machine/BarWrite.lean ====
section
/-!
DEFINITION. One write to BAR0 with every effect a register's write has: the set-up lock (R118, R67), ring enables, the
clears of the WO registers, HBM_CFG and the AOUT ranges.  The mailbox of R518 writes through it.
-/

namespace Sys2Proof.Machine

/-! ### The set-up lock -/

/-- Ranges of the thresholds and of the hysteresis, mV (Table 3.1). -/
def thrRange (i : Nat) : Nat × Nat := [(8000, 8900), (7800, 8700), (7700, 8500), (7600, 8200)].getD i (7600, 8200)

/-- Each threshold clamped to its range, then raised to stand 0.2 V above the next (R67).  A value off the 10 mV step of
Table 3.1 is used as written (DESIGN CHOICE; notes/assumptions/60.md). -/
def lockThr (l : List Nat) : List Nat :=
  let c := fun i => clampNat (thrRange i).1 (thrRange i).2 (l.getD i 0)
  let t4 := c 3
  let t3 := max (c 2) (t4 + 200)
  let t2 := max (c 1) (t3 + 200)
  [max (c 0) (t2 + 200), t2, t3, t4]

/-- The shedding values of the registers. -/
def regThr (s : State) : List Nat := (List.range 4).map fun i => regField s (0x01100010 + 4 * i) 0 14
def regHyst (s : State) : Nat := regField s 0x01100020 0 10

/-- The checks of R67 at set-up lock: the values used come into force, and a change sets CLAMPED and is recorded. -/
def lockShedding (s : State) : State :=
  let l := lockThr (regThr s)
  let h := clampNat 100 1000 (regHyst s)
  let changed := l != regThr s || h != regHyst s
  let s := { s with power := { s.power with thr := l, hyst := h } }
  if !changed then s
  else
    let s := forEach (List.range 4) (fun i => setRaw (0x01100010 + 4 * i) (wordOf (l.getD i 0))) s
    record 0x2D 0x0307 (l.flatMap u16 ++ u16 h) (setBits 0x01100028 0x100 (setRaw 0x01100020 (wordOf h) s))

/-- A write of KPR_SETUP_LOCK (R118). -/
def setupLock (v : Nat) (s : State) : State :=
  if v ≠ 0x5E7010CC ∨ s.host.locked then s
  else
    let s := lockShedding s
    record 3 0x0503 [] { s with host := { s.host with locked := true } }

def execSetupLock (dt : Nat) (s : State) : Res := .next (setupLock 0x5E7010CC (tick dt s))

/-! ### Writes with an effect of their own -/

/-- ENABLE of a ring register, at its PF0 offset: set or cleared by bit 0 of the value a function writes (Table 5.14). -/
def enableWrite (off v : Nat) (pf1 : Bool) (s : State) : State :=
  let on := v % 2 == 1
  match rowIdx 0x00101000 32 256 off, rowIdx 0x00103000 32 256 off with
  | some (q, 0xC), _ => if on then sqEnable q pf1 s else sqDisable q pf1 s
  | _, some (c, 0xC) => if on then cqEnable c pf1 s else cqDisable c pf1 s
  | _, _ =>
    if off = 0x0010001C then (if on then ledgerEnable pf1 s else modLedger pf1 (fun r => { r with enabled := false }) s)
    else s

/-- Clears of a head's WO registers. -/
def clearHead (k off : Nat) (v : Nat) (s : State) : State :=
  match off with
  | 0x00400028 => modPipe k (fun p => { p with late := if bitOf v 0 then 0 else p.late
                                               gapMin := if bitOf v 1 then 0xFFFFFFFF else p.gapMin }) s
  | 0x00600014 => modPress k (fun p => { p with slackMin := if bitOf v 0 then 0xFFFFFFFF else p.slackMin
                                                darkTiles := if bitOf v 1 then 0 else p.darkTiles }) s
  | 0x00600034 => if bitOf v 0 then modMotion k (fun m => { m with miss := 0 }) s else s
  | 0x00800020 => if bitOf v 0 then modScan k (fun c => { c with cut := 0, lost := 0 }) s else s
  | 0x00900038 => if bitOf v 0 then modSolver k (fun c => { c with limitedN := 0 }) s else s
  | _ => s

/-- The row and instance of a head's WO register. -/
def headWo (off : Nat) : Option (Nat × Nat) :=
  match [(0x00400028, 0x1000), (0x00600014, 0x1000), (0x00600034, 0x1000), (0x00800020, 0x100), (0x00900038, 0x100)].find?
      fun x => decide (x.1 ≤ off) && (off - x.1) % x.2 == 0 && decide ((off - x.1) / x.2 < 8) with
  | some x => some (x.1, (off - x.1) / x.2)
  | none => none

/-- CLR of a port's, channel's or block's WO register; true where the offset is one of them. -/
def clearBlock (off v : Nat) (s : State) : Option State :=
  let one := fun f : State → State => some (if v % 2 = 1 then f s else s)
  match rowIdx 0x0070000C 0x100 16 off, rowIdx 0x00A01024 0x40 48 off, rowIdx 0x00A02014 0x20 48 off with
  | some (p, 0), _, _ => one (modPort p clearCounts)
  | _, some (c, 0), _ => one (clearChan c)
  | _, _, some (c, 0) => one (clearSp c)
  | _, _, _ =>
    match off with
    | 0x00201024 => one clearFlow
    | 0x00B0001C => one clearHbm
    | 0x00D00030 => one fun s => clearRegion (regField s 0x00D00014 0 8) s
    | 0x0110000C => one clearMin
    | _ => none

/-- KPR_TEST_ENABLE (R526): the key arms before set-up lock, zero disarms; `clear` clears every rule with a cause. -/
def testEnable (clear : Nat → State → State) (v : Nat) (s : State) : State :=
  if v = 0x7E570A5E then
    if s.host.locked then rwlRecord 0 0x108 v s
    else if s.fault.armed then s
    else record 9 0x1702 [] { s with fault := { s.fault with armed := true, total := 0 } }
  else if v = 0 ∧ s.fault.armed then
    clear 1 (record 9 0x1703 [] { s with fault := { s.fault with armed := false } })
  else s

/-- A write to PF0's BAR0 with every effect it has: `clear` clears the fault rules (R527, R537), `go` starts a mailbox
access (R518). -/
def barWrite (clear : Nat → State → State) (go : State → State) (off : Nat) (v : Word) (s : State) : State :=
  let w := v.toNat
  if off = 0x00000100 then setupLock w s
  else if off = 0x00000108 then testEnable clear w s
  else if off = 0x0100001C then (if w % 2 = 1 then clear 3 s else s)
  else if off = 0x00B00004 then cfgWrite v s
  else if off = 0x00F0001C then (if w % 2 = 1 then go (writeBar0 off v false s) else writeBar0 off v false s)
  else match headWo off with
    | some (r, k) => clearHead k r w s
    | none => match rowIdx 0x00A08000 4 48 off with
      | some (c, 0) => aoutRange c v s
      | _ => match clearBlock off w s with
        | some t => t
        | none => writeBar0 off v false (enableWrite off w false s)

/-- A write to PF1's BAR0: its ring registers and those of R137, with the effect of each ENABLE. -/
def pf1Write (off : Nat) (v : Word) (s : State) : State :=
  if 65536 ≤ off then s else writeBar0 off v true (enableWrite (off + 0x00100000) v.toNat true s)

end Sys2Proof.Machine
end

