-- ==== Sys2Proof/Machine/Catum.lean ====
section
/-!
DEFINITION. Catum Link ports (chapter 22): training (R501 to R503), packet checks (R504 to R506), acknowledgement, credit and
replay (R507, R508), identity and routes (R509, R510), and meanings of their commands and of CAT_CONFIG (R512).
-/

namespace Sys2Proof.Machine

def catUnit (port : Nat) : Nat := 0x28 + port

/-! ### Training (R502, R503) -/

/-- The lanes a port needs: 0 to 3, or the reserve in place of one. -/
def CatPort.needed (c : CatPort) : Nat := if c.spared < 4 then 0x1F - 2 ^ c.spared else 0xF

def CatPort.lockedAll (c : CatPort) : Bool := c.needed &&& c.lock == c.needed

/-- Both ends send PRBS31; the reserve is chosen again (R502, R538). -/
def catTrain (port : Nat) (s : State) : State :=
  modCat port (fun c => { c with
    state := .bitlock, lock := 0, spared := 15, helloIn := false, nakSent := false, trainAt := s.now }) s

/-- Since when a follower has had no route to its lead (R517). -/
def checkLead (s : State) : State :=
  let ok := (routeOf s (catLead s)).any fun p => (catOf s p).state == .ready
  if catRole s = 2 ∧ !ok then { s with catum := { s.catum with leadLost := some (s.catum.leadLost.getD s.now) } }
  else { s with catum := { s.catum with leadLost := none } }

/-- The CAT_ID value (Table 22.7). -/
def catIdWord (s : State) : Nat := catDevice s + 1024 * catDomain s + 16384 * catRole s + 65536 * catLead s

/-- IDENT: the port sends its HELLO with HOPS 1, hop-local (R502; notes/assumptions/30.md). -/
def catIdent (port : Nat) (s : State) : State :=
  catOut port false { type_ := 1, vc := 0, dest := 0, src := catDevice s, hops := 1, lsn := 0, tag := 0, payload := u32 (catIdWord s) }
    (modCat port (fun c => { c with state := .ident }) s)

/-- A follower's HELLO to its lead on one port (R511). -/
def helloLead (port : Nat) (s : State) : State :=
  catQueue port { type_ := 1, vc := 0, dest := catLead s, src := catDevice s, hops := 16, lsn := 0, tag := 0,
                  payload := u32 (catIdWord s) } s

/-- Nibble l is the physical lane of logical lane l. -/
def catLaneMap (spared : Nat) : Nat := total ((List.range 4).map fun l => 16 ^ l * (if l = spared then 4 else l))

/-- Packets of the replay buffer from a position on are sent again, in order (R508). -/
def catResend (port : Nat) (l : List CatPkt) (s : State) : State :=
  forEach l (catOut port true) (modCat port (fun c => { c with resent := satAdd top32 c.resent l.length }) s)

/-- A port enters READY: CAT_LINK_UP, what is unacknowledged is sent again, what waits leaves, a follower greets its lead
(R502, R508, R511). -/
def catReady (port : Nat) (s : State) : State :=
  let s := modCat port (fun c => { c with state := .ready, linkAt := s.now, sentAt := c.replay.map fun _ => s.now }) s
  let c := catOf s port
  let s := serviceStep { s with wear := { s.wear with clSpared := upd s.wear.clSpared port fun _ =>
    if c.spared = 15 then 255 else c.spared } }
  let s := record (catUnit port) 0x1601 (u8 port ++ u8 0 ++ u16 (catLaneMap c.spared) ++ u16 c.partner) s
  let s := catPump port (catResend port c.replay s)
  checkLead (if catRole s = 2 then helloLead port s else s)

/-- Loss of link: CAT_LINK_DOWN, held packets are lost, and training at once (R502, R535). -/
def catLinkLost (port cause : Nat) (s : State) : State :=
  let s := record (catUnit port) 0x1602 (u8 port ++ u8 cause) s
  let s := catTrain port (loseHeld (0x28 + port) (loseHeld (0x20 + port) s))
  checkLead { s with catum := { s.catum with marksIn := s.catum.marksIn.filter fun x => x.1 ≠ port } }

/-- A port is switched off. -/
def catOff (port : Nat) (s : State) : State :=
  let s := loseHeld (0x28 + port) (loseHeld (0x20 + port) s)
  checkLead (modCat port (fun c => { c with state := .down, enabled := false, lock := 0, spared := 15, helloIn := false, nakSent := false }) s)

/-- The receive lanes gain bit lock, then alignment (R502); a READY port that loses a lane it needs loses link. -/
def catLanes (port lock : Nat) (aligned : Bool) (s : State) : State :=
  let s := modCat port (fun c => { c with lock := lock % 32 }) s
  let c := catOf s port
  match c.state with
  | .bitlock => if c.lockedAll then modCat port (fun c => { c with state := .align }) s else s
  | .align => if c.lockedAll ∧ aligned then catIdent port s else s
  | .ready => if c.lockedAll then s else catLinkLost port 3 s
  | _ => s

def execCatLaneLock (dt port lock : Nat) (aligned : Bool) (s : State) : Res := .next (catLanes port lock aligned (tick dt s))

/-- A training fails; it is tried again after 1 s (R502). -/
def catFailed (port : Nat) (s : State) : State := serviceStep (modCat port (fun c => { c with state := .failed, trainAt := s.now }) s)

/-- 5 ms in BITLOCK: the reserve takes the one lane that fails; two or more fail the training (R305, R502). -/
def catLaneTimeout (port lane : Nat) (s : State) : State :=
  let c := catOf s port
  if c.state ≠ .bitlock ∨ s.now < c.trainAt + 5 * msec then s
  else match (List.range 4).filter fun l => !bitOf c.lock l with
    | [l] =>
      if l = lane ∧ c.spared = 15 ∧ bitOf c.lock 4 then
        let s := modCat port (fun c => { c with spared := l, state := .align }) s
        record (catUnit port) 0x1603 (u8 port ++ u8 l) { s with wear := { s.wear with clSpared := upd s.wear.clSpared port fun _ => l } }
      else s
    | [] => s
    | _ => catFailed port s

def execCatLaneLockTimeout (dt port lane : Nat) (s : State) : Res := .next (catLaneTimeout port lane (tick dt s))

/-- A port that trains and has not reached READY. -/
def CatPort.training (c : CatPort) : Bool := c.state == .bitlock || c.state == .align || c.state == .ident

/-- 100 ms without READY (R502). -/
def execCatTrainTimeout (dt port : Nat) (s : State) : Res :=
  let s := tick dt s
  let c := catOf s port
  .next (if c.training ∧ c.trainAt + 100 * msec ≤ s.now then catFailed port s else s)

/-- A FAILED port trains again every second (R502). -/
def execCatTrainRetry (dt port : Nat) (s : State) : Res :=
  let s := tick dt s
  let c := catOf s port
  .next (if c.state = .failed ∧ c.trainAt + sec ≤ s.now then catTrain port s else s)

/-- The loss of link of a cause stands: 1 no LINK packet for 10 us, 2 a packet not acknowledged for 100 us, 3 the partner's marker
lock is lost (R502; the numbers are a DESIGN CHOICE, notes/assumptions/94.md). -/
def CatPort.linkGone (c : CatPort) (cause now : Nat) : Bool :=
  match cause with
  | 1 => decide (c.linkAt + 10 * usec ≤ now)
  | 2 => c.sentAt.head?.any fun t => decide (t + 100 * usec ≤ now)
  | 3 => true
  | _ => false

/-- A READY port hears no LINK, has no acknowledgement, or loses its partner's markers (R502). -/
def execCatLinkDown (dt port cause : Nat) (s : State) : Res :=
  let s := tick dt s
  .next (if (catOf s port).state = .ready ∧ (catOf s port).linkGone cause s.now then catLinkLost port cause s else s)

/-! ### LINK (R507, R508) -/

/-- Buffer units granted on a channel ahead of what has been received (R507; notes/assumptions/30.md). -/
def catBuffer (vc : Nat) : Nat := [64, 16, 256, 512].getD vc 0

/-- A LINK packet: acknowledgement, NAK and credit limits (Table 22.8). -/
def sendLink (port : Nat) (nak : Bool) (s : State) : State :=
  let c := catOf s port
  let limits := (List.range 4).flatMap fun v => u16 ((c.rxUnits.getD v 0 + catBuffer v) % 65536)
  catOut port false
    { type_ := 0, vc := 0, dest := c.partner, src := catDevice s, hops := 1, lsn := 0, tag := 0,
      payload := u16 ((c.lsnRx + 65535) % 65536) ++ u16 (if nak then c.lsnRx else 0) ++ u8 (bit nak) ++ u24 0 ++ limits } s

def execCatAckTimer (dt port : Nat) (s : State) : Res :=
  let s := tick dt s
  .next (if (catOf s port).state = .ready then sendLink port false s else s)

/-- A LINK packet acknowledges, renews credit, and a NAK starts go-back-N (R508). -/
def linkReceived (port : Nat) (p : CatPkt) (s : State) : State :=
  let b := p.payload
  let behind := fun x y : Nat => decide ((x + 65536 - y) % 65536 < 32768)
  let ack := fieldOf b 0 2
  let s := modCat port (fun c => { c with
    linkAt := s.now
    replay := c.replay.filter fun q => !behind ack q.lsn
    sentAt := c.sentAt.drop (c.replay.filter fun q => behind ack q.lsn).length
    limits := (List.range 4).map fun v => fieldOf b (8 + 2 * v) 2 }) s
  let s := if bitOf (fieldOf b 4 1) 0 then
      catResend port ((catOf s port).replay.filter fun q => behind q.lsn (fieldOf b 2 2)) s
    else s
  catPump port s

/-! ### Packet checks (R505, R506) -/

/-- The channels a TYPE may use (Table 22.2). -/
def catVc (ty vc : Nat) : Bool :=
  match ty with
  | 0x00 => true
  | 0x06 | 0x07 => vc == 0 || vc == 2
  | 0x08 | 0x09 | 0x0A => vc == 2
  | 0x0B => vc == 3
  | 0x0C | 0x0D | 0x0E => vc == 1
  | _ => vc == 0

/-- LENGTH of a TYPE (Table 22.8). -/
def catLength (ty n : Nat) : Bool :=
  match ty with
  | 0x00 | 0x08 => n == 16
  | 0x01 | 0x05 => n == 4
  | 0x02 | 0x0F => n == 12
  | 0x03 | 0x0C => n == 8
  | 0x04 => n == 24
  | 0x06 => n == 80
  | 0x07 => n == 40
  | 0x09 => decide (16 ≤ n) && decide (n ≤ 512)
  | 0x0A => decide (17 ≤ n) && decide (n ≤ 512)
  | 0x0B => n % 32 == 0 && decide (32 ≤ n) && decide (n ≤ 512)
  | 0x0D => n == 32
  | 0x0E => n == 48
  | _ => false

def zeroAt (b : List Byte) (i n : Nat) : Bool := fieldOf b i n == 0

/-- Reserved bytes and fields with a range of their own (Table 22.8). -/
def catFields (ty : Nat) (b : List Byte) : Bool :=
  match ty with
  | 0x00 => decide (fieldOf b 4 1 < 2) && zeroAt b 5 3
  | 0x02 => fieldOf b 0 4 % 4 == 0 && decide (fieldOf b 0 4 < 0x4000000) && decide (fieldOf b 4 1 < 2) && zeroAt b 5 3 &&
      (bitOf (fieldOf b 4 1) 0 || zeroAt b 8 4)
  | 0x03 => decide (fieldOf b 4 1 < 2) && zeroAt b 5 3
  | 0x04 => decide (fieldOf b 4 1 < 2) && zeroAt b 5 3 && (bitOf (fieldOf b 4 1) 0 || zeroAt b 16 8)
  | 0x05 => decide (fieldOf b 0 2 < 1024) && zeroAt b 2 2
  | 0x06 => zeroAt b 1 1 && zeroAt b 3 5
  | 0x07 => zeroAt b 1 7
  | 0x08 => decide (1 ≤ fieldOf b 8 4) && decide (fieldOf b 0 8 % 4096 + fieldOf b 8 4 ≤ 4096) && zeroAt b 12 4
  | 0x09 => decide (fieldOf b 4 1 < 3) && decide (fieldOf b 5 1 < 2) && zeroAt b 6 10 && (fieldOf b 4 1 == 0 || b.length == 16)
  | 0x0A => decide (fieldOf b 0 8 % 4096 + (b.length - 16) ≤ 4096) && zeroAt b 8 8
  | 0x0C => zeroAt b 2 6
  | 0x0D => zeroAt b 3 5 && zeroAt b 26 6
  | 0x0E => decide (fieldOf b 3 1 < 3) && zeroAt b 40 8 && (fieldOf b 3 1 == 1 || zeroAt b 4 44)
  | 0x0F => decide (fieldOf b 2 1 < 2) && zeroAt b 3 1 && zeroAt b 10 2
  | _ => true

/-- Whether a packet is one of Table 22.2 with the layout of Table 22.8. -/
def catGood (p : CatPkt) : Bool :=
  decide (p.type_ < 16) && decide (p.vc < 4) && decide (p.dest < 1024) && decide (p.src < 1024) && catVc p.type_ p.vc &&
    catLength p.type_ p.payload.length && catFields p.type_ p.payload

/-- A packet that is discarded is counted in CAT_PORTp_CRC (R505). -/
def catCount (port : Nat) : State → State := modCat port fun c => { c with crc := bump c.crc }

/-- The receiver asks for the packet it expects, once (R508). -/
def catNak (port : Nat) (s : State) : State :=
  if (catOf s port).nakSent then s else sendLink port true (modCat port (fun c => { c with nakSent := true }) s)

/-- A packet that fails its CRC (R508). -/
def catCrcFail (port : Nat) (s : State) : State := catNak port (catCount port s)

/-! ### Identity and routes (R509, R510) -/

/-- A packet from the module's own DEVICE disables the port (R509). -/
def catDup (port : Nat) (s : State) : State :=
  let s := record (catUnit port) 0x1604 (u8 port ++ u8 0 ++ u16 (catDevice s)) s
  let s := modCat port (fun c => { c with dup := true }) (catOff port s)
  { s with catum := { s.catum with dup := true } }

def catLearn (port dev : Nat) (s : State) : State :=
  { s with catum := { s.catum with learned := setKey dev port s.catum.learned } }

/-- A packet for another device goes out of its route with one hop fewer, or is discarded (R510). -/
def catForward (p : CatPkt) (s : State) : State :=
  if p.hops ≤ 1 then
    let s := { s with catum := { s.catum with hopDrop := bump s.catum.hopDrop } }
    if s.catum.hopTold.any fun t => decide (s.now < t + sec) then s
    else record 3 0x1605 (u16 p.dest ++ u16 p.src ++ u32 s.catum.hopDrop)
      { s with catum := { s.catum with hopTold := some s.now } }
  else match routeOf s p.dest with
    | some q => catQueue q { p with hops := p.hops - 1 } s
    | none => s

/-- A packet taken in order: identity, layout, learning, then its route or its effect (R505, R506, R509, R510). -/
def catAccept (deliver : Nat → CatPkt → State → State) (port : Nat) (p : CatPkt) (s : State) : State :=
  if p.src = catDevice s then catDup port s
  else if !catGood p then catCount port s
  else
    let s := checkLead (catLearn port p.src s)
    if p.dest = catDevice s then deliver port p s else catForward p s

/-- The partner's HELLO of IDENT: the port is READY once it has come (R502). -/
def identReceived (deliver : Nat → CatPkt → State → State) (port : Nat) (p : CatPkt) (s : State) : State :=
  if p.src = catDevice s then catDup port s
  else if !catGood p then catCount port s
  else deliver port p (catReady port (modCat port (fun c => { c with partner := p.src, helloIn := true }) (catLearn port p.src s)))

/-- A packet with a good CRC (R508): LINK acts at once, the others in LSN order. -/
def catLink (deliver : Nat → CatPkt → State → State) (port : Nat) (p : CatPkt) (s : State) : State :=
  let c := catOf s port
  if c.state = .ident then
    if p.type_ = 1 ∧ p.hops = 1 then identReceived deliver port p s else s
  else if c.state ≠ .ready then s
  else if p.type_ = 0 then
    if p.src = catDevice s then catDup port s
    else if catGood p then linkReceived port p s else catCount port s
  else if p.lsn ≠ c.lsnRx then
    if (c.lsnRx + 65536 - p.lsn) % 65536 < 32768 then s else catNak port s
  else
    catAccept deliver port p (modCat port (fun c => { c with
      lsnRx := (c.lsnRx + 1) % 65536
      nakSent := false
      rxUnits := upd c.rxUnits (p.vc % 4) fun n => (n + p.units) % 65536 }) s)

/-- The packet in bytes whose CRC and LENGTH are right. -/
def catParse (l : List Byte) : Option CatPkt :=
  let n := l.length
  if n < 20 ∨ fieldOf l 2 2 ≠ n - 20 ∨ crc32 (l.take (n - 4)) ≠ fieldOf l (n - 4) 4 then none
  else some { type_ := fieldOf l 0 1, vc := fieldOf l 1 1, dest := fieldOf l 4 2, src := fieldOf l 6 2, hops := fieldOf l 8 1,
              lsn := fieldOf l 10 2, tag := fieldOf l 12 4, payload := (l.drop 16).take (n - 20) }

/-- Bytes reach the CRC check of a port. -/
def catBytes (deliver : Nat → CatPkt → State → State) (port : Nat) (l : List Byte) (s : State) : State :=
  if (catOf s port).state != .ready && (catOf s port).state != .ident then s
  else match catParse l with
    | some p => if zeroAt l 9 1 then catLink deliver port p s else catLink deliver port { p with type_ := 0x100 } s
    | none => catCrcFail port s

/-- A packet arrives at a port's receive injection point (R528, R532). -/
def catArrive (deliver : Nat → CatPkt → State → State) (port : Nat) (p : CatPkt) (buf : DmaBuf) (s : State) : State :=
  if (catOf s port).state != .ready && (catOf s port).state != .ident then s
  else
    let point := 0x28 + port
    let l := p.bytes
    let (fate, s) := meetFaults point p.type_ 0 p.lsn (8 * l.length) false s
    let l := corrupt fate l
    throughPoint point fate (.cat l buf) (catBytes deliver port l) s

/-! ### CAT_CONFIG (R512) -/

/-- A valid ROUTE byte. -/
def routeByte (v : Nat) : Bool := decide (v < 4) || v == 0xFE || v == 0xFF

/-- A FWD word: VALID and no other reserved bit. -/
def fwdValid (v : Nat) : Bool := bitOf v 31
def fwdGood (role v : Nat) : Bool := bits v 18 13 == 0 && (!fwdValid v || role == 1)

/-- The first byte of the block that a check of Table 22.3 refuses. -/
def catInvalid (s : State) (b : List Byte) : Option Nat :=
  let role := catRole s
  let l := [(decide (15 < fieldOf b 0 1), 0)] ++ (span 1 3).map (fun i => (!zeroAt b i 1, i)) ++
    [(decide (1023 < fieldOf b 4 2), 4)] ++ (span 6 7).map (fun i => (!zeroAt b i 1, i)) ++
    [(role == 2 && decide (60000 < fieldOf b 16 4), 16)] ++ (span 20 63).map (fun i => (!zeroAt b i 1, i))
  match l.find? (·.1) with
  | some x => some x.2
  | none => match (List.range 1024).find? fun i => decide (i ≠ catDevice s) && !routeByte (fieldOf b (64 + i) 1) with
    | some i => some (64 + i)
    | none => ((List.range 256).find? fun q => !fwdGood role (fieldOf b (1088 + 4 * q) 4)).map fun q => 1088 + 4 * q

def fwdEntry (b : List Byte) (q : Nat) : Option FwdEnt :=
  let v := fieldOf b (1088 + 4 * q) 4
  if fwdValid v then some { ring := q, device := bits v 0 10, fring := bits v 10 8 } else none

/-- The ring of a VALID entry, or of a change to one, that is enabled (R512 check 3). -/
def fwdBusy (s : State) (b : List Byte) : Option Nat :=
  (List.range 256).find? fun q => (sqOf s q).enabled && ((fwdEntry b q).isSome || fwdEntry b q != fwdOf s q)

/-- The block applies: ports whose enable changes train or go down (R512).  Another time master under SOURCE 2 is told by
TIME_SOURCE, which R158 compares by. -/
def catApply (b : List Byte) (s : State) : State :=
  let s := forEach (List.range 4) (fun p s =>
    let on := bitOf (fieldOf b 0 1) p
    let s := modCat p (fun c => { c with asym := signed 16 (fieldOf b (8 + 2 * p) 2) }) s
    if on == (catOf s p).enabled then s
    else if on then catTrain p (modCat p (fun c => { c with enabled := true, dup := false }) s)
    else catOff p s) s
  let moved := decide (s.catum.master ≠ fieldOf b 4 2)
  let s := checkLead { s with catum := { s.catum with
    master := fieldOf b 4 2
    neighDev := if moved then none else s.catum.neighDev
    followHold := fieldOf b 16 4
    routes := ((List.range 1024).map fun i => (i, fieldOf b (64 + i) 1)).filter fun e => e.2 ≠ 0xFE ∧ e.1 ≠ catDevice s
    fwd := (List.range 256).filterMap (fwdEntry b) } }
  if moved ∧ s.time.source = 2 then timeSource s else s

def catConfigAct (buf : HostBuf) (d : Desc) (s : State) : State :=
  if d.length < 2112 then complete d 0x1680 (u16 d.length) s
  else match bufOf d buf s with
    | .error x => complete d 0x501 (u64 x.length) s
    | .data x =>
      let b := padTo 2112 x
      match catInvalid s b with
      | some o => complete d 0x1680 (u16 o) s
      | none => match fwdBusy s b with
        | some q => complete d 0x1681 (u16 q) s
        | none => complete d 0 [] (catApply b s)

def execCatConfig (dt : Nat) (d : Desc) (buf : HostBuf) (s : State) : Res :=
  .next (runDesc (specBuf 0x1401 false (span 24 63)) d noBad (fun d _ => decide (2112 < d.length)) (catConfigAct buf) (tick dt s))

end Sys2Proof.Machine
end

