-- ==== Sys2Proof/Machine/FrameLock.lean ====
section
/-!
DEFINITION. Frame lock over Catum Link (R521 to R523): FRAME_LOCK, the LOCK packets, and their timers.
-/

namespace Sys2Proof.Machine

/-- A head holds a sealed commit with an explicit TARGET (R521 check 2). -/
def explicitTarget (h : Head) : Bool :=
  h.pipe.sealed_.any fun x => x.commits.any fun c => (if c.group.isSome then c.desc.p32 24 else c.desc.p32 20) != 0xFFFFFFFF

/-- LOCK_BUSY: locked under another LOCK_ID, an explicit TARGET, or a lock already asked for; a re-anchor cannot stand beside a
rate change of its own still ahead (notes/assumptions/31.md). -/
def lockBusy (s : State) (k action id : Nat) : Bool :=
  let l := lockOf s k
  let h := headOf s k
  (l.role != 0 && l.lockId != id) || explicitTarget h || l.request.isSome || l.reanchor.isSome ||
    (action == 2 && h.pipe.nextRate.isSome)

def frameLockBad (d : Desc) (s : State) : Option (List Byte) :=
  badField [(decide (7 < d.p8 16) || !configured s (d.p8 16), 16), (decide (2 < d.p8 17), 17), (decide (1023 < d.p16 20), 20),
            (decide (7 < d.p8 22), 22)]

/-- A LOCK request leaves for the master, with a fresh TAG (R506, R521). -/
def askLock (d : Desc) (k id dev head : Nat) (s : State) : State :=
  let tag := s.catum.tag
  let s := { s with catum := { s.catum with tag := (tag + 1) % 2 ^ 32 } }
  catSend 0x0E 1 dev tag (u16 id ++ u8 head ++ u8 0 ++ List.replicate 44 0)
    (modLock k (fun l => { l with request := some (d, id, dev, head, s.now) }) s)

def frameLockAct (d : Desc) (s : State) : State :=
  let k := d.p8 16
  let id := d.p16 18
  if lockBusy s k (d.p8 17) id then complete d 0x1686 (u8 k) s
  else match d.p8 17 with
    | 0 => complete d 0 [] (dropLock k 3 s)
    | 1 =>
      let s := if (lockOf s k).role = 2 then dropLock k 3 s else s
      complete d 0 [] (modLock k (fun l => { l with role := 1, lockId := id, degraded := s.time.state != .locked }) s)
    | _ => askLock d k id (d.p16 20) (d.p8 22) s

def execFrameLock (dt : Nat) (d : Desc) (s : State) : Res :=
  .next (runDesc (specI0 0x1402 (span 23 63)) d frameLockBad noOver frameLockAct (tick dt s))

/-! ### LOCK packets -/

/-- The announcement in a LOCK payload (Table 22.8). -/
def lockWord (b : List Byte) : LockWord :=
  { n := fieldOf b 4 4, d := fieldOf b 8 4, anchor := fieldOf b 12 8, anchorF := fieldOf b 20 4, changeAt := fieldOf b 24 8,
    newN := fieldOf b 32 4, newD := fieldOf b 36 4 }

/-- The master's timeline as a follower knows it, to find its flips. -/
def LockWord.line (w : LockWord) (c : HeadCfg) : HeadCfg := { c with anchor := w.anchor, anchorF := w.anchorF, rateN := w.n, rateD := w.d }

/-- The own timebase compares with that of a device (R158): both are LOCKED, or both follow one time master: the device itself, the
master that the neighbour reports, or the one of which the device takes its time through this module.  Of a device that is not the
neighbour a module learns no state: being LOCKED itself it takes that one to be so (DEDUCED, notes/assumptions/110.md). -/
def comparable (s : State) (dev : Nat) : Bool :=
  let known := s.catum.neighDev == some dev
  (s.time.state == .locked && (!known || s.catum.neighbour == 2)) ||
    (s.time.source == 2 && (s.catum.master == dev || (known && s.catum.neighMaster == s.catum.master))) ||
    s.catum.askers.contains dev

/-- The re-anchor of R522: m, F* and k. -/
def reanchorAt (s : State) (p : Pipe) (c : HeadCfg) (w : LockWord) (db : Nat) : Nat × Nat × Nat :=
  let m := max p.nextFrame (c.firstFlip (db + c.periods 2 + c.lead))
  let m := max m (c.firstCse s.now)
  let a := w.line c
  let k := a.firstFlip (c.flip m)
  (m, a.flip k, k)

/-- The first announcement answers a FRAME_LOCK (R521 checks 4 and 5, R522). -/
def acceptLock (k : Nat) (d : Desc) (id dev head : Nat) (w : LockWord) (s : State) : State :=
  let p := (headOf s k).pipe
  let s := modLock k (fun l => { l with request := none }) s
  match p.cfg with
  | none => s
  | some c =>
    let (m, fs, n) := reanchorAt s p c w d.t
    let moved := decide (w.changeAt ≠ 0 ∧ w.changeAt ≤ fs ∧ w.newN * c.rateD ≠ c.rateN * w.newD)
    if w.n = 0 ∨ w.d = 0 ∨ w.n * c.rateD ≠ c.rateN * w.d then complete d 0x1683 (u32 w.n ++ u32 w.d) s
    else if moved then complete d 0x1683 (u32 w.newN ++ u32 w.newD) s
    else if !comparable s dev then complete d 0x1684 (u8 (tmbStat s % 16) ++ u8 s.catum.neighbour) s
    else
      let s := modPipe k (fun p => { p with nextRate := some (m, c.rateN, c.rateD, c.lead), reAt := some fs }) s
      modLock k (fun l => { l with
        role := 2
        lockId := id
        masterDev := dev
        masterHead := head
        followers := []
        heard := s.now
        word := some w
        degraded := s.time.state != .locked
        reanchor := some (d, m, fs, n) }) s

/-- An announcement at one head: it answers the request, or renews the lock. -/
def hearLock (src id head : Nat) (w : LockWord) (k : Nat) (s : State) : State :=
  let l := lockOf s k
  match l.request with
  | some (d, i, dev, h, _) => if i = id ∧ dev = src ∧ h = head then acceptLock k d i dev h w s else s
  | none =>
    if l.role = 2 ∧ l.lockId = id ∧ l.masterDev = src ∧ l.masterHead = head then
      followChange k (modLock k (fun l => { l with heard := s.now, word := some w }) s)
    else s

/-- A LOCK packet: a request joins the master's followers and is answered at once; an announcement; a withdrawal (R521,
R523). -/
def lockReceived (p : CatPkt) (s : State) : State :=
  let b := p.payload
  let id := fieldOf b 0 2
  let head := fieldOf b 2 1
  match fieldOf b 3 1 with
  | 0 =>
    let l := lockOf s head
    if head < 8 ∧ l.role = 1 ∧ l.lockId = id ∧ configured s head then
      let s := modLock head (fun l => { l with followers := if l.followers.contains p.src then l.followers else l.followers ++ [p.src] }) s
      catSend 0x0E 1 p.src p.tag (lockPayload s head) s
    else s
  | 1 => forEach (List.range 8) (hearLock p.src id head (lockWord b)) s
  | _ => forEach (List.range 8) (fun k s =>
      let l := lockOf s k
      if l.role = 2 ∧ l.lockId = id ∧ l.masterDev = p.src ∧ l.masterHead = head then dropLock k 2 s else s) s

/-! ### Timers -/

/-- A master announces every 100 ms (R521). -/
def execLockAnnounceTimer (dt head : Nat) (s : State) : Res :=
  let s := tick dt s
  .next (if (lockOf s head).toldAt + 100 * msec ≤ s.now then announceLock head s else s)

/-- 1 ms after a request without an announcement (R521 check 3). -/
def execLockRequestTimeout (dt head : Nat) (s : State) : Res :=
  let s := tick dt s
  match (lockOf s head).request with
  | some (d, _, dev, _, at_) =>
    if at_ + msec ≤ s.now then .next (complete d 0x1682 (u16 dev) (modLock head (fun l => { l with request := none }) s)) else .next s
  | none => .next s

/-- 300 ms without a LOCK packet (R523). -/
def execFrameLockLost (dt head : Nat) (s : State) : Res :=
  let s := tick dt s
  .next (if (lockOf s head).role = 2 ∧ (lockOf s head).heard + 300 * msec ≤ s.now then dropLock head 2 s else s)

end Sys2Proof.Machine
end

