-- ==== Sys2Proof/Machine/CatRx.lean ====
section
/-!
DEFINITION. What a Catum packet does at its destination, by its TYPE (R511, R513, R514, R516, R518, R519).
-/

namespace Sys2Proof.Machine

/-! ### Mailbox (R518) -/

/-- One aligned access to the BAR0 of this module: the word answered and the state after. -/
def mbAccess (clear : Nat → State → State) (go : State → State) (write : Bool) (off : Nat) (v : Word) (s : State) : Word × State :=
  if write then (v, barWrite clear go off v s) else readBar0 off false s

/-- An access ends: DATA, ERR, and BUSY clear (R518). -/
def mbEnd (err : Bool) (v : Word) (s : State) : State :=
  let m := s.catum.mailbox
  setRaw 0x00F00018 (if err then wordOf top32 else v)
    { s with catum := { s.catum with mailbox := { m with busy := false, err := m.err || err } } }

/-- GO: an access to the own device acts at once, another device is asked on VC0; a GO while BUSY is ignored. -/
def mbStart (clear : Nat → State → State) (s : State) : State :=
  let m := s.catum.mailbox
  let dev := regField s 0x00F00010 0 10
  let off := (rawReg s 0x00F00014).toNat
  let v := rawReg s 0x00F00018
  let write := decide (regField s 0x00F0001C 1 1 = 1)
  if m.busy then s
  else if dev = catDevice s then
    let r := mbAccess clear id write off v s
    mbEnd false r.1 r.2
  else
    let tag := s.catum.tag
    let b : Mailbox := { busy := true, write := write, err := m.err, tag := tag, since := s.now, device := dev }
    catSend 2 0 dev tag (u32 off ++ u8 (bit write) ++ u24 0 ++ u32 (if write then v.toNat else 0))
      { s with catum := { s.catum with mailbox := b, tag := (tag + 1) % 2 ^ 32 } }

/-- MB_REQ at its target: the access of R4 to R7, answered with its TAG. -/
def mbReqReceived (clear : Nat → State → State) (p : CatPkt) (s : State) : State :=
  let b := p.payload
  let write := fieldOf b 4 1 == 1
  let r := mbAccess clear (mbStart clear) write (fieldOf b 0 4) (wordOf (fieldOf b 8 4)) s
  catSend 3 0 p.src p.tag (u32 r.1.toNat ++ u8 0 ++ u24 0) r.2

def mbRespReceived (p : CatPkt) (s : State) : State :=
  let m := s.catum.mailbox
  if m.busy ∧ m.tag = p.tag ∧ m.device = p.src then mbEnd (fieldOf p.payload 4 1 == 1) (wordOf (fieldOf p.payload 0 4)) s else s

/-! ### Members (R511) -/

/-- A HELLO to a lead that names its DEVICE and DOMAIN renews or joins the member list. -/
def helloReceived (port : Nat) (p : CatPkt) (s : State) : State :=
  let v := fieldOf p.payload 0 4
  let mine := decide (catRole s = 1) && bits v 14 2 == 2 && bits v 16 10 == catDevice s && bits v 10 4 == catDomain s
  if !mine then s
  else if (getKey p.src s.catum.members).isSome then
    { s with catum := { s.catum with members := setKey p.src s.now s.catum.members } }
  else if 63 ≤ s.catum.members.length then record (catUnit port) 0x1604 (u8 port ++ u8 0 ++ u16 0x3FF) s
  else record 3 0x1606 (u16 p.src) { s with catum := { s.catum with members := setKey p.src s.now s.catum.members } }

/-! ### Urgent Control Word (R141, R516) -/

/-- The request of the lead: the follower begins the action and owes a report. -/
def ucwRequested (p : CatPkt) (s : State) : State :=
  let w := fieldOf p.payload 0 4
  if catRole s ≠ 2 then s
  else if !ucwLegal false w then ucwReject false (wordOf w) s
  else
    let act := w % 256
    let heads := bits w 8 8
    let run : UcwRun := { action := act, heads := namedHeads heads, ramps := rampsOf act heads s, word := w, pf1 := false, start := s.now }
    let s := { s with
      host := { s.host with ucwAction := act, ucwCount := (s.host.ucwCount + 1) % 256, ucwRuns := s.host.ucwRuns ++ [run] }
      catum := { s.catum with ucwIn := s.catum.ucwIn ++ [(w, fieldOf p.payload 8 8, p.tag)] } }
    ucwAct act heads s

/-- UCW_ACTION and vector 3 of a word sent to the domain, with an entry for each follower that has not reported. -/
def ucwDomainDone (u : UcwDomain) (s : State) : State :=
  let s := { s with catum := { s.catum with ucw := s.catum.ucw.erase u } }
  let s := recordAt u.pf1 s.now 3 0x0506 (u32 u.word ++ u32 0 ++ u64 u.start) s
  raiseCause false 24 (forEach u.waiting (fun dev s => recordAt u.pf1 s.now 3 0x0506 (u32 u.word ++ u16 dev ++ u8 2) s) s)

/-- A follower's report: the domain's action ends once every follower and the lead itself have finished. -/
def ucwReported (p : CatPkt) (s : State) : State :=
  let act := fieldOf p.payload 0 1
  match s.catum.ucw.find? fun u => u.action = act && u.waiting.contains p.src with
  | none => s
  | some u =>
    let v := { u with waiting := u.waiting.erase p.src }
    let s := { s with catum := { s.catum with ucw := s.catum.ucw.map fun x => if x = u then v else x } }
    if v.waiting.isEmpty ∧ v.ownEnd.isSome then ucwDomainDone v s else s

/-! ### Forwarded descriptors (R513, R514) -/

/-- Operations whose host buffer the module reads, its address in bytes 16 to 23. -/
def readsHost : List Nat :=
  [0x0301, 0x0403, 0x0503, 0x0601, 0x0711, 0x0801, 0x0901, 0x0902, 0x0A02, 0x0C02, 0x0D02, 0x1401, 0x1602]

/-- FWD_DESC at the follower: the descriptor joins its own ring r, and its host buffer is asked for. -/
def fwdReceived (p : CatPkt) (s : State) : State :=
  let b := p.payload
  let d : Desc := { ring := fieldOf b 0 1, bytes := (b.drop 16).take 64, db := fieldOf b 8 8, hold := 0,
                    fwd := some (p.src, fieldOf b 2 1, p.vc) }
  if catRole s ≠ 2 then s
  else
    let s := { s with host := { s.host with fetched := s.host.fetched ++ [d] } }
    if readsHost.contains d.opcode then dmaAsk d (d.p64 16) d.length s
    else settleBad d.ring s.host.fetched.length s

/-- The completion a FWD_COMPL carries (Table 5.5). -/
def compOf (b : List Byte) (q : Nat) (irq : Bool) : Comp :=
  { tag := fieldOf b 0 4, status := fieldOf b 4 2, sq := q, freeRun := bitOf (fieldOf b 6 2) 1, notice := bitOf (fieldOf b 6 2) 2,
    stamp := fieldOf b 8 8, detail := (b.drop 16).take 8, db := fieldOf b 24 8, irq := irq, took := false }

/-- FWD_COMPL at the lead: posted to the completion ring of q; a first completion releases the descriptor held. -/
def fwdCompleted (p : CatPkt) (s : State) : State :=
  let q := fieldOf p.payload 0 1
  let b := p.payload.drop 8
  let m := compOf b q false
  match s.catum.fwdHeld.find? fun x => x.1 = p.src && x.2.ring == q && x.2.tag == m.tag && !m.notice with
  | none => postTo (ringCq s q) m s
  | some x =>
    let s := { s with catum := { s.catum with fwdHeld := s.catum.fwdHeld.erase x } }
    postTo (ringCq s q) { compOf b q x.2.irq with took := !x.2.quiet } s

/-- A piece of an answer to DMA_RD_REQ. -/
def dmaPiece (p : CatPkt) (off status : Nat) (last : Bool) (data : List Byte) : State → State :=
  catSend 9 2 p.src p.tag (u32 off ++ u8 status ++ u8 (bit last) ++ List.replicate 10 0 ++ data)

/-- Data pieces of at most 496 bytes. -/
def dmaData (p : CatPkt) (bs : List Byte) (closed : Bool) (s : State) : State :=
  forEach (List.range (ceilDiv bs.length 496)) (fun i =>
    dmaPiece p (496 * i) 0 (closed && decide (bs.length ≤ 496 * (i + 1))) ((bs.drop (496 * i)).take 496)) s

/-- DMA_RD_REQ at the lead: the read on PCIe is answered in pieces; a host error ends it with STATUS 1, a poisoned
completion with STATUS 2. -/
def dmaRead (p : CatPkt) (buf : DmaBuf) (s : State) : State :=
  let want := fieldOf p.payload 8 4
  let cut := fun (status : Nat) (bs : List Byte) => dmaPiece p bs.length status true [] (dmaData p bs false s)
  match buf with
  | .data bs => dmaData p (padTo want (bs.take want)) true s
  | .error bs => cut 1 (bs.take want)
  | .poisoned bs => cut 2 (bs.take want)

/-- DMA_RD_DATA at the follower. -/
def dmaDataReceived (p : CatPkt) (s : State) : State :=
  let b := p.payload
  let take := fun r : DmaRead => if r.tag = p.tag ∧ !r.done then
      { r with got := r.got.take (fieldOf b 0 4) ++ b.drop 16, err := r.err || fieldOf b 4 1 != 0, done := fieldOf b 5 1 == 1 }
    else r
  { s with catum := { s.catum with reads := s.catum.reads.map take } }

def dmaWrite (p : CatPkt) (s : State) : State :=
  if catRole s = 1 then emit (.host (fieldOf p.payload 0 8) (p.payload.drop 16)) s else s

/-- A ledger record of Table 5.10. -/
def recOf (b : List Byte) : Rec :=
  { event := fieldOf b 0 2, device := bits (fieldOf b 2 2) 0 10, unit := bits (fieldOf b 2 2) 10 6, seq := fieldOf b 4 2,
    freeRun := bitOf (fieldOf b 6 2) 1, saved := bitOf (fieldOf b 6 2) 2, stamp := fieldOf b 8 8, detail := (b.drop 16).take 16 }

/-- Ledger records of a follower are held with the lead's own (R514). -/
def ledgerReceived (p : CatPkt) (s : State) : State :=
  if catRole s = 1 then
    forEach (List.range (p.payload.length / 32)) (fun i s =>
      { s with ledger := { s.ledger with main := s.ledger.main.put (recOf (p.payload.drop (32 * i))) } }) s
  else s

/-! ### Time (R519) -/

/-- TIME_REQ: the mark that came with it has been answered at its arrival; TIME_RESP carries t2, t3 and the state. -/
def timeAsked (port : Nat) (p : CatPkt) (s : State) : State :=
  let n := fieldOf p.payload 0 2
  match s.catum.marksIn.find? fun x => x.1 = port && x.2.1 == n with
  | none => s
  | some x =>
    let s := { s with catum := { s.catum with
      marksIn := s.catum.marksIn.erase x, askers := p.src :: s.catum.askers.filter (· ≠ p.src) } }
    let b := u16 n ++ u8 (tmbStat s % 16) ++ List.replicate 5 0 ++ u64 x.2.2 ++ u64 x.2.2 ++ u16 s.catum.master ++ List.replicate 6 0
    catQueue port { type_ := 0x0D, vc := 1, dest := p.src, src := catDevice s, hops := 16, lsn := 0, tag := p.tag, payload := b } s

/-- The least whole number of units no nearer to zero than num/500. -/
def awayFromZero (num : Int) : Int := if num < 0 then -((ceilDiv num.natAbs 500 : Nat) : Int) else (ceilDiv num.natAbs 500 : Nat)

/-- An offset under SOURCE 2 (R152 to R155, R519): ±1 ns to lock, ±10 ns eight times to lose it; a neighbour that is not LOCKED is
a loss of the source. -/
def measureCatum (d : Int) (s : State) : State :=
  let s := noteOffset d s
  let lost := decide (s.catum.neighbour ≠ 2)
  match s.time.state with
  | .locked =>
    let s := if lost then s else correctRate s
    if lost then loseLock 5 s
    else if 40 < d.natAbs then
      let s := modTime (fun t => { t with bad := t.bad + 1 }) s
      if 8 ≤ s.time.bad then loseLock 2 s else s
    else modTime (fun t => { t with bad := 0 }) s
  | .slewing => if lost then loseLock 5 s else takeOffset d 4 true s
  | _ =>
    let s := if s.time.state = .powerOn ∨ s.time.state = .holdover then modTime (fun t => { t with state := .acquiring, good := 0 }) s else s
    takeOffset d 4 (!lost) s

/-- Both the answer's mark and its TIME_RESP have come: θ, the link delay, and the servo. -/
def exchangeDone (port : Nat) (s : State) : State :=
  match s.catum.exchange with
  | some x =>
    match x.t4, x.resp with
    | some t4, some (t2, t3, st) =>
      let a : Int := ((t2 : Int) - x.t1)
      let b : Int := ((t4 : Int) - t3)
      let asym := (catOf s port).asym
      let s := modCat port (fun c => { c with
        offset := clampInt (-2147483648) 2147483647 (125 * (a - b) + asym / 2)
        delay := clampInt (-2147483648) 2147483647 (125 * (a + b)) }) s
      measureCatum (awayFromZero (250 * (a - b) + asym)) { s with catum := { s.catum with exchange := none, neighbour := st } }
    | _, _ => s
  | none => s

/-- TIME_RESP of the exchange under way. -/
def timeAnswered (port : Nat) (p : CatPkt) (s : State) : State :=
  let b := p.payload
  match s.catum.exchange with
  | some x =>
    if s.time.source ≠ 2 ∨ x.number ≠ fieldOf b 0 2 ∨ routeOf s s.catum.master ≠ some port then s
    else exchangeDone port { s with catum := { s.catum with
      lastResp := s.now
      neighDev := some p.src
      neighMaster := bits (fieldOf b 24 2) 0 10
      exchange := some { x with resp := some (fieldOf b 8 8, fieldOf b 16 8, fieldOf b 2 1) } } }
  | none => s

/-! ### Delivery -/

/-- A packet for this module, by TYPE (Table 22.2). -/
def catDeliver (clear : Nat → State → State) (buf : DmaBuf) (port : Nat) (p : CatPkt) (s : State) : State :=
  match p.type_ with
  | 0x01 => helloReceived port p s
  | 0x02 => mbReqReceived clear p s
  | 0x03 => mbRespReceived p s
  | 0x04 => if fieldOf p.payload 4 1 = 0 then ucwRequested p s else ucwReported p s
  | 0x05 => if catRole s = 2 then hostLost (record 3 0x1608 (slice p.payload 0 2) s) else s
  | 0x06 => fwdReceived p s
  | 0x07 => fwdCompleted p s
  | 0x08 => if catRole s = 1 then dmaRead p buf s else s
  | 0x09 => dmaDataReceived p s
  | 0x0A => dmaWrite p s
  | 0x0B => ledgerReceived p s
  | 0x0C => timeAsked port p s
  | 0x0D => timeAnswered port p s
  | 0x0E => lockReceived p s
  | 0x0F => if fieldOf p.payload 2 1 = 0 then hearReady (fieldOf p.payload 0 2) p.src (fieldOf p.payload 4 4) s
            else groupGo (fieldOf p.payload 0 2) (fieldOf p.payload 4 4) s
  | _ => s

end Sys2Proof.Machine
end

