-- ==== Sys2Proof/Machine/FaultRules.lean ====
section
/-!
DEFINITION. Provoked link faults (chapter 23): arming (R526, R527), FAULT_SET (R529, R530), and the release of held packets
(R532, R535).
-/

namespace Sys2Proof.Machine

/-! ### Release -/

/-- A packet that a rule held passes on from its injection point (R528, R532); `clear` is what a mailbox write to the test
registers in it would do. -/
def releasePkt (clear : Nat → State → State) (h : HeldPkt) (s : State) : State :=
  match h.body with
  | .eth p => ethReceived (h.point - 0x30) p h.arr s
  | .arp a arp => arpReceived (h.point - 0x30) a arp s
  | .ptp m => ptpReceived m h.arr s
  | .dp l => dpReceived (h.point - 0x38) l h.arr s
  | .cat l buf => catBytes (catDeliver clear buf) (h.point - 0x28) l s
  | .catOut _ l => emit (.cat (h.point - 0x20) l) s
  | .plk _ l => emit (.plk h.point l) s
  | .mark _ b t => emit (.plkMark h.point b (max t s.now)) s
  | .ret cs bip => retReceived (h.point - 0x10) bip cs s

/-- Every rule is cleared, with FAULT_RULES_CLEARED. -/
def dropRules (cause : Nat) (s : State) : State :=
  record 9 0x1704 (u8 cause) { s with fault := { s.fault with rules := [], old := [] } }

/-- Held packets are taken off their points, then pass in their original order. -/
def releaseAll (p : HeldPkt → Bool) (s : State) : State :=
  let l := s.fault.held.filter p
  forEach l (releasePkt dropRules) { s with fault := { s.fault with held := s.fault.held.filter fun h => !p h } }

/-- Every rule is cleared and what they hold is released (R527, R535, R537; cause: 1 disarm, 2 shedding, 3 CLEAR_ALL). -/
def clearRules (cause : Nat) (s : State) : State := releaseAll (fun _ => true) (dropRules cause s)

def execTestArmed (dt : Nat) (s : State) : Res := .next (testEnable clearRules 0x7E570A5E (tick dt s))
def execTestDisarmed (dt : Nat) (s : State) : Res := .next (testEnable clearRules 0 (tick dt s))

/-- FIJ_CTL.CLEAR_ALL (Table 23.8). -/
def execFaultRulesCleared (dt : Nat) (s : State) : Res := .next (clearRules 3 (tick dt s))

/-- A reordered packet passes after its WINDOW packets, or after 100 µs without one (R532). -/
def execFaultReorderRelease (dt point rule : Nat) (s : State) : Res :=
  let s := tick dt s
  .next (releaseAll (fun h => h.order && h.point == point && h.rule == rule && (h.left == 0 || decide (h.release ≤ s.now))) s)

/-- A delayed packet, and those behind it whose delay has passed, leave in order (R532). -/
def execFaultDelayRelease (dt point rule : Nat) (s : State) : Res :=
  let s := tick dt s
  let due := fun h : HeldPkt => !h.order && h.point == point && decide (h.release ≤ s.now)
  .next (if (s.fault.held.any fun h => due h && h.rule == rule) then releaseAll due s else s)

/-! ### FAULT_SET -/

/-- The MATCH bits of a point (Table 23.3); none where no such point exists (Table 23.1). -/
def pointClasses (point : Nat) : Option Nat :=
  if point < 0x10 then some 0x1D7F
  else if point < 0x20 then some 0x1F
  else if point < 0x24 ∨ (0x28 ≤ point ∧ point < 0x2C) then some 0xFFFF
  else if 0x30 ≤ point ∧ point < 0x34 then some 0xF
  else if point = 0x38 ∨ point = 0x39 then some 1
  else none

/-- The payload offset of the first field that R530 check 3 refuses. -/
def faultInvalid (d : Desc) : Option Nat :=
  let point := d.p8 16
  let kind := d.p8 18
  let trig := d.p8 19
  let cls := (pointClasses point).getD 0
  let match_ := d.p16 20
  let fix := bitOf (d.p8 22) 0
  let ingest := decide (0x30 ≤ point)
  let l : List (Bool × Nat) :=
    [((pointClasses point).isNone, 16), (decide (3 < d.p8 17), 17),
     (decide (5 < kind) || (kind == 4 && decide (0x38 ≤ point)), 18), (decide (2 < trig), 19),
     (match_ == 0 || (match_ &&& cls) != match_ || (decide (point < 0x10) && bitOf match_ 8 && kind != 1), 20),
     (decide (3 < d.p8 22) || (fix && (ingest || kind == 1 || kind == 4 || kind == 5)), 22),
     (d.p8 23 != 0, 23),
     (if ingest then bits (d.p16 24) 10 5 != 0 else d.p16 24 != 0, 24),
     (if kind = 4 then decide (d.p16 26 < 1 ∨ 8 < d.p16 26) else d.p16 26 != 0, 26),
     ((match kind with
       | 2 => false
       | 3 => d.p32 28 == 0
       | 5 => decide (d.p32 28 < 200 ∨ 400000 < d.p32 28)
       | _ => d.p32 28 != 0), 28),
     ((match trig with
       | 0 => d.p32 40 != 0
       | 1 => d.p32 40 == 0
       | _ => false), 40),
     (d.p64 48 == 0 && (kind == 3 || trig == 2), 48)] ++ (span 56 63).map fun i => (d.p8 i != 0, i)
  (l.find? (·.1)).map (·.2)

/-- The rule a FAULT_SET describes (Table 23.2). -/
def ruleOf (d : Desc) : FaultRule :=
  { point := d.p8 16, rule := d.p8 17, kind := d.p8 18, trigger := d.p8 19, classes := d.p16 20, flags := d.p8 22,
    flow := d.p16 24, window := d.p16 26, param := d.p32 28, at_ := d.p64 32, n := d.p32 40, limit := d.p32 44,
    gen := d.p64 48, matched := 0, fired := 0, bits := 0 }

/-- The rule of the same number that acts now. -/
def actingRule (r : FaultRule) (s : State) : List FaultRule := (rulesAt r.point s).filter r.sameKey

/-- A rule takes its place at AT, or at once; KIND 0 takes the rule away and releases what it holds (R530). -/
def placeRule (r : FaultRule) (s : State) : State :=
  let others := fun l : List FaultRule => l.filter fun q => !q.sameKey r
  let stays := if s.now < r.at_ then actingRule r s else []
  let f := s.fault
  if r.kind = 0 then
    releaseAll (fun h => h.point == r.point && h.rule == r.rule) { s with fault := { f with rules := others f.rules, old := others f.old } }
  else { s with fault := { f with rules := others f.rules ++ [r], old := others f.old ++ stays } }

/-- FAULT_SET: its checks in order, then the rule from AT on; a KIND 0 takes its rule away at once, whatever AT (R530, R531; DEDUCED,
notes/assumptions/95.md). -/
def faultSetAct (d : Desc) (s : State) : State :=
  if !s.fault.armed then complete d 0x1780 [] s
  else if 1 ≤ s.power.stage then complete d 0x1782 (u8 s.power.stage) s
  else match faultInvalid d with
    | some o => complete d 0x1781 (u16 o) s
    | none => completeAt (if d.p8 18 = 0 then s.now else max s.now (d.p64 32)) d 0 [] (placeRule (ruleOf d) s)

def execFaultSet (dt : Nat) (d : Desc) (s : State) : Res :=
  .next (runDesc (specI0 0x1501 []) d noBad noOver faultSetAct (tick dt s))

end Sys2Proof.Machine
end

