-- ==== Sys2Proof/Machine/CatRows.lean ====
section
/-!
DEFINITION. Meanings of the Catum Link commands that bring packets and marks, and of its timers (R502 to R519).
-/

namespace Sys2Proof.Machine

/-! ### Packets -/

/-- A packet of this module's row arrives at a port (R504 to R510). -/
def catPacket (ty dt port : Nat) (p : CatPkt) (buf : DmaBuf) (s : State) : State :=
  if p.type_ = ty then catArrive (catDeliver clearRules buf) port p buf (tick dt s) else tick dt s

def noBuf : DmaBuf := .data []

def execCatLinkPacket (dt port : Nat) (p : CatPkt) (s : State) : Res := .next (catPacket 0x00 dt port p noBuf s)
def execCatHello (dt port : Nat) (p : CatPkt) (s : State) : Res := .next (catPacket 0x01 dt port p noBuf s)
def execMbReq (dt port : Nat) (p : CatPkt) (s : State) : Res := .next (catPacket 0x02 dt port p noBuf s)
def execMbResp (dt port : Nat) (p : CatPkt) (s : State) : Res := .next (catPacket 0x03 dt port p noBuf s)

/-- A UCW packet with REPORT 0 (R516). -/
def execCatUcwRequest (dt port : Nat) (p : CatPkt) (s : State) : Res :=
  .next (if fieldOf p.payload 4 1 = 0 then catPacket 0x04 dt port p noBuf s else tick dt s)

/-- A UCW packet with REPORT 1 (R516). -/
def execCatUcwReport (dt port : Nat) (p : CatPkt) (s : State) : Res :=
  .next (if fieldOf p.payload 4 1 = 1 then catPacket 0x04 dt port p noBuf s else tick dt s)

def execCatHostLost (dt port : Nat) (p : CatPkt) (s : State) : Res := .next (catPacket 0x05 dt port p noBuf s)
def execFwdDesc (dt port : Nat) (p : CatPkt) (s : State) : Res := .next (catPacket 0x06 dt port p noBuf s)
def execFwdCompl (dt port : Nat) (p : CatPkt) (s : State) : Res := .next (catPacket 0x07 dt port p noBuf s)
def execDmaRdReq (dt port : Nat) (p : CatPkt) (buf : DmaBuf) (s : State) : Res := .next (catPacket 0x08 dt port p buf s)
def execDmaRdData (dt port : Nat) (p : CatPkt) (s : State) : Res := .next (catPacket 0x09 dt port p noBuf s)
def execDmaWr (dt port : Nat) (p : CatPkt) (s : State) : Res := .next (catPacket 0x0A dt port p noBuf s)
def execCatLedger (dt port : Nat) (p : CatPkt) (s : State) : Res := .next (catPacket 0x0B dt port p noBuf s)
def execTimeReq (dt port : Nat) (p : CatPkt) (s : State) : Res := .next (catPacket 0x0C dt port p noBuf s)
def execTimeResp (dt port : Nat) (p : CatPkt) (s : State) : Res := .next (catPacket 0x0D dt port p noBuf s)
def execCatLockPacket (dt port : Nat) (p : CatPkt) (s : State) : Res := .next (catPacket 0x0E dt port p noBuf s)

/-- A packet that R505 or R506 discards, or one whose CRC fails (R508). -/
def execCatPacketBad (dt port : Nat) (p : CatPkt) (s : State) : Res :=
  let s := tick dt s
  let up := (catOf s port).state == .ready || (catOf s port).state == .ident
  .next (if !catGood p then catArrive (catDeliver clearRules noBuf) port p noBuf s
         else if up then catCrcFail port s else s)

/-- A packet for another device (R510). -/
def execCatPacketForward (dt port : Nat) (p : CatPkt) (s : State) : Res :=
  let s := tick dt s
  .next (if p.dest ≠ catDevice s ∧ p.type_ ≠ 0 then catArrive (catDeliver clearRules noBuf) port p noBuf s else s)

/-! ### Time (R519) -/

/-- A mark arrives: the neighbour's is answered at once with a mark, the answer to the module's own is t4. -/
def execTimeMark (dt port exchange : Nat) (answer : Bool) (s : State) : Res :=
  let s := tick dt s
  if (catOf s port).state != .ready then .next s
  else if !answer then
    let l := (s.catum.marksIn.filter fun x => x.1 ≠ port) ++ [(port, exchange, s.now)]
    .next (emit (.mark port exchange true) { s with catum := { s.catum with marksIn := l } })
  else match s.catum.exchange with
    | some x =>
      if x.number = exchange ∧ x.t4.isNone ∧ routeOf s s.catum.master = some port then
        .next (exchangeDone port { s with catum := { s.catum with exchange := some { x with t4 := some s.now } } })
      else .next s
    | none => .next s

/-- One exchange each 1 ms towards the time master: the mark, its departure t1, and TIME_REQ (R506, R519). -/
def timeExchange (s : State) : State :=
  match routeOf s s.catum.master with
  | none => s
  | some port =>
    if s.time.source ≠ 2 ∨ (catOf s port).state ≠ .ready ∨ s.now < s.catum.exAt + msec then s
    else
      let n := (s.catum.exNumber + 1) % 65536
      let x : Exchange := { number := n, t1 := s.now, t4 := none, resp := none }
      let tag := s.catum.tag
      let s := emit (.mark port n false) { s with catum := { s.catum with
        exNumber := n, exAt := s.now, exchange := some x, tag := (tag + 1) % 2 ^ 32 } }
      catQueue port { type_ := 0x0C, vc := 1, dest := (catOf s port).partner, src := catDevice s, hops := 16, lsn := 0, tag := tag,
                      payload := u16 n ++ List.replicate 6 0 } s

def execTimeExchange (dt : Nat) (s : State) : Res := .next (timeExchange (tick dt s))

/-- 10 ms without a TIME_RESP. -/
def execTimeRespTimeout (dt : Nat) (s : State) : Res :=
  let s := tick dt s
  .next (if s.time.source = 2 ∧ s.catum.lastResp + 10 * msec ≤ s.now then loseLock 1 s else s)

/-! ### Domain timers (R511, R516, R517) -/

/-- A follower greets its lead on every READY port, every 100 ms. -/
def execHelloTimer (dt : Nat) (s : State) : Res :=
  let s := tick dt s
  .next (if catRole s = 2 ∧ s.catum.helloAt + 100 * msec ≤ s.now then
    forEach (List.range 4) (fun p s => if (catOf s p).state = .ready then helloLead p s else s)
      { s with catum := { s.catum with helloAt := s.now } }
  else s)

/-- A descriptor held for a lost member completes with CAT_UNREACHABLE; a QUIET one takes its entry first. -/
def unreachable (dev : Nat) (d : Desc) (s : State) : State :=
  let s := if d.quiet then modCq (ringCq s d.ring) (fun r => { r with taken := r.taken + 1 }) s else s
  complete d 0x1682 (u16 dev) s

/-- A member the lead has not heard for 300 ms is lost (R517). -/
def followerLost (dev : Nat) (s : State) : State :=
  match getKey dev s.catum.members with
  | none => s
  | some t =>
    if catRole s ≠ 1 ∨ s.now < t + 300 * msec then s
    else
      let s := record 3 0x1607 (u16 dev) { s with catum := { s.catum with members := dropKey dev s.catum.members } }
      let s := forEach (s.catum.fwd.filter fun e => e.device = dev) (fun e =>
        modSq e.ring fun r => { r with halted := true }) s
      let l := s.catum.fwdHeld.filter fun x => x.1 = dev
      forEach (l.map (·.2)) (unreachable dev)
        { s with catum := { s.catum with fwdHeld := s.catum.fwdHeld.filter fun x => x.1 ≠ dev } }

def execCatFollowerLost (dt device : Nat) (s : State) : Res := .next (followerLost device (tick dt s))

/-- A follower without a route to its lead for FOLLOW_HOLD (R517). -/
def execFollowHoldExpiry (dt : Nat) (s : State) : Res :=
  let s := tick dt s
  match s.catum.leadLost with
  | none => .next s
  | some t =>
    if catRole s = 2 ∧ t + s.catum.followHold * msec ≤ s.now ∧ s.power.stop.isNone ∧ s.startup.ready then
      .next (hostLost (record 3 0x1607 (u16 (catLead s)) s))
    else .next s

/-- 1 ms after the lead's own action ended (R516). -/
def execUcwDomainTimeout (dt : Nat) (s : State) : Res :=
  let s := tick dt s
  .next (forEach (s.catum.ucw.filter fun u => u.ownEnd.any fun t => decide (t + msec ≤ s.now)) ucwDomainDone s)

/-! ### Mailbox (R518) -/

/-- CAT_MB_CTL is written with GO. -/
def execMailboxGo (dt : Nat) (write : Bool) (s : State) : Res :=
  .next (barWrite clearRules (mbStart clearRules) 0x00F0001C (wordOf (1 + 2 * bit write)) (tick dt s))

/-- 1 ms after GO without an answer. -/
def execMailboxTimeout (dt : Nat) (s : State) : Res :=
  let s := tick dt s
  .next (if s.catum.mailbox.busy ∧ s.catum.mailbox.since + msec ≤ s.now then mbEnd true (wordOf top32) s else s)

end Sys2Proof.Machine
end

