-- ==== Sys2Proof/Machine/Compose.lean ====
section
/-!
DEFINITION. What happens at CSE_n (R231): the meaning of COMPOSE_START_EVENT, with the application of sealed shadows
(R228 to R232), the layer map of forerunner mode (R219), the scaler's validation (R245, R247), the pins (R189), and Cave
hold entry (R320, R321).
-/

namespace Sys2Proof.Machine

/-! ### Profile values (R109) -/

/-- A head's profile values of a pending selection replace those in force. -/
def setProfile (k : Nat) (vals : List (Nat × List Byte)) (s : State) : State :=
  let mine := fun id : Nat => decide (0x8000 ≤ id) && decide ((id - 0x8000) % 8 = k)
  { s with startup := { s.startup with
      hFields := (s.startup.hFields.filter fun f => !mine f.1) ++ vals.filter fun f => mine f.1 } }

/-- A configuration whose quantities follow the head's profile where it took them from there.  Of CANVAS_W and CANVAS_H the spec does
not say whether a selection changes them under the composed frames of a configured head: the canvas stays (DESIGN CHOICE,
notes/assumptions/103.md). -/
def profiled (s : State) (k : Nat) (c : HeadCfg) : HeadCfg :=
  let p := (headOf s k).pipe
  let q := fun (off i old : Nat) => if p.forms.contains off then profileValue s k i else old
  let n := q 4 0 c.rateN
  let d := q 8 1 c.rateD
  { c with
    rateN := n, rateD := d, lead := if p.forms.contains 20 then clampLead n d (profileValue s k 2) else c.lead,
    guard := if p.forms.contains 24 then clampGuard n d (profileValue s k 3) else c.guard, peak := q 52 6 c.peak,
    bg := if p.forms.contains 56 then working3 (profileValue s k 7) else c.bg,
    prims := (List.range 4).map fun i => q (64 + 4 * i) (8 + i) (c.prims.getD i 0) }

/-- The preset tables of every layer, for a changed PEAK or primaries (R207). -/
def refreshTables (k : Nat) (c : HeadCfg) (s : State) : State :=
  modPipe k (fun p => { p with layers := p.layers.map fun x =>
    (x.1, if x.2.enable then { x.2 with tables := presetTables s c x.2 x.2.tables } else x.2) }) s

/-- The quantities a configured head takes from its profile follow it: RATE and LEAD at a flip as in R207. -/
def followProfile (k : Nat) (s : State) : State :=
  match (headOf s k).pipe.cfg with
  | none => s
  | some c =>
    let new := profiled s k c
    let s := modPipe k (fun p => { p with bg0 := new.bg, cfg := some { c with guard := new.guard, peak := new.peak, bg := new.bg, prims := new.prims } }) s
    let s := if new.peak = c.peak ∧ new.prims = c.prims then s else refreshTables k new s
    scheduleRate k c new s

/-- A pending CAB_SELECT reaches a head at CSE_n; the last head completes it (R108, R109). -/
def applyCabinet (k cse : Nat) (c : HeadCfg) (s : State) : Bool × State :=
  match s.startup.pendingCab with
  | none => (false, s)
  | some x =>
    if !x.heads.contains k ∨ cse < x.at_ ∨ !dueAt c cse x.desc.t then (false, s)
    else
      let s := followProfile k (setProfile k x.values s)
      let rest := x.heads.filter (· ≠ k)
      if !rest.isEmpty then (true, { s with startup := { s.startup with pendingCab := some { x with heads := rest, cse := cse } } })
      else (true, finishCab x cse cse s)

/-! ### The layer map of forerunner mode (R219) -/

/-- The lowest free code of a range. -/
def lowestFree (lo n : Nat) (used : List (Nat × Nat)) : Option Nat :=
  ((List.range n).map (· + lo)).find? fun c => !(used.any fun u => u.2 = c)

/-- Remaining layers take instances in rising generic number. -/
def takeInstances (lo n : Nat) : List Nat → List (Nat × Nat) → List (Nat × Nat)
  | [], used => used
  | g :: l, used => takeInstances lo n l (match lowestFree lo n used with
    | some c => used ++ [(g, c)]
    | none => used)

/-- The new map from generic layers to layer codes, and the disabled layers with their reason; a keyed scaled layer is disabled only
after it has taken its instance (R219 steps 2 to 5). -/
def mapGeneric (old : List (Nat × Nat)) (layers : List (Nat × Layer)) : List (Nat × Nat) × List (Nat × Nat) :=
  let on := (List.range 8).filterMap fun g => (getKey g layers).bind fun l => if l.enable then some (g, l) else none
  let kept := on.filterMap fun x => (getKey x.1 old).bind fun c => if decide (c < 4) = x.2.scaled then some (x.1, c) else none
  let left := on.filter fun x => !(kept.any fun y => y.1 = x.1)
  let m := takeInstances 4 12 ((left.filter fun x => !x.2.scaled).map (·.1)) kept
  let m := takeInstances 0 4 ((left.filter fun x => x.2.scaled).map (·.1)) m
  (m, (on.filterMap fun x =>
    if x.2.keyedScaled then some (x.1, 2)
    else if m.any (fun y => y.1 = x.1) then none else some (x.1, 1)))

/-! ### Validation of video layers (R245, R247) -/

def scalerOf (ls : List (Nat × Nat × Layer)) (code : Nat) : ScalerStat :=
  match ls.find? fun x => x.2.1 = code with
  | none => Reset.scalerStat
  | some (_, _, l) =>
    let (d, w, why) := decimation l.srcW l.srcH l.dstW l.dstH
    let step := fun a b : Nat => (a * 65536) / max 1 b
    { widthIn := w, d := d, reason := why, hset := l.hset, vset := l.vset, hstep := step w l.dstW, vstep := step l.srcH l.dstH }

/-- The outcome of a layer in the frame before: that of the video instance it ran on, as given where it ran on none. -/
def Pipe.outcome (p : Pipe) (c : HeadCfg) (key : Nat) : Nat :=
  match (if c.forerunner = 0 then some key else getKey key p.frMap) with
  | none => 0
  | some code => if code < 4 then (p.scaler.getD code Reset.scalerStat).outcome else 0

/-- LB_DECIM or LB_REJECT for a layer whose outcome has changed (R247). -/
def scalerRecord (k n : Nat) (key old : Nat) (new : ScalerStat) (s : State) : State :=
  if old = new.outcome then s
  else if new.reason ≠ 0 then record (0x10 + k) 0x0A02 (u8 k ++ u8 key ++ u16 0 ++ u32 n ++ u8 new.reason) s
  else if 1 < new.d then record (0x10 + k) 0x0A01 (u8 k ++ u8 key ++ u16 0 ++ u32 n ++ u8 new.d ++ u8 0 ++ u16 new.widthIn) s
  else s

/-! ### Sealed shadows (R228, R230, R232) -/

/-- The states of a layer that wait behind those in force, in the order in which they will apply. -/
def Pipe.waiting (p : Pipe) (y : Nat) : List Layer :=
  ((p.sealed_.map (·.shadow)) ++ p.openSh.map (·.shadow)).filterMap fun sh => getKey y sh.layers

/-- A layer's state has come into force: what the item held for the state it replaced is released, and it goes on holding what
the states in force and waiting before the last need (R198, R218). -/
def settleLayer (k : Nat) (c : HeadCfg) (y : Nat) (l : Layer) (s : State) : State :=
  match (headOf s k).pipe.waiting y with
  | [] => if l.enable then settle (.layer k y) s else dropItem (.layer k y) s
  | next =>
    let old := mostUnits ((l :: next.dropLast).map (layerUnits s k c y))
    { s with adm := { s.adm with items := s.adm.items.map fun i => if i.kind.same (.layer k y) then { i with old := old } else i } }

/-- The contents of the sealed shadows due come into force, and their layers' items follow (R198). -/
def applyShadow (k n : Nat) (c : HeadCfg) (sh : Shadow) (s : State) : State :=
  let p := (headOf s k).pipe
  let merged := ({ Reset.shadow with coefs := p.coefs, dither := p.dither, layers := p.layers } : Shadow).merge sh
  let c' := { c with guard := sh.guard.getD c.guard, peak := sh.peak.getD c.peak, bg := sh.bg.getD c.bg, prims := sh.prims.getD c.prims }
  let s := modPipe k (fun p => { p with
    layers := merged.layers, coefs := merged.coefs, dither := merged.dither, bg0 := c'.bg, cfg := some c' }) s
  let s := if c'.peak ≠ c.peak ∨ c'.prims ≠ c.prims then refreshTables k c' s else s
  let s := sh.profile.elim s fun prof => modScan k (fun v => { v with nextProfile := v.nextProfile ++ [(prof, n)] }) s
  forEach sh.layers (fun x => settleLayer k c' x.1 x.2) s

/-- The map, the validation and their records once the shadows of a commit are in force (R219, R232, R247). -/
def validate (k n : Nat) (s : State) : State :=
  let p := (headOf s k).pipe
  match p.cfg with
  | none => s
  | some c =>
    let (m, off) := if c.forerunner = 0 then ([], []) else mapGeneric p.frMap p.layers
    let s := forEach off (fun x => record (0x10 + k) 0x0908 (u8 k ++ u8 x.1 ++ u8 x.2)) s
    let ls := runningLayers c m p.layers
    let st := (List.range 4).map (scalerOf ls)
    let keyOf := fun code : Nat => ((ls.find? fun x => x.2.1 = code).map (·.1)).getD code
    let s := forEach (List.range 4) (fun i => scalerRecord k n (keyOf i) (p.outcome c (keyOf i)) (st.getD i Reset.scalerStat)) s
    let pick := fun f : ScalerStat → Bool => ((List.range 4).filter fun i => f (st.getD i Reset.scalerStat)).map keyOf
    modPipe k (fun p => { p with
      frMap := m, scaler := st, decim := maskOf (pick fun x => decide (1 < x.d) && decide (x.reason = 0))
      disabled := maskOf (pick (fun x => x.reason != 0) ++ off.map (·.1)) }) s

/-- The status of R232. -/
def commitStatus (late : Bool) (decim disabled : Nat) : Nat :=
  if late then 0x50 else if disabled ≠ 0 then 0x901 else if decim ≠ 0 then 1 else 0

/-- One head has applied a group commit; the last one completes it (R235, R236). -/
def groupApplied (k n cse gid : Nat) (c : PendCommit) (decim disabled : Nat) (s : State) : State :=
  let s := modGroup gid (fun g => { g with
    heads := g.heads.filter (· ≠ k), decim := if decim = 0 then g.decim else g.decim ||| 2 ^ k,
    disabled := if disabled = 0 then g.disabled else g.disabled ||| 2 ^ k }) s
  match s.groups.find? fun g => g.gid = gid ∧ g.heads.isEmpty ∧ g.desc.isSome with
  | none => s
  | some g =>
    let s := { s with groups := s.groups.filter fun x => x.gid ≠ gid }
    if owes c.desc s then
      completeAt cse c.desc (commitStatus c.late g.decim g.disabled) (u8 g.decim ++ u8 g.disabled ++ u16 g.deferred ++ u32 n) s
    else s

/-- A commit applied at CSE_n completes, late where it joined a later target or its own frame has passed (R230, R232). -/
def commitDone (k n cse : Nat) (c : PendCommit) (s : State) : State :=
  let p := (headOf s k).pipe
  let c := { c with late := c.late || decide (c.frame < n) }
  let s := if c.late then modPipe k (fun p => { p with late := bump p.late }) s else s
  let s := record (0x10 + k) 0x0902 (u8 k ++ u24 0 ++ u32 n ++ u32 c.desc.tag ++ u16 p.decim ++ u16 p.disabled) s
  match c.group with
  | some gid => groupApplied k n cse gid c p.decim p.disabled s
  | none => completeAt cse c.desc (commitStatus c.late p.decim p.disabled) (u16 p.decim ++ u16 p.disabled ++ u32 n) s

/-- A covered load still under way at its target's CSE holds the commit back (R228). -/
def holdCovered (k n : Nat) (s : State) : State :=
  let waits := fun t : Transfer => t.object == k && isShadowLoad t.opcode && t.held.any fun u => decide (u ≤ n)
  let held := (s.adm.transfers.filter waits).filterMap (·.held)
  let s := { s with adm := { s.adm with transfers := s.adm.transfers.map fun t => if waits t then { t with fin := true } else t } }
  forEach held.eraseDups (fun u => retarget k u (n + 1)) s

/-- A group commit whose GO has not come waits (R235). -/
def Sealed.blocked (x : Sealed) (s : State) : Bool :=
  x.commits.any fun c => c.group.any fun gid => s.groups.any fun g => g.gid = gid ∧ g.go = none

def insertSealed (x : Sealed) : List Sealed → List Sealed
  | [] => [x]
  | y :: l => if x.target ≤ y.target then x :: y :: l else y :: insertSealed x l

/-- Sealed shadows due, by rising target. -/
def dueSealed (k n : Nat) (s : State) : List Sealed :=
  ((headOf s k).pipe.sealed_.filter fun x => decide (x.target ≤ n) && !x.blocked s).foldr insertSealed []

/-- Step 2 of R231. -/
def applyCommits (k n cse : Nat) (s : State) : Bool × State :=
  let s := holdCovered k n s
  match dueSealed k n s with
  | [] => (false, s)
  | due =>
    let s := modPipe k (fun p => { p with sealed_ := p.sealed_.filter fun x => !due.contains x }) s
    let sh := due.foldl (fun a x => a.merge x.shadow) Reset.shadow
    let s := (headOf s k).pipe.cfg.elim s fun c => applyShadow k n c sh s
    let s := validate k n s
    (true, forEach (due.flatMap (·.commits)) (commitDone k n cse) s)

/-! ### What the layers read (R167, R170, R189) -/

/-- The newest complete frame of a flow at a CSE; none in fallback. -/
def flowFrame (f : Flow) (cse : Nat) : Option (Nat × Nat) :=
  if f.state = .fallback then none
  else (f.fresh.find? fun x => decide (x.1 ≤ cse)).map fun x => (x.2.1, x.2.2)

def exhReadable (s : State) (h : Nat) : Bool := (exhOf s h).any fun e => e.state == .ready || e.state == .pinned

/-- The exhibit that a layer reads at a CSE and the number of its frame: the newest complete frame of its chain, none in
fallback, or its own exhibit (R167, R189). -/
def layerReads (s : State) (cse : Nat) (l : Layer) : Option (Nat × Nat) :=
  if l.srcFlow then (lookFlow s l.source).bind fun f => flowFrame f cse
  else some (l.source, ((exhOf s l.source).map (·.number)).getD 0)

/-- What one running layer takes in a frame; `run` where the exhibit it reads is not READY or PINNED (R189). -/
def takeLayer (s : State) (cse : Nat) (x : Nat × Nat × Layer) : Taken :=
  match layerReads s cse x.2.2 with
  | none => { layer := x.1, handle := none, number := 0, run := false }
  | some (h, n) =>
    if exhReadable s h then { layer := x.1, handle := some h, number := n, run := false }
    else { layer := x.1, handle := none, number := 0, run := true }

/-- EXH_SOURCE_UNAVAILABLE at the start of each run (R189). -/
def recordMissing (k cse : Nat) (prev : List Taken) (ls : List (Nat × Nat × Layer)) (t : Taken) (s : State) : State :=
  if t.run ∧ !(prev.any fun o => o.layer = t.layer ∧ o.run) then
    let h := (((ls.find? fun x => x.1 = t.layer).bind fun x => layerReads s cse x.2.2).map (·.1)).getD 0
    record (0x10 + k) 0x0806 (u8 k ++ u8 t.layer ++ u16 h ++ u8 (exhState s h)) s
  else s

/-- The pins of a frame (R189). -/
def pinAll (k n : Nat) (ts : List Taken) (s : State) : State :=
  let hs := (ts.filterMap (·.handle)).eraseDups
  forEach hs (fun h s => tearPins h (modExh h (fun e => { e with
    state := .pinned, frame := n, pins := (e.pins.filter fun p => p.1 ≠ k) ++ [(k, n)] }) s)) s

/-- A layer shows something else than in the frame before (R320). -/
def takenChanged (old new : List Taken) : Bool :=
  old.map (fun t => (t.layer, t.handle.isSome, t.number)) != new.map (fun t => (t.layer, t.handle.isSome, t.number))

/-- First byte in a line, and bytes, of the samples that a layer's columns read (R186, R239). -/
def rectBytes (e : Exhibit) (l : Layer) : Nat × Nat :=
  let b := if e.depth = 8 then 1 else 2
  if e.sampling = 2 then (4 * (l.srcX / 2) * b, 4 * ((l.srcX + l.srcW + 1) / 2 - l.srcX / 2) * b) else (3 * l.srcX * b, 3 * l.srcW * b)

/-- The bytes of a source line that a layer reads (R186, R239). -/
def lineRange (e : Exhibit) (l : Layer) (y : Nat) : Nat × Nat := (e.base + y * e.pitch + (rectBytes e l).1, (rectBytes e l).2)

/-- The source lines a layer reads. -/
def Layer.srcLines (l : Layer) : List Nat := if l.srcH = 0 then [] else span l.srcY (l.srcY + l.srcH - 1)

/-- Source lines whose part in a layer's rectangle HBM cannot return whole (R217, R239, R437, R463). -/
def badLines (s : State) (e : Exhibit) (l : Layer) : List Nat :=
  if allReadable s then [] else l.srcLines.filter fun y => readFails s (lineRange e l y).1 (lineRange e l y).2

/-- What the reads of a layer's lines find (R473, R477). -/
def noteLayer (k : Nat) (v : LayerIn) (s : State) : State :=
  v.exh.elim s fun e => noteReads (0x10 + k) (v.l.srcLines.map (lineRange e v.l)) s

/-- The layers as the pipe reads them; `bad` names layers with first and last source line of failed reads, `errs` the failed
reads of coefficients and line buffers (R250). -/
def layerInputs (s : State) (p : Pipe) (c : HeadCfg) (ts : List Taken) (bad : List (Nat × Nat × Nat)) (errs : List ScalerErr) :
    List LayerIn :=
  (p.running c).filterMap fun x =>
    if bitOf p.disabled x.1 then none
    else
      let e := ((ts.find? fun t => t.layer = x.1).bind (·.handle)).bind (exhOf s)
      let st := p.scaler.getD x.2.1 Reset.scalerStat
      let told := (bad.filter fun b => b.1 = x.1).flatMap fun b => span b.2.1 b.2.2
      some { key := x.1, code := x.2.1, l := x.2.2, exh := e, bad := told, holes := e.elim [] fun e => badLines s e x.2.2,
             errs := if x.2.1 < 4 then errs.filter fun r => r.layer = x.1 else [],
             d := if x.2.1 < 4 then st.d else 1, width := if x.2.1 < 4 then st.widthIn else x.2.2.srcW }

/-- COMPOSE_SUBSTITUTED once per layer and frame, with the first and last source line affected (R217, R250); the spec does not say
whose lines it means (DESIGN CHOICE, notes/assumptions/75.md). -/
def recordSubstituted (k n : Nat) (v : LayerIn) (s : State) : State :=
  if v.exh.isNone then s
  else match v.bad ++ v.holes ++ v.errs.flatMap (ScalerErr.lines v.l) with
    | [] => s
    | y :: l => record (0x10 + k) 0x0909 (u8 k ++ u8 v.key ++ u16 0 ++ u32 n ++ u16 (l.foldl min y) ++ u16 (l.foldl max y)) s

/-! ### Composition -/

/-- Steps 4 to 6 of R231: layers take their frames, pins, and frame n is composed at the next compose count (R209). -/
def composeNow (k n cse : Nat) (c : HeadCfg) (bad : List (Nat × Nat × Nat)) (lbErr : List ScalerErr) (s : State) : Bool × State :=
  let p := (headOf s k).pipe
  let shown := (p.running c).filter fun x => !bitOf p.disabled x.1
  let ts := shown.map (takeLayer s cse)
  let s := forEach ts (recordMissing k cse p.taken shown) s
  let s := pinAll k n ts s
  let ins := layerInputs s p c ts bad lbErr
  let s := forEach ins (noteLayer k) (forEach ins (recordSubstituted k n) s)
  let s := noteReads (0x10 + k) (vitReads s k (headOf s k).vit c) s
  let s := composeFrame k c (headOf s k).vit p.bg0 p.coefs ins (exhRange s (c.comp.getD (p.count % 3) 0)).1 s
  (takenChanged p.taken ts, modPipe k (fun p => { p with
    taken := ts, composed := ((n, p.count) :: p.composed).take 3, count := p.count + 1, composing := true,
    lbErr := satAdd top32 p.lbErr lbErr.length, gapMin := if p.count = 0 then p.gapMin else min p.gapMin (cse - p.retired) }) s)

/-- Requests that wait for a CSE: Recipe, form, motion rendering, scanner (R269, R272, R293, R348). -/
def applyDue (k n cse : Nat) (c : HeadCfg) (s : State) : Bool × State :=
  let h := headOf s k
  let due := fun d : Desc => dueAt c cse d.t
  let a := h.press.pending.any fun x => due x.2
  let b := h.press.wantForm.any fun x => decide (x.2 ≤ cse)
  let e := h.motion.pending.any fun x => due x.2
  let s := if a then applyRecipe k n cse s else s
  let red := (headOf s k).press.reduced
  let s := if b then applyForm k n c s else s
  let s := if h.motion.ending then endMotion k s else s
  let s := if e then applyMotion k n cse s else s
  let s := if h.scan.pending.any fun x => due x.2 then applyScan k n cse s else s
  (a || e || h.motion.ending || (headOf s k).press.reduced != red, s)

/-- Frame n becomes the loop frame; a change whose guard CSE_n did not meet is one for the frame after it (R320, R321). -/
def enterCave (k n cse : Nat) (c : HeadCfg) : State → State :=
  modCave k fun v => { v with state := .entering, frame := n, request := none, cause := 1,
                              exitAt := if dueAt c cse v.latest then 0 else v.latest }

/-- An armed head counts identical frames and enters Cave hold after COUNT of them (R320, R322).  The first live frame after a Cave
hold begins a new count (DESIGN CHOICE, notes/assumptions/116.md). -/
def countIdentical (k n cse : Nat) (c : HeadCfg) (same : Bool) (s : State) : State :=
  let v := (headOf s k).cave
  let before := if v.state = .leaving ∧ n = v.live then 0 else v.run
  let run := if same then min top32 (before + 1) else 0
  let s := modCave k (fun v => { v with run := run, changed := false }) s
  if v.state ≠ .off ∨ v.armed = 0 ∨ run < v.armed then s
  else match caveRefused s k with
    | some (why, p) => record (0x10 + k) 0x0D80 (u8 why ++ u8 p) (modCave k (fun v => { v with armed := 0 }) s)
    | none => enterCave k n cse c s

/-- CSE_n of a head that composes. -/
def composeAt (k n cse : Nat) (c : HeadCfg) (bad : List (Nat × Nat × Nat)) (lbErr : List ScalerErr) (s : State) : State :=
  let first := decide ((headOf s k).pipe.count = 0)
  let s := if cse + 160 < s.now then headMiss k 1 (0x10 + k) cse s else s
  let s := modPipe k (fun p => { p with frame := n, cse := cse }) s
  let moved := (headOf s k).cave.changed
  let (a, s) := applyCabinet k cse c s
  let (b, s) := applyCommits k n cse s
  let c := (headOf s k).pipe.cfg.getD c
  let vit := decide (0 < ((headOf s k).vit.pending.filter fun x => decide (x.db + c.guard ≤ cse)).length)
  let s := vitDue k cse c.guard s
  let (e, s) := applyDue k n cse c s
  let s := solverDue k s
  let (t, s) := composeNow k n cse ((headOf s k).pipe.cfg.getD c) bad lbErr s
  tellState k (countIdentical k n cse c (!(first || moved || a || b || vit || e || t)) s)

/-! ### COMPOSE_START_EVENT -/

/-- A revoked head stops at its next CSE; its ports end (R29), in the stop of R72 with PARK once its lasers are dark.  The ports of one in Cave hold send the park mark once
its channels, whose revoked loop sets ramp at their sample instants, are dark (R325). -/
def stopAtCse (k : Nat) (s : State) : State :=
  if (headOf s k).cave.state = .hold ∨ (headOf s k).cave.state = .leaving then
    stopHead k 6 s
  else
  let ports := (List.range 16).filter fun p => (portOf s p).owner == some k
  let s := endHead k 0 0x984 s
  if s.power.stop.isSome then headDark k s else forEach ports downPort (modPipe k (fun p => { p with parkDue := none }) s)

/-- The CSE at which a release takes effect composes nothing: HEAD_RELEASED (R210). -/
def releaseAtCse (k n m cse : Nat) (s : State) : State :=
  let p := (headOf s k).pipe
  if p.frame < m ∨ p.count = 0 then
    record (0x10 + k) 0x090A (u8 k ++ u24 0 ++ u32 (p.composed.head?.elim 0xFFFFFFFF (·.1))) (modPipe k (fun p => { p with
      frame := max n m, cse := cse, count := p.count + (if p.count = 0 then 1 else 0) }) s)
  else s

/-- Entry into Cave hold, and its cancelling by a change that CSE_(m+1) meets (R320, R321): whether the head composes. -/
def caveAtCse (k n cse : Nat) (c : HeadCfg) (s : State) : Bool × State :=
  let v := (headOf s k).cave
  match v.state with
  | .off =>
    if v.request.any fun t => dueAt c cse t then (true, enterCave k n cse c s) else (true, s)
  | .entering =>
    if v.exitAt ≠ 0 ∧ dueAt c ((headOf s k).pipe.cseAt (v.frame + 1)) v.exitAt then
      let s := modCave k (fun v => { v with state := .off, desc := none, exitAt := 0 }) s
      (true, v.desc.elim s fun d => if owes d s then complete d 0xD81 (u32 n) s else s)
    else (false, s)
  | .hold => (false, s)
  | .leaving => (decide (v.live ≤ n), s)

/-- CSE_n of a configured head: it composes unless Cave hold says otherwise; revoked motion rendering ends in either case
(R29). -/
def cseNow (k n cse : Nat) (c : HeadCfg) (bad : List (Nat × Nat × Nat)) (lbErr : List ScalerErr) (s : State) : State :=
  let (go, s) := caveAtCse k n cse c s
  if go then composeAt k n cse c bad lbErr s
  else if (headOf s k).motion.ending then endMotion k s else s

/-- CSE_n arrives.  `bad` names failed source reads by layer, first and last line; `lbErr` the scaler's failed
reads. -/
def execComposeStartEvent (dt head : Nat) (bad : List (Nat × Nat × Nat)) (lbErr : List ScalerErr) (s : State) : Res :=
  let s := tick dt s
  let p := (headOf s head).pipe
  match p.cfg, p.lastCse s.now with
  | some c, some n =>
    if p.count ≠ 0 ∧ n ≤ p.frame then .next s
    else
      let cse := p.cseAt n
      if p.stopping then .next (stopAtCse head s)
      else match p.releasing with
        | some (_, m) => .next (if m ≤ n then releaseAtCse head n m cse s else cseNow head n cse c bad lbErr s)
        | none => .next (cseNow head n cse c bad lbErr s)
  | _, _ => .next s

end Sys2Proof.Machine
end

