-- ==== Sys2Proof/Machine/Nor.lean ====
section
/-!
DEFINITION. The NOR flash (chapters 4 and 24): sectors and their spares (R540), bank headers (R95, R96), and the writes of a
user bank and of a firmware slot (R100, R101, R546) with meanings of the commands that end them.
-/

namespace Sys2Proof.Machine

/-! ### Sectors -/

/-- A sector that fails goes to the lowest free spare, and the write is repeated; false where no spare is left (R540). -/
def remapSector (sec : Nat) (x : Bool × State) : Bool × State :=
  let (ok, s) := x
  if !ok then (false, s)
  else if s.wear.spares = 0 then (false, s)
  else
    let spare := 0x382 + (126 - s.wear.spares)
    let s := { s with wear := { s.wear with spares := s.wear.spares - 1, remap := setKey sec spare s.wear.remap } }
    (true, serviceStep (record 0x2E 0x1803 (u16 sec ++ u16 spare ++ u16 s.wear.spares) s))

/-- The 64 KiB sectors of a region: 0 and 1 the firmware slots, 2 and 3 the banks, 4 the ledger save (Table 4.4). -/
def regionSectors (i : Nat) : Nat × Nat := [(0x20, 0x120), (0x120, 0x220), (0x220, 0x2A0), (0x2A0, 0x320), (0x320, 0x380)].getD i (0, 0)

/-- The failing sectors of a write to a region, in order; no other sector is remapped (R540). -/
def remapAll (i : Nat) (l : List Nat) (s : State) : Bool × State :=
  let r := regionSectors i
  (l.filter fun x => decide (r.1 ≤ x) && decide (x < r.2)).foldl (fun x sec => remapSector sec x) (true, s)

/-- A region is erased: 0 and 1 the firmware slots, 2 and 3 the banks, 4 the ledger save (Table 24.2). -/
def countErase (i : Nat) (s : State) : State := { s with wear := { s.wear with erases := upd s.wear.erases i bump } }

/-! ### Banks -/

/-- One step of CRC-32C, reflected (R96). -/
def crc32cBit (c : Nat) : Nat := if c % 2 = 1 then Nat.xor (c / 2) 0x82F63B78 else c / 2

/-- CRC-32C of R96: over "123456789" it yields 0xE3069283. -/
def crc32c (l : List Byte) : Nat :=
  Nat.xor 0xFFFFFFFF (l.foldl (fun c b => (List.range 8).foldl (fun c _ => crc32cBit c) (Nat.xor c b.toNat)) 0xFFFFFFFF)

/-- The header checks of R95. -/
def bankHeader (b : List Byte) : Bool :=
  let n := fieldOf b 8 4
  decide (32 ≤ b.length) && fieldOf b 0 4 == 0x4D495A42 && fieldOf b 12 2 == 1 && n % 4 == 0 && decide (4 ≤ n) &&
    decide (n ≤ 1048576) && crc32c (b.take 28) == fieldOf b 28 4

/-- The records area. -/
def bankBody (b : List Byte) : List Byte := (b.drop 32).take (fieldOf b 8 4)

/-- A bank is valid (R95). -/
def bankValid (b : List Byte) : Bool :=
  bankHeader b && decide ((bankBody b).length = fieldOf b 8 4) && crc32c (bankBody b) == fieldOf b 16 4

def bankGen (b : List Byte) : Nat := fieldOf b 4 4

/-- The bank as written: another GENERATION and its header's CRC (R100 steps 2 and 3). -/
def bankSealed (gen : Nat) (b : List Byte) : List Byte :=
  let h := b.take 4 ++ u32 gen ++ (b.drop 8).take 20
  h ++ u32 (crc32c h) ++ bankBody b

/-- The bank that is not in use: B beside A.  With neither in use (NVM_STAT.BANK = 2) the spec does not say which bank a write takes,
nor what the active generation is: it takes bank A, and the generation counts as 0 (DESIGN CHOICE, notes/assumptions/101.md). -/
def idleBank (s : State) : Nat := if s.startup.bank = 0 then 1 else 0

def putBank (i : Nat) (b : List Byte) (s : State) : State :=
  { s with startup := if i = 0 then { s.startup with bankA := b } else { s.startup with bankB := b } }

/-! ### Writes -/

/-- A write begins: its bank or slot is erased. -/
def norBegin (w : NorWrite) (s : State) : State :=
  match w with
  | .bank _ _ => countErase (2 + idleBank s) (putBank (idleBank s) [] s)
  | .slot _ k _ => countErase k { s with wear := { s.wear with slots := upd s.wear.slots k fun f => { f with ok := false } } }

/-- A write joins those under way; the first one begins at once, and a bank write that finds one under way waits behind it
(DESIGN CHOICE; notes/assumptions/64.md). -/
def norStart (w : NorWrite) (s : State) : State :=
  let s := if s.startup.norWrites.isEmpty then norBegin w s else s
  { s with startup := { s.startup with norWrites := s.startup.norWrites ++ [w] } }

/-- The write under way has ended; the next one begins. -/
def norNext (s : State) : State :=
  let rest := s.startup.norWrites.drop 1
  let s := { s with startup := { s.startup with norWrites := rest } }
  match rest with
  | w :: _ => norBegin w s
  | [] => s

/-- The tag of the write under way; zero for one from the management bus. -/
def norTag (s : State) : Nat :=
  match s.startup.norWrites.head? with
  | some (.bank (some d) _) => d.tag
  | some (.slot (some d) _ _) => d.tag
  | _ => 0

/-- The descriptor of a write, if any, completes. -/
def norComplete (d : Option Desc) (status : Nat) (s : State) : State := d.elim s fun d => complete d status [] s

/-- NVM_WRITE_BANK and the management bus: the refusals of R100, then the write. -/
def bankCheck (b : List Byte) (s : State) : Option Nat :=
  if 1048576 < fieldOf b 8 4 then some 0x12
  else if !bankValid b then some 0x13
  else if 0xFFFFFFFF ≤ s.startup.gen + 1 then some 0x13
  else none

def bankStart (d : Option Desc) (b : List Byte) (s : State) : State := norStart (.bank d (bankSealed (s.startup.gen + 1) b)) s

def nvmWriteAct (buf : HostBuf) (d : Desc) (s : State) : State :=
  match bufOf d buf s with
  | .error x => complete d 0x501 (u64 x.length) s
  | .data x =>
    let b := x.take d.length
    match bankCheck b s with
    | some st => complete d st [] s
    | none => bankStart (some d) b s

def execNvmWriteBank (dt : Nat) (d : Desc) (buf : HostBuf) (s : State) : Res :=
  .next (runDesc (specBuf 0x0301 false (span 24 63)) d noBad (fun d _ => decide (1048608 < d.length)) (nvmWriteAct buf) (tick dt s))

/-- The bank is written, its header last, and verified (R100 step 3, R540). -/
def execBankWriteDone (dt : Nat) (badSectors : List Nat) (s : State) : Res :=
  let s := tick dt s
  match s.startup.norWrites.head? with
  | some (.bank d b) =>
    let (ok, s) := remapAll (2 + idleBank s) badSectors s
    let s := if ok then putBank (idleBank s) b s else s
    .next (norNext (norComplete d (if ok then 0 else 0x60) s))
  | _ => .next s

/-! ### Firmware slots (R545 to R547) -/

/-- The loader's check of an image (R546): its header and authentication, the slot's size, the behaviour level. -/
def imageGood (f : FwImage) : Bool := f.ok && decide (f.size ≤ 16777216) && decide (1 ≤ f.level) && decide (f.level ≤ hwMax)

/-- A read error before the whole image has come: bytes before it. -/
def imageReadErr (d : Desc) (readErr : Option Nat) (s : State) : Option Nat :=
  let b := bufOf d (.data []) s
  if b.bad then some b.bytes.length else readErr

def fwWriteAct (image : FwImage) (readErr : Option Nat) (d : Desc) (s : State) : State :=
  let k := d.p8 24
  if s.wear.slot = k then complete d 0x1880 (u8 k) s
  else if !s.startup.norWrites.isEmpty then complete d 0x1883 (u32 (norTag s)) s
  else match imageReadErr d readErr s with
    | some n => complete d 0x501 (u64 n) s
    | none =>
      if imageGood image && decide (image.size = d.length) then norStart (.slot (some d) k image) s
      else complete d 0x1881 (u32 image.badAt) s

def execFwWriteSlot (dt : Nat) (d : Desc) (image : FwImage) (readErr : Option Nat) (s : State) : Res :=
  .next (runDesc (specBuf 0x1602 false (span 25 63)) d (fun d _ => badField [(decide (1 < d.p8 24), 24)]) (fun d _ => decide (16777216 < d.length))
    (fwWriteAct image readErr) (tick dt s))

/-- The slot is erased, written and verified: FW_SLOT_WRITTEN (R546, R540). -/
def execSlotWriteDone (dt : Nat) (badSectors : List Nat) (s : State) : Res :=
  let s := tick dt s
  match s.startup.norWrites.head? with
  | some (.slot d k f) =>
    let (ok, s) := remapAll k badSectors s
    if ok then
      let s := { s with wear := { s.wear with slots := upd s.wear.slots k fun _ => f } }
      .next (norNext (norComplete d 0 (record 0x2E 0x1805 (u8 k ++ u8 f.level ++ u16 0 ++ u32 f.version) s)))
    else .next (norNext (norComplete d 0x60 s))
  | _ => .next s

/-- BL_PIN (R547): the pin is stored and acts at the next Keeper boot. -/
def blPinAct (d : Desc) (s : State) : State :=
  let v := d.p16 16
  if v ≠ 0 ∧ !s.wear.slots.any (fun f => imageGood f && f.level == v) then complete d 0x1882 (u16 v) s
  else
    let s := record 0x2E 0x1806 (u16 s.wear.pinStored ++ u16 v) s
    complete d 0 [] { s with wear := { s.wear with pinStored := v } }

def execBlPin (dt : Nat) (d : Desc) (s : State) : Res :=
  .next (runDesc (specI3 0x1603 (span 18 63)) d noBad noOver blPinAct (tick dt s))

/-! ### Wear (R542) -/

/-- The wear report (Table 24.2). -/
def wearBytes (s : State) : List Byte :=
  let w := s.wear
  let m := s.meter
  let e := fun i => w.erases.getD i 0
  u32 (hours m.run) ++ u32 w.powerUps ++ u32 w.p3 ++ u32 w.trips ++ (m.warn.flatMap fun t => u32 (hours t)) ++
    (m.ref2x.flatMap fun t => u32 (hours t)) ++ u32 w.freezes ++ u8 s.hbm.reserves.length ++ u8 (freeLoopSlots s) ++
    u8 (s.thermal.sensors.countP (·.suspect)) ++ u8 w.spares ++ w.ppr.flatMap u8 ++ w.plSpared.flatMap u8 ++
    w.clSpared.flatMap u8 ++ u32 (max (e 0) (e 1)) ++ u32 (max (e 2) (e 3)) ++ u32 (e 4) ++ u16 w.holdFirst ++ u16 w.holdLast ++
    u8 w.status ++ u24 w.causes ++ u64 w.saved ++ List.replicate 80 0

def execWearReport (dt : Nat) (d : Desc) (s : State) : Res :=
  .next (runDesc (specBuf 0x1601 false (span 24 63)) d (fun d _ => badField [(decide (d.length < 256), 8)])
    (fun d _ => decide (256 < d.length)) (fun d s => complete d 0 [] (hostWrite d (d.p64 16) (wearBytes s) s)) (tick dt s))

/-- The record is written after every 24 hours in P0 to P2. -/
def execWearRecordSave (dt : Nat) (s : State) : Res :=
  let s := tick dt s
  let days := s.meter.run / (24 * 3600 * 4000000000)
  .next (if s.meter.days < days then { s with meter := { s.meter with days := days }, wear := { s.wear with saved := s.now } } else s)

end Sys2Proof.Machine
end

