-- ==== Sys2Proof/Machine/NvImage.lean ====
section
/-!
DEFINITION. The non-volatile image: records (R97), field definitions of classes K, S and H (R102, R103, R553, R554, Table 9.1),
clamping (R104), resolution (R98, R105) and the Clamp Report (R106).
-/

namespace Sys2Proof.Machine

/-! ### Field definitions -/

/-- A part of a field's value with its own range: position, width, least, greatest, step, and the allowed set. -/
structure SubField where
  lo    : Nat
  width : Nat
  least : Nat
  most  : Nat
  step  : Nat
  ok    : Nat → Bool

/-- The rule of Table 4.9 a part breaks (0 for none) and the value used; `lower` is the lower layer's. -/
def SubField.check (f : SubField) (v lower : Nat) : Nat × Nat :=
  if v < f.least then (1, f.least)
  else if f.most < v then (2, f.most)
  else if (v - f.least) % f.step ≠ 0 then (3, v - (v - f.least) % f.step)
  else if !f.ok v then (4, lower)
  else (0, v)

/-- A field ID's definition (Table 4.8, R553, R554): TYPE, VLEN, base-only, factory value, and its parts. -/
structure FieldDef where
  ty       : Nat
  vlen     : Nat
  baseOnly : Bool
  factory  : Nat
  subs     : List SubField

def anySub (lo width : Nat) : SubField := ⟨lo, width, 0, 2 ^ width - 1, 1, fun _ => true⟩
def rangeSub (lo width least most : Nat) : SubField := ⟨lo, width, least, most, 1, fun _ => true⟩

/-- Bits of a value outside every part. -/
def FieldDef.outside (f : FieldDef) (v : Nat) : Nat := v - total (f.subs.map fun x => bits v x.lo x.width * 2 ^ x.lo)

/-- The lowest bit set of a number. -/
def lowBit (v : Nat) : Nat := ((List.range 64).find? (bitOf v)).getD 64

/-- The rule of the lowest failing part and the whole value used (R554); bits outside the parts are one NOT_ALLOWED part. -/
def FieldDef.apply (f : FieldDef) (v lower : Nat) : Nat × Nat :=
  let rs := f.subs.map fun x => (x.lo, x.check (bits v x.lo x.width) (bits lower x.lo x.width))
  let bad := (rs.filter fun r => r.2.1 ≠ 0).map fun r => (r.1, r.2.1)
  let bad := if f.outside v = 0 then bad else bad ++ [(lowBit (f.outside v), 4)]
  let first := bad.foldl (fun m x => match m with
    | none => some x
    | some y => if x.1 < y.1 then some x else some y) none
  (first.elim 0 (·.2), total (rs.map fun r => r.2.2 * 2 ^ r.1))

def defU32 (factory : Nat) (subs : List SubField) : FieldDef := ⟨1, 4, false, factory, subs⟩
def defU64 (factory : Nat) (subs : List SubField) : FieldDef := ⟨3, 8, false, factory, subs⟩

/-- Class K (Table 4.8). -/
def keeperDef (id : Nat) : Option FieldDef :=
  let thr := fun i f => defU32 f [⟨0, 32, (thrRange i).1, (thrRange i).2, 10, fun _ => true⟩]
  match id with
  | 1 => some { defU32 0x5A [⟨0, 32, 0x08, 0x77, 1, fun v => !([0x0C, 0x28, 0x37, 0x61].contains v)⟩] with baseOnly := true }
  | 2 => some (thr 0 8700)
  | 3 => some (thr 1 8400)
  | 4 => some (thr 2 8100)
  | 5 => some (thr 3 7800)
  | 6 => some (defU32 300 [⟨0, 32, 100, 1000, 10, fun _ => true⟩])
  | 7 => some (defU32 0xFF [rangeSub 0 32 0 0xFF])
  | 8 => some (defU32 0x1F [rangeSub 0 32 0 0x1F])
  | _ => none

/-- The parts of the fields of a single register (the defining tables of Table 25.2). -/
def regSubs (off : Nat) : List SubField :=
  if off = 0x00B00004 then [rangeSub 0 4 8 16, anySub 4 1]
  else if off = 0x00B00008 then [anySub 0 12]
  else if off = 0x00B0000C then [rangeSub 0 16 256 65535, rangeSub 16 8 1 255]
  else if off = 0x00B00110 ∨ off = 0x00B00114 ∨ off = 0x00B00118 then [rangeSub 0 16 20 10000]
  else if off = 0x00D00004 then [rangeSub 0 8 1 255, rangeSub 8 16 1 65535]
  else if off = 0x00D00008 then [anySub 0 16]
  else if off = 0x00F00004 then [anySub 0 10, anySub 10 4, ⟨14, 2, 0, 3, 1, fun v => v != 3⟩, anySub 16 10]
  else if off < 0x00200200 then (if off % 64 = 0x10 then [anySub 0 1, rangeSub 1 12 0 4094, anySub 13 1] else [anySub 0 32])
  else if off < 0x00200400 then [anySub 0 1, ⟨1, 3, 0, 7, 1, fun v => v != 7⟩]
  else if 0x00A08000 ≤ off ∧ off < 0x00A080C0 then [anySub 0 1]
  else if 0x00A08100 ≤ off ∧ off < 0x00A081C0 then [⟨0, 2, 0, 3, 1, fun v => v != 3⟩]
  else if 0x00A08200 ≤ off ∧ off < 0x00A08240 then [anySub 0 2]
  else if 0x00A08240 ≤ off ∧ off < 0x00A08280 then [anySub 0 1, anySub 1 2]
  else if off % 64 = 4 then [anySub 0 16, anySub 16 16]
  else [anySub 0 16]

/-- The register a class S ID sets: its offset (of _LO for a pair, of word 0 for EDID) and its TYPE (Table 25.2). -/
def setupReg (id : Nat) : Option (Nat × Nat) :=
  let row := fun (first n base stride ty : Nat) =>
    if first ≤ id ∧ id < first + n then some (base + stride * (id - first), ty) else none
  [row 0x0100 4 0x00200010 64 1, row 0x0104 4 0x00200014 64 3, row 0x0108 4 0x0020001C 64 1, row 0x010C 2 0x00200200 256 1,
   row 0x010E 2 0x00200400 512 4, row 0x0200 48 0x00A08000 4 1, row 0x0230 48 0x00A08100 4 1, row 0x0260 16 0x00A08200 4 1,
   row 0x0270 16 0x00A08240 4 1, row 0x0280 8 0x00A08280 8 3, row 0x0290 48 0x00A01004 0x40 1, row 0x02C0 48 0x00A01008 0x40 1,
   row 0x0300 1 0x00B00004 4 1, row 0x0301 1 0x00B00008 4 1, row 0x0302 1 0x00B0000C 4 1, row 0x0304 3 0x00B00110 4 1,
   row 0x0310 1 0x00D00004 4 1, row 0x0311 1 0x00D00008 4 1, row 0x0320 1 0x00F00004 4 1].findSome? id_
where
  id_ (x : Option (Nat × Nat)) : Option (Nat × Nat) := x

/-- Class S; the factory value is the register's reset value (notes/assumptions/15.md). -/
def setupDef (id : Nat) : Option FieldDef :=
  (setupReg id).map fun r =>
    match r.2 with
    | 4 => ⟨4, 512, false, 0, [anySub 0 4096]⟩
    | 3 => defU64 ((regReset r.1).toNat + 2 ^ 32 * (regReset (r.1 + 4)).toNat) [anySub 0 48]
    | _ => defU32 (regReset r.1).toNat (regSubs r.1)

/-- Class H (Table 9.1): 0x8000 + 8 q + k.  The spec does not state their TYPE and VLEN: U32 but for BG, which takes U64, and LEAD
takes every value of 32 bits (DESIGN CHOICE, notes/assumptions/102.md). -/
def profileDef (id : Nat) : Option FieldDef :=
  let q := (id - 0x8000) / 8
  let f := factoryProfile.getD q 0
  if id < 0x8000 ∨ 12 ≤ q then none
  else match q with
    | 0 | 1 => some (defU32 f [rangeSub 0 32 1 0xFFFFFFFF])
    | 2 => some (defU32 f [anySub 0 32])
    | 3 => some (defU32 f [rangeSub 0 32 40000 4000000])
    | 4 => some (defU32 f [⟨0, 32, 64, 8192, 4, fun _ => true⟩])
    | 5 => some (defU32 f [rangeSub 0 32 64 4320])
    | 6 => some (defU32 f [rangeSub 0 32 48 10000])
    | 7 => some (defU64 f [⟨0, 64, 0, 2 ^ 64 - 1, 1, fun v => decide (v < 2 ^ 60)⟩])
    | _ => some (defU32 f [⟨0, 32, 0, 0xFFFFFFFF, 1, fun v => decide (65536 ≤ v)⟩])

/-- The definition of a field ID, by class (Table 4.7). -/
def fieldDef (id : Nat) : Option FieldDef :=
  if id < 0x100 then keeperDef id else if id < 0x8000 then setupDef id else if id < 0xF000 then profileDef id else none

/-! ### Records -/

/-- A record of a bank (Table 4.6): offset within the bank, and the rule its form breaks (6 CRC, 7 LENGTH, else 0). -/
structure ImgRec where
  off   : Nat
  id    : Nat
  ty    : Nat
  scope : Nat
  vlen  : Nat
  value : List Byte
  form  : Nat
  deriving DecidableEq, Repr

/-- The records of a bank's body, at most `n`; one that runs past LENGTH ends the bank. -/
def imgRecs : Nat → Nat → List Byte → List ImgRec
  | 0, _, _ => []
  | n + 1, off, l =>
    if l.isEmpty then []
    else
      let vlen := fieldOf l 4 2
      let size := 12 + 4 * ceilDiv vlen 4
      let r : ImgRec := { off := off, id := fieldOf l 0 2, ty := fieldOf l 2 1, scope := fieldOf l 3 1, vlen := vlen,
                          value := (l.drop 8).take vlen, form := 0 }
      if l.length < size then [{ r with form := 7 }]
      else
        let good := crc32c (l.take (size - 4)) == fieldOf l (size - 4) 4
        { r with form := if good then 0 else 6 } :: imgRecs n (off + size) (l.drop size)

/-- The records of a bank. -/
def bankRecs (b : List Byte) : List ImgRec := imgRecs (bankBody b).length 32 (bankBody b)

/-- Factory-only IDs (Table 4.7). -/
def factoryOnly (id : Nat) : Bool := decide (0xF000 ≤ id) && decide (id ≤ 0xFFFE)

/-- Table 4.9 on one record: the rule, 0 for none, and the value used.  Of several rules that a record breaks one is reported:
the form (CRC, LENGTH), then the ID, SCOPE, TYPE, and the value's own rule (DESIGN CHOICE; notes/assumptions/62.md). -/
def ImgRec.eval (r : ImgRec) (lower : Nat) : Nat × Nat :=
  if r.form ≠ 0 then (r.form, lower)
  else match fieldDef r.id with
    | none => if factoryOnly r.id then (9, lower) else (8, 0)
    | some f =>
      if (8 ≤ r.scope ∧ r.scope ≤ 0xFE) ∨ (f.baseOnly ∧ r.scope ≠ 0xFF) then (9, lower)
      else if r.ty ≠ f.ty ∨ r.vlen ≠ f.vlen then (5, lower)
      else f.apply (leNat r.value) lower

/-- The factory value of a field; that of a factory-only ID is a free value (R94, notes/assumptions/63.md). -/
def factoryValue (id : Nat) : Nat :=
  match fieldDef id with
  | some f => f.factory
  | none => if factoryOnly id then Config.factoryOnly id else 0

/-- The governing record's value: the last that passes its checks (R98, R105); where none does the spec names none, and the last
governs (DESIGN CHOICE, notes/assumptions/100.md). -/
def governing (l : List (Nat × Nat)) : Option Nat :=
  match (l.filter fun x => x.1 = 0).getLast? with
  | some x => some x.2
  | none => l.getLast?.map (·.2)

/-- The base value of a field, none where the base holds no record for it. -/
def baseValue (rs : List ImgRec) (id : Nat) : Option Nat :=
  governing ((rs.filter fun r => r.id = id ∧ r.scope = 0xFF).map fun r => r.eval (factoryValue id))

/-- The lower layer of a record (R104). -/
def lowerValue (rs : List ImgRec) (r : ImgRec) : Nat :=
  if r.scope = 0xFF then factoryValue r.id else (baseValue rs r.id).getD (factoryValue r.id)

/-- A field resolved for a cabinet; none where the value is rule 3's (R105). -/
def resolveField (rs : List ImgRec) (cab id : Nat) : Option Nat :=
  let base := baseValue rs id
  (governing ((rs.filter fun r => r.id = id ∧ r.scope = cab).map fun r => r.eval (base.getD (factoryValue id)))).or base

/-- STORED of an entry: the value, or the CRC-32C of a blob. -/
def storedOf (blob : Bool) (b : List Byte) : Nat := if blob then crc32c b else leNat (b.take 8)

/-- USED of an entry: 0 for an unknown ID; the CRC-32C of the value's own bytes where BLOB is set (Table 4.10). -/
def usedOf (blob : Bool) (id used : Nat) : Nat :=
  match fieldDef id with
  | some f => if blob then crc32c (leBytes f.vlen used) else used
  | none => if factoryOnly id then used % 2 ^ 64 else 0

/-- A record earlier than the governing one of its field and scope, which is not reported (R98); where no record passes its checks
none is earlier than it, and each is reported (notes/assumptions/100.md).  Records of an unknown ID govern nothing. -/
def superseded (rs : List ImgRec) (r : ImgRec) : Bool :=
  let passes := fun x : ImgRec => x.form == 0 && (x.eval (lowerValue rs x)).1 == 0
  ((fieldDef r.id).isSome || factoryOnly r.id) &&
    rs.any fun x => x.id == r.id && x.scope == r.scope && decide (r.off < x.off) && passes x

/-- The rules of Table 4.9 that take the lower layer's value. -/
def takesLower (rule : Nat) : Bool := [4, 5, 6, 7, 9].contains rule

/-- The value below a record is the factory's: below a base record, and where the base holds no record that gives one. -/
def lowerIsFactory (rs : List ImgRec) (r : ImgRec) : Bool :=
  r.scope == 0xFF || (((rs.filter fun x => x.id == r.id && x.scope == 0xFF).map fun x => (x.eval (factoryValue r.id)).1).all takesLower)

/-- FLAGS.FACTORY: of a class S field, USED equals the factory value (R554); of any other, the rule took the factory value, as the
spec's example has it, where a value clamped to one that the factory value equals leaves the flag 0 (R106). -/
def factoryFlag (rs : List ImgRec) (r : ImgRec) (rule used : Nat) : Bool :=
  ((fieldDef r.id).isSome || factoryOnly r.id) && used == factoryValue r.id &&
    ((decide (0x100 ≤ r.id) && decide (r.id < 0x8000)) || (takesLower rule && lowerIsFactory rs r))

/-- The Clamp Report entry of a record that a rule touches (Table 4.10); none of an earlier, superseded one (R98). -/
def clampOf (bank : Nat) (rs : List ImgRec) (r : ImgRec) : Option ClampEntry :=
  let (rule, used) := r.eval (lowerValue rs r)
  let blob := (fieldDef r.id).any (fun f => f.ty == 4) || r.ty == 4
  if rule = 0 ∨ superseded rs r then none
  else some { field := r.id, scope := r.scope, rule := rule, flags := bit (factoryFlag rs r rule used) + 2 * bit blob,
              bank := bank, stored := storedOf blob r.value, used := usedOf blob r.id used, offset := r.off }

/-- The field IDs of a class that a bank holds. -/
def idsIn (rs : List ImgRec) (lo hi : Nat) : List Nat := ((rs.map (·.id)).filter fun id => lo ≤ id ∧ id < hi ∧ (fieldDef id).isSome).eraseDups

/-- Values of a class that come from records, for a cabinet (R105). -/
def resolveClass (rs : List ImgRec) (cab lo hi : Nat) : List (Nat × Nat) :=
  (idsIn rs lo hi).filterMap fun id => (resolveField rs cab id).map fun v => (id, v)

/-- Class K, with factory values where no record gives one. -/
def resolveK (rs : List ImgRec) (cab : Nat) : List (Nat × Nat) :=
  (span 1 8).map fun id => (id, (resolveField rs cab id).getD (factoryValue id))
def resolveS (rs : List ImgRec) (cab : Nat) : List (Nat × Nat) := resolveClass rs cab 0x100 0x8000
def resolveH (rs : List ImgRec) (cab : Nat) : List (Nat × List Byte) :=
  (resolveClass rs cab 0x8000 0xF000).map fun x => (x.1, leBytes (((fieldDef x.1).map (·.vlen)).getD 4) x.2)

/-! ### Choice of bank and resolution -/

/-- The banks whose header checks pass, the candidate first (R99). -/
def bankOrder (a b : List Byte) : List Nat :=
  let ok := [0, 1].filter fun i => bankHeader (if i = 0 then a else b)
  if ok = [0, 1] ∧ bankGen a < bankGen b then [1, 0] else ok

/-- The bank in use, 2 for factory values only, and whether a candidate failed (R99). -/
def chooseBank (a b : List Byte) : Nat × Bool :=
  match bankOrder a b with
  | [] => (2, false)
  | i :: rest =>
    let get := fun i : Nat => if i = 0 then a else b
    if bankValid (get i) then (i, false)
    else match rest.find? fun j => bankValid (get j) with
      | some j => (j, true)
      | none => (2, true)

/-- The records of the bank in use. -/
def recsInUse (s : State) : List ImgRec :=
  match s.startup.bank with
  | 0 => bankRecs s.startup.bankA
  | 1 => bankRecs s.startup.bankB
  | _ => []

/-- Step 2: the bank is chosen, every field resolved for the cabinet sampled, the Clamp Report made (R99, R104 to R107). -/
def resolveImage (cab : Nat) (s : State) : State :=
  let (bank, bad) := chooseBank s.startup.bankA s.startup.bankB
  let s := { s with startup := { s.startup with bank := bank, bankBad := bad, cabinet := cab, cabPins := cab, bootCab := cab, cabSrc := false } }
  let rs := recsInUse s
  let es := rs.filterMap (clampOf bank rs)
  let s := { s with startup := { s.startup with
    gen := match bank with
      | 0 => bankGen s.startup.bankA
      | 1 => bankGen s.startup.bankB
      | _ => 0
    clamps := es.take 256
    clampTotal := es.length
    kFields := resolveK rs cab
    sFields := resolveS rs cab
    hFields := resolveH rs cab } }
  let s := if bad then record 0x2E 0x402 (u8 (if bank = 0 then 1 else if bank = 1 then 0 else (bankOrder s.startup.bankA s.startup.bankB).headD 0)) s else s
  let s := if bank = 2 then record 0x2E 0x403 [] s else s
  if es.isEmpty then s else record 0x2E 0x405 (u16 es.length) s

/-- The class K values go to the Keeper's registers (R102, R103). -/
def applyK (s : State) : State :=
  let v := fun id => (getKey id s.startup.kFields).getD (factoryValue id)
  let s := { s with power := { s.power with smbAddr := v 1 } }
  let s := forEach (List.range 4) (fun i => setRaw (0x01100010 + 4 * i) (wordOf (v (2 + i)))) s
  setRaw 0x01100030 (wordOf (v 8)) (setRaw 0x01100024 (wordOf (v 7)) (setRaw 0x01100020 (wordOf (v 6)) s))

/-- One class S value goes to its register as a host write before set-up lock would (R555). -/
def loadS (x : Nat × Nat) (s : State) : State :=
  let put := fun off v => barWrite (fun _ s => s) id off (wordOf v)
  match setupReg x.1 with
  | none => s
  | some (off, ty) =>
    match ty with
    | 4 => forEach (List.range 128) (fun w => put (off + 4 * w) (bits x.2 (32 * w) 32)) s
    | 3 => put (off + 4) (x.2 / 2 ^ 32) (put off (x.2 % 2 ^ 32) s)
    | _ => put off x.2 s

end Sys2Proof.Machine
end

