-- ==== Sys2Proof/Machine/Training.lean ====
section
/-!
DEFINITION. HBM training sessions of the host (chapter 19): the checks of TRN_HELPER (R452, R453), result records and the
helper report (R447, R455), the patterns and their place in a burst (R454), the fill after a session (R456), and meanings of TRN_HELPER and TRN_SESSION_DONE.
-/

namespace Sys2Proof.Machine

/-- Bursts of a pseudo-channel (Table 19.2). -/
def pcBursts : Nat := 25165824

/-- Points an ACTION 6 reads (Table 19.2). -/
def helperPoints (d : Desc) : List Nat := if d.p8 35 = 0xFF then [0, 1, 2, 3] else [d.p8 35]

/-- LENGTH of a TRN_HELPER (R452). -/
def helperLength (d : Desc) : Nat := if d.p8 16 = 6 then 16384 * (helperPoints d).length else 256

/-- Payload bytes that an action does not use, beside the reserved ones (Table 19.2). -/
def helperUnused (a : Nat) : List Nat :=
  let range := span 19 31
  let param := [32, 33]
  let flags := [34]
  let fp := [35]
  let count := [36, 37]
  (match a with
   | 0 => range ++ param ++ flags ++ fp ++ count
   | 1 => param ++ fp ++ count
   | 2 => param ++ flags ++ fp ++ count
   | 3 => param ++ fp
   | 4 => fp ++ count
   | 5 => range ++ param ++ fp ++ count
   | _ => range ++ param ++ flags ++ count) ++ [38, 39] ++ span 48 63

/-- The action drives a pattern over a range of bursts. -/
def helperRange (a : Nat) : Bool := decide (1 ≤ a) && decide (a ≤ 4)

/-- The first field of a TRN_HELPER out of range, or byte that must be zero and is not, by payload offset (R453). -/
def helperInvalid (d : Desc) : Option Nat :=
  let a := d.p8 16
  let zero := helperUnused a
  let l : List (Bool × Nat) :=
    [(decide (6 < a), 16),
     (a ≠ 6 && decide (1 < d.p8 17), 17), (a ≠ 6 && decide (31 < d.p8 18), 18),
     (helperRange a && decide (5 < d.p8 19), 19),
     (helperRange a && decide (4 ≤ d.p8 19) && d.p32 20 == 0, 20),
     (helperRange a && decide (pcBursts ≤ d.p32 24), 24),
     (helperRange a && (d.p32 28 == 0 || decide (pcBursts < d.p32 24 + d.p32 28)), 28),
     (a == 4 && decide (3 < d.p8 32), 32), (a == 4 && (d.p8 33 == 0 || decide (63 < d.p8 33)), 33),
     (decide (1 < d.p8 34), 34), (a == 6 && decide (3 < d.p8 35) && d.p8 35 != 0xFF, 35),
     (a == 3 && d.p16 36 == 0, 36), (decide (d.length < helperLength d), 8)] ++
    zero.map fun i => (d.p8 i != 0, i)
  (l.filter (·.1)).foldl (fun m x => some (m.elim x.2 fun n => if n < 16 then x.2 else if x.2 < 16 then n else min n x.2)) none

/-- A pseudo-channel carries no live data (R453). -/
def offline (s : State) (st pc : Nat) : Bool :=
  s.hbm.reserves.contains (st, pc) || (s.hbm.frozen.any fun f => f.stack == st && f.pc == pc && f.diagnosed) ||
    (!s.host.locked && s.adm.exhibits.isEmpty && (List.range 8).all (vitReset s))

/-- A session or a diagnosis occupies a pseudo-channel (R446, R453). -/
def pcBusy (s : State) (st pc : Nat) : Bool :=
  (s.training.sessions.any fun x => x.stack == st && x.pc == pc) || (s.hbm.jobs.any fun j => j.stack == st && j.pc == pc)

/-- The result record of a pseudo-channel at a point; one never trained reads as untrained (R447, R455). -/
def resultRecord (s : State) (p st pc : Nat) : List Byte :=
  (getKey (64 * p + 32 * st + pc) s.training.records).getD (u8 st ++ u8 pc ++ u8 p ++ List.replicate 253 0)

/-- A result record of a session that passed: 144 bytes of delays and windows, and the two reference codes. -/
def passRecord (p st pc t : Nat) (values refs : List Byte) : List Byte :=
  u8 st ++ u8 pc ++ u8 p ++ u8 1 ++ u32 0 ++ u64 t ++ padTo 144 values ++ padTo 4 refs ++ List.replicate 92 0

def setRecord (p st pc : Nat) (r : List Byte) (s : State) : State :=
  { s with training := { s.training with records := setKey (64 * p + 32 * st + pc) r s.training.records } }

/-! ### Patterns (R454) -/

/-- One step of a shift register of n bits under x^n + x^m + 1: the new bit enters at bit 0 (DESIGN CHOICE,
notes/assumptions/82.md). -/
def prbsStep (n m r : Nat) : Nat := (2 * r + (bit (bitOf r (n - 1)) + bit (bitOf r (m - 1))) % 2) % 2 ^ n

def prbsAfter (n m : Nat) : Nat → Nat → Nat
  | 0, r => r
  | i + 1, r => prbsAfter n m i (prbsStep n m r)

/-- Bit i of the stream of burst k, for a stream that begins at burst `first` (Table 19.3). -/
def streamBit (pattern seed first k i : Nat) : Bool :=
  let at_ := 288 * (k - first) + i + 1
  match pattern with
  | 0 => false
  | 1 => true
  | 2 => decide (k % 2 = 1)
  | 3 => decide (i % 36 = k % 36)
  | 4 => bitOf (prbsAfter 15 14 at_ (seed % 2 ^ 15)) 0
  | 5 => bitOf (prbsAfter 31 28 at_ (seed % 2 ^ 31)) 0
  | _ => bitOf (Config.freeValue (seed + 288 * k + i)) 0

/-- Beat and lane of stream bit i of a burst. -/
def streamPlace (i : Nat) : Nat × Nat := (i / 36, i % 36)

/-- HBM address of a byte of a slot. -/
def slotAddr (s : State) (i o : Nat) : Nat :=
  let g := 2 ^ regField s 0x00B00004 0 4
  (o / g * max 1 s.hbm.m + i) * g + o % g

/-- What stands at bit i of the stream of burst k of a pseudo-channel: the newest pattern written there; else the stored data and
lane bits of its slot (DEDUCED, notes/assumptions/82.md); zero in a reserve, which holds the zero fill of R456. -/
def burstBit (s : State) (st pc k i : Nat) : Bool :=
  match s.hbm.patterns.find? fun x => x.pc == 32 * st + pc && decide (x.first ≤ k) && decide (k < x.first + x.bursts) with
  | some x => streamBit x.pattern x.seed x.first k i
  | none => (slotOfPc s st pc).any fun sl =>
      let (beat, lane) := streamPlace i
      let at_ := fun o => slotAddr s sl (32 * k + 4 * beat + o)
      if lane < 32 then (rawByte s (at_ (lane / 8))).getLsbD (lane % 8) else laneBit s (at_ (lane - 32))

/-- SEED of repetition j; a sweep uses SEED at each offset (R454, R455). -/
def helperSeed (d : Desc) (j : Nat) : Nat := (d.p32 20 + if d.p8 16 = 4 then 0 else j) % 2 ^ 32

/-- How often a helper goes over its range: the repetitions of ACTION 3, the offsets from -STEPS to +STEPS of ACTION 4. -/
def helperReps (d : Desc) : Nat := if d.p8 16 = 3 then d.p16 36 else if d.p8 16 = 4 then 2 * d.p8 33 + 1 else 1

/-- The bits that the compares of ACTION 2, 3 or 4 find wrong, in order: ACTION 2 finds what stands there, the others what they have just
written; either way as far as the interface reads it right. -/
def wrongBits (s : State) (x : Session) (flips : List (Nat × Nat × Nat)) : List (Nat × Nat × Nat) :=
  let d := x.desc
  let first := d.p32 24
  (List.range (helperReps d)).flatMap fun j => (List.range (d.p32 28)).flatMap fun n => (List.range 288).filterMap fun i =>
    let k := first + n
    let stored := x.action == 2 && burstBit s x.stack x.pc k i != streamBit (d.p8 19) (helperSeed d j) first k i
    if stored != flips.contains (j, k, i) then some (j, k, i) else none

/-- Whether a wrong bit lies on a lane. -/
def onLane (lane : Nat) (e : Nat × Nat × Nat) : Bool := (streamPlace e.2.2).2 == lane

/-- DONE, ERRORS and FIRST_FAIL of Table 19.4, from the bursts compared and the bits found wrong. -/
def errorFields (done : Nat) (l : List (Nat × Nat × Nat)) : List Byte :=
  u32 (min top32 done) ++ u32 (min top32 l.length) ++ (l.head?.elim (u64 (2 ^ 64 - 1)) fun e => u64 (32 * e.2.1))

/-- The lowest and highest offset of a sweep at which a lane read no bit wrong, 0x8000 where there is none (R455, Table 19.4). -/
def lanePass (steps lane : Nat) (l : List (Nat × Nat × Nat)) : List Byte :=
  let ok := (List.range (2 * steps + 1)).filter fun j => !l.any fun e => e.1 == j && onLane lane e
  let val := fun j : Option Nat => j.elim (u16 0x8000) fun j => s16 ((j : Int) - steps)
  val ok.head? ++ val ok.getLast?

/-- Bytes 16 to 175 of the report of ACTION 2, 3 or 4 (Table 19.4). -/
def compareReport (s : State) (x : Session) (flips : List (Nat × Nat × Nat)) : List Byte :=
  let l := wrongBits s x flips
  errorFields (x.desc.p32 28 * helperReps x.desc) l ++
    (List.range 36).flatMap fun lane =>
      if x.action = 4 then lanePass (x.desc.p8 33) lane l else u32 (min top32 (l.filter (onLane lane)).length)

/-- The same bytes of ACTION 1, which compares nothing. -/
def writeReport : List Byte := errorFields 0 [] ++ List.replicate 144 0

/-- The same bytes of ACTION 5: what its VERIFY steps compared, and bytes 16 to 159 of the result record as it then stands. -/
def trainReport (s : State) (x : Session) (r : SessionResult) : List Byte :=
  errorFields r.verify r.flips ++ ((resultRecord s x.point x.stack x.pc).drop 16).take 144

/-- The patterns that a session has left in a frozen pseudo-channel; `whole` where it finished. -/
def notePattern (x : Session) (whole : Bool) (s : State) : State :=
  let d := x.desc
  let all : PatternRun := { pc := 32 * x.stack + x.pc, first := 0, bursts := pcBursts, pattern := 6, seed := s.free }
  let put := fun (r : PatternRun) => modHbm (fun h => { h with patterns := r :: h.patterns.filter fun y =>
    !(y.pc == r.pc && decide (r.first ≤ y.first) && decide (y.first + y.bursts ≤ r.first + r.bursts)) })
  if !isFrozenPc s x.stack x.pc ∨ x.action = 2 then s
  else if whole && (x.action == 1 || x.action == 3) then
    put { all with first := d.p32 24, bursts := d.p32 28, pattern := d.p8 19, seed := helperSeed d (helperReps d - 1) } s
  else put all { s with free := s.free + 288 * pcBursts }

/-! ### What a session leaves -/

/-- What a session that wrote patterns leaves: an online pseudo-channel is filled with zero, a frozen one has its
contents marked lost (R456). -/
def afterPatterns (a st pc : Nat) (s : State) : State :=
  if a = 2 ∨ a = 0 ∨ a = 6 then s
  else if isFrozenPc s st pc then
    modHbm (fun h => { h with frozen := h.frozen.map fun f => if f.stack = st ∧ f.pc = pc then { f with lost := true } else f }) s
  else (slotOfPc s st pc).elim s fun i => zeroSlot i s

/-- ACTION 0: the session on the pseudo-channel ends with SUSPENDED_FREQ or TRN_ABORTED (R452). -/
def abortHelper (st pc : Nat) (s : State) : State :=
  let here := fun x : Session => x.stack == st && x.pc == pc
  match s.training.sessions.find? here with
  | none => s
  | some x =>
    let s := afterPatterns x.action st pc (notePattern x false s)
    nextDiag (if x.suspended then
        let s := if isLatest s st pc then restSession 0 s else s
        let s := { s with training := { s.training with sessions := s.training.sessions.filter fun y => !here y } }
        if owes x.desc s then complete x.desc 0x1301 (u32 x.steps ++ u8 x.point) s else s
      else abortSessions here s)

/-- A helper session begins at the point in force. -/
def startHelper (d : Desc) (s : State) : State :=
  let p := s.hbm.moving.elim s.hbm.fp (·.1)
  noteSession 1 p (d.p8 17) (d.p8 18) (d.p8 16) { s with training := { s.training with sessions := s.training.sessions ++
    [{ desc := d, action := d.p8 16, stack := d.p8 17, pc := d.p8 18, point := p, suspended := false, steps := 0, susps := 0,
       start := s.now, since := s.now, pace := s.free }] } }

def trnHelperAct (d : Desc) (s : State) : State :=
  let a := d.p8 16
  let st := d.p8 17
  let pc := d.p8 18
  let work := decide (1 ≤ a) && decide (a ≤ 5)
  orElseDo d (firstBad
      [((helperInvalid d).isSome, 0x1380, u16 ((helperInvalid d).getD 0)),
       (work && !offline s st pc, 0x1381, u8 st ++ u8 pc),
       (work && pcBusy s st pc, 0x1382, u8 st ++ u8 pc),
       (work && a ≠ 2 && isFrozenPc s st pc && !bitOf (d.p8 34) 0, 0x1383, u8 st ++ u8 pc)])
    (fun s =>
      if a = 0 then complete d 0 [] (abortHelper st pc s)
      else if a = 6 then
        let b := (helperPoints d).flatMap fun p => [0, 1].flatMap fun t => (List.range 32).flatMap fun c => resultRecord s p t c
        complete d 0 [] (hostWrite d (d.p64 40) b s)
      else startHelper d s) s

/-- TRN_HELPER (R452, R453, R455). -/
def execTrnHelper (dt : Nat) (d : Desc) (s : State) : Res :=
  .next (runDesc ⟨0x1101, false, false, false, false, true, []⟩ d noBad (fun d _ => decide (helperLength d < d.length)) trnHelperAct
    (tick dt s))

/-- The report of Table 19.4 from its bytes 16 to 175. -/
def helperReport (x : Session) (t : Nat) (m : List Byte) : List Byte :=
  u64 x.start ++ u64 t ++ padTo 160 m ++ u32 x.susps ++ List.replicate 76 0

/-- The latest session has ended after its steps (Table 19.8). -/
def noteSteps (st pc steps : Nat) (s : State) : State :=
  if isLatest s st pc then { s with training := { s.training with steps := min top32 steps, state := 0 } } else s

/-- A session's results take effect when every VERIFY passed (R447). -/
def keepResults (p st pc : Nat) (pass : Bool) (r : SessionResult) (s : State) : State :=
  if pass then setRecord p st pc (passRecord p st pc s.now r.values r.refs) s else s

/-- Bytes 16 to 175 of a finished helper's report (Table 19.4). -/
def reportOf (s : State) (x : Session) (r : SessionResult) : List Byte :=
  if x.action = 1 then writeReport else if x.action = 5 then trainReport s x r else compareReport s x r.flips

/-- A helper's session finishes: its results, report and fill, and its completion (R447, R455, R456). -/
def helperDone (x : Session) (steps : Nat) (pass : Bool) (r : SessionResult) (s : State) : State :=
  let s := noteSteps x.stack x.pc steps { s with training := { s.training with
    sessions := s.training.sessions.filter fun y => !(y.stack == x.stack && y.pc == x.pc) } }
  let s := if x.action = 5 then keepResults x.point x.stack x.pc pass r s else s
  let m := reportOf s x r
  let s := hostWrite x.desc (x.desc.p64 40) (helperReport x s.now m) (afterPatterns x.action x.stack x.pc (notePattern x true s))
  nextDiag (complete x.desc 0 [] s)

/-- TRN_SESSION_DONE: a helper session finishes, or a session of the Registrar, at start-up or in a diagnosis, has its results (R447,
R455, R456).  During a move a session stands still (R450, R451). -/
def sessionDone (st pc steps : Nat) (pass : Bool) (res : SessionResult) (s : State) : State :=
  match s.training.sessions.find? fun x => x.stack = st ∧ x.pc = pc with
  | some x => if x.suspended then s else helperDone x steps pass res s
  | none =>
    if s.hbm.moving.isSome then s
    else if s.hbm.jobs.any fun j => j.running && j.sparing.isNone && j.stack == st && j.pc == pc then
      keepResults s.hbm.fp st pc pass res (noteSteps st pc steps s)
    else if s.startup.running ∧ s.startup.step = 3 then
      keepResults s.training.point st pc pass res { s with training := { s.training with
        stack := st, pc := pc, steps := min top32 steps, since := s.now } }
    else s

def execTrnSessionDone (dt st pc steps : Nat) (pass : Bool) (m : SessionResult) (s : State) : Res :=
  .next (sessionDone st pc steps pass m (tick dt s))

end Sys2Proof.Machine
end

