-- ==== Sys2Proof/Machine/StartUp.lean ====
section
/-!
DEFINITION. Start-up (R87 to R93): the Keeper's boot, the firmware slot (R545), the start of the fast clocks (R82), training
of the HBM (R448), configuration ready (R92), with meanings of INPUT_VALID, RESET_B_ASSERT, RESET_B_RELEASE,
REFCLK_CHECK_RETRY, TRN_POINT_DONE and CONFIG_READY.
-/

namespace Sys2Proof.Machine

/-- The latest and the lowest VIN (R62). -/
def seeVin (vin : Nat) (s : State) : State := { s with power := { s.power with vin := vin, vinMin := min s.power.vinMin vin } }

/-! ### Step 3 on -/

/-- Training begins at F3; the map is that of reset and both reserves are free (R422, R448). -/
def beginTraining (s : State) : State :=
  { s with
    hbm := { s.hbm with m := 62, fp := 3, moving := none, selfRef := false, map := Reset.hbm.map, reserves := [(0, 31), (1, 31)], tsValid := List.replicate 4 false, capBytes := 0 }
    training := { s.training with state := 1, owner := 0, point := 3, stack := 0, pc := 0, action := 0, steps := 0
                                  since := s.now, pace := s.free
                                  kept := (List.range 4).filter fun p => s.training.records.any fun r => r.1 / 64 == p
                                  began := s.now, fail := 0 }
    free := s.free + 1
    startup := { s.startup with step := 3, degraded := false } }

/-- What must hold for the fast clocks to start (R82), with the Keeper booted and its factory area good (Table 4.3). -/
def mayStart (s : State) : Bool :=
  s.power.inputValid && !s.thermal.latch && !s.startup.factoryBad && !s.power.resetB && decide (2 ≤ s.startup.step)

/-- A firmware slot passes its check. -/
def anySlot (s : State) : Bool := s.wear.slots.any imageGood

/-- Start-up goes on from step 3 (R82): without REFCLK the module waits in P3 for the check to pass (R43); with no firmware it
stays there after step 3 (Table 4.3). -/
def goStep3 (wake : Bool) (s : State) : State :=
  if !mayStart s then s
  else if !s.power.refclkOk then
    { s with startup := { s.startup with step := 2, running := true, waking := wake, ready := false } }
  else if !anySlot s then
    { s with startup := { s.startup with step := 3, running := false, waking := false, ready := false } }
  else
    let s := restart3 s
    beginTraining { s with startup := { s.startup with waking := wake } }

/-- The hold-up store is measured in a start-up, whose records its buffer keeps (R66, R91). -/
def measureHoldup (mj : Nat) (s : State) : State :=
  let s := { s with
    power := { s.power with holdup := mj }
    startup := { s.startup with running := true }
    wear := { s.wear with holdFirst := (if s.wear.holdFirst = 0 then min 0xFFFF mj else s.wear.holdFirst), holdLast := min 0xFFFF mj } }
  if mj < 2000 then record 0x2D 0x302 (u16 (min 0xFFFF mj)) s else s

/-- A measurement that no command carries: a free value of 16 bits (R66, notes/assumptions/66.md). -/
def measureFree (s : State) : State :=
  let (v, s) := takeFree s
  measureHoldup (v % 65536) s

/-- A start-up from step 3 begins (R74, R89, R143): each one measures the hold-up store (R66). -/
def startStep3 (wake : Bool) (s : State) : State := if mayStart s then goStep3 wake (measureFree s) else s

/-! ### The Keeper's boot (step 2) -/

/-- The slot of higher version among those that a test names; equal versions go to slot 0 (R545). -/
def bestSlot (l : List FwImage) (p : FwImage → Bool) : Option Nat :=
  let ok := fun i : Nat => (l[i]?).any p
  let v := fun i : Nat => (l[i]?).elim 0 (fun f => f.version)
  if ok 0 ∧ ok 1 then some (if v 0 < v 1 then 1 else 0)
  else if ok 0 then some 0
  else if ok 1 then some 1
  else none

/-- The slots are checked and one is selected under the pin (R93, R545). -/
def chooseSlot (bad : List Nat) (s : State) : State :=
  let slots := s.wear.slots.zipIdx.map fun x => { x.1 with ok := x.1.ok && !bad.contains x.2 }
  let pin := s.wear.pinStored
  let s := { s with wear := { s.wear with slots := slots, pin := pin, mismatch := false } }
  let s := forEach [0, 1] (fun (i : Nat) s => if (slots[i]?).any imageGood then s else record 0x2E 0x404 (u8 i) s) s
  match bestSlot slots (fun f => imageGood f && (decide (pin = 0) || f.level == pin)) with
  | some i => { s with wear := { s.wear with slot := i } }
  | none => match bestSlot slots imageGood with
    | some i =>
      let lvl := (slots[i]?).elim 0 (·.level)
      record 0x2E 0x1804 (u16 pin ++ u16 lvl ++ u8 i) { s with wear := { s.wear with slot := i, mismatch := true } }
    | none => { s with wear := { s.wear with slot := 0 } }

/-- The Keeper boots (steps 1 and 2 of Table 4.1): sequences at 0 (R157), suspect sensors trusted again (R487), the image
resolved for the pins (R99 to R107), the slot chosen, the first 8 failed ring context entries replaced
(R541); with both factory copies bad it stops after step 1, and with LATCH set after step 2. -/
def keeperBoot (cab : Nat) (boot : BootInfo) (s : State) : State :=
  let s := { s with
    ledger := { s.ledger with seqs := List.replicate 64 0 }
    training := { s.training with records := [] }
    thermal := { s.thermal with
      sensors := s.thermal.sensors.map fun (x : Sensor) => { x with suspect := false, deviant := 0, hist := [] }
      zones := List.replicate 8 Reset.zone }
    startup := { s.startup with step := 1, running := true, waking := false, ready := false, abandoned := false
                                factoryBad := boot.factoryBad, cabPins := cab % 8, bootCab := cab % 8, clamps := []
                                clampTotal := 0 } }
  if boot.factoryBad then { s with startup := { s.startup with running := false } }
  else
    let s := { s with wear := { s.wear with
      ringsBad := boot.ringsBad.drop 8, ringSpared := max s.wear.ringSpared (min 8 boot.ringsBad.length) } }
    let s := measureHoldup boot.holdup s
    let s := applyK (resolveImage (cab % 8) s)
    let s := chooseSlot boot.slotBad s
    let s := serviceStep { s with startup := { s.startup with step := 2 } }
    if mayStart s then goStep3 false s else { s with startup := { s.startup with running := false } }

/-- What the loss of input power leaves: the flash, the levels of the pins, and the temperatures the sensors stand at. -/
def coldState (s : State) : State :=
  { State.reset with
    power := { Reset.power with state := .p3, refclkOk := s.power.refclkOk, resetB := s.power.resetB, perstB := s.power.perstB
                                intlkLow := s.power.intlkLow, bscan := s.power.bscan }
    startup := { Reset.startup with bankA := s.startup.bankA, bankB := s.startup.bankB }
    ledger := { Reset.ledger with saved := s.ledger.saved }
    thermal := { Reset.thermal with sensors := s.thermal.sensors.map fun x =>
      { Reset.sensor with temp := x.temp, seen := x.seen } }
    wear := s.wear
    meter := s.meter
    free := s.free
    out := s.out
    pending := s.pending }

/-- LATCH at input valid: a zone stands at or above its critical threshold (R495). -/
def latchAtValid (s : State) : State :=
  let hot := (List.range 8).any fun z => (zoneSensors z).any (fun x => (sensorOf s x).seen) && decide (limitOf z 2 ≤ zoneTemp s z)
  if hot then { s with thermal := { s.thermal with latch := true, latchBelow := none } } else s

/-- The pins CAB2 to CAB0 are sampled (R55). -/
def sampleCab (cab : Nat) (s : State) : State := { s with startup := { s.startup with cabPins := cab % 8 } }

/-- INPUT_VALID (R63, R64, R74, R87). -/
def inputValid (vin cab : Nat) (boot : BootInfo) (s : State) : State :=
  if vin < 9000 ∨ s.power.inputValid ∨ (s.power.overStop ∧ 60000 < vin) then s
  else
    let cold := s.power.state = .p4
    let s := if cold then coldState s else s
    let s := seeVin vin { s with
      power := { s.power with inputValid := true, overStop := false }
      wear := { s.wear with powerUps := bump s.wear.powerUps } }
    let s := latchAtValid (sampleCab cab s)
    if s.power.state ≠ .p3 ∨ s.power.resetB then s
    else if s.startup.step < 2 ∧ !s.startup.factoryBad then keeperBoot cab boot s
    else if mayStart s then goStep3 false (measureHoldup boot.holdup s)
    else s

def execInputValid (dt : Nat) (vin : Supply) (cab : Nat) (boot : BootInfo) (s : State) : Res :=
  .next (inputValid vin.vin cab boot (tick dt s))

/-! ### RESET_B (R54, R55, R89) -/

/-- RESET_B resets every unit but the stamp counter (R55), the Thermal unit with its readings among them; the flash, the Keeper's
retention of GATE and KEY (R226) and its copy of the training results stay, and LATCH with the stamp of its trip (R495). -/
def resetUnits (s : State) : State :=
  let r := loseVolatile s
  { r with
    power := { Reset.power with
      state := .p3, inputValid := s.power.inputValid, overStop := s.power.overStop, vin := s.power.vin, vinMin := s.power.vin
      refclkOk := s.power.refclkOk, resetB := true, perstB := s.power.perstB, intlkLow := s.power.intlkLow
      intlkAt := s.power.intlkAt, intlkRise := s.power.intlkRise, bscan := s.power.bscan }
    startup := { Reset.startup with bankA := s.startup.bankA, bankB := s.startup.bankB }
    host := Reset.host
    ledger := { Reset.ledger with saved := s.ledger.saved }
    gheler := Reset.gheler
    hbm := Reset.hbm
    training := { Reset.training with records := s.training.records }
    thermal := if s.thermal.latch then { Reset.thermal with latch := true, trip := s.thermal.trip } else Reset.thermal
    regs := [] }

/-- While LATCH is set the release that would boot the Keeper again is ignored (R495): the module's address, and what the
last boot resolved, stay (DESIGN CHOICE; notes/assumptions/61.md). -/
def keepBoot (old s : State) : State :=
  { s with
    power := { s.power with smbAddr := old.power.smbAddr }
    startup := { old.startup with step := min 2 old.startup.step, ready := false, running := false, waking := false
                                  pendingCab := none, norWrites := [], cabinet := old.startup.bootCab, cabSrc := false } }

/-- The loop sets stay admitted while RESET_B is held: the engine keeps its settings in OFF (R385; DEDUCED,
notes/assumptions/117.md). -/
def keepLoops (old r : State) : State :=
  { r with
    adm := { r.adm with items := old.adm.items.filter fun i => (List.range 48).any fun c => i.isLoop c && !i.leaving }
    gheler := { r.gheler with chans := old.gheler.chans.map fun ch =>
      { Reset.chan with cause := ch.cause, cfg := ch.cfg, pendCfg := ch.pendCfg } } }

/-- RESET_B_ASSERT: every unit but the stamp counter is reset (R54, R55), and every channel is OFF with one LOOP_DISABLED in the
ledger that the reset leaves (R385). -/
def resetAssert (s : State) : State :=
  let s := { s with power := { s.power with resetB := true } }
  if s.power.state = .p4 then s
  else
    let off := abortSessions (fun _ => true) (allOff 5 s)
    let r := keepLoops off (resetUnits off)
    loopDisabled (maskOf (enabledChans s)) 5 (if s.thermal.latch then keepBoot s r else r)

def execResetBAssert (dt : Nat) (s : State) : Res :=
  let s := tick dt s
  .next (if s.power.resetB then s else resetAssert s)

/-- RESET_B_RELEASE: the loop sets go with the rest (R55; DEDUCED, notes/assumptions/117.md), the pins are sampled, and start-up runs from step 2; no start-up while LATCH is set (R55, R89, R495). -/
def resetRelease (cab : Nat) (boot : BootInfo) (s : State) : State :=
  let s := { s with gheler := Reset.gheler, adm := { s.adm with items := [] } }
  let s := sampleCab cab { s with power := { s.power with resetB := false } }
  if s.power.state = .p4 ∨ s.thermal.latch ∨ !s.power.inputValid then s else keeperBoot cab boot s

def execResetBRelease (dt cab : Nat) (boot : BootInfo) (s : State) : Res :=
  let s := tick dt s
  .next (if s.power.resetB then resetRelease cab boot s else s)

/-! ### REFCLK (R43) -/

/-- REFCLK_CHECK_RETRY: a start-up that waits in P3 for REFCLK goes on when the check passes. -/
def execRefclkCheckRetry (dt : Nat) (ok : Bool) (s : State) : Res :=
  let s := tick dt s
  let p3 := decide (s.power.state = .p3)
  let s := if p3 then { s with power := { s.power with refclkOk := ok } } else s
  .next (if p3 ∧ s.startup.running then goStep3 s.startup.waking s else s)

/-! ### TRN_POINT_DONE (R448) -/

/-- A pseudo-channel failed: a free reserve takes its slot, or the slot is removed (R420, R448). -/
def replacePc (st pc : Nat) (s : State) : State :=
  match slotOfPc s st pc with
  | none => s
  | some i => match reserveFor s st with
    | some x =>
      let s := record 1 0x1306 (u8 i ++ u8 x.1 ++ u8 x.2) s
      { s with hbm := { s.hbm with
        reserves := s.hbm.reserves.filter (· ≠ x)
        map := upd s.hbm.map i fun _ => { stack := x.1, pc := x.2, frozen := false, reserve := true } } }
    | none => { s with hbm := { s.hbm with m := s.hbm.m - 1, map := s.hbm.map.eraseIdx i ++ [Reset.mapSlot 0] } }

/-- TRN_PC_FAILED: each pseudo-channel once; a failed one is not used at any point. -/
def pcFailed (point : Nat) (f : Nat × Nat × Nat) (s : State) : State :=
  let b := 32 * f.1 + f.2.1
  if bitOf s.training.fail b then s
  else
    let s := record 1 0x1305 (u8 f.1 ++ u8 f.2.1 ++ u8 point ++ u8 f.2.2) s
    { s with training := { s.training with fail := s.training.fail ||| 2 ^ b } }

/-- With every point trained, the reserves that passed at every point stand in for the pseudo-channels that did not, which
are taken in rising order of 32 * stack + pc (R448; notes/assumptions/91.md). -/
def replaceFailed (s : State) : State :=
  forEach (bitsOf s.training.fail 64) (fun b => replacePc (b / 32) (b % 32))
    { s with hbm := { s.hbm with reserves := s.hbm.reserves.filter fun r => !bitOf s.training.fail (32 * r.1 + r.2) } }

/-- The Keeper's copy held results of a point when training began: the point is verified, not trained (R447, R449). -/
def verifies (s : State) (point : Nat) : Bool := s.training.kept.contains point

/-- A pseudo-channel has a result record of a point. -/
def hasRecord (s : State) (point b : Nat) : Bool := (getKey (64 * point + b) s.training.records).isSome

/-- The move to the next point of training begins; it passes through self-refresh (R434, R448).  Its cause is that of a frequency change
(DESIGN CHOICE, notes/assumptions/122.md). -/
def trainMove (p : Nat) (s : State) : State :=
  { s with hbm := { s.hbm with moving := some (p, 4), selfRef := true, pages := [], debts := [] }
           training := { s.training with point := p } }

/-- The result record that start-up training of a point leaves for a pseudo-channel: what it measured is a free value; one
that failed now or at an earlier point has no values (R447, R448, R455). -/
def trainRecord (point before : Nat) (b : Nat) (s : State) : State :=
  if bitOf s.training.fail b then
    setRecord point (b / 32) (b % 32) (u8 (b / 32) ++ u8 (b % 32) ++ u8 point ++ u8 (if bitOf before b then 3 else 2) ++ u32 0 ++
      u64 s.now ++ List.replicate 240 0) s
  else
    let (v, s) := takeFree s
    setRecord point (b / 32) (b % 32) (passRecord point (b / 32) (b % 32) s.now (leBytes 144 v) (leBytes 4 (v / 256 ^ 144))) s

/-- One point is trained, or verified, for every pseudo-channel, the move to it having ended; after F0, step 4 is finished. -/
def pointDone (point us : Nat) (failed : List (Nat × Nat × Nat)) (s : State) : State :=
  let s := freqChanged s
  let before := s.training.fail
  let old := verifies s point
  let s := forEach (failed.filter fun f => decide (f.1 < 2) && decide (f.2.1 < 32)) (pcFailed point) s
  let s := { s with hbm := { s.hbm with tsValid := upd s.hbm.tsValid point fun _ => true } }
  let s := forEach ((List.range 64).filter fun b => if bitOf s.training.fail b then !old || !bitOf before b
                                                       else !old && !hasRecord s point b) (trainRecord point before) s
  let s := if old then s
           else record 1 0x1304 (u8 point ++ u8 (64 - (bitsOf s.training.fail 64).length) ++ u16 0 ++ u32 us) s
  match point with
  | p + 1 => trainMove p s
  | 0 =>
    let s := replaceFailed s
    serviceStep { s with
      training := { s.training with state := 0, steps := stepsNow s, last := s.now, time := min top32 ((s.now - s.training.began) / usec) }
      startup := { s.startup with step := 4, degraded := decide (s.hbm.m < 62) } }

/-- The start-up stands at a step of Table 4.1 with the fast clocks running. -/
def atStep (s : State) (n : Nat) : Bool := s.startup.running && decide (s.startup.step = n) && decide (s.power.state = .p0)

/-- Rows that start-up training repaired before a reserve is brought in: stack, pseudo-channel, 256 + 4 * SID + bank group of each,
as far as their repair rows reach (R539). -/
def repairRows (l : List (Nat × Nat × Nat)) (s : State) : State :=
  let l := l.filter fun f => decide (f.1 < 2) && decide (f.2.1 < 32)
  let rows := fun f : Nat × Nat => (l.filter fun x => x.1 == f.1 && x.2.1 == f.2).map (·.2.2 - 256)
  if l.isEmpty then s
  else serviceStep (forEach (l.map fun x => (x.1, x.2.1)).eraseDups (fun f s =>
    if pprFits s f.1 f.2 (rows f) then usePpr f.1 f.2 (rows f) s else s) s)

/-- TRN_POINT_DONE.  An entry names a stack, a pseudo-channel and the step that failed; from 256 on the third number is 256 plus
4 * SID + bank group of one row repaired, the pseudo-channel then passing (R539; notes/assumptions/32.md). -/
def execTrnPointDone (dt point us : Nat) (failed : List (Nat × Nat × Nat)) (s : State) : Res :=
  let s := tick dt s
  .next (if atStep s 3 ∧ point = s.training.point then
    pointDone point us (failed.filter fun f => decide (f.2.2 < 256)) (repairRows (failed.filter fun f => decide (256 ≤ f.2.2)) s)
  else s)

/-! ### CONFIG_READY (R92) -/

/-- The slot that carries a channel after the known-answer test (R369, R370). -/
def placeChan (c : Nat) (s : State) : State :=
  if !s.gheler.slotsBad.contains c then modChan c (fun ch => { ch with slot := c }) s
  else
    let used := s.gheler.chans.map (·.slot)
    match [48, 49, 50, 51].find? fun x => !used.contains x && !s.gheler.slotsBad.contains x with
    | some x => record 8 0x1007 (u8 c ++ u8 c ++ u8 x) (modChan c (fun ch => { ch with slot := x }) s)
    | none => modChan c (fun ch => { ch with slot := 63, state := .unavailable }) s

/-- Stages 1 to 3 recognised during start-up act now: stage 2 finds no class A flow on any port and calls for F1 (R76, R173);
stages 1 and 3 meet what the host submits afterwards (`bootShed`). -/
def stagesAtReady (s : State) : State :=
  let s := { s with power := { s.power with bootStage := s.power.stage } }
  if s.power.stage < 2 then s
  else
    let s := forEach (List.range 7) stopPort s
    { s with hbm := { s.hbm with why := 1 } }

/-- A follower enables and trains every Catum port (R503). -/
def followerPorts (s : State) : State :=
  if catRole s = 2 then
    checkLead (forEach (List.range 4) (fun p s => catTrain p (modCat p (fun c => { c with enabled := true }) s)) s)
  else s

/-- Step 5: every byte of HBM is filled with zero (R481); the Vitrine of every head and its coefficient sets return to their reset
state, GATE stays (R222, R226, R244). -/
def fillHbm (s : State) : State :=
  { s with
    hbm := { s.hbm with cells := [], lanes := [], patterns := [], capBytes := s.hbm.m * 805306368 }
    heads := s.heads.map fun h => { h with vit := { Reset.vitrine with gate := h.vit.gate }, pipe := { h.pipe with coefs := [], dither := [] } } }

/-- Step 6: the cabinet of the pins is in force and the class S values are loaded (R102, R555). -/
def loadClassS (s : State) : State :=
  forEach s.startup.sFields loadS { s with startup := { s.startup with
    step := 6, cabinet := s.startup.bootCab, cabSrc := false, hFields := resolveH (recsInUse s) s.startup.bootCab } }

/-- The loop slots are tested and the channels placed (R370). -/
def testSlots (slotFails : List Nat) (s : State) : State :=
  forEach (List.range 48) placeChan { s with gheler := { s.gheler with slotsBad := slotFails.filter (· < 52) } }

/-- Step 7: configuration ready, the capacities of R204 in force. -/
def becomeReady (s : State) : State :=
  let s := { s with startup := { s.startup with step := 7, ready := true, readyStamp := s.now } }
  { s with adm := { s.adm with caps := capsNow s, fpPriced := pricedFp s, inForce := (List.range 44).map (standsAt s) } }

/-- CONFIG_READY (R92). -/
def recordReady (s : State) : State :=
  record 0x2E 0x401 (u8 s.startup.bank ++ u24 0 ++ u32 s.startup.gen ++ u8 s.startup.cabinet ++ u8 0 ++
    u16 (min 256 s.startup.clampTotal)) s

/-- Steps 5 to 7: HBM is filled, class S loaded, the loop slots tested; nothing is admitted and nothing locked. -/
def configReady (slotFails : List Nat) (s : State) : State :=
  let s := becomeReady (testSlots slotFails (loadClassS (fillHbm s)))
  let s := recordReady (serviceStep (followerPorts (stagesAtReady s)))
  { s with startup := { s.startup with running := false, waking := false } }

def execConfigReady (dt : Nat) (slotFails : List Nat) (s : State) : Res :=
  let s := tick dt s
  .next (if atStep s 4 then configReady slotFails s else s)

end Sys2Proof.Machine
end

