-- ==== Sys2Proof/Machine/Shedding.lean ====
section
/-!
DEFINITION. Function shedding and the stops (R64 to R76, R83, R173, R272): meanings of VIN_OVER, SHED_ENTER, SHED_CLEAR,
STAGE4_PARK, LEDGER_SAVE and REFCLK_LOST.
-/

namespace Sys2Proof.Machine

/-! ### Stages 1 to 3 (Table 3.3) -/

/-- T_s in force (R67). -/
def shedThr (s : State) (stage : Nat) : Nat := s.power.thr.getD (stage - 1) 7400

def ItemKind.isCapture : ItemKind → Bool
  | .capture _ _ => true
  | _ => false

/-- Stage 1; the Conservator and VC3 look at the stage themselves. -/
def stage1 (s : State) : State :=
  let s := revokeAll false false s.now 0xFF 1 (fun i => i.kind.isCapture) s
  forEach (List.range 48) (fun c => endInject c 4) (if s.fault.armed then clearRules 2 s else s)

/-- An ingest port carries a class A flow. -/
def carriesA (s : State) (p : Nat) : Bool :=
  s.adm.items.any fun i => i.cls == 2 && !i.leaving && (match i.kind with
    | .flow x => (flowOf s x).any fun f => f.cfg.ports.contains p
    | _ => false)

/-- Stage 2: ports without a class A flow stop, each flow of theirs at its next frame start (R29, R172), then the work is
priced at F1 (R68, R173). -/
def stage2 (s : State) : State :=
  let off := (List.range 7).filter fun p => !carriesA s p
  let xs := (s.ingest.flows.filter fun f => f.2.cfg.ports.any off.contains).map (·.1)
  let s := revokeAll false false s.now 0xFF 1 (fun i => match i.kind with
    | .flow x => xs.contains x
    | _ => false) s
  pointChanged 1 (forEach off stopPort s)

/-- A head whose Recipe is to change its form: a change of the kind R320 lists, at the instant it is due to (R324). -/
def formChanges (k : Nat) (s : State) : State :=
  if (headOf s k).press.wantForm.isSome then headChanged k s.now s else s

/-- A kept head is priced in its reduced form, which it takes at its next CSE (R272). -/
def reduceHead (k : Nat) (s : State) : State :=
  let p := (headOf s k).press
  match p.counted, (headOf s k).pipe.cfg with
  | some r, some c =>
    if p.countedForm then s
    else formChanges k (reUnit (.recipe k) (recipeUnits s k c r true) (modPress k (fun p => { p with
      wantForm := if p.reduced then none else some (true, s.now), pending := p.pending.map fun x => ({ x.1 with red := true }, x.2) }) s))
  | _, _ => s

/-- The units that Recipe items of heads still hold from before. -/
def oldUnits (ks : List Nat) (s : State) : List (Nat × List (Nat × Nat)) :=
  s.adm.items.filterMap fun i => match i.kind with
    | .recipe k => if ks.contains k then some (k, i.old) else none
    | _ => none

/-- Set them. -/
def setOld (l : List (Nat × List (Nat × Nat))) (s : State) : State :=
  { s with adm := { s.adm with items := s.adm.items.map fun i => match i.kind with
    | .recipe k => (getKey k l).elim i fun o => { i with old := o }
    | _ => i } }

/-- Stage 3: heads outside the keep set are revoked, kept heads lose motion rendering and take the reduced form, and the
work is priced with the reduced forms (R68, R272, R294). -/
def stage3 (s : State) : State :=
  let keep := regField s 0x01100024 0 8
  let s := revokeAll false false s.now 0xFF 6 (fun i => match i.kind with
    | .head k => !bitOf keep k
    | _ => false) s
  let kept := (List.range 8).filter fun k => configured s k && !(headOf s k).pipe.stopping
  let s := revokeAll false false s.now 0xFF 1 (fun i => match i.kind with
    | .motion k => kept.contains k
    | _ => false) s
  let s := forEach kept reduceHead s
  let olds := oldUnits kept s
  setOld olds (reprice 1 (setOld (olds.map fun x => (x.1, [])) s))

/-! ### Stops -/

/-- The input is not valid any more (R63). -/
def loseInput (s : State) : State := { s with power := { s.power with inputValid := false } }

/-- Every head stops at once and every running channel begins its ramp (R73, R83). -/
def stopAllNow (s : State) : State :=
  rampMask (2 ^ 48 - 1) 7 (forEach ((List.range 8).filter (configured s)) (fun k => endHead k 1 0x984) s)

def setStop (why : StopCause) (s : State) : State :=
  { s with power := { s.power with stop := s.power.stop.map fun x => (why, x.2) } }

/-- A start-up is given up for P3, to wait for what it lacks. -/
def giveUp (s : State) : State := enterStandby false s

/-- Stage 4: the orderly stop of R72; during start-up, START_ABANDONED (R76). -/
def stage4 (s : State) : State :=
  let s := loseInput s
  if s.startup.running then
    let s := giveUp s
    { s with startup := { s.startup with abandoned := true } }
  else if s.startup.ready = false then s
  else match s.power.stop with
    | none => beginStop4 .stage4 false 1 s
    | some (.hostLink, _) => setStop .stage4 s
    | some _ => s

/-- Stage 5: a stop under way waits for nothing and leads to P4; otherwise the module turns off at once (R73). -/
def stage5 (s : State) : State :=
  let s := loseInput s
  if s.startup.ready ∨ s.power.stop.isSome then stopAllNow (setStop .stage5 (beginStop4 .stage5 false 1 s))
  else enterStandby true s

/-- The actions of a stage; those of stages 1 to 3 wait for configuration ready (R68, R76). -/
def stageAct (stage : Nat) (s : State) : State :=
  let live := s.startup.ready && s.power.stop.isNone
  match stage with
  | 1 => if live then stage1 s else s
  | 2 => if live then stage2 s else s
  | 3 => if live then stage3 s else s
  | 4 => stage4 s
  | _ => stage5 s

/-- A stage is recognised: SHED_ENTER and its actions (R68). -/
def enterStage (vin stage : Nat) (s : State) : State :=
  let s := record 0x2D 0x303 (u8 stage ++ u8 0 ++ u16 vin) { s with power := { s.power with stage := stage } }
  stageAct stage (raiseCause false 16 (setBits 0x01100028 (2 ^ (stage - 1)) s))

/-- SHED_ENTER: lower stages first (R69).  VIN below T_4 or T_5 again before the stage has cleared stops the module too. -/
def shedEnter (stage vin : Nat) (s : State) : State :=
  if stage = 0 ∨ 5 < stage ∨ s.power.state = .p4 ∨ shedThr s stage ≤ vin then s
  else
    let old := s.power.stage
    let s := forEach (span (old + 1) stage) (enterStage vin) (seeVin vin s)
    if 4 ≤ stage ∧ stage ≤ old then stageAct stage s else s

def execShedEnter (dt stage : Nat) (vin : Supply) (s : State) : Res := .next (shedEnter stage vin.vin (tick dt s))

/-! ### SHED_CLEAR (R71) -/

/-- Stopped ports start again; STOP_INGEST still holds them (R141, R173). -/
def restartPorts (s : State) : State :=
  if s.host.ingestStop then s
  else { s with ingest := { s.ingest with
    pushStop := false
    eth := s.ingest.eth.map fun e => { e with stopped := false }
    dp := s.ingest.dp.map fun d => { d with stopped := false } } }

/-- A kept head takes its full form again, if it is admitted, at the first CSE at least 100 ms after the clear. -/
def restoreHead (k : Nat) (s : State) : State :=
  let p := (headOf s k).press
  match p.counted, (headOf s k).pipe.cfg with
  | some r, some c =>
    let full := recipeUnits s k c r false
    if !p.countedForm then s
    else match shortage s (.recipe k) full with
      | some (slot, _) => record (0x10 + k) 0x305 (u8 (slotName slot).1 ++ u8 (slotName slot).2) s
      | none => formChanges k (settleRecipe k (reUnit (.recipe k) full (modPress k (fun p => { p with
          wantForm := if p.reduced || p.pending.isSome then some (false, s.now + 100 * msec) else none }) s)))
  | _, _ => s

/-- One stage clears. -/
def clearStage (vin stage : Nat) (s : State) : State :=
  let s := record 0x2D 0x304 (u8 stage ++ u8 0 ++ u16 vin) { s with power := { s.power with
    stage := stage - 1, bootStage := min s.power.bootStage (stage - 1) } }
  let s := raiseCause false 16 s
  if !(s.startup.ready && s.power.stop.isNone) then s
  else match stage with
    | 1 => forEach (List.range 4) catPump s
    | 2 => pointChanged 1 (restartPorts s)
    | 3 => forEach (List.range 8) restoreHead s
    | _ => s

/-- SHED_CLEAR: from the highest recognised stage down. -/
def shedClear (stage vin : Nat) (s : State) : State :=
  if stage = 0 ∨ s.power.stage < stage ∨ vin < shedThr s stage + s.power.hyst then s
  else forEach (span stage s.power.stage).reverse (clearStage vin) (seeVin vin s)

def execShedClear (dt stage : Nat) (vin : Supply) (s : State) : Res := .next (shedClear stage vin.vin (tick dt s))

/-! ### VIN_OVER (R64) and REFCLK_LOST (R83) -/

def vinOver (vin : Nat) (s : State) : State :=
  if vin ≤ 61000 ∨ s.power.state = .p4 then s
  else
    let s := record 0x2D 0x301 (u16 (min 0xFFFF vin)) (seeVin vin (loseInput s))
    let s := { s with power := { s.power with overStop := true } }
    if s.startup.running then giveUp s
    else if s.startup.ready = false then s
    else match s.power.stop with
      | none => beginStop4 .vinOver false 1 s
      | some (.hostLink, _) => setStop .vinOver s
      | some _ => s

def execVinOver (dt : Nat) (vin : Supply) (s : State) : Res := .next (vinOver vin.vin (tick dt s))

/-- The module waits in P3 for the check of R43. -/
def awaitRefclk (s : State) : State :=
  { s with startup := { s.startup with step := 2, running := true } }

/-- REFCLK is lost: heads stop at once, channels ramp, and no REVOKED completion is posted. -/
def refclkLost (s : State) : State :=
  let s := { s with power := { s.power with refclkOk := false } }
  if !s.power.fastClocks then s
  else
    let s := record 0x2D 0x306 [] s
    if s.startup.running then awaitRefclk (giveUp s)
    else match s.power.stop with
      | some (.stage5, _) => s
      | some _ => stopAllNow (setStop .refclkLost s)
      | none =>
        let s := leaveP2 s
        let s := { s with power := { s.power with stop := some (.refclkLost, .ramping), pendingSets := [] } }
        stopAllNow (abortSessions (fun _ => true) s)

def execRefclkLost (dt : Nat) (s : State) : Res := .next (refclkLost (tick dt s))

/-! ### STAGE4_PARK and LEDGER_SAVE (R72) -/

/-- Every head has stopped and every channel is dark. -/
def allDark (s : State) : Bool := !(List.range 8).any (configured s) && (enabledChans s).isEmpty

/-- A stop that waits for nothing lets a port go that cannot send its PARK yet (R73, R83). -/
def dropOwed (s : State) : State :=
  let owed := (List.range 16).filter fun p => (portOf s p).ending
  forEach (List.range 8) headDark (forEach owed downPort s)

/-- Step 3 of R72: PARK on the ports of each head that has stopped and whose lasers are dark; the save follows once every
head has stopped, every channel is dark and every PARK has gone. -/
def stage4Park (s : State) : State :=
  match s.power.stop with
  | some (why, .ramping) =>
    let s := forEach (List.range 8) headDark s
    let s := if (why = .stage5 ∨ why = .refclkLost) ∧ allDark s then dropOwed s else s
    if allDark s && (List.range 8).all (fun k => (headOf s k).pipe.parkDue.isNone) then
      { s with power := { s.power with rampedDark := true, stop := some (why, .saving) } }
    else s
  | _ => s

def execStage4Park (dt : Nat) (s : State) : Res := .next (stage4Park (tick dt s))

/-- Where the save leads: off (R73), start-up from step 3 (R143), or P3 until what its cause waits for (R64, R74, R83). -/
def afterSave (why : StopCause) (s : State) : State :=
  match why with
  | .stage5 => enterStandby true s
  | .hostLink =>
    if mayStart s ∧ s.power.refclkOk ∧ anySlot s then startStep3 false s else startStep3 false (enterStandby false s)
  | .stage4 | .vinOver => startStep3 false (enterStandby false s)
  | .refclkLost => awaitRefclk (measureFree (enterStandby false s))
  | .p3Request | .thermal => enterStandby false s

/-- Step 4 of R72, with the sectors that fail (R540); without spares the save ends early. -/
def ledgerSave (bad : List Nat) (s : State) : State :=
  match s.power.stop with
  | some (why, .saving) =>
    let (ok, s) := remapAll 4 bad (countErase 4 s)
    let s := if ok then saveLedger s else { s with startup := { s.startup with norWrites := [] } }
    afterSave why s
  | _ => s

def execLedgerSave (dt : Nat) (badSectors : List Nat) (s : State) : Res := .next (ledgerSave badSectors (tick dt s))

end Sys2Proof.Machine
end

