-- ==== Sys2Proof/Machine/PowerStates.lean ====
section
/-!
DEFINITION. Power states and pins (chapters 2, 3 and 5): meanings of PWR_SET_STATE and PWR_STATE_AT (R77, R78), ENTER_P2
(R323), the wake sources (R84), PERST_B, the PCIe link and the PF0 reset (R90, R142, R143), the interlock (R51) and the
test access port (R58).
-/

namespace Sys2Proof.Machine

/-! ### PWR_SET_STATE -/

/-- The first offending payload byte (R77). -/
def pwrInvalid (d : Desc) : Option Nat :=
  if 3 < d.p8 16 then some 16
  else if d.p8 16 = 1 ∧ (d.p8 17 = 0 ∨ 2 < d.p8 17) then some 17
  else firstNonZero d (span 18 23 ++ span 32 63)

/-- Why P2 is refused: the first head that could not enter Cave hold, or an open flow (R323). -/
def p2Refused (s : State) : Option (Nat × Nat) :=
  ((List.range 8).findSome? fun k => if configured s k then holdRefused s k true else none).or
    (if s.ingest.flows.isEmpty then none else some (4, 0))

/-- P0 or P1 becomes the target: the work is priced at the point it calls for; DONE_CLAMPED where a condition of R70 holds
HBM lower (R78). -/
def targetRun (d : Desc) (s : State) : State :=
  let want := if d.p8 16 = 1 then d.p8 17 else 0
  let s := leaveP2 { s with power := { s.power with target := d.p8 16, targetFp := want } }
  let s := pointChanged 4 s
  if want < calledFp s then complete d 1 (u8 (powerCode (powerNow s)) ++ u8 s.hbm.fp) s else complete d 0 [] s

/-- P2 becomes the target: every configured head enters Cave hold (R323).  The request completes here, at acceptance, and no
later status follows where hold is not entered (DESIGN CHOICE; notes/assumptions/56.md). -/
def targetP2 (d : Desc) (s : State) : State :=
  match p2Refused s with
  | some x => complete d 0xD80 (u8 x.1 ++ u8 x.2) s
  | none =>
    let s := { s with power := { s.power with target := 2, targetFp := 0 } }
    let s := forEach ((List.range 8).filter (configured s)) (fun k => modCave k fun v => { v with request := some d.t }) s
    complete d 0 [] (pointChanged 4 s)

/-- P3 becomes the target: the stage 4 sequence with the input still there. -/
def targetP3 (d : Desc) (s : State) : State :=
  beginStop4 .p3Request false 1 (complete d 0 [] { s with power := { s.power with target := 3, targetFp := 0 } })

/-- The change of an accepted request takes effect. -/
def takeTarget (d : Desc) (s : State) : State :=
  match d.p8 16 with
  | 2 => targetP2 d s
  | 3 => targetP3 d s
  | _ => targetRun d s

def pwrSetAct (d : Desc) (s : State) : State :=
  match pwrInvalid d with
  | some o => complete d 0x380 (u16 o) s
  | none =>
    if d.p64 24 ≤ s.now then takeTarget d s
    else { s with power := { s.power with pendingSets := s.power.pendingSets ++ [d] } }

def execPwrSetState (dt : Nat) (d : Desc) (s : State) : Res :=
  .next (runDesc (specI0 0x0201 []) d noBad noOver pwrSetAct (tick dt s))

/-- Accepted requests in order of AT; equal ones in order of acceptance. -/
def insertAt (d : Desc) : List Desc → List Desc
  | [] => [d]
  | e :: l => if d.p64 24 ≤ e.p64 24 then d :: e :: l else e :: insertAt d l

/-- PWR_STATE_AT: the accepted requests whose AT has come take effect (R78).  Several may wait: each acts at its own AT, and
the target changes only then (DESIGN CHOICE; notes/assumptions/57.md). -/
def pwrStateAt (s : State) : State :=
  let due := (s.power.pendingSets.filter fun d => decide (d.p64 24 ≤ s.now)).foldr insertAt []
  forEach due takeTarget { s with power := { s.power with
    pendingSets := s.power.pendingSets.filter fun d => decide (s.now < d.p64 24) } }

def execPwrStateAt (dt : Nat) (s : State) : Res := .next (pwrStateAt (tick dt s))

/-! ### P2 (R323) -/

/-- The conditions for P2. -/
def mayEnterP2 (s : State) : Bool :=
  decide (s.power.state = .p0) && decide (s.power.target = 2) && s.startup.ready && s.power.stop.isNone &&
    ((List.range 8).all fun k => !configured s k || decide ((headOf s k).cave.state = .hold)) &&
    s.adm.transfers.isEmpty && s.hbm.host.isEmpty && s.training.sessions.isEmpty && s.gheler.sps.all fun p => p.capture.all fun c => decide (c.state = 3)

/-- The pixel domain stops and both stacks enter self-refresh, closing every page (R82, R435). -/
def enterP2 (s : State) : State :=
  if mayEnterP2 s then
    { s with power := { s.power with state := .p2 }, hbm := { s.hbm with selfRef := true, pages := [], debts := [] } }
  else s

def execEnterP2 (dt : Nat) (s : State) : Res := .next (enterP2 (tick dt s))

/-! ### Wake sources (R84, R85) -/

/-- A wake source: from P2 to P0; from P3 to start-up from step 3; during a wake it is only recorded.  One that wakes
nothing, with LATCH set or no valid input, leaves PWR_WAKE_SRC (R84, R495). -/
def wake (src : Nat) (s : State) : State :=
  if regField s 0x01100030 src 1 = 0 then s
  else if s.power.state = .p2 then wakeP2 src s
  else if s.startup.running then (if s.startup.waking then setBits 0x01100034 (2 ^ src) s else s)
  else if s.power.state = .p3 ∧ mayStart s then startStep3 true (setBits 0x01100034 (2 ^ src) s)
  else s

def execWakeBFall (dt : Nat) (s : State) : Res := .next (wake 2 (tick dt s))

/-- A transaction addressed to the module wakes it, whatever its packet error check says (R84; notes/assumptions/54.md). -/
def execMgmtBusWake (dt : BusFrame) (s : State) : Res :=
  let s := tick dt.dt s
  .next (if dt.addr = s.power.smbAddr then wake 1 s else s)

/-- The Keeper timer: within 31 µs of its stamp; 0 disables it. -/
def keeperTimer (s : State) : State :=
  let t := (rawReg s 0x01100038).toNat + 2 ^ 32 * (rawReg s 0x0110003C).toNat
  if t ≠ 0 ∧ t ≤ s.now ∧ s.now ≤ t + 31 * usec then wake 3 s else s

def execKeeperTimer (dt : Nat) (s : State) : Res := .next (keeperTimer (tick dt s))

/-- Signal on lane 0 of an enabled Catum port (R503). -/
def execCatumWake (dt port : Nat) (s : State) : Res :=
  let s := tick dt s
  .next (if port < 4 ∧ (catOf s port).enabled then wake 4 s else s)

/-! ### PERST_B, the PCIe link and the PF0 reset -/

def execPerstBAssert (dt : Nat) (s : State) : Res :=
  let s := tick dt s
  .next (if s.power.perstB then s
    else hostLost { s with power := { s.power with perstB := true, pcieUp := false, pcieDownAt := none } })

/-- The answer to a configuration request on the link: configuration retry status until configuration ready (R90). -/
def configRetry (s : State) : Bool := !s.startup.ready

/-- PERST_B release: the link may train, and the module leaves P3 unless LATCH is set (R79, R90, R495). -/
def perstRelease (s : State) : State :=
  let s := { s with power := { s.power with perstB := false } }
  if s.power.state = .p3 ∧ !s.startup.running then startStep3 false s else s

def execPerstBRelease (dt : Nat) (s : State) : Res :=
  let s := tick dt s
  .next (if s.power.perstB then perstRelease s else s)

/-- The link comes up, or goes down and its 100 ms begin (Table 5.9). -/
def linkChange (up : Bool) (width speed : Nat) (s : State) : State :=
  let p := s.power
  if p.perstB ∨ !p.fastClocks then s
  else if up then { s with power := { p with pcieUp := true, pcieWidth := width, pcieSpeed := speed, pcieDownAt := none } }
  else if p.pcieUp then { s with power := { p with pcieUp := false, pcieDownAt := some s.now } }
  else s

def execPcieLinkChange (dt : Nat) (up : Bool) (width speed : Nat) (s : State) : Res :=
  .next (linkChange up width speed (tick dt s))

def execPcieLinkDownTimeout (dt : Nat) (s : State) : Res :=
  let s := tick dt s
  .next (match s.power.pcieDownAt with
    | some t => if t + 100 * msec ≤ s.now then hostLost { s with power := { s.power with pcieDownAt := none } } else s
    | none => s)

def execPf0Flr (dt : Nat) (s : State) : Res := .next (hostLost (tick dt s))

/-! ### The interlock (R51) -/

/-- A trip: outputs forced, every channel OFF, INTLK_TRIP. -/
def intlkTrip (s : State) : State :=
  if s.power.intlkLow ∨ s.power.state = .p4 then s
  else
    let s := { s with power := { s.power with
      intlkLow := true, intlkCount := min 255 (s.power.intlkCount + 1), intlkStamp := s.now, intlkAt := s.now, intlkRise := 0 } }
    let s := raiseCause true 3 (raiseCause false 3 (setBits 0x00A082C0 2 s))
    forceOff 3 (record 8 0x201 [] s)

def execIntlkTrip (dt : Nat) (s : State) : Res := .next (intlkTrip (tick dt s))

/-- A low level after a trip, ended by the rising edge of this instant: from 1 µs on it restarts the 10 ms, up to 100 ns it
does not, between them it may or may not (a free value). -/
def intlkLow (len : Nat) (s : State) : State :=
  let mark := fun s : State => { s with power := { s.power with intlkRise := s.now } }
  if !s.power.intlkLow ∨ len ≤ 400 then s
  else if 4000 ≤ len then mark s
  else
    let (v, s) := takeFree s
    if v % 2 = 1 then mark s else s

def execIntlkLowDuringTrip (dt len : Nat) (s : State) : Res := .next (intlkLow len (tick dt s))

/-- The rising edge that began the 10 ms of high level: that of a low level that restarted them, else that of the trip, from
which on the pin has been high (R51). -/
def risingEdge (high : Nat) (s : State) : Nat := if s.power.intlkRise ≠ 0 then s.power.intlkRise else s.now - high

/-- Release after 10 ms of high level since the trip; the outputs stay as they are (R51). -/
def intlkRelease (high : Nat) (s : State) : State :=
  let r := risingEdge high s
  if !s.power.intlkLow ∨ r < s.power.intlkAt ∨ s.now < r + 10 * msec then s
  else record 8 0x202 (u64 r) { s with power := { s.power with intlkLow := false } }

def execIntlkRelease (dt : PinHigh) (s : State) : Res := .next (intlkRelease dt.high (tick dt.dt s))

/-! ### The test access port (R58, R385) -/

/-- An instruction other than BYPASS, IDCODE or SAMPLE forces the outputs. -/
def tapInstr (i : TapInstr) (s : State) : State :=
  match i with
  | .other => forceOff 5 { s with power := { s.power with bscan := true } }
  | .bypass => { s with power := { s.power with bscan := false } }
  | .idcode => { s with power := { s.power with bscan := false } }
  | .sample => { s with power := { s.power with bscan := false } }

def execBoundaryScanForce (dt : Nat) (instr : TapInstr) (s : State) : Res := .next (tapInstr instr (tick dt s))

end Sys2Proof.Machine
end

