-- ==== Sys2Proof/Machine/Closing.lean ====
section
/-!
DEFINITION. CAB_SELECT (R108 to R110), and the Keeper's service of the management bus (R56, R93, R94, R100, R111, R546).
-/

namespace Sys2Proof.Machine

/-! ### CAB_SELECT -/

/-- Class K and S values that differ between two cabinets of the bank in use (R108). -/
def cabDiff (rs : List ImgRec) (a b : Nat) : Nat :=
  let value := fun (l : List (Nat × Nat)) (id : Nat) => (getKey id l).getD (factoryValue id)
  let differ := fun (x y : List (Nat × Nat)) =>
    (((x ++ y).map (·.1)).eraseDups.filter fun id => value x id ≠ value y id).length
  differ (resolveK rs a) (resolveK rs b) + differ (resolveS rs a) (resolveS rs b)

/-- The heads a selection names (Table 4.11). -/
def cabHeads (d : Desc) (s : State) : List Nat :=
  (List.range 8).filter fun k => if d.p8 17 = 0 then configured s k else bitOf (d.p8 17) k

/-- A head cannot run at its new profile's rate (R14, R263), or follows another head's (R523). -/
def cabRateBad (s : State) (k : Nat) (old new : HeadCfg) : Bool :=
  rateChanged old new && (!rateOk new.rateN new.rateD || (rateRefused s k new).isSome || decide ((lockOf s k).role = 2))

/-- The selection is admitted: it waits for the CSEs of the configured heads it names; for others the profile is replaced at
once. -/
def cabAccept (d : Desc) (named : List Nat) (vals : List (Nat × List Byte)) (diff : Nat) (s : State) : State :=
  let live := named.filter (configured s)
  let s := forEach (named.filter fun k => !configured s k) (fun k => setProfile k vals) s
  let x : PendingCab := { desc := d, cabinet := d.p8 16, heads := live, at_ := d.p64 24, diff := diff, values := vals, cse := 0 }
  if live.isEmpty then finishCab x s.now s.now s
  else forEach live (fun k => headChanged k d.t) { s with startup := { s.startup with pendingCab := some x } }

def cabSelectAct (d : Desc) (s : State) : State :=
  match s.startup.pendingCab with
  | some x => complete d 0x20 (u32 x.desc.tag) s
  | none =>
    let rs := recsInUse s
    let vals := resolveH rs (d.p8 16)
    let named := cabHeads d s
    let trial := forEach named (fun k => setProfile k vals) s
    let live := named.filterMap fun k => (headOf s k).pipe.cfg.map fun c => (k, c, profiled trial k c)
    let costs := live.flatMap fun x => repriceHead trial x.1 x.2.2
    if live.any fun x => cabRateBad s x.1 x.2.1 x.2.2 then complete d 0x20 (u8 0xF3 ++ u8 0) s
    else match shortageMany s costs with
      | some (slot, n) => complete d 0x20 (shortDetail slot n) s
      | none => cabAccept d named vals (cabDiff rs (d.p8 16) s.startup.cabinet) (forEach costs (fun x => reUnit x.1 x.2) s)

def execCabSelect (dt : Nat) (d : Desc) (s : State) : Res :=
  .next (runDesc (specAdm 0x0302 (span 18 23 ++ span 32 63)) d (fun d _ => badField [(decide (7 < d.p8 16), 16)]) noOver cabSelectAct
    (tick dt s))

/-! ### The management bus -/

/-- The conditions the Keeper reports: IMAGE_FACTORY_BAD, REFCLK_ABSENT, FW_NONE, THERM_LATCHED (R43, R93, R495). -/
def mgmtStatus (s : State) : Nat :=
  bit s.startup.factoryBad + 2 * bit (!s.power.refclkOk) +
    4 * bit (decide (s.power.state = .p3) && decide (s.startup.step = 3) && !anySlot s) + 8 * bit s.thermal.latch

/-- A slot written over the bus: not the one in use, no other write under way, an image the loader would take (R93, R546). -/
def mgmtSlot (k : Nat) (f : FwImage) (s : State) : State :=
  let used := decide (s.wear.slot = k) && (s.wear.slots[k]?).any imageGood
  if 1 < k ∨ used ∨ !s.startup.norWrites.isEmpty ∨ !imageGood f then s else norStart (.slot none k f) s

def mgmtServe (addr : Nat) (op : MgmtOp) (s : State) : State :=
  match op with
  | .clampRead i => emit (.read addr ((s.startup.clamps[i]?).elim (List.replicate 32 0) (·.bytes))) s
  | .statusRead => emit (.read addr (u8 (mgmtStatus s))) s
  | .bankWrite b => if (bankCheck b s).isSome then s else bankStart none b s
  | .slotWrite k f => mgmtSlot k f s
  | .protectedWrite _ => s
  | .other => s

/-- A transaction at the module's address with a good PEC; in P4 nothing answers. -/
def execMgmtBusTransaction (dt addr : Nat) (pecOk : Bool) (op : MgmtOp) (s : State) : Res :=
  let s := tick dt s
  .next (if served ⟨dt, addr, pecOk⟩ s then mgmtServe addr op s else s)

end Sys2Proof.Machine
end

