-- ==== Sys2Proof/Machine/HostAccess.lean ====
section
/-!
DEFINITION. What the host does to BAR0 and BAR2 of a function (R7, R112, R113, R115, R116, R141): one write or one read,
at the width it has.
-/

namespace Sys2Proof

/-- An aligned 32-bit access. -/
def BarAddr.word (a : BarAddr) : Bool := a.bytes == 4 && a.off % 4 == 0

/-- The first byte of the 4-byte word, on a 16-byte grid, that an access touches: where a doorbell may stand. -/
def BarAddr.slot (a : BarAddr) : Option Nat :=
  let b := (a.off + a.bytes - 1) / 16 * 16
  if a.off < b + 4 ∧ b < a.off + a.bytes then some b else none

end Sys2Proof

namespace Sys2Proof.Machine

/-- A write to BAR2: the Urgent Control Word, a doorbell, or an offset that discards it (R115, R141). -/
def writeBar2 (a : BarAddr) (v : Word) (pf1 : Bool) (s : State) : State :=
  let w := v.toNat
  if a.off = 0 ∧ a.word then ucwWrite pf1 w s
  else match a.slot with
    | none => s
    | some b =>
      if 0x1000 ≤ b ∧ b < 0x2000 then tailDoorbell ((b - 0x1000) / 16) w pf1 a.word s
      else if 0x2000 ≤ b ∧ b < 0x3000 then cqDoorbell ((b - 0x2000) / 16) w pf1 a.word s
      else if b = 0x3000 then ledgerDoorbell w pf1 a.word s
      else s

/-- A poisoned write to BAR0 leaves its register's SRAM copy uncorrectable, and the register takes its reset value with SHADOW_LOST at
once, where the write reaches stored bits; it has no other effect, and none at BAR2 (R463, R474; DESIGN CHOICE,
notes/assumptions/119.md). -/
def poisonedWrite (a : BarAddr) (pf1 : Bool) (s : State) : State :=
  match (if a.bar2 then none else barOffset pf1 a.off) with
  | none => s
  | some o => match findReg o with
    | none => s
    | some r => if r.rw = 0 ∧ (r.rwl = 0 ∨ s.host.locked) then s else shadowLost (regKey pf1 o) (regUnit o) s

/-- A write to BAR0: an aligned word with every effect it has, a completer abort at any other width or place (R7). -/
def writeBar (a : BarAddr) (v : Word) (pf1 : Bool) (s : State) : State :=
  if a.bar2 ∧ !a.poisoned then writeBar2 a v pf1 (wakeP2 0 s)
  else if !a.bar2 ∧ !a.word then emit (.abort a.off) s
  else if a.poisoned then poisonedWrite a pf1 s
  else if pf1 then pf1Write a.off v s
  else barWrite clearRules (mbStart clearRules) a.off v s

def execRegisterWrite (dt : Nat) (offset : BarAddr) (value : Word) (pf1 : Bool) (s : State) : Res :=
  .next (writeBar offset value pf1 (tick dt s))

/-- A read of BAR0 or BAR2: UCW_STAT at BAR2 offset 0 and zero elsewhere in it (R115, R141); in BAR0 a register, or a
completer abort (R7).  A read at BAR2 offset 0 that is not of 32 bits answers zeros and leaves REJECTED as it is: the spec does not
state such a read (DESIGN CHOICE, notes/assumptions/105.md). -/
def readBar (a : BarAddr) (pf1 : Bool) (s : State) : State :=
  if a.bar2 then
    if a.off = 0 ∧ a.word then ucwRead s else emit (.read a.off (List.replicate a.bytes 0)) s
  else if !a.word then emit (.abort a.off) s
  else
    let r := readBar0 a.off pf1 s
    emit (.read a.off (u32 r.1.toNat)) r.2

def execPairLoRead (dt : Nat) (off : BarAddr) (pf1 : Bool) (s : State) : Res := .next (readBar off pf1 (tick dt s))

end Sys2Proof.Machine
end

