-- ==== Sys2Proof/Machine/HostTransfer.lean ====
section
/-!
DEFINITION. The end of a host-memory transfer other than EXH_WRITE and EXH_READ (R181, R223, R248, R258, R288, R347), and the end of
a move between frequency points, which serves the host accesses that waited it out (R434).
-/

namespace Sys2Proof.Machine

/-- Operations whose transfer this command ends. -/
def loadOpcodes : List Nat := [0x0403, 0x0711, 0x0801, 0x0902, 0x0A02, 0x0C02]

/-- An earlier push of the same flow and ring is still under way: pushes are written in ring order (R181). -/
def pushBehind (t : Transfer) (s : State) : Bool :=
  t.opcode == 0x0403 && (s.adm.transfers.takeWhile (· != t)).any fun u =>
    u.opcode == 0x0403 && u.object == t.object && u.desc.ring == t.desc.ring

/-- The bytes of a transfer have come, or its host read failed. -/
def finishTransfer (t : Transfer) (buf : HostBuf) (s : State) : State :=
  match t.opcode with
  | 0x0403 => finishPush t buf s
  | 0x0711 => finishVit t buf s
  | 0x0801 => finishCoef t buf s
  | 0x0902 => finishDither t buf s
  | 0x0A02 => finishVector t buf s
  | _ => finishProfile t buf s

/-- A transfer other than EXH_WRITE and EXH_READ ends; a push waits for those before it on its ring (R181). -/
def endHostLoad (t : Transfer) (buf : HostBuf) (s : State) : State :=
  if pushBehind t s then s else finishTransfer t (bufOf t.desc buf s) s

/-- HOST_TRANSFER_DONE; it waits out self-refresh (R434). -/
def execHostTransferDone (dt ring tag : Nat) (buf : HostBuf) (s : State) : Res :=
  let s := tick dt s
  match xferOf s ring tag loadOpcodes with
  | none => .next s
  | some t => .next (if s.hbm.selfRef then holdHost (.ended ring tag true buf) s else endHostLoad t buf s)

/-- A host access that waited is served. -/
def serveHost (x : HostAccess) (s : State) : State :=
  match x with
  | .ended ring tag load buf => (xferOf s ring tag (if load then loadOpcodes else [0x0503, 0x0504])).elim s fun t =>
      if load then endHostLoad t buf s else endExhXfer t buf s
  | _ => serveBar4 x s

/-- HBM_FREQ_CHANGED: the move ends, and what waited out self-refresh is served (R434). -/
def execHbmFreqChanged (dt : Nat) (s : State) : Res :=
  let s := freqChanged (tick dt s)
  .next (if s.hbm.selfRef then s else forEach s.hbm.host serveHost (modHbm (fun h => { h with host := [] }) s))

end Sys2Proof.Machine
end

