-- ==== Sys2Proof/Machine/Setpoints.lean ====
section
/-!
DEFINITION. Set-points, loop transfer and tuning (chapter 17): meanings of SETPOINT_CFG, MODE_SET, INJECT and CAPTURE.
-/

namespace Sys2Proof.Machine

/-- No admitted loop set (R400, R406, R413, R415). -/
def noLoop (s : State) (c : Nat) : Option (Nat × List Byte) :=
  if c < 48 ∧ loopAdmitted s c then none else some (0x1082, u8 c)

def isBound (s : State) (c : Nat) : Option (Nat × List Byte) :=
  if (boundOf s c).isSome then some (0x0E82, u8 c) else none

/-- T_s and SCHED of the loop set that counts for a check. -/
def admittedTs (s : State) (c : Nat) : Nat := (chanOf s c).admittedCfg.elim 0 (·.ts)
def admittedSched (s : State) (c : Nat) : Bool := (chanOf s c).admittedCfg.any (·.sched)

/-! ### SETPOINT_CFG (R399, R400) -/

def spOfDesc (d : Desc) : SpCfg :=
  { source := d.p8 17, input := d.p8 18, accSh := d.p8 19, value := d.s32 20, gain := d.s32 24, offset := d.s32 28,
    rateMax := d.p32 32, accMax := d.p32 36, fFull := d.p32 40, validLo := d.s16 44, validHi := d.s16 46, holdT := d.p32 48,
    safe := d.s32 52 }

/-- Table 17.2 and R373: the offset of the first field that breaks them. -/
def spInvalid (s : State) (d : Desc) : Option Nat :=
  let x := spOfDesc d
  let host := x.source == 1
  let ext := decide (2 ≤ x.source)
  let pulse := decide (3 ≤ x.source)
  (List.find? (·.1)
    [(decide (x.source < 1 ∨ 4 < x.source), 17), (decide (15 < x.input) || (host && x.input != 0), 18), (decide (24 < x.accSh), 19),
     (if host then !isS20 x.value else x.value != 0, 20), (host && x.gain != 0, 24),
     (if host then x.offset != 0 else !isS20 x.offset, 28),
     (decide (0x7FFFFFFF < x.rateMax) || (ext && x.rateMax == 0), 32), (decide (0x7FFFFFFF < x.accMax), 36),
     (if pulse then decide (x.fFull < 1 ∨ 50000000 < x.fFull) else x.fFull != 0, 40),
     (if x.source = 2 then decide (x.validHi ≤ x.validLo) else x.validLo != 0, 44), (x.source != 2 && x.validHi != 0, 46),
     (if ext then decide (4000000000 < x.holdT) else x.holdT != 0, 48),
     (if ext then !isS20 x.safe else x.safe != 0, 52),
     (x.source == 2 && inputClash s (d.p8 16) (admittedTs s (d.p8 16)) (0x40 + x.input), 18)]).map (·.2)

def setpointAct (d : Desc) (s : State) : State :=
  let c := d.p8 16
  orElseDo d
    ((noLoop s c).orElse fun _ => (if admittedSched s c then some (0x1181, u8 c) else none).orElse fun _ =>
     (isBound s c).orElse fun _ => ((spInvalid s d).map fun o => (0x1180, u16 o)).orElse fun _ =>
     (spOf s c).pending.map fun p => (0x1186, u32 p.2.1.tag))
    (fun s => modSp c (fun p => { p with pending := some (spOfDesc d, d, max s.now (d.p64 56)) }) s) s

def execSetpointCfg (dt : Nat) (d : Desc) (s : State) : Res :=
  .next (runDesc (specI0 0x0F01 []) d noBad noOver setpointAct (tick dt s))

/-- A SETPOINT_CFG applies at a sample instant (R400): the limiter keeps its state; another source or input is taken as
live. -/
def applySp (c t : Nat) (s : State) : State :=
  match (spOf s c).pending with
  | none => s
  | some (x, d, at_) =>
    if t < at_ then s
    else
      let s := modSp c (fun p =>
        let fresh := !p.applied || p.cfg.source != x.source || p.cfg.input != x.input
        { p with cfg := x, applied := true, pending := none, haveLive := none,
                 input := if fresh then .live else p.input, liveRun := if fresh then 0 else p.liveRun,
                 stopRun := if fresh then 0 else p.stopRun }) s
      completeAt t d 0 [] (recordAt false t 8 0x1101 (u8 c ++ u8 x.source ++ u48 0 ++ u64 t) s)

/-! ### MODE_SET (R406 to R412) -/

def modeMembers (d : Desc) : List Nat := bitsOf (fieldOf d.bytes 24 6) 48

def modeInvalid (d : Desc) : Option Nat :=
  let hold := bitOf (d.p8 18) 0
  let n := (modeMembers d).length
  (List.find? (·.1)
    ([(decide (3 < d.p8 17), 17), (decide (1 < d.p8 18), 18), (decide (d.p8 19 ≠ 0), 19),
      (!isS20 (d.s32 20) || (hold && d.s32 20 != 0), 20),
      (if d.p8 17 = 2 then decide (n < 2 ∨ 4 < n) else n != 0, 24)] ++
     ([30, 31] ++ span 40 63).map fun i => (decide (d.p8 i ≠ 0), i))).map (·.2)

/-- Check 4 of R406. -/
def groupInvalid (s : State) (d : Desc) : Bool :=
  let c := d.p8 16
  let m := modeMembers d
  if d.p8 17 = 2 then
    m.any (admittedSched s) || m.any (fun x => admittedTs s x != admittedTs s (m.headD 0)) || m.any (fun x => (groupOf s x).isSome) ||
      m.head? != some c
  else if d.p8 17 = 3 then !(s.gheler.groups.any fun g => g.out == c) else false

def modeSetAct (d : Desc) (s : State) : State :=
  let c := d.p8 16
  let named := c :: if d.p8 17 = 2 then modeMembers d else []
  orElseDo d
    ((named.findSome? (noLoop s)).orElse fun _ => (named.findSome? (isBound s)).orElse fun _ =>
     ((modeInvalid d).map fun o => (0x1180, u16 o)).orElse fun _ =>
     if groupInvalid s d then some (0x1182, u8 c) else none)
    (fun s => modSp c (fun p => { p with modes := p.modes ++
      [{ desc := d, mode := d.p8 17, hold := bitOf (d.p8 18) 0, uMan := d.s32 20, members := modeMembers d,
         at_ := max s.now (d.p64 32) }] }) s) s

def execModeSet (dt : Nat) (d : Desc) (s : State) : Res :=
  .next (runDesc (specI0 0x0F02 []) d noBad noOver modeSetAct (tick dt s))

/-- A group ends: members go on in automatic with their own last outputs (R412). -/
def dissolve (g : SelGroup) (s : State) : State :=
  let s := { s with gheler := { s.gheler with groups := s.gheler.groups.filter fun h => h.out ≠ g.out } }
  forEach g.members (fun m s =>
    let s := modSp m (fun p => { p with group := none, manual := false }) s
    if m = g.out then s
    else
      let own := fun u : Int => (getKey m g.us).getD u
      modChan m (fun ch => { ch with
        u := own ch.u, uHold := false, uNew := ch.uNew.map fun x => { x with u := own x.u, hold := false } }) s) s

/-- A group forms: the other members' pins fall to 0 V (R410). -/
def formGroup (c : Nat) (members : List Nat) (s : State) : State :=
  let s := { s with gheler := { s.gheler with
    groups := s.gheler.groups ++ [{ out := c, members := members, winner := none, held := 0, edge := 0, us := [], ug := 0, done := 0 }] } }
  forEach members (fun m s => modSp m (fun p => { p with group := some c, manual := false }) s) s

/-- One MODE_SET takes effect at the sample instant t (R406, R407, R410 to R412). -/
def applyMode (c t : Nat) (q : ModeReq) (s : State) : State :=
  let g := groupOf s c
  let who := g.elim [c] (·.members)
  let uMan := if q.hold then (chanOf s c).uPrev else q.uMan
  let s := match q.mode with
    | 0 => forEach who (fun m => modSp m fun p => { p with manual := false }) s
    | 1 => forEach who (fun m => modSp m fun p => { p with manual := true, uMan := uMan }) s
    | 2 => if q.members.any fun m => (groupOf s m).isSome then s else formGroup c q.members s
    | _ => (s.gheler.groups.find? fun g => g.out = c).elim s fun g => dissolve g s
  completeAt t q.desc 0 [] (recordAt false t 8 0x1105 (u8 c ++ u8 q.mode ++ u16 0 ++ s32 uMan ++ u48 (maskOf q.members)) s)

/-- MODE_SETs due at a sample of a running channel, in order of arrival (R406, R409). -/
def applyModes (c t : Nat) (s : State) : State :=
  let l := (spOf s c).modes
  let s := modSp c (fun p => { p with modes := p.modes.filter fun q => decide (t < q.at_) }) s
  forEach (l.filter fun q => decide (q.at_ ≤ t)) (applyMode c t) s

/-- For a channel in OFF or RAMP a due MODE_SET is stored; a later one stored replaces it, and it completes (R406;
notes/assumptions/27.md). -/
def storeModes (c t : Nat) (s : State) : State :=
  let due := (spOf s c).modes.filter fun q => decide (q.at_ ≤ t)
  let gone := due.dropLast
  let s := modSp c (fun p => { p with modes := p.modes.filter fun q => !gone.contains q }) s
  forEach gone (fun q => completeAt t q.desc 0 []) s

/-! ### INJECT (R413) -/

def injectInvalid (d : Desc) : Option Nat :=
  let w := d.p8 18
  (List.find? (·.1)
    ([(decide (2 < d.p8 17), 17), (decide (4 < w), 18), (decide (w ≠ 3 ∧ d.p8 19 ≠ 0), 19), (!isS20 (d.s32 20), 20),
      (decide (w = 3 ∧ (d.p32 32 = 0 ∨ 0x7FFFFFFF < d.p32 32)), 32), (decide (w = 2 ∧ d.p32 36 = 0), 36)] ++
     (span 48 63).map fun i => (decide (d.p8 i ≠ 0), i))).map (·.2)

/-- The injection an INJECT asks for at an instant; it is active from its first injected sample. -/
def injectOf (d : Desc) (now : Nat) : Injection :=
  { desc := d, point := d.p8 17, wave := d.p8 18, div := d.p8 19, amp := d.s32 20, freq0 := d.p32 24, freq1 := d.p32 28,
    seed := d.p32 32, count := d.p32 36, start := max now (d.p64 40), active := false, i := 0, phase := 0, lfsr := d.p32 32,
    bit := false, stops := [] }

/-- Several may wait for their START; one that comes while another is active waits for its end (DESIGN CHOICE,
notes/assumptions/118.md). -/
def injectAct (d : Desc) (s : State) : State :=
  let c := d.p8 16
  let now := (spOf s c).inject
  orElseDo d
    ((noLoop s c).orElse fun _ => ((injectInvalid d).map fun o => (0x1180, u16 o)).orElse fun _ =>
     (if now.any (·.active) ∧ d.p8 18 ≠ 4 then some (0x1183, u8 c) else none).orElse fun _ =>
     if 1 ≤ s.power.stage then some (0x1184, u8 s.power.stage) else none)
    (fun s =>
      if d.p8 18 = 4 then
        match now with
        | none => complete d 0 [] s
        | some j => modSp c (fun p => { p with inject := some { j with stops := j.stops ++ [(d, max s.now (d.p64 40))] } }) s
      else modSp c (fun p => if p.inject.isNone then { p with inject := some (injectOf d s.now) }
                             else { p with waiting := p.waiting ++ [injectOf d s.now] }) s) s

def execInject (dt : Nat) (d : Desc) (s : State) : Res :=
  .next (runDesc (specI0 0x0F03 []) d noBad noOver injectAct (tick dt s))

/-! ### CAPTURE (R415) -/

def captureHandle (d : Desc) : Nat := bits (d.p16 28) 0 14

/-- Check 2 of R415. -/
def captureBad (d : Desc) (s : State) : Option (List Byte) :=
  let h := captureHandle d
  badField [(decide (d.p16 28 ≠ h) || (match exhOf s h with
    | none => true
    | some e => e.archive || e.kind != 1 || decide (e.size < 32 * d.p32 20) || !(e.state == .free || e.state == .ready) ||
        (inChain s h).isSome || (headOwned s h).isSome), 28)]

/-- Table 17.7. -/
def selOk (v : Nat) : Bool :=
  decide (v ≤ 2) || (decide (8 ≤ v) && decide (v ≤ 0x1B)) || v == 0xFF

def captureInvalid (d : Desc) : Option Nat :=
  (List.find? (·.1)
    ([(decide (3 < d.p8 17), 17), (decide (d.p16 18 < 1 ∨ 256 < d.p16 18), 18), (decide (d.p32 20 < 1 ∨ 65536 < d.p32 20), 20),
      (decide (d.p32 20 ≤ d.p32 24), 24), (decide (d.p8 30 ≠ 0), 30), (decide (d.p8 31 ≠ 0), 31)] ++
     ((span 32 35).map fun i => (!selOk (d.p8 i), i)) ++
     (span 36 39 ++ span 48 63).map fun i => (decide (d.p8 i ≠ 0), i))).map (·.2)

/-- The head group a channel's capture belongs to: that of its loop set (Table 8.6). -/
def captureOwner (s : State) (c : Nat) : Option Nat :=
  match s.adm.items.find? fun i => i.isLoop c && !i.leaving with
  | some i => i.group
  | none => none

def captureOpen (s : State) (c : Nat) : Bool := (spOf s c).capture.any fun x => x.state != 3

/-- The session a CAPTURE opens at an instant. -/
def captureOf (d : Desc) (now : Nat) : CaptureS :=
  { desc := d, ctx := d.p8 16, trigger := d.p8 17, decim := d.p16 18, count := d.p32 20, pre := d.p32 24, exh := captureHandle d,
    sels := [d.p8 32, d.p8 33, d.p8 34, d.p8 35], start := max now (d.p64 40), state := 1, phase := 0, preN := 0, written := 0,
    trig := 0, lastTgt := none, revoked := false }

def captureAct (d : Desc) (s : State) : State :=
  let c := d.p8 16
  let h := captureHandle d
  orElseDo d
    ((noLoop s c).orElse fun _ => ((captureInvalid d).map fun o => (0x1180, u16 o)).orElse fun _ =>
     if captureOpen s c then some (0x1185, u8 c) else none)
    (admitDesc (.capture c (captureOwner s c)) d (hbmCost s (256 * 4000000000) (admittedTs s c * d.p16 18) [h]) (fun s =>
      let s := modExh h (fun e => { e with state := .filling }) s
      modSp c (fun p => { p with capture := some (captureOf d s.now) }) s)) s

def execCapture (dt : Nat) (d : Desc) (s : State) : Res :=
  let shed := bootShed 1 1 fun i => match i.kind with
    | .capture c _ => c == d.p8 16
    | _ => false
  .next (runDesc (specAdm 0x0F04 []) d captureBad noOver (fun d s => shed (captureAct d s)) (tick dt s))

end Sys2Proof.Machine
end

