-- ==== Sys2Proof/Machine/LoopSample.lean ====
section
/-!
DEFINITION. One sample of a channel (R371, R376, R400 to R417): meanings of LOOP_SAMPLE and SP_SAFE.
-/

namespace Sys2Proof.Machine

/-! ### Set-point sources (R401, R405) -/

/-- s of sources 3 and 4 from the edges before the sample; none before a complete period has been seen (R401). -/
def pulseSignal (x : SpCfg) (q : Pulse) (t : Nat) : Option Int :=
  match q.edges.filter fun e => decide (e < t) with
  | e0 :: e1 :: _ =>
    let per := max 1 (e0 - e1)
    if x.source = 3 then some (min ((4000000000 * 524288 / (per * max 1 x.fFull) : Nat) : Int) 524287)
    else ((q.opp.filter fun o => decide (e1 < o) && decide (o ≤ e0)).getLast?).map fun o => (((o - e1) * 524288 / per : Nat) : Int)
  | _ => none

/-- Whether the external input is stopped at a sample (R405). -/
def inputStopped (x : SpCfg) (q : Pulse) (k : Int) (t : Nat) : Bool :=
  if x.source = 2 then decide (k < x.validLo) || decide (x.validHi < k) || endCode k
  else match q.edges.find? fun e => decide (e < t) with
    | some e => decide (16 * 4000000000 < (t - e) * x.fFull)
    | none => true

/-- The target of a live external input (R401); a rate or duty before a complete period is a free value
(notes/assumptions/3.md). -/
def liveTarget (x : SpCfg) (q : Pulse) (k : Int) (t : Nat) (s : State) : Int × State :=
  let f := fun v : Int => sat20 (x.offset + (x.gain * v + 32768) / 65536)
  if x.source = 2 then (f (16 * k), s)
  else match pulseSignal x q t with
    | some v => (f v, s)
    | none => let (v, s) := takeFree s
              (f (v % 524288 : Nat), s)

/-- SP_SAFE: HOLD_T has passed since the loss (R405 item 2). -/
def goSafe (c t : Nat) (s : State) : State :=
  recordAt false t 8 0x1103 (u8 c ++ u24 0 ++ s32 (spOf s c).cfg.safe) (modSp c (fun p => { p with input := .safe }) s)

/-- The target of an external source at a sample (R405). -/
def externalTarget (c t : Nat) (k : Int) (s : State) : Int × State :=
  let p := spOf s c
  let x := p.cfg
  let q := s.gheler.pulses.getD x.input { edges := [], opp := [], last := 0 }
  let stopped := inputStopped x q k t
  let (live, s) := if stopped then (0, s) else liveTarget x q k t s
  if p.input = .live ∧ !stopped then (live, modSp c (fun p => { p with haveLive := some live }) s)
  else
    let s := if p.input = .live then
        recordAt false t 8 0x1102 (u8 c ++ u8 x.input ++ u16 0 ++ s32 (p.haveLive.getD p.target))
          (modSp c (fun p => { p with input := .holding, lostAt := t, liveRun := 0, stopRun := 0, lost := bump p.lost }) s)
      else s
    let run := if stopped then 0 else (spOf s c).liveRun + 1
    if 16 ≤ run then
      let n := (spOf s c).stopRun
      (live, recordAt false t 8 0x1104 (u8 c ++ u24 0 ++ u32 n)
        (modSp c (fun p => { p with input := .live, liveRun := 0, stopRun := 0, haveLive := some live }) s))
    else
      let s := modSp c (fun p => { p with liveRun := run, stopRun := p.stopRun + 1 }) s
      let s := if (spOf s c).input = .holding ∧ (spOf s c).lostAt + x.holdT ≤ t then goSafe c t s else s
      if (spOf s c).input = .safe then (x.safe, s) else (p.haveLive.getD p.target, s)

/-- Position and acceleration of the slow-axis profile at a sample instant (R346); 0 until a profile
applies (R347).  Past its last point a frame goes on with the profile of the next one. -/
def profileAt (s : State) (k t : Nat) : Int × Int :=
  let h := headOf s k
  match h.pipe.firstFlip (t + 1) with
  | 0 => ((h.scan.profile).headD 0, 0)
  | n + 1 =>
    let pr := h.scan.profileFor n
    let next := h.scan.profileFor (n + 1)
    let pts := pr.length
    if pts = 0 then (0, 0)
    else
      let per := max 1 (h.pipe.period n)
      let num := (t - h.pipe.flipWas n) * pts
      let i := num / per
      let at_ := fun j : Nat => if j < pts then pr.getD j 0 else next.getD ((j - pts) % max 1 next.length) 0
      let a := at_ i
      let b := at_ (i + 1)
      let z := if i = 0 then pr.getD (pts - 1) 0 else at_ (i - 1)
      (sat20 ((a * per + (num % per : Nat) * (b - a)) / (per : Int)), (b - 2 * a + z) * (pts * pts : Nat))

/-- Set-point and commanded acceleration of a sample of a channel that does not follow a schedule (R345, R398 to R404);
answers r, d for DSRC 2, and whether a set-point step was applied. -/
def sourceSample (c t : Nat) (x : LoopCfg) (s : State) : Int × Int × State :=
  let p := spOf s c
  let acc : Option Int := (boundOf s c).bind fun b => if b.2.2 then none else some (profileAt s b.1 t).2
  let (tgt, s) : Int × State := match boundOf s c with
    | some (_, sc, true) => (sat20 (16 * sc.ampTgt), s)
    | some (h, _, false) => ((profileAt s h t).1, s)
    | none => if !p.applied then (x.rDark, s) else if p.cfg.source = 1 then (p.cfg.value, s) else externalTarget c t (s.gheler.aux.getD p.cfg.input 0) s
  let rate := if p.applied then p.cfg.rateMax else 0
  let (np, nv) := limiter rate (if p.applied then p.cfg.accMax else 0) tgt p.p p.v
  let r := limited np
  let sh : Int := 2 ^ (if p.applied then p.cfg.accSh else 0)
  let d := match acc with
    | some a => sat20 ((a * sh + 8388608) / 16777216)
    | none => if x.sched then 0 else sat20 (((nv - p.v) * sh + 32768) / 65536)
  let s := modSp c (fun q => { q with p := np, v := nv, dv := nv - p.v, target := tgt, formed := true }) s
  let step := rate == 0 && r != (chanOf s c).r
  (r, d, modChan c (fun ch => { ch with r := r, lastStep := if step then some t else ch.lastStep }) s)

/-! ### What falls due at a sample (R409) -/

/-- One COEF_WRITE entry: entry i, counted from 0 as COEF_RANGE names it, lies between samples j0 + i - 1 and j0 + i (R391;
DEDUCED, notes/assumptions/89.md). -/
def applyCoef (c t : Nat) (s : State) : State :=
  match (chanOf s c).coefQ with
  | [] => s
  | r :: rest =>
    if t < r.at_ then s
    else
      let s := r.entries.head?.elim s fun e => modChan c (fun ch => { ch with coefs := setKey e.1 e.2 ch.coefs }) s
      match r.entries.tail with
      | [] => completeAt t r.desc 0 [] (modChan c (fun ch => { ch with coefQ := rest }) s)
      | es => modChan c (fun ch => { ch with coefQ := { r with entries := es } :: rest }) s

/-- A WAVE 4 due, or the count of samples reached, ends the injection before the sample (R413, R414). -/
def stopInject (c t : Nat) (s : State) : State :=
  match (spOf s c).inject with
  | none => s
  | some j =>
    if j.active ∧ j.count ≠ 0 ∧ j.count ≤ j.i then endInjectAt c 1 t s
    else if j.stops.any fun x => decide (x.2 ≤ t) then endInjectAt c 2 t s
    else s

/-- An injection whose START has come is active from this sample, where no other is (R413). -/
def startInject (c t : Nat) (s : State) : State :=
  let p := spOf s c
  let all := p.inject.toList ++ p.waiting
  if p.inject.any (·.active) then s
  else match all.find? fun j => decide (j.start ≤ t) with
    | some j => completeAt t j.desc 0 [] (modSp c (fun p => { p with
        inject := some { j with active := true }, waiting := all.filter fun x => x ≠ j }) s)
    | none => s

/-- The test signal of this sample, and its POINT; 0 while none is active (R414). -/
def nextSignal (c : Nat) (s : State) : Int × Nat × State :=
  match (spOf s c).inject with
  | some j =>
    if j.active then
      let (v, j') := testSignal j
      (v, j.point, modSp c (fun p => { p with inject := some j' }) s)
    else (0, 3, s)
  | none => (0, 3, s)

/-! ### Capture (R415, R416) -/

/-- A signal of Table 17.7. -/
def signalOf (s : State) (c code : Nat) : Int :=
  let ch := chanOf s c
  if code < 3 then ch.y.getD code 0
  else if code < 0x10 then ch.x.getD (code - 8) 0
  else match code with
    | 0x10 => ch.rIn
    | 0x11 => (spOf s c).target
    | 0x12 => ch.eLast
    | 0x13 => ch.dLast
    | 0x14 => ch.vLast
    | 0x15 => ch.wLast
    | 0x16 => ch.uRaw
    | 0x17 => ch.uLim
    | 0x18 => ch.z
    | 0x19 => ch.sLast
    | 0x1A => (groupOf s c).elim ch.uLim (·.ug)
    | 0x1B => (unsigned 16 ch.code : Nat)
    | _ => 0

/-- One record of 32 bytes (R416). -/
def captureRecord (s : State) (c t : Nat) (x : CaptureS) (idx : Int) : List Byte :=
  let ch := chanOf s c
  let p := spOf s c
  let st := match ch.state with
    | .off => 0
    | .run => 1
    | .ramp => 2
    | .unavailable => 3
  let flags := st + 4 * bit p.manual + 8 * bit ch.gate + 16 * bit ch.satHi + 32 * bit ch.satLo + 64 * bit ch.clampRun +
    128 * bit (p.inject.any (·.active)) + 256 * bit ((groupOf s c).any fun g => g.winner == some c) +
    512 * bit (p.input != .live) + 1024 * bit (freeRun s)
  u64 t ++ x.sels.flatMap (fun q => s32 (signalOf s c q)) ++ u16 flags ++ u16 0 ++ s32 idx

/-- Whether the trigger of a session is met at this sample (Table 17.6). -/
def triggered (s : State) (c : Nat) (x : CaptureS) : Bool :=
  let ch := chanOf s c
  match x.trigger with
  | 0 => true
  | 1 => x.lastTgt.any fun v => v != (spOf s c).target
  | 2 => ch.state == .run && (ch.satHi || ch.satLo)
  | _ => (spOf s c).inject.any (·.active)

/-- The trigger: INDEX of the records before it is set, and record positions before it that none filled become zero. -/
def triggerCapture (c t : Nat) (x : CaptureS) (s : State) : State :=
  let base := (exhRange s x.exh).1
  let n := min x.preN x.pre
  let s := forEach (List.range n) (fun i s =>
    let q := x.preN - n + i
    writeInternal (base + q % max 1 x.pre * 32 + 28) (s32 ((i : Int) - n)) s) s
  let s := if x.preN < x.pre then writeInternal (base + 32 * x.preN) (List.replicate (32 * (x.pre - x.preN)) 0) s else s
  modSp c (fun p => { p with capture := some { x with state := 2, trig := t } }) s

/-- One record at this sample (R416), and the end of a session whose positions are full (R417; notes/assumptions/89.md). -/
def writeCapture (c t : Nat) (x : CaptureS) (s : State) : State :=
  let base := (exhRange s x.exh).1
  let n := min x.preN x.pre
  if x.state = 1 then
    if x.pre = 0 then s
    else
      let s := writeInternal (base + x.preN % x.pre * 32) (captureRecord s c t x x.preN) s
      modSp c (fun p => { p with capture := some { x with preN := x.preN + 1, written := min (x.preN + 1) x.pre } }) s
  else
    let post := x.written - n
    let s := writeInternal (base + 32 * (x.pre + post)) (captureRecord s c t x post) s
    let s := modSp c (fun p => { p with capture := some { x with written := x.written + 1 } }) s
    if x.count ≤ x.pre + post + 1 then endCapture c 1 s else s

/-- The capture session of a channel at a sample instant. -/
def captureStep (c t : Nat) (s : State) : State :=
  match (spOf s c).capture with
  | none => s
  | some x =>
    if x.state = 3 ∨ t < x.start then s
    else
      let s := if owes x.desc s then completeAt t x.desc 0 [] s else s
      let due := x.phase = 0
      if due ∧ x.revoked then endCapture c 2 s
      else
        let x := { x with phase := if due then x.decim - 1 else x.phase - 1 }
        let hit := x.state = 1 ∧ triggered s c x
        let x := { x with lastTgt := some (spOf s c).target }
        let s := modSp c (fun p => { p with capture := some x }) s
        let s := if hit then triggerCapture c t x s else s
        if due then (spOf s c).capture.elim s fun x => writeCapture c t x s else s

/-! ### One sample (R371, R376) -/

/-- ACC_SAT once per channel until the bit is cleared (R375). -/
def noteAccSat (c t : Nat) (stages : List Nat) (s : State) : State :=
  match stages with
  | [] => s
  | st :: _ =>
    let off := 0x00A01000 + 0x40 * c
    if regField s off 13 1 = 1 then s else recordAt false t 8 0x1005 (u8 c ++ u8 st) (setBits off 0x2000 s)

/-- Saturation counts and flags (R377). -/
def noteSat (c t : Nat) (hi lo : Bool) (s : State) : State :=
  let ch := chanOf s c
  let out := hi || lo
  let s := modChan c (fun ch => { ch with satHi := hi, satLo := lo, sat := if out then bump ch.sat else ch.sat,
                                          unsat := if out then 0 else ch.unsat + 1 }) s
  if out ∧ 1000 ≤ ch.unsat then recordAt false t 8 0x1003 (u8 c ++ u8 (bit lo)) s else s

/-- The result of a sample waits for its AOUT update. -/
def queueOut (c t : Nat) (x : LoopCfg) (u : Int) (hold : Bool) (s : State) : State :=
  modChan c (fun ch => { ch with uNew := ch.uNew ++ [{ due := t + x.ts, u := u, r := ch.rIn, hold := hold }] }) s

/-- The lowest limited output; ties go to the lowest channel (R411 item 2). -/
def lowest : List (Nat × Int) → Option (Nat × Int)
  | [] => none
  | x :: l => match lowest l with
    | none => some x
    | some y => if y.2 < x.2 ∨ (y.2 = x.2 ∧ y.1 < x.1) then some y else some x

/-- The winner, its changes, and SELECT_CHANGE (R412). -/
def chooseWinner (g : SelGroup) (w t : Nat) (s : State) : State :=
  let changed := g.winner.any (· != w)
  let s := setGroup { g with winner := some w, held := if g.winner = some w then g.held + 1 else 1 } s
  if !changed then s
  else
    let s := { s with gheler := { s.gheler with switches := upd s.gheler.switches g.out bump } }
    if 1000 ≤ g.held then recordAt false t 8 0x1106 (u8 g.out ++ u8 (g.winner.getD 0) ++ u8 w) s else s

/-- Whether a member of a group may still compute sample t: in RUN, or about to enter it at t (R386); one that sampled t before the
group formed does not (R411). -/
def joins (s : State) (t m : Nat) : Bool :=
  let ch := chanOf s m
  ch.edge != t && ((ch.state == .run && !ch.offNext) ||
    (ch.state == .off && ch.enable.any fun q => q.action == 0 && decide (q.at_ ≤ t)))

/-- What a member that is not the winner takes from a settled sample (R411 items 3, 5, 6). -/
def followGroup (m t : Nat) (x : LoopCfg) (ug : Int) (s : State) : State :=
  captureStep m t (queueOut m t x ug true (modChan m (fun ch => { ch with z := preset ug ch.vLast ch.wLast }) s))

/-- All running members of a group have computed the sample: group output, integrators, u_prev (R411). -/
def settleMembers (g : SelGroup) (t : Nat) (s : State) : State :=
  let manual := (spOf s g.out).manual
  let lim := fun u : Int => (chanOf s g.out).cfg.elim u fun x => min (max u x.uMin) x.uMax
  match lowest g.us with
  | none => s
  | some (w, low) =>
    let ug := if manual then (getKey g.out g.us).getD (lim (spOf s g.out).uMan) else low
    let g := { g with ug := ug, done := t }
    let s := if manual then setGroup g s else chooseWinner g w t s
    forEach (g.us.map (·.1)) (fun m s =>
      match (chanOf s m).cfg with
      | none => s
      | some x =>
        if m = w ∧ !manual then
        let s := modChan m (fun ch => { ch with z := integrate ch.z ch.dz ch.uRaw x.uMin x.uMax ch.gate }) s
        captureStep m t (queueOut m t x ug true s)
      else followGroup m t x ug s) s

/-- A member has computed its own limited output (R411 item 1); one that comes after the sample was settled follows it. -/
def gather (c t : Nat) (x : LoopCfg) (g : SelGroup) (s : State) : State :=
  if g.done = t then followGroup c t x g.ug s
  else
    let us := if g.edge = t then setKey c (chanOf s c).uLim g.us else [(c, (chanOf s c).uLim)]
    let g := { g with edge := t, us := us }
    let s := setGroup g s
    if g.members.any (joins s t) then s else settleMembers g t s

/-- A member takes no part in a sample after all: the others go on without it (R411). -/
def regather (c t : Nat) (s : State) : State :=
  match groupOf s c with
  | none => s
  | some g => if g.edge = t ∧ g.done ≠ t ∧ !g.us.isEmpty ∧ !(g.members.any (joins s t)) then settleMembers g t s else s

/-- The measured inputs as signals: the amplitude of the last pass takes the place of IN0 of a FAST_CHAN (R345, R374). -/
def measured (s : State) (c : Nat) (ys : List Int) : List Int :=
  let l := ys.map fun k => sat20 (16 * k)
  match boundOf s c with
  | some (k, _, true) => sat20 (16 * ((headOf s k).scan.amp : Nat)) :: l.drop 1
  | _ => l

/-- One sample of a channel in RUN, its settings already in force (R371, R376, R407). -/
def runSample (c t : Nat) (x : LoopCfg) (ys : List Int) (dist : Int) (s : State) : State :=
  let (r0, acc, s) : Int × Int × State :=
    if follows s c x then ((chanOf s c).r, 0, modSp c (fun p => { p with target := (chanOf s c).r, formed := true }) s)
    else sourceSample c t x s
  let r0 := if (chanOf s c).heldAt t then x.rDark else r0
  let (sig, point, s) := nextSignal c s
  let first := point == 0 && (spOf s c).inject.any fun j => j.wave == 0 && j.i == 1
  let s := if first then modChan c (fun ch => { ch with lastStep := some t }) s else s
  let ch := chanOf s c
  let manual := (spOf s c).manual
  let r := if point = 0 then sat20 (r0 + sig) else r0
  let d := if x.dsrc = 1 then sat20 (16 * dist) else if x.dsrc = 2 then acc else 0
  let y := measured s c (ys.take x.m)
  let o := computeSample { n := x.n, m := x.m, k := ch.coefs, x := ch.x, z := ch.z, uPrev := ch.uPrev, dPrev := ch.dPrev, y := y,
                           r := r, d := d, s1 := if point = 1 then sig else 0, s2 := if point = 2 ∧ !manual then sig else 0 }
  let man := (spOf s c).uMan + if point = 2 then sig else 0
  let u := min (max (if manual then man else o.uRaw) x.uMin) x.uMax
  let gate := !manual && ch.lastStep.all fun l => decide (l + x.holdoff ≤ t)
  let s := modChan c (fun ch => { ch with
    x := o.x, dPrev := d, y := y, sample := t, vLast := o.v, wLast := o.w, eLast := o.e, dLast := d, sLast := sig, dz := o.dz,
    uRaw := o.uRaw, uLim := u, rIn := r, gate := gate }) s
  let s := noteSat c t (decide (x.uMax < o.uRaw)) (decide (o.uRaw < x.uMin)) (noteAccSat c t o.sat s)
  match groupOf s c with
  | some g => gather c t x g s
  | none =>
    let s := modChan c (fun ch => { ch with
      z := if manual then preset u o.v o.w else integrate ch.z o.dz o.uRaw x.uMin x.uMax gate }) s
    captureStep c t (queueOut c t x u manual s)

/-- MODE_SETs of another channel of a group, or of one that forms with this channel, that fall due at the same sample come before
the first of its members computes it (R406, R409, R411). -/
def leadModes (c t : Nat) (s : State) : State :=
  forEach ((List.range 48).filter fun o =>
    let ch := chanOf s o
    o != c && ch.state == .run && decide (ch.edge < t) && (spOf s o).modes.any fun q =>
      decide (q.at_ ≤ t) && (q.members.contains c || (groupOf s o).any (·.members.contains c))) (applyModes · t) s

/-- A sample of a channel in RUN: what falls due in the order of R409, then the sample. -/
def runChannel (c t : Nat) (ys : List Int) (dist : Int) (s : State) : State :=
  let s := applyModes c t (leadModes c t s)
  let s := if (chanOf s c).pendCfg.any (fun x => x.2.2.isNone) ∧ (chanOf s c).pendAt ≤ t then applyLoop c t s else s
  let s := startInject c t (stopInject c t (applySp c t (applyCoef c t s)))
  match (chanOf s c).cfg with
  | none => s
  | some x => runSample c t x ys dist s

/-- A channel in OFF or RAMP at its sample instant (R400, R406, R416). -/
def idleChannel (c t : Nat) (s : State) : State :=
  captureStep c t (stopInject c t (applySp c t (storeModes c t s)))

/-! ### The colour solver's measurement (R357, R358) -/

/-- The code of the photodiode of a calibrated channel: converted for it, or the latest of the loop that reads it. -/
def senseCode (s : State) (ain : Nat) (sense : Int) : Int := if isRead s ain then s.gheler.ain.getD ain 0 else sense

/-- A loop sample counts for the solver where it is valid (R358). -/
def takeSense (c t : Nat) (sense : Int) (s : State) : State :=
  match chanOwner s c with
  | none => s
  | some k =>
    let v := (headOf s k).solver
    match v.cal.bind fun cal => cal.entries.find? fun e => e.chan = c with
    | none => s
    | some e =>
      let s := if isRead s e.ain then s else takeCode e.ain sense s
      let y := senseCode s e.ain sense
      match litAt s k c t with
      | some (slot, opens, _) =>
        if !(chanOf s c).enabled ∨ s.power.intlkLow ∨ endCode y ∨ t < opens + v.cfg.skip then s
        else
          let temp := match e.tsrc with
            | 1 => (chanOf s c).x.getD e.tidx 0
            | 2 => s.gheler.aux.getD e.tidx 0
            | _ => 0
          solverSample k c (y - e.dark) slot.amp temp s
      | none => s

/-! ### LOOP_SAMPLE -/

/-- The sample period that sets a channel's instants: that of a set waiting for a channel in OFF, else the one in force (R394). -/
def Chan.period (ch : Chan) : Nat :=
  match ch.state with
  | .off => ch.admittedCfg.elim 0 (·.ts)
  | _ => ch.cfg.elim 0 (·.ts)

/-- A new instant j × T_s, at least T_s / 2 after the last sample (R26, R155). -/
def freshEdge (ch : Chan) (e : Nat) : Bool :=
  decide (ch.edge < e) && (ch.state != .run || decide (ch.period ≤ 2 * (e - ch.edge)))

/-- The channels of one kind whose sample instant is e, the channel being sampled among them: one record names them all
(R157, Table 16.6). -/
def alike (c e : Nat) (p : Chan → Bool) (s : State) : List Nat :=
  (List.range 48).filter fun x =>
    let ch := chanOf s x
    p ch && (x == c || (decide (0 < ch.period) && decide (e % ch.period = 0) && freshEdge ch e))

/-- The channels' updates of this instant come before what stops them. -/
def updateAll (l : List Nat) (e : Nat) (s : State) : State := if e % 200 = 0 then forEach l (aoutStep · e) s else s

/-- One CHAN_ENABLE acts on a channel (R386). -/
def actEnable (c t : Nat) (q : EnableReq) (s : State) : State :=
  let ch := chanOf s c
  let same := alike c t (fun ch => ch.enabled && ch.enable.any (·.desc == q.desc)) s
  let s := match q.action with
    | 0 =>
      if ch.state = .run ∨ ch.state = .unavailable ∨ ch.revoked ∨ s.power.intlkLow ∨ s.power.resetB then s
      else ch.cfg.elim s fun x =>
        let s := enterRun c s
        if follows s c x then modChan c (fun ch => { ch with r := scheduled s c (grid t) x }) s else s
    | 1 => rampMask (maskOf same) 1 (updateAll same t s)
    | _ => loopDisabled (maskOf same) 1 (forEach same (fun x s => setCause x 1
        (modChan x (fun ch => { ch with upd := max ch.upd (t / 200 * 200) }) (chanRest x s))) (updateAll same t s))
  enableDone c t q s

/-- What a channel's instant brings before its sample: a revoked set stops, a pending set applies to a channel in OFF, and
CHAN_ENABLE acts (R29, R386, R394). -/
def boundary (c t : Nat) (s : State) : State :=
  let s := if (chanOf s c).revoked ∧ (chanOf s c).state = .run then
      let l := alike c t (fun ch => ch.revoked && ch.state == .run) s
      rampMask (maskOf l) (if s.power.stop.isSome then 7 else 2) (updateAll l t s)
    else s
  let s := if (chanOf s c).state = .off ∧ (chanOf s c).pendCfg.isSome ∧ (chanOf s c).pendAt ≤ t then applyLoop c t s else s
  forEach ((chanOf s c).enable.filter fun q => decide (q.at_ ≤ t)) (actEnable c t) s

/-- The codes converted at this instant: measured inputs, the AUX disturbance and the AUX set-points (R371, R373). -/
def takeInputs (c : Nat) (ys : List Int) (dist : Int) (sp : List Int) (s : State) : State :=
  match (chanOf s c).cfg with
  | none => s
  | some x =>
    let ins := match boundOf s c with
      | some (_, sc, true) => sc.fastAin :: (x.ins.take x.m).drop 1
      | _ => x.ins.take x.m
    let s := forEach (ins.zipIdx) (fun q => takeCode q.1 (ys.getD q.2 0)) s
    let s := if x.dsrc = 1 then takeCode (0x40 + x.didx) dist s else s
    forEach (spReads s c x).zipIdx (fun q => takeCode q.1 (sp.getD q.2 0)) s

/-- A sample instant of a channel.  `ys` are the codes of the measured inputs in order, `dist` and `sp` those of the AUX
disturbance and set-point inputs (the one in force first), `sense` the photodiode's, `memErr` the index of an uncorrectable coefficient or state
read (R387). -/
def sampleChannel (c e : Nat) (ys : List Int) (dist : Int) (sp : List Int) (sense : Int) (memErr : Option Nat) (s : State) : State :=
  let s := if e % 200 = 0 then aoutStep c e s else s
  let s := if (chanOf s c).state = .run ∧ e + 4 < s.now then loopMiss c e s else s
  let s := boundary c e (modChan c (fun ch => { ch with edge := e }) s)
  let s := takeInputs c ys dist sp s
  let s := match (chanOf s c).state with
    | .run => match memErr with
      | some i => captureStep c e (regather c e (recordAt false e 8 0x1006 (u8 c ++ u8 0 ++ u16 i) (modChan c (fun ch => { ch with offNext := true }) s)))
      | none => runChannel c e ys dist s
    | _ => regather c e (idleChannel c e s)
  takeSense c e sense s

def execLoopSample (dt chan : Nat) (ys : List Int) (dist : Int) (sp : List Int) (sense : Int) (memErr : Option Nat) (s : State) : Res :=
  let s := tick dt s
  let ch := chanOf s chan
  let ts := ch.period
  let e := s.now / max 1 ts * ts
  if ts = 0 then .next (reapCapture chan s)
  else if freshEdge ch e then .next (sampleChannel chan e (ys.map adcCode) (adcCode dist) (sp.map adcCode) (adcCode sense) memErr s)
  else .next s

/-! ### SP_SAFE (R405 item 2) -/

/-- The first sample at or after the loss plus HOLD_T; an input about to be taken again is left to its sample. -/
def execSpSafe (dt chan : Nat) (s : State) : Res :=
  let s := tick dt s
  let p := spOf s chan
  let ch := chanOf s chan
  let e := s.now / max 1 ch.period * ch.period
  .next (if ch.state = .run ∧ p.input = .holding ∧ p.lostAt + p.cfg.holdT ≤ e ∧ p.liveRun < 15 then goSafe chan e s else s)

end Sys2Proof.Machine
end

