-- ==== Sys2Proof/Machine/Dispatch.lean ====
section
/-!
DEFINITION. exec: one arm per command, each a direct call of the command's meaning.
-/

namespace Sys2Proof.Machine

open Sys2Proof

def exec (i : Instr) (s : State) : Host.Outcome State Fault Refusal :=
  match i with
  | .inputValid dt vin cab boot => Sys2Proof.Machine.execInputValid dt vin cab boot s
  | .trnPointDone dt point us failed => Sys2Proof.Machine.execTrnPointDone dt point us failed s
  | .configReady dt slotFails => Sys2Proof.Machine.execConfigReady dt slotFails s
  | .vinOver dt vin => Sys2Proof.Machine.execVinOver dt vin s
  | .shedEnter dt stage vin => Sys2Proof.Machine.execShedEnter dt stage vin s
  | .capacityShrinkHold dt => Sys2Proof.Machine.execCapacityShrinkHold dt s
  | .shedClear dt stage vin => Sys2Proof.Machine.execShedClear dt stage vin s
  | .stage4Park dt => Sys2Proof.Machine.execStage4Park dt s
  | .ledgerSave dt badSectors => Sys2Proof.Machine.execLedgerSave dt badSectors s
  | .refclkLost dt => Sys2Proof.Machine.execRefclkLost dt s
  | .refclkCheckRetry dt ok => Sys2Proof.Machine.execRefclkCheckRetry dt ok s
  | .pwrSetState dt d => Sys2Proof.Machine.execPwrSetState dt d s
  | .enterP2 dt => Sys2Proof.Machine.execEnterP2 dt s
  | .wakeBFall dt => Sys2Proof.Machine.execWakeBFall dt s
  | .mgmtBusWake dt => Sys2Proof.Machine.execMgmtBusWake dt s
  | .keeperTimer dt => Sys2Proof.Machine.execKeeperTimer dt s
  | .catumWake dt port => Sys2Proof.Machine.execCatumWake dt port s
  | .pwrClrMin dt => Sys2Proof.Machine.execPwrClrMin dt s
  | .resetBAssert dt => Sys2Proof.Machine.execResetBAssert dt s
  | .resetBRelease dt cab boot => Sys2Proof.Machine.execResetBRelease dt cab boot s
  | .perstBAssert dt => Sys2Proof.Machine.execPerstBAssert dt s
  | .perstBRelease dt => Sys2Proof.Machine.execPerstBRelease dt s
  | .pcieLinkDownTimeout dt => Sys2Proof.Machine.execPcieLinkDownTimeout dt s
  | .pf0Flr dt => Sys2Proof.Machine.execPf0Flr dt s
  | .pf1Flr dt => Sys2Proof.Machine.execPf1Flr dt s
  | .intlkTrip dt => Sys2Proof.Machine.execIntlkTrip dt s
  | .intlkLowDuringTrip dt len => Sys2Proof.Machine.execIntlkLowDuringTrip dt len s
  | .intlkRelease dt => Sys2Proof.Machine.execIntlkRelease dt s
  | .boundaryScanForce dt instr => Sys2Proof.Machine.execBoundaryScanForce dt instr s
  | .tailDoorbell dt ring value pf1 aligned => Sys2Proof.Machine.execTailDoorbell dt ring value pf1 aligned s
  | .cqHeadDoorbell dt ring value pf1 aligned => Sys2Proof.Machine.execCqHeadDoorbell dt ring value pf1 aligned s
  | .ledgerHeadDoorbell dt value pf1 aligned => Sys2Proof.Machine.execLedgerHeadDoorbell dt value pf1 aligned s
  | .descriptorFetch dt slot cacheBad => Sys2Proof.Machine.execDescriptorFetch dt slot cacheBad s
  | .completionPost dt ring bad => Sys2Proof.Machine.execCompletionPost dt ring bad s
  | .ledgerDeliver dt count pf1 lost => Sys2Proof.Machine.execLedgerDeliver dt count pf1 lost s
  | .coalesceTimer dt ring => Sys2Proof.Machine.execCoalesceTimer dt ring s
  | .darkNow dt heads domain pf1 => Sys2Proof.Machine.execDarkNow dt heads domain pf1 s
  | .darkRamp dt heads domain => Sys2Proof.Machine.execDarkRamp dt heads domain s
  | .stopHeads dt heads domain => Sys2Proof.Machine.execStopHeads dt heads domain s
  | .haltRings dt heads domain => Sys2Proof.Machine.execHaltRings dt heads domain s
  | .resumeRings dt heads domain => Sys2Proof.Machine.execResumeRings dt heads domain s
  | .stopIngest dt heads domain => Sys2Proof.Machine.execStopIngest dt heads domain s
  | .ucwRejected dt word pf1 => Sys2Proof.Machine.execUcwRejected dt word pf1 s
  | .ucwAction dt action => Sys2Proof.Machine.execUcwAction dt action s
  | .ucwStatRead dt => Sys2Proof.Machine.execUcwStatRead dt s
  | .setupLock dt => Sys2Proof.Machine.execSetupLock dt s
  | .sqEnable dt ring pf1 => Sys2Proof.Machine.execSqEnable dt ring pf1 s
  | .sqDisable dt ring pf1 => Sys2Proof.Machine.execSqDisable dt ring pf1 s
  | .cqEnable dt ring pf1 => Sys2Proof.Machine.execCqEnable dt ring pf1 s
  | .cqDisable dt ring pf1 => Sys2Proof.Machine.execCqDisable dt ring pf1 s
  | .ledgerRingEnable dt pf1 => Sys2Proof.Machine.execLedgerRingEnable dt pf1 s
  | .registerWrite dt offset value pf1 => Sys2Proof.Machine.execRegisterWrite dt offset value pf1 s
  | .pairLoRead dt offset pf1 => Sys2Proof.Machine.execPairLoRead dt offset pf1 s
  | .bar4Read dt addr len => Sys2Proof.Machine.execBar4Read dt addr len s
  | .bar4Write dt addr bytes poisoned => Sys2Proof.Machine.execBar4Write dt addr bytes poisoned s
  | .bar4DiscardReport dt => Sys2Proof.Machine.execBar4DiscardReport dt s
  | .nop dt d => Sys2Proof.Machine.execNop dt d s
  | .ledgerMark dt d => Sys2Proof.Machine.execLedgerMark dt d s
  | .nvmWriteBank dt d buf => Sys2Proof.Machine.execNvmWriteBank dt d buf s
  | .cabSelect dt d => Sys2Proof.Machine.execCabSelect dt d s
  | .ptpCfg dt d => Sys2Proof.Machine.execPtpCfg dt d s
  | .stampRead dt d => Sys2Proof.Machine.execStampRead dt d s
  | .ptpMessage dt m => Sys2Proof.Machine.execPtpMessage dt m s
  | .slewDone dt => Sys2Proof.Machine.execSlewDone dt s
  | .announceTimeout dt => Sys2Proof.Machine.execAnnounceTimeout dt s
  | .flowOpen dt d => Sys2Proof.Machine.execFlowOpen dt d s
  | .flowClose dt d => Sys2Proof.Machine.execFlowClose dt d s
  | .hostPush dt d => Sys2Proof.Machine.execHostPush dt d s
  | .ethPacket dt port p => Sys2Proof.Machine.execEthPacket dt port p s
  | .ethArpIcmp dt port addr arp => Sys2Proof.Machine.execEthArpIcmp dt port addr arp s
  | .packetGroupEnd dt ctx => Sys2Proof.Machine.execPacketGroupEnd dt ctx s
  | .frameDeadline dt ctx => Sys2Proof.Machine.execFrameDeadline dt ctx s
  | .flowStall dt ctx => Sys2Proof.Machine.execFlowStall dt ctx s
  | .flowFallback dt ctx => Sys2Proof.Machine.execFlowFallback dt ctx s
  | .pathLost dt ctx secondary => Sys2Proof.Machine.execPathLost dt ctx secondary s
  | .dpLine dt sink l => Sys2Proof.Machine.execDpLine dt sink l s
  | .dpLinkUp dt sink rate lanes => Sys2Proof.Machine.execDpLinkUp dt sink rate lanes s
  | .dpLinkLost dt sink => Sys2Proof.Machine.execDpLinkLost dt sink s
  | .dpAuxTransaction dt sink addr len edid => Sys2Proof.Machine.execDpAuxTransaction dt sink addr len edid s
  | .flowCountersClear dt => Sys2Proof.Machine.execFlowCountersClear dt s
  | .exhRegister dt d => Sys2Proof.Machine.execExhRegister dt d s
  | .exhFree dt d => Sys2Proof.Machine.execExhFree dt d s
  | .exhWrite dt d => Sys2Proof.Machine.execExhWrite dt d s
  | .exhRead dt d => Sys2Proof.Machine.execExhRead dt d s
  | .admQuery dt d => Sys2Proof.Machine.execAdmQuery dt d s
  | .transferDone dt ring tag buf => Sys2Proof.Machine.execTransferDone dt ring tag buf s
  | .retireFence dt head => Sys2Proof.Machine.execRetireFence dt head s
  | .headConfig dt d buf => Sys2Proof.Machine.execHeadConfig dt d buf s
  | .headRelease dt d => Sys2Proof.Machine.execHeadRelease dt d s
  | .layerSet dt d => Sys2Proof.Machine.execLayerSet dt d s
  | .commit dt d => Sys2Proof.Machine.execCommit dt d s
  | .groupCommit dt d => Sys2Proof.Machine.execGroupCommit dt d s
  | .vitrineSet dt d => Sys2Proof.Machine.execVitrineSet dt d s
  | .vitrineLoad dt d => Sys2Proof.Machine.execVitrineLoad dt d s
  | .vitrineMgmtSet dt key payload => Sys2Proof.Machine.execVitrineMgmtSet dt key payload s
  | .vitrineStatusRead dt => Sys2Proof.Machine.execVitrineStatusRead dt s
  | .vitrineLockoutEnd dt => Sys2Proof.Machine.execVitrineLockoutEnd dt s
  | .composeStartEvent dt head bad lbErr => Sys2Proof.Machine.execComposeStartEvent dt head bad lbErr s
  | .groupReady dt gid src e => Sys2Proof.Machine.execGroupReady dt gid src e s
  | .groupDecision dt gid => Sys2Proof.Machine.execGroupDecision dt gid s
  | .groupGo dt gid frame => Sys2Proof.Machine.execGroupGo dt gid frame s
  | .groupAbandoned dt gid => Sys2Proof.Machine.execGroupAbandoned dt gid s
  | .cmpClrLate dt head => Sys2Proof.Machine.execCmpClrLate dt head s
  | .cmpClrGap dt head => Sys2Proof.Machine.execCmpClrGap dt head s
  | .coefLoad dt d => Sys2Proof.Machine.execCoefLoad dt d s
  | .recipeLoad dt d buf => Sys2Proof.Machine.execRecipeLoad dt d buf s
  | .ditherLoad dt d => Sys2Proof.Machine.execDitherLoad dt d s
  | .pressStartEvent dt head errs => Sys2Proof.Machine.execPressStartEvent dt head errs s
  | .pressFrameDone dt head errs => Sys2Proof.Machine.execPressFrameDone dt head errs s
  | .prsClrSlack dt head => Sys2Proof.Machine.execPrsClrSlack dt head s
  | .prsClrDark dt head => Sys2Proof.Machine.execPrsClrDark dt head s
  | .motionCfg dt d => Sys2Proof.Machine.execMotionCfg dt d s
  | .vectorLoad dt d => Sys2Proof.Machine.execVectorLoad dt d s
  | .surveyFieldDone dt head => Sys2Proof.Machine.execSurveyFieldDone dt head s
  | .motClrMiss dt head => Sys2Proof.Machine.execMotClrMiss dt head s
  | .portConfig dt d => Sys2Proof.Machine.execPortConfig dt d s
  | .portPark dt d => Sys2Proof.Machine.execPortPark dt d s
  | .caveEnter dt d => Sys2Proof.Machine.execCaveEnter dt d s
  | .caveExit dt d => Sys2Proof.Machine.execCaveExit dt d s
  | .retCredit dt port limit => Sys2Proof.Machine.execRetCredit dt port limit s
  | .retNak dt port psn reason => Sys2Proof.Machine.execRetNak dt port psn reason s
  | .retLaneLock dt port lock aligned bip => Sys2Proof.Machine.execRetLaneLock dt port lock aligned bip s
  | .retCaps dt port page data => Sys2Proof.Machine.execRetCaps dt port page data s
  | .retStatus dt port state flags frame => Sys2Proof.Machine.execRetStatus dt port state flags frame s
  | .returnMessageBad dt port => Sys2Proof.Machine.execReturnMessageBad dt port s
  | .laneLockTimeout dt port lane => Sys2Proof.Machine.execLaneLockTimeout dt port lane s
  | .portTrainTimeout dt port => Sys2Proof.Machine.execPortTrainTimeout dt port s
  | .returnSilent dt port => Sys2Proof.Machine.execReturnSilent dt port s
  | .loadStart dt port frame order bad => Sys2Proof.Machine.execLoadStart dt port frame order bad s
  | .slotFlip dt head frame seq order => Sys2Proof.Machine.execSlotFlip dt head frame seq order s
  | .portIdleTimer dt port => Sys2Proof.Machine.execPortIdleTimer dt port s
  | .portStatusTimer dt port => Sys2Proof.Machine.execPortStatusTimer dt port s
  | .plkClr dt port => Sys2Proof.Machine.execPlkClr dt port s
  | .scanConfig dt d => Sys2Proof.Machine.execScanConfig dt d s
  | .scanProfileLoad dt d => Sys2Proof.Machine.execScanProfileLoad dt d s
  | .scanPhaseEdge dt head => Sys2Proof.Machine.execScanPhaseEdge dt head s
  | .scanPhaseLost dt head => Sys2Proof.Machine.execScanPhaseLost dt head s
  | .scanPass dt head bad => Sys2Proof.Machine.execScanPass dt head bad s
  | .scnClr dt head => Sys2Proof.Machine.execScnClr dt head s
  | .solverCfg dt d => Sys2Proof.Machine.execSolverCfg dt d s
  | .calLoad dt d buf => Sys2Proof.Machine.execCalLoad dt d buf s
  | .calCorrect dt d => Sys2Proof.Machine.execCalCorrect dt d s
  | .solveDone dt head readErr => Sys2Proof.Machine.execSolveDone dt head readErr s
  | .clrLimitedClear dt head => Sys2Proof.Machine.execClrLimitedClear dt head s
  | .loopSet dt d => Sys2Proof.Machine.execLoopSet dt d s
  | .chanEnable dt d => Sys2Proof.Machine.execChanEnable dt d s
  | .coefWrite dt d => Sys2Proof.Machine.execCoefWrite dt d s
  | .loopSample dt chan ys dist sp sense memErr => Sys2Proof.Machine.execLoopSample dt chan ys dist sp sense memErr s
  | .spSafe dt chan => Sys2Proof.Machine.execSpSafe dt chan s
  | .aoutUpdate dt chan => Sys2Proof.Machine.execAoutUpdate dt chan s
  | .rampEnd dt chan => Sys2Proof.Machine.execRampEnd dt chan s
  | .aoutRangeWrite dt chan bipolar => Sys2Proof.Machine.execAoutRangeWrite dt chan bipolar s
  | .gleChClr dt chan => Sys2Proof.Machine.execGleChClr dt chan s
  | .setpointCfg dt d => Sys2Proof.Machine.execSetpointCfg dt d s
  | .modeSet dt d => Sys2Proof.Machine.execModeSet dt d s
  | .inject dt d => Sys2Proof.Machine.execInject dt d s
  | .capture dt d => Sys2Proof.Machine.execCapture dt d s
  | .gleSpClr dt chan => Sys2Proof.Machine.execGleSpClr dt chan s
  | .freqSet dt d => Sys2Proof.Machine.execFreqSet dt d s
  | .hbmFreqMove dt => Sys2Proof.Machine.execHbmFreqMove dt s
  | .hbmFreqChanged dt => Sys2Proof.Machine.execHbmFreqChanged dt s
  | .refreshDue dt stack pc queued => Sys2Proof.Machine.execRefreshDue dt stack pc queued s
  | .hbmRdWindow dt => Sys2Proof.Machine.execHbmRdWindow dt s
  | .memoryRequest dt r => Sys2Proof.Machine.execMemoryRequest dt r s
  | .hbmRdNeighbour dt => Sys2Proof.Machine.execHbmRdNeighbour dt s
  | .hbmParityFail dt stack pc cause cmd => Sys2Proof.Machine.execHbmParityFail dt stack pc cause cmd s
  | .hbmDiagDone dt r => Sys2Proof.Machine.execHbmDiagDone dt r s
  | .hbmSpared dt unreadable => Sys2Proof.Machine.execHbmSpared dt unreadable s
  | .channelSpare dt d => Sys2Proof.Machine.execChannelSpare dt d s
  | .hbmCfgWrite dt value => Sys2Proof.Machine.execHbmCfgWrite dt value s
  | .hbmClr dt => Sys2Proof.Machine.execHbmClr dt s
  | .trnHelper dt d => Sys2Proof.Machine.execTrnHelper dt d s
  | .trnSessionDone dt stack pc steps pass report => Sys2Proof.Machine.execTrnSessionDone dt stack pc steps pass report s
  | .regionCfg dt d => Sys2Proof.Machine.execRegionCfg dt d s
  | .archiveReady dt index => Sys2Proof.Machine.execArchiveReady dt index s
  | .errCounts dt d => Sys2Proof.Machine.execErrCounts dt d s
  | .bucketLeak dt => Sys2Proof.Machine.execBucketLeak dt s
  | .scrubRead dt region offset err => Sys2Proof.Machine.execScrubRead dt region offset err s
  | .eccClr dt => Sys2Proof.Machine.execEccClr dt s
  | .sensorReading dt sensor temp fault => Sys2Proof.Machine.execSensorReading dt sensor temp fault s
  | .thermWarnClear dt zone => Sys2Proof.Machine.execThermWarnClear dt zone s
  | .throttleDecay dt zone => Sys2Proof.Machine.execThrottleDecay dt zone s
  | .throttleRecover dt zone => Sys2Proof.Machine.execThrottleRecover dt zone s
  | .thermLatchClear dt => Sys2Proof.Machine.execThermLatchClear dt s
  | .thmRead dt d => Sys2Proof.Machine.execThmRead dt d s
  | .catConfig dt d buf => Sys2Proof.Machine.execCatConfig dt d buf s
  | .frameLock dt d => Sys2Proof.Machine.execFrameLock dt d s
  | .catLinkPacket dt port p => Sys2Proof.Machine.execCatLinkPacket dt port p s
  | .catHello dt port p => Sys2Proof.Machine.execCatHello dt port p s
  | .catPacketBad dt port p => Sys2Proof.Machine.execCatPacketBad dt port p s
  | .catPacketForward dt port p => Sys2Proof.Machine.execCatPacketForward dt port p s
  | .mbReq dt port p => Sys2Proof.Machine.execMbReq dt port p s
  | .mbResp dt port p => Sys2Proof.Machine.execMbResp dt port p s
  | .catUcwRequest dt port p => Sys2Proof.Machine.execCatUcwRequest dt port p s
  | .catUcwReport dt port p => Sys2Proof.Machine.execCatUcwReport dt port p s
  | .ucwDomainTimeout dt => Sys2Proof.Machine.execUcwDomainTimeout dt s
  | .catHostLost dt port p => Sys2Proof.Machine.execCatHostLost dt port p s
  | .fwdDesc dt port p => Sys2Proof.Machine.execFwdDesc dt port p s
  | .fwdCompl dt port p => Sys2Proof.Machine.execFwdCompl dt port p s
  | .dmaRdReq dt port p buf => Sys2Proof.Machine.execDmaRdReq dt port p buf s
  | .dmaRdData dt port p => Sys2Proof.Machine.execDmaRdData dt port p s
  | .dmaWr dt port p => Sys2Proof.Machine.execDmaWr dt port p s
  | .catLedger dt port p => Sys2Proof.Machine.execCatLedger dt port p s
  | .timeMark dt port exchange answer => Sys2Proof.Machine.execTimeMark dt port exchange answer s
  | .timeReq dt port p => Sys2Proof.Machine.execTimeReq dt port p s
  | .timeResp dt port p => Sys2Proof.Machine.execTimeResp dt port p s
  | .timeExchange dt => Sys2Proof.Machine.execTimeExchange dt s
  | .timeRespTimeout dt => Sys2Proof.Machine.execTimeRespTimeout dt s
  | .catLockPacket dt port p => Sys2Proof.Machine.execCatLockPacket dt port p s
  | .lockAnnounceTimer dt head => Sys2Proof.Machine.execLockAnnounceTimer dt head s
  | .lockRequestTimeout dt head => Sys2Proof.Machine.execLockRequestTimeout dt head s
  | .frameLockLost dt head => Sys2Proof.Machine.execFrameLockLost dt head s
  | .catTrainTimeout dt port => Sys2Proof.Machine.execCatTrainTimeout dt port s
  | .catTrainRetry dt port => Sys2Proof.Machine.execCatTrainRetry dt port s
  | .catLinkDown dt port cause => Sys2Proof.Machine.execCatLinkDown dt port cause s
  | .helloTimer dt => Sys2Proof.Machine.execHelloTimer dt s
  | .catFollowerLost dt device => Sys2Proof.Machine.execCatFollowerLost dt device s
  | .followHoldExpiry dt => Sys2Proof.Machine.execFollowHoldExpiry dt s
  | .mailboxGo dt write => Sys2Proof.Machine.execMailboxGo dt write s
  | .mailboxTimeout dt => Sys2Proof.Machine.execMailboxTimeout dt s
  | .testArmed dt => Sys2Proof.Machine.execTestArmed dt s
  | .testDisarmed dt => Sys2Proof.Machine.execTestDisarmed dt s
  | .faultSet dt d => Sys2Proof.Machine.execFaultSet dt d s
  | .faultRulesCleared dt => Sys2Proof.Machine.execFaultRulesCleared dt s
  | .faultReorderRelease dt point rule => Sys2Proof.Machine.execFaultReorderRelease dt point rule s
  | .faultDelayRelease dt point rule => Sys2Proof.Machine.execFaultDelayRelease dt point rule s
  | .wearReport dt d => Sys2Proof.Machine.execWearReport dt d s
  | .wearRecordSave dt => Sys2Proof.Machine.execWearRecordSave dt s
  | .fwWriteSlot dt d image readErr => Sys2Proof.Machine.execFwWriteSlot dt d image readErr s
  | .blPin dt d => Sys2Proof.Machine.execBlPin dt d s
  | .pulseEdge dt pulse counted => Sys2Proof.Machine.execPulseEdge dt pulse counted s
  | .auxFreeSample dt aux code => Sys2Proof.Machine.execAuxFreeSample dt aux code s
  | .catLaneLock dt port lock aligned => Sys2Proof.Machine.execCatLaneLock dt port lock aligned s
  | .catLaneLockTimeout dt port lane => Sys2Proof.Machine.execCatLaneLockTimeout dt port lane s
  | .catAckTimer dt port => Sys2Proof.Machine.execCatAckTimer dt port s
  | .delayReqSend dt => Sys2Proof.Machine.execDelayReqSend dt s
  | .portParkTimeout dt port => Sys2Proof.Machine.execPortParkTimeout dt port s
  | .bankWriteDone dt badSectors => Sys2Proof.Machine.execBankWriteDone dt badSectors s
  | .slotWriteDone dt badSectors => Sys2Proof.Machine.execSlotWriteDone dt badSectors s
  | .pwrStateAt dt => Sys2Proof.Machine.execPwrStateAt dt s
  | .hostTransferDone dt ring tag buf => Sys2Proof.Machine.execHostTransferDone dt ring tag buf s
  | .mgmtBusTransaction dt addr pecOk op => Sys2Proof.Machine.execMgmtBusTransaction dt addr pecOk op s
  | .pageIdleClose dt stack pc bank => Sys2Proof.Machine.execPageIdleClose dt stack pc bank s
  | .pcieLinkChange dt up width speed => Sys2Proof.Machine.execPcieLinkChange dt up width speed s
  | .ethLinkChange dt port link fec => Sys2Proof.Machine.execEthLinkChange dt port link fec s

end Sys2Proof.Machine
end

