-- ==== Sys2Proof/Safety.lean ====
section
/-!
DEFINITION. What statements about the block say of a state: its memory in canonical form, a descriptor that runs, and the
parts of the state that a command leaves.
-/

namespace Sys2Proof.Machine

/-- The HBM contents, bytes and ECC lane bits, are in canonical form. -/
def State.memOk (s : State) : Prop := Memory.wf s.hbm.cells ∧ Memory.wf s.hbm.lanes

/-! ### Descriptors that run -/

/-- A descriptor, as the module holds it, that is the next of its ring, waits for no FENCE and passes checks 2 to 8 of Table
5.4: its operation acts. -/
def Accepted (o : OpSpec) (bad : Desc → State → Option (List Byte)) (tooLong : Desc → State → Bool) (d : Desc)
    (s : State) : Prop :=
  beginsAs o d s = some d ∧
    headCheck o (d.seen o) (begun d (d.seen o) s) = none ∧
    objectCheck o (d.seen o) (bad (d.seen o) (begun d (d.seen o) s)) (tooLong (d.seen o) (begun d (d.seen o) s))
      (begun d (d.seen o) s) = none

/-- A descriptor command whose descriptor is accepted under its operation's specification; false of other commands. -/
def Runs (c : Sys2Proof.Instr) (s : State) : Prop :=
  match c with
  | .catConfig dt d _ => Accepted (specBuf 0x1401 false (span 24 63)) noBad (fun d _ => decide (2112 < d.length)) d (tick dt s)
  | .caveEnter dt d => Accepted (specI0 0x0B02 (span 20 63)) caveBad noOver d (tick dt s)
  | .caveExit dt d => Accepted (specI0 0x0B03 (span 17 63)) (headBad 16) noOver d (tick dt s)
  | .cabSelect dt d =>
      Accepted (specAdm 0x0302 (span 18 23 ++ span 32 63)) (fun d _ => badField [(decide (7 < d.p8 16), 16)]) noOver d (tick dt s)
  | .regionCfg dt d => Accepted (specI0 0x1201 (span 18 23 ++ span 48 63)) noBad noOver d (tick dt s)
  | .errCounts dt d => Accepted (specI0 0x1202 (span 18 63)) errCountsBad noOver d (tick dt s)
  | .exhRegister dt d => Accepted (specI0 0x0501 (span 20 23 ++ span 46 47 ++ span 52 63)) exhRegisterBad noOver d (tick dt s)
  | .exhFree dt d => Accepted (specI0 0x0502 (span 19 63)) exhFreeBad noOver d (tick dt s)
  | .exhWrite dt d => Accepted (xferSpec 0x0503 d) xferBad xferOver d (tick dt s)
  | .exhRead dt d => Accepted (xferSpec 0x0504 d) xferBad xferOver d (tick dt s)
  | .admQuery dt d => Accepted (specI0 0x0505 (span 18 63)) admQueryBad noOver d (tick dt s)
  | .faultSet dt d => Accepted (specI0 0x1501 []) noBad noOver d (tick dt s)
  | .frameLock dt d => Accepted (specI0 0x1402 (span 23 63)) frameLockBad noOver d (tick dt s)
  | .loopSet dt d => Accepted (specAdm 0x0E01 []) loopBad noOver d (tick dt s)
  | .chanEnable dt d => Accepted (specI0 0x0E02 []) noBad noOver d (tick dt s)
  | .coefWrite dt d => Accepted (specI0 0x0E03 (coefZero d)) coefWriteBad noOver d (tick dt s)
  | .freqSet dt d => Accepted (specI3 0x1001 []) noBad noOver d (tick dt s)
  | .channelSpare dt d => Accepted (specI3 0x1002 (span 19 63)) spareBad noOver d (tick dt s)
  | .headConfig dt d _ => Accepted ⟨0x0601, false, false, true, true, true, span 24 63⟩ noBad headConfigOver d (tick dt s)
  | .headRelease dt d => Accepted (specI0 0x0602 (span 17 63)) (headBad 16) noOver d (tick dt s)
  | .flowOpen dt d => Accepted (specAdm 0x0401 []) flowOpenBad noOver d (tick dt s)
  | .flowClose dt d => Accepted (specI0 0x0402 (span 16 63)) flowBad noOver d (tick dt s)
  | .hostPush dt d => Accepted (specBuf 0x0403 false (span 29 63)) pushBad pushOver d (tick dt s)
  | .layerSet dt d => Accepted (specAdm 0x0701 []) layerBad noOver d (tick dt s)
  | .coefLoad dt d => Accepted (specBuf 0x0801 false (span 28 63)) coefBad coefOver d (tick dt s)
  | .commit dt d => Accepted (specI0 0x0702 (span 17 19 ++ span 24 63)) (headBad 16) noOver d (tick dt s)
  | .groupCommit dt d => Accepted (specI0 0x0703 (19 :: span 28 63)) groupBad noOver d (tick dt s)
  | .motionCfg dt d => Accepted (specAdm 0x0A01 []) motionBad noOver d (tick dt s)
  | .vectorLoad dt d => Accepted (specBuf 0x0A02 false (span 25 27 ++ span 32 63)) vectorBad vectorOver d (tick dt s)
  | .nvmWriteBank dt d _ =>
      Accepted (specBuf 0x0301 false (span 24 63)) noBad (fun d _ => decide (1048608 < d.length)) d (tick dt s)
  | .fwWriteSlot dt d _ _ =>
      Accepted (specBuf 0x1602 false (span 25 63)) (fun d _ => badField [(decide (1 < d.p8 24), 24)]) noOver d (tick dt s)
  | .blPin dt d => Accepted (specI3 0x1603 (span 18 63)) noBad noOver d (tick dt s)
  | .wearReport dt d =>
      Accepted (specBuf 0x1601 false (span 24 63)) (fun d _ => badField [(decide (d.length < 256), 8)]) (fun d _ => decide (256 < d.length)) d (tick dt s)
  | .portConfig dt d => Accepted (specAdm 0x0B01 []) portBad noOver d (tick dt s)
  | .portPark dt d => Accepted (specI0 0x0B04 (span 18 63)) portParkBad noOver d (tick dt s)
  | .pwrSetState dt d => Accepted (specI0 0x0201 []) noBad noOver d (tick dt s)
  | .recipeLoad dt d _ => Accepted ⟨0x0901, false, false, true, true, true, 25 :: span 32 63⟩ recipeBad recipeOver d (tick dt s)
  | .ditherLoad dt d => Accepted (specBuf 0x0902 false (span 26 63)) ditherBad ditherOver d (tick dt s)
  | .nop dt d => Accepted specHost noBad noOver d (tick dt s)
  | .ledgerMark dt d => Accepted markSpec noBad noOver d (tick dt s)
  | .scanConfig dt d => Accepted (specAdm 0x0C01 []) scanBad noOver d (tick dt s)
  | .scanProfileLoad dt d => Accepted (specBuf 0x0C02 false (25 :: span 28 63)) profBad profOver d (tick dt s)
  | .setpointCfg dt d => Accepted (specI0 0x0F01 []) noBad noOver d (tick dt s)
  | .modeSet dt d => Accepted (specI0 0x0F02 []) noBad noOver d (tick dt s)
  | .inject dt d => Accepted (specI0 0x0F03 []) noBad noOver d (tick dt s)
  | .capture dt d => Accepted (specAdm 0x0F04 []) captureBad noOver d (tick dt s)
  | .solverCfg dt d => Accepted (specI0 0x0D01 []) (headBad 16) noOver d (tick dt s)
  | .calLoad dt d _ => Accepted (specBuf 0x0D02 true (span 25 63)) (headBad 24) calOver d (tick dt s)
  | .calCorrect dt d => Accepted (specI0 0x0D03 (span 36 63)) correctBad noOver d.desc (tick dt s)
  | .thmRead dt d => Accepted (specI0 0x1301 (span 17 63)) thmReadBad noOver d (tick dt s)
  | .ptpCfg dt d => Accepted (specI3 0x1701 (span 24 63)) ptpBad noOver d (tick dt s)
  | .stampRead dt d => Accepted (specI0 0x1702 []) noBad noOver d (tick dt s)
  | .trnHelper dt d =>
      Accepted ⟨0x1101, false, false, false, false, true, []⟩ noBad (fun d _ => decide (helperLength d < d.length)) d (tick dt s)
  | .vitrineSet dt d => Accepted (specVit 0x0710 false ([22, 23] ++ span 28 63)) vitrineBad noOver d (tick dt s)
  | .vitrineLoad dt d => Accepted (specVit 0x0711 true ([26, 27] ++ span 32 63)) vitLoadBad vitLoadOver d (tick dt s)
  | _ => False

/-- No fault rule is set and no packet held: packets pass every injection point untouched (R528). -/
def NoFaults (s : State) : Prop := s.fault.rules = [] ∧ s.fault.old = [] ∧ s.fault.held = []

/-- A Catum packet for this module that a READY port takes in order (R505 to R510): no rule or held packet at its point, the
layout of Table 22.8, the LSN expected, another module's DEVICE. -/
def Arrives (port : Nat) (p : CatPkt) (s : State) : Prop :=
  NoFaults s ∧ (catOf s port).state = .ready ∧ catGood p = true ∧ p.type_ ≠ 0 ∧ p.hops < 256 ∧ p.lsn < 65536 ∧
    p.lsn = (catOf s port).lsnRx ∧ p.tag < 2 ^ 32 ∧ p.src ≠ catDevice s ∧ p.dest = catDevice s

/-- The state in which a port has taken a packet, before it acts: LSN and credit count on (R507, R508), its source is learned
(R510), and a follower sees whether it has a route to its lead (R517). -/
def taken (port : Nat) (p : CatPkt) (s : State) : State :=
  checkLead (catLearn port p.src (modCat port (fun c => { c with
    lsnRx := (c.lsnRx + 1) % 65536, nakSent := false
    rxUnits := upd c.rxUnits (p.vc % 4) fun n => (n + p.units) % 65536 }) s))

/-! ### What a command leaves

Each says that `t` is `s` but for the parts it names. -/

/-- No register changed but IRQ_CAUSE of either function (R136) and OVF of a completion ring (R130). -/
def RegsStay (s t : State) : Prop :=
  ∀ k, k ≠ regIrqCause → k ≠ regIrqCause + pf1Base → (∀ c, k ≠ 0x0010300C + 32 * c) → rawReg t k = rawReg s k

/-- A record (R134, R136, R157): time, the ledger but for its saved records, the cause registers, the outputs.  With time
goes the Keeper's place within its ticks (R148). -/
def OnlyRecords (s t : State) : Prop :=
  (∀ k, k ≠ regIrqCause → k ≠ regIrqCause + pf1Base → rawReg t k = rawReg s k) ∧
  t = { s with now := t.now, time := { s.time with keeperPos := t.time.keeperPos }, meter := t.meter,
               ledger := { t.ledger with saved := s.ledger.saved }, regs := t.regs, out := t.out }

/-- A completion or notice (R129, R130): the same with OVF of completion rings, the descriptors fetched and begun, the
stamps of first completions, those a FENCE held back (R124), those whose completion is discarded (R144), the completion rings, and for a forwarded
descriptor the Catum ports with the fault rules its packet meets (R513). -/
def OnlyReply (s t : State) : Prop :=
  RegsStay s t ∧
  t = { s with now := t.now, time := { s.time with keeperPos := t.time.keeperPos }, meter := t.meter,
               ledger := { t.ledger with saved := s.ledger.saved }, regs := t.regs, out := t.out,
               host := { s.host with fetched := t.host.fetched, begun := t.host.begun, cq := t.host.cq,
                                     firsts := t.host.firsts, fences := t.host.fences, dropped := t.host.dropped },
               catum := { s.catum with ports := t.catum.ports, reads := t.catum.reads },
               fault := { t.fault with armed := s.fault.armed } }

end Sys2Proof.Machine
end

