-- ==== Sys2Proof/Certificates/Slice0/Obligations.lean ====
section
/-!
DEFINITION. The statements of this row about the BZ4832, for the provers: the queue and the whole machine, then the
commands family by family, each with what it does and what it leaves.
-/

open Sys2Proof Sys2Proof.Machine

/-! ### The queue, the whole machine -/

/-- A step runs the command in front. The block takes the command at the front of its queue and carries it out on the state
with the queue's rest; on an empty queue it idles (log 1). -/
def Obligations.StepRunsTheFrontCommand : Prop :=
  (∀ c rest s, s.pending = c :: rest → step s = exec c { s with pending := rest }) ∧
    ∀ s : State, s.pending = [] → step s = .next s

/-- Every command answers a next state and leaves the queue of waiting commands alone. No command stops the block. Every
command answers a next state from every state: no fault, no refusal. A command leaves the queue of waiting commands alone.
Whatever next state a command answers, the queue is the one it found. -/
def Obligations.EveryCommandAnswersAndLeavesTheQueue : Prop :=
  (∀ c s, ∃ t, exec c s = .next t) ∧
  (∀ c s t, exec c s = .next t → t.pending = s.pending)

/-- The stack memory is canonical at reset. At reset no byte of HBM is listed, the queue is empty, and the module has its 8
heads, 16 Plane Link ports, 48 channels with 48 set-points, and 256 submission and 256 completion rings. -/
def Obligations.ResetIsWellFormed : Prop :=
  State.reset.memOk ∧ State.reset.pending = [] ∧ State.reset.heads.length = 8 ∧ State.reset.ports.length = 16 ∧
    State.reset.gheler.chans.length = 48 ∧ State.reset.gheler.sps.length = 48 ∧ State.reset.host.sq.length = 256 ∧
    State.reset.host.cq.length = 256

/-- Every step keeps the canonical form of the stack memory. From a state whose HBM contents are listed by rising address
with no zero byte, a step answers such a state. -/
def Obligations.StepKeepsMemoryForm : Prop :=
  ∀ s t : State, s.memOk → step s = .next t → t.memOk

/-- Every step keeps the module's parts. From a state with 8 heads, 16 ports, 48 channels and set-points, and 256 rings of
each kind, a step answers a state with as many. -/
def Obligations.StepKeepsTheParts : Prop :=
  ∀ s t : State, s.heads.length = 8 ∧ s.ports.length = 16 ∧ s.gheler.chans.length = 48 ∧ s.gheler.sps.length = 48 ∧
      s.host.sq.length = 256 ∧ s.host.cq.length = 256 → step s = .next t →
    t.heads.length = 8 ∧ t.ports.length = 16 ∧ t.gheler.chans.length = 48 ∧ t.gheler.sps.length = 48 ∧
      t.host.sq.length = 256 ∧ t.host.cq.length = 256

/-- A counter clear clears its counters and nothing else. Each clear of a head's, channel's, set-point's, port's, HBM's or
flow's write-only register sets the counters its field names to their cleared value (a gap or slack minimum to 0xFFFFFFFF,
PWR_VIN_MIN to PWR_VIN) and changes nothing else but the time. It states when these complete: `.cmpClrLate`, `.cmpClrGap`,
`.prsClrSlack`, `.prsClrDark`, `.motClrMiss`, `.scnClr`, `.clrLimitedClear`, `.gleChClr`, `.gleSpClr`, `.plkClr`, `.hbmClr`,
`.pwrClrMin`, `.flowCountersClear`, `.eccClr`. -/
def Obligations.ClearsClearTheirCounters : Prop :=
  ∀ (dt k : Nat) (s : State),
    exec (.cmpClrLate dt k) s = .next (modPipe k (fun p => { p with late := 0 }) (tick dt s)) ∧
    exec (.cmpClrGap dt k) s = .next (modPipe k (fun p => { p with gapMin := 0xFFFFFFFF }) (tick dt s)) ∧
    exec (.prsClrSlack dt k) s = .next (modPress k (fun p => { p with slackMin := 0xFFFFFFFF }) (tick dt s)) ∧
    exec (.prsClrDark dt k) s = .next (modPress k (fun p => { p with darkTiles := 0 }) (tick dt s)) ∧
    exec (.motClrMiss dt k) s = .next (modMotion k (fun m => { m with miss := 0 }) (tick dt s)) ∧
    exec (.scnClr dt k) s = .next (modScan k (fun c => { c with cut := 0, lost := 0 }) (tick dt s)) ∧
    exec (.clrLimitedClear dt k) s = .next (modSolver k (fun c => { c with limitedN := 0 }) (tick dt s)) ∧
    exec (.gleChClr dt k) s = .next (modChan k (fun c => { c with sat := 0, clampHit := 0 }) (tick dt s)) ∧
    exec (.gleSpClr dt k) s = .next (modSp k (fun p => { p with lost := 0 }) (tick dt s)) ∧
    exec (.plkClr dt k) s = .next (modPort k (fun o => { o with
      nak := 0, retry := 0, stale := 0, subst := 0, retErr := 0, bip := List.replicate 9 0 }) (tick dt s)) ∧
    exec (.hbmClr dt) s = .next { tick dt s with
      hbm := { s.hbm with urg3 := List.replicate 8 0, throt := List.replicate 8 0 } } ∧
    exec (.pwrClrMin dt) s = .next { tick dt s with power := { s.power with vinMin := s.power.vin } } ∧
    exec (.flowCountersClear dt) s = .next (modAnyFlow (regField s 0x00201000 0 10)
      (fun f => { f with incomplete := 0, whey := 0, midframe := 0, starved := 0, dup := 0 }) (tick dt s)) ∧
    ∃ t, exec (.eccClr dt) s = .next t ∧ t = { tick dt s with ecc := { s.ecc with regions := t.ecc.regions } } ∧
      regionCount t (regField s 0x00D00014 0 8) =
        { regionCount s (regField s 0x00D00014 0 8) with ce := 0, ue := 0, level := 0, ovf := 0 }

/-- Reads answer and leave the module as it was; a 64-bit pair reads as one value. A read answers and leaves the module as
it was. UCW_STAT answers its four fields and clears REJECTED; the status of the last Vitrine command is answered on the
management port at its address with a good check, and nothing at another; a DisplayPort AUX transaction is answered; a BAR4
read of usable, whole bytes answers them, and waits while the stacks are in self-refresh (R434); a BAR0 read that is not an
aligned word is a completer abort, and one of a register without a pair its word; a BAR2 offset but the first reads as zero.
A 64-bit pair reads as one value. A read of _LO answers the lower half and captures the upper one; the next read of _HI
answers that captured half, whatever happened to the register between them (R7). It states when these complete:
`.ucwStatRead`, `.vitrineStatusRead`, `.dpAuxTransaction`, `.bar4Read`, `.pairLoRead`. -/
def Obligations.ReadsAnswerAndChangeNothing : Prop :=
  (∀ (dt : Nat) (s : State),
     exec (.ucwStatRead dt) s = .next { tick dt s with
       host := { s.host with ucwReject := false },
       out := .read 0 (u32 (s.host.ucwAction + 256 * s.host.ucwCount + 65536 * bit (!s.host.ucwRuns.isEmpty) +
         131072 * bit s.host.ucwReject)) :: s.out } ∧
     (∀ b : BusFrame, s.power.state ≠ .p4 → b.addr = s.power.smbAddr → b.pecOk = true →
       exec (.vitrineStatusRead b) s = .next { tick b.dt s with out := .read 0xB2 (u16 s.vitKey.status) :: s.out }) ∧
     (∀ b : BusFrame, s.power.state = .p4 ∨ b.addr ≠ s.power.smbAddr ∨ b.pecOk = false →
       exec (.vitrineStatusRead b) s = .next (tick b.dt s)) ∧
     (∀ sink addr len, exec (.dpAuxTransaction dt sink addr len false) s = .next { tick dt s with
       out := .read addr (dpcdBytes s sink addr len) :: .aux sink addr len :: s.out }) ∧
     (∀ sink addr len, ∃ t, exec (.dpAuxTransaction dt sink addr len true) s = .next t ∧ t = { tick dt s with
       out := .read (0x00200400 + 512 * sink + addr) (edidBytes s sink addr (min len (512 - addr))) ::
         .aux sink addr len :: s.out }) ∧
     (∀ a n, a + n ≤ usable s → s.hbm.selfRef = false → anyFrozen s a n = false → anyBad s a n = false → fixable s a n = [] →
       exec (.bar4Read dt a n) s = .next { tick dt s with out := .read a (readHbm s a n) :: s.out }) ∧
     (∀ a n, a + n ≤ usable s → s.hbm.selfRef = true → exec (.bar4Read dt a n) s = .next { tick dt s with
       hbm := { s.hbm with host := s.hbm.host ++ [.read a n] } }) ∧
     (∀ a n, usable s < a + n → exec (.bar4Read dt a n) s = .next { tick dt s with out := .abort a :: s.out }) ∧
     (∀ off n pf1, off % 4 ≠ 0 ∨ n ≠ 4 →
       exec (.pairLoRead dt ⟨false, off, n, false⟩ pf1) s = .next { tick dt s with out := .abort off :: s.out }) ∧
     (∀ off n pf1, off ≠ 0 →
       exec (.pairLoRead dt ⟨true, off, n, false⟩ pf1) s = .next { tick dt s with out := .read off (List.replicate n 0) :: s.out }) ∧
     (∀ off, off % 4 = 0 → barOffset false off = some off → pairLo off = false → pairLo (off - 4) = false →
       exec (.pairLoRead dt ⟨false, off, 4, false⟩ false) s = .next { tick dt s with
         out := .read off (u32 (regWord (tick dt s) false off).toNat) :: s.out })) ∧
  (∀ (dt du off : Nat) (s t u : State), off % 4 = 0 → barOffset false off = some off → pairLo off = true →
     barOffset false (off + 4) = some (off + 4) → pairLo (off + 4) = false →
     exec (.pairLoRead dt ⟨false, off, 4, false⟩ false) s = .next t → u.host.hiCap = t.host.hiCap →
     t.out = .read off (u32 (regWord (tick dt s) false off).toNat) :: s.out ∧
     ∃ v, exec (.pairLoRead du ⟨false, off + 4, 4, false⟩ false) u = .next v ∧
       v.out = .read (off + 4) (u32 (regWord (tick dt s) false (off + 4)).toNat) :: u.out)

/-! ### The host interface: rings, urgent words, registers, resets (chapter 5) -/

/-- Doorbells move TAIL and HEAD of their rings, and bad ones are recorded. Doorbells move TAIL and HEAD. Awake, on an
enabled ring of the doorbell's function, an aligned new value inside the ring becomes TAIL, with the stamp its descriptors
get, or HEAD, with the instant at which a full ring was freed; a tail that repeats the present one changes nothing but the
time, and every other part stays as it was. A bad doorbell changes no ring. Unaligned, beyond the ring's SIZE or on a ring
that is not enabled, a doorbell of the ring's function only records DOORBELL_BAD with the BAR2 offset and the value, and
sets ERR_HOST; through the other function it does nothing. It states when these complete: `.tailDoorbell`,
`.cqHeadDoorbell`, `.ledgerHeadDoorbell`. -/
def Obligations.DoorbellsMoveTheirRings : Prop :=
  (∀ (dt q v : Nat) (pf1 : Bool) (s : State), s.power.state ≠ .p2 →
     (pf1 = decide (252 ≤ q) → (sqOf s q).enabled = true → v < sqSize s q →
       exec (.tailDoorbell dt q v pf1 true) s = .next (if v = (sqOf s q).tail then tick dt s else
         modSq q (fun r => { r with tail := v, stamps := r.stamps ++ [(v, (tick dt s).now)] }) (tick dt s))) ∧
     (pf1 = decide (252 ≤ q) → (cqOf s q).enabled = true → v < cqSize s q →
       exec (.cqHeadDoorbell dt q v pf1 true) s = .next (modCq q (fun r => { r with
         head := v, freedAt := if cqRoom q true (tick dt s) then r.freedAt else (tick dt s).now }) (tick dt s))) ∧
     (s.ledger.main.enabled = true → v < 2 ^ regField s 0x00100018 0 4 →
       exec (.ledgerHeadDoorbell dt v false true) s = .next { tick dt s with
         ledger := { s.ledger with main := { s.ledger.main with head := v } } }) ∧
     (s.ledger.pf1.enabled = true → v < 2 ^ regField s (0x00100018 + pf1Base) 0 4 →
       exec (.ledgerHeadDoorbell dt v true true) s = .next { tick dt s with
         ledger := { s.ledger with pf1 := { s.ledger.pf1 with head := v } } })) ∧
  (∀ (dt q v : Nat) (pf1 al : Bool) (s : State), s.power.state ≠ .p2 →
     (pf1 = decide (252 ≤ q) → (al = false ∨ sqSize s q ≤ v ∨ (sqOf s q).enabled = false) →
       exec (.tailDoorbell dt q v pf1 al) s = .next (raiseCause pf1 5 (recordAt pf1 (tick dt s).now 3 0x0505
         (u8 2 ++ u8 (bit pf1) ++ u16 (0x1000 + 16 * q) ++ u32 v) (tick dt s)))) ∧
     (pf1 = decide (252 ≤ q) → (al = false ∨ cqSize s q ≤ v ∨ (cqOf s q).enabled = false) →
       exec (.cqHeadDoorbell dt q v pf1 al) s = .next (raiseCause pf1 5 (recordAt pf1 (tick dt s).now 3 0x0505
         (u8 2 ++ u8 (bit pf1) ++ u16 (0x2000 + 16 * q) ++ u32 v) (tick dt s)))) ∧
     (pf1 ≠ decide (252 ≤ q) → exec (.tailDoorbell dt q v pf1 al) s = .next (tick dt s) ∧
       exec (.cqHeadDoorbell dt q v pf1 al) s = .next (tick dt s)))

/-- A fetch copies one descriptor; what is held for a ring is posted, vectors and records go out. A fetch copies one
descriptor. With a ring to fetch from, a slot that reads whole and operation codes of Table 5.6, HEAD passes the slot, the
ring's completion entry is taken, and the descriptor waits with the doorbell stamp of the first tail rung beyond it and the
end of any hold since (R124); a slot that cannot be read halts the ring and leaves HEAD. The hold area empties in order as
entries free, vectors and records go out. A held completion whose ring has room is written to it, one read as uncorrectable
is not; with unsent completions and COAL_TIME passed the ring's vector is sent; a ledger ring with room takes the record
that R9 puts first, and its stamp is kept for the gap report of R476. It states when these complete: `.descriptorFetch`,
`.completionPost`, `.coalesceTimer`, `.ledgerDeliver`. -/
def Obligations.FetchesAndPostsMoveDescriptorsAndCompletions : Prop :=
  (∀ (dt q : Nat) (bs : List Byte) (s : State), pickRing (tick dt s) = some q →
     (fwdOf s q = none → opcodes.contains (fieldOf (padTo 64 bs) 0 2) = true →
       (∀ e ∈ s.host.fetched, e.ring = q → opcodes.contains e.opcode = true) →
       ∃ t, exec (.descriptorFetch dt (.data bs) []) s = .next t ∧
         t.host.fetched = s.host.fetched ++ [⟨q, padTo 64 bs, slotStamp (sqOf s q) (sqSize s q),
           fetchHold q (slotStamp (sqOf s q) (sqSize s q)) (tick dt s), none⟩] ∧
         (q < s.host.sq.length → (sqOf t q).head = ((sqOf s q).head + 1) % sqSize s q) ∧
         t = { tick dt s with host := { s.host with
           fetched := t.host.fetched, sq := t.host.sq, cq := t.host.cq, rrPrio := t.host.rrPrio, rrPlain := t.host.rrPlain } }) ∧
     ∃ t, exec (.descriptorFetch dt (.error bs) []) s = .next t ∧
       (q < s.host.sq.length → (sqOf t q).halted = true ∧ (sqOf t q).head = (sqOf s q).head) ∧ OnlyRecords
         { s with host := { s.host with sq := t.host.sq } } t) ∧
  (∀ (dt c : Nat) (s : State),
     (∀ m rest, (cqOf s c).hold = m :: rest → cqRoom c m.notice s = true →
       ∃ u, u = writeComp c m (modCq c (fun r => { r with hold := rest }) (tick dt s)) ∧
         exec (.completionPost dt c []) s = .next (settleBad m.sq s.host.fetched.length u) ∧
         ((∀ e ∈ s.host.fetched, e.ring ≠ m.sq) → exec (.completionPost dt c []) s = .next u)) ∧
     (∀ m rest bad, (cqOf s c).hold = m :: rest → cqRoom c m.notice s = true → bad ≠ [] → c < s.host.cq.length →
       (∀ e ∈ s.host.fetched, e.ring ≠ m.sq) → ∃ t, exec (.completionPost dt c bad) s = .next t ∧ (cqOf t c).hold = rest ∧
         (cqOf t c).tail = (cqOf s c).tail ∧ OnlyReply { s with ecc := t.ecc } t) ∧
     (regField s (0x00103008 + 32 * c) 24 8 ≠ 0 → 0 < (cqOf s c).unsent →
       (cqOf s c).since + regField s (0x00103008 + 32 * c) 24 8 * 4000 ≤ (tick dt s).now →
       exec (.coalesceTimer dt c) s = .next (modCq c (fun r => { r with unsent := 0 }) { tick dt s with
         out := .vector (decide (252 ≤ c)) (regField s (0x00103008 + 32 * c) 4 6) :: s.out })) ∧
     (∀ r u, catRole s ≠ 2 → ledgerRoom false s = true → s.ledger.main.lost = 0 → s.ledger.startLost = 0 →
       s.ledger.main.gap = 0 → nextRec false (tick dt s) = some (r, u) →
       exec (.ledgerDeliver dt 1 false []) s =
         .next (modLedger false (fun l => { l with lastOut := r.stamp, gap := 0 }) (writeRec false r u))))

/-- Enables start and stop the rings, and a disabled ring flushes. Enables start and stop the rings. A submission ring's
enable within R120 starts it empty from slot 0, one refused sets ERR; a completion or ledger ring's starts it with PHASE 1,
its hold area kept and the entries taken of a completion ring too (R123); clearing stops fetching and clears a halt. FLUSHED
for what a cleared ring had fetched. A submission ring whose ENABLE is cleared stops, and each descriptor it has fetched but
not begun completes with FLUSHED; no other submission ring changes. It states when these complete: `.sqEnable`, `.cqEnable`,
`.cqDisable`, `.sqDisable`, `.ledgerRingEnable`. -/
def Obligations.RingsStartAndStop : Prop :=
  (∀ (dt q : Nat) (pf1 : Bool) (s : State), pf1 = decide (252 ≤ q) →
     ((sqOf s q).enabled = false → sqRefused s q = false →
       exec (.sqEnable dt q pf1) s = .next (modSq q (fun _ => ⟨true, false, false, false, 0, 0, [], 0, 0⟩)
         (tick dt s))) ∧
     ((sqOf s q).enabled = false → sqRefused s q = true →
       exec (.sqEnable dt q pf1) s = .next (modSq q (fun r => { r with err := true }) (tick dt s))) ∧
     ((cqOf s q).enabled = false → cqRefused s q = false →
       exec (.cqEnable dt q pf1) s = .next (modCq q (fun r => { Reset.compRing with
         enabled := true, hold := r.hold, taken := r.taken }) (tick dt s))) ∧
     ((∀ r < 256, (sqOf s r).enabled = true → ringCq s r ≠ q) →
       exec (.cqDisable dt q pf1) s = .next (modCq q (fun r => { r with enabled := false }) (tick dt s))) ∧
     ((∀ d ∈ s.host.fetched, d.ring ≠ q) →
       exec (.sqDisable dt q pf1) s =
         .next (modSq q (fun r => { r with enabled := false, halted := false, haltedUcw := false }) (tick dt s))) ∧
     (s.ledger.main.enabled = false → 10 ≤ regField s 0x00100018 0 4 → exec (.ledgerRingEnable dt false) s =
       .next { tick dt s with ledger := { s.ledger with main :=
         { s.ledger.main with enabled := true, head := 0, tail := 0, phase := true } } }) ∧
     (s.ledger.pf1.enabled = false → 10 ≤ regField s (0x00100018 + pf1Base) 0 4 → exec (.ledgerRingEnable dt true) s =
       .next { tick dt s with ledger := { s.ledger with pf1 :=
         { s.ledger.pf1 with enabled := true, head := 0, tail := 0, phase := true } } })) ∧
  (∀ (dt q : Nat) (s : State), q < 252 → ∃ t, exec (.sqDisable dt q false) s = .next t ∧
     (∀ d ∈ t.host.fetched, d.ring = q → d.fwd ≠ none) ∧ (∀ r, r ≠ q → sqOf t r = sqOf s r) ∧
     (q < s.host.sq.length → (sqOf t q).enabled = false) ∧
     OnlyReply { s with host := { s.host with sq := t.host.sq } } t)

/-- NOP and LEDGER_MARK complete; records take the next SEQUENCE; completions reach their ring. NOP and LEDGER_MARK. An
accepted NOP completes with DONE; an accepted LEDGER_MARK first records its payload bytes 16 to 31 in a LEDGER_MARK with the
descriptor's doorbell stamp, on PF1's copy too for a PF1 ring. Either leaves all but what a completion and a record reach.
What a record holds. A record takes its unit's next SEQUENCE, which then counts on modulo 65,536, the FREE_RUN flag as it
stands, a stamp that no more than sixteen of its unit's records bear (R157), and sixteen bytes of detail; while start-up
does not run and the holding store has room it joins the store. What a completion does. The first completion of a host
descriptor, with no further one of its ring fetched, ends what it owed; QUIET with DONE posts nothing and releases the entry
taken for it; otherwise TAG, STATUS, stamp, FREE_RUN and the doorbell stamp go to the ring bound to the descriptor's:
written at its TAIL, in the entry taken for it, when there is room and nothing waits, and kept in the hold area while that
has room, the entry still taken (R123). It states when these complete: `.nop`, `.ledgerMark`. -/
def Obligations.CompletionsAndRecordsAreKept : Prop :=
  (∀ (dt : Nat) (d : Desc) (s : State),
     (Runs (.nop dt d) s → ∃ t, exec (.nop dt d) s = .next t ∧
       t = complete d.trunc 0 [] (begun d d.trunc (tick dt s)) ∧ OnlyReply s t) ∧
     (Runs (.ledgerMark dt d) s → ∃ t, exec (.ledgerMark dt d) s = .next t ∧
       t = complete d.trunc 0 [] (recordAt (decide (252 ≤ d.ring)) d.db 3 0x050A (slice d.trunc.bytes 16 16)
         (begun d d.trunc (tick dt s))) ∧ OnlyReply s t)) ∧
  (∀ (t unit event : Nat) (det : List Byte) (s : State), s.startup.running = false → s.ledger.main.hold.length < 16384 →
     event / 256 ≠ 9 →
     recordAt false t unit event det s = { s with ledger := { s.ledger with
       seqs := upd s.ledger.seqs unit (fun n => (n + 1) % 65536), runs := upd s.ledger.runs unit (runNext t),
       main := { s.ledger.main with hold := s.ledger.main.hold ++
         [⟨event, catDevice s, unit, s.ledger.seqs.getD unit 0, freeRun s, false, recStamp unit t s, padTo 16 det⟩] } } }) ∧
  (∀ (d : Desc) (st : Nat) (det : List Byte) (s : State), d.fwd = none → st ≠ 0x501 → s.host.dropped.contains d = false →
     (∀ e ∈ s.host.fetched, e.ring ≠ d.ring) →
     (d.quiet = true → st = 0 → complete d st det s = modCq (ringCq s d.ring) (fun r => { r with
         taken := r.taken - 1, freedAt := if cqRoom (ringCq s d.ring) true s then r.freedAt else s.now })
       (markFirst d.ring { s with host := { s.host with begun := s.host.begun.erase d } })) ∧
     ((d.quiet = false ∨ st ≠ 0) → ∃ m : Comp, m.tag = d.tag ∧ m.status = st ∧ m.stamp = s.now ∧ m.db = d.db ∧
       m.notice = false ∧ m.sq = d.ring ∧ m.irq = d.irq ∧ m.freeRun = freeRun s ∧ m.detail = padTo 8 det ∧ m.took = true ∧
       ((cqOf s (ringCq s d.ring)).hold = [] → cqRoom (ringCq s d.ring) false s = true →
         complete d st det s = writeComp (ringCq s d.ring) m (markFirst d.ring
           { s with host := { s.host with begun := s.host.begun.erase d } }) ∧
         ∀ t, t = complete d st det s → ringCq s d.ring < s.host.cq.length →
           (cqOf t (ringCq s d.ring)).taken = (cqOf s (ringCq s d.ring)).taken - 1) ∧
       ((cqOf s (ringCq s d.ring)).enabled = false → (cqOf s (ringCq s d.ring)).hold.length < 256 →
         complete d st det s = modCq (ringCq s d.ring) (fun r => { r with hold := holdComp m r.hold })
           (markFirst d.ring { s with host := { s.host with begun := s.host.begun.erase d } }))))

/-- Urgent control words act at once, halt and resume the rings, and are reported. Urgent control words act at once. Awake,
each word sets ACTION, counts in COUNT and runs: DARK_NOW leaves no channel in RUN or RAMP; DARK_RAMP ramps every running
channel that a named head owns; STOP_HEADS leaves no named head configured; STOP_INGEST leaves no flow and every ingest port
stopped; each leaves the parts it names untouched. HALT_RINGS and RESUME_RINGS. Awake, HALT_RINGS halts exactly the enabled
PF0 rings with PRIO = 0, and RESUME_RINGS lets exactly the rings go on that HALT_RINGS had halted; a ring halted by a fetch
error stays halted. An illegal word is refused, a finished one reported. A word with a bad CHECK, reserved bits or an ACTION
not its function's only sets REJECTED and is recorded as UCW_ACTION with its value; an action that has finished, with no
follower to wait for, leaves BUSY and is recorded with the word and the start of the action, setting the UCW cause. It
states when these complete: `.darkNow`, `.darkRamp`, `.stopHeads`, `.stopIngest`, `.haltRings`, `.resumeRings`,
`.ucwRejected`, `.ucwAction`. -/
def Obligations.UrgentControlWordsActAtOnce : Prop :=
  (∀ (dt heads : Nat) (dom pf1 : Bool) (s : State), s.power.state ≠ .p2 →
     ((∀ k < 8, (headOf s k).pipe.parkDue = none) → ∃ t, exec (.darkNow dt heads dom pf1) s = .next t ∧
       (∀ c < 48, (chanOf t c).enabled = false) ∧ t.host.ucwAction = 1 ∧ RegsStay s t ∧ t.host.ucwCount = (s.host.ucwCount + 1) % 256 ∧
       t = { tick dt s with now := t.now, meter := t.meter, host := t.host, ledger := t.ledger, adm := t.adm, gheler := t.gheler,
                            catum := t.catum, fault := t.fault, regs := t.regs, out := t.out }) ∧
     (∃ t, exec (.darkRamp dt heads dom) s = .next t ∧
       (∀ c < 48, (chanOf s c).state = .run → (∃ k ∈ namedHeads (heads % 256), chanOwner s c = some k) →
         (chanOf t c).state = .ramp) ∧ t.host.ucwAction = 2 ∧
       t.power = s.power ∧ t.time = (tick dt s).time ∧ t.ports = s.ports ∧ t.hbm = s.hbm ∧ t.thermal = s.thermal ∧ t.wear = s.wear) ∧
     (∃ t, exec (.stopHeads dt heads dom) s = .next t ∧ (∀ k ∈ namedHeads (heads % 256), (headOf t k).pipe.cfg = none) ∧
       t.host.ucwAction = 3 ∧ t.power = s.power ∧ t.time = (tick dt s).time ∧ t.hbm = s.hbm ∧ t.thermal = s.thermal ∧ t.wear = s.wear) ∧
     (∃ t, exec (.stopIngest dt heads dom) s = .next t ∧ t.ingest.flows = [] ∧ t.host.ingestStop = true ∧
       (∀ e ∈ t.ingest.eth, e.stopped = true) ∧ (∀ d ∈ t.ingest.dp, d.stopped = true) ∧ t.ingest.pushStop = true ∧
       t.host.ucwAction = 6 ∧ t.power = s.power ∧ t.time = (tick dt s).time ∧ t.ports = s.ports ∧ t.wear = s.wear ∧
       t.hbm = { s.hbm with cells := t.hbm.cells, lanes := t.hbm.lanes })) ∧
  (∀ (dt heads : Nat) (dom : Bool) (s : State), s.power.state ≠ .p2 →
     (∃ t, exec (.haltRings dt heads dom) s = .next t ∧
       (∀ q < 252, sqOf t q = if ringPrio s q = true ∨ (sqOf s q).enabled = false then sqOf s q else
         { sqOf s q with halted := true, haltedUcw := (sqOf s q).haltedUcw || !(sqOf s q).halted }) ∧
       t = { tick dt s with now := t.now, meter := t.meter, host := t.host, ledger := t.ledger, catum := t.catum, fault := t.fault,
                            out := t.out }) ∧
     ∃ t, exec (.resumeRings dt heads dom) s = .next t ∧
       (∀ q < 252, sqOf t q = if (sqOf s q).haltedUcw = true then
         { sqOf s q with halted := false, haltedUcw := false, heldTill := (tick dt s).now } else sqOf s q) ∧
       t = { tick dt s with now := t.now, meter := t.meter, host := t.host, ledger := t.ledger, catum := t.catum, fault := t.fault,
                            out := t.out }) ∧
  ((∀ (dt : Nat) (w : Word) (pf1 : Bool) (s : State), s.power.state ≠ .p2 → ucwLegal pf1 w.toNat = false →
     exec (.ucwRejected dt w pf1) s = .next (recordAt pf1 (tick dt s).now 3 0x0506 (u32 w.toNat ++ u16 0 ++ u8 1 ++ u8 0)
       { tick dt s with host := { s.host with ucwReject := true } })) ∧
   ∀ (dt a : Nat) (r : UcwRun) (s : State), (s.host.ucwRuns.find? fun r => r.action = a) = some r →
     ucwFinished s r = true → s.catum.ucw = [] → s.catum.ucwIn = [] →
     exec (.ucwAction dt a) s = .next (raiseCause false 24 (recordAt r.pf1 (tick dt s).now 3 0x0506
       (u32 r.word ++ u32 0 ++ u64 r.start) { tick dt s with host := { s.host with ucwRuns := s.host.ucwRuns.erase r } })))

/-- Set-up lock locks once and puts thresholds in force that stand apart. Set-up lock. The key's write locks once: LOCKED is
set and recorded, the shedding thresholds in force become each register's value held to its range and at least 0.2 V above
the next one, the hysteresis 100 to 1,000 mV; a locked module takes no second one. The thresholds of a lock stand 0.2 V
apart within their ranges. Whatever the four registers hold, the thresholds that set-up lock puts in force fall from stage
to stage by at least 200 mV, and the lowest lies in its range. It states when these complete: `.setupLock`. -/
def Obligations.SetupLocksOnceWithItsThresholds : Prop :=
  (∀ (dt : Nat) (s : State),
     (s.host.locked = true → exec (.setupLock dt) s = .next (tick dt s)) ∧
     (s.host.locked = false → ∃ t, exec (.setupLock dt) s = .next t ∧ t.host = { s.host with locked := true } ∧
       t.power = { s.power with thr := lockThr (regThr s), hyst := clampNat 100 1000 (regHyst s) } ∧
       regThr t = lockThr (regThr s) ∧ (∀ k, k < 0x01100010 ∨ 0x01100028 < k → rawReg t k = rawReg s k) ∧
       t = { tick dt s with now := t.now, meter := t.meter, host := t.host, power := t.power, regs := t.regs, ledger := t.ledger })) ∧
  (∀ a b c d : Nat, ∃ t1 t2 t3 t4, lockThr [a, b, c, d] = [t1, t2, t3, t4] ∧ t2 + 200 ≤ t1 ∧ t3 + 200 ≤ t2 ∧ t4 + 200 ≤ t3 ∧
     7600 ≤ t4 ∧ t4 ≤ 8200 ∧ t3 ≤ 8500 ∧ t2 ≤ 8700 ∧ t1 ≤ 8900)

/-- Register writes follow their access codes. A read-write register takes the value written; a write-one-to-clear one loses
exactly the bits written as 1, of each function its own; under set-up lock a write that would change a lockable field leaves
it and is recorded as RWL_WRITE_DISCARDED, and before it the field is taken; a write that is not an aligned word is a
completer abort; in BAR2 a word at a ring's doorbell rings it. A poisoned write does nothing at BAR2, and leaves a stored
register of BAR0 at its reset value (R463, R474; the model's choice, log 119). It states when these complete:
`.registerWrite`. -/
def Obligations.RegisterWritesFollowAccess : Prop :=
  ∀ (dt : Nat) (v : Word) (s : State),
    exec (.registerWrite dt ⟨false, 0x00100008, 4, false⟩ v false) s = .next (setRaw 0x00100008 v (tick dt s)) ∧
    exec (.registerWrite dt ⟨false, 0x00100004, 4, false⟩ v false) s =
      .next (setRaw 0x00100004 (rawReg s 0x00100004 &&& ~~~(v &&& 0x0107013F#32)) (tick dt s)) ∧
    exec (.registerWrite dt ⟨false, 4, 4, false⟩ v true) s =
      .next (setRaw (regIrqCause + pf1Base) (rawReg s (regIrqCause + pf1Base) &&& ~~~(v &&& 0x17B#32)) (tick dt s)) ∧
    (s.host.locked = false → exec (.registerWrite dt ⟨false, 0x01100024, 4, false⟩ v false) s =
      .next (setRaw 0x01100024 ((rawReg s 0x01100024 &&& ~~~0xFF#32) ||| (v &&& 0xFF#32)) (tick dt s))) ∧
    (s.host.locked = true → (rawReg s 0x01100024).toNat % 256 = v.toNat % 256 →
      exec (.registerWrite dt ⟨false, 0x01100024, 4, false⟩ v false) s =
        .next (setRaw 0x01100024 (rawReg s 0x01100024) (tick dt s))) ∧
    (s.host.locked = true → (rawReg s 0x01100024).toNat % 256 ≠ v.toNat % 256 →
      exec (.registerWrite dt ⟨false, 0x01100024, 4, false⟩ v false) s = .next (setRaw 0x01100024 (rawReg s 0x01100024)
        (record 3 0x0502 (u8 0 ++ u24 0 ++ u32 0x01100024 ++ u32 v.toNat) (tick dt s)))) ∧
    (∀ off n pf1, off % 4 ≠ 0 ∨ n ≠ 4 →
      exec (.registerWrite dt ⟨false, off, n, false⟩ v pf1) s = .next { tick dt s with out := .abort off :: s.out }) ∧
    (∀ q pf1, q < 256 → exec (.registerWrite dt ⟨true, 0x1000 + 16 * q, 4, false⟩ v pf1) s =
      exec (.tailDoorbell dt q v.toNat pf1 true) s) ∧
    (∀ off pf1, exec (.registerWrite dt ⟨true, off, 4, true⟩ v pf1) s = .next (tick dt s)) ∧
    ∃ t, exec (.registerWrite dt ⟨false, 0x00100008, 4, true⟩ v false) s = .next t ∧ rawReg t 0x00100008 = regReset 0x00100008 ∧
      OnlyRecords { setRaw 0x00100008 (regReset 0x00100008) s with ecc := t.ecc } t

/-- BAR4 writes. Before set-up lock a write inside the usable capacity, outside the Vitrine region and frozen
pseudo-channels, with no Archive region, lands byte by byte and changes no other byte, and waits while the stacks are in
self-refresh (R434); one beyond the capacity is a completer abort; after set-up lock one outside every exhibit is discarded
and counted, and reported when its millisecond has passed. It states when these complete: `.bar4Write`,
`.bar4DiscardReport`. -/
def Obligations.Bar4WritesLandOrAreDiscarded : Prop :=
  ∀ (dt a : Nat) (bs : List Byte) (s : State),
    (s.memOk → s.host.locked = false → a + bs.length ≤ usable s → touchesVit s a bs.length = false → s.hbm.selfRef = false →
      s.ecc.archives = [] → (∀ x, a ≤ x → x < a + bs.length → frozenAt s x = false) →
      ∃ t, exec (.bar4Write dt a bs false) s = .next t ∧ (∀ i (h : i < bs.length), rawByte t (a + i) = bs[i]) ∧
        (∀ x, x < a ∨ a + bs.length ≤ x → rawByte t x = rawByte s x) ∧
        t = { tick dt s with
          hbm := { s.hbm with cells := t.hbm.cells, lanes := t.hbm.lanes }
          ecc := { s.ecc with compBad := s.ecc.compBad.filter fun x => !(decide (a ≤ x) && decide (x < a + bs.length)) } }) ∧
    (∀ p, s.host.locked = false → a + bs.length ≤ usable s → touchesVit s a bs.length = false → s.hbm.selfRef = true →
      exec (.bar4Write dt a bs p) s = .next { tick dt s with hbm := { s.hbm with host := s.hbm.host ++ [.write a bs p] } }) ∧
    (∀ p, usable s < a + bs.length → exec (.bar4Write dt a bs p) s = .next { tick dt s with out := .abort a :: s.out }) ∧
    (∀ p, s.host.locked = true → a + bs.length ≤ usable s → bar4Allowed s a bs.length = false → s.host.bar4Count = 0 →
      exec (.bar4Write dt a bs p) s = .next { tick dt s with
        host := { s.host with bar4Count := 1, bar4First := (tick dt s).now, bar4Addr := a } }) ∧
    (s.host.bar4Count ≠ 0 → (tick dt s).now / 4000000 ≠ s.host.bar4First / 4000000 →
      exec (.bar4DiscardReport dt) s = .next (recordAt false s.host.bar4First 3 0x0502
        (u8 4 ++ u24 0 ++ u64 s.host.bar4Addr ++ u32 s.host.bar4Count)
        { tick dt s with host := { s.host with bar4Count := 0 } }))

/-- The loss of the host link begins the stop, and a PF1 reset reaches PF1 alone. The host link is lost. From a module in
operation, with no stop under way, PERST_B, a PCIe link down for 100 ms and a PF0 function-level reset each begin the stage
4 sequence towards a restart, end every flow, disarm fault injection and keep HOST_LINK_STOP for the ledger save. A PF1
reset reaches PF1 alone. It puts rings 252 to 255 of both kinds and PF1's registers to reset, stops PF1's ledger copy, keeps
no descriptor of those rings and records FUNCTION_RESET; PF0's rings and every other part stay. It states when these
complete: `.pf1Flr`, `.pf0Flr`, `.perstBAssert`, `.pcieLinkDownTimeout`. -/
def Obligations.ResetsOfTheHostReachTheirPart : Prop :=
  (∀ (dt : Nat) (s : State), s.startup.ready = true → s.power.stop = none →
     (∀ c, (c = .pf0Flr dt ∨ (c = .perstBAssert dt ∧ s.power.perstB = false) ∨
         (c = .pcieLinkDownTimeout dt ∧ ∃ d, s.power.pcieDownAt = some d ∧ d + 400000000 ≤ (tick dt s).now)) →
       ∃ t, exec c s = .next t ∧ t.power.stop = some (.hostLink, .ramping) ∧ t.ingest.flows = [] ∧ t.fault.armed = false ∧
         t.power.pendingSets = [] ∧ (∃ r, t.ledger.saved = s.ledger.saved ++ [r] ∧ r.event = 0x0507 ∧ r.saved = true) ∧
         RegsStay s t ∧
         t = { tick dt s with now := t.now, meter := t.meter, power := t.power, host := t.host, ledger := t.ledger, ingest := t.ingest,
                              adm := t.adm, heads := t.heads, gheler := t.gheler, hbm := t.hbm, training := t.training,
                              catum := t.catum, fault := t.fault, regs := t.regs, out := t.out })) ∧
  (∀ (dt : Nat) (s : State), s.host.sq.length = 256 → s.host.cq.length = 256 → ∃ t, exec (.pf1Flr dt) s = .next t ∧
     (∀ q, 252 ≤ q → q < 256 → sqOf t q = Reset.subRing ∧ cqOf t q = Reset.compRing) ∧
     (∀ q < 252, sqOf t q = sqOf s q ∧ cqOf t q = cqOf s q) ∧
     (∀ k, k < pf1Base → rawReg t k = rawReg s k) ∧ (∀ k, pf1Base ≤ k → rawReg t k = regReset k) ∧
     (∀ d, d ∈ t.host.fetched ↔ d ∈ s.host.fetched ∧ d.ring < 252) ∧ (∀ d, d ∈ t.host.begun ↔ d ∈ s.host.begun ∧ d.ring < 252) ∧
     t.ledger.pf1.enabled = false ∧
     t = { tick dt s with host := { s.host with sq := t.host.sq, cq := t.host.cq, fetched := t.host.fetched,
                                                begun := t.host.begun, dropped := t.host.dropped },
                          regs := t.regs, ledger := t.ledger })

/-! ### Power, start-up and pins (chapters 2 to 4) -/

/-- The Keeper boots on input power and on the release of RESET_B, whose assertion resets the units. Input valid and RESET_B
boot the Keeper. From P4 with at least 9.0 V and RESET_B high, INPUT_VALID makes the input valid, counts a power-up, samples
the cabinet pins and brings start-up past step 2, the stamp count restarting from 0 (1 where a restart of the fast clocks
follows, log 70); a RESET_B release with a valid input and no thermal latch does so without the power-up, and the count goes
on. RESET_B resets the units. Asserted while no thermal latch is set, it leaves no channel enabled, with one LOOP_DISABLED
where one was (R385), no head configured and every register at its reset value in P3, keeps the stamp count, the flash and
the wear record, and waits for its release. It states when these complete: `.inputValid`, `.resetBRelease`, `.resetBAssert`.
-/
def Obligations.KeeperBootsAndResets : Prop :=
  (∀ (dt cab : Nat) (vin : Supply) (boot : BootInfo) (s : State), boot.factoryBad = false →
     (9000 ≤ vin.vin → s.power.inputValid = false → s.power.overStop = false → s.power.state = .p4 → s.power.resetB = false →
       ∃ t, exec (.inputValid dt vin cab boot) s = .next t ∧ t.power.inputValid = true ∧ t.power.vin = vin.vin ∧ t.now ≤ 1 ∧
         t.wear.powerUps = bump s.wear.powerUps ∧ t.startup.cabPins = cab % 8 ∧ 2 ≤ t.startup.step ∧
         t.startup.bankA = s.startup.bankA ∧ t.startup.bankB = s.startup.bankB) ∧
     (s.power.resetB = true → s.power.state ≠ .p4 → s.thermal.latch = false → s.power.inputValid = true →
       ∃ t, exec (.resetBRelease dt cab boot) s = .next t ∧ t.power.resetB = false ∧ t.startup.cabPins = cab % 8 ∧
         2 ≤ t.startup.step ∧ (t.now = (tick dt s).now ∨ t.now = ((tick dt s).now + 1) % 2 ^ 64) ∧
         t.wear.powerUps = s.wear.powerUps)) ∧
  (∀ (dt : Nat) (s : State), s.power.resetB = false → s.power.state ≠ .p4 → s.thermal.latch = false →
     ∃ t, exec (.resetBAssert dt) s = .next t ∧ t.power.resetB = true ∧ t.power.state = .p3 ∧ t.now = (tick dt s).now ∧
       (∀ c, (chanOf t c).enabled = false) ∧ (∀ k, (headOf t k).pipe.cfg = none) ∧ t.regs = [] ∧ t.wear = s.wear ∧
       (enabledChans s ≠ [] → ∃ r ∈ t.ledger.main.hold, r.event = 0x1002) ∧ t.startup.bankA = s.startup.bankA ∧ t.startup.bankB = s.startup.bankB ∧ t.startup.running = false)

/-- Start-up trains point by point, then becomes ready. At step 3 the end of the point under way, the move to it having
ended, makes its timing set valid and begins the move to the next lower point (R434, R448; its cause is the model's choice,
log 122), F0 ending step 4; at step 4 CONFIG_READY zero-fills HBM, stamps the instant, and records CONFIG_READY with bank,
generation, cabinet and clamp count as start-up ends. It states when these complete: `.trnPointDone`, `.configReady`. -/
def Obligations.StartUpProceeds : Prop :=
  ∀ (dt us : Nat) (s : State), s.startup.running = true → s.power.state = .p0 →
    (s.startup.step = 3 → s.hbm.tsValid.length = 4 → ∀ p < 3, s.training.point = p + 1 →
      ∃ t, exec (.trnPointDone dt (p + 1) us []) s = .next t ∧ t.training.point = p ∧ t.hbm.moving = some (p, 4) ∧
        t.hbm.selfRef = true ∧ (∀ q c, s.hbm.moving = some (q, c) → t.hbm.fp = q) ∧
        (s.hbm.moving = none → t.startup.step = 3 ∧ t.hbm = { s.hbm with
            tsValid := upd s.hbm.tsValid (p + 1) fun _ => true, moving := some (p, 4), selfRef := true, pages := [], debts := [] } ∧
          t = { tick dt s with now := t.now, meter := t.meter, training := t.training, hbm := t.hbm, ledger := t.ledger,
                               wear := t.wear, startup := s.startup, free := t.free })) ∧
    (s.startup.step = 3 → s.training.point = 0 →
      ∃ t, exec (.trnPointDone dt 0 us []) s = .next t ∧ t.startup.step = 4 ∧ t.training.state = 0 ∧
        t.training.last = (tick dt s).now ∧ t.startup.degraded = decide (t.hbm.m < 62)) ∧
    (s.startup.step = 4 → ∀ fails, ∃ u, exec (.configReady dt fails) s = .next
        { (record 0x2E 0x0401 (u8 u.startup.bank ++ u24 0 ++ u32 u.startup.gen ++ u8 u.startup.cabinet ++ u8 0 ++
            u16 (min 256 u.startup.clampTotal)) u) with
          startup := { u.startup with running := false, waking := false } } ∧
      u.startup.readyStamp = (tick dt s).now ∧ u.startup.ready = true ∧ u.startup.step = 7 ∧ u.startup.bank = s.startup.bank ∧
      u.startup.gen = s.startup.gen ∧ u.startup.cabinet = s.startup.bootCab ∧ u.hbm.cells = [] ∧ u.hbm.lanes = [] ∧
      u.adm.caps.length = 44)

/-- Shedding stages are entered and cleared, and the orderly stop runs from its cause to the save. Shedding stages are
entered and cleared. With VIN below its threshold a stage above the one recognised becomes the stage recognised, with its
bit of PWR_SHED_STAT, and PWR_VIN follows; stages 4 and 5 in operation begin the stop that ends in P3 or P4 with the input
no longer valid; VIN above threshold and hysteresis clears a stage and every higher one. Conditions that stop the module. In
operation with no stop under way, VIN above 61 V and a lost REFCLK begin the orderly stop: the first with the input no
longer valid and every flow ended, the second with no head configured at once. The stop goes on to PARK, the save and its
end. PARK goes out on the ports of each head that has stopped and whose channels are dark, though others still run (R72);
once no head is configured, no channel enabled and no PARK owed, the ledger save follows; the save keeps what is held, with
SAVED = 1, and leads to P3, to P4 after stage 5, or after a lost host link to a new start-up at step 3. It states when these
complete: `.shedEnter`, `.shedClear`, `.vinOver`, `.refclkLost`, `.stage4Park`, `.ledgerSave`. -/
def Obligations.StopsRunTheirCourse : Prop :=
  (∀ (dt n : Nat) (vin : Supply) (s : State), 1 ≤ n → n ≤ 5 →
     (s.power.state ≠ .p4 → s.power.stage < n → vin.vin < shedThr s n →
       ∃ t, exec (.shedEnter dt n vin) s = .next t ∧ t.power.stage = n ∧ t.power.vin = vin.vin ∧
         (rawReg t 0x01100028).getLsbD (n - 1) = true ∧
         (s.startup.ready = true → s.power.stop = none → s.startup.running = false → 4 ≤ n →
           t.power.stop = some (if n = 4 then .stage4 else .stage5, .ramping) ∧ t.power.inputValid = false ∧
             t.ingest.flows = [])) ∧
     (n ≤ s.power.stage → shedThr s n + s.power.hyst ≤ vin.vin →
       ∃ t, exec (.shedClear dt n vin) s = .next t ∧ t.power.stage = n - 1 ∧ t.power.vin = vin.vin)) ∧
  (∀ (dt : Nat) (vin : Supply) (s : State), s.startup.running = false → s.power.stop = none → s.power.state ≠ .p4 →
     (s.startup.ready = true → 61000 < vin.vin → ∃ t, exec (.vinOver dt vin) s = .next t ∧
       t.power.stop = some (.vinOver, .ramping) ∧ t.power.inputValid = false ∧ t.power.overStop = true ∧ t.ingest.flows = []) ∧
     (s.power.fastClocks = true → ∃ t, exec (.refclkLost dt) s = .next t ∧ t.power.refclkOk = false ∧
       t.power.stop = some (.refclkLost, .ramping) ∧ ∀ k < 8, (headOf t k).pipe.cfg = none)) ∧
  (∀ (dt : Nat) (why : StopCause) (s : State),
     (s.power.stop = some (why, .ramping) → (∀ q, (portOf s q).ending = false) →
       (allDark s = true → (∀ k < 8, (headOf s k).pipe.parkDue = none) → exec (.stage4Park dt) s = .next { tick dt s with
         power := { s.power with rampedDark := true, stop := some (why, .saving) } }) ∧
       (allDark s = false → (∀ k < 8, (headOf s k).pipe.parkDue = none) → exec (.stage4Park dt) s = .next (tick dt s)) ∧
       (∀ k p ports chans cause, k < 8 → (headOf s k).pipe.parkDue = some (ports, chans, cause) →
         (∀ j < 8, j ≠ k → (headOf s j).pipe.parkDue = none) → (headOf s k).pipe.releasing = none → NoFaults s →
         (∀ c ∈ bitsOf chans 48, (chanOf s c).enabled = false) → p < s.ports.length → portsLeft s k ports = [p] →
         (portOf s p).state = .ready → (portOf s p).allows (barePkt 3 (tick dt s).now) = true →
         ∃ t, exec (.stage4Park dt) s = .next t ∧ (portOf t p).state = .down ∧ (headOf t k).pipe.parkDue = none ∧
           (∀ q, q ≠ p → portOf t q = portOf s q) ∧ (∃ b, .plk p b ∈ t.out) ∧
           t.power = (if allDark s = true then { s.power with rampedDark := true, stop := some (why, .saving) } else s.power))) ∧
     (s.power.stop = some (why, .saving) → ∃ t, exec (.ledgerSave dt []) s = .next t ∧ t.power.stop = none ∧
       t.ledger.saved = (s.ledger.saved ++ (s.ledger.startBuf ++ s.ledger.main.hold).map (fun r : Rec => { r with saved := true })).take 196608 ∧
       t.ledger.main.hold = [] ∧ (s.power.fastClocks = true → t.now = (tick dt s).now) ∧ (∀ k, (headOf t k).pipe.cfg = none) ∧
       ((why = .p3Request ∨ why = .thermal) → t.power.state = .p3 ∧ t.power.fastClocks = false) ∧
       (why = .stage5 → t.power.state = .p4 ∧ t.power.fastClocks = false) ∧
       (why = .hostLink → mayStart s = true → s.power.refclkOk = true → anySlot s = true →
         t.power.state = .p0 ∧ t.startup.step = 3 ∧ t.startup.running = true)))

/-- Power states are requested and change when their time comes, and wake sources wake. PWR_SET_STATE. An accepted request
with valid fields waits until its AT; at AT the target is the state asked for: P0 and P1 leave P2, P2 asks every configured
head for Cave hold, P3 begins the orderly stop; one of invalid fields completes with their offset. Power states change when
their time comes. The one request whose AT has come takes effect as if it came then; with P2 the target and every condition
of R323 met the pixel domain stops and the stacks self-refresh; admission holds a shrink until its revoked work has stopped.
Wake sources. From P2 an enabled source returns the module to P0, ends self-refresh unless a frequency move holds it (R434),
and sets its bit of PWR_WAKE_SRC; from P3, with what R82 asks for, REFCLK and firmware there, it begins start-up from step 3
at training point F3. It states when these complete: `.pwrSetState`, `.pwrStateAt`, `.enterP2`, `.capacityShrinkHold`,
`.wakeBFall`, `.mgmtBusWake`, `.catumWake`, `.keeperTimer`. -/
def Obligations.PowerStatesFollowTheirRequests : Prop :=
  (∀ (dt : Nat) (d : Desc) (s : State), Runs (.pwrSetState dt d) s →
     (∀ o, pwrInvalid d.trunc = some o →
       exec (.pwrSetState dt d) s = .next (complete d.trunc 0x380 (u16 o) (begun d d.trunc (tick dt s)))) ∧
     (pwrInvalid d.trunc = none → (tick dt s).now < d.trunc.p64 24 →
       ∃ t, exec (.pwrSetState dt d) s = .next t ∧ t.power = { s.power with pendingSets := s.power.pendingSets ++ [d.trunc] } ∧
         t = { begun d d.trunc (tick dt s) with power := t.power }) ∧
     (pwrInvalid d.trunc = none → d.trunc.p64 24 ≤ (tick dt s).now → ∃ t, exec (.pwrSetState dt d) s = .next t ∧
       (d.trunc.p8 16 < 2 → t.power.target = d.trunc.p8 16 ∧ t.power.state ≠ .p2) ∧
       (d.trunc.p8 16 = 3 → s.power.stop = none → t.power.stop = some (.p3Request, .ramping) ∧ t.power.target = 3) ∧
       (d.trunc.p8 16 = 2 → p2Refused (begun d d.trunc (tick dt s)) = none → t.power.target = 2))) ∧
  (∀ (dt : Nat) (s : State),
     (∀ d, s.power.pendingSets = [d] → d.p64 24 ≤ (tick dt s).now → exec (.pwrStateAt dt) s =
       .next (takeTarget d { tick dt s with power := { s.power with pendingSets := [] } })) ∧
     (mayEnterP2 s = true → exec (.enterP2 dt) s = .next { tick dt s with
       power := { s.power with state := .p2 }, hbm := { s.hbm with selfRef := true, pages := [], debts := [] } }) ∧
     (anyLeaving s = false → formsDue s = false → ∀ i c, s.adm.pendingCaps = [(i, c)] → i < s.adm.caps.length →
       ∃ t, exec (.capacityShrinkHold dt) s = .next t ∧ t.adm.pendingCaps = [] ∧ t.adm.caps.getD i 0 = c ∧
         (∀ j, j ≠ i → t.adm.caps.getD j 0 = s.adm.caps.getD j 0) ∧ OnlyRecords { s with adm := t.adm } t)) ∧
  (∀ (dt : Nat) (s : State) (src : Nat) (c : Instr) (ok : Bool),
     ((c = .wakeBFall dt ∧ src = 2) ∨ (c = .mgmtBusWake ⟨dt, s.power.smbAddr, ok⟩ ∧ src = 1) ∨
       (src = 4 ∧ ∃ p, p < 4 ∧ c = .catumWake dt p ∧ (catOf s p).enabled = true) ∨
       (c = .keeperTimer dt ∧ src = 3 ∧ ∃ w, w = (rawReg s 0x01100038).toNat + 2 ^ 32 * (rawReg s 0x0110003C).toNat ∧
         w ≠ 0 ∧ w ≤ (tick dt s).now ∧ (tick dt s).now ≤ w + 124000)) →
     regField s 0x01100030 src 1 = 1 →
     (s.power.state = .p2 → (∃ t, exec c s = .next t ∧ t.power = { s.power with state := .p0 } ∧
         (rawReg t 0x01100034).getLsbD src = true ∧ t.hbm.selfRef = (s.hbm.selfRef && s.hbm.moving.isSome)) ∧
       (s.hbm.moving = none → s.hbm.host = [] → exec c s = .next { setBits 0x01100034 (2 ^ src) (tick dt s) with
         power := { s.power with state := .p0 }, hbm := { s.hbm with selfRef := false } })) ∧
     (s.power.state = .p3 → s.startup.running = false → s.thermal.latch = false → mayStart s = true →
       s.power.refclkOk = true → anySlot s = true →
       ∃ t, exec c s = .next t ∧ t.power.state = .p0 ∧ t.power.fastClocks = true ∧ t.startup.step = 3 ∧
         t.startup.running = true ∧ t.startup.waking = true ∧ t.training.point = 3 ∧
         (rawReg t 0x01100034).getLsbD src = true))

/-- The reference clock, the host link, the interlock and the test access port act on the module. REFCLK and PERST_B start
the module again. A start-up that waits in P3 goes on at step 3 when the REFCLK check passes and waits on when it fails;
PERST_B's release lets the module leave P3, and elsewhere only frees the link, which then comes up with its width and speed
or goes down with the stamp of its loss. The interlock and the test access port. A trip forces every channel OFF, counts,
latches and is recorded with its stamp; a low level of 1 us restarts the 10 ms and one of at most 100 ns does not; after 10
ms of high level the release is recorded with the stamp of the rising edge, and before them nothing happens; a test
instruction other than BYPASS, IDCODE and SAMPLE forces the outputs; a head whose ports wait for its dark lasers sends its
PARK when they are forced. It states when these complete: `.refclkCheckRetry`, `.perstBRelease`, `.pcieLinkChange`,
`.intlkTrip`, `.intlkLowDuringTrip`, `.intlkRelease`, `.boundaryScanForce`. -/
def Obligations.PinsAreFollowed : Prop :=
  (∀ (dt : Nat) (s : State),
     (s.power.state = .p3 → s.startup.running = true → mayStart s = true → anySlot s = true →
       (∃ t, exec (.refclkCheckRetry dt true) s = .next t ∧ t.power.state = .p0 ∧ t.startup.step = 3 ∧ t.training.point = 3) ∧
       ∃ t, exec (.refclkCheckRetry dt false) s = .next t ∧ t.power = { s.power with refclkOk := false } ∧
         t.startup.running = true) ∧
     (s.power.perstB = true → s.power.state ≠ .p3 →
       exec (.perstBRelease dt) s = .next { tick dt s with power := { s.power with perstB := false } }) ∧
     (s.power.perstB = true → s.power.state = .p3 → s.startup.running = false → s.thermal.latch = false → mayStart s = true →
       s.power.refclkOk = true → anySlot s = true → ∃ t, exec (.perstBRelease dt) s = .next t ∧ t.power.perstB = false ∧
         t.power.state = .p0 ∧ t.startup.step = 3) ∧
     (s.power.perstB = false → s.power.fastClocks = true → ∀ w v,
       exec (.pcieLinkChange dt true w v) s = .next { tick dt s with
         power := { s.power with pcieUp := true, pcieWidth := w, pcieSpeed := v, pcieDownAt := none } } ∧
       (s.power.pcieUp = true → exec (.pcieLinkChange dt false w v) s = .next { tick dt s with
         power := { s.power with pcieUp := false, pcieDownAt := some (tick dt s).now } }))) ∧
  (∀ (dt : Nat) (s : State),
     (s.power.intlkLow = false → s.power.state ≠ .p4 → (∀ k < 8, (headOf s k).pipe.parkDue = none) →
       ∃ t, exec (.intlkTrip dt) s = .next t ∧
       t.power = { s.power with intlkLow := true, intlkCount := min 255 (s.power.intlkCount + 1), intlkStamp := (tick dt s).now,
                                intlkAt := (tick dt s).now, intlkRise := 0 } ∧ (∀ c < 48, (chanOf t c).enabled = false) ∧ RegsStay (setBits 0x00A082C0 2 s) t ∧
       t = { tick dt s with now := t.now, meter := t.meter, power := t.power, host := t.host, ledger := t.ledger, adm := t.adm,
                            gheler := t.gheler, catum := t.catum, fault := t.fault, regs := t.regs, out := t.out }) ∧
     (∀ len, 4000 ≤ len → s.power.intlkLow = true → exec (.intlkLowDuringTrip dt len) s = .next { tick dt s with
       power := { s.power with intlkRise := (tick dt s).now } }) ∧
     (∀ len, len ≤ 400 → exec (.intlkLowDuringTrip dt len) s = .next (tick dt s)) ∧
     (∀ high, let r := if s.power.intlkRise ≠ 0 then s.power.intlkRise else (tick dt s).now - high
       (s.power.intlkLow = true → s.power.intlkAt ≤ r → r + 40000000 ≤ (tick dt s).now →
         exec (.intlkRelease ⟨dt, high⟩) s = .next (record 8 0x202 (u64 r)
           { tick dt s with power := { s.power with intlkLow := false } })) ∧
       (s.power.intlkLow = false ∨ r < s.power.intlkAt ∨ (tick dt s).now < r + 40000000 →
         exec (.intlkRelease ⟨dt, high⟩) s = .next (tick dt s))) ∧
     ((∀ k < 8, (headOf s k).pipe.parkDue = none) → ∃ t, exec (.boundaryScanForce dt .other) s = .next t ∧
       t.power = { s.power with bscan := true } ∧ ∀ c < 48, (chanOf t c).enabled = false) ∧
     (∀ k p ports chans cause c, k < 8 → (headOf s k).pipe.parkDue = some (ports, chans, cause) →
       (∀ j < 8, j ≠ k → (headOf s j).pipe.parkDue = none) → (headOf s k).pipe.releasing = none → NoFaults s →
       p < s.ports.length → portsLeft s k ports = [p] → (portOf s p).ending = false → (portOf s p).state = .ready →
       (portOf s p).allows (barePkt 3 (tick dt s).now) = true → s.power.state ≠ .p4 → s.power.state ≠ .p2 → s.power.intlkLow = false →
       (c = .intlkTrip dt ∨ c = .boundaryScanForce dt .other ∨ c = .darkNow dt 255 false false) →
       ∃ t, exec c s = .next t ∧ (portOf t p).state = .down ∧ (headOf t k).pipe.parkDue = none ∧
         (∀ q, q ≠ p → portOf t q = portOf s q) ∧ ∃ b, .plk p b ∈ t.out) ∧
     (∀ i, i ≠ .other → exec (.boundaryScanForce dt i) s = .next { tick dt s with power := { s.power with bscan := false } }))

/-! ### Cabinets, flash, service and time (chapters 4, 6, 24) -/

/-- A second CAB_SELECT waits its turn in vain. While one is pending an accepted second completes with NOT_ADMITTED and the
pending one's tag as detail, and the pending selection stays as it is. -/
def Obligations.SecondCabSelectIsRefused : Prop :=
  ∀ (dt : Nat) (d : Desc) (x : PendingCab) (s : State), Runs (.cabSelect dt d) s → s.startup.pendingCab = some x →
    ∃ t, exec (.cabSelect dt d) s = .next t ∧
      t = complete d.trunc 0x20 (u32 x.desc.tag) (begun d d.trunc (tick dt s)) ∧ t.startup = s.startup ∧ OnlyReply s t

/-- A selection takes effect, and writes of the flash begin and end. CAB_SELECT. With none pending and no head configured an
accepted one takes effect at once: the cabinet named is in force, its source is CAB_SELECT, and only start-up's values and
the reply change. Writes to the flash. An accepted NVM_WRITE_BANK whose bytes form a valid bank, with no other write under
way, erases the idle bank, counts the erase and is under way; so is an accepted FW_WRITE_SLOT of a good image for the slot
not in use; an image the loader would not take completes with FW_IMAGE_BAD. Writes to the flash end. With no failing sector
the write under way puts its bank, or its image in its slot with FW_SLOT_WRITTEN, completes and leaves the list of writes;
the other bank, slot and the pin stay. It states when these complete: `.cabSelect`, `.nvmWriteBank`, `.fwWriteSlot`,
`.bankWriteDone`, `.slotWriteDone`. -/
def Obligations.FlashAndCabinetsChange : Prop :=
  (∀ (dt : Nat) (d : Desc) (s : State), Runs (.cabSelect dt d) s → s.startup.pendingCab = none →
     (∀ k, (headOf s k).pipe.cfg = none) →
     ∃ t, exec (.cabSelect dt d) s = .next t ∧ t.startup.cabinet = d.trunc.p8 16 ∧ t.startup.cabSrc = true ∧
       t.startup.pendingCab = none ∧ OnlyReply { s with startup := t.startup } t) ∧
  (∀ (dt : Nat) (d : Desc) (s : State), s.startup.norWrites = [] → d.fwd = none →
     (∀ bs, Runs (.nvmWriteBank dt d (.data bs)) s → bankCheck (bs.take d.length) s = none →
       ∃ t, exec (.nvmWriteBank dt d (.data bs)) s = .next t ∧
         t.startup.norWrites = [.bank (some d) (bankSealed (s.startup.gen + 1) (bs.take d.length))] ∧
         (idleBank s = 0 → t.startup.bankA = []) ∧ (idleBank s = 1 → t.startup.bankB = []) ∧
         t.wear = { s.wear with erases := upd s.wear.erases (2 + idleBank s) bump } ∧
         t = { begun d d (tick dt s) with startup := t.startup, wear := t.wear }) ∧
     (∀ f, Runs (.fwWriteSlot dt d f none) s → s.wear.slot ≠ d.p8 24 → imageGood f = true → f.size = d.length →
       ∃ t, exec (.fwWriteSlot dt d f none) s = .next t ∧ t.startup = { s.startup with norWrites := [.slot (some d) (d.p8 24) f] } ∧
         t = { begun d d (tick dt s) with startup := t.startup, wear := t.wear } ∧ t.wear.slot = s.wear.slot) ∧
     (∀ f, Runs (.fwWriteSlot dt d f none) s → s.wear.slot ≠ d.p8 24 → (imageGood f = false ∨ f.size ≠ d.length) →
       exec (.fwWriteSlot dt d f none) s = .next (complete d 0x1881 (u32 f.badAt) (begun d d (tick dt s))))) ∧
  (∀ (dt : Nat) (d : Desc) (s : State),
     (∀ b, s.startup.norWrites = [.bank (some d) b] → ∃ t, exec (.bankWriteDone dt []) s = .next t ∧
       t.startup = (if idleBank s = 0 then { s.startup with bankA := b, norWrites := [] }
         else { s.startup with bankB := b, norWrites := [] }) ∧ OnlyReply { s with startup := t.startup } t) ∧
     (∀ k f, s.startup.norWrites = [.slot (some d) k f] → ∃ t, exec (.slotWriteDone dt []) s = .next t ∧
       t.wear = { s.wear with slots := upd s.wear.slots k fun _ => f } ∧ t.startup = { s.startup with norWrites := [] } ∧
       OnlyReply { s with startup := t.startup, wear := t.wear } t))

/-- BL_PIN stores the pin. An accepted BL_PIN of 0, or of a level that a passing slot carries, stores it in the wear record,
records BL_PINNED with the old and new pin, and completes; another completes with BL_ABSENT. The next Keeper boot applies
the pin stored. It states when these complete: `.blPin`. -/
def Obligations.BehaviourPinIsStored : Prop :=
  ∀ (dt : Nat) (s : State),
    (∀ d, Runs (.blPin dt d) s →
      ((d.trunc.p16 16 = 0 ∨ ∃ f ∈ s.wear.slots, imageGood f = true ∧ f.level = d.trunc.p16 16) →
        exec (.blPin dt d) s = .next (complete d.trunc 0 [] { (record 0x2E 0x1806
          (u16 s.wear.pinStored ++ u16 (d.trunc.p16 16)) (begun d d.trunc (tick dt s))) with
          wear := { s.wear with pinStored := d.trunc.p16 16 } })) ∧
      (d.trunc.p16 16 ≠ 0 → (∀ f ∈ s.wear.slots, imageGood f = true → f.level ≠ d.trunc.p16 16) →
        exec (.blPin dt d) s = .next (complete d.trunc 0x1882 (u16 (d.trunc.p16 16)) (begun d d.trunc (tick dt s))))) ∧
    (∀ cab boot, boot.factoryBad = false → s.power.resetB = true → s.power.state ≠ .p4 → s.thermal.latch = false →
      s.power.inputValid = true → ∃ t, exec (.resetBRelease dt cab boot) s = .next t ∧ t.wear.pin = s.wear.pinStored ∧
        t.wear.pinStored = s.wear.pinStored)

/-- The wear record is reported and saved, and the management bus is served. The wear report and record. An accepted
WEAR_REPORT writes the 256 bytes of the wear record to the host buffer and completes; the record is saved with its stamp
once a further 24 hours in P0 to P2 have passed. The management bus. At the module's address with a good PEC, powered, a
status or Clamp Report read answers, a protected write does nothing, and a valid bank begins its write; at another address
or with a bad PEC nothing happens but the passing of time. It states when these complete: `.wearReport`, `.wearRecordSave`,
`.mgmtBusTransaction`. -/
def Obligations.ServiceIsReported : Prop :=
  (∀ (dt : Nat) (d : Desc) (s : State),
     (d.fwd = none → Runs (.wearReport dt d) s → ∃ t, exec (.wearReport dt d) s = .next t ∧
       t = complete d 0 [] (emit (.host (d.p64 16) (wearBytes (tick dt s))) (begun d d (tick dt s))) ∧ OnlyReply s t) ∧
     (let run := (tick dt s).meter.run; s.meter.days < run / (24 * 3600 * 4000000000) →
       exec (.wearRecordSave dt) s = .next { tick dt s with
         meter := { (tick dt s).meter with days := run / (24 * 3600 * 4000000000) },
         wear := { s.wear with saved := (tick dt s).now } })) ∧
  (∀ (dt a : Nat) (pec : Bool) (op : MgmtOp) (s : State),
     ((a ≠ s.power.smbAddr ∨ pec = false ∨ s.power.state = .p4) →
       exec (.mgmtBusTransaction dt a pec op) s = .next (tick dt s)) ∧
     (s.power.state ≠ .p4 → a = s.power.smbAddr →
       exec (.mgmtBusTransaction dt a true .statusRead) s = .next { tick dt s with
         out := .read a (u8 (mgmtStatus s)) :: s.out } ∧
       (∀ i e, s.startup.clamps[i]? = some e → exec (.mgmtBusTransaction dt a true (.clampRead i)) s =
         .next { tick dt s with out := .read a e.bytes :: s.out }) ∧
       (∀ o, exec (.mgmtBusTransaction dt a true (.protectedWrite o)) s = .next (tick dt s)) ∧
       (∀ b, bankCheck b s = none → s.startup.norWrites = [] →
         ∃ t, exec (.mgmtBusTransaction dt a true (.bankWrite b)) s = .next t ∧
           t.startup.norWrites = [.bank none (bankSealed (s.startup.gen + 1) b)] ∧
           t = { tick dt s with startup := t.startup, wear := t.wear })))

/-- The PTP source is set, the counter is answered, and the timebase follows its grandmaster. PTP_CFG sets the source. An
accepted one that passes the checks of R159 makes its SOURCE, ports, domain, timeout, DSCP and VLAN those in force and
forgets what it had measured; one that names a disabled port completes with the offset of its field. STAMP_READ. An accepted
one completes with the counter value as its stamp, TMB_STAT bits 15:0 in the first two detail bytes and the UTC offset in
the next two, and changes nothing else. The timebase follows its grandmaster. With no fault rules, an Announce of the best
master on the port makes it the one followed and starts acquisition; a two-step Sync waits for its Follow_Up; a message of
options outside Table 6.2, or without the port's VLAN tag, is counted and dropped; a Delay_Req leaves from the port's
address with its DSCP, sequence number and stamp; a slew that has at most 100 ns left locks when it ends; with no Announce
of the master in use within its receipt timeout, and no agreeing master on the other port, the lock is lost with cause 1. It
states when these complete: `.ptpCfg`, `.stampRead`, `.ptpMessage`, `.delayReqSend`, `.slewDone`, `.announceTimeout`. -/
def Obligations.TimeIsKept : Prop :=
  (∀ (dt : Nat) (d : Desc) (s : State), Runs (.ptpCfg dt d) s →
     (ptpCheck d.trunc (begun d d.trunc (tick dt s)) = none → ∃ t, exec (.ptpCfg dt d) s = .next t ∧
       t.time.source = d.trunc.p8 16 ∧ t.time.portPri = d.trunc.p8 17 ∧ t.time.domain = d.trunc.p8 19 ∧
       t.time.annTimeout = d.trunc.p8 20 ∧ t.time.dscp = d.trunc.p8 21 ∧ t.time.vlan = d.trunc.p16 22 ∧
       t.time.pathDelay = none ∧ t.time.lastSync = none ∧
       (s.time.source = d.trunc.p8 16 → OnlyReply { s with time := t.time } t)) ∧
     (∀ st det, ptpCheck d.trunc (begun d d.trunc (tick dt s)) = some (st, det) →
       exec (.ptpCfg dt d) s = .next (complete d.trunc st det (begun d d.trunc (tick dt s))))) ∧
  (∀ (dt : Nat) (d : Desc) (s : State), Runs (.stampRead dt d) s → ∃ t, exec (.stampRead dt d) s = .next t ∧
     t = completeAt (tick dt s).now d.trunc 0 (u16 (tmbStat s) ++ u16 s.time.utc) (begun d d.trunc (tick dt s)) ∧ OnlyReply s t) ∧
  (∀ (dt : Nat) (m : PtpMsg) (s : State), NoFaults s →
     (m.vlan ≠ ethVlan s m.port → exec (.ptpMessage dt m) s = .next { tick dt s with
       ingest := { s.ingest with eth := upd s.ingest.eth m.port fun e => { e with drop := bump e.drop } } }) ∧
     (s.time.source = 1 → m.port = s.time.portPri → m.vlan = ethVlan s m.port →
       (ptpSupported m = false → exec (.ptpMessage dt m) s = .next { tick dt s with
         time := { (tick dt s).time with ptpDrop := bump s.time.ptpDrop } }) ∧
       (ptpSupported m = true → m.domain = s.time.domain → m.kind = .syncTwo → exec (.ptpMessage dt m) s = .next { tick dt s with
         time := { (tick dt s).time with syncTs := waitFollowUp m (tick dt s).now s.time.syncTs } }) ∧
       (∀ f, ptpSupported m = true → m.domain = s.time.domain → m.kind = .announce →
         bestMaster (hearMaster m (tick dt s)).time (tick dt s).now = some f → f.port = m.port → f.sender = m.sender →
         s.time.state = .powerOn → ∃ t, exec (.ptpMessage dt m) s = .next t ∧ t.time.state = .acquiring ∧
           t.time.gmId = m.master.gm ∧ t.time.port = m.port ∧ t.time.parent = m.sender ∧ t = { tick dt s with time := t.time }))) ∧
  (∀ (dt : Nat) (s : State),
     (s.time.source = 1 → s.time.lastSync ≠ none → (s.time.other.sync = none ∨ s.time.otherPort = none) →
       exec (.delayReqSend dt) s = .next { tick dt s with
       time := { (tick dt s).time with reqSent := some (tick dt s).now, reqSeq := (s.time.reqSeq + 1) % 65536 }
       out := .eth s.time.port (ethVlan s s.time.port) (.delayReq (ethAddr s s.time.port) s.time.dscp s.time.reqSeq) :: s.out }) ∧
     (∀ p, s.time.source = 1 → s.time.lastSync = none → s.time.otherPort = some p → s.time.other.sync ≠ none →
       exec (.delayReqSend dt) s = .next { tick dt s with
         time := { (tick dt s).time with
           other := { s.time.other with sent := some (tick dt s).now }, reqSeq := (s.time.reqSeq + 1) % 65536 }
         out := .eth p (ethVlan s p) (.delayReq (ethAddr s p) s.time.dscp s.time.reqSeq) :: s.out }) ∧
     (s.time.state = .slewing → s.time.source = 1 → slewLeft (tick dt s) ≤ 400 →
       ∃ t, exec (.slewDone dt) s = .next t ∧ t.time.state = .locked ∧
       t.time.slew = 0 ∧ t.time.everLocked = true ∧ t = { tick dt s with
         time := t.time, ledger := t.ledger, heads := t.heads, catum := { s.catum with locks := t.catum.locks } }) ∧
     (s.time.source = 1 → s.time.state = .locked →
       (∀ f ∈ s.time.masters, f.selected s.time = true → f.fresh s.time (tick dt s).now = false) →
       (∀ f ∈ s.time.masters, f.port = s.time.port ∨ secAgrees s.time f.data.gm = false) →
       ∃ t, exec (.announceTimeout dt) s = .next t ∧
         t.time = { (tick dt s).time with
           state := .holdover, good := 0, bad := 0, masters := s.time.masters.filter fun f => !f.selected s.time } ∧
         ((∀ k, (lockOf s k).role = 0) → t.ledger = (record 4 0x0602 (u8 1) { tick dt s with time := t.time }).ledger) ∧
         t = { tick dt s with
           time := t.time, ledger := t.ledger, heads := t.heads, catum := { s.catum with locks := t.catum.locks } }))

/-! ### Ingest, exhibits and admission (chapters 7, 8) -/

/-- Flows open, take pushes, freeze, fall back, lose paths and close. FLOW_OPEN and FLOW_CLOSE. An accepted FLOW_OPEN of a
sound format, on ports that can take it and admitted, opens its context as Table 7.2 declares and completes; an accepted
FLOW_CLOSE of a flow that has begun no frame ends it, releases its item and completes, and with a frame open it waits beside
those before it; no other context changes but that an ancillary flow is no longer attached to it (R176). HOST_PUSH into an
open frame. An accepted push without START, into the open frame of a host-push flow that keeps no stamp log and whose range
is not frozen, puts its transfer under way for that frame and changes nothing else. Deadlines close, freeze and fall back.
At its deadline an open frame that has not completed closes incomplete and a LIVE flow freezes; two frame periods without a
frame freeze it too; a frozen flow falls back after its FREEZE periods, each with its record. Paths and packet groups. A
path silent for 100 ms while the other of the flow receives loses its bit with PATH_LOST; a packet group with no packet for
1 us ends, its record going to the stamp log and the index on. It states when these complete: `.flowOpen`, `.flowClose`,
`.hostPush`, `.frameDeadline`, `.flowStall`, `.flowFallback`, `.pathLost`, `.packetGroupEnd`. -/
def Obligations.FlowsRunTheirCourse : Prop :=
  (∀ (dt : Nat) (d : Desc) (s : State),
     (let b := begun d d.trunc (tick dt s)
      Runs (.flowOpen dt d) s → flowFormatBad d.trunc b = none → (flowCfgOf d.trunc).ports.any (portTaken b) = false →
       (∀ n, shortage b (.flow d.trunc.context) (flowUnits b (flowCfgOf d.trunc)) = some n →
         exec (.flowOpen dt d) s = .next (complete d.trunc 0x20 (shortDetail n.1 n.2) b)) ∧
       (shortage b (.flow d.trunc.context) (flowUnits b (flowCfgOf d.trunc)) = none →
         ∃ t, exec (.flowOpen dt d) s = .next t ∧
           flowOf t d.trunc.context = some (newFlow (flowCfgOf d.trunc) d.trunc (tick dt s).now) ∧
           (∀ x, x ≠ d.trunc.context → flowOf t x = flowOf s x) ∧
           OnlyReply { s with ingest := t.ingest, adm := t.adm } t)) ∧
     (Runs (.flowClose dt d) s → ∀ f, flowOf s d.trunc.context = some f →
       (f.openFrame = none → f.due = [] → f.begunAny = false → ∃ t, exec (.flowClose dt d) s = .next t ∧
         flowOf t d.trunc.context = none ∧ (∀ x, x ≠ d.trunc.context → flowOf t x = (flowOf s x).map fun g =>
           if g.cfg.source = 1 ∧ g.cfg.width = d.trunc.context then { g with attached := false } else g) ∧
         OnlyReply { s with ingest := t.ingest, adm := t.adm } t) ∧
       (f.openFrame ≠ none → exec (.flowClose dt d) s = .next (setFlow d.trunc.context
         { f with closing := some (f.closing.getD [] ++ [d.trunc]) } (begun d d.trunc (tick dt s)))))) ∧
  (∀ (dt : Nat) (d : Desc) (f : Flow) (o : OpenFrame) (s : State), Runs (.hostPush dt d) s → flowOf s d.context = some f →
     f.openFrame = some o → o.cut = false → bitOf (d.p8 28) 0 = false → f.cfg.stampLog = false →
     (∀ h e, o.exh = some h → exhOf s h = some e → anyFrozen s (e.base + d.p32 24) d.length = false) →
     exec (.hostPush dt d) s = .next { begun d d (tick dt s) with adm := { s.adm with transfers := s.adm.transfers ++
       [⟨d, 0x0403, d.context, false, some o.number, [], bitOf (d.p8 28) 1, none, 0, 0⟩] } }) ∧
  (∀ (dt x : Nat) (f : Flow) (s : State), flowOf s x = some f →
     (∀ o h, f.due = [] → f.openFrame = some o → o.exh = some h → f.closing = none → f.state = .live → f.cfg.source ≠ 1 →
       flowReached (tick dt s) f.cfg o.tStart 1 f.cfg.window = true → ∃ t, exec (.frameDeadline dt x) s = .next t ∧
         (∃ g, flowOf t x = some g ∧ g.openFrame = none ∧ g.state = .frozen ∧ g.frozenAt = some (tick dt s).now ∧
           g.incomplete = bump f.incomplete ∧ g.cfg = f.cfg) ∧ (∀ y, y ≠ x → flowOf t y = flowOf s y) ∧
         (f.group = none ∨ f.cfg.stampLog = false → t.hbm = s.hbm) ∧ t.heads = s.heads ∧ t.gheler = s.gheler) ∧
     (f.begunAny = true → f.state = .live → f.cfg.source ≠ 1 → flowReached (tick dt s) f.cfg f.lastStart 2 f.cfg.window = true →
       exec (.flowStall dt x) s = .next (record (flowUnit f) 0x0702 (u16 x ++ u16 0 ++ u32 (f.newest.elim 0xFFFFFFFF (·.2)))
         (setFlow x { f with state := .frozen, frozenAt := some (tick dt s).now,
                             openFrame := f.openFrame.map fun o => { o with cut := true } } (tick dt s)))) ∧
     (∀ z, f.state = .frozen → f.frozenAt = some z → flowReached (tick dt s) f.cfg z f.cfg.freeze 0 = true →
       ∃ t, exec (.flowFallback dt x) s = .next t ∧ flowOf t x = some { f with state := .fallback } ∧
         (∀ y, y ≠ x → flowOf t y = flowOf s y) ∧ t.ports = s.ports ∧ t.gheler = s.gheler ∧ t.adm = s.adm)) ∧
  (∀ (dt x : Nat) (f : Flow) (s : State), flowOf s x = some f →
     (∀ p2, f.cfg.portSec = some p2 → f.lostPri = false → f.pathSec = true → f.lastPri + 400000000 ≤ (tick dt s).now →
       (tick dt s).now < f.lastSec + 400000000 →
       exec (.pathLost dt x false) s = .next (record (flowUnit f) 0x0705 (u16 x ++ u8 f.cfg.portPri)
         (setFlow x { f with pathPri := false, lostPri := true } (tick dt s)))) ∧
     (∀ p2, f.cfg.portSec = some p2 → f.lostSec = false → f.pathPri = true → f.lastSec + 400000000 ≤ (tick dt s).now →
       (tick dt s).now < f.lastPri + 400000000 →
       exec (.pathLost dt x true) s = .next (record (flowUnit f) 0x0705 (u16 x ++ u8 p2)
         (setFlow x { f with pathSec := false, lostSec := true } (tick dt s)))) ∧
     (∀ g, f.group = some g → g.last + 4000 ≤ (tick dt s).now → ∃ t, exec (.packetGroupEnd dt x) s = .next t ∧
       flowOf t x = some { f with
         group := none,
         logIdx := if f.cfg.stampLog = true ∧ 0 < (exhRange s f.cfg.stampExh).2 / 16 then
           (f.logIdx + 1) % ((exhRange s f.cfg.stampExh).2 / 16) else f.logIdx } ∧
       (f.cfg.stampLog = false → t.hbm = s.hbm) ∧ t = { tick dt s with
         ingest := t.ingest, hbm := t.hbm, ecc := { s.ecc with compBad := t.ecc.compBad } }))

/-- Ethernet packets reach their flow, and ports answer for themselves and follow their links. Packets reach their flow.
With no fault rules a packet that fails a port's checks, or that no flow claims, is counted in the port's drops; one that
repeats a sequence number of the open frame is counted as a duplicate; the first of a frame on a flow that has begun none
opens frame 0 in the exhibit the chain gives it, which fills. Ports answer for their own address and follow their links.
With no fault rules a running port answers an ARP or echo request for its IPV4 and no other; its link follows the cable, its
FEC only with the link. It states when these complete: `.ethPacket`, `.ethArpIcmp`, `.ethLinkChange`. -/
def Obligations.EthernetPacketsReachTheirFlow : Prop :=
  (∀ (dt k : Nat) (p : EthPkt) (s : State), NoFaults s → ethRuns s k = true →
     (ethFits s k p = false → exec (.ethPacket dt k p) s = .next (ethDrop k (tick dt s))) ∧
     (ethFits s k p = true → p.cls ≠ 2 → matchFlow s k p = none → exec (.ethPacket dt k p) s = .next (ethDrop k (tick dt s))) ∧
     (∀ x f o, ethFits s k p = true → p.cls ≠ 2 → matchFlow s k p = some (x, false) → flowOf s x = some f →
       p.pt = f.cfg.pt → rowsOutside s f p = false → ofStarved f p.rtp = false → isLate f p.rtp = false →
       f.openFrame = some o → o.rtp = p.rtp → o.cut = false →
       o.seqs.contains p.seq = true → f.lostPri = false → exec (.ethPacket dt k p) s = .next (setFlow x
         { f with pathPri := true, lastPri := (tick dt s).now, dup := bump f.dup } (tick dt s))) ∧
     (∀ x f h e, ethFits s k p = true → p.cls ≠ 2 → p.rows = [] → matchFlow s k p = some (x, false) → flowOf s x = some f →
       p.pt = f.cfg.pt → f.cfg.source = 0 → f.cfg.stampLog = false → ofStarved f p.rtp = false → isLate f p.rtp = false →
       f.openFrame = none →
       f.closing = none → f.state = .live → f.begunAny = false → f.lostPri = false → pickExh s f.cfg = some h →
       exhOf s h = some e → ∃ t, exec (.ethPacket dt k p) s = .next t ∧
         (∃ g o, flowOf t x = some g ∧ g.frameNo = 0 ∧ g.openFrame = some o ∧ o.number = 0 ∧ o.exh = some h ∧
           o.seqs = [p.seq] ∧ o.tStart = (tick dt s).now) ∧ exhOf t h = some { e with state := .filling } ∧
         (∀ y, y ≠ x → flowOf t y = flowOf s y) ∧ t = { tick dt s with ingest := t.ingest, adm := t.adm })) ∧
  (∀ (dt k a : Nat) (arp link fec : Bool) (s : State), NoFaults s → ethRuns s k = true →
     exec (.ethArpIcmp dt k a arp) s = .next (if a = ethAddr s k then
       emit (.eth k (ethVlan s k) (if arp then .arp a else .icmp a)) (tick dt s) else tick dt s) ∧
     exec (.ethLinkChange dt k link fec) s = .next (modEth k (fun e => { e with link := link, fec := fec && link }) (tick dt s)))

/-- DisplayPort sinks. A sink whose HPD is high trains at a rate its capability allows, with its record, and loses the link
with another; with no fault rules a line of the open frame that its stream frame began is written into it and noted as its
last, and one received with no flow on the sink is only noted. It states when these complete: `.dpLinkUp`, `.dpLinkLost`,
`.dpLine`. -/
def Obligations.DisplayPortSinksReceive : Prop :=
  ∀ (dt k : Nat) (s : State), NoFaults s →
    (∀ r n, hpdHigh s k = true → r ≤ maxRate s k → (dpOf s k).trained = false →
      exec (.dpLinkUp dt k r n) s = .next (record (0x0E + k) 0x0707 (u8 k ++ u8 r ++ u8 n) (modDp k
        (fun y => { y with trained := true, rate := r, lanes := n, line := none, discard := false, begun := false }) (tick dt s)))) ∧
    ((dpOf s k).trained = true → sinkFlow s k = none → exec (.dpLinkLost dt k) s = .next (record (0x0E + k) 0x0708 (u8 k)
      (modDp k (fun y => { y with trained := false, rate := 0, lanes := 0, line := none, discard := false, begun := false }) (tick dt s)))) ∧
    (∀ l, (dpOf s k).trained = true → sinkFlow s k = none → exec (.dpLine dt k l) s = .next (modDp k
      (fun y => let more := decide (l.line ≠ 0) && (dpOf s k).line.all fun n => decide (n < l.line)
        { y with line := some l.line, discard := y.discard && more, begun := y.begun && more }) (tick dt s))) ∧
    (∀ l x f o, (dpOf s k).trained = true → sinkFlow s k = some (x, f) → flowOf s x = some f → f.openFrame = some o →
      o.endSeen = false → f.cfg.stampLog = false → o.cut = false →
      (dpOf s k).discard = false → (dpOf s k).begun = true → l.line ≠ 0 → (∀ n, (dpOf s k).line = some n → n < l.line) →
      l.line + 1 ≠ f.cfg.height →
      ∃ t, exec (.dpLine dt k l) s = .next t ∧ (∃ g q, flowOf t x = some g ∧ g.openFrame = some q ∧
        q.lastLine = some (max l.line (o.lastLine.getD 0)) ∧ q.number = o.number ∧ q.exh = o.exh) ∧
        (∀ y, y ≠ x → flowOf t y = flowOf s y) ∧ t.heads = s.heads ∧ t.adm = s.adm ∧ t.gheler = s.gheler)

/-- Exhibits come and go, and their transfers begin. Exhibits come and go. An accepted EXH_REGISTER of a free handle on a
range that keeps clear of every exhibit and of the Vitrine region makes it FREE with what Table 8.2 declares; one that
overlaps completes with EXH_OVERLAP. An accepted EXH_FREE of a FREE or READY exhibit that no head and no chain owns frees or
unregisters it; of a pinned one it waits. ADM_QUERY answers the capacity and the units in use. Exhibit transfers begin. With
RATE 0, clear of frozen pseudo-channels, an accepted EXH_WRITE into an exhibit that is neither pinned nor owned fills it,
one into a pinned exhibit without FORCE waits with EXH_WRITE_HELD, and an accepted EXH_READ begins; a transfer under way
changes nothing else. It states when these complete: `.exhRegister`, `.exhFree`, `.admQuery`, `.exhWrite`, `.exhRead`. -/
def Obligations.ExhibitsComeAndGo : Prop :=
  (∀ (dt : Nat) (d : Desc) (s : State), let x := d.trunc; let b := begun d d.trunc (tick dt s); let h := d.trunc.p16 16
     (Runs (.exhRegister dt d) s → exhOf s h = none →
       (exhClash s (x.p64 24) (x.p64 32) = none → ∃ t e, exec (.exhRegister dt d) s = .next t ∧ exhOf t h = some e ∧
         e.kind = x.p8 18 ∧ e.archive = decide (x.p8 19 = 1) ∧ e.base = x.p64 24 ∧ e.size = x.p64 32 ∧ e.sampling = x.p8 40 ∧
         e.depth = x.p8 41 ∧ e.width = x.p16 42 ∧ e.height = x.p16 44 ∧ (x.p8 18 = 0 → e.pitch = pitchOf x) ∧
         e.state = .free ∧ e.pins = [] ∧ e.held = [] ∧ (∀ y, y ≠ h → exhOf t y = exhOf s y) ∧
         OnlyReply { s with adm := { s.adm with exhibits := t.adm.exhibits } } t) ∧
       ∀ o, exhClash s (x.p64 24) (x.p64 32) = some o → exec (.exhRegister dt d) s = .next (complete x 0x880 (u16 o) b)) ∧
     (Runs (.exhFree dt d) s → ∀ e, exhOf s h = some e → headOwned s h = none → inChain s h = none →
       (e.state = .free ∨ e.state = .ready → ∃ t, exec (.exhFree dt d) s = .next t ∧
         exhOf t h = (if bitOf (x.p8 18) 0 = true then none else some { e with state := .free }) ∧
         (∀ y, y ≠ h → exhOf t y = exhOf s y) ∧
         OnlyReply { s with adm := { s.adm with exhibits := t.adm.exhibits, items := t.adm.items } } t) ∧
       (e.state = .pinned → ∃ t f, exec (.exhFree dt d) s = .next t ∧
         exhOf t h = some { e with state := .retiring, held := e.held ++ [.free f] } ∧ f.desc = x ∧ f.afterFill = false ∧
         OnlyReply { s with adm := { s.adm with exhibits := t.adm.exhibits } } t)) ∧
     (Runs (.admQuery dt d) s → ∃ i t, slotOf (x.p8 16) (x.p8 17) = some i ∧ exec (.admQuery dt d) s = .next t ∧
       t = complete x 0 (u32 (s.adm.caps.getD i 0) ++ u32 (committed s i)) b ∧ OnlyReply s t)) ∧
  (∀ (dt : Nat) (d : Desc) (e : Exhibit) (s : State), let b := begun d d (tick dt s); let h := d.p16 24
     exhOf s h = some e → d.p32 28 = 0 →
     (Runs (.exhWrite dt d) s → headOwned s h = none → inChain s h = none →
       (e.state ≠ .pinned → e.state ≠ .retiring → anyFrozen s (e.base + d.p64 32) d.length = false →
         exec (.exhWrite dt d) s = .next { b with adm := { s.adm with
           exhibits := setKey h { e with state := .filling } s.adm.exhibits
           transfers := s.adm.transfers ++ [⟨d, 0x0503, h, false, none, [], false, none, e.base + d.p64 32, 0⟩] } }) ∧
       (e.state = .pinned → d.force = false → ∃ t, exec (.exhWrite dt d) s = .next t ∧
         exhOf t h = some { e with held := e.held ++ [.write d 0] } ∧ (∀ y, y ≠ h → exhOf t y = exhOf s y) ∧
         OnlyReply { s with adm := { s.adm with exhibits := t.adm.exhibits } } t)) ∧
     (Runs (.exhRead dt d) s → anyFrozen s (e.base + d.p64 32) d.length = false →
       exec (.exhRead dt d) s = .next { b with adm := { s.adm with
         transfers := s.adm.transfers ++ [⟨d, 0x0504, h, false, none, [], false, none, e.base + d.p64 32, 0⟩] } }))

/-- Transfers of exhibits and loads end as a whole. While the stacks are in self-refresh their ends wait (R434). Exhibit
transfers end. With all its bytes brought, no Archive region and no frozen pseudo-channel, an exhibit write lands byte by
byte at its place, changes no other byte and leaves the exhibit READY when it is the only one under way into it; an exhibit
read writes the exhibit's bytes to the host buffer and completes. Loads end as a whole. A DITHER_LOAD that no commit covers,
with its bytes, puts its tile into the head's open shadow and completes; a load whose host read failed while its completion
is owed completes with HOST_READ_ERROR and the bytes it got, and changes nothing of the head. It states when these complete:
`.transferDone`, `.hostTransferDone`. -/
def Obligations.TransfersEndAsAWhole : Prop :=
  (∀ (dt ring tag : Nat) (buf : HostBuf) (tr : Transfer) (s : State), s.hbm.selfRef = true →
     (xferOf s ring tag [0x0503, 0x0504] = some tr → exec (.transferDone dt ring tag buf) s = .next { tick dt s with
       hbm := { s.hbm with host := s.hbm.host ++ [.ended ring tag false buf] } }) ∧
     (xferOf s ring tag loadOpcodes = some tr → exec (.hostTransferDone dt ring tag buf) s = .next { tick dt s with
       hbm := { s.hbm with host := s.hbm.host ++ [.ended ring tag true buf] } })) ∧
  (∀ (dt ring tag : Nat) (bs : List Byte) (tr : Transfer) (e : Exhibit) (s : State), let a := tr.place
     s.memOk → s.ecc.archives = [] → exhOf s tr.object = some e → anyFrozen s a tr.desc.length = false →
     s.hbm.selfRef = false → s.hbm.host = [] → xferOf s ring tag [0x0503, 0x0504] = some tr → tr.desc.fwd = none → tr.fin = false → tr.held = none → xferRevoked tr s = false →
     (tr.opcode = 0x0503 → tr.force = false → bs.length = tr.desc.length → e.held = [] →
       (∀ u ∈ s.adm.transfers.erase tr, u.object ≠ tr.object) → ∃ t, exec (.transferDone dt ring tag (.data bs)) s = .next t ∧
         (∀ i (h : i < bs.length), rawByte t (a + i) = bs[i]) ∧ (∀ x, x < a ∨ a + bs.length ≤ x → rawByte t x = rawByte s x) ∧
         exhOf t tr.object = some { e with state := .ready } ∧ (∀ y, y ≠ tr.object → exhOf t y = exhOf s y) ∧
         t.adm.transfers = s.adm.transfers.erase tr ∧ t.ports = s.ports ∧ t.gheler = s.gheler ∧ t.ingest = s.ingest) ∧
     (tr.opcode = 0x0504 → anyBad s a tr.desc.length = false → ∃ t, exec (.transferDone dt ring tag (.data bs)) s = .next t ∧
       .host (tr.desc.p64 16) (readHbm s a tr.desc.length) ∈ t.out ∧ t.adm.transfers = s.adm.transfers.erase tr ∧
       OnlyReply { s with adm := { s.adm with transfers := t.adm.transfers, items := t.adm.items } } t)) ∧
  (∀ (dt ring tag : Nat) (bs : List Byte) (tr : Transfer) (s : State),
     s.hbm.selfRef = false → xferOf s ring tag loadOpcodes = some tr → tr.desc.fwd = none → tr.held = none →
     (tr.opcode = 0x0902 → ∃ t, exec (.hostTransferDone dt ring tag (.data bs)) s = .next t ∧
       t.heads = upd s.heads (tr.desc.p8 24) (fun h => { h with pipe := { h.pipe with openSh := h.pipe.openSh ++
         [⟨tr.desc.ring, (tick dt s).now, { Reset.shadow with
           dither := [(tr.desc.p8 25, (List.range 65536).map fun i => fieldOf (padTo tr.desc.length bs) (2 * i) 2)] }⟩] } }) ∧
       OnlyReply { s with heads := t.heads, adm := { s.adm with transfers := s.adm.transfers.erase tr } } t) ∧
     (tr.opcode = 0x0801 ∨ tr.opcode = 0x0902 ∨ tr.opcode = 0x0A02 ∨ tr.opcode = 0x0C02 → owes tr.desc s = true →
       exec (.hostTransferDone dt ring tag (.error bs)) s = .next (complete tr.desc 0x501 (u64 bs.length)
         { tick dt s with adm := { s.adm with transfers := s.adm.transfers.erase tr } })))

/-- A retire fence retires the head's pins. When a head's last read for the frame being composed ends, its fence is that
frame, no exhibit keeps a pin of the head, and nothing else of the heads changes. It states when these complete:
`.retireFence`. -/
def Obligations.RetireFencesUnpin : Prop :=
  ∀ (dt k : Nat) (s : State), (headOf s k).pipe.composing = true → (headOf s k).pipe.cfg ≠ none →
    ∃ t, exec (.retireFence dt k) s = .next t ∧ (∀ h e, exhOf t h = some e → ∀ p ∈ e.pins, p.1 ≠ k) ∧
      t.heads = upd s.heads k (fun h => { h with pipe := { h.pipe with
        composing := false, retired := (tick dt s).now, fence := h.pipe.frame } }) ∧
      OnlyReply { s with heads := t.heads, adm := { s.adm with
        exhibits := t.adm.exhibits, transfers := t.adm.transfers, items := t.adm.items } } t

/-! ### Heads, composition and the Vitrine (chapters 9, 10) -/

/-- HEAD_CONFIG and HEAD_RELEASE. An accepted HEAD_CONFIG with its whole block, which passes the checks of R206 and R13 for
a head that is not configured, at no boot stage of shedding that keeps heads down, configures it with the anchor of R16 when
it is admitted and completes NOT_ADMITTED when not; an accepted HEAD_RELEASE is set for the first frame its guard meets or
later, a second one completes with RELEASE_PENDING. It states when these complete: `.headConfig`, `.headRelease`. -/
def Obligations.HeadsAreConfiguredAndReleased : Prop :=
  ∀ (dt : Nat) (d : Desc) (s : State),
    (∀ x : List Byte, let b := begun d d (tick dt s); let blk := resolveBlock b (padTo 128 x); let k := fieldOf blk 0 1
      let c := blockCfg blk
      Runs (.headConfig dt d (.data x)) s → d.length = 128 → d.fwd = none → blockBad blk = none →
      c.comp.any (compBad b k c) = false → vitrineRefuses b k c = none → (headOf s k).pipe.cfg = none → k < s.heads.length →
      resourceRefused b k c = none → s.power.bootStage < 3 →
      (shortage b (.head k) (headUnits b k c) = none → ∃ t, exec (.headConfig dt d (.data x)) s = .next t ∧
        (headOf t k).pipe.cfg = some { c with
          anchor := anchorFor c (tick dt s).now, f0 := [c.anchor, anchorFor c (tick dt s).now] } ∧ (headOf t k).pipe.layers = [] ∧
        (headOf t k).pipe.count = 0 ∧ (∀ j, j ≠ k → headOf t j = headOf s j) ∧
        OnlyReply { s with heads := t.heads, adm := { s.adm with items := t.adm.items } } t) ∧
      ∀ n, shortage b (.head k) (headUnits b k c) = some n →
        exec (.headConfig dt d (.data x)) s = .next (complete d 0x20 (shortDetail n.1 n.2) b)) ∧
    (Runs (.headRelease dt d) s → let k := d.trunc.p8 16
      ((headOf s k).pipe.releasing = none → ∃ t m, exec (.headRelease dt d) s = .next t ∧
        (headOf t k).pipe = { (headOf s k).pipe with releasing := some (d.trunc, m) } ∧ (headOf s k).pipe.meets d.t ≤ m ∧
        (∀ j, j ≠ k → headOf t j = headOf s j) ∧ ((s.power.state = .p2 → s.hbm.host = []) → t = { begun d d.trunc (tick dt s) with
          heads := t.heads, power := { s.power with state := t.power.state }, hbm := { s.hbm with selfRef := t.hbm.selfRef } })) ∧
      ((headOf s k).pipe.releasing ≠ none →
        exec (.headRelease dt d) s = .next (complete d.trunc 0x984 (u8 k) (begun d d.trunc (tick dt s)))))

/-- Heads begin with the identity. After each HEAD_CONFIG that configures a head, E holds 1.0 where the column is the
primary's remainder by three, and 0 otherwise. It states when these complete: `.headConfig`. -/
def Obligations.HeadsBeginWithTheIdentity : Prop :=
  ∀ (dt : Nat) (d : Desc) (x : List Byte) (s : State), let b := begun d d (tick dt s); let blk := resolveBlock b (padTo 128 x)
    let k := fieldOf blk 0 1; let c := blockCfg blk
    Runs (.headConfig dt d (.data x)) s → d.length = 128 → d.fwd = none → blockBad blk = none →
    c.comp.any (compBad b k c) = false → vitrineRefuses b k c = none → (headOf s k).pipe.cfg = none → k < s.heads.length →
    resourceRefused b k c = none → s.power.bootStage < 3 → shortage b (.head k) (headUnits b k c) = none →
    ∃ t, exec (.headConfig dt d (.data x)) s = .next t ∧ (headOf t k).pipe.cfg ≠ none ∧ (headOf t k).solver.e.length = 18 ∧
      ∀ p < 6, ∀ j < 3, (headOf t k).solver.e.getD (3 * p + j) 0 = if j = p % 3 then 0x01000000 else 0

/-- Loads write the open shadow, COMMIT seals it, and a start event composes. LAYER_SET and COEF_LOAD write the open shadow.
An accepted LAYER_SET with no custom table, valid and admitted, puts its layer into the open shadow and leaves the layers in
force; an invalid one completes with LAYER_INVALID and the field's offset. An accepted COEF_LOAD of whole phases begins its
transfer; of a broken phase it completes with COEF_SUM. A commit seals the open shadow. An accepted COMMIT of a head outside
Cave hold that has nothing sealed seals, for T or the first later CSE that its guard meets, the writes of its own ring and
those completed before its doorbell, covers the loads of its ring still under way, and leaves the others in the open shadow;
with two targets sealed and neither at its own or later it completes with COMMIT_BUSY and their frames. A compose start
composes the frame. At a new CSE_n of a configured head that is not stopping, released or in Cave hold, frame n is composed
into the next count: FRAME, CSE and COUNT follow, the head reads its frame from then on, and no other head changes; a CSE
already passed changes nothing but the time. It states when these complete: `.layerSet`, `.coefLoad`, `.commit`,
`.composeStartEvent`. -/
def Obligations.ShadowsAreFilledSealedAndComposed : Prop :=
  (∀ (dt : Nat) (d : Desc) (s : State),
     (∀ c, let x := d.trunc; let b := begun d d.trunc (tick dt s); let k := d.trunc.p8 16; let y := d.trunc.p8 17
       let l := layerOf d.trunc
       Runs (.layerSet dt d) s → (headOf s k).pipe.cfg = some c →
       (∀ o, layerInvalid b c x = some o → exec (.layerSet dt d) s = .next (complete x 0x982 (u16 o) b)) ∧
       (layerInvalid b c x = none → l.tf ≠ 15 → l.enc ≠ 15 → shortage b (.layer k y) (layerUnits b k c y l) = none →
         ∃ t, exec (.layerSet dt d) s = .next t ∧
           t.heads = upd s.heads k (fun h => { h with pipe := { h.pipe with openSh := h.pipe.openSh ++ [⟨x.ring, (tick dt s).now,
             { Reset.shadow with layers := [(y, { l with
               tables := if l.enable then presetTables s c l ⟨[], [], []⟩ else ⟨[], [], []⟩ })] }⟩] } }) ∧
           OnlyReply { s with heads := t.heads, adm := { s.adm with items := t.adm.items } } t)) ∧
     (Runs (.coefLoad dt d) s → exec (.coefLoad dt d) s = .next (if d.length % 16 = 0 then
       { begun d d (tick dt s) with adm := { s.adm with transfers := s.adm.transfers ++
         [⟨d, 0x0801, d.p8 24, false, none, [], false, none, 0, 0⟩] } } else complete d 0xA80 (u8 0xFF) (begun d d (tick dt s))))) ∧
  (∀ (dt : Nat) (d : Desc) (s : State), let x := d.trunc; let k := d.trunc.p8 16; let p := (headOf s k).pipe
     let b := begun d d.trunc (tick dt s); let n := applyFrame (headOf s k) x.t (targetOf p x.t (x.p32 20))
     Runs (.commit dt d) s → (headOf s k).cave.state = .off →
     (p.sealed_ = [] → exec (.commit dt d) s = .next { b with
       heads := upd s.heads k (fun h => { h with cave := { h.cave with latest := max h.cave.latest x.t }, pipe := { h.pipe with
         openSh := p.openSh.filter fun w => !sealsWrite x w
         sealed_ := [⟨n, shadowOf (p.openSh.filter (sealsWrite x)), [⟨x, targetOf p x.db (x.p32 20), false, none⟩]⟩] } })
       adm := { s.adm with transfers := s.adm.transfers.map fun t =>
         if t.object = k ∧ isShadowLoad t.opcode ∧ t.desc.ring = d.ring ∧ t.held = none then { t with held := some n } else t } }) ∧
     (sealBusy s k n = true → exec (.commit dt d) s = .next (complete x 0x983 (busyDetail s k) b))) ∧
  (∀ (dt k n : Nat) (lb : List ScalerErr) (bad : List (Nat × Nat × Nat)) (s : State), let p := (headOf s k).pipe
     p.cfg ≠ none → p.lastCse (tick dt s).now = some n →
     (p.count ≠ 0 → n ≤ p.frame → exec (.composeStartEvent dt k bad lb) s = .next (tick dt s)) ∧
     ((p.count = 0 ∨ p.frame < n) → p.stopping = false → p.releasing = none → (headOf s k).cave.state = .off →
       (headOf s k).cave.request = none → ∃ t, exec (.composeStartEvent dt k bad lb) s = .next t ∧
         (headOf t k).pipe.frame = n ∧ (headOf t k).pipe.cse = p.cseAt n ∧ (headOf t k).pipe.count = p.count + 1 ∧
         (headOf t k).pipe.composing = true ∧ (headOf t k).pipe.composed = ((n, p.count) :: p.composed).take 3 ∧
         (headOf t k).pipe.cfg ≠ none ∧ (∀ j, j ≠ k → headOf t j = headOf s j) ∧ t.power = s.power ∧ t.time = (tick dt s).time ∧
         t.ingest = s.ingest ∧ t.gheler = s.gheler ∧ t.training = s.training ∧ t.thermal = s.thermal ∧ t.wear = s.wear))

/-- Group commits. One of a single member that nothing refuses seals on each head it names what a commit seals of its open
shadow and keeps a group with its GO; a READY is noted at its group; a GO in time sets the target of the sealed shadows and
of the group; a decision with a member missing counts the frames deferred and is recorded; an abandoned group leaves with
its sealed shadows. It states when these complete: `.groupCommit`, `.groupReady`, `.groupGo`, `.groupDecision`,
`.groupAbandoned`. -/
def Obligations.GroupsCommitTogether : Prop :=
  ∀ (dt : Nat) (s : State),
    (∀ d : Desc, let x := d.trunc; let b := begun d d.trunc (tick dt s); let hs := bitsOf (d.trunc.p8 18) 8
      Runs (.groupCommit dt d) s →
      (∀ r, groupRefused b hs (x.p16 20) = some r → exec (.groupCommit dt d) s = .next (complete x r.1 (u8 r.2) b)) ∧
      (groupRefused b hs (x.p16 20) = none → x.p16 20 = 1 → (∀ k ∈ hs, (headOf s k).pipe.sealed_ = []) →
        ∃ t, exec (.groupCommit dt d) s = .next t ∧ (∀ k ∈ hs,
          (headOf t k).pipe.openSh = ((headOf s k).pipe.openSh.filter fun w => !sealsWrite x w) ∧ ∃ y,
          (headOf t k).pipe.sealed_ = [y] ∧ y.shadow = shadowOf ((headOf s k).pipe.openSh.filter (sealsWrite x)) ∧ y.commits.map (·.desc) = [x]) ∧
          (∃ g ∈ t.groups, g.gid = x.p16 16 ∧ g.heads = hs ∧ g.desc = some x ∧ g.go ≠ none) ∧
          (∀ j, j ∉ hs → headOf t j = headOf s j) ∧ t.ports = s.ports ∧ t.ingest = s.ingest ∧ t.gheler = s.gheler)) ∧
    (∀ gid src e, (∃ g ∈ s.groups, g.gid = gid) → exec (.groupReady dt gid src e) s = .next { tick dt s with
      groups := s.groups.map fun g => if g.gid = gid then { g with ready := setKey src e g.ready } else g }) ∧
    (∀ gid g, (s.groups.find? fun g => g.gid = gid ∧ g.desc.isSome ∧ g.go.isNone) = some g →
      (∀ frame, (∀ k ∈ g.heads, (tick dt s).now ≤ (headOf s k).pipe.cseAt frame) →
        (∀ k ∈ g.heads, ∀ y ∈ (headOf s k).pipe.sealed_, ∀ z ∈ (headOf s k).pipe.sealed_, (∃ c ∈ y.commits, c.group = some gid) →
          (∃ c ∈ z.commits, c.group = some gid) → y.target = z.target ∧ y.target ≤ frame) → ∃ t, exec (.groupGo dt gid frame) s = .next t ∧
        (∀ k ∈ g.heads, ∀ y ∈ (headOf t k).pipe.sealed_, (∃ c ∈ y.commits, c.group = some gid) → y.target = frame) ∧
        (∀ h ∈ t.groups, h.gid = gid → h.go = some frame) ∧ (∀ j, j ∉ g.heads → headOf t j = headOf s j) ∧
        t = { tick dt s with heads := t.heads, groups := t.groups, adm := { s.adm with transfers := t.adm.transfers } }) ∧
      (∀ m, g.leader = catDevice s → (headOf s (g.heads.headD 0)).pipe.lastCse ((tick dt s).now +
          ((headOf s (g.heads.headD 0)).pipe.cfg.elim 0 (·.guard)) - 24000) = some m → g.target + g.deferred ≤ m →
        g.ready.length ≠ g.members → exec (.groupDecision dt gid) s = .next (record (0x10 + g.heads.headD 0) 0x0903
          (u16 gid ++ u32 m ++ u16 (g.members - (g.ready.filter fun r => decide (r.2 ≤ m)).length))
          (modGroup gid (fun h => { h with deferred := m + 1 - h.target }) (tick dt s)))) ∧
      ((∀ k ∈ g.heads, (headOf s k).pipe.cseAt (g.target + 16) ≤ (tick dt s).now) → ∃ t, exec (.groupAbandoned dt gid) s = .next t ∧
        (∀ h ∈ t.groups, h.gid ≠ gid) ∧
        (∀ k ∈ g.heads, ∀ y ∈ (headOf t k).pipe.sealed_, ∀ c ∈ y.commits, c.group ≠ some gid) ∧
        (∀ j, j ∉ g.heads → headOf t j = headOf s j) ∧ OnlyReply { s with heads := t.heads, groups := t.groups } t))

/-- The Vitrine function. An accepted VITRINE_SET without a mask mismatch applies at once on a head that is not configured
and waits on one that is; an accepted VITRINE_LOAD clear of frozen pseudo-channels begins its transfer into the bank not
shown. A keyed management command at another address or with a bad check does nothing; without a key or in lockout, or with
a wrong key, it changes no head; a lockout ends after its time. It states when these complete: `.vitrineSet`,
`.vitrineLoad`, `.vitrineMgmtSet`, `.vitrineLockoutEnd`. -/
def Obligations.VitrineIsSetFromPf1 : Prop :=
  ∀ (dt : Nat) (s : State),
    (∀ d : Desc, let x := d.trunc; let k := d.trunc.p8 16; let f := d.trunc.p8 17; Runs (.vitrineSet dt d) s → k < s.heads.length →
      (configured s k = false → ∃ t, exec (.vitrineSet dt d) s = .next t ∧ (headOf t k).vit = { (headOf s k).vit with
          content := bitOf f 0, mask := bitOf f 1
          bank := if bitOf f 2 = true then 1 - (headOf s k).vit.bank else (headOf s k).vit.bank
          gate := bitOf f 3, loaded := (headOf s k).vit.loaded || bitOf f 1, canvasW := x.p16 18, canvasH := x.p16 20 } ∧
        t.vitKey = { s.vitKey with key := if bitOf f 4 = true then x.p32 24 else s.vitKey.key } ∧
        (∀ j, j ≠ k → headOf t j = headOf s j) ∧ OnlyReply { s with heads := t.heads, vitKey := t.vitKey } t) ∧
      (configured s k = true → vitMismatch s k (vitOf x false) = none → ∃ t, exec (.vitrineSet dt d) s = .next t ∧
        (headOf t k).vit = { (headOf s k).vit with pending := (headOf s k).vit.pending ++ [vitOf x false] } ∧
        (∀ j, j ≠ k → headOf t j = headOf s j) ∧ ((s.power.state = .p2 → s.hbm.host = []) → t = { begun d x (tick dt s) with
          heads := t.heads, power := { s.power with state := t.power.state }, hbm := { s.hbm with selfRef := t.hbm.selfRef } }))) ∧
    (∀ d : Desc, let k := d.p8 24; let bank := 1 - (headOf s k).vit.bank; Runs (.vitrineLoad dt d) s →
      (2 ≤ d.p8 25 ∨ anyFrozen s (vitAddr s k bank (d.p8 25) (d.p32 28)) d.length = false) → exec (.vitrineLoad dt d) s = .next
        { begun d d (tick dt s) with adm := { s.adm with transfers := s.adm.transfers ++
          [⟨d, 0x0711, k, false, some bank, [], false, none, 0, 0⟩] } }) ∧
    (∀ (f : BusFrame) key pl, (served f s = false → exec (.vitrineMgmtSet f key pl) s = .next (tick f.dt s)) ∧ (served f s = true →
      (s.vitKey.key = 0 ∨ s.vitKey.lockout ≠ none → exec (.vitrineMgmtSet f key pl) s = .next { tick f.dt s with
        vitKey := { s.vitKey with status := 0x987 } }) ∧
      (s.vitKey.key ≠ 0 → s.vitKey.lockout = none → key % 2 ^ 32 ≠ s.vitKey.key → ∃ t, exec (.vitrineMgmtSet f key pl) s = .next t ∧
        t.vitKey.status = 0x987 ∧ t.vitKey.count = min 65535 (s.vitKey.count + 1) ∧ t.vitKey.key = s.vitKey.key ∧
        OnlyRecords { s with vitKey := t.vitKey } t) ∧
      (s.vitKey.key ≠ 0 → s.vitKey.lockout = none → key % 2 ^ 32 = s.vitKey.key → ∀ k < s.heads.length, k < 8 → configured s k = false →
        ∃ t, exec (.vitrineMgmtSet f key [BitVec.ofNat 8 k, 9]) s = .next t ∧ t.vitKey = { s.vitKey with status := 0 } ∧
          (headOf t k).vit.content = true ∧ (headOf t k).vit.gate = true ∧ (headOf t k).vit.mask = false ∧
          (∀ j, j ≠ k → headOf t j = headOf s j) ∧ OnlyRecords { s with heads := t.heads, vitKey := t.vitKey } t))) ∧
    (∀ u, s.vitKey.lockout = some u → u ≤ (tick dt s).now → exec (.vitrineLockoutEnd dt) s = .next { tick dt s with
      vitKey := { s.vitKey with lockout := none } })

/-! ### The Press, motion, scan-line mode, the colour solver (chapters 11, 12, 14, 15) -/

/-- Settings of a head wait for their frame, and loads of its buffers begin. Settings wait for their frame. With its whole
data, passing its checks and admitted where it must be, an accepted RECIPE_LOAD, MOTION_CFG, SOLVER_CFG, CAL_LOAD or
CAL_CORRECT of a head becomes that head's pending one, owes its completion, and leaves what is in force and every other head
as they were; a CAL_CORRECT whose frame's history reads as uncorrectable completes with CAL_FRAME_GONE (Table 20.3). Loads
of buffers begin. An accepted DITHER_LOAD, SCAN_PROFILE_LOAD, and a VECTOR_LOAD of a whole field for a frame whose press
start lies ahead and whose field exhibit is no longer read, begin their transfers; a field that comes too late completes
with VECTOR_LATE and the press start of its frame. It states when these complete: `.recipeLoad`, `.motionCfg`, `.solverCfg`,
`.calLoad`, `.calCorrect`, `.ditherLoad`, `.scanProfileLoad`, `.vectorLoad`. -/
def Obligations.SettingsAndBuffersWaitForTheirFrame : Prop :=
  (∀ (dt : Nat) (d : Desc) (x : List Byte) (s : State), d.fwd = none →
     (let b := begun d d (tick dt s); let k := d.p8 24; let bs := padTo (max 160 d.length) (x.take d.length)
      ∀ c, (headOf s k).pipe.cfg = some c → let r := parseRecipe bs (d.p16 26) [d.p16 28, d.p16 30] c.scan
       Runs (.recipeLoad dt d (.data x)) s → (headOf s k).press.pending = none →
       (if c.scan = true then scanRecipeBad b k c bs d.length r else planeRecipeBad b k c bs d.length r) = none →
       (∀ h ∈ [d.p16 28, d.p16 30], r.storeSize c ≤ (exhRange s h).2) → (headOf s k).motion.counted = none →
       shortageMany b [(.recipe k, recipeUnits b k c r (reducedNow s))] = none → ∃ t, exec (.recipeLoad dt d (.data x)) s = .next t ∧
         (headOf t k).press = { (headOf s k).press with pending := some ({ r with red := reducedNow s }, d) } ∧ (∀ j, j ≠ k → headOf t j = headOf s j) ∧
         ((s.power.state = .p2 → s.hbm.host = []) → t = { b with
           heads := t.heads, adm := { s.adm with items := t.adm.items }
           power := { s.power with state := t.power.state }, hbm := { s.hbm with selfRef := t.hbm.selfRef } })) ∧
     (let m := d.trunc; let b := begun d m (tick dt s); let k := d.trunc.p8 16; let cfg := motionOf d.trunc
      ∀ c, (headOf s k).pipe.cfg = some c → Runs (.motionCfg dt d) s → motionInvalid c m = none →
       (headOf s k).motion.pending = none →
       (cfg.source = 0 ∨ (otherBands s k + bandBytes c cfg.band ≤ motionPool ∧ shortage b (.motion k)
         (motionUnits b k c cfg (headOf s k).press.counted ((headOf s k).press.countedForm || reducedNow s)) = none)) →
       s.power.bootStage < 3 →
       ∃ t, exec (.motionCfg dt d) s = .next t ∧ (headOf t k).motion = { (headOf s k).motion with pending := some (cfg, m) } ∧
         (∀ j, j ≠ k → headOf t j = headOf s j) ∧
         ((s.power.state = .p2 → s.hbm.host = []) → t = { b with
           heads := t.heads, adm := { s.adm with items := t.adm.items }
           power := { s.power with state := t.power.state }, hbm := { s.hbm with selfRef := t.hbm.selfRef } })) ∧
     (let m := d.trunc; let k := d.trunc.p8 16; Runs (.solverCfg dt d) s → solverInvalid s m = none → solverBusy s k = none →
       exec (.solverCfg dt d) s = .next (modSolver k (fun v => { v with pending := some (.cfg ⟨decide (m.p8 17 = 1), m.p8 18,
         bitOf (m.p8 19) 0, m.p32 20, m.p32 24, m.p16 28, m.p8 30, m.p8 31⟩, m, changeFrame s k m.t) }) (begun d m (tick dt s)))) ∧
     (let k := d.p8 24; let bs := padTo (max 128 d.length) (x.take d.length); Runs (.calLoad dt d (.data x)) s →
       calInvalid bs d.length = none → (∀ e ∈ (calOf bs).entries, chanOwner s e.chan = some k) → solverBusy s k = none →
       exec (.calLoad dt d (.data x)) s = .next (modSolver k (fun v => { v with
         pending := some (.cal (calOf bs), d, changeFrame s k d.t) }) (begun d d (tick dt s)))) ∧
     (let m := d.trunc; let k := d.trunc.p8 16; ∀ e, Runs (.calCorrect dt ⟨d, []⟩) s → m.p16 18 = 1 →
       ((headOf s k).solver.history.find? fun e => e.frame = m.p32 20) = some e → solverBusy s k = none →
       let est := meanEst [if m.p8 17 = 255 then e.white else e.phi.getD (m.p8 17) []]
       let meas : Vec3 := ((m.p32 24 : Rat) / 65536, (m.p32 28 : Rat) / 65536, (m.p32 32 : Rat) / 65536)
       let tot := fun v : Vec3 => v.1 + v.2.1 + v.2.2
       let f := meas.2.1 / est.2.1
       let dx := meas.1 / tot meas - est.1 / tot est
       let dy := meas.2.1 / tot meas - est.2.1 / tot est
       est.2.1 ≠ 0 → tot est ≠ 0 → tot meas ≠ 0 → 1 / 2 ≤ f → f ≤ 2 → rabs dx ≤ 1 / 50 → rabs dy ≤ 1 / 50 →
       exec (.calCorrect dt ⟨d, []⟩) s = .next (modSolver k (fun v => { v with pending := some (.correct (m.p8 17)
         (f * 4294967296).floor (roundAway (dx * 50000)) (roundAway (dy * 50000)), m, changeFrame s k m.t) })
         (begun d m (tick dt s)))) ∧
     (let m := d.trunc; let k := d.trunc.p8 16; ∀ lost, Runs (.calCorrect dt ⟨d, lost⟩) s → lost ≠ [] → solverBusy s k = none →
       exec (.calCorrect dt ⟨d, lost⟩) s = .next (complete m 0xF82
         (u32 ((headOf s k).solver.history.getLast?.elim 0xFFFFFFFF (·.frame))) (countBad (0x10 + k) lost (begun d m (tick dt s)))))) ∧
  (∀ (dt : Nat) (d : Desc) (s : State), let k := d.p8 24; let b := begun d d (tick dt s)
     (Runs (.ditherLoad dt d) s → (∃ t, exec (.ditherLoad dt d) s = .next t ∧ t.adm.transfers = s.adm.transfers ++
         [⟨d, 0x0902, k, false, none, [], false, none, 0, 0⟩]) ∧
       ((headOf s k).cave.state = .off → exec (.ditherLoad dt d) s = .next (modCave k (fun v => { v with
         latest := max v.latest d.t }) { b with adm := { s.adm with
           transfers := s.adm.transfers ++ [⟨d, 0x0902, k, false, none, [], false, none, 0, 0⟩] } }))) ∧
     (Runs (.scanProfileLoad dt d) s → exec (.scanProfileLoad dt d) s = .next { b with adm := { s.adm with
       transfers := s.adm.transfers ++ [⟨d, 0x0C02, k, false, none, [], false, none, 0, 0⟩] } }) ∧
     (∀ c m, Runs (.vectorLoad dt d) s → (headOf s k).pipe.cfg = some c → (headOf s k).motion.cfg = some m →
       d.length = fieldBytes c → (d.p32 28 < 3 ∨ prdOf s k (d.p32 28 - 3) ≤ (tick dt s).now) →
       (pseOf s k (d.p32 28) ≤ (tick dt s).now →
         exec (.vectorLoad dt d) s = .next (complete d 0xC80 (u32 (d.p32 28) ++ u32 (pseOf s k (d.p32 28))) b)) ∧
       ((tick dt s).now < pseOf s k (d.p32 28) → anyFrozen s (exhRange s (fieldExh m (d.p32 28))).1 d.length = false →
         (headOf s k).cave.state = .off → exec (.vectorLoad dt d) s = .next (modCave k (fun v => { v with
           latest := max v.latest d.t }) { b with adm := { s.adm with
             transfers := s.adm.transfers ++ [⟨d, 0x0A02, k, false, none, [], false, none, 0, 0⟩] } }))))

/-- The Press presses the composed frame, the Survey completes its field, a solve queues its matrix. The Press presses the
composed frame. From its press start the newest composed frame of a head under a Recipe is taken in hand once, and memory
stays; its end with nothing unreadable writes its planes, every byte outside those of its store staying, makes FRAME that
frame, keeps the least slack and is recorded when it comes after PRD; nothing of another head changes. The Survey's field is
complete. With SOURCE 2 in force and in time for it, the field of the frame after the one surveyed becomes usable, and no
byte outside that field and the frame's pyramid changes. SOLVE_DONE. The solve of an ended frame under MODE 0 without a
calibration queues the unit matrix for the load two frames on, outside Cave hold, and is done with; with a read error the
matrix holds and COLOUR_HELD is recorded. Nothing else changes. It states when these complete: `.pressStartEvent`,
`.pressFrameDone`, `.surveyFieldDone`, `.solveDone`. -/
def Obligations.FramesArePressedAndMeasured : Prop :=
  (∀ (dt k n : Nat) (s : State), let h := headOf s k
     (∀ c cnt r red errs, h.pipe.cfg = some c → h.pipe.composed.head? = some (n, cnt) → h.press.governing n = some (r, red) →
       (pseOf s k n ≤ (tick dt s).now → h.press.pressing ≠ some n → n ∉ h.press.pressed →
         ∃ t, exec (.pressStartEvent dt k errs) s = .next t ∧ (headOf t k).press.pressing = some n ∧
           (∃ j, (headOf t k).press.job = some j ∧ j.env.n = n ∧ j.env.cnt = cnt ∧ j.recipe = r ∧ j.reduced = red ∧ j.taken = 0) ∧
           (headOf t k).pipe = h.pipe ∧ (∀ j, j ≠ k → headOf t j = headOf s j) ∧ t.adm = s.adm ∧ t.ports = s.ports ∧
           t.power = s.power ∧ t.time = (tick dt s).time ∧ t.ingest = s.ingest ∧ t.gheler = s.gheler ∧
           (h.press.pressing = none → t.hbm = s.hbm)) ∧
       ((tick dt s).now < pseOf s k n → exec (.pressStartEvent dt k errs) s = .next (tick dt s))) ∧
     (∀ errs, h.press.pressing = some n → noErrs errs = true → allReadable s = true →
       (∀ j, h.press.job = some j → j.env.errs.tiles = []) → ∃ t, exec (.pressFrameDone dt k errs) s = .next t ∧
       t.heads = upd s.heads k (fun h => { h with press := { h.press with
         pressing := none, job := none, frame := n, pressed := (n :: h.press.pressed).take 2, done := (tick dt s).now,
         slackMin := min h.press.slackMin (prdOf s k n - (tick dt s).now) } }) ∧
       ((tick dt s).now ≤ prdOf s k n → t = { tick dt s with heads := t.heads, hbm := t.hbm }) ∧
       OnlyRecords { s with heads := t.heads, hbm := { s.hbm with cells := t.hbm.cells, lanes := t.hbm.lanes } } t ∧
       (h.press.job = none → t.hbm = s.hbm) ∧
       (∀ j, h.press.job = some j → s.memOk → s.ecc.archives = [] → j.recipe.isScan = false → ∀ a,
         (∀ ai ∈ j.recipe.arrays.zipIdx, ∀ x ∈ j.recipe.inSeq j.reduced ai.1.seq, ∀ y < ai.1.wh,
           a < planeRowAddr s j.recipe j.env.n ai.2 ai.1 x.order y ∨
             planeRowAddr s j.recipe j.env.n ai.2 ai.1 x.order y + ai.1.rowPitch ≤ a) → rawByte t a = rawByte s a))) ∧
  (∀ (dt k n cnt : Nat) (c : HeadCfg) (m : MotionCfg) (s : State), let h := headOf s k
     h.pipe.cfg = some c → h.motion.cfg = some m → surveyFrame (tick dt s) k h.motion = some (n, cnt) → m.source = 2 →
     (tick dt s).now ≤ pseOf s k (n + 1) → ∃ t, exec (.surveyFieldDone dt k) s = .next t ∧
       t.heads = upd s.heads k (fun h => { h with motion := { h.motion with
         fieldsFor := (n + 1) :: h.motion.fieldsFor.take 7, kept := (headOf t k).motion.kept } }) ∧
       (headOf t k).motion.kept.head? = some cnt ∧
       OnlyRecords { s with heads := t.heads, free := t.free, ecc := t.ecc
                            hbm := { s.hbm with cells := t.hbm.cells, lanes := t.hbm.lanes } } t ∧
       (s.memOk → s.ecc.archives = [] → ∀ a,
         (a < (exhRange s (pyrExh m cnt)).1 ∨ (exhRange s (pyrExh m cnt)).1 + (pyramid (tick dt s) c cnt).length ≤ a) →
         (a < (exhRange s (fieldExh m (n + 1))).1 ∨ (exhRange s (fieldExh m (n + 1))).1 + fieldBytes c ≤ a) →
         (h.motion.kept.contains (cnt - 1) = true ∨ a < (exhRange s (pyrExh m (cnt - 1))).1 ∨
           (exhRange s (pyrExh m (cnt - 1))).1 + (pyramid (tick dt s) c cnt).length ≤ a) →
         rawByte t a = rawByte s a)) ∧
  (∀ (dt k : Nat) (z : Closed) (rest : List Closed) (c : HeadCfg) (s : State), let p := (headOf s k).pipe
     (headOf s k).solver.closed = z :: rest → p.cfg = some c → (tick dt s).now < p.flipAt (z.frame + 2) →
     (∀ r red, z.cfg.closed = false → z.recipe = some (r, red) → z.cal = none → inHold (tick dt s) k = false →
       ∃ t l, exec (.solveDone dt k false) s = .next t ∧ l.frame = z.frame ∧ l.at_ = z.frame + 2 ∧ l.closed = false ∧
         l.target = Reset.unitE.map (fun (x : Int) => (x : Rat)) ∧ l.stale = !(List.range r.chans.length).isEmpty ∧
         (headOf t k).solver = { (headOf s k).solver with
           closed := rest, loads := (headOf s k).solver.loads ++ [l], holding := false
           staleMask := maskOf (List.range r.chans.length), staleRun := 0, staleHold := false } ∧
         t = { tick dt s with heads := t.heads } ∧ (∀ j, j ≠ k → headOf t j = headOf s j)) ∧
     (z.recipe = none → exec (.solveDone dt k true) s = .next (record (0x10 + k) 0x0F09 (u8 k ++ u24 0 ++ u32 z.frame ++ u8 2)
       (modSolver k (fun v => { v with holding := true }) (modSolver k (fun v => { v with closed := rest }) (tick dt s))))) ∧
     (z.recipe ≠ none → ∃ t, exec (.solveDone dt k true) s = .next t ∧ (headOf t k).solver.holding = true ∧
       (headOf t k).solver.closed = rest ∧ (headOf t k).solver.loads = (headOf s k).solver.loads ∧
       (∀ j, j ≠ k → headOf t j = headOf s j) ∧ OnlyRecords { s with heads := t.heads } t))

/-- Scanners are set up, followed and lost. The first SCAN_CONFIG that fits and is admitted, on a port that is not READY, is
in force at once and starts acquisition; an edge before the ninth is kept, with a stamp of 5 units, and counts for its PULSE
input; a locked scanner without an edge in its time is LOST with its record; a pass that is due takes its place, with the
amplitude of the pass before. It states when these complete: `.scanConfig`, `.scanPhaseEdge`, `.scanPhaseLost`, `.scanPass`.
-/
def Obligations.ScannersAreFollowed : Prop :=
  ∀ (dt k : Nat) (s : State), let v := (headOf s k).scan
    (∀ d c, let x := d.trunc; let b := begun d d.trunc (tick dt s); k = x.p8 16 → Runs (.scanConfig dt d) s →
      (headOf s k).pipe.cfg = some c →
      (∀ o, scanInvalid c x = some o → exec (.scanConfig dt d) s = .next (complete x 0xE80 (u16 o) b)) ∧
      (scanInvalid c x = none → scanBound s k c (scanOf x) = none → v.pending = none → scanUnfit s k c (scanOf x) = none →
        shortage b (.scan k) (scanUnits (scanOf x).port) = none → v.cfg = none → (portOf s (scanOf x).port).state ≠ .ready →
        ∃ t, exec (.scanConfig dt d) s = .next t ∧ (headOf t k).scan = { v with
            cfg := some (scanOf x), since := 0, lock := .acquiring, edges := [], good := 0, t8 := 0, preds := [] } ∧
          (∀ j, j ≠ k → headOf t j = headOf s j) ∧
          OnlyReply { s with heads := t.heads, adm := { s.adm with items := t.adm.items } } t)) ∧
    (∀ sc, v.cfg = some sc → v.lock ≠ .locked → v.edges.length < 8 → v.preds = [] → exec (.scanPhaseEdge dt k) s = .next
      (modScan k (fun v => { v with
        edges := (tick dt s).now / 5 * 5 :: v.edges, lastEdge := (tick dt s).now / 5 * 5, good := 0, lock := if v.lock = .lost then .acquiring else v.lock })
        (countEdge sc.pulse ((tick dt s).now / 5 * 5) (tick dt s)))) ∧
    (∀ e rest, v.edges = e :: rest → v.lock = .locked → e + 3 * v.t8 / 16 < (tick dt s).now → exec (.scanPhaseLost dt k) s = .next
      (record (0x10 + k) 0x0E02 (u8 k ++ u8 1) (modScan k (fun v => { v with
        lock := .lost, lost := bump v.lost, good := 0, ann := [], preds := [], wins := [], outFrom := none, output := false,
        lowRun := 0 }) (tick dt s)))) ∧
    (∀ sc a rest bad, v.cfg = some sc → v.ann = a :: rest → v.preds = [] → a.frame = v.frame → a.start ≤ (tick dt s).now →
      (tick dt s).now ≤ a.start + 4 → (v.lock ≠ .locked ∨ sc.ampTgt * sc.ampMin ≤ v.ampRun * 65536) →
      (portOf s sc.port).state ≠ .ready → ∃ t, exec (.scanPass dt k bad) s = .next t ∧
        (headOf t k).scan.frame = a.frame ∧ (headOf t k).scan.pass = a.g ∧ (headOf t k).scan.line = (if a.dark = true then 65535 else a.line) ∧
        (headOf t k).scan.th = a.th ∧ (headOf t k).scan.ann = rest ∧ (headOf t k).scan.amp = v.ampRun ∧
        (headOf t k).scan.ampRun = 0 ∧ (headOf t k).scan.cfg = some sc ∧ (∀ j, j ≠ k → headOf t j = headOf s j) ∧
        t = { tick dt s with heads := t.heads, ports := t.ports })

/-! ### Plane Link and Cave hold (chapter 13) -/

/-- Return messages move their port, and its timers act. Return messages move their port. With no fault rules, on a port
neither DOWN nor FAILED: CREDIT sets the limit and in CAPS with every page matched brings READY; an unknown NAK only counts;
LANE_LOCK leads through ALIGN to CAPS and drops a READY port that has lost a lane; a page is stored and noted, or fails the
port; STATUS tells whether it is parked; a broken message is counted. No other port's state changes. Port timers. With no
fault rules: after 5 ms in BITLOCK the reserve takes the one failing lane and the wear record keeps it; 100 ms of training
fail the port and release it; 100 us of silence lose a READY port's link; a READY port sends IDLE after 100 us without a
packet and STATUS 1 ms, in CAPS 100 us, after the last. It states when these complete: `.retCredit`, `.retNak`,
`.retLaneLock`, `.retCaps`, `.retStatus`, `.returnMessageBad`, `.laneLockTimeout`, `.portTrainTimeout`, `.returnSilent`,
`.portIdleTimer`, `.portStatusTimer`. -/
def Obligations.PlaneLinkPortsFollowTheirMessages : Prop :=
  (∀ (dt p : Nat) (s : State), let o := portOf s p; let u := modPort p (fun o => { o with lastRet := (tick dt s).now }) (tick dt s)
     NoFaults s → o.state ≠ .down → o.state ≠ .failed → p < s.ports.length →
     (∀ v < 2 ^ 32, (o.state = .ready → o.queue = [] → o.parkOwed = none →
         exec (.retCredit dt p v) s = .next (modPort p (fun o => { o with limit := v }) u)) ∧
       (∀ cause, o.state = .ready → o.parkOwed = some cause → o.ending = false →
         Port.allows { o with limit := v } (barePkt 3 (tick dt s).now) = true →
         ∃ t b, exec (.retCredit dt p v) s = .next t ∧ (portOf t p).parkOwed = none ∧ .plk p b ∈ t.out ∧
           (∀ j, j ≠ p → portOf t j = portOf s j)) ∧
       (o.state = .caps → o.capsSeen = 63 → o.scan = false → o.pair = none → o.parkOwed = none → ∃ t, exec (.retCredit dt p v) s = .next t ∧
         (portOf t p).state = .ready ∧ (portOf t p).limit = v ∧ (portOf t p).readyAt = (tick dt s).now ∧ (portOf t p).desc = none ∧
         (∀ j, j ≠ p → portOf t j = portOf s j) ∧ OnlyReply { s with ports := t.ports, wear := t.wear } t)) ∧
     (∀ psn why, psn < 65536 → (∀ q ∈ o.sent, q.psn ≠ psn) →
       exec (.retNak dt p psn why) s = .next (modPort p (fun o => { o with nak := bump o.nak }) u)) ∧
     (∀ al, (o.state = .bitlock → ∃ t, exec (.retLaneLock dt p 0x1FF al []) s = .next t ∧
         t = modPort p (fun o => { o with lock := 0x1FF, bip := t.ports.getD p Reset.port |>.bip, state := .align }) u) ∧
       (o.state = .align → ∃ t, exec (.retLaneLock dt p 0x1FF al []) s = .next t ∧
         (portOf t p).state = (if al = true then .caps else .align) ∧ (∀ j, j ≠ p → portOf t j = portOf s j) ∧
         t = { tick dt s with ports := t.ports }) ∧
       (o.state = .ready → ∃ t, exec (.retLaneLock dt p 0 al []) s = .next t ∧ (portOf t p).state = .bitlock ∧
         (portOf t p).sent = [] ∧ (portOf t p).owner = o.owner ∧ (∀ j, j ≠ p → portOf t j = portOf s j) ∧
         OnlyRecords { s with ports := t.ports, wear := t.wear } t)) ∧
     (∀ pg v, pg < 6 → v < 2 ^ 32 → o.state = .caps →
       (pageMatches o pg v = true → exec (.retCaps dt p pg v) s = .next (modPort p (fun o => { o with
         caps := upd o.caps pg fun _ => v, capsSeen := o.capsSeen ||| 2 ^ pg }) u)) ∧
       (pageMatches o pg v = false → (∀ k, o.owner = some k → (headOf s k).pipe.parkDue = none) → ∃ t, exec (.retCaps dt p pg v) s = .next t ∧ (portOf t p).state = .failed ∧
         (portOf t p).owner = none ∧ t.heads = s.heads ∧ t.gheler = s.gheler ∧ t.ingest = s.ingest)) ∧
     (∀ st fl fr, st < 256 → ∃ t, exec (.retStatus dt p st fl fr) s = .next t ∧ (portOf t p).parked = decide (st = 1) ∧
       (st = 1 → (portOf t p).parkDesc = []) ∧ t.adm = s.adm ∧ t.ingest = s.ingest ∧ t.time = (tick dt s).time) ∧
     (o.state ≠ .ready → exec (.returnMessageBad dt p) s = .next (modPort p (fun o => { o with
       retErr := bump o.retErr, badRun := ((tick dt s).now :: o.badRun.filter fun t => decide ((tick dt s).now ≤ t + 4000000)).take 5 }) u))) ∧
  (∀ (dt p : Nat) (s : State), let o := portOf s p
     NoFaults s → p < s.ports.length →
     (∀ l < 8, o.state = .bitlock → o.trainAt + 20000000 ≤ (tick dt s).now → o.spared = 15 → o.lock = 0x1FF - 2 ^ l →
       ∃ t, exec (.laneLockTimeout dt p l) s = .next t ∧ (portOf t p).state = .align ∧ (portOf t p).spared = l ∧
         (∀ j, j ≠ p → portOf t j = portOf s j) ∧ t.wear = { s.wear with plSpared := upd s.wear.plSpared p fun _ => l } ∧
         OnlyRecords { s with ports := t.ports, wear := t.wear } t) ∧
     ((o.state = .bitlock ∨ o.state = .align ∨ o.state = .caps) → o.trainAt + 400000000 ≤ (tick dt s).now →
       (∀ k, o.owner = some k → (headOf s k).pipe.parkDue = none) → ∃ t, exec (.portTrainTimeout dt p) s = .next t ∧ (portOf t p).state = .failed ∧ (portOf t p).owner = none ∧
         t.heads = s.heads ∧ t.gheler = s.gheler ∧ t.ingest = s.ingest ∧ t.hbm = s.hbm ∧ t.power = s.power) ∧
     (o.state = .ready → o.lastRet + 400000 ≤ (tick dt s).now → ∃ t, exec (.returnSilent dt p) s = .next t ∧
       (portOf t p).state = .bitlock ∧ (portOf t p).trainAt = (tick dt s).now ∧ (portOf t p).owner = o.owner ∧
       (∀ j, j ≠ p → portOf t j = portOf s j) ∧ OnlyRecords { s with ports := t.ports, wear := t.wear } t) ∧
     (o.state = .ready → o.lastSend + 400000 ≤ (tick dt s).now → exec (.portIdleTimer dt p) s = .next { tick dt s with
       ports := upd s.ports p (fun o => { o with psn := (o.psn + 1) % 65536, lastSend := (tick dt s).now, used := o.used % 2 ^ 32 })
       out := .plk p (SentPkt.bytes p { barePkt 6 (tick dt s).now with psn := o.psn } []) :: s.out }) ∧
     ((o.state = .ready ∧ o.lastStatus + 4000000 ≤ (tick dt s).now) ∨ (o.state = .caps ∧ o.lastStatus + 400000 ≤ (tick dt s).now) →
       ∃ t b, exec (.portStatusTimer dt p) s = .next t ∧ t.out = .plk p b :: s.out ∧
       (portOf t p).told = headState s (o.owner.getD 0) p ∧ (portOf t p).lastStatus = (tick dt s).now ∧
       (portOf t p).lastSend = (tick dt s).now ∧
       (∀ j, j ≠ p → portOf t j = portOf s j) ∧ t = { tick dt s with ports := t.ports, out := t.out }))

/-- PORT_CONFIG and PORT_PARK. An accepted PORT_CONFIG of one unconfigured port that passes Table 13.6 and is admitted makes
it the head's and starts its training; one out of range completes with PORT_INVALID; a port a Recipe names completes with
PORT_IN_USE for either; a PORT_PARK waits at each port for STATUS, and after 1 ms completes with TIMEOUT. It states when
these complete: `.portConfig`, `.portPark`, `.portParkTimeout`. -/
def Obligations.PortsAreConfiguredAndParked : Prop :=
  ∀ (dt : Nat) (d : Desc) (s : State), let x := d.trunc; let b := begun d d.trunc (tick dt s)
    (let p := d.trunc.p8 16; let k := d.trunc.p8 17
     ∀ c, Runs (.portConfig dt d) s → (headOf s k).pipe.cfg = some c → portLock x = false →
      (∀ o, portInvalid c x = some o → exec (.portConfig dt d) s = .next (complete x 0xD85 (u16 o) b)) ∧
      (portInvalid c x = none → recipeNames s true p = true → exec (.portConfig dt d) s = .next (complete x 0xD82 (u8 p) b)) ∧
      (portInvalid c x = none → recipeNames s true p = false → shortage b (.port k p) (portUnits p) = none →
        p < s.ports.length → (portOf s p).desc = none → (portOf s p).pair = none → (portOf s p).scan = c.scan →
        ∃ t, exec (.portConfig dt d) s = .next t ∧ (portOf t p).state = .bitlock ∧ (portOf t p).owner = some k ∧
          (portOf t p).desc = some x ∧ (portOf t p).ww = x.p16 24 ∧ (portOf t p).wh = x.p16 26 ∧ (portOf t p).rtx = x.p32 28 ∧
          (portOf t p).cls = x.p8 22 ∧ (portOf t p).pol = x.p16 32 ∧ (portOf t p).pair = none ∧
          (portOf t p).trainAt = (tick dt s).now ∧ (∀ j, j ≠ p → portOf t j = portOf s j) ∧ t.host = b.host ∧
          OnlyReply { s with ports := t.ports, wear := t.wear, adm := { s.adm with items := t.adm.items } } t)) ∧
    (let ps := bitsOf (d.trunc.p16 16) 16
     Runs (.portPark dt d) s → (∀ p, ps.find? (recipeNames s false) = some p →
        exec (.portPark dt d) s = .next (complete x 0xD82 (u8 p) b)) ∧
      (NoFaults s → s.ports.length = 16 → ps ≠ [] → ps.find? (recipeNames s false) = none → ∃ t, exec (.portPark dt d) s = .next t ∧
        (∀ p ∈ ps, (portOf t p).parkDesc = (portOf s p).parkDesc ++ [(x, (tick dt s).now)]) ∧
        (∀ p, p ∉ ps → portOf t p = portOf s p) ∧ t.host = b.host ∧ OnlyReply { s with ports := t.ports } t)) ∧
    (∀ p at_, (portOf s p).parkDesc = [(d, at_)] → at_ + 4000000 ≤ (tick dt s).now → owes d s = true →
      ∃ t, exec (.portParkTimeout dt p) s = .next t ∧ (∀ j, ∀ y ∈ (portOf t j).parkDesc, y.1 ≠ d) ∧
        t = complete d 0x60 [] { tick dt s with ports := t.ports })

/-- CAVE_ENTER and CAVE_EXIT. An accepted CAVE_ENTER that nothing refuses requests entry in MODE 0, arms in MODE 1 and
disarms in MODE 2; a refused one completes with LOOP_REFUSED, reason and port. An accepted CAVE_EXIT in HOLD leaves the hold
and waits for it; outside the hold it completes with CAVE_NOT_IN_LOOP. It states when these complete: `.caveEnter`,
`.caveExit`. -/
def Obligations.CaveHoldIsEnteredAndLeft : Prop :=
  ∀ (dt : Nat) (d : Desc) (s : State), let x := d.trunc; let k := d.trunc.p8 16; let b := begun d d.trunc (tick dt s)
    (Runs (.caveEnter dt d) s →
      (x.p8 17 = 0 → holdRefused s k false = none → exec (.caveEnter dt d) s = .next (modCave k (fun v => { v with
        request := some x.t, desc := some x }) b)) ∧
      (x.p8 17 = 0 → ∀ r, holdRefused s k false = some r →
        exec (.caveEnter dt d) s = .next (complete x 0xD80 (u8 r.1 ++ u8 r.2) b)) ∧
      (x.p8 17 = 1 → caveRefused s k = none → ∃ t, exec (.caveEnter dt d) s = .next t ∧
        t.heads = upd s.heads k (fun h => { h with cave := { h.cave with armed := x.p16 18 } }) ∧
        OnlyReply { s with heads := t.heads } t) ∧
      (x.p8 17 = 2 → ∃ t, exec (.caveEnter dt d) s = .next t ∧
        t.heads = upd s.heads k (fun h => { h with cave := { h.cave with armed := 0 } }) ∧
        OnlyReply { s with heads := t.heads } t)) ∧
    (Runs (.caveExit dt d) s →
      ((headOf s k).cave.state = .off → exec (.caveExit dt d) s = .next (complete x 0xD86 (u8 k) b)) ∧
      ((headOf s k).cave.state = .hold → ∃ t, exec (.caveExit dt d) s = .next t ∧ (headOf t k).cave.state = .leaving ∧
        (headOf t k).cave.cause = 1 ∧ (headOf t k).cave.exitAt = x.t ∧
        (headOf t k).cave.exits = (headOf s k).cave.exits ++ [x] ∧ (headOf t k).pipe = (headOf s k).pipe ∧
        (s.power.state = .p2 → t.power.state = .p0 ∧ (s.hbm.moving = none → t.hbm.selfRef = false)) ∧
        (∀ j, j ≠ k → headOf t j = headOf s j) ∧ ((s.power.state = .p2 → s.hbm.host = []) →
          t = { b with heads := t.heads, power := { s.power with state := t.power.state },
                       hbm := { s.hbm with selfRef := t.hbm.selfRef } })))

/-- Slots load and flip. A slot of a pressed frame that may load begins on its port, which remembers it, and of the heads
only the frame in hand may get on; the first flip of a later frame of a head that stays makes it the frame shown, closes the
solver's measurement of the frame before, and is nothing before its instant. It states when these complete: `.loadStart`,
`.slotFlip`. -/
def Obligations.SlotsLoadAndFlip : Prop :=
  ∀ (dt k n : Nat) (s : State), let h := headOf s k
    (∀ p order bad c r red ai i x, let o := portOf s p; let l := r.flips red ai.1.seq
      p < s.ports.length → o.owner = some k → o.state = .ready → o.scan = false → h.pipe.cfg = some c →
      h.press.governing n = some (r, red) → r.arrayOf p = some ai → l.findIdx? (fun x => x.order = order) = some i →
      l[i]? = some x → h.pipe.safeDark = false → (n ∈ h.press.pressed ∨ h.press.pressing = some n) → h.cave.state = .off →
      (∀ q, o.lastLoad = some q → q.1 < n ∨ (q.1 = n ∧ q.2 < order)) →
      max (bufferFree s k ai.1.seq n i (bits (o.caps.getD 1 0) 16 8) l) (prdOf s k n) ≤ (tick dt s).now →
      (tick dt s).now < slotStamp_ h.pipe n x → o.readyAt + tLead s c r ≤ h.pipe.flipAt n →
      ∃ t, exec (.loadStart dt p n order bad) s = .next t ∧ (portOf t p).lastLoad = some (n, order) ∧
        (portOf t p).loopEnd = false ∧ (portOf t p).state = .ready ∧ t.adm = s.adm ∧ t.gheler = s.gheler ∧ t.host = s.host ∧
        t.heads = upd s.heads k (fun h => { h with press := { h.press with job := (headOf t k).press.job } }) ∧
        (h.press.pressing = none → allReadable s = true → t.heads = s.heads ∧ t.hbm = s.hbm)) ∧
    (∀ seq order, h.pipe.cfg ≠ none →
      ((tick dt s).now < h.pipe.flipAt n → exec (.slotFlip dt k n seq order) s = .next (tick dt s)) ∧
      (h.pipe.flipAt n ≤ (tick dt s).now → (h.pipe.flipAny = false ∨ h.pipe.flipped < n) → h.pipe.nextRate = none →
        h.pipe.releasing = none → h.pipe.stopping = false → ∃ t, exec (.slotFlip dt k n seq order) s = .next t ∧
          (headOf t k).pipe.flipped = n ∧ (headOf t k).pipe.flipAny = true ∧ (headOf t k).pipe.cfg = h.pipe.cfg ∧
          (n ≠ 0 → ∃ z ∈ (headOf t k).solver.closed, z.frame = n - 1) ∧
          t.power = s.power ∧ t.time = (tick dt s).time ∧ t.ingest = s.ingest ∧ t.training = s.training))

/-! ### The loop engine (chapters 16, 17) -/

/-- Loop settings wait for their sample. With every check passed, an accepted LOOP_SET that is admitted, COEF_WRITE to a
channel in RUN, SETPOINT_CFG, MODE_SET, INJECT of a signal, or CAPTURE that is admitted becomes the channel's pending one; a
COEF_WRITE to another channel applies at once and completes; CHAN_ENABLE waits at each channel it names that has a loop set.
It states when these complete: `.loopSet`, `.chanEnable`, `.coefWrite`, `.setpointCfg`, `.modeSet`, `.inject`, `.capture`.
-/
def Obligations.LoopSettingsWaitForTheirSample : Prop :=
  ∀ (dt : Nat) (d : Desc) (s : State), let m := d.trunc; let c := d.trunc.p8 16; let b := begun d d.trunc (tick dt s)
    (let x := loopOf m; Runs (.loopSet dt d) s → (chanOf s c).state ≠ .unavailable → loopInvalid s m = none →
      ((chanOf s c).state = .run ∨ (chanOf s c).state = .ramp → (chanOf s c).cfg.bind (loopRunning x) = none) →
      (chanOf s c).pendCfg = none → leadBreach s c x.lead = none →
      (∀ n, shortage b (.loopSet c (chanOwner s c) x.sched) [(36, x.cost)] = some n →
        exec (.loopSet dt d) s = .next (complete m 0x20 (shortDetail n.1 n.2) b)) ∧
      (shortage b (.loopSet c (chanOwner s c) x.sched) [(36, x.cost)] = none → ∃ t w, exec (.loopSet dt d) s = .next t ∧
        (w ≠ none → (chanOf s c).state = .run ∧ x.sched = true) ∧
        t = modChan c (fun ch => { ch with pendCfg := some (x, m, w), pendAt := (tick dt s).now }) { b with adm := { s.adm with items := t.adm.items } })) ∧
    (let l := (bitsOf (fieldOf m.bytes 16 6) 48).filter fun c => (chanOf s c).admittedCfg.isSome
     Runs (.chanEnable dt d) s → enableInvalid m = none → m.p8 22 ≠ 0 ∨ ((∀ c ∈ bitsOf (fieldOf m.bytes 16 6) 48,
        loopAdmitted s c = true) ∧ s.power.intlkLow = false ∧ s.power.resetB = false) →
      (l = [] → exec (.chanEnable dt d) s = .next (complete m 0 [] b)) ∧
      (l ≠ [] → ∃ t, exec (.chanEnable dt d) s = .next t ∧
        (∀ c ∈ l, chanOf t c = { chanOf s c with enable := (chanOf s c).enable ++
          [⟨m.p8 22, max (tick dt s).now (m.p64 24), m, 0⟩] }) ∧
        (∀ c, c ∉ l → chanOf t c = chanOf s c) ∧ t = { b with gheler := { s.gheler with chans := t.gheler.chans } })) ∧
    (Runs (.coefWrite dt d) s → (∀ e ∈ coefEntries m, coefEntryOk e = true) →
      ((chanOf s c).state = .run → exec (.coefWrite dt d) s = .next (modChan c (fun ch => { ch with
        coefQ := ch.coefQ ++ [⟨m, coefEntries m, (tick dt s).now⟩] }) b)) ∧
      ((chanOf s c).state = .off → (chanOf s c).coefQ = [] → c < s.gheler.chans.length → exec (.coefWrite dt d) s =
        .next (complete m 0 [] (modChan c (fun ch => { ch with
          coefs := (coefEntries m).foldl (fun l e => setKey e.1 e.2 l) ch.coefs }) b)))) ∧
    (Runs (.setpointCfg dt d) s → noLoop s c = none → admittedSched s c = false → isBound s c = none → spInvalid s m = none →
      (spOf s c).pending = none → exec (.setpointCfg dt d) s =
        .next (modSp c (fun p => { p with pending := some (spOfDesc m, m, max (tick dt s).now (m.p64 56)) }) b)) ∧
    (Runs (.modeSet dt d) s → (c :: if m.p8 17 = 2 then modeMembers m else []).findSome? (noLoop s) = none →
      (c :: if m.p8 17 = 2 then modeMembers m else []).findSome? (isBound s) = none → modeInvalid m = none →
      groupInvalid s m = false → exec (.modeSet dt d) s = .next (modSp c (fun p => { p with modes := p.modes ++
        [⟨m, m.p8 17, bitOf (m.p8 18) 0, m.s32 20, modeMembers m, max (tick dt s).now (m.p64 32)⟩] }) b)) ∧
    (Runs (.inject dt d) s → noLoop s c = none → injectInvalid m = none → s.power.stage = 0 →
      (m.p8 18 ≠ 4 → (spOf s c).inject = none →
        exec (.inject dt d) s = .next (modSp c (fun p => { p with inject := some (injectOf m (tick dt s).now) }) b)) ∧
      (m.p8 18 = 4 → (spOf s c).inject = none → exec (.inject dt d) s = .next (complete m 0 [] b)) ∧
      (m.p8 18 ≠ 4 → ∀ j, (spOf s c).inject = some j → exec (.inject dt d) s = .next (if j.active = true then complete m 0x1183 (u8 c) b
        else modSp c (fun p => { p with waiting := p.waiting ++ [injectOf m (tick dt s).now] }) b))) ∧
    (Runs (.capture dt d) s → s.power.bootStage < 1 → noLoop s c = none → captureInvalid m = none → captureOpen s c = false →
      shortage b (.capture c (captureOwner s c)) (hbmCost b (256 * 4000000000) (admittedTs s c * m.p16 18) [captureHandle m]) = none →
      ∃ t e, exec (.capture dt d) s = .next t ∧ exhOf s (captureHandle m) = some e ∧
        exhOf t (captureHandle m) = some { e with state := .filling } ∧
        t = modSp c (fun p => { p with capture := some (captureOf m (tick dt s).now) }) { b with adm := { s.adm with
          items := t.adm.items, exhibits := setKey (captureHandle m) { e with state := .filling } s.adm.exhibits } })

/-- The AOUT code. In the 0 to 5 V range the code is the output plus 4 over 8, from 0 to 65,535; in the ±5 V range the
output plus 8 over 16, from -32,768 to 32,767; u = 1.0, 524,288, stands for 5 V, the last code of both ranges; a higher
output never has a lower code (R382, R46). -/
def Obligations.OutputsBecomeCodes : Prop :=
  ∀ u : Int, outCode false u = min ((max u 0 + 4) >>> 3) 65535 ∧
    outCode true u = max (min ((u + 8) >>> 4) 32767) (-32768) ∧ outCode false 524288 = 65535 ∧ outCode true 524288 = 32767 ∧ 0 ≤ outCode false u ∧ outCode false u ≤ 65535 ∧
    -32768 ≤ outCode true u ∧ outCode true u ≤ 32767 ∧ (∀ v, u ≤ v → outCode false u ≤ outCode false v ∧ outCode true u ≤ outCode true v)

/-- Outputs follow their update grid, and the pins of the loop engine are served. Outputs are updated on their grid. At an
update instant at least 100 units after the last update a running channel whose last result stands drives its code, a
ramping one its next step of 10,000 from its entry code towards DARK_CODE, one in OFF falls to 0 V; a clamped code lies
between the clamps; the last update of a ramp leaves the channel OFF with its cause; an instant counts once. Pins of the
loop engine. A lost input that has been held for HOLD_T goes SAFE with its record; RANGE changes only before set-up lock on
a dark channel with its LASER_EN low, then at 0 V for 10 us, and is recorded otherwise; a pulse edge with no GLITCH filter
is stamped at 5 units among the counted or the other edges, as EDGE says; an AUX input that no loop reads is sampled once
each microsecond. It states when these complete: `.aoutUpdate`, `.rampEnd`, `.spSafe`, `.aoutRangeWrite`, `.pulseEdge`,
`.auxFreeSample`. -/
def Obligations.OutputsAndPinsFollowTheirGrid : Prop :=
  (∀ (dt c : Nat) (s : State), let ch := chanOf s c; let t := (tick dt s).now / 200 * 200
     (t < ch.upd + 100 → exec (.aoutUpdate dt c) s = .next (tick dt s)) ∧
     (∀ x, ch.upd + 100 ≤ t → ch.state = .run → ch.offNext = false → ch.cfg = some x → ch.uNew = [] → ch.applied = true →
       follows s c x = false → ch.heldAt t = false → ch.zeroTill ≤ t → pinHeld s c = false → forcedLow s = false →
       exec (.aoutUpdate dt c) s = .next (writeAout c (outCode (aoutBipolar s c) ch.u)
         (modChan c (fun ch => { ch with upd := t, uPrev := ch.u }) (tick dt s)))) ∧
     (ch.upd + 100 ≤ t → ch.state = .ramp → ch.rampI < 9999 → ch.zeroTill ≤ t → pinHeld s c = false →
       forcedLow s = false → exec (.aoutUpdate dt c) s = .next
       (writeAout c (ch.rampC0 + roundDiv ((darkCode s c - ch.rampC0) * (ch.rampI + 1 : Nat)) 10000)
         (modChan c (fun ch => { ch with upd := t, rampI := ch.rampI + 1 }) (tick dt s)))) ∧
     (ch.upd + 100 ≤ t → ch.state = .off → ch.code ≠ 0 → exec (.aoutUpdate dt c) s = .next
       (pinZero c (modChan c (fun ch => { ch with upd := t }) (tick dt s)))) ∧
     (ch.state = .ramp → ch.rampI = 9999 → ch.upd + 100 ≤ t → ∃ u, exec (.rampEnd dt c) s = .next u ∧ (chanOf u c).state = .off ∧
       (ch.zeroTill ≤ t → pinHeld s c = false → forcedLow s = false → .aout c (clampCode s c (darkCode s c)) ∈ u.out) ∧
       u.power = s.power ∧ u.time = (tick dt s).time ∧ u.ingest = s.ingest ∧ u.hbm = s.hbm) ∧
     (ch.state ≠ .ramp → exec (.rampEnd dt c) s = .next (tick dt s)) ∧
     (∀ v : Int, c < s.gheler.chans.length → codeOf (aoutBipolar s c) (bits (rawReg s (0x00A01004 + 0x40 * c)).toNat 0 16) ≤
         codeOf (aoutBipolar s c) (bits (rawReg s (0x00A01004 + 0x40 * c)).toNat 16 16) →
       codeOf (aoutBipolar s c) (bits (rawReg s (0x00A01004 + 0x40 * c)).toNat 0 16) ≤ (chanOf (writeAout c v s) c).code ∧
       (chanOf (writeAout c v s) c).code ≤ codeOf (aoutBipolar s c) (bits (rawReg s (0x00A01004 + 0x40 * c)).toNat 16 16))) ∧
  (∀ (dt c : Nat) (s : State), let ch := chanOf s c; let off := 0x00A08000 + 4 * c
     (let e := (tick dt s).now / max 1 ch.period * ch.period
      ch.state = .run → (spOf s c).input = .holding → (spOf s c).lostAt + (spOf s c).cfg.holdT ≤ e → (spOf s c).liveRun < 15 →
       exec (.spSafe dt c) s = .next (recordAt false e 8 0x1103 (u8 c ++ u24 0 ++ s32 (spOf s c).cfg.safe)
         (modSp c (fun p => { p with input := .safe }) (tick dt s)))) ∧
     (∀ v : Word, (s.host.locked = true → aoutBipolar s c = v.getLsbD 0 → exec (.aoutRangeWrite dt c v) s = .next (tick dt s)) ∧
       (s.host.locked = true → aoutBipolar s c ≠ v.getLsbD 0 → exec (.aoutRangeWrite dt c v) s = .next
         (rwlRecord 0 off v.toNat (tick dt s))) ∧
       (s.host.locked = false → ch.enabled = true ∨ lasersLow s c = false → exec (.aoutRangeWrite dt c v) s = .next
         (record 8 0x0204 (u8 c) (tick dt s))) ∧
       (s.host.locked = false → ch.enabled = false → lasersLow s c = true → aoutBipolar s c ≠ v.getLsbD 0 →
         exec (.aoutRangeWrite dt c v) s = .next (modChan c (fun ch => { ch with zeroTill := (tick dt s).now + 40000 })
           (pinZero c (setRaw off (wordOf (bit (v.getLsbD 0))) (tick dt s)))))) ∧
     (∀ p e, glitch s p = 0 → (∀ x ∈ s.gheler.pulses, x.last ≤ (tick dt s).now) →
       exec (.pulseEdge dt p e) s = .next { tick dt s with gheler := { s.gheler with
         pulses := upd s.gheler.pulses p fun x => if countsEdge s p e = true then
           { x with edges := ((tick dt s).now / 5 * 5 :: x.edges).take 16, last := (tick dt s).now } else
           { x with opp := ((tick dt s).now / 5 * 5 :: x.opp).take 16, last := (tick dt s).now } } }) ∧
     (∀ i k, isRead s (0x40 + i) = true ∨ (tick dt s).now / 4000 * 4000 ≤ s.gheler.auxAt.getD i 0 →
       exec (.auxFreeSample dt i k) s = .next (tick dt s)) ∧
     (∀ i k, isRead s (0x40 + i) = false → s.gheler.auxAt.getD i 0 < (tick dt s).now / 4000 * 4000 →
       endCode (adcCode k) = false → exec (.auxFreeSample dt i k) s = .next { tick dt s with
         gheler := { s.gheler with auxAt := upd s.gheler.auxAt i (fun _ => (tick dt s).now / 4000 * 4000),
                                   aux := upd s.gheler.aux i fun _ => adcCode k } }))

/-- A sample computes the next output. At a new sample instant off the output grid, a channel in RUN outside a group, with
nothing pending, queues one result within its limits for the update a sample period on; an uncorrectable coefficient read is
recorded and stops the channel at its next update; an instant already sampled changes nothing. No other channel changes. It
states when these complete: `.loopSample`. -/
def Obligations.SamplesQueueTheirResult : Prop :=
  ∀ (dt c : Nat) (ys sp : List Int) (dist sense : Int) (x : LoopCfg) (s : State), let ch := chanOf s c
    let e := (tick dt s).now / max 1 x.ts * x.ts
    ch.state = .run → ch.cfg = some x → x.ts ≠ 0 →
    (freshEdge ch e = false → ∀ me, exec (.loopSample dt c ys dist sp sense me) s = .next (tick dt s)) ∧
    (freshEdge ch e = true → e % 200 ≠ 0 → ch.revoked = false → ch.enable = [] → chanOwner s c = none →
      (∀ i, groupOf s c = none → (spOf s c).capture = none → ∃ t, exec (.loopSample dt c ys dist sp sense (some i)) s = .next t ∧ (chanOf t c).offNext = true ∧
        (chanOf t c).edge = e ∧ (∀ j, j ≠ c → chanOf t j = chanOf s j) ∧ t.adm = s.adm ∧ t.host = s.host ∧ t.ports = s.ports) ∧
      (ch.pendCfg = none → ch.coefQ = [] → (spOf s c).modes = [] → (spOf s c).pending = none → (spOf s c).inject = none →
        (spOf s c).capture = none → (spOf s c).waiting = [] → groupOf s c = none →
        (∀ o, ∀ q ∈ (spOf s o).modes, q.members.contains c = false) → ∃ t r, exec (.loopSample dt c ys dist sp sense none) s = .next t ∧
          (chanOf t c).uNew = ch.uNew ++ [r] ∧ r.due = e + x.ts ∧ r.u ≤ x.uMax ∧ (x.uMin ≤ x.uMax → x.uMin ≤ r.u) ∧
          (chanOf t c).sample = e ∧ (chanOf t c).edge = e ∧ (chanOf t c).state = .run ∧ (chanOf t c).cfg = some x ∧
          (∀ j, j ≠ c → chanOf t j = chanOf s j) ∧ t.adm = s.adm ∧ t.host = s.host ∧ t.ports = s.ports))

/-! ### HBM, training, stored data, temperature (chapters 18 to 21) -/

/-- Frequency points move, and refreshes are postponed or issued. Frequency points move. An accepted FREQ_SET for a valid
set and a later AT waits; a move to the point called for begins once the work it revoked has stopped, with pages closed and
both stacks in self-refresh and every session suspended; its end puts the point in force. Refreshes are postponed or issued.
Outside self-refresh a refresh that has fallen due adds one to the debt of its pseudo-channel below the cap of 8, 4 when
doubled, where requests are queued; with none queued it repays the debt and closes that pseudo-channel's pages; before its
interval is over nothing happens; a page idle for HBM_PAGE.IDLE closes, and a new window of HBM_RD_CFG ends every count and
throttle. It states when these complete: `.freqSet`, `.hbmFreqMove`, `.hbmFreqChanged`, `.refreshDue`, `.pageIdleClose`,
`.hbmRdWindow`. -/
def Obligations.FrequencyPointsMoveAndRefreshesFollow : Prop :=
  (∀ (dt : Nat) (s : State),
     (∀ d, let x := d.trunc; let b := begun d d.trunc (tick dt s); Runs (.freqSet dt d) s →
       (3 < x.p8 16 → exec (.freqSet dt d) s = .next (complete x 0x1280 (u16 16) b)) ∧
       (x.p8 16 ≤ 3 → firstNonZero x (span 17 23 ++ span 32 63) = none →
         (s.hbm.tsValid.getD (x.p8 16) false = false →
           exec (.freqSet dt d) s = .next (complete x 0x1281 (u8 (x.p8 16)) b)) ∧
         (s.hbm.tsValid.getD (x.p8 16) false = true →
           (∀ e, s.hbm.pendFreq = some e → exec (.freqSet dt d) s = .next (complete x 0x1282 (u32 e.1.tag) b)) ∧
           (s.hbm.pendFreq = none → (tick dt s).now < x.p64 24 → exec (.freqSet dt d) s = .next { b with
             hbm := { s.hbm with pendFreq := some (x, x.p8 16, x.p64 24) } })))) ∧
     (s.hbm.pendFreq = none → s.hbm.moving = none → calledFp s ≠ s.hbm.fp → s.hbm.m ≠ 0 → s.startup.running = false →
       (s.hbm.fp < calledFp s → anyLeaving s = false) → ∃ t, exec (.hbmFreqMove dt) s = .next t ∧
         t.hbm = { s.hbm with moving := some (calledFp s, s.hbm.why), selfRef := true, pages := [], debts := [] } ∧
         (∀ x ∈ t.training.sessions, x.suspended = true) ∧
         OnlyRecords { s with hbm := t.hbm, training := t.training,
                              adm := { s.adm with
                                caps := t.adm.caps, pendingCaps := t.adm.pendingCaps, inForce := t.adm.inForce } } t) ∧
     (∀ q cause, s.hbm.moving = some (q, cause) → s.hbm.waiting = [] → s.hbm.host = [] → ∃ t, exec (.hbmFreqChanged dt) s = .next t ∧
       t.hbm = { s.hbm with
         moving := none, fp := q, selfRef := decide (s.power.state = .p2), debts := [],
         pendFreq := t.hbm.pendFreq, doubled := t.hbm.doubled, coolSince := t.hbm.coolSince, pages := t.hbm.pages } ∧
       (∀ x ∈ t.training.sessions, x.point = q → x.suspended = false) ∧ t.power = s.power ∧ t.ports = s.ports ∧
       t.time = (tick dt s).time ∧ t.thermal = s.thermal ∧ t.ecc = s.ecc ∧
       (s.adm.items = [] → t.heads = s.heads ∧ t.gheler = s.gheler ∧ t.ingest = s.ingest)) ∧
     (s.hbm.moving = none → (s.hbm.selfRef = true ∨ s.hbm.host = []) → exec (.hbmFreqChanged dt) s = .next (tick dt s))) ∧
  (∀ (dt st pc : Nat) (s : State),
     let at_ := upd s.hbm.refAt (32 * st + pc) fun _ => (tick dt s).now
     (hbmPowered s = true → s.hbm.selfRef = false → refreshIsDue (tick dt s) st pc = true → isFrozenPc s st pc = false →
       debtOf s st pc < (if isDoubled s st then 4 else 8) →
       ∃ t, exec (.refreshDue dt st pc true) s = .next t ∧ debtOf t st pc = debtOf s st pc + 1 ∧
         (∀ a b, a ≠ st ∨ b ≠ pc → debtOf t a b = debtOf s a b) ∧
         t = { tick dt s with hbm := { s.hbm with refAt := at_, debts := t.hbm.debts, busyTill := t.hbm.busyTill } }) ∧
     (hbmPowered s = true → s.hbm.selfRef = false → refreshIsDue (tick dt s) st pc = true →
       ∃ t, exec (.refreshDue dt st pc false) s = .next t ∧ debtOf t st pc = 0 ∧
         (∀ a b, a ≠ st ∨ b ≠ pc → debtOf t a b = debtOf s a b) ∧
         (∀ g, g ∈ t.hbm.pages ↔ g ∈ s.hbm.pages ∧ ¬(g.stack = st ∧ g.pc = pc)) ∧
         t = { tick dt s with hbm := { s.hbm with refAt := at_, debts := t.hbm.debts, pages := t.hbm.pages } }) ∧
     (s.hbm.selfRef = true ∨ hbmPowered s = false ∨ refreshIsDue (tick dt s) st pc = false →
       ∀ q, exec (.refreshDue dt st pc q) s = .next (tick dt s)) ∧
     (∀ bank, ∃ t, exec (.pageIdleClose dt st pc bank) s = .next t ∧
       (∀ g, g ∈ t.hbm.pages ↔ g ∈ s.hbm.pages ∧ ¬(g.stack = st ∧ g.pc = pc ∧ g.bank = bank ∧
         g.last + 4 * regField s 0x00B00008 0 12 ≤ (tick dt s).now)) ∧
       t = { tick dt s with hbm := { s.hbm with pages := t.hbm.pages } }) ∧
     let w := (tick dt s).now / rdWindow s * rdWindow s
     (s.hbm.window ≠ w → exec (.hbmRdWindow dt) s = .next { tick dt s with
       hbm := { s.hbm with rows := [], throttled := [], window := w } }) ∧
     (s.hbm.window = w → exec (.hbmRdWindow dt) s = .next (tick dt s)))

/-- Requests reach the stacks, whose grain is kept while it is used. Requests reach the stacks. A write, or an error-free
read, within the usable bytes leaves one open page in its bank, the row it named, and no byte changed by the access; an
activate below THR adds one to its row group; before it the debt of an idle pseudo-channel is repaid and its targeted
refreshes are done; one of a frozen pseudo-channel, outside the stacks or to unpowered stacks does nothing, one during
self-refresh waits; a register whose SRAM copy its unit reads as uncorrectable takes its reset value, and a host read of it
is aborted; a targeted refresh that waits is done, and recorded where it is to be told. HBM_CFG keeps its grain while it is
used. A write of HBM_CFG before set-up lock is kept when GRAIN is 8 to 15, no exhibit is registered and every Vitrine is in
its reset state, and stored bytes then keep their slot and place (log 90); otherwise nothing is kept and the write is
recorded; after set-up lock it never changes HBM_CFG. It states when these complete: `.memoryRequest`, `.hbmRdNeighbour`,
`.hbmCfgWrite`. -/
def Obligations.RequestsReachTheStacks : Prop :=
  (∀ (dt : Nat) (s : State),
     (∀ l, (∀ r ∈ l, r.pool = none) → hbmPowered s = false → exec (.memoryRequest dt l) s = .next (tick dt s)) ∧
     (∀ r, r.pool = none → hbmPowered s = true → r.flips = [] →
       let e := pcOf s r.addr; let x := (decodeAddr s r.addr).2
       (usable s ≤ r.addr → (s.hbm.selfRef = true ∨ s.hbm.waiting = []) → exec (.memoryRequest dt [r]) s = .next (tick dt s)) ∧
       (r.addr < usable s → s.hbm.selfRef = true → exec (.memoryRequest dt [r]) s = .next { tick dt s with
         hbm := { s.hbm with waiting := s.hbm.waiting ++ [(r, (tick dt s).now)] } }) ∧
       (r.addr < usable s → s.hbm.selfRef = false → s.hbm.waiting = [] →
         (e.frozen = true → exec (.memoryRequest dt [r]) s = .next (tick dt s)) ∧
         (e.frozen = false → s.hbm.busyTill.getD (32 * e.stack + e.pc) 0 < (tick dt s).now - r.age → s.hbm.rows = [] →
           ∃ t, exec (.memoryRequest dt [r]) s = .next t ∧ debtOf t e.stack e.pc = 0 ∧
             (∀ y ∈ t.hbm.queued, ¬(y.stack = e.stack ∧ y.pc = e.pc)) ∧
             (∀ y ∈ s.hbm.queued, ¬(y.stack = e.stack ∧ y.pc = e.pc) → y ∈ t.hbm.queued)) ∧
         (e.frozen = false → (r.write = true ∨ allReadable s = true) → debtOf s e.stack e.pc = 0 →
           refreshIsDue (tick dt s) e.stack e.pc = false → (∀ y ∈ s.hbm.queued, ¬(y.stack = e.stack ∧ y.pc = e.pc)) →
           regField s 0x00B00008 0 12 ≠ 0 →
           ∃ t, exec (.memoryRequest dt [r]) s = .next t ∧
             (∀ g, g ∈ t.hbm.pages ↔ g = ⟨e.stack, e.pc, bankOf x, rowOf x, (tick dt s).now⟩ ∨
               (g ∈ s.hbm.pages ∧ ¬(g.stack = e.stack ∧ g.pc = e.pc ∧ g.bank = bankOf x))) ∧
             (urgency s (trafficPort r.traffic) r.age ≠ 3 → t.hbm.urg3 = s.hbm.urg3) ∧
             (s.hbm.window = (tick dt s).now / rdWindow s * rdWindow s →
               ∀ c ∈ s.hbm.rows, c.stack = e.stack → c.pc = e.pc → c.bank = bankOf x → c.group = rowOf x / 16 →
               (∀ q ∈ s.hbm.rows, q.stack = c.stack → q.pc = c.pc → q.bank = c.bank → q.group = c.group → q = c) →
               (∀ g ∈ s.hbm.pages, ¬(g.stack = e.stack ∧ g.pc = e.pc ∧ g.bank = bankOf x ∧ g.row = rowOf x)) →
               c.count + 1 < rdThr s → { c with count := c.count + 1 } ∈ t.hbm.rows ∧ t.hbm.queued = s.hbm.queued) ∧
             t.hbm.cells = s.hbm.cells ∧ t.hbm.lanes = s.hbm.lanes ∧ OnlyRecords { s with hbm := t.hbm } t))) ∧
     (∀ r p, r.pool = some p → s.ecc.sram = [] → (s.hbm.selfRef = true ∨ s.hbm.waiting = []) →
       (r.flips = [] → exec (.memoryRequest dt [r]) s = .next (tick dt s)) ∧
       (∀ off host o m, r.write = false → r.reg = some (off, host) → r.flips = [(o, m)] → m < (if p < 5 then 2 ^ 13 else 2 ^ 14) →
         (poolDecode p m).1 = 2 → o < poolSize p → r.addr ≤ o → o < r.addr + r.len →
         off ≠ regIrqCause → off ≠ regIrqCause + pf1Base → ∃ t, exec (.memoryRequest dt [r]) s = .next t ∧
           (host = true → .abort off ∈ t.out ∧ OnlyRecords { s with ecc := t.ecc } t) ∧
           (host = false → rawReg t off = regReset off ∧ t.ecc.sram = [] ∧ (off ≠ 0x00B00004 → t.hbm = s.hbm ∧
             OnlyRecords { setRaw off (regReset off) s with ecc := t.ecc } t)))) ∧
     (∀ x rest, s.hbm.queued = x :: rest → s.hbm.selfRef = false →
       ∃ t, exec (.hbmRdNeighbour dt) s = .next t ∧ t.hbm = { s.hbm with queued := rest, pages := t.hbm.pages } ∧
         (∀ p, p ∈ t.hbm.pages ↔ p ∈ s.hbm.pages ∧ ¬(p.stack = x.stack ∧ p.pc = x.pc ∧ p.bank = x.bank)) ∧
         (x.tell = false → t.ledger = s.ledger) ∧ OnlyRecords { s with hbm := t.hbm } t)) ∧
  (∀ (dt : Nat) (w : Word) (s : State), let g := w.toNat % 16
     (s.host.locked = false → 8 ≤ g → s.adm.exhibits = [] → (∀ k < 8, vitReset s k = true) →
       (g = regField s 0x00B00004 0 4 →
         exec (.hbmCfgWrite dt w) s = .next (setRaw 0x00B00004 (wordOf (w.toNat % 32)) (tick dt s))) ∧
       (g ≠ regField s 0x00B00004 0 4 →
         exec (.hbmCfgWrite dt w) s = .next (setRaw 0x00B00004 (wordOf (w.toNat % 32)) { tick dt s with
           hbm := { s.hbm with cells := regrain s g s.hbm.cells, lanes := regrain s g s.hbm.lanes } }))) ∧
     (s.host.locked = false → (g < 8 ∨ s.adm.exhibits ≠ [] ∨ ∃ k < 8, vitReset s k = false) →
       exec (.hbmCfgWrite dt w) s = .next (record 5 0x120A (u32 w.toNat) (tick dt s))) ∧
     (s.host.locked = true → ∃ t, exec (.hbmCfgWrite dt w) s = .next t ∧ rawReg t 0x00B00004 = rawReg s 0x00B00004 ∧
       OnlyRecords s t))

/-- Pseudo-channels freeze, are diagnosed and spared. A parity failure freezes a pseudo-channel in use with its slot, makes
the heads with a store in it safe-dark and queues its diagnosis; a diagnosis that passes unfreezes it, one that fails leaves
it frozen or begins sparing; a sparing that ends gives its slot to the reserve; CHANNEL_SPARE starts either by hand. It
states when these complete: `.hbmParityFail`, `.hbmDiagDone`, `.hbmSpared`, `.channelSpare`. -/
def Obligations.ChannelsFreezeAndAreSpared : Prop :=
  ∀ (dt : Nat) (s : State),
    (∀ st pc cause cmd, (isFrozenPc s st pc = true → exec (.hbmParityFail dt st pc cause cmd) s = .next (tick dt s)) ∧
      (∀ i, slotOfPc s st pc = some i → isFrozenPc s st pc = false → hbmPowered s = true → s.hbm.selfRef = false →
        ∃ t, exec (.hbmParityFail dt st pc cause cmd) s = .next t ∧ t.hbm.frozen = s.hbm.frozen ++ [⟨st, pc, false, false⟩] ∧
          t.hbm.map = upd s.hbm.map i (fun e => { e with frozen := true }) ∧
          (∃ j, t.hbm.jobs.getLast? = some j ∧ j.stack = st ∧ j.pc = pc ∧ j.action = 3) ∧
          (∀ k ∈ headsIn s i, (headOf t k).pipe.safeDark = true) ∧
          (∀ g ∈ t.hbm.pages, ¬(g.stack = st ∧ g.pc = pc)) ∧ t.wear.freezes = bump s.wear.freezes ∧
          t.hbm.cells = s.hbm.cells ∧ t.hbm.fp = s.hbm.fp ∧ t.power = s.power ∧ t.time = (tick dt s).time)) ∧
    (∀ j r, s.hbm.jobs = [j] → j.running = true → j.sparing = none → s.hbm.moving = none →
      let rested := fun j : DiagJob => if isLatest s j.stack j.pc = true then
        { s.training with steps := stepsNow (tick dt s), state := 0 } else s.training
      (r.retrain = true → r.pattern = true → (∀ f ∈ s.hbm.frozen, f.lost = false) →
        ∃ t, exec (.hbmDiagDone dt r) s = .next t ∧ isFrozenPc t j.stack j.pc = false ∧ t.hbm.jobs = [] ∧
          t.hbm = { s.hbm with jobs := [], frozen := t.hbm.frozen, map := t.hbm.map, reserves := t.hbm.reserves,
                               patterns := t.hbm.patterns } ∧
          (∀ i, slotOfPc s j.stack j.pc = some i → t.hbm.map = upd s.hbm.map i (fun e => { e with frozen := false })) ∧
          t.power = s.power ∧ t.ports = s.ports ∧ t.time = (tick dt s).time) ∧
      (∀ l, r.retrain = true → r.pattern = false → r.pprRows = some l → pprFits s j.stack j.pc l = true →
        ∃ t, exec (.hbmDiagDone dt r) s = .next t ∧ isFrozenPc t j.stack j.pc = false ∧ t.hbm.jobs = [] ∧
          t.wear.ppr = upd s.wear.ppr (32 * j.stack + j.pc) (fun _ => min 24 (s.wear.ppr.getD (32 * j.stack + j.pc) 0 + l.length)) ∧
          t.power = s.power ∧ t.ports = s.ports ∧ t.time = (tick dt s).time) ∧
      (r.retrain = false → (j.action ≠ 3 ∨ regField s 0x00B00004 4 1 = 0) →
        ∃ t, exec (.hbmDiagDone dt r) s = .next t ∧ t.hbm = { s.hbm with jobs := [], frozen := s.hbm.frozen.map fun f =>
          if f.stack = j.stack ∧ f.pc = j.pc then { f with diagnosed := true } else f } ∧
          OnlyReply { s with hbm := t.hbm, training := rested j, wear := t.wear } t) ∧
      (∀ i x, r.retrain = false → j.action = 3 → slotOfPc s j.stack j.pc = some i → regField s 0x00B00004 4 1 = 1 →
        reserveFor s j.stack = some x → ∃ t, exec (.hbmDiagDone dt r) s = .next t ∧
          t.hbm = { s.hbm with reserves := s.hbm.reserves.filter (· ≠ x), jobs := [{ j with sparing := some x }] } ∧
          OnlyReply { s with hbm := t.hbm, training := rested j, wear := t.wear } t)) ∧
    (∀ j x i, s.hbm.jobs = [j] → j.running = true → j.sparing = some x → s.hbm.moving = none →
      slotOfPc s j.stack j.pc = some i → ∃ t, exec (.hbmSpared dt []) s = .next t ∧
        t.hbm.map = upd s.hbm.map i (fun _ => ⟨x.1, x.2, false, true⟩) ∧ t.hbm.jobs = [] ∧
        isFrozenPc t j.stack j.pc = false ∧ (∀ f ∈ s.hbm.frozen, ¬(f.stack = j.stack ∧ f.pc = j.pc) → f ∈ t.hbm.frozen) ∧
        (j.action ≠ 2 → (∀ f ∈ s.hbm.frozen, f.lost = false) → t.hbm.cells = s.hbm.cells ∧ t.hbm.lanes = s.hbm.lanes) ∧
        (j.action = 2 → s.ecc.archives = [] → ∀ e ∈ t.hbm.cells, (decodeAddr s e.1).1 ≠ i) ∧
        t.power = s.power ∧ t.ports = s.ports ∧ t.time = (tick dt s).time) ∧
    (∀ d, let x := d.trunc; let b := begun d d.trunc (tick dt s); let st := d.trunc.p8 16; let pc := d.trunc.p8 17
      Runs (.channelSpare dt d) s →
      (isFrozenPc s st pc = false → exec (.channelSpare dt d) s = .next (complete x 0x1283 (u8 st ++ u8 pc) b)) ∧
      (isFrozenPc s st pc = true → s.hbm.jobs = [] → x.p8 18 = 0 → (∀ y ∈ s.training.sessions, ¬(y.stack = st ∧ y.pc = pc)) →
        ∃ t, exec (.channelSpare dt d) s = .next t ∧ t = { b with
          hbm := { s.hbm with jobs := [⟨st, pc, 0, some x, true, none⟩] }, training := t.training, free := t.free }) ∧
      (∀ y ∈ s.training.sessions, y.stack = st → y.pc = pc → isFrozenPc s st pc = true → s.hbm.jobs = [] → x.p8 18 = 0 →
        exec (.channelSpare dt d) s = .next { b with hbm := { s.hbm with jobs := [⟨st, pc, 0, some x, false, none⟩] } }) ∧
      (∀ i r, isFrozenPc s st pc = true → s.hbm.jobs = [] → x.p8 18 ≠ 0 → slotOfPc s st pc = some i →
        reserveFor s st = some r → exec (.channelSpare dt d) s = .next { b with hbm := { s.hbm with
          reserves := s.hbm.reserves.filter (· ≠ r), jobs := [⟨st, pc, x.p8 18, some x, true, some r⟩] } }))

/-- Training sessions of the host run on their pseudo-channel. An accepted TRN_HELPER out of range completes with
TRN_INVALID, on a pseudo-channel with live data with PC_ONLINE; one of ACTION 1 to 5 that may run starts a session at the
point in force; ACTION 6 writes result records. A session that finishes reports, keeps its results when ACTION 5 passed, and
completes. It states when these complete: `.trnHelper`, `.trnSessionDone`. -/
def Obligations.TrainingSessionsRun : Prop :=
  ∀ (dt : Nat) (s : State),
    (∀ d, let a := d.p8 16; let st := d.p8 17; let pc := d.p8 18; let b := begun d d (tick dt s); Runs (.trnHelper dt d) s →
      (∀ o, helperInvalid d = some o → exec (.trnHelper dt d) s = .next (complete d 0x1380 (u16 o) b)) ∧
      (helperInvalid d = none → 1 ≤ a → a ≤ 5 →
        (offline s st pc = false → exec (.trnHelper dt d) s = .next (complete d 0x1381 (u8 st ++ u8 pc) b)) ∧
        (offline s st pc = true → pcBusy s st pc = true →
          exec (.trnHelper dt d) s = .next (complete d 0x1382 (u8 st ++ u8 pc) b)) ∧
        (offline s st pc = true → pcBusy s st pc = false → (a = 2 ∨ isFrozenPc s st pc = false ∨ bitOf (d.p8 34) 0 = true) →
          s.hbm.moving = none → ∃ t, exec (.trnHelper dt d) s = .next t ∧ t.training.sessions = s.training.sessions ++
            [⟨d, a, st, pc, s.hbm.fp, false, 0, 0, (tick dt s).now, (tick dt s).now, s.free⟩] ∧ t.training.records = s.training.records ∧
            t = { b with training := t.training, free := s.free + 1 })) ∧
      (helperInvalid d = none → a = 6 → ∃ t, exec (.trnHelper dt d) s = .next t ∧ OnlyReply s t) ∧
      (helperInvalid d = none → a = 0 → (∀ x ∈ s.training.sessions, ¬(x.stack = st ∧ x.pc = pc)) →
        exec (.trnHelper dt d) s = .next (complete d 0 [] b))) ∧
    (∀ st pc steps pass m x, (s.training.sessions.find? fun x => x.stack = st ∧ x.pc = pc) = some x →
      (x.suspended = true → exec (.trnSessionDone dt st pc steps pass m) s = .next (tick dt s)) ∧
      (x.suspended = false → ∃ t, exec (.trnSessionDone dt st pc steps pass m) s = .next t ∧
        (∀ y, y ∈ t.training.sessions ↔ y ∈ s.training.sessions ∧ ¬(y.stack = st ∧ y.pc = pc)) ∧
        (x.action = 5 → pass = true → resultRecord t x.point st pc =
          passRecord x.point st pc (tick dt s).now m.values m.refs) ∧
        (x.action ≠ 5 ∨ pass = false → t.training.records = s.training.records) ∧ (x.action = 2 → t.hbm = { s.hbm with jobs := t.hbm.jobs }) ∧ (s.hbm.jobs = [] → t.hbm.jobs = []) ∧
        OnlyReply { s with
          training := t.training, free := t.free, hbm := { s.hbm with
            cells := t.hbm.cells, lanes := t.hbm.lanes, patterns := t.hbm.patterns, frozen := t.hbm.frozen, jobs := t.hbm.jobs } } t))

/-- Archive regions come, fill and go; buckets leak and the Conservator reads. Archive regions come, fill and go. An
accepted REGION_CFG that passes its four checks adds a region whose data and companion read zero, every other byte staying,
or removes one; one out of range completes with REGION_INVALID. The end of a fill makes a region READY and records it.
Counts are answered, and cleared on request. Buckets leak and the Conservator reads. After LEAK ms every bucket falls by one
where no uncorrectable byte waits to be told; a lap begins with the first byte of the pools and reads on: clean bytes only
move its place, a corrected one counts and an uncorrectable one too; while it pauses nothing is read. It states when these
complete: `.regionCfg`, `.archiveReady`, `.errCounts`, `.bucketLeak`, `.scrubRead`. -/
def Obligations.StoredDataIsProtected : Prop :=
  (∀ (dt : Nat) (s : State),
     (∀ d, let x := d.trunc; let b := begun d d.trunc (tick dt s); Runs (.regionCfg dt d) s →
       (∀ o, regionInvalid x s = some o → exec (.regionCfg dt d) s = .next (complete x 0x1480 (u16 o) b)) ∧
       (regionInvalid x s = none → x.p8 17 = 0 →
         (∀ h, regionOverlap x s = some h → exec (.regionCfg dt d) s = .next (complete x 0x1481 (u16 h) b)) ∧
         (regionOverlap x s = none → ∃ t, exec (.regionCfg dt d) s = .next t ∧ t.ecc = { s.ecc with
             compBad := t.ecc.compBad, archives := s.ecc.archives ++ [{ index := x.p8 16, base := x.p64 24, size := x.p64 32, comp := x.p64 40, ready := false, since := (tick dt s).now }] } ∧
           (∀ a, (x.p64 24 ≤ a ∧ a < x.p64 24 + x.p64 32) ∨
             (x.p64 40 ≤ a ∧ a < x.p64 40 + x.p64 32 / 8 * 5) → rawByte t a = 0) ∧
           (∀ a, (a < x.p64 24 ∨ x.p64 24 + x.p64 32 ≤ a) → (a < x.p64 40 ∨ x.p64 40 + x.p64 32 / 8 * 5 ≤ a) →
             rawByte t a = rawByte s a) ∧
           OnlyReply { s with ecc := t.ecc, hbm := { s.hbm with cells := t.hbm.cells, lanes := t.hbm.lanes } } t)) ∧
       (∀ r, regionInvalid x s = none → x.p8 17 = 1 → archiveNo s (x.p8 16) = some r → r.ready = true →
         (∀ h, regionUser s r = some h → exec (.regionCfg dt d) s = .next (complete x 0x1482 (u16 h) b)) ∧
         (regionUser s r = none → ∃ t, exec (.regionCfg dt d) s = .next t ∧
           t.ecc = { s.ecc with archives := s.ecc.archives.filter (fun r => r.index ≠ x.p8 16), compBad := t.ecc.compBad } ∧
           (s.ecc.compBad = [] → t.hbm = s.hbm) ∧ (s.memOk → ∀ a, rawByte t a = rawByte s a) ∧
           OnlyReply { s with ecc := t.ecc, hbm := { s.hbm with cells := t.hbm.cells, lanes := t.hbm.lanes } } t))) ∧
     (∀ n, s.hbm.moving ≠ none ∨ s.hbm.selfRef = true → exec (.archiveReady dt n) s = .next (tick dt s)) ∧
     (∀ n r, archiveNo s n = some r → r.ready = false → s.hbm.moving = none → s.hbm.selfRef = false →
       ∃ t, exec (.archiveReady dt n) s = .next t ∧
       t.ecc = { s.ecc with archives := s.ecc.archives.map fun x => if x.index = n then { x with ready := true } else x } ∧
       OnlyRecords { s with ecc := t.ecc } t) ∧
     (∀ d, let x := d.trunc; let c := regionCount s (d.trunc.p8 16); Runs (.errCounts dt d) s →
       ∃ t, exec (.errCounts dt d) s = .next t ∧ OnlyReply { s with ecc := { s.ecc with regions := t.ecc.regions } } t ∧
         t = complete x 0 (u32 c.ce ++ u32 c.ue) { begun d x (tick dt s) with ecc := t.ecc } ∧
         (x.p8 17 = 0 → t.ecc = s.ecc) ∧
         (x.p8 17 = 1 → regionCount t (x.p8 16) = { c with ce := 0, ue := 0, level := 0, ovf := 0 }))) ∧
  (∀ (dt : Nat) (s : State),
     ((∀ c ∈ s.ecc.regions, c.ueSince = 0) → s.ecc.leaked + bucketLeak s * msec ≤ (tick dt s).now →
       exec (.bucketLeak dt) s = .next { tick dt s with ecc := { s.ecc with
         leaked := (tick dt s).now, regions := s.ecc.regions.map fun c => { c with level := c.level - 1 } } }) ∧
     (∀ r o err, (scrubPaused s = true ∨ scrubSize s r ≤ o → exec (.scrubRead dt r o err) s = .next (tick dt s)) ∧
       (scrubPaused s = false → r < 5 → o < scrubSize s r → s.ecc.lapLast = none → s.ecc.sram = [] →
         (∀ x ∈ s.ecc.archives, x.since < (tick dt s).now) → (r, o) ≠ lapEnd s →
         (err = 0 → exec (.scrubRead dt r o err) s = .next { tick dt s with ecc := { s.ecc with
           lapBegan := (tick dt s).now, lapLast := some (tick dt s).now, scrubReg := r, scrubOff := o } }) ∧
         (err < 8192 → poolDecode r err = (1, 0) → ∃ t, exec (.scrubRead dt r o err) s = .next t ∧ (regionCount t r).ce = bump (regionCount s r).ce ∧
           (∀ q, q ≠ r → regionCount t q = regionCount s q) ∧ t.ecc.scrubReg = r ∧ t.ecc.scrubOff = o ∧
           OnlyRecords { s with ecc := t.ecc } t) ∧
         (err < 8192 → (poolDecode r err).1 = 2 → ∃ t, exec (.scrubRead dt r o err) s = .next t ∧ (regionCount t r).ue = satAdd top32 (regionCount s r).ue 1 ∧
           (regionCount t r).ce = (regionCount s r).ce ∧ (∀ q, q ≠ r → regionCount t q = regionCount s q) ∧
           OnlyRecords { s with ecc := t.ecc } t))))

/-- Readings act on their zone, and thermal timers on its warnings, θ and LATCH. A reading acts on its zone. Every reading
of a sensor is its latest; below the warning threshold it changes nothing but the sensing state; at or above it the zone
warns; at the hard-trip threshold every channel turns OFF, LATCH is set and the module is in P3 at once. A carrier diode's
reading is kept, and a fault recorded when it appears. Thermal timers and THM_READ. Long enough below the warning threshold
less 3 °C a zone's warning clears; θ falls by 32, not under 128, after 100 ms above the throttle threshold and rises by 32
after 1 s below it less 3 °C, the first rise clearing the throttle; LATCH clears 10 s after every zone cooled; THM_READ
answers temperature, flags and age. It states when these complete: `.sensorReading`, `.thermWarnClear`, `.throttleDecay`,
`.throttleRecover`, `.thermLatchClear`, `.thmRead`. -/
def Obligations.TemperaturesAct : Prop :=
  (∀ (dt x : Nat) (temp : Int) (s : State), let z := sensorZone x
     (∀ f, x < 44 → x < s.thermal.sensors.length → ∃ t, exec (.sensorReading dt x temp f) s = .next t ∧
       (sensorOf t x).temp = temp ∧ (sensorOf t x).stamp = (tick dt s).now ∧ (sensorOf t x).seen = true ∧
       (∀ y, y ≠ x → (sensorOf t y).temp = (sensorOf s y).temp) ∧
       (x < 32 → (s.power.state = .p3 ∨ s.power.state = .p4) → t.power = s.power ∧ t.gheler = s.gheler ∧ t.hbm = s.hbm)) ∧
     (∀ f, x < 44 → x < s.thermal.sensors.length → z < s.thermal.zones.length →
       (∀ y ∈ zoneSensors z, suspect s y = false ∧ (sensorOf s y).temp ≤ temp) →
       neighbourMedian s x = none → s.power.state ≠ .p3 → s.power.state ≠ .p4 → (zoneOf s z).blind = false →
       (temp < limitOf z 0 → x < 32 ∨ 34 ≤ x → ∃ t, exec (.sensorReading dt x temp f) s = .next t ∧
         OnlyRecords { s with thermal := t.thermal, wear := { s.wear with status := t.wear.status, causes := t.wear.causes } } t) ∧
       (limitOf z 0 ≤ temp → temp < limitOf z 1 → (zoneOf s z).warn = false → (x < 32 ∨ 34 ≤ x) → ∃ t, exec (.sensorReading dt x temp f) s = .next t ∧
         (zoneOf t z).warn = true ∧
         OnlyRecords { s with thermal := t.thermal, wear := { s.wear with status := t.wear.status, causes := t.wear.causes } } t) ∧
       (limitOf z 3 ≤ temp → s.thermal.latch = false → ∃ t, exec (.sensorReading dt x temp f) s = .next t ∧
         t.thermal.latch = true ∧ t.thermal.trip = (tick dt s).now ∧ t.power.state = .p3 ∧ t.power.stop = none ∧
         enabledChans t = [])) ∧
     (∀ c f, c < 2 → s.thermal.carriers.length = 2 → ∃ t, exec (.sensorReading dt (0x50 + c) temp f) s = .next t ∧
       t.thermal = { s.thermal with carriers := upd s.thermal.carriers c fun _ => ⟨temp, (tick dt s).now, f⟩ } ∧
       OnlyRecords { s with thermal := t.thermal } t)) ∧
  (∀ (dt z : Nat) (s : State), let y := zoneOf s z; z < s.thermal.zones.length →
     (∀ w, y.warn = true → y.warnBelow = some w → w + 100 * msec ≤ (tick dt s).now → ∃ t, exec (.thermWarnClear dt z) s = .next t ∧
       t.thermal = { s.thermal with zones := upd s.thermal.zones z fun y => { y with warn := false, warnBelow := none } } ∧
       OnlyRecords { s with thermal := t.thermal } t) ∧
     (∀ w, y.thrAbove = some w → ((tick dt s).now < w + 100 * msec → exec (.throttleDecay dt z) s = .next (tick dt s)) ∧
       (w + 100 * msec ≤ (tick dt s).now → ∃ t, exec (.throttleDecay dt z) s = .next t ∧
         t.thermal = { s.thermal with zones := upd s.thermal.zones z fun y => { y with
           thrAbove := some (tick dt s).now, theta := max 128 (y.theta - 32) } } ∧ t.hbm = s.hbm ∧ t.power = s.power ∧
         t.ports = s.ports ∧ t.time = (tick dt s).time ∧ (s.adm.items = [] → t.heads = s.heads ∧ t.gheler = s.gheler))) ∧
     (∀ w, y.thrBelow = some w → ((tick dt s).now < w + sec → exec (.throttleRecover dt z) s = .next (tick dt s)) ∧
       (w + sec ≤ (tick dt s).now → y.theta < 256 → ∃ t, exec (.throttleRecover dt z) s = .next t ∧
         (zoneOf t z).theta = min 256 (y.theta + 32) ∧ (zoneOf t z).reached = false ∧
         (∀ w, w ≠ z → zoneOf t w = zoneOf s w) ∧ t.hbm = s.hbm ∧ t.power = s.power ∧ t.ports = s.ports ∧ t.time = (tick dt s).time ∧
         (s.adm.items = [] → t.heads = s.heads ∧ t.gheler = s.gheler))) ∧
     (∀ w, s.thermal.latch = true → s.thermal.latchBelow = some w → w + 10 * sec ≤ (tick dt s).now →
       ∃ t, exec (.thermLatchClear dt) s = .next t ∧
         t = { tick dt s with thermal := { s.thermal with latch := false, latchBelow := none }, ledger := t.ledger } ∧
         (∃ r, t.ledger.saved = s.ledger.saved ++ [r] ∧ r.event = 0x1508 ∧ r.saved = true)) ∧
     (∀ d, let x := d.trunc; let b := begun d d.trunc (tick dt s); let c := d.trunc.p8 16
       Runs (.thmRead dt d) s →
       (c < 44 → exec (.thmRead dt d) s = .next (complete x 0
         (thmDetail (sensorOf s c).temp (bit (suspect s c)) (sensorOf s c).stamp b) b)) ∧
       (0x40 ≤ c → c < 0x48 → exec (.thmRead dt d) s = .next (complete x 0
         (thmDetail (zoneTemp s (c - 0x40)) (2 * bit (zoneOf s (c - 0x40)).blind) (zoneStamp s (c - 0x40)) b) b)) ∧
       (∀ y, 0x50 ≤ c → s.thermal.carriers[c - 0x50]? = some y → exec (.thmRead dt d) s = .next (complete x 0
         (thmDetail y.temp (4 * bit y.fault.isSome) y.stamp b) b))))

/-! ### Catum Link and provoked faults (chapters 22, 23) -/

/-- Catum ports train and fall, and CAT_CONFIG applies as a whole. Catum ports train and fall. With every lane it needs
locked a port goes from BITLOCK to ALIGN, and aligned it sends its HELLO in IDENT; a READY port that loses one, or whose
link is gone for the cause named (log 94), trains again; the reserve takes the one failing lane, two fail the training, as
does 100 ms; a FAILED port tries again after 1 s; LINK is sent with its acknowledgement and credit. CAT_CONFIG applies as a
whole. An accepted CAT_CONFIG whose buffer is too short or refused by Table 22.3 completes with CAT_INVALID and the offset,
one that touches an enabled forwarded ring with CAT_RING_BUSY; otherwise ports, routes, time master, hold and forwarding are
those of the block, and a port newly enabled trains. It states when these complete: `.catLaneLock`, `.catLaneLockTimeout`,
`.catTrainTimeout`, `.catTrainRetry`, `.catLinkDown`, `.catAckTimer`, `.catConfig`. -/
def Obligations.CatumPortsTrainAndAreConfigured : Prop :=
  (∀ (dt port : Nat) (s : State), let c := catOf s port; NoFaults s → port < s.catum.ports.length →
     (∀ lock al, (c.needed &&& lock % 32 = c.needed →
         (c.state = .bitlock → exec (.catLaneLock dt port lock al) s =
           .next (modCat port (fun c => { c with lock := lock % 32, state := .align }) (tick dt s))) ∧
         (c.state = .align → al = true → ∃ b, exec (.catLaneLock dt port lock al) s = .next { tick dt s with
           catum := { s.catum with ports := upd s.catum.ports port fun c => { c with lock := lock % 32, state := .ident } },
           out := .cat port b :: s.out }) ∧
         (c.state = .ready → exec (.catLaneLock dt port lock al) s =
           .next (modCat port (fun c => { c with lock := lock % 32 }) (tick dt s)))) ∧
       (c.needed &&& lock % 32 ≠ c.needed → c.state = .ready → ∃ t, exec (.catLaneLock dt port lock al) s = .next t ∧
         (catOf t port).state = .bitlock ∧ (catOf t port).replay = c.replay ∧ (∀ j, j ≠ port → catOf t j = catOf s j) ∧
         OnlyRecords { s with catum := t.catum } t)) ∧
     (c.state = .bitlock → c.trainAt + 5 * msec ≤ (tick dt s).now →
       (∀ lane, ((List.range 4).filter fun l => !bitOf c.lock l) = [lane] → c.spared = 15 → bitOf c.lock 4 = true →
         ∃ t, exec (.catLaneLockTimeout dt port lane) s = .next t ∧ catOf t port = { c with spared := lane, state := .align } ∧
           (∀ j, j ≠ port → catOf t j = catOf s j) ∧ OnlyRecords { s with catum := t.catum, wear := t.wear } t) ∧
       (∀ lane, 2 ≤ ((List.range 4).filter fun l => !bitOf c.lock l).length →
         ∃ t, exec (.catLaneLockTimeout dt port lane) s = .next t ∧
           catOf t port = { c with state := .failed, trainAt := (tick dt s).now } ∧ (∀ j, j ≠ port → catOf t j = catOf s j) ∧ OnlyRecords { s with catum := t.catum, wear := t.wear } t)) ∧
     (c.training = true → c.trainAt + 100 * msec ≤ (tick dt s).now → ∃ t, exec (.catTrainTimeout dt port) s = .next t ∧
       catOf t port = { c with state := .failed, trainAt := (tick dt s).now } ∧ (∀ j, j ≠ port → catOf t j = catOf s j) ∧
       OnlyRecords { s with catum := t.catum, wear := t.wear } t) ∧
     (c.state ≠ .failed ∨ (tick dt s).now < c.trainAt + sec → exec (.catTrainRetry dt port) s = .next (tick dt s)) ∧
     (c.state = .failed → c.trainAt + sec ≤ (tick dt s).now → exec (.catTrainRetry dt port) s = .next (modCat port (fun c => { c with
       state := .bitlock, lock := 0, spared := 15, helloIn := false, nakSent := false, trainAt := (tick dt s).now }) (tick dt s))) ∧
     (∀ cause, (c.state ≠ .ready ∨ c.linkGone cause (tick dt s).now = false →
         exec (.catLinkDown dt port cause) s = .next (tick dt s)) ∧
       (c.state = .ready → c.linkGone cause (tick dt s).now = true → ∃ t, exec (.catLinkDown dt port cause) s = .next t ∧ (catOf t port).state = .bitlock ∧
         (catOf t port).replay = c.replay ∧ (catOf t port).trainAt = (tick dt s).now ∧ (∀ j, j ≠ port → catOf t j = catOf s j) ∧
         OnlyRecords { s with catum := t.catum } t)) ∧
     (c.state = .ready → exec (.catAckTimer dt port) s = .next { tick dt s with
       out := .cat port (CatPkt.bytes ⟨0, 0, c.partner, catDevice s, 1, 0, 0,
         u16 ((c.lsnRx + 65535) % 65536) ++ u16 0 ++ u8 0 ++ u24 0 ++
           (List.range 4).flatMap fun v => u16 ((c.rxUnits.getD v 0 + catBuffer v) % 65536)⟩) :: s.out })) ∧
  (∀ (dt : Nat) (d : Desc) (x : List Byte) (s : State), let u := begun d d (tick dt s); let b := padTo 2112 x
     Runs (.catConfig dt d (.data x)) s → d.fwd = none → s.catum.ports.length = 4 →
     (d.length < 2112 → exec (.catConfig dt d (.data x)) s = .next (complete d 0x1680 (u16 d.length) u)) ∧
     (2112 ≤ d.length → (∀ o, catInvalid s b = some o → exec (.catConfig dt d (.data x)) s = .next (complete d 0x1680 (u16 o) u)) ∧
       (catInvalid s b = none → (∀ q, fwdBusy s b = some q →
           exec (.catConfig dt d (.data x)) s = .next (complete d 0x1681 (u16 q) u)) ∧
         (fwdBusy s b = none → ∃ t, exec (.catConfig dt d (.data x)) s = .next t ∧ t.catum.master = fieldOf b 4 2 ∧
           t.catum.followHold = fieldOf b 16 4 ∧ (∀ q < 256, fwdOf t q = fwdEntry b q) ∧
           (∀ dev < 1024, dev ≠ catDevice s → (getKey dev t.catum.routes).getD 0xFE = fieldOf b (64 + dev) 1) ∧
           (∀ p < 4, (catOf t p).enabled = bitOf (fieldOf b 0 1) p ∧ (catOf t p).asym = signed 16 (fieldOf b (8 + 2 * p) 2) ∧
             ((catOf s p).enabled = bitOf (fieldOf b 0 1) p → (catOf t p).state = (catOf s p).state) ∧
             ((catOf s p).enabled = false → (catOf t p).enabled = true → (catOf t p).state = .bitlock) ∧
             ((catOf s p).enabled = true → (catOf t p).enabled = false → (catOf t p).state = .down)) ∧
           t.catum.locks = s.catum.locks ∧ t.catum.members = s.catum.members ∧ t.catum.mailbox = s.catum.mailbox ∧
           OnlyReply { s with catum := t.catum } t))))

/-- Catum packets are checked before they act. A LINK acknowledges and renews credit; a HELLO in IDENT brings READY, and one
to its lead a member; a packet with a bad CRC is counted and asked for again once, one of a bad layout is taken and counted;
a packet for another device goes out of its route with a hop fewer, or is counted when its hops end. Around the packets: a
port that has bit lock aligns, a lane taken by the reserve stands in the wear record, a training over its time fails and is
tried again, a link that is lost forgets its marks, LINK leaves when it is due, and an accepted block of CAT_CONFIG gives
the routes and forwarding that packets then follow. It states when these complete: `.catLaneLock`, `.catLaneLockTimeout`,
`.catTrainTimeout`, `.catTrainRetry`, `.catLinkDown`, `.catAckTimer`, `.catConfig`, `.catLinkPacket`, `.catHello`,
`.catPacketBad`, `.catPacketForward`. -/
def Obligations.CatumPacketsAreChecked : Prop :=
  (∀ (dt port : Nat) (s : State), let c := catOf s port; port < s.catum.ports.length → NoFaults s →
    (∀ lock al, c.state = .bitlock → c.needed &&& lock % 32 = c.needed → exec (.catLaneLock dt port lock al) s =
      .next (modCat port (fun c => { c with lock := lock % 32, state := .align }) (tick dt s))) ∧
    (∀ lane, c.state = .bitlock → c.trainAt + 5 * msec ≤ (tick dt s).now → c.spared = 15 → bitOf c.lock 4 = true →
      ((List.range 4).filter fun l => !bitOf c.lock l) = [lane] →
      ∃ t, exec (.catLaneLockTimeout dt port lane) s = .next t ∧ (catOf t port).state = .align ∧
        t.wear = { s.wear with clSpared := upd s.wear.clSpared port fun _ => lane }) ∧
    (c.training = true → c.trainAt + 100 * msec ≤ (tick dt s).now → ∃ t, exec (.catTrainTimeout dt port) s = .next t ∧
      (catOf t port).state = .failed ∧ (catOf t port).trainAt = (tick dt s).now) ∧
    (c.state = .failed → c.trainAt + sec ≤ (tick dt s).now → exec (.catTrainRetry dt port) s =
      .next (catTrain port (tick dt s))) ∧
    (∀ cause, c.state = .ready → c.linkGone cause (tick dt s).now = true → ∃ t, exec (.catLinkDown dt port cause) s = .next t ∧
      (catOf t port).state = .bitlock ∧ t.catum.marksIn = s.catum.marksIn.filter fun x => x.1 ≠ port) ∧
    (c.state = .ready → exec (.catAckTimer dt port) s = .next (sendLink port false (tick dt s)))) ∧
  (∀ (dt : Nat) (d : Desc) (x : List Byte) (s : State), Runs (.catConfig dt d (.data x)) s → d.fwd = none → d.length = 2112 →
    catInvalid s (padTo 2112 x) = none → fwdBusy s (padTo 2112 x) = none → ∃ t, exec (.catConfig dt d (.data x)) s = .next t ∧
      (∀ q < 256, fwdOf t q = fwdEntry (padTo 2112 x) q) ∧
      (∀ dev < 1024, dev ≠ catDevice s → (getKey dev t.catum.routes).getD 0xFE = fieldOf (padTo 2112 x) (64 + dev) 1)) ∧
  ∀ (dt port : Nat) (p : CatPkt) (s : State), let c := catOf s port; let u := taken port p (tick dt s)
    port < s.catum.ports.length → NoFaults s →
    (p.type_ = 0 → catGood p = true → p.hops < 256 → p.lsn < 65536 → p.tag < 2 ^ 32 → p.src ≠ catDevice s → c.state = .ready →
      c.waiting = [] → bitOf (fieldOf p.payload 4 1) 0 = false → exec (.catLinkPacket dt port p) s =
        .next (modCat port (fun c => { c with
          linkAt := (tick dt s).now
          replay := c.replay.filter fun q => !decide ((fieldOf p.payload 0 2 + 65536 - q.lsn) % 65536 < 32768)
          sentAt := c.sentAt.drop (c.replay.filter fun q =>
            decide ((fieldOf p.payload 0 2 + 65536 - q.lsn) % 65536 < 32768)).length
          limits := (List.range 4).map fun v => fieldOf p.payload (8 + 2 * v) 2 }) (tick dt s))) ∧
    (p.type_ = 1 → p.hops = 1 → catGood p = true → p.lsn < 65536 → p.tag < 2 ^ 32 → p.src ≠ catDevice s → c.state = .ident →
      c.replay = [] → c.waiting = [] → catRole s = 0 → ∃ t, exec (.catHello dt port p) s = .next t ∧
        (catOf t port).state = .ready ∧ (catOf t port).partner = p.src ∧ getKey p.src t.catum.learned = some port ∧
        (∀ j, j ≠ port → catOf t j = catOf s j) ∧ OnlyRecords { s with catum := t.catum, wear := t.wear } t) ∧
    (p.type_ = 1 → Arrives port p s → (catRole s ≠ 1 → exec (.catHello dt port p) s = .next u) ∧
      (∀ v, v = fieldOf p.payload 0 4 → catRole s = 1 → bits v 14 2 = 2 → bits v 16 10 = catDevice s → bits v 10 4 = catDomain s →
        (getKey p.src s.catum.members).isSome = true → exec (.catHello dt port p) s =
          .next { u with catum := { u.catum with members := setKey p.src (tick dt s).now s.catum.members } })) ∧
    (catGood p = true → c.state = .ready → c.nakSent = false → ∃ b, exec (.catPacketBad dt port p) s = .next { tick dt s with
      catum := { s.catum with ports := upd s.catum.ports port fun c => { c with crc := bump c.crc, nakSent := true } },
      out := .cat port b :: s.out }) ∧
    (catGood p = true → c.state = .ready → c.nakSent = true → exec (.catPacketBad dt port p) s =
      .next (modCat port (fun c => { c with crc := bump c.crc }) (tick dt s))) ∧
    (c.state = .ready → catGood p = false → 0 < p.type_ → p.type_ < 256 → p.vc < 256 → p.dest < 65536 → p.src < 65536 →
      p.hops < 256 → p.lsn < 65536 → p.tag < 2 ^ 32 → p.payload.length < 65536 → p.src ≠ catDevice s → p.lsn = c.lsnRx →
      ∃ t, exec (.catPacketBad dt port p) s = .next t ∧ (catOf t port).crc = bump c.crc ∧
        (catOf t port).lsnRx = (c.lsnRx + 1) % 65536 ∧ (∀ j, j ≠ port → catOf t j = catOf s j) ∧
        t = { tick dt s with catum := { s.catum with ports := t.catum.ports } }) ∧
    (catGood p = true → c.state = .ready → p.type_ ≠ 0 → p.hops < 256 → p.lsn < 65536 → p.tag < 2 ^ 32 → p.src ≠ catDevice s →
      p.lsn = c.lsnRx → p.dest ≠ catDevice s →
      (1 < p.hops → (∀ q, routeOf u p.dest = some q →
          exec (.catPacketForward dt port p) s = .next (catQueue q { p with hops := p.hops - 1 } u)) ∧
        (routeOf u p.dest = none → exec (.catPacketForward dt port p) s = .next u)) ∧
      (p.hops ≤ 1 → ∃ t, exec (.catPacketForward dt port p) s = .next t ∧ t.catum.hopDrop = bump s.catum.hopDrop ∧
        t.catum.ports = u.catum.ports ∧ OnlyRecords { s with catum := t.catum } t))

/-- The mailbox reaches another module, and the domain acts together. The mailbox reaches another module. GO towards another
device sets BUSY with the next TAG and sends MB_REQ; the target reads or writes its BAR0 and answers with the TAG; the
answer of the device asked leaves DATA, ERR and BUSY clear, any other is ignored; 1 ms without one leaves all ones and ERR.
The domain acts together. A follower takes the urgent word of its lead and acts on it, refuses an illegal one, and begins
the orderly stop when the lead has lost its host or its hold expires; the lead counts reports, records UCW_ACTION at the
last one or after 1 ms, and drops a follower unheard for 300 ms with its rings halted; a follower greets its lead every 100
ms. It states when these complete: `.mbReq`, `.mbResp`, `.mailboxGo`, `.mailboxTimeout`, `.catUcwRequest`, `.catUcwReport`,
`.ucwDomainTimeout`, `.catHostLost`, `.followHoldExpiry`, `.catFollowerLost`, `.helloTimer`. -/
def Obligations.TheDomainActsTogether : Prop :=
  (∀ (dt port : Nat) (p : CatPkt) (s : State), let u := taken port p (tick dt s); let m := s.catum.mailbox
     let dev := regField s 0x00F00010 0 10
     (Arrives port p s → p.type_ = 2 → let off := fieldOf p.payload 0 4
       (fieldOf p.payload 4 1 = 0 → barOffset false off = some off → pairLo off = false → pairLo (off - 4) = false →
         exec (.mbReq dt port p) s = .next (catSend 3 0 p.src p.tag (u32 (regWord u false off).toNat ++ u8 0 ++ u24 0) u)) ∧
       (fieldOf p.payload 4 1 = 1 → exec (.mbReq dt port p) s = .next (catSend 3 0 p.src p.tag
         (u32 (fieldOf p.payload 8 4) ++ u8 0 ++ u24 0)
         (barWrite clearRules (mbStart clearRules) off (wordOf (fieldOf p.payload 8 4)) u)))) ∧
     (Arrives port p s → p.type_ = 3 →
       (m.busy = true → m.tag = p.tag → m.device = p.src → ∃ t, exec (.mbResp dt port p) s = .next t ∧
         t.catum.mailbox = { m with busy := false, err := m.err || fieldOf p.payload 4 1 == 1 } ∧
         (fieldOf p.payload 4 1 = 0 → rawReg t 0x00F00018 = wordOf (fieldOf p.payload 0 4)) ∧
         (∀ k, k ≠ 0x00F00018 → rawReg t k = rawReg s k) ∧
         t = { u with regs := t.regs, catum := { u.catum with mailbox := t.catum.mailbox } }) ∧
       (m.busy = false ∨ m.tag ≠ p.tag ∨ m.device ≠ p.src → exec (.mbResp dt port p) s = .next u)) ∧
     (∀ w, m.busy = false → dev ≠ catDevice s → ∃ t, exec (.mailboxGo dt w) s = .next t ∧
       t.catum.mailbox = ⟨true, w, m.err, s.catum.tag, (tick dt s).now, dev⟩ ∧ t.catum.tag = (s.catum.tag + 1) % 2 ^ 32 ∧
       (∀ k, k ≠ 0x00F0001C → rawReg t k = rawReg s k) ∧ t.catum.locks = s.catum.locks ∧ t.heads = s.heads ∧
       t.power = s.power ∧ t.host = s.host ∧ t.hbm = s.hbm) ∧
     (m.busy = true → m.since + msec ≤ (tick dt s).now → ∃ t, exec (.mailboxTimeout dt) s = .next t ∧
       rawReg t 0x00F00018 = 0xFFFFFFFF#32 ∧ (∀ k, k ≠ 0x00F00018 → rawReg t k = rawReg s k) ∧
       t = { tick dt s with regs := t.regs, catum := { s.catum with mailbox := { m with busy := false, err := true } } }) ∧
     (m.busy = false → exec (.mailboxTimeout dt) s = .next (tick dt s))) ∧
  (∀ (dt port : Nat) (p : CatPkt) (s : State), let u := taken port p (tick dt s); let w := fieldOf p.payload 0 4
     (Arrives port p s → p.type_ = 4 → fieldOf p.payload 4 1 = 0 →
       (catRole s ≠ 2 → exec (.catUcwRequest dt port p) s = .next u) ∧
       (catRole s = 2 → ucwLegal false w = false → exec (.catUcwRequest dt port p) s = .next (recordAt false (tick dt s).now 3 0x0506
         (u32 w ++ u16 0 ++ u8 1 ++ u8 0) { u with host := { s.host with ucwReject := true } })) ∧
       (catRole s = 2 → ucwLegal false w = true → exec (.catUcwRequest dt port p) s = .next (ucwAct (w % 256) (bits w 8 8) { u with
         host := { s.host with ucwAction := w % 256, ucwCount := (s.host.ucwCount + 1) % 256,
                               ucwRuns := s.host.ucwRuns ++ [⟨w % 256, namedHeads (bits w 8 8),
                                 rampsOf (w % 256) (bits w 8 8) s, w, false, (tick dt s).now⟩] },
         catum := { u.catum with ucwIn := s.catum.ucwIn ++ [(w, fieldOf p.payload 8 8, p.tag)] } }))) ∧
     (∀ v, Arrives port p s → p.type_ = 4 → fieldOf p.payload 4 1 = 1 → s.catum.ucw = [v] → v.action = fieldOf p.payload 0 1 →
       p.src ∈ v.waiting → (v.waiting ≠ [p.src] ∨ v.ownEnd = none → exec (.catUcwReport dt port p) s = .next { u with
           catum := { u.catum with ucw := [{ v with waiting := v.waiting.erase p.src }] } }) ∧
         (v.waiting = [p.src] → v.ownEnd ≠ none → ∃ t, exec (.catUcwReport dt port p) s = .next t ∧
           t.catum = { u.catum with ucw := [] } ∧ OnlyRecords { s with catum := t.catum } t)) ∧
     (∀ v e, s.catum.ucw = [v] → v.ownEnd = some e → ((tick dt s).now < e + msec → exec (.ucwDomainTimeout dt) s = .next (tick dt s)) ∧
       (e + msec ≤ (tick dt s).now → ∃ t, exec (.ucwDomainTimeout dt) s = .next t ∧ t.catum = { s.catum with ucw := [] } ∧
         OnlyRecords { s with catum := t.catum } t)) ∧
     (Arrives port p s → p.type_ = 5 → (catRole s ≠ 2 → exec (.catHostLost dt port p) s = .next u) ∧
       (catRole s = 2 → s.startup.ready = true → s.power.stop = none → ∃ t, exec (.catHostLost dt port p) s = .next t ∧
         t.power.stop = some (.hostLink, .ramping) ∧ t.ingest.flows = [] ∧ t.fault.armed = false ∧ RegsStay s t)) ∧
     (∀ e, s.catum.leadLost = some e → catRole s = 2 → s.power.stop = none →
       ((tick dt s).now < e + s.catum.followHold * msec → exec (.followHoldExpiry dt) s = .next (tick dt s)) ∧
       (e + s.catum.followHold * msec ≤ (tick dt s).now → s.startup.ready = true → ∃ t, exec (.followHoldExpiry dt) s = .next t ∧
         t.power.stop = some (.hostLink, .ramping) ∧ t.ingest.flows = [] ∧ t.fault.armed = false ∧ RegsStay s t)) ∧
     (∀ dev e, getKey dev s.catum.members = some e → catRole s = 1 →
       ((tick dt s).now < e + 300 * msec → exec (.catFollowerLost dt dev) s = .next (tick dt s)) ∧
       (e + 300 * msec ≤ (tick dt s).now → (∀ x ∈ s.catum.fwdHeld, x.1 ≠ dev) → ∃ t, exec (.catFollowerLost dt dev) s = .next t ∧
         t.catum = { s.catum with members := dropKey dev s.catum.members } ∧
         (∀ q < s.host.sq.length, sqOf t q = if (∃ f ∈ s.catum.fwd, f.device = dev ∧ f.ring = q) then
           { sqOf s q with halted := true } else sqOf s q) ∧
         OnlyRecords { s with catum := t.catum, host := { s.host with sq := t.host.sq } } t)) ∧
     ((catRole s ≠ 2 ∨ (tick dt s).now < s.catum.helloAt + 100 * msec → exec (.helloTimer dt) s = .next (tick dt s)) ∧
       (catRole s = 2 → s.catum.helloAt + 100 * msec ≤ (tick dt s).now → port < 4 → (∀ j < 4, (catOf s j).state = .ready ↔ j = port) →
         exec (.helloTimer dt) s = .next (helloLead port { tick dt s with
           catum := { s.catum with helloAt := (tick dt s).now } }))))

/-- Forwarded work, host memory, the ledger and time cross the link. Descriptors, host memory and the ledger cross the link.
A forwarded descriptor joins its follower's ring, an unknown OPCODE is answered; its completion is posted by the lead and
releases the descriptor held; the lead reads and writes host memory for its follower and holds the follower's records with
its own; answers join the read they belong to. Time crosses the link. A mark is answered at once and kept with its arrival
until its TIME_REQ, which is answered with it; each exchange sends a mark and a TIME_REQ towards the time master; the
answer's mark and its TIME_RESP are kept, and the second of them gives the offset and the delay of the port; 10 ms without
one loses lock. It states when these complete: `.fwdDesc`, `.fwdCompl`, `.dmaRdReq`, `.dmaRdData`, `.dmaWr`, `.catLedger`,
`.timeMark`, `.timeReq`, `.timeResp`, `.timeExchange`, `.timeRespTimeout`. -/
def Obligations.WorkAndTimeCrossTheLink : Prop :=
  (∀ (dt port : Nat) (p : CatPkt) (s : State), let u := taken port p (tick dt s); let b := p.payload; Arrives port p s →
     (p.type_ = 6 → let d : Desc := ⟨fieldOf b 0 1, (b.drop 16).take 64, fieldOf b 8 8, 0, some (p.src, fieldOf b 2 1, p.vc)⟩
       (catRole s ≠ 2 → exec (.fwdDesc dt port p) s = .next u) ∧
       (catRole s = 2 → (∀ x ∈ s.host.fetched, x.ring ≠ d.ring) → opcodes.contains d.opcode = true → readsHost.contains d.opcode = false →
         exec (.fwdDesc dt port p) s = .next { u with host := { s.host with fetched := s.host.fetched ++ [d] } }) ∧
       (catRole s = 2 → (∀ x ∈ s.host.fetched, x.ring ≠ d.ring) → opcodes.contains d.opcode = false →
         readsHost.contains d.opcode = false → d.fence = false → exec (.fwdDesc dt port p) s = .next (firstAt u.now d 0x10 [] u))) ∧
     (p.type_ = 7 → let q := fieldOf b 0 1; let m := compOf (b.drop 8) q false
       ((∀ x ∈ s.catum.fwdHeld, ¬(x.1 = p.src ∧ x.2.ring = q ∧ x.2.tag = m.tag)) ∨ m.notice = true →
         exec (.fwdCompl dt port p) s = .next (postTo (ringCq s q) m u)) ∧
       (∀ x, s.catum.fwdHeld = [x] → x.1 = p.src → x.2.ring = q → x.2.tag = m.tag → m.notice = false → x.2.quiet = false →
         exec (.fwdCompl dt port p) s = .next (postTo (ringCq s q) { m with irq := x.2.irq, took := true }
           { u with catum := { u.catum with fwdHeld := [] } }))) ∧
     (p.type_ = 8 → let want := fieldOf b 8 4
       (∀ buf, catRole s ≠ 1 → exec (.dmaRdReq dt port p buf) s = .next u) ∧
       (∀ bs, catRole s = 1 → bs.length = want → want ≤ 496 → exec (.dmaRdReq dt port p (.data bs)) s =
         .next (catSend 9 2 p.src p.tag (u32 0 ++ u8 0 ++ u8 1 ++ List.replicate 10 0 ++ bs) u)) ∧
       (catRole s = 1 → exec (.dmaRdReq dt port p (.error [])) s =
         .next (catSend 9 2 p.src p.tag (u32 0 ++ u8 1 ++ u8 1 ++ List.replicate 10 0) u)) ∧
       (catRole s = 1 → exec (.dmaRdReq dt port p (.poisoned [])) s =
         .next (catSend 9 2 p.src p.tag (u32 0 ++ u8 2 ++ u8 1 ++ List.replicate 10 0) u))) ∧
     (p.type_ = 9 → exec (.dmaRdData dt port p) s = .next { u with catum := { u.catum with reads := s.catum.reads.map fun r =>
       if r.tag = p.tag ∧ r.done = false then { r with
         got := r.got.take (fieldOf b 0 4) ++ b.drop 16, err := r.err || fieldOf b 4 1 != 0, done := fieldOf b 5 1 == 1 }
       else r } }) ∧
     (p.type_ = 10 → (catRole s = 1 → exec (.dmaWr dt port p) s = .next { u with
         out := .host (fieldOf b 0 8) (b.drop 16) :: s.out }) ∧
       (catRole s ≠ 1 → exec (.dmaWr dt port p) s = .next u)) ∧
     (p.type_ = 11 → (catRole s ≠ 1 → exec (.catLedger dt port p) s = .next u) ∧
       (catRole s = 1 → b.length = 32 → exec (.catLedger dt port p) s = .next { u with
         ledger := { s.ledger with main := s.ledger.main.put (recOf b) } }))) ∧
  (∀ (dt port : Nat) (s : State), let c := catOf s port
     (∀ n, (c.state ≠ .ready → ∀ a, exec (.timeMark dt port n a) s = .next (tick dt s)) ∧
       (c.state = .ready → exec (.timeMark dt port n false) s = .next { tick dt s with
         catum := { s.catum with marksIn := (s.catum.marksIn.filter fun x => x.1 ≠ port) ++ [(port, n, (tick dt s).now)] },
         out := .mark port n true :: s.out }) ∧
       (∀ x, c.state = .ready → routeOf s s.catum.master = some port → s.catum.exchange = some x → x.number = n → x.t4 = none →
         (x.resp = none → exec (.timeMark dt port n true) s = .next { tick dt s with
           catum := { s.catum with exchange := some { x with t4 := some (tick dt s).now } } }) ∧
         (∀ t2 t3 st, x.resp = some (t2, t3, st) → port < s.catum.ports.length →
           let a : Int := (t2 : Int) - x.t1; let e : Int := (((tick dt s).now : Nat) : Int) - t3
           ∃ t, exec (.timeMark dt port n true) s = .next t ∧ t.catum.exchange = none ∧ t.catum.neighbour = st ∧
             catOf t port = { c with offset := clampInt (-2147483648) 2147483647 (125 * (a - e) + c.asym / 2),
                                     delay := clampInt (-2147483648) 2147483647 (125 * (a + e)) } ∧
             (∀ j, j ≠ port → catOf t j = catOf s j) ∧ (s.power.intlkLow = false → t.power = s.power) ∧ t.host = s.host ∧ t.hbm = s.hbm ∧
             t.ingest = s.ingest ∧ t.adm = s.adm))) ∧
     (∀ p, let u := taken port p (tick dt s); let n := fieldOf p.payload 0 2; Arrives port p s →
       (p.type_ = 12 → ((∀ x ∈ s.catum.marksIn, ¬(x.1 = port ∧ x.2.1 = n)) → exec (.timeReq dt port p) s = .next u) ∧
         (∀ e, s.catum.marksIn = [(port, n, e)] → exec (.timeReq dt port p) s = .next (catQueue port ⟨0x0D, 1, p.src,
           catDevice s, 16, 0, p.tag, u16 n ++ u8 (tmbStat u % 16) ++ List.replicate 5 0 ++ u64 e ++ u64 e ++
             u16 s.catum.master ++ List.replicate 6 0⟩ { u with catum := { u.catum with
               marksIn := [], askers := p.src :: s.catum.askers.filter (· ≠ p.src) } }))) ∧
       (p.type_ = 13 → (s.catum.exchange = none ∨ s.time.source ≠ 2 → exec (.timeResp dt port p) s = .next u) ∧
         (∀ x, s.catum.exchange = some x → s.time.source = 2 → routeOf u s.catum.master = some port → x.number = n → x.t4 = none →
           let y : Exchange := ⟨n, x.t1, none, some (fieldOf p.payload 8 8, fieldOf p.payload 16 8, fieldOf p.payload 2 1)⟩
           exec (.timeResp dt port p) s =
             .next { u with catum := { u.catum with
               lastResp := (tick dt s).now, neighDev := some p.src, neighMaster := bits (fieldOf p.payload 24 2) 0 10
               exchange := some y } }))) ∧
     ((s.time.source ≠ 2 ∨ (tick dt s).now < s.catum.exAt + msec → exec (.timeExchange dt) s = .next (tick dt s)) ∧
       (s.time.source = 2 → s.catum.exAt + msec ≤ (tick dt s).now → routeOf s s.catum.master = some port → c.state = .ready → let n := (s.catum.exNumber + 1) % 65536
         exec (.timeExchange dt) s = .next (catQueue port ⟨0x0C, 1, c.partner, catDevice s, 16, 0, s.catum.tag,
           u16 n ++ List.replicate 6 0⟩ { tick dt s with
             out := .mark port n false :: s.out
             catum := { s.catum with exNumber := n, exAt := (tick dt s).now, exchange := some ⟨n, (tick dt s).now, none, none⟩,
                                     tag := (s.catum.tag + 1) % 2 ^ 32 } }))) ∧
     (s.time.source = 2 → ((tick dt s).now < s.catum.lastResp + 10 * msec → exec (.timeRespTimeout dt) s = .next (tick dt s)) ∧
       (s.catum.lastResp + 10 * msec ≤ (tick dt s).now → s.time.state = .acquiring → exec (.timeRespTimeout dt) s =
         .next { tick dt s with time := { s.time with state := s.time.fallen, good := 0 } })))

/-- Heads lock to a master's frame. An accepted FRAME_LOCK completes with LOCK_BUSY where the head cannot, unlocks, makes
the head a master, or asks a master and waits; a master answers every request and announces every 100 ms; a follower keeps
what it hears, loses its lock on a withdrawal or after 300 ms, and an unanswered request completes with CAT_UNREACHABLE
after 1 ms. It states when these complete: `.frameLock`, `.catLockPacket`, `.lockAnnounceTimer`, `.lockRequestTimeout`,
`.frameLockLost`. -/
def Obligations.HeadsLockToAMaster : Prop :=
  ∀ (dt : Nat) (s : State),
    (∀ d, let x := d.trunc; let k := d.trunc.p8 16; let id := d.trunc.p16 18; let b := begun d d.trunc (tick dt s)
      Runs (.frameLock dt d) s → s.catum.locks.length = 8 →
      (lockBusy s k (x.p8 17) id = true → exec (.frameLock dt d) s = .next (complete x 0x1686 (u8 k) b)) ∧
      (lockBusy s k (x.p8 17) id = false →
        (x.p8 17 = 0 → ∃ t, exec (.frameLock dt d) s = .next t ∧ lockOf t k = Reset.frameLock ∧
          (∀ j, j ≠ k → lockOf t j = lockOf s j) ∧ OnlyReply { s with catum := t.catum } t) ∧
        (x.p8 17 = 1 → (lockOf s k).role ≠ 2 → exec (.frameLock dt d) s = .next (complete x 0 [] (modLock k (fun l => { l with
          role := 1, lockId := id, degraded := s.time.state != .locked }) b))) ∧
        (x.p8 17 = 2 → ∃ t, exec (.frameLock dt d) s = .next t ∧ lockOf t k = { lockOf s k with
            request := some (x, id, x.p16 20, x.p8 22, (tick dt s).now) } ∧ t.catum.tag = (s.catum.tag + 1) % 2 ^ 32 ∧
          (∀ j, j ≠ k → lockOf t j = lockOf s j) ∧ t.host = b.host ∧ OnlyReply { s with catum := t.catum } t))) ∧
    (∀ port p, let u := taken port p (tick dt s); let id := fieldOf p.payload 0 2; let head := fieldOf p.payload 2 1
      Arrives port p s → p.type_ = 14 → s.catum.locks.length = 8 →
      (fieldOf p.payload 3 1 = 0 →
        (head < 8 → (lockOf s head).role = 1 → (lockOf s head).lockId = id → configured s head = true →
          exec (.catLockPacket dt port p) s = .next (catSend 0x0E 1 p.src p.tag (lockPayload s head) (modLock head (fun l => { l with
            followers := if l.followers.contains p.src then l.followers else l.followers ++ [p.src] }) u))) ∧
        ((lockOf s head).role ≠ 1 ∨ (lockOf s head).lockId ≠ id → exec (.catLockPacket dt port p) s = .next u)) ∧
      (∀ k < 8, (lockOf s k).role = 2 → (lockOf s k).lockId = id → (lockOf s k).masterDev = p.src →
        (lockOf s k).masterHead = head → (lockOf s k).request = none → (lockOf s k).reanchor = none →
        (∀ j < 8, j ≠ k → (lockOf s j).role ≠ 2 ∧ (lockOf s j).request = none) →
        (∀ c, fieldOf p.payload 3 1 = 1 → (headOf s k).pipe.cfg = some c → (lockWord p.payload).changeAt = 0 →
          (lockWord p.payload).n * c.rateD = c.rateN * (lockWord p.payload).d → exec (.catLockPacket dt port p) s =
            .next (modLock k (fun l => { l with heard := (tick dt s).now, word := some (lockWord p.payload) }) u)) ∧
        (fieldOf p.payload 3 1 = 2 → exec (.catLockPacket dt port p) s =
          .next (record 4 0x160A (u8 k ++ u8 2) (modLock k (fun _ => Reset.frameLock) u))))) ∧
    (∀ k, let l := lockOf s k
      (l.role ≠ 1 ∨ (tick dt s).now < l.toldAt + 100 * msec → exec (.lockAnnounceTimer dt k) s = .next (tick dt s)) ∧
      (∀ dev, l.role = 1 → configured s k = true → l.toldAt + 100 * msec ≤ (tick dt s).now → l.followers = [dev] →
        exec (.lockAnnounceTimer dt k) s = .next (catSend 0x0E 1 dev 0 (lockPayload s k)
          (modLock k (fun l => { l with toldAt := (tick dt s).now }) (tick dt s)))) ∧
      (∀ d i dev h a, l.request = some (d, i, dev, h, a) →
        ((tick dt s).now < a + msec → exec (.lockRequestTimeout dt k) s = .next (tick dt s)) ∧
        (a + msec ≤ (tick dt s).now → exec (.lockRequestTimeout dt k) s = .next (complete d 0x1682 (u16 dev)
          (modLock k (fun l => { l with request := none }) (tick dt s))))) ∧
      (l.role = 2 → ((tick dt s).now < l.heard + 300 * msec → exec (.frameLockLost dt k) s = .next (tick dt s)) ∧
        (l.heard + 300 * msec ≤ (tick dt s).now → l.request = none → l.reanchor = none → exec (.frameLockLost dt k) s =
          .next (record 4 0x160A (u8 k ++ u8 2) (modLock k (fun _ => Reset.frameLock) (tick dt s))))))

/-- Fault rules are set, act on packets and are cleared, and held packets leave. Fault injection is armed and rules are set.
Before set-up lock the key arms it, zero disarms it and clears every rule; an accepted FAULT_SET completes with the status
of the first of the checks that fails, or puts its rule in place of the one of its number at AT, and one of KIND 0 takes its
rule away at once (log 95); CLEAR_ALL clears all. Rules act and held packets leave. A rule that drops every packet of its
class at a Catum port's transmit point keeps the LINK in, counts it as matched and fired and is recorded; without rules the
packet leaves; a reordered packet leaves when none is left to wait for or its time has passed, a delayed one when its delay
has, and not before. It states when these complete: `.testArmed`, `.testDisarmed`, `.faultRulesCleared`, `.faultSet`,
`.faultReorderRelease`, `.faultDelayRelease`. -/
def Obligations.FaultRulesActAndEnd : Prop :=
  (∀ (dt : Nat) (s : State),
     (s.host.locked = false → s.fault.armed = false → exec (.testArmed dt) s = .next (record 9 0x1702 [] { tick dt s with
       fault := { s.fault with armed := true, total := 0 } })) ∧
     (s.host.locked = true → ∃ t, exec (.testArmed dt) s = .next t ∧ t.fault = s.fault ∧ OnlyRecords s t) ∧
     (s.fault.armed = false → exec (.testDisarmed dt) s = .next (tick dt s)) ∧
     (s.fault.held = [] → (s.fault.armed = true → ∃ t, exec (.testDisarmed dt) s = .next t ∧
         t.fault = ⟨false, [], [], [], s.fault.total⟩ ∧ OnlyRecords { s with fault := t.fault } t) ∧
       exec (.faultRulesCleared dt) s = .next (record 9 0x1704 (u8 3) { tick dt s with
         fault := { s.fault with rules := [], old := [] } })) ∧
     (∀ d, let x := d.trunc; let b := begun d d.trunc (tick dt s); let r := ruleOf d.trunc; Runs (.faultSet dt d) s →
       (s.fault.armed = false → exec (.faultSet dt d) s = .next (complete x 0x1780 [] b)) ∧
       (s.fault.armed = true → 1 ≤ s.power.stage →
         exec (.faultSet dt d) s = .next (complete x 0x1782 (u8 s.power.stage) b)) ∧
       (s.fault.armed = true → s.power.stage = 0 →
         (∀ o, faultInvalid x = some o → exec (.faultSet dt d) s = .next (complete x 0x1781 (u16 o) b)) ∧
         (faultInvalid x = none → x.p8 18 ≠ 0 → (∀ q ∈ s.fault.rules ++ s.fault.old, q.sameKey r = false) →
           exec (.faultSet dt d) s = .next (completeAt (max (tick dt s).now (x.p64 32)) x 0 [] { b with
             fault := { s.fault with rules := s.fault.rules ++ [r] } })) ∧
         (faultInvalid x = none → x.p8 18 = 0 → s.fault.held = [] → exec (.faultSet dt d) s =
           .next (complete x 0 [] { b with fault := { s.fault with
             rules := s.fault.rules.filter (fun q => !q.sameKey r), old := s.fault.old.filter fun q => !q.sameKey r } }))))) ∧
  (∀ (dt port : Nat) (s : State),
     (∀ r, s.fault.rules = [r] → s.fault.old = [] → s.fault.held = [] → r.point = 0x20 + port → port < 4 → r.rule < 4 →
       r.kind = 1 → r.trigger = 0 → bitOf r.classes 0 = true → r.limit = 0 → r.at_ ≤ (tick dt s).now → (catOf s port).state = .ready →
       ∃ t, exec (.catAckTimer dt port) s = .next t ∧ t.out = s.out ∧
         t.fault = { s.fault with rules := [{ r with matched := r.matched + 1, fired := r.fired + 1 }],
                                  total := bump s.fault.total } ∧
         OnlyRecords { s with fault := t.fault } t) ∧
     (∀ h psn l, s.fault.held = [h] → h.body = .plk psn l →
       (h.order = true → (h.left = 0 ∨ h.release ≤ (tick dt s).now) → exec (.faultReorderRelease dt h.point h.rule) s =
         .next { tick dt s with fault := { s.fault with held := [] }, out := .plk h.point l :: s.out }) ∧
       (h.order = true → h.left ≠ 0 → (tick dt s).now < h.release →
         exec (.faultReorderRelease dt h.point h.rule) s = .next (tick dt s)) ∧
       (h.order = false → h.release ≤ (tick dt s).now → exec (.faultDelayRelease dt h.point h.rule) s =
         .next { tick dt s with fault := { s.fault with held := [] }, out := .plk h.point l :: s.out }) ∧
       (h.order = false → (tick dt s).now < h.release → exec (.faultDelayRelease dt h.point h.rule) s = .next (tick dt s))))
end

