-- ==== Sys2Proof/Laws/Descriptors.lean ====
section
/-!
SUPPORT. What a descriptor does once it begins: one lemma for the accepted one, one for each way of being turned away.
-/

namespace Sys2Proof.Machine

theorem runDesc_accepted {o : OpSpec} {bad : Desc → State → Option (List Byte)} {tooLong : Desc → State → Bool}
    {d : Desc} {act : Desc → State → State} {s : State} (h : Accepted o bad tooLong d s) :
    runDesc o d bad tooLong act s = act (d.seen o) (begun d (d.seen o) s) := by
  obtain ⟨h1, h2, h3⟩ := h
  unfold runDesc
  simp only [h1, h2, h3]

/-- A descriptor that is not the next of its ring, or waits for a FENCE, leaves all as it is (R122, R125). -/
theorem runDesc_waits {o : OpSpec} {bad : Desc → State → Option (List Byte)} {tooLong : Desc → State → Bool}
    {d : Desc} {act : Desc → State → State} {s : State} (h : beginsAs o d s = none) :
    runDesc o d bad tooLong act s = s := by
  unfold runDesc
  simp only [h]

/-- A descriptor that begins is the front of its ring, of the operation's OPCODE, and waits for nothing. -/
theorem beginsAs_front {o : OpSpec} {d e : Desc} {s : State} (h : beginsAs o d s = some e) :
    d.opcode = o.code ∧ (d.fence && fenceWaits d.ring s) = false ∧ ∃ x, frontOf d.ring s = some x ∧ e = fenced x s := by
  unfold beginsAs at h
  split at h
  · exact absurd h (by simp)
  · rename_i x hx
    split at h
    · rename_i hc
      exact ⟨hc.2.1, hc.2.2, x, hx, (Option.some.inj h).symm⟩
    · exact absurd h (by simp)

/-- With nothing fetched from a ring, nothing of it completes with BAD_OPCODE. -/
theorem settleBad_none {q n : Nat} {s : State} (h : frontOf q s = none) : settleBad q n s = s := by
  cases n with
  | zero => rfl
  | succ n => simp only [settleBad, h]

/-- Noting the hold of a FENCE leaves what is fetched and begun. -/
theorem noteFence_lists {d : Desc} {s : State} :
    (noteFence d s).host.fetched = s.host.fetched ∧ (noteFence d s).host.begun = s.host.begun := by
  unfold noteFence
  split <;> exact ⟨rfl, rfl⟩

/-- With no further descriptor of its ring fetched, one that begins only moves from the fetched to the begun, and a FENCE leaves the
end of its hold. -/
theorem begun_alone {d e : Desc} {s : State} (h : frontOf d.ring (dropFront d.ring s) = none) :
    begun d e s = let t := noteFence d (dropFront d.ring s)
      { t with host := { t.host with begun := t.host.begun ++ [e] } } :=
  settleBad_none (by rw [← h]; simp only [frontOf, noteFence_lists.1])

end Sys2Proof.Machine
end

