-- ==== Sys2Proof/Laws/Keep.lean ====
section
/-!
SUPPORT. What every operation of the model keeps: the queue of waiting commands, the canonical form of the memory, and the
numbers of heads, ports, channels, set-points and rings.  One lemma per operation, cited by the proofs about exec and step.
-/

set_option linter.unreachableTactic false
set_option linter.unusedTactic false

namespace Sys2Proof.Machine

/-- How many heads, Plane Link ports, channels, set-points, submission and completion rings a state holds. -/
def shape (s : State) : List Nat :=
  [s.heads.length, s.ports.length, s.gheler.chans.length, s.gheler.sps.length, s.host.sq.length, s.host.cq.length]

/-- From `z` to `s` the queue is unchanged, the memory keeps its canonical form, and the numbers of parts stay. -/
structure Keep (z s : State) : Prop where
  queue : s.pending = z.pending
  mem   : z.memOk → s.memOk
  parts : shape z = [8, 16, 48, 48, 256, 256] → shape s = [8, 16, 48, 48, 256, 256]

/-- The same of an outcome. -/
def KeepR (z : State) : Res → Prop
  | .next t => Keep z t
  | _ => True

theorem keep_refl {s : State} : Keep s s := ⟨rfl, id, id⟩

/-- An update of other fields keeps all. -/
theorem keep_upd {z s t : State} (h : Keep z s) (q : t.pending = s.pending) (c : t.hbm.cells = s.hbm.cells)
    (l : t.hbm.lanes = s.hbm.lanes) (p : shape t = shape s) : Keep z t :=
  ⟨q.trans h.queue, fun m => by have := h.mem m; unfold State.memOk at *; rw [c, l]; exact this, fun e => p.trans (h.parts e)⟩

/-- An update of other fields keeps all: the form a structure update takes. -/
theorem keep_mk {z s : State} {f0 f1 f2 f3 f4 f5 f6 f7 f8 f9 f10 f11 f12 f13 f14 f15 f16 f17 f18 f19 f20 f21 f22 f23}
    (h : Keep z s)
    (c : (State.mk f0 f1 f2 f3 f4 f5 f6 f7 f8 f9 f10 f11 f12 f13 f14 f15 f16 f17 f18 f19 f20 f21 f22 f23 s.pending).hbm.cells
      = s.hbm.cells)
    (l : (State.mk f0 f1 f2 f3 f4 f5 f6 f7 f8 f9 f10 f11 f12 f13 f14 f15 f16 f17 f18 f19 f20 f21 f22 f23 s.pending).hbm.lanes
      = s.hbm.lanes)
    (p : shape (.mk f0 f1 f2 f3 f4 f5 f6 f7 f8 f9 f10 f11 f12 f13 f14 f15 f16 f17 f18 f19 f20 f21 f22 f23 s.pending)
      = shape s) :
    Keep z (.mk f0 f1 f2 f3 f4 f5 f6 f7 f8 f9 f10 f11 f12 f13 f14 f15 f16 f17 f18 f19 f20 f21 f22 f23 s.pending) :=
  keep_upd h rfl c l p

/-! ### Memory -/

/-- No listed address lies below a bound (the canonical form lists addresses rising). -/
theorem cellsWf_cons {e : Nat × Byte} {l : List (Nat × Byte)} :
    cellsWf (e :: l) = true ↔ e.2 ≠ 0 ∧ (∀ x ∈ l.head?, e.1 < x.1) ∧ cellsWf l = true := by
  cases l with
  | nil => simp [cellsWf]
  | cons f l => simp [cellsWf, and_assoc]

/-- Every later address lies above the first one listed. -/
theorem cellsWf_lt {e : Nat × Byte} {l : List (Nat × Byte)} (h : cellsWf (e :: l) = true) : ∀ x ∈ l, e.1 < x.1 := by
  induction l generalizing e with
  | nil => simp
  | cons f l ih =>
    obtain ⟨_, h2, h3⟩ := cellsWf_cons.1 h
    intro x hx
    have hf : e.1 < f.1 := h2 f rfl
    rcases List.mem_cons.1 hx with rfl | hx
    · exact hf
    · exact hf.trans (ih h3 x hx)

/-- A list that a filter thins keeps its canonical form. -/
theorem cellsWf_filter (p : Nat × Byte → Bool) {l : List (Nat × Byte)} (h : cellsWf l = true) :
    cellsWf (l.filter p) = true := by
  induction l with
  | nil => rfl
  | cons e l ih =>
    obtain ⟨h1, _, h3⟩ := cellsWf_cons.1 h
    rw [List.filter_cons]
    split
    · refine cellsWf_cons.2 ⟨h1, fun x hx => ?_, ih h3⟩
      exact cellsWf_lt h x (List.mem_of_mem_filter (List.mem_of_head? hx))
    · exact ih h3

/-- The first address listed after a byte is written: the byte's own or the one that was first. -/
theorem putCell_head {a : Nat} {v : Byte} {b : Nat} {l : List (Nat × Byte)} (hb : b < a) (hl : ∀ x ∈ l, b < x.1) :
    ∀ x ∈ putCell a v l, b < x.1 := by
  induction l with
  | nil => intro x; simp only [putCell]; split <;> simp +contextual [hb]
  | cons e l ih =>
    have he := hl e (by simp)
    have hl' : ∀ x ∈ l, b < x.1 := fun x hx => hl x (by simp [hx])
    intro x
    simp only [putCell]
    split
    · split
      · exact hl x
      · intro hx; rcases List.mem_cons.1 hx with rfl | hx
        · exact hb
        · exact hl x hx
    · split
      · split
        · exact hl' x
        · intro hx; rcases List.mem_cons.1 hx with rfl | hx
          · exact hb
          · exact hl' x hx
      · intro hx; rcases List.mem_cons.1 hx with rfl | hx
        · exact he
        · exact ih hl' x hx

/-- Writing a byte keeps the canonical form. -/
theorem putCell_wf (a : Nat) (v : Byte) {l : List (Nat × Byte)} (h : cellsWf l = true) : cellsWf (putCell a v l) = true := by
  induction l with
  | nil => simp only [putCell]; split <;> simp_all [cellsWf]
  | cons e l ih =>
    obtain ⟨h1, h2, h3⟩ := cellsWf_cons.1 h
    simp only [putCell]
    split
    · rename_i hlt
      split
      · exact h
      · rename_i hv
        exact cellsWf_cons.2 ⟨hv, by simpa using hlt, h⟩
    · split
      · rename_i _ heq
        split
        · exact h3
        · rename_i hv
          refine cellsWf_cons.2 ⟨hv, fun x hx => ?_, h3⟩
          exact heq ▸ h2 x hx
      · rename_i hn hne
        refine cellsWf_cons.2 ⟨h1, fun x hx => ?_, ih h3⟩
        exact putCell_head (by omega) (cellsWf_lt h) x (List.mem_of_head? hx)

/-- Writing bytes keeps the canonical form. -/
theorem putCells_wf (a : Nat) (bs : List Byte) (l : List (Nat × Byte)) (h : cellsWf l = true) :
    cellsWf (putCells a bs l) = true := by
  induction bs generalizing a l with
  | nil => exact h
  | cons b bs ih => exact ih _ _ (putCell_wf a b h)

/-- An update of the memory that keeps its form. -/
theorem keep_cells {z s t : State} (h : Keep z s) (q : t.pending = s.pending)
    (c : Memory.wf s.hbm.cells → Memory.wf t.hbm.cells) (l : Memory.wf s.hbm.lanes → Memory.wf t.hbm.lanes)
    (p : shape t = shape s) : Keep z t :=
  ⟨q.trans h.queue, fun m => ⟨c (h.mem m).1, l (h.mem m).2⟩, fun e => p.trans (h.parts e)⟩

theorem keepR_next {z t : State} (h : Keep z t) : KeepR z (.next t) := h

theorem keep_ite {z : State} {c : Prop} [Decidable c] {a b : State} (ha : Keep z a) (hb : Keep z b) :
    Keep z (if c then a else b) := by split <;> assumption

theorem keepR_ite {z : State} {c : Prop} [Decidable c] {a b : Res} (ha : KeepR z a) (hb : KeepR z b) :
    KeepR z (if c then a else b) := by split <;> assumption

theorem keep_forEach {z s : State} {α : Type} {l : List α} {f : α → State → State}
    (hf : ∀ a t, Keep z t → Keep z (f a t)) (h : Keep z s) : Keep z (forEach l f s) := by
  unfold forEach
  induction l generalizing s with
  | nil => exact h
  | cons a l ih => exact ih (hf a s h)

theorem keep_foldl {z s : State} {α : Type} {l : List α} {f : State → α → State}
    (hf : ∀ t a, Keep z t → Keep z (f t a)) (h : Keep z s) : Keep z (l.foldl f s) := by
  induction l generalizing s with
  | nil => exact h
  | cons a l ih => exact ih (hf s a h)

theorem keep_foldl2 {z : State} {α β : Type} {l : List α} {f : β × State → α → β × State} {x : β × State}
    (hf : ∀ y a, Keep z y.2 → Keep z (f y a).2) (h : Keep z x.2) : Keep z (l.foldl f x).2 := by
  induction l generalizing x with
  | nil => exact h
  | cons a l ih => exact ih (hf x a h)

theorem keep_elim {z : State} {α : Type} {o : Option α} {a : State} {f : α → State} (ha : Keep z a)
    (hf : ∀ x, Keep z (f x)) : Keep z (o.elim a f) := by cases o with
  | none => exact ha
  | some x => exact hf x

end Sys2Proof.Machine
end

