-- ==== Sys2Proof/Laws/KeepRegTable.lean ====
section
/-! SUPPORT. What the operations of Machine/RegTable.lean keep. -/

set_option linter.unreachableTactic false
set_option linter.unusedTactic false

namespace Sys2Proof.Machine

theorem keep_setRaw {z s : State} {a0 a1} (h : Keep z s) : Keep z (setRaw a0 a1 s) := by
  unfold setRaw
  repeat' first | (intro _) | with_reducible exact h | with_reducible assumption | with_reducible apply keep_ite | with_reducible apply keep_elim | with_reducible apply keep_forEach | with_reducible apply keep_foldl | with_reducible apply keep_foldl2 | dsimp only | split | fail_if_no_progress (refine keep_mk ?_ rfl rfl (by first | rfl | (simp [shape, upd]; done) | (simp [shape, upd]; rfl)))

end Sys2Proof.Machine
end

