-- ==== Sys2Proof/Laws/KeepOps.lean ====
section
/-! SUPPORT. What the operations of Machine/Ops.lean keep. -/

set_option linter.unreachableTactic false
set_option linter.unusedTactic false

namespace Sys2Proof.Machine

theorem keep_tick {z s : State} {a0} (h : Keep z s) : Keep z (tick a0 s) := by
  unfold tick
  extract_lets l0 l1 l2
  repeat' first | (intro _) | with_reducible exact h | with_reducible assumption | with_reducible apply keep_ite | with_reducible apply keep_elim | with_reducible apply keep_forEach | with_reducible apply keep_foldl | with_reducible apply keep_foldl2 | dsimp only | split | fail_if_no_progress (refine keep_mk ?_ rfl rfl (by first | rfl | (simp [shape, upd]; done) | (simp [shape, upd]; rfl)))

theorem keep_takeFree {z s : State} (h : Keep z s) : Keep z (takeFree s).2 := by
  unfold takeFree
  repeat' first | (intro _) | with_reducible exact h | with_reducible assumption | with_reducible apply keep_ite | with_reducible apply keep_elim | with_reducible apply keep_forEach | with_reducible apply keep_foldl | with_reducible apply keep_foldl2 | dsimp only | split | fail_if_no_progress (refine keep_mk ?_ rfl rfl (by first | rfl | (simp [shape, upd]; done) | (simp [shape, upd]; rfl)))

theorem keepE_takeFree {z s : State} {t : State} {r0} (e : takeFree s = (r0, t)) (h : Keep z s) : Keep z t := by
  have := keep_takeFree (z := z) (s := s)   h
  rw [e] at this
  exact this

theorem keep_emit {z s : State} {a0} (h : Keep z s) : Keep z (emit a0 s) := by
  unfold emit
  repeat' first | (intro _) | with_reducible exact h | with_reducible assumption | with_reducible apply keep_ite | with_reducible apply keep_elim | with_reducible apply keep_forEach | with_reducible apply keep_foldl | with_reducible apply keep_foldl2 | dsimp only | split | fail_if_no_progress (refine keep_mk ?_ rfl rfl (by first | rfl | (simp [shape, upd]; done) | (simp [shape, upd]; rfl)))

theorem keep_modHead {z s : State} {a0 a1} (h : Keep z s) : Keep z (modHead a0 a1 s) := by
  unfold modHead
  repeat' first | (intro _) | with_reducible exact h | with_reducible assumption | with_reducible apply keep_ite | with_reducible apply keep_elim | with_reducible apply keep_forEach | with_reducible apply keep_foldl | with_reducible apply keep_foldl2 | dsimp only | split | fail_if_no_progress (refine keep_mk ?_ rfl rfl (by first | rfl | (simp [shape, upd]; done) | (simp [shape, upd]; rfl)))

theorem keep_modPipe {z s : State} {a0 a1} (h : Keep z s) : Keep z (modPipe a0 a1 s) := by
  unfold modPipe
  repeat' first | (intro _) | with_reducible exact h | with_reducible assumption | with_reducible apply keep_ite | with_reducible apply keep_elim | with_reducible apply keep_forEach | with_reducible apply keep_foldl | with_reducible apply keep_foldl2 | with_reducible apply keep_modHead | dsimp only | split | fail_if_no_progress (refine keep_mk ?_ rfl rfl (by first | rfl | (simp [shape, upd]; done) | (simp [shape, upd]; rfl)))

theorem keep_modPress {z s : State} {a0 a1} (h : Keep z s) : Keep z (modPress a0 a1 s) := by
  unfold modPress
  repeat' first | (intro _) | with_reducible exact h | with_reducible assumption | with_reducible apply keep_ite | with_reducible apply keep_elim | with_reducible apply keep_forEach | with_reducible apply keep_foldl | with_reducible apply keep_foldl2 | with_reducible apply keep_modHead | dsimp only | split | fail_if_no_progress (refine keep_mk ?_ rfl rfl (by first | rfl | (simp [shape, upd]; done) | (simp [shape, upd]; rfl)))

theorem keep_modCave {z s : State} {a0 a1} (h : Keep z s) : Keep z (modCave a0 a1 s) := by
  unfold modCave
  repeat' first | (intro _) | with_reducible exact h | with_reducible assumption | with_reducible apply keep_ite | with_reducible apply keep_elim | with_reducible apply keep_forEach | with_reducible apply keep_foldl | with_reducible apply keep_foldl2 | with_reducible apply keep_modHead | dsimp only | split | fail_if_no_progress (refine keep_mk ?_ rfl rfl (by first | rfl | (simp [shape, upd]; done) | (simp [shape, upd]; rfl)))

theorem keep_modMotion {z s : State} {a0 a1} (h : Keep z s) : Keep z (modMotion a0 a1 s) := by
  unfold modMotion
  repeat' first | (intro _) | with_reducible exact h | with_reducible assumption | with_reducible apply keep_ite | with_reducible apply keep_elim | with_reducible apply keep_forEach | with_reducible apply keep_foldl | with_reducible apply keep_foldl2 | with_reducible apply keep_modHead | dsimp only | split | fail_if_no_progress (refine keep_mk ?_ rfl rfl (by first | rfl | (simp [shape, upd]; done) | (simp [shape, upd]; rfl)))

theorem keep_modScan {z s : State} {a0 a1} (h : Keep z s) : Keep z (modScan a0 a1 s) := by
  unfold modScan
  repeat' first | (intro _) | with_reducible exact h | with_reducible assumption | with_reducible apply keep_ite | with_reducible apply keep_elim | with_reducible apply keep_forEach | with_reducible apply keep_foldl | with_reducible apply keep_foldl2 | with_reducible apply keep_modHead | dsimp only | split | fail_if_no_progress (refine keep_mk ?_ rfl rfl (by first | rfl | (simp [shape, upd]; done) | (simp [shape, upd]; rfl)))

theorem keep_modVit {z s : State} {a0 a1} (h : Keep z s) : Keep z (modVit a0 a1 s) := by
  unfold modVit
  repeat' first | (intro _) | with_reducible exact h | with_reducible assumption | with_reducible apply keep_ite | with_reducible apply keep_elim | with_reducible apply keep_forEach | with_reducible apply keep_foldl | with_reducible apply keep_foldl2 | with_reducible apply keep_modHead | dsimp only | split | fail_if_no_progress (refine keep_mk ?_ rfl rfl (by first | rfl | (simp [shape, upd]; done) | (simp [shape, upd]; rfl)))

theorem keep_modSolver {z s : State} {a0 a1} (h : Keep z s) : Keep z (modSolver a0 a1 s) := by
  unfold modSolver
  repeat' first | (intro _) | with_reducible exact h | with_reducible assumption | with_reducible apply keep_ite | with_reducible apply keep_elim | with_reducible apply keep_forEach | with_reducible apply keep_foldl | with_reducible apply keep_foldl2 | with_reducible apply keep_modHead | dsimp only | split | fail_if_no_progress (refine keep_mk ?_ rfl rfl (by first | rfl | (simp [shape, upd]; done) | (simp [shape, upd]; rfl)))

theorem keep_modPort {z s : State} {a0 a1} (h : Keep z s) : Keep z (modPort a0 a1 s) := by
  unfold modPort
  repeat' first | (intro _) | with_reducible exact h | with_reducible assumption | with_reducible apply keep_ite | with_reducible apply keep_elim | with_reducible apply keep_forEach | with_reducible apply keep_foldl | with_reducible apply keep_foldl2 | dsimp only | split | fail_if_no_progress (refine keep_mk ?_ rfl rfl (by first | rfl | (simp [shape, upd]; done) | (simp [shape, upd]; rfl)))

theorem keep_modChan {z s : State} {a0 a1} (h : Keep z s) : Keep z (modChan a0 a1 s) := by
  unfold modChan
  extract_lets l0
  repeat' first | (intro _) | with_reducible exact h | with_reducible assumption | with_reducible apply keep_ite | with_reducible apply keep_elim | with_reducible apply keep_forEach | with_reducible apply keep_foldl | with_reducible apply keep_foldl2 | dsimp only | split | fail_if_no_progress (refine keep_mk ?_ rfl rfl (by first | rfl | (simp [shape, upd]; done) | (simp [shape, upd]; rfl)))

theorem keep_modSp {z s : State} {a0 a1} (h : Keep z s) : Keep z (modSp a0 a1 s) := by
  unfold modSp
  extract_lets l0
  repeat' first | (intro _) | with_reducible exact h | with_reducible assumption | with_reducible apply keep_ite | with_reducible apply keep_elim | with_reducible apply keep_forEach | with_reducible apply keep_foldl | with_reducible apply keep_foldl2 | dsimp only | split | fail_if_no_progress (refine keep_mk ?_ rfl rfl (by first | rfl | (simp [shape, upd]; done) | (simp [shape, upd]; rfl)))

theorem keep_modCat {z s : State} {a0 a1} (h : Keep z s) : Keep z (modCat a0 a1 s) := by
  unfold modCat
  extract_lets l0
  repeat' first | (intro _) | with_reducible exact h | with_reducible assumption | with_reducible apply keep_ite | with_reducible apply keep_elim | with_reducible apply keep_forEach | with_reducible apply keep_foldl | with_reducible apply keep_foldl2 | dsimp only | split | fail_if_no_progress (refine keep_mk ?_ rfl rfl (by first | rfl | (simp [shape, upd]; done) | (simp [shape, upd]; rfl)))

theorem keep_modLock {z s : State} {a0 a1} (h : Keep z s) : Keep z (modLock a0 a1 s) := by
  unfold modLock
  extract_lets l0
  repeat' first | (intro _) | with_reducible exact h | with_reducible assumption | with_reducible apply keep_ite | with_reducible apply keep_elim | with_reducible apply keep_forEach | with_reducible apply keep_foldl | with_reducible apply keep_foldl2 | dsimp only | split | fail_if_no_progress (refine keep_mk ?_ rfl rfl (by first | rfl | (simp [shape, upd]; done) | (simp [shape, upd]; rfl)))

theorem keep_modSq {z s : State} {a0 a1} (h : Keep z s) : Keep z (modSq a0 a1 s) := by
  unfold modSq
  extract_lets l0
  repeat' first | (intro _) | with_reducible exact h | with_reducible assumption | with_reducible apply keep_ite | with_reducible apply keep_elim | with_reducible apply keep_forEach | with_reducible apply keep_foldl | with_reducible apply keep_foldl2 | dsimp only | split | fail_if_no_progress (refine keep_mk ?_ rfl rfl (by first | rfl | (simp [shape, upd]; done) | (simp [shape, upd]; rfl)))

theorem keep_modCq {z s : State} {a0 a1} (h : Keep z s) : Keep z (modCq a0 a1 s) := by
  unfold modCq
  extract_lets l0
  repeat' first | (intro _) | with_reducible exact h | with_reducible assumption | with_reducible apply keep_ite | with_reducible apply keep_elim | with_reducible apply keep_forEach | with_reducible apply keep_foldl | with_reducible apply keep_foldl2 | dsimp only | split | fail_if_no_progress (refine keep_mk ?_ rfl rfl (by first | rfl | (simp [shape, upd]; done) | (simp [shape, upd]; rfl)))

theorem keep_setFlow {z s : State} {a0 a1} (h : Keep z s) : Keep z (setFlow a0 a1 s) := by
  unfold setFlow
  extract_lets l0
  repeat' first | (intro _) | with_reducible exact h | with_reducible assumption | with_reducible apply keep_ite | with_reducible apply keep_elim | with_reducible apply keep_forEach | with_reducible apply keep_foldl | with_reducible apply keep_foldl2 | dsimp only | split | fail_if_no_progress (refine keep_mk ?_ rfl rfl (by first | rfl | (simp [shape, upd]; done) | (simp [shape, upd]; rfl)))

theorem keep_modFlow {z s : State} {a0 a1} (h : Keep z s) : Keep z (modFlow a0 a1 s) := by
  unfold modFlow
  repeat' first | (intro _) | with_reducible exact h | with_reducible assumption | with_reducible apply keep_ite | with_reducible apply keep_elim | with_reducible apply keep_forEach | with_reducible apply keep_foldl | with_reducible apply keep_foldl2 | with_reducible apply keep_setFlow | dsimp only | split | fail_if_no_progress (refine keep_mk ?_ rfl rfl (by first | rfl | (simp [shape, upd]; done) | (simp [shape, upd]; rfl)))

theorem keep_setExh {z s : State} {a0 a1} (h : Keep z s) : Keep z (setExh a0 a1 s) := by
  unfold setExh
  extract_lets l0
  repeat' first | (intro _) | with_reducible exact h | with_reducible assumption | with_reducible apply keep_ite | with_reducible apply keep_elim | with_reducible apply keep_forEach | with_reducible apply keep_foldl | with_reducible apply keep_foldl2 | dsimp only | split | fail_if_no_progress (refine keep_mk ?_ rfl rfl (by first | rfl | (simp [shape, upd]; done) | (simp [shape, upd]; rfl)))

theorem keep_modExh {z s : State} {a0 a1} (h : Keep z s) : Keep z (modExh a0 a1 s) := by
  unfold modExh
  repeat' first | (intro _) | with_reducible exact h | with_reducible assumption | with_reducible apply keep_ite | with_reducible apply keep_elim | with_reducible apply keep_forEach | with_reducible apply keep_foldl | with_reducible apply keep_foldl2 | with_reducible apply keep_setExh | dsimp only | split | fail_if_no_progress (refine keep_mk ?_ rfl rfl (by first | rfl | (simp [shape, upd]; done) | (simp [shape, upd]; rfl)))



theorem keep_raiseCause {z s : State} {a0 a1} (h : Keep z s) : Keep z (raiseCause a0 a1 s) := by
  unfold raiseCause
  extract_lets l0 l1 l2 l3
  have kl3 : Keep z (l3) := by
    subst l3
    repeat' first | (intro _) | with_reducible exact h | with_reducible assumption | with_reducible apply keep_ite | with_reducible apply keep_elim | with_reducible apply keep_forEach | with_reducible apply keep_foldl | with_reducible apply keep_foldl2 | with_reducible apply keep_setRaw | dsimp only | split | fail_if_no_progress (refine keep_mk ?_ rfl rfl (by first | rfl | (simp [shape, upd]; done) | (simp [shape, upd]; rfl)))
  clear_value l3
  repeat' first | (intro _) | with_reducible exact kl3 | with_reducible exact h | with_reducible assumption | with_reducible apply keep_ite | with_reducible apply keep_elim | with_reducible apply keep_forEach | with_reducible apply keep_foldl | with_reducible apply keep_foldl2 | with_reducible apply keep_emit | dsimp only | split | fail_if_no_progress (refine keep_mk ?_ rfl rfl (by first | rfl | (simp [shape, upd]; done) | (simp [shape, upd]; rfl)))

theorem keep_setBits {z s : State} {a0 a1} (h : Keep z s) : Keep z (setBits a0 a1 s) := by
  unfold setBits
  repeat' first | (intro _) | with_reducible exact h | with_reducible assumption | with_reducible apply keep_ite | with_reducible apply keep_elim | with_reducible apply keep_forEach | with_reducible apply keep_foldl | with_reducible apply keep_foldl2 | with_reducible apply keep_setRaw | dsimp only | split | fail_if_no_progress (refine keep_mk ?_ rfl rfl (by first | rfl | (simp [shape, upd]; done) | (simp [shape, upd]; rfl)))

theorem keep_keepRec {z s : State} {a0 a1} (h : Keep z s) : Keep z (keepRec a0 a1 s) := by
  unfold keepRec
  extract_lets l0 l1 l2
  repeat' first | (intro _) | with_reducible exact h | with_reducible assumption | with_reducible apply keep_ite | with_reducible apply keep_elim | with_reducible apply keep_forEach | with_reducible apply keep_foldl | with_reducible apply keep_foldl2 | dsimp only | split | fail_if_no_progress (refine keep_mk ?_ rfl rfl (by first | rfl | (simp [shape, upd]; done) | (simp [shape, upd]; rfl)))

theorem keep_recordAt {z s : State} {a0 a1 a2 a3 a4} (h : Keep z s) : Keep z (recordAt a0 a1 a2 a3 a4 s) := by
  unfold recordAt
  extract_lets l0 l1
  repeat' first | (intro _) | with_reducible exact h | with_reducible assumption | with_reducible apply keep_ite | with_reducible apply keep_elim | with_reducible apply keep_forEach | with_reducible apply keep_foldl | with_reducible apply keep_foldl2 | with_reducible apply keep_keepRec | dsimp only | split | fail_if_no_progress (refine keep_mk ?_ rfl rfl (by first | rfl | (simp [shape, upd]; done) | (simp [shape, upd]; rfl)))

theorem keep_record {z s : State} {a0 a1 a2} (h : Keep z s) : Keep z (record a0 a1 a2 s) := by
  unfold record
  repeat' first | (intro _) | with_reducible exact h | with_reducible assumption | with_reducible apply keep_ite | with_reducible apply keep_elim | with_reducible apply keep_forEach | with_reducible apply keep_foldl | with_reducible apply keep_foldl2 | with_reducible apply keep_recordAt | dsimp only | split | fail_if_no_progress (refine keep_mk ?_ rfl rfl (by first | rfl | (simp [shape, upd]; done) | (simp [shape, upd]; rfl)))

theorem keep_recordSaved {z s : State} {a0 a1 a2} (h : Keep z s) : Keep z (recordSaved a0 a1 a2 s) := by
  unfold recordSaved
  extract_lets l0 l1
  repeat' first | (intro _) | with_reducible exact h | with_reducible assumption | with_reducible apply keep_ite | with_reducible apply keep_elim | with_reducible apply keep_forEach | with_reducible apply keep_foldl | with_reducible apply keep_foldl2 | dsimp only | split | fail_if_no_progress (refine keep_mk ?_ rfl rfl (by first | rfl | (simp [shape, upd]; done) | (simp [shape, upd]; rfl)))

theorem keep_promiseMiss {z s : State} {a0 a1 a2} (h : Keep z s) : Keep z (promiseMiss a0 a1 a2 s) := by
  unfold promiseMiss
  repeat' first | (intro _) | with_reducible exact h | with_reducible assumption | with_reducible apply keep_ite | with_reducible apply keep_elim | with_reducible apply keep_forEach | with_reducible apply keep_foldl | with_reducible apply keep_foldl2 | with_reducible apply keep_raiseCause | with_reducible apply keep_record | dsimp only | split | fail_if_no_progress (refine keep_mk ?_ rfl rfl (by first | rfl | (simp [shape, upd]; done) | (simp [shape, upd]; rfl)))

theorem keep_ethSend {z s : State} {a0 a1} (h : Keep z s) : Keep z (ethSend a0 a1 s) := by
  unfold ethSend
  repeat' first | (intro _) | with_reducible exact h | with_reducible assumption | with_reducible apply keep_ite | with_reducible apply keep_elim | with_reducible apply keep_forEach | with_reducible apply keep_foldl | with_reducible apply keep_foldl2 | with_reducible apply keep_emit | dsimp only | split | fail_if_no_progress (refine keep_mk ?_ rfl rfl (by first | rfl | (simp [shape, upd]; done) | (simp [shape, upd]; rfl)))

theorem keep_igmpReport {z s : State} {a0 a1 a2 a3} (h : Keep z s) : Keep z (igmpReport a0 a1 a2 a3 s) := by
  unfold igmpReport
  repeat' first | (intro _) | with_reducible exact h | with_reducible assumption | with_reducible apply keep_ite | with_reducible apply keep_elim | with_reducible apply keep_forEach | with_reducible apply keep_foldl | with_reducible apply keep_foldl2 | with_reducible apply keep_ethSend | dsimp only | split | fail_if_no_progress (refine keep_mk ?_ rfl rfl (by first | rfl | (simp [shape, upd]; done) | (simp [shape, upd]; rfl)))

end Sys2Proof.Machine
end

