-- ==== Sys2Proof/Laws/KeepFaultPoint.lean ====
section
/-! SUPPORT. What the operations of Machine/FaultPoint.lean keep. -/

set_option linter.unreachableTactic false
set_option linter.unusedTactic false

namespace Sys2Proof.Machine

theorem keep_setRule {z s : State} {a0} (h : Keep z s) : Keep z (setRule a0 s) := by
  unfold setRule
  extract_lets l0
  repeat' first | (intro _) | with_reducible exact h | with_reducible assumption | with_reducible apply keep_ite | with_reducible apply keep_elim | with_reducible apply keep_forEach | with_reducible apply keep_foldl | with_reducible apply keep_foldl2 | dsimp only | split | fail_if_no_progress (refine keep_mk ?_ rfl rfl (by first | rfl | (simp [shape, upd]; done) | (simp [shape, upd]; rfl)))

theorem keep_recordFault {z s : State} {a0 a1 a2} (h : Keep z s) : Keep z (recordFault a0 a1 a2 s) := by
  unfold recordFault
  extract_lets l0
  repeat' first | (intro _) | with_reducible exact h | with_reducible assumption | with_reducible apply keep_ite | with_reducible apply keep_elim | with_reducible apply keep_forEach | with_reducible apply keep_foldl | with_reducible apply keep_foldl2 | with_reducible apply keep_record | dsimp only | split | fail_if_no_progress (refine keep_mk ?_ rfl rfl (by first | rfl | (simp [shape, upd]; done) | (simp [shape, upd]; rfl)))

theorem keep_applyRule {z : State} {i n : Nat} {r : FaultRule} {x : FaultFate × State} (h : Keep z x.2) :
    Keep z (applyRule i n r x).2 := by
  obtain ⟨fate, s⟩ := x
  unfold applyRule
  dsimp only at h ⊢
  (repeat' split) <;> first | exact keep_setRule h | exact keep_recordFault (keep_setRule h)

theorem keep_meetFaults {z s : State} {a0 a1 a2 a3 a4 a5} (h : Keep z s) : Keep z (meetFaults a0 a1 a2 a3 a4 a5 s).2 := by
  unfold meetFaults
  extract_lets l
  clear_value l
  suffices ∀ x : FaultFate × State, Keep z x.2 → Keep z (l.foldl (fun x r => applyRule a3 a4 r x) x).2 from this _ h
  induction l with
  | nil => exact fun x hx => hx
  | cons r l ih => exact fun x hx => ih _ (keep_applyRule hx)

theorem keepE_meetFaults {z s : State} {a0 a1 a2 a3 a4 a5} {t : State} {r} (e : meetFaults a0 a1 a2 a3 a4 a5 s = (r, t))
    (h : Keep z s) : Keep z t := by
  have := keep_meetFaults (z := z) (s := s) (a0 := a0) (a1 := a1) (a2 := a2) (a3 := a3) (a4 := a4) (a5 := a5) h
  rw [e] at this
  exact this

theorem keep_holdPkt {z s : State} {a0 a1 a2} (h : Keep z s) : Keep z (holdPkt a0 a1 a2 s) := by
  unfold holdPkt
  extract_lets l0 l1
  repeat' first | (intro _) | with_reducible exact h | with_reducible assumption | with_reducible apply keep_ite | with_reducible apply keep_elim | with_reducible apply keep_forEach | with_reducible apply keep_foldl | with_reducible apply keep_foldl2 | dsimp only | split | fail_if_no_progress (refine keep_mk ?_ rfl rfl (by first | rfl | (simp [shape, upd]; done) | (simp [shape, upd]; rfl)))

theorem keep_passPoint {z s : State} {a0} (h : Keep z s) : Keep z (passPoint a0 s) := by
  unfold passPoint
  extract_lets l0
  repeat' first | (intro _) | with_reducible exact h | with_reducible assumption | with_reducible apply keep_ite | with_reducible apply keep_elim | with_reducible apply keep_forEach | with_reducible apply keep_foldl | with_reducible apply keep_foldl2 | dsimp only | split | fail_if_no_progress (refine keep_mk ?_ rfl rfl (by first | rfl | (simp [shape, upd]; done) | (simp [shape, upd]; rfl)))

theorem keep_throughPoint {z s : State} {a0 a1 a2 a3} (h3 : ∀ x0, Keep z x0 → Keep z (a3 x0)) (h : Keep z s) : Keep z (throughPoint a0 a1 a2 a3 s) := by
  unfold throughPoint
  extract_lets l0
  have kl0 : Keep z (l0) := by
    subst l0
    repeat' first | (intro _) | with_reducible exact h | with_reducible assumption | with_reducible apply h3 | with_reducible apply keep_ite | with_reducible apply keep_elim | with_reducible apply keep_forEach | with_reducible apply keep_foldl | with_reducible apply keep_foldl2 | with_reducible apply keep_passPoint | dsimp only | split | fail_if_no_progress (refine keep_mk ?_ rfl rfl (by first | rfl | (simp [shape, upd]; done) | (simp [shape, upd]; rfl)))
  clear_value l0
  repeat' first | (intro _) | with_reducible exact kl0 | with_reducible exact h | with_reducible assumption | with_reducible apply h3 | with_reducible apply keep_ite | with_reducible apply keep_elim | with_reducible apply keep_forEach | with_reducible apply keep_foldl | with_reducible apply keep_foldl2 | with_reducible apply keep_holdPkt | dsimp only | split | fail_if_no_progress (refine keep_mk ?_ rfl rfl (by first | rfl | (simp [shape, upd]; done) | (simp [shape, upd]; rfl)))

theorem keep_loseHeld {z s : State} {a0} (h : Keep z s) : Keep z (loseHeld a0 s) := by
  unfold loseHeld
  extract_lets l0 l1 l2
  have kl2 : Keep z (l2) := by
    subst l2
    repeat' first | (intro _) | with_reducible exact h | with_reducible assumption | with_reducible apply keep_ite | with_reducible apply keep_elim | with_reducible apply keep_forEach | with_reducible apply keep_foldl | with_reducible apply keep_foldl2 | dsimp only | split | fail_if_no_progress (refine keep_mk ?_ rfl rfl (by first | rfl | (simp [shape, upd]; done) | (simp [shape, upd]; rfl)))
  clear_value l2
  repeat' first | (intro _) | with_reducible exact kl2 | with_reducible exact h | with_reducible assumption | with_reducible apply keep_ite | with_reducible apply keep_elim | with_reducible apply keep_forEach | with_reducible apply keep_foldl | with_reducible apply keep_foldl2 | with_reducible apply keep_forEach | with_reducible apply keep_record | dsimp only | split | fail_if_no_progress (refine keep_mk ?_ rfl rfl (by first | rfl | (simp [shape, upd]; done) | (simp [shape, upd]; rfl)))

end Sys2Proof.Machine
end

