-- ==== Sys2Proof/Laws/KeepCatTx.lean ====
section
/-! SUPPORT. What the operations of Machine/CatTx.lean keep. -/

set_option linter.unreachableTactic false
set_option linter.unusedTactic false

namespace Sys2Proof.Machine

theorem keep_catOut {z s : State} {a0 a1 a2} (h : Keep z s) : Keep z (catOut a0 a1 a2 s) := by
  unfold catOut
  extract_lets l0 l1
  repeat' first | (intro _) | with_reducible exact h | with_reducible assumption | with_reducible apply keep_ite | with_reducible apply keep_elim | with_reducible apply keep_forEach | with_reducible apply keep_foldl | with_reducible apply keep_foldl2 | with_reducible apply keep_meetFaults | with_reducible apply keep_throughPoint | with_reducible apply keep_emit | with_reducible apply keepE_meetFaults (by with_reducible assumption) | dsimp only | split | fail_if_no_progress (refine keep_mk ?_ rfl rfl (by first | rfl | (simp [shape, upd]; done) | (simp [shape, upd]; rfl)))

theorem keep_catLaunch {z s : State} {a0 a1} (h : Keep z s) : Keep z (catLaunch a0 a1 s) := by
  unfold catLaunch
  extract_lets l0 l1
  have kl1 : Keep z (l1) := by
    subst l1
    repeat' first | (intro _) | with_reducible exact h | with_reducible assumption | with_reducible apply keep_ite | with_reducible apply keep_elim | with_reducible apply keep_forEach | with_reducible apply keep_foldl | with_reducible apply keep_foldl2 | with_reducible apply keep_modCat | dsimp only | split | fail_if_no_progress (refine keep_mk ?_ rfl rfl (by first | rfl | (simp [shape, upd]; done) | (simp [shape, upd]; rfl)))
  clear_value l1
  repeat' first | (intro _) | with_reducible exact kl1 | with_reducible exact h | with_reducible assumption | with_reducible apply keep_ite | with_reducible apply keep_elim | with_reducible apply keep_forEach | with_reducible apply keep_foldl | with_reducible apply keep_foldl2 | with_reducible apply keep_catOut | dsimp only | split | fail_if_no_progress (refine keep_mk ?_ rfl rfl (by first | rfl | (simp [shape, upd]; done) | (simp [shape, upd]; rfl)))

theorem keep_catServe {z s : State} {p n} (h : Keep z s) : Keep z (catServe p n s) := by
  induction n generalizing s with
  | zero => exact h
  | succ n ih =>
    unfold catServe
    dsimp only
    split
    · exact h
    · split
      · exact h
      · exact ih (keep_catLaunch (keep_modCat h))

theorem keep_catPump {z s : State} {a0} (h : Keep z s) : Keep z (catPump a0 s) := by
  unfold catPump
  repeat' first | (intro _) | with_reducible exact h | with_reducible assumption | with_reducible apply keep_ite | with_reducible apply keep_elim | with_reducible apply keep_forEach | with_reducible apply keep_foldl | with_reducible apply keep_foldl2 | with_reducible apply keep_catServe | dsimp only | split | fail_if_no_progress (refine keep_mk ?_ rfl rfl (by first | rfl | (simp [shape, upd]; done) | (simp [shape, upd]; rfl)))

theorem keep_catQueue {z s : State} {a0 a1} (h : Keep z s) : Keep z (catQueue a0 a1 s) := by
  unfold catQueue
  repeat' first | (intro _) | with_reducible exact h | with_reducible assumption | with_reducible apply keep_ite | with_reducible apply keep_elim | with_reducible apply keep_forEach | with_reducible apply keep_foldl | with_reducible apply keep_foldl2 | with_reducible apply keep_catPump | with_reducible apply keep_modCat | dsimp only | split | fail_if_no_progress (refine keep_mk ?_ rfl rfl (by first | rfl | (simp [shape, upd]; done) | (simp [shape, upd]; rfl)))

theorem keep_catSend {z s : State} {a0 a1 a2 a3 a4} (h : Keep z s) : Keep z (catSend a0 a1 a2 a3 a4 s) := by
  unfold catSend
  repeat' first | (intro _) | with_reducible exact h | with_reducible assumption | with_reducible apply keep_ite | with_reducible apply keep_elim | with_reducible apply keep_forEach | with_reducible apply keep_foldl | with_reducible apply keep_foldl2 | with_reducible apply keep_catQueue | dsimp only | split | fail_if_no_progress (refine keep_mk ?_ rfl rfl (by first | rfl | (simp [shape, upd]; done) | (simp [shape, upd]; rfl)))

theorem keep_hostWrite {z s : State} {a0 a1 a2} (h : Keep z s) : Keep z (hostWrite a0 a1 a2 s) := by
  unfold hostWrite
  repeat' first | (intro _) | with_reducible exact h | with_reducible assumption | with_reducible apply keep_ite | with_reducible apply keep_elim | with_reducible apply keep_forEach | with_reducible apply keep_foldl | with_reducible apply keep_foldl2 | with_reducible apply keep_emit | with_reducible apply keep_forEach | with_reducible apply keep_catSend | dsimp only | split | fail_if_no_progress (refine keep_mk ?_ rfl rfl (by first | rfl | (simp [shape, upd]; done) | (simp [shape, upd]; rfl)))

theorem keep_dmaAsk {z s : State} {a0 a1 a2} (h : Keep z s) : Keep z (dmaAsk a0 a1 a2 s) := by
  unfold dmaAsk
  repeat' first | (intro _) | with_reducible exact h | with_reducible assumption | with_reducible apply keep_ite | with_reducible apply keep_elim | with_reducible apply keep_forEach | with_reducible apply keep_foldl | with_reducible apply keep_foldl2 | with_reducible apply keep_forEach | with_reducible apply keep_catSend | dsimp only | split | fail_if_no_progress (refine keep_mk ?_ rfl rfl (by first | rfl | (simp [shape, upd]; done) | (simp [shape, upd]; rfl)))

end Sys2Proof.Machine
end

