-- ==== Sys2Proof/Laws/KeepComplete.lean ====
section
/-! SUPPORT. What the operations of Machine/Complete.lean keep. -/

set_option linter.unreachableTactic false
set_option linter.unusedTactic false

namespace Sys2Proof.Machine

theorem keep_sendCqVector {z s : State} {a0} (h : Keep z s) : Keep z (sendCqVector a0 s) := by
  unfold sendCqVector
  repeat' first | (intro _) | with_reducible exact h | with_reducible assumption | with_reducible apply keep_ite | with_reducible apply keep_elim | with_reducible apply keep_forEach | with_reducible apply keep_foldl | with_reducible apply keep_foldl2 | with_reducible apply keep_modCq | with_reducible apply keep_emit | dsimp only | split | fail_if_no_progress (refine keep_mk ?_ rfl rfl (by first | rfl | (simp [shape, upd]; done) | (simp [shape, upd]; rfl)))

theorem keep_markFirst {z s : State} {a0} (h : Keep z s) : Keep z (markFirst a0 s) := by
  unfold markFirst
  extract_lets l0
  repeat' first | (intro _) | with_reducible exact h | with_reducible assumption | with_reducible apply keep_ite | with_reducible apply keep_elim | with_reducible apply keep_forEach | with_reducible apply keep_foldl | with_reducible apply keep_foldl2 | dsimp only | split | fail_if_no_progress (refine keep_mk ?_ rfl rfl (by first | rfl | (simp [shape, upd]; done) | (simp [shape, upd]; rfl)))

theorem keep_writeComp {z s : State} {a0 a1} (h : Keep z s) : Keep z (writeComp a0 a1 s) := by
  unfold writeComp
  extract_lets l0 l1 l2 l3 l4 l5
  have kl3 : Keep z (l3) := by
    subst l3
    repeat' first | (intro _) | with_reducible exact h | with_reducible assumption | with_reducible apply keep_ite | with_reducible apply keep_elim | with_reducible apply keep_forEach | with_reducible apply keep_foldl | with_reducible apply keep_foldl2 | with_reducible apply keep_emit | with_reducible apply keep_markFirst | dsimp only | split | fail_if_no_progress (refine keep_mk ?_ rfl rfl (by first | rfl | (simp [shape, upd]; done) | (simp [shape, upd]; rfl)))
  clear_value l3
  have kl4 : Keep z (l4) := by
    subst l4
    repeat' first | (intro _) | with_reducible exact kl3 | with_reducible exact h | with_reducible assumption | with_reducible apply keep_ite | with_reducible apply keep_elim | with_reducible apply keep_forEach | with_reducible apply keep_foldl | with_reducible apply keep_foldl2 | with_reducible apply keep_modCq | dsimp only | split | fail_if_no_progress (refine keep_mk ?_ rfl rfl (by first | rfl | (simp [shape, upd]; done) | (simp [shape, upd]; rfl)))
  clear_value l4
  have kl5 : Keep z (l5) := by
    subst l5
    repeat' first | (intro _) | with_reducible exact kl4 | with_reducible exact kl3 | with_reducible exact h | with_reducible assumption | with_reducible apply keep_ite | with_reducible apply keep_elim | with_reducible apply keep_forEach | with_reducible apply keep_foldl | with_reducible apply keep_foldl2 | with_reducible apply keep_raiseCause | dsimp only | split | fail_if_no_progress (refine keep_mk ?_ rfl rfl (by first | rfl | (simp [shape, upd]; done) | (simp [shape, upd]; rfl)))
  clear_value l5
  repeat' first | (intro _) | with_reducible exact kl5 | with_reducible exact kl4 | with_reducible exact kl3 | with_reducible exact h | with_reducible assumption | with_reducible apply keep_ite | with_reducible apply keep_elim | with_reducible apply keep_forEach | with_reducible apply keep_foldl | with_reducible apply keep_foldl2 | with_reducible apply keep_sendCqVector | dsimp only | split | fail_if_no_progress (refine keep_mk ?_ rfl rfl (by first | rfl | (simp [shape, upd]; done) | (simp [shape, upd]; rfl)))

theorem keep_freeEntry {z s : State} {a0} (h : Keep z s) : Keep z (freeEntry a0 s) := by
  unfold freeEntry
  repeat' first | (intro _) | with_reducible exact h | with_reducible assumption | with_reducible apply keep_ite | with_reducible apply keep_elim | with_reducible apply keep_forEach | with_reducible apply keep_foldl | with_reducible apply keep_foldl2 | with_reducible apply keep_modCq | dsimp only | split | fail_if_no_progress (refine keep_mk ?_ rfl rfl (by first | rfl | (simp [shape, upd]; done) | (simp [shape, upd]; rfl)))

theorem keep_postTo {z s : State} {a0 a1} (h : Keep z s) : Keep z (postTo a0 a1 s) := by
  unfold postTo
  extract_lets l0 l1
  have kl1 : Keep z (l1) := by
    subst l1
    repeat' first | (intro _) | with_reducible exact h | with_reducible assumption | with_reducible apply keep_ite | with_reducible apply keep_elim | with_reducible apply keep_forEach | with_reducible apply keep_foldl | with_reducible apply keep_foldl2 | with_reducible apply keep_freeEntry | dsimp only | split | fail_if_no_progress (refine keep_mk ?_ rfl rfl (by first | rfl | (simp [shape, upd]; done) | (simp [shape, upd]; rfl)))
  clear_value l1
  repeat' first | (intro _) | with_reducible exact kl1 | with_reducible exact h | with_reducible assumption | with_reducible apply keep_ite | with_reducible apply keep_elim | with_reducible apply keep_forEach | with_reducible apply keep_foldl | with_reducible apply keep_foldl2 | with_reducible apply keep_writeComp | with_reducible apply keep_modCq | with_reducible apply keep_raiseCause | with_reducible apply keep_recordAt | with_reducible apply keep_setBits | dsimp only | split | fail_if_no_progress (refine keep_mk ?_ rfl rfl (by first | rfl | (simp [shape, upd]; done) | (simp [shape, upd]; rfl)))

theorem keep_postFor {z s : State} {a0 a1} (h : Keep z s) : Keep z (postFor a0 a1 s) := by
  unfold postFor
  repeat' first | (intro _) | with_reducible exact h | with_reducible assumption | with_reducible apply keep_ite | with_reducible apply keep_elim | with_reducible apply keep_forEach | with_reducible apply keep_foldl | with_reducible apply keep_foldl2 | with_reducible apply keep_catSend | with_reducible apply keep_postTo | dsimp only | split | fail_if_no_progress (refine keep_mk ?_ rfl rfl (by first | rfl | (simp [shape, upd]; done) | (simp [shape, upd]; rfl)))

theorem keep_hostErr {z s : State} {a0 a1} (h : Keep z s) : Keep z (hostErr a0 a1 s) := by
  unfold hostErr
  repeat' first | (intro _) | with_reducible exact h | with_reducible assumption | with_reducible apply keep_ite | with_reducible apply keep_elim | with_reducible apply keep_forEach | with_reducible apply keep_foldl | with_reducible apply keep_foldl2 | with_reducible apply keep_raiseCause | dsimp only | split | fail_if_no_progress (refine keep_mk ?_ rfl rfl (by first | rfl | (simp [shape, upd]; done) | (simp [shape, upd]; rfl)))

theorem keep_firstAt {z s : State} {a0 a1 a2 a3} (h : Keep z s) : Keep z (firstAt a0 a1 a2 a3 s) := by
  unfold firstAt
  extract_lets l0 l1 l2 l3 l4
  have kl1 : Keep z (l1) := by
    subst l1
    repeat' first | (intro _) | with_reducible exact h | with_reducible assumption | with_reducible apply keep_ite | with_reducible apply keep_elim | with_reducible apply keep_forEach | with_reducible apply keep_foldl | with_reducible apply keep_foldl2 | with_reducible apply keep_hostErr | dsimp only | split | fail_if_no_progress (refine keep_mk ?_ rfl rfl (by first | rfl | (simp [shape, upd]; done) | (simp [shape, upd]; rfl)))
  clear_value l1
  have kl3 : Keep z (l3) := by
    subst l3
    repeat' first | (intro _) | with_reducible exact kl1 | with_reducible exact h | with_reducible assumption | with_reducible apply keep_ite | with_reducible apply keep_elim | with_reducible apply keep_forEach | with_reducible apply keep_foldl | with_reducible apply keep_foldl2 | dsimp only | split | fail_if_no_progress (refine keep_mk ?_ rfl rfl (by first | rfl | (simp [shape, upd]; done) | (simp [shape, upd]; rfl)))
  clear_value l3
  have kl4 : Keep z (l4) := by
    subst l4
    repeat' first | (intro _) | with_reducible exact kl3 | with_reducible exact kl1 | with_reducible exact h | with_reducible assumption | with_reducible apply keep_ite | with_reducible apply keep_elim | with_reducible apply keep_forEach | with_reducible apply keep_foldl | with_reducible apply keep_foldl2 | with_reducible apply keep_markFirst | dsimp only | split | fail_if_no_progress (refine keep_mk ?_ rfl rfl (by first | rfl | (simp [shape, upd]; done) | (simp [shape, upd]; rfl)))
  clear_value l4
  repeat' first | (intro _) | with_reducible exact kl4 | with_reducible exact kl3 | with_reducible exact kl1 | with_reducible exact h | with_reducible assumption | with_reducible apply keep_ite | with_reducible apply keep_elim | with_reducible apply keep_forEach | with_reducible apply keep_foldl | with_reducible apply keep_foldl2 | with_reducible apply keep_freeEntry | with_reducible apply keep_postFor | dsimp only | split | fail_if_no_progress (refine keep_mk ?_ rfl rfl (by first | rfl | (simp [shape, upd]; done) | (simp [shape, upd]; rfl)))

theorem keep_dropFront {z s : State} {a0} (h : Keep z s) : Keep z (dropFront a0 s) := by
  unfold dropFront
  extract_lets l0
  repeat' first | (intro _) | with_reducible exact h | with_reducible assumption | with_reducible apply keep_ite | with_reducible apply keep_elim | with_reducible apply keep_forEach | with_reducible apply keep_foldl | with_reducible apply keep_foldl2 | dsimp only | split | fail_if_no_progress (refine keep_mk ?_ rfl rfl (by first | rfl | (simp [shape, upd]; done) | (simp [shape, upd]; rfl)))

theorem keep_noteFence {z s : State} {a0} (h : Keep z s) : Keep z (noteFence a0 s) := by
  unfold noteFence
  extract_lets l0
  repeat' first | (intro _) | with_reducible exact h | with_reducible assumption | with_reducible apply keep_ite | with_reducible apply keep_elim | with_reducible apply keep_forEach | with_reducible apply keep_foldl | with_reducible apply keep_foldl2 | dsimp only | split | fail_if_no_progress (refine keep_mk ?_ rfl rfl (by first | rfl | (simp [shape, upd]; done) | (simp [shape, upd]; rfl)))

theorem keep_settleBad {z s : State} {a n} (h : Keep z s) : Keep z (settleBad a n s) := by
  induction n generalizing s with
  | zero => exact h
  | succ n ih =>
    unfold settleBad
    repeat' first | with_reducible exact h | with_reducible apply ih | with_reducible apply keep_firstAt | with_reducible apply keep_noteFence | with_reducible apply keep_dropFront | with_reducible apply keep_ite | split

theorem keep_completeAt {z s : State} {a0 a1 a2 a3} (h : Keep z s) : Keep z (completeAt a0 a1 a2 a3 s) := by
  unfold completeAt
  extract_lets l0
  have kl0 : Keep z (l0) := by
    subst l0
    repeat' first | (intro _) | with_reducible exact h | with_reducible assumption | with_reducible apply keep_ite | with_reducible apply keep_elim | with_reducible apply keep_forEach | with_reducible apply keep_foldl | with_reducible apply keep_foldl2 | with_reducible apply keep_firstAt | dsimp only | split | fail_if_no_progress (refine keep_mk ?_ rfl rfl (by first | rfl | (simp [shape, upd]; done) | (simp [shape, upd]; rfl)))
  clear_value l0
  repeat' first | (intro _) | with_reducible exact kl0 | with_reducible exact h | with_reducible assumption | with_reducible apply keep_ite | with_reducible apply keep_elim | with_reducible apply keep_forEach | with_reducible apply keep_foldl | with_reducible apply keep_foldl2 | with_reducible apply keep_settleBad | dsimp only | split | fail_if_no_progress (refine keep_mk ?_ rfl rfl (by first | rfl | (simp [shape, upd]; done) | (simp [shape, upd]; rfl)))

theorem keep_complete {z s : State} {a0 a1 a2} (h : Keep z s) : Keep z (complete a0 a1 a2 s) := by
  unfold complete
  repeat' first | (intro _) | with_reducible exact h | with_reducible assumption | with_reducible apply keep_ite | with_reducible apply keep_elim | with_reducible apply keep_forEach | with_reducible apply keep_foldl | with_reducible apply keep_foldl2 | with_reducible apply keep_completeAt | dsimp only | split | fail_if_no_progress (refine keep_mk ?_ rfl rfl (by first | rfl | (simp [shape, upd]; done) | (simp [shape, upd]; rfl)))

theorem keep_noticeAt {z s : State} {a0 a1 a2 a3} (h : Keep z s) : Keep z (noticeAt a0 a1 a2 a3 s) := by
  unfold noticeAt
  repeat' first | (intro _) | with_reducible exact h | with_reducible assumption | with_reducible apply keep_ite | with_reducible apply keep_elim | with_reducible apply keep_forEach | with_reducible apply keep_foldl | with_reducible apply keep_foldl2 | with_reducible apply keep_postFor | with_reducible apply keep_hostErr | dsimp only | split | fail_if_no_progress (refine keep_mk ?_ rfl rfl (by first | rfl | (simp [shape, upd]; done) | (simp [shape, upd]; rfl)))

theorem keep_begun {z s : State} {a0 a1} (h : Keep z s) : Keep z (begun a0 a1 s) := by
  unfold begun
  extract_lets l0 l1 l2
  have kl0 : Keep z (l0) := by
    subst l0
    repeat' first | (intro _) | with_reducible exact h | with_reducible assumption | with_reducible apply keep_ite | with_reducible apply keep_elim | with_reducible apply keep_forEach | with_reducible apply keep_foldl | with_reducible apply keep_foldl2 | with_reducible apply keep_noteFence | with_reducible apply keep_dropFront | dsimp only | split | fail_if_no_progress (refine keep_mk ?_ rfl rfl (by first | rfl | (simp [shape, upd]; done) | (simp [shape, upd]; rfl)))
  clear_value l0
  have kl2 : Keep z (l2) := by
    subst l2
    repeat' first | (intro _) | with_reducible exact kl0 | with_reducible exact h | with_reducible assumption | with_reducible apply keep_ite | with_reducible apply keep_elim | with_reducible apply keep_forEach | with_reducible apply keep_foldl | with_reducible apply keep_foldl2 | dsimp only | split | fail_if_no_progress (refine keep_mk ?_ rfl rfl (by first | rfl | (simp [shape, upd]; done) | (simp [shape, upd]; rfl)))
  clear_value l2
  repeat' first | (intro _) | with_reducible exact kl2 | with_reducible exact kl0 | with_reducible exact h | with_reducible assumption | with_reducible apply keep_ite | with_reducible apply keep_elim | with_reducible apply keep_forEach | with_reducible apply keep_foldl | with_reducible apply keep_foldl2 | with_reducible apply keep_settleBad | dsimp only | split | fail_if_no_progress (refine keep_mk ?_ rfl rfl (by first | rfl | (simp [shape, upd]; done) | (simp [shape, upd]; rfl)))

theorem keep_runDesc {z s : State} {a0 a1 a2 a3 a4} (h4 : ∀ x0 x1, Keep z x1 → Keep z (a4 x0 x1)) (h : Keep z s) : Keep z (runDesc a0 a1 a2 a3 a4 s) := by
  unfold runDesc
  repeat' first | (intro _) | with_reducible exact h | with_reducible assumption | with_reducible apply h4 | with_reducible apply keep_ite | with_reducible apply keep_elim | with_reducible apply keep_forEach | with_reducible apply keep_foldl | with_reducible apply keep_foldl2 | with_reducible apply keep_begun | with_reducible apply keep_complete | dsimp only | split | fail_if_no_progress (refine keep_mk ?_ rfl rfl (by first | rfl | (simp [shape, upd]; done) | (simp [shape, upd]; rfl)))

theorem keep_orElseDo {z s : State} {a0 a1 a2} (h2 : ∀ x0, Keep z x0 → Keep z (a2 x0)) (h : Keep z s) : Keep z (orElseDo a0 a1 a2 s) := by
  unfold orElseDo
  repeat' first | (intro _) | with_reducible exact h | with_reducible assumption | with_reducible apply h2 | with_reducible apply keep_ite | with_reducible apply keep_elim | with_reducible apply keep_forEach | with_reducible apply keep_foldl | with_reducible apply keep_foldl2 | with_reducible apply keep_complete | dsimp only | split | fail_if_no_progress (refine keep_mk ?_ rfl rfl (by first | rfl | (simp [shape, upd]; done) | (simp [shape, upd]; rfl)))

end Sys2Proof.Machine
end

