-- ==== Sys2Proof/Laws/KeepOutputs.lean ====
section
/-! SUPPORT. What the operations of Machine/Outputs.lean keep. -/

set_option linter.unreachableTactic false
set_option linter.unusedTactic false

namespace Sys2Proof.Machine

theorem keep_writeAout {z s : State} {a0 a1} (h : Keep z s) : Keep z (writeAout a0 a1 s) := by
  unfold writeAout
  extract_lets l0 l1 l2 l3 l4
  have kl3 : Keep z (l3) := by
    subst l3
    repeat' first | (intro _) | with_reducible exact h | with_reducible assumption | with_reducible apply keep_ite | with_reducible apply keep_elim | with_reducible apply keep_forEach | with_reducible apply keep_foldl | with_reducible apply keep_foldl2 | with_reducible apply keep_modChan | dsimp only | split | fail_if_no_progress (refine keep_mk ?_ rfl rfl (by first | rfl | (simp [shape, upd]; done) | (simp [shape, upd]; rfl)))
  clear_value l3
  have kl4 : Keep z (l4) := by
    subst l4
    repeat' first | (intro _) | with_reducible exact kl3 | with_reducible exact h | with_reducible assumption | with_reducible apply keep_ite | with_reducible apply keep_elim | with_reducible apply keep_forEach | with_reducible apply keep_foldl | with_reducible apply keep_foldl2 | with_reducible apply keep_emit | dsimp only | split | fail_if_no_progress (refine keep_mk ?_ rfl rfl (by first | rfl | (simp [shape, upd]; done) | (simp [shape, upd]; rfl)))
  clear_value l4
  repeat' first | (intro _) | with_reducible exact kl4 | with_reducible exact kl3 | with_reducible exact h | with_reducible assumption | with_reducible apply keep_ite | with_reducible apply keep_elim | with_reducible apply keep_forEach | with_reducible apply keep_foldl | with_reducible apply keep_foldl2 | with_reducible apply keep_record | dsimp only | split | fail_if_no_progress (refine keep_mk ?_ rfl rfl (by first | rfl | (simp [shape, upd]; done) | (simp [shape, upd]; rfl)))

theorem keep_pinZero {z s : State} {a0} (h : Keep z s) : Keep z (pinZero a0 s) := by
  unfold pinZero
  repeat' first | (intro _) | with_reducible exact h | with_reducible assumption | with_reducible apply keep_ite | with_reducible apply keep_elim | with_reducible apply keep_forEach | with_reducible apply keep_foldl | with_reducible apply keep_foldl2 | with_reducible apply keep_emit | with_reducible apply keep_modChan | dsimp only | split | fail_if_no_progress (refine keep_mk ?_ rfl rfl (by first | rfl | (simp [shape, upd]; done) | (simp [shape, upd]; rfl)))

theorem keep_endInjectAt {z s : State} {a0 a1 a2} (h : Keep z s) : Keep z (endInjectAt a0 a1 a2 s) := by
  unfold endInjectAt
  extract_lets l0
  have kl0 : Keep z (l0) := by
    subst l0
    repeat' first | (intro _) | with_reducible exact h | with_reducible assumption | with_reducible apply keep_ite | with_reducible apply keep_elim | with_reducible apply keep_forEach | with_reducible apply keep_foldl | with_reducible apply keep_foldl2 | with_reducible apply keep_modSp | dsimp only | split | fail_if_no_progress (refine keep_mk ?_ rfl rfl (by first | rfl | (simp [shape, upd]; done) | (simp [shape, upd]; rfl)))
  clear_value l0
  repeat' first | (intro _) | with_reducible exact kl0 | with_reducible exact h | with_reducible assumption | with_reducible apply keep_ite | with_reducible apply keep_elim | with_reducible apply keep_forEach | with_reducible apply keep_foldl | with_reducible apply keep_foldl2 | with_reducible apply keep_recordAt | with_reducible apply keep_completeAt | with_reducible apply keep_forEach | dsimp only | split | fail_if_no_progress (refine keep_mk ?_ rfl rfl (by first | rfl | (simp [shape, upd]; done) | (simp [shape, upd]; rfl)))

theorem keep_endInject {z s : State} {a0 a1} (h : Keep z s) : Keep z (endInject a0 a1 s) := by
  unfold endInject
  repeat' first | (intro _) | with_reducible exact h | with_reducible assumption | with_reducible apply keep_ite | with_reducible apply keep_elim | with_reducible apply keep_forEach | with_reducible apply keep_foldl | with_reducible apply keep_foldl2 | with_reducible apply keep_forEach | with_reducible apply keep_endInjectAt | dsimp only | split | fail_if_no_progress (refine keep_mk ?_ rfl rfl (by first | rfl | (simp [shape, upd]; done) | (simp [shape, upd]; rfl)))

theorem keep_headMiss {z s : State} {a0 a1 a2 a3} (h : Keep z s) : Keep z (headMiss a0 a1 a2 a3 s) := by
  unfold headMiss
  repeat' first | (intro _) | with_reducible exact h | with_reducible assumption | with_reducible apply keep_ite | with_reducible apply keep_elim | with_reducible apply keep_forEach | with_reducible apply keep_foldl | with_reducible apply keep_foldl2 | with_reducible apply keep_promiseMiss | dsimp only | split | fail_if_no_progress (refine keep_mk ?_ rfl rfl (by first | rfl | (simp [shape, upd]; done) | (simp [shape, upd]; rfl)))

theorem keep_loopMiss {z s : State} {a0 a1} (h : Keep z s) : Keep z (loopMiss a0 a1 s) := by
  unfold loopMiss
  extract_lets l0
  repeat' first | (intro _) | with_reducible exact h | with_reducible assumption | with_reducible apply keep_ite | with_reducible apply keep_elim | with_reducible apply keep_forEach | with_reducible apply keep_foldl | with_reducible apply keep_foldl2 | with_reducible apply keep_promiseMiss | dsimp only | split | fail_if_no_progress (refine keep_mk ?_ rfl rfl (by first | rfl | (simp [shape, upd]; done) | (simp [shape, upd]; rfl)))

theorem keep_enableDone {z s : State} {a0 a1 a2} (h : Keep z s) : Keep z (enableDone a0 a1 a2 s) := by
  unfold enableDone
  extract_lets l0 l1 l2
  have kl1 : Keep z (l1) := by
    subst l1
    repeat' first | (intro _) | with_reducible exact h | with_reducible assumption | with_reducible apply keep_ite | with_reducible apply keep_elim | with_reducible apply keep_forEach | with_reducible apply keep_foldl | with_reducible apply keep_foldl2 | with_reducible apply keep_modChan | dsimp only | split | fail_if_no_progress (refine keep_mk ?_ rfl rfl (by first | rfl | (simp [shape, upd]; done) | (simp [shape, upd]; rfl)))
  clear_value l1
  repeat' first | (intro _) | with_reducible exact kl1 | with_reducible exact h | with_reducible assumption | with_reducible apply keep_ite | with_reducible apply keep_elim | with_reducible apply keep_forEach | with_reducible apply keep_foldl | with_reducible apply keep_foldl2 | with_reducible apply keep_completeAt | dsimp only | split | fail_if_no_progress (refine keep_mk ?_ rfl rfl (by first | rfl | (simp [shape, upd]; done) | (simp [shape, upd]; rfl)))

theorem keep_flushCoef {z s : State} {a0} (h : Keep z s) : Keep z (flushCoef a0 s) := by
  unfold flushCoef
  extract_lets l0 l1
  have kl1 : Keep z (l1) := by
    subst l1
    repeat' first | (intro _) | with_reducible exact h | with_reducible assumption | with_reducible apply keep_ite | with_reducible apply keep_elim | with_reducible apply keep_forEach | with_reducible apply keep_foldl | with_reducible apply keep_foldl2 | with_reducible apply keep_modChan | dsimp only | split | fail_if_no_progress (refine keep_mk ?_ rfl rfl (by first | rfl | (simp [shape, upd]; done) | (simp [shape, upd]; rfl)))
  clear_value l1
  repeat' first | (intro _) | with_reducible exact kl1 | with_reducible exact h | with_reducible assumption | with_reducible apply keep_ite | with_reducible apply keep_elim | with_reducible apply keep_forEach | with_reducible apply keep_foldl | with_reducible apply keep_foldl2 | with_reducible apply keep_forEach | with_reducible apply keep_complete | dsimp only | split | fail_if_no_progress (refine keep_mk ?_ rfl rfl (by first | rfl | (simp [shape, upd]; done) | (simp [shape, upd]; rfl)))

theorem keep_dropLoop {z s : State} {a0} (h : Keep z s) : Keep z (dropLoop a0 s) := by
  unfold dropLoop
  extract_lets l0 l1 l2 l3 l4 l5 l6 l7
  have kl1 : Keep z (l1) := by
    subst l1
    repeat' first | (intro _) | with_reducible exact h | with_reducible assumption | with_reducible apply keep_ite | with_reducible apply keep_elim | with_reducible apply keep_forEach | with_reducible apply keep_foldl | with_reducible apply keep_foldl2 | dsimp only | split | fail_if_no_progress (refine keep_mk ?_ rfl rfl (by first | rfl | (simp [shape, upd]; done) | (simp [shape, upd]; rfl)))
  clear_value l1
  have kl2 : Keep z (l2) := by
    subst l2
    repeat' first | (intro _) | with_reducible exact kl1 | with_reducible exact h | with_reducible assumption | with_reducible apply keep_ite | with_reducible apply keep_elim | with_reducible apply keep_forEach | with_reducible apply keep_foldl | with_reducible apply keep_foldl2 | with_reducible apply keep_modChan | dsimp only | split | fail_if_no_progress (refine keep_mk ?_ rfl rfl (by first | rfl | (simp [shape, upd]; done) | (simp [shape, upd]; rfl)))
  clear_value l2
  have kl3 : Keep z (l3) := by
    subst l3
    repeat' first | (intro _) | with_reducible exact kl2 | with_reducible exact kl1 | with_reducible exact h | with_reducible assumption | with_reducible apply keep_ite | with_reducible apply keep_elim | with_reducible apply keep_forEach | with_reducible apply keep_foldl | with_reducible apply keep_foldl2 | with_reducible apply keep_forEach | with_reducible apply keep_enableDone | dsimp only | split | fail_if_no_progress (refine keep_mk ?_ rfl rfl (by first | rfl | (simp [shape, upd]; done) | (simp [shape, upd]; rfl)))
  clear_value l3
  have kl4 : Keep z (l4) := by
    subst l4
    repeat' first | (intro _) | with_reducible exact kl3 | with_reducible exact kl2 | with_reducible exact kl1 | with_reducible exact h | with_reducible assumption | with_reducible apply keep_ite | with_reducible apply keep_elim | with_reducible apply keep_forEach | with_reducible apply keep_foldl | with_reducible apply keep_foldl2 | with_reducible apply keep_endInject | dsimp only | split | fail_if_no_progress (refine keep_mk ?_ rfl rfl (by first | rfl | (simp [shape, upd]; done) | (simp [shape, upd]; rfl)))
  clear_value l4
  have kl6 : Keep z (l6) := by
    subst l6
    repeat' first | (intro _) | with_reducible exact kl4 | with_reducible exact kl3 | with_reducible exact kl2 | with_reducible exact kl1 | with_reducible exact h | with_reducible assumption | with_reducible apply keep_ite | with_reducible apply keep_elim | with_reducible apply keep_forEach | with_reducible apply keep_foldl | with_reducible apply keep_foldl2 | with_reducible apply keep_modSp | dsimp only | split | fail_if_no_progress (refine keep_mk ?_ rfl rfl (by first | rfl | (simp [shape, upd]; done) | (simp [shape, upd]; rfl)))
  clear_value l6
  have kl7 : Keep z (l7) := by
    subst l7
    repeat' first | (intro _) | with_reducible exact kl6 | with_reducible exact kl4 | with_reducible exact kl3 | with_reducible exact kl2 | with_reducible exact kl1 | with_reducible exact h | with_reducible assumption | with_reducible apply keep_ite | with_reducible apply keep_elim | with_reducible apply keep_forEach | with_reducible apply keep_foldl | with_reducible apply keep_foldl2 | with_reducible apply keep_forEach | with_reducible apply keep_complete | dsimp only | split | fail_if_no_progress (refine keep_mk ?_ rfl rfl (by first | rfl | (simp [shape, upd]; done) | (simp [shape, upd]; rfl)))
  clear_value l7
  repeat' first | (intro _) | with_reducible exact kl7 | with_reducible exact kl6 | with_reducible exact kl4 | with_reducible exact kl3 | with_reducible exact kl2 | with_reducible exact kl1 | with_reducible exact h | with_reducible assumption | with_reducible apply keep_ite | with_reducible apply keep_elim | with_reducible apply keep_forEach | with_reducible apply keep_foldl | with_reducible apply keep_foldl2 | with_reducible apply keep_forEach | with_reducible apply keep_complete | dsimp only | split | fail_if_no_progress (refine keep_mk ?_ rfl rfl (by first | rfl | (simp [shape, upd]; done) | (simp [shape, upd]; rfl)))

theorem keep_chanRest {z s : State} {a0} (h : Keep z s) : Keep z (chanRest a0 s) := by
  unfold chanRest
  extract_lets l0 l1 l2 l3
  have kl1 : Keep z (l1) := by
    subst l1
    repeat' first | (intro _) | with_reducible exact h | with_reducible assumption | with_reducible apply keep_ite | with_reducible apply keep_elim | with_reducible apply keep_forEach | with_reducible apply keep_foldl | with_reducible apply keep_foldl2 | with_reducible apply keep_flushCoef | with_reducible apply keep_endInject | dsimp only | split | fail_if_no_progress (refine keep_mk ?_ rfl rfl (by first | rfl | (simp [shape, upd]; done) | (simp [shape, upd]; rfl)))
  clear_value l1
  have kl2 : Keep z (l2) := by
    subst l2
    repeat' first | (intro _) | with_reducible exact kl1 | with_reducible exact h | with_reducible assumption | with_reducible apply keep_ite | with_reducible apply keep_elim | with_reducible apply keep_forEach | with_reducible apply keep_foldl | with_reducible apply keep_foldl2 | with_reducible apply keep_modChan | dsimp only | split | fail_if_no_progress (refine keep_mk ?_ rfl rfl (by first | rfl | (simp [shape, upd]; done) | (simp [shape, upd]; rfl)))
  clear_value l2
  have kl3 : Keep z (l3) := by
    subst l3
    repeat' first | (intro _) | with_reducible exact kl2 | with_reducible exact kl1 | with_reducible exact h | with_reducible assumption | with_reducible apply keep_ite | with_reducible apply keep_elim | with_reducible apply keep_forEach | with_reducible apply keep_foldl | with_reducible apply keep_foldl2 | with_reducible apply keep_modSp | dsimp only | split | fail_if_no_progress (refine keep_mk ?_ rfl rfl (by first | rfl | (simp [shape, upd]; done) | (simp [shape, upd]; rfl)))
  clear_value l3
  repeat' first | (intro _) | with_reducible exact kl3 | with_reducible exact kl2 | with_reducible exact kl1 | with_reducible exact h | with_reducible assumption | with_reducible apply keep_ite | with_reducible apply keep_elim | with_reducible apply keep_forEach | with_reducible apply keep_foldl | with_reducible apply keep_foldl2 | with_reducible apply keep_dropLoop | dsimp only | split | fail_if_no_progress (refine keep_mk ?_ rfl rfl (by first | rfl | (simp [shape, upd]; done) | (simp [shape, upd]; rfl)))

theorem keep_chanOff {z s : State} {a0} (h : Keep z s) : Keep z (chanOff a0 s) := by
  unfold chanOff
  repeat' first | (intro _) | with_reducible exact h | with_reducible assumption | with_reducible apply keep_ite | with_reducible apply keep_elim | with_reducible apply keep_forEach | with_reducible apply keep_foldl | with_reducible apply keep_foldl2 | with_reducible apply keep_pinZero | with_reducible apply keep_chanRest | dsimp only | split | fail_if_no_progress (refine keep_mk ?_ rfl rfl (by first | rfl | (simp [shape, upd]; done) | (simp [shape, upd]; rfl)))

theorem keep_setCause {z s : State} {a0 a1} (h : Keep z s) : Keep z (setCause a0 a1 s) := by
  unfold setCause
  repeat' first | (intro _) | with_reducible exact h | with_reducible assumption | with_reducible apply keep_ite | with_reducible apply keep_elim | with_reducible apply keep_forEach | with_reducible apply keep_foldl | with_reducible apply keep_foldl2 | with_reducible apply keep_modChan | dsimp only | split | fail_if_no_progress (refine keep_mk ?_ rfl rfl (by first | rfl | (simp [shape, upd]; done) | (simp [shape, upd]; rfl)))

theorem keep_loopDisabled {z s : State} {a0 a1} (h : Keep z s) : Keep z (loopDisabled a0 a1 s) := by
  unfold loopDisabled
  repeat' first | (intro _) | with_reducible exact h | with_reducible assumption | with_reducible apply keep_ite | with_reducible apply keep_elim | with_reducible apply keep_forEach | with_reducible apply keep_foldl | with_reducible apply keep_foldl2 | with_reducible apply keep_record | dsimp only | split | fail_if_no_progress (refine keep_mk ?_ rfl rfl (by first | rfl | (simp [shape, upd]; done) | (simp [shape, upd]; rfl)))

theorem keep_failEnables {z s : State} (h : Keep z s) : Keep z (failEnables s) := by
  unfold failEnables
  extract_lets l0 l1 l2
  have kl2 : Keep z (l2) := by
    subst l2
    repeat' first | (intro _) | with_reducible exact h | with_reducible assumption | with_reducible apply keep_ite | with_reducible apply keep_elim | with_reducible apply keep_forEach | with_reducible apply keep_foldl | with_reducible apply keep_foldl2 | dsimp only | split | fail_if_no_progress (refine keep_mk ?_ rfl rfl (by first | rfl | (simp [shape, upd]; done) | (simp [shape, upd]; rfl)))
  clear_value l2
  repeat' first | (intro _) | with_reducible exact kl2 | with_reducible exact h | with_reducible assumption | with_reducible apply keep_ite | with_reducible apply keep_elim | with_reducible apply keep_forEach | with_reducible apply keep_foldl | with_reducible apply keep_foldl2 | with_reducible apply keep_forEach | with_reducible apply keep_complete | dsimp only | split | fail_if_no_progress (refine keep_mk ?_ rfl rfl (by first | rfl | (simp [shape, upd]; done) | (simp [shape, upd]; rfl)))

theorem keep_allOff {z s : State} {a0} (h : Keep z s) : Keep z (allOff a0 s) := by
  unfold allOff
  extract_lets l0 l1 l2
  have kl1 : Keep z (l1) := by
    subst l1
    repeat' first | (intro _) | with_reducible exact h | with_reducible assumption | with_reducible apply keep_ite | with_reducible apply keep_elim | with_reducible apply keep_forEach | with_reducible apply keep_foldl | with_reducible apply keep_foldl2 | with_reducible apply keep_forEach | with_reducible apply keep_setCause | with_reducible apply keep_chanOff | dsimp only | split | fail_if_no_progress (refine keep_mk ?_ rfl rfl (by first | rfl | (simp [shape, upd]; done) | (simp [shape, upd]; rfl)))
  clear_value l1
  have kl2 : Keep z (l2) := by
    subst l2
    repeat' first | (intro _) | with_reducible exact kl1 | with_reducible exact h | with_reducible assumption | with_reducible apply keep_ite | with_reducible apply keep_elim | with_reducible apply keep_forEach | with_reducible apply keep_foldl | with_reducible apply keep_foldl2 | with_reducible apply keep_loopDisabled | dsimp only | split | fail_if_no_progress (refine keep_mk ?_ rfl rfl (by first | rfl | (simp [shape, upd]; done) | (simp [shape, upd]; rfl)))
  clear_value l2
  repeat' first | (intro _) | with_reducible exact kl2 | with_reducible exact kl1 | with_reducible exact h | with_reducible assumption | with_reducible apply keep_ite | with_reducible apply keep_elim | with_reducible apply keep_forEach | with_reducible apply keep_foldl | with_reducible apply keep_foldl2 | with_reducible apply keep_failEnables | dsimp only | split | fail_if_no_progress (refine keep_mk ?_ rfl rfl (by first | rfl | (simp [shape, upd]; done) | (simp [shape, upd]; rfl)))

theorem keep_rampChan {z s : State} {a0 a1} (h : Keep z s) : Keep z (rampChan a0 a1 s) := by
  unfold rampChan
  repeat' first | (intro _) | with_reducible exact h | with_reducible assumption | with_reducible apply keep_ite | with_reducible apply keep_elim | with_reducible apply keep_forEach | with_reducible apply keep_foldl | with_reducible apply keep_foldl2 | with_reducible apply keep_modChan | with_reducible apply keep_flushCoef | with_reducible apply keep_endInject | dsimp only | split | fail_if_no_progress (refine keep_mk ?_ rfl rfl (by first | rfl | (simp [shape, upd]; done) | (simp [shape, upd]; rfl)))

theorem keep_rampMask {z s : State} {a0 a1} (h : Keep z s) : Keep z (rampMask a0 a1 s) := by
  unfold rampMask
  extract_lets l0
  repeat' first | (intro _) | with_reducible exact h | with_reducible assumption | with_reducible apply keep_ite | with_reducible apply keep_elim | with_reducible apply keep_forEach | with_reducible apply keep_foldl | with_reducible apply keep_foldl2 | with_reducible apply keep_loopDisabled | with_reducible apply keep_forEach | with_reducible apply keep_rampChan | dsimp only | split | fail_if_no_progress (refine keep_mk ?_ rfl rfl (by first | rfl | (simp [shape, upd]; done) | (simp [shape, upd]; rfl)))

theorem keep_plkOut {z s : State} {a0 a1 a2 a3 a4} (h : Keep z s) : Keep z (plkOut a0 a1 a2 a3 a4 s) := by
  unfold plkOut
  repeat' first | (intro _) | with_reducible exact h | with_reducible assumption | with_reducible apply keep_ite | with_reducible apply keep_elim | with_reducible apply keep_forEach | with_reducible apply keep_foldl | with_reducible apply keep_foldl2 | with_reducible apply keep_meetFaults | with_reducible apply keep_throughPoint | with_reducible apply keep_emit | with_reducible apply keepE_meetFaults (by with_reducible assumption) | dsimp only | split | fail_if_no_progress (refine keep_mk ?_ rfl rfl (by first | rfl | (simp [shape, upd]; done) | (simp [shape, upd]; rfl)))

theorem keep_sendPkt {z s : State} {a0 a1 a2} (h : Keep z s) : Keep z (sendPkt a0 a1 a2 s) := by
  unfold sendPkt
  extract_lets l0 l1
  have kl1 : Keep z (l1) := by
    subst l1
    repeat' first | (intro _) | with_reducible exact h | with_reducible assumption | with_reducible apply keep_ite | with_reducible apply keep_elim | with_reducible apply keep_forEach | with_reducible apply keep_foldl | with_reducible apply keep_foldl2 | with_reducible apply keep_modPort | dsimp only | split | fail_if_no_progress (refine keep_mk ?_ rfl rfl (by first | rfl | (simp [shape, upd]; done) | (simp [shape, upd]; rfl)))
  clear_value l1
  repeat' first | (intro _) | with_reducible exact kl1 | with_reducible exact h | with_reducible assumption | with_reducible apply keep_ite | with_reducible apply keep_elim | with_reducible apply keep_forEach | with_reducible apply keep_foldl | with_reducible apply keep_foldl2 | with_reducible apply keep_plkOut | dsimp only | split | fail_if_no_progress (refine keep_mk ?_ rfl rfl (by first | rfl | (simp [shape, upd]; done) | (simp [shape, upd]; rfl)))

theorem keep_plkMark {z s : State} {a0 a1 a2 a3 a4} (h : Keep z s) : Keep z (plkMark a0 a1 a2 a3 a4 s) := by
  unfold plkMark
  extract_lets l0
  repeat' first | (intro _) | with_reducible exact h | with_reducible assumption | with_reducible apply keep_ite | with_reducible apply keep_elim | with_reducible apply keep_forEach | with_reducible apply keep_foldl | with_reducible apply keep_foldl2 | with_reducible apply keep_meetFaults | with_reducible apply keep_throughPoint | with_reducible apply keep_emit | with_reducible apply keepE_meetFaults (by with_reducible assumption) | dsimp only | split | fail_if_no_progress (refine keep_mk ?_ rfl rfl (by first | rfl | (simp [shape, upd]; done) | (simp [shape, upd]; rfl)))

theorem keep_afterFine {z s : State} (h : Keep z s) : Keep z (afterFine s) := by
  unfold afterFine
  repeat' first | (intro _) | with_reducible exact h | with_reducible assumption | with_reducible apply keep_ite | with_reducible apply keep_elim | with_reducible apply keep_forEach | with_reducible apply keep_foldl | with_reducible apply keep_foldl2 | dsimp only | split | fail_if_no_progress (refine keep_mk ?_ rfl rfl (by first | rfl | (simp [shape, upd]; done) | (simp [shape, upd]; rfl)))

theorem keep_parkNow {z s : State} {a0 a1} (h : Keep z s) : Keep z (parkNow a0 a1 s) := by
  unfold parkNow
  extract_lets l0 l1
  have kl0 : Keep z (l0) := by
    subst l0
    repeat' first | (intro _) | with_reducible exact h | with_reducible assumption | with_reducible apply keep_ite | with_reducible apply keep_elim | with_reducible apply keep_forEach | with_reducible apply keep_foldl | with_reducible apply keep_foldl2 | with_reducible apply keep_modPort | dsimp only | split | fail_if_no_progress (refine keep_mk ?_ rfl rfl (by first | rfl | (simp [shape, upd]; done) | (simp [shape, upd]; rfl)))
  clear_value l0
  have kl1 : Keep z (l1) := by
    subst l1
    repeat' first | (intro _) | with_reducible exact kl0 | with_reducible exact h | with_reducible assumption | with_reducible apply keep_ite | with_reducible apply keep_elim | with_reducible apply keep_forEach | with_reducible apply keep_foldl | with_reducible apply keep_foldl2 | with_reducible apply keep_plkMark | with_reducible apply keep_sendPkt | dsimp only | split | fail_if_no_progress (refine keep_mk ?_ rfl rfl (by first | rfl | (simp [shape, upd]; done) | (simp [shape, upd]; rfl)))
  clear_value l1
  repeat' first | (intro _) | with_reducible exact kl1 | with_reducible exact kl0 | with_reducible exact h | with_reducible assumption | with_reducible apply keep_ite | with_reducible apply keep_elim | with_reducible apply keep_forEach | with_reducible apply keep_foldl | with_reducible apply keep_foldl2 | with_reducible apply keep_record | dsimp only | split | fail_if_no_progress (refine keep_mk ?_ rfl rfl (by first | rfl | (simp [shape, upd]; done) | (simp [shape, upd]; rfl)))

theorem keep_parkPort {z s : State} {a0 a1} (h : Keep z s) : Keep z (parkPort a0 a1 s) := by
  unfold parkPort
  extract_lets l0
  repeat' first | (intro _) | with_reducible exact h | with_reducible assumption | with_reducible apply keep_ite | with_reducible apply keep_elim | with_reducible apply keep_forEach | with_reducible apply keep_foldl | with_reducible apply keep_foldl2 | with_reducible apply keep_parkNow | with_reducible apply keep_modPort | dsimp only | split | fail_if_no_progress (refine keep_mk ?_ rfl rfl (by first | rfl | (simp [shape, upd]; done) | (simp [shape, upd]; rfl)))

theorem keep_parkPorts {z s : State} {a0 a1} (h : Keep z s) : Keep z (parkPorts a0 a1 s) := by
  unfold parkPorts
  repeat' first | (intro _) | with_reducible exact h | with_reducible assumption | with_reducible apply keep_ite | with_reducible apply keep_elim | with_reducible apply keep_forEach | with_reducible apply keep_foldl | with_reducible apply keep_foldl2 | with_reducible apply keep_forEach | with_reducible apply keep_parkPort | dsimp only | split | fail_if_no_progress (refine keep_mk ?_ rfl rfl (by first | rfl | (simp [shape, upd]; done) | (simp [shape, upd]; rfl)))

theorem keep_downPort {z s : State} {a0} (h : Keep z s) : Keep z (downPort a0 s) := by
  unfold downPort
  extract_lets l0
  repeat' first | (intro _) | with_reducible exact h | with_reducible assumption | with_reducible apply keep_ite | with_reducible apply keep_elim | with_reducible apply keep_forEach | with_reducible apply keep_foldl | with_reducible apply keep_foldl2 | with_reducible apply keep_modPort | dsimp only | split | fail_if_no_progress (refine keep_mk ?_ rfl rfl (by first | rfl | (simp [shape, upd]; done) | (simp [shape, upd]; rfl)))

theorem keep_parkAndEnd {z s : State} {a0 a1} (h : Keep z s) : Keep z (parkAndEnd a0 a1 s) := by
  unfold parkAndEnd
  extract_lets l0
  have kl0 : Keep z (l0) := by
    subst l0
    repeat' first | (intro _) | with_reducible exact h | with_reducible assumption | with_reducible apply keep_ite | with_reducible apply keep_elim | with_reducible apply keep_forEach | with_reducible apply keep_foldl | with_reducible apply keep_foldl2 | with_reducible apply keep_parkPort | dsimp only | split | fail_if_no_progress (refine keep_mk ?_ rfl rfl (by first | rfl | (simp [shape, upd]; done) | (simp [shape, upd]; rfl)))
  clear_value l0
  repeat' first | (intro _) | with_reducible exact kl0 | with_reducible exact h | with_reducible assumption | with_reducible apply keep_ite | with_reducible apply keep_elim | with_reducible apply keep_forEach | with_reducible apply keep_foldl | with_reducible apply keep_foldl2 | with_reducible apply keep_modPort | with_reducible apply keep_downPort | dsimp only | split | fail_if_no_progress (refine keep_mk ?_ rfl rfl (by first | rfl | (simp [shape, upd]; done) | (simp [shape, upd]; rfl)))

theorem keep_parkIfDark {z s : State} {a0} (h : Keep z s) : Keep z (parkIfDark a0 s) := by
  unfold parkIfDark
  repeat' first | (intro _) | with_reducible exact h | with_reducible assumption | with_reducible apply keep_ite | with_reducible apply keep_elim | with_reducible apply keep_forEach | with_reducible apply keep_foldl | with_reducible apply keep_foldl2 | with_reducible apply keep_forEach | with_reducible apply keep_parkAndEnd | with_reducible apply keep_modPipe | dsimp only | split | fail_if_no_progress (refine keep_mk ?_ rfl rfl (by first | rfl | (simp [shape, upd]; done) | (simp [shape, upd]; rfl)))

end Sys2Proof.Machine
end

