-- ==== Sys2Proof/Laws/KeepAdmit.lean ====
section
/-! SUPPORT. What the operations of Machine/Admit.lean keep. -/

set_option linter.unreachableTactic false
set_option linter.unusedTactic false

namespace Sys2Proof.Machine

theorem keep_putItem {z s : State} {a0 a1 a2} (h : Keep z s) : Keep z (putItem a0 a1 a2 s) := by
  unfold putItem
  extract_lets l0 l1 l2
  repeat' first | (intro _) | with_reducible exact h | with_reducible assumption | with_reducible apply keep_ite | with_reducible apply keep_elim | with_reducible apply keep_forEach | with_reducible apply keep_foldl | with_reducible apply keep_foldl2 | dsimp only | split | fail_if_no_progress (refine keep_mk ?_ rfl rfl (by first | rfl | (simp [shape, upd]; done) | (simp [shape, upd]; rfl)))

theorem keep_settle {z s : State} {a0} (h : Keep z s) : Keep z (settle a0 s) := by
  unfold settle
  extract_lets l0
  repeat' first | (intro _) | with_reducible exact h | with_reducible assumption | with_reducible apply keep_ite | with_reducible apply keep_elim | with_reducible apply keep_forEach | with_reducible apply keep_foldl | with_reducible apply keep_foldl2 | dsimp only | split | fail_if_no_progress (refine keep_mk ?_ rfl rfl (by first | rfl | (simp [shape, upd]; done) | (simp [shape, upd]; rfl)))

theorem keep_dropItems {z s : State} {a0} (h : Keep z s) : Keep z (dropItems a0 s) := by
  unfold dropItems
  extract_lets l0
  repeat' first | (intro _) | with_reducible exact h | with_reducible assumption | with_reducible apply keep_ite | with_reducible apply keep_elim | with_reducible apply keep_forEach | with_reducible apply keep_foldl | with_reducible apply keep_foldl2 | dsimp only | split | fail_if_no_progress (refine keep_mk ?_ rfl rfl (by first | rfl | (simp [shape, upd]; done) | (simp [shape, upd]; rfl)))

theorem keep_dropItem {z s : State} {a0} (h : Keep z s) : Keep z (dropItem a0 s) := by
  unfold dropItem
  repeat' first | (intro _) | with_reducible exact h | with_reducible assumption | with_reducible apply keep_ite | with_reducible apply keep_elim | with_reducible apply keep_forEach | with_reducible apply keep_foldl | with_reducible apply keep_foldl2 | with_reducible apply keep_dropItems | dsimp only | split | fail_if_no_progress (refine keep_mk ?_ rfl rfl (by first | rfl | (simp [shape, upd]; done) | (simp [shape, upd]; rfl)))

theorem keep_admitDesc {z s : State} {a0 a1 a2 a3} (h3 : ∀ x0, Keep z x0 → Keep z (a3 x0)) (h : Keep z s) : Keep z (admitDesc a0 a1 a2 a3 s) := by
  unfold admitDesc
  repeat' first | (intro _) | with_reducible exact h | with_reducible assumption | with_reducible apply h3 | with_reducible apply keep_ite | with_reducible apply keep_elim | with_reducible apply keep_forEach | with_reducible apply keep_foldl | with_reducible apply keep_foldl2 | with_reducible apply keep_complete | with_reducible apply keep_putItem | dsimp only | split | fail_if_no_progress (refine keep_mk ?_ rfl rfl (by first | rfl | (simp [shape, upd]; done) | (simp [shape, upd]; rfl)))

theorem keep_modEth {z s : State} {a0 a1} (h : Keep z s) : Keep z (modEth a0 a1 s) := by
  unfold modEth
  extract_lets l0
  repeat' first | (intro _) | with_reducible exact h | with_reducible assumption | with_reducible apply keep_ite | with_reducible apply keep_elim | with_reducible apply keep_forEach | with_reducible apply keep_foldl | with_reducible apply keep_foldl2 | dsimp only | split | fail_if_no_progress (refine keep_mk ?_ rfl rfl (by first | rfl | (simp [shape, upd]; done) | (simp [shape, upd]; rfl)))

theorem keep_modDp {z s : State} {a0 a1} (h : Keep z s) : Keep z (modDp a0 a1 s) := by
  unfold modDp
  extract_lets l0
  repeat' first | (intro _) | with_reducible exact h | with_reducible assumption | with_reducible apply keep_ite | with_reducible apply keep_elim | with_reducible apply keep_forEach | with_reducible apply keep_foldl | with_reducible apply keep_foldl2 | dsimp only | split | fail_if_no_progress (refine keep_mk ?_ rfl rfl (by first | rfl | (simp [shape, upd]; done) | (simp [shape, upd]; rfl)))

theorem keep_dropLink {z s : State} {a0} (h : Keep z s) : Keep z (dropLink a0 s) := by
  unfold dropLink
  repeat' first | (intro _) | with_reducible exact h | with_reducible assumption | with_reducible apply keep_ite | with_reducible apply keep_elim | with_reducible apply keep_forEach | with_reducible apply keep_foldl | with_reducible apply keep_foldl2 | with_reducible apply keep_modEth | with_reducible apply keep_loseHeld | with_reducible apply keep_modDp | dsimp only | split | fail_if_no_progress (refine keep_mk ?_ rfl rfl (by first | rfl | (simp [shape, upd]; done) | (simp [shape, upd]; rfl)))

theorem keep_restPort {z s : State} {a0} (h : Keep z s) : Keep z (restPort a0 s) := by
  unfold restPort
  repeat' first | (intro _) | with_reducible exact h | with_reducible assumption | with_reducible apply keep_ite | with_reducible apply keep_elim | with_reducible apply keep_forEach | with_reducible apply keep_foldl | with_reducible apply keep_foldl2 | with_reducible apply keep_dropLink | dsimp only | split | fail_if_no_progress (refine keep_mk ?_ rfl rfl (by first | rfl | (simp [shape, upd]; done) | (simp [shape, upd]; rfl)))

theorem keep_markPort {z s : State} {a0} (h : Keep z s) : Keep z (markPort a0 s) := by
  unfold markPort
  extract_lets l0
  repeat' first | (intro _) | with_reducible exact h | with_reducible assumption | with_reducible apply keep_ite | with_reducible apply keep_elim | with_reducible apply keep_forEach | with_reducible apply keep_foldl | with_reducible apply keep_foldl2 | with_reducible apply keep_modEth | with_reducible apply keep_modDp | dsimp only | split | fail_if_no_progress (refine keep_mk ?_ rfl rfl (by first | rfl | (simp [shape, upd]; done) | (simp [shape, upd]; rfl)))

theorem keep_stopPort {z s : State} {a0} (h : Keep z s) : Keep z (stopPort a0 s) := by
  unfold stopPort
  repeat' first | (intro _) | with_reducible exact h | with_reducible assumption | with_reducible apply keep_ite | with_reducible apply keep_elim | with_reducible apply keep_forEach | with_reducible apply keep_foldl | with_reducible apply keep_foldl2 | with_reducible apply keep_restPort | with_reducible apply keep_markPort | dsimp only | split | fail_if_no_progress (refine keep_mk ?_ rfl rfl (by first | rfl | (simp [shape, upd]; done) | (simp [shape, upd]; rfl)))

theorem keep_endFlow {z s : State} {a0} (h : Keep z s) : Keep z (endFlow a0 s) := by
  unfold endFlow
  extract_lets l0 l1
  repeat' first | (intro _) | with_reducible exact h | with_reducible assumption | with_reducible apply keep_ite | with_reducible apply keep_elim | with_reducible apply keep_forEach | with_reducible apply keep_foldl | with_reducible apply keep_foldl2 | with_reducible apply keep_forEach | with_reducible apply keep_igmpReport | with_reducible apply keep_restPort | with_reducible apply keep_dropItem | with_reducible apply keep_complete | dsimp only | split | fail_if_no_progress (refine keep_mk ?_ rfl rfl (by first | rfl | (simp [shape, upd]; done) | (simp [shape, upd]; rfl)))

theorem keep_beginStop {z s : State} {i} (h : Keep z s) : Keep z (beginStop i s) := by
  unfold beginStop
  cases i.kind <;> first
    | exact keep_modPipe h | exact keep_modChan h | exact keep_modMotion h | exact keep_modFlow h | exact keep_modSp h | exact h

theorem keep_stopIdle {z s : State} {a0} (h : Keep z s) : Keep z (stopIdle a0 s) := by
  unfold stopIdle
  extract_lets l0
  repeat' first | (intro _) | with_reducible exact h | with_reducible assumption | with_reducible apply keep_ite | with_reducible apply keep_elim | with_reducible apply keep_forEach | with_reducible apply keep_foldl | with_reducible apply keep_foldl2 | with_reducible apply keep_dropLoop | with_reducible apply keep_endFlow | dsimp only | split | fail_if_no_progress (refine keep_mk ?_ rfl rfl (by first | rfl | (simp [shape, upd]; done) | (simp [shape, upd]; rfl)))

theorem keep_revokeOne {z s : State} {a0 a1 a2 a3 a4 a5 a6} (h : Keep z s) : Keep z (revokeOne a0 a1 a2 a3 a4 a5 a6 s) := by
  unfold revokeOne
  extract_lets l0 l1 l2 l3 l4
  have kl2 : Keep z (l2) := by
    subst l2
    repeat' first | (intro _) | with_reducible exact h | with_reducible assumption | with_reducible apply keep_ite | with_reducible apply keep_elim | with_reducible apply keep_forEach | with_reducible apply keep_foldl | with_reducible apply keep_foldl2 | dsimp only | split | fail_if_no_progress (refine keep_mk ?_ rfl rfl (by first | rfl | (simp [shape, upd]; done) | (simp [shape, upd]; rfl)))
  clear_value l2
  have kl3 : Keep z (l3) := by
    subst l3
    repeat' first | (intro _) | with_reducible exact kl2 | with_reducible exact h | with_reducible assumption | with_reducible apply keep_ite | with_reducible apply keep_elim | with_reducible apply keep_forEach | with_reducible apply keep_foldl | with_reducible apply keep_foldl2 | with_reducible apply keep_record | dsimp only | split | fail_if_no_progress (refine keep_mk ?_ rfl rfl (by first | rfl | (simp [shape, upd]; done) | (simp [shape, upd]; rfl)))
  clear_value l3
  have kl4 : Keep z (l4) := by
    subst l4
    repeat' first | (intro _) | with_reducible exact kl3 | with_reducible exact kl2 | with_reducible exact h | with_reducible assumption | with_reducible apply keep_ite | with_reducible apply keep_elim | with_reducible apply keep_forEach | with_reducible apply keep_foldl | with_reducible apply keep_foldl2 | with_reducible apply keep_completeAt | with_reducible apply keep_noticeAt | dsimp only | split | fail_if_no_progress (refine keep_mk ?_ rfl rfl (by first | rfl | (simp [shape, upd]; done) | (simp [shape, upd]; rfl)))
  clear_value l4
  repeat' first | (intro _) | with_reducible exact kl4 | with_reducible exact kl3 | with_reducible exact kl2 | with_reducible exact h | with_reducible assumption | with_reducible apply keep_ite | with_reducible apply keep_elim | with_reducible apply keep_forEach | with_reducible apply keep_foldl | with_reducible apply keep_foldl2 | with_reducible apply keep_stopIdle | with_reducible apply keep_beginStop | dsimp only | split | fail_if_no_progress (refine keep_mk ?_ rfl rfl (by first | rfl | (simp [shape, upd]; done) | (simp [shape, upd]; rfl)))

theorem keep_revoke {z s : State} {a0 a1 a2 a3 a4 a5 a6} (h : Keep z s) : Keep z (revoke a0 a1 a2 a3 a4 a5 a6 s) := by
  unfold revoke
  extract_lets l0
  have kl0 : Keep z (l0) := by
    subst l0
    repeat' first | (intro _) | with_reducible exact h | with_reducible assumption | with_reducible apply keep_ite | with_reducible apply keep_elim | with_reducible apply keep_forEach | with_reducible apply keep_foldl | with_reducible apply keep_foldl2 | with_reducible apply keep_revokeOne | dsimp only | split | fail_if_no_progress (refine keep_mk ?_ rfl rfl (by first | rfl | (simp [shape, upd]; done) | (simp [shape, upd]; rfl)))
  clear_value l0
  repeat' first | (intro _) | with_reducible exact kl0 | with_reducible exact h | with_reducible assumption | with_reducible apply keep_ite | with_reducible apply keep_elim | with_reducible apply keep_forEach | with_reducible apply keep_foldl | with_reducible apply keep_foldl2 | with_reducible apply keep_forEach | with_reducible apply keep_revokeOne | with_reducible apply keep_modPipe | dsimp only | split | fail_if_no_progress (refine keep_mk ?_ rfl rfl (by first | rfl | (simp [shape, upd]; done) | (simp [shape, upd]; rfl)))

theorem keep_passWalk {z s : State} {a b l} (h : Keep z s) : Keep z (passWalk a b l s) := by
  induction l generalizing s with
  | nil => exact h
  | cons i l ih =>
    unfold passWalk
    refine ih ?_
    split
    · exact h
    · split
      · exact h
      · exact keep_revoke h

theorem keep_revocationPass {z s : State} {a0 a1} (h : Keep z s) : Keep z (revocationPass a0 a1 s) := by
  unfold revocationPass
  extract_lets l0 l1
  have kl0 : Keep z (l0) := by
    subst l0
    repeat' first | (intro _) | with_reducible exact h | with_reducible assumption | with_reducible apply keep_ite | with_reducible apply keep_elim | with_reducible apply keep_forEach | with_reducible apply keep_foldl | with_reducible apply keep_foldl2 | with_reducible apply keep_passWalk | dsimp only | split | fail_if_no_progress (refine keep_mk ?_ rfl rfl (by first | rfl | (simp [shape, upd]; done) | (simp [shape, upd]; rfl)))
  clear_value l0
  repeat' first | (intro _) | with_reducible exact kl0 | with_reducible exact h | with_reducible assumption | with_reducible apply keep_ite | with_reducible apply keep_elim | with_reducible apply keep_forEach | with_reducible apply keep_foldl | with_reducible apply keep_foldl2 | dsimp only | split | fail_if_no_progress (refine keep_mk ?_ rfl rfl (by first | rfl | (simp [shape, upd]; done) | (simp [shape, upd]; rfl)))

theorem keep_setCap {z s : State} {a0 a1} (h : Keep z s) : Keep z (setCap a0 a1 s) := by
  unfold setCap
  extract_lets l0 l1
  repeat' first | (intro _) | with_reducible exact h | with_reducible assumption | with_reducible apply keep_ite | with_reducible apply keep_elim | with_reducible apply keep_forEach | with_reducible apply keep_foldl | with_reducible apply keep_foldl2 | with_reducible apply keep_record | dsimp only | split | fail_if_no_progress (refine keep_mk ?_ rfl rfl (by first | rfl | (simp [shape, upd]; done) | (simp [shape, upd]; rfl)))

theorem keep_takeShrink {z s : State} (h : Keep z s) : Keep z (takeShrink s) := by
  unfold takeShrink
  extract_lets l0
  repeat' first | (intro _) | with_reducible exact h | with_reducible assumption | with_reducible apply keep_ite | with_reducible apply keep_elim | with_reducible apply keep_forEach | with_reducible apply keep_foldl | with_reducible apply keep_foldl2 | with_reducible apply keep_forEach | with_reducible apply keep_setCap | dsimp only | split | fail_if_no_progress (refine keep_mk ?_ rfl rfl (by first | rfl | (simp [shape, upd]; done) | (simp [shape, upd]; rfl)))

theorem keep_reprice {z s : State} {a0} (h : Keep z s) : Keep z (reprice a0 s) := by
  unfold reprice
  extract_lets l0 l1 l2 l3 l4 l5 l6
  have kl2 : Keep z (l2) := by
    subst l2
    repeat' first | (intro _) | with_reducible exact h | with_reducible assumption | with_reducible apply keep_ite | with_reducible apply keep_elim | with_reducible apply keep_forEach | with_reducible apply keep_foldl | with_reducible apply keep_foldl2 | with_reducible apply keep_forEach | with_reducible apply keep_setCap | dsimp only | split | fail_if_no_progress (refine keep_mk ?_ rfl rfl (by first | rfl | (simp [shape, upd]; done) | (simp [shape, upd]; rfl)))
  clear_value l2
  have kl3 : Keep z (l3) := by
    subst l3
    repeat' first | (intro _) | with_reducible exact kl2 | with_reducible exact h | with_reducible assumption | with_reducible apply keep_ite | with_reducible apply keep_elim | with_reducible apply keep_forEach | with_reducible apply keep_foldl | with_reducible apply keep_foldl2 | with_reducible apply keep_revocationPass | dsimp only | split | fail_if_no_progress (refine keep_mk ?_ rfl rfl (by first | rfl | (simp [shape, upd]; done) | (simp [shape, upd]; rfl)))
  clear_value l3
  repeat' first | (intro _) | with_reducible exact kl3 | with_reducible exact kl2 | with_reducible exact h | with_reducible assumption | with_reducible apply keep_ite | with_reducible apply keep_elim | with_reducible apply keep_forEach | with_reducible apply keep_foldl | with_reducible apply keep_foldl2 | with_reducible apply keep_takeShrink | dsimp only | split | fail_if_no_progress (refine keep_mk ?_ rfl rfl (by first | rfl | (simp [shape, upd]; done) | (simp [shape, upd]; rfl)))

theorem keep_repriceNow {z s : State} {a0} (h : Keep z s) : Keep z (repriceNow a0 s) := by
  unfold repriceNow
  extract_lets l0 l1 l2
  have kl0 : Keep z (l0) := by
    subst l0
    repeat' first | (intro _) | with_reducible exact h | with_reducible assumption | with_reducible apply keep_ite | with_reducible apply keep_elim | with_reducible apply keep_forEach | with_reducible apply keep_foldl | with_reducible apply keep_foldl2 | with_reducible apply keep_reprice | dsimp only | split | fail_if_no_progress (refine keep_mk ?_ rfl rfl (by first | rfl | (simp [shape, upd]; done) | (simp [shape, upd]; rfl)))
  clear_value l0
  repeat' first | (intro _) | with_reducible exact kl0 | with_reducible exact h | with_reducible assumption | with_reducible apply keep_ite | with_reducible apply keep_elim | with_reducible apply keep_forEach | with_reducible apply keep_foldl | with_reducible apply keep_foldl2 | with_reducible apply keep_forEach | with_reducible apply keep_setCap | dsimp only | split | fail_if_no_progress (refine keep_mk ?_ rfl rfl (by first | rfl | (simp [shape, upd]; done) | (simp [shape, upd]; rfl)))

theorem keep_reapGroup {z s : State} {a0} (h : Keep z s) : Keep z (reapGroup a0 s) := by
  unfold reapGroup
  extract_lets l0 l1
  repeat' first | (intro _) | with_reducible exact h | with_reducible assumption | with_reducible apply keep_ite | with_reducible apply keep_elim | with_reducible apply keep_forEach | with_reducible apply keep_foldl | with_reducible apply keep_foldl2 | with_reducible apply keep_dropItems | dsimp only | split | fail_if_no_progress (refine keep_mk ?_ rfl rfl (by first | rfl | (simp [shape, upd]; done) | (simp [shape, upd]; rfl)))

theorem keep_revokeAll {z s : State} {a0 a1 a2 a3 a4 a5} (h : Keep z s) : Keep z (revokeAll a0 a1 a2 a3 a4 a5 s) := by
  unfold revokeAll
  repeat' first | (intro _) | with_reducible exact h | with_reducible assumption | with_reducible apply keep_ite | with_reducible apply keep_elim | with_reducible apply keep_forEach | with_reducible apply keep_foldl | with_reducible apply keep_foldl2 | with_reducible apply keep_forEach | with_reducible apply keep_revoke | dsimp only | split | fail_if_no_progress (refine keep_mk ?_ rfl rfl (by first | rfl | (simp [shape, upd]; done) | (simp [shape, upd]; rfl)))

theorem keep_bootShed {z s : State} {a0 a1 a2} (h : Keep z s) : Keep z (bootShed a0 a1 a2 s) := by
  unfold bootShed
  repeat' first | (intro _) | with_reducible exact h | with_reducible assumption | with_reducible apply keep_ite | with_reducible apply keep_elim | with_reducible apply keep_forEach | with_reducible apply keep_foldl | with_reducible apply keep_foldl2 | with_reducible apply keep_revokeAll | dsimp only | split | fail_if_no_progress (refine keep_mk ?_ rfl rfl (by first | rfl | (simp [shape, upd]; done) | (simp [shape, upd]; rfl)))

end Sys2Proof.Machine
end

