-- ==== Sys2Proof/Laws/KeepTimeline.lean ====
section
/-! SUPPORT. What the operations of Machine/Timeline.lean keep. -/

set_option linter.unreachableTactic false
set_option linter.unusedTactic false

namespace Sys2Proof.Machine

theorem keep_storeRaw {z s : State} {a b} (h : Keep z s) : Keep z (storeRaw a b s) :=
  keep_cells h rfl (fun m => putCells_wf _ _ _ m) (fun m => putCells_wf _ _ _ m) rfl

theorem keep_storeOdd {z s : State} {a b} (h : Keep z s) : Keep z (storeOdd a b s) :=
  keep_cells h rfl (fun m => putCell_wf _ _ m) (fun m => putCell_wf _ _ m) rfl

theorem keep_putField {z s : State} {a0 a1 a2} (h : Keep z s) : Keep z (putField a0 a1 a2 s) := by
  unfold putField
  extract_lets l0 l1 l2
  repeat' first | (intro _) | with_reducible exact h | with_reducible assumption | with_reducible apply keep_ite | with_reducible apply keep_elim | with_reducible apply keep_forEach | with_reducible apply keep_foldl | with_reducible apply keep_foldl2 | with_reducible apply keep_storeRaw | dsimp only | split | fail_if_no_progress (refine keep_mk ?_ rfl rfl (by first | rfl | (simp [shape, upd]; done) | (simp [shape, upd]; rfl)))

theorem keep_mendComp {z s : State} {a0} (h : Keep z s) : Keep z (mendComp a0 s) := by
  unfold mendComp
  extract_lets l0
  repeat' first | (intro _) | with_reducible exact h | with_reducible assumption | with_reducible apply keep_ite | with_reducible apply keep_elim | with_reducible apply keep_forEach | with_reducible apply keep_foldl | with_reducible apply keep_foldl2 | dsimp only | split | fail_if_no_progress (refine keep_mk ?_ rfl rfl (by first | rfl | (simp [shape, upd]; done) | (simp [shape, upd]; rfl)))

theorem keep_protectByte {z s : State} {a0 a1 a2} (h : Keep z s) : Keep z (protectByte a0 a1 a2 s) := by
  unfold protectByte
  repeat' first | (intro _) | with_reducible exact h | with_reducible assumption | with_reducible apply keep_ite | with_reducible apply keep_elim | with_reducible apply keep_forEach | with_reducible apply keep_foldl | with_reducible apply keep_foldl2 | with_reducible apply keep_forEach | with_reducible apply keep_putField | with_reducible apply keep_mendComp | dsimp only | split | fail_if_no_progress (refine keep_mk ?_ rfl rfl (by first | rfl | (simp [shape, upd]; done) | (simp [shape, upd]; rfl)))

theorem keep_storeHbm {z s : State} {a0 a1} (h : Keep z s) : Keep z (storeHbm a0 a1 s) := by
  unfold storeHbm
  extract_lets l0
  have kl0 : Keep z (l0) := by
    subst l0
    repeat' first | (intro _) | with_reducible exact h | with_reducible assumption | with_reducible apply keep_ite | with_reducible apply keep_elim | with_reducible apply keep_forEach | with_reducible apply keep_foldl | with_reducible apply keep_foldl2 | with_reducible apply keep_mendComp | with_reducible apply keep_storeRaw | dsimp only | split | fail_if_no_progress (refine keep_mk ?_ rfl rfl (by first | rfl | (simp [shape, upd]; done) | (simp [shape, upd]; rfl)))
  clear_value l0
  repeat' first | (intro _) | with_reducible exact kl0 | with_reducible exact h | with_reducible assumption | with_reducible apply keep_ite | with_reducible apply keep_elim | with_reducible apply keep_forEach | with_reducible apply keep_foldl | with_reducible apply keep_foldl2 | with_reducible apply keep_forEach | with_reducible apply keep_protectByte | dsimp only | split | fail_if_no_progress (refine keep_mk ?_ rfl rfl (by first | rfl | (simp [shape, upd]; done) | (simp [shape, upd]; rfl)))

theorem keep_writeHbm {z s : State} {a0 a1} (h : Keep z s) : Keep z (writeHbm a0 a1 s) := by
  unfold writeHbm
  repeat' first | (intro _) | with_reducible exact h | with_reducible assumption | with_reducible apply keep_ite | with_reducible apply keep_elim | with_reducible apply keep_forEach | with_reducible apply keep_foldl | with_reducible apply keep_foldl2 | with_reducible apply keep_storeHbm | dsimp only | split | fail_if_no_progress (refine keep_mk ?_ rfl rfl (by first | rfl | (simp [shape, upd]; done) | (simp [shape, upd]; rfl)))

theorem keep_markByte {z s : State} {a0} (h : Keep z s) : Keep z (markByte a0 s) := by
  unfold markByte
  extract_lets l0
  repeat' first | (intro _) | with_reducible exact h | with_reducible assumption | with_reducible apply keep_ite | with_reducible apply keep_elim | with_reducible apply keep_forEach | with_reducible apply keep_foldl | with_reducible apply keep_foldl2 | with_reducible apply keep_putField | with_reducible apply keep_storeOdd | dsimp only | split | fail_if_no_progress (refine keep_mk ?_ rfl rfl (by first | rfl | (simp [shape, upd]; done) | (simp [shape, upd]; rfl)))

theorem keep_markBad {z s : State} {a0} (h : Keep z s) : Keep z (markBad a0 s) := by
  unfold markBad
  repeat' first | (intro _) | with_reducible exact h | with_reducible assumption | with_reducible apply keep_ite | with_reducible apply keep_elim | with_reducible apply keep_forEach | with_reducible apply keep_foldl | with_reducible apply keep_foldl2 | with_reducible apply keep_forEach | with_reducible apply keep_markByte | dsimp only | split | fail_if_no_progress (refine keep_mk ?_ rfl rfl (by first | rfl | (simp [shape, upd]; done) | (simp [shape, upd]; rfl)))

theorem keep_flipRaw {z s : State} {a m} (h : Keep z s) : Keep z (flipRaw a m s) :=
  keep_cells h rfl (fun m => putCell_wf _ _ m) (fun m => putCell_wf _ _ m) rfl

theorem keep_flipByte {z s : State} {a0 a1} (h : Keep z s) : Keep z (flipByte a0 a1 s) := by
  unfold flipByte
  repeat' first | (intro _) | with_reducible exact h | with_reducible assumption | with_reducible apply keep_ite | with_reducible apply keep_elim | with_reducible apply keep_forEach | with_reducible apply keep_foldl | with_reducible apply keep_foldl2 | with_reducible apply keep_flipRaw | with_reducible apply keep_forEach | dsimp only | split | fail_if_no_progress (refine keep_mk ?_ rfl rfl (by first | rfl | (simp [shape, upd]; done) | (simp [shape, upd]; rfl)))

theorem keep_writeInternal {z s : State} {a0 a1} (h : Keep z s) : Keep z (writeInternal a0 a1 s) := by
  unfold writeInternal
  repeat' first | (intro _) | with_reducible exact h | with_reducible assumption | with_reducible apply keep_ite | with_reducible apply keep_elim | with_reducible apply keep_forEach | with_reducible apply keep_foldl | with_reducible apply keep_foldl2 | with_reducible apply keep_writeHbm | dsimp only | split | fail_if_no_progress (refine keep_mk ?_ rfl rfl (by first | rfl | (simp [shape, upd]; done) | (simp [shape, upd]; rfl)))

end Sys2Proof.Machine
end

