-- ==== Sys2Proof/Laws/KeepBar4.lean ====
section
/-! SUPPORT. What the operations of Machine/Bar4.lean keep. -/

set_option linter.unreachableTactic false
set_option linter.unusedTactic false

namespace Sys2Proof.Machine

theorem keep_holdHost {z s : State} {a0} (h : Keep z s) : Keep z (holdHost a0 s) := by
  unfold holdHost
  extract_lets l0
  repeat' first | (intro _) | with_reducible exact h | with_reducible assumption | with_reducible apply keep_ite | with_reducible apply keep_elim | with_reducible apply keep_forEach | with_reducible apply keep_foldl | with_reducible apply keep_foldl2 | dsimp only | split | fail_if_no_progress (refine keep_mk ?_ rfl rfl (by first | rfl | (simp [shape, upd]; done) | (simp [shape, upd]; rfl)))

theorem keep_serveRead {z s : State} {a0 a1} (h : Keep z s) : Keep z (serveRead a0 a1 s) := by
  unfold serveRead
  extract_lets l0
  repeat' first | (intro _) | with_reducible exact h | with_reducible assumption | with_reducible apply keep_ite | with_reducible apply keep_elim | with_reducible apply keep_forEach | with_reducible apply keep_foldl | with_reducible apply keep_foldl2 | with_reducible apply keep_emit | with_reducible apply keep_noteRead | dsimp only | split | fail_if_no_progress (refine keep_mk ?_ rfl rfl (by first | rfl | (simp [shape, upd]; done) | (simp [shape, upd]; rfl)))

theorem keep_bar4Read {z s : State} {a0 a1} (h : Keep z s) : Keep z (bar4Read a0 a1 s) := by
  unfold bar4Read
  repeat' first | (intro _) | with_reducible exact h | with_reducible assumption | with_reducible apply keep_ite | with_reducible apply keep_elim | with_reducible apply keep_forEach | with_reducible apply keep_foldl | with_reducible apply keep_foldl2 | with_reducible apply keep_emit | with_reducible apply keep_holdHost | with_reducible apply keep_serveRead | dsimp only | split | fail_if_no_progress (refine keep_mk ?_ rfl rfl (by first | rfl | (simp [shape, upd]; done) | (simp [shape, upd]; rfl)))

theorem keep_execBar4Read {z s : State} {a0 a1 a2} (h : Keep z s) : KeepR z (execBar4Read a0 a1 a2 s) := by
  unfold execBar4Read
  repeat' first | (intro _) | with_reducible exact h | with_reducible assumption | with_reducible apply keepR_next | with_reducible apply keepR_ite | with_reducible apply keep_ite | with_reducible apply keep_elim | with_reducible apply keep_forEach | with_reducible apply keep_foldl | with_reducible apply keep_foldl2 | with_reducible apply keep_bar4Read | with_reducible apply keep_tick | dsimp only | split | fail_if_no_progress (refine keep_mk ?_ rfl rfl (by first | rfl | (simp [shape, upd]; done) | (simp [shape, upd]; rfl)))

theorem keep_bar4Report {z s : State} (h : Keep z s) : Keep z (bar4Report s) := by
  unfold bar4Report
  extract_lets l0
  repeat' first | (intro _) | with_reducible exact h | with_reducible assumption | with_reducible apply keep_ite | with_reducible apply keep_elim | with_reducible apply keep_forEach | with_reducible apply keep_foldl | with_reducible apply keep_foldl2 | with_reducible apply keep_recordAt | dsimp only | split | fail_if_no_progress (refine keep_mk ?_ rfl rfl (by first | rfl | (simp [shape, upd]; done) | (simp [shape, upd]; rfl)))

theorem keep_bar4Discard {z s : State} {a0} (h : Keep z s) : Keep z (bar4Discard a0 s) := by
  unfold bar4Discard
  extract_lets l0 l1
  have kl0 : Keep z (l0) := by
    subst l0
    repeat' first | (intro _) | with_reducible exact h | with_reducible assumption | with_reducible apply keep_ite | with_reducible apply keep_elim | with_reducible apply keep_forEach | with_reducible apply keep_foldl | with_reducible apply keep_foldl2 | with_reducible apply keep_bar4Report | dsimp only | split | fail_if_no_progress (refine keep_mk ?_ rfl rfl (by first | rfl | (simp [shape, upd]; done) | (simp [shape, upd]; rfl)))
  clear_value l0
  repeat' first | (intro _) | with_reducible exact kl0 | with_reducible exact h | with_reducible assumption | with_reducible apply keep_ite | with_reducible apply keep_elim | with_reducible apply keep_forEach | with_reducible apply keep_foldl | with_reducible apply keep_foldl2 | dsimp only | split | fail_if_no_progress (refine keep_mk ?_ rfl rfl (by first | rfl | (simp [shape, upd]; done) | (simp [shape, upd]; rfl)))

theorem keep_serveWrite {z s : State} {a0 a1 a2} (h : Keep z s) : Keep z (serveWrite a0 a1 a2 s) := by
  unfold serveWrite
  extract_lets l0 l1
  have kl1 : Keep z (l1) := by
    subst l1
    repeat' first | (intro _) | with_reducible exact h | with_reducible assumption | with_reducible apply keep_ite | with_reducible apply keep_elim | with_reducible apply keep_forEach | with_reducible apply keep_foldl | with_reducible apply keep_foldl2 | with_reducible apply keep_writeInternal | dsimp only | split | fail_if_no_progress (refine keep_mk ?_ rfl rfl (by first | rfl | (simp [shape, upd]; done) | (simp [shape, upd]; rfl)))
  clear_value l1
  repeat' first | (intro _) | with_reducible exact kl1 | with_reducible exact h | with_reducible assumption | with_reducible apply keep_ite | with_reducible apply keep_elim | with_reducible apply keep_forEach | with_reducible apply keep_foldl | with_reducible apply keep_foldl2 | with_reducible apply keep_markBad | dsimp only | split | fail_if_no_progress (refine keep_mk ?_ rfl rfl (by first | rfl | (simp [shape, upd]; done) | (simp [shape, upd]; rfl)))

theorem keep_bar4Write {z s : State} {a0 a1 a2} (h : Keep z s) : Keep z (bar4Write a0 a1 a2 s) := by
  unfold bar4Write
  repeat' first | (intro _) | with_reducible exact h | with_reducible assumption | with_reducible apply keep_ite | with_reducible apply keep_elim | with_reducible apply keep_forEach | with_reducible apply keep_foldl | with_reducible apply keep_foldl2 | with_reducible apply keep_emit | with_reducible apply keep_bar4Discard | with_reducible apply keep_holdHost | with_reducible apply keep_serveWrite | dsimp only | split | fail_if_no_progress (refine keep_mk ?_ rfl rfl (by first | rfl | (simp [shape, upd]; done) | (simp [shape, upd]; rfl)))

theorem keep_serveBar4 {z s : State} {a0} (h : Keep z s) : Keep z (serveBar4 a0 s) := by
  unfold serveBar4
  repeat' first | (intro _) | with_reducible exact h | with_reducible assumption | with_reducible apply keep_ite | with_reducible apply keep_elim | with_reducible apply keep_forEach | with_reducible apply keep_foldl | with_reducible apply keep_foldl2 | with_reducible apply keep_serveRead | with_reducible apply keep_serveWrite | with_reducible apply keep_holdHost | dsimp only | split | fail_if_no_progress (refine keep_mk ?_ rfl rfl (by first | rfl | (simp [shape, upd]; done) | (simp [shape, upd]; rfl)))

theorem keep_execBar4Write {z s : State} {a0 a1 a2 a3} (h : Keep z s) : KeepR z (execBar4Write a0 a1 a2 a3 s) := by
  unfold execBar4Write
  repeat' first | (intro _) | with_reducible exact h | with_reducible assumption | with_reducible apply keepR_next | with_reducible apply keepR_ite | with_reducible apply keep_ite | with_reducible apply keep_elim | with_reducible apply keep_forEach | with_reducible apply keep_foldl | with_reducible apply keep_foldl2 | with_reducible apply keep_bar4Write | with_reducible apply keep_tick | dsimp only | split | fail_if_no_progress (refine keep_mk ?_ rfl rfl (by first | rfl | (simp [shape, upd]; done) | (simp [shape, upd]; rfl)))

theorem keep_execBar4DiscardReport {z s : State} {a0} (h : Keep z s) : KeepR z (execBar4DiscardReport a0 s) := by
  unfold execBar4DiscardReport
  repeat' first | (intro _) | with_reducible exact h | with_reducible assumption | with_reducible apply keepR_next | with_reducible apply keepR_ite | with_reducible apply keep_ite | with_reducible apply keep_elim | with_reducible apply keep_forEach | with_reducible apply keep_foldl | with_reducible apply keep_foldl2 | with_reducible apply keep_bar4Report | with_reducible apply keep_tick | dsimp only | split | fail_if_no_progress (refine keep_mk ?_ rfl rfl (by first | rfl | (simp [shape, upd]; done) | (simp [shape, upd]; rfl)))

end Sys2Proof.Machine
end

