-- ==== Sys2Proof/Laws/KeepLoopOps.lean ====
section
/-! SUPPORT. What the operations of Machine/LoopOps.lean keep. -/

set_option linter.unreachableTactic false
set_option linter.unusedTactic false

namespace Sys2Proof.Machine

theorem keep_applyLoop {z s : State} {a0 a1} (h : Keep z s) : Keep z (applyLoop a0 a1 s) := by
  unfold applyLoop
  repeat' first | (intro _) | with_reducible exact h | with_reducible assumption | with_reducible apply keep_ite | with_reducible apply keep_elim | with_reducible apply keep_forEach | with_reducible apply keep_foldl | with_reducible apply keep_foldl2 | with_reducible apply keep_modChan | with_reducible apply keep_settle | with_reducible apply keep_completeAt | with_reducible apply keep_recordAt | dsimp only | split | fail_if_no_progress (refine keep_mk ?_ rfl rfl (by first | rfl | (simp [shape, upd]; done) | (simp [shape, upd]; rfl)))

theorem keep_applyLoopsAt {z s : State} {a0 a1 a2} (h : Keep z s) : Keep z (applyLoopsAt a0 a1 a2 s) := by
  unfold applyLoopsAt
  repeat' first | (intro _) | with_reducible exact h | with_reducible assumption | with_reducible apply keep_ite | with_reducible apply keep_elim | with_reducible apply keep_forEach | with_reducible apply keep_foldl | with_reducible apply keep_foldl2 | with_reducible apply keep_forEach | with_reducible apply keep_applyLoop | dsimp only | split | fail_if_no_progress (refine keep_mk ?_ rfl rfl (by first | rfl | (simp [shape, upd]; done) | (simp [shape, upd]; rfl)))

theorem keep_enterRun {z s : State} {a0} (h : Keep z s) : Keep z (enterRun a0 s) := by
  unfold enterRun
  repeat' first | (intro _) | with_reducible exact h | with_reducible assumption | with_reducible apply keep_ite | with_reducible apply keep_elim | with_reducible apply keep_forEach | with_reducible apply keep_foldl | with_reducible apply keep_foldl2 | with_reducible apply keep_modChan | with_reducible apply keep_modSp | dsimp only | split | fail_if_no_progress (refine keep_mk ?_ rfl rfl (by first | rfl | (simp [shape, upd]; done) | (simp [shape, upd]; rfl)))

end Sys2Proof.Machine
end

