-- ==== Sys2Proof/Laws/KeepRegisters.lean ====
section
/-! SUPPORT. What the operations of Machine/Registers.lean keep. -/

set_option linter.unreachableTactic false
set_option linter.unusedTactic false

namespace Sys2Proof.Machine

theorem keep_storeReg {z s : State} {a0 a1 a2 a3} (h : Keep z s) : Keep z (storeReg a0 a1 a2 a3 s) := by
  unfold storeReg
  extract_lets l0
  repeat' first | (intro _) | with_reducible exact h | with_reducible assumption | with_reducible apply keep_ite | with_reducible apply keep_elim | with_reducible apply keep_forEach | with_reducible apply keep_foldl | with_reducible apply keep_foldl2 | with_reducible apply keep_setRaw | dsimp only | split | fail_if_no_progress (refine keep_mk ?_ rfl rfl (by first | rfl | (simp [shape, upd]; done) | (simp [shape, upd]; rfl)))

theorem keep_rwlRecord {z s : State} {a0 a1 a2} (h : Keep z s) : Keep z (rwlRecord a0 a1 a2 s) := by
  unfold rwlRecord
  repeat' first | (intro _) | with_reducible exact h | with_reducible assumption | with_reducible apply keep_ite | with_reducible apply keep_elim | with_reducible apply keep_forEach | with_reducible apply keep_foldl | with_reducible apply keep_foldl2 | with_reducible apply keep_record | dsimp only | split | fail_if_no_progress (refine keep_mk ?_ rfl rfl (by first | rfl | (simp [shape, upd]; done) | (simp [shape, upd]; rfl)))

theorem keep_writeWord {z s : State} {a0 a1 a2 a3} (h : Keep z s) : Keep z (writeWord a0 a1 a2 a3 s) := by
  unfold writeWord
  extract_lets l0 l1 l2 l3 l4 l5 l6
  have kl1 : Keep z (l1) := by
    subst l1
    repeat' first | (intro _) | with_reducible exact h | with_reducible assumption | with_reducible apply keep_ite | with_reducible apply keep_elim | with_reducible apply keep_forEach | with_reducible apply keep_foldl | with_reducible apply keep_foldl2 | with_reducible apply keep_rwlRecord | dsimp only | split | fail_if_no_progress (refine keep_mk ?_ rfl rfl (by first | rfl | (simp [shape, upd]; done) | (simp [shape, upd]; rfl)))
  clear_value l1
  have kl3 : Keep z (l3) := by
    subst l3
    repeat' first | (intro _) | with_reducible exact kl1 | with_reducible exact h | with_reducible assumption | with_reducible apply keep_ite | with_reducible apply keep_elim | with_reducible apply keep_forEach | with_reducible apply keep_foldl | with_reducible apply keep_foldl2 | dsimp only | split | fail_if_no_progress (refine keep_mk ?_ rfl rfl (by first | rfl | (simp [shape, upd]; done) | (simp [shape, upd]; rfl)))
  clear_value l3
  have kl4 : Keep z (l4) := by
    subst l4
    repeat' first | (intro _) | with_reducible exact kl3 | with_reducible exact kl1 | with_reducible exact h | with_reducible assumption | with_reducible apply keep_ite | with_reducible apply keep_elim | with_reducible apply keep_forEach | with_reducible apply keep_foldl | with_reducible apply keep_foldl2 | with_reducible apply keep_storeReg | dsimp only | split | fail_if_no_progress (refine keep_mk ?_ rfl rfl (by first | rfl | (simp [shape, upd]; done) | (simp [shape, upd]; rfl)))
  clear_value l4
  repeat' first | (intro _) | with_reducible exact kl4 | with_reducible exact kl3 | with_reducible exact kl1 | with_reducible exact h | with_reducible assumption | with_reducible apply keep_ite | with_reducible apply keep_elim | with_reducible apply keep_forEach | with_reducible apply keep_foldl | with_reducible apply keep_foldl2 | with_reducible apply keep_storeReg | dsimp only | split | fail_if_no_progress (refine keep_mk ?_ rfl rfl (by first | rfl | (simp [shape, upd]; done) | (simp [shape, upd]; rfl)))

theorem keep_writeBar0 {z s : State} {a0 a1 a2} (h : Keep z s) : Keep z (writeBar0 a0 a1 a2 s) := by
  unfold writeBar0
  extract_lets l0
  repeat' first | (intro _) | with_reducible exact h | with_reducible assumption | with_reducible apply keep_ite | with_reducible apply keep_elim | with_reducible apply keep_forEach | with_reducible apply keep_foldl | with_reducible apply keep_foldl2 | with_reducible apply keep_writeWord | dsimp only | split | fail_if_no_progress (refine keep_mk ?_ rfl rfl (by first | rfl | (simp [shape, upd]; done) | (simp [shape, upd]; rfl)))

theorem keep_execCmpClrLate {z s : State} {a0 a1} (h : Keep z s) : KeepR z (execCmpClrLate a0 a1 s) := by
  unfold execCmpClrLate
  repeat' first | (intro _) | with_reducible exact h | with_reducible assumption | with_reducible apply keepR_next | with_reducible apply keepR_ite | with_reducible apply keep_ite | with_reducible apply keep_elim | with_reducible apply keep_forEach | with_reducible apply keep_foldl | with_reducible apply keep_foldl2 | with_reducible apply keep_modPipe | with_reducible apply keep_tick | dsimp only | split | fail_if_no_progress (refine keep_mk ?_ rfl rfl (by first | rfl | (simp [shape, upd]; done) | (simp [shape, upd]; rfl)))

theorem keep_execCmpClrGap {z s : State} {a0 a1} (h : Keep z s) : KeepR z (execCmpClrGap a0 a1 s) := by
  unfold execCmpClrGap
  repeat' first | (intro _) | with_reducible exact h | with_reducible assumption | with_reducible apply keepR_next | with_reducible apply keepR_ite | with_reducible apply keep_ite | with_reducible apply keep_elim | with_reducible apply keep_forEach | with_reducible apply keep_foldl | with_reducible apply keep_foldl2 | with_reducible apply keep_modPipe | with_reducible apply keep_tick | dsimp only | split | fail_if_no_progress (refine keep_mk ?_ rfl rfl (by first | rfl | (simp [shape, upd]; done) | (simp [shape, upd]; rfl)))

theorem keep_execPrsClrSlack {z s : State} {a0 a1} (h : Keep z s) : KeepR z (execPrsClrSlack a0 a1 s) := by
  unfold execPrsClrSlack
  repeat' first | (intro _) | with_reducible exact h | with_reducible assumption | with_reducible apply keepR_next | with_reducible apply keepR_ite | with_reducible apply keep_ite | with_reducible apply keep_elim | with_reducible apply keep_forEach | with_reducible apply keep_foldl | with_reducible apply keep_foldl2 | with_reducible apply keep_modPress | with_reducible apply keep_tick | dsimp only | split | fail_if_no_progress (refine keep_mk ?_ rfl rfl (by first | rfl | (simp [shape, upd]; done) | (simp [shape, upd]; rfl)))

theorem keep_execPrsClrDark {z s : State} {a0 a1} (h : Keep z s) : KeepR z (execPrsClrDark a0 a1 s) := by
  unfold execPrsClrDark
  repeat' first | (intro _) | with_reducible exact h | with_reducible assumption | with_reducible apply keepR_next | with_reducible apply keepR_ite | with_reducible apply keep_ite | with_reducible apply keep_elim | with_reducible apply keep_forEach | with_reducible apply keep_foldl | with_reducible apply keep_foldl2 | with_reducible apply keep_modPress | with_reducible apply keep_tick | dsimp only | split | fail_if_no_progress (refine keep_mk ?_ rfl rfl (by first | rfl | (simp [shape, upd]; done) | (simp [shape, upd]; rfl)))

theorem keep_execMotClrMiss {z s : State} {a0 a1} (h : Keep z s) : KeepR z (execMotClrMiss a0 a1 s) := by
  unfold execMotClrMiss
  repeat' first | (intro _) | with_reducible exact h | with_reducible assumption | with_reducible apply keepR_next | with_reducible apply keepR_ite | with_reducible apply keep_ite | with_reducible apply keep_elim | with_reducible apply keep_forEach | with_reducible apply keep_foldl | with_reducible apply keep_foldl2 | with_reducible apply keep_modMotion | with_reducible apply keep_tick | dsimp only | split | fail_if_no_progress (refine keep_mk ?_ rfl rfl (by first | rfl | (simp [shape, upd]; done) | (simp [shape, upd]; rfl)))

theorem keep_execScnClr {z s : State} {a0 a1} (h : Keep z s) : KeepR z (execScnClr a0 a1 s) := by
  unfold execScnClr
  repeat' first | (intro _) | with_reducible exact h | with_reducible assumption | with_reducible apply keepR_next | with_reducible apply keepR_ite | with_reducible apply keep_ite | with_reducible apply keep_elim | with_reducible apply keep_forEach | with_reducible apply keep_foldl | with_reducible apply keep_foldl2 | with_reducible apply keep_modScan | with_reducible apply keep_tick | dsimp only | split | fail_if_no_progress (refine keep_mk ?_ rfl rfl (by first | rfl | (simp [shape, upd]; done) | (simp [shape, upd]; rfl)))

theorem keep_execClrLimitedClear {z s : State} {a0 a1} (h : Keep z s) : KeepR z (execClrLimitedClear a0 a1 s) := by
  unfold execClrLimitedClear
  repeat' first | (intro _) | with_reducible exact h | with_reducible assumption | with_reducible apply keepR_next | with_reducible apply keepR_ite | with_reducible apply keep_ite | with_reducible apply keep_elim | with_reducible apply keep_forEach | with_reducible apply keep_foldl | with_reducible apply keep_foldl2 | with_reducible apply keep_modSolver | with_reducible apply keep_tick | dsimp only | split | fail_if_no_progress (refine keep_mk ?_ rfl rfl (by first | rfl | (simp [shape, upd]; done) | (simp [shape, upd]; rfl)))

theorem keep_clearChan {z s : State} {a0} (h : Keep z s) : Keep z (clearChan a0 s) := by
  unfold clearChan
  repeat' first | (intro _) | with_reducible exact h | with_reducible assumption | with_reducible apply keep_ite | with_reducible apply keep_elim | with_reducible apply keep_forEach | with_reducible apply keep_foldl | with_reducible apply keep_foldl2 | with_reducible apply keep_modChan | dsimp only | split | fail_if_no_progress (refine keep_mk ?_ rfl rfl (by first | rfl | (simp [shape, upd]; done) | (simp [shape, upd]; rfl)))

theorem keep_execGleChClr {z s : State} {a0 a1} (h : Keep z s) : KeepR z (execGleChClr a0 a1 s) := by
  unfold execGleChClr
  repeat' first | (intro _) | with_reducible exact h | with_reducible assumption | with_reducible apply keepR_next | with_reducible apply keepR_ite | with_reducible apply keep_ite | with_reducible apply keep_elim | with_reducible apply keep_forEach | with_reducible apply keep_foldl | with_reducible apply keep_foldl2 | with_reducible apply keep_clearChan | with_reducible apply keep_tick | dsimp only | split | fail_if_no_progress (refine keep_mk ?_ rfl rfl (by first | rfl | (simp [shape, upd]; done) | (simp [shape, upd]; rfl)))

theorem keep_clearSp {z s : State} {a0} (h : Keep z s) : Keep z (clearSp a0 s) := by
  unfold clearSp
  repeat' first | (intro _) | with_reducible exact h | with_reducible assumption | with_reducible apply keep_ite | with_reducible apply keep_elim | with_reducible apply keep_forEach | with_reducible apply keep_foldl | with_reducible apply keep_foldl2 | with_reducible apply keep_modSp | dsimp only | split | fail_if_no_progress (refine keep_mk ?_ rfl rfl (by first | rfl | (simp [shape, upd]; done) | (simp [shape, upd]; rfl)))

theorem keep_execGleSpClr {z s : State} {a0 a1} (h : Keep z s) : KeepR z (execGleSpClr a0 a1 s) := by
  unfold execGleSpClr
  repeat' first | (intro _) | with_reducible exact h | with_reducible assumption | with_reducible apply keepR_next | with_reducible apply keepR_ite | with_reducible apply keep_ite | with_reducible apply keep_elim | with_reducible apply keep_forEach | with_reducible apply keep_foldl | with_reducible apply keep_foldl2 | with_reducible apply keep_clearSp | with_reducible apply keep_tick | dsimp only | split | fail_if_no_progress (refine keep_mk ?_ rfl rfl (by first | rfl | (simp [shape, upd]; done) | (simp [shape, upd]; rfl)))

theorem keep_clearHbm {z s : State} (h : Keep z s) : Keep z (clearHbm s) := by
  unfold clearHbm
  extract_lets l0
  repeat' first | (intro _) | with_reducible exact h | with_reducible assumption | with_reducible apply keep_ite | with_reducible apply keep_elim | with_reducible apply keep_forEach | with_reducible apply keep_foldl | with_reducible apply keep_foldl2 | dsimp only | split | fail_if_no_progress (refine keep_mk ?_ rfl rfl (by first | rfl | (simp [shape, upd]; done) | (simp [shape, upd]; rfl)))

theorem keep_execHbmClr {z s : State} {a0} (h : Keep z s) : KeepR z (execHbmClr a0 s) := by
  unfold execHbmClr
  repeat' first | (intro _) | with_reducible exact h | with_reducible assumption | with_reducible apply keepR_next | with_reducible apply keepR_ite | with_reducible apply keep_ite | with_reducible apply keep_elim | with_reducible apply keep_forEach | with_reducible apply keep_foldl | with_reducible apply keep_foldl2 | with_reducible apply keep_clearHbm | with_reducible apply keep_tick | dsimp only | split | fail_if_no_progress (refine keep_mk ?_ rfl rfl (by first | rfl | (simp [shape, upd]; done) | (simp [shape, upd]; rfl)))

theorem keep_clearMin {z s : State} (h : Keep z s) : Keep z (clearMin s) := by
  unfold clearMin
  extract_lets l0
  repeat' first | (intro _) | with_reducible exact h | with_reducible assumption | with_reducible apply keep_ite | with_reducible apply keep_elim | with_reducible apply keep_forEach | with_reducible apply keep_foldl | with_reducible apply keep_foldl2 | dsimp only | split | fail_if_no_progress (refine keep_mk ?_ rfl rfl (by first | rfl | (simp [shape, upd]; done) | (simp [shape, upd]; rfl)))

theorem keep_execPwrClrMin {z s : State} {a0} (h : Keep z s) : KeepR z (execPwrClrMin a0 s) := by
  unfold execPwrClrMin
  repeat' first | (intro _) | with_reducible exact h | with_reducible assumption | with_reducible apply keepR_next | with_reducible apply keepR_ite | with_reducible apply keep_ite | with_reducible apply keep_elim | with_reducible apply keep_forEach | with_reducible apply keep_foldl | with_reducible apply keep_foldl2 | with_reducible apply keep_clearMin | with_reducible apply keep_tick | dsimp only | split | fail_if_no_progress (refine keep_mk ?_ rfl rfl (by first | rfl | (simp [shape, upd]; done) | (simp [shape, upd]; rfl)))

end Sys2Proof.Machine
end

