-- ==== Sys2Proof/Laws/KeepExhibits.lean ====
section
/-! SUPPORT. What the operations of Machine/Exhibits.lean keep. -/

set_option linter.unreachableTactic false
set_option linter.unusedTactic false

namespace Sys2Proof.Machine

theorem keep_exhRegisterAct {z s : State} {a0} (h : Keep z s) : Keep z (exhRegisterAct a0 s) := by
  unfold exhRegisterAct
  extract_lets l0 l1
  repeat' first | (intro _) | with_reducible exact h | with_reducible assumption | with_reducible apply keep_ite | with_reducible apply keep_elim | with_reducible apply keep_forEach | with_reducible apply keep_foldl | with_reducible apply keep_foldl2 | with_reducible apply keep_complete | with_reducible apply keep_setExh | dsimp only | split | fail_if_no_progress (refine keep_mk ?_ rfl rfl (by first | rfl | (simp [shape, upd]; done) | (simp [shape, upd]; rfl)))

theorem keep_execExhRegister {z s : State} {a0 a1} (h : Keep z s) : KeepR z (execExhRegister a0 a1 s) := by
  unfold execExhRegister
  repeat' first | (intro _) | with_reducible exact h | with_reducible assumption | with_reducible apply keepR_next | with_reducible apply keepR_ite | with_reducible apply keep_ite | with_reducible apply keep_elim | with_reducible apply keep_forEach | with_reducible apply keep_foldl | with_reducible apply keep_foldl2 | with_reducible apply keep_runDesc | with_reducible apply keep_exhRegisterAct | with_reducible apply keep_tick | dsimp only | split | fail_if_no_progress (refine keep_mk ?_ rfl rfl (by first | rfl | (simp [shape, upd]; done) | (simp [shape, upd]; rfl)))

theorem keep_deferFree {z s : State} {a0 a1 a2 a3} (h : Keep z s) : Keep z (deferFree a0 a1 a2 a3 s) := by
  unfold deferFree
  repeat' first | (intro _) | with_reducible exact h | with_reducible assumption | with_reducible apply keep_ite | with_reducible apply keep_elim | with_reducible apply keep_forEach | with_reducible apply keep_foldl | with_reducible apply keep_foldl2 | with_reducible apply keep_setExh | dsimp only | split | fail_if_no_progress (refine keep_mk ?_ rfl rfl (by first | rfl | (simp [shape, upd]; done) | (simp [shape, upd]; rfl)))

theorem keep_exhFreeAct {z s : State} {a0} (h : Keep z s) : Keep z (exhFreeAct a0 s) := by
  unfold exhFreeAct
  extract_lets l0
  repeat' first | (intro _) | with_reducible exact h | with_reducible assumption | with_reducible apply keep_ite | with_reducible apply keep_elim | with_reducible apply keep_forEach | with_reducible apply keep_foldl | with_reducible apply keep_foldl2 | with_reducible apply keep_complete | with_reducible apply keep_dropExh | with_reducible apply keep_setExh | with_reducible apply keep_deferFree | dsimp only | split | fail_if_no_progress (refine keep_mk ?_ rfl rfl (by first | rfl | (simp [shape, upd]; done) | (simp [shape, upd]; rfl)))

theorem keep_execExhFree {z s : State} {a0 a1} (h : Keep z s) : KeepR z (execExhFree a0 a1 s) := by
  unfold execExhFree
  repeat' first | (intro _) | with_reducible exact h | with_reducible assumption | with_reducible apply keepR_next | with_reducible apply keepR_ite | with_reducible apply keep_ite | with_reducible apply keep_elim | with_reducible apply keep_forEach | with_reducible apply keep_foldl | with_reducible apply keep_foldl2 | with_reducible apply keep_runDesc | with_reducible apply keep_exhFreeAct | with_reducible apply keep_tick | dsimp only | split | fail_if_no_progress (refine keep_mk ?_ rfl rfl (by first | rfl | (simp [shape, upd]; done) | (simp [shape, upd]; rfl)))

theorem keep_tearPins {z s : State} {a0} (h : Keep z s) : Keep z (tearPins a0 s) := by
  unfold tearPins
  repeat' first | (intro _) | with_reducible exact h | with_reducible assumption | with_reducible apply keep_ite | with_reducible apply keep_elim | with_reducible apply keep_forEach | with_reducible apply keep_foldl | with_reducible apply keep_foldl2 | with_reducible apply keep_forEach | with_reducible apply keep_record | dsimp only | split | fail_if_no_progress (refine keep_mk ?_ rfl rfl (by first | rfl | (simp [shape, upd]; done) | (simp [shape, upd]; rfl)))

theorem keep_startXfer {z s : State} {a0 a1 a2 a3 a4} (h : Keep z s) : Keep z (startXfer a0 a1 a2 a3 a4 s) := by
  unfold startXfer
  extract_lets l0 l1
  repeat' first | (intro _) | with_reducible exact h | with_reducible assumption | with_reducible apply keep_ite | with_reducible apply keep_elim | with_reducible apply keep_forEach | with_reducible apply keep_foldl | with_reducible apply keep_foldl2 | dsimp only | split | fail_if_no_progress (refine keep_mk ?_ rfl rfl (by first | rfl | (simp [shape, upd]; done) | (simp [shape, upd]; rfl)))

theorem keep_writeExh {z s : State} {a0 a1} (h : Keep z s) : Keep z (writeExh a0 a1 s) := by
  unfold writeExh
  extract_lets l0
  repeat' first | (intro _) | with_reducible exact h | with_reducible assumption | with_reducible apply keep_ite | with_reducible apply keep_elim | with_reducible apply keep_forEach | with_reducible apply keep_foldl | with_reducible apply keep_foldl2 | with_reducible apply keep_complete | with_reducible apply keep_setExh | with_reducible apply keep_dropItem | with_reducible apply keep_tearPins | with_reducible apply keep_startXfer | dsimp only | split | fail_if_no_progress (refine keep_mk ?_ rfl rfl (by first | rfl | (simp [shape, upd]; done) | (simp [shape, upd]; rfl)))

theorem keep_readExh {z s : State} {a0 a1} (h : Keep z s) : Keep z (readExh a0 a1 s) := by
  unfold readExh
  extract_lets l0
  repeat' first | (intro _) | with_reducible exact h | with_reducible assumption | with_reducible apply keep_ite | with_reducible apply keep_elim | with_reducible apply keep_forEach | with_reducible apply keep_foldl | with_reducible apply keep_foldl2 | with_reducible apply keep_complete | with_reducible apply keep_dropItem | with_reducible apply keep_startXfer | dsimp only | split | fail_if_no_progress (refine keep_mk ?_ rfl rfl (by first | rfl | (simp [shape, upd]; done) | (simp [shape, upd]; rfl)))

theorem keep_admitXfer {z s : State} {a0 a1} (h1 : ∀ x0 x1, Keep z x1 → Keep z (a1 x0 x1)) (h : Keep z s) : Keep z (admitXfer a0 a1 s) := by
  unfold admitXfer
  repeat' first | (intro _) | with_reducible exact h | with_reducible assumption | with_reducible apply h1 | with_reducible apply keep_ite | with_reducible apply keep_elim | with_reducible apply keep_forEach | with_reducible apply keep_foldl | with_reducible apply keep_foldl2 | with_reducible apply keep_admitDesc | dsimp only | split | fail_if_no_progress (refine keep_mk ?_ rfl rfl (by first | rfl | (simp [shape, upd]; done) | (simp [shape, upd]; rfl)))

theorem keep_exhWriteAct {z s : State} {a0} (h : Keep z s) : Keep z (exhWriteAct a0 s) := by
  unfold exhWriteAct
  extract_lets l0
  repeat' first | (intro _) | with_reducible exact h | with_reducible assumption | with_reducible apply keep_ite | with_reducible apply keep_elim | with_reducible apply keep_forEach | with_reducible apply keep_foldl | with_reducible apply keep_foldl2 | with_reducible apply keep_complete | with_reducible apply keep_admitXfer | with_reducible apply keep_writeExh | dsimp only | split | fail_if_no_progress (refine keep_mk ?_ rfl rfl (by first | rfl | (simp [shape, upd]; done) | (simp [shape, upd]; rfl)))

theorem keep_execExhWrite {z s : State} {a0 a1} (h : Keep z s) : KeepR z (execExhWrite a0 a1 s) := by
  unfold execExhWrite
  repeat' first | (intro _) | with_reducible exact h | with_reducible assumption | with_reducible apply keepR_next | with_reducible apply keepR_ite | with_reducible apply keep_ite | with_reducible apply keep_elim | with_reducible apply keep_forEach | with_reducible apply keep_foldl | with_reducible apply keep_foldl2 | with_reducible apply keep_runDesc | with_reducible apply keep_exhWriteAct | with_reducible apply keep_tick | dsimp only | split | fail_if_no_progress (refine keep_mk ?_ rfl rfl (by first | rfl | (simp [shape, upd]; done) | (simp [shape, upd]; rfl)))

theorem keep_execExhRead {z s : State} {a0 a1} (h : Keep z s) : KeepR z (execExhRead a0 a1 s) := by
  unfold execExhRead
  repeat' first | (intro _) | with_reducible exact h | with_reducible assumption | with_reducible apply keepR_next | with_reducible apply keepR_ite | with_reducible apply keep_ite | with_reducible apply keep_elim | with_reducible apply keep_forEach | with_reducible apply keep_foldl | with_reducible apply keep_foldl2 | with_reducible apply keep_runDesc | with_reducible apply keep_admitXfer | with_reducible apply keep_readExh | with_reducible apply keep_tick | dsimp only | split | fail_if_no_progress (refine keep_mk ?_ rfl rfl (by first | rfl | (simp [shape, upd]; done) | (simp [shape, upd]; rfl)))

theorem keep_xferComplete {z s : State} {a0 a1 a2} (h : Keep z s) : Keep z (xferComplete a0 a1 a2 s) := by
  unfold xferComplete
  repeat' first | (intro _) | with_reducible exact h | with_reducible assumption | with_reducible apply keep_ite | with_reducible apply keep_elim | with_reducible apply keep_forEach | with_reducible apply keep_foldl | with_reducible apply keep_foldl2 | with_reducible apply keep_complete | with_reducible apply keep_noticeAt | dsimp only | split | fail_if_no_progress (refine keep_mk ?_ rfl rfl (by first | rfl | (simp [shape, upd]; done) | (simp [shape, upd]; rfl)))

theorem keep_endWrite {z s : State} {a0 a1} (h : Keep z s) : Keep z (endWrite a0 a1 s) := by
  unfold endWrite
  extract_lets l0 l1 l2 l3 l4 l5 l6 l7 l8
  have kl5 : Keep z (l5) := by
    subst l5
    repeat' first | (intro _) | with_reducible exact h | with_reducible assumption | with_reducible apply keep_ite | with_reducible apply keep_elim | with_reducible apply keep_forEach | with_reducible apply keep_foldl | with_reducible apply keep_foldl2 | with_reducible apply keep_tearPins | with_reducible apply keep_writeInternal | dsimp only | split | fail_if_no_progress (refine keep_mk ?_ rfl rfl (by first | rfl | (simp [shape, upd]; done) | (simp [shape, upd]; rfl)))
  clear_value l5
  have kl7 : Keep z (l7) := by
    subst l7
    repeat' first | (intro _) | with_reducible exact kl5 | with_reducible exact h | with_reducible assumption | with_reducible apply keep_ite | with_reducible apply keep_elim | with_reducible apply keep_forEach | with_reducible apply keep_foldl | with_reducible apply keep_foldl2 | dsimp only | split | fail_if_no_progress (refine keep_mk ?_ rfl rfl (by first | rfl | (simp [shape, upd]; done) | (simp [shape, upd]; rfl)))
  clear_value l7
  repeat' first | (intro _) | with_reducible exact kl7 | with_reducible exact kl5 | with_reducible exact h | with_reducible assumption | with_reducible apply keep_ite | with_reducible apply keep_elim | with_reducible apply keep_forEach | with_reducible apply keep_foldl | with_reducible apply keep_foldl2 | with_reducible apply keep_modExh | with_reducible apply keep_dropItem | with_reducible apply keep_xferComplete | with_reducible apply keep_forEach | with_reducible apply keep_noteChange | with_reducible apply keep_runHeld | dsimp only | split | fail_if_no_progress (refine keep_mk ?_ rfl rfl (by first | rfl | (simp [shape, upd]; done) | (simp [shape, upd]; rfl)))

theorem keep_endRead {z s : State} {a0 a1} (h : Keep z s) : Keep z (endRead a0 a1 s) := by
  unfold endRead
  extract_lets l0 l1 l2 l3 l4 l5 l6 l7 l8
  have kl3 : Keep z (l3) := by
    subst l3
    repeat' first | (intro _) | with_reducible exact h | with_reducible assumption | with_reducible apply keep_ite | with_reducible apply keep_elim | with_reducible apply keep_forEach | with_reducible apply keep_foldl | with_reducible apply keep_foldl2 | with_reducible apply keep_hostWrite | dsimp only | split | fail_if_no_progress (refine keep_mk ?_ rfl rfl (by first | rfl | (simp [shape, upd]; done) | (simp [shape, upd]; rfl)))
  clear_value l3
  have kl5 : Keep z (l5) := by
    subst l5
    repeat' first | (intro _) | with_reducible exact kl3 | with_reducible exact h | with_reducible assumption | with_reducible apply keep_ite | with_reducible apply keep_elim | with_reducible apply keep_forEach | with_reducible apply keep_foldl | with_reducible apply keep_foldl2 | with_reducible apply keep_forEach | with_reducible apply keep_emit | dsimp only | split | fail_if_no_progress (refine keep_mk ?_ rfl rfl (by first | rfl | (simp [shape, upd]; done) | (simp [shape, upd]; rfl)))
  clear_value l5
  have kl7 : Keep z (l7) := by
    subst l7
    repeat' first | (intro _) | with_reducible exact kl5 | with_reducible exact kl3 | with_reducible exact h | with_reducible assumption | with_reducible apply keep_ite | with_reducible apply keep_elim | with_reducible apply keep_forEach | with_reducible apply keep_foldl | with_reducible apply keep_foldl2 | with_reducible apply keep_noteRead | dsimp only | split | fail_if_no_progress (refine keep_mk ?_ rfl rfl (by first | rfl | (simp [shape, upd]; done) | (simp [shape, upd]; rfl)))
  clear_value l7
  have kl8 : Keep z (l8) := by
    subst l8
    repeat' first | (intro _) | with_reducible exact kl7 | with_reducible exact kl5 | with_reducible exact kl3 | with_reducible exact h | with_reducible assumption | with_reducible apply keep_ite | with_reducible apply keep_elim | with_reducible apply keep_forEach | with_reducible apply keep_foldl | with_reducible apply keep_foldl2 | with_reducible apply keep_dropItem | dsimp only | split | fail_if_no_progress (refine keep_mk ?_ rfl rfl (by first | rfl | (simp [shape, upd]; done) | (simp [shape, upd]; rfl)))
  clear_value l8
  repeat' first | (intro _) | with_reducible exact kl8 | with_reducible exact kl7 | with_reducible exact kl5 | with_reducible exact kl3 | with_reducible exact h | with_reducible assumption | with_reducible apply keep_ite | with_reducible apply keep_elim | with_reducible apply keep_forEach | with_reducible apply keep_foldl | with_reducible apply keep_foldl2 | with_reducible apply keep_xferComplete | dsimp only | split | fail_if_no_progress (refine keep_mk ?_ rfl rfl (by first | rfl | (simp [shape, upd]; done) | (simp [shape, upd]; rfl)))

theorem keep_endExhXfer {z s : State} {a0 a1} (h : Keep z s) : Keep z (endExhXfer a0 a1 s) := by
  unfold endExhXfer
  repeat' first | (intro _) | with_reducible exact h | with_reducible assumption | with_reducible apply keep_ite | with_reducible apply keep_elim | with_reducible apply keep_forEach | with_reducible apply keep_foldl | with_reducible apply keep_foldl2 | with_reducible apply keep_endWrite | with_reducible apply keep_endRead | dsimp only | split | fail_if_no_progress (refine keep_mk ?_ rfl rfl (by first | rfl | (simp [shape, upd]; done) | (simp [shape, upd]; rfl)))

theorem keep_execTransferDone {z s : State} {a0 a1 a2 a3} (h : Keep z s) : KeepR z (execTransferDone a0 a1 a2 a3 s) := by
  unfold execTransferDone
  extract_lets l0
  have kl0 : Keep z (l0) := by
    subst l0
    repeat' first | (intro _) | with_reducible exact h | with_reducible assumption | with_reducible apply keepR_next | with_reducible apply keepR_ite | with_reducible apply keep_ite | with_reducible apply keep_elim | with_reducible apply keep_forEach | with_reducible apply keep_foldl | with_reducible apply keep_foldl2 | with_reducible apply keep_tick | dsimp only | split | fail_if_no_progress (refine keep_mk ?_ rfl rfl (by first | rfl | (simp [shape, upd]; done) | (simp [shape, upd]; rfl)))
  clear_value l0
  repeat' first | (intro _) | with_reducible exact kl0 | with_reducible exact h | with_reducible assumption | with_reducible apply keepR_next | with_reducible apply keepR_ite | with_reducible apply keep_ite | with_reducible apply keep_elim | with_reducible apply keep_forEach | with_reducible apply keep_foldl | with_reducible apply keep_foldl2 | with_reducible apply keep_holdHost | with_reducible apply keep_endExhXfer | dsimp only | split | fail_if_no_progress (refine keep_mk ?_ rfl rfl (by first | rfl | (simp [shape, upd]; done) | (simp [shape, upd]; rfl)))

theorem keep_admQueryAct {z s : State} {a0} (h : Keep z s) : Keep z (admQueryAct a0 s) := by
  unfold admQueryAct
  extract_lets l0
  repeat' first | (intro _) | with_reducible exact h | with_reducible assumption | with_reducible apply keep_ite | with_reducible apply keep_elim | with_reducible apply keep_forEach | with_reducible apply keep_foldl | with_reducible apply keep_foldl2 | with_reducible apply keep_complete | dsimp only | split | fail_if_no_progress (refine keep_mk ?_ rfl rfl (by first | rfl | (simp [shape, upd]; done) | (simp [shape, upd]; rfl)))

theorem keep_execAdmQuery {z s : State} {a0 a1} (h : Keep z s) : KeepR z (execAdmQuery a0 a1 s) := by
  unfold execAdmQuery
  repeat' first | (intro _) | with_reducible exact h | with_reducible assumption | with_reducible apply keepR_next | with_reducible apply keepR_ite | with_reducible apply keep_ite | with_reducible apply keep_elim | with_reducible apply keep_forEach | with_reducible apply keep_foldl | with_reducible apply keep_foldl2 | with_reducible apply keep_runDesc | with_reducible apply keep_admQueryAct | with_reducible apply keep_tick | dsimp only | split | fail_if_no_progress (refine keep_mk ?_ rfl rfl (by first | rfl | (simp [shape, upd]; done) | (simp [shape, upd]; rfl)))

theorem keep_execRetireFence {z s : State} {a0 a1} (h : Keep z s) : KeepR z (execRetireFence a0 a1 s) := by
  unfold execRetireFence
  extract_lets l0 l1 l2
  have kl0 : Keep z (l0) := by
    subst l0
    repeat' first | (intro _) | with_reducible exact h | with_reducible assumption | with_reducible apply keepR_next | with_reducible apply keepR_ite | with_reducible apply keep_ite | with_reducible apply keep_elim | with_reducible apply keep_forEach | with_reducible apply keep_foldl | with_reducible apply keep_foldl2 | with_reducible apply keep_tick | dsimp only | split | fail_if_no_progress (refine keep_mk ?_ rfl rfl (by first | rfl | (simp [shape, upd]; done) | (simp [shape, upd]; rfl)))
  clear_value l0
  have kl2 : Keep z (l2) := by
    subst l2
    repeat' first | (intro _) | with_reducible exact kl0 | with_reducible exact h | with_reducible assumption | with_reducible apply keepR_next | with_reducible apply keepR_ite | with_reducible apply keep_ite | with_reducible apply keep_elim | with_reducible apply keep_forEach | with_reducible apply keep_foldl | with_reducible apply keep_foldl2 | with_reducible apply keep_modPipe | dsimp only | split | fail_if_no_progress (refine keep_mk ?_ rfl rfl (by first | rfl | (simp [shape, upd]; done) | (simp [shape, upd]; rfl)))
  clear_value l2
  repeat' first | (intro _) | with_reducible exact kl2 | with_reducible exact kl0 | with_reducible exact h | with_reducible assumption | with_reducible apply keepR_next | with_reducible apply keepR_ite | with_reducible apply keep_ite | with_reducible apply keep_elim | with_reducible apply keep_forEach | with_reducible apply keep_foldl | with_reducible apply keep_foldl2 | with_reducible apply keep_unpinAll | dsimp only | split | fail_if_no_progress (refine keep_mk ?_ rfl rfl (by first | rfl | (simp [shape, upd]; done) | (simp [shape, upd]; rfl)))

theorem keep_execCapacityShrinkHold {z s : State} {a0} (h : Keep z s) : KeepR z (execCapacityShrinkHold a0 s) := by
  unfold execCapacityShrinkHold
  repeat' first | (intro _) | with_reducible exact h | with_reducible assumption | with_reducible apply keepR_next | with_reducible apply keepR_ite | with_reducible apply keep_ite | with_reducible apply keep_elim | with_reducible apply keep_forEach | with_reducible apply keep_foldl | with_reducible apply keep_foldl2 | with_reducible apply keep_takeShrink | with_reducible apply keep_tick | dsimp only | split | fail_if_no_progress (refine keep_mk ?_ rfl rfl (by first | rfl | (simp [shape, upd]; done) | (simp [shape, upd]; rfl)))

end Sys2Proof.Machine
end

