-- ==== Sys2Proof/Laws/KeepReadView.lean ====
section
/-! SUPPORT. What the operations of Machine/ReadView.lean keep. -/

set_option linter.unreachableTactic false
set_option linter.unusedTactic false

namespace Sys2Proof.Machine

theorem keep_readBar0 {z s : State} {a0 a1} (h : Keep z s) : Keep z (readBar0 a0 a1 s).2 := by
  unfold readBar0
  extract_lets l0
  repeat' first | (intro _) | with_reducible exact h | with_reducible assumption | with_reducible apply keep_ite | with_reducible apply keep_elim | with_reducible apply keep_forEach | with_reducible apply keep_foldl | with_reducible apply keep_foldl2 | dsimp only | split | fail_if_no_progress (refine keep_mk ?_ rfl rfl (by first | rfl | (simp [shape, upd]; done) | (simp [shape, upd]; rfl)))

theorem keepE_readBar0 {z s : State} {a0 a1} {t : State} {r0} (e : readBar0 a0 a1 s = (r0, t)) (h : Keep z s) : Keep z t := by
  have := keep_readBar0 (z := z) (s := s) (a0 := a0) (a1 := a1)  h
  rw [e] at this
  exact this

end Sys2Proof.Machine
end

