-- ==== Sys2Proof/Laws/KeepBarWrite.lean ====
section
/-! SUPPORT. What the operations of Machine/BarWrite.lean keep. -/

set_option linter.unreachableTactic false
set_option linter.unusedTactic false

namespace Sys2Proof.Machine

theorem keep_lockShedding {z s : State} (h : Keep z s) : Keep z (lockShedding s) := by
  unfold lockShedding
  extract_lets l0 l1 l2 l3 l4 l5
  have kl4 : Keep z (l4) := by
    subst l4
    repeat' first | (intro _) | with_reducible exact h | with_reducible assumption | with_reducible apply keep_ite | with_reducible apply keep_elim | with_reducible apply keep_forEach | with_reducible apply keep_foldl | with_reducible apply keep_foldl2 | dsimp only | split | fail_if_no_progress (refine keep_mk ?_ rfl rfl (by first | rfl | (simp [shape, upd]; done) | (simp [shape, upd]; rfl)))
  clear_value l4
  have kl5 : Keep z (l5) := by
    subst l5
    repeat' first | (intro _) | with_reducible exact kl4 | with_reducible exact h | with_reducible assumption | with_reducible apply keep_ite | with_reducible apply keep_elim | with_reducible apply keep_forEach | with_reducible apply keep_foldl | with_reducible apply keep_foldl2 | with_reducible apply keep_forEach | with_reducible apply keep_setRaw | dsimp only | split | fail_if_no_progress (refine keep_mk ?_ rfl rfl (by first | rfl | (simp [shape, upd]; done) | (simp [shape, upd]; rfl)))
  clear_value l5
  repeat' first | (intro _) | with_reducible exact kl5 | with_reducible exact kl4 | with_reducible exact h | with_reducible assumption | with_reducible apply keep_ite | with_reducible apply keep_elim | with_reducible apply keep_forEach | with_reducible apply keep_foldl | with_reducible apply keep_foldl2 | with_reducible apply keep_record | with_reducible apply keep_setBits | with_reducible apply keep_setRaw | dsimp only | split | fail_if_no_progress (refine keep_mk ?_ rfl rfl (by first | rfl | (simp [shape, upd]; done) | (simp [shape, upd]; rfl)))

theorem keep_setupLock {z s : State} {a0} (h : Keep z s) : Keep z (setupLock a0 s) := by
  unfold setupLock
  extract_lets l0 l1
  have kl0 : Keep z (l0) := by
    subst l0
    repeat' first | (intro _) | with_reducible exact h | with_reducible assumption | with_reducible apply keep_ite | with_reducible apply keep_elim | with_reducible apply keep_forEach | with_reducible apply keep_foldl | with_reducible apply keep_foldl2 | with_reducible apply keep_lockShedding | dsimp only | split | fail_if_no_progress (refine keep_mk ?_ rfl rfl (by first | rfl | (simp [shape, upd]; done) | (simp [shape, upd]; rfl)))
  clear_value l0
  repeat' first | (intro _) | with_reducible exact kl0 | with_reducible exact h | with_reducible assumption | with_reducible apply keep_ite | with_reducible apply keep_elim | with_reducible apply keep_forEach | with_reducible apply keep_foldl | with_reducible apply keep_foldl2 | with_reducible apply keep_record | dsimp only | split | fail_if_no_progress (refine keep_mk ?_ rfl rfl (by first | rfl | (simp [shape, upd]; done) | (simp [shape, upd]; rfl)))

theorem keep_execSetupLock {z s : State} {a0} (h : Keep z s) : KeepR z (execSetupLock a0 s) := by
  unfold execSetupLock
  repeat' first | (intro _) | with_reducible exact h | with_reducible assumption | with_reducible apply keepR_next | with_reducible apply keepR_ite | with_reducible apply keep_ite | with_reducible apply keep_elim | with_reducible apply keep_forEach | with_reducible apply keep_foldl | with_reducible apply keep_foldl2 | with_reducible apply keep_setupLock | with_reducible apply keep_tick | dsimp only | split | fail_if_no_progress (refine keep_mk ?_ rfl rfl (by first | rfl | (simp [shape, upd]; done) | (simp [shape, upd]; rfl)))

theorem keep_enableWrite {z s : State} {a0 a1 a2} (h : Keep z s) : Keep z (enableWrite a0 a1 a2 s) := by
  unfold enableWrite
  extract_lets l0
  repeat' first | (intro _) | with_reducible exact h | with_reducible assumption | with_reducible apply keep_ite | with_reducible apply keep_elim | with_reducible apply keep_forEach | with_reducible apply keep_foldl | with_reducible apply keep_foldl2 | with_reducible apply keep_sqEnable | with_reducible apply keep_sqDisable | with_reducible apply keep_cqEnable | with_reducible apply keep_cqDisable | with_reducible apply keep_ledgerEnable | with_reducible apply keep_modLedger | dsimp only | split | fail_if_no_progress (refine keep_mk ?_ rfl rfl (by first | rfl | (simp [shape, upd]; done) | (simp [shape, upd]; rfl)))

theorem keep_clearHead {z s : State} {a0 a1 a2} (h : Keep z s) : Keep z (clearHead a0 a1 a2 s) := by
  unfold clearHead
  repeat' first | (intro _) | with_reducible exact h | with_reducible assumption | with_reducible apply keep_ite | with_reducible apply keep_elim | with_reducible apply keep_forEach | with_reducible apply keep_foldl | with_reducible apply keep_foldl2 | with_reducible apply keep_modPipe | with_reducible apply keep_modPress | with_reducible apply keep_modMotion | with_reducible apply keep_modScan | with_reducible apply keep_modSolver | dsimp only | split | fail_if_no_progress (refine keep_mk ?_ rfl rfl (by first | rfl | (simp [shape, upd]; done) | (simp [shape, upd]; rfl)))

theorem keep_testEnable {z s : State} {a0 a1} (h0 : ∀ x0 x1, Keep z x1 → Keep z (a0 x0 x1)) (h : Keep z s) : Keep z (testEnable a0 a1 s) := by
  unfold testEnable
  extract_lets l0
  repeat' first | (intro _) | with_reducible exact h | with_reducible assumption | with_reducible apply h0 | with_reducible apply keep_ite | with_reducible apply keep_elim | with_reducible apply keep_forEach | with_reducible apply keep_foldl | with_reducible apply keep_foldl2 | with_reducible apply keep_rwlRecord | with_reducible apply keep_record | dsimp only | split | fail_if_no_progress (refine keep_mk ?_ rfl rfl (by first | rfl | (simp [shape, upd]; done) | (simp [shape, upd]; rfl)))

theorem keepE_clearBlock {z s t : State} {o v} (e : clearBlock o v s = some t) (h : Keep z s) : Keep z t := by
  unfold clearBlock at e
  dsimp only at e
  repeat' split at e
  all_goals first
    | (obtain rfl := Option.some.inj e
       first
         | exact h
         | exact keep_modPort h
         | exact keep_clearChan h
         | exact keep_clearSp h
         | exact keep_clearFlow h
         | exact keep_clearHbm h
         | exact keep_clearRegion h
         | exact keep_clearMin h)
    | exact nomatch e

theorem keep_barWrite {z s : State} {a0 a1 a2 a3} (h0 : ∀ x0 x1, Keep z x1 → Keep z (a0 x0 x1)) (h1 : ∀ x0, Keep z x0 → Keep z (a1 x0)) (h : Keep z s) : Keep z (barWrite a0 a1 a2 a3 s) := by
  unfold barWrite
  extract_lets l0
  repeat' first | (intro _) | with_reducible exact h | with_reducible assumption | with_reducible apply h0 | with_reducible apply h1 | with_reducible apply keep_ite | with_reducible apply keep_elim | with_reducible apply keep_forEach | with_reducible apply keep_foldl | with_reducible apply keep_foldl2 | with_reducible apply keep_setupLock | with_reducible apply keep_testEnable | with_reducible apply keep_cfgWrite | with_reducible apply keep_writeBar0 | with_reducible apply keep_clearHead | with_reducible apply keep_aoutRange | with_reducible apply keep_enableWrite | with_reducible apply keepE_clearBlock (by with_reducible assumption) | dsimp only | split | fail_if_no_progress (refine keep_mk ?_ rfl rfl (by first | rfl | (simp [shape, upd]; done) | (simp [shape, upd]; rfl)))

theorem keep_pf1Write {z s : State} {a0 a1} (h : Keep z s) : Keep z (pf1Write a0 a1 s) := by
  unfold pf1Write
  repeat' first | (intro _) | with_reducible exact h | with_reducible assumption | with_reducible apply keep_ite | with_reducible apply keep_elim | with_reducible apply keep_forEach | with_reducible apply keep_foldl | with_reducible apply keep_foldl2 | with_reducible apply keep_writeBar0 | with_reducible apply keep_enableWrite | dsimp only | split | fail_if_no_progress (refine keep_mk ?_ rfl rfl (by first | rfl | (simp [shape, upd]; done) | (simp [shape, upd]; rfl)))

end Sys2Proof.Machine
end

