-- ==== Sys2Proof/Laws/KeepHostAccess.lean ====
section
/-! SUPPORT. What the operations of Machine/HostAccess.lean keep. -/

set_option linter.unreachableTactic false
set_option linter.unusedTactic false

namespace Sys2Proof.Machine

theorem keep_writeBar2 {z s : State} {a0 a1 a2} (h : Keep z s) : Keep z (writeBar2 a0 a1 a2 s) := by
  unfold writeBar2
  extract_lets l0
  repeat' first | (intro _) | with_reducible exact h | with_reducible assumption | with_reducible apply keep_ite | with_reducible apply keep_elim | with_reducible apply keep_forEach | with_reducible apply keep_foldl | with_reducible apply keep_foldl2 | with_reducible apply keep_ucwWrite | with_reducible apply keep_tailDoorbell | with_reducible apply keep_cqDoorbell | with_reducible apply keep_ledgerDoorbell | dsimp only | split | fail_if_no_progress (refine keep_mk ?_ rfl rfl (by first | rfl | (simp [shape, upd]; done) | (simp [shape, upd]; rfl)))

theorem keep_poisonedWrite {z s : State} {a0 a1} (h : Keep z s) : Keep z (poisonedWrite a0 a1 s) := by
  unfold poisonedWrite
  repeat' first | (intro _) | with_reducible exact h | with_reducible assumption | with_reducible apply keep_ite | with_reducible apply keep_elim | with_reducible apply keep_forEach | with_reducible apply keep_foldl | with_reducible apply keep_foldl2 | with_reducible apply keep_shadowLost | dsimp only | split | fail_if_no_progress (refine keep_mk ?_ rfl rfl (by first | rfl | (simp [shape, upd]; done) | (simp [shape, upd]; rfl)))

theorem keep_writeBar {z s : State} {a0 a1 a2} (h : Keep z s) : Keep z (writeBar a0 a1 a2 s) := by
  unfold writeBar
  repeat' first | (intro _) | with_reducible exact h | with_reducible assumption | with_reducible apply keep_ite | with_reducible apply keep_elim | with_reducible apply keep_forEach | with_reducible apply keep_foldl | with_reducible apply keep_foldl2 | with_reducible apply keep_writeBar2 | with_reducible apply keep_wakeP2 | with_reducible apply keep_emit | with_reducible apply keep_poisonedWrite | with_reducible apply keep_pf1Write | with_reducible apply keep_barWrite | with_reducible apply keep_clearRules | with_reducible apply keep_mbStart | dsimp only | split | fail_if_no_progress (refine keep_mk ?_ rfl rfl (by first | rfl | (simp [shape, upd]; done) | (simp [shape, upd]; rfl)))

theorem keep_execRegisterWrite {z s : State} {a0 a1 a2 a3} (h : Keep z s) : KeepR z (execRegisterWrite a0 a1 a2 a3 s) := by
  unfold execRegisterWrite
  repeat' first | (intro _) | with_reducible exact h | with_reducible assumption | with_reducible apply keepR_next | with_reducible apply keepR_ite | with_reducible apply keep_ite | with_reducible apply keep_elim | with_reducible apply keep_forEach | with_reducible apply keep_foldl | with_reducible apply keep_foldl2 | with_reducible apply keep_writeBar | with_reducible apply keep_tick | dsimp only | split | fail_if_no_progress (refine keep_mk ?_ rfl rfl (by first | rfl | (simp [shape, upd]; done) | (simp [shape, upd]; rfl)))

theorem keep_readBar {z s : State} {a0 a1} (h : Keep z s) : Keep z (readBar a0 a1 s) := by
  unfold readBar
  extract_lets l0
  have kl0 : Keep z (l0).2 := by
    subst l0
    repeat' first | (intro _) | with_reducible exact h | with_reducible assumption | with_reducible apply keep_ite | with_reducible apply keep_elim | with_reducible apply keep_forEach | with_reducible apply keep_foldl | with_reducible apply keep_foldl2 | with_reducible apply keep_readBar0 | with_reducible apply keepE_readBar0 (by with_reducible assumption) | dsimp only | split | fail_if_no_progress (refine keep_mk ?_ rfl rfl (by first | rfl | (simp [shape, upd]; done) | (simp [shape, upd]; rfl)))
  clear_value l0
  repeat' first | (intro _) | with_reducible exact kl0 | with_reducible exact h | with_reducible assumption | with_reducible apply keep_ite | with_reducible apply keep_elim | with_reducible apply keep_forEach | with_reducible apply keep_foldl | with_reducible apply keep_foldl2 | with_reducible apply keep_ucwRead | with_reducible apply keep_emit | dsimp only | split | fail_if_no_progress (refine keep_mk ?_ rfl rfl (by first | rfl | (simp [shape, upd]; done) | (simp [shape, upd]; rfl)))

theorem keep_execPairLoRead {z s : State} {a0 a1 a2} (h : Keep z s) : KeepR z (execPairLoRead a0 a1 a2 s) := by
  unfold execPairLoRead
  repeat' first | (intro _) | with_reducible exact h | with_reducible assumption | with_reducible apply keepR_next | with_reducible apply keepR_ite | with_reducible apply keep_ite | with_reducible apply keep_elim | with_reducible apply keep_forEach | with_reducible apply keep_foldl | with_reducible apply keep_foldl2 | with_reducible apply keep_readBar | with_reducible apply keep_tick | dsimp only | split | fail_if_no_progress (refine keep_mk ?_ rfl rfl (by first | rfl | (simp [shape, upd]; done) | (simp [shape, upd]; rfl)))

end Sys2Proof.Machine
end

