-- ==== Sys2Proof/Laws/State.lean ====
section
/-!
SUPPORT. The updates of State, field by field: each leaves every field but its own (true by rfl), and an update of one part
of a list leaves the others and changes its own.
-/

namespace Sys2Proof.Machine

variable {s : State}

/-! ### modHead -/

@[simp] theorem modHead_now {k : Nat} {f : Head → Head} : (modHead k f s).now = s.now := rfl
@[simp] theorem modHead_power {k : Nat} {f : Head → Head} : (modHead k f s).power = s.power := rfl
@[simp] theorem modHead_startup {k : Nat} {f : Head → Head} : (modHead k f s).startup = s.startup := rfl
@[simp] theorem modHead_host {k : Nat} {f : Head → Head} : (modHead k f s).host = s.host := rfl
@[simp] theorem modHead_ledger {k : Nat} {f : Head → Head} : (modHead k f s).ledger = s.ledger := rfl
@[simp] theorem modHead_time {k : Nat} {f : Head → Head} : (modHead k f s).time = s.time := rfl
@[simp] theorem modHead_ingest {k : Nat} {f : Head → Head} : (modHead k f s).ingest = s.ingest := rfl
@[simp] theorem modHead_adm {k : Nat} {f : Head → Head} : (modHead k f s).adm = s.adm := rfl
@[simp] theorem modHead_ports {k : Nat} {f : Head → Head} : (modHead k f s).ports = s.ports := rfl
@[simp] theorem modHead_gheler {k : Nat} {f : Head → Head} : (modHead k f s).gheler = s.gheler := rfl
@[simp] theorem modHead_hbm {k : Nat} {f : Head → Head} : (modHead k f s).hbm = s.hbm := rfl
@[simp] theorem modHead_training {k : Nat} {f : Head → Head} : (modHead k f s).training = s.training := rfl
@[simp] theorem modHead_ecc {k : Nat} {f : Head → Head} : (modHead k f s).ecc = s.ecc := rfl
@[simp] theorem modHead_thermal {k : Nat} {f : Head → Head} : (modHead k f s).thermal = s.thermal := rfl
@[simp] theorem modHead_catum {k : Nat} {f : Head → Head} : (modHead k f s).catum = s.catum := rfl
@[simp] theorem modHead_groups {k : Nat} {f : Head → Head} : (modHead k f s).groups = s.groups := rfl
@[simp] theorem modHead_fault {k : Nat} {f : Head → Head} : (modHead k f s).fault = s.fault := rfl
@[simp] theorem modHead_wear {k : Nat} {f : Head → Head} : (modHead k f s).wear = s.wear := rfl
@[simp] theorem modHead_meter {k : Nat} {f : Head → Head} : (modHead k f s).meter = s.meter := rfl
@[simp] theorem modHead_vitKey {k : Nat} {f : Head → Head} : (modHead k f s).vitKey = s.vitKey := rfl
@[simp] theorem modHead_regs {k : Nat} {f : Head → Head} : (modHead k f s).regs = s.regs := rfl
@[simp] theorem modHead_free {k : Nat} {f : Head → Head} : (modHead k f s).free = s.free := rfl
@[simp] theorem modHead_out {k : Nat} {f : Head → Head} : (modHead k f s).out = s.out := rfl
@[simp] theorem modHead_pending {k : Nat} {f : Head → Head} : (modHead k f s).pending = s.pending := rfl

/-! ### modPipe -/

@[simp] theorem modPipe_now {k : Nat} {f : Pipe → Pipe} : (modPipe k f s).now = s.now := rfl
@[simp] theorem modPipe_power {k : Nat} {f : Pipe → Pipe} : (modPipe k f s).power = s.power := rfl
@[simp] theorem modPipe_startup {k : Nat} {f : Pipe → Pipe} : (modPipe k f s).startup = s.startup := rfl
@[simp] theorem modPipe_host {k : Nat} {f : Pipe → Pipe} : (modPipe k f s).host = s.host := rfl
@[simp] theorem modPipe_ledger {k : Nat} {f : Pipe → Pipe} : (modPipe k f s).ledger = s.ledger := rfl
@[simp] theorem modPipe_time {k : Nat} {f : Pipe → Pipe} : (modPipe k f s).time = s.time := rfl
@[simp] theorem modPipe_ingest {k : Nat} {f : Pipe → Pipe} : (modPipe k f s).ingest = s.ingest := rfl
@[simp] theorem modPipe_adm {k : Nat} {f : Pipe → Pipe} : (modPipe k f s).adm = s.adm := rfl
@[simp] theorem modPipe_ports {k : Nat} {f : Pipe → Pipe} : (modPipe k f s).ports = s.ports := rfl
@[simp] theorem modPipe_gheler {k : Nat} {f : Pipe → Pipe} : (modPipe k f s).gheler = s.gheler := rfl
@[simp] theorem modPipe_hbm {k : Nat} {f : Pipe → Pipe} : (modPipe k f s).hbm = s.hbm := rfl
@[simp] theorem modPipe_training {k : Nat} {f : Pipe → Pipe} : (modPipe k f s).training = s.training := rfl
@[simp] theorem modPipe_ecc {k : Nat} {f : Pipe → Pipe} : (modPipe k f s).ecc = s.ecc := rfl
@[simp] theorem modPipe_thermal {k : Nat} {f : Pipe → Pipe} : (modPipe k f s).thermal = s.thermal := rfl
@[simp] theorem modPipe_catum {k : Nat} {f : Pipe → Pipe} : (modPipe k f s).catum = s.catum := rfl
@[simp] theorem modPipe_groups {k : Nat} {f : Pipe → Pipe} : (modPipe k f s).groups = s.groups := rfl
@[simp] theorem modPipe_fault {k : Nat} {f : Pipe → Pipe} : (modPipe k f s).fault = s.fault := rfl
@[simp] theorem modPipe_wear {k : Nat} {f : Pipe → Pipe} : (modPipe k f s).wear = s.wear := rfl
@[simp] theorem modPipe_meter {k : Nat} {f : Pipe → Pipe} : (modPipe k f s).meter = s.meter := rfl
@[simp] theorem modPipe_vitKey {k : Nat} {f : Pipe → Pipe} : (modPipe k f s).vitKey = s.vitKey := rfl
@[simp] theorem modPipe_regs {k : Nat} {f : Pipe → Pipe} : (modPipe k f s).regs = s.regs := rfl
@[simp] theorem modPipe_free {k : Nat} {f : Pipe → Pipe} : (modPipe k f s).free = s.free := rfl
@[simp] theorem modPipe_out {k : Nat} {f : Pipe → Pipe} : (modPipe k f s).out = s.out := rfl
@[simp] theorem modPipe_pending {k : Nat} {f : Pipe → Pipe} : (modPipe k f s).pending = s.pending := rfl

/-! ### modPress -/

@[simp] theorem modPress_now {k : Nat} {f : Press → Press} : (modPress k f s).now = s.now := rfl
@[simp] theorem modPress_power {k : Nat} {f : Press → Press} : (modPress k f s).power = s.power := rfl
@[simp] theorem modPress_startup {k : Nat} {f : Press → Press} : (modPress k f s).startup = s.startup := rfl
@[simp] theorem modPress_host {k : Nat} {f : Press → Press} : (modPress k f s).host = s.host := rfl
@[simp] theorem modPress_ledger {k : Nat} {f : Press → Press} : (modPress k f s).ledger = s.ledger := rfl
@[simp] theorem modPress_time {k : Nat} {f : Press → Press} : (modPress k f s).time = s.time := rfl
@[simp] theorem modPress_ingest {k : Nat} {f : Press → Press} : (modPress k f s).ingest = s.ingest := rfl
@[simp] theorem modPress_adm {k : Nat} {f : Press → Press} : (modPress k f s).adm = s.adm := rfl
@[simp] theorem modPress_ports {k : Nat} {f : Press → Press} : (modPress k f s).ports = s.ports := rfl
@[simp] theorem modPress_gheler {k : Nat} {f : Press → Press} : (modPress k f s).gheler = s.gheler := rfl
@[simp] theorem modPress_hbm {k : Nat} {f : Press → Press} : (modPress k f s).hbm = s.hbm := rfl
@[simp] theorem modPress_training {k : Nat} {f : Press → Press} : (modPress k f s).training = s.training := rfl
@[simp] theorem modPress_ecc {k : Nat} {f : Press → Press} : (modPress k f s).ecc = s.ecc := rfl
@[simp] theorem modPress_thermal {k : Nat} {f : Press → Press} : (modPress k f s).thermal = s.thermal := rfl
@[simp] theorem modPress_catum {k : Nat} {f : Press → Press} : (modPress k f s).catum = s.catum := rfl
@[simp] theorem modPress_groups {k : Nat} {f : Press → Press} : (modPress k f s).groups = s.groups := rfl
@[simp] theorem modPress_fault {k : Nat} {f : Press → Press} : (modPress k f s).fault = s.fault := rfl
@[simp] theorem modPress_wear {k : Nat} {f : Press → Press} : (modPress k f s).wear = s.wear := rfl
@[simp] theorem modPress_meter {k : Nat} {f : Press → Press} : (modPress k f s).meter = s.meter := rfl
@[simp] theorem modPress_vitKey {k : Nat} {f : Press → Press} : (modPress k f s).vitKey = s.vitKey := rfl
@[simp] theorem modPress_regs {k : Nat} {f : Press → Press} : (modPress k f s).regs = s.regs := rfl
@[simp] theorem modPress_free {k : Nat} {f : Press → Press} : (modPress k f s).free = s.free := rfl
@[simp] theorem modPress_out {k : Nat} {f : Press → Press} : (modPress k f s).out = s.out := rfl
@[simp] theorem modPress_pending {k : Nat} {f : Press → Press} : (modPress k f s).pending = s.pending := rfl

/-! ### modCave -/

@[simp] theorem modCave_now {k : Nat} {f : Cave → Cave} : (modCave k f s).now = s.now := rfl
@[simp] theorem modCave_power {k : Nat} {f : Cave → Cave} : (modCave k f s).power = s.power := rfl
@[simp] theorem modCave_startup {k : Nat} {f : Cave → Cave} : (modCave k f s).startup = s.startup := rfl
@[simp] theorem modCave_host {k : Nat} {f : Cave → Cave} : (modCave k f s).host = s.host := rfl
@[simp] theorem modCave_ledger {k : Nat} {f : Cave → Cave} : (modCave k f s).ledger = s.ledger := rfl
@[simp] theorem modCave_time {k : Nat} {f : Cave → Cave} : (modCave k f s).time = s.time := rfl
@[simp] theorem modCave_ingest {k : Nat} {f : Cave → Cave} : (modCave k f s).ingest = s.ingest := rfl
@[simp] theorem modCave_adm {k : Nat} {f : Cave → Cave} : (modCave k f s).adm = s.adm := rfl
@[simp] theorem modCave_ports {k : Nat} {f : Cave → Cave} : (modCave k f s).ports = s.ports := rfl
@[simp] theorem modCave_gheler {k : Nat} {f : Cave → Cave} : (modCave k f s).gheler = s.gheler := rfl
@[simp] theorem modCave_hbm {k : Nat} {f : Cave → Cave} : (modCave k f s).hbm = s.hbm := rfl
@[simp] theorem modCave_training {k : Nat} {f : Cave → Cave} : (modCave k f s).training = s.training := rfl
@[simp] theorem modCave_ecc {k : Nat} {f : Cave → Cave} : (modCave k f s).ecc = s.ecc := rfl
@[simp] theorem modCave_thermal {k : Nat} {f : Cave → Cave} : (modCave k f s).thermal = s.thermal := rfl
@[simp] theorem modCave_catum {k : Nat} {f : Cave → Cave} : (modCave k f s).catum = s.catum := rfl
@[simp] theorem modCave_groups {k : Nat} {f : Cave → Cave} : (modCave k f s).groups = s.groups := rfl
@[simp] theorem modCave_fault {k : Nat} {f : Cave → Cave} : (modCave k f s).fault = s.fault := rfl
@[simp] theorem modCave_wear {k : Nat} {f : Cave → Cave} : (modCave k f s).wear = s.wear := rfl
@[simp] theorem modCave_meter {k : Nat} {f : Cave → Cave} : (modCave k f s).meter = s.meter := rfl
@[simp] theorem modCave_vitKey {k : Nat} {f : Cave → Cave} : (modCave k f s).vitKey = s.vitKey := rfl
@[simp] theorem modCave_regs {k : Nat} {f : Cave → Cave} : (modCave k f s).regs = s.regs := rfl
@[simp] theorem modCave_free {k : Nat} {f : Cave → Cave} : (modCave k f s).free = s.free := rfl
@[simp] theorem modCave_out {k : Nat} {f : Cave → Cave} : (modCave k f s).out = s.out := rfl
@[simp] theorem modCave_pending {k : Nat} {f : Cave → Cave} : (modCave k f s).pending = s.pending := rfl

/-! ### modMotion -/

@[simp] theorem modMotion_now {k : Nat} {f : Motion → Motion} : (modMotion k f s).now = s.now := rfl
@[simp] theorem modMotion_power {k : Nat} {f : Motion → Motion} : (modMotion k f s).power = s.power := rfl
@[simp] theorem modMotion_startup {k : Nat} {f : Motion → Motion} : (modMotion k f s).startup = s.startup := rfl
@[simp] theorem modMotion_host {k : Nat} {f : Motion → Motion} : (modMotion k f s).host = s.host := rfl
@[simp] theorem modMotion_ledger {k : Nat} {f : Motion → Motion} : (modMotion k f s).ledger = s.ledger := rfl
@[simp] theorem modMotion_time {k : Nat} {f : Motion → Motion} : (modMotion k f s).time = s.time := rfl
@[simp] theorem modMotion_ingest {k : Nat} {f : Motion → Motion} : (modMotion k f s).ingest = s.ingest := rfl
@[simp] theorem modMotion_adm {k : Nat} {f : Motion → Motion} : (modMotion k f s).adm = s.adm := rfl
@[simp] theorem modMotion_ports {k : Nat} {f : Motion → Motion} : (modMotion k f s).ports = s.ports := rfl
@[simp] theorem modMotion_gheler {k : Nat} {f : Motion → Motion} : (modMotion k f s).gheler = s.gheler := rfl
@[simp] theorem modMotion_hbm {k : Nat} {f : Motion → Motion} : (modMotion k f s).hbm = s.hbm := rfl
@[simp] theorem modMotion_training {k : Nat} {f : Motion → Motion} : (modMotion k f s).training = s.training := rfl
@[simp] theorem modMotion_ecc {k : Nat} {f : Motion → Motion} : (modMotion k f s).ecc = s.ecc := rfl
@[simp] theorem modMotion_thermal {k : Nat} {f : Motion → Motion} : (modMotion k f s).thermal = s.thermal := rfl
@[simp] theorem modMotion_catum {k : Nat} {f : Motion → Motion} : (modMotion k f s).catum = s.catum := rfl
@[simp] theorem modMotion_groups {k : Nat} {f : Motion → Motion} : (modMotion k f s).groups = s.groups := rfl
@[simp] theorem modMotion_fault {k : Nat} {f : Motion → Motion} : (modMotion k f s).fault = s.fault := rfl
@[simp] theorem modMotion_wear {k : Nat} {f : Motion → Motion} : (modMotion k f s).wear = s.wear := rfl
@[simp] theorem modMotion_meter {k : Nat} {f : Motion → Motion} : (modMotion k f s).meter = s.meter := rfl
@[simp] theorem modMotion_vitKey {k : Nat} {f : Motion → Motion} : (modMotion k f s).vitKey = s.vitKey := rfl
@[simp] theorem modMotion_regs {k : Nat} {f : Motion → Motion} : (modMotion k f s).regs = s.regs := rfl
@[simp] theorem modMotion_free {k : Nat} {f : Motion → Motion} : (modMotion k f s).free = s.free := rfl
@[simp] theorem modMotion_out {k : Nat} {f : Motion → Motion} : (modMotion k f s).out = s.out := rfl
@[simp] theorem modMotion_pending {k : Nat} {f : Motion → Motion} : (modMotion k f s).pending = s.pending := rfl

/-! ### modScan -/

@[simp] theorem modScan_now {k : Nat} {f : Scan → Scan} : (modScan k f s).now = s.now := rfl
@[simp] theorem modScan_power {k : Nat} {f : Scan → Scan} : (modScan k f s).power = s.power := rfl
@[simp] theorem modScan_startup {k : Nat} {f : Scan → Scan} : (modScan k f s).startup = s.startup := rfl
@[simp] theorem modScan_host {k : Nat} {f : Scan → Scan} : (modScan k f s).host = s.host := rfl
@[simp] theorem modScan_ledger {k : Nat} {f : Scan → Scan} : (modScan k f s).ledger = s.ledger := rfl
@[simp] theorem modScan_time {k : Nat} {f : Scan → Scan} : (modScan k f s).time = s.time := rfl
@[simp] theorem modScan_ingest {k : Nat} {f : Scan → Scan} : (modScan k f s).ingest = s.ingest := rfl
@[simp] theorem modScan_adm {k : Nat} {f : Scan → Scan} : (modScan k f s).adm = s.adm := rfl
@[simp] theorem modScan_ports {k : Nat} {f : Scan → Scan} : (modScan k f s).ports = s.ports := rfl
@[simp] theorem modScan_gheler {k : Nat} {f : Scan → Scan} : (modScan k f s).gheler = s.gheler := rfl
@[simp] theorem modScan_hbm {k : Nat} {f : Scan → Scan} : (modScan k f s).hbm = s.hbm := rfl
@[simp] theorem modScan_training {k : Nat} {f : Scan → Scan} : (modScan k f s).training = s.training := rfl
@[simp] theorem modScan_ecc {k : Nat} {f : Scan → Scan} : (modScan k f s).ecc = s.ecc := rfl
@[simp] theorem modScan_thermal {k : Nat} {f : Scan → Scan} : (modScan k f s).thermal = s.thermal := rfl
@[simp] theorem modScan_catum {k : Nat} {f : Scan → Scan} : (modScan k f s).catum = s.catum := rfl
@[simp] theorem modScan_groups {k : Nat} {f : Scan → Scan} : (modScan k f s).groups = s.groups := rfl
@[simp] theorem modScan_fault {k : Nat} {f : Scan → Scan} : (modScan k f s).fault = s.fault := rfl
@[simp] theorem modScan_wear {k : Nat} {f : Scan → Scan} : (modScan k f s).wear = s.wear := rfl
@[simp] theorem modScan_meter {k : Nat} {f : Scan → Scan} : (modScan k f s).meter = s.meter := rfl
@[simp] theorem modScan_vitKey {k : Nat} {f : Scan → Scan} : (modScan k f s).vitKey = s.vitKey := rfl
@[simp] theorem modScan_regs {k : Nat} {f : Scan → Scan} : (modScan k f s).regs = s.regs := rfl
@[simp] theorem modScan_free {k : Nat} {f : Scan → Scan} : (modScan k f s).free = s.free := rfl
@[simp] theorem modScan_out {k : Nat} {f : Scan → Scan} : (modScan k f s).out = s.out := rfl
@[simp] theorem modScan_pending {k : Nat} {f : Scan → Scan} : (modScan k f s).pending = s.pending := rfl

/-! ### modVit -/

@[simp] theorem modVit_now {k : Nat} {f : Vitrine → Vitrine} : (modVit k f s).now = s.now := rfl
@[simp] theorem modVit_power {k : Nat} {f : Vitrine → Vitrine} : (modVit k f s).power = s.power := rfl
@[simp] theorem modVit_startup {k : Nat} {f : Vitrine → Vitrine} : (modVit k f s).startup = s.startup := rfl
@[simp] theorem modVit_host {k : Nat} {f : Vitrine → Vitrine} : (modVit k f s).host = s.host := rfl
@[simp] theorem modVit_ledger {k : Nat} {f : Vitrine → Vitrine} : (modVit k f s).ledger = s.ledger := rfl
@[simp] theorem modVit_time {k : Nat} {f : Vitrine → Vitrine} : (modVit k f s).time = s.time := rfl
@[simp] theorem modVit_ingest {k : Nat} {f : Vitrine → Vitrine} : (modVit k f s).ingest = s.ingest := rfl
@[simp] theorem modVit_adm {k : Nat} {f : Vitrine → Vitrine} : (modVit k f s).adm = s.adm := rfl
@[simp] theorem modVit_ports {k : Nat} {f : Vitrine → Vitrine} : (modVit k f s).ports = s.ports := rfl
@[simp] theorem modVit_gheler {k : Nat} {f : Vitrine → Vitrine} : (modVit k f s).gheler = s.gheler := rfl
@[simp] theorem modVit_hbm {k : Nat} {f : Vitrine → Vitrine} : (modVit k f s).hbm = s.hbm := rfl
@[simp] theorem modVit_training {k : Nat} {f : Vitrine → Vitrine} : (modVit k f s).training = s.training := rfl
@[simp] theorem modVit_ecc {k : Nat} {f : Vitrine → Vitrine} : (modVit k f s).ecc = s.ecc := rfl
@[simp] theorem modVit_thermal {k : Nat} {f : Vitrine → Vitrine} : (modVit k f s).thermal = s.thermal := rfl
@[simp] theorem modVit_catum {k : Nat} {f : Vitrine → Vitrine} : (modVit k f s).catum = s.catum := rfl
@[simp] theorem modVit_groups {k : Nat} {f : Vitrine → Vitrine} : (modVit k f s).groups = s.groups := rfl
@[simp] theorem modVit_fault {k : Nat} {f : Vitrine → Vitrine} : (modVit k f s).fault = s.fault := rfl
@[simp] theorem modVit_wear {k : Nat} {f : Vitrine → Vitrine} : (modVit k f s).wear = s.wear := rfl
@[simp] theorem modVit_meter {k : Nat} {f : Vitrine → Vitrine} : (modVit k f s).meter = s.meter := rfl
@[simp] theorem modVit_vitKey {k : Nat} {f : Vitrine → Vitrine} : (modVit k f s).vitKey = s.vitKey := rfl
@[simp] theorem modVit_regs {k : Nat} {f : Vitrine → Vitrine} : (modVit k f s).regs = s.regs := rfl
@[simp] theorem modVit_free {k : Nat} {f : Vitrine → Vitrine} : (modVit k f s).free = s.free := rfl
@[simp] theorem modVit_out {k : Nat} {f : Vitrine → Vitrine} : (modVit k f s).out = s.out := rfl
@[simp] theorem modVit_pending {k : Nat} {f : Vitrine → Vitrine} : (modVit k f s).pending = s.pending := rfl

/-! ### modSolver -/

@[simp] theorem modSolver_now {k : Nat} {f : Solver → Solver} : (modSolver k f s).now = s.now := rfl
@[simp] theorem modSolver_power {k : Nat} {f : Solver → Solver} : (modSolver k f s).power = s.power := rfl
@[simp] theorem modSolver_startup {k : Nat} {f : Solver → Solver} : (modSolver k f s).startup = s.startup := rfl
@[simp] theorem modSolver_host {k : Nat} {f : Solver → Solver} : (modSolver k f s).host = s.host := rfl
@[simp] theorem modSolver_ledger {k : Nat} {f : Solver → Solver} : (modSolver k f s).ledger = s.ledger := rfl
@[simp] theorem modSolver_time {k : Nat} {f : Solver → Solver} : (modSolver k f s).time = s.time := rfl
@[simp] theorem modSolver_ingest {k : Nat} {f : Solver → Solver} : (modSolver k f s).ingest = s.ingest := rfl
@[simp] theorem modSolver_adm {k : Nat} {f : Solver → Solver} : (modSolver k f s).adm = s.adm := rfl
@[simp] theorem modSolver_ports {k : Nat} {f : Solver → Solver} : (modSolver k f s).ports = s.ports := rfl
@[simp] theorem modSolver_gheler {k : Nat} {f : Solver → Solver} : (modSolver k f s).gheler = s.gheler := rfl
@[simp] theorem modSolver_hbm {k : Nat} {f : Solver → Solver} : (modSolver k f s).hbm = s.hbm := rfl
@[simp] theorem modSolver_training {k : Nat} {f : Solver → Solver} : (modSolver k f s).training = s.training := rfl
@[simp] theorem modSolver_ecc {k : Nat} {f : Solver → Solver} : (modSolver k f s).ecc = s.ecc := rfl
@[simp] theorem modSolver_thermal {k : Nat} {f : Solver → Solver} : (modSolver k f s).thermal = s.thermal := rfl
@[simp] theorem modSolver_catum {k : Nat} {f : Solver → Solver} : (modSolver k f s).catum = s.catum := rfl
@[simp] theorem modSolver_groups {k : Nat} {f : Solver → Solver} : (modSolver k f s).groups = s.groups := rfl
@[simp] theorem modSolver_fault {k : Nat} {f : Solver → Solver} : (modSolver k f s).fault = s.fault := rfl
@[simp] theorem modSolver_wear {k : Nat} {f : Solver → Solver} : (modSolver k f s).wear = s.wear := rfl
@[simp] theorem modSolver_meter {k : Nat} {f : Solver → Solver} : (modSolver k f s).meter = s.meter := rfl
@[simp] theorem modSolver_vitKey {k : Nat} {f : Solver → Solver} : (modSolver k f s).vitKey = s.vitKey := rfl
@[simp] theorem modSolver_regs {k : Nat} {f : Solver → Solver} : (modSolver k f s).regs = s.regs := rfl
@[simp] theorem modSolver_free {k : Nat} {f : Solver → Solver} : (modSolver k f s).free = s.free := rfl
@[simp] theorem modSolver_out {k : Nat} {f : Solver → Solver} : (modSolver k f s).out = s.out := rfl
@[simp] theorem modSolver_pending {k : Nat} {f : Solver → Solver} : (modSolver k f s).pending = s.pending := rfl

/-! ### modPort -/

@[simp] theorem modPort_now {p : Nat} {f : Port → Port} : (modPort p f s).now = s.now := rfl
@[simp] theorem modPort_power {p : Nat} {f : Port → Port} : (modPort p f s).power = s.power := rfl
@[simp] theorem modPort_startup {p : Nat} {f : Port → Port} : (modPort p f s).startup = s.startup := rfl
@[simp] theorem modPort_host {p : Nat} {f : Port → Port} : (modPort p f s).host = s.host := rfl
@[simp] theorem modPort_ledger {p : Nat} {f : Port → Port} : (modPort p f s).ledger = s.ledger := rfl
@[simp] theorem modPort_time {p : Nat} {f : Port → Port} : (modPort p f s).time = s.time := rfl
@[simp] theorem modPort_ingest {p : Nat} {f : Port → Port} : (modPort p f s).ingest = s.ingest := rfl
@[simp] theorem modPort_adm {p : Nat} {f : Port → Port} : (modPort p f s).adm = s.adm := rfl
@[simp] theorem modPort_heads {p : Nat} {f : Port → Port} : (modPort p f s).heads = s.heads := rfl
@[simp] theorem modPort_gheler {p : Nat} {f : Port → Port} : (modPort p f s).gheler = s.gheler := rfl
@[simp] theorem modPort_hbm {p : Nat} {f : Port → Port} : (modPort p f s).hbm = s.hbm := rfl
@[simp] theorem modPort_training {p : Nat} {f : Port → Port} : (modPort p f s).training = s.training := rfl
@[simp] theorem modPort_ecc {p : Nat} {f : Port → Port} : (modPort p f s).ecc = s.ecc := rfl
@[simp] theorem modPort_thermal {p : Nat} {f : Port → Port} : (modPort p f s).thermal = s.thermal := rfl
@[simp] theorem modPort_catum {p : Nat} {f : Port → Port} : (modPort p f s).catum = s.catum := rfl
@[simp] theorem modPort_groups {p : Nat} {f : Port → Port} : (modPort p f s).groups = s.groups := rfl
@[simp] theorem modPort_fault {p : Nat} {f : Port → Port} : (modPort p f s).fault = s.fault := rfl
@[simp] theorem modPort_wear {p : Nat} {f : Port → Port} : (modPort p f s).wear = s.wear := rfl
@[simp] theorem modPort_meter {p : Nat} {f : Port → Port} : (modPort p f s).meter = s.meter := rfl
@[simp] theorem modPort_vitKey {p : Nat} {f : Port → Port} : (modPort p f s).vitKey = s.vitKey := rfl
@[simp] theorem modPort_regs {p : Nat} {f : Port → Port} : (modPort p f s).regs = s.regs := rfl
@[simp] theorem modPort_free {p : Nat} {f : Port → Port} : (modPort p f s).free = s.free := rfl
@[simp] theorem modPort_out {p : Nat} {f : Port → Port} : (modPort p f s).out = s.out := rfl
@[simp] theorem modPort_pending {p : Nat} {f : Port → Port} : (modPort p f s).pending = s.pending := rfl

/-! ### modChan -/

@[simp] theorem modChan_now {c : Nat} {f : Chan → Chan} : (modChan c f s).now = s.now := rfl
@[simp] theorem modChan_power {c : Nat} {f : Chan → Chan} : (modChan c f s).power = s.power := rfl
@[simp] theorem modChan_startup {c : Nat} {f : Chan → Chan} : (modChan c f s).startup = s.startup := rfl
@[simp] theorem modChan_host {c : Nat} {f : Chan → Chan} : (modChan c f s).host = s.host := rfl
@[simp] theorem modChan_ledger {c : Nat} {f : Chan → Chan} : (modChan c f s).ledger = s.ledger := rfl
@[simp] theorem modChan_time {c : Nat} {f : Chan → Chan} : (modChan c f s).time = s.time := rfl
@[simp] theorem modChan_ingest {c : Nat} {f : Chan → Chan} : (modChan c f s).ingest = s.ingest := rfl
@[simp] theorem modChan_adm {c : Nat} {f : Chan → Chan} : (modChan c f s).adm = s.adm := rfl
@[simp] theorem modChan_heads {c : Nat} {f : Chan → Chan} : (modChan c f s).heads = s.heads := rfl
@[simp] theorem modChan_ports {c : Nat} {f : Chan → Chan} : (modChan c f s).ports = s.ports := rfl
@[simp] theorem modChan_hbm {c : Nat} {f : Chan → Chan} : (modChan c f s).hbm = s.hbm := rfl
@[simp] theorem modChan_training {c : Nat} {f : Chan → Chan} : (modChan c f s).training = s.training := rfl
@[simp] theorem modChan_ecc {c : Nat} {f : Chan → Chan} : (modChan c f s).ecc = s.ecc := rfl
@[simp] theorem modChan_thermal {c : Nat} {f : Chan → Chan} : (modChan c f s).thermal = s.thermal := rfl
@[simp] theorem modChan_catum {c : Nat} {f : Chan → Chan} : (modChan c f s).catum = s.catum := rfl
@[simp] theorem modChan_groups {c : Nat} {f : Chan → Chan} : (modChan c f s).groups = s.groups := rfl
@[simp] theorem modChan_fault {c : Nat} {f : Chan → Chan} : (modChan c f s).fault = s.fault := rfl
@[simp] theorem modChan_wear {c : Nat} {f : Chan → Chan} : (modChan c f s).wear = s.wear := rfl
@[simp] theorem modChan_meter {c : Nat} {f : Chan → Chan} : (modChan c f s).meter = s.meter := rfl
@[simp] theorem modChan_vitKey {c : Nat} {f : Chan → Chan} : (modChan c f s).vitKey = s.vitKey := rfl
@[simp] theorem modChan_regs {c : Nat} {f : Chan → Chan} : (modChan c f s).regs = s.regs := rfl
@[simp] theorem modChan_free {c : Nat} {f : Chan → Chan} : (modChan c f s).free = s.free := rfl
@[simp] theorem modChan_out {c : Nat} {f : Chan → Chan} : (modChan c f s).out = s.out := rfl
@[simp] theorem modChan_pending {c : Nat} {f : Chan → Chan} : (modChan c f s).pending = s.pending := rfl

/-! ### modSp -/

@[simp] theorem modSp_now {c : Nat} {f : SetPoint → SetPoint} : (modSp c f s).now = s.now := rfl
@[simp] theorem modSp_power {c : Nat} {f : SetPoint → SetPoint} : (modSp c f s).power = s.power := rfl
@[simp] theorem modSp_startup {c : Nat} {f : SetPoint → SetPoint} : (modSp c f s).startup = s.startup := rfl
@[simp] theorem modSp_host {c : Nat} {f : SetPoint → SetPoint} : (modSp c f s).host = s.host := rfl
@[simp] theorem modSp_ledger {c : Nat} {f : SetPoint → SetPoint} : (modSp c f s).ledger = s.ledger := rfl
@[simp] theorem modSp_time {c : Nat} {f : SetPoint → SetPoint} : (modSp c f s).time = s.time := rfl
@[simp] theorem modSp_ingest {c : Nat} {f : SetPoint → SetPoint} : (modSp c f s).ingest = s.ingest := rfl
@[simp] theorem modSp_adm {c : Nat} {f : SetPoint → SetPoint} : (modSp c f s).adm = s.adm := rfl
@[simp] theorem modSp_heads {c : Nat} {f : SetPoint → SetPoint} : (modSp c f s).heads = s.heads := rfl
@[simp] theorem modSp_ports {c : Nat} {f : SetPoint → SetPoint} : (modSp c f s).ports = s.ports := rfl
@[simp] theorem modSp_hbm {c : Nat} {f : SetPoint → SetPoint} : (modSp c f s).hbm = s.hbm := rfl
@[simp] theorem modSp_training {c : Nat} {f : SetPoint → SetPoint} : (modSp c f s).training = s.training := rfl
@[simp] theorem modSp_ecc {c : Nat} {f : SetPoint → SetPoint} : (modSp c f s).ecc = s.ecc := rfl
@[simp] theorem modSp_thermal {c : Nat} {f : SetPoint → SetPoint} : (modSp c f s).thermal = s.thermal := rfl
@[simp] theorem modSp_catum {c : Nat} {f : SetPoint → SetPoint} : (modSp c f s).catum = s.catum := rfl
@[simp] theorem modSp_groups {c : Nat} {f : SetPoint → SetPoint} : (modSp c f s).groups = s.groups := rfl
@[simp] theorem modSp_fault {c : Nat} {f : SetPoint → SetPoint} : (modSp c f s).fault = s.fault := rfl
@[simp] theorem modSp_wear {c : Nat} {f : SetPoint → SetPoint} : (modSp c f s).wear = s.wear := rfl
@[simp] theorem modSp_meter {c : Nat} {f : SetPoint → SetPoint} : (modSp c f s).meter = s.meter := rfl
@[simp] theorem modSp_vitKey {c : Nat} {f : SetPoint → SetPoint} : (modSp c f s).vitKey = s.vitKey := rfl
@[simp] theorem modSp_regs {c : Nat} {f : SetPoint → SetPoint} : (modSp c f s).regs = s.regs := rfl
@[simp] theorem modSp_free {c : Nat} {f : SetPoint → SetPoint} : (modSp c f s).free = s.free := rfl
@[simp] theorem modSp_out {c : Nat} {f : SetPoint → SetPoint} : (modSp c f s).out = s.out := rfl
@[simp] theorem modSp_pending {c : Nat} {f : SetPoint → SetPoint} : (modSp c f s).pending = s.pending := rfl

/-! ### modCat -/

@[simp] theorem modCat_now {p : Nat} {f : CatPort → CatPort} : (modCat p f s).now = s.now := rfl
@[simp] theorem modCat_power {p : Nat} {f : CatPort → CatPort} : (modCat p f s).power = s.power := rfl
@[simp] theorem modCat_startup {p : Nat} {f : CatPort → CatPort} : (modCat p f s).startup = s.startup := rfl
@[simp] theorem modCat_host {p : Nat} {f : CatPort → CatPort} : (modCat p f s).host = s.host := rfl
@[simp] theorem modCat_ledger {p : Nat} {f : CatPort → CatPort} : (modCat p f s).ledger = s.ledger := rfl
@[simp] theorem modCat_time {p : Nat} {f : CatPort → CatPort} : (modCat p f s).time = s.time := rfl
@[simp] theorem modCat_ingest {p : Nat} {f : CatPort → CatPort} : (modCat p f s).ingest = s.ingest := rfl
@[simp] theorem modCat_adm {p : Nat} {f : CatPort → CatPort} : (modCat p f s).adm = s.adm := rfl
@[simp] theorem modCat_heads {p : Nat} {f : CatPort → CatPort} : (modCat p f s).heads = s.heads := rfl
@[simp] theorem modCat_ports {p : Nat} {f : CatPort → CatPort} : (modCat p f s).ports = s.ports := rfl
@[simp] theorem modCat_gheler {p : Nat} {f : CatPort → CatPort} : (modCat p f s).gheler = s.gheler := rfl
@[simp] theorem modCat_hbm {p : Nat} {f : CatPort → CatPort} : (modCat p f s).hbm = s.hbm := rfl
@[simp] theorem modCat_training {p : Nat} {f : CatPort → CatPort} : (modCat p f s).training = s.training := rfl
@[simp] theorem modCat_ecc {p : Nat} {f : CatPort → CatPort} : (modCat p f s).ecc = s.ecc := rfl
@[simp] theorem modCat_thermal {p : Nat} {f : CatPort → CatPort} : (modCat p f s).thermal = s.thermal := rfl
@[simp] theorem modCat_groups {p : Nat} {f : CatPort → CatPort} : (modCat p f s).groups = s.groups := rfl
@[simp] theorem modCat_fault {p : Nat} {f : CatPort → CatPort} : (modCat p f s).fault = s.fault := rfl
@[simp] theorem modCat_wear {p : Nat} {f : CatPort → CatPort} : (modCat p f s).wear = s.wear := rfl
@[simp] theorem modCat_meter {p : Nat} {f : CatPort → CatPort} : (modCat p f s).meter = s.meter := rfl
@[simp] theorem modCat_vitKey {p : Nat} {f : CatPort → CatPort} : (modCat p f s).vitKey = s.vitKey := rfl
@[simp] theorem modCat_regs {p : Nat} {f : CatPort → CatPort} : (modCat p f s).regs = s.regs := rfl
@[simp] theorem modCat_free {p : Nat} {f : CatPort → CatPort} : (modCat p f s).free = s.free := rfl
@[simp] theorem modCat_out {p : Nat} {f : CatPort → CatPort} : (modCat p f s).out = s.out := rfl
@[simp] theorem modCat_pending {p : Nat} {f : CatPort → CatPort} : (modCat p f s).pending = s.pending := rfl

/-! ### modLock -/

@[simp] theorem modLock_now {k : Nat} {f : FrameLock → FrameLock} : (modLock k f s).now = s.now := rfl
@[simp] theorem modLock_power {k : Nat} {f : FrameLock → FrameLock} : (modLock k f s).power = s.power := rfl
@[simp] theorem modLock_startup {k : Nat} {f : FrameLock → FrameLock} : (modLock k f s).startup = s.startup := rfl
@[simp] theorem modLock_host {k : Nat} {f : FrameLock → FrameLock} : (modLock k f s).host = s.host := rfl
@[simp] theorem modLock_ledger {k : Nat} {f : FrameLock → FrameLock} : (modLock k f s).ledger = s.ledger := rfl
@[simp] theorem modLock_time {k : Nat} {f : FrameLock → FrameLock} : (modLock k f s).time = s.time := rfl
@[simp] theorem modLock_ingest {k : Nat} {f : FrameLock → FrameLock} : (modLock k f s).ingest = s.ingest := rfl
@[simp] theorem modLock_adm {k : Nat} {f : FrameLock → FrameLock} : (modLock k f s).adm = s.adm := rfl
@[simp] theorem modLock_heads {k : Nat} {f : FrameLock → FrameLock} : (modLock k f s).heads = s.heads := rfl
@[simp] theorem modLock_ports {k : Nat} {f : FrameLock → FrameLock} : (modLock k f s).ports = s.ports := rfl
@[simp] theorem modLock_gheler {k : Nat} {f : FrameLock → FrameLock} : (modLock k f s).gheler = s.gheler := rfl
@[simp] theorem modLock_hbm {k : Nat} {f : FrameLock → FrameLock} : (modLock k f s).hbm = s.hbm := rfl
@[simp] theorem modLock_training {k : Nat} {f : FrameLock → FrameLock} : (modLock k f s).training = s.training := rfl
@[simp] theorem modLock_ecc {k : Nat} {f : FrameLock → FrameLock} : (modLock k f s).ecc = s.ecc := rfl
@[simp] theorem modLock_thermal {k : Nat} {f : FrameLock → FrameLock} : (modLock k f s).thermal = s.thermal := rfl
@[simp] theorem modLock_groups {k : Nat} {f : FrameLock → FrameLock} : (modLock k f s).groups = s.groups := rfl
@[simp] theorem modLock_fault {k : Nat} {f : FrameLock → FrameLock} : (modLock k f s).fault = s.fault := rfl
@[simp] theorem modLock_wear {k : Nat} {f : FrameLock → FrameLock} : (modLock k f s).wear = s.wear := rfl
@[simp] theorem modLock_meter {k : Nat} {f : FrameLock → FrameLock} : (modLock k f s).meter = s.meter := rfl
@[simp] theorem modLock_vitKey {k : Nat} {f : FrameLock → FrameLock} : (modLock k f s).vitKey = s.vitKey := rfl
@[simp] theorem modLock_regs {k : Nat} {f : FrameLock → FrameLock} : (modLock k f s).regs = s.regs := rfl
@[simp] theorem modLock_free {k : Nat} {f : FrameLock → FrameLock} : (modLock k f s).free = s.free := rfl
@[simp] theorem modLock_out {k : Nat} {f : FrameLock → FrameLock} : (modLock k f s).out = s.out := rfl
@[simp] theorem modLock_pending {k : Nat} {f : FrameLock → FrameLock} : (modLock k f s).pending = s.pending := rfl

/-! ### modSq -/

@[simp] theorem modSq_now {q : Nat} {f : SubRing → SubRing} : (modSq q f s).now = s.now := rfl
@[simp] theorem modSq_power {q : Nat} {f : SubRing → SubRing} : (modSq q f s).power = s.power := rfl
@[simp] theorem modSq_startup {q : Nat} {f : SubRing → SubRing} : (modSq q f s).startup = s.startup := rfl
@[simp] theorem modSq_ledger {q : Nat} {f : SubRing → SubRing} : (modSq q f s).ledger = s.ledger := rfl
@[simp] theorem modSq_time {q : Nat} {f : SubRing → SubRing} : (modSq q f s).time = s.time := rfl
@[simp] theorem modSq_ingest {q : Nat} {f : SubRing → SubRing} : (modSq q f s).ingest = s.ingest := rfl
@[simp] theorem modSq_adm {q : Nat} {f : SubRing → SubRing} : (modSq q f s).adm = s.adm := rfl
@[simp] theorem modSq_heads {q : Nat} {f : SubRing → SubRing} : (modSq q f s).heads = s.heads := rfl
@[simp] theorem modSq_ports {q : Nat} {f : SubRing → SubRing} : (modSq q f s).ports = s.ports := rfl
@[simp] theorem modSq_gheler {q : Nat} {f : SubRing → SubRing} : (modSq q f s).gheler = s.gheler := rfl
@[simp] theorem modSq_hbm {q : Nat} {f : SubRing → SubRing} : (modSq q f s).hbm = s.hbm := rfl
@[simp] theorem modSq_training {q : Nat} {f : SubRing → SubRing} : (modSq q f s).training = s.training := rfl
@[simp] theorem modSq_ecc {q : Nat} {f : SubRing → SubRing} : (modSq q f s).ecc = s.ecc := rfl
@[simp] theorem modSq_thermal {q : Nat} {f : SubRing → SubRing} : (modSq q f s).thermal = s.thermal := rfl
@[simp] theorem modSq_catum {q : Nat} {f : SubRing → SubRing} : (modSq q f s).catum = s.catum := rfl
@[simp] theorem modSq_groups {q : Nat} {f : SubRing → SubRing} : (modSq q f s).groups = s.groups := rfl
@[simp] theorem modSq_fault {q : Nat} {f : SubRing → SubRing} : (modSq q f s).fault = s.fault := rfl
@[simp] theorem modSq_wear {q : Nat} {f : SubRing → SubRing} : (modSq q f s).wear = s.wear := rfl
@[simp] theorem modSq_meter {q : Nat} {f : SubRing → SubRing} : (modSq q f s).meter = s.meter := rfl
@[simp] theorem modSq_vitKey {q : Nat} {f : SubRing → SubRing} : (modSq q f s).vitKey = s.vitKey := rfl
@[simp] theorem modSq_regs {q : Nat} {f : SubRing → SubRing} : (modSq q f s).regs = s.regs := rfl
@[simp] theorem modSq_free {q : Nat} {f : SubRing → SubRing} : (modSq q f s).free = s.free := rfl
@[simp] theorem modSq_out {q : Nat} {f : SubRing → SubRing} : (modSq q f s).out = s.out := rfl
@[simp] theorem modSq_pending {q : Nat} {f : SubRing → SubRing} : (modSq q f s).pending = s.pending := rfl

/-! ### modCq -/

@[simp] theorem modCq_now {c : Nat} {f : CompRing → CompRing} : (modCq c f s).now = s.now := rfl
@[simp] theorem modCq_power {c : Nat} {f : CompRing → CompRing} : (modCq c f s).power = s.power := rfl
@[simp] theorem modCq_startup {c : Nat} {f : CompRing → CompRing} : (modCq c f s).startup = s.startup := rfl
@[simp] theorem modCq_ledger {c : Nat} {f : CompRing → CompRing} : (modCq c f s).ledger = s.ledger := rfl
@[simp] theorem modCq_time {c : Nat} {f : CompRing → CompRing} : (modCq c f s).time = s.time := rfl
@[simp] theorem modCq_ingest {c : Nat} {f : CompRing → CompRing} : (modCq c f s).ingest = s.ingest := rfl
@[simp] theorem modCq_adm {c : Nat} {f : CompRing → CompRing} : (modCq c f s).adm = s.adm := rfl
@[simp] theorem modCq_heads {c : Nat} {f : CompRing → CompRing} : (modCq c f s).heads = s.heads := rfl
@[simp] theorem modCq_ports {c : Nat} {f : CompRing → CompRing} : (modCq c f s).ports = s.ports := rfl
@[simp] theorem modCq_gheler {c : Nat} {f : CompRing → CompRing} : (modCq c f s).gheler = s.gheler := rfl
@[simp] theorem modCq_hbm {c : Nat} {f : CompRing → CompRing} : (modCq c f s).hbm = s.hbm := rfl
@[simp] theorem modCq_training {c : Nat} {f : CompRing → CompRing} : (modCq c f s).training = s.training := rfl
@[simp] theorem modCq_ecc {c : Nat} {f : CompRing → CompRing} : (modCq c f s).ecc = s.ecc := rfl
@[simp] theorem modCq_thermal {c : Nat} {f : CompRing → CompRing} : (modCq c f s).thermal = s.thermal := rfl
@[simp] theorem modCq_catum {c : Nat} {f : CompRing → CompRing} : (modCq c f s).catum = s.catum := rfl
@[simp] theorem modCq_groups {c : Nat} {f : CompRing → CompRing} : (modCq c f s).groups = s.groups := rfl
@[simp] theorem modCq_fault {c : Nat} {f : CompRing → CompRing} : (modCq c f s).fault = s.fault := rfl
@[simp] theorem modCq_wear {c : Nat} {f : CompRing → CompRing} : (modCq c f s).wear = s.wear := rfl
@[simp] theorem modCq_meter {c : Nat} {f : CompRing → CompRing} : (modCq c f s).meter = s.meter := rfl
@[simp] theorem modCq_vitKey {c : Nat} {f : CompRing → CompRing} : (modCq c f s).vitKey = s.vitKey := rfl
@[simp] theorem modCq_regs {c : Nat} {f : CompRing → CompRing} : (modCq c f s).regs = s.regs := rfl
@[simp] theorem modCq_free {c : Nat} {f : CompRing → CompRing} : (modCq c f s).free = s.free := rfl
@[simp] theorem modCq_out {c : Nat} {f : CompRing → CompRing} : (modCq c f s).out = s.out := rfl
@[simp] theorem modCq_pending {c : Nat} {f : CompRing → CompRing} : (modCq c f s).pending = s.pending := rfl

/-! ### setFlow -/

@[simp] theorem setFlow_now {x : Nat} {f : Flow} : (setFlow x f s).now = s.now := rfl
@[simp] theorem setFlow_power {x : Nat} {f : Flow} : (setFlow x f s).power = s.power := rfl
@[simp] theorem setFlow_startup {x : Nat} {f : Flow} : (setFlow x f s).startup = s.startup := rfl
@[simp] theorem setFlow_host {x : Nat} {f : Flow} : (setFlow x f s).host = s.host := rfl
@[simp] theorem setFlow_ledger {x : Nat} {f : Flow} : (setFlow x f s).ledger = s.ledger := rfl
@[simp] theorem setFlow_time {x : Nat} {f : Flow} : (setFlow x f s).time = s.time := rfl
@[simp] theorem setFlow_adm {x : Nat} {f : Flow} : (setFlow x f s).adm = s.adm := rfl
@[simp] theorem setFlow_heads {x : Nat} {f : Flow} : (setFlow x f s).heads = s.heads := rfl
@[simp] theorem setFlow_ports {x : Nat} {f : Flow} : (setFlow x f s).ports = s.ports := rfl
@[simp] theorem setFlow_gheler {x : Nat} {f : Flow} : (setFlow x f s).gheler = s.gheler := rfl
@[simp] theorem setFlow_hbm {x : Nat} {f : Flow} : (setFlow x f s).hbm = s.hbm := rfl
@[simp] theorem setFlow_training {x : Nat} {f : Flow} : (setFlow x f s).training = s.training := rfl
@[simp] theorem setFlow_ecc {x : Nat} {f : Flow} : (setFlow x f s).ecc = s.ecc := rfl
@[simp] theorem setFlow_thermal {x : Nat} {f : Flow} : (setFlow x f s).thermal = s.thermal := rfl
@[simp] theorem setFlow_catum {x : Nat} {f : Flow} : (setFlow x f s).catum = s.catum := rfl
@[simp] theorem setFlow_groups {x : Nat} {f : Flow} : (setFlow x f s).groups = s.groups := rfl
@[simp] theorem setFlow_fault {x : Nat} {f : Flow} : (setFlow x f s).fault = s.fault := rfl
@[simp] theorem setFlow_wear {x : Nat} {f : Flow} : (setFlow x f s).wear = s.wear := rfl
@[simp] theorem setFlow_meter {x : Nat} {f : Flow} : (setFlow x f s).meter = s.meter := rfl
@[simp] theorem setFlow_vitKey {x : Nat} {f : Flow} : (setFlow x f s).vitKey = s.vitKey := rfl
@[simp] theorem setFlow_regs {x : Nat} {f : Flow} : (setFlow x f s).regs = s.regs := rfl
@[simp] theorem setFlow_free {x : Nat} {f : Flow} : (setFlow x f s).free = s.free := rfl
@[simp] theorem setFlow_out {x : Nat} {f : Flow} : (setFlow x f s).out = s.out := rfl
@[simp] theorem setFlow_pending {x : Nat} {f : Flow} : (setFlow x f s).pending = s.pending := rfl

/-! ### setExh -/

@[simp] theorem setExh_now {h : Nat} {e : Exhibit} : (setExh h e s).now = s.now := rfl
@[simp] theorem setExh_power {h : Nat} {e : Exhibit} : (setExh h e s).power = s.power := rfl
@[simp] theorem setExh_startup {h : Nat} {e : Exhibit} : (setExh h e s).startup = s.startup := rfl
@[simp] theorem setExh_host {h : Nat} {e : Exhibit} : (setExh h e s).host = s.host := rfl
@[simp] theorem setExh_ledger {h : Nat} {e : Exhibit} : (setExh h e s).ledger = s.ledger := rfl
@[simp] theorem setExh_time {h : Nat} {e : Exhibit} : (setExh h e s).time = s.time := rfl
@[simp] theorem setExh_ingest {h : Nat} {e : Exhibit} : (setExh h e s).ingest = s.ingest := rfl
@[simp] theorem setExh_heads {h : Nat} {e : Exhibit} : (setExh h e s).heads = s.heads := rfl
@[simp] theorem setExh_ports {h : Nat} {e : Exhibit} : (setExh h e s).ports = s.ports := rfl
@[simp] theorem setExh_gheler {h : Nat} {e : Exhibit} : (setExh h e s).gheler = s.gheler := rfl
@[simp] theorem setExh_hbm {h : Nat} {e : Exhibit} : (setExh h e s).hbm = s.hbm := rfl
@[simp] theorem setExh_training {h : Nat} {e : Exhibit} : (setExh h e s).training = s.training := rfl
@[simp] theorem setExh_ecc {h : Nat} {e : Exhibit} : (setExh h e s).ecc = s.ecc := rfl
@[simp] theorem setExh_thermal {h : Nat} {e : Exhibit} : (setExh h e s).thermal = s.thermal := rfl
@[simp] theorem setExh_catum {h : Nat} {e : Exhibit} : (setExh h e s).catum = s.catum := rfl
@[simp] theorem setExh_groups {h : Nat} {e : Exhibit} : (setExh h e s).groups = s.groups := rfl
@[simp] theorem setExh_fault {h : Nat} {e : Exhibit} : (setExh h e s).fault = s.fault := rfl
@[simp] theorem setExh_wear {h : Nat} {e : Exhibit} : (setExh h e s).wear = s.wear := rfl
@[simp] theorem setExh_meter {h : Nat} {e : Exhibit} : (setExh h e s).meter = s.meter := rfl
@[simp] theorem setExh_vitKey {h : Nat} {e : Exhibit} : (setExh h e s).vitKey = s.vitKey := rfl
@[simp] theorem setExh_regs {h : Nat} {e : Exhibit} : (setExh h e s).regs = s.regs := rfl
@[simp] theorem setExh_free {h : Nat} {e : Exhibit} : (setExh h e s).free = s.free := rfl
@[simp] theorem setExh_out {h : Nat} {e : Exhibit} : (setExh h e s).out = s.out := rfl
@[simp] theorem setExh_pending {h : Nat} {e : Exhibit} : (setExh h e s).pending = s.pending := rfl

/-! ### modHbm -/

@[simp] theorem modHbm_now {f : Hbm → Hbm} : (modHbm f s).now = s.now := rfl
@[simp] theorem modHbm_power {f : Hbm → Hbm} : (modHbm f s).power = s.power := rfl
@[simp] theorem modHbm_startup {f : Hbm → Hbm} : (modHbm f s).startup = s.startup := rfl
@[simp] theorem modHbm_host {f : Hbm → Hbm} : (modHbm f s).host = s.host := rfl
@[simp] theorem modHbm_ledger {f : Hbm → Hbm} : (modHbm f s).ledger = s.ledger := rfl
@[simp] theorem modHbm_time {f : Hbm → Hbm} : (modHbm f s).time = s.time := rfl
@[simp] theorem modHbm_ingest {f : Hbm → Hbm} : (modHbm f s).ingest = s.ingest := rfl
@[simp] theorem modHbm_adm {f : Hbm → Hbm} : (modHbm f s).adm = s.adm := rfl
@[simp] theorem modHbm_heads {f : Hbm → Hbm} : (modHbm f s).heads = s.heads := rfl
@[simp] theorem modHbm_ports {f : Hbm → Hbm} : (modHbm f s).ports = s.ports := rfl
@[simp] theorem modHbm_gheler {f : Hbm → Hbm} : (modHbm f s).gheler = s.gheler := rfl
@[simp] theorem modHbm_training {f : Hbm → Hbm} : (modHbm f s).training = s.training := rfl
@[simp] theorem modHbm_ecc {f : Hbm → Hbm} : (modHbm f s).ecc = s.ecc := rfl
@[simp] theorem modHbm_thermal {f : Hbm → Hbm} : (modHbm f s).thermal = s.thermal := rfl
@[simp] theorem modHbm_catum {f : Hbm → Hbm} : (modHbm f s).catum = s.catum := rfl
@[simp] theorem modHbm_groups {f : Hbm → Hbm} : (modHbm f s).groups = s.groups := rfl
@[simp] theorem modHbm_fault {f : Hbm → Hbm} : (modHbm f s).fault = s.fault := rfl
@[simp] theorem modHbm_wear {f : Hbm → Hbm} : (modHbm f s).wear = s.wear := rfl
@[simp] theorem modHbm_meter {f : Hbm → Hbm} : (modHbm f s).meter = s.meter := rfl
@[simp] theorem modHbm_vitKey {f : Hbm → Hbm} : (modHbm f s).vitKey = s.vitKey := rfl
@[simp] theorem modHbm_regs {f : Hbm → Hbm} : (modHbm f s).regs = s.regs := rfl
@[simp] theorem modHbm_free {f : Hbm → Hbm} : (modHbm f s).free = s.free := rfl
@[simp] theorem modHbm_out {f : Hbm → Hbm} : (modHbm f s).out = s.out := rfl
@[simp] theorem modHbm_pending {f : Hbm → Hbm} : (modHbm f s).pending = s.pending := rfl

/-! ### modTime -/

@[simp] theorem modTime_now {f : Timebase → Timebase} : (modTime f s).now = s.now := rfl
@[simp] theorem modTime_power {f : Timebase → Timebase} : (modTime f s).power = s.power := rfl
@[simp] theorem modTime_startup {f : Timebase → Timebase} : (modTime f s).startup = s.startup := rfl
@[simp] theorem modTime_host {f : Timebase → Timebase} : (modTime f s).host = s.host := rfl
@[simp] theorem modTime_ledger {f : Timebase → Timebase} : (modTime f s).ledger = s.ledger := rfl
@[simp] theorem modTime_ingest {f : Timebase → Timebase} : (modTime f s).ingest = s.ingest := rfl
@[simp] theorem modTime_adm {f : Timebase → Timebase} : (modTime f s).adm = s.adm := rfl
@[simp] theorem modTime_heads {f : Timebase → Timebase} : (modTime f s).heads = s.heads := rfl
@[simp] theorem modTime_ports {f : Timebase → Timebase} : (modTime f s).ports = s.ports := rfl
@[simp] theorem modTime_gheler {f : Timebase → Timebase} : (modTime f s).gheler = s.gheler := rfl
@[simp] theorem modTime_hbm {f : Timebase → Timebase} : (modTime f s).hbm = s.hbm := rfl
@[simp] theorem modTime_training {f : Timebase → Timebase} : (modTime f s).training = s.training := rfl
@[simp] theorem modTime_ecc {f : Timebase → Timebase} : (modTime f s).ecc = s.ecc := rfl
@[simp] theorem modTime_thermal {f : Timebase → Timebase} : (modTime f s).thermal = s.thermal := rfl
@[simp] theorem modTime_catum {f : Timebase → Timebase} : (modTime f s).catum = s.catum := rfl
@[simp] theorem modTime_groups {f : Timebase → Timebase} : (modTime f s).groups = s.groups := rfl
@[simp] theorem modTime_fault {f : Timebase → Timebase} : (modTime f s).fault = s.fault := rfl
@[simp] theorem modTime_wear {f : Timebase → Timebase} : (modTime f s).wear = s.wear := rfl
@[simp] theorem modTime_meter {f : Timebase → Timebase} : (modTime f s).meter = s.meter := rfl
@[simp] theorem modTime_vitKey {f : Timebase → Timebase} : (modTime f s).vitKey = s.vitKey := rfl
@[simp] theorem modTime_regs {f : Timebase → Timebase} : (modTime f s).regs = s.regs := rfl
@[simp] theorem modTime_free {f : Timebase → Timebase} : (modTime f s).free = s.free := rfl
@[simp] theorem modTime_out {f : Timebase → Timebase} : (modTime f s).out = s.out := rfl
@[simp] theorem modTime_pending {f : Timebase → Timebase} : (modTime f s).pending = s.pending := rfl

/-! ### modSensor -/

@[simp] theorem modSensor_now {x : Nat} {f : Sensor → Sensor} : (modSensor x f s).now = s.now := rfl
@[simp] theorem modSensor_power {x : Nat} {f : Sensor → Sensor} : (modSensor x f s).power = s.power := rfl
@[simp] theorem modSensor_startup {x : Nat} {f : Sensor → Sensor} : (modSensor x f s).startup = s.startup := rfl
@[simp] theorem modSensor_host {x : Nat} {f : Sensor → Sensor} : (modSensor x f s).host = s.host := rfl
@[simp] theorem modSensor_ledger {x : Nat} {f : Sensor → Sensor} : (modSensor x f s).ledger = s.ledger := rfl
@[simp] theorem modSensor_time {x : Nat} {f : Sensor → Sensor} : (modSensor x f s).time = s.time := rfl
@[simp] theorem modSensor_ingest {x : Nat} {f : Sensor → Sensor} : (modSensor x f s).ingest = s.ingest := rfl
@[simp] theorem modSensor_adm {x : Nat} {f : Sensor → Sensor} : (modSensor x f s).adm = s.adm := rfl
@[simp] theorem modSensor_heads {x : Nat} {f : Sensor → Sensor} : (modSensor x f s).heads = s.heads := rfl
@[simp] theorem modSensor_ports {x : Nat} {f : Sensor → Sensor} : (modSensor x f s).ports = s.ports := rfl
@[simp] theorem modSensor_gheler {x : Nat} {f : Sensor → Sensor} : (modSensor x f s).gheler = s.gheler := rfl
@[simp] theorem modSensor_hbm {x : Nat} {f : Sensor → Sensor} : (modSensor x f s).hbm = s.hbm := rfl
@[simp] theorem modSensor_training {x : Nat} {f : Sensor → Sensor} : (modSensor x f s).training = s.training := rfl
@[simp] theorem modSensor_ecc {x : Nat} {f : Sensor → Sensor} : (modSensor x f s).ecc = s.ecc := rfl
@[simp] theorem modSensor_catum {x : Nat} {f : Sensor → Sensor} : (modSensor x f s).catum = s.catum := rfl
@[simp] theorem modSensor_groups {x : Nat} {f : Sensor → Sensor} : (modSensor x f s).groups = s.groups := rfl
@[simp] theorem modSensor_fault {x : Nat} {f : Sensor → Sensor} : (modSensor x f s).fault = s.fault := rfl
@[simp] theorem modSensor_wear {x : Nat} {f : Sensor → Sensor} : (modSensor x f s).wear = s.wear := rfl
@[simp] theorem modSensor_meter {x : Nat} {f : Sensor → Sensor} : (modSensor x f s).meter = s.meter := rfl
@[simp] theorem modSensor_vitKey {x : Nat} {f : Sensor → Sensor} : (modSensor x f s).vitKey = s.vitKey := rfl
@[simp] theorem modSensor_regs {x : Nat} {f : Sensor → Sensor} : (modSensor x f s).regs = s.regs := rfl
@[simp] theorem modSensor_free {x : Nat} {f : Sensor → Sensor} : (modSensor x f s).free = s.free := rfl
@[simp] theorem modSensor_out {x : Nat} {f : Sensor → Sensor} : (modSensor x f s).out = s.out := rfl
@[simp] theorem modSensor_pending {x : Nat} {f : Sensor → Sensor} : (modSensor x f s).pending = s.pending := rfl

/-! ### modZone -/

@[simp] theorem modZone_now {z : Nat} {f : Zone → Zone} : (modZone z f s).now = s.now := rfl
@[simp] theorem modZone_power {z : Nat} {f : Zone → Zone} : (modZone z f s).power = s.power := rfl
@[simp] theorem modZone_startup {z : Nat} {f : Zone → Zone} : (modZone z f s).startup = s.startup := rfl
@[simp] theorem modZone_host {z : Nat} {f : Zone → Zone} : (modZone z f s).host = s.host := rfl
@[simp] theorem modZone_ledger {z : Nat} {f : Zone → Zone} : (modZone z f s).ledger = s.ledger := rfl
@[simp] theorem modZone_time {z : Nat} {f : Zone → Zone} : (modZone z f s).time = s.time := rfl
@[simp] theorem modZone_ingest {z : Nat} {f : Zone → Zone} : (modZone z f s).ingest = s.ingest := rfl
@[simp] theorem modZone_adm {z : Nat} {f : Zone → Zone} : (modZone z f s).adm = s.adm := rfl
@[simp] theorem modZone_heads {z : Nat} {f : Zone → Zone} : (modZone z f s).heads = s.heads := rfl
@[simp] theorem modZone_ports {z : Nat} {f : Zone → Zone} : (modZone z f s).ports = s.ports := rfl
@[simp] theorem modZone_gheler {z : Nat} {f : Zone → Zone} : (modZone z f s).gheler = s.gheler := rfl
@[simp] theorem modZone_hbm {z : Nat} {f : Zone → Zone} : (modZone z f s).hbm = s.hbm := rfl
@[simp] theorem modZone_training {z : Nat} {f : Zone → Zone} : (modZone z f s).training = s.training := rfl
@[simp] theorem modZone_ecc {z : Nat} {f : Zone → Zone} : (modZone z f s).ecc = s.ecc := rfl
@[simp] theorem modZone_catum {z : Nat} {f : Zone → Zone} : (modZone z f s).catum = s.catum := rfl
@[simp] theorem modZone_groups {z : Nat} {f : Zone → Zone} : (modZone z f s).groups = s.groups := rfl
@[simp] theorem modZone_fault {z : Nat} {f : Zone → Zone} : (modZone z f s).fault = s.fault := rfl
@[simp] theorem modZone_wear {z : Nat} {f : Zone → Zone} : (modZone z f s).wear = s.wear := rfl
@[simp] theorem modZone_meter {z : Nat} {f : Zone → Zone} : (modZone z f s).meter = s.meter := rfl
@[simp] theorem modZone_vitKey {z : Nat} {f : Zone → Zone} : (modZone z f s).vitKey = s.vitKey := rfl
@[simp] theorem modZone_regs {z : Nat} {f : Zone → Zone} : (modZone z f s).regs = s.regs := rfl
@[simp] theorem modZone_free {z : Nat} {f : Zone → Zone} : (modZone z f s).free = s.free := rfl
@[simp] theorem modZone_out {z : Nat} {f : Zone → Zone} : (modZone z f s).out = s.out := rfl
@[simp] theorem modZone_pending {z : Nat} {f : Zone → Zone} : (modZone z f s).pending = s.pending := rfl

/-! ### setRegion -/

@[simp] theorem setRegion_now {c : RegionCount} : (setRegion c s).now = s.now := rfl
@[simp] theorem setRegion_power {c : RegionCount} : (setRegion c s).power = s.power := rfl
@[simp] theorem setRegion_startup {c : RegionCount} : (setRegion c s).startup = s.startup := rfl
@[simp] theorem setRegion_host {c : RegionCount} : (setRegion c s).host = s.host := rfl
@[simp] theorem setRegion_ledger {c : RegionCount} : (setRegion c s).ledger = s.ledger := rfl
@[simp] theorem setRegion_time {c : RegionCount} : (setRegion c s).time = s.time := rfl
@[simp] theorem setRegion_ingest {c : RegionCount} : (setRegion c s).ingest = s.ingest := rfl
@[simp] theorem setRegion_adm {c : RegionCount} : (setRegion c s).adm = s.adm := rfl
@[simp] theorem setRegion_heads {c : RegionCount} : (setRegion c s).heads = s.heads := rfl
@[simp] theorem setRegion_ports {c : RegionCount} : (setRegion c s).ports = s.ports := rfl
@[simp] theorem setRegion_gheler {c : RegionCount} : (setRegion c s).gheler = s.gheler := rfl
@[simp] theorem setRegion_hbm {c : RegionCount} : (setRegion c s).hbm = s.hbm := rfl
@[simp] theorem setRegion_training {c : RegionCount} : (setRegion c s).training = s.training := rfl
@[simp] theorem setRegion_thermal {c : RegionCount} : (setRegion c s).thermal = s.thermal := rfl
@[simp] theorem setRegion_catum {c : RegionCount} : (setRegion c s).catum = s.catum := rfl
@[simp] theorem setRegion_groups {c : RegionCount} : (setRegion c s).groups = s.groups := rfl
@[simp] theorem setRegion_fault {c : RegionCount} : (setRegion c s).fault = s.fault := rfl
@[simp] theorem setRegion_wear {c : RegionCount} : (setRegion c s).wear = s.wear := rfl
@[simp] theorem setRegion_meter {c : RegionCount} : (setRegion c s).meter = s.meter := rfl
@[simp] theorem setRegion_vitKey {c : RegionCount} : (setRegion c s).vitKey = s.vitKey := rfl
@[simp] theorem setRegion_regs {c : RegionCount} : (setRegion c s).regs = s.regs := rfl
@[simp] theorem setRegion_free {c : RegionCount} : (setRegion c s).free = s.free := rfl
@[simp] theorem setRegion_out {c : RegionCount} : (setRegion c s).out = s.out := rfl
@[simp] theorem setRegion_pending {c : RegionCount} : (setRegion c s).pending = s.pending := rfl

/-! ### setRaw -/

@[simp] theorem setRaw_now {k : Nat} {v : Word} : (setRaw k v s).now = s.now := rfl
@[simp] theorem setRaw_power {k : Nat} {v : Word} : (setRaw k v s).power = s.power := rfl
@[simp] theorem setRaw_startup {k : Nat} {v : Word} : (setRaw k v s).startup = s.startup := rfl
@[simp] theorem setRaw_host {k : Nat} {v : Word} : (setRaw k v s).host = s.host := rfl
@[simp] theorem setRaw_ledger {k : Nat} {v : Word} : (setRaw k v s).ledger = s.ledger := rfl
@[simp] theorem setRaw_time {k : Nat} {v : Word} : (setRaw k v s).time = s.time := rfl
@[simp] theorem setRaw_ingest {k : Nat} {v : Word} : (setRaw k v s).ingest = s.ingest := rfl
@[simp] theorem setRaw_adm {k : Nat} {v : Word} : (setRaw k v s).adm = s.adm := rfl
@[simp] theorem setRaw_heads {k : Nat} {v : Word} : (setRaw k v s).heads = s.heads := rfl
@[simp] theorem setRaw_ports {k : Nat} {v : Word} : (setRaw k v s).ports = s.ports := rfl
@[simp] theorem setRaw_gheler {k : Nat} {v : Word} : (setRaw k v s).gheler = s.gheler := rfl
@[simp] theorem setRaw_hbm {k : Nat} {v : Word} : (setRaw k v s).hbm = s.hbm := rfl
@[simp] theorem setRaw_training {k : Nat} {v : Word} : (setRaw k v s).training = s.training := rfl
@[simp] theorem setRaw_ecc {k : Nat} {v : Word} : (setRaw k v s).ecc = s.ecc := rfl
@[simp] theorem setRaw_thermal {k : Nat} {v : Word} : (setRaw k v s).thermal = s.thermal := rfl
@[simp] theorem setRaw_catum {k : Nat} {v : Word} : (setRaw k v s).catum = s.catum := rfl
@[simp] theorem setRaw_groups {k : Nat} {v : Word} : (setRaw k v s).groups = s.groups := rfl
@[simp] theorem setRaw_fault {k : Nat} {v : Word} : (setRaw k v s).fault = s.fault := rfl
@[simp] theorem setRaw_wear {k : Nat} {v : Word} : (setRaw k v s).wear = s.wear := rfl
@[simp] theorem setRaw_meter {k : Nat} {v : Word} : (setRaw k v s).meter = s.meter := rfl
@[simp] theorem setRaw_vitKey {k : Nat} {v : Word} : (setRaw k v s).vitKey = s.vitKey := rfl
@[simp] theorem setRaw_free {k : Nat} {v : Word} : (setRaw k v s).free = s.free := rfl
@[simp] theorem setRaw_out {k : Nat} {v : Word} : (setRaw k v s).out = s.out := rfl
@[simp] theorem setRaw_pending {k : Nat} {v : Word} : (setRaw k v s).pending = s.pending := rfl

/-! ### emit -/

@[simp] theorem emit_now {o : Out} : (emit o s).now = s.now := rfl
@[simp] theorem emit_power {o : Out} : (emit o s).power = s.power := rfl
@[simp] theorem emit_startup {o : Out} : (emit o s).startup = s.startup := rfl
@[simp] theorem emit_host {o : Out} : (emit o s).host = s.host := rfl
@[simp] theorem emit_ledger {o : Out} : (emit o s).ledger = s.ledger := rfl
@[simp] theorem emit_time {o : Out} : (emit o s).time = s.time := rfl
@[simp] theorem emit_ingest {o : Out} : (emit o s).ingest = s.ingest := rfl
@[simp] theorem emit_adm {o : Out} : (emit o s).adm = s.adm := rfl
@[simp] theorem emit_heads {o : Out} : (emit o s).heads = s.heads := rfl
@[simp] theorem emit_ports {o : Out} : (emit o s).ports = s.ports := rfl
@[simp] theorem emit_gheler {o : Out} : (emit o s).gheler = s.gheler := rfl
@[simp] theorem emit_hbm {o : Out} : (emit o s).hbm = s.hbm := rfl
@[simp] theorem emit_training {o : Out} : (emit o s).training = s.training := rfl
@[simp] theorem emit_ecc {o : Out} : (emit o s).ecc = s.ecc := rfl
@[simp] theorem emit_thermal {o : Out} : (emit o s).thermal = s.thermal := rfl
@[simp] theorem emit_catum {o : Out} : (emit o s).catum = s.catum := rfl
@[simp] theorem emit_groups {o : Out} : (emit o s).groups = s.groups := rfl
@[simp] theorem emit_fault {o : Out} : (emit o s).fault = s.fault := rfl
@[simp] theorem emit_wear {o : Out} : (emit o s).wear = s.wear := rfl
@[simp] theorem emit_meter {o : Out} : (emit o s).meter = s.meter := rfl
@[simp] theorem emit_vitKey {o : Out} : (emit o s).vitKey = s.vitKey := rfl
@[simp] theorem emit_regs {o : Out} : (emit o s).regs = s.regs := rfl
@[simp] theorem emit_free {o : Out} : (emit o s).free = s.free := rfl
@[simp] theorem emit_pending {o : Out} : (emit o s).pending = s.pending := rfl

/-! ### tick -/

@[simp] theorem tick_power {dt : Nat} : (tick dt s).power = s.power := rfl
@[simp] theorem tick_startup {dt : Nat} : (tick dt s).startup = s.startup := rfl
@[simp] theorem tick_host {dt : Nat} : (tick dt s).host = s.host := rfl
@[simp] theorem tick_ledger {dt : Nat} : (tick dt s).ledger = s.ledger := rfl
@[simp] theorem tick_ingest {dt : Nat} : (tick dt s).ingest = s.ingest := rfl
@[simp] theorem tick_adm {dt : Nat} : (tick dt s).adm = s.adm := rfl
@[simp] theorem tick_heads {dt : Nat} : (tick dt s).heads = s.heads := rfl
@[simp] theorem tick_ports {dt : Nat} : (tick dt s).ports = s.ports := rfl
@[simp] theorem tick_gheler {dt : Nat} : (tick dt s).gheler = s.gheler := rfl
@[simp] theorem tick_hbm {dt : Nat} : (tick dt s).hbm = s.hbm := rfl
@[simp] theorem tick_training {dt : Nat} : (tick dt s).training = s.training := rfl
@[simp] theorem tick_ecc {dt : Nat} : (tick dt s).ecc = s.ecc := rfl
@[simp] theorem tick_thermal {dt : Nat} : (tick dt s).thermal = s.thermal := rfl
@[simp] theorem tick_catum {dt : Nat} : (tick dt s).catum = s.catum := rfl
@[simp] theorem tick_groups {dt : Nat} : (tick dt s).groups = s.groups := rfl
@[simp] theorem tick_fault {dt : Nat} : (tick dt s).fault = s.fault := rfl
@[simp] theorem tick_wear {dt : Nat} : (tick dt s).wear = s.wear := rfl
@[simp] theorem tick_vitKey {dt : Nat} : (tick dt s).vitKey = s.vitKey := rfl
@[simp] theorem tick_regs {dt : Nat} : (tick dt s).regs = s.regs := rfl
@[simp] theorem tick_free {dt : Nat} : (tick dt s).free = s.free := rfl
@[simp] theorem tick_out {dt : Nat} : (tick dt s).out = s.out := rfl
@[simp] theorem tick_pending {dt : Nat} : (tick dt s).pending = s.pending := rfl

/-! ### dropFront -/

@[simp] theorem dropFront_now {q : Nat} : (dropFront q s).now = s.now := rfl
@[simp] theorem dropFront_power {q : Nat} : (dropFront q s).power = s.power := rfl
@[simp] theorem dropFront_startup {q : Nat} : (dropFront q s).startup = s.startup := rfl
@[simp] theorem dropFront_ledger {q : Nat} : (dropFront q s).ledger = s.ledger := rfl
@[simp] theorem dropFront_time {q : Nat} : (dropFront q s).time = s.time := rfl
@[simp] theorem dropFront_ingest {q : Nat} : (dropFront q s).ingest = s.ingest := rfl
@[simp] theorem dropFront_adm {q : Nat} : (dropFront q s).adm = s.adm := rfl
@[simp] theorem dropFront_heads {q : Nat} : (dropFront q s).heads = s.heads := rfl
@[simp] theorem dropFront_ports {q : Nat} : (dropFront q s).ports = s.ports := rfl
@[simp] theorem dropFront_gheler {q : Nat} : (dropFront q s).gheler = s.gheler := rfl
@[simp] theorem dropFront_hbm {q : Nat} : (dropFront q s).hbm = s.hbm := rfl
@[simp] theorem dropFront_training {q : Nat} : (dropFront q s).training = s.training := rfl
@[simp] theorem dropFront_ecc {q : Nat} : (dropFront q s).ecc = s.ecc := rfl
@[simp] theorem dropFront_thermal {q : Nat} : (dropFront q s).thermal = s.thermal := rfl
@[simp] theorem dropFront_catum {q : Nat} : (dropFront q s).catum = s.catum := rfl
@[simp] theorem dropFront_groups {q : Nat} : (dropFront q s).groups = s.groups := rfl
@[simp] theorem dropFront_fault {q : Nat} : (dropFront q s).fault = s.fault := rfl
@[simp] theorem dropFront_wear {q : Nat} : (dropFront q s).wear = s.wear := rfl
@[simp] theorem dropFront_meter {q : Nat} : (dropFront q s).meter = s.meter := rfl
@[simp] theorem dropFront_vitKey {q : Nat} : (dropFront q s).vitKey = s.vitKey := rfl
@[simp] theorem dropFront_regs {q : Nat} : (dropFront q s).regs = s.regs := rfl
@[simp] theorem dropFront_free {q : Nat} : (dropFront q s).free = s.free := rfl
@[simp] theorem dropFront_out {q : Nat} : (dropFront q s).out = s.out := rfl
@[simp] theorem dropFront_pending {q : Nat} : (dropFront q s).pending = s.pending := rfl

/-! ### modEth -/

@[simp] theorem modEth_now {k : Nat} {g : EthPort → EthPort} : (modEth k g s).now = s.now := rfl
@[simp] theorem modEth_power {k : Nat} {g : EthPort → EthPort} : (modEth k g s).power = s.power := rfl
@[simp] theorem modEth_startup {k : Nat} {g : EthPort → EthPort} : (modEth k g s).startup = s.startup := rfl
@[simp] theorem modEth_host {k : Nat} {g : EthPort → EthPort} : (modEth k g s).host = s.host := rfl
@[simp] theorem modEth_ledger {k : Nat} {g : EthPort → EthPort} : (modEth k g s).ledger = s.ledger := rfl
@[simp] theorem modEth_time {k : Nat} {g : EthPort → EthPort} : (modEth k g s).time = s.time := rfl
@[simp] theorem modEth_adm {k : Nat} {g : EthPort → EthPort} : (modEth k g s).adm = s.adm := rfl
@[simp] theorem modEth_heads {k : Nat} {g : EthPort → EthPort} : (modEth k g s).heads = s.heads := rfl
@[simp] theorem modEth_ports {k : Nat} {g : EthPort → EthPort} : (modEth k g s).ports = s.ports := rfl
@[simp] theorem modEth_gheler {k : Nat} {g : EthPort → EthPort} : (modEth k g s).gheler = s.gheler := rfl
@[simp] theorem modEth_hbm {k : Nat} {g : EthPort → EthPort} : (modEth k g s).hbm = s.hbm := rfl
@[simp] theorem modEth_training {k : Nat} {g : EthPort → EthPort} : (modEth k g s).training = s.training := rfl
@[simp] theorem modEth_ecc {k : Nat} {g : EthPort → EthPort} : (modEth k g s).ecc = s.ecc := rfl
@[simp] theorem modEth_thermal {k : Nat} {g : EthPort → EthPort} : (modEth k g s).thermal = s.thermal := rfl
@[simp] theorem modEth_catum {k : Nat} {g : EthPort → EthPort} : (modEth k g s).catum = s.catum := rfl
@[simp] theorem modEth_groups {k : Nat} {g : EthPort → EthPort} : (modEth k g s).groups = s.groups := rfl
@[simp] theorem modEth_fault {k : Nat} {g : EthPort → EthPort} : (modEth k g s).fault = s.fault := rfl
@[simp] theorem modEth_wear {k : Nat} {g : EthPort → EthPort} : (modEth k g s).wear = s.wear := rfl
@[simp] theorem modEth_meter {k : Nat} {g : EthPort → EthPort} : (modEth k g s).meter = s.meter := rfl
@[simp] theorem modEth_vitKey {k : Nat} {g : EthPort → EthPort} : (modEth k g s).vitKey = s.vitKey := rfl
@[simp] theorem modEth_regs {k : Nat} {g : EthPort → EthPort} : (modEth k g s).regs = s.regs := rfl
@[simp] theorem modEth_free {k : Nat} {g : EthPort → EthPort} : (modEth k g s).free = s.free := rfl
@[simp] theorem modEth_out {k : Nat} {g : EthPort → EthPort} : (modEth k g s).out = s.out := rfl
@[simp] theorem modEth_pending {k : Nat} {g : EthPort → EthPort} : (modEth k g s).pending = s.pending := rfl

/-! ### modDp -/

@[simp] theorem modDp_now {k : Nat} {g : DpSink → DpSink} : (modDp k g s).now = s.now := rfl
@[simp] theorem modDp_power {k : Nat} {g : DpSink → DpSink} : (modDp k g s).power = s.power := rfl
@[simp] theorem modDp_startup {k : Nat} {g : DpSink → DpSink} : (modDp k g s).startup = s.startup := rfl
@[simp] theorem modDp_host {k : Nat} {g : DpSink → DpSink} : (modDp k g s).host = s.host := rfl
@[simp] theorem modDp_ledger {k : Nat} {g : DpSink → DpSink} : (modDp k g s).ledger = s.ledger := rfl
@[simp] theorem modDp_time {k : Nat} {g : DpSink → DpSink} : (modDp k g s).time = s.time := rfl
@[simp] theorem modDp_adm {k : Nat} {g : DpSink → DpSink} : (modDp k g s).adm = s.adm := rfl
@[simp] theorem modDp_heads {k : Nat} {g : DpSink → DpSink} : (modDp k g s).heads = s.heads := rfl
@[simp] theorem modDp_ports {k : Nat} {g : DpSink → DpSink} : (modDp k g s).ports = s.ports := rfl
@[simp] theorem modDp_gheler {k : Nat} {g : DpSink → DpSink} : (modDp k g s).gheler = s.gheler := rfl
@[simp] theorem modDp_hbm {k : Nat} {g : DpSink → DpSink} : (modDp k g s).hbm = s.hbm := rfl
@[simp] theorem modDp_training {k : Nat} {g : DpSink → DpSink} : (modDp k g s).training = s.training := rfl
@[simp] theorem modDp_ecc {k : Nat} {g : DpSink → DpSink} : (modDp k g s).ecc = s.ecc := rfl
@[simp] theorem modDp_thermal {k : Nat} {g : DpSink → DpSink} : (modDp k g s).thermal = s.thermal := rfl
@[simp] theorem modDp_catum {k : Nat} {g : DpSink → DpSink} : (modDp k g s).catum = s.catum := rfl
@[simp] theorem modDp_groups {k : Nat} {g : DpSink → DpSink} : (modDp k g s).groups = s.groups := rfl
@[simp] theorem modDp_fault {k : Nat} {g : DpSink → DpSink} : (modDp k g s).fault = s.fault := rfl
@[simp] theorem modDp_wear {k : Nat} {g : DpSink → DpSink} : (modDp k g s).wear = s.wear := rfl
@[simp] theorem modDp_meter {k : Nat} {g : DpSink → DpSink} : (modDp k g s).meter = s.meter := rfl
@[simp] theorem modDp_vitKey {k : Nat} {g : DpSink → DpSink} : (modDp k g s).vitKey = s.vitKey := rfl
@[simp] theorem modDp_regs {k : Nat} {g : DpSink → DpSink} : (modDp k g s).regs = s.regs := rfl
@[simp] theorem modDp_free {k : Nat} {g : DpSink → DpSink} : (modDp k g s).free = s.free := rfl
@[simp] theorem modDp_out {k : Nat} {g : DpSink → DpSink} : (modDp k g s).out = s.out := rfl
@[simp] theorem modDp_pending {k : Nat} {g : DpSink → DpSink} : (modDp k g s).pending = s.pending := rfl

/-! ### storeRaw -/

@[simp] theorem storeRaw_now {a : Nat} {b : List Byte} : (storeRaw a b s).now = s.now := rfl
@[simp] theorem storeRaw_power {a : Nat} {b : List Byte} : (storeRaw a b s).power = s.power := rfl
@[simp] theorem storeRaw_startup {a : Nat} {b : List Byte} : (storeRaw a b s).startup = s.startup := rfl
@[simp] theorem storeRaw_host {a : Nat} {b : List Byte} : (storeRaw a b s).host = s.host := rfl
@[simp] theorem storeRaw_ledger {a : Nat} {b : List Byte} : (storeRaw a b s).ledger = s.ledger := rfl
@[simp] theorem storeRaw_time {a : Nat} {b : List Byte} : (storeRaw a b s).time = s.time := rfl
@[simp] theorem storeRaw_ingest {a : Nat} {b : List Byte} : (storeRaw a b s).ingest = s.ingest := rfl
@[simp] theorem storeRaw_adm {a : Nat} {b : List Byte} : (storeRaw a b s).adm = s.adm := rfl
@[simp] theorem storeRaw_heads {a : Nat} {b : List Byte} : (storeRaw a b s).heads = s.heads := rfl
@[simp] theorem storeRaw_ports {a : Nat} {b : List Byte} : (storeRaw a b s).ports = s.ports := rfl
@[simp] theorem storeRaw_gheler {a : Nat} {b : List Byte} : (storeRaw a b s).gheler = s.gheler := rfl
@[simp] theorem storeRaw_training {a : Nat} {b : List Byte} : (storeRaw a b s).training = s.training := rfl
@[simp] theorem storeRaw_ecc {a : Nat} {b : List Byte} : (storeRaw a b s).ecc = s.ecc := rfl
@[simp] theorem storeRaw_thermal {a : Nat} {b : List Byte} : (storeRaw a b s).thermal = s.thermal := rfl
@[simp] theorem storeRaw_catum {a : Nat} {b : List Byte} : (storeRaw a b s).catum = s.catum := rfl
@[simp] theorem storeRaw_groups {a : Nat} {b : List Byte} : (storeRaw a b s).groups = s.groups := rfl
@[simp] theorem storeRaw_fault {a : Nat} {b : List Byte} : (storeRaw a b s).fault = s.fault := rfl
@[simp] theorem storeRaw_wear {a : Nat} {b : List Byte} : (storeRaw a b s).wear = s.wear := rfl
@[simp] theorem storeRaw_meter {a : Nat} {b : List Byte} : (storeRaw a b s).meter = s.meter := rfl
@[simp] theorem storeRaw_vitKey {a : Nat} {b : List Byte} : (storeRaw a b s).vitKey = s.vitKey := rfl
@[simp] theorem storeRaw_regs {a : Nat} {b : List Byte} : (storeRaw a b s).regs = s.regs := rfl
@[simp] theorem storeRaw_free {a : Nat} {b : List Byte} : (storeRaw a b s).free = s.free := rfl
@[simp] theorem storeRaw_out {a : Nat} {b : List Byte} : (storeRaw a b s).out = s.out := rfl
@[simp] theorem storeRaw_pending {a : Nat} {b : List Byte} : (storeRaw a b s).pending = s.pending := rfl

/-! ### storeOdd -/

@[simp] theorem storeOdd_now {a : Nat} {b : Byte} : (storeOdd a b s).now = s.now := rfl
@[simp] theorem storeOdd_power {a : Nat} {b : Byte} : (storeOdd a b s).power = s.power := rfl
@[simp] theorem storeOdd_startup {a : Nat} {b : Byte} : (storeOdd a b s).startup = s.startup := rfl
@[simp] theorem storeOdd_host {a : Nat} {b : Byte} : (storeOdd a b s).host = s.host := rfl
@[simp] theorem storeOdd_ledger {a : Nat} {b : Byte} : (storeOdd a b s).ledger = s.ledger := rfl
@[simp] theorem storeOdd_time {a : Nat} {b : Byte} : (storeOdd a b s).time = s.time := rfl
@[simp] theorem storeOdd_ingest {a : Nat} {b : Byte} : (storeOdd a b s).ingest = s.ingest := rfl
@[simp] theorem storeOdd_adm {a : Nat} {b : Byte} : (storeOdd a b s).adm = s.adm := rfl
@[simp] theorem storeOdd_heads {a : Nat} {b : Byte} : (storeOdd a b s).heads = s.heads := rfl
@[simp] theorem storeOdd_ports {a : Nat} {b : Byte} : (storeOdd a b s).ports = s.ports := rfl
@[simp] theorem storeOdd_gheler {a : Nat} {b : Byte} : (storeOdd a b s).gheler = s.gheler := rfl
@[simp] theorem storeOdd_training {a : Nat} {b : Byte} : (storeOdd a b s).training = s.training := rfl
@[simp] theorem storeOdd_ecc {a : Nat} {b : Byte} : (storeOdd a b s).ecc = s.ecc := rfl
@[simp] theorem storeOdd_thermal {a : Nat} {b : Byte} : (storeOdd a b s).thermal = s.thermal := rfl
@[simp] theorem storeOdd_catum {a : Nat} {b : Byte} : (storeOdd a b s).catum = s.catum := rfl
@[simp] theorem storeOdd_groups {a : Nat} {b : Byte} : (storeOdd a b s).groups = s.groups := rfl
@[simp] theorem storeOdd_fault {a : Nat} {b : Byte} : (storeOdd a b s).fault = s.fault := rfl
@[simp] theorem storeOdd_wear {a : Nat} {b : Byte} : (storeOdd a b s).wear = s.wear := rfl
@[simp] theorem storeOdd_meter {a : Nat} {b : Byte} : (storeOdd a b s).meter = s.meter := rfl
@[simp] theorem storeOdd_vitKey {a : Nat} {b : Byte} : (storeOdd a b s).vitKey = s.vitKey := rfl
@[simp] theorem storeOdd_regs {a : Nat} {b : Byte} : (storeOdd a b s).regs = s.regs := rfl
@[simp] theorem storeOdd_free {a : Nat} {b : Byte} : (storeOdd a b s).free = s.free := rfl
@[simp] theorem storeOdd_out {a : Nat} {b : Byte} : (storeOdd a b s).out = s.out := rfl
@[simp] theorem storeOdd_pending {a : Nat} {b : Byte} : (storeOdd a b s).pending = s.pending := rfl

/-! ### markFirst -/

@[simp] theorem markFirst_now {q : Nat} : (markFirst q s).now = s.now := rfl
@[simp] theorem markFirst_power {q : Nat} : (markFirst q s).power = s.power := rfl
@[simp] theorem markFirst_startup {q : Nat} : (markFirst q s).startup = s.startup := rfl
@[simp] theorem markFirst_ledger {q : Nat} : (markFirst q s).ledger = s.ledger := rfl
@[simp] theorem markFirst_time {q : Nat} : (markFirst q s).time = s.time := rfl
@[simp] theorem markFirst_ingest {q : Nat} : (markFirst q s).ingest = s.ingest := rfl
@[simp] theorem markFirst_adm {q : Nat} : (markFirst q s).adm = s.adm := rfl
@[simp] theorem markFirst_heads {q : Nat} : (markFirst q s).heads = s.heads := rfl
@[simp] theorem markFirst_ports {q : Nat} : (markFirst q s).ports = s.ports := rfl
@[simp] theorem markFirst_gheler {q : Nat} : (markFirst q s).gheler = s.gheler := rfl
@[simp] theorem markFirst_hbm {q : Nat} : (markFirst q s).hbm = s.hbm := rfl
@[simp] theorem markFirst_training {q : Nat} : (markFirst q s).training = s.training := rfl
@[simp] theorem markFirst_ecc {q : Nat} : (markFirst q s).ecc = s.ecc := rfl
@[simp] theorem markFirst_thermal {q : Nat} : (markFirst q s).thermal = s.thermal := rfl
@[simp] theorem markFirst_catum {q : Nat} : (markFirst q s).catum = s.catum := rfl
@[simp] theorem markFirst_groups {q : Nat} : (markFirst q s).groups = s.groups := rfl
@[simp] theorem markFirst_fault {q : Nat} : (markFirst q s).fault = s.fault := rfl
@[simp] theorem markFirst_wear {q : Nat} : (markFirst q s).wear = s.wear := rfl
@[simp] theorem markFirst_meter {q : Nat} : (markFirst q s).meter = s.meter := rfl
@[simp] theorem markFirst_vitKey {q : Nat} : (markFirst q s).vitKey = s.vitKey := rfl
@[simp] theorem markFirst_regs {q : Nat} : (markFirst q s).regs = s.regs := rfl
@[simp] theorem markFirst_free {q : Nat} : (markFirst q s).free = s.free := rfl
@[simp] theorem markFirst_out {q : Nat} : (markFirst q s).out = s.out := rfl
@[simp] theorem markFirst_pending {q : Nat} : (markFirst q s).pending = s.pending := rfl

/-- Time passes by `dt` while the fast clocks run, modulo 2^64 (R8). -/
theorem tick_now_fast {dt : Nat} (h : s.power.fastClocks = true) : (tick dt s).now = (s.now + dt) % 2 ^ 64 := by
  simp [tick, h]
theorem tick_time_fast {dt : Nat} (h : s.power.fastClocks = true) : (tick dt s).time = s.time := by
  simp [tick, h]
@[simp] theorem emit_out {o : Out} : (emit o s).out = o :: s.out := rfl
@[simp] theorem modHbm_hbm {f : Hbm → Hbm} : (modHbm f s).hbm = f s.hbm := rfl
@[simp] theorem modTime_time {f : Timebase → Timebase} : (modTime f s).time = f s.time := rfl

/-! ### Parts of a list -/

/-- An update leaves the length. -/
@[simp] theorem upd_length {α : Type} {l : List α} {i : Nat} {f : α → α} : (upd l i f).length = l.length := by
  simp [upd]

/-- An update at an index changes the element there. -/
theorem getD_upd_same {α : Type} {l : List α} {i : Nat} {f : α → α} {z : α} (h : i < l.length) :
    (upd l i f).getD i z = f (l.getD i z) := by
  simp [upd, List.getD_eq_getElem?_getD, h]

/-- An update at an index leaves the elements elsewhere. -/
theorem getD_upd_ne {α : Type} {l : List α} {i j : Nat} {f : α → α} {z : α} (h : j ≠ i) :
    (upd l i f).getD j z = l.getD j z := by
  simp [upd, List.getD_eq_getElem?_getD, h.symm]

theorem headOf_modHead_same {i : Nat} {f : Head → Head} (h : i < s.heads.length) : headOf (modHead i f s) i = f (headOf s i) :=
  getD_upd_same h
theorem headOf_modHead_ne {i j : Nat} {f : Head → Head} (h : j ≠ i) : headOf (modHead i f s) j = headOf s j :=
  getD_upd_ne h

theorem portOf_modPort_same {i : Nat} {f : Port → Port} (h : i < s.ports.length) : portOf (modPort i f s) i = f (portOf s i) :=
  getD_upd_same h
theorem portOf_modPort_ne {i j : Nat} {f : Port → Port} (h : j ≠ i) : portOf (modPort i f s) j = portOf s j :=
  getD_upd_ne h

theorem chanOf_modChan_same {i : Nat} {f : Chan → Chan} (h : i < s.gheler.chans.length) : chanOf (modChan i f s) i = f (chanOf s i) :=
  getD_upd_same h
theorem chanOf_modChan_ne {i j : Nat} {f : Chan → Chan} (h : j ≠ i) : chanOf (modChan i f s) j = chanOf s j :=
  getD_upd_ne h

theorem spOf_modSp_same {i : Nat} {f : SetPoint → SetPoint} (h : i < s.gheler.sps.length) : spOf (modSp i f s) i = f (spOf s i) :=
  getD_upd_same h
theorem spOf_modSp_ne {i j : Nat} {f : SetPoint → SetPoint} (h : j ≠ i) : spOf (modSp i f s) j = spOf s j :=
  getD_upd_ne h

theorem catOf_modCat_same {i : Nat} {f : CatPort → CatPort} (h : i < s.catum.ports.length) : catOf (modCat i f s) i = f (catOf s i) :=
  getD_upd_same h
theorem catOf_modCat_ne {i j : Nat} {f : CatPort → CatPort} (h : j ≠ i) : catOf (modCat i f s) j = catOf s j :=
  getD_upd_ne h

theorem lockOf_modLock_same {i : Nat} {f : FrameLock → FrameLock} (h : i < s.catum.locks.length) : lockOf (modLock i f s) i = f (lockOf s i) :=
  getD_upd_same h
theorem lockOf_modLock_ne {i j : Nat} {f : FrameLock → FrameLock} (h : j ≠ i) : lockOf (modLock i f s) j = lockOf s j :=
  getD_upd_ne h

theorem sqOf_modSq_same {i : Nat} {f : SubRing → SubRing} (h : i < s.host.sq.length) : sqOf (modSq i f s) i = f (sqOf s i) :=
  getD_upd_same h
theorem sqOf_modSq_ne {i j : Nat} {f : SubRing → SubRing} (h : j ≠ i) : sqOf (modSq i f s) j = sqOf s j :=
  getD_upd_ne h

theorem cqOf_modCq_same {i : Nat} {f : CompRing → CompRing} (h : i < s.host.cq.length) : cqOf (modCq i f s) i = f (cqOf s i) :=
  getD_upd_same h
theorem cqOf_modCq_ne {i j : Nat} {f : CompRing → CompRing} (h : j ≠ i) : cqOf (modCq i f s) j = cqOf s j :=
  getD_upd_ne h

theorem sensorOf_modSensor_same {i : Nat} {f : Sensor → Sensor} (h : i < s.thermal.sensors.length) : sensorOf (modSensor i f s) i = f (sensorOf s i) :=
  getD_upd_same h
theorem sensorOf_modSensor_ne {i j : Nat} {f : Sensor → Sensor} (h : j ≠ i) : sensorOf (modSensor i f s) j = sensorOf s j :=
  getD_upd_ne h

theorem zoneOf_modZone_same {i : Nat} {f : Zone → Zone} (h : i < s.thermal.zones.length) : zoneOf (modZone i f s) i = f (zoneOf s i) :=
  getD_upd_same h
theorem zoneOf_modZone_ne {i j : Nat} {f : Zone → Zone} (h : j ≠ i) : zoneOf (modZone i f s) j = zoneOf s j :=
  getD_upd_ne h

end Sys2Proof.Machine
end

