-- ==== Sys2Proof/Laws/Ops.lean ====
section
/-! SUPPORT. What each shared operation can do, said once: look-ups in association lists and in the register file, the
ledger records an event leaves (`OnlyRecords`), the completions, notices and packets it sends (`OnlyReply`), and the
injection points when no fault rule is armed. -/

namespace Sys2Proof.Machine
variable {s t u : State}

/-! ### Association lists and registers -/

theorem getKey_setKey_same {α β : Type} [BEq α] [LawfulBEq α] {k : α} {v : β} {l : List (α × β)} :
    getKey k (setKey k v l) = some v := by
  induction l with
  | nil => simp [getKey, setKey]
  | cons e l ih =>
    simp only [setKey]
    split
    · simp [getKey]
    · next h => simpa [getKey, h] using ih

theorem getKey_setKey_ne {α β : Type} [BEq α] [LawfulBEq α] {k j : α} {v : β} {l : List (α × β)} (h : j ≠ k) :
    getKey j (setKey k v l) = getKey j l := by
  induction l with
  | nil => simp [getKey, setKey, h.symm]
  | cons e l ih =>
    simp only [setKey]
    split
    · next hk => have := eq_of_beq hk; subst this; simp [getKey, h.symm]
    · by_cases he : (e.1 == j) = true
      · simp [getKey, he]
      · simpa [getKey, he] using ih

theorem getKey_dropKey_same {α β : Type} [BEq α] [LawfulBEq α] {k : α} {l : List (α × β)} : getKey k (dropKey k l) = none := by
  simp [getKey, dropKey]

theorem getKey_dropKey_ne {α β : Type} [BEq α] [LawfulBEq α] {k j : α} {l : List (α × β)} (h : j ≠ k) :
    getKey j (dropKey k l) = getKey j l := by
  induction l with
  | nil => rfl
  | cons e l ih =>
    by_cases hk : e.1 = k
    · subst hk
      have h1 : dropKey e.1 (e :: l) = dropKey e.1 l := by simp [dropKey]
      rw [h1, ih]; simp [getKey, h.symm]
    · have h1 : dropKey k (e :: l) = e :: dropKey k l := by simp [dropKey, hk]
      rw [h1]
      by_cases he : (e.1 == j) = true
      · simp [getKey, he]
      · simpa [getKey, he] using ih

/-- A register reads what was stored. -/
theorem rawReg_setRaw_same {k : Nat} {v : Word} : rawReg (setRaw k v s) k = v := by
  unfold rawReg setRaw
  split
  · next h => simp [getKey_dropKey_same, h]
  · simp [getKey_setKey_same]

/-- Storing a register leaves the others. -/
theorem rawReg_setRaw_ne {k j : Nat} {v : Word} (h : j ≠ k) : rawReg (setRaw k v s) j = rawReg s j := by
  unfold rawReg setRaw
  split
  · simp [getKey_dropKey_ne h]
  · simp [getKey_setKey_ne h]

/-! ### What a record leaves -/

theorem onlyRecords_refl : OnlyRecords s s := ⟨fun _ _ _ => rfl, rfl⟩

theorem onlyRecords_trans (h1 : OnlyRecords s t) (h2 : OnlyRecords t u) : OnlyRecords s u := by
  refine ⟨fun k a b => (h2.1 k a b).trans (h1.1 k a b), ?_⟩
  have e1 := h1.2
  have e2 := h2.2
  generalize ha : t.now = a at e1
  generalize hb : t.meter = b at e1
  generalize hc : { t.ledger with saved := s.ledger.saved } = c at e1
  generalize hd : t.regs = d at e1
  generalize he : t.out = e at e1
  generalize hw : t.time.keeperPos = w at e1
  have hs : t.ledger.saved = s.ledger.saved := by rw [e1]; subst hc; rfl
  rw [hs] at e2
  clear hc ha hb hd he hw hs h1 h2
  subst e1
  exact e2

/-- Of the timebase only the Keeper's place within its ticks moves with time. -/
theorem tick_time {dt : Nat} : (tick dt s).time = { s.time with keeperPos := (tick dt s).time.keeperPos } := by
  unfold tick
  cases h : s.power.fastClocks <;> simp

theorem onlyRecords_tick {dt : Nat} : OnlyRecords s (tick dt s) := by
  refine ⟨fun _ _ _ => rfl, ?_⟩
  rw [← tick_time]
  rfl
theorem onlyRecords_emit {o : Out} : OnlyRecords s (emit o s) := ⟨fun _ _ _ => rfl, rfl⟩

/-- A record reaches the ledger alone. -/
theorem recordAt_ledger {pf1 : Bool} {at_ unit event : Nat} {det : List Byte} :
    ∃ l, recordAt pf1 at_ unit event det s = { s with ledger := l } ∧ l.saved = s.ledger.saved := by
  unfold recordAt keepRec
  refine ⟨_, rfl, ?_⟩
  dsimp only
  split <;> split <;> (try split) <;> rfl

theorem onlyRecords_recordAt {pf1 : Bool} {at_ unit event : Nat} {det : List Byte} :
    OnlyRecords s (recordAt pf1 at_ unit event det s) := by
  obtain ⟨l, h, e⟩ := recordAt_ledger (s := s) (pf1 := pf1) (at_ := at_) (unit := unit) (event := event) (det := det)
  rw [h]
  exact ⟨fun _ _ _ => rfl, by cases l; cases e; rfl⟩

theorem onlyRecords_record {unit event : Nat} {det : List Byte} : OnlyRecords s (record unit event det s) :=
  onlyRecords_recordAt

theorem onlyRecords_raiseCause {pf1 : Bool} {b : Nat} : OnlyRecords s (raiseCause pf1 b s) := by
  have key : ∀ (c : Bool) (off : Nat) (v : Word) (o : Out), (∀ k, k ≠ regIrqCause → k ≠ regIrqCause + pf1Base → k ≠ off) →
      OnlyRecords s (if c then emit o (setRaw off v s) else setRaw off v s) := by
    intro c off v o h
    cases c
    · exact ⟨fun k a b => rawReg_setRaw_ne (h k a b), rfl⟩
    · exact ⟨fun k a b => rawReg_setRaw_ne (h k a b), rfl⟩
  unfold raiseCause
  refine key _ _ _ _ fun k a b => ?_
  cases pf1
  · simpa using a
  · simpa using b

/-! ### What a completion leaves -/

theorem regsStay_refl : RegsStay s s := fun _ _ _ _ => rfl

theorem regsStay_trans (h1 : RegsStay s t) (h2 : RegsStay t u) : RegsStay s u :=
  fun k a b c => (h2 k a b c).trans (h1 k a b c)

theorem onlyReply_of_records (h : OnlyRecords s t) : OnlyReply s t := by
  obtain ⟨h1, h2⟩ := h
  refine ⟨fun k a b _ => h1 k a b, ?_⟩
  have e1 : t.host = s.host := by rw [h2]
  have e2 : t.catum = s.catum := by rw [h2]
  have e3 : t.fault = s.fault := by rw [h2]
  rw [e1, e2, e3]
  exact h2

theorem onlyReply_refl : OnlyReply s s := onlyReply_of_records onlyRecords_refl

theorem onlyReply_trans (h1 : OnlyReply s t) (h2 : OnlyReply t u) : OnlyReply s u := by
  refine ⟨regsStay_trans h1.1 h2.1, ?_⟩
  have e1 := h1.2
  have e2 := h2.2
  generalize ha : t.now = a at e1
  generalize hb : t.meter = b at e1
  generalize hc : ({ t.ledger with saved := s.ledger.saved } : Ledger) = c at e1
  generalize hd : t.regs = d at e1
  generalize he : t.out = e at e1
  generalize hf : t.host.fetched = f at e1
  generalize hg : t.host.begun = g at e1
  generalize hh : t.host.cq = h at e1
  generalize hi : t.catum.ports = i at e1
  generalize hj : t.catum.reads = j at e1
  generalize hl : t.host.firsts = l at e1
  generalize hm : t.host.dropped = m at e1
  generalize hn : t.host.fences = n at e1
  generalize hw : t.time.keeperPos = w at e1
  generalize hk : ({ t.fault with armed := s.fault.armed } : Faults) = k at e1
  have hs : t.ledger.saved = s.ledger.saved := by rw [e1]; subst hc; rfl
  have ht : t.fault.armed = s.fault.armed := by rw [e1]; subst hk; rfl
  rw [hs, ht] at e2
  clear hc ha hb hd he hs h1 h2 hf hg hh hi hj hk ht hl hm hn hw
  subst e1
  exact e2

theorem onlyReply_modCq {c : Nat} {f : CompRing → CompRing} : OnlyReply s (modCq c f s) := ⟨fun _ _ _ _ => rfl, rfl⟩
theorem onlyReply_modCat {p : Nat} {f : CatPort → CatPort} : OnlyReply s (modCat p f s) := ⟨fun _ _ _ _ => rfl, rfl⟩
theorem onlyReply_dropFront {q : Nat} : OnlyReply s (dropFront q s) := ⟨fun _ _ _ _ => rfl, rfl⟩
theorem onlyReply_markFirst {q : Nat} : OnlyReply s (markFirst q s) := ⟨fun _ _ _ _ => rfl, rfl⟩
theorem onlyReply_freeEntry {c : Nat} : OnlyReply s (freeEntry c s) := ⟨fun _ _ _ _ => rfl, rfl⟩

theorem onlyReply_noteFence {d : Desc} : OnlyReply s (noteFence d s) := by
  unfold noteFence
  split
  · exact ⟨fun _ _ _ _ => rfl, rfl⟩
  · exact ⟨fun _ _ _ _ => rfl, rfl⟩

theorem onlyReply_setOvf {c : Nat} {v : Word} : OnlyReply s (setRaw (0x0010300C + 32 * c) v s) :=
  ⟨fun _ _ _ h => rawReg_setRaw_ne (h c), rfl⟩

/-- Whichever way a condition goes. -/
theorem onlyReply_ite {c : Prop} [Decidable c] {a b : State} (ha : OnlyReply s a) (hb : OnlyReply s b) :
    OnlyReply s (if c then a else b) := by split <;> assumption

theorem reply_step {f : State → State} (hf : ∀ s, OnlyReply s (f s)) (h : OnlyReply s t) : OnlyReply s (f t) :=
  onlyReply_trans h (hf t)

/-- A change of the fault rules that leaves the arming. -/
theorem onlyReply_fault {f : Faults} (h : f.armed = s.fault.armed) : OnlyReply s { s with fault := f } :=
  ⟨fun _ _ _ _ => rfl, by cases f; cases h; rfl⟩

theorem onlyReply_forEach {α : Type} {l : List α} {f : α → State → State} (hf : ∀ a s, OnlyReply s (f a s)) :
    OnlyReply s (forEach l f s) := by
  unfold forEach
  induction l generalizing s with
  | nil => exact onlyReply_refl
  | cons a l ih => exact onlyReply_trans (hf a s) ih

/-- An entry written to a completion ring. -/
theorem onlyReply_writeComp {c : Nat} {m : Comp} : OnlyReply s (writeComp c m s) := by
  unfold writeComp
  extract_lets r size next s1 s2 s3
  have h1 : OnlyReply s s1 :=
    onlyReply_trans (onlyReply_ite onlyReply_refl onlyReply_markFirst) (onlyReply_of_records onlyRecords_emit)
  have h2 : OnlyReply s s2 := onlyReply_trans h1 onlyReply_modCq
  have h3 : OnlyReply s s3 := onlyReply_ite (onlyReply_trans h2 (onlyReply_of_records onlyRecords_raiseCause)) h2
  refine onlyReply_ite (onlyReply_trans h3 ?_) h3
  unfold sendCqVector
  exact onlyReply_trans (onlyReply_of_records onlyRecords_emit) onlyReply_modCq

theorem onlyReply_postTo {c : Nat} {m : Comp} : OnlyReply s (postTo c m s) := by
  unfold postTo
  refine onlyReply_ite onlyReply_writeComp (onlyReply_ite onlyReply_modCq ?_)
  extract_lets pf1 t
  have ht : OnlyReply s t := onlyReply_ite onlyReply_freeEntry onlyReply_refl
  refine onlyReply_trans ht ?_
  exact onlyReply_trans (onlyReply_trans onlyReply_setOvf (onlyReply_of_records onlyRecords_recordAt))
    (onlyReply_of_records onlyRecords_raiseCause)

/-! ### Injection points and sending over Catum Link -/

theorem onlyReply_setRule {r : FaultRule} : OnlyReply s (setRule r s) := by
  unfold setRule
  exact onlyReply_ite (onlyReply_fault rfl) (onlyReply_fault rfl)

theorem onlyReply_recordFault {r : FaultRule} {i n : Nat} : OnlyReply s (recordFault r i n s) := by
  unfold recordFault
  exact onlyReply_trans (t := { s with fault := { s.fault with total := bump s.fault.total } })
    ⟨fun _ _ _ _ => rfl, rfl⟩ (onlyReply_of_records onlyRecords_record)

/-- One rule reaches the rules, the count and the ledger. -/
theorem onlyReply_applyRule {i n : Nat} {r : FaultRule} {x : FaultFate × State} : OnlyReply x.2 (applyRule i n r x).2 := by
  obtain ⟨fate, s⟩ := x
  unfold applyRule
  dsimp only
  repeat' first
    | exact onlyReply_setRule
    | exact onlyReply_trans onlyReply_setRule onlyReply_recordFault
    | split

theorem onlyReply_meetFaults {p c f i n : Nat} {b : Bool} : OnlyReply s (meetFaults p c f i n b s).2 := by
  unfold meetFaults
  extract_lets rs
  have key : ∀ (l : List FaultRule) (x : FaultFate × State), OnlyReply x.2 (l.foldl (fun x r => applyRule i n r x) x).2 := by
    intro l
    induction l with
    | nil => exact fun _ => onlyReply_refl
    | cons r l ih => exact fun x => onlyReply_trans onlyReply_applyRule (ih _)
  exact key rs (clearFate, s)

theorem onlyReply_throughPoint {p : Nat} {fate : FaultFate} {b : HeldBody} {go : State → State}
    (hgo : ∀ s, OnlyReply s (go s)) : OnlyReply s (throughPoint p fate b go s) := by
  unfold throughPoint
  extract_lets s1
  have h1 : OnlyReply s s1 := onlyReply_fault rfl
  refine onlyReply_trans h1 (onlyReply_ite onlyReply_refl ?_)
  split
  · exact onlyReply_fault rfl
  · split
    · exact onlyReply_fault rfl
    · exact hgo s1

theorem onlyReply_catOut {p : Nat} {b : Bool} {k : CatPkt} : OnlyReply s (catOut p b k s) := by
  unfold catOut
  exact onlyReply_trans onlyReply_meetFaults (onlyReply_throughPoint fun _ => onlyReply_of_records onlyRecords_emit)

theorem onlyReply_catLaunch {p : Nat} {k : CatPkt} : OnlyReply s (catLaunch p k s) := by
  unfold catLaunch
  exact onlyReply_trans onlyReply_modCat onlyReply_catOut

theorem onlyReply_catServe {p n : Nat} : OnlyReply s (catServe p n s) := by
  induction n generalizing s with
  | zero => exact onlyReply_refl
  | succ n ih =>
    unfold catServe
    extract_lets c
    refine onlyReply_ite onlyReply_refl ?_
    split
    · exact onlyReply_refl
    · exact onlyReply_trans (onlyReply_trans onlyReply_modCat onlyReply_catLaunch) ih

theorem onlyReply_catQueue {p : Nat} {k : CatPkt} : OnlyReply s (catQueue p k s) := by
  unfold catQueue catPump
  exact onlyReply_trans onlyReply_modCat onlyReply_catServe

/-- Sending a packet reaches its port, the rules it meets, their records and the outputs. -/
theorem onlyReply_catSend {ty vc dest tag : Nat} {b : List Byte} : OnlyReply s (catSend ty vc dest tag b s) := by
  unfold catSend
  split
  · exact onlyReply_catQueue
  · exact onlyReply_refl

/-- Host memory is written on PCIe, or through the lead. -/
theorem onlyReply_hostWrite {d : Desc} {a : Nat} {b : List Byte} : OnlyReply s (hostWrite d a b s) := by
  unfold hostWrite
  split
  · exact onlyReply_of_records onlyRecords_emit
  · exact onlyReply_forEach fun _ _ => onlyReply_catSend

theorem onlyReply_postFor {d : Desc} {m : Comp} : OnlyReply s (postFor d m s) := by
  unfold postFor
  split
  · exact onlyReply_catSend
  · exact onlyReply_postTo

theorem onlyReply_hostErr {d : Desc} {st : Nat} : OnlyReply s (hostErr d st s) := by
  unfold hostErr
  exact onlyReply_ite (onlyReply_of_records onlyRecords_raiseCause) onlyReply_refl

/-- What a first completion can do. -/
theorem onlyReply_firstAt {n : Nat} {d : Desc} {st : Nat} {b : List Byte} : OnlyReply s (firstAt n d st b s) := by
  unfold firstAt
  refine onlyReply_ite ⟨fun _ _ _ _ => rfl, rfl⟩ ?_
  extract_lets hst s1 cat s2 s3
  have h1 : OnlyReply s s1 :=
    onlyReply_trans (t := { s with host := { s.host with begun := s.host.begun.erase d } }) ⟨fun _ _ _ _ => rfl, rfl⟩
      onlyReply_hostErr
  have h2 : OnlyReply s s2 := onlyReply_ite h1 (onlyReply_trans h1 ⟨fun _ _ _ _ => rfl, rfl⟩)
  have h3 : OnlyReply s s3 := onlyReply_trans h2 onlyReply_markFirst
  exact onlyReply_ite (onlyReply_ite (onlyReply_trans h3 onlyReply_freeEntry) h3) (onlyReply_trans h3 onlyReply_postFor)

/-- What the descriptors that complete with BAD_OPCODE at their turn can do. -/
theorem onlyReply_settleBad {q n : Nat} : OnlyReply s (settleBad q n s) := by
  induction n generalizing s with
  | zero => exact onlyReply_refl
  | succ n ih =>
    unfold settleBad
    split
    · exact onlyReply_refl
    · exact onlyReply_ite onlyReply_refl (onlyReply_trans (onlyReply_trans (onlyReply_trans onlyReply_dropFront onlyReply_noteFence) onlyReply_firstAt) ih)

theorem onlyReply_begun {d e : Desc} : OnlyReply s (begun d e s) := by
  unfold begun
  extract_lets t h u
  have ht : OnlyReply s t := onlyReply_trans onlyReply_dropFront onlyReply_noteFence
  have hu : OnlyReply t u := ⟨fun _ _ _ _ => rfl, rfl⟩
  exact onlyReply_trans (onlyReply_trans ht hu) onlyReply_settleBad

/-- What a completion can do. -/
theorem onlyReply_completeAt {n : Nat} {d : Desc} {st : Nat} {b : List Byte} : OnlyReply s (completeAt n d st b s) := by
  unfold completeAt
  exact onlyReply_trans onlyReply_firstAt onlyReply_settleBad

theorem onlyReply_complete {d : Desc} {st : Nat} {b : List Byte} : OnlyReply s (complete d st b s) := onlyReply_completeAt

theorem onlyReply_noticeAt {n : Nat} {d : Desc} {st : Nat} {b : List Byte} : OnlyReply s (noticeAt n d st b s) := by
  unfold noticeAt
  exact onlyReply_trans onlyReply_hostErr onlyReply_postFor

/-! ### Without fault rules -/

theorem rulesAt_none {p : Nat} (h : NoFaults s) : rulesAt p s = [] := by
  simp [rulesAt, h.1, h.2.1]

/-- A packet meets no rule. -/
theorem meetFaults_none {p c f i n : Nat} {b : Bool} (h : NoFaults s) : meetFaults p c f i n b s = (clearFate, s) := by
  simp [meetFaults, rulesAt_none h]

theorem passPoint_none {p : Nat} (h : NoFaults s) : passPoint p s = s := by
  obtain ⟨h1, h2, h3⟩ := h
  unfold passPoint
  rw [h3]
  cases s with | mk => cases ‹Faults›; cases h3; rfl

theorem throughPoint_none {p : Nat} {b : HeldBody} {go : State → State} (h : NoFaults s) :
    throughPoint p clearFate b go s = go s := by
  unfold throughPoint
  rw [passPoint_none h]
  simp [clearFate, lastDelayed, h.2.2]

/-- A packet leaves its port as it is. -/
theorem catOut_none {p : Nat} {b : Bool} {k : CatPkt} (h : NoFaults s) : catOut p b k s = emit (.cat p k.bytes) s := by
  unfold catOut
  extract_lets l point
  rw [meetFaults_none h]
  dsimp only
  rw [throughPoint_none h]
  rfl
end Sys2Proof.Machine
end

