-- ==== Sys2Proof/WellFormed.lean ====
section
/-!
DEFINITION. Well-formed commands: every operand within the range of the thing it names (instance numbers of chapter 0,
the 64 bytes of a descriptor (R125), the header fields of a Catum packet (Table 22.1)).  exec is total without it.
-/

namespace Sys2Proof

/-- 64 bytes and a ring of the 256 (R125); a forwarded one names a device and a lead ring. -/
def Desc.wf (d : Desc) : Bool :=
  decide (d.bytes.length = 64) && decide (d.ring < 256) &&
    d.fwd.all fun x => decide (x.1 < 1024) && decide (x.2.1 < 256) && (x.2.2 == 0 || x.2.2 == 2)

/-- Table 22.1. -/
def CatPkt.wf (p : CatPkt) : Bool :=
  decide (p.type_ < 256) && decide (p.vc < 4) && decide (p.dest < 1024) && decide (p.src < 1024) &&
    decide (p.hops < 256) && decide (p.lsn < 65536) && decide (p.tag < 4294967296) && decide (p.payload.length ≤ 512)

def Instr.wf : Instr → Bool
  | .inputValid _ _ cab _ => decide (cab < 8)
  | .trnPointDone _ point _ _ => decide (point < 4)
  | .configReady _ _ => true
  | .vinOver _ _ => true
  | .shedEnter _ stage _ => decide (1 ≤ stage) && decide (stage ≤ 5)
  | .capacityShrinkHold _ => true
  | .shedClear _ stage _ => decide (1 ≤ stage) && decide (stage ≤ 5)
  | .stage4Park _ => true
  | .ledgerSave _ _ => true
  | .refclkLost _ => true
  | .refclkCheckRetry _ _ => true
  | .pwrSetState _ d => d.wf
  | .enterP2 _ => true
  | .wakeBFall _ => true
  | .mgmtBusWake _ => true
  | .keeperTimer _ => true
  | .catumWake _ port => decide (port < 4)
  | .pwrClrMin _ => true
  | .resetBAssert _ => true
  | .resetBRelease _ cab _ => decide (cab < 8)
  | .perstBAssert _ => true
  | .perstBRelease _ => true
  | .pcieLinkDownTimeout _ => true
  | .pf0Flr _ => true
  | .pf1Flr _ => true
  | .intlkTrip _ => true
  | .intlkLowDuringTrip _ _ => true
  | .intlkRelease _ => true
  | .boundaryScanForce _ _ => true
  | .tailDoorbell _ ring _ _ _ => decide (ring < 256)
  | .cqHeadDoorbell _ ring _ _ _ => decide (ring < 256)
  | .ledgerHeadDoorbell _ _ _ _ => true
  | .descriptorFetch _ _ _ => true
  | .completionPost _ ring _ => decide (ring < 256)
  | .ledgerDeliver _ _ _ _ => true
  | .coalesceTimer _ ring => decide (ring < 256)
  | .darkNow _ heads _ _ => decide (heads < 256)
  | .darkRamp _ heads _ => decide (heads < 256)
  | .stopHeads _ heads _ => decide (heads < 256)
  | .haltRings _ heads _ => decide (heads < 256)
  | .resumeRings _ heads _ => decide (heads < 256)
  | .stopIngest _ heads _ => decide (heads < 256)
  | .ucwRejected _ _ _ => true
  | .ucwAction _ _ => true
  | .ucwStatRead _ => true
  | .setupLock _ => true
  | .sqEnable _ ring _ => decide (ring < 256)
  | .sqDisable _ ring _ => decide (ring < 256)
  | .cqEnable _ ring _ => decide (ring < 256)
  | .cqDisable _ ring _ => decide (ring < 256)
  | .ledgerRingEnable _ _ => true
  | .registerWrite _ _ _ _ => true
  | .pairLoRead _ _ _ => true
  | .bar4Read _ _ _ => true
  | .bar4Write _ _ _ _ => true
  | .bar4DiscardReport _ => true
  | .nop _ d => d.wf
  | .ledgerMark _ d => d.wf
  | .nvmWriteBank _ d _ => d.wf
  | .cabSelect _ d => d.wf
  | .ptpCfg _ d => d.wf
  | .stampRead _ d => d.wf
  | .ptpMessage _ _ => true
  | .slewDone _ => true
  | .announceTimeout _ => true
  | .flowOpen _ d => d.wf
  | .flowClose _ d => d.wf
  | .hostPush _ d => d.wf
  | .ethPacket _ port _ => decide (port < 4)
  | .ethArpIcmp _ port _ _ => decide (port < 4)
  | .packetGroupEnd _ ctx => decide (ctx < 1024)
  | .frameDeadline _ ctx => decide (ctx < 1024)
  | .flowStall _ ctx => decide (ctx < 1024)
  | .flowFallback _ ctx => decide (ctx < 1024)
  | .pathLost _ ctx _ => decide (ctx < 1024)
  | .dpLine _ sink _ => decide (sink < 2)
  | .dpLinkUp _ sink _ _ => decide (sink < 2)
  | .dpLinkLost _ sink => decide (sink < 2)
  | .dpAuxTransaction _ sink _ _ _ => decide (sink < 2)
  | .flowCountersClear _ => true
  | .exhRegister _ d => d.wf
  | .exhFree _ d => d.wf
  | .exhWrite _ d => d.wf
  | .exhRead _ d => d.wf
  | .admQuery _ d => d.wf
  | .transferDone _ ring _ _ => decide (ring < 256)
  | .retireFence _ head => decide (head < 8)
  | .headConfig _ d _ => d.wf
  | .headRelease _ d => d.wf
  | .layerSet _ d => d.wf
  | .commit _ d => d.wf
  | .groupCommit _ d => d.wf
  | .vitrineSet _ d => d.wf
  | .vitrineLoad _ d => d.wf
  | .vitrineMgmtSet _ _ _ => true
  | .vitrineStatusRead _ => true
  | .vitrineLockoutEnd _ => true
  | .composeStartEvent _ head _ _ => decide (head < 8)
  | .groupReady _ _ _ _ => true
  | .groupDecision _ _ => true
  | .groupGo _ _ _ => true
  | .groupAbandoned _ _ => true
  | .cmpClrLate _ head => decide (head < 8)
  | .cmpClrGap _ head => decide (head < 8)
  | .coefLoad _ d => d.wf
  | .recipeLoad _ d _ => d.wf
  | .ditherLoad _ d => d.wf
  | .pressStartEvent _ head _ => decide (head < 8)
  | .pressFrameDone _ head _ => decide (head < 8)
  | .prsClrSlack _ head => decide (head < 8)
  | .prsClrDark _ head => decide (head < 8)
  | .motionCfg _ d => d.wf
  | .vectorLoad _ d => d.wf
  | .surveyFieldDone _ head => decide (head < 8)
  | .motClrMiss _ head => decide (head < 8)
  | .portConfig _ d => d.wf
  | .portPark _ d => d.wf
  | .caveEnter _ d => d.wf
  | .caveExit _ d => d.wf
  | .retCredit _ port _ => decide (port < 16)
  | .retNak _ port _ _ => decide (port < 16)
  | .retLaneLock _ port _ _ _ => decide (port < 16)
  | .retCaps _ port _ _ => decide (port < 16)
  | .retStatus _ port _ _ _ => decide (port < 16)
  | .returnMessageBad _ port => decide (port < 16)
  | .laneLockTimeout _ port lane => decide (port < 16) && decide (lane < 8)
  | .portTrainTimeout _ port => decide (port < 16)
  | .returnSilent _ port => decide (port < 16)
  | .loadStart _ port _ _ _ => decide (port < 16)
  | .slotFlip _ head _ _ _ => decide (head < 8)
  | .portIdleTimer _ port => decide (port < 16)
  | .portStatusTimer _ port => decide (port < 16)
  | .plkClr _ port => decide (port < 16)
  | .scanConfig _ d => d.wf
  | .scanProfileLoad _ d => d.wf
  | .scanPhaseEdge _ head => decide (head < 8)
  | .scanPhaseLost _ head => decide (head < 8)
  | .scanPass _ head _ => decide (head < 8)
  | .scnClr _ head => decide (head < 8)
  | .solverCfg _ d => d.wf
  | .calLoad _ d _ => d.wf
  | .calCorrect _ d => d.desc.wf
  | .solveDone _ head _ => decide (head < 8)
  | .clrLimitedClear _ head => decide (head < 8)
  | .loopSet _ d => d.wf
  | .chanEnable _ d => d.wf
  | .coefWrite _ d => d.wf
  | .loopSample _ chan _ _ _ _ _ => decide (chan < 48)
  | .spSafe _ chan => decide (chan < 48)
  | .aoutUpdate _ chan => decide (chan < 48)
  | .rampEnd _ chan => decide (chan < 48)
  | .aoutRangeWrite _ chan _ => decide (chan < 48)
  | .gleChClr _ chan => decide (chan < 48)
  | .setpointCfg _ d => d.wf
  | .modeSet _ d => d.wf
  | .inject _ d => d.wf
  | .capture _ d => d.wf
  | .gleSpClr _ chan => decide (chan < 48)
  | .freqSet _ d => d.wf
  | .hbmFreqMove _ => true
  | .hbmFreqChanged _ => true
  | .refreshDue _ stack pc _ => decide (stack < 2) && decide (pc < 32)
  | .hbmRdWindow _ => true
  | .memoryRequest _ _ => true
  | .hbmRdNeighbour _ => true
  | .hbmParityFail _ stack pc _ _ => decide (stack < 2) && decide (pc < 32)
  | .hbmDiagDone _ _ => true
  | .hbmSpared _ _ => true
  | .channelSpare _ d => d.wf
  | .hbmCfgWrite _ _ => true
  | .hbmClr _ => true
  | .trnHelper _ d => d.wf
  | .trnSessionDone _ stack pc _ _ _ => decide (stack < 2) && decide (pc < 32)
  | .regionCfg _ d => d.wf
  | .archiveReady _ _ => true
  | .errCounts _ d => d.wf
  | .bucketLeak _ => true
  | .scrubRead _ _ _ _ => true
  | .eccClr _ => true
  | .sensorReading _ sensor _ _ => decide (sensor < 44) || sensor == 0x50 || sensor == 0x51
  | .thermWarnClear _ zone => decide (zone < 8)
  | .throttleDecay _ zone => decide (zone < 8)
  | .throttleRecover _ zone => decide (zone < 8)
  | .thermLatchClear _ => true
  | .thmRead _ d => d.wf
  | .catConfig _ d _ => d.wf
  | .frameLock _ d => d.wf
  | .catLinkPacket _ port p => decide (port < 4) && p.wf
  | .catHello _ port p => decide (port < 4) && p.wf
  | .catPacketBad _ port p => decide (port < 4) && p.wf
  | .catPacketForward _ port p => decide (port < 4) && p.wf
  | .mbReq _ port p => decide (port < 4) && p.wf
  | .mbResp _ port p => decide (port < 4) && p.wf
  | .catUcwRequest _ port p => decide (port < 4) && p.wf
  | .catUcwReport _ port p => decide (port < 4) && p.wf
  | .ucwDomainTimeout _ => true
  | .catHostLost _ port p => decide (port < 4) && p.wf
  | .fwdDesc _ port p => decide (port < 4) && p.wf
  | .fwdCompl _ port p => decide (port < 4) && p.wf
  | .dmaRdReq _ port p _ => decide (port < 4) && p.wf
  | .dmaRdData _ port p => decide (port < 4) && p.wf
  | .dmaWr _ port p => decide (port < 4) && p.wf
  | .catLedger _ port p => decide (port < 4) && p.wf
  | .timeMark _ port _ _ => decide (port < 4)
  | .timeReq _ port p => decide (port < 4) && p.wf
  | .timeResp _ port p => decide (port < 4) && p.wf
  | .timeExchange _ => true
  | .timeRespTimeout _ => true
  | .catLockPacket _ port p => decide (port < 4) && p.wf
  | .lockAnnounceTimer _ head => decide (head < 8)
  | .lockRequestTimeout _ head => decide (head < 8)
  | .frameLockLost _ head => decide (head < 8)
  | .catTrainTimeout _ port => decide (port < 4)
  | .catTrainRetry _ port => decide (port < 4)
  | .catLinkDown _ port _ => decide (port < 4)
  | .helloTimer _ => true
  | .catFollowerLost _ _ => true
  | .followHoldExpiry _ => true
  | .mailboxGo _ _ => true
  | .mailboxTimeout _ => true
  | .testArmed _ => true
  | .testDisarmed _ => true
  | .faultSet _ d => d.wf
  | .faultRulesCleared _ => true
  | .faultReorderRelease _ point rule => decide (point < 64) && decide (rule < 4)
  | .faultDelayRelease _ point rule => decide (point < 64) && decide (rule < 4)
  | .wearReport _ d => d.wf
  | .wearRecordSave _ => true
  | .fwWriteSlot _ d _ _ => d.wf
  | .blPin _ d => d.wf
  | .pulseEdge _ pulse _ => decide (pulse < 16)
  | .auxFreeSample _ aux _ => decide (aux < 16)
  | .catLaneLock _ port _ _ => decide (port < 4)
  | .catLaneLockTimeout _ port lane => decide (port < 4) && decide (lane < 4)
  | .catAckTimer _ port => decide (port < 4)
  | .delayReqSend _ => true
  | .portParkTimeout _ port => decide (port < 16)
  | .bankWriteDone _ _ => true
  | .slotWriteDone _ _ => true
  | .pwrStateAt _ => true
  | .hostTransferDone _ ring _ _ => decide (ring < 256)
  | .mgmtBusTransaction _ _ _ _ => true
  | .pageIdleClose _ stack pc _ => decide (stack < 2) && decide (pc < 32)
  | .pcieLinkChange _ _ _ _ => true
  | .ethLinkChange _ port _ _ => decide (port < 4)

end Sys2Proof
end

