-- ==== Sys2Proof/Tests/Slice0.lean ====
section
/-!
SUPPORT. Tests: for every statement with hypotheses a state and operands that meet them (`test_wit_…`), for every check of
WellFormed a command that it refuses (`test_ill_…`), the values the spec's own examples work out, and a few single steps.
-/

open Sys2Proof Sys2Proof.Machine
namespace Sys2Proof.Tests
set_option maxRecDepth 8000

/-- A descriptor of ring `ring`: header of Table 5.3 with TAG 7, then the payload. -/
def dsc (ring op flags len ctx : Nat) (pay : List Byte) : Desc :=
  ⟨ring, padTo 64 (u16 op ++ u16 flags ++ u32 7 ++ u24 len ++ u8 0 ++ u16 ctx ++ u16 0 ++ pay), 0, 0, none⟩

/-- A state whose ring of `d` holds `d` alone, fetched and next to begin. -/
def ready (d : Desc) (s : State) : State := { s with host := { s.host with fetched := [d] } }

/-- A module in operation (P0), set-up locked. -/
def up : State :=
  { State.reset with
    now := 1000
    power := { Reset.power with state := .p0, inputValid := true, fastClocks := true, vin := 12000 }
    startup := { Reset.startup with ready := true, step := 7 }
    host := { Reset.host with locked := true }
    hbm := { Reset.hbm with m := 62, tsValid := List.replicate 4 true } }

/-! ### Witnesses: each shows a state and operands that meet every hypothesis of a clause -/

/-- Submission and completion ring 0 of 64 entries, one descriptor to fetch. -/
def ringed : State :=
  modSq 0 (fun r => { r with enabled := true, tail := 1, stamps := [(1, 990)] })
    (modCq 0 (fun r => { r with enabled := true })
      (setRaw 0x00101008 0x00010006#32 (setRaw 0x00103008 0x02000046#32 up)))

/-- The same rings of PF1: 252. -/
def ringed1 : State :=
  modSq 252 (fun r => { r with enabled := true })
    (modCq 252 (fun r => { r with enabled := true })
      (setRaw 0x00102F88 0x00010FC6#32 (setRaw 0x00104F88 0x00000026#32 up)))

/-- Both ledger rings of 1,024 entries enabled. -/
def ledgered : State :=
  setRaw 0x00100018 10#32 (setRaw (0x00100018 + pf1Base) 10#32 { up with
    ledger := { Reset.ledger with main := { Reset.ledgerRing with enabled := true },
                                  pf1 := { Reset.ledgerRing with enabled := true } } })

def aRec : Rec := ⟨0x0502, 0, 3, 0, false, false, 900, List.replicate 16 0⟩
def aComp : Comp := ⟨7, 0, 0, false, false, 900, List.replicate 8 0, 800, false, false⟩

theorem heads_of {s : State} (h : s.heads = List.replicate 8 Reset.head) (k : Nat) : headOf s k = Reset.head := by
  rw [headOf, h]
  rcases Nat.lt_or_ge k 8 with hk | hk
  · simp only [List.getD, List.getElem?_replicate, hk, if_true, Option.getD_some]
  · simp only [List.getD, List.getElem?_replicate, Nat.not_lt.mpr hk, if_false, Option.getD_none]

theorem test_wit_step_front : ({ up with pending := [.ucwStatRead 0] }).pending = .ucwStatRead 0 :: [] ∧
    up.pending = [] := by decide

theorem test_wit_step_memory : ∃ t, Memory.wf [(3, 5), (9, 1)] = true ∧ ({ up with
      hbm := { up.hbm with cells := [(3, 5), (9, 1)] }, pending := [.ucwStatRead 0] }).memOk ∧
    step { up with hbm := { up.hbm with cells := [(3, 5), (9, 1)] }, pending := [.ucwStatRead 0] } = .next t :=
  ⟨_, by decide, ⟨by decide, by decide⟩, rfl⟩

theorem test_wit_step_parts : ∃ t, up.heads.length = 8 ∧ up.ports.length = 16 ∧ up.gheler.chans.length = 48 ∧
    up.gheler.sps.length = 48 ∧ up.host.sq.length = 256 ∧ up.host.cq.length = 256 ∧
    step { up with pending := [.ucwStatRead 0] } = .next t :=
  ⟨_, by decide, by decide, by decide, by decide, by decide, by decide, rfl⟩

theorem test_wit_answers_keep_queue : ∃ t, exec (.ucwStatRead 0) up = .next t := ⟨_, rfl⟩

theorem test_wit_reads_bar4 : usable up - 8 + 8 ≤ usable up ∧ anyFrozen up (usable up - 8) 8 = false ∧
    anyBad up (usable up - 8) 8 = false ∧ up.power.state ≠ .p4 ∧
    (⟨0, 0x5A, true⟩ : BusFrame).addr = up.power.smbAddr := by decide

theorem test_wit_reads_abort : usable up < usable up - 7 + 8 ∧ 0x00100006 % 4 ≠ 0 ∧
    State.reset.power.state = .p4 := by decide

theorem test_wit_reads_word : 0x00100008 % 4 = 0 ∧ barOffset false 0x00100008 = some 0x00100008 ∧
    pairLo 0x00100008 = false ∧ pairLo (0x00100008 - 4) = false := by decide

theorem test_wit_reads_pair : ∃ t, 0x01100038 % 4 = 0 ∧ barOffset false 0x01100038 = some 0x01100038 ∧
    pairLo 0x01100038 = true ∧ barOffset false 0x0110003C = some 0x0110003C ∧ pairLo 0x0110003C = false ∧
    exec (.pairLoRead 0 ⟨false, 0x01100038, 4, false⟩ false) up = .next t ∧ t.host.hiCap = t.host.hiCap :=
  ⟨_, by decide, by decide, by decide, by decide, by decide, rfl, rfl⟩

theorem test_wit_doorbell_tail : ringed.power.state ≠ .p2 ∧ false = decide (252 ≤ 0) ∧ (sqOf ringed 0).enabled = true ∧
    63 < sqSize ringed 0 := by decide
theorem test_wit_doorbell_tail_pf1 : true = decide (252 ≤ 252) ∧ (sqOf ringed1 252).enabled = true ∧
    63 < sqSize ringed1 252 := by decide
theorem test_wit_doorbell_head : (cqOf ringed 0).enabled = true ∧ 63 < cqSize ringed 0 := by decide
theorem test_wit_doorbell_ledger : ledgered.ledger.main.enabled = true ∧ 1023 < 2 ^ regField ledgered 0x00100018 0 4 ∧
    ledgered.ledger.pf1.enabled = true ∧ 1023 < 2 ^ regField ledgered (0x00100018 + pf1Base) 0 4 := by decide
theorem test_wit_doorbell_bad : sqSize ringed 0 ≤ 64 ∧ cqSize ringed 0 ≤ 64 ∧ (sqOf ringed 1).enabled = false ∧
    true ≠ decide (252 ≤ 251) := by decide

theorem test_wit_fetch : pickRing (tick 4 ringed) = some 0 ∧ fwdOf ringed 0 = none ∧
    opcodes.contains (fieldOf (padTo 64 (u16 0x0101)) 0 2) = true ∧ 0 < ringed.host.sq.length ∧
    (∀ e ∈ ringed.host.fetched, e.ring ≠ 0) := by decide

theorem test_wit_post : ∃ m rest, (cqOf (modCq 0 (fun r => { r with hold := [aComp] }) ringed) 0).hold = m :: rest ∧
    cqRoom 0 m.notice (modCq 0 (fun r => { r with hold := [aComp] }) ringed) = true ∧
    ∀ e ∈ ringed.host.fetched, e.ring ≠ m.sq :=
  ⟨aComp, [], by decide, by decide, by decide⟩

theorem test_wit_coalesce : regField ringed (0x00103008 + 32 * 0) 24 8 ≠ 0 ∧
    0 < (cqOf (modCq 0 (fun r => { r with unsent := 1, since := 1000 }) ringed) 0).unsent ∧
    (cqOf (modCq 0 (fun r => { r with unsent := 1, since := 1000 }) ringed) 0).since +
      regField ringed (0x00103008 + 32 * 0) 24 8 * 4000 ≤ ringed.now + 8000 := by decide

theorem test_wit_ledger_deliver : ∃ r u, ledgerRoom false ledgered = true ∧ catRole ledgered ≠ 2 ∧
    ledgered.ledger.main.lost = 0 ∧ ledgered.ledger.startLost = 0 ∧ ledgered.ledger.main.gap = 0 ∧
    nextRec false (tick 0 { ledgered with ledger := { ledgered.ledger with saved := [aRec] } }) = some (r, u) :=
  ⟨aRec, _, by decide, by decide, by decide, by decide, by decide, rfl⟩

theorem test_wit_sq_enable : false = decide (252 ≤ 1) ∧ (sqOf ringed 1).enabled = false ∧
    sqRefused (setRaw 0x00101028 0x00010006#32 ringed) 1 = false ∧
    sqRefused (setRaw 0x00101028 0x00010005#32 ringed) 1 = true := by
  decide
theorem test_wit_cq_enable : (cqOf up 0).enabled = false ∧ cqRefused (setRaw 0x00103008 0x46#32 up) 0 = false := by decide
theorem test_wit_cq_disable : ∀ r < 256, (sqOf ringed r).enabled = true → ringCq ringed r ≠ 1 := by decide
theorem test_wit_sq_disable : ∀ d ∈ ringed.host.fetched, d.ring ≠ 0 := by decide
theorem test_wit_ledger_enable : up.ledger.main.enabled = false ∧
    10 ≤ regField (setRaw 0x00100018 10#32 up) 0x00100018 0 4 := by
  decide
theorem test_wit_ledger_enable_pf1 : up.ledger.pf1.enabled = false ∧
    10 ≤ regField (setRaw (0x00100018 + pf1Base) 10#32 up) (0x00100018 + pf1Base) 0 4 := by
  decide

theorem test_wit_nop : Runs (.nop 0 (dsc 0 0x0101 0 16 0 [])) (ready (dsc 0 0x0101 0 16 0 []) up) := ⟨by decide,
    by decide, by decide⟩
theorem test_wit_ledger_mark : Runs (.ledgerMark 0 (dsc 255 0x0102 0 32 0 [1]))
    (ready (dsc 255 0x0102 0 32 0 [1]) up) := ⟨by decide, by decide, by decide⟩
theorem test_wit_record : up.startup.running = false ∧ up.ledger.main.hold.length < 16384 ∧ 0x0502 / 256 ≠ 9 := by decide
theorem test_wit_completion : (dsc 0 0x0101 4 16 0 []).fwd = none ∧ 0 ≠ 0x501 ∧
    up.host.dropped.contains (dsc 0 0x0101 4 16 0 []) = false ∧ (∀ e ∈ up.host.fetched, e.ring ≠ 0) ∧
    (dsc 0 0x0101 4 16 0 []).quiet = true ∧
    (dsc 0 0x0101 0 16 0 []).quiet = false ∧ (cqOf ringed (ringCq ringed 0)).hold = [] ∧
    cqRoom (ringCq ringed 0) false ringed = true ∧ (cqOf up (ringCq up 0)).enabled = false ∧
    (cqOf up (ringCq up 0)).hold.length < 256 := by decide

theorem test_wit_ucw_awake : up.power.state ≠ .p2 ∧ ucwLegal false 0xC3000007 = false ∧ ucwLegal true 0xC3000002 = false ∧
    (chanOf (modChan 47 (fun c => { c with state := .run }) up) 47).state = .run := by
  decide
theorem test_wit_ucw_finished : (({ up with host := { up.host with ucwRuns := [⟨1, [], [], 0xC101, false, 5⟩] } }).host.ucwRuns.find?
      fun r : UcwRun => decide (r.action = 1)) = some ⟨1, [], [], 0xC101, false, 5⟩ ∧
      ucwFinished up ⟨1, [], [], 0xC101, false, 5⟩ = true ∧
    up.catum.ucw = [] ∧ up.catum.ucwIn = [] := by decide

theorem test_wit_setup_lock : up.host.locked = true ∧ State.reset.host.locked = false := by decide
theorem test_wit_rwl : (rawReg up 0x01100024).toNat % 256 = (0xFF#32 : Word).toNat % 256 ∧
    (rawReg up 0x01100024).toNat % 256 ≠ (0#32 : Word).toNat % 256 := by decide

theorem test_wit_bar4_lands : ({ up with host := Reset.host }).host.locked = false ∧
    0 + [7].length ≤ usable up ∧ touchesVit up 0 1 = false ∧ up.ecc.archives = [] ∧
    ∀ x < 1, frozenAt up x = false := by decide
theorem test_wit_bar4_discarded : usable up < usable up - 7 + 8 ∧ bar4Allowed up 0 1 = false ∧
    up.host.bar4Count = 0 := by decide
theorem test_wit_bar4_report : ({ up with host := { up.host with bar4Count := 1, bar4First := 900 } }).host.bar4Count ≠ 0 ∧
    (up.now + 4000000) / 4000000 ≠ 900 / 4000000 := by decide

theorem test_wit_host_loss : up.startup.ready = true ∧ up.power.stop = none ∧ up.power.perstB = false ∧
    ∃ d, ({ up with power := { up.power with pcieDownAt := some 0 } }).power.pcieDownAt = some d ∧
      d + 400000000 ≤ up.now + 399999000 := ⟨by decide, by decide, by decide, 0, by decide, by decide⟩
theorem test_wit_pf1_reset : up.host.sq.length = 256 ∧ up.host.cq.length = 256 := by decide

theorem test_wit_input_valid : (⟨false, [], 0, []⟩ : BootInfo).factoryBad = false ∧ 9000 ≤ (⟨9000, 9001⟩ : Supply).vin ∧
    State.reset.power.inputValid = false ∧ State.reset.power.overStop = false ∧ State.reset.power.state = .p4 ∧
    State.reset.power.resetB = false := by decide
theorem test_wit_reset_release : ({ up.power with resetB := true }).resetB = true ∧ up.power.state ≠ .p4 ∧
    up.thermal.latch = false ∧ up.power.inputValid = true := by decide
theorem test_wit_reset_assert : up.power.resetB = false ∧ up.power.state ≠ .p4 ∧ up.thermal.latch = false := by decide

/-- A start-up at step `n`, training point `p`. -/
def starting (n p : Nat) : State :=
  { up with startup := { Reset.startup with running := true, step := n }, training := { Reset.training with point := p } }

theorem test_wit_startup : (starting 3 3).startup.running = true ∧ (starting 3 3).power.state = .p0 ∧
    (starting 3 3).startup.step = 3 ∧ (starting 3 3).hbm.tsValid.length = 4 ∧ (starting 3 3).training.point = 2 + 1 ∧
    (starting 3 0).training.point = 0 ∧ (starting 4 0).startup.step = 4 := by decide

theorem test_wit_shed_enter : up.power.state ≠ .p4 ∧ up.power.stage < 5 ∧ (⟨7399, 7399⟩ : Supply).vin < shedThr up 5 ∧
    (⟨12000, 8699⟩ : Supply).vin < shedThr up 1 ∧
    up.startup.ready = true ∧ up.power.stop = none ∧ up.startup.running = false := by decide
theorem test_wit_shed_clear : 5 ≤ ({ up.power with stage := 5 }).stage ∧
    shedThr up 5 + up.power.hyst ≤ (⟨7700, 7700⟩ : Supply).vin ∧
    1 ≤ ({ up.power with stage := 1 }).stage ∧ shedThr up 1 + up.power.hyst ≤ (⟨9000, 12000⟩ : Supply).vin := by decide
theorem test_wit_stops : up.startup.ready = true ∧ up.startup.running = false ∧ up.power.stop = none ∧
    up.power.state ≠ .p4 ∧
    61000 < (⟨61001, 61002⟩ : Supply).vin ∧ up.power.fastClocks = true := by decide

/-- An orderly stop for `why` in phase `p`. -/
def stopping (why : StopCause) (p : StopPhase) : State := { up with
  power := { up.power with stop := some (why, p) }, startup := { up.startup with step := 2 } }

theorem test_wit_stop_park : (stopping .thermal .ramping).power.stop = some (.thermal, .ramping) ∧
    allDark (stopping .thermal .ramping) = true := by decide
theorem test_wit_stop_save : (stopping .hostLink .saving).power.stop = some (.hostLink, .saving) ∧
    mayStart (stopping .hostLink .saving) = true ∧ (stopping .hostLink .saving).power.refclkOk = true ∧
    anySlot (stopping .hostLink .saving) = true := by decide

/-- PWR_SET_STATE for `state` at AT `at_`. -/
def pwrSet (state fp at_ : Nat) : Desc := dsc 0 0x0201 0 48 0 (u8 state ++ u8 fp ++ List.replicate 6 0 ++ u64 at_)

theorem test_wit_pwr_set : Runs (.pwrSetState 0 (pwrSet 0 0 1001)) (ready (pwrSet 0 0 1001) up) ∧
    pwrInvalid (pwrSet 0 0 1001).trunc = none ∧
    (ready (pwrSet 0 0 1001) up).now + 0 < (pwrSet 0 0 1001).trunc.p64 24 :=
  ⟨⟨by decide, by decide, by decide⟩, by decide, by decide⟩
theorem test_wit_pwr_invalid : Runs (.pwrSetState 0 (pwrSet 4 0 0)) (ready (pwrSet 4 0 0) up) ∧
    pwrInvalid (pwrSet 4 0 0).trunc = some 16 :=
  ⟨⟨by decide, by decide, by decide⟩, by decide⟩
theorem test_wit_pwr_now : Runs (.pwrSetState 0 (pwrSet 1 2 1000)) (ready (pwrSet 1 2 1000) up) ∧
    pwrInvalid (pwrSet 1 2 1000).trunc = none ∧
    (pwrSet 1 2 1000).trunc.p64 24 ≤ (ready (pwrSet 1 2 1000) up).now + 0 ∧ (pwrSet 1 2 1000).trunc.p8 16 < 2 :=
  ⟨⟨by decide, by decide, by decide⟩, by decide, by decide, by decide⟩
theorem test_wit_pwr_p2 : Runs (.pwrSetState 0 (pwrSet 2 0 0)) (ready (pwrSet 2 0 0) up) ∧
    pwrInvalid (pwrSet 2 0 0).trunc = none ∧
    (pwrSet 2 0 0).trunc.p8 16 = 2 ∧
    p2Refused (begun (pwrSet 2 0 0) (pwrSet 2 0 0).trunc (tick 0 (ready (pwrSet 2 0 0) up))) = none :=
  ⟨⟨by decide, by decide, by decide⟩, by decide, by decide, by decide⟩
theorem test_wit_pwr_p3 : Runs (.pwrSetState 0 (pwrSet 3 0 0)) (ready (pwrSet 3 0 0) up) ∧
    pwrInvalid (pwrSet 3 0 0).trunc = none ∧
    (pwrSet 3 0 0).trunc.p8 16 = 3 ∧ (ready (pwrSet 3 0 0) up).power.stop = none :=
  ⟨⟨by decide, by decide, by decide⟩, by decide, by decide, by decide⟩
theorem test_wit_pwr_at : ({ up.power with pendingSets := [pwrSet 3 0 1000] }).pendingSets = [pwrSet 3 0 1000] ∧
    (pwrSet 3 0 1000).p64 24 ≤ up.now + 0 := by decide
theorem test_wit_enter_p2 : mayEnterP2 { up with power := { up.power with target := 2 } } = true := by decide
theorem test_wit_shrink : anyLeaving up = false ∧ formsDue up = false ∧
    ({ up.adm with pendingCaps := [(43, 5)], caps := List.replicate 44 9 }).pendingCaps = [(43, 5)] ∧
    43 < ({ up.adm with caps := List.replicate 44 9 }).caps.length := by decide

/-- A module asleep in `st` whose four wake sources are enabled, timer at `now`. -/
def asleep (st : PowerState) : State :=
  setRaw 0x01100030 0x1E#32 (setRaw 0x01100038 1000#32 { up with
    power := { up.power with state := st, fastClocks := false }
    startup := { up.startup with step := 2 }
    catum := { up.catum with ports := List.replicate 4 { Reset.catPort with enabled := true } } })

theorem test_wit_wake_p2 : (asleep .p2).power.state = .p2 ∧
    (∀ src < 5, 0 < src → regField (asleep .p2) 0x01100030 src 1 = 1) ∧
    (catOf (asleep .p2) 0).enabled = true ∧
    (rawReg (asleep .p2) 0x01100038).toNat + 2 ^ 32 * (rawReg (asleep .p2) 0x0110003C).toNat = (asleep .p2).now + 0 ∧
    (asleep .p2).now + 0 ≠ 0 := by decide
theorem test_wit_wake_p3 : (asleep .p3).power.state = .p3 ∧ (asleep .p3).startup.running = false ∧
    (asleep .p3).thermal.latch = false ∧ mayStart (asleep .p3) = true ∧ (asleep .p3).power.refclkOk = true ∧
    anySlot (asleep .p3) = true ∧ regField (asleep .p3) 0x01100030 3 1 = 1 := by decide

theorem test_wit_refclk : ({ (asleep .p3).startup with running := true }).running = true ∧ (asleep .p3).power.state = .p3 ∧
    mayStart (asleep .p3) = true ∧ anySlot (asleep .p3) = true := by decide
theorem test_wit_perst : ({ up.power with perstB := true }).perstB = true ∧ up.power.state ≠ .p3 ∧
    (asleep .p3).power.state = .p3 ∧ up.power.perstB = false ∧ up.power.fastClocks = true ∧
    ({ up.power with pcieUp := true }).pcieUp = true := by decide
theorem test_wit_interlock : up.power.intlkLow = false ∧ up.power.state ≠ .p4 ∧ 4000 ≤ 4000 ∧
    max ({ up.power with intlkLow := true, intlkStamp := 500 }).intlkStamp up.power.intlkRise + 40000000 ≤ up.now + 39999500 ∧
    TapInstr.bypass ≠ .other := by decide

/-- CAB_SELECT of cabinet `c` for every head at once. -/
def cabSel (c : Nat) : Desc := dsc 0 0x0302 0 48 0 (u8 c)

theorem test_wit_cab_second : Runs (.cabSelect 0 (cabSel 7)) (ready (cabSel 7) up) ∧
    ({ (ready (cabSel 7) up).startup with pendingCab := some ⟨cabSel 1, 1, [0], 0, 0, [], 0⟩ }).pendingCab = some ⟨cabSel 1, 1, [0], 0, 0, [], 0⟩ :=
  ⟨⟨by decide, by decide, by decide⟩, by decide⟩
theorem test_wit_cab_select : Runs (.cabSelect 0 (cabSel 7)) (ready (cabSel 7) up) ∧
    (ready (cabSel 7) up).startup.pendingCab = none ∧
    ∀ k, (headOf (ready (cabSel 7) up) k).pipe.cfg = none :=
  ⟨⟨by decide, by decide, by decide⟩, by decide, fun k => by rw [heads_of rfl]; rfl⟩

/-- A user bank with one empty record word. -/
def aBank : List Byte :=
  let body := u32 0
  let h := u32 0x4D495A42 ++ u32 1 ++ u32 4 ++ u16 1 ++ u16 0 ++ u32 (crc32c body) ++ List.replicate 8 0
  h ++ u32 (crc32c h) ++ body
def bankWrite : Desc := dsc 0 0x0301 0 36 0 (u64 0x1000)

theorem test_wit_bank_write : (ready bankWrite up).startup.norWrites = [] ∧ bankWrite.fwd = none ∧
    Runs (.nvmWriteBank 0 bankWrite (.data aBank)) (ready bankWrite up) ∧ bankCheck (aBank.take bankWrite.length)
    (ready bankWrite up) = none ∧
    idleBank (ready bankWrite up) = 1 ∧
    idleBank { (ready bankWrite up) with startup := { (ready bankWrite up).startup with bank := 1 } } = 0 :=
  ⟨by decide, by decide, ⟨by decide, by decide, by decide⟩, by decide, by decide, by decide⟩

def slotWrite (n : Nat) : Desc := dsc 0 0x1602 0 n 0 (u64 0x1000 ++ u8 1)

theorem test_wit_slot_write : Runs (.fwWriteSlot 0 (slotWrite 512) ⟨true, 0, 512, 1, 2⟩ none) (ready (slotWrite 512) up) ∧
    (ready (slotWrite 512) up).wear.slot ≠ (slotWrite 512).p8 24 ∧ imageGood ⟨true, 0, 512, 1, 2⟩ = true ∧
    512 = (slotWrite 512).length ∧
    imageGood ⟨true, 0, 512, 2, 2⟩ = false :=
  ⟨⟨by decide, by decide, by decide⟩, by decide⟩
theorem test_wit_nor_done : (∃ b, ({ up.startup with norWrites := [.bank (some bankWrite) aBank] }).norWrites =
      [.bank (some bankWrite) b]) ∧
    ∃ k f, ({ up.startup with norWrites := [.slot (some (slotWrite 512)) 1 ⟨true, 0, 512, 1, 2⟩] }).norWrites =
      [.slot (some (slotWrite 512)) k f] := ⟨⟨_, rfl⟩, _, _, rfl⟩

theorem test_wit_bl_pin : Runs (.blPin 0 (dsc 0 0x1603 0 48 0 (u16 1))) (ready (dsc 0 0x1603 0 48 0 (u16 1)) up) ∧
    (∃ f ∈ (ready (dsc 0 0x1603 0 48 0 (u16 1)) up).wear.slots, imageGood f = true ∧
    f.level = (dsc 0 0x1603 0 48 0 (u16 1)).trunc.p16 16) ∧
    Runs (.blPin 0 (dsc 0 0x1603 0 48 0 (u16 2))) (ready (dsc 0 0x1603 0 48 0 (u16 2)) up) ∧
    (dsc 0 0x1603 0 48 0 (u16 2)).trunc.p16 16 ≠ 0 ∧
    (∀ f ∈ (ready (dsc 0 0x1603 0 48 0 (u16 2)) up).wear.slots, imageGood f = true → f.level ≠ (dsc 0 0x1603 0 48 0 (u16 2)).trunc.p16 16) :=
  ⟨⟨by decide, by decide, by decide⟩, by decide, ⟨by decide, by decide, by decide⟩, by decide, by decide⟩

/-! ### Service and time -/

def wearRep : Desc := dsc 0 0x1601 0 256 0 (u64 0x1000)
theorem test_wit_wear : wearRep.fwd = none ∧ Runs (.wearReport 0 wearRep) (ready wearRep up) ∧
    (ready wearRep up).meter.days < (tick (24 * 3600 * 4000000000)
    (ready wearRep up)).meter.run / (24 * 3600 * 4000000000) :=
  ⟨by decide, ⟨by decide, by decide, by decide⟩, by decide⟩
theorem test_wit_mgmt : 0x5B ≠ up.power.smbAddr ∧ 0x5A = up.power.smbAddr ∧ up.power.state ≠ .p4 ∧
    ({ up.startup with clamps := [⟨3, 0, 1, 0, 0, 9, 8, 32⟩] }).clamps[0]? = some ⟨3, 0, 1, 0, 0, 9, 8, 32⟩ ∧
    bankCheck aBank up = none ∧ up.startup.norWrites = [] := by decide

/-- PTP_CFG of source `src` on port `p` without a second port, domain 127, timeout 10. -/
def ptpDesc (src p : Nat) : Desc := dsc 0 0x1701 0 48 0 (u8 src ++ u8 p ++ u8 0xFF ++ u8 127 ++ u8 10 ++ u8 0 ++ u16 0)

/-- Ethernet port 0 enabled. -/
def ethUp : State := setRaw 0x00200010 1#32 up

theorem test_wit_ptp_cfg : Runs (.ptpCfg 0 (ptpDesc 1 0)) (ready (ptpDesc 1 0) ethUp) ∧
    ptpCheck (ptpDesc 1 0).trunc (begun (ptpDesc 1 0) (ptpDesc 1 0).trunc (tick 0 (ready (ptpDesc 1 0) ethUp))) = none ∧
    Runs (.ptpCfg 0 (ptpDesc 1 1)) (ready (ptpDesc 1 1) ethUp) ∧
    ptpCheck (ptpDesc 1 1).trunc (begun (ptpDesc 1 1) (ptpDesc 1 1).trunc (tick 0 (ready (ptpDesc 1 1) ethUp))) = some (0x680, u16 17) :=
  ⟨⟨by decide, by decide, by decide⟩, by decide, ⟨by decide, by decide, by decide⟩, by decide⟩
theorem test_wit_stamp_read : Runs (.stampRead 0 (dsc 0 0x1702 0 48 0 []))
    (ready (dsc 0 0x1702 0 48 0 []) up) := ⟨by decide, by decide, by decide⟩

/-- A timebase on PTP port 0 in state `st`. -/
def timed (st : TimeState) : Timebase := { Reset.time with source := 1, state := st, lastSync := some (1, 2) }
/-- A message of sender 9 on port 0 without a tag, eight times a second. -/
def aSync (kind : PtpKind) (dom : Nat) : PtpMsg :=
  ⟨0, kind, true, 0, dom, -1, ⟨1, 500, 3⟩, 3, 9, true, ⟨128, 6, 0x21, 100, 128, 77, 0⟩, none⟩
/-- The master of `aSync`, heard at `at_`. -/
def aMaster (at_ : Nat) : Foreign := ⟨0, 9, (aSync .announce 127).master, -1, at_, 1⟩
/-- That master heard once before. -/
def heardOnce : State := { up with time := { timed .powerOn with masters := [aMaster 900] } }

theorem locks_of {s : State} (h : s.catum.locks = List.replicate 8 Reset.frameLock) (k : Nat) : lockOf s k = Reset.frameLock := by
  rw [lockOf, h]
  rcases Nat.lt_or_ge k 8 with hk | hk
  · simp only [List.getD, List.getElem?_replicate, hk, if_true, Option.getD_some]
  · simp only [List.getD, List.getElem?_replicate, Nat.not_lt.mpr hk, if_false, Option.getD_none]

theorem test_wit_ptp_message : NoFaults up ∧ (timed .powerOn).source = 1 ∧
    (aSync .syncTwo 127).port = (timed .powerOn).portPri ∧
    (aSync .syncTwo 127).vlan = ethVlan up 0 ∧ ({ aSync .syncTwo 127 with vlan := 5 } : PtpMsg).vlan ≠ ethVlan up 0 ∧
    ptpSupported (aSync .syncTwo 128) = false ∧ ptpSupported (aSync .syncTwo 127) = true ∧
    (aSync .syncTwo 127).domain = (timed .powerOn).domain ∧ ptpSupported (aSync .announce 127) = true ∧
    bestMaster (hearMaster (aSync .announce 127) (tick 0 heardOnce)).time 1000 = some { aMaster 1000 with prev := 900 } ∧
    heardOnce.time.state = .powerOn :=
  ⟨⟨rfl, rfl, rfl⟩, by decide⟩
theorem test_wit_time_kept : (timed .powerOn).lastSync ≠ none ∧
    slewLeft { up with time := { timed .slewing with slew := 400 } } ≤ 400 ∧
    (timed .locked).source = 1 ∧ ({ timed .locked with masters := [aMaster 900], parent := 9 }).state = .locked ∧
    (∀ f ∈ [aMaster 900], f.selected { timed .locked with masters := [aMaster 900], parent := 9 } = true ∧
      f.fresh (timed .locked) (up.now + 6000000000) = false ∧ f.port = (timed .locked).port) ∧
      ∀ k, (lockOf up k).role = 0 :=
  ⟨by decide, by decide, by decide, by decide, by decide, fun k => by rw [locks_of rfl]; rfl⟩

/-! ### Ingest, exhibits and admission -/

def pixels (base : Nat) (st : ExhState) : Exhibit :=
  ⟨0, false, base, 8192, 0, 8, 64, 64, 256, st, 0xFFFFFFFF, 0xFFFFFFFF, [], [], []⟩
def store (base size : Nat) : Exhibit := ⟨1, false, base, size, 0, 0, 0, 0, 0, .free, 0xFFFFFFFF, 0xFFFFFFFF, [], [], []⟩

/-- Exhibits 4 and 5 for a chain of frames, 10 READY, 11 pinned by head 0, 1 to 3 stores; every capacity 1,000,000. -/
def stocked : State := { up with adm := { up.adm with
  caps := List.replicate 44 1000000
  exhibits := [(1, store 0x100000 65536), (2, store 0x200000 65536), (3, store 0x300000 65536),
    (4, { pixels 0x400000 .free with size := 16384 }), (5, { pixels 0x500000 .free with size := 16384 }), (10, pixels 0x600000 .ready),
    (11, { pixels 0x700000 .pinned with pins := [(0, 3)] })] } }

/-- FLOW_OPEN of a host-push flow of 64 by 64 at 60 Hz on the chain 4, 5, context 1023. -/
def openPush : Desc := dsc 0 0x0401 0 48 1023
  (u8 3 ++ u8 0 ++ u8 0 ++ u8 0 ++ u16 64 ++ u16 64 ++ u8 0 ++ u8 8 ++ u8 0 ++ u8 2 ++ List.replicate 20 0 ++ u32 60 ++ u32 1 ++
    u16 4 ++ u8 2 ++ u8 0 ++ u16 2000 ++ u16 0)

theorem test_wit_flow_open : Runs (.flowOpen 0 openPush) (ready openPush stocked) ∧
    flowFormatBad openPush.trunc (begun openPush openPush.trunc (tick 0 (ready openPush stocked))) = none ∧
    (flowCfgOf openPush.trunc).ports.any (portTaken (begun openPush openPush.trunc (tick 0 (ready openPush stocked)))) = false ∧
    shortage (begun openPush openPush.trunc (tick 0 (ready openPush stocked))) (.flow openPush.trunc.context)
      (flowUnits (begun openPush openPush.trunc (tick 0 (ready openPush stocked))) (flowCfgOf openPush.trunc)) = none :=
  ⟨⟨by decide, by decide, by decide⟩, by decide, by decide, by decide⟩
theorem test_wit_flow_refused : ∃ n, shortage { stocked with adm := { stocked.adm with caps := List.replicate 44 0 } }
    (.flow 1023) (flowUnits stocked (flowCfgOf openPush.trunc)) = some n := ⟨_, rfl⟩

def aFlow : Flow := newFlow (flowCfgOf openPush.trunc) openPush 900
def aFrame : OpenFrame := ⟨0, some 4, 100, 7, [], false, none, 0, [3], none, false⟩

/-- The flow open in context 1023. -/
def flowing (f : Flow) : State := { stocked with ingest := { stocked.ingest with flows := [(1023, f)] } }
def opened : Flow := { aFlow with begunAny := true, openFrame := some aFrame, lastStart := 100 }

theorem test_wit_flow_close : Runs (.flowClose 0 (dsc 0 0x0402 0 48 1023 []))
    (ready (dsc 0 0x0402 0 48 1023 []) (flowing aFlow)) ∧
    flowOf (ready (dsc 0 0x0402 0 48 1023 []) (flowing aFlow)) 1023 = some aFlow ∧ aFlow.closing = none ∧
    aFlow.openFrame = none ∧ aFlow.due = [] ∧
    aFlow.begunAny = false ∧ opened.openFrame ≠ none ∧ Runs (.flowClose 0 (dsc 0 0x0402 0 48 1023 []))
    (ready (dsc 0 0x0402 0 48 1023 []) (flowing opened)) :=
  ⟨⟨by decide, by decide, by decide⟩, by decide, by decide, by decide, by decide, by decide, by decide,
   ⟨by decide, by decide, by decide⟩⟩

def aPush : Desc := dsc 0 0x0403 0 4096 1023 (u64 0x1000 ++ u32 4096)
theorem test_wit_host_push : Runs (.hostPush 0 aPush) (ready aPush (flowing opened)) ∧
    flowOf (ready aPush (flowing opened)) aPush.context = some opened ∧
    opened.openFrame = some aFrame ∧ bitOf (aPush.p8 28) 0 = false ∧ opened.cfg.stampLog = false ∧
    aFrame.exh = some 4 ∧ ∃ e, exhOf (ready aPush (flowing opened)) 4 = some e ∧
      anyFrozen (ready aPush (flowing opened)) (e.base + aPush.p32 24) aPush.length = false :=
  ⟨⟨by decide, by decide, by decide⟩, by decide, by decide, by decide, by decide, by decide, _, rfl, by decide⟩

theorem test_wit_deadline : opened.due = [] ∧ opened.openFrame = some aFrame ∧ aFrame.exh = some 4 ∧ opened.closing = none ∧
    opened.begunAny = true ∧ opened.group = none ∧ opened.state = .live ∧ opened.cfg.source ≠ 1 ∧
    flowReached (tick 200000000 (flowing opened)) opened.cfg aFrame.tStart 1 opened.cfg.window = true ∧
    flowReached (tick 300000000 (flowing opened)) opened.cfg opened.lastStart 2 opened.cfg.window = true ∧
    flowReached (tick 200000000 (flowing opened)) opened.cfg 100 opened.cfg.freeze 0 = true ∧
    ({ opened with state := .frozen, frozenAt := some 100 }).frozenAt = some 100 := by decide
theorem test_wit_paths : ({ opened.cfg with portSec := some 1 }).portSec = some 1 ∧
    ({ opened with pathSec := true, lastSec := 1000 }).pathSec = true ∧ opened.lostPri = false ∧
    ({ opened with lastPri := 1, lastSec := 1000 }).lastPri + 400000000 ≤ 1000 + 399999001 ∧
    1000 + 399999001 < ({ opened with lastPri := 1, lastSec := 1000 }).lastSec + 400000000 ∧
    ({ opened with pathPri := true }).pathPri = true ∧ opened.lostSec = false ∧
    ({ opened with lastSec := 1, lastPri := 1000 }).lastSec + 400000000 ≤ 1000 + 399999001 ∧
    1000 + 399999001 < ({ opened with lastSec := 1, lastPri := 1000 }).lastPri + 400000000 ∧
    ({ opened with group := some ⟨0, 0, 1, true, false, true, false, 100⟩ }).group = some ⟨0, 0, 1, true, false, true, false, 100⟩ ∧
    100 + 4000 ≤ 1000 + 3100 := by decide

/-- An Ethernet flow of port 0 to group 9, UDP port 5, payload type 96. -/
def ethFlow (f : Flow) : Flow := { f with cfg := { f.cfg with source := 0, portPri := 0, groupPri := 9, udpPri := 5, pt := 96 } }
def ethState (f : Flow) : State := setRaw 0x00200010 1#32 (flowing (ethFlow f))
def aPacket : EthPkt := ⟨0, true, 1522, 0, 1, 9, 5, 96, false, 7, 3, [], []⟩

theorem test_wit_eth_repeat : ethRuns (ethState opened) 0 = true ∧ ethFits (ethState opened) 0 aPacket = true ∧
    aPacket.cls ≠ 2 ∧ matchFlow (ethState opened) 0 aPacket = some (1023, false) ∧
    flowOf (ethState opened) 1023 = some (ethFlow opened) ∧ aPacket.pt = (ethFlow opened).cfg.pt ∧
    rowsOutside (ethState opened) (ethFlow opened) aPacket = false ∧ isLate (ethFlow opened) aPacket.rtp = false ∧
    ofStarved (ethFlow opened) aPacket.rtp = false ∧ (ethFlow opened).lostPri = false ∧
    aFrame.rtp = aPacket.rtp ∧ aFrame.seqs.contains aPacket.seq = true ∧
    ethFits (ethState opened) 0 { aPacket with size := 1523 } = false ∧
    matchFlow (ethState opened) 0 { aPacket with udp := 6 } = none := by decide
theorem test_wit_eth_first : matchFlow (ethState aFlow) 0 aPacket = some (1023, false) ∧
    (ethFlow aFlow).cfg.source = 0 ∧ (ethFlow aFlow).cfg.stampLog = false ∧ isLate (ethFlow aFlow) aPacket.rtp = false ∧
    ofStarved (ethFlow aFlow) aPacket.rtp = false ∧ (ethFlow aFlow).closing = none ∧ (ethFlow aFlow).state = .live ∧
    (ethFlow aFlow).lostPri = false ∧
    (ethFlow aFlow).openFrame = none ∧ (ethFlow aFlow).begunAny = false ∧
    pickExh (ethState aFlow) (ethFlow aFlow).cfg = some 4 ∧
    (exhOf (ethState aFlow) 4).isSome = true ∧ aPacket.rows = [] := by decide

/-- A trained DisplayPort sink 0, its HPD high, a flow of it open in context 1023. -/
def dpState (f : Flow) : State :=
  setRaw 0x00200200 0x9#32 { flowing { f with cfg := { f.cfg with source := 2, portPri := 4 } } with
    ingest := { (flowing { f with cfg := { f.cfg with source := 2, portPri := 4 } }).ingest with
      dp := [{ Reset.dpSink with trained := true, begun := true }, Reset.dpSink] } }

theorem test_wit_dp : NoFaults (setRaw 0x00200200 0x9#32 up) ∧ hpdHigh (setRaw 0x00200200 0x9#32 up) 0 = true ∧
    4 ≤ maxRate (setRaw 0x00200200 0x9#32 up) 0 ∧ (dpOf up 0).trained = false ∧
    (dpOf (dpState opened) 0).trained = true ∧ sinkFlow up 0 = none ∧
    (∃ f, sinkFlow (dpState opened) 0 = some (1023, f) ∧ flowOf (dpState opened) 1023 = some f ∧ f.openFrame = some aFrame ∧
      f.cfg.stampLog = false ∧ 62 + 1 ≠ f.cfg.height) ∧ aFrame.endSeen = false ∧
    (dpOf (dpState opened) 0).discard = false ∧ (dpOf (dpState opened) 0).begun = true :=
  ⟨⟨rfl, rfl, rfl⟩, by decide, by decide, by decide, by decide, by decide, ⟨_, rfl, rfl, rfl, by decide,
  by decide⟩, by decide,
   by decide, by decide⟩

/-- EXH_REGISTER of handle 16383: 64 by 64 pixels, 16 KiB at `base`. -/
def exhReg (base : Nat) : Desc := dsc 0 0x0501 0 48 0
  (u16 16383 ++ u8 0 ++ u8 0 ++ u32 0 ++ u64 base ++ u64 16384 ++ u8 0 ++ u8 8 ++ u16 64 ++ u16 64)

theorem test_wit_exh_register : Runs (.exhRegister 0 (exhReg 0x800000)) (ready (exhReg 0x800000) stocked) ∧
    exhOf (ready (exhReg 0x800000) stocked) ((exhReg 0x800000).trunc.p16 16) = none ∧
    exhClash (ready (exhReg 0x800000) stocked) 0x800000 16384 = none ∧
    Runs (.exhRegister 0 (exhReg 0x600000)) (ready (exhReg 0x600000) stocked) ∧
    exhClash (ready (exhReg 0x600000) stocked) 0x600000 16384 = some 10 :=
  ⟨⟨by decide, by decide, by decide⟩, by decide, by decide, ⟨by decide, by decide, by decide⟩, by decide⟩

/-- EXH_FREE of handle `h`. -/
def exhFr (h : Nat) : Desc := dsc 0 0x0502 0 48 0 (u16 h ++ u8 0)
theorem test_wit_exh_free : Runs (.exhFree 0 (exhFr 10)) (ready (exhFr 10) stocked) ∧ Runs (.exhFree 0 (exhFr 11))
    (ready (exhFr 11) stocked) ∧
    exhOf (ready (exhFr 11) stocked) 10 = some (pixels 0x600000 .ready) ∧ headOwned (ready (exhFr 11) stocked) 10 = none ∧
    inChain (ready (exhFr 11) stocked) 10 = none ∧
    (exhOf (ready (exhFr 11) stocked) 11).isSome = true ∧ headOwned (ready (exhFr 11) stocked) 11 = none ∧
    inChain (ready (exhFr 11) stocked) 11 = none :=
  ⟨⟨by decide, by decide, by decide⟩, ⟨by decide, by decide, by decide⟩, by decide⟩
theorem test_wit_adm_query : Runs (.admQuery 0 (dsc 0 0x0505 0 48 0 (u8 8)))
    (ready (dsc 0 0x0505 0 48 0 (u8 8)) up) := ⟨by decide, by decide, by decide⟩

/-- A transfer of 8,192 bytes of handle `h` at offset 0, RATE 0. -/
def exhXfer (op h : Nat) : Desc := dsc 0 op 0 8192 0 (u64 0x1000 ++ u16 h)
theorem test_wit_exh_transfer : Runs (.exhWrite 0 (exhXfer 0x0503 10)) (ready (exhXfer 0x0503 10) stocked) ∧
    Runs (.exhWrite 0 (exhXfer 0x0503 11)) (ready (exhXfer 0x0503 11) stocked) ∧
    Runs (.exhRead 0 (exhXfer 0x0504 10)) (ready (exhXfer 0x0504 10) stocked) ∧ (exhXfer 0x0503 10).p32 28 = 0 ∧
    (exhXfer 0x0503 10).p16 24 = 10 ∧
    anyFrozen (ready (exhXfer 0x0504 10) stocked) (0x600000 + (exhXfer 0x0503 10).p64 32) 8192 = false ∧
    (exhXfer 0x0503 11).force = false :=
  ⟨⟨by decide, by decide, by decide⟩, ⟨by decide, by decide, by decide⟩, ⟨by decide, by decide, by decide⟩,
  by decide⟩

/-- The write, or the read, under way. -/
def moving (op : Nat) : State := { stocked with adm := { stocked.adm with
  transfers := [⟨exhXfer op 10, op, 10, false, none, [], false, none, 0, 0⟩] } }
theorem test_wit_transfer_done (op : Nat) (h : op = 0x0503 ∨ op = 0x0504) : (moving op).memOk ∧
    (moving op).ecc.archives = [] ∧
    exhOf (moving op) 10 = some (pixels 0x600000 .ready) ∧ anyFrozen (moving op) 0x600000 8192 = false ∧
    ((moving op).adm.transfers.find? fun t : Transfer => t.desc.ring == 0 && t.desc.tag == 7 && (t.opcode == 0x0503 || t.opcode == 0x0504)) =
      some ⟨exhXfer op 10, op, 10, false, none, [], false, none, 0, 0⟩ ∧
    xferRevoked ⟨exhXfer op 10, op, 10, false, none, [], false, none, 0, 0⟩ (moving op) = false ∧
    anyBad (moving op) 0x600000 8192 = false ∧ (pixels 0x600000 .ready).held = [] ∧ (exhXfer op 10).fwd = none ∧
    (∀ u ∈ (moving op).adm.transfers.erase ⟨exhXfer op 10, op, 10, false, none, [], false, none, 0, 0⟩, u.object ≠ 10) ∧
    (List.replicate 8192 (1 : Byte)).length = (exhXfer op 10).length := by
  rcases h with rfl | rfl <;>
    exact ⟨⟨by decide, by decide⟩, rfl, rfl, by decide, by decide, by decide, by decide, by decide, by decide,
    by decide, by rw [List.length_replicate]; decide⟩

def tileLoad : Desc := dsc 0 0x0902 0 131072 0 (u64 0x1000 ++ u8 0 ++ u8 15)
theorem test_wit_load_done : (({ stocked with adm := { stocked.adm with
      transfers := [⟨tileLoad, 0x0902, 0, false, none, [], false, none, 0, 0⟩] } }).adm.transfers.find?
        fun t : Transfer => t.desc.ring == 0 && t.desc.tag == 7 && loadOpcodes.contains t.opcode) =
      some ⟨tileLoad, 0x0902, 0, false, none, [], false, none, 0, 0⟩ ∧ tileLoad.fwd = none ∧
    owes tileLoad { stocked with host := { stocked.host with begun := [tileLoad] } } = true := by decide

/-! ### Heads, composition, groups, the Vitrine -/

/-- A head of 64 by 64 at 60 Hz on port 0 with channels 0 and 1: F_0 at 100,000,000, CSE_0 at 25,333,333. -/
def aCfg : HeadCfg :=
  { scan := false, forerunner := 0, rateN := 60, rateD := 1, anchor := 100000000, anchorF := 0, lead := 8000000, guard := 100000,
    canvasW := 64, canvasH := 64, ports := 1, channels := 3, comp := [1, 2, 3], peak := 1000, bg := [0, 0, 0],
    prims := [65537, 65537, 65537, 65537] }

/-- Head 0 so configured, its pipe changed by `f`. -/
def headed (f : Pipe → Pipe) : State := modPipe 0 (fun p => f { p with cfg := some aCfg }) stocked

/-- Channel 1 of head 0 runs: DARK_RAMP finds it. -/
theorem test_wit_ucw_ramp : let s := modChan 1 (fun c => { c with state := .run }) (headed id)
    (chanOf s 1).state = .run ∧ 0 ∈ namedHeads (1 % 256) ∧ chanOwner s 1 = some 0 ∧ s.power.state ≠ .p2 := by decide
theorem test_wit_retire : (headOf (headed fun p => { p with composing := true }) 0).pipe.composing = true ∧
    (headOf (headed fun p => { p with composing := true }) 0).pipe.cfg ≠ none := by decide

/-- The configuration block of that head (Table 9.1) at `n` frames in `d` seconds. -/
def aBlock (n d : Nat) : List Byte :=
  padTo 128 (u8 0 ++ u8 0 ++ u8 0 ++ u8 0 ++ u32 n ++ u32 d ++ u64 100000000 ++ u32 8000000 ++ u32 100000 ++ u16 64 ++ u16 64 ++
    u16 1 ++ u16 0 ++ u48 3 ++ u16 0 ++ u16 1 ++ u16 2 ++ u16 3 ++ u16 0 ++ u32 1000 ++ u64 0 ++ u32 65537 ++ u32 65537 ++ u32 65537 ++
    u32 65537)
def headConf : Desc := dsc 0 0x0601 0 128 0 (u64 0x1000)

set_option maxRecDepth 20000 in
theorem test_wit_head_config : Runs (.headConfig 0 headConf (.data (aBlock 60 1))) (ready headConf stocked) ∧
    headConf.length = 128 ∧
    resolveBlock (begun headConf headConf (tick 0 (ready headConf stocked))) (padTo 128 (aBlock 60 1)) = aBlock 60 1 ∧
    fieldOf (aBlock 60 1) 0 1 = 0 ∧ blockBad (aBlock 60 1) = none ∧
    (blockCfg (aBlock 60 1)).comp.any (compBad (begun headConf headConf (tick 0 (ready headConf stocked))) 0 (blockCfg (aBlock 60 1))) = false ∧
    vitrineRefuses (begun headConf headConf (tick 0 (ready headConf stocked))) 0 (blockCfg (aBlock 60 1)) = none ∧
    (headOf (ready headConf stocked) 0).pipe.cfg = none ∧ 0 < (ready headConf stocked).heads.length ∧
    resourceRefused (begun headConf headConf (tick 0 (ready headConf stocked))) 0 (blockCfg (aBlock 60 1)) = none ∧
    (ready headConf stocked).power.bootStage < 3 ∧ headConf.fwd = none :=
  ⟨⟨by decide, by decide, by decide⟩, by decide⟩
theorem test_wit_head_admitted : shortage (begun headConf headConf (tick 0 stocked)) (.head 0)
    (headUnits (begun headConf headConf (tick 0 stocked)) 0 (blockCfg (aBlock 60 1))) = none := by decide
theorem test_wit_head_refused : (shortage { stocked with adm := { stocked.adm with caps := [] } } (.head 0)
    (headUnits stocked 0 (blockCfg (aBlock 60 1)))).isSome = true := by decide

/-- A descriptor that names head 0 in payload byte 16. -/
def onHead (op : Nat) (pay : List Byte) : Desc := dsc 0 op 0 48 0 (u8 0 ++ pay)

theorem test_wit_head_release : Runs (.headRelease 0 (onHead 0x0602 [])) (ready (onHead 0x0602 []) (headed id)) ∧
    (headOf (ready (onHead 0x0602 []) (headed id)) 0).pipe.releasing = none ∧
    (headOf (headed fun p => { p with releasing := some (onHead 0x0602 [], 3) }) 0).pipe.releasing ≠ none :=
  ⟨⟨by decide, by decide, by decide⟩, by decide, by decide⟩

/-- LAYER_SET of layer `y` of head 0: exhibit 10 whole, at the origin. -/
def layerDesc (y : Nat) : Desc := onHead 0x0701 (u8 y ++ u8 1 ++ u8 0 ++ u16 10 ++ u8 0 ++ u8 0 ++ u8 0 ++ u8 0 ++ u16 0 ++ u16 0 ++
  u16 64 ++ u16 64 ++ u16 0 ++ u16 0 ++ u16 64 ++ u16 64 ++ u16 4096)

theorem test_wit_layer_set : Runs (.layerSet 0 (layerDesc 15)) (ready (layerDesc 15) (headed id)) ∧
    (headOf (ready (layerDesc 15) (headed id)) 0).pipe.cfg = some aCfg ∧
    layerInvalid (begun (layerDesc 15) (layerDesc 15).trunc (tick 0 (ready (layerDesc 15) (headed id)))) aCfg (layerDesc 15).trunc = none ∧
    (layerOf (layerDesc 15).trunc).tf ≠ 15 ∧ (layerOf (layerDesc 15).trunc).enc ≠ 15 ∧
    shortage (begun (layerDesc 15) (layerDesc 15).trunc (tick 0 (ready (layerDesc 15) (headed id)))) (.layer 0 15)
      (layerUnits (begun (layerDesc 15) (layerDesc 15).trunc (tick 0 (ready (layerDesc 15) (headed id)))) 0 aCfg 15 (layerOf (layerDesc 15).trunc)) = none ∧
    layerInvalid (begun (layerDesc 16) (layerDesc 16).trunc (tick 0 (ready (layerDesc 15) (headed id)))) aCfg (layerDesc 16).trunc = some 17 :=
  ⟨⟨by decide, by decide, by decide⟩, by decide⟩
theorem test_wit_coef_load : Runs (.coefLoad 0 (dsc 0 0x0801 0 16 0 (u64 0x1000 ++ u8 0 ++ u8 3 ++ u8 3 ++ u8 63)))
    (ready (dsc 0 0x0801 0 16 0 (u64 0x1000 ++ u8 0 ++ u8 3 ++ u8 3 ++ u8 63)) (headed id)) ∧
    Runs (.coefLoad 0 (dsc 0 0x0801 0 17 0 (u64 0x1000 ++ u8 0 ++ u8 0 ++ u8 0 ++ u8 0)))
    (ready (dsc 0 0x0801 0 17 0 (u64 0x1000 ++ u8 0 ++ u8 0 ++ u8 0 ++ u8 0)) (headed id)) :=
  ⟨⟨by decide, by decide, by decide⟩, ⟨by decide, by decide, by decide⟩⟩

def commitDesc : Desc := onHead 0x0702 (List.replicate 3 0 ++ u32 5)
def sealedAt (n : Nat) : Sealed := ⟨n, Reset.shadow, []⟩
theorem test_wit_commit : Runs (.commit 0 commitDesc) (ready commitDesc (headed id)) ∧
    (headOf (ready commitDesc (headed id)) 0).cave.state = .off ∧
    (headOf (ready commitDesc (headed id)) 0).pipe.sealed_ = [] ∧ Runs (.commit 0 commitDesc)
    (ready commitDesc (headed fun p => { p with sealed_ := [sealedAt 3, sealedAt 4] })) ∧
    sealBusy (ready commitDesc (headed fun p => { p with sealed_ := [sealedAt 3, sealedAt 4] })) 0 5 = true :=
  ⟨⟨by decide, by decide, by decide⟩, by decide, by decide, ⟨by decide, by decide, by decide⟩, by decide⟩

theorem test_wit_compose : (headOf (headed id) 0).pipe.cfg ≠ none ∧
    (headOf (headed id) 0).pipe.lastCse (1000 + 25332333) = some 0 ∧
    (headOf (headed id) 0).pipe.count = 0 ∧ (headOf (headed id) 0).pipe.stopping = false ∧
    (headOf (headed id) 0).pipe.releasing = none ∧ (headOf (headed id) 0).cave.state = .off ∧
    (headOf (headed id) 0).cave.request = none ∧ (headOf (headed fun p => { p with count := 1 }) 0).pipe.count ≠ 0 ∧
    0 ≤ (headOf (headed fun p => { p with count := 1 }) 0).pipe.frame := by decide

/-- GROUP_COMMIT of head 0 with `m` members. -/
def groupDesc (m : Nat) : Desc := dsc 0 0x0703 0 48 0 (u16 9 ++ u8 1 ++ u8 0 ++ u16 m ++ u16 0 ++ u32 5)
theorem test_wit_group_commit : Runs (.groupCommit 0 (groupDesc 1)) (ready (groupDesc 1) (headed id)) ∧
    groupRefused (begun (groupDesc 1) (groupDesc 1).trunc (tick 0 (ready (groupDesc 1) (headed id)))) [0] 1 = none ∧
    (groupDesc 1).trunc.p16 20 = 1 ∧ bitsOf ((groupDesc 1).trunc.p8 18) 8 = [0] ∧
    (headOf (ready (groupDesc 1) (headed id)) 0).pipe.sealed_ = [] ∧
    Runs (.groupCommit 0 (groupDesc 2)) (ready (groupDesc 2) (headed id)) ∧
    groupRefused (begun (groupDesc 2) (groupDesc 2).trunc (tick 0 (ready (groupDesc 2) (headed id)))) [0] 2 = some (0x988, 0) :=
  ⟨⟨by decide, by decide, by decide⟩, by decide, by decide, by decide, by decide, ⟨by decide, by decide,
  by decide⟩, by decide⟩

def aGroup : GroupC := ⟨9, some (groupDesc 2), [0], 2, 0, 0, none, [(0, 0)], 0, 0, 0⟩
def grouped : State := { headed fun p => { p with sealed_ := [⟨0, Reset.shadow, [⟨groupDesc 2, 0, false, some 9⟩]⟩] } with groups := [aGroup] }
theorem test_wit_group_go : (∃ g ∈ grouped.groups, g.gid = 9) ∧
    (grouped.groups.find? fun g : GroupC => g.gid = 9 ∧ g.desc.isSome ∧ g.go.isNone) = some aGroup ∧
    (∀ k ∈ aGroup.heads, grouped.now + 25332333 ≤ (headOf grouped k).pipe.cseAt 0) ∧
    (∀ k ∈ aGroup.heads, ∀ y ∈ (headOf grouped k).pipe.sealed_, ∀ z ∈ (headOf grouped k).pipe.sealed_,
      (∃ c ∈ y.commits, c.group = some 9) → (∃ c ∈ z.commits, c.group = some 9) → y.target = z.target ∧
      y.target ≤ 0) := by decide
theorem test_wit_group_decision : aGroup.leader = catDevice grouped ∧ (headOf grouped (aGroup.heads.headD 0)).pipe.lastCse
      (grouped.now + 25256333 + ((headOf grouped (aGroup.heads.headD 0)).pipe.cfg.elim 0 (·.guard)) - 24000) = some 0 ∧
    aGroup.target + aGroup.deferred ≤ 0 ∧ aGroup.ready.length ≠ aGroup.members := by decide
theorem test_wit_group_abandoned : ∀ k ∈ aGroup.heads, (headOf grouped k).pipe.cseAt (aGroup.target + 16) ≤ grouped.now + 1091999000 := by
  decide

/-- VITRINE_SET of head 0 with `flags` and key 5, from ring 252. -/
def vitDesc (flags : Nat) : Desc := dsc 252 0x0710 0 48 0 (u8 0 ++ u8 flags ++ u16 64 ++ u16 64 ++ u16 0 ++ u32 5)
def keyed (l : Option Nat) : State := { up with vitKey := { up.vitKey with key := 5, lockout := l } }
theorem test_wit_vitrine_set : Runs (.vitrineSet 0 (vitDesc 31)) (ready (vitDesc 31) stocked) ∧
    configured (ready (vitDesc 31) stocked) 0 = false ∧ 0 < (ready (vitDesc 31) stocked).heads.length ∧
    Runs (.vitrineSet 0 (vitDesc 31)) (ready (vitDesc 31) (headed id)) ∧
    configured (ready (vitDesc 31) (headed id)) 0 = true ∧
    vitMismatch (ready (vitDesc 31) (headed id)) 0 (vitOf (vitDesc 31).trunc false) = none :=
  ⟨⟨by decide, by decide, by decide⟩, by decide, by decide, ⟨by decide, by decide, by decide⟩, by decide, by decide⟩
def vitLoadDesc : Desc := dsc 252 0x0711 0 64 0 (u64 0x1000 ++ u8 0 ++ u8 0)
theorem test_wit_vitrine_load : Runs (.vitrineLoad 0 vitLoadDesc) (ready vitLoadDesc up) ∧
    anyFrozen (ready vitLoadDesc up) (vitAddr (ready vitLoadDesc up) 0 (1 - (headOf (ready vitLoadDesc up) 0).vit.bank) (vitLoadDesc.p8 25) (vitLoadDesc.p32 28)) vitLoadDesc.length = false :=
  ⟨⟨by decide, by decide, by decide⟩, by decide⟩
theorem test_wit_vitrine_key : served ⟨0, 0x5A, true⟩ up = true ∧ served ⟨0, 0x5A, false⟩ up = false ∧
    served ⟨0, 0x5B, true⟩ up = false ∧ up.vitKey.key = 0 ∧ (keyed (some 9)).vitKey.lockout ≠ none ∧
    (keyed none).vitKey.key ≠ 0 ∧ (keyed none).vitKey.lockout = none ∧ 6 % 2 ^ 32 ≠ (keyed none).vitKey.key ∧
    (2 ^ 32 + 5) % 2 ^ 32 = (keyed none).vitKey.key ∧ 7 < (keyed none).heads.length ∧ configured (keyed none) 7 = false ∧
    (keyed (some 1000)).vitKey.lockout = some 1000 ∧ 1000 ≤ (keyed (some 1000)).now + 0 := by decide

/-! ### Recipes, motion, the solver, scanners -/

/-- Port 0 of head 0. -/
def ported : State := modPort 0 (fun o => { o with owner := some 0 }) (headed id)

/-- A Recipe of one primary on channel 0, one array of 64 by 64 on port 0, one slot. -/
def aRecipe : List Byte :=
  padTo 24 (u16 1 ++ u8 1 ++ u8 1 ++ u8 1 ++ u8 0 ++ u8 1 ++ u8 0 ++ u8 1) ++ padTo 40 (u48 1) ++
    padTo 96 (u16 1 ++ u8 0 ++ u8 0 ++ u16 0 ++ u16 0 ++ u16 64 ++ u16 64) ++
    (u8 0 ++ u8 0 ++ u8 0 ++ u8 0 ++ u16 4096 ++ u16 40 ++ u32 0 ++ u32 8000)
def recipeDesc : Desc := dsc 0 0x0901 0 176 0 (u64 0x1000 ++ u8 0 ++ u8 0 ++ u16 6 ++ u16 2 ++ u16 3)
def parsed : Recipe := parseRecipe (padTo (max 160 recipeDesc.length) (aRecipe.take recipeDesc.length)) (recipeDesc.p16 26)
  [recipeDesc.p16 28, recipeDesc.p16 30] aCfg.scan

theorem test_wit_recipe : (headOf (ready recipeDesc ported) 0).pipe.cfg = some aCfg ∧
    Runs (.recipeLoad 0 recipeDesc (.data aRecipe)) (ready recipeDesc ported) ∧
    (headOf (ready recipeDesc ported) 0).press.pending = none ∧
    planeRecipeBad (begun recipeDesc recipeDesc (tick 0 (ready recipeDesc ported))) 0 aCfg
      (padTo (max 160 recipeDesc.length) (aRecipe.take recipeDesc.length)) recipeDesc.length parsed = none ∧
    (∀ h ∈ [recipeDesc.p16 28, recipeDesc.p16 30], parsed.storeSize aCfg ≤ (exhRange (ready recipeDesc ported) h).2) ∧
    (headOf (ready recipeDesc ported) 0).motion.counted = none ∧ recipeDesc.fwd = none ∧
    shortageMany (begun recipeDesc recipeDesc (tick 0 (ready recipeDesc ported)))
      [(.recipe 0, recipeUnits (begun recipeDesc recipeDesc (tick 0 (ready recipeDesc ported))) 0 aCfg parsed (reducedNow (ready recipeDesc ported)))] = none :=
  ⟨by decide, ⟨by decide, by decide, by decide⟩, by decide⟩

/-- MOTION_CFG of head 0: SOURCE `src`, band 16. -/
def motionDesc (src : Nat) : Desc := onHead 0x0A01 (u8 src ++ u8 0 ++ u8 63 ++ u16 1 ++ u16 16 ++ u16 1 ++ u16 2 ++ u16 3)
theorem test_wit_motion : Runs (.motionCfg 0 (motionDesc 1)) (ready (motionDesc 1) (headed id)) ∧
    motionInvalid aCfg (motionDesc 1).trunc = none ∧
    (headOf (ready (motionDesc 1) (headed id)) 0).motion.pending = none ∧
    otherBands (ready (motionDesc 1) (headed id)) 0 + bandBytes aCfg (motionOf (motionDesc 1).trunc).band ≤ motionPool ∧
    shortage (begun (motionDesc 1) (motionDesc 1).trunc (tick 0 (ready (motionDesc 1) (headed id)))) (.motion 0)
      (motionUnits (begun (motionDesc 1) (motionDesc 1).trunc (tick 0 (ready (motionDesc 1) (headed id)))) 0 aCfg (motionOf (motionDesc 1).trunc)
        (headOf (ready (motionDesc 1) (headed id)) 0).press.counted ((headOf (ready (motionDesc 1) (headed id)) 0).press.countedForm || reducedNow (ready (motionDesc 1) (headed id)))) = none ∧
    (ready (motionDesc 1) (headed id)).power.bootStage < 3 ∧
    (motionOf (motionDesc 0).trunc).source = 0 :=
  ⟨⟨by decide, by decide, by decide⟩, by decide⟩

def solverDesc : Desc := onHead 0x0D01 (u8 0 ++ u8 1 ++ u8 1 ++ u32 65536 ++ u32 40000 ++ u16 1024 ++ u8 1 ++ u8 255)
theorem test_wit_solver : Runs (.solverCfg 0 solverDesc) (ready solverDesc (headed id)) ∧
    solverInvalid (ready solverDesc (headed id)) solverDesc.trunc = none ∧
    solverBusy (ready solverDesc (headed id)) 0 = none := ⟨⟨by decide, by decide, by decide⟩, by decide, by decide⟩

/-- A calibration of one entry, channel 1. -/
def aCal : List Byte :=
  padTo 80 (u32 0 ++ u16 1) ++ u32 65536 ++ u32 256 ++ u32 16777216 ++ u32 65536 ++ u32 65536 ++ u32 65536 ++ List.replicate 24 0 ++
    padTo 32 (u8 1 ++ u8 47 ++ u8 0 ++ u8 0 ++ u32 0 ++ u32 1000 ++ u16 300 ++ u16 300)
def calDesc : Desc := dsc 0 0x0D02 0 160 0 (u64 0x1000 ++ u8 0)
theorem test_wit_cal_load : Runs (.calLoad 0 calDesc (.data aCal)) (ready calDesc (headed id)) ∧
    calInvalid (padTo (max 128 calDesc.length) (aCal.take calDesc.length)) calDesc.length = none ∧
    (∀ e ∈ (calOf (padTo (max 128 calDesc.length) (aCal.take calDesc.length))).entries, chanOwner (ready calDesc (headed id)) e.chan = some 0) ∧
    solverBusy (ready calDesc (headed id)) 0 = none := ⟨⟨by decide, by decide, by decide⟩, by decide, by decide, by decide⟩

def correctDesc : Desc := onHead 0x0D03 (u8 255 ++ u16 1 ++ u32 3 ++ u32 65536 ++ u32 65536 ++ u32 65536)
def anEst : Estimate := ⟨3, [], [16777216, 16777216, 16777216]⟩
def estimated : State := modSolver 0 (fun v => { v with history := [anEst] }) (headed id)
theorem test_wit_cal_correct : Runs (.calCorrect 0 ⟨correctDesc, []⟩) (ready correctDesc estimated) ∧
    Runs (.calCorrect 0 ⟨correctDesc, [5]⟩) (ready correctDesc estimated) ∧
    correctDesc.trunc.p16 18 = 1 ∧
    ((headOf (ready correctDesc estimated) 0).solver.history.find? fun e : Estimate => e.frame = correctDesc.trunc.p32 20) = some anEst ∧
    solverBusy (ready correctDesc estimated) 0 = none ∧ correctDesc.trunc.p8 17 = 255 ∧ meanEst [anEst.white] = (1, 1, 1) ∧
    correctDesc.trunc.p32 24 = 65536 ∧ correctDesc.trunc.p32 28 = 65536 ∧ correctDesc.trunc.p32 32 = 65536 ∧
    (1 : Rat) / 2 ≤ 65536 / 65536 / 1 ∧ (65536 : Rat) / 65536 / 1 ≤ 2 :=
  ⟨⟨by decide, by decide, by decide⟩, ⟨by decide, by decide, by decide⟩, by decide, by decide, by decide, by decide, by simp [meanEst, anEst],
  by decide, by decide,
   by decide, by norm_num, by norm_num⟩

theorem test_wit_dither : Runs (.ditherLoad 0 (dsc 0 0x0902 0 131072 0 (u64 0x1000 ++ u8 0 ++ u8 3)))
    (ready (dsc 0 0x0902 0 131072 0 (u64 0x1000 ++ u8 0 ++ u8 3)) (headed id)) :=
  ⟨by decide, by decide, by decide⟩
def scanned (f : Scan → Scan) : State :=
  modScan 0 f (headed fun p => { p with cfg := some { aCfg with scan := true } })
theorem test_wit_profile : Runs (.scanProfileLoad 0 (dsc 0 0x0C02 0 4096 0 (u64 0x1000 ++ u8 0 ++ u8 0 ++ u16 1024)))
    (ready (dsc 0 0x0C02 0 4096 0 (u64 0x1000 ++ u8 0 ++ u8 0 ++ u16 1024)) (scanned id)) :=
  ⟨by decide, by decide, by decide⟩

/-- Head 0 with host-supplied motion fields. -/
def fielded : State := modMotion 0 (fun m => { m with cfg := some (motionOf (motionDesc 1).trunc) }) (headed id)
def vectorDesc (n : Nat) : Desc := dsc 0 0x0A02 0 (fieldBytes aCfg) 0 (u64 0x1000 ++ u8 0 ++ List.replicate 3 0 ++ u32 n)
theorem test_wit_vector : Runs (.vectorLoad 0 (vectorDesc 0)) (ready (vectorDesc 0) fielded) ∧
    (headOf (ready (vectorDesc 0) fielded) 0).pipe.cfg = some aCfg ∧
    (headOf (ready (vectorDesc 0) fielded) 0).motion.cfg = some (motionOf (motionDesc 1).trunc) ∧
    (vectorDesc 0).length = fieldBytes aCfg ∧
    (vectorDesc 0).p32 28 < 3 ∧ pseOf (ready (vectorDesc 0) fielded) 0 ((vectorDesc 0).p32 28) ≤ (ready (vectorDesc 0) fielded).now + 33332333 ∧
    (ready (vectorDesc 0) fielded).now + 33332332 < pseOf (ready (vectorDesc 0) fielded) 0 ((vectorDesc 0).p32 28) ∧
    anyFrozen (ready (vectorDesc 0) fielded)
      (exhRange (ready (vectorDesc 0) fielded) (fieldExh (motionOf (motionDesc 1).trunc) ((vectorDesc 0).p32 28))).1 (vectorDesc 0).length = false ∧
    (headOf (ready (vectorDesc 0) fielded) 0).cave.state = .off :=
  ⟨⟨by decide, by decide, by decide⟩, by decide⟩

/-- Frame 0 composed under the Recipe. -/
def composed : State := modPress 0 (fun p => { p with recipe := some parsed })
  (modPipe 0 (fun p => { p with composed := [(0, 0)] }) ported)
/-- Frame 0 being pressed. -/
def aJob : PressJob := ⟨⟨0, aCfg, 0, 0, none, 0, false, [], Reset.vitrine, [], noErr⟩, parsed, false, 0⟩
def inPress : State := modPress 0 (fun p => { p with pressing := some 0, job := some aJob }) composed
theorem test_wit_press : (headOf composed 0).pipe.cfg = some aCfg ∧ (headOf composed 0).pipe.composed.head? = some (0, 0) ∧
    (headOf composed 0).press.governing 0 = some (parsed, false) ∧ pseOf composed 0 0 ≤ composed.now + 33332333 ∧
    (headOf composed 0).press.pressing ≠ some 0 ∧ 0 ∉ (headOf composed 0).press.pressed ∧
    composed.now + 33332332 < pseOf composed 0 0 ∧ parsed.isScan = false ∧
    noErrs noErr = true ∧ (headOf inPress 0).press.pressing = some 0 ∧ (headOf inPress 0).press.job = some aJob ∧
    aJob.env.errs.tiles = [] ∧ allReadable inPress = true ∧ inPress.ecc.archives = [] := by decide
/-- Fields are formed on the module (SOURCE 2). -/
def surveyed : State := modMotion 0 (fun m => { m with cfg := some (motionOf (motionDesc 2).trunc) }) composed
theorem test_wit_survey : surveyed.memOk ∧ (headOf surveyed 0).pipe.cfg = some aCfg ∧
    (headOf surveyed 0).motion.cfg = some (motionOf (motionDesc 2).trunc) ∧
    (motionOf (motionDesc 2).trunc).source = 2 ∧ surveyFrame (tick 0 surveyed) 0 (headOf surveyed 0).motion = some (0, 0) ∧
    surveyed.now + 0 ≤ pseOf surveyed 0 1 ∧ surveyed.ecc.archives = [] :=
  ⟨⟨by decide, by decide⟩, by decide⟩

/-- A solve of frame 0, displayed under the Recipe, is due. -/
def aClosed (r : Option (Recipe × Bool)) : Closed := ⟨0, Reset.solver.cfg, none, r, 66666666, (0, 0), [], false⟩
def solving (r : Option (Recipe × Bool)) : State := modSolver 0 (fun v => { v with closed := [aClosed r] }) composed
theorem test_wit_solve : (headOf (solving (some (parsed, false))) 0).solver.closed = aClosed (some (parsed, false)) :: [] ∧
    (headOf (solving none) 0).solver.closed = aClosed none :: [] ∧
    (headOf (solving none) 0).pipe.cfg = some aCfg ∧ (solving none).now + 1000 < (headOf (solving none) 0).pipe.flipAt (0 + 2) ∧
    (aClosed (some (parsed, false))).recipe = some (parsed, false) ∧ (aClosed none).recipe = none ∧
    Reset.solver.cfg.closed = false ∧ inHold (tick 1000 (solving (some (parsed, false)))) 0 = false := by decide

/-- SCAN_CONFIG of head 0: port 0, fast channel 0, slow channel 1. -/
def scanDesc (active : Nat) : Desc := onHead 0x0C01 (u8 0 ++ u8 0 ++ u8 1 ++ u8 15 ++ u8 47 ++ u16 active ++ u32 20000000 ++
  u32 20000000 ++ u16 0 ++ u16 32767 ++ u16 0 ++ u16 0 ++ u32 0)
def scanCfg : ScanCfg := scanOf (scanDesc 32768).trunc
theorem test_wit_scan_config : Runs (.scanConfig 0 (scanDesc 32768)) (ready (scanDesc 32768) (scanned id)) ∧
    0 = (scanDesc 32768).trunc.p8 16 ∧
    (headOf (ready (scanDesc 32768) (scanned id)) 0).pipe.cfg = some { aCfg with scan := true } ∧
    scanInvalid { aCfg with scan := true } (scanDesc 32768).trunc = none ∧
    scanBound (ready (scanDesc 32768) (scanned id)) 0 { aCfg with scan := true } scanCfg = none ∧
    (headOf (ready (scanDesc 32768) (scanned id)) 0).scan.pending = none ∧
    shortage (begun (scanDesc 32768) (scanDesc 32768).trunc (tick 0 (ready (scanDesc 32768) (scanned id)))) (.scan 0) (scanUnits scanCfg.port) = none ∧
    (headOf (ready (scanDesc 32768) (scanned id)) 0).scan.cfg = none ∧
    (portOf (ready (scanDesc 32768) (scanned id)) scanCfg.port).state ≠ .ready ∧
    scanInvalid { aCfg with scan := true } (scanDesc 16383).trunc = some 22 :=
  ⟨⟨by decide, by decide, by decide⟩, by decide⟩
theorem test_wit_scan_fit : scanUnfit (scanned id) 0 { aCfg with scan := true } scanCfg = none := by decide

def aPass : PassAnn := ⟨1000, 0, false, 1, 0, 1, 0, 0, false⟩
def follow (l : ScanLock) (es : List Nat) : State := scanned fun v => { v with
  cfg := some scanCfg, lock := l, edges := es, ann := [aPass], t8 := 16 }
theorem test_wit_scan_follow : (headOf (follow .lost [1, 2, 3, 4, 5, 6, 7]) 0).scan.cfg = some scanCfg ∧
    (headOf (follow .lost [1, 2, 3, 4, 5, 6, 7]) 0).scan.lock ≠ .locked ∧
    (headOf (follow .lost [1, 2, 3, 4, 5, 6, 7]) 0).scan.edges.length < 8 ∧
    (headOf (follow .lost [1, 2, 3, 4, 5, 6, 7]) 0).scan.preds = [] ∧
    (headOf (follow .locked [996]) 0).scan.edges = 996 :: [] ∧
    (headOf (follow .locked [996]) 0).scan.lock = .locked ∧
    996 + 3 * (headOf (follow .locked [996]) 0).scan.t8 / 16 < (follow .locked [996]).now + 0 ∧
    (headOf (follow .locked [996]) 0).scan.ann = aPass :: [] ∧ aPass.frame = (headOf (follow .locked [996]) 0).scan.frame ∧ aPass.start ≤ (follow .locked [996]).now + 4 ∧
    (follow .locked [996]).now + 4 ≤ aPass.start + 4 ∧ (headOf (follow .locked [996]) 0).scan.preds = [] ∧
    (portOf (follow .locked [996]) scanCfg.port).state ≠ .ready ∧
    scanCfg.ampTgt * scanCfg.ampMin ≤ (headOf (follow .locked [996]) 0).scan.ampRun * 65536 := by decide

/-! ### Plane Link and Cave hold -/

/-- Port 0 in state `st`. -/
def inState (st : PortState) : State := modPort 0 (fun o => { o with state := st, owner := some 0 }) (headed id)

theorem test_wit_return_messages : NoFaults (inState .caps) ∧ (portOf (inState .caps) 0).state ≠ .down ∧
    (portOf (inState .caps) 0).state ≠ .failed ∧ 0 < (inState .caps).ports.length ∧
    (portOf (inState .ready) 0).state = .ready ∧
    (portOf (inState .ready) 0).queue = [] ∧
    (portOf (modPort 0 (fun o => { o with capsSeen := 63 }) (inState .caps)) 0).capsSeen = 63 ∧
    (portOf (inState .caps) 0).scan = false ∧ (portOf (inState .caps) 0).pair = none ∧
    (portOf (inState .caps) 0).sent = [] ∧
    (portOf (inState .bitlock) 0).state = .bitlock ∧ (portOf (inState .align) 0).state = .align ∧
    pageMatches (portOf (inState .caps) 0) 2 130 = true ∧ pageMatches (portOf (inState .caps) 0) 2 129 = false :=
  ⟨⟨rfl, rfl, rfl⟩, by decide⟩
theorem test_wit_port_timers : (portOf (inState .bitlock) 0).trainAt + 20000000 ≤ up.now + 19999000 ∧
    (portOf (inState .bitlock) 0).spared = 15 ∧
    (portOf (modPort 0 (fun o => { o with lock := 0x0FF + 0x100 - 2 ^ 7 }) (inState .bitlock)) 0).lock = 0x1FF - 2 ^ 7 ∧
    (portOf (inState .align) 0).trainAt + 400000000 ≤ up.now + 399999000 ∧
    (portOf (inState .ready) 0).lastRet + 400000 ≤ up.now + 399000 ∧
    (portOf (inState .ready) 0).lastSend + 400000 ≤ up.now + 399000 ∧
    (portOf (inState .ready) 0).lastStatus + 4000000 ≤ up.now + 3999000 ∧ (portOf (inState .caps) 0).state = .caps ∧
    (portOf (inState .caps) 0).lastStatus + 400000 ≤ up.now + 399000 := by
  decide

/-- PORT_CONFIG of port 0 for head 0 with T_RTX `rtx`. -/
def portDesc (rtx : Nat) : Desc :=
  dsc 0 0x0B01 0 48 0 (u8 0 ++ u8 0 ++ u8 0 ++ u8 0 ++ u16 0 ++ u8 0 ++ u8 0xFF ++ u16 64 ++ u16 64 ++ u32 rtx ++ u16 511 ++ u16 0)
theorem test_wit_port_config : Runs (.portConfig 0 (portDesc 800)) (ready (portDesc 800) (headed id)) ∧
    (headOf (ready (portDesc 800) (headed id)) 0).pipe.cfg = some aCfg ∧
    portLock (portDesc 800).trunc = false ∧ portInvalid aCfg (portDesc 800).trunc = none ∧
    portInvalid aCfg (portDesc 799).trunc = some 28 ∧ recipeNames (ready (portDesc 800) (headed id)) true 0 = false ∧
    recipeNames composed true 0 = true ∧
    shortage (begun (portDesc 800) (portDesc 800).trunc (tick 0 (ready (portDesc 800) (headed id)))) (.port 0 0) (portUnits 0) = none ∧
    (portOf (ready (portDesc 800) (headed id)) 0).desc = none ∧ (portOf (ready (portDesc 800) (headed id)) 0).pair = none ∧
    (portOf (ready (portDesc 800) (headed id)) 0).scan = aCfg.scan :=
  ⟨⟨by decide, by decide, by decide⟩, by decide⟩
def parkDesc : Desc := dsc 0 0x0B04 0 48 0 (u16 1)
theorem test_wit_port_park : Runs (.portPark 0 parkDesc) (ready parkDesc (inState .ready)) ∧
    bitsOf (parkDesc.trunc.p16 16) 16 = [0] ∧
    [0].find? (recipeNames (ready parkDesc (inState .ready)) false) = none ∧
    [0].find? (recipeNames composed false) = some 0 ∧
    (portOf (modPort 0 (fun o => { o with parkDesc := [(parkDesc, 5)] })
    (ready parkDesc (inState .ready))) 0).parkDesc = [(parkDesc, 5)] ∧
    5 + 4000000 ≤ up.now + 3999005 ∧ owes parkDesc { up with host := { up.host with begun := [parkDesc] } } = true :=
  ⟨⟨by decide, by decide, by decide⟩, by decide⟩

/-- The port answers that it can loop. -/
def looping : State := modPort 0 (fun o => { o with state := .ready, caps := [0, 0x01020000, 130, 0xFFFFFFFF, 0, 0] }) composed
def caveDesc (mode n : Nat) : Desc := onHead 0x0B02 (u8 mode ++ u16 n)
theorem test_wit_cave_enter : Runs (.caveEnter 0 (caveDesc 0 0)) (ready (caveDesc 0 0) looping) ∧
    holdRefused (ready (caveDesc 0 0) looping) 0 false = none ∧
    (caveDesc 0 0).trunc.p8 17 = 0 ∧ holdRefused composed 0 false = some (3, 0) ∧ Runs (.caveEnter 0 (caveDesc 1 1))
    (ready (caveDesc 1 1) looping) ∧
    (caveDesc 1 1).trunc.p8 17 = 1 ∧ caveRefused (ready (caveDesc 1 1) looping) 0 = none ∧
    Runs (.caveEnter 0 (caveDesc 2 0)) (ready (caveDesc 2 0) looping) ∧
    (caveDesc 2 0).trunc.p8 17 = 2 :=
  ⟨⟨by decide, by decide, by decide⟩, by decide, by decide, by decide, ⟨by decide, by decide, by decide⟩,
  by decide, by decide,
   ⟨by decide, by decide, by decide⟩, by decide⟩
theorem test_wit_cave_exit : Runs (.caveExit 0 (onHead 0x0B03 [])) (ready (onHead 0x0B03 []) looping) ∧
    (headOf (ready (onHead 0x0B03 []) looping) 0).cave.state = .off ∧
    (headOf (modCave 0 (fun v => { v with state := .hold }) (ready (onHead 0x0B03 []) looping)) 0).cave.state = .hold :=
  ⟨⟨by decide, by decide, by decide⟩, by decide, by decide⟩

/-- The frame has been pressed. -/
def pressed : State := modPress 0 (fun p => { p with pressed := [0] }) looping
def theArray : ArrayEnt := ⟨1, 0, 0, 0, 0, 64, 64⟩
def theSlot : Slot := ⟨0, 0, 0, 0, 4096, 40, 0, 8000⟩
theorem test_wit_load_start : (portOf pressed 0).owner = some 0 ∧ (portOf pressed 0).state = .ready ∧
    (portOf pressed 0).scan = false ∧
    (headOf pressed 0).press.governing 0 = some (parsed, false) ∧ parsed.arrayOf 0 = some (theArray, 0) ∧
    (parsed.flips false 0).findIdx? (fun x => x.order = 0) = some 0 ∧ (parsed.flips false 0)[0]? = some theSlot ∧
    (headOf pressed 0).pipe.safeDark = false ∧ 0 ∈ (headOf pressed 0).press.pressed ∧ (headOf pressed 0).cave.state = .off ∧
    (portOf pressed 0).lastLoad = none ∧
    max (bufferFree pressed 0 0 0 0 (bits ((portOf pressed 0).caps.getD 1 0) 16 8) (parsed.flips false 0)) (prdOf pressed 0 0) ≤
      pressed.now + 99998999 ∧
    pressed.now + 99998999 < slotStamp_ (headOf pressed 0).pipe 0 theSlot ∧
    (portOf pressed 0).readyAt + tLead pressed aCfg parsed ≤ (headOf pressed 0).pipe.flipAt 0 := by decide
theorem test_wit_slot_flip : (headOf pressed 0).pipe.cfg ≠ none ∧
    pressed.now + 99998999 < (headOf pressed 0).pipe.flipAt 0 ∧
    (headOf pressed 0).pipe.flipAt 1 ≤ pressed.now + 166665667 ∧ (headOf pressed 0).pipe.flipAny = false ∧
    (headOf pressed 0).pipe.nextRate = none ∧ (headOf pressed 0).pipe.releasing = none ∧
    (headOf pressed 0).pipe.stopping = false := by decide

/-! ### The loop engine -/

/-- LOOP_SET of channel 47 outside the schedule: 4,005 units a sample, one input, AIN 0. -/
def loopDesc (ts : Nat) : Desc := dsc 0 0x0E01 0 48 0 (u8 47 ++ u8 0 ++ u8 2 ++ u8 1 ++ u32 ts ++ u8 0 ++ u8 0xFF ++ u8 0xFF ++ u8 0 ++
  u8 0 ++ u8 0 ++ u16 1 ++ u32 0 ++ u32 0 ++ u32 524287 ++ u32 0 ++ u32 524287)
def theLoop : LoopCfg := loopOf (loopDesc 4005).trunc

theorem test_wit_loop_set : Runs (.loopSet 0 (loopDesc 4005)) (ready (loopDesc 4005) stocked) ∧
    (chanOf (ready (loopDesc 4005) stocked) 47).state ≠ .unavailable ∧
    loopInvalid (ready (loopDesc 4005) stocked) (loopDesc 4005).trunc = none ∧
    (chanOf (ready (loopDesc 4005) stocked) 47).pendCfg = none ∧
    leadBreach (ready (loopDesc 4005) stocked) 47 theLoop.lead = none ∧
    shortage (begun (loopDesc 4005) (loopDesc 4005).trunc (tick 0 (ready (loopDesc 4005) stocked))) (.loopSet 47 (chanOwner (ready (loopDesc 4005) stocked) 47) theLoop.sched)
      [(36, theLoop.cost)] = none :=
  ⟨⟨by decide, by decide, by decide⟩, by decide⟩
theorem test_wit_loop_refused : shortage { stocked with adm := { stocked.adm with caps := [] } }
    (.loopSet 47 (chanOwner stocked 47) theLoop.sched) [(36, theLoop.cost)] = some (36, 17) := by decide

/-- Channel 47 with its loop set admitted and in force, changed by `f`. -/
def looped (f : Chan → Chan) : State :=
  modChan 47 (fun c => f { c with cfg := some theLoop })
    { stocked with adm := { stocked.adm with items := [⟨.loopSet 47 none false, 0, 5, loopDesc 4005, [(36, 1)], [], false⟩] } }
def enableDesc (act : Nat) : Desc := dsc 0 0x0E02 0 48 0 (u48 (2 ^ 47) ++ u8 act ++ u8 0 ++ u64 0)
theorem test_wit_chan_enable : Runs (.chanEnable 0 (enableDesc 0)) (ready (enableDesc 0) (looped id)) ∧
    enableInvalid (enableDesc 0).trunc = none ∧
    bitsOf (fieldOf (enableDesc 0).trunc.bytes 16 6) 48 = [47] ∧ loopAdmitted (ready (enableDesc 0) (looped id)) 47 = true ∧
    (ready (enableDesc 0) (looped id)).power.intlkLow = false ∧ (ready (enableDesc 0) (looped id)).power.resetB = false ∧
    (chanOf (ready (enableDesc 0) (looped id)) 47).admittedCfg.isSome = true ∧
    (chanOf stocked 47).admittedCfg.isSome = false ∧ (enableDesc 2).trunc.p8 22 ≠ 0 :=
  ⟨⟨by decide, by decide, by decide⟩, by decide⟩
def coefDesc : Desc := dsc 0 0x0E03 0 48 0 (u8 47 ++ u8 1 ++ List.replicate 6 0 ++ u16 143 ++ u16 0 ++ u32 8)
theorem test_wit_coef_write : Runs (.coefWrite 0 coefDesc) (ready coefDesc (looped id)) ∧
    (∀ e ∈ coefEntries coefDesc.trunc, coefEntryOk e = true) ∧
    (chanOf (looped fun c => { c with state := .run }) 47).state = .run ∧
    (chanOf (ready coefDesc (looped id)) 47).state = .off ∧
    (chanOf (ready coefDesc (looped id)) 47).coefQ = [] ∧ 47 < (ready coefDesc (looped id)).gheler.chans.length :=
  ⟨⟨by decide, by decide, by decide⟩, by decide⟩

/-- A descriptor that names channel 47 in payload byte 16. -/
def onChan (op : Nat) (pay : List Byte) : Desc := dsc 0 op 0 48 0 (u8 47 ++ pay)
def spDesc : Desc := onChan 0x0F01 (u8 1 ++ u8 0 ++ u8 24 ++ u32 524287)
theorem test_wit_setpoint : Runs (.setpointCfg 0 spDesc) (ready spDesc (looped id)) ∧
    noLoop (ready spDesc (looped id)) 47 = none ∧
    admittedSched (ready spDesc (looped id)) 47 = false ∧ isBound (ready spDesc (looped id)) 47 = none ∧
    spInvalid (ready spDesc (looped id)) spDesc.trunc = none ∧
    (spOf (ready spDesc (looped id)) 47).pending = none := ⟨⟨by decide, by decide, by decide⟩, by decide⟩
def modeDesc : Desc := onChan 0x0F02 (u8 1 ++ u8 0 ++ u8 0 ++ u32 5)
theorem test_wit_mode_set : Runs (.modeSet 0 modeDesc) (ready modeDesc (looped id)) ∧ modeDesc.trunc.p8 17 = 1 ∧
    modeInvalid modeDesc.trunc = none ∧
    groupInvalid (ready modeDesc (looped id)) modeDesc.trunc = false := ⟨⟨by decide, by decide, by decide⟩,
    by decide, by decide, by decide⟩
def injectDesc (w : Nat) : Desc := onChan 0x0F03 (u8 2 ++ u8 w ++ u8 0 ++ u32 524287)
theorem test_wit_inject : Runs (.inject 0 (injectDesc 0)) (ready (injectDesc 0) (looped id)) ∧
    injectInvalid (injectDesc 0).trunc = none ∧
    (ready (injectDesc 0) (looped id)).power.stage = 0 ∧ (injectDesc 0).trunc.p8 18 ≠ 4 ∧
    (spOf (ready (injectDesc 0) (looped id)) 47).inject = none ∧
    Runs (.inject 0 (injectDesc 4)) (ready (injectDesc 4) (looped id)) ∧ injectInvalid (injectDesc 4).trunc = none ∧
    (injectDesc 4).trunc.p8 18 = 4 ∧
    (spOf (modSp 47 (fun p => { p with inject := some (injectOf (injectDesc 0) 990) })
    (ready (injectDesc 4) (looped id))) 47).inject ≠ none :=
  ⟨⟨by decide, by decide, by decide⟩, by decide, by decide, by decide, by decide, ⟨by decide, by decide,
  by decide⟩, by decide, by decide,
   by decide⟩
def captureDesc : Desc :=
  dsc 0 0x0F04 0 48 1000 (u8 47 ++ u8 3 ++ u16 256 ++ u32 2048 ++ u32 2047 ++ u16 1 ++ u8 0 ++ u8 0 ++ u8 0 ++ u8 8 ++ u8 0x1B ++ u8 0xFF)
theorem test_wit_capture : Runs (.capture 0 captureDesc) (ready captureDesc (looped id)) ∧
    captureInvalid captureDesc.trunc = none ∧
    captureOpen (ready captureDesc (looped id)) 47 = false ∧ (ready captureDesc (looped id)).power.bootStage < 1 ∧
    noLoop (ready captureDesc (looped id)) 47 = none ∧
    shortage (begun captureDesc captureDesc.trunc (tick 0 (ready captureDesc (looped id)))) (.capture 47 (captureOwner (ready captureDesc (looped id)) 47))
      (hbmCost (begun captureDesc captureDesc.trunc (tick 0 (ready captureDesc (looped id)))) (256 * 4000000000)
        (admittedTs (ready captureDesc (looped id)) 47 * captureDesc.trunc.p16 18) [captureHandle captureDesc.trunc]) = none :=
  ⟨⟨by decide, by decide, by decide⟩, by decide⟩

/-- Channel 47 running, its output 5 in force. -/
def running : State := looped fun c => { c with state := .run, applied := true, u := 5 }
theorem test_wit_aout : (chanOf running 47).upd + 100 ≤ (1000 + 0) / 200 * 200 ∧ (chanOf running 47).state = .run ∧
    (chanOf running 47).offNext = false ∧ (chanOf running 47).cfg = some theLoop ∧ (chanOf running 47).uNew = [] ∧
    (chanOf running 47).applied = true ∧ follows running 47 theLoop = false ∧ (chanOf running 47).heldAt 1000 = false ∧
    (chanOf running 47).zeroTill ≤ 1000 ∧ pinHeld running 47 = false ∧ forcedLow running = false ∧
    1000 < (chanOf (looped fun c => { c with upd := 1000 }) 47).upd + 100 ∧ 47 < running.gheler.chans.length ∧
    (chanOf (looped fun c => { c with state := .ramp, rampI := 9998 }) 47).rampI < 9999 ∧
    (chanOf (looped fun c => { c with state := .ramp, rampI := 9999 }) 47).rampI = 9999 ∧
    (chanOf (looped fun c => { c with code := 7 }) 47).state = .off ∧
    (chanOf (looped fun c => { c with code := 7 }) 47).code ≠ 0 ∧
    codeOf (aoutBipolar running 47) (bits (rawReg running (0x00A01004 + 0x40 * 47)).toNat 0 16) ≤
      codeOf (aoutBipolar running 47) (bits (rawReg running (0x00A01004 + 0x40 * 47)).toNat 16 16) := by decide
theorem test_wit_sp_safe : (spOf (modSp 47 (fun p => { p with input := .holding, lostAt := 100 }) running) 47).input = .holding ∧
    100 + (spOf running 47).cfg.holdT ≤ (1000 + 4000) / max 1 (chanOf running 47).period * (chanOf running 47).period ∧
    (spOf running 47).liveRun < 15 := by decide
theorem test_wit_range : running.host.locked = true ∧ aoutBipolar running 47 ≠ (1#32 : Word).getLsbD 0 ∧
    aoutBipolar running 47 = (2#32 : Word).getLsbD 0 ∧ State.reset.host.locked = false ∧
    (chanOf running 47).enabled = true ∧ (chanOf State.reset 47).enabled = false ∧
    lasersLow State.reset 47 = true := by decide
theorem test_wit_pulse_aux : glitch up 15 = 0 ∧ (∀ x ∈ up.gheler.pulses, x.last ≤ 1000) ∧ countsEdge up 15 .rising = true ∧
    countsEdge up 15 .falling = false ∧ isRead up (0x40 + 15) = false ∧ endCode (adcCode 32766) = false ∧
    up.gheler.auxAt.getD 15 0 < (1000 + 8000) / 4000 * 4000 ∧ 1000 / 4000 * 4000 ≤ up.gheler.auxAt.getD 15 0 ∧
    isRead (looped fun c => { c with cfg := some { theLoop with dsrc := 1, didx := 15 } }) (0x40 + 15) = true := by decide

theorem test_wit_sample : theLoop.ts ≠ 0 ∧
    freshEdge (chanOf running 47) ((1000 + 8000) / max 1 theLoop.ts * theLoop.ts) = true ∧
    ((1000 + 8000) / max 1 theLoop.ts * theLoop.ts) % 200 ≠ 0 ∧ (chanOf running 47).revoked = false ∧
    (chanOf running 47).enable = [] ∧
    chanOwner running 47 = none ∧ (chanOf running 47).pendCfg = none ∧ (chanOf running 47).coefQ = [] ∧
    (spOf running 47).modes = [] ∧
    (spOf running 47).pending = none ∧ (spOf running 47).inject = none ∧ (spOf running 47).capture = none ∧
    groupOf running 47 = none ∧
    freshEdge (chanOf running 47) ((1000 + 0) / max 1 theLoop.ts * theLoop.ts) = false ∧
    theLoop.uMin ≤ theLoop.uMax := by decide

/-! ### HBM, training, stored data, temperature -/

/-- FREQ_SET of point `p` at `at_`. -/
def freqDesc (p at_ : Nat) : Desc := dsc 0 0x1001 0 48 0 (u8 p ++ List.replicate 7 0 ++ u64 at_)
theorem test_wit_freq_set : Runs (.freqSet 0 (freqDesc 4 0)) (ready (freqDesc 4 0) up) ∧ 3 < (freqDesc 4 0).trunc.p8 16 ∧
    Runs (.freqSet 0 (freqDesc 3 1001)) (ready (freqDesc 3 1001) up) ∧ (freqDesc 3 1001).trunc.p8 16 ≤ 3 ∧
    firstNonZero (freqDesc 3 1001).trunc (span 17 23 ++ span 32 63) = none ∧
    (ready (freqDesc 3 1001) up).hbm.tsValid.getD 3 false = true ∧
    (ready (freqDesc 3 1001) up).hbm.pendFreq = none ∧
    (ready (freqDesc 3 1001) up).now + 0 < (freqDesc 3 1001).trunc.p64 24 ∧ Reset.hbm.tsValid.getD 3 false = false ∧
    ({ (ready (freqDesc 3 1001) up).hbm with pendFreq := some (freqDesc 1 9, 1, 9) }).pendFreq = some (freqDesc 1 9, 1, 9) :=
  ⟨⟨by decide, by decide, by decide⟩, by decide, ⟨by decide, by decide, by decide⟩, by decide⟩
theorem test_wit_freq_move : calledFp { up with hbm := { up.hbm with commanded := 3 } } ≠ up.hbm.fp ∧ up.hbm.m ≠ 0 ∧
    up.hbm.moving = none ∧ up.startup.running = false ∧ anyLeaving up = false ∧
    ({ up.hbm with moving := some (3, 1) }).moving = some (3, 1) ∧ up.hbm.waiting = [] ∧ up.hbm.pendFreq = none := by decide
theorem test_wit_refresh : refreshIsDue (tick 14600 up) 1 31 = true ∧ refreshIsDue (tick 14599 up) 1 31 = false ∧
    up.hbm.window = (tick 0 up).now / rdWindow up * rdWindow up ∧
    up.hbm.window ≠ (tick 40000000 up).now / rdWindow up * rdWindow up ∧ up.hbm.selfRef = false ∧
    isFrozenPc up 1 31 = false ∧ isDoubled up 1 = false ∧
    debtOf { up with hbm := { up.hbm with debts := [⟨1, 31, 7⟩] } } 1 31 < 8 ∧
    debtOf { up with hbm := { up.hbm with debts := [⟨1, 31, 3⟩], doubled := [false, true] } } 1 31 < 4 ∧
    isDoubled { up with hbm := { up.hbm with debts := [⟨1, 31, 3⟩], doubled := [false, true] } } 1 = true ∧
    ({ up.hbm with selfRef := true }).selfRef = true := by decide

/-- Pseudo-channel 31 of stack 0 reserve, 30 of stack 1 frozen in slot 61. -/
def frozen (j : List DiagJob) : State := { up with hbm := { up.hbm with
  frozen := [⟨1, 30, false, false⟩], map := upd up.hbm.map 61 (fun e => { e with frozen := true }), reserves := [(0, 31)], jobs := j } }

def memReq (a : Nat) (w : Bool) : MemReq := ⟨.layerRead, a, 8, w, 500, none, none, 5, []⟩
/-- A read of the register at 0x00B00008 by unit 5, or by the host, whose SRAM byte has `m` of its bits flipped. -/
def regReq (host : Bool) (m : Nat) : MemReq := ⟨.scrub, 64, 4, false, 0, some 1, some (0x00B00008, host), 5, if m = 0 then [] else [(67, m)]⟩
/-- Pages close after 400 ns; pseudo-channel 0 of stack 0 owes a refresh and a targeted one. -/
def owing : State := setRaw 0x00B00008 100#32 { up with hbm := { up.hbm with debts := [⟨0, 0, 2⟩], queued := [⟨0, 0, 0, 0, false⟩] } }
theorem test_wit_memory : (memReq 0 false).pool = none ∧ hbmPowered up = true ∧ hbmPowered (asleep .p3) = false ∧
    (memReq 0 true).flips = [] ∧ usable up ≤ (memReq (usable up) false).addr ∧ (memReq (usable up - 1) false).addr < usable up ∧
    up.hbm.selfRef = false ∧ ({ up.hbm with selfRef := true }).selfRef = true ∧ up.hbm.waiting = [] ∧
    (pcOf up (usable up - 1)).frozen = false ∧ (pcOf (frozen []) 0x1E8000).frozen = false ∧
    (memReq 0 true).write = true ∧ allReadable up = true ∧ debtOf up 0 0 = 0 ∧ refreshIsDue (tick 0 up) 0 0 = false ∧
    (∀ y ∈ up.hbm.queued, ¬(y.stack = 0 ∧ y.pc = 0)) ∧ regField owing 0x00B00008 0 12 ≠ 0 := by decide
theorem test_wit_memory_debt : (pcOf owing 0).frozen = false ∧ (pcOf owing 0).stack = 0 ∧ (pcOf owing 0).pc = 0 ∧
    owing.hbm.busyTill.getD 0 0 < (tick 0 owing).now - (memReq 0 false).age ∧ owing.hbm.rows = [] ∧
    debtOf owing 0 0 = 2 ∧ owing.hbm.queued = ⟨0, 0, 0, 0, false⟩ :: [] := by decide
theorem test_wit_memory_pool : (regReq false 0).pool = some 1 ∧ up.ecc.sram = [] ∧ up.hbm.waiting = [] ∧
    (regReq true 0).flips = [] ∧ (regReq false 3).write = false ∧ (regReq false 3).reg = some (0x00B00008, false) ∧
    (regReq true 3).reg = some (0x00B00008, true) ∧ (regReq false 3).flips = [(67, 3)] ∧ 3 < 2 ^ 13 ∧
    (poolDecode 1 3).1 = 2 ∧ 67 < poolSize 1 ∧ (regReq false 3).addr ≤ 67 ∧ 67 < (regReq false 3).addr + (regReq false 3).len ∧
    0x00B00008 ≠ regIrqCause ∧ 0x00B00008 ≠ regIrqCause + pf1Base := by decide
/-- A request of a frozen pseudo-channel. -/
theorem test_wit_memory_frozen : (pcOf (frozen []) (61 * 2 ^ 12)).frozen = true ∧ 61 * 2 ^ 12 < usable (frozen []) := by decide
theorem test_wit_memory_row : let e := pcOf up 0; let x := (decodeAddr up 0).2
    let c : RowCount := ⟨e.stack, e.pc, bankOf x, rowOf x / 16, 254, false⟩
    up.hbm.window = (tick 0 up).now / rdWindow up * rdWindow up ∧ (∀ g ∈ up.hbm.pages, g.row ≠ rowOf x) ∧
    c ∈ ({ up.hbm with rows := [c] }).rows ∧ (∀ q ∈ ({ up.hbm with rows := [c] }).rows, q = c) ∧ c.count + 1 < rdThr up ∧
    urgency up 0 0 ≠ 3 := by decide
theorem test_wit_hbm_cfg : State.reset.host.locked = false ∧
    (12#32 : Word).toNat % 16 = regField State.reset 0x00B00004 0 4 ∧
    8 ≤ (12#32 : Word).toNat % 16 ∧ 8 ≤ (8#32 : Word).toNat % 16 ∧
    (8#32 : Word).toNat % 16 ≠ regField State.reset 0x00B00004 0 4 ∧ State.reset.adm.exhibits = [] ∧
    (∀ k < 8, vitReset State.reset k = true) ∧ (7#32 : Word).toNat % 16 < 8 ∧ up.host.locked = true ∧
    stocked.adm.exhibits ≠ [] := by
  decide

def diag (a : Nat) (sp : Option (Nat × Nat)) : DiagJob := ⟨1, 30, a, none, true, sp⟩
theorem test_wit_freeze : slotOfPc up 1 30 = some 61 ∧ isFrozenPc up 1 30 = false ∧ up.hbm.selfRef = false ∧
    isFrozenPc (frozen []) 1 30 = true := by decide
theorem test_wit_diagnosis : (frozen [diag 3 none]).hbm.jobs = [diag 3 none] ∧ (diag 3 none).running = true ∧
    (diag 3 none).sparing = none ∧ (frozen []).hbm.moving = none ∧ (∀ f ∈ (frozen []).hbm.frozen, f.lost = false) ∧
    slotOfPc (frozen []) 1 30 = some 61 ∧ regField (setRaw 0x00B00004 0x18#32 (frozen [])) 0x00B00004 4 1 = 1 ∧
    regField (setRaw 0x00B00004 8#32 (frozen [])) 0x00B00004 4 1 = 0 ∧ reserveFor (frozen []) 1 = some (0, 31) ∧
    (diag 0 none).action ≠ 3 ∧ (diag 2 (some (0, 31))).sparing = some (0, 31) ∧ (diag 2 (some (0, 31))).action = 2 ∧
    (frozen []).ecc.archives = [] ∧ (⟨true, false, some [0, 11, 11], []⟩ : DiagResult).pprRows = some [0, 11, 11] ∧
    pprFits (frozen []) 1 30 [0, 11, 11] = true := by decide
def spareDesc (a : Nat) : Desc := dsc 0 0x1002 0 48 0 (u8 1 ++ u8 30 ++ u8 a)
theorem test_wit_spare : Runs (.channelSpare 0 (spareDesc 0)) (ready (spareDesc 0) (frozen [])) ∧
    (spareDesc 0).trunc.p8 18 = 0 ∧
    Runs (.channelSpare 0 (spareDesc 2)) (ready (spareDesc 2) (frozen [])) ∧ (spareDesc 2).trunc.p8 18 ≠ 0 ∧
    isFrozenPc up 1 30 = false ∧
    (ready (spareDesc 2) (frozen [])).hbm.jobs = [] :=
  ⟨⟨by decide, by decide, by decide⟩, by decide, ⟨by decide, by decide, by decide⟩, by decide, by decide, by decide⟩

/-- TRN_HELPER of `action` on stack 0, pseudo-channel 31, which is a reserve. -/
def helpDesc (action len : Nat) (pay : List Byte) : Desc :=
  dsc 0 0x1101 0 len 0 (u64 0x1000 ++ [])  |> fun d => { d with bytes := padTo 64 (d.bytes.take 16 ++ u8 action ++ pay) }
def reserved (l : List Session) : State := { frozen [] with training := { Reset.training with sessions := l } }
def aSession (a : Nat) (susp : Bool) : Session := ⟨helpDesc a 256 [], a, 0, 31, 0, susp, 0, 0, 5, 5, 0⟩
theorem test_wit_helper : Runs (.trnHelper 0 (helpDesc 5 256 (u8 0 ++ u8 31)))
    (ready (helpDesc 5 256 (u8 0 ++ u8 31)) (reserved [])) ∧
    helperInvalid (helpDesc 5 256 (u8 0 ++ u8 31)) = none ∧ helperInvalid (helpDesc 5 256 (u8 2)) = some 17 ∧
    offline (ready (helpDesc 5 256 (u8 0 ++ u8 31)) (reserved [])) 0 31 = true ∧
    pcBusy (ready (helpDesc 5 256 (u8 0 ++ u8 31)) (reserved [])) 0 31 = false ∧
    isFrozenPc (ready (helpDesc 5 256 (u8 0 ++ u8 31)) (reserved [])) 0 31 = false ∧
    (ready (helpDesc 5 256 (u8 0 ++ u8 31)) (reserved [])).hbm.moving = none ∧ offline up 0 31 = false ∧
    pcBusy (reserved [aSession 5 false]) 0 31 = true ∧
    helperInvalid (helpDesc 0 256 (u8 0 ++ u8 31)) = none ∧
    (∀ x ∈ (ready (helpDesc 5 256 (u8 0 ++ u8 31)) (reserved [])).training.sessions, ¬(x.stack = 0 ∧ x.pc = 31)) :=
  ⟨⟨by decide, by decide, by decide⟩, by decide⟩
theorem test_wit_helper_results : helperInvalid (helpDesc 6 16384 (List.replicate 18 0)) = none ∧
    Runs (.trnHelper 0 (helpDesc 6 16384 (List.replicate 18 0)))
    (ready (helpDesc 6 16384 (List.replicate 18 0)) up) := ⟨by decide, ⟨by decide, by decide, by decide⟩⟩
theorem test_wit_session : ((reserved [aSession 5 false]).training.sessions.find? fun x : Session => x.stack = 0 ∧
    x.pc = 31) =
      some (aSession 5 false) ∧ (aSession 5 false).suspended = false ∧ (aSession 5 false).action = 5 ∧
    (aSession 2 true).suspended = true ∧ (aSession 2 true).action ≠ 5 := by decide

/-- REGION_CFG of region 15: define 64 KiB at `base`, or remove. -/
def regionDesc (base : Nat) : Desc :=
  dsc 0 0x1201 0 48 0 (u8 15 ++ u8 0 ++ List.replicate 6 0 ++ u64 base ++ u64 65536 ++ u64 0x2000000)
def removeDesc : Desc := dsc 0 0x1201 0 48 0 (u8 15 ++ u8 1)
def archived (ready : Bool) : State := { up with ecc := { up.ecc with archives := [⟨15, 0x1000000, 65536, 0x2000000, ready, 5⟩] } }
theorem test_wit_region_define : Runs (.regionCfg 0 (regionDesc 0x1000000)) (ready (regionDesc 0x1000000) up) ∧
    regionInvalid (regionDesc 0x1000000).trunc (ready (regionDesc 0x1000000) up) = none ∧
    (regionDesc 0x1000000).trunc.p8 17 = 0 ∧
    regionOverlap (regionDesc 0x1000000).trunc (ready (regionDesc 0x1000000) up) = none ∧
    regionInvalid (regionDesc 0x1000001).trunc (ready (regionDesc 0x1000000) up) = some 24 ∧
    regionInvalid (regionDesc 0x100000).trunc stocked = none ∧
    regionOverlap (regionDesc 0x100000).trunc stocked = some 1 :=
  ⟨⟨by decide, by decide, by decide⟩, by decide⟩
theorem test_wit_region_remove : Runs (.regionCfg 0 removeDesc) (ready removeDesc (archived true)) ∧
    regionInvalid removeDesc.trunc (ready removeDesc (archived true)) = none ∧
    removeDesc.trunc.p8 17 = 1 ∧ archiveNo (ready removeDesc (archived true)) 15 = some ⟨15, 0x1000000, 65536, 0x2000000, true, 5⟩ ∧
    regionUser (ready removeDesc (archived true)) ⟨15, 0x1000000, 65536, 0x2000000, true, 5⟩ = none ∧
    regionUser { archived true with adm := { up.adm with exhibits := [(9, pixels 0x1000000 .free)] } }
      ⟨15, 0x1000000, 65536, 0x2000000, true, 5⟩ = some 9 ∧
    archiveNo (archived false) 15 = some ⟨15, 0x1000000, 65536, 0x2000000, false, 5⟩ :=
  ⟨⟨by decide, by decide, by decide⟩, by decide⟩
theorem test_wit_err_counts : Runs (.errCounts 0 (dsc 0 0x1202 0 48 0 (u8 4 ++ u8 1)))
    (ready (dsc 0 0x1202 0 48 0 (u8 4 ++ u8 1)) up) ∧
    Runs (.errCounts 0 (dsc 0 0x1202 0 48 0 (u8 31 ++ u8 0)))
    (ready (dsc 0 0x1202 0 48 0 (u8 31 ++ u8 0)) (archived true)) :=
  ⟨⟨by decide, by decide, by decide⟩, ⟨by decide, by decide, by decide⟩⟩
theorem test_wit_scrub : (∀ c ∈ up.ecc.regions, c.ueSince = 0) ∧
    up.ecc.leaked + bucketLeak up * msec ≤ up.now + 100000000000 ∧
    scrubPaused up = false ∧ (∀ x ∈ (archived true).ecc.archives, x.since < 1000) ∧ 4 < 5 ∧ 0 < scrubSize up 4 ∧
    up.ecc.lapLast = none ∧ (4, 0) ≠ lapEnd up ∧
    scrubPaused State.reset = true ∧ scrubSize up 4 ≤ scrubSize up 4 := by decide

theorem sensors_of {s : State} (h : s.thermal.sensors = List.replicate 44 Reset.sensor) (x : Nat) : sensorOf s x = Reset.sensor := by
  rw [sensorOf, h]
  rcases Nat.lt_or_ge x 44 with hx | hx
  · simp only [List.getD, List.getElem?_replicate, hx, if_true, Option.getD_some]
  · simp only [List.getD, List.getElem?_replicate, Nat.not_lt.mpr hx, if_false, Option.getD_none]
theorem test_wit_reading : neighbourMedian up 0 = none ∧ (∀ y ∈ zoneSensors (sensorZone 0), suspect up y = false ∧
      (sensorOf up y).temp ≤ limitOf 0 0 - 1) ∧ up.power.state ≠ .p3 ∧ up.power.state ≠ .p4 ∧
      (zoneOf up (sensorZone 0)).blind = false ∧
    limitOf 0 0 - 1 < limitOf 0 0 ∧ limitOf 0 0 < limitOf 0 1 ∧ (zoneOf up 0).warn = false ∧ up.thermal.latch = false ∧
    43 < up.thermal.sensors.length ∧ up.thermal.carriers.length = 2 ∧ (asleep .p3).power.state = .p3 := by
  refine ⟨?_, by decide⟩
  have h : ∀ x, (sensorOf up x).seen = false := fun x => by rw [sensors_of rfl]; rfl
  simp [neighbourMedian, h]

/-- Zone 7 changed by `f`, LATCH set. -/
def warm (f : Zone → Zone) : State := { up with thermal := { up.thermal with zones := upd up.thermal.zones 7 f, latch := true,
                                                                             latchBelow := some 1000 } }
theorem test_wit_thermal_timers : 7 < (warm id).thermal.zones.length ∧
    (zoneOf (warm fun y => { y with warn := true, warnBelow := some 1000 }) 7).warn = true ∧
    (zoneOf (warm fun y => { y with warn := true, warnBelow := some 1000 }) 7).warnBelow = some 1000 ∧
    1000 + 100 * msec ≤ up.now + 400000000 ∧
    (zoneOf (warm fun y => { y with thrAbove := some 1000 }) 7).thrAbove = some 1000 ∧
    up.now + 399999999 < 1000 + 100 * msec ∧
    (zoneOf (warm fun y => { y with thrBelow := some 1000, theta := 255 }) 7).thrBelow = some 1000 ∧
    (zoneOf (warm fun y => { y with thrBelow := some 1000, theta := 255 }) 7).theta < 256 ∧
    1000 + sec ≤ up.now + 4000000000 ∧
    up.now + 3999999999 < 1000 + sec ∧ (warm id).thermal.latch = true ∧ (warm id).thermal.latchBelow = some 1000 ∧
    1000 + 10 * sec ≤ up.now + 40000000000 := by decide
theorem test_wit_thm_read : Runs (.thmRead 0 (dsc 0 0x1301 0 48 0 (u8 43))) (ready (dsc 0 0x1301 0 48 0 (u8 43)) up) ∧
    Runs (.thmRead 0 (dsc 0 0x1301 0 48 0 (u8 0x47))) (ready (dsc 0 0x1301 0 48 0 (u8 0x47)) up) ∧
    Runs (.thmRead 0 (dsc 0 0x1301 0 48 0 (u8 0x51))) (ready (dsc 0 0x1301 0 48 0 (u8 0x51)) up) ∧
    ((ready (dsc 0 0x1301 0 48 0 (u8 0x51)) up).thermal.carriers[1]?).isSome = true :=
  ⟨⟨by decide, by decide, by decide⟩, ⟨by decide, by decide, by decide⟩, ⟨by decide, by decide, by decide⟩, by decide⟩

/-! ### Catum Link and provoked faults -/

/-- Device 5 of domain 0 in role `r`, Catum port 0 changed by `f`. -/
def joined (r : Nat) (f : CatPort → CatPort) : State :=
  modCat 0 f (setRaw 0x00F00004 (BitVec.ofNat 32 (5 + 16384 * r)) up)
def linked (r : Nat) : State := joined r fun c => { c with state := .ready, enabled := true, partner := 7 }

theorem test_wit_cat_train : NoFaults up ∧ 3 < up.catum.ports.length ∧ (catOf up 0).needed = 0xF ∧ 0xF &&& 0x1F % 32 = 0xF ∧
    0xF &&& 7 % 32 ≠ 0xF ∧ (catOf (joined 0 fun c => { c with state := .bitlock }) 0).state = .bitlock ∧
    (catOf (joined 0 fun c => { c with state := .align }) 0).state = .align ∧ (catOf (linked 0) 0).state = .ready ∧
    (catOf (joined 0 fun c => { c with state := .bitlock }) 0).trainAt + 5 * msec ≤ up.now + 19999000 ∧
    ((List.range 4).filter fun l => !bitOf (catOf (joined 0 fun c => { c with state := .bitlock, lock := 0x17 }) 0).lock l) = [3] ∧
    bitOf (catOf (joined 0 fun c => { c with state := .bitlock, lock := 0x17 }) 0).lock 4 = true ∧
    (catOf up 0).spared = 15 ∧
    2 ≤ ((List.range 4).filter fun l => !bitOf (catOf (joined 0 fun c => { c with state := .bitlock, lock := 3 }) 0).lock l).length ∧
    (catOf (joined 0 fun c => { c with state := .ident }) 0).training = true ∧ 0 + 100 * msec ≤ up.now + 399999000 ∧
    (catOf (joined 0 fun c => { c with state := .failed }) 0).state = .failed ∧
    (catOf (joined 0 fun c => { c with state := .failed }) 0).trainAt + sec ≤ up.now + 3999999000 ∧
    (catOf (linked 0) 0).linkGone 1 (up.now + 38999) = false ∧ (catOf (linked 0) 0).linkGone 1 (up.now + 39000) = true ∧
    (catOf (joined 0 fun c => { c with state := .ready, sentAt := [0] }) 0).linkGone 2 400000 = true ∧
    (catOf (linked 0) 0).linkGone 2 400000 = false ∧ (catOf (linked 0) 0).linkGone 3 0 = true :=
  ⟨⟨rfl, rfl, rfl⟩, by decide⟩

def catConf (len : Nat) : Desc := dsc 0 0x1401 0 len 0 (u64 0x1000)
theorem test_wit_cat_config : Runs (.catConfig 0 (catConf 2112) (.data [])) (ready (catConf 2112) up) ∧
    (ready (catConf 2112) up).catum.ports.length = 4 ∧ (catConf 2112).fwd = none ∧
    2112 ≤ (catConf 2112).length ∧ Runs (.catConfig 0 (catConf 2111) (.data [])) (ready (catConf 2111) up) ∧
    (catConf 2111).length < 2112 ∧
    catInvalid (ready (catConf 2111) up) (padTo 2112 (u8 16)) = some 0 :=
  ⟨⟨by decide, by decide, by decide⟩, by decide, by decide, by decide, ⟨by decide, by decide, by decide⟩,
  by decide, by decide⟩
theorem leNat_zeros {l : List Byte} (h : ∀ b ∈ l, b = 0#8) : leNat l = 0 := by
  induction l with
  | nil => rfl
  | cons b l ih => rw [leNat, h b (List.mem_cons_self ..), ih fun x hx => h x (List.mem_cons_of_mem _ hx)]; rfl
theorem padTo_zeros {n : Nat} {l : List Byte} (h : ∀ b ∈ l, b = 0#8) : ∀ b ∈ padTo n l, b = 0#8 := by
  intro b hb
  rcases List.mem_append.mp (List.mem_of_mem_take hb) with hb | hb
  · exact h b hb
  · exact List.eq_of_mem_replicate hb
theorem zero_block (i n : Nat) : fieldOf (padTo 2112 []) i n = 0 :=
  leNat_zeros (padTo_zeros fun b hb =>
    padTo_zeros (n := 2112) (l := []) (fun _ h => absurd h List.not_mem_nil) b (List.mem_of_mem_drop (List.mem_of_mem_take hb)))
theorem rings_of {s : State} (h : s.host.sq = List.replicate 256 Reset.subRing) (q : Nat) : sqOf s q = Reset.subRing := by
  rw [sqOf, h]
  rcases Nat.lt_or_ge q 256 with hq | hq
  · simp only [List.getD, List.getElem?_replicate, hq, if_true, Option.getD_some]
  · simp only [List.getD, List.getElem?_replicate, Nat.not_lt.mpr hq, if_false, Option.getD_none]
theorem zeros_valid {b : List Byte} (hb : ∀ i n, fieldOf b i n = 0) : catInvalid up b = none := by
  have h : routeByte 0 = true := rfl
  have g : fwdGood (catRole up) 0 = true := rfl
  simp only [catInvalid, zeroAt, hb, h, g, Bool.not_true, Bool.and_false, List.find?_eq_none.2 (fun _ _ => Bool.false_ne_true)]
  decide
theorem test_wit_cat_block : catInvalid up (padTo 2112 []) = none := zeros_valid zero_block
theorem test_wit_cat_free : fwdBusy up (padTo 2112 []) = none := by
  have h : Reset.subRing.enabled = false := rfl
  simp only [fwdBusy, rings_of (s := up) rfl, h, Bool.false_and, List.find?_eq_none.2 (fun _ _ => Bool.false_ne_true)]
theorem test_wit_cat_busy : fwdBusy { ringed with catum := { ringed.catum with fwd := [⟨0, 7, 1⟩] } } (padTo 2112 []) = some 0 := by
  simp only [fwdBusy, fwdEntry, zero_block]
  decide

/-- A packet for device 5 from device 7. -/
def pkt (ty vc : Nat) (pay : List Byte) : CatPkt := ⟨ty, vc, 5, 7, 16, 0, 9, pay⟩
def packets : List CatPkt :=
  [pkt 1 0 (u32 (7 * 2 ^ 16 + 2 * 2 ^ 14)), pkt 2 0 (padTo 12 (u32 0x00F00004)), pkt 2 0 (u32 0x00100008 ++ u32 1 ++ u32 9),
   pkt 3 0 (u32 77 ++ u32 0), pkt 4 0 (u32 0xC3000001 ++ u32 0 ++ u64 5 ++ u64 0), pkt 4 0 (u32 1 ++ u32 1 ++ u64 5 ++ u64 5),
   pkt 5 0 (u32 7), pkt 6 0 (padTo 80 (u32 0 ++ u32 0 ++ u64 5 ++ u16 0x0101)), pkt 7 0 (padTo 40 (u64 0 ++ u32 7)),
   pkt 8 2 (u64 0x1000 ++ u32 496 ++ u32 0), pkt 9 2 (padTo 20 (u32 0 ++ u8 0 ++ u8 1)), pkt 10 2 (padTo 17 (u64 0x1000)),
   pkt 11 3 (List.replicate 32 0), pkt 12 1 (u64 3), pkt 13 1 (padTo 32 (u16 3)), pkt 14 1 (padTo 48 (u16 4 ++ u8 0 ++ u8 0)),
   pkt 14 1 (padTo 48 (u16 4 ++ u8 0 ++ u8 2)), pkt 14 1 (padTo 48 (u16 4 ++ u8 0 ++ u8 1 ++ u32 60 ++ u32 1))]

theorem test_wit_arrives : ∀ r < 3, ∀ p ∈ packets, Arrives 0 p (linked r) := by
  have h : ∀ r < 3, ∀ p ∈ packets, (catOf (linked r) 0).state = .ready ∧ catGood p = true ∧ p.type_ ≠ 0 ∧ p.hops < 256 ∧
      p.lsn < 65536 ∧ p.lsn = (catOf (linked r) 0).lsnRx ∧ p.tag < 2 ^ 32 ∧ p.src ≠ catDevice (linked r) ∧
      p.dest = catDevice (linked r) := by decide
  exact fun r hr p hp => ⟨⟨rfl, rfl, rfl⟩, h r hr p hp⟩
theorem test_wit_roles : catRole (linked 0) = 0 ∧ catRole (linked 1) = 1 ∧ catRole (linked 2) = 2 := by decide

def linkPkt : CatPkt := pkt 0 0 (u16 0 ++ u16 0 ++ u32 0 ++ u16 64 ++ u16 16 ++ u16 256 ++ u16 512)
theorem test_wit_cat_link : catGood linkPkt = true ∧ linkPkt.src ≠ catDevice (linked 0) ∧
    (catOf (linked 0) 0).waiting = [] ∧
    bitOf (fieldOf linkPkt.payload 4 1) 0 = false := by decide
def helloPkt : CatPkt := { pkt 1 0 (u32 (7 * 2 ^ 16)) with hops := 1, dest := 0 }
theorem test_wit_cat_hello : catGood helloPkt = true ∧ helloPkt.hops = 1 ∧
    (catOf (joined 0 fun c => { c with state := .ident }) 0).state = .ident ∧
    (catOf (joined 0 fun c => { c with state := .ident }) 0).replay = [] ∧
    catRole (joined 0 fun c => { c with state := .ident }) = 0 := by
  decide
theorem test_wit_cat_member : let v := fieldOf (pkt 1 0 (u32 (5 * 2 ^ 16 + 2 * 2 ^ 14))).payload 0 4
    bits v 14 2 = 2 ∧ bits v 16 10 = catDevice (linked 1) ∧ bits v 10 4 = catDomain (linked 1) ∧
    (getKey 7 ({ (linked 1).catum with members := [(7, 1000)] }).members).isSome = true := by decide
theorem test_wit_cat_bad : (catOf (linked 0) 0).nakSent = false ∧
    (catOf (joined 0 fun c => { c with state := .ready, nakSent := true }) 0).nakSent = true ∧
    catGood (pkt 15 0 []) = false ∧
    (pkt 15 0 []).lsn = (catOf (linked 0) 0).lsnRx := by decide
def farPkt (hops : Nat) : CatPkt := { pkt 3 0 (u64 0) with dest := 6, hops := hops }
theorem test_wit_cat_forward : catGood (farPkt 2) = true ∧ (farPkt 2).dest ≠ catDevice (linked 0) ∧ 1 < (farPkt 2).hops ∧
    routeOf (taken 0 (farPkt 2) (tick 0 (linked 0))) 6 = none ∧
    routeOf (taken 0 (farPkt 2) (tick 0 { linked 0 with catum := { (linked 0).catum with routes := [(6, 3)] } })) 6 = some 3 ∧
    (farPkt 1).hops ≤ 1 := by decide

theorem test_wit_mailbox : ({ Reset.mailbox with busy := true, tag := 9, device := 7 }).tag = (pkt 3 0 (u64 77)).tag ∧
    ({ Reset.mailbox with busy := true, tag := 9, device := 7 }).device = (pkt 3 0 (u64 77)).src ∧
    Reset.mailbox.busy = false ∧
    regField (setRaw 0x00F00010 1023#32 (linked 0)) 0x00F00010 0 10 ≠ catDevice (linked 0) ∧
    1000 + msec ≤ up.now + 4000000 ∧
    barOffset false 0x00F00004 = some 0x00F00004 ∧ pairLo 0x00F00004 = false ∧ pairLo (0x00F00004 - 4) = false := by decide
theorem test_wit_domain_ucw : ucwLegal false 0xC3000001 = true ∧ ucwLegal false 0xC3000007 = false ∧
    ({ up.catum with ucw := [⟨1, 0xC3000001, false, 5, [7], some 6⟩] }).ucw = [⟨1, 0xC3000001, false, 5, [7], some 6⟩] ∧
    7 ∈ (⟨1, 0xC3000001, false, 5, [7], some 6⟩ : UcwDomain).waiting ∧ 6 + msec ≤ up.now + 3999006 ∧
    up.now + 3999005 < 6 + msec := by decide
theorem test_wit_domain_lost : (linked 2).startup.ready = true ∧ (linked 2).power.stop = none ∧
    ({ (linked 2).catum with leadLost := some 1000, followHold := 60000 }).leadLost = some 1000 ∧
    up.now + 239999999999 < 1000 + 60000 * msec ∧ 1000 + 60000 * msec ≤ up.now + 240000000000 ∧
    getKey 7 ({ (linked 1).catum with members := [(7, 1000)] }).members = some 1000 ∧
    1000 + 300 * msec ≤ up.now + 1200000000 ∧
    (linked 2).catum.helloAt + 100 * msec ≤ up.now + 399999000 ∧
    up.now + 399998999 < (linked 2).catum.helloAt + 100 * msec ∧
    (∀ x ∈ (linked 1).catum.fwdHeld, x.1 ≠ 7) ∧ (∀ j < 4, (catOf (linked 2) j).state = .ready ↔ j = 0) := by decide

def heldDesc : Desc := dsc 0 0x0101 0 16 0 []
theorem test_wit_forwarded : let b := (pkt 6 0 (padTo 80 (u32 0 ++ u32 0 ++ u64 5 ++ u16 0x0101))).payload
    let d : Desc := ⟨fieldOf b 0 1, (b.drop 16).take 64, fieldOf b 8 8, 0, some (7, fieldOf b 2 1, 0)⟩
    let e : Desc := { d with bytes := padTo 64 (u16 0xFFFF) }
    (∀ x ∈ (linked 2).host.fetched, x.ring ≠ d.ring) ∧ opcodes.contains e.opcode = false ∧
    readsHost.contains e.opcode = false ∧
    e.fence = false ∧ ({ up.catum with fwdHeld := [(7, heldDesc)] }).fwdHeld = [(7, heldDesc)] ∧
    opcodes.contains d.opcode = true ∧ readsHost.contains d.opcode = false ∧
    (compOf ((padTo 40 (u64 0 ++ u32 7)).drop 8) 0 false).tag = heldDesc.tag ∧ heldDesc.ring = 0 ∧ heldDesc.quiet = false ∧
    (compOf ((padTo 40 (u64 0 ++ u32 7)).drop 8) 0 false).notice = false ∧ (linked 2).catum.fwdHeld = [] ∧
    (List.replicate 496 (0 : Byte)).length = 496 := by decide
theorem test_wit_time_mark : ({ up.catum with exchange := some ⟨3, 100, none, none⟩ }).exchange = some ⟨3, 100, none, none⟩ ∧
    ({ up.catum with exchange := some ⟨3, 100, none, some (200, 300, 2)⟩ }).exchange = some ⟨3, 100, none, some (200, 300, 2)⟩ ∧
    ({ up.catum with marksIn := [(0, 3, 50)] }).marksIn = [(0, 3, 50)] ∧ fieldOf (pkt 12 1 (u64 3)).payload 0 2 = 3 ∧
    ({ Reset.time with source := 2, state := .acquiring }).source = 2 ∧
    routeOf { linked 0 with catum := { (linked 0).catum with routes := [(9, 0)], master := 9 } } 9 = some 0 ∧
    (linked 0).catum.ports.length = 4 ∧
    (linked 0).catum.exAt + msec ≤ up.now + 3999000 ∧ up.now + 3998999 < (linked 0).catum.exAt + msec ∧
    up.now + 39998999 < 0 + 10 * msec ∧ 0 + 10 * msec ≤ up.now + 39999000 := by decide

/-- FRAME_LOCK of head 0: ACTION `a`, LOCK_ID 4, master head 0 of device 7. -/
def lockDesc (a : Nat) : Desc := onHead 0x1402 (u8 a ++ u16 4 ++ u16 7 ++ u8 0)
def locking (f : FrameLock → FrameLock) : State := modLock 0 f (headed id)
theorem test_wit_frame_lock : Runs (.frameLock 0 (lockDesc 0)) (ready (lockDesc 0) (headed id)) ∧
    Runs (.frameLock 0 (lockDesc 1)) (ready (lockDesc 1) (headed id)) ∧
    Runs (.frameLock 0 (lockDesc 2)) (ready (lockDesc 2) (headed id)) ∧
    (ready (lockDesc 2) (headed id)).catum.locks.length = 8 ∧
    (∀ a < 3, lockBusy (ready (lockDesc 2) (headed id)) 0 a 4 = false) ∧
    lockBusy (locking fun l => { l with role := 1, lockId := 3 }) 0 1 4 = true ∧
    (lockOf (ready (lockDesc 2) (headed id)) 0).role ≠ 2 :=
  ⟨⟨by decide, by decide, by decide⟩, ⟨by decide, by decide, by decide⟩, ⟨by decide, by decide, by decide⟩,
  by decide⟩
def following : State := locking fun l => { l with role := 2, lockId := 4, masterDev := 7, masterHead := 0, heard := 1000 }
theorem test_wit_lock_packet : (lockOf (locking fun l => { l with role := 1, lockId := 4 }) 0).role = 1 ∧
    (lockOf (locking fun l => { l with role := 1, lockId := 4 }) 0).lockId = fieldOf (pkt 14 1 (padTo 48 (u16 4))).payload 0 2 ∧
    configured (headed id) 0 = true ∧ (lockOf following 0).role = 2 ∧ (lockOf following 0).request = none ∧
    (lockOf following 0).reanchor = none ∧ (∀ j < 8, j ≠ 0 → (lockOf following j).role ≠ 2 ∧
    (lockOf following j).request = none) ∧
    (lockWord (padTo 48 (u16 4 ++ u8 0 ++ u8 1 ++ u32 60 ++ u32 1))).changeAt = 0 ∧
    (lockWord (padTo 48 (u16 4 ++ u8 0 ++ u8 1 ++ u32 60 ++ u32 1))).n * aCfg.rateD =
      aCfg.rateN * (lockWord (padTo 48 (u16 4 ++ u8 0 ++ u8 1 ++ u32 60 ++ u32 1))).d ∧
    fieldOf (padTo 48 (u16 4 ++ u8 0 ++ u8 2)) 3 1 = 2 := by decide
theorem test_wit_lock_timers : (lockOf (locking fun l => { l with role := 1 }) 0).toldAt + 100 * msec ≤ up.now + 399999000 ∧
    up.now + 399998999 < (lockOf (locking fun l => { l with role := 1 }) 0).toldAt + 100 * msec ∧
    configured (headed id) 0 = true ∧
    (lockOf (locking fun l => { l with role := 1, followers := [7] }) 0).followers = [7] ∧
    (lockOf (locking fun l => { l with request := some (lockDesc 2, 4, 7, 0, 1000) }) 0).request = some (lockDesc 2, 4, 7, 0, 1000) ∧
    up.now + 3999999 < 1000 + msec ∧ 1000 + msec ≤ up.now + 4000000 ∧
    up.now + 1199999999 < (lockOf following 0).heard + 300 * msec ∧
    (lockOf following 0).heard + 300 * msec ≤ up.now + 1200000000 := by decide

/-- FAULT_SET at Catum port 0's transmit point: drop every LINK, or remove the rule. -/
def faultDesc (kind rule : Nat) : Desc := dsc 0 0x1501 0 48 0 (u8 0x20 ++ u8 rule ++ u8 kind ++ u8 0 ++ u16 1)
def armed (l : List FaultRule) (h : List HeldPkt) : State := { linked 0 with
  host := Reset.host, fault := { (linked 0).fault with armed := true, rules := l, held := h } }
theorem test_wit_fault_set : State.reset.host.locked = false ∧ up.host.locked = true ∧ up.fault.armed = false ∧
    Runs (.faultSet 0 (faultDesc 1 3)) (ready (faultDesc 1 3) (armed [] [])) ∧
    (ready (faultDesc 1 3) (armed [] [])).fault.armed = true ∧ (ready (faultDesc 1 3) (armed [] [])).power.stage = 0 ∧
    faultInvalid (faultDesc 1 3).trunc = none ∧ faultInvalid (faultDesc 1 4).trunc = some 17 ∧
    (faultDesc 1 3).trunc.p8 18 ≠ 0 ∧
    faultInvalid (faultDesc 0 3).trunc = none ∧ (faultDesc 0 3).trunc.p8 18 = 0 ∧
    (ready (faultDesc 1 3) (armed [] [])).fault.held = [] ∧
    1 ≤ ({ up.power with stage := 1 }).stage :=
  ⟨by decide, by decide, by decide, ⟨by decide, by decide, by decide⟩, by decide⟩
def dropRule : FaultRule := ruleOf (faultDesc 1 3).trunc
def heldPkt (order : Bool) (left : Nat) : HeldPkt := ⟨0, 3, .plk 9 [1], 990, order, left, 1001⟩
theorem test_wit_fault_acts : dropRule.point = 0x20 + 0 ∧ dropRule.rule < 4 ∧ dropRule.kind = 1 ∧ dropRule.trigger = 0 ∧
    bitOf dropRule.classes 0 = true ∧ dropRule.limit = 0 ∧ dropRule.at_ ≤ (armed [dropRule] []).now + 0 ∧
    (catOf (armed [dropRule] []) 0).state = .ready ∧ (armed [dropRule] []).fault.rules = [dropRule] ∧
    (armed [] [heldPkt true 1]).fault.held = [heldPkt true 1] ∧ (heldPkt true 0).left = 0 ∧ (heldPkt true 1).left ≠ 0 ∧
    (armed [] []).now + 0 < (heldPkt true 1).release ∧ (heldPkt false 0).release ≤ (armed [] []).now + 1 ∧
    (heldPkt false 0).order = false := by decide

/-! ### Clauses that wait, park and loop -/

/-- `s` while a frequency move holds the stacks in self-refresh. -/
def resting (s : State) : State := { s with hbm := { s.hbm with selfRef := true, moving := some (2, 1) } }
theorem test_wit_resting : (resting up).hbm.selfRef = true ∧ (resting { up with host := Reset.host }).host.locked = false ∧
    fixable up (usable up - 8) 8 = [] ∧ (resting up).hbm.moving ≠ none ∧ up.hbm.host = [] ∧
    (xferOf (resting (moving 0x0504)) 0 7 [0x0503, 0x0504]).isSome = true ∧
    (xferOf (resting { stocked with adm := { stocked.adm with
      transfers := [⟨tileLoad, 0x0902, 0, false, none, [], false, none, 0, 0⟩] } }) 0 7 loadOpcodes).isSome = true ∧
    archiveNo (archived false) 15 = some ⟨15, 0x1000000, 65536, 0x2000000, false, 5⟩ ∧ (archived false).hbm.moving = none ∧
    (archived false).hbm.selfRef = false := by decide
theorem test_wit_post_lost : ([0x40] : List Nat) ≠ [] ∧ 0 < ringed.host.cq.length ∧
    (∀ e ∈ ringed.host.fetched, e.ring ≠ aComp.sq) := by decide

/-- Head 0 has stopped and its ports wait for channel 1; port 0 has credit for one packet. -/
def parking : State :=
  modPipe 0 (fun p => { p with cfg := none, parkDue := some (1, 2, 1) })
    (modPort 0 (fun o => { o with state := .ready, owner := some 0, limit := 1000 }) stocked)
theorem test_wit_parks : (headOf parking 0).pipe.parkDue = some (1, 2, 1) ∧ (headOf parking 0).pipe.releasing = none ∧
    (∀ j < 8, j ≠ 0 → (headOf parking j).pipe.parkDue = none) ∧ (∀ c ∈ bitsOf 2 48, (chanOf parking c).enabled = false) ∧
    0 < parking.ports.length ∧ portsLeft parking 0 1 = [0] ∧ (portOf parking 0).state = .ready ∧
    (portOf parking 0).ending = false ∧ (portOf parking 0).allows (barePkt 3 (tick 0 parking).now) = true ∧
    parking.power.state ≠ .p4 ∧ parking.power.state ≠ .p2 ∧ parking.power.intlkLow = false := by decide
theorem test_wit_parks_path : NoFaults parking := ⟨rfl, rfl, rfl⟩
theorem test_wit_park_none : ∀ k < 8, (headOf up k).pipe.parkDue = none := by decide
theorem test_wit_park_owed : let o := portOf (modPort 0 (fun o => { o with parkOwed := some 1, limit := 0 }) parking) 0
    o.state = .ready ∧ o.parkOwed = some 1 ∧ o.ending = false ∧
    Port.allows { o with limit := 1000 } (barePkt 3 (tick 0 parking).now) = true ∧
    (portOf parking 0).parkOwed = none ∧ (headOf (inState .caps) 0).pipe.parkDue = none := by decide
theorem test_wit_release_edge : let s := { up with power := { up.power with intlkLow := true, intlkAt := 500 } }
    s.power.intlkAt ≤ 700 ∧ 700 + 40000000 ≤ s.now + 39999700 ∧ s.now + 39999699 < 700 + 40000000 := by decide
theorem test_wit_reset_lit : enabledChans (looped fun c => { c with state := .run }) ≠ [] := by decide
theorem test_wit_training_moves : (starting 3 3).hbm.moving = none ∧
    ({ (starting 3 2).hbm with moving := some (2, 4) }).moving = some (2, 4) := by decide
theorem test_wit_delay_other : let t : Timebase := { timed .locked with
      lastSync := none, portSec := some 1, other := { Reset.time.other with sync := some (1, 2) } }
    t.source = 1 ∧ t.lastSync = none ∧ t.otherPort = some 1 ∧ t.other.sync ≠ none := by decide
theorem test_wit_inject_states : let s (b : Bool) := modSp 47 (fun p => { p with
      inject := some { injectOf (injectDesc 0) 990 with active := b } }) (looped id)
    ((spOf (s true) 47).inject.map (·.active) = some true) ∧ (spOf (s false) 47).inject.map (·.active) = some false ∧
    (injectDesc 0).trunc.p8 18 ≠ 4 := by decide
theorem test_wit_sample_alone : (spOf running 47).waiting = [] ∧ (∀ o < 48, (spOf running o).modes = []) := by decide
theorem test_wit_spare_busy : (∃ y ∈ ({ (frozen []).training with
      sessions := [{ aSession 5 false with stack := 1, pc := 30 }] }).sessions, y.stack = 1 ∧ y.pc = 30) ∧
    isFrozenPc (frozen []) 1 30 = true ∧ (frozen []).hbm.jobs = [] := by decide
theorem test_wit_scrub_masks : (archived true).ecc.sram = [] ∧ poolDecode 4 1 = (1, 0) ∧ (poolDecode 0 3).1 = 2 ∧
    3 < 8192 ∧ (archived true).ecc.compBad = [] := by decide
theorem test_wit_archive_memory : (archived true).memOk := ⟨by decide, by decide⟩

/-! ### Ill-formed commands: for each check a term that it refuses -/

def okDesc : Desc := dsc 0 0x0101 0 16 0 []
def badDesc : Desc := { okDesc with bytes := okDesc.bytes.take 63 }
def okPkt : CatPkt := ⟨0, 0, 0, 0, 1, 0, 0, []⟩
def badPkt : CatPkt := { okPkt with vc := 4 }

theorem test_ill_desc_fields : okDesc.wf = true ∧ badDesc.wf = false ∧
    ({ okDesc with bytes := 0 :: okDesc.bytes } : Desc).wf = false ∧
    ({ okDesc with ring := 256 } : Desc).wf = false ∧ ({ okDesc with fwd := some (1024, 0, 0) } : Desc).wf = false ∧
    ({ okDesc with fwd := some (0, 256, 0) } : Desc).wf = false ∧
    ({ okDesc with fwd := some (0, 0, 4) } : Desc).wf = false := by decide
theorem test_ill_packet_fields : okPkt.wf = true ∧ badPkt.wf = false ∧ ({ okPkt with type_ := 256 } : CatPkt).wf = false ∧
    ({ okPkt with dest := 1024 } : CatPkt).wf = false ∧ ({ okPkt with src := 1024 } : CatPkt).wf = false ∧
    ({ okPkt with hops := 256 } : CatPkt).wf = false ∧ ({ okPkt with lsn := 65536 } : CatPkt).wf = false ∧
    ({ okPkt with tag := 2 ^ 32 } : CatPkt).wf = false ∧
    ({ okPkt with payload := List.replicate 513 0 } : CatPkt).wf = false := by decide

theorem test_ill_aux : ∀ i ∈ ([
  .auxFreeSample 0 16 0] : List Instr), i.wf = false := by decide

theorem test_ill_cab : ∀ i ∈ ([
  .inputValid 0 ⟨0, 0⟩ 8 ⟨false, [], 0, []⟩, .resetBRelease 0 8 ⟨false, [], 0, []⟩] : List Instr), i.wf = false := by decide

theorem test_ill_chan : ∀ i ∈ ([
  .loopSample 0 48 [] 0 [] 0 none, .spSafe 0 48, .aoutUpdate 0 48, .rampEnd 0 48, .aoutRangeWrite 0 48 0#32,
   .gleChClr 0 48, .gleSpClr 0 48] : List Instr), i.wf = false := by decide

theorem test_ill_ctx : ∀ i ∈ ([
  .packetGroupEnd 0 1024, .frameDeadline 0 1024, .flowStall 0 1024, .flowFallback 0 1024, .pathLost 0 1024 false] : List Instr), i.wf = false := by decide

theorem test_ill_descriptor : ∀ i ∈ ([
  .pwrSetState 0 badDesc, .nop 0 badDesc, .ledgerMark 0 badDesc, .nvmWriteBank 0 badDesc (.data []),
   .cabSelect 0 badDesc, .ptpCfg 0 badDesc, .stampRead 0 badDesc, .flowOpen 0 badDesc, .flowClose 0 badDesc,
   .hostPush 0 badDesc, .exhRegister 0 badDesc, .exhFree 0 badDesc, .exhWrite 0 badDesc, .exhRead 0 badDesc,
   .admQuery 0 badDesc, .headConfig 0 badDesc (.data []), .headRelease 0 badDesc, .layerSet 0 badDesc,
   .commit 0 badDesc, .groupCommit 0 badDesc, .vitrineSet 0 badDesc, .vitrineLoad 0 badDesc, .coefLoad 0 badDesc,
   .recipeLoad 0 badDesc (.data []), .ditherLoad 0 badDesc, .motionCfg 0 badDesc, .vectorLoad 0 badDesc,
   .portConfig 0 badDesc, .portPark 0 badDesc, .caveEnter 0 badDesc, .caveExit 0 badDesc, .scanConfig 0 badDesc,
   .scanProfileLoad 0 badDesc, .solverCfg 0 badDesc, .calLoad 0 badDesc (.data []), .calCorrect 0 ⟨badDesc, []⟩,
   .loopSet 0 badDesc, .chanEnable 0 badDesc, .coefWrite 0 badDesc, .setpointCfg 0 badDesc, .modeSet 0 badDesc,
   .inject 0 badDesc, .capture 0 badDesc, .freqSet 0 badDesc, .channelSpare 0 badDesc, .trnHelper 0 badDesc,
   .regionCfg 0 badDesc, .errCounts 0 badDesc, .thmRead 0 badDesc, .catConfig 0 badDesc (.data []),
   .frameLock 0 badDesc, .faultSet 0 badDesc, .wearReport 0 badDesc, .fwWriteSlot 0 badDesc ⟨true, 0, 0, 1, 0⟩ none,
   .blPin 0 badDesc] : List Instr), i.wf = false := by decide

theorem test_ill_head : ∀ i ∈ ([
  .retireFence 0 8, .composeStartEvent 0 8 [] [], .cmpClrLate 0 8, .cmpClrGap 0 8,
   .pressStartEvent 0 8 noErr,
   .pressFrameDone 0 8 noErr, .prsClrSlack 0 8, .prsClrDark 0 8,
   .surveyFieldDone 0 8, .motClrMiss 0 8, .slotFlip 0 8 0 0 0, .scanPhaseEdge 0 8, .scanPhaseLost 0 8,
   .scanPass 0 8 false, .scnClr 0 8, .solveDone 0 8 false, .clrLimitedClear 0 8, .lockAnnounceTimer 0 8,
   .lockRequestTimeout 0 8, .frameLockLost 0 8] : List Instr), i.wf = false := by decide

theorem test_ill_heads : ∀ i ∈ ([
  .darkNow 0 256 false false, .darkRamp 0 256 false, .stopHeads 0 256 false, .haltRings 0 256 false,
   .resumeRings 0 256 false, .stopIngest 0 256 false] : List Instr), i.wf = false := by decide

theorem test_ill_lane : ∀ i ∈ ([
  .laneLockTimeout 0 0 8, .catLaneLockTimeout 0 0 4] : List Instr), i.wf = false := by decide

theorem test_ill_pc : ∀ i ∈ ([
  .refreshDue 0 0 32 false, .hbmParityFail 0 0 32 0 0, .trnSessionDone 0 0 32 0 false ⟨[], 0, [], []⟩, .pageIdleClose 0 0 32 0] : List Instr), i.wf = false := by decide

theorem test_ill_packet : ∀ i ∈ ([
  .catLinkPacket 0 0 badPkt, .catHello 0 0 badPkt, .catPacketBad 0 0 badPkt, .catPacketForward 0 0 badPkt,
   .mbReq 0 0 badPkt, .mbResp 0 0 badPkt, .catUcwRequest 0 0 badPkt, .catUcwReport 0 0 badPkt,
   .catHostLost 0 0 badPkt, .fwdDesc 0 0 badPkt, .fwdCompl 0 0 badPkt, .dmaRdReq 0 0 badPkt (.data []),
   .dmaRdData 0 0 badPkt, .dmaWr 0 0 badPkt, .catLedger 0 0 badPkt, .timeReq 0 0 badPkt, .timeResp 0 0 badPkt,
   .catLockPacket 0 0 badPkt] : List Instr), i.wf = false := by decide

theorem test_ill_point : ∀ i ∈ ([
  .trnPointDone 0 4 0 [], .faultReorderRelease 0 64 0, .faultDelayRelease 0 64 0] : List Instr), i.wf = false := by decide

theorem test_ill_port : ∀ i ∈ ([
  .catumWake 0 4, .ethPacket 0 4 ⟨0, true, 0, 0, 0, 0, 0, 0, false, 0, 0, [], []⟩, .ethArpIcmp 0 4 0 false,
   .retCredit 0 16 0, .retNak 0 16 0 0, .retLaneLock 0 16 0 false [], .retCaps 0 16 0 0, .retStatus 0 16 0 0 0,
   .returnMessageBad 0 16, .laneLockTimeout 0 16 0, .portTrainTimeout 0 16, .returnSilent 0 16,
   .loadStart 0 16 0 0 [], .portIdleTimer 0 16, .portStatusTimer 0 16, .plkClr 0 16, .catLinkPacket 0 4 okPkt,
   .catHello 0 4 okPkt, .catPacketBad 0 4 okPkt, .catPacketForward 0 4 okPkt, .mbReq 0 4 okPkt, .mbResp 0 4 okPkt,
   .catUcwRequest 0 4 okPkt, .catUcwReport 0 4 okPkt, .catHostLost 0 4 okPkt, .fwdDesc 0 4 okPkt,
   .fwdCompl 0 4 okPkt, .dmaRdReq 0 4 okPkt (.data []), .dmaRdData 0 4 okPkt, .dmaWr 0 4 okPkt, .catLedger 0 4 okPkt,
   .timeMark 0 4 0 false, .timeReq 0 4 okPkt, .timeResp 0 4 okPkt, .catLockPacket 0 4 okPkt, .catTrainTimeout 0 4,
   .catTrainRetry 0 4, .catLinkDown 0 4 0, .catLaneLock 0 4 0 false, .catLaneLockTimeout 0 4 0, .catAckTimer 0 4,
   .portParkTimeout 0 16, .ethLinkChange 0 4 false false] : List Instr), i.wf = false := by decide

theorem test_ill_pulse : ∀ i ∈ ([
  .pulseEdge 0 16 .rising] : List Instr), i.wf = false := by decide

theorem test_ill_range : ∀ i ∈ ([
  .sensorReading 0 44 0 none, .sensorReading 0 0x52 0 none] : List Instr), i.wf = false := by decide

theorem test_ill_ring : ∀ i ∈ ([
  .tailDoorbell 0 256 0 false false, .cqHeadDoorbell 0 256 0 false false, .completionPost 0 256 [],
   .coalesceTimer 0 256, .sqEnable 0 256 false, .sqDisable 0 256 false, .cqEnable 0 256 false,
   .cqDisable 0 256 false, .transferDone 0 256 0 (.data []), .hostTransferDone 0 256 0 (.data [])] : List Instr), i.wf = false := by decide

theorem test_ill_rule : ∀ i ∈ ([
  .faultReorderRelease 0 0 4, .faultDelayRelease 0 0 4] : List Instr), i.wf = false := by decide

theorem test_ill_sink : ∀ i ∈ ([
  .dpLine 0 2 ⟨0, 0, 0, 0, 0, []⟩, .dpLinkUp 0 2 0 0, .dpLinkLost 0 2, .dpAuxTransaction 0 2 0 0 false] : List Instr), i.wf = false := by decide

theorem test_ill_stack : ∀ i ∈ ([
  .refreshDue 0 2 0 false, .hbmParityFail 0 2 0 0 0, .trnSessionDone 0 2 0 0 false ⟨[], 0, [], []⟩, .pageIdleClose 0 2 0 0] : List Instr), i.wf = false := by decide

theorem test_ill_stage : ∀ i ∈ ([
  .shedEnter 0 0 ⟨0, 0⟩, .shedEnter 0 6 ⟨0, 0⟩, .shedClear 0 0 ⟨0, 0⟩, .shedClear 0 6 ⟨0, 0⟩] : List Instr), i.wf = false := by decide

theorem test_ill_zone : ∀ i ∈ ([
  .thermWarnClear 0 8, .throttleDecay 0 8, .throttleRecover 0 8] : List Instr), i.wf = false := by decide

/-! ### Values the spec works out -/

/-- The head of "Reading a frame timeline in stamps" (chapter 0): 100 Hz, lead 500 µs, F_0 at 20,000,000,000. -/
def head100 : HeadCfg := { aCfg with rateN := 100, anchor := 20000000000, lead := 2000000 }
theorem test_timeline_stamps : head100.cse 0 = 19958000000 ∧ head100.flip 0 = 20000000000 := by decide
/-- The 120 Hz head of chapter 1. -/
def head120 : HeadCfg := { aCfg with rateN := 120, anchor := 8000000000, lead := 2000000, guard := 80000 }
theorem test_timeline_120 : head120.flip 1 = 8033333333 ∧ head120.flip 2 = 8066666666 ∧ head120.flip 3 = 8100000000 ∧
    head120.cse 2 = 8031333333 := by decide
theorem test_commit_guard : ({ Reset.pipe with cfg := some head120 }).meets 8031253333 = 2 ∧
    ({ Reset.pipe with cfg := some head120 }).meets 8031253334 = 3 := by decide

/-- "Decoding one address" (chapter 18). -/
theorem test_decode_address : decodeAddr up 0x234567890 = (43, 152709264) ∧ pcOf up 0x234567890 = ⟨1, 21, false, false⟩ ∧
    rowOf 152709264 = 9320 ∧ bankOf 152709264 = 10 ∧ (decodeAddr up 0x234568890).1 = 44 ∧
    pcOf up 0x234568890 = ⟨0, 22, false, false⟩ := by
  decide

/-- "One Archive byte" (chapter 20). -/
theorem test_archive_check : checkField 0xA7 = 0b10110 := by decide
/-- R303, R505 and R95: the checks over the ASCII bytes 123456789. -/
def digits : List Byte := [0x31, 0x32, 0x33, 0x34, 0x35, 0x36, 0x37, 0x38, 0x39]
theorem test_crc16 : crc16 digits = 0x29B1 := by decide
theorem test_crc32c : crc32c digits = 0xE3069283 := by decide
theorem test_crc32 : Machine.crc32 digits = 0xCBF43926 := by decide

/-- "One commit, two video layers" (chapter 10). -/
theorem test_decimation : (decimation 12000 6000 3840 2160).1 = 2 ∧ (decimation 12000 6000 3840 2160).2.2 = 0 ∧
    (decimation 7680 4320 1600 900).2.2 = 1 := by decide
/-- "A red bank loses six per cent" (chapter 15): E_00 = 15,267,267 gives 1,017,118 of a white pixel. -/
theorem test_mix : mixRow [15267267, 1006633, 0] 0 [1048575, 1048575, 1048575] = 1017118 := by decide
/-- "A flow priced" (chapter 8): 9 units on each of E1 and E3. -/
def pricedFlow : FlowCfg := { aFlow.cfg with source := 0, portPri := 1, portSec := some 3, width := 3840, height := 2160,
                                             sampling := 2, depth := 10, rateN := 50, rateD := 1, chainLen := 0 }
theorem test_flow_price : (flowUnits up pricedFlow).take 2 = [(38, 9), (40, 9)] ∧ unitsOn (flowUnits up pricedFlow) 0 = 7 ∧
    unitsOn (flowUnits up pricedFlow) 1 = 7 := by decide
/-- "A dip to 8.25 V" (chapter 3): 8,250 mV is below T_1 and T_2 alone. -/
theorem test_dip : 8250 < shedThr up 1 ∧ 8250 < shedThr up 2 ∧ ¬8250 < shedThr up 3 := by decide
/-- Table 3.6: thresholds asked for too close together move up. -/
theorem test_thresholds : lockThr [8700, 8400, 8100, 7800] = [8700, 8400, 8100, 7800] ∧
    lockThr [0, 0, 0, 9000] = [8800, 8600, 8400, 8200] := by
  decide

/-! ### One step of a command -/

theorem test_step_read : step { up with pending := [.pairLoRead 0 ⟨false, 0x00100006, 4, false⟩ false] } = .next { tick 0 up with
    out := .abort 0x00100006 :: up.out } := rfl
theorem test_step_idle : step up = .next up := rfl
theorem test_step_doorbell : ∃ t, step { ringed with pending := [.tailDoorbell 4 0 9 false true] } = .next t ∧
    (sqOf t 0).tail = 9 ∧ (sqOf t 0).stamps = [(1, 990), (9, 1004)] := ⟨_, rfl, by decide, by decide⟩
theorem test_step_clear : ∃ t, exec (.gleChClr 0 47) (looped fun c => { c with sat := 5, clampHit := 6 }) = .next t ∧
    (chanOf t 47).sat = 0 ∧ (chanOf t 47).clampHit = 0 := ⟨_, rfl, by decide, by decide⟩
/-- CLAMP_HI 0xC000 of the example of chapter 16 holds an output of 0.8 at 49,152. -/
theorem test_step_aout_clamp : ∃ t, exec (.aoutUpdate 0 47) (setRaw (0x00A01004 + 0x40 * 47) 0xC0000000#32
    (looped fun c => { c with state := .run, applied := true, u := 419430 })) = .next t ∧
    .aout 47 49152 ∈ t.out := ⟨_, rfl, by decide⟩
/-- "Two records of one bank" (chapter 25): GLE_AIN_CFG3 with VALUE 0x103 takes its factory value under rule 4. -/
theorem test_field_rule : (fieldDef 0x0233).map (fun f => f.apply 0x103 0) = some (4, 0) := by decide
theorem test_step_irq_clear : ∃ t, exec (.registerWrite 0 ⟨false, 0x00100004, 4, false⟩ 0x20#32 false) (setRaw 0x00100004 0x30#32 up) = .next t ∧
    rawReg t 0x00100004 = 0x10#32 := ⟨_, rfl, by decide⟩
theorem test_step_bar4 : ∃ t, exec (.bar4Write 0 5 [7, 0, 9] false) { up with host := Reset.host } = .next t ∧
    t.hbm.cells = [(5, 7), (7, 9)] := ⟨_, rfl, by decide⟩

end Sys2Proof.Tests
end

section
/-!
PROOFS. CAB_SELECT while another is pending (R110): the operation reaches its refusal, and the refusal is no more than a
reply.
-/

namespace Sys2Proof.Machine
variable {s t : State}

/-! ### What a reply leaves -/

/-- The passing of time is within what a reply may change. -/
theorem onlyReply_tick {dt : Nat} : OnlyReply s (tick dt s) := onlyReply_of_records onlyRecords_tick

/-- A reply leaves start-up's values, the pending selection among them. -/
theorem onlyReply_startup (h : OnlyReply s t) : t.startup = s.startup := by
  obtain ⟨_, hframe⟩ := h
  rw [hframe]

/-! ### CAB_SELECT -/

theorem exec_cabSelect {dt : Nat} {d : Desc} : exec (.cabSelect dt d) s = execCabSelect dt d s := rfl

/-- An accepted CAB_SELECT acts, as truncated by R126, in the state in which it has begun. -/
theorem exec_cabSelect_accepted {dt : Nat} {d : Desc} (h : Runs (.cabSelect dt d) s) :
    exec (.cabSelect dt d) s = .next (cabSelectAct d.trunc (begun d d.trunc (tick dt s))) := by
  simp only [Runs] at h
  rw [exec_cabSelect, execCabSelect, runDesc_accepted h]
  rfl

/-- With a selection pending, the act is the refusal alone (R110). -/
theorem cabSelectAct_pending {d : Desc} {x : PendingCab} (h : s.startup.pendingCab = some x) :
    cabSelectAct d s = complete d 0x20 (u32 x.desc.tag) s := by
  simp only [cabSelectAct, h]

/-- Settles O22: the beginning of the descriptor keeps the pending selection, so the act is the refusal, and time, beginning
and refusal are all replies. -/
theorem secondCabSelectIsRefused : Obligations.SecondCabSelectIsRefused := by
  intro dt d x s hruns hpending
  have hbegun : OnlyReply s (begun d d.trunc (tick dt s)) := onlyReply_trans onlyReply_tick onlyReply_begun
  have hstill : (begun d d.trunc (tick dt s)).startup.pendingCab = some x := by
    rw [onlyReply_startup hbegun, hpending]
  have hreply : OnlyReply s (complete d.trunc 0x20 (u32 x.desc.tag) (begun d d.trunc (tick dt s))) :=
    onlyReply_trans hbegun onlyReply_complete
  refine ⟨_, ?_, rfl, onlyReply_startup hreply, hreply⟩
  rw [exec_cabSelect_accepted hruns, cabSelectAct_pending hstill]

end Sys2Proof.Machine
end

section
/-!
PROOFS. HEAD_CONFIG of a head that is not configured (R206): past its checks the operation starts the head, whose solver
then holds the identity (R354), and the completion that follows is no more than a reply.
-/

namespace Sys2Proof.Machine
variable {s t : State} {d : Desc}

/-! ### The identity of a head -/

/-- The identity has three columns for each of the six primaries. -/
theorem unitE_length : Reset.unitE.length = 18 := rfl

/-- The identity entry by entry, as R354 words it. -/
theorem unitE_getD : ∀ p < 6, ∀ j < 3, Reset.unitE.getD (3 * p + j) 0 = if j = p % 3 then 0x01000000 else 0 := by
  decide

/-! ### What a reply leaves of the heads and the power -/

theorem onlyReply_heads (h : OnlyReply s t) : t.heads = s.heads := by
  obtain ⟨_, hframe⟩ := h
  rw [hframe]

theorem onlyReply_headOf {k : Nat} (h : OnlyReply s t) : headOf t k = headOf s k := by
  simp only [headOf, onlyReply_heads h]

theorem onlyReply_power (h : OnlyReply s t) : t.power = s.power := by
  obtain ⟨_, hframe⟩ := h
  rw [hframe]

/-! ### The start of a head -/

/-- A module below the stage sheds nothing. -/
theorem bootShed_below {stage cause : Nat} {p : Item → Bool} (h : s.power.bootStage < stage) :
    bootShed stage cause p s = s :=
  if_neg (Nat.not_le.mpr h)

/-- Entering an item leaves the heads. -/
@[simp] theorem putItem_heads {kind : ItemKind} {units : List (Nat × Nat)} : (putItem kind d units s).heads = s.heads := rfl

/-- Starting a head leaves the power. -/
@[simp] theorem startHead_power {k : Nat} {c : HeadCfg} {forms : List Nat} : (startHead d k c forms s).power = s.power := rfl

/-- A head that starts has its configuration, and its solver the identity (R354). -/
theorem startHead_cfg_identity {k : Nat} {c : HeadCfg} {forms : List Nat} (h : k < s.heads.length) :
    (headOf (startHead d k c forms s) k).pipe.cfg = some c ∧
      (headOf (startHead d k c forms s) k).solver.e = Reset.unitE := by
  have hput : k < (putItem (.head k) d (headUnits s k c) s).heads.length := by rwa [putItem_heads]
  rw [startHead, headOf_modHead_same hput]
  exact ⟨rfl, rfl⟩

/-- An admitted head starts with the anchor of R16; its completion is a reply. -/
theorem configureNew_admitted {k : Nat} {c : HeadCfg} {b : List Byte} {forms : List Nat}
    (h : shortage s (.head k) (headUnits s k c) = none) :
    OnlyReply (startHead d k { c with anchor := anchorFor c s.now, f0 := [c.anchor, anchorFor c s.now] } forms s)
      (configureNew d k c b forms s) := by
  simp only [configureNew, h]
  exact onlyReply_ite onlyReply_complete onlyReply_complete

/-! ### HEAD_CONFIG -/

/-- A block that passes the checks of R206 and R13 for a head not configured configures it, and stage 3 may shed it. -/
theorem headConfigGo_new {raw : List Byte} :
    let blk := resolveBlock s raw; let k := fieldOf blk 0 1; let c := blockCfg blk
    blockBad blk = none → c.comp.any (compBad s k c) = false → vitrineRefuses s k c = none →
    (headOf s k).pipe.cfg = none → resourceRefused s k c = none →
    ∃ p, headConfigGo d raw s = bootShed 3 6 p (configureNew d k c blk (formsOf raw) s) := by
  intro blk k c hblock hcomp hvit hnew hres
  refine ⟨fun i => i.kind == .head k && !bitOf (regField s 0x01100024 0 8) k, ?_⟩
  simp [headConfigGo, blk, k, c, hblock, hcomp, hvit, hnew, hres]

/-- A whole block that the host brought goes to the checks of R206. -/
theorem headConfigAct_data {x : List Byte} (hlen : d.length = 128) (hfwd : d.fwd = none) :
    headConfigAct (.data x) d s = headConfigGo d (padTo 128 x) s := by
  simp [headConfigAct, bufOf, hlen, hfwd]

theorem exec_headConfig {dt : Nat} {buf : HostBuf} : exec (.headConfig dt d buf) s = execHeadConfig dt d buf s := rfl

/-- An accepted HEAD_CONFIG acts in the state in which it has begun. -/
theorem exec_headConfig_accepted {dt : Nat} {buf : HostBuf} (h : Runs (.headConfig dt d buf) s) :
    exec (.headConfig dt d buf) s = .next (headConfigAct buf d (begun d d (tick dt s))) := by
  simp only [Runs] at h
  rw [exec_headConfig, execHeadConfig, runDesc_accepted h]
  rfl

/-- Settles O34: the descriptor's beginning keeps the heads, the head starts with the identity, and neither the completion
nor a stage below 3 touches it after. -/
theorem headsBeginWithTheIdentity : Obligations.HeadsBeginWithTheIdentity := by
  intro dt d x s b blk k c hruns hlen hfwd hblock hcomp hvit hnew hk hres hstage hroom
  have hbegun : OnlyReply s b := onlyReply_trans onlyReply_tick onlyReply_begun
  have hreply := configureNew_admitted (d := d) (b := blk) (forms := formsOf (padTo 128 x)) hroom
  have hnew' : (headOf b k).pipe.cfg = none := by rw [onlyReply_headOf hbegun, hnew]
  have hk' : k < b.heads.length := by rwa [onlyReply_heads hbegun]
  have hstage' : (configureNew d k c blk (formsOf (padTo 128 x)) b).power.bootStage < 3 := by
    rwa [onlyReply_power hreply, startHead_power, onlyReply_power hbegun]
  obtain ⟨p, hgo⟩ := headConfigGo_new (d := d) hblock hcomp hvit hnew' hres
  refine ⟨configureNew d k c blk (formsOf (padTo 128 x)) b, ?_, ?_⟩
  · rw [exec_headConfig_accepted hruns, headConfigAct_data hlen hfwd, hgo, bootShed_below hstage']
  · obtain ⟨hcfg, he⟩ := startHead_cfg_identity hk'
    rw [onlyReply_headOf hreply, hcfg, he]
    exact ⟨Option.some_ne_none _, unitE_length, unitE_getD⟩

end Sys2Proof.Machine
end

section
/-!
PROOFS. The AOUT code of an output (R382): the two ranges as the rule writes them, their bounds, and that a higher output
never has a lower code.
-/

namespace Sys2Proof.Machine
variable {lo hi u v : Int}

/-! ### Shifts and clamps -/

/-- R382 shifts by whole numbers, where the model divides: both round down. -/
theorem shiftRight_natCast_eq_ediv (a : Int) (n : Nat) : a >>> (n : Int) = a / (2 ^ n : Nat) := by
  rw [Int.shiftRight_natCast_right, Int.shiftRight_eq_div_pow]

theorem le_clampInt : lo ≤ clampInt lo hi v := le_max_left _ _

theorem clampInt_le (h : lo ≤ hi) : clampInt lo hi v ≤ hi := max_le h (min_le_left _ _)

theorem clampInt_mono (h : u ≤ v) : clampInt lo hi u ≤ clampInt lo hi v := max_le_max_left _ (min_le_min_left _ h)

/-! ### The 0 to 5 V range -/

theorem outCode_unipolar : outCode false u = min ((max u 0 + 4) >>> 3) 65535 := by
  have hshift : (max u 0 + 4) >>> 3 = (max u 0 + 4) / 8 := shiftRight_natCast_eq_ediv _ 3
  rw [hshift]
  rfl

theorem outCode_unipolar_nonneg : 0 ≤ outCode false u := by
  have hround : 0 ≤ max u 0 + 4 := add_nonneg (le_max_right _ _) (by decide)
  exact le_min (Int.ediv_nonneg hround (by decide)) (by decide)

theorem outCode_unipolar_le : outCode false u ≤ 65535 := min_le_right _ _

theorem outCode_unipolar_mono (h : u ≤ v) : outCode false u ≤ outCode false v := by
  have hround : max u 0 + 4 ≤ max v 0 + 4 := Int.add_le_add_right (max_le_max_right _ h) 4
  exact min_le_min_right _ (Int.ediv_le_ediv (by decide) hround)

/-! ### The ±5 V range -/

theorem outCode_bipolar_eq_clampInt : outCode true u = clampInt (-32768) 32767 ((u + 8) / 16) := rfl

theorem outCode_bipolar : outCode true u = max (min ((u + 8) >>> 4) 32767) (-32768) := by
  have hshift : (u + 8) >>> 4 = (u + 8) / 16 := shiftRight_natCast_eq_ediv _ 4
  rw [outCode_bipolar_eq_clampInt, hshift, clampInt, max_comm, min_comm]

theorem le_outCode_bipolar : -32768 ≤ outCode true u := le_clampInt

theorem outCode_bipolar_le : outCode true u ≤ 32767 := clampInt_le (by decide)

theorem outCode_bipolar_mono (h : u ≤ v) : outCode true u ≤ outCode true v :=
  clampInt_mono (Int.ediv_le_ediv (by decide) (Int.add_le_add_right h 8))

/-! ### The output 1.0, which stands for 5 V (R46) -/

theorem outCode_unipolar_one : outCode false 524288 = 65535 := by decide

theorem outCode_bipolar_one : outCode true 524288 = 32767 := by decide

/-- Settles O46: each range by its own equation, bounds and monotony, and 5 V by its value. -/
theorem outputsBecomeCodes : Obligations.OutputsBecomeCodes := fun _ =>
  ⟨outCode_unipolar, outCode_bipolar, outCode_unipolar_one, outCode_bipolar_one, outCode_unipolar_nonneg, outCode_unipolar_le,
    le_outCode_bipolar, outCode_bipolar_le, fun _ h => ⟨outCode_unipolar_mono h, outCode_bipolar_mono h⟩⟩

end Sys2Proof.Machine
end

section
/-!
PROOFS. The behaviour pin (R547): BL_PIN stores a pin that it accepts in the wear record, and the Keeper's boot at the
release of RESET_B takes the stored pin for the one in force, which nothing later in the boot touches.
-/

namespace Sys2Proof.Machine
variable {s t : State} {d : Desc}

/-! ### What a record and a reply leave of the wear record -/

theorem onlyRecords_wear (h : OnlyRecords s t) : t.wear = s.wear := by
  obtain ⟨_, hframe⟩ := h
  rw [hframe]

theorem onlyReply_wear (h : OnlyReply s t) : t.wear = s.wear := by
  obtain ⟨_, hframe⟩ := h
  rw [hframe]

@[simp] theorem record_wear {unit event : Nat} {det : List Byte} : (record unit event det s).wear = s.wear :=
  onlyRecords_wear onlyRecords_record

theorem forEach_wear {α : Type} {l : List α} {f : α → State → State} (hf : ∀ a t, (f a t).wear = t.wear) :
    (forEach l f s).wear = s.wear := by
  induction l generalizing s with
  | nil => rfl
  | cons a l ih => exact ih.trans (hf a s)

/-! ### BL_PIN -/

theorem exec_blPin {dt : Nat} : exec (.blPin dt d) s = execBlPin dt d s := rfl

/-- An accepted BL_PIN acts, as truncated by R126, in the state in which it has begun. -/
theorem exec_blPin_accepted {dt : Nat} (h : Runs (.blPin dt d) s) :
    exec (.blPin dt d) s = .next (blPinAct d.trunc (begun d d.trunc (tick dt s))) := by
  simp only [Runs] at h
  rw [exec_blPin, execBlPin, runDesc_accepted h]
  rfl

/-- The act stores 0, which unpins, and a level that a passing slot carries. -/
theorem blPinAct_stored (h : d.p16 16 = 0 ∨ ∃ f ∈ s.wear.slots, imageGood f = true ∧ f.level = d.p16 16) :
    blPinAct d s = complete d 0 [] { record 0x2E 0x1806 (u16 s.wear.pinStored ++ u16 (d.p16 16)) s with
      wear := { s.wear with pinStored := d.p16 16 } } := by
  have hpass : ¬ (d.p16 16 ≠ 0 ∧ !s.wear.slots.any (fun f => imageGood f && f.level == d.p16 16)) := by
    simpa [or_iff_not_imp_left] using h
  simp only [blPinAct, if_neg hpass, record_wear]

/-- The act refuses a level that no passing slot carries. -/
theorem blPinAct_absent (hne : d.p16 16 ≠ 0) (h : ∀ f ∈ s.wear.slots, imageGood f = true → f.level ≠ d.p16 16) :
    blPinAct d s = complete d 0x1882 (u16 (d.p16 16)) s := by
  have hfail : d.p16 16 ≠ 0 ∧ !s.wear.slots.any (fun f => imageGood f && f.level == d.p16 16) := by
    simpa [hne] using h
  simp only [blPinAct, if_pos hfail]

/-! ### The Keeper's boot up to the choice of the slot -/

@[simp] theorem measureHoldup_pinStored {mj : Nat} : (measureHoldup mj s).wear.pinStored = s.wear.pinStored := by
  simp only [measureHoldup, apply_ite State.wear, record_wear, ite_self]

@[simp] theorem resolveImage_wear {cab : Nat} : (resolveImage cab s).wear = s.wear := by
  simp only [resolveImage, apply_ite State.wear, record_wear, ite_self]

@[simp] theorem applyK_wear : (applyK s).wear = s.wear := by
  simp only [applyK, setRaw_wear]
  exact forEach_wear fun _ _ => setRaw_wear

/-! ### The pin in force and the pin stored from the choice on -/

/-- The choice of the slot applies the pin stored, whichever slot it takes (R545, R547). -/
theorem chooseSlot_pins {bad : List Nat} :
    (chooseSlot bad s).wear.pin = s.wear.pinStored ∧ (chooseSlot bad s).wear.pinStored = s.wear.pinStored := by
  have hreports : ∀ (slots : List FwImage) (u : State), (forEach [0, 1] (fun (i : Nat) u =>
      if (slots[i]?).any imageGood then u else record 0x2E 0x404 (u8 i) u) u).wear = u.wear := fun _ _ =>
    forEach_wear fun _ _ => by simp only [apply_ite State.wear, record_wear, ite_self]
  unfold chooseSlot
  dsimp only
  split
  · simp only [hreports, and_self]
  · split <;> simp only [hreports, record_wear, and_self]

theorem serviceStep_pins :
    (serviceStep s).wear.pin = s.wear.pin ∧ (serviceStep s).wear.pinStored = s.wear.pinStored := by
  simp [serviceStep, apply_ite State.wear]

@[simp] theorem restart3_wear : (restart3 s).wear = s.wear := rfl

@[simp] theorem beginTraining_wear : (beginTraining s).wear = s.wear := rfl

@[simp] theorem goStep3_wear {wake : Bool} : (goStep3 wake s).wear = s.wear := by
  simp [goStep3, apply_ite State.wear]

/-- A boot that finds a factory copy good applies the pin stored and leaves it stored. -/
theorem keeperBoot_pins {cab : Nat} {boot : BootInfo} (h : boot.factoryBad = false) :
    (keeperBoot cab boot s).wear.pin = s.wear.pinStored ∧ (keeperBoot cab boot s).wear.pinStored = s.wear.pinStored := by
  simp [keeperBoot, h, apply_ite State.wear, serviceStep_pins, chooseSlot_pins]

/-! ### The release of RESET_B -/

theorem exec_resetBRelease_held {dt cab : Nat} {boot : BootInfo} (h : s.power.resetB = true) :
    exec (.resetBRelease dt cab boot) s = .next (resetRelease cab boot (tick dt s)) :=
  congrArg Host.Outcome.next (if_pos h)

/-- With input power, above P4 and without LATCH, the release boots the Keeper, on a state whose wear record is the one
that the release found. -/
theorem resetRelease_boots {cab : Nat} {boot : BootInfo} (hstate : s.power.state ≠ .p4) (hlatch : s.thermal.latch = false)
    (hinput : s.power.inputValid = true) :
    ∃ u, resetRelease cab boot s = keeperBoot cab boot u ∧ u.wear = s.wear := by
  unfold resetRelease
  refine ⟨_, if_neg ?_, rfl⟩
  simp [sampleCab, hstate, hlatch, hinput]

/-- Settles O24: the beginning of the descriptor keeps the wear record, so the act tests the slots and reports the pin that
the command found; the release of RESET_B comes to a boot, which applies the pin stored. -/
theorem behaviourPinIsStored : Obligations.BehaviourPinIsStored := by
  intro dt s
  refine ⟨fun d hruns => ?_, fun cab boot hfactory hreset hstate hlatch hinput => ?_⟩
  · have hwear : (begun d d.trunc (tick dt s)).wear = s.wear := onlyReply_wear (onlyReply_trans onlyReply_tick onlyReply_begun)
    rw [exec_blPin_accepted hruns]
    constructor
    · intro hlevel
      rw [← hwear] at hlevel ⊢
      rw [blPinAct_stored hlevel]
    · intro hne habsent
      rw [← hwear] at habsent
      rw [blPinAct_absent hne habsent]
  · obtain ⟨u, hboot, hwear⟩ := resetRelease_boots (s := tick dt s) (cab := cab) (boot := boot) hstate hlatch hinput
    refine ⟨_, exec_resetBRelease_held hreset, ?_⟩
    rw [tick_wear] at hwear
    rw [hboot, ← hwear]
    exact keeperBoot_pins hfactory

end Sys2Proof.Machine
end

section
/-!
PROOFS. Every command answers a next state; it leaves the queue, keeps the memory's canonical form and the numbers of the
module's parts.  Each command's own lemma stands in Laws/Keep*.lean; here they are gathered over exec, and carried to step.
-/

namespace Sys2Proof.Machine
variable {s t : State}

/-- Every branch of a command ends in a next state: most commands are one, the others reach it through their conditions. -/
theorem exec_answers (c : Sys2Proof.Instr) (s : State) : ∃ t, exec c s = .next t := by
  cases c
  any_goals exact ⟨_, rfl⟩
  all_goals
    simp only [exec,
      execDescriptorFetch, execCompletionPost, execLedgerDeliver, execCoalesceTimer, execUcwAction, execEthPacket,
      execEthArpIcmp, execPacketGroupEnd, execFlowStall, execFlowFallback, execPathLost, execDpLine, execDpLinkUp,
      execTransferDone, execRetireFence, execVitrineMgmtSet, execVitrineStatusRead, execVitrineLockoutEnd,
      execComposeStartEvent, execGroupDecision, execGroupAbandoned, execPressStartEvent, execSurveyFieldDone,
      execReturnMessageBad, execLaneLockTimeout, execPortTrainTimeout, execReturnSilent, execLoadStart, execSlotFlip,
      execPortIdleTimer, execPortStatusTimer, execScanPhaseEdge, execScanPhaseLost, execScanPass, execLoopSample,
      execTimeMark, execLockRequestTimeout, execFollowHoldExpiry, execBankWriteDone, execSlotWriteDone,
      execHostTransferDone]
    repeat' split
  all_goals exact ⟨_, rfl⟩

/-- What every command keeps of the state it finds: the lemma of its own meaning. -/
theorem keepR_exec (s : State) (c : Sys2Proof.Instr) : KeepR s (exec c s) := by
  cases c with
  | inputValid => exact keep_execInputValid keep_refl
  | trnPointDone => exact keep_execTrnPointDone keep_refl
  | configReady => exact keep_execConfigReady keep_refl
  | vinOver => exact keep_execVinOver keep_refl
  | shedEnter => exact keep_execShedEnter keep_refl
  | capacityShrinkHold => exact keep_execCapacityShrinkHold keep_refl
  | shedClear => exact keep_execShedClear keep_refl
  | stage4Park => exact keep_execStage4Park keep_refl
  | ledgerSave => exact keep_execLedgerSave keep_refl
  | refclkLost => exact keep_execRefclkLost keep_refl
  | refclkCheckRetry => exact keep_execRefclkCheckRetry keep_refl
  | pwrSetState => exact keep_execPwrSetState keep_refl
  | enterP2 => exact keep_execEnterP2 keep_refl
  | wakeBFall => exact keep_execWakeBFall keep_refl
  | mgmtBusWake => exact keep_execMgmtBusWake keep_refl
  | keeperTimer => exact keep_execKeeperTimer keep_refl
  | catumWake => exact keep_execCatumWake keep_refl
  | pwrClrMin => exact keep_execPwrClrMin keep_refl
  | resetBAssert => exact keep_execResetBAssert keep_refl
  | resetBRelease => exact keep_execResetBRelease keep_refl
  | perstBAssert => exact keep_execPerstBAssert keep_refl
  | perstBRelease => exact keep_execPerstBRelease keep_refl
  | pcieLinkDownTimeout => exact keep_execPcieLinkDownTimeout keep_refl
  | pf0Flr => exact keep_execPf0Flr keep_refl
  | pf1Flr => exact keep_execPf1Flr keep_refl
  | intlkTrip => exact keep_execIntlkTrip keep_refl
  | intlkLowDuringTrip => exact keep_execIntlkLowDuringTrip keep_refl
  | intlkRelease => exact keep_execIntlkRelease keep_refl
  | boundaryScanForce => exact keep_execBoundaryScanForce keep_refl
  | tailDoorbell => exact keep_execTailDoorbell keep_refl
  | cqHeadDoorbell => exact keep_execCqHeadDoorbell keep_refl
  | ledgerHeadDoorbell => exact keep_execLedgerHeadDoorbell keep_refl
  | descriptorFetch => exact keep_execDescriptorFetch keep_refl
  | completionPost => exact keep_execCompletionPost keep_refl
  | ledgerDeliver => exact keep_execLedgerDeliver keep_refl
  | coalesceTimer => exact keep_execCoalesceTimer keep_refl
  | darkNow => exact keep_execDarkNow keep_refl
  | darkRamp => exact keep_execDarkRamp keep_refl
  | stopHeads => exact keep_execStopHeads keep_refl
  | haltRings => exact keep_execHaltRings keep_refl
  | resumeRings => exact keep_execResumeRings keep_refl
  | stopIngest => exact keep_execStopIngest keep_refl
  | ucwRejected => exact keep_execUcwRejected keep_refl
  | ucwAction => exact keep_execUcwAction keep_refl
  | ucwStatRead => exact keep_execUcwStatRead keep_refl
  | setupLock => exact keep_execSetupLock keep_refl
  | sqEnable => exact keep_execSqEnable keep_refl
  | sqDisable => exact keep_execSqDisable keep_refl
  | cqEnable => exact keep_execCqEnable keep_refl
  | cqDisable => exact keep_execCqDisable keep_refl
  | ledgerRingEnable => exact keep_execLedgerRingEnable keep_refl
  | registerWrite => exact keep_execRegisterWrite keep_refl
  | pairLoRead => exact keep_execPairLoRead keep_refl
  | bar4Read => exact keep_execBar4Read keep_refl
  | bar4Write => exact keep_execBar4Write keep_refl
  | bar4DiscardReport => exact keep_execBar4DiscardReport keep_refl
  | nop => exact keep_execNop keep_refl
  | ledgerMark => exact keep_execLedgerMark keep_refl
  | nvmWriteBank => exact keep_execNvmWriteBank keep_refl
  | cabSelect => exact keep_execCabSelect keep_refl
  | ptpCfg => exact keep_execPtpCfg keep_refl
  | stampRead => exact keep_execStampRead keep_refl
  | ptpMessage => exact keep_execPtpMessage keep_refl
  | slewDone => exact keep_execSlewDone keep_refl
  | announceTimeout => exact keep_execAnnounceTimeout keep_refl
  | flowOpen => exact keep_execFlowOpen keep_refl
  | flowClose => exact keep_execFlowClose keep_refl
  | hostPush => exact keep_execHostPush keep_refl
  | ethPacket => exact keep_execEthPacket keep_refl
  | ethArpIcmp => exact keep_execEthArpIcmp keep_refl
  | packetGroupEnd => exact keep_execPacketGroupEnd keep_refl
  | frameDeadline => exact keep_execFrameDeadline keep_refl
  | flowStall => exact keep_execFlowStall keep_refl
  | flowFallback => exact keep_execFlowFallback keep_refl
  | pathLost => exact keep_execPathLost keep_refl
  | dpLine => exact keep_execDpLine keep_refl
  | dpLinkUp => exact keep_execDpLinkUp keep_refl
  | dpLinkLost => exact keep_execDpLinkLost keep_refl
  | dpAuxTransaction => exact keep_execDpAuxTransaction keep_refl
  | flowCountersClear => exact keep_execFlowCountersClear keep_refl
  | exhRegister => exact keep_execExhRegister keep_refl
  | exhFree => exact keep_execExhFree keep_refl
  | exhWrite => exact keep_execExhWrite keep_refl
  | exhRead => exact keep_execExhRead keep_refl
  | admQuery => exact keep_execAdmQuery keep_refl
  | transferDone => exact keep_execTransferDone keep_refl
  | retireFence => exact keep_execRetireFence keep_refl
  | headConfig => exact keep_execHeadConfig keep_refl
  | headRelease => exact keep_execHeadRelease keep_refl
  | layerSet => exact keep_execLayerSet keep_refl
  | commit => exact keep_execCommit keep_refl
  | groupCommit => exact keep_execGroupCommit keep_refl
  | vitrineSet => exact keep_execVitrineSet keep_refl
  | vitrineLoad => exact keep_execVitrineLoad keep_refl
  | vitrineMgmtSet => exact keep_execVitrineMgmtSet keep_refl
  | vitrineStatusRead => exact keep_execVitrineStatusRead keep_refl
  | vitrineLockoutEnd => exact keep_execVitrineLockoutEnd keep_refl
  | composeStartEvent => exact keep_execComposeStartEvent keep_refl
  | groupReady => exact keep_execGroupReady keep_refl
  | groupDecision => exact keep_execGroupDecision keep_refl
  | groupGo => exact keep_execGroupGo keep_refl
  | groupAbandoned => exact keep_execGroupAbandoned keep_refl
  | cmpClrLate => exact keep_execCmpClrLate keep_refl
  | cmpClrGap => exact keep_execCmpClrGap keep_refl
  | coefLoad => exact keep_execCoefLoad keep_refl
  | recipeLoad => exact keep_execRecipeLoad keep_refl
  | ditherLoad => exact keep_execDitherLoad keep_refl
  | pressStartEvent => exact keep_execPressStartEvent keep_refl
  | pressFrameDone => exact keep_execPressFrameDone keep_refl
  | prsClrSlack => exact keep_execPrsClrSlack keep_refl
  | prsClrDark => exact keep_execPrsClrDark keep_refl
  | motionCfg => exact keep_execMotionCfg keep_refl
  | vectorLoad => exact keep_execVectorLoad keep_refl
  | surveyFieldDone => exact keep_execSurveyFieldDone keep_refl
  | motClrMiss => exact keep_execMotClrMiss keep_refl
  | portConfig => exact keep_execPortConfig keep_refl
  | portPark => exact keep_execPortPark keep_refl
  | caveEnter => exact keep_execCaveEnter keep_refl
  | caveExit => exact keep_execCaveExit keep_refl
  | retCredit => exact keep_execRetCredit keep_refl
  | retNak => exact keep_execRetNak keep_refl
  | retLaneLock => exact keep_execRetLaneLock keep_refl
  | retCaps => exact keep_execRetCaps keep_refl
  | retStatus => exact keep_execRetStatus keep_refl
  | returnMessageBad => exact keep_execReturnMessageBad keep_refl
  | laneLockTimeout => exact keep_execLaneLockTimeout keep_refl
  | portTrainTimeout => exact keep_execPortTrainTimeout keep_refl
  | returnSilent => exact keep_execReturnSilent keep_refl
  | loadStart => exact keep_execLoadStart keep_refl
  | slotFlip => exact keep_execSlotFlip keep_refl
  | portIdleTimer => exact keep_execPortIdleTimer keep_refl
  | portStatusTimer => exact keep_execPortStatusTimer keep_refl
  | plkClr => exact keep_execPlkClr keep_refl
  | scanConfig => exact keep_execScanConfig keep_refl
  | scanProfileLoad => exact keep_execScanProfileLoad keep_refl
  | scanPhaseEdge => exact keep_execScanPhaseEdge keep_refl
  | scanPhaseLost => exact keep_execScanPhaseLost keep_refl
  | scanPass => exact keep_execScanPass keep_refl
  | scnClr => exact keep_execScnClr keep_refl
  | solverCfg => exact keep_execSolverCfg keep_refl
  | calLoad => exact keep_execCalLoad keep_refl
  | calCorrect => exact keep_execCalCorrect keep_refl
  | solveDone => exact keep_execSolveDone keep_refl
  | clrLimitedClear => exact keep_execClrLimitedClear keep_refl
  | loopSet => exact keep_execLoopSet keep_refl
  | chanEnable => exact keep_execChanEnable keep_refl
  | coefWrite => exact keep_execCoefWrite keep_refl
  | loopSample => exact keep_execLoopSample keep_refl
  | spSafe => exact keep_execSpSafe keep_refl
  | aoutUpdate => exact keep_execAoutUpdate keep_refl
  | rampEnd => exact keep_execRampEnd keep_refl
  | aoutRangeWrite => exact keep_execAoutRangeWrite keep_refl
  | gleChClr => exact keep_execGleChClr keep_refl
  | setpointCfg => exact keep_execSetpointCfg keep_refl
  | modeSet => exact keep_execModeSet keep_refl
  | inject => exact keep_execInject keep_refl
  | capture => exact keep_execCapture keep_refl
  | gleSpClr => exact keep_execGleSpClr keep_refl
  | freqSet => exact keep_execFreqSet keep_refl
  | hbmFreqMove => exact keep_execHbmFreqMove keep_refl
  | hbmFreqChanged => exact keep_execHbmFreqChanged keep_refl
  | refreshDue => exact keep_execRefreshDue keep_refl
  | hbmRdWindow => exact keep_execHbmRdWindow keep_refl
  | memoryRequest => exact keep_execMemoryRequest keep_refl
  | hbmRdNeighbour => exact keep_execHbmRdNeighbour keep_refl
  | hbmParityFail => exact keep_execHbmParityFail keep_refl
  | hbmDiagDone => exact keep_execHbmDiagDone keep_refl
  | hbmSpared => exact keep_execHbmSpared keep_refl
  | channelSpare => exact keep_execChannelSpare keep_refl
  | hbmCfgWrite => exact keep_execHbmCfgWrite keep_refl
  | hbmClr => exact keep_execHbmClr keep_refl
  | trnHelper => exact keep_execTrnHelper keep_refl
  | trnSessionDone => exact keep_execTrnSessionDone keep_refl
  | regionCfg => exact keep_execRegionCfg keep_refl
  | archiveReady => exact keep_execArchiveReady keep_refl
  | errCounts => exact keep_execErrCounts keep_refl
  | bucketLeak => exact keep_execBucketLeak keep_refl
  | scrubRead => exact keep_execScrubRead keep_refl
  | eccClr => exact keep_execEccClr keep_refl
  | sensorReading => exact keep_execSensorReading keep_refl
  | thermWarnClear => exact keep_execThermWarnClear keep_refl
  | throttleDecay => exact keep_execThrottleDecay keep_refl
  | throttleRecover => exact keep_execThrottleRecover keep_refl
  | thermLatchClear => exact keep_execThermLatchClear keep_refl
  | thmRead => exact keep_execThmRead keep_refl
  | catConfig => exact keep_execCatConfig keep_refl
  | frameLock => exact keep_execFrameLock keep_refl
  | catLinkPacket => exact keep_execCatLinkPacket keep_refl
  | catHello => exact keep_execCatHello keep_refl
  | catPacketBad => exact keep_execCatPacketBad keep_refl
  | catPacketForward => exact keep_execCatPacketForward keep_refl
  | mbReq => exact keep_execMbReq keep_refl
  | mbResp => exact keep_execMbResp keep_refl
  | catUcwRequest => exact keep_execCatUcwRequest keep_refl
  | catUcwReport => exact keep_execCatUcwReport keep_refl
  | ucwDomainTimeout => exact keep_execUcwDomainTimeout keep_refl
  | catHostLost => exact keep_execCatHostLost keep_refl
  | fwdDesc => exact keep_execFwdDesc keep_refl
  | fwdCompl => exact keep_execFwdCompl keep_refl
  | dmaRdReq => exact keep_execDmaRdReq keep_refl
  | dmaRdData => exact keep_execDmaRdData keep_refl
  | dmaWr => exact keep_execDmaWr keep_refl
  | catLedger => exact keep_execCatLedger keep_refl
  | timeMark => exact keep_execTimeMark keep_refl
  | timeReq => exact keep_execTimeReq keep_refl
  | timeResp => exact keep_execTimeResp keep_refl
  | timeExchange => exact keep_execTimeExchange keep_refl
  | timeRespTimeout => exact keep_execTimeRespTimeout keep_refl
  | catLockPacket => exact keep_execCatLockPacket keep_refl
  | lockAnnounceTimer => exact keep_execLockAnnounceTimer keep_refl
  | lockRequestTimeout => exact keep_execLockRequestTimeout keep_refl
  | frameLockLost => exact keep_execFrameLockLost keep_refl
  | catTrainTimeout => exact keep_execCatTrainTimeout keep_refl
  | catTrainRetry => exact keep_execCatTrainRetry keep_refl
  | catLinkDown => exact keep_execCatLinkDown keep_refl
  | helloTimer => exact keep_execHelloTimer keep_refl
  | catFollowerLost => exact keep_execCatFollowerLost keep_refl
  | followHoldExpiry => exact keep_execFollowHoldExpiry keep_refl
  | mailboxGo => exact keep_execMailboxGo keep_refl
  | mailboxTimeout => exact keep_execMailboxTimeout keep_refl
  | testArmed => exact keep_execTestArmed keep_refl
  | testDisarmed => exact keep_execTestDisarmed keep_refl
  | faultSet => exact keep_execFaultSet keep_refl
  | faultRulesCleared => exact keep_execFaultRulesCleared keep_refl
  | faultReorderRelease => exact keep_execFaultReorderRelease keep_refl
  | faultDelayRelease => exact keep_execFaultDelayRelease keep_refl
  | wearReport => exact keep_execWearReport keep_refl
  | wearRecordSave => exact keep_execWearRecordSave keep_refl
  | fwWriteSlot => exact keep_execFwWriteSlot keep_refl
  | blPin => exact keep_execBlPin keep_refl
  | pulseEdge => exact keep_execPulseEdge keep_refl
  | auxFreeSample => exact keep_execAuxFreeSample keep_refl
  | catLaneLock => exact keep_execCatLaneLock keep_refl
  | catLaneLockTimeout => exact keep_execCatLaneLockTimeout keep_refl
  | catAckTimer => exact keep_execCatAckTimer keep_refl
  | delayReqSend => exact keep_execDelayReqSend keep_refl
  | portParkTimeout => exact keep_execPortParkTimeout keep_refl
  | bankWriteDone => exact keep_execBankWriteDone keep_refl
  | slotWriteDone => exact keep_execSlotWriteDone keep_refl
  | pwrStateAt => exact keep_execPwrStateAt keep_refl
  | hostTransferDone => exact keep_execHostTransferDone keep_refl
  | mgmtBusTransaction => exact keep_execMgmtBusTransaction keep_refl
  | pageIdleClose => exact keep_execPageIdleClose keep_refl
  | pcieLinkChange => exact keep_execPcieLinkChange keep_refl
  | ethLinkChange => exact keep_execEthLinkChange keep_refl

theorem keep_exec {c : Sys2Proof.Instr} (h : exec c s = .next t) : Keep s t := by
  have hkeep := keepR_exec s c
  rwa [h] at hkeep

/-- A step that answers a state keeps the memory's form and the parts, whatever becomes of the queue. -/
theorem step_keeps (h : step s = .next t) :
    (s.memOk → t.memOk) ∧ (shape s = [8, 16, 48, 48, 256, 256] → shape t = [8, 16, 48, 48, 256, 256]) := by
  unfold step at h
  split at h
  · cases h
    exact ⟨id, id⟩
  · obtain ⟨-, hmem, hparts⟩ := keep_exec h
    exact ⟨hmem, hparts⟩

theorem shape_eq_iff : shape s = [8, 16, 48, 48, 256, 256] ↔
    s.heads.length = 8 ∧ s.ports.length = 16 ∧ s.gheler.chans.length = 48 ∧ s.gheler.sps.length = 48 ∧
      s.host.sq.length = 256 ∧ s.host.cq.length = 256 := by
  simp [shape]

/-- Settles O1. -/
theorem stepRunsTheFrontCommand : Obligations.StepRunsTheFrontCommand := by
  refine ⟨fun c rest s h => ?_, fun s h => ?_⟩ <;> rw [step, h]

/-- Settles O2. -/
theorem everyCommandAnswersAndLeavesTheQueue : Obligations.EveryCommandAnswersAndLeavesTheQueue :=
  ⟨exec_answers, fun _ _ _ h => (keep_exec h).queue⟩

/-- Settles O3: each part of the reset state is a list of so many copies. -/
theorem resetIsWellFormed : Obligations.ResetIsWellFormed := 
  ⟨⟨rfl, rfl⟩, rfl, List.length_replicate, List.length_replicate, List.length_replicate, List.length_replicate,
    List.length_replicate, List.length_replicate⟩

/-- Settles O4. -/
theorem stepKeepsMemoryForm : Obligations.StepKeepsMemoryForm := fun _ _ hmem h => (step_keeps h).1 hmem

/-- Settles O5. -/
theorem stepKeepsTheParts : Obligations.StepKeepsTheParts := fun _ _ hparts h =>
  shape_eq_iff.1 ((step_keeps h).2 (shape_eq_iff.2 hparts))

end Sys2Proof.Machine
end

section
/-!
PROOFS. The counter clears (chapter 25) and the reads that leave the module as it was (R7, R114, R141, R179, R434).
-/

namespace Sys2Proof.Machine
variable {s t u : State}

/-! ### Counter clears -/

/-- A region's counts are those last set. -/
theorem regionCount_setRegion {c : RegionCount} {r : Nat} (h : c.region = r) : regionCount (setRegion c s) r = c := by
  simp [regionCount, setRegion, h]

/-- The counts of a region carry its number. -/
theorem regionCount_region {r : Nat} : (regionCount s r).region = r := by
  unfold regionCount
  cases h : s.ecc.regions.find? fun c => c.region = r with
  | none => rfl
  | some c => simpa using List.find?_some h

theorem regionCount_clearRegion {r : Nat} :
    regionCount (clearRegion r s) r = { regionCount s r with ce := 0, ue := 0, level := 0, ovf := 0 } :=
  regionCount_setRegion regionCount_region

/-- Settles O6: each clear is its own update; ECC's sets the counts of the region that its register names. -/
theorem clearsClearTheirCounters : Obligations.ClearsClearTheirCounters := fun _ _ _ =>
  ⟨rfl, rfl, rfl, rfl, rfl, rfl, rfl, rfl, rfl, rfl, rfl, rfl, rfl, _, rfl, rfl, regionCount_clearRegion⟩

/-! ### BAR4 reads -/

/-- A read that finds nothing bad and nothing to correct leaves no note. -/
theorem noteRead_clean {unit a n : Nat} (hbad : badAddrs s a n = []) (hfix : fixable s a n = []) : noteRead unit a n s = s := by
  simp [noteRead, hbad, hfix, countBad, forEach]

/-- A read of whole bytes outside frozen pseudo-channels answers them. -/
theorem serveRead_clean {a n : Nat} (hfrozen : anyFrozen s a n = false) (hbad : anyBad s a n = false)
    (hfix : fixable s a n = []) : serveRead a n s = { s with out := .read a (readHbm s a n) :: s.out } := by
  have hbad' : badAddrs s a n = [] := by simpa [anyBad] using hbad
  simp only [serveRead, hfrozen, hbad', List.isEmpty_nil, if_true, Bool.false_eq_true, if_false, List.contains_nil]
  exact noteRead_clean hbad' hfix

theorem bar4Read_beyond {a n : Nat} (h : usable s < a + n) : bar4Read a n s = emit (.abort a) s := if_pos h

theorem bar4Read_waits {a n : Nat} (h : a + n ≤ usable s) (hself : s.hbm.selfRef = true) :
    bar4Read a n s = holdHost (.read a n) s := by
  rw [bar4Read, if_neg (Nat.not_lt.mpr h), if_pos hself]

theorem bar4Read_served {a n : Nat} (h : a + n ≤ usable s) (hself : s.hbm.selfRef = false) :
    bar4Read a n s = serveRead a n s := by
  rw [bar4Read, if_neg (Nat.not_lt.mpr h), if_neg (by simp [hself])]

/-! ### BAR0 and BAR2 reads -/

/-- A BAR2 offset but the first reads as zero. -/
theorem readBar_bar2 {off n : Nat} {pf1 : Bool} (h : off ≠ 0) :
    readBar ⟨true, off, n, false⟩ pf1 s = emit (.read off (List.replicate n 0)) s := by
  simp [readBar, h]

/-- A BAR0 read that is not an aligned word is a completer abort. -/
theorem readBar_unaligned {off n : Nat} {pf1 : Bool} (h : off % 4 ≠ 0 ∨ n ≠ 4) :
    readBar ⟨false, off, n, false⟩ pf1 s = emit (.abort off) s := by
  have hword : BarAddr.word ⟨false, off, n, false⟩ = false := by
    rcases h with h | h <;> simp [BarAddr.word, h]
  simp [readBar, hword]

/-- An aligned word of BAR0 answers what its register reads. -/
theorem readBar_word {off : Nat} {pf1 : Bool} (h : off % 4 = 0) :
    readBar ⟨false, off, 4, false⟩ pf1 s =
      emit (.read off (u32 (readBar0 off pf1 s).1.toNat)) (readBar0 off pf1 s).2 := by
  simp [readBar, BarAddr.word, h]

/-- A register outside the pairs reads as its word and captures nothing. -/
theorem readBar0_plain {off : Nat} (hoff : barOffset false off = some off) (hlo : pairLo off = false)
    (hhi : pairLo (off - 4) = false) : readBar0 off false s = (regWord s false off, s) := by
  simp [readBar0, hoff, hlo, hhi]

/-- A read of `_LO` captures `_HI` (R7). -/
theorem readBar0_lo {off : Nat} (hoff : barOffset false off = some off) (hlo : pairLo off = true) :
    readBar0 off false s = (regWord s false off, { s with host := { s.host with
      hiCap := setKey (regKey false off) (regWord s false (off + 4)) s.host.hiCap } }) := by
  simp [readBar0, hoff, hlo]

/-- A read of `_HI` with a captured half answers it (R7). -/
theorem readBar0_hi {off : Nat} {v : Word} (hoff : barOffset false (off + 4) = some (off + 4)) (hlo : pairLo off = true)
    (hhi : pairLo (off + 4) = false) (hcap : getKey off s.host.hiCap = some v) :
    readBar0 (off + 4) false s = (v, { s with host := { s.host with hiCap := dropKey off s.host.hiCap } }) := by
  have hkey : regKey false (off + 4) - 4 = off := Nat.add_sub_cancel off 4
  simp [readBar0, hoff, hlo, hhi, hkey, hcap]

theorem exec_pairLoRead {dt : Nat} {a : BarAddr} {pf1 : Bool} :
    exec (.pairLoRead dt a pf1) s = .next (readBar a pf1 (tick dt s)) := rfl

theorem exec_bar4Read {dt a n : Nat} : exec (.bar4Read dt a n) s = .next (bar4Read a n (tick dt s)) := rfl

/-- Only the module's own address with a good check is served while it is powered. -/
theorem served_iff {b : BusFrame} : served b s = true ↔ s.power.state ≠ .p4 ∧ b.addr = s.power.smbAddr ∧ b.pecOk = true := by
  simp [served, and_assoc]

theorem exec_vitrineStatusRead {b : BusFrame} : exec (.vitrineStatusRead b) s = .next
    (if served b (tick b.dt s) = true then emit (.read 0xB2 (u16 s.vitKey.status)) (tick b.dt s) else tick b.dt s) := by
  show (if _ then _ else _) = _
  cases h : served b (tick b.dt s) <;> simp

/-- A read of `_LO`, then of `_HI` while the capture stands. -/
theorem pair_reads_as_one {dt du off : Nat} (halign : off % 4 = 0) (hoff : barOffset false off = some off)
    (hlo : pairLo off = true) (hoff' : barOffset false (off + 4) = some (off + 4)) (hhi : pairLo (off + 4) = false)
    (hexec : exec (.pairLoRead dt ⟨false, off, 4, false⟩ false) s = .next t) (hcap : u.host.hiCap = t.host.hiCap) :
    t.out = .read off (u32 (regWord (tick dt s) false off).toNat) :: s.out ∧
      ∃ v, exec (.pairLoRead du ⟨false, off + 4, 4, false⟩ false) u = .next v ∧
        v.out = .read (off + 4) (u32 (regWord (tick dt s) false (off + 4)).toNat) :: u.out := by
  rw [exec_pairLoRead, readBar_word halign, readBar0_lo hoff hlo] at hexec
  cases hexec
  have halign' : (off + 4) % 4 = 0 := by omega
  have hheld : getKey off (tick du u).host.hiCap = some (regWord (tick dt s) false (off + 4)) := by
    rw [tick_host, hcap]
    exact getKey_setKey_same
  refine ⟨rfl, _, rfl, ?_⟩
  rw [readBar_word halign', readBar0_hi hoff' hlo hhi hheld]
  rfl

/-- Settles O7: each read by its own equation, the pair by the capture that lies between its two reads. -/
theorem readsAnswerAndChangeNothing : Obligations.ReadsAnswerAndChangeNothing := by
  refine ⟨fun dt s => ⟨rfl, fun b hpower haddr hpec => ?_, fun b hnot => ?_, fun _ _ _ => rfl, fun _ _ _ => ⟨_, rfl, rfl⟩,
    fun a n hin hself hfrozen hbad hfix => ?_, fun a n hin hself => ?_, fun a n hout => ?_, fun off n pf1 h => ?_,
    fun off n pf1 h => ?_, fun off halign hoff hlo hhi => ?_⟩, ?_⟩
  · exact exec_vitrineStatusRead.trans
      (congrArg Host.Outcome.next (if_pos (served_iff (s := tick b.dt s).2 ⟨hpower, haddr, hpec⟩)))
  · rw [exec_vitrineStatusRead, if_neg]
    intro hserved
    obtain ⟨hpower, haddr, hpec⟩ := served_iff.1 hserved
    rcases hnot with h | h | h
    · exact hpower h
    · exact h haddr
    · rw [h] at hpec
      cases hpec
  · have hclean := serveRead_clean (s := tick dt s) hfrozen hbad hfix
    exact congrArg Host.Outcome.next ((bar4Read_served (s := tick dt s) hin hself).trans hclean)
  · exact congrArg Host.Outcome.next (bar4Read_waits (s := tick dt s) hin hself)
  · exact congrArg Host.Outcome.next (bar4Read_beyond (s := tick dt s) hout)
  · rw [exec_pairLoRead, readBar_unaligned h]
    rfl
  · rw [exec_pairLoRead, readBar_bar2 h]
    rfl
  · rw [exec_pairLoRead, readBar_word halign, readBar0_plain hoff hlo hhi]
    rfl
  · intro dt du off s t u halign hoff hlo hoff' hhi hexec hcap
    exact pair_reads_as_one halign hoff hlo hoff' hhi hexec hcap

end Sys2Proof.Machine
end

section
/-!
PROOFS. What leaves the host's lists alone: sending over Catum Link (Table 22.8) touches ports, rules, ledger and outputs,
and a first completion leaves what is fetched.  With them a completion is followed to its ring (R123, R129, R130).
-/

namespace Sys2Proof.Machine
variable {s t u : State}

/-! ### Sending -/

/-- From `s` to `t` only the Catum ports, the fault rules but for the arming, the ledger but for its saved records, and the
outputs change. -/
def OnlySends (s t : State) : Prop :=
  ∃ p f l o, t = { s with catum := { s.catum with ports := p }, fault := f, ledger := l, out := o } ∧
    f.armed = s.fault.armed ∧ l.saved = s.ledger.saved

theorem onlySends_refl : OnlySends s s := ⟨_, _, _, _, rfl, rfl, rfl⟩

theorem onlySends_trans (h1 : OnlySends s t) (h2 : OnlySends t u) : OnlySends s u := by
  obtain ⟨p, f, l, o, rfl, hf, hl⟩ := h1
  obtain ⟨p', f', l', o', rfl, hf', hl'⟩ := h2
  exact ⟨p', f', l', o', rfl, hf'.trans hf, hl'.trans hl⟩

theorem onlySends_ite {c : Prop} [Decidable c] {a b : State} (ha : OnlySends s a) (hb : OnlySends s b) :
    OnlySends s (if c then a else b) := by split <;> assumption

theorem onlySends_fault {f : Faults} (h : f.armed = s.fault.armed) : OnlySends s { s with fault := f } :=
  ⟨_, _, _, _, rfl, h, rfl⟩

theorem onlySends_emit {o : Out} : OnlySends s (emit o s) := ⟨_, _, _, _, rfl, rfl, rfl⟩

theorem onlySends_modCat {p : Nat} {f : CatPort → CatPort} : OnlySends s (modCat p f s) := ⟨_, _, _, _, rfl, rfl, rfl⟩

theorem onlySends_recordAt {pf1 : Bool} {at_ unit event : Nat} {det : List Byte} :
    OnlySends s (recordAt pf1 at_ unit event det s) := by
  obtain ⟨l, h, hsaved⟩ := recordAt_ledger (s := s) (pf1 := pf1) (at_ := at_) (unit := unit) (event := event) (det := det)
  exact ⟨_, _, l, _, h, rfl, hsaved⟩

theorem onlySends_setRule {r : FaultRule} : OnlySends s (setRule r s) :=
  onlySends_ite (onlySends_fault rfl) (onlySends_fault rfl)

theorem onlySends_recordFault {r : FaultRule} {i n : Nat} : OnlySends s (recordFault r i n s) :=
  onlySends_trans (onlySends_fault (f := { s.fault with total := bump s.fault.total }) rfl) onlySends_recordAt

theorem onlySends_applyRule {i n : Nat} {r : FaultRule} {x : FaultFate × State} : OnlySends x.2 (applyRule i n r x).2 := by
  obtain ⟨fate, s⟩ := x
  have hhit : ∀ (r r' : FaultRule) (k : Nat), OnlySends s (recordFault r i k (setRule r' s)) := fun _ _ _ =>
    onlySends_trans onlySends_setRule onlySends_recordFault
  unfold applyRule
  dsimp only
  split
  · exact onlySends_setRule
  · split
    · exact hhit _ _ _
    · split
      · exact hhit _ _ _
      · exact onlySends_setRule
    all_goals exact hhit _ _ _

theorem onlySends_meetFaults {p c f i n : Nat} {b : Bool} : OnlySends s (meetFaults p c f i n b s).2 := by
  unfold meetFaults
  extract_lets rules
  have hfold : ∀ (l : List FaultRule) (x : FaultFate × State),
      OnlySends x.2 (l.foldl (fun x r => applyRule i n r x) x).2 := by
    intro l
    induction l with
    | nil => exact fun _ => onlySends_refl
    | cons r l ih => exact fun x => onlySends_trans onlySends_applyRule (ih _)
  exact hfold rules (clearFate, s)

theorem onlySends_passPoint {p : Nat} : OnlySends s (passPoint p s) := onlySends_fault rfl

theorem onlySends_throughPoint {p : Nat} {fate : FaultFate} {b : HeldBody} {go : State → State}
    (hgo : ∀ s, OnlySends s (go s)) : OnlySends s (throughPoint p fate b go s) := by
  unfold throughPoint
  refine onlySends_trans onlySends_passPoint (onlySends_ite onlySends_refl ?_)
  split
  · exact onlySends_fault rfl
  · split
    · exact onlySends_fault rfl
    · exact hgo _

theorem onlySends_catOut {p : Nat} {b : Bool} {k : CatPkt} : OnlySends s (catOut p b k s) :=
  onlySends_trans onlySends_meetFaults (onlySends_throughPoint fun _ => onlySends_emit)

theorem onlySends_catLaunch {p : Nat} {k : CatPkt} : OnlySends s (catLaunch p k s) :=
  onlySends_trans onlySends_modCat onlySends_catOut

theorem onlySends_catServe {p n : Nat} : OnlySends s (catServe p n s) := by
  induction n generalizing s with
  | zero => exact onlySends_refl
  | succ n ih =>
    unfold catServe
    dsimp only
    refine onlySends_ite onlySends_refl ?_
    split
    · exact onlySends_refl
    · exact onlySends_trans (onlySends_trans onlySends_modCat onlySends_catLaunch) ih

theorem onlySends_catQueue {p : Nat} {k : CatPkt} : OnlySends s (catQueue p k s) :=
  onlySends_trans onlySends_modCat onlySends_catServe

theorem onlySends_catSend {ty vc dest tag : Nat} {b : List Byte} : OnlySends s (catSend ty vc dest tag b s) := by
  unfold catSend
  split
  · exact onlySends_catQueue
  · exact onlySends_refl

theorem onlySends_host (h : OnlySends s t) : t.host = s.host := by
  obtain ⟨_, _, _, _, rfl, _, _⟩ := h
  rfl

/-! ### What a record, a cause and a reply leave -/

theorem onlyRecords_host (h : OnlyRecords s t) : t.host = s.host := by
  obtain ⟨_, hframe⟩ := h
  rw [hframe]

@[simp] theorem recordAt_host {pf1 : Bool} {at_ unit event : Nat} {det : List Byte} :
    (recordAt pf1 at_ unit event det s).host = s.host := onlyRecords_host onlyRecords_recordAt

@[simp] theorem raiseCause_host {pf1 : Bool} {b : Nat} : (raiseCause pf1 b s).host = s.host :=
  onlyRecords_host onlyRecords_raiseCause

theorem onlyReply_sq (h : OnlyReply s t) : t.host.sq = s.host.sq := by
  obtain ⟨_, hframe⟩ := h
  rw [hframe]

theorem onlyReply_sqOf {q : Nat} (h : OnlyReply s t) : sqOf t q = sqOf s q := by
  rw [sqOf, onlyReply_sq h, sqOf]

/-! ### What is fetched -/

@[simp] theorem modCq_fetched {c : Nat} {f : CompRing → CompRing} : (modCq c f s).host.fetched = s.host.fetched := rfl

@[simp] theorem markFirst_fetched {q : Nat} : (markFirst q s).host.fetched = s.host.fetched := rfl

@[simp] theorem freeEntry_fetched {c : Nat} : (freeEntry c s).host.fetched = s.host.fetched := rfl

theorem writeComp_fetched {c : Nat} {m : Comp} : (writeComp c m s).host.fetched = s.host.fetched := by
  unfold writeComp sendCqVector
  dsimp only
  split_ifs <;> simp

theorem postTo_fetched {c : Nat} {m : Comp} : (postTo c m s).host.fetched = s.host.fetched := by
  unfold postTo setBits
  dsimp only
  split_ifs <;> simp [writeComp_fetched]

theorem postFor_fetched {d : Desc} {m : Comp} : (postFor d m s).host.fetched = s.host.fetched := by
  unfold postFor
  split
  · rw [onlySends_host onlySends_catSend]
  · exact postTo_fetched

/-- A first completion leaves what is fetched. -/
theorem firstAt_fetched {n st : Nat} {d : Desc} {b : List Byte} : (firstAt n d st b s).host.fetched = s.host.fetched := by
  unfold firstAt hostErr
  dsimp only
  split_ifs <;> simp [postFor_fetched]

theorem noteFence_fetched {d : Desc} : (noteFence d s).host.fetched = s.host.fetched := noteFence_lists.1

/-- What completes with BAD_OPCODE at its turn leaves the fetched ones; nothing joins them. -/
theorem settleBad_fetched {q n : Nat} : List.Sublist (settleBad q n s).host.fetched s.host.fetched := by
  induction n generalizing s with
  | zero => exact List.Sublist.refl _
  | succ n ih =>
    unfold settleBad
    split
    · exact List.Sublist.refl _
    · split
      · exact List.Sublist.refl _
      · refine ih.trans ?_
        rw [firstAt_fetched, noteFence_fetched]
        exact List.eraseP_sublist

theorem complete_fetched {d : Desc} {st : Nat} {b : List Byte} :
    List.Sublist (complete d st b s).host.fetched s.host.fetched := by
  have hfirst : (firstAt s.now d st b s).host.fetched = s.host.fetched := firstAt_fetched
  exact hfirst ▸ settleBad_fetched

/-! ### A completion on its way -/

theorem frontOf_none {q : Nat} (h : ∀ e ∈ s.host.fetched, e.ring ≠ q) : frontOf q s = none :=
  List.find?_eq_none.2 fun e he => by simpa using h e he

/-- With no further descriptor of its ring fetched, a completion is the first completion alone. -/
theorem complete_alone {d : Desc} {st : Nat} {b : List Byte} (h : ∀ e ∈ s.host.fetched, e.ring ≠ d.ring) :
    complete d st b s = firstAt s.now d st b s :=
  settleBad_none (frontOf_none (by rwa [firstAt_fetched]))

theorem hostErr_none {d : Desc} {st : Nat} (h : st ≠ 0x501) : hostErr d st s = s := if_neg h

/-- QUIET with DONE posts nothing and releases the entry taken for it (R123, R129). -/
theorem firstAt_quiet {n : Nat} {d : Desc} {b : List Byte} (hfwd : d.fwd = none) (hdrop : s.host.dropped.contains d = false)
    (hquiet : d.quiet = true) :
    firstAt n d 0 b s = freeEntry (ringCq s d.ring)
      (markFirst d.ring { s with host := { s.host with begun := s.host.begun.erase d } }) := by
  simp only [firstAt, hdrop, hfwd, hquiet, hostErr, Bool.false_eq_true, if_false, Option.isNone_none, if_true,
    decide_true, Bool.and_true]
  rfl

/-- Any other first completion is posted. -/
theorem firstAt_posts {n st : Nat} {d : Desc} {b : List Byte} (hfwd : d.fwd = none) (hst : st ≠ 0x501)
    (hdrop : s.host.dropped.contains d = false) (h : d.quiet = false ∨ st ≠ 0) :
    firstAt n d st b s = postTo (ringCq s d.ring)
      { tag := d.tag, status := st, sq := d.ring, freeRun := freeRun s, notice := false, stamp := n, detail := padTo 8 b,
        db := d.db, irq := d.irq, took := true }
      (markFirst d.ring { s with host := { s.host with begun := s.host.begun.erase d } }) := by
  have hposts : ¬ ((d.quiet && decide (st = 0)) = true) := by
    rcases h with h | h <;> simp [h]
  simp only [firstAt, hdrop, Bool.false_eq_true, if_false, hostErr_none hst, hfwd, Option.isNone_none, if_true, if_neg hposts,
    postFor]
  rfl

/-- A completion is written while its ring has room and nothing waits (R130). -/
theorem postTo_room {c : Nat} {m : Comp} (hhold : (cqOf s c).hold = []) (hroom : cqRoom c m.notice s = true) :
    postTo c m s = writeComp c m s := by
  simp [postTo, hhold, hroom]

/-- A completion for a ring that is not enabled waits in the hold area while that has room (R130). -/
theorem postTo_holds {c : Nat} {m : Comp} (hoff : (cqOf s c).enabled = false) (hfree : (cqOf s c).hold.length < 256) :
    postTo c m s = modCq c (fun r => { r with hold := holdComp m r.hold }) s := by
  simp [postTo, cqRoom, hoff, hfree]

/-- The entry written is the one that was taken for it (R123). -/
theorem writeComp_taken {c : Nat} {m : Comp} (htook : m.took = true) (hc : c < s.host.cq.length) :
    (cqOf (writeComp c m s) c).taken = (cqOf s c).taken - 1 := by
  have hmod : ∀ (f : CompRing → CompRing) (w : State), c < w.host.cq.length → cqOf (modCq c f w) c = f (cqOf w c) :=
    fun _ _ h => cqOf_modCq_same h
  have hraise : ∀ (b : Prop) [Decidable b] (w : State), cqOf (if b then raiseCause false 18 w else w) c = cqOf w c ∧
      (if b then raiseCause false 18 w else w).host.cq.length = w.host.cq.length := by
    intro b _ w
    split <;> simp [cqOf]
  have hmark : ∀ o, cqOf (emit o (if m.notice then s else markFirst m.sq s)) c = cqOf s c ∧
      (emit o (if m.notice then s else markFirst m.sq s)).host.cq.length = s.host.cq.length := by
    intro o
    split <;> exact ⟨rfl, rfl⟩
  unfold writeComp
  extract_lets r size next s1 s2 s3
  have hs2 : (cqOf s2 c).taken = (cqOf s c).taken - 1 ∧ s2.host.cq.length = s.host.cq.length := by
    obtain ⟨hring, hlength⟩ := hmark (.comp c r.tail r.phase m)
    refine ⟨?_, upd_length.trans hlength⟩
    rw [hmod _ _ (by rw [hlength]; exact hc), hring]
    simp [htook]
  obtain ⟨htaken, hlength⟩ := hs2
  have hs3 : (cqOf s3 c).taken = (cqOf s c).taken - 1 ∧ s3.host.cq.length = s.host.cq.length := by
    obtain ⟨hring, hlen⟩ := hraise (m.status = 0x21 && m.notice && decide (c < 252)) s2
    exact ⟨(congrArg CompRing.taken hring).trans htaken, hlen.trans hlength⟩
  obtain ⟨htaken, hlength⟩ := hs3
  split
  · rw [sendCqVector, hmod _ _ (by rw [emit_host, hlength]; exact hc)]
    exact htaken
  · exact htaken

end Sys2Proof.Machine
end

section
/-!
PROOFS. Rings (chapter 5): doorbells, enables and disables, and the completions and records that reach them.
-/

namespace Sys2Proof.Machine
variable {s t : State} {q v : Nat} {pf1 al : Bool}

/-! ### Doorbells -/

/-- A module outside P2 is awake already. -/
theorem wakeP2_awake {src : Nat} (h : s.power.state ≠ .p2) : wakeP2 src s = s := by
  simp [wakeP2, h]

theorem ringVisible_iff : ringVisible q pf1 = true ↔ pf1 = decide (252 ≤ q) := by
  simp [ringVisible]

theorem tailDoorbell_moves (hvis : pf1 = decide (252 ≤ q)) (hon : (sqOf s q).enabled = true) (hv : v < sqSize s q) :
    tailDoorbell q v pf1 true s = if v = (sqOf s q).tail then s else
      modSq q (fun r => { r with tail := v, stamps := r.stamps ++ [(v, s.now)] }) s := by
  simp [tailDoorbell, ringVisible_iff.2 hvis, hon, hv]

theorem cqDoorbell_moves (hvis : pf1 = decide (252 ≤ q)) (hon : (cqOf s q).enabled = true) (hv : v < cqSize s q) :
    cqDoorbell q v pf1 true s =
      modCq q (fun r => { r with head := v, freedAt := if cqRoom q true s then r.freedAt else s.now }) s := by
  simp [cqDoorbell, ringVisible_iff.2 hvis, hon, hv]

theorem ledgerDoorbell_moves (hon : (ledgerOf s pf1).enabled = true) (hv : v < lrSize s pf1) :
    ledgerDoorbell v pf1 true s = modLedger pf1 (fun r => { r with head := v }) s := by
  simp [ledgerDoorbell, hon, hv]

theorem tailDoorbell_bad (hvis : pf1 = decide (252 ≤ q))
    (hbad : al = false ∨ sqSize s q ≤ v ∨ (sqOf s q).enabled = false) :
    tailDoorbell q v pf1 al s = doorbellBad pf1 (0x1000 + 16 * q) v s := by
  have hany : (!al || decide (sqSize s q ≤ v) || !(sqOf s q).enabled) = true := by
    simpa [or_assoc] using hbad
  simp only [tailDoorbell, ringVisible_iff.2 hvis, Bool.not_true, Bool.false_eq_true, if_false, hany, if_true]

theorem cqDoorbell_bad (hvis : pf1 = decide (252 ≤ q))
    (hbad : al = false ∨ cqSize s q ≤ v ∨ (cqOf s q).enabled = false) :
    cqDoorbell q v pf1 al s = doorbellBad pf1 (0x2000 + 16 * q) v s := by
  have hany : (!al || decide (cqSize s q ≤ v) || !(cqOf s q).enabled) = true := by
    simpa [or_assoc] using hbad
  simp only [cqDoorbell, ringVisible_iff.2 hvis, Bool.not_true, Bool.false_eq_true, if_false, hany, if_true]

/-- Through the other function a doorbell does nothing. -/
theorem doorbell_unseen (h : pf1 ≠ decide (252 ≤ q)) : tailDoorbell q v pf1 al s = s ∧ cqDoorbell q v pf1 al s = s := by
  have hvis : ringVisible q pf1 = false := by simpa [ringVisible] using h
  simp [tailDoorbell, cqDoorbell, hvis]

theorem exec_tailDoorbell {dt : Nat} (h : s.power.state ≠ .p2) :
    exec (.tailDoorbell dt q v pf1 al) s = .next (tailDoorbell q v pf1 al (tick dt s)) :=
  congrArg (fun w => Host.Outcome.next (tailDoorbell q v pf1 al w)) (wakeP2_awake (s := tick dt s) h)

theorem exec_cqHeadDoorbell {dt : Nat} (h : s.power.state ≠ .p2) :
    exec (.cqHeadDoorbell dt q v pf1 al) s = .next (cqDoorbell q v pf1 al (tick dt s)) :=
  congrArg (fun w => Host.Outcome.next (cqDoorbell q v pf1 al w)) (wakeP2_awake (s := tick dt s) h)

theorem exec_ledgerHeadDoorbell {dt : Nat} (h : s.power.state ≠ .p2) :
    exec (.ledgerHeadDoorbell dt v pf1 al) s = .next (ledgerDoorbell v pf1 al (tick dt s)) :=
  congrArg (fun w => Host.Outcome.next (ledgerDoorbell v pf1 al w)) (wakeP2_awake (s := tick dt s) h)

/-- Settles O8: awake, each doorbell is its own operation on the state to which time has passed. -/
theorem doorbellsMoveTheirRings : Obligations.DoorbellsMoveTheirRings := by
  refine ⟨fun dt q v pf1 s hawake => ⟨fun hvis hon hv => ?_, fun hvis hon hv => ?_, fun hon hv => ?_, fun hon hv => ?_⟩,
    fun dt q v pf1 al s hawake => ⟨fun hvis hbad => ?_, fun hvis hbad => ?_, fun hvis => ?_⟩⟩
  · exact (exec_tailDoorbell hawake).trans (congrArg _ (tailDoorbell_moves (s := tick dt s) hvis hon hv))
  · exact (exec_cqHeadDoorbell hawake).trans (congrArg _ (cqDoorbell_moves (s := tick dt s) hvis hon hv))
  · exact (exec_ledgerHeadDoorbell hawake).trans (congrArg _ (ledgerDoorbell_moves (s := tick dt s) (pf1 := false) hon hv))
  · exact (exec_ledgerHeadDoorbell hawake).trans (congrArg _ (ledgerDoorbell_moves (s := tick dt s) (pf1 := true) hon hv))
  · exact (exec_tailDoorbell hawake).trans (congrArg _ (tailDoorbell_bad (s := tick dt s) hvis hbad))
  · exact (exec_cqHeadDoorbell hawake).trans (congrArg _ (cqDoorbell_bad (s := tick dt s) hvis hbad))
  · obtain ⟨htail, hhead⟩ := doorbell_unseen (s := tick dt s) (v := v) (al := al) hvis
    exact ⟨(exec_tailDoorbell hawake).trans (congrArg _ htail), (exec_cqHeadDoorbell hawake).trans (congrArg _ hhead)⟩

/-! ### Enables -/

theorem sqEnable_starts (hvis : pf1 = decide (252 ≤ q)) (hoff : (sqOf s q).enabled = false)
    (hok : sqRefused s q = false) : sqEnable q pf1 s = modSq q (fun _ => ⟨true, false, false, false, 0, 0, [], 0, 0⟩) s := by
  simp [sqEnable, ringVisible_iff.2 hvis, hoff, hok]
  rfl

theorem sqEnable_refused (hvis : pf1 = decide (252 ≤ q)) (hoff : (sqOf s q).enabled = false)
    (hbad : sqRefused s q = true) : sqEnable q pf1 s = modSq q (fun r => { r with err := true }) s := by
  simp [sqEnable, ringVisible_iff.2 hvis, hoff, hbad]

theorem cqEnable_starts (hvis : pf1 = decide (252 ≤ q)) (hoff : (cqOf s q).enabled = false)
    (hok : cqRefused s q = false) : cqEnable q pf1 s =
      modCq q (fun r => { Reset.compRing with enabled := true, hold := r.hold, taken := r.taken }) s := by
  simp [cqEnable, ringVisible_iff.2 hvis, hoff, hok]

theorem cqDisable_unbound (hvis : pf1 = decide (252 ≤ q))
    (hfree : ∀ r < 256, (sqOf s r).enabled = true → ringCq s r ≠ q) :
    cqDisable q pf1 s = modCq q (fun r => { r with enabled := false }) s := by
  have hnone : ((List.range 256).any fun r => (sqOf s r).enabled && decide (ringCq s r = q)) = false := by
    simpa using hfree
  simp [cqDisable, ringVisible_iff.2 hvis, hnone]

theorem sqDisable_flushes (hvis : pf1 = decide (252 ≤ q)) : sqDisable q pf1 s =
    flushRing q (modSq q (fun r => { r with enabled := false, halted := false, haltedUcw := false }) s) := by
  simp [sqDisable, ringVisible_iff.2 hvis]

/-- With nothing fetched from the ring, nothing is flushed. -/
theorem flushRing_none (h : ∀ d ∈ s.host.fetched, d.ring ≠ q) : flushRing q s = s := by
  have hflush : (s.host.fetched.filter fun d => decide (d.ring = q ∧ d.fwd = none)) = [] := by
    refine List.filter_eq_nil_iff.2 fun d hd hq => ?_
    exact h d hd (of_decide_eq_true hq).1
  have hkeep : (s.host.fetched.filter fun d => !(d.ring == q && d.fwd.isNone)) = s.host.fetched :=
    List.filter_eq_self.2 fun d hd => by simp [h d hd]
  simp only [flushRing, hflush, hkeep, forEach, List.foldl_nil]

theorem ledgerEnable_starts (hoff : (ledgerOf s pf1).enabled = false)
    (hsize : 10 ≤ regField s (0x00100018 + if pf1 then pf1Base else 0) 0 4) : ledgerEnable pf1 s =
      modLedger pf1 (fun r => { r with enabled := true, head := 0, tail := 0, phase := true }) s := by
  have hmax : regField s (0x00100018 + if pf1 then pf1Base else 0) 0 4 < 2 ^ 4 := Nat.mod_lt _ (by decide)
  have hok : ledgerRefused pf1 s = false := by
    simp only [ledgerRefused, Bool.or_eq_false_iff, decide_eq_false_iff_not]
    omega
  simp [ledgerEnable, hoff, hok]

/-! ### FLUSHED -/

/-- Each completion of a list leaves of the fetched ones a part. -/
theorem forEach_complete_fetched {l : List Desc} {st : Nat} {b : List Byte} :
    List.Sublist (forEach l (fun d => complete d st b) s).host.fetched s.host.fetched := by
  induction l generalizing s with
  | nil => exact List.Sublist.refl _
  | cons d l ih => exact ih.trans complete_fetched

/-- Flushing leaves no host descriptor of the ring among those fetched. -/
theorem flushRing_fetched {d : Desc} (h : d ∈ (flushRing q s).host.fetched) (hring : d.ring = q) : d.fwd ≠ none := by
  have hmem := forEach_complete_fetched.subset h
  rw [List.mem_filter] at hmem
  obtain ⟨-, hkept⟩ := hmem
  intro hfwd
  simp [hring, hfwd] at hkept

/-- Flushing only completes descriptors. -/
theorem onlyReply_flushRing : OnlyReply s (flushRing q s) :=
  onlyReply_trans ⟨fun _ _ _ _ => rfl, rfl⟩ (onlyReply_forEach fun _ _ => onlyReply_complete)

/-- A cleared ring stops, what it had fetched completes, and no other submission ring changes. -/
theorem sqDisable_frame {dt : Nat} (hq : q < 252) : ∃ t, exec (.sqDisable dt q false) s = .next t ∧
    (∀ d ∈ t.host.fetched, d.ring = q → d.fwd ≠ none) ∧ (∀ r, r ≠ q → sqOf t r = sqOf s r) ∧
    (q < s.host.sq.length → (sqOf t q).enabled = false) ∧
    OnlyReply { s with host := { s.host with sq := t.host.sq } } t := by
  have hvis : false = decide (252 ≤ q) := by simpa using hq
  let stopped := modSq q (fun r => { r with enabled := false, halted := false, haltedUcw := false }) (tick dt s)
  have hflush : OnlyReply stopped (flushRing q stopped) := onlyReply_flushRing
  refine ⟨flushRing q stopped, congrArg _ (sqDisable_flushes hvis), fun d hd hring => flushRing_fetched hd hring,
    fun r hr => ?_, fun hlen => ?_, ?_⟩
  · exact (onlyReply_sqOf hflush).trans (sqOf_modSq_ne hr)
  · rw [onlyReply_sqOf hflush, sqOf_modSq_same (s := tick dt s) hlen]
  · have htick : OnlyReply { s with host := { s.host with sq := stopped.host.sq } } stopped :=
      onlyReply_tick (s := { s with host := { s.host with sq := stopped.host.sq } }) (dt := dt)
    rw [onlyReply_sq hflush]
    exact onlyReply_trans htick hflush

/-- Settles O10: each enable and disable by its own equation, a flush by what its completions leave. -/
theorem ringsStartAndStop : Obligations.RingsStartAndStop := by
  refine ⟨fun dt q pf1 s hvis => ⟨fun hoff hok => ?_, fun hoff hbad => ?_, fun hoff hok => ?_, fun hfree => ?_,
    fun hnone => ?_, fun hoff hsize => ?_, fun hoff hsize => ?_⟩, fun dt q s hq => sqDisable_frame hq⟩
  · exact congrArg _ (sqEnable_starts (s := tick dt s) hvis hoff hok)
  · exact congrArg _ (sqEnable_refused (s := tick dt s) hvis hoff hbad)
  · exact congrArg _ (cqEnable_starts (s := tick dt s) hvis hoff hok)
  · exact congrArg _ (cqDisable_unbound (s := tick dt s) hvis hfree)
  · exact congrArg _ ((sqDisable_flushes (s := tick dt s) hvis).trans (flushRing_none hnone))
  · exact congrArg _ (ledgerEnable_starts (s := tick dt s) (pf1 := false) hoff hsize)
  · exact congrArg _ (ledgerEnable_starts (s := tick dt s) (pf1 := true) hoff hsize)

/-! ### NOP, LEDGER_MARK, records and completions -/

theorem exec_nop_accepted {dt : Nat} {d : Desc} (h : Runs (.nop dt d) s) :
    exec (.nop dt d) s = .next (complete d.trunc 0 [] (begun d d.trunc (tick dt s))) :=
  congrArg _ (runDesc_accepted h)

theorem exec_ledgerMark_accepted {dt : Nat} {d : Desc} (h : Runs (.ledgerMark dt d) s) :
    exec (.ledgerMark dt d) s = .next (complete d.trunc 0 [] (recordAt (decide (252 ≤ d.ring)) d.db 3 0x050A
      (slice d.trunc.bytes 16 16) (begun d d.trunc (tick dt s)))) :=
  congrArg _ (runDesc_accepted h)

/-- What has begun after a time is no more than a reply. -/
theorem onlyReply_tick_begun {dt : Nat} {d e : Desc} : OnlyReply s (begun d e (tick dt s)) :=
  onlyReply_trans onlyReply_tick onlyReply_begun

theorem onlyReply_recordAt {at_ unit event : Nat} {det : List Byte} : OnlyReply s (recordAt pf1 at_ unit event det s) :=
  onlyReply_of_records onlyRecords_recordAt

/-- A record outside start-up, of an event that PF1's copy does not take, joins the store while it has room (R134, R157). -/
theorem recordAt_joins {n unit event : Nat} {det : List Byte} (hrun : s.startup.running = false)
    (hroom : s.ledger.main.hold.length < 16384) (hevent : event / 256 ≠ 9) :
    recordAt false n unit event det s = { s with ledger := { s.ledger with
      seqs := upd s.ledger.seqs unit (fun n => (n + 1) % 65536), runs := upd s.ledger.runs unit (runNext n),
      main := { s.ledger.main with hold := s.ledger.main.hold ++
        [⟨event, catDevice s, unit, s.ledger.seqs.getD unit 0, freeRun s, false, recStamp unit n s, padTo 16 det⟩] } } } := by
  simp [recordAt, keepRec, LedgerRing.put, hrun, hroom, hevent]

/-- Settles O11: the operations are their actions, a record joins the store, and a completion is followed to its ring. -/
theorem completionsAndRecordsAreKept : Obligations.CompletionsAndRecordsAreKept := by
  refine ⟨fun dt d s => ⟨fun h => ⟨_, exec_nop_accepted h, rfl, onlyReply_trans onlyReply_tick_begun onlyReply_complete⟩,
    fun h => ⟨_, exec_ledgerMark_accepted h, rfl, onlyReply_trans (onlyReply_trans onlyReply_tick_begun onlyReply_recordAt)
      onlyReply_complete⟩⟩, fun n unit event det s hrun hroom hevent => recordAt_joins hrun hroom hevent,
    fun d st det s hfwd hst hdrop halone => ⟨fun hquiet hdone => ?_, fun hposts => ?_⟩⟩
  · subst hdone
    rw [complete_alone halone, firstAt_quiet hfwd hdrop hquiet]
    rfl
  · have hpost := (complete_alone halone).trans (firstAt_posts (n := s.now) (b := det) hfwd hst hdrop hposts)
    refine ⟨{ tag := d.tag, status := st, sq := d.ring, freeRun := freeRun s, notice := false, stamp := s.now,
              detail := padTo 8 det, db := d.db, irq := d.irq, took := true },
      rfl, rfl, rfl, rfl, rfl, rfl, rfl, rfl, rfl, rfl, fun hhold hroom => ?_, fun hoff hfree => ?_⟩
    · have hwrite := hpost.trans (postTo_room hhold hroom)
      refine ⟨hwrite, ?_⟩
      rintro t rfl hlen
      rw [hwrite]
      exact writeComp_taken rfl hlen
    · exact hpost.trans (postTo_holds hoff hfree)

end Sys2Proof.Machine
end

section
/-!
PROOFS. Register writes by their access codes (R4 to R7, R463) and the set-up lock with its shedding thresholds (R67, R118).
-/

namespace Sys2Proof.Machine
variable {s t : State}

/-! ### Bits of a register word -/

theorem wordOf_toNat (x : Word) : wordOf x.toNat = x := BitVec.ofNat_toNat 32 x |>.trans (BitVec.setWidth_eq x)

theorem wordOf_and (x : Word) (m : Nat) : wordOf (x.toNat &&& m) = x &&& wordOf m := by
  rw [wordOf, BitVec.ofNat_and]
  exact congrArg (· &&& BitVec.ofNat 32 m) (wordOf_toNat x)

/-- A word is what a mask takes of it and the rest. -/
theorem word_sub_and (x m : Word) : x - (x &&& m) = x &&& ~~~m := by
  have hdisjoint : (x &&& ~~~m) &&& (x &&& m) = 0 := by
    ext i hi
    cases h : m[i] <;> simp [h]
  have hsplit : (x &&& ~~~m) ||| (x &&& m) = x := by
    ext i hi
    cases h : m[i] <;> simp [h]
  have hadd : (x &&& ~~~m) + (x &&& m) = x := by
    rw [BitVec.add_eq_or_of_and_eq_zero _ _ hdisjoint, hsplit]
  exact (eq_sub_of_add_eq hadd).symm

/-- What a mask takes is taken away bit by bit. -/
theorem wordOf_sub_and (x : Word) (m : Nat) : wordOf (x.toNat - (x.toNat &&& m)) = x &&& ~~~wordOf m := by
  have hle : x.toNat &&& m ≤ x.toNat := Nat.and_le_left
  rw [wordOf, ← BitVec.ofNat_sub_ofNat_of_le _ _ (hle.trans_lt x.isLt) hle]
  exact (congrArg₂ (· - ·) (wordOf_toNat x) (wordOf_and x m)).trans (word_sub_and x _)

/-- A masked write replaces the bits of its mask. -/
theorem wordOf_masked_write (x v : Word) (m : Nat) :
    wordOf (x.toNat - (x.toNat &&& m) + (v.toNat &&& m)) = (x &&& ~~~wordOf m) ||| (v &&& wordOf m) := by
  have hdisjoint : (x &&& ~~~wordOf m) &&& (v &&& wordOf m) = 0 := by
    ext i hi
    cases h : (wordOf m)[i] <;> simp [h]
  rw [wordOf, BitVec.ofNat_add]
  exact (congrArg₂ (· + ·) (wordOf_sub_and x m) (wordOf_and v m)).trans
    (BitVec.add_eq_or_of_and_eq_zero _ _ hdisjoint)

/-! ### The registers written -/

theorem findReg_irqMask : findReg 0x00100008 = some ⟨0x00100008, 4, 1, 0xFFFFFFFF, 0, 0, 0xFFFFFFFF⟩ := by decide
theorem findReg_irqCause : findReg 0x00100004 = some ⟨0x00100004, 4, 1, 0, 0, 0x0107013F, 0⟩ := by decide
theorem findReg_keepSet : findReg 0x01100024 = some ⟨0x01100024, 4, 1, 0, 0xFF, 0, 0xFF⟩ := by decide

/-- The interrupt mask takes the value written. -/
theorem storeReg_irqMask {v : Word} {l : Bool} : storeReg 0x00100008 0x00100008 v l s = setRaw 0x00100008 v s := by
  have hwrite := wordOf_masked_write (rawReg s 0x00100008) v 0xFFFFFFFF
  have hall : wordOf 0xFFFFFFFF = BitVec.allOnes 32 := by decide
  rw [hall, BitVec.not_allOnes, BitVec.and_zero, BitVec.zero_or, BitVec.and_allOnes] at hwrite
  cases l <;> simpa [storeReg, findReg_irqMask, RegDef.writable, fieldDiscarded, normField, regIrqCause, pf1Base] using
    congrArg (setRaw 0x00100008 · s) hwrite

/-- A cause register loses exactly the bits written as 1 (R4). -/
theorem storeReg_irqCause {v : Word} {l : Bool} : storeReg 0x00100004 0x00100004 v l s =
    setRaw 0x00100004 (rawReg s 0x00100004 &&& ~~~(v &&& 0x0107013F#32)) s := by
  have hclear : wordOf ((rawReg s 0x00100004).toNat - ((rawReg s 0x00100004).toNat &&& (v.toNat &&& 0x0107013F))) =
      rawReg s 0x00100004 &&& ~~~(v &&& 0x0107013F#32) := by
    rw [wordOf_sub_and, wordOf_and]
    rfl
  cases l <;> simpa [storeReg, findReg_irqCause, RegDef.writable, regIrqCause, pf1Base] using
    congrArg (setRaw 0x00100004 · s) hclear

/-- PF1's cause register loses the causes of its own (R137). -/
theorem storeReg_irqCause_pf1 {v : Word} {l : Bool} : storeReg (regIrqCause + pf1Base) 0x00100004 v l s =
    setRaw (regIrqCause + pf1Base) (rawReg s (regIrqCause + pf1Base) &&& ~~~(v &&& 0x17B#32)) s := by
  have hclear : wordOf ((rawReg s (regIrqCause + pf1Base)).toNat -
      ((rawReg s (regIrqCause + pf1Base)).toNat &&& (v.toNat &&& 0x17B))) =
      rawReg s (regIrqCause + pf1Base) &&& ~~~(v &&& 0x17B#32) := by
    rw [wordOf_sub_and, wordOf_and]
    rfl
  cases l <;> simpa [storeReg, findReg_irqCause, RegDef.writable] using
    congrArg (setRaw (regIrqCause + pf1Base) · s) hclear

/-- Before set-up lock the kept heads take the value written (R5). -/
theorem storeReg_keepSet_open {v : Word} : storeReg 0x01100024 0x01100024 v false s =
    setRaw 0x01100024 ((rawReg s 0x01100024 &&& ~~~0xFF#32) ||| (v &&& 0xFF#32)) s := by
  have hstore : storeReg 0x01100024 0x01100024 v false s = setRaw 0x01100024
      (wordOf ((rawReg s 0x01100024).toNat - ((rawReg s 0x01100024).toNat &&& 0xFF) + (v.toNat &&& 0xFF))) s := by
    simp [storeReg, findReg_keepSet, RegDef.writable, fieldDiscarded, normField, regIrqCause, pf1Base]
  rw [hstore, wordOf_masked_write]
  rfl

/-- After it they stay (R5). -/
theorem storeReg_keepSet_locked {v : Word} : storeReg 0x01100024 0x01100024 v true s =
    setRaw 0x01100024 (rawReg s 0x01100024) s := by
  simpa [storeReg, findReg_keepSet, RegDef.writable, regIrqCause, pf1Base] using
    congrArg (setRaw 0x01100024 · s) (wordOf_toNat (rawReg s 0x01100024))

/-- Whether a write would change the kept heads shows in its low byte. -/
theorem rwlChanged_keepSet {v : Word} :
    rwlChanged 0x01100024 0x01100024 v s = true ↔ (rawReg s 0x01100024).toNat % 256 ≠ v.toNat % 256 := by
  have hlow : ∀ n : Nat, n &&& 255 = n % 256 := fun n => Nat.and_two_pow_sub_one_eq_mod n 8
  simp only [rwlChanged, findReg_keepSet, hlow, bne_iff_ne, ne_comm]

theorem rwlChanged_irqMask {v : Word} : rwlChanged 0x00100008 0x00100008 v s = false := by
  simp [rwlChanged, findReg_irqMask]

theorem rwlChanged_irqCause {v : Word} : rwlChanged 0x00100004 0x00100004 v s = false := by
  simp [rwlChanged, findReg_irqCause]

/-! ### Writes of BAR0 and BAR2 -/

theorem exec_registerWrite {dt : Nat} {a : BarAddr} {v : Word} {pf1 : Bool} :
    exec (.registerWrite dt a v pf1) s = .next (writeBar a v pf1 (tick dt s)) := rfl

theorem writeBar_irqMask {v : Word} :
    writeBar ⟨false, 0x00100008, 4, false⟩ v false s = setRaw 0x00100008 v s := by
  have hword : writeBar ⟨false, 0x00100008, 4, false⟩ v false s = storeReg 0x00100008 0x00100008 v s.host.locked
      (if s.host.locked && rwlChanged 0x00100008 0x00100008 v s then rwlRecord 0 0x00100008 v.toNat s else s) := rfl
  simp [hword, rwlChanged_irqMask, storeReg_irqMask]

theorem writeBar_irqCause {v : Word} : writeBar ⟨false, 0x00100004, 4, false⟩ v false s =
    setRaw 0x00100004 (rawReg s 0x00100004 &&& ~~~(v &&& 0x0107013F#32)) s := by
  have hword : writeBar ⟨false, 0x00100004, 4, false⟩ v false s = storeReg 0x00100004 0x00100004 v s.host.locked
      (if s.host.locked && rwlChanged 0x00100004 0x00100004 v s then rwlRecord 0 0x00100004 v.toNat s else s) := rfl
  simp [hword, rwlChanged_irqCause, storeReg_irqCause]

theorem writeBar_irqCause_pf1 {v : Word} : writeBar ⟨false, 4, 4, false⟩ v true s =
    setRaw (regIrqCause + pf1Base) (rawReg s (regIrqCause + pf1Base) &&& ~~~(v &&& 0x17B#32)) s :=
  storeReg_irqCause_pf1

/-- A write of the kept heads records what the lock discards, then stores. -/
theorem writeBar_keepSet {v : Word} : writeBar ⟨false, 0x01100024, 4, false⟩ v false s =
    storeReg 0x01100024 0x01100024 v s.host.locked
      (if s.host.locked && rwlChanged 0x01100024 0x01100024 v s then rwlRecord 0 0x01100024 v.toNat s else s) := rfl

theorem rawReg_record {unit event k : Nat} {det : List Byte} : rawReg (record unit event det s) k = rawReg s k := rfl

theorem writeBar_unaligned {off n : Nat} {v : Word} {pf1 : Bool} (h : off % 4 ≠ 0 ∨ n ≠ 4) :
    writeBar ⟨false, off, n, false⟩ v pf1 s = emit (.abort off) s := by
  have hword : BarAddr.word ⟨false, off, n, false⟩ = false := by
    rcases h with h | h <;> simp [BarAddr.word, h]
  simp [writeBar, hword]

/-- An aligned word at a ring's tail doorbell rings it (R115). -/
theorem writeBar2_tail {q : Nat} {v : Word} {pf1 : Bool} (h : q < 256) :
    writeBar2 ⟨true, 0x1000 + 16 * q, 4, false⟩ v pf1 s = tailDoorbell q v.toNat pf1 true s := by
  have hslot : BarAddr.slot ⟨true, 0x1000 + 16 * q, 4, false⟩ = some (0x1000 + 16 * q) := by
    have hbase : (0x1000 + 16 * q + 4 - 1) / 16 * 16 = 0x1000 + 16 * q := by omega
    simp only [BarAddr.slot, hbase]
    exact if_pos (by omega)
  have hword : BarAddr.word ⟨true, 0x1000 + 16 * q, 4, false⟩ = true := by
    have halign : (0x1000 + 16 * q) % 4 = 0 := by omega
    simp [BarAddr.word, halign]
  have hoff : ¬ (0x1000 + 16 * q = 0 ∧ True) := by omega
  have hin : 0x1000 ≤ 0x1000 + 16 * q ∧ 0x1000 + 16 * q < 0x2000 := by omega
  have hring : (0x1000 + 16 * q - 0x1000) / 16 = q := by omega
  simp only [writeBar2, hslot, hword, if_neg hoff, if_pos hin, hring]

/-- A poisoned write of the interrupt mask puts it at its reset value and is recorded (log 119). -/
theorem writeBar_poisoned_irqMask {v : Word} : writeBar ⟨false, 0x00100008, 4, true⟩ v false s =
    record 3 0x1406 (u32 0x00100008) (setRaw 0x00100008 (regReset 0x00100008) s) := by
  have hoff : barOffset false 0x00100008 = some 0x00100008 := by decide
  simp [writeBar, BarAddr.word, poisonedWrite, hoff, findReg_irqMask, regKey, shadowLost, regUnit]

/-- Settles O14: each write by the equation of its register, its doorbell or its refusal. -/
theorem registerWritesFollowAccess : Obligations.RegisterWritesFollowAccess := by
  intro dt v s
  refine ⟨congrArg _ (writeBar_irqMask (s := tick dt s)), congrArg _ (writeBar_irqCause (s := tick dt s)),
    congrArg _ (writeBar_irqCause_pf1 (s := tick dt s)), fun hopen => ?_, fun hlocked hsame => ?_, fun hlocked hchange => ?_,
    fun off n pf1 h => ?_, fun q pf1 hq => ?_, fun off pf1 => rfl, ?_⟩
  · have hopen' : (tick dt s).host.locked = false := hopen
    rw [exec_registerWrite, writeBar_keepSet, hopen']
    exact congrArg _ storeReg_keepSet_open
  · have hlocked' : (tick dt s).host.locked = true := hlocked
    have hstays : ¬ (true && rwlChanged 0x01100024 0x01100024 v (tick dt s)) = true := by
      rw [Bool.true_and, rwlChanged_keepSet]
      exact not_not.mpr hsame
    rw [exec_registerWrite, writeBar_keepSet, hlocked', if_neg hstays]
    exact congrArg _ storeReg_keepSet_locked
  · have hlocked' : (tick dt s).host.locked = true := hlocked
    have hchanges : (true && rwlChanged 0x01100024 0x01100024 v (tick dt s)) = true := by
      rw [Bool.true_and, rwlChanged_keepSet]
      exact hchange
    rw [exec_registerWrite, writeBar_keepSet, hlocked', if_pos hchanges]
    exact congrArg _ storeReg_keepSet_locked
  · exact congrArg _ (writeBar_unaligned (s := tick dt s) h)
  · exact congrArg _ (writeBar2_tail hq)
  · refine ⟨_, congrArg Host.Outcome.next (writeBar_poisoned_irqMask (s := tick dt s)),
      rawReg_record.trans rawReg_setRaw_same, ?_⟩
    exact onlyRecords_trans (s := setRaw 0x00100008 (regReset 0x00100008) s) onlyRecords_tick onlyRecords_record

/-! ### The set-up lock -/

theorem clampNat_bounds {lo hi v : Nat} (h : lo ≤ hi) : lo ≤ clampNat lo hi v ∧ clampNat lo hi v ≤ hi :=
  ⟨le_max_left _ _, max_le h (min_le_left _ _)⟩

/-- The thresholds of a lock stand 0.2 V apart within their ranges (R67, Table 3.1). -/
theorem lockThr_apart {a b c d : Nat} : ∃ t1 t2 t3 t4, lockThr [a, b, c, d] = [t1, t2, t3, t4] ∧ t2 + 200 ≤ t1 ∧
    t3 + 200 ≤ t2 ∧ t4 + 200 ≤ t3 ∧ 7600 ≤ t4 ∧ t4 ≤ 8200 ∧ t3 ≤ 8500 ∧ t2 ≤ 8700 ∧ t1 ≤ 8900 := by
  obtain ⟨-, h1⟩ := clampNat_bounds (lo := 8000) (hi := 8900) (v := a) (by decide)
  obtain ⟨-, h2⟩ := clampNat_bounds (lo := 7800) (hi := 8700) (v := b) (by decide)
  obtain ⟨-, h3⟩ := clampNat_bounds (lo := 7700) (hi := 8500) (v := c) (by decide)
  obtain ⟨h4, h4'⟩ := clampNat_bounds (lo := 7600) (hi := 8200) (v := d) (by decide)
  have h3' := max_le h3 ((Nat.add_le_add_right h4' 200).trans (by decide))
  have h2' := max_le h2 (Nat.add_le_add_right h3' 200)
  exact ⟨_, _, _, _, rfl, le_max_right _ _, le_max_right _ _, le_max_right _ _, h4, h4', h3', h2',
    max_le h1 (Nat.add_le_add_right h2' 200)⟩

theorem regThr_record {unit event : Nat} {det : List Byte} : regThr (record unit event det s) = regThr s := rfl

/-- What the lock puts into a threshold register reads back. -/
theorem bits_wordOf_threshold {n : Nat} (h : n ≤ 8900) : bits (wordOf n).toNat 0 14 = n := by
  have h32 : n % 2 ^ 32 = n := Nat.mod_eq_of_lt (by omega)
  have h14 : n % 2 ^ 14 = n := Nat.mod_eq_of_lt (by omega)
  simp only [bits, wordOf, BitVec.toNat_ofNat, h32, pow_zero, Nat.div_one, h14]

/-- The registers after the checks of R67, where they change anything: thresholds, hysteresis and CLAMPED. -/
def shedRegs (t1 t2 t3 t4 h : Nat) (s : State) : State :=
  setBits 0x01100028 0x100 (setRaw 0x01100020 (wordOf h) (setRaw 0x0110001C (wordOf t4) (setRaw 0x01100018 (wordOf t3)
    (setRaw 0x01100014 (wordOf t2) (setRaw 0x01100010 (wordOf t1) s)))))

theorem shedRegs_other {t1 t2 t3 t4 h k : Nat} (hk : k < 0x01100010 ∨ 0x01100028 < k) :
    rawReg (shedRegs t1 t2 t3 t4 h s) k = rawReg s k := by
  unfold shedRegs setBits
  iterate 6 rw [rawReg_setRaw_ne (by omega)]

theorem regThr_shedRegs {t1 t2 t3 t4 h : Nat} (h1 : t1 ≤ 8900) (h2 : t2 ≤ 8900) (h3 : t3 ≤ 8900) (h4 : t4 ≤ 8900) :
    regThr (shedRegs t1 t2 t3 t4 h s) = [t1, t2, t3, t4] := by
  have hread : ∀ (k : Nat) (v : Word), rawReg (shedRegs t1 t2 t3 t4 h s) k = v →
      regField (shedRegs t1 t2 t3 t4 h s) k 0 14 = bits v.toNat 0 14 := fun _ _ h => by rw [regField, h]
  have hr1 : rawReg (shedRegs t1 t2 t3 t4 h s) 0x01100010 = wordOf t1 := by
    unfold shedRegs setBits
    iterate 5 rw [rawReg_setRaw_ne (by decide)]
    exact rawReg_setRaw_same
  have hr2 : rawReg (shedRegs t1 t2 t3 t4 h s) 0x01100014 = wordOf t2 := by
    unfold shedRegs setBits
    iterate 4 rw [rawReg_setRaw_ne (by decide)]
    exact rawReg_setRaw_same
  have hr3 : rawReg (shedRegs t1 t2 t3 t4 h s) 0x01100018 = wordOf t3 := by
    unfold shedRegs setBits
    iterate 3 rw [rawReg_setRaw_ne (by decide)]
    exact rawReg_setRaw_same
  have hr4 : rawReg (shedRegs t1 t2 t3 t4 h s) 0x0110001C = wordOf t4 := by
    unfold shedRegs setBits
    iterate 2 rw [rawReg_setRaw_ne (by decide)]
    exact rawReg_setRaw_same
  have hlist : regThr (shedRegs t1 t2 t3 t4 h s) = [regField (shedRegs t1 t2 t3 t4 h s) 0x01100010 0 14,
      regField (shedRegs t1 t2 t3 t4 h s) 0x01100014 0 14, regField (shedRegs t1 t2 t3 t4 h s) 0x01100018 0 14,
      regField (shedRegs t1 t2 t3 t4 h s) 0x0110001C 0 14] := rfl
  rw [hlist, hread _ _ hr1, hread _ _ hr2, hread _ _ hr3, hread _ _ hr4, bits_wordOf_threshold h1, bits_wordOf_threshold h2,
    bits_wordOf_threshold h3, bits_wordOf_threshold h4]

/-- The shedding values that the lock puts in force. -/
def shedPower (s : State) : Power := { s.power with thr := lockThr (regThr s), hyst := clampNat 100 1000 (regHyst s) }

/-- The checks of R67 put the values in force; registers change, with a record, only where a value was not taken as it stood. -/
theorem lockShedding_cases : (regThr s = lockThr (regThr s) ∧ lockShedding s = { s with power := shedPower s }) ∨
    ∃ t1 t2 t3 t4, lockThr (regThr s) = [t1, t2, t3, t4] ∧ lockShedding s =
      record 0x2D 0x0307 ([t1, t2, t3, t4].flatMap u16 ++ u16 (clampNat 100 1000 (regHyst s)))
        (shedRegs t1 t2 t3 t4 (clampNat 100 1000 (regHyst s)) { s with power := shedPower s }) := by
  by_cases hchanged : (lockThr (regThr s) != regThr s || clampNat 100 1000 (regHyst s) != regHyst s) = true
  · refine Or.inr ⟨_, _, _, _, rfl, ?_⟩
    simp only [lockShedding, hchanged, Bool.not_true, Bool.false_eq_true, if_false]
    rfl
  · refine Or.inl ⟨?_, ?_⟩
    · simp only [Bool.or_eq_true, bne_iff_ne, not_or, not_not] at hchanged
      exact hchanged.1.symm
    · simp only [lockShedding, Bool.not_eq_true _ ▸ hchanged, Bool.not_false, if_true]
      rfl

theorem lockShedding_regThr : regThr (lockShedding s) = lockThr (regThr s) := by
  obtain ⟨hsame, hlock⟩ | ⟨t1, t2, t3, t4, hthr, hlock⟩ := lockShedding_cases (s := s)
  · rw [hlock]
    exact hsame
  · obtain ⟨u1, u2, u3, u4, hu, -, -, -, -, h4, h3, h2, h1⟩ := lockThr_apart (a := (regThr s).getD 0 0)
      (b := (regThr s).getD 1 0) (c := (regThr s).getD 2 0) (d := (regThr s).getD 3 0)
    have heq : [t1, t2, t3, t4] = [u1, u2, u3, u4] := hthr.symm.trans hu
    simp only [List.cons.injEq, and_true] at heq
    obtain ⟨rfl, rfl, rfl, rfl⟩ := heq
    rw [hlock, hthr, regThr_record]
    exact regThr_shedRegs h1 (h2.trans (by decide)) (h3.trans (by decide)) (h4.trans (by decide))

/-- From `s` to `t` only the stored registers change. -/
def OnlyRegs (s t : State) : Prop := ∃ r, t = { s with regs := r }

theorem onlyRegs_setRaw {u : State} {k : Nat} {v : Word} (h : OnlyRegs s u) : OnlyRegs s (setRaw k v u) := by
  obtain ⟨r, rfl⟩ := h
  exact ⟨_, rfl⟩

theorem onlyRegs_shedRegs {t1 t2 t3 t4 h : Nat} : OnlyRegs s (shedRegs t1 t2 t3 t4 h s) := by
  unfold shedRegs setBits
  iterate 6 apply onlyRegs_setRaw
  exact ⟨_, rfl⟩

/-- The checks of R67 reach the shedding values, registers among PWR_SHED_THR1 to PWR_SHED_STAT and the ledger. -/
theorem lockShedding_frame : ∃ r l, lockShedding s = { s with power := shedPower s, regs := r, ledger := l } ∧
    ∀ k, k < 0x01100010 ∨ 0x01100028 < k → rawReg (lockShedding s) k = rawReg s k := by
  obtain ⟨-, hlock⟩ | ⟨t1, t2, t3, t4, -, hlock⟩ := lockShedding_cases (s := s)
  · exact ⟨_, _, hlock, fun k _ => by rw [hlock]; rfl⟩
  · obtain ⟨r, hregs⟩ := onlyRegs_shedRegs (s := { s with power := shedPower s }) (t1 := t1) (t2 := t2) (t3 := t3) (t4 := t4)
      (h := clampNat 100 1000 (regHyst s))
    refine ⟨r, (lockShedding s).ledger, ?_, fun k hk => ?_⟩
    · rw [hlock, hregs]
      obtain ⟨l, hrec, -⟩ := recordAt_ledger (pf1 := false) (at_ := s.now) (unit := 0x2D) (event := 0x0307)
        (det := [t1, t2, t3, t4].flatMap u16 ++ u16 (clampNat 100 1000 (regHyst s)))
        (s := { s with power := shedPower s, regs := r })
      have hrec' : record 0x2D 0x0307 ([t1, t2, t3, t4].flatMap u16 ++ u16 (clampNat 100 1000 (regHyst s)))
          { s with power := shedPower s, regs := r } = { s with power := shedPower s, regs := r, ledger := l } := hrec
      rw [hrec']
    · rw [hlock, rawReg_record, shedRegs_other hk]
      rfl

theorem setupLock_locked (h : s.host.locked = true) : setupLock 0x5E7010CC s = s := by
  simp [setupLock, h]

theorem setupLock_open (h : s.host.locked = false) : setupLock 0x5E7010CC s =
    record 3 0x0503 [] { lockShedding s with host := { (lockShedding s).host with locked := true } } := by
  simp [setupLock, h]

/-- Settles O13: the lock puts the checked thresholds in force, and the checks keep them apart. -/
theorem setupLocksOnceWithItsThresholds : Obligations.SetupLocksOnceWithItsThresholds := by
  refine ⟨fun dt s => ⟨fun hlocked => ?_, fun hopen => ?_⟩, fun a b c d => lockThr_apart⟩
  · exact congrArg _ (setupLock_locked (s := tick dt s) hlocked)
  · obtain ⟨r, l, hlock, hother⟩ := lockShedding_frame (s := tick dt s)
    have hhost : (lockShedding (tick dt s)).host = s.host := by rw [hlock]; rfl
    refine ⟨_, congrArg Host.Outcome.next (setupLock_open (s := tick dt s) hopen), ?_, ?_, ?_, ?_, ?_⟩
    · exact congrArg (fun h : HostIf => { h with locked := true }) hhost
    · exact (congrArg State.power hlock : _)
    · exact lockShedding_regThr (s := tick dt s)
    · exact hother
    · rw [hlock]
      rfl

end Sys2Proof.Machine
end

section
/-!
PROOFS. The bytes of HBM after a write (R461, R463), BAR4 writes (R114, R434), and the reset that a lost host link begins.
-/

namespace Sys2Proof.Machine
variable {s t : State}

/-! ### Cells -/

/-- Below the first listed address nothing is listed. -/
theorem getKey_of_lt_head {a : Nat} {e : Nat × Byte} {l : List (Nat × Byte)} (h : cellsWf (e :: l) = true) (ha : a < e.1) :
    getKey a (e :: l) = none := by
  have hnone : (e :: l).find? (fun x => x.1 == a) = none := by
    refine List.find?_eq_none.2 fun x hx => ?_
    have hlt : a < x.1 := by
      rcases List.mem_cons.1 hx with rfl | hx
      · exact ha
      · exact ha.trans (cellsWf_lt h x hx)
    simpa using hlt.ne'
  simp [getKey, hnone]

theorem getKey_cons_same {a : Nat} {v : Byte} {l : List (Nat × Byte)} : getKey a ((a, v) :: l) = some v := by
  simp [getKey]

theorem getKey_cons_ne {x : Nat} {e : Nat × Byte} {l : List (Nat × Byte)} (h : x ≠ e.1) : getKey x (e :: l) = getKey x l := by
  simp [getKey, h.symm]

/-- A byte put into a cell is read back there. -/
theorem getKey_putCell_same {a : Nat} {v : Byte} {l : List (Nat × Byte)} (h : cellsWf l = true) :
    (getKey a (putCell a v l)).getD 0 = v := by
  induction l with
  | nil =>
    unfold putCell
    split
    · next hv => exact hv.symm
    · rw [getKey_cons_same]; rfl
  | cons e l ih =>
    obtain ⟨hv, hhead, htail⟩ := cellsWf_cons.1 h
    unfold putCell
    split
    · next hlt =>
      split
      · next hzero => rw [getKey_of_lt_head h hlt, hzero]; rfl
      · rw [getKey_cons_same]; rfl
    · split
      · next heq =>
        split
        · next hzero =>
          have habsent : getKey a l = none := by
            cases l with
            | nil => rfl
            | cons f l => exact getKey_of_lt_head htail (heq ▸ hhead f rfl)
          rw [habsent, hzero]; rfl
        · rw [getKey_cons_same]; rfl
      · next hne =>
        rw [getKey_cons_ne hne]
        exact ih htail

/-- A byte put into a cell leaves the others. -/
theorem getKey_putCell_ne {a x : Nat} {v : Byte} {l : List (Nat × Byte)} (h : x ≠ a) :
    getKey x (putCell a v l) = getKey x l := by
  induction l with
  | nil =>
    unfold putCell
    split
    · rfl
    · exact getKey_cons_ne h
  | cons e l ih =>
    unfold putCell
    split
    · split
      · rfl
      · exact getKey_cons_ne h
    · split
      · next heq =>
        have he : getKey x (e :: l) = getKey x l := getKey_cons_ne (heq ▸ h)
        split
        · exact he.symm
        · exact (getKey_cons_ne h).trans he.symm
      · by_cases hx : x = e.1
        · subst hx; simp [getKey]
        · rw [getKey_cons_ne hx, getKey_cons_ne hx, ih]

/-- Bytes put into cells leave what lies outside their range. -/
theorem getKey_putCells_out {a x : Nat} {bs : List Byte} {l : List (Nat × Byte)} (h : x < a ∨ a + bs.length ≤ x) :
    getKey x (putCells a bs l) = getKey x l := by
  induction bs generalizing a l with
  | nil => rfl
  | cons b bs ih =>
    simp only [List.length_cons] at h
    rw [putCells, ih (by omega), getKey_putCell_ne (by omega)]

/-- Bytes put into cells are read back in their places. -/
theorem getKey_putCells_in {a i : Nat} {bs : List Byte} {l : List (Nat × Byte)} (h : cellsWf l = true) (hi : i < bs.length) :
    (getKey (a + i) (putCells a bs l)).getD 0 = bs[i] := by
  induction bs generalizing a i l with
  | nil => exact absurd hi (Nat.not_lt_zero i)
  | cons b bs ih =>
    cases i with
    | zero =>
      rw [putCells, getKey_putCells_out (Or.inl (by omega))]
      exact getKey_putCell_same h
    | succ i =>
      have hi' : i < bs.length := Nat.lt_of_succ_lt_succ hi
      have hshift : a + (i + 1) = a + 1 + i := by omega
      rw [putCells, hshift, ih (putCell_wf a b h) hi']
      rfl

/-! ### Writes where no Archive region stands -/

/-- A stretch of a range begins inside it. -/
theorem mem_stretches {a n x : Nat} (harch : s.ecc.archives = []) (hx : x ∈ stretches s a n) : a ≤ x ∧ x < a + n := by
  simp only [stretches, harch, List.filter_nil, List.flatMap_nil, List.append_nil, List.mem_map] at hx
  obtain ⟨b, hb, rfl⟩ := hx
  unfold blocksOf at hb
  dsimp only at hb
  split at hb
  · cases hb
  · next hn =>
    simp only [List.mem_map, List.mem_range] at hb
    obtain ⟨i, hi, rfl⟩ := hb
    generalize 2 ^ regField s 0x00B00004 0 4 = g at hi
    have hcount : a / g + i ≤ (a + n - 1) / g := by
      have hle : a / g ≤ (a + n - 1) / g := Nat.div_le_div_right (by omega)
      omega
    have hend : (a / g + i) * g ≤ a + n - 1 := (Nat.mul_le_mul_right g hcount).trans (Nat.div_mul_le_self _ _)
    exact ⟨le_max_left _ _, max_lt (by omega) (by omega)⟩

/-- A range none of whose bytes is frozen meets no frozen pseudo-channel. -/
theorem anyFrozen_none {a n : Nat} (harch : s.ecc.archives = []) (h : ∀ x, a ≤ x → x < a + n → frozenAt s x = false) :
    anyFrozen s a n = false := by
  refine List.any_eq_false.2 fun x hx => ?_
  obtain ⟨hlow, hhigh⟩ := mem_stretches harch hx
  simp [h x hlow hhigh]

theorem storeHbm_plain {a : Nat} {bs : List Byte} (harch : s.ecc.archives = []) :
    storeHbm a bs s = mendComp (fun x => decide (a ≤ x) && decide (x < a + bs.length)) (storeRaw a bs s) := by
  unfold storeHbm
  dsimp only
  rw [if_pos]
  simp [mendComp, storeRaw, harch]

theorem writeHbm_plain {a : Nat} {bs : List Byte} (harch : s.ecc.archives = []) : writeHbm a bs s = storeHbm a bs s := by
  simp [writeHbm, filling, harch]

theorem writeInternal_plain {a : Nat} {bs : List Byte} (harch : s.ecc.archives = [])
    (hfrozen : ∀ x, a ≤ x → x < a + bs.length → frozenAt s x = false) :
    writeInternal a bs s = mendComp (fun x => decide (a ≤ x) && decide (x < a + bs.length)) (storeRaw a bs s) := by
  rw [writeInternal, anyFrozen_none harch hfrozen]
  exact (writeHbm_plain harch).trans (storeHbm_plain harch)

/-- The bytes written stand at their places. -/
theorem rawByte_storeRaw_in {a i : Nat} {bs : List Byte} (h : s.memOk) (hi : i < bs.length) :
    rawByte (storeRaw a bs s) (a + i) = bs[i] := getKey_putCells_in h.1 hi

/-- The others stay. -/
theorem rawByte_storeRaw_out {a x : Nat} {bs : List Byte} (h : x < a ∨ a + bs.length ≤ x) :
    rawByte (storeRaw a bs s) x = rawByte s x :=
  congrArg (fun o : Option Byte => o.getD 0) (getKey_putCells_out h)

/-! ### BAR4 writes -/

section
variable {a : Nat} {bs : List Byte} {p : Bool}

theorem exec_bar4Write {dt : Nat} : exec (.bar4Write dt a bs p) s = .next (bar4Write a bs p (tick dt s)) := rfl

theorem bar4Write_beyond (h : usable s < a + bs.length) : bar4Write a bs p s = emit (.abort a) s := if_pos h

theorem bar4Write_locked (h : a + bs.length ≤ usable s) (hlock : s.host.locked = true)
    (hout : bar4Allowed s a bs.length = false) : bar4Write a bs p s = bar4Discard a s := by
  simp [bar4Write, Nat.not_lt.mpr h, hlock, hout]

theorem bar4Write_waits (h : a + bs.length ≤ usable s) (hopen : s.host.locked = false)
    (hvit : touchesVit s a bs.length = false) (hself : s.hbm.selfRef = true) :
    bar4Write a bs p s = holdHost (.write a bs p) s := by
  simp [bar4Write, Nat.not_lt.mpr h, hopen, hvit, hself]

theorem bar4Write_served (h : a + bs.length ≤ usable s) (hopen : s.host.locked = false)
    (hvit : touchesVit s a bs.length = false) (hself : s.hbm.selfRef = false) :
    bar4Write a bs p s = serveWrite a bs p s := by
  simp [bar4Write, Nat.not_lt.mpr h, hopen, hvit, hself]

/-- The first write discarded in its millisecond is counted with its stamp and address (R114). -/
theorem bar4Discard_first (h : s.host.bar4Count = 0) : bar4Discard a s =
    { s with host := { s.host with bar4Count := 1, bar4First := s.now, bar4Addr := a } } := by
  simp [bar4Discard, bar4Report, h]

/-- The writes discarded are reported once their millisecond has passed (R114). -/
theorem bar4Report_due (hcount : s.host.bar4Count ≠ 0) (hpast : s.now / 4000000 ≠ s.host.bar4First / 4000000) :
    bar4Report s = recordAt false s.host.bar4First 3 0x0502 (u8 4 ++ u24 0 ++ u64 s.host.bar4Addr ++ u32 s.host.bar4Count)
      { s with host := { s.host with bar4Count := 0 } } :=
  if_neg (not_or.2 ⟨hcount, hpast⟩)

end

/-- Settles O15: each case by its own equation, a write that lands by what its cells read. -/
theorem bar4WritesLandOrAreDiscarded : Obligations.Bar4WritesLandOrAreDiscarded := by
  intro dt a bs s
  refine ⟨fun hmem hopen hin hvit hself harch hfrozen => ?_, fun p hopen hin hvit hself => ?_, fun p hout => ?_,
    fun p hlock hin hout hcount => ?_, fun hcount hpast => ?_⟩
  · have hserve := bar4Write_served (s := tick dt s) (p := false) hin hopen hvit hself
    have hwrite : serveWrite a bs false (tick dt s) = _ := writeInternal_plain (s := tick dt s) harch hfrozen
    refine ⟨_, congrArg Host.Outcome.next (hserve.trans hwrite), fun i hi => ?_, fun x hx => ?_, rfl⟩
    · exact rawByte_storeRaw_in (s := tick dt s) hmem hi
    · exact rawByte_storeRaw_out (s := tick dt s) hx
  · exact congrArg _ (bar4Write_waits (s := tick dt s) hin hopen hvit hself)
  · exact congrArg _ (bar4Write_beyond (s := tick dt s) hout)
  · exact congrArg _ ((bar4Write_locked (s := tick dt s) hin hlock hout).trans (bar4Discard_first (s := tick dt s) hcount))
  · exact congrArg _ (bar4Report_due (s := tick dt s) hcount hpast)

/-! ### The loss of the host link -/

/-- A module in P2 whose host port holds a BAR4 write at a companion byte marked bad. -/
def heldWriteInP2 : State := { State.reset with
  power := { Reset.power with state := .p2 }
  startup := { Reset.startup with ready := true }
  hbm := { Reset.hbm with selfRef := true, host := [.write 0 [0] false] }
  ecc := { Reset.ecc with compBad := [0] } }

/-- The stop that the loss of the host link begins leaves P2; the write that waited out self-refresh (R434) lands, and the
byte it writes is no longer marked. -/
theorem hostLost_heldWriteInP2 : (hostLost (tick 0 heldWriteInP2)).ecc.compBad = [] := by decide

/-- Refutes O16: the statement lets the marks of stored-data protection stand as they were, but leaving P2 serves the BAR4
accesses that waited there, and a write mends the bytes it writes. -/
theorem not_resetsOfTheHostReachTheirPart : ¬ Obligations.ResetsOfTheHostReachTheirPart := by
  rintro ⟨hlost, -⟩
  obtain ⟨t, hexec, -, -, -, -, -, -, hframe⟩ := hlost 0 heldWriteInP2 rfl rfl (.pf0Flr 0) (Or.inl rfl)
  cases hexec
  have hmarks : (hostLost (tick 0 heldWriteInP2)).ecc.compBad = [0] := congrArg (fun u : State => u.ecc.compBad) hframe
  rw [hostLost_heldWriteInP2] at hmarks
  cases hmarks

end Sys2Proof.Machine
end

section
/-!
PROOFS. Frames: the parts of the state that an operation may change, listed once for each shared operation.  A frame of a
composed operation joins the lists of its pieces, and a statement's `t = { s with … }` is read off the list (`within_eq`).
-/

namespace Sys2Proof.Machine

/-- The parts of the state in which frames are told.  A part named after a field of the state stands for what no finer part
of that field takes out.  `replies` is what a completion reaches of the host side, `caps` the capacities and what is in force
of them; of the registers there are the causes, OVF of the completion rings, and the others. -/
inductive StatePart
  | now | pstate | power | startup | sq | replies | hostRest | saved | ledger | keeperPos | time | ingest
  | exhibits | items | transfers | caps | adm | heads | ports | chans | sps | gheler | cells | selfRef | hbm | training | ecc
  | thermal | catPorts | locks | catum | groups | armed | fault | wear | meter | vitKey | causes | ovf | regs | free | out
  | pending
  deriving DecidableEq

/-- The host side without what a completion reaches and the submission rings. -/
def HostIf.bare (h : HostIf) : HostIf :=
  { h with sq := [], cq := [], fetched := [], begun := [], dropped := [], firsts := [], fences := [] }
def Power.bare (x : Power) : Power := { x with state := .p0 }
def Admission.bare (a : Admission) : Admission :=
  { a with exhibits := [], items := [], transfers := [], caps := [], pendingCaps := [], inForce := [] }
def Gheler.bare (g : Gheler) : Gheler := { g with chans := [], sps := [] }
def Ledger.bare (l : Ledger) : Ledger := { l with saved := [] }
def Timebase.bare (x : Timebase) : Timebase := { x with keeperPos := 0 }
def Hbm.bare (h : Hbm) : Hbm := { h with cells := [], lanes := [], selfRef := false }
def Catum.bare (c : Catum) : Catum := { c with ports := [], reads := [], locks := [] }
def Faults.bare (f : Faults) : Faults := { f with armed := false }

/-- A part of `t` is that of `s`. -/
def StatePart.same (s t : State) : StatePart → Prop
  | now => t.now = s.now
  | pstate => t.power.state = s.power.state
  | power => t.power.bare = s.power.bare
  | startup => t.startup = s.startup
  | sq => t.host.sq = s.host.sq
  | replies => t.host.cq = s.host.cq ∧ t.host.fetched = s.host.fetched ∧ t.host.begun = s.host.begun ∧
      t.host.dropped = s.host.dropped ∧ t.host.firsts = s.host.firsts ∧ t.host.fences = s.host.fences
  | hostRest => t.host.bare = s.host.bare
  | saved => t.ledger.saved = s.ledger.saved
  | ledger => t.ledger.bare = s.ledger.bare
  | keeperPos => t.time.keeperPos = s.time.keeperPos
  | time => t.time.bare = s.time.bare
  | ingest => t.ingest = s.ingest
  | exhibits => t.adm.exhibits = s.adm.exhibits
  | items => t.adm.items = s.adm.items
  | transfers => t.adm.transfers = s.adm.transfers
  | caps => t.adm.caps = s.adm.caps ∧ t.adm.pendingCaps = s.adm.pendingCaps ∧ t.adm.inForce = s.adm.inForce
  | adm => t.adm.bare = s.adm.bare
  | heads => t.heads = s.heads
  | ports => t.ports = s.ports
  | chans => t.gheler.chans = s.gheler.chans
  | sps => t.gheler.sps = s.gheler.sps
  | gheler => t.gheler.bare = s.gheler.bare
  | cells => t.hbm.cells = s.hbm.cells ∧ t.hbm.lanes = s.hbm.lanes
  | selfRef => t.hbm.selfRef = s.hbm.selfRef
  | hbm => t.hbm.bare = s.hbm.bare
  | training => t.training = s.training
  | ecc => t.ecc = s.ecc
  | thermal => t.thermal = s.thermal
  | catPorts => t.catum.ports = s.catum.ports ∧ t.catum.reads = s.catum.reads
  | locks => t.catum.locks = s.catum.locks
  | catum => t.catum.bare = s.catum.bare
  | groups => t.groups = s.groups
  | armed => t.fault.armed = s.fault.armed
  | fault => t.fault.bare = s.fault.bare
  | wear => t.wear = s.wear
  | meter => t.meter = s.meter
  | vitKey => t.vitKey = s.vitKey
  | causes => t.regs = s.regs
  | ovf => ∀ k, k ≠ regIrqCause → k ≠ regIrqCause + pf1Base → rawReg t k = rawReg s k
  | regs => RegsStay s t
  | free => t.free = s.free
  | out => t.out = s.out
  | pending => t.pending = s.pending

/-- From `s` to `t` only the listed parts change. -/
def Within (m : List StatePart) (s t : State) : Prop := ∀ p, p ∉ m → p.same s t

variable {s t u : State} {m m' : List StatePart}

theorem StatePart.same_refl (p : StatePart) : p.same s s := by
  cases p
  case regs => exact regsStay_refl
  case ovf => exact fun _ _ _ => rfl
  case replies => exact ⟨rfl, rfl, rfl, rfl, rfl, rfl⟩
  case caps => exact ⟨rfl, rfl, rfl⟩
  case cells => exact ⟨rfl, rfl⟩
  case catPorts => exact ⟨rfl, rfl⟩
  all_goals exact Eq.refl _

theorem StatePart.same_trans (p : StatePart) (h1 : p.same s t) (h2 : p.same t u) : p.same s u := by
  cases p
  case regs => exact regsStay_trans h1 h2
  case ovf => exact fun k a b => (h2 k a b).trans (h1 k a b)
  case replies =>
    obtain ⟨a1, a2, a3, a4, a5, a6⟩ := h1
    obtain ⟨b1, b2, b3, b4, b5, b6⟩ := h2
    exact ⟨b1.trans a1, b2.trans a2, b3.trans a3, b4.trans a4, b5.trans a5, b6.trans a6⟩
  case caps =>
    obtain ⟨a1, a2, a3⟩ := h1
    obtain ⟨b1, b2, b3⟩ := h2
    exact ⟨b1.trans a1, b2.trans a2, b3.trans a3⟩
  case cells => exact ⟨h2.1.trans h1.1, h2.2.trans h1.2⟩
  case catPorts => exact ⟨h2.1.trans h1.1, h2.2.trans h1.2⟩
  all_goals exact Eq.trans h2 h1

theorem within_refl : Within m s s := fun p _ => p.same_refl

/-- A longer list says less. -/
theorem Within.mono (h : Within m s t) (hm : ∀ p ∈ m, p ∈ m') : Within m' s t := fun p hp => h p fun hmem => hp (hm p hmem)

theorem within_trans (h1 : Within m s t) (h2 : Within m' t u) : Within (m ++ m') s u := fun p hp =>
  p.same_trans (h1 p fun h => hp (List.mem_append_left _ h)) (h2 p fun h => hp (List.mem_append_right _ h))

/-- Two operations on the same parts. -/
theorem Within.then (h1 : Within m s t) (h2 : Within m t u) : Within m s u := fun p hp =>
  p.same_trans (h1 p hp) (h2 p hp)

theorem within_ite {c : Prop} [Decidable c] {a b : State} (ha : Within m s a) (hb : Within m s b) :
    Within m s (if c then a else b) := by split <;> assumption

theorem within_elim {α : Type} {o : Option α} {a : State} {f : α → State} (ha : Within m s a)
    (hf : ∀ x, Within m s (f x)) : Within m s (o.elim a f) := by
  cases o with
  | none => exact ha
  | some x => exact hf x

theorem within_forEach {α : Type} {l : List α} {f : α → State → State} (hf : ∀ a s, Within m s (f a s)) :
    Within m s (forEach l f s) := by
  unfold forEach
  induction l generalizing s with
  | nil => exact within_refl
  | cons a l ih => exact (hf a s).then ih

/-! ### A frame as an equation -/

/-- A part from `t` where it may have changed, else from `s`. -/
def StatePart.pick {α : Type} (m : List StatePart) (p : StatePart) (a b : α) : α := if m.contains p then b else a

open StatePart in
/-- `s` with the listed parts as they are in `t`. -/
def patch (m : List StatePart) (s t : State) : State :=
  { now := now.pick m s.now t.now
    power := { power.pick m s.power t.power with state := pstate.pick m s.power.state t.power.state }
    startup := startup.pick m s.startup t.startup
    host := { hostRest.pick m s.host t.host with
      sq := sq.pick m s.host.sq t.host.sq
      cq := replies.pick m s.host.cq t.host.cq
      fetched := replies.pick m s.host.fetched t.host.fetched
      begun := replies.pick m s.host.begun t.host.begun
      dropped := replies.pick m s.host.dropped t.host.dropped
      firsts := replies.pick m s.host.firsts t.host.firsts
      fences := replies.pick m s.host.fences t.host.fences }
    ledger := { ledger.pick m s.ledger t.ledger with saved := saved.pick m s.ledger.saved t.ledger.saved }
    time := { time.pick m s.time t.time with keeperPos := keeperPos.pick m s.time.keeperPos t.time.keeperPos }
    ingest := ingest.pick m s.ingest t.ingest
    adm := { adm.pick m s.adm t.adm with
      exhibits := exhibits.pick m s.adm.exhibits t.adm.exhibits
      items := items.pick m s.adm.items t.adm.items
      transfers := transfers.pick m s.adm.transfers t.adm.transfers
      caps := caps.pick m s.adm.caps t.adm.caps
      pendingCaps := caps.pick m s.adm.pendingCaps t.adm.pendingCaps
      inForce := caps.pick m s.adm.inForce t.adm.inForce }
    heads := heads.pick m s.heads t.heads
    ports := ports.pick m s.ports t.ports
    gheler := { gheler.pick m s.gheler t.gheler with
      chans := chans.pick m s.gheler.chans t.gheler.chans, sps := sps.pick m s.gheler.sps t.gheler.sps }
    hbm := { hbm.pick m s.hbm t.hbm with
      cells := cells.pick m s.hbm.cells t.hbm.cells, lanes := cells.pick m s.hbm.lanes t.hbm.lanes
      selfRef := selfRef.pick m s.hbm.selfRef t.hbm.selfRef }
    training := training.pick m s.training t.training
    ecc := ecc.pick m s.ecc t.ecc
    thermal := thermal.pick m s.thermal t.thermal
    catum := { catum.pick m s.catum t.catum with
      ports := catPorts.pick m s.catum.ports t.catum.ports, reads := catPorts.pick m s.catum.reads t.catum.reads
      locks := locks.pick m s.catum.locks t.catum.locks }
    groups := groups.pick m s.groups t.groups
    fault := { fault.pick m s.fault t.fault with armed := armed.pick m s.fault.armed t.fault.armed }
    wear := wear.pick m s.wear t.wear
    meter := meter.pick m s.meter t.meter
    vitKey := vitKey.pick m s.vitKey t.vitKey
    regs := causes.pick m s.regs t.regs
    free := free.pick m s.free t.free
    out := out.pick m s.out t.out
    pending := pending.pick m s.pending t.pending }

theorem StatePart.pick_eq {α : Type} {p : StatePart} {a b : α} (h : p ∉ m → b = a) : p.pick m a b = b := by
  unfold pick
  split
  · rfl
  · next hp => exact (h (by simpa using hp)).symm

/-- Whichever of two values is picked, what depends on it alone is the same where the values agree on it. -/
theorem StatePart.pick_map {α β : Type} {p : StatePart} {a b : α} (f : α → β) (h : p ∉ m → f b = f a) :
    f (p.pick m a b) = f b := by
  unfold pick
  split
  · rfl
  · next hp => exact (h (by simpa using hp)).symm

theorem state_ext (now : t.now = u.now) (power : t.power = u.power) (startup : t.startup = u.startup) (host : t.host = u.host)
    (ledger : t.ledger = u.ledger) (time : t.time = u.time) (ingest : t.ingest = u.ingest) (adm : t.adm = u.adm)
    (heads : t.heads = u.heads) (ports : t.ports = u.ports) (gheler : t.gheler = u.gheler) (hbm : t.hbm = u.hbm)
    (training : t.training = u.training) (ecc : t.ecc = u.ecc) (thermal : t.thermal = u.thermal) (catum : t.catum = u.catum)
    (groups : t.groups = u.groups) (fault : t.fault = u.fault) (wear : t.wear = u.wear) (meter : t.meter = u.meter)
    (vitKey : t.vitKey = u.vitKey) (regs : t.regs = u.regs) (free : t.free = u.free) (out : t.out = u.out)
    (pending : t.pending = u.pending) : t = u := by
  cases t
  cases u
  simp only at *
  subst_vars
  rfl

/-- The state reached is the one found with the listed parts changed. -/
theorem within_eq (h : Within m s t) : t = patch m s t := by
  have hsame : ∀ {α : Type} (p : StatePart) {a b : α}, (p.same s t → b = a) → p.pick m a b = b := fun p _ _ hp =>
    StatePart.pick_eq fun hmem => hp (h p hmem)
  have hrest : ∀ {α β : Type} (p : StatePart) {a b : α} (f : α → β), (p.same s t → f b = f a) → f (p.pick m a b) = f b :=
    fun p _ _ f hp => StatePart.pick_map f fun hmem => hp (h p hmem)
  apply state_ext
  case host =>
    have hbare := hrest .hostRest HostIf.bare (a := s.host) (b := t.host) id
    simp only [patch, hsame .sq (a := s.host.sq) (b := t.host.sq) id,
      hsame .replies (a := s.host.cq) (b := t.host.cq) (fun e => e.1),
      hsame .replies (a := s.host.fetched) (b := t.host.fetched) (fun e => e.2.1),
      hsame .replies (a := s.host.begun) (b := t.host.begun) (fun e => e.2.2.1),
      hsame .replies (a := s.host.dropped) (b := t.host.dropped) (fun e => e.2.2.2.1),
      hsame .replies (a := s.host.firsts) (b := t.host.firsts) (fun e => e.2.2.2.2.1),
      hsame .replies (a := s.host.fences) (b := t.host.fences) (fun e => e.2.2.2.2.2)]
    exact (congrArg (fun x : HostIf => { x with
      sq := t.host.sq, cq := t.host.cq, fetched := t.host.fetched, begun := t.host.begun, dropped := t.host.dropped,
      firsts := t.host.firsts, fences := t.host.fences }) hbare).symm
  case power =>
    have hbare := hrest .power Power.bare (a := s.power) (b := t.power) id
    simp only [patch, hsame .pstate (a := s.power.state) (b := t.power.state) id]
    exact (congrArg (fun x : Power => { x with state := t.power.state }) hbare).symm
  case adm =>
    have hbare := hrest .adm Admission.bare (a := s.adm) (b := t.adm) id
    simp only [patch, hsame .exhibits (a := s.adm.exhibits) (b := t.adm.exhibits) id,
      hsame .items (a := s.adm.items) (b := t.adm.items) id,
      hsame .transfers (a := s.adm.transfers) (b := t.adm.transfers) id,
      hsame .caps (a := s.adm.caps) (b := t.adm.caps) (fun e => e.1),
      hsame .caps (a := s.adm.pendingCaps) (b := t.adm.pendingCaps) (fun e => e.2.1),
      hsame .caps (a := s.adm.inForce) (b := t.adm.inForce) (fun e => e.2.2)]
    exact (congrArg (fun x : Admission => { x with
      exhibits := t.adm.exhibits, items := t.adm.items, transfers := t.adm.transfers, caps := t.adm.caps,
      pendingCaps := t.adm.pendingCaps, inForce := t.adm.inForce }) hbare).symm
  case gheler =>
    have hbare := hrest .gheler Gheler.bare (a := s.gheler) (b := t.gheler) id
    simp only [patch, hsame .chans (a := s.gheler.chans) (b := t.gheler.chans) id,
      hsame .sps (a := s.gheler.sps) (b := t.gheler.sps) id]
    exact (congrArg (fun x : Gheler => { x with chans := t.gheler.chans, sps := t.gheler.sps }) hbare).symm
  case ledger =>
    have hbare := hrest .ledger Ledger.bare (a := s.ledger) (b := t.ledger) id
    simp only [patch, hsame .saved (a := s.ledger.saved) (b := t.ledger.saved) id]
    exact (congrArg (fun x : Ledger => { x with saved := t.ledger.saved }) hbare).symm
  case time =>
    have hbare := hrest .time Timebase.bare (a := s.time) (b := t.time) id
    simp only [patch, hsame .keeperPos (a := s.time.keeperPos) (b := t.time.keeperPos) id]
    exact (congrArg (fun x : Timebase => { x with keeperPos := t.time.keeperPos }) hbare).symm
  case hbm =>
    have hbare := hrest .hbm Hbm.bare (a := s.hbm) (b := t.hbm) id
    simp only [patch, hsame .cells (a := s.hbm.cells) (b := t.hbm.cells) And.left,
      hsame .cells (a := s.hbm.lanes) (b := t.hbm.lanes) And.right,
      hsame .selfRef (a := s.hbm.selfRef) (b := t.hbm.selfRef) id]
    exact (congrArg (fun x : Hbm => { x with cells := t.hbm.cells, lanes := t.hbm.lanes, selfRef := t.hbm.selfRef }) hbare).symm
  case catum =>
    have hbare := hrest .catum Catum.bare (a := s.catum) (b := t.catum) id
    simp only [patch, hsame .catPorts (a := s.catum.ports) (b := t.catum.ports) And.left,
      hsame .catPorts (a := s.catum.reads) (b := t.catum.reads) And.right,
      hsame .locks (a := s.catum.locks) (b := t.catum.locks) id]
    exact (congrArg (fun x : Catum => { x with
      ports := t.catum.ports, reads := t.catum.reads, locks := t.catum.locks }) hbare).symm
  case fault =>
    have hbare := hrest .fault Faults.bare (a := s.fault) (b := t.fault) id
    simp only [patch, hsame .armed (a := s.fault.armed) (b := t.fault.armed) id]
    exact (congrArg (fun x : Faults => { x with armed := t.fault.armed }) hbare).symm
  case regs => exact (hsame .causes id).symm
  all_goals exact (hsame _ id).symm

/-- An equation is a frame where the registers stay as the list says. -/
theorem within_of_shape (h : t = patch m s t) (hregs : .regs ∉ m → StatePart.regs.same s t)
    (hovf : .ovf ∉ m → StatePart.ovf.same s t) : Within m s t := by
  have hpick : ∀ {α : Type} {p : StatePart} (a b : α), p ∉ m → p.pick m a b = a := by
    intro α p a b hp
    simp [StatePart.pick, hp]
  intro p hp
  cases p
  case regs => exact hregs hp
  case ovf => exact hovf hp
  case causes => exact (congrArg State.regs h).trans (hpick _ _ hp)
  case sq => exact (congrArg (fun x : State => x.host.sq) h).trans (hpick _ _ hp)
  case replies =>
    exact ⟨(congrArg (fun x : State => x.host.cq) h).trans (hpick _ _ hp),
      (congrArg (fun x : State => x.host.fetched) h).trans (hpick _ _ hp),
      (congrArg (fun x : State => x.host.begun) h).trans (hpick _ _ hp),
      (congrArg (fun x : State => x.host.dropped) h).trans (hpick _ _ hp),
      (congrArg (fun x : State => x.host.firsts) h).trans (hpick _ _ hp),
      (congrArg (fun x : State => x.host.fences) h).trans (hpick _ _ hp)⟩
  case hostRest =>
    have hbare := congrArg HostIf.bare (hpick s.host t.host hp)
    exact (congrArg (fun x : State => x.host.bare) h).trans hbare
  case saved => exact (congrArg (fun x : State => x.ledger.saved) h).trans (hpick _ _ hp)
  case ledger =>
    have hbare := congrArg Ledger.bare (hpick s.ledger t.ledger hp)
    exact (congrArg (fun x : State => x.ledger.bare) h).trans hbare
  case keeperPos => exact (congrArg (fun x : State => x.time.keeperPos) h).trans (hpick _ _ hp)
  case time =>
    have hbare := congrArg Timebase.bare (hpick s.time t.time hp)
    exact (congrArg (fun x : State => x.time.bare) h).trans hbare
  case cells =>
    exact ⟨(congrArg (fun x : State => x.hbm.cells) h).trans (hpick _ _ hp),
      (congrArg (fun x : State => x.hbm.lanes) h).trans (hpick _ _ hp)⟩
  case selfRef => exact (congrArg (fun x : State => x.hbm.selfRef) h).trans (hpick _ _ hp)
  case hbm =>
    have hbare := congrArg Hbm.bare (hpick s.hbm t.hbm hp)
    exact (congrArg (fun x : State => x.hbm.bare) h).trans hbare
  case catPorts =>
    exact ⟨(congrArg (fun x : State => x.catum.ports) h).trans (hpick _ _ hp),
      (congrArg (fun x : State => x.catum.reads) h).trans (hpick _ _ hp)⟩
  case locks => exact (congrArg (fun x : State => x.catum.locks) h).trans (hpick _ _ hp)
  case catum =>
    have hbare := congrArg Catum.bare (hpick s.catum t.catum hp)
    exact (congrArg (fun x : State => x.catum.bare) h).trans hbare
  case armed => exact (congrArg (fun x : State => x.fault.armed) h).trans (hpick _ _ hp)
  case fault =>
    have hbare := congrArg Faults.bare (hpick s.fault t.fault hp)
    exact (congrArg (fun x : State => x.fault.bare) h).trans hbare
  case now => exact (congrArg State.now h).trans (hpick _ _ hp)
  case pstate => exact (congrArg (fun x : State => x.power.state) h).trans (hpick _ _ hp)
  case power =>
    have hbare := congrArg Power.bare (hpick s.power t.power hp)
    exact (congrArg (fun x : State => x.power.bare) h).trans hbare
  case startup => exact (congrArg State.startup h).trans (hpick _ _ hp)
  case ingest => exact (congrArg State.ingest h).trans (hpick _ _ hp)
  case exhibits => exact (congrArg (fun x : State => x.adm.exhibits) h).trans (hpick _ _ hp)
  case items => exact (congrArg (fun x : State => x.adm.items) h).trans (hpick _ _ hp)
  case transfers => exact (congrArg (fun x : State => x.adm.transfers) h).trans (hpick _ _ hp)
  case caps =>
    exact ⟨(congrArg (fun x : State => x.adm.caps) h).trans (hpick _ _ hp),
      (congrArg (fun x : State => x.adm.pendingCaps) h).trans (hpick _ _ hp),
      (congrArg (fun x : State => x.adm.inForce) h).trans (hpick _ _ hp)⟩
  case adm =>
    have hbare := congrArg Admission.bare (hpick s.adm t.adm hp)
    exact (congrArg (fun x : State => x.adm.bare) h).trans hbare
  case heads => exact (congrArg State.heads h).trans (hpick _ _ hp)
  case ports => exact (congrArg State.ports h).trans (hpick _ _ hp)
  case chans => exact (congrArg (fun x : State => x.gheler.chans) h).trans (hpick _ _ hp)
  case sps => exact (congrArg (fun x : State => x.gheler.sps) h).trans (hpick _ _ hp)
  case gheler =>
    have hbare := congrArg Gheler.bare (hpick s.gheler t.gheler hp)
    exact (congrArg (fun x : State => x.gheler.bare) h).trans hbare
  case training => exact (congrArg State.training h).trans (hpick _ _ hp)
  case ecc => exact (congrArg State.ecc h).trans (hpick _ _ hp)
  case thermal => exact (congrArg State.thermal h).trans (hpick _ _ hp)
  case groups => exact (congrArg State.groups h).trans (hpick _ _ hp)
  case wear => exact (congrArg State.wear h).trans (hpick _ _ hp)
  case meter => exact (congrArg State.meter h).trans (hpick _ _ hp)
  case vitKey => exact (congrArg State.vitKey h).trans (hpick _ _ hp)
  case free => exact (congrArg State.free h).trans (hpick _ _ hp)
  case out => exact (congrArg State.out h).trans (hpick _ _ hp)
  case pending => exact (congrArg State.pending h).trans (hpick _ _ hp)

/-- An equation that leaves the registers is a frame. -/
theorem within_of_eq (h : t = patch m s t) (hcauses : .causes ∉ m) : Within m s t := by
  have hregs : t.regs = s.regs := by
    rw [h]
    simp [patch, StatePart.pick, hcauses]
  exact within_of_shape h (fun _ k _ _ _ => by rw [rawReg, rawReg, hregs]) (fun _ k _ _ => by rw [rawReg, rawReg, hregs])

/-- The same under a longer list. -/
theorem within_of_eq_sub (h : t = patch m s t) (hcauses : .causes ∉ m) (hm : ∀ p ∈ m, p ∈ m') : Within m' s t :=
  (within_of_eq h hcauses).mono hm

/-- A frame told from `s` with some parts as they are after it. -/
theorem within_patch (h : Within (m ++ m') s t) (hm : .regs ∉ m ∧ .ovf ∉ m ∨ .causes ∈ m) : Within m' (patch m s t) t := by
  have hpick : ∀ {α : Type} (p : StatePart) {a b : α}, (p.same s t → b = a) → p ∉ m' → b = p.pick m a b :=
    fun p _ _ heq hp => (StatePart.pick_eq fun hm => heq (h p (by simp [hm, hp]))).symm
  have hmap : ∀ {α β : Type} (p : StatePart) {a b : α} (f : α → β), (p.same s t → f b = f a) → p ∉ m' →
      f b = f (p.pick m a b) :=
    fun p _ _ f heq hp => (StatePart.pick_map f fun hm => heq (h p (by simp [hm, hp]))).symm
  intro p hp
  have hraw : ∀ k, .causes ∈ m → rawReg t k = rawReg (patch m s t) k := fun k hc => by
    simp [rawReg, patch, StatePart.pick, hc]
  have hold : ∀ k, .causes ∉ m → rawReg (patch m s t) k = rawReg s k := fun k hc => by
    simp [rawReg, patch, StatePart.pick, hc]
  cases p
  case regs =>
    intro k h1 h2 h3
    by_cases hc : .causes ∈ m
    · exact hraw k hc
    · have hstay : RegsStay s t := h .regs (by simp [(hm.resolve_right hc).1, hp])
      exact (hstay k h1 h2 h3).trans (hold k hc).symm
  case ovf =>
    intro k h1 h2
    by_cases hc : .causes ∈ m
    · exact hraw k hc
    · have hstay : StatePart.ovf.same s t := h .ovf (by simp [(hm.resolve_right hc).2, hp])
      exact (hstay k h1 h2).trans (hold k hc).symm
  case replies =>
    exact ⟨hpick .replies (fun e => e.1) hp, hpick .replies (fun e => e.2.1) hp, hpick .replies (fun e => e.2.2.1) hp,
      hpick .replies (fun e => e.2.2.2.1) hp, hpick .replies (fun e => e.2.2.2.2.1) hp,
      hpick .replies (fun e => e.2.2.2.2.2) hp⟩
  case caps =>
    exact ⟨hpick .caps (fun e => e.1) hp, hpick .caps (fun e => e.2.1) hp, hpick .caps (fun e => e.2.2) hp⟩
  case cells => exact ⟨hpick .cells And.left hp, hpick .cells And.right hp⟩
  case catPorts => exact ⟨hpick .catPorts And.left hp, hpick .catPorts And.right hp⟩
  case power => exact hmap .power Power.bare id hp
  case hostRest => exact hmap .hostRest HostIf.bare id hp
  case ledger => exact hmap .ledger Ledger.bare id hp
  case time => exact hmap .time Timebase.bare id hp
  case adm => exact hmap .adm Admission.bare id hp
  case gheler => exact hmap .gheler Gheler.bare id hp
  case hbm => exact hmap .hbm Hbm.bare id hp
  case catum => exact hmap .catum Catum.bare id hp
  case fault => exact hmap .fault Faults.bare id hp
  all_goals exact hpick _ id hp

end Sys2Proof.Machine
end

section
/-!
PROOFS. The parts that completions, notices and packets reach.  None of them moves the clock.
-/

namespace Sys2Proof.Machine
variable {s t u : State} {m : List StatePart}

/-- What sending over Catum Link reaches. -/
def sendParts : List StatePart := [.ledger, .out, .catPorts, .fault]

/-- What a completion reaches. -/
def replyParts : List StatePart := [.replies, .causes, .ovf, .ledger, .out, .catPorts, .fault]

/-- What the passing of time reaches. -/
def clockParts : List StatePart := [.now, .keeperPos, .meter]

theorem within_tick {dt : Nat} : Within clockParts s (tick dt s) := by
  refine within_of_eq ?_ (by decide)
  have htime := tick_time (s := s) (dt := dt)
  exact congrArg (fun x => { tick dt s with time := x }) htime

theorem within_emit {o : Out} : Within [.out] s (emit o s) := within_of_eq rfl (by decide)

theorem within_ledger {l : Ledger} (h : l.saved = s.ledger.saved) : Within [.ledger] s { s with ledger := l } :=
  within_of_eq (congrArg (fun x => { s with ledger := { l with saved := x } }) h) (by decide)

theorem within_fault {f : Faults} (h : f.armed = s.fault.armed) : Within [.fault] s { s with fault := f } :=
  within_of_eq (congrArg (fun x => { s with fault := { f with armed := x } }) h) (by decide)

theorem within_recordAt {pf1 : Bool} {at_ unit event : Nat} {det : List Byte} :
    Within [.ledger] s (recordAt pf1 at_ unit event det s) := by
  obtain ⟨l, h, hsaved⟩ := recordAt_ledger (s := s) (pf1 := pf1) (at_ := at_) (unit := unit) (event := event) (det := det)
  rw [h]
  exact within_ledger hsaved

theorem within_raiseCause {pf1 : Bool} {b : Nat} : Within [.causes, .out] s (raiseCause pf1 b s) := by
  obtain ⟨hregs, heq⟩ := onlyRecords_raiseCause (s := s) (pf1 := pf1) (b := b)
  obtain ⟨r, o, hshape⟩ : ∃ r o, raiseCause pf1 b s = { s with regs := r, out := o } := by
    unfold raiseCause
    extract_lets off v m s'
    split
    · exact ⟨_, _, rfl⟩
    · exact ⟨_, _, rfl⟩
  refine within_of_shape ?_ (fun _ k a b _ => hregs k a b) fun _ => hregs
  rw [hshape]
  rfl

theorem within_of_sends (h : OnlySends s t) : Within sendParts s t := by
  obtain ⟨p, f, l, o, rfl, hf, hl⟩ := h
  have hout : Within [.out, .catPorts] s { s with catum := { s.catum with ports := p }, out := o } :=
    within_of_eq rfl (by decide)
  exact (within_trans (within_trans hout (within_fault hf)) (within_ledger hl)).mono (by decide)

theorem within_catSend {ty vc dest tag : Nat} {b : List Byte} : Within sendParts s (catSend ty vc dest tag b s) :=
  within_of_sends onlySends_catSend

/-! ### Completions -/

theorem sendParts_replyParts : ∀ p ∈ sendParts, p ∈ replyParts := by decide

/-- A change of the completion rings and the descriptors' lists. -/
theorem within_replies (h : t = patch [.replies] s t) : Within replyParts s t :=
  within_of_eq_sub h (by decide) (by decide)

theorem within_modCq {c : Nat} {f : CompRing → CompRing} : Within replyParts s (modCq c f s) := within_replies rfl
theorem within_dropFront {q : Nat} : Within replyParts s (dropFront q s) := within_replies rfl
theorem within_markFirst {q : Nat} : Within replyParts s (markFirst q s) := within_replies rfl
theorem within_freeEntry {c : Nat} : Within replyParts s (freeEntry c s) := within_replies rfl
theorem within_noteFence {d : Desc} : Within replyParts s (noteFence d s) :=
  within_ite (within_replies rfl) within_refl

theorem within_reply_raiseCause {pf1 : Bool} {b : Nat} : Within replyParts s (raiseCause pf1 b s) :=
  within_raiseCause.mono (by decide)

theorem within_setOvf {c : Nat} {v : Word} : Within replyParts s (setRaw (0x0010300C + 32 * c) v s) := by
  exact within_of_shape rfl (fun _ k _ _ h => rawReg_setRaw_ne (h c)) fun h => absurd (by decide) h

theorem within_sendCqVector {c : Nat} : Within replyParts s (sendCqVector c s) := by
  unfold sendCqVector
  exact (within_emit.mono (by decide)).then within_modCq

theorem within_writeComp {c : Nat} {m : Comp} : Within replyParts s (writeComp c m s) := by
  unfold writeComp
  extract_lets r size next s1 s2 s3
  have h1 : Within replyParts s s1 :=
    (within_ite within_refl within_markFirst).then (within_emit.mono (by decide))
  have h2 : Within replyParts s s2 := h1.then within_modCq
  have h3 : Within replyParts s s3 := within_ite (h2.then within_reply_raiseCause) h2
  exact within_ite (h3.then within_sendCqVector) h3

theorem within_postTo {c : Nat} {m : Comp} : Within replyParts s (postTo c m s) := by
  unfold postTo
  refine within_ite within_writeComp (within_ite within_modCq ?_)
  extract_lets pf1 t
  have ht : Within replyParts s t := within_ite within_freeEntry within_refl
  exact ((ht.then within_setOvf).then (within_recordAt.mono (by decide))).then within_reply_raiseCause

theorem within_hostWrite {d : Desc} {a : Nat} {b : List Byte} : Within sendParts s (hostWrite d a b s) := by
  unfold hostWrite
  split
  · exact within_emit.mono (by decide)
  · exact within_forEach fun _ _ => within_catSend

theorem within_postFor {d : Desc} {m : Comp} : Within replyParts s (postFor d m s) := by
  unfold postFor
  split
  · exact within_catSend.mono sendParts_replyParts
  · exact within_postTo

theorem within_hostErr {d : Desc} {st : Nat} : Within replyParts s (hostErr d st s) :=
  within_ite within_reply_raiseCause within_refl

theorem within_firstAt {n : Nat} {d : Desc} {st : Nat} {b : List Byte} : Within replyParts s (firstAt n d st b s) := by
  unfold firstAt
  refine within_ite (within_replies rfl) ?_
  extract_lets hst s1 cat s2 s3
  have h0 : Within replyParts s { s with host := { s.host with begun := s.host.begun.erase d } } :=
    within_replies rfl
  have h1 : Within replyParts s s1 := h0.then within_hostErr
  have h2 : Within replyParts s s2 := within_ite h1 (h1.then (within_of_eq_sub (m := [.catPorts]) rfl (by decide) (by decide)))
  have h3 : Within replyParts s s3 := h2.then within_markFirst
  exact within_ite (within_ite (h3.then within_freeEntry) h3) (h3.then within_postFor)

theorem within_settleBad {q n : Nat} : Within replyParts s (settleBad q n s) := by
  induction n generalizing s with
  | zero => exact within_refl
  | succ n ih =>
    unfold settleBad
    split
    · exact within_refl
    · exact within_ite within_refl (((within_dropFront.then within_noteFence).then within_firstAt).then ih)

theorem within_begun {d e : Desc} : Within replyParts s (begun d e s) := by
  unfold begun
  extract_lets t h u
  have ht : Within replyParts s t := within_dropFront.then within_noteFence
  exact (ht.then (u := u) (within_replies rfl)).then within_settleBad

theorem within_completeAt {n : Nat} {d : Desc} {st : Nat} {b : List Byte} : Within replyParts s (completeAt n d st b s) :=
  within_firstAt.then within_settleBad

theorem within_complete {d : Desc} {st : Nat} {b : List Byte} : Within replyParts s (complete d st b s) := within_completeAt

theorem within_noticeAt {n : Nat} {d : Desc} {st : Nat} {b : List Byte} : Within replyParts s (noticeAt n d st b s) :=
  within_hostErr.then within_postFor

theorem within_tick_begun {dt : Nat} {d e : Desc} : Within (clockParts ++ replyParts) s (begun d e (tick dt s)) :=
  within_trans within_tick within_begun

/-! ### From and to the frames of records and completions -/

/-- What time and completions reach. -/
theorem onlyReply_of_within (h : Within (clockParts ++ replyParts) s t) : OnlyReply s t :=
  ⟨h .regs (by decide), within_eq h⟩

theorem onlyRecords_of_within (h : Within (clockParts ++ [.causes, .ledger, .out]) s t) : OnlyRecords s t :=
  ⟨h .ovf (by decide), within_eq h⟩

theorem within_of_reply (h : OnlyReply s t) : Within (clockParts ++ replyParts) s t :=
  within_of_shape h.2 (fun _ => h.1) fun hovf => absurd (by decide) hovf

theorem within_of_records (h : OnlyRecords s t) : Within (clockParts ++ [.causes, .ledger, .out]) s t :=
  within_of_shape h.2 (fun _ k a b _ => h.1 k a b) fun _ => h.1

/-- Beside the listed parts only what time and completions reach. -/
theorem onlyReply_patch (h : Within (m ++ (clockParts ++ replyParts)) s t) (hm : .regs ∉ m ∧ .ovf ∉ m ∨ .causes ∈ m) :
    OnlyReply (patch m s t) t := onlyReply_of_within (within_patch h hm)

/-- Beside the listed parts only what time and records reach. -/
theorem onlyRecords_patch (h : Within (m ++ (clockParts ++ [.causes, .ledger, .out])) s t)
    (hm : .regs ∉ m ∧ .ovf ∉ m ∨ .causes ∈ m) : OnlyRecords (patch m s t) t := onlyRecords_of_within (within_patch h hm)

/-! ### Fields of a part -/

theorem Within.power_field {α : Type} (h : Within m s t) (hm : .power ∉ m) {f : Power → α} (hf : ∀ x, f x.bare = f x) :
    f t.power = f s.power := by
  have hbare : t.power.bare = s.power.bare := h .power hm
  rw [← hf t.power, hbare, hf]

theorem Within.host_field {α : Type} (h : Within m s t) (hm : .hostRest ∉ m) {f : HostIf → α} (hf : ∀ x, f x.bare = f x) :
    f t.host = f s.host := by
  have hbare : t.host.bare = s.host.bare := h .hostRest hm
  rw [← hf t.host, hbare, hf]

theorem Within.ledger_field {α : Type} (h : Within m s t) (hm : .ledger ∉ m) {f : Ledger → α} (hf : ∀ x, f x.bare = f x) :
    f t.ledger = f s.ledger := by
  have hbare : t.ledger.bare = s.ledger.bare := h .ledger hm
  rw [← hf t.ledger, hbare, hf]

theorem Within.time_field {α : Type} (h : Within m s t) (hm : .time ∉ m) {f : Timebase → α} (hf : ∀ x, f x.bare = f x) :
    f t.time = f s.time := by
  have hbare : t.time.bare = s.time.bare := h .time hm
  rw [← hf t.time, hbare, hf]

theorem Within.adm_field {α : Type} (h : Within m s t) (hm : .adm ∉ m) {f : Admission → α} (hf : ∀ x, f x.bare = f x) :
    f t.adm = f s.adm := by
  have hbare : t.adm.bare = s.adm.bare := h .adm hm
  rw [← hf t.adm, hbare, hf]

theorem Within.gheler_field {α : Type} (h : Within m s t) (hm : .gheler ∉ m) {f : Gheler → α} (hf : ∀ x, f x.bare = f x) :
    f t.gheler = f s.gheler := by
  have hbare : t.gheler.bare = s.gheler.bare := h .gheler hm
  rw [← hf t.gheler, hbare, hf]

theorem Within.hbm_field {α : Type} (h : Within m s t) (hm : .hbm ∉ m) {f : Hbm → α} (hf : ∀ x, f x.bare = f x) :
    f t.hbm = f s.hbm := by
  have hbare : t.hbm.bare = s.hbm.bare := h .hbm hm
  rw [← hf t.hbm, hbare, hf]

theorem Within.catum_field {α : Type} (h : Within m s t) (hm : .catum ∉ m) {f : Catum → α} (hf : ∀ x, f x.bare = f x) :
    f t.catum = f s.catum := by
  have hbare : t.catum.bare = s.catum.bare := h .catum hm
  rw [← hf t.catum, hbare, hf]

theorem Within.fault_field {α : Type} (h : Within m s t) (hm : .fault ∉ m) {f : Faults → α} (hf : ∀ x, f x.bare = f x) :
    f t.fault = f s.fault := by
  have hbare : t.fault.bare = s.fault.bare := h .fault hm
  rw [← hf t.fault, hbare, hf]

end Sys2Proof.Machine
end

section
/-!
PROOFS. Service life (chapter 24): the wear report and record, the management bus, selections and writes of the flash.
-/

namespace Sys2Proof.Machine
variable {s t : State}

/-! ### The wear record -/

/-- The wear record is not of what completions reach. -/
theorem wearBytes_within (h : Within replyParts s t) : wearBytes t = wearBytes s := by
  have hwear : t.wear = s.wear := h .wear (by decide)
  have hmeter : t.meter = s.meter := h .meter (by decide)
  have hreserves : t.hbm.reserves = s.hbm.reserves := h.hbm_field (by decide) fun _ => rfl
  have hchans : t.gheler.chans = s.gheler.chans := h .chans (by decide)
  have hbad : t.gheler.slotsBad = s.gheler.slotsBad := h.gheler_field (by decide) fun _ => rfl
  have hthermal : t.thermal = s.thermal := h .thermal (by decide)
  unfold wearBytes freeLoopSlots
  rw [hwear, hmeter, hreserves, hchans, hbad, hthermal]

theorem exec_wearReport_accepted {dt : Nat} {d : Desc} (h : Runs (.wearReport dt d) s) (hfwd : d.fwd = none) :
    exec (.wearReport dt d) s = .next (complete d 0 [] (emit (.host (d.p64 16) (wearBytes (begun d d (tick dt s))))
      (begun d d (tick dt s)))) := by
  have hrun : exec (.wearReport dt d) s = .next (complete d 0 [] (hostWrite d (d.p64 16) (wearBytes (begun d d (tick dt s)))
      (begun d d (tick dt s)))) := congrArg Host.Outcome.next (runDesc_accepted h)
  rw [hrun]
  simp only [hostWrite, hfwd]

/-! ### The management bus -/

theorem exec_mgmtBusTransaction_unserved {dt a : Nat} {pec : Bool} {op : MgmtOp}
    (h : a ≠ s.power.smbAddr ∨ pec = false ∨ s.power.state = .p4) :
    exec (.mgmtBusTransaction dt a pec op) s = .next (tick dt s) := by
  have hserved : served ⟨dt, a, pec⟩ (tick dt s) = false := by
    simp only [served, tick_power]
    rcases h with h | h | h <;> simp [h]
  exact congrArg Host.Outcome.next (if_neg (by simp [hserved]))

theorem exec_mgmtBusTransaction_served {dt : Nat} {op : MgmtOp} (h : s.power.state ≠ .p4) :
    exec (.mgmtBusTransaction dt s.power.smbAddr true op) s = .next (mgmtServe s.power.smbAddr op (tick dt s)) := by
  have hserved : served ⟨dt, s.power.smbAddr, true⟩ (tick dt s) = true := by simp [served, tick_power, h]
  exact congrArg Host.Outcome.next (if_pos hserved)

/-! ### Writes of the flash -/

/-- With none under way a write of a bank begins at once. -/
theorem norStart_bank {d : Option Desc} {b : List Byte} (h : s.startup.norWrites = []) :
    norStart (.bank d b) s = { s with
      startup := { (putBank (idleBank s) [] s).startup with norWrites := [.bank d b] }
      wear := { s.wear with erases := upd s.wear.erases (2 + idleBank s) bump } } := by
  unfold norStart norBegin countErase putBank
  rw [h]
  dsimp only [List.isEmpty_nil]
  by_cases hidle : idleBank s = 0
  · simp [hidle, h]
  · simp [hidle, h]

theorem norStart_slot {d : Option Desc} {k : Nat} {f : FwImage} (h : s.startup.norWrites = []) :
    norStart (.slot d k f) s = { s with
      startup := { s.startup with norWrites := [.slot d k f] }
      wear := { s.wear with slots := upd s.wear.slots k fun f => { f with ok := false }
                            erases := upd s.wear.erases k bump } } := by
  unfold norStart norBegin countErase
  simp [h]

/-- Settles O25. -/
theorem serviceIsReported : Obligations.ServiceIsReported := by
  refine ⟨fun dt d s => ⟨fun hfwd hrun => ?_, ?_⟩, fun dt a pec op s => ⟨exec_mgmtBusTransaction_unserved, ?_⟩⟩
  · refine ⟨_, exec_wearReport_accepted hrun hfwd, ?_, ?_⟩
    · rw [wearBytes_within within_begun]
    · refine onlyReply_of_within ?_
      exact (within_trans (within_trans (within_trans within_tick within_begun) within_emit) within_complete).mono (by decide)
  · intro run hdays
    exact congrArg Host.Outcome.next (if_pos hdays)
  · rintro hp4 rfl
    refine ⟨exec_mgmtBusTransaction_served hp4, fun i e he => ?_, fun o => exec_mgmtBusTransaction_served hp4,
      fun b hb hnone => ?_⟩
    · refine (exec_mgmtBusTransaction_served hp4).trans ?_
      have hclamp : (tick dt s).startup.clamps[i]? = some e := he
      simp [mgmtServe, emit, tick_startup, he]
    · have hcheck : bankCheck b (tick dt s) = none := hb
      have hstart : mgmtServe s.power.smbAddr (.bankWrite b) (tick dt s) = bankStart none b (tick dt s) :=
        if_neg (by simp [hcheck])
      refine ⟨_, (exec_mgmtBusTransaction_served hp4).trans (congrArg _ hstart), ?_⟩
      rw [bankStart, norStart_bank (s := tick dt s) hnone]
      exact ⟨rfl, rfl⟩

/-! ### A selection without configured heads -/

theorem within_setProfiles {l : List Nat} {vals : List (Nat × List Byte)} :
    Within [.startup] s (forEach l (fun k => setProfile k vals) s) :=
  within_forEach fun _ _ => within_of_eq rfl (by decide)

theorem shortageMany_nil : shortageMany s [] = none := by
  unfold shortageMany
  simp [total]

/-- With no head configured an admitted selection has nobody to wait for. -/
theorem cabAccept_unconfigured {d : Desc} {named : List Nat} {vals : List (Nat × List Byte)} {diff : Nat}
    (h : ∀ k, configured s k = false) :
    ∃ u x, cabAccept d named vals diff s = finishCab x u.now u.now u ∧ Within [.startup] s u ∧ x.cabinet = d.p8 16 := by
  have hempty : named.filter (configured s) = [] := by simp [h]
  unfold cabAccept
  rw [hempty]
  exact ⟨_, _, rfl, within_setProfiles, rfl⟩

theorem cabSelectAct_unconfigured {d : Desc} (hpend : s.startup.pendingCab = none) (hcfg : ∀ k, (headOf s k).pipe.cfg = none) :
    ∃ u x, cabSelectAct d s = finishCab x u.now u.now u ∧ Within [.startup] s u ∧ x.cabinet = d.p8 16 := by
  have hlive : (cabHeads d s).filterMap (fun k => (headOf s k).pipe.cfg.map fun c =>
      (k, c, profiled (forEach (cabHeads d s) (fun k => setProfile k (resolveH (recsInUse s) (d.p8 16))) s) k c)) = [] := by
    simp [hcfg]
  unfold cabSelectAct
  rw [hpend]
  dsimp only
  rw [hlive]
  simp only [List.any_nil, List.flatMap_nil, shortageMany_nil, Bool.false_eq_true, if_false, forEach, List.foldl_nil]
  exact cabAccept_unconfigured fun k => by simp [configured, hcfg]

theorem within_finishCab {x : PendingCab} {cse at_ : Nat} : Within ([.startup] ++ replyParts) s (finishCab x cse at_ s) :=
  within_trans (within_of_eq rfl (by decide)) within_completeAt

theorem finishCab_startup {x : PendingCab} {cse at_ : Nat} : (finishCab x cse at_ s).startup =
    { s.startup with pendingCab := none, cabinet := x.cabinet, cabSrc := true } :=
  onlyReply_startup (s := { s with startup := _ }) onlyReply_completeAt

theorem exec_cabSelect_unconfigured {dt : Nat} {d : Desc} (h : Runs (.cabSelect dt d) s) (hpend : s.startup.pendingCab = none)
    (hcfg : ∀ k, (headOf s k).pipe.cfg = none) :
    ∃ t, exec (.cabSelect dt d) s = .next t ∧ t.startup.cabinet = d.trunc.p8 16 ∧ t.startup.cabSrc = true ∧
      t.startup.pendingCab = none ∧ OnlyReply { s with startup := t.startup } t := by
  have hb : OnlyReply s (begun d d.trunc (tick dt s)) := onlyReply_tick_begun
  obtain ⟨u, x, hact, hu, hcab⟩ := cabSelectAct_unconfigured (s := begun d d.trunc (tick dt s)) (d := d.trunc)
    (by rw [onlyReply_startup hb, hpend]) (fun k => by rw [onlyReply_headOf hb, hcfg])
  refine ⟨_, exec_cabSelect_accepted h, ?_⟩
  rw [hact]
  refine ⟨by rw [finishCab_startup, hcab], by rw [finishCab_startup], by rw [finishCab_startup], ?_⟩
  refine onlyReply_patch (m := [.startup]) ?_ (by decide)
  exact (within_trans (within_trans within_tick_begun hu) within_finishCab).mono (by decide)

/-! ### Banks and slots -/

theorem bufOf_host {d : Desc} {buf : HostBuf} (h : d.fwd = none) : bufOf d buf s = buf := by simp [bufOf, h]

theorem nvmWriteAct_valid {d : Desc} {bs : List Byte} (hfwd : d.fwd = none) (h : bankCheck (bs.take d.length) s = none) :
    nvmWriteAct (.data bs) d s = bankStart (some d) (bs.take d.length) s := by
  unfold nvmWriteAct
  simp only [bufOf_host hfwd, h]

theorem exec_nvmWriteBank_accepted {dt : Nat} {d : Desc} {buf : HostBuf} (h : Runs (.nvmWriteBank dt d buf) s) :
    exec (.nvmWriteBank dt d buf) s = .next (nvmWriteAct buf d (begun d d (tick dt s))) :=
  congrArg Host.Outcome.next (runDesc_accepted h)

theorem leNat_lt (l : List Byte) : leNat l < 256 ^ l.length := by
  induction l with
  | nil => exact Nat.one_pos
  | cons b l ih =>
    have hb : b.toNat < 256 := b.isLt
    rw [leNat, List.length_cons, pow_succ]
    omega

theorem fieldOf_lt (l : List Byte) (i n : Nat) : fieldOf l i n < 256 ^ n := by
  have hlen : (slice l i n).length = n := by simp [slice, padTo]
  have hlt := leNat_lt (slice l i n)
  rwa [hlen] at hlt

/-- LENGTH has 24 bits, so that no transfer is longer than a slot. -/
theorem length_le_slot {d : Desc} : ¬ 16777216 < d.length := by
  have hlt : d.length < 256 ^ 3 := fieldOf_lt d.bytes 8 3
  omega

theorem exec_fwWriteSlot_accepted {dt : Nat} {d : Desc} {f : FwImage} {e : Option Nat} (h : Runs (.fwWriteSlot dt d f e) s) :
    exec (.fwWriteSlot dt d f e) s = .next (fwWriteAct f e d (begun d d (tick dt s))) := by
  have hover : (fun (d : Desc) (_ : State) => decide (16777216 < d.length)) = noOver := by
    funext d _
    exact decide_eq_false length_le_slot
  have hexec : exec (.fwWriteSlot dt d f e) s = .next (runDesc (specBuf 0x1602 false (span 25 63)) d
      (fun d _ => badField [(decide (1 < d.p8 24), 24)]) noOver (fwWriteAct f e) (tick dt s)) := by
    rw [← hover]
    rfl
  exact hexec.trans (congrArg Host.Outcome.next (runDesc_accepted h))

theorem fwWriteAct_free {d : Desc} {f : FwImage} (hfwd : d.fwd = none) (hnor : s.startup.norWrites = [])
    (hslot : s.wear.slot ≠ d.p8 24) :
    fwWriteAct f none d s = if imageGood f && decide (f.size = d.length) then norStart (.slot (some d) (d.p8 24) f) s
      else complete d 0x1881 (u32 f.badAt) s := by
  unfold fwWriteAct
  rw [if_neg hslot, hnor]
  simp [imageReadErr, bufOf_host hfwd, HostBuf.bad]

theorem exec_nvmWriteBank_valid {dt : Nat} {d : Desc} {bs : List Byte} (hnor : s.startup.norWrites = []) (hfwd : d.fwd = none)
    (h : Runs (.nvmWriteBank dt d (.data bs)) s) (hcheck : bankCheck (bs.take d.length) s = none) :
    ∃ t, exec (.nvmWriteBank dt d (.data bs)) s = .next t ∧
      t.startup.norWrites = [.bank (some d) (bankSealed (s.startup.gen + 1) (bs.take d.length))] ∧
      (idleBank s = 0 → t.startup.bankA = []) ∧ (idleBank s = 1 → t.startup.bankB = []) ∧
      t.wear = { s.wear with erases := upd s.wear.erases (2 + idleBank s) bump } ∧
      t = { begun d d (tick dt s) with startup := t.startup, wear := t.wear } := by
  have hb : OnlyReply s (begun d d (tick dt s)) := onlyReply_tick_begun
  have hstartup := onlyReply_startup hb
  have hwear := onlyReply_wear hb
  have hidle : idleBank (begun d d (tick dt s)) = idleBank s := by rw [idleBank, idleBank, hstartup]
  have hvalid : bankCheck (bs.take d.length) (begun d d (tick dt s)) = none := by
    rw [← hcheck, bankCheck, bankCheck, hstartup]
  refine ⟨_, exec_nvmWriteBank_accepted h, ?_⟩
  rw [nvmWriteAct_valid hfwd hvalid, bankStart, norStart_bank (by rw [hstartup, hnor]), hidle, hstartup, hwear]
  refine ⟨rfl, fun h0 => ?_, fun h1 => ?_, rfl, rfl⟩
  · simp [putBank, h0]
  · simp [putBank, h1]

/-! ### The write under way ends -/

theorem norNext_last (h : s.startup.norWrites.drop 1 = []) :
    norNext s = { s with startup := { s.startup with norWrites := [] } } := by
  unfold norNext
  rw [h]

theorem within_norNext_last (h : s.startup.norWrites.drop 1 = []) : Within [.startup] s (norNext s) := by
  rw [norNext_last h]
  exact within_of_eq rfl (by decide)

theorem exec_bankWriteDone_only {dt : Nat} {d : Desc} {b : List Byte} (h : s.startup.norWrites = [.bank (some d) b]) :
    exec (.bankWriteDone dt []) s = .next (norNext (complete d 0 [] (putBank (idleBank s) b (tick dt s)))) := by
  have hhead : (tick dt s).startup.norWrites.head? = some (.bank (some d) b) := by rw [tick_startup, h]; rfl
  have hexec : exec (.bankWriteDone dt []) s = execBankWriteDone dt [] s := rfl
  rw [hexec, execBankWriteDone]
  simp only [hhead]
  rfl

theorem exec_slotWriteDone_only {dt k : Nat} {d : Desc} {f : FwImage} (h : s.startup.norWrites = [.slot (some d) k f]) :
    exec (.slotWriteDone dt []) s = .next (norNext (complete d 0 [] (record 0x2E 0x1805
      (u8 k ++ u8 f.level ++ u16 0 ++ u32 f.version)
      { tick dt s with wear := { s.wear with slots := upd s.wear.slots k fun _ => f } }))) := by
  have hhead : (tick dt s).startup.norWrites.head? = some (.slot (some d) k f) := by rw [tick_startup, h]; rfl
  have hexec : exec (.slotWriteDone dt []) s = execSlotWriteDone dt [] s := rfl
  rw [hexec, execSlotWriteDone]
  simp only [hhead]
  rfl

theorem bankWriteDone_ends {dt : Nat} {d : Desc} {b : List Byte} (h : s.startup.norWrites = [.bank (some d) b]) :
    ∃ t, exec (.bankWriteDone dt []) s = .next t ∧
      t.startup = (if idleBank s = 0 then { s.startup with bankA := b, norWrites := [] }
        else { s.startup with bankB := b, norWrites := [] }) ∧ OnlyReply { s with startup := t.startup } t := by
  have hstartup : (complete d 0 [] (putBank (idleBank s) b (tick dt s))).startup =
      (putBank (idleBank s) b (tick dt s)).startup := onlyReply_startup onlyReply_complete
  have hdrop : (complete d 0 [] (putBank (idleBank s) b (tick dt s))).startup.norWrites.drop 1 = [] := by
    rw [hstartup]
    simp only [putBank, tick_startup]
    split <;> simp [h]
  refine ⟨_, exec_bankWriteDone_only h, ?_, onlyReply_patch (m := [.startup]) ?_ (by decide)⟩
  · rw [norNext_last hdrop]
    dsimp only
    rw [hstartup]
    simp only [putBank, tick_startup]
    split <;> rfl
  · have hput : Within [.startup] (tick dt s) (putBank (idleBank s) b (tick dt s)) := within_of_eq rfl (by decide)
    exact (within_trans (within_trans (within_trans within_tick hput) within_complete)
      (within_norNext_last hdrop)).mono (by decide)

/-- The image stands in its slot; its record and completion are to follow. -/
def slotWritten (k : Nat) (f : FwImage) (s : State) : State :=
  { s with wear := { s.wear with slots := upd s.wear.slots k fun _ => f } }

theorem slotWriteDone_ends {dt k : Nat} {d : Desc} {f : FwImage} (h : s.startup.norWrites = [.slot (some d) k f]) :
    ∃ t, exec (.slotWriteDone dt []) s = .next t ∧
      t.wear = { s.wear with slots := upd s.wear.slots k fun _ => f } ∧ t.startup = { s.startup with norWrites := [] } ∧
      OnlyReply { s with startup := t.startup, wear := t.wear } t := by
  have hreply : OnlyReply (slotWritten k f (tick dt s)) (complete d 0 [] (record 0x2E 0x1805
      (u8 k ++ u8 f.level ++ u16 0 ++ u32 f.version) (slotWritten k f (tick dt s)))) :=
    onlyReply_trans (onlyReply_of_records onlyRecords_record) onlyReply_complete
  have hstartup := onlyReply_startup hreply
  have hnor : (slotWritten k f (tick dt s)).startup.norWrites.drop 1 = [] := by
    simp [slotWritten, tick_startup, h]
  rw [← hstartup] at hnor
  refine ⟨_, exec_slotWriteDone_only h, ?_⟩
  have hslots : Within [.wear] (tick dt s) (slotWritten k f (tick dt s)) := within_of_eq rfl (by decide)
  have hall := (within_trans (within_trans (within_trans (within_trans within_tick hslots) within_recordAt) within_complete)
    (within_norNext_last hnor)).mono (m' := [.startup, .wear] ++ (clockParts ++ replyParts)) (by decide)
  refine ⟨?_, ?_, onlyReply_patch (m := [.startup, .wear]) hall (by decide)⟩
  · exact ((within_norNext_last hnor) .wear (by decide)).trans (onlyReply_wear hreply)
  · refine (congrArg State.startup (norNext_last hnor)).trans ?_
    rw [hstartup]
    rfl

/-- Settles O23. -/
theorem flashAndCabinetsChange : Obligations.FlashAndCabinetsChange := by
  refine ⟨fun dt d s => exec_cabSelect_unconfigured, fun dt d s hnor hfwd => ⟨fun bs => exec_nvmWriteBank_valid hnor hfwd,
    fun f hrun hslot hgood hsize => ?_, fun f hrun hslot hbad => ?_⟩, fun dt d s => ⟨fun b => bankWriteDone_ends,
    fun k f => slotWriteDone_ends⟩⟩
  all_goals
    have hb : OnlyReply s (begun d d (tick dt s)) := onlyReply_tick_begun
    have hact := fwWriteAct_free (s := begun d d (tick dt s)) (f := f) hfwd (by rw [onlyReply_startup hb, hnor])
      (by rw [onlyReply_wear hb]; exact hslot)
    have hexec := (exec_fwWriteSlot_accepted hrun).trans (congrArg Host.Outcome.next hact)
  · rw [if_pos (by simp [hgood, hsize]), norStart_slot (by rw [onlyReply_startup hb, hnor]), onlyReply_startup hb,
      onlyReply_wear hb] at hexec
    exact ⟨_, hexec, rfl, rfl, rfl⟩
  · rwa [if_neg (by simpa using fun hg => hbad.resolve_left (by simp [hg]))] at hexec

end Sys2Proof.Machine
end

section
/-!
PROOFS. Exhibits (chapter 8): what frees, held writes and retire fences reach, and that no pin of a head outlives its fence.
-/

namespace Sys2Proof.Machine
variable {s t : State} {m : List StatePart}

/-! ### Values that frames carry over -/

/-- What a value is read from is not of the parts changed. -/
theorem Within.apply {α : Type} (h : Within m s t) (f : State → α) (hf : f (patch m s t) = f s) : f t = f s :=
  (congrArg f (within_eq h)).trans hf

/-! ### Frames -/

/-- What frees and held writes reach of the admission. -/
def exhParts : List StatePart := [.exhibits, .items, .transfers]

theorem within_setExh {h : Nat} {e : Exhibit} : Within [.exhibits] s (setExh h e s) := within_of_eq rfl (by decide)

theorem within_modExh {h : Nat} {g : Exhibit → Exhibit} : Within [.exhibits] s (modExh h g s) := by
  unfold modExh
  split
  · exact within_setExh
  · exact within_refl

theorem within_dropItem {k : ItemKind} : Within [.items] s (dropItem k s) := within_of_eq rfl (by decide)

theorem within_beginHeld {h frame : Nat} {w : Desc × Nat} : Within [.exhibits, .transfers] s (beginHeld h frame w s) :=
  (within_trans within_modExh (within_of_eq (m := [.transfers]) rfl (by decide))).mono (by decide)

theorem within_dropExh {h : Nat} {e : Exhibit} : Within ([.exhibits, .items] ++ replyParts) s (dropExh h e s) := by
  refine (within_of_eq_sub (m := [.exhibits]) rfl (by decide) (by decide)).then (within_forEach fun w u => ?_)
  exact (within_trans within_noticeAt within_dropItem).mono (by decide)

theorem within_freeNow {h frame : Nat} : Within (exhParts ++ replyParts) s (freeNow h frame s) := by
  unfold freeNow
  split
  · exact within_refl
  · extract_lets frees writes gone u v
    have hu : Within (exhParts ++ replyParts) s u := within_setExh.mono (by decide)
    have hv : Within (exhParts ++ replyParts) s v :=
      hu.then (within_forEach fun f w => within_ite (within_complete.mono (by decide)) (within_noticeAt.mono (by decide)))
    refine within_ite (hv.then (within_dropExh.mono (by decide))) ?_
    clear_value writes
    cases writes with
    | nil => exact hv
    | cons w rest => exact hv.then (within_beginHeld.mono (by decide))

theorem within_runHeld {h frame : Nat} : Within (exhParts ++ replyParts) s (runHeld h frame s) := by
  unfold runHeld
  split
  · exact within_refl
  · refine within_ite within_refl ?_
    split
    · exact within_refl
    · exact within_freeNow
    · exact within_ite within_refl ((within_trans within_setExh within_beginHeld).mono (by decide))

theorem within_unpin {k h : Nat} {fence : Option Nat} : Within [.exhibits] s (unpin k fence h s) := by
  unfold unpin
  split
  · exact within_refl
  · exact within_setExh

theorem within_unpinAll {k : Nat} {fence : Option Nat} : Within (exhParts ++ replyParts) s (unpinAll k fence s) := by
  unfold unpinAll
  exact (within_forEach fun _ _ => within_unpin.mono (by decide)).then (within_forEach fun _ _ => within_runHeld)

/-! ### Exhibits by handle -/

@[simp] theorem exhOf_setExh_same {h : Nat} {e : Exhibit} : exhOf (setExh h e s) h = some e := getKey_setKey_same

theorem exhOf_setExh_ne {h j : Nat} {e : Exhibit} (hj : j ≠ h) : exhOf (setExh h e s) j = exhOf s j := getKey_setKey_ne hj

/-- What leaves the exhibits as they are leaves each of them. -/
theorem Within.exhOf (h : Within m s t) (hm : .exhibits ∉ m) (j : Nat) : exhOf t j = exhOf s j :=
  congrArg (getKey j) (h .exhibits hm)

theorem OnlyReply.exhOf (h : OnlyReply s t) (j : Nat) : Machine.exhOf t j = Machine.exhOf s j :=
  (within_of_reply h).exhOf (by decide) j

/-! ### The pins of a head -/

/-- No exhibit keeps a pin of the head. -/
def Unpinned (k : Nat) (s : State) : Prop := ∀ h e, exhOf s h = some e → ∀ p ∈ e.pins, p.1 ≠ k

variable {k : Nat}

theorem Unpinned.of_exhibits (h : Unpinned k s) (he : t.adm.exhibits = s.adm.exhibits) : Unpinned k t := by
  unfold Unpinned exhOf
  rw [he]
  exact h

theorem Unpinned.within (h : Unpinned k s) (hw : Within m s t) (hm : .exhibits ∉ m) : Unpinned k t :=
  h.of_exhibits (hw .exhibits hm)

theorem Unpinned.setExh {h : Nat} {e : Exhibit} (hs : Unpinned k s) (he : ∀ p ∈ e.pins, p.1 ≠ k) :
    Unpinned k (setExh h e s) := by
  intro j x hx
  by_cases hj : j = h
  · subst hj
    rw [exhOf_setExh_same, Option.some.injEq] at hx
    exact hx ▸ he
  · rw [exhOf_setExh_ne hj] at hx
    exact hs j x hx

theorem Unpinned.modExh {h : Nat} {g : Exhibit → Exhibit} (hs : Unpinned k s) (hg : ∀ e, (g e).pins = e.pins) :
    Unpinned k (modExh h g s) := by
  unfold Machine.modExh
  split
  · next e he => exact hs.setExh (by rw [hg]; exact hs h e he)
  · exact hs

theorem Unpinned.forEach {α : Type} {l : List α} {f : α → State → State} (hs : Unpinned k s)
    (hf : ∀ a s, Unpinned k s → Unpinned k (f a s)) : Unpinned k (forEach l f s) := by
  unfold Machine.forEach
  induction l generalizing s with
  | nil => exact hs
  | cons a l ih => exact ih (hf a s hs)

theorem Unpinned.beginHeld {h frame : Nat} {w : Desc × Nat} (hs : Unpinned k s) : Unpinned k (beginHeld h frame w s) :=
  (hs.modExh (h := h) (g := fun e => { e with state := .filling }) fun _ => rfl).of_exhibits rfl

theorem Unpinned.dropExh {h : Nat} {e : Exhibit} (hs : Unpinned k s) : Unpinned k (dropExh h e s) := by
  have hdrop : Unpinned k { s with adm := { s.adm with exhibits := dropKey h s.adm.exhibits } } := by
    intro j x hx
    by_cases hj : j = h
    · subst hj
      have hnone : getKey j (dropKey j s.adm.exhibits) = none := getKey_dropKey_same
      exact absurd (hnone.symm.trans hx) (by simp)
    · exact hs j x ((getKey_dropKey_ne hj).symm.trans hx)
  exact hdrop.forEach fun w u hu => hu.within (within_trans within_noticeAt within_dropItem) (by decide)

theorem Unpinned.freeNow {h frame : Nat} (hs : Unpinned k s) : Unpinned k (freeNow h frame s) := by
  unfold Machine.freeNow
  split
  · exact hs
  · next e he =>
    extract_lets frees writes gone u v
    have hu : Unpinned k u := hs.setExh (hs h e he)
    have hv : Unpinned k v := hu.forEach fun f w hw => by
      split
      · exact hw.within within_complete (by decide)
      · exact hw.within within_noticeAt (by decide)
    split
    · exact hv.dropExh
    · clear_value writes
      cases writes with
      | nil => exact hv
      | cons w rest => exact hv.beginHeld

theorem Unpinned.runHeld {h frame : Nat} (hs : Unpinned k s) : Unpinned k (runHeld h frame s) := by
  unfold Machine.runHeld
  split
  · exact hs
  · next e he =>
    split
    · exact hs
    · split
      · exact hs
      · exact hs.freeNow
      · split
        · exact hs
        · refine Unpinned.beginHeld (hs.setExh ?_)
          exact hs h e he

/-- Of an exhibit that is there, the pins but those of the head stay. -/
theorem exhOf_unpin_same {h : Nat} {fence : Option Nat} : ∀ e, exhOf (unpin k fence h s) h = some e → ∀ p ∈ e.pins, p.1 ≠ k := by
  intro e he
  unfold unpin at he
  split at he
  · next hnone => simp [hnone] at he
  · rw [exhOf_setExh_same, Option.some.injEq] at he
    subst he
    intro p hp
    simpa using (List.mem_filter.1 hp).2

theorem exhOf_unpin_ne {h j : Nat} {fence : Option Nat} (hj : j ≠ h) : exhOf (unpin k fence h s) j = exhOf s j := by
  unfold unpin
  split
  · rfl
  · exact exhOf_setExh_ne hj

/-- Every handle among the unpinned ones keeps no pin of the head. -/
theorem exhOf_unpin_all {fence : Option Nat} (l : List Nat) (s : State) (j : Nat)
    (hj : j ∈ l ∨ ∀ e, exhOf s j = some e → ∀ p ∈ e.pins, p.1 ≠ k) :
    ∀ e, exhOf (forEach l (unpin k fence) s) j = some e → ∀ p ∈ e.pins, p.1 ≠ k := by
  unfold forEach
  induction l generalizing s with
  | nil => exact hj.resolve_left (by simp)
  | cons h l ih =>
    refine ih _ ?_
    by_cases hjh : j = h
    · exact Or.inr (hjh ▸ exhOf_unpin_same)
    · rcases hj with hj | hj
      · exact Or.inl ((List.mem_cons.1 hj).resolve_left hjh)
      · exact Or.inr (by rw [exhOf_unpin_ne hjh]; exact hj)

/-- A fence leaves no pin of its head. -/
theorem unpinned_unpinAll {fence : Option Nat} : Unpinned k (unpinAll k fence s) := by
  unfold unpinAll
  refine Unpinned.forEach (fun h e he => ?_) fun h u hu => hu.runHeld
  refine exhOf_unpin_all _ _ _ ?_ e he
  by_cases hmem : h ∈ s.adm.exhibits.map (·.1)
  · exact Or.inl hmem
  · refine Or.inr fun e he => ?_
    have hfind : getKey h s.adm.exhibits = none := by
      simp only [getKey, Option.map_eq_none_iff, List.find?_eq_none]
      intro x hx
      simpa using fun hxh => hmem (List.mem_map.2 ⟨x, hx, hxh⟩)
    exact absurd (hfind.symm.trans he) (by simp)

/-- Settles O32. -/
theorem retireFencesUnpin : Obligations.RetireFencesUnpin := by
  intro dt k s hcomp hcfg
  have hsome : ((headOf s k).pipe.composing && (headOf s k).pipe.cfg.isSome) = true := by
    simp [hcomp, Option.isSome_iff_ne_none, hcfg]
  refine ⟨_, congrArg id (if_pos hsome), unpinned_unpinAll, ?_, ?_⟩
  · exact within_unpinAll .heads (by decide)
  · have hpipe : ∀ (f : Pipe → Pipe) (u : State), Within [.heads] u (modPipe k f u) := fun f u => within_of_eq rfl (by decide)
    refine onlyReply_patch (m := [.heads] ++ exhParts) ?_ (by decide)
    exact (within_trans (within_trans within_tick (hpipe _ _)) within_unpinAll).mono (by decide)

/-! ### Freezes -/

/-- Where the bytes of a range lie is told by the grain and the map. -/
theorem anyFrozen_eq {a n : Nat} (hreg : rawReg t 0x00B00004 = rawReg s 0x00B00004) (hhbm : t.hbm.m = s.hbm.m)
    (hmap : t.hbm.map = s.hbm.map) (harch : t.ecc.archives = s.ecc.archives) : anyFrozen t a n = anyFrozen s a n := by
  have hdec : ∀ x, decodeAddr t x = decodeAddr s x := fun x => by simp only [decodeAddr, regField, hreg, hhbm]
  have hpc : pcFrozen t = pcFrozen s := by
    funext x
    simp only [pcFrozen, pcOf, hdec, hmap]
  have hat : frozenAt t = frozenAt s := by
    funext x
    simp only [frozenAt, hpc, archiveData, harch]
  have hblocks : ∀ a n, blocksOf t a n = blocksOf s a n := fun a n => by simp only [blocksOf, regField, hreg, hhbm]
  simp only [anyFrozen, stretches, hat, hblocks, harch]

theorem Within.anyFrozen (h : Within m s t) (hregs : .regs ∉ m) (hhbm : .hbm ∉ m) (hecc : .ecc ∉ m) {a n : Nat} :
    anyFrozen t a n = anyFrozen s a n :=
  anyFrozen_eq (h .regs hregs 0x00B00004 (by decide) (by decide) (by omega)) (h.hbm_field hhbm fun _ => rfl)
    (h.hbm_field hhbm fun _ => rfl) (congrArg (fun x : Ecc => x.archives) (h .ecc hecc))

/-! ### EXH_REGISTER and EXH_FREE -/

variable {dt : Nat} {d : Desc}

theorem exec_exhRegister_accepted (h : Runs (.exhRegister dt d) s) :
    exec (.exhRegister dt d) s = .next (exhRegisterAct d.trunc (begun d d.trunc (tick dt s))) :=
  congrArg Host.Outcome.next (runDesc_accepted h)

theorem exec_exhFree_accepted (h : Runs (.exhFree dt d) s) :
    exec (.exhFree dt d) s = .next (exhFreeAct d.trunc (begun d d.trunc (tick dt s))) :=
  congrArg Host.Outcome.next (runDesc_accepted h)

theorem exec_admQuery_accepted (h : Runs (.admQuery dt d) s) :
    exec (.admQuery dt d) s = .next (admQueryAct d.trunc (begun d d.trunc (tick dt s))) :=
  congrArg Host.Outcome.next (runDesc_accepted h)

/-- The exhibit that an EXH_REGISTER declares (Table 8.2). -/
def declared (d : Desc) : Exhibit :=
  { kind := d.p8 18, archive := d.p8 19 == 1, base := d.p64 24, size := d.p64 32, sampling := d.p8 40, depth := d.p8 41
    width := d.p16 42, height := d.p16 44, pitch := if d.p8 18 = 0 then pitchOf d else d.p32 48, state := .free, frame := 0
    number := 0, pins := [], fences := [], held := [] }

theorem declared_fields (x : Desc) : (declared x).kind = x.p8 18 ∧ (declared x).archive = decide (x.p8 19 = 1) ∧
    (declared x).base = x.p64 24 ∧ (declared x).size = x.p64 32 ∧ (declared x).sampling = x.p8 40 ∧
    (declared x).depth = x.p8 41 ∧ (declared x).width = x.p16 42 ∧ (declared x).height = x.p16 44 ∧
    (x.p8 18 = 0 → (declared x).pitch = pitchOf x) ∧ (declared x).state = .free ∧ (declared x).pins = [] ∧
    (declared x).held = [] :=
  ⟨rfl, rfl, rfl, rfl, rfl, rfl, rfl, rfl, fun hpix => if_pos hpix, rfl, rfl, rfl⟩

theorem exhRegisterAct_free (h : exhOf s (d.p16 16) = none) : exhRegisterAct d s =
    (exhClash s (d.p64 24) (d.p64 32)).elim (complete d 0 [] (setExh (d.p16 16) (declared d) s)) fun o =>
      complete d 0x880 (u16 o) s := by
  have hstate : exhState s (d.p16 16) = 0 := by simp only [exhState, h]
  unfold exhRegisterAct
  simp only [hstate, ne_eq, not_true_eq_false, if_false]
  cases exhClash s (d.p64 24) (d.p64 32) <;> rfl

/-- A free with nothing in its way. -/
theorem exhFreeAct_free {e : Exhibit} (h : exhOf s (d.p16 16) = some e) (hown : headOwned s (d.p16 16) = none)
    (hchain : inChain s (d.p16 16) = none) (hstate : e.state = .free ∨ e.state = .ready) :
    exhFreeAct d s = complete d 0 []
      (if bitOf (d.p8 18) 0 then dropExh (d.p16 16) e s else setExh (d.p16 16) { e with state := .free } s) := by
  unfold exhFreeAct
  simp only [h, hown, hchain]
  rcases hstate with hst | hst <;> rw [hst]

/-- A free of a pinned exhibit waits for its fences. -/
theorem exhFreeAct_pinned {e : Exhibit} (h : exhOf s (d.p16 16) = some e) (hown : headOwned s (d.p16 16) = none)
    (hchain : inChain s (d.p16 16) = none) (hstate : e.state = .pinned) :
    exhFreeAct d s = complete d 0x801 (u32 e.pins.length) (deferFree d (d.p16 16) { e with state := .retiring } false s) := by
  unfold exhFreeAct
  simp only [h, hown, hchain, hstate]

/-- Only the handle that goes is dropped. -/
theorem exhOf_dropExh {h : Nat} {e : Exhibit} (j : Nat) : exhOf (dropExh h e s) j = if j = h then none else exhOf s j := by
  have hrest : exhOf (dropExh h e s) j = exhOf { s with adm := { s.adm with exhibits := dropKey h s.adm.exhibits } } j := by
    refine Within.exhOf (m := [.items] ++ replyParts) (within_forEach fun w u => ?_) (by decide) j
    exact (within_trans within_noticeAt within_dropItem).mono (by decide)
  rw [hrest]
  split
  · next hj => exact hj ▸ getKey_dropKey_same
  · next hj => exact getKey_dropKey_ne hj

theorem exhOf_freed {h : Nat} {e : Exhibit} {c : Bool} (j : Nat) :
    exhOf (if c then dropExh h e s else setExh h { e with state := .free } s) j =
      if j = h then (if c then none else some { e with state := .free }) else exhOf s j := by
  cases c
  · by_cases hj : j = h
    · simp [hj]
    · simp [hj, exhOf_setExh_ne hj]
  · simp [exhOf_dropExh]

/-! ### Exhibit transfers -/

theorem exec_exhWrite_accepted (h : Runs (.exhWrite dt d) s) :
    exec (.exhWrite dt d) s = .next (exhWriteAct d (begun d d (tick dt s))) := congrArg Host.Outcome.next (runDesc_accepted h)

theorem exec_exhRead_accepted (h : Runs (.exhRead dt d) s) :
    exec (.exhRead dt d) s = .next (admitXfer d (readExh d) (begun d d (tick dt s))) :=
  congrArg Host.Outcome.next (runDesc_accepted h)

/-- A write without RATE asks for no admission. -/
theorem exhWriteAct_unowned (hrate : d.p32 28 = 0) (hown : headOwned s (d.p16 24) = none) (hchain : inChain s (d.p16 24) = none) :
    exhWriteAct d s = writeExh d 0 s := by
  unfold exhWriteAct admitXfer
  simp only [hown, hchain, hrate, if_true]

/-- A write begins that no pin holds back. -/
theorem writeExh_begins {e : Exhibit} (h : exhOf s (d.p16 24) = some e) (hpin : e.state ≠ .pinned) (hret : e.state ≠ .retiring)
    (hfroz : anyFrozen s (e.base + d.p64 32) d.length = false) : writeExh d 0 s = { s with adm := { s.adm with
      exhibits := setKey (d.p16 24) { e with state := .filling } s.adm.exhibits
      transfers := s.adm.transfers ++
        [⟨d, 0x0503, d.p16 24, false, none, [], false, none, e.base + d.p64 32, 0⟩] } } := by
  have hrange : exhRange (setExh (d.p16 24) { e with state := .filling } s) (d.p16 24) = (e.base, e.size) := by
    rw [exhRange, exhOf_setExh_same]
    rfl
  unfold writeExh
  simp only [h, hpin, hret, hfroz, startXfer, hrange, or_self, decide_false, Bool.false_and, Bool.false_eq_true, if_false, true_or,
    if_true]
  rfl

/-- A write into a pinned exhibit waits. -/
theorem writeExh_waits {e : Exhibit} (h : exhOf s (d.p16 24) = some e) (hpin : e.state = .pinned) (hforce : d.force = false) :
    writeExh d 0 s = complete d 0x802 (u32 e.pins.length) (setExh (d.p16 24) { e with held := e.held ++ [.write d 0] } s) := by
  unfold writeExh
  simp only [h, hpin, hforce, true_or, decide_true, Bool.not_false, Bool.and_self, if_true]

theorem readExh_begins {e : Exhibit} (h : exhOf s (d.p16 24) = some e)
    (hfroz : anyFrozen s (e.base + d.p64 32) d.length = false) : readExh d 0 s = { s with adm := { s.adm with
      transfers := s.adm.transfers ++ [⟨d, 0x0504, d.p16 24, false, none, [], false, none, e.base + d.p64 32, 0⟩] } } := by
  have hrange : exhRange s (d.p16 24) = (e.base, e.size) := by
    rw [exhRange, h]
    rfl
  unfold readExh
  simp only [hrange, hfroz, startXfer, Bool.false_eq_true, if_false, or_true, if_true]

/-! ### What stands as the descriptor found it -/

theorem begun_exhOf {e : Desc} (h : Nat) : exhOf (begun d e (tick dt s)) h = exhOf s h := within_tick_begun.exhOf (by decide) h

theorem begun_headOwned {e : Desc} (h : Nat) : headOwned (begun d e (tick dt s)) h = headOwned s h :=
  within_tick_begun.apply (headOwned · h) rfl

theorem begun_inChain {e : Desc} (h : Nat) : inChain (begun d e (tick dt s)) h = inChain s h :=
  within_tick_begun.apply (inChain · h) rfl

theorem begun_exhClash {e : Desc} (a n : Nat) : exhClash (begun d e (tick dt s)) a n = exhClash s a n :=
  within_tick_begun.apply (exhClash · a n) rfl

theorem begun_anyFrozen {e : Desc} (a n : Nat) : anyFrozen (begun d e (tick dt s)) a n = anyFrozen s a n :=
  within_tick_begun.anyFrozen (by decide) (by decide) (by decide)

theorem begun_adm {e : Desc} : (begun d e (tick dt s)).adm = s.adm := within_tick_begun.apply State.adm rfl

theorem exhRegister_new {h : Nat} (hh : h = d.trunc.p16 16) (hrun : Runs (.exhRegister dt d) s) (hfree : exhOf s h = none)
    (hclear : exhClash s (d.trunc.p64 24) (d.trunc.p64 32) = none) : ∃ t, exec (.exhRegister dt d) s = .next t ∧
      exhOf t h = some (declared d.trunc) ∧ (∀ y, y ≠ h → exhOf t y = exhOf s y) ∧
      OnlyReply { s with adm := { s.adm with exhibits := t.adm.exhibits } } t := by
  subst hh
  have hact := exhRegisterAct_free (s := begun d d.trunc (tick dt s)) (d := d.trunc) (by rw [begun_exhOf, hfree])
  rw [begun_exhClash, hclear] at hact
  refine ⟨_, (exec_exhRegister_accepted hrun).trans (congrArg _ hact), ?_, fun y hy => ?_, ?_⟩
  · exact (within_complete.exhOf (by decide) _).trans exhOf_setExh_same
  · exact (within_complete.exhOf (by decide) _).trans ((exhOf_setExh_ne hy).trans (begun_exhOf y))
  · refine onlyReply_patch (m := [.exhibits]) ?_ (by decide)
    exact (within_trans (within_trans within_tick_begun within_setExh) within_complete).mono (by decide)

theorem exhFree_frees {e : Exhibit} (hrun : Runs (.exhFree dt d) s) (he : exhOf s (d.trunc.p16 16) = some e)
    (hown : headOwned s (d.trunc.p16 16) = none) (hchain : inChain s (d.trunc.p16 16) = none)
    (hstate : e.state = .free ∨ e.state = .ready) : ∃ t, exec (.exhFree dt d) s = .next t ∧
      exhOf t (d.trunc.p16 16) = (if bitOf (d.trunc.p8 18) 0 = true then none else some { e with state := .free }) ∧
      (∀ y, y ≠ d.trunc.p16 16 → exhOf t y = exhOf s y) ∧
      OnlyReply { s with adm := { s.adm with exhibits := t.adm.exhibits, items := t.adm.items } } t := by
  have hact := exhFreeAct_free (s := begun d d.trunc (tick dt s)) (d := d.trunc) (by rw [begun_exhOf, he])
    (by rw [begun_headOwned, hown]) (by rw [begun_inChain, hchain]) hstate
  refine ⟨_, (exec_exhFree_accepted hrun).trans (congrArg _ hact), ?_, fun y hy => ?_, ?_⟩
  · exact (within_complete.exhOf (by decide) _).trans ((exhOf_freed _).trans (if_pos rfl))
  · exact (within_complete.exhOf (by decide) _).trans (((exhOf_freed y).trans (if_neg hy)).trans (begun_exhOf y))
  · refine onlyReply_patch (m := [.exhibits, .items]) ?_ (by decide)
    have hfreed := within_ite (c := bitOf (d.trunc.p8 18) 0 = true)
      (within_dropExh (h := d.trunc.p16 16) (e := e) (s := begun d d.trunc (tick dt s)))
      ((within_setExh (h := d.trunc.p16 16) (e := { e with state := .free })).mono (by decide))
    exact (within_trans (within_trans within_tick_begun hfreed) within_complete).mono (by decide)

theorem exhFree_waits {e : Exhibit} (hrun : Runs (.exhFree dt d) s) (he : exhOf s (d.trunc.p16 16) = some e)
    (hown : headOwned s (d.trunc.p16 16) = none) (hchain : inChain s (d.trunc.p16 16) = none) (hstate : e.state = .pinned) :
    ∃ t f, exec (.exhFree dt d) s = .next t ∧
      exhOf t (d.trunc.p16 16) = some { e with state := .retiring, held := e.held ++ [.free f] } ∧ f.desc = d.trunc ∧
      f.afterFill = false ∧ OnlyReply { s with adm := { s.adm with exhibits := t.adm.exhibits } } t := by
  have hact := exhFreeAct_pinned (s := begun d d.trunc (tick dt s)) (d := d.trunc) (by rw [begun_exhOf, he])
    (by rw [begun_headOwned, hown]) (by rw [begun_inChain, hchain]) hstate
  refine ⟨_, ⟨d.trunc, bitOf (d.trunc.p8 18) 0, false⟩, (exec_exhFree_accepted hrun).trans (congrArg _ hact), ?_, rfl, rfl, ?_⟩
  · exact (within_complete.exhOf (by decide) _).trans exhOf_setExh_same
  · refine onlyReply_patch (m := [.exhibits]) ?_ (by decide)
    exact (within_trans (within_trans within_tick_begun within_setExh) within_complete).mono (by decide)

/-- The fields of an accepted descriptor are in their range. -/
theorem accepted_bad {o : OpSpec} {bad : Desc → State → Option (List Byte)} {tooLong : Desc → State → Bool}
    (h : Accepted o bad tooLong d s) : bad (d.seen o) (begun d (d.seen o) s) = none := by
  obtain ⟨-, -, hobj⟩ := h
  cases hbad : bad (d.seen o) (begun d (d.seen o) s) with
  | none => rfl
  | some det =>
    rw [hbad] at hobj
    exact absurd hobj (by simp [objectCheck])

theorem admQuery_answers (hrun : Runs (.admQuery dt d) s) :
    ∃ i t, slotOf (d.trunc.p8 16) (d.trunc.p8 17) = some i ∧ exec (.admQuery dt d) s = .next t ∧
      t = complete d.trunc 0 (u32 (s.adm.caps.getD i 0) ++ u32 (committed s i)) (begun d d.trunc (tick dt s)) ∧
      OnlyReply s t := by
  obtain ⟨i, hi⟩ : ∃ i, slotOf (d.trunc.p8 16) (d.trunc.p8 17) = some i := by
    have hgood : admQueryBad d.trunc (begun d d.trunc (tick dt s)) = none := accepted_bad hrun
    refine Option.isSome_iff_exists.1 ?_
    by_contra hnone
    simp [admQueryBad, badField, Option.not_isSome_iff_eq_none.1 hnone] at hgood
  refine ⟨i, _, hi, exec_admQuery_accepted hrun, ?_, onlyReply_trans onlyReply_tick_begun onlyReply_complete⟩
  simp only [admQueryAct, hi, Option.getD_some, begun_adm, committed]

theorem exec_exhWrite_unowned (hrun : Runs (.exhWrite dt d) s) (hrate : d.p32 28 = 0)
    (hown : headOwned s (d.p16 24) = none) (hchain : inChain s (d.p16 24) = none) :
    exec (.exhWrite dt d) s = .next (writeExh d 0 (begun d d (tick dt s))) := by
  rw [exec_exhWrite_accepted hrun, exhWriteAct_unowned hrate (by rw [begun_headOwned, hown]) (by rw [begun_inChain, hchain])]

theorem exhWrite_begins {e : Exhibit} (hrun : Runs (.exhWrite dt d) s) (hrate : d.p32 28 = 0)
    (he : exhOf s (d.p16 24) = some e) (hown : headOwned s (d.p16 24) = none) (hchain : inChain s (d.p16 24) = none)
    (hpin : e.state ≠ .pinned) (hret : e.state ≠ .retiring) (hfroz : anyFrozen s (e.base + d.p64 32) d.length = false) :
    exec (.exhWrite dt d) s = .next { begun d d (tick dt s) with adm := { s.adm with
      exhibits := setKey (d.p16 24) { e with state := .filling } s.adm.exhibits
      transfers := s.adm.transfers ++
        [⟨d, 0x0503, d.p16 24, false, none, [], false, none, e.base + d.p64 32, 0⟩] } } := by
  rw [exec_exhWrite_unowned hrun hrate hown hchain, writeExh_begins (by rw [begun_exhOf, he]) hpin hret
    (by rw [begun_anyFrozen, hfroz]), begun_adm]

theorem exhWrite_waits {e : Exhibit} (hrun : Runs (.exhWrite dt d) s) (hrate : d.p32 28 = 0)
    (he : exhOf s (d.p16 24) = some e) (hown : headOwned s (d.p16 24) = none) (hchain : inChain s (d.p16 24) = none)
    (hpin : e.state = .pinned) (hforce : d.force = false) : ∃ t, exec (.exhWrite dt d) s = .next t ∧
      exhOf t (d.p16 24) = some { e with held := e.held ++ [.write d 0] } ∧ (∀ y, y ≠ d.p16 24 → exhOf t y = exhOf s y) ∧
      OnlyReply { s with adm := { s.adm with exhibits := t.adm.exhibits } } t := by
  have hexec := exec_exhWrite_unowned hrun hrate hown hchain
  rw [writeExh_waits (by rw [begun_exhOf, he]) hpin hforce] at hexec
  refine ⟨_, hexec, ?_, fun y hy => ?_, ?_⟩
  · exact (within_complete.exhOf (by decide) _).trans exhOf_setExh_same
  · exact (within_complete.exhOf (by decide) _).trans ((exhOf_setExh_ne hy).trans (begun_exhOf y))
  · refine onlyReply_patch (m := [.exhibits]) ?_ (by decide)
    exact (within_trans (within_trans within_tick_begun within_setExh) within_complete).mono (by decide)

theorem exhRead_begins {e : Exhibit} (hrun : Runs (.exhRead dt d) s) (hrate : d.p32 28 = 0)
    (he : exhOf s (d.p16 24) = some e) (hfroz : anyFrozen s (e.base + d.p64 32) d.length = false) :
    exec (.exhRead dt d) s = .next { begun d d (tick dt s) with adm := { s.adm with
      transfers := s.adm.transfers ++ [⟨d, 0x0504, d.p16 24, false, none, [], false, none, e.base + d.p64 32, 0⟩] } } := by
  have hgo : admitXfer d (readExh d) (begun d d (tick dt s)) = readExh d 0 (begun d d (tick dt s)) := if_pos hrate
  rw [exec_exhRead_accepted hrun, hgo, readExh_begins (by rw [begun_exhOf, he]) (by rw [begun_anyFrozen, hfroz]), begun_adm]

/-- Settles O30. -/
theorem exhibitsComeAndGo : Obligations.ExhibitsComeAndGo := by
  refine ⟨fun dt d s => ⟨fun hrun hfree => ⟨fun hclear => ?_, fun o ho => ?_⟩, fun hrun e he hown hchain =>
    ⟨exhFree_frees hrun he hown hchain, exhFree_waits hrun he hown hchain⟩, admQuery_answers⟩,
    ?_⟩
  · obtain ⟨t, hexec, hnew, hothers, hframe⟩ := exhRegister_new rfl hrun hfree hclear
    obtain ⟨h1, h2, h3, h4, h5, h6, h7, h8, h9, h10, h11, h12⟩ := declared_fields d.trunc
    exact ⟨t, declared d.trunc, hexec, hnew, h1, h2, h3, h4, h5, h6, h7, h8, h9, h10, h11, h12, hothers, hframe⟩
  · have hact := exhRegisterAct_free (s := begun d d.trunc (tick dt s)) (d := d.trunc) (by rw [begun_exhOf, hfree])
    rw [begun_exhClash, ho, Option.elim_some] at hact
    exact (exec_exhRegister_accepted hrun).trans (congrArg Host.Outcome.next hact)
  intro dt d e s b h he hrate
  refine ⟨fun hrun hown hchain => ⟨fun hpin hret hfroz => ?_, fun hpin hforce => ?_⟩, fun hrun hfroz => ?_⟩
  · exact exhWrite_begins hrun hrate he hown hchain hpin hret hfroz
  · exact exhWrite_waits hrun hrate he hown hchain hpin hforce
  · exact exhRead_begins hrun hrate he hfroz

end Sys2Proof.Machine
end

section
/-!
PROOFS. What accesses to the stacks reach (chapters 18 and 20): the stored bytes and their companions, the counts of errors,
and the records of those that are told.
-/

namespace Sys2Proof.Machine
variable {s t : State}

theorem within_foldl {α : Type} {m : List StatePart} {l : List α} {f : State → α → State} (hf : ∀ s a, Within m s (f s a)) :
    Within m s (l.foldl f s) := by
  induction l generalizing s with
  | nil => exact within_refl
  | cons a l ih => exact (hf s a).then ih

/-- What a write reaches. -/
def storeParts : List StatePart := [.cells, .ecc]

/-- What a read reaches: errors met are corrected, counted and told. -/
def readParts : List StatePart := [.cells, .ecc, .ledger, .causes, .out]

theorem storeParts_readParts : ∀ p ∈ storeParts, p ∈ readParts := by decide

/-! ### Writes -/

theorem within_mendComp {p : Nat → Bool} : Within storeParts s (mendComp p s) :=
  within_of_eq_sub (m := [.ecc]) rfl (by decide) (by decide)

theorem within_storeRaw {a : Nat} {bs : List Byte} : Within storeParts s (storeRaw a bs s) :=
  within_of_eq_sub (m := [.cells]) rfl (by decide) (by decide)

theorem within_storeOdd {a : Nat} {b : Byte} : Within storeParts s (storeOdd a b s) :=
  within_of_eq_sub (m := [.cells]) rfl (by decide) (by decide)

theorem within_putField {r : Archive} {a v : Nat} : Within storeParts s (putField r a v s) :=
  within_ite within_refl within_storeRaw

theorem within_protectByte {a n x : Nat} : Within storeParts s (protectByte a n x s) := by
  unfold protectByte
  split
  · exact within_refl
  · refine Within.then ?_ within_putField
    exact within_ite (within_mendComp.then (within_forEach fun _ _ => within_ite within_refl within_putField)) within_refl

theorem within_storeHbm {a : Nat} {bs : List Byte} : Within storeParts s (storeHbm a bs s) := by
  unfold storeHbm
  have hstore := within_storeRaw.then (within_mendComp (s := storeRaw a bs s)
    (p := fun x => decide (a ≤ x) && decide (x < a + bs.length)))
  exact within_ite hstore (hstore.then (within_forEach fun _ _ => within_protectByte))

theorem within_writeHbm {a : Nat} {bs : List Byte} : Within storeParts s (writeHbm a bs s) :=
  within_ite (within_foldl fun _ _ => within_ite within_refl within_storeHbm) within_storeHbm

theorem within_writeInternal {a : Nat} {bs : List Byte} : Within storeParts s (writeInternal a bs s) :=
  within_ite (within_foldl fun _ _ => within_ite within_refl within_writeHbm) within_writeHbm

theorem within_markByte {a : Nat} : Within storeParts s (markByte a s) := by
  unfold markByte
  split
  · exact within_putField
  · exact within_ite (within_of_eq_sub (m := [.ecc]) rfl (by decide) (by decide)) within_storeOdd

theorem within_markBad {l : List Nat} : Within storeParts s (markBad l s) := within_forEach fun _ _ => within_markByte

/-! ### Reads -/

theorem within_setRegion {c : RegionCount} : Within [.ecc] s (setRegion c s) := within_of_eq rfl (by decide)

theorem within_countCe {r a : Nat} : Within readParts s (countCe r a s) := by
  unfold countCe
  have hset : ∀ c, Within readParts s (setRegion c s) := fun c => within_setRegion.mono (by decide)
  refine within_ite (hset _) (within_ite ?_ (hset _))
  exact ((hset _).then (within_recordAt.mono (by decide))).then (within_raiseCause.mono (by decide))

theorem within_tellUe {r : Nat} : Within readParts s (tellUe r s) := by
  unfold tellUe
  exact within_ite within_refl ((within_setRegion.mono (by decide)).then (within_recordAt.mono (by decide)))

theorem within_countUe {r unit_ : Nat} {l : List Nat} : Within readParts s (countUe r unit_ l s) := by
  unfold countUe
  split
  · exact within_refl
  · exact (within_setRegion.mono (by decide)).then within_tellUe

theorem within_countBad {unit_ : Nat} {l : List Nat} : Within readParts s (countBad unit_ l s) :=
  within_forEach fun _ _ => within_countUe

theorem within_writeBack {a : Nat} : Within storeParts s (writeBack a s) := within_ite within_storeHbm within_refl

theorem within_correctByte {a : Nat} : Within readParts s (correctByte a s) :=
  within_countCe.then (within_writeBack.mono storeParts_readParts)

theorem within_noteRead {unit_ a n : Nat} : Within readParts s (noteRead unit_ a n s) :=
  within_ite within_refl ((within_forEach fun _ _ => within_correctByte).then within_countBad)

/-! ### BAR4 accesses that waited out self-refresh -/

theorem within_serveBar4 {x : HostAccess} : Within (.hbm :: readParts) s (serveBar4 x s) := by
  unfold serveBar4
  split
  · refine within_ite (within_emit.mono (by decide)) ?_
    refine Within.mono (m := readParts) (Within.then ?_ within_noteRead) (by decide)
    exact (within_ite within_refl (within_emit.mono (by decide))).then (within_emit.mono (by decide))
  · refine Within.mono (m := storeParts) ?_ (by decide)
    exact within_ite (within_writeInternal.then within_markBad) within_writeInternal
  · exact (within_of_eq (m := [.hbm]) rfl (by decide)).mono (by decide)

end Sys2Proof.Machine
end

section
/-!
PROOFS. Heads: changes that reach a head in Cave hold and wake the module (R84, R324), and HEAD_CONFIG and HEAD_RELEASE (R206, R210).
-/

namespace Sys2Proof.Machine
variable {s t : State} {m : List StatePart} {k j : Nat}

/-! ### One head -/

theorem within_modHead {f : Head → Head} : Within [.heads] s (modHead k f s) := within_of_eq rfl (by decide)
theorem within_modPipe {f : Pipe → Pipe} : Within [.heads] s (modPipe k f s) := within_modHead
theorem within_modCave {f : Cave → Cave} : Within [.heads] s (modCave k f s) := within_modHead

/-- What a change of a head leaves of it, it leaves of every head. -/
theorem headOf_modHead_field {α : Type} {f : Head → Head} {g : Head → α} (hg : ∀ h, g (f h) = g h) :
    g (headOf (modHead k f s) j) = g (headOf s j) := by
  by_cases hj : j = k
  · subst hj
    by_cases hlen : j < s.heads.length
    · rw [headOf_modHead_same hlen, hg]
    · have hout : s.heads.modify j f = s.heads := List.modify_eq_self (by omega)
      simp only [headOf, modHead, upd, hout]
  · rw [headOf_modHead_ne hj]

theorem Within.headOf (h : Within m s t) (hm : .heads ∉ m) (j : Nat) : headOf t j = headOf s j :=
  congrArg (fun l : List Head => l.getD j Reset.head) (h .heads hm)

/-- A head that is configured is one of the module's. -/
theorem lt_of_configured (h : configured s k = true) : k < s.heads.length := by
  by_contra hk
  have hreset : headOf s k = Reset.head := by
    rw [headOf, List.getD_eq_default _ _ (by omega)]
  rw [configured, hreset] at h
  cases h

/-! ### Changes of a head -/

theorem within_caveExit {c n : Nat} : Within [.heads] s (caveExit k c n s) := by
  unfold caveExit
  dsimp only
  split
  · exact within_refl
  · split
    · exact within_modCave
    · exact within_ite within_modCave within_refl
    · exact within_refl

/-- An exit cause reaches no more than the head's Cave state. -/
theorem headOf_caveExit_field {α : Type} {c n : Nat} {g : Head → α} (hg : ∀ h v, g { h with cave := v } = g h) :
    g (headOf (caveExit k c n s) j) = g (headOf s j) := by
  unfold caveExit
  dsimp only
  split
  · rfl
  · split
    · exact headOf_modHead_field fun h => hg h _
    · split
      · exact headOf_modHead_field fun h => hg h _
      · rfl
    · rfl

theorem headOf_caveExit_ne {c n : Nat} (hj : j ≠ k) : headOf (caveExit k c n s) j = headOf s j := by
  unfold caveExit
  dsimp only
  split
  · rfl
  · split
    · exact headOf_modHead_ne hj
    · split
      · exact headOf_modHead_ne hj
      · rfl
    · rfl

/-- Leaving P2 where no BAR4 access has waited. -/
theorem leaveP2_idle (hp : s.power.state = .p2) (hhost : s.hbm.host = []) : leaveP2 s = { s with
    power := { s.power with state := .p0 }, hbm := { s.hbm with selfRef := s.hbm.moving.isSome && s.hbm.selfRef } } := by
  unfold leaveP2
  rw [if_pos hp]
  cases hmove : s.hbm.moving with
  | none => simp [hhost, forEach]
  | some x => simp

theorem within_leaveP2 (h : s.power.state = .p2 → s.hbm.host = []) : Within [.pstate, .selfRef] s (leaveP2 s) := by
  by_cases hp : s.power.state = .p2
  · rw [leaveP2_idle hp (h hp)]
    exact within_of_eq rfl (by decide)
  · rw [leaveP2, if_neg hp]
    exact within_refl

/-- In general it also serves the BAR4 accesses that waited. -/
theorem within_leaveP2_served : Within ([.pstate, .selfRef, .hbm] ++ readParts) s (leaveP2 s) := by
  unfold leaveP2
  refine within_ite (within_ite ?_ ?_) within_refl
  · exact within_of_eq_sub (m := [.pstate]) rfl (by decide) (by decide)
  · have h1 : Within [.pstate, .selfRef, .hbm] s { s with
        power := { s.power with state := .p0 }, hbm := { s.hbm with selfRef := false, host := [] } } :=
      within_of_eq rfl (by decide)
    exact (h1.mono (by decide)).then (within_forEach fun x u => within_serveBar4.mono (by decide))

theorem within_exitCause {c n : Nat} (h : s.power.state = .p2 → s.hbm.host = []) :
    Within [.heads, .pstate, .selfRef] s (exitCause k c n s) := by
  have hexit := within_caveExit (s := s) (k := k) (c := c) (n := n)
  refine within_ite ?_ (hexit.mono (by decide))
  refine (within_trans hexit (within_leaveP2 fun hp => ?_)).mono (by decide)
  rw [hexit.hbm_field (f := fun x : Hbm => x.host) (by decide) fun _ => rfl]
  exact h ((hexit .pstate (by decide)).symm.trans hp)

/-- The heads after an exit cause are those after the head's own exit. -/
theorem exitCause_headOf {c n : Nat} : headOf (exitCause k c n s) j = headOf (caveExit k c n s) j := by
  unfold exitCause
  split
  · exact within_leaveP2_served.headOf (by decide) j
  · rfl

theorem within_headChanged {n : Nat} (h : s.power.state = .p2 → s.hbm.host = []) :
    Within [.heads, .pstate, .selfRef] s (headChanged k n s) :=
  (within_trans within_modCave (within_exitCause h)).mono (by decide)

/-- A change leaves all of the heads but the head's Cave state. -/
theorem headOf_headChanged_field {α : Type} {n : Nat} {g : Head → α} (hg : ∀ h v, g { h with cave := v } = g h) :
    g (headOf (headChanged k n s) j) = g (headOf s j) := by
  unfold headChanged
  rw [exitCause_headOf, headOf_caveExit_field hg]
  exact headOf_modHead_field fun h => hg h _

theorem headOf_headChanged_ne {n : Nat} (hj : j ≠ k) : headOf (headChanged k n s) j = headOf s j := by
  unfold headChanged
  rw [exitCause_headOf, headOf_caveExit_ne hj]
  exact headOf_modHead_ne hj

theorem headChanged_heads_length {n : Nat} : (headChanged k n s).heads.length = s.heads.length := by
  unfold headChanged exitCause
  have hexit : ∀ u : State, (caveExit k 1 n u).heads.length = u.heads.length := fun u => by
    unfold caveExit
    dsimp only
    split
    · rfl
    · split
      · simp [modCave, modHead, upd]
      · split
        · simp [modCave, modHead, upd]
        · rfl
      · rfl
  have hcave : (modCave k (fun v => { v with latest := max v.latest n }) s).heads.length = s.heads.length := by
    simp [modCave, modHead, upd]
  split
  · have hheads : ∀ u : State, (leaveP2 u).heads = u.heads := fun u => within_leaveP2_served .heads (by decide)
    rw [hheads, hexit, hcave]
  · rw [hexit, hcave]

/-- Outside Cave hold a change is only noted. -/
theorem headChanged_off {n : Nat} (h : (headOf s k).cave.state = .off) :
    headChanged k n s = modCave k (fun v => { v with latest := max v.latest n }) s := by
  have hstate : (headOf (modCave k (fun v => { v with latest := max v.latest n }) s) k).cave.state = .off :=
    (headOf_modHead_field (f := fun h => { h with cave := { h.cave with latest := max h.cave.latest n } })
      (g := fun h : Head => h.cave.state) fun _ => rfl).trans h
  unfold headChanged exitCause caveExit
  simp only [hstate]
  split
  · next hhold => cases hhold
  · split <;> rfl

/-! ### HEAD_RELEASE -/

variable {dt : Nat} {d : Desc}

theorem exec_headRelease_accepted (h : Runs (.headRelease dt d) s) :
    exec (.headRelease dt d) s = .next (headReleaseAct d.trunc (begun d d.trunc (tick dt s))) :=
  congrArg Host.Outcome.next (runDesc_accepted h)

theorem begun_headOf {e : Desc} : headOf (begun d e (tick dt s)) k = headOf s k := within_tick_begun.headOf (by decide) k

/-- The head that an accepted descriptor names is configured. -/
theorem headBad_configured {i : Nat} (h : headBad i d s = none) : configured s (d.p8 i) = true := by
  simp only [headBad, badField, Option.map_eq_none_iff, List.find?_eq_none, List.mem_singleton, forall_eq, Bool.or_eq_true,
    not_or] at h
  simpa using h.2

/-- A change of a head by a descriptor: the head, and the power state and self-refresh that an exit from Cave hold wakes. -/
theorem woken_frame {b : State} (hb : Within (clockParts ++ replyParts) s b) (h : Within [.heads, .pstate, .selfRef] b t) :
    t = { b with heads := t.heads, power := { s.power with state := t.power.state },
                 hbm := { s.hbm with selfRef := t.hbm.selfRef } } := by
  have hpower : b.power = s.power := hb.apply State.power rfl
  have hhbm : b.hbm = s.hbm := hb.apply State.hbm rfl
  rw [← hpower, ← hhbm]
  exact within_eq h

theorem begun_woken {b : State} (hb : Within (clockParts ++ replyParts) s b) (h : s.power.state = .p2 → s.hbm.host = []) :
    b.power.state = .p2 → b.hbm.host = [] := fun hp => by
  rw [hb.hbm_field (f := fun x : Hbm => x.host) (by decide) fun _ => rfl]
  exact h ((hb .pstate (by decide)).symm.trans hp)

theorem headReleaseAct_first (h : (headOf s (d.p8 16)).pipe.releasing = none) :
    ∃ n, headReleaseAct d s = modPipe (d.p8 16) (fun p => { p with releasing := some (d, n) }) (headChanged (d.p8 16) d.t s) ∧
      (headOf s (d.p8 16)).pipe.meets d.t ≤ n := by
  have hpipe : (headOf (headChanged (d.p8 16) d.t s) (d.p8 16)).pipe = (headOf s (d.p8 16)).pipe :=
    headOf_headChanged_field fun _ _ => rfl
  refine ⟨_, if_neg (by simp [h]), ?_⟩
  rw [hpipe]
  split
  · exact le_max_left _ _
  · exact le_rfl

theorem headReleaseAct_second (h : (headOf s (d.p8 16)).pipe.releasing ≠ none) :
    headReleaseAct d s = complete d 0x984 (u8 (d.p8 16)) s := if_pos (Option.isSome_iff_ne_none.2 h)

theorem headRelease_sets (hrun : Runs (.headRelease dt d) s) (hfirst : (headOf s (d.trunc.p8 16)).pipe.releasing = none) :
    ∃ t n, exec (.headRelease dt d) s = .next t ∧
      (headOf t (d.trunc.p8 16)).pipe = { (headOf s (d.trunc.p8 16)).pipe with releasing := some (d.trunc, n) } ∧
      (headOf s (d.trunc.p8 16)).pipe.meets d.t ≤ n ∧ (∀ j, j ≠ d.trunc.p8 16 → headOf t j = headOf s j) ∧
      ((s.power.state = .p2 → s.hbm.host = []) → t = { begun d d.trunc (tick dt s) with
        heads := t.heads, power := { s.power with state := t.power.state }, hbm := { s.hbm with selfRef := t.hbm.selfRef } }) := by
  have hb : Within (clockParts ++ replyParts) s (begun d d.trunc (tick dt s)) := within_tick_begun
  obtain ⟨n, hact, hmeets⟩ := headReleaseAct_first (d := d.trunc) (s := begun d d.trunc (tick dt s)) (by rw [begun_headOf, hfirst])
  rw [begun_headOf] at hmeets
  have hlen : d.trunc.p8 16 < (headChanged (d.trunc.p8 16) d.trunc.t (begun d d.trunc (tick dt s))).heads.length := by
    rw [headChanged_heads_length]
    exact lt_of_configured (headBad_configured (accepted_bad hrun))
  refine ⟨_, n, (exec_headRelease_accepted hrun).trans (congrArg Host.Outcome.next hact), ?_, hmeets, fun j hj => ?_,
    fun hhost => ?_⟩
  · rw [modPipe, headOf_modHead_same hlen]
    dsimp only
    rw [headOf_headChanged_field (g := fun h : Head => h.pipe) fun _ _ => rfl, begun_headOf]
  · rw [modPipe, headOf_modHead_ne hj, headOf_headChanged_ne hj, begun_headOf]
  · refine woken_frame hb ?_
    exact (within_trans (within_headChanged (begun_woken hb hhost)) within_modPipe).mono (by decide)

/-! ### HEAD_CONFIG -/

theorem within_putItem {kind : ItemKind} {units : List (Nat × Nat)} : Within [.items] s (putItem kind d units s) :=
  within_of_eq rfl (by decide)

theorem within_startHead {c : HeadCfg} {forms : List Nat} : Within [.items, .heads] s (startHead d k c forms s) :=
  within_trans within_putItem within_modHead

/-- A head that starts has its configuration, no layer and no frame yet. -/
theorem headOf_startHead_same {c : HeadCfg} {forms : List Nat} (h : k < s.heads.length) :
    (headOf (startHead d k c forms s) k).pipe.cfg = some c ∧ (headOf (startHead d k c forms s) k).pipe.layers = [] ∧
      (headOf (startHead d k c forms s) k).pipe.count = 0 := by
  have hput : k < (putItem (.head k) d (headUnits s k c) s).heads.length := by rwa [putItem_heads]
  rw [startHead, headOf_modHead_same hput]
  exact ⟨rfl, rfl, rfl⟩

theorem headOf_startHead_ne {c : HeadCfg} {forms : List Nat} (h : j ≠ k) : headOf (startHead d k c forms s) j = headOf s j :=
  headOf_modHead_ne h

theorem configureNew_power {c : HeadCfg} {b : List Byte} {forms : List Nat} :
    (configureNew d k c b forms s).power = s.power := by
  cases hroom : shortage s (.head k) (headUnits s k c) with
  | none =>
    have hpower := onlyReply_power (configureNew_admitted (d := d) (b := b) (forms := forms) hroom)
    exact hpower
  | some n =>
    simp only [configureNew, hroom]
    exact onlyReply_power onlyReply_complete

/-- HEAD_CONFIG of a head that is not configured, past its checks. -/
theorem exec_headConfig_new {x : List Byte} : let b := begun d d (tick dt s); let blk := resolveBlock b (padTo 128 x)
    let k := fieldOf blk 0 1; let c := blockCfg blk
    Runs (.headConfig dt d (.data x)) s → d.length = 128 → d.fwd = none → blockBad blk = none →
    c.comp.any (compBad b k c) = false → vitrineRefuses b k c = none → (headOf s k).pipe.cfg = none →
    resourceRefused b k c = none → s.power.bootStage < 3 →
    exec (.headConfig dt d (.data x)) s = .next (configureNew d k c blk (formsOf (padTo 128 x)) b) := by
  intro b blk k c hrun hlen hfwd hblock hcomp hvit hnew hres hstage
  have hb : OnlyReply s b := onlyReply_tick_begun
  obtain ⟨p, hgo⟩ := headConfigGo_new (d := d) (s := b) hblock hcomp hvit (by rw [onlyReply_headOf hb, hnew]) hres
  rw [exec_headConfig_accepted hrun, headConfigAct_data hlen hfwd, hgo, bootShed_below]
  rwa [configureNew_power, onlyReply_power hb]

/-- Settles O33. -/
theorem headsAreConfiguredAndReleased : Obligations.HeadsAreConfiguredAndReleased := by
  intro dt d s
  refine ⟨?_, fun hrun => ⟨headRelease_sets hrun, fun hsecond => ?_⟩⟩
  · intro x b blk k c hrun hlen hfwd hblock hcomp hvit hnew hk hres hstage
    have hexec := exec_headConfig_new hrun hlen hfwd hblock hcomp hvit hnew hres hstage
    have hb : Within (clockParts ++ replyParts) s b := within_tick_begun
    have hbk : k < b.heads.length := by rwa [hb .heads (by decide)]
    refine ⟨fun hroom => ?_, fun n hn => ?_⟩
    · have hreply := configureNew_admitted (d := d) (b := blk) (forms := formsOf (padTo 128 x)) hroom
      obtain ⟨hcfg, hlayers, hcount⟩ := headOf_startHead_same (d := d) (forms := formsOf (padTo 128 x))
        (c := { c with anchor := anchorFor c b.now, f0 := [c.anchor, anchorFor c b.now] }) hbk
      have hnow : b.now = (tick dt s).now := within_begun .now (by decide)
      refine ⟨_, hexec, ?_, ?_, ?_, fun j hj => ?_, ?_⟩
      · rw [onlyReply_headOf hreply, hcfg, hnow]
      · rw [onlyReply_headOf hreply, hlayers]
      · rw [onlyReply_headOf hreply, hcount]
      · rw [onlyReply_headOf hreply, headOf_startHead_ne hj, begun_headOf]
      · refine onlyReply_patch (m := [.heads, .items]) ?_ (by decide)
        exact (within_trans (within_trans hb within_startHead) (within_of_reply hreply)).mono (by decide)
    · rw [hexec, configureNew, hn]
  · rw [exec_headRelease_accepted hrun, headReleaseAct_second (by rw [begun_headOf]; exact hsecond)]

end Sys2Proof.Machine
end

section
/-!
PROOFS. CAVE_ENTER and CAVE_EXIT (R320 to R324).
-/

namespace Sys2Proof.Machine
variable {s t : State} {dt k : Nat} {d : Desc}

theorem exec_caveEnter_accepted (h : Runs (.caveEnter dt d) s) :
    exec (.caveEnter dt d) s = .next (caveEnterAct d.trunc (begun d d.trunc (tick dt s))) :=
  congrArg Host.Outcome.next (runDesc_accepted h)

theorem exec_caveExit_accepted (h : Runs (.caveExit dt d) s) :
    exec (.caveExit dt d) s = .next (caveExitAct d.trunc (begun d d.trunc (tick dt s))) :=
  congrArg Host.Outcome.next (runDesc_accepted h)

theorem begun_holdRefused {e : Desc} {p2 : Bool} : holdRefused (begun d e (tick dt s)) k p2 = holdRefused s k p2 :=
  within_tick_begun.apply (holdRefused · k p2) rfl

theorem begun_caveRefused {e : Desc} : caveRefused (begun d e (tick dt s)) k = caveRefused s k :=
  within_tick_begun.apply (caveRefused · k) rfl

/-! ### CAVE_ENTER -/

theorem caveEnterAct_enter (hmode : d.p8 17 = 0) : caveEnterAct d s = (holdRefused s (d.p8 16) false).elim
    (modCave (d.p8 16) (fun v => { v with request := some d.t, desc := some d }) s)
    fun r => complete d 0xD80 (u8 r.1 ++ u8 r.2) s := by
  unfold caveEnterAct
  simp only [hmode]
  cases holdRefused s (d.p8 16) false <;> rfl

theorem caveEnterAct_arm (hmode : d.p8 17 = 1) (h : caveRefused s (d.p8 16) = none) :
    caveEnterAct d s = complete d 0 [] (modCave (d.p8 16) (fun v => { v with armed := d.p16 18 }) s) := by
  unfold caveEnterAct
  simp only [hmode, h]

theorem caveEnterAct_disarm (hmode : d.p8 17 = 2) :
    caveEnterAct d s = complete d 0 [] (modCave (d.p8 16) (fun v => { v with armed := 0 }) s) := by
  unfold caveEnterAct
  simp only [hmode]

/-- A descriptor that only sets a value of its head's Cave state and completes. -/
theorem cave_set {f : Cave → Cave} {x : Desc} (hexec : exec (.caveEnter dt d) s =
    .next (complete x 0 [] (modCave k f (begun d x (tick dt s))))) : ∃ t, exec (.caveEnter dt d) s = .next t ∧
      t.heads = upd s.heads k (fun h => { h with cave := f h.cave }) ∧ OnlyReply { s with heads := t.heads } t := by
  have hb : Within (clockParts ++ replyParts) s (begun d x (tick dt s)) := within_tick_begun
  refine ⟨_, hexec, ?_, ?_⟩
  · refine (within_complete .heads (by decide)).trans ?_
    show upd (begun d x (tick dt s)).heads k _ = _
    rw [hb .heads (by decide)]
  · refine onlyReply_patch (m := [.heads]) ?_ (by decide)
    exact (within_trans (within_trans hb within_modCave) within_complete).mono (by decide)

/-! ### CAVE_EXIT -/

/-- In HOLD the exit leaves towards the first live frame. -/
theorem caveExit_hold {c : HeadCfg} {cause n : Nat} (hcfg : (headOf s k).pipe.cfg = some c) (hhold : (headOf s k).cave.state = .hold) :
    caveExit k cause n s = modCave k (fun v => { v with
      state := .leaving, exitAt := n, cause := cause,
      live := (headOf s k).pipe.firstCse (max (n + c.periods 1) s.now) }) s := by
  unfold caveExit
  simp only [hcfg, hhold]

theorem leaveP2_pstate (h : s.power.state = .p2) : (leaveP2 s).power.state = .p0 := by
  unfold leaveP2
  dsimp only
  rw [if_pos h]
  split
  · rfl
  · exact (within_forEach fun x u => within_serveBar4 : Within _ _ (forEach _ serveBar4 _)) .pstate (by decide)

theorem leaveP2_selfRef (h : s.power.state = .p2) (hmove : s.hbm.moving = none) : (leaveP2 s).hbm.selfRef = false := by
  unfold leaveP2
  dsimp only
  rw [if_pos h, hmove]
  exact (within_forEach fun x u => within_serveBar4 : Within _ _ (forEach _ serveBar4 _)) .selfRef (by decide)

theorem caveExitAct_hold (h : (headOf s (d.p8 16)).cave.state = .hold) : caveExitAct d s =
    modCave (d.p8 16) (fun v => { v with exits := v.exits ++ [d] }) (leaveP2 (caveExit (d.p8 16) 1 d.t s)) := by
  unfold caveExitAct
  simp only [h]

theorem caveExitAct_off (h : (headOf s (d.p8 16)).cave.state = .off) : caveExitAct d s = complete d 0xD86 (u8 (d.p8 16)) s := by
  unfold caveExitAct
  simp only [h]

theorem headOf_leaveP2 : headOf (leaveP2 s) k = headOf s k := within_leaveP2_served.headOf (by decide) k

/-- The head after an exit from HOLD that a descriptor waits for. -/
theorem headOf_caveExitAct {c : HeadCfg} (hcfg : (headOf s (d.p8 16)).pipe.cfg = some c)
    (hhold : (headOf s (d.p8 16)).cave.state = .hold) : headOf (caveExitAct d s) (d.p8 16) = { headOf s (d.p8 16) with
      cave := { (headOf s (d.p8 16)).cave with
        state := .leaving, exitAt := d.t, cause := 1, exits := (headOf s (d.p8 16)).cave.exits ++ [d]
        live := (headOf s (d.p8 16)).pipe.firstCse (max (d.t + c.periods 1) s.now) } } := by
  have hlen : d.p8 16 < s.heads.length := lt_of_configured (by simp [configured, hcfg])
  have hheads : ∀ u : State, (leaveP2 u).heads = u.heads := fun u => within_leaveP2_served .heads (by decide)
  rw [caveExitAct_hold hhold, modCave, headOf_modHead_same (by rw [hheads, caveExit_hold hcfg hhold]; simpa [modCave, modHead, upd]),
    headOf_leaveP2, caveExit_hold hcfg hhold, modCave, headOf_modHead_same hlen]

theorem headOf_caveExitAct_ne {j : Nat} (hj : j ≠ d.p8 16) (hhold : (headOf s (d.p8 16)).cave.state = .hold) :
    headOf (caveExitAct d s) j = headOf s j := by
  rw [caveExitAct_hold hhold, modCave, headOf_modHead_ne hj, headOf_leaveP2, headOf_caveExit_ne hj]

/-- Settles O43. -/
theorem caveHoldIsEnteredAndLeft : Obligations.CaveHoldIsEnteredAndLeft := by
  intro dt d s x k b
  refine ⟨fun hrun => ⟨fun hmode hfree => ?_, fun hmode r hr => ?_, fun hmode hfree => ?_, fun hmode => ?_⟩,
    fun hrun => ⟨fun hoff => ?_, fun hhold => ?_⟩⟩
  · have hact := caveEnterAct_enter (d := d.trunc) (s := b) hmode
    rw [begun_holdRefused, hfree, Option.elim_none] at hact
    exact (exec_caveEnter_accepted hrun).trans (congrArg Host.Outcome.next hact)
  · have hact := caveEnterAct_enter (d := d.trunc) (s := b) hmode
    rw [begun_holdRefused, hr, Option.elim_some] at hact
    exact (exec_caveEnter_accepted hrun).trans (congrArg Host.Outcome.next hact)
  · have hact := caveEnterAct_arm (d := d.trunc) (s := b) hmode (by rw [begun_caveRefused]; exact hfree)
    exact cave_set ((exec_caveEnter_accepted hrun).trans (congrArg Host.Outcome.next hact))
  · have hact := caveEnterAct_disarm (d := d.trunc) (s := b) hmode
    exact cave_set ((exec_caveEnter_accepted hrun).trans (congrArg Host.Outcome.next hact))
  · have hact := caveExitAct_off (d := d.trunc) (s := b) (by rw [begun_headOf]; exact hoff)
    exact (exec_caveExit_accepted hrun).trans (congrArg Host.Outcome.next hact)
  · have hb : Within (clockParts ++ replyParts) s b := within_tick_begun
    have hhead : headOf b k = headOf s k := begun_headOf
    obtain ⟨c, hcfg⟩ : ∃ c, (headOf b k).pipe.cfg = some c :=
      Option.isSome_iff_exists.1 (headBad_configured (accepted_bad hrun))
    have hbhold : (headOf b k).cave.state = .hold := by rw [hhead]; exact hhold
    have hact := headOf_caveExitAct hcfg hbhold
    have hexit : Within [.heads] b (caveExit k 1 x.t b) := within_caveExit
    have hmod : Within [.heads] (leaveP2 (caveExit k 1 x.t b)) (caveExitAct x b) := by
      rw [caveExitAct_hold hbhold]
      exact within_modCave
    refine ⟨_, exec_caveExit_accepted hrun, ?_, ?_, ?_, ?_, ?_, fun hp2 => ⟨?_, fun hmove => ?_⟩, fun j hj => ?_, fun hhost => ?_⟩
    · rw [hact]
    · rw [hact]
    · rw [hact]
    · rw [hact, hhead]
    · rw [hact, hhead]
    · rw [hmod .pstate (by decide)]
      exact leaveP2_pstate ((hexit .pstate (by decide)).trans ((hb .pstate (by decide)).trans hp2))
    · rw [hmod .selfRef (by decide)]
      refine leaveP2_selfRef ((hexit .pstate (by decide)).trans ((hb .pstate (by decide)).trans hp2)) ?_
      exact (hexit.hbm_field (f := fun h : Hbm => h.moving) (by decide) fun _ => rfl).trans
        ((hb.hbm_field (f := fun h : Hbm => h.moving) (by decide) fun _ => rfl).trans hmove)
    · exact (headOf_caveExitAct_ne hj hbhold).trans begun_headOf
    · refine woken_frame hb ((within_trans (within_trans hexit (within_leaveP2 fun hp => ?_)) hmod).mono (by decide))
      rw [hexit.hbm_field (f := fun h : Hbm => h.host) (by decide) fun _ => rfl]
      exact begun_woken hb hhost ((hexit .pstate (by decide)).symm.trans hp)

end Sys2Proof.Machine
end

section
/-!
PROOFS. Catum Link packets on the wire (R504, R508): a packet within its fields' widths is read back as it was sent, and one that
arrives without fault rules reaches its destination.
-/

namespace Sys2Proof.Machine
variable {s t : State} {port : Nat} {p : CatPkt}

/-! ### Little-endian fields -/

@[simp] theorem leBytes_length (n v : Nat) : (leBytes n v).length = n := by
  induction n generalizing v with
  | zero => rfl
  | succ n ih => simp [leBytes, ih]

theorem leNat_leBytes (n v : Nat) : leNat (leBytes n v) = v % 256 ^ n := by
  induction n generalizing v with
  | zero => simp [leBytes, leNat, Nat.mod_one]
  | succ n ih =>
    have hbyte : (BitVec.ofNat 8 v).toNat = v % 256 := by simp
    rw [leBytes, leNat, ih, hbyte, pow_succ, mul_comm (256 ^ n), Nat.mod_mul]

/-- A field that stands whole between what comes before and after it. -/
theorem fieldOf_append (l m r : List Byte) : fieldOf (l ++ (m ++ r)) l.length m.length = leNat m := by
  simp [fieldOf, slice, padTo]

theorem fieldOf_leBytes {l r : List Byte} {i n v : Nat} (hi : l.length = i) (hv : v < 256 ^ n) :
    fieldOf (l ++ (leBytes n v ++ r)) i n = v := by
  subst hi
  have hfield := fieldOf_append l (leBytes n v) r
  rw [leBytes_length, leNat_leBytes, Nat.mod_eq_of_lt hv] at hfield
  exact hfield

/-! ### CRC-32 -/

theorem crc32Bit_lt {c : Nat} (h : c < 2 ^ 32) : crc32Bit c < 2 ^ 32 := by
  unfold crc32Bit
  split
  · exact Nat.xor_lt_two_pow (by omega) (by norm_num)
  · omega

theorem crc32Over_lt {c : Nat} {l : List Byte} (h : c < 2 ^ 32) : crc32Over c l < 2 ^ 32 := by
  have hbits : ∀ (r : List Nat) (c : Nat), c < 2 ^ 32 → r.foldl (fun c _ => crc32Bit c) c < 2 ^ 32 := by
    intro r
    induction r with
    | nil => exact fun _ hc => hc
    | cons _ r ih => exact fun c hc => ih _ (crc32Bit_lt hc)
  unfold crc32Over
  induction l generalizing c with
  | nil => exact h
  | cons b l ih =>
    have hb : b.toNat < 2 ^ 32 := lt_trans b.isLt (by norm_num)
    exact ih (hbits _ _ (Nat.xor_lt_two_pow h hb))

theorem crc32_lt (l : List Byte) : crc32 l < 2 ^ 32 := Nat.xor_lt_two_pow (by norm_num) (crc32Over_lt (by norm_num))

/-! ### Packets in bytes -/

/-- The fields of a packet fit the bytes they take. -/
def Fits (p : CatPkt) : Prop :=
  p.type_ < 256 ∧ p.vc < 256 ∧ p.dest < 65536 ∧ p.src < 65536 ∧ p.hops < 256 ∧ p.lsn < 65536 ∧ p.tag < 2 ^ 32 ∧
    p.payload.length < 65536

/-- The bytes of a packet before its CRC. -/
def catBody (p : CatPkt) : List Byte :=
  u8 p.type_ ++ u8 p.vc ++ u16 p.payload.length ++ u16 p.dest ++ u16 p.src ++ u8 p.hops ++ u8 0 ++ u16 p.lsn ++
    u32 p.tag ++ p.payload

theorem bytes_eq_body : p.bytes = catBody p ++ u32 (crc32 (catBody p)) := rfl

theorem catBody_length : (catBody p).length = 16 + p.payload.length := by
  simp only [catBody, List.length_append, u8, u16, u32, leBytes_length]

theorem bytes_length : p.bytes.length = 20 + p.payload.length := by
  rw [bytes_eq_body, List.length_append, catBody_length, u32, leBytes_length]
  omega

/-- A field of the header stands at its offset. -/
theorem fieldOf_bytes {l r : List Byte} {i n v : Nat} (h : p.bytes = l ++ (leBytes n v ++ r)) (hi : l.length = i)
    (hv : v < 256 ^ n) : fieldOf p.bytes i n = v := by
  rw [h]
  exact fieldOf_leBytes hi hv

/-- What follows the header. -/
def catTail (p : CatPkt) : List Byte := p.payload ++ u32 (crc32 (catBody p))

theorem zeroAt_bytes : zeroAt p.bytes 9 1 = true := by
  have hfield : fieldOf p.bytes 9 1 = 0 :=
    fieldOf_bytes (l := u8 p.type_ ++ u8 p.vc ++ u16 p.payload.length ++ u16 p.dest ++ u16 p.src ++ u8 p.hops)
      (r := u16 p.lsn ++ u32 p.tag ++ catTail p) rfl rfl (by norm_num)
  simp [zeroAt, hfield]

/-- A packet is read back as it was sent. -/
theorem catParse_bytes (h : Fits p) : catParse p.bytes = some p := by
  obtain ⟨htype, hvc, hdest, hsrc, hhops, hlsn, htag, hlen⟩ := h
  have h0 : fieldOf p.bytes 0 1 = p.type_ :=
    fieldOf_bytes (l := []) (r := u8 p.vc ++ u16 p.payload.length ++ u16 p.dest ++ u16 p.src ++ u8 p.hops ++ u8 0 ++
      u16 p.lsn ++ u32 p.tag ++ catTail p) rfl rfl htype
  have h1 : fieldOf p.bytes 1 1 = p.vc :=
    fieldOf_bytes (l := u8 p.type_) (r := u16 p.payload.length ++ u16 p.dest ++ u16 p.src ++ u8 p.hops ++ u8 0 ++
      u16 p.lsn ++ u32 p.tag ++ catTail p) rfl rfl hvc
  have h2 : fieldOf p.bytes 2 2 = p.payload.length :=
    fieldOf_bytes (l := u8 p.type_ ++ u8 p.vc) (r := u16 p.dest ++ u16 p.src ++ u8 p.hops ++ u8 0 ++
      u16 p.lsn ++ u32 p.tag ++ catTail p) rfl rfl hlen
  have h4 : fieldOf p.bytes 4 2 = p.dest :=
    fieldOf_bytes (l := u8 p.type_ ++ u8 p.vc ++ u16 p.payload.length) (r := u16 p.src ++ u8 p.hops ++ u8 0 ++
      u16 p.lsn ++ u32 p.tag ++ catTail p) rfl rfl hdest
  have h6 : fieldOf p.bytes 6 2 = p.src :=
    fieldOf_bytes (l := u8 p.type_ ++ u8 p.vc ++ u16 p.payload.length ++ u16 p.dest) (r := u8 p.hops ++ u8 0 ++
      u16 p.lsn ++ u32 p.tag ++ catTail p) rfl rfl hsrc
  have h8 : fieldOf p.bytes 8 1 = p.hops :=
    fieldOf_bytes (l := u8 p.type_ ++ u8 p.vc ++ u16 p.payload.length ++ u16 p.dest ++ u16 p.src) (r := u8 0 ++
      u16 p.lsn ++ u32 p.tag ++ catTail p) rfl rfl hhops
  have h10 : fieldOf p.bytes 10 2 = p.lsn :=
    fieldOf_bytes (l := u8 p.type_ ++ u8 p.vc ++ u16 p.payload.length ++ u16 p.dest ++ u16 p.src ++ u8 p.hops ++ u8 0)
      (r := u32 p.tag ++ catTail p) rfl rfl hlsn
  have h12 : fieldOf p.bytes 12 4 = p.tag :=
    fieldOf_bytes (l := u8 p.type_ ++ u8 p.vc ++ u16 p.payload.length ++ u16 p.dest ++ u16 p.src ++ u8 p.hops ++ u8 0 ++
      u16 p.lsn) (r := catTail p) rfl rfl htag
  have hcrc : fieldOf p.bytes (p.bytes.length - 4) 4 = crc32 (catBody p) :=
    fieldOf_bytes (l := catBody p) (r := []) (by rw [bytes_eq_body, List.append_nil]; rfl)
      (by rw [bytes_length, catBody_length]; omega) (crc32_lt _)
  have htake : p.bytes.take (p.bytes.length - 4) = catBody p := by
    have hn : p.bytes.length - 4 = (catBody p).length := by rw [bytes_length, catBody_length]; omega
    rw [hn, bytes_eq_body, List.take_left']
    rfl
  have hpay : (p.bytes.drop 16).take (p.bytes.length - 20) = p.payload := by
    have hn : p.bytes.length - 20 = p.payload.length := by rw [bytes_length]; omega
    have hdrop : p.bytes.drop 16 = catTail p := rfl
    rw [hn, hdrop, catTail, List.take_left']
    rfl
  have hsize : p.bytes.length - 20 = p.payload.length := by rw [bytes_length]; omega
  unfold catParse
  dsimp only
  rw [if_neg, h0, h1, h4, h6, h8, h10, h12, hpay]
  rw [h2, hcrc, htake, hsize, bytes_length]
  simp

/-! ### Arrival -/

/-- A good packet fits, its length by its TYPE. -/
theorem fits_of_good (h : catGood p = true) (hhops : p.hops < 256) (hlsn : p.lsn < 65536) (htag : p.tag < 2 ^ 32) : Fits p := by
  simp only [catGood, Bool.and_eq_true, decide_eq_true_eq] at h
  obtain ⟨⟨⟨⟨⟨⟨htype, hvc⟩, hdest⟩, hsrc⟩, -⟩, hlen⟩, -⟩ := h
  have hlen' : p.payload.length ≤ 512 := by
    unfold catLength at hlen
    split at hlen <;> simp at hlen <;> omega
  exact ⟨by omega, by omega, by omega, by omega, hhops, hlsn, htag, by omega⟩

/-- Without fault rules a packet reaches the port's checks as it was sent. -/
theorem catArrive_none {deliver : Nat → CatPkt → State → State} {buf : DmaBuf} (h : NoFaults s) (hfits : Fits p)
    (hstate : (catOf s port).state = .ready ∨ (catOf s port).state = .ident) :
    catArrive deliver port p buf s = catLink deliver port p s := by
  have hopen : ((catOf s port).state != .ready && (catOf s port).state != .ident) = false := by
    rcases hstate with hst | hst <;> simp [hst]
  have hsame : corrupt clearFate p.bytes = p.bytes := rfl
  unfold catArrive
  simp only [hopen, Bool.false_eq_true, if_false, meetFaults_none h, hsame, throughPoint_none h]
  simp only [catBytes, hopen, Bool.false_eq_true, if_false, catParse_bytes hfits, zeroAt_bytes, if_true]

theorem within_checkLead : Within [.catum] s (checkLead s) :=
  within_ite (within_of_eq rfl (by decide)) (within_of_eq rfl (by decide))

theorem within_catLearn {dev : Nat} : Within [.catum] s (catLearn port dev s) := within_of_eq rfl (by decide)

theorem within_taken : Within [.catum, .catPorts] s (taken port p s) :=
  (within_trans (within_trans (within_of_eq (m := [.catPorts]) rfl (by decide)) within_catLearn) within_checkLead).mono (by decide)

/-- Fields of the registers are told by the registers. -/
theorem regField_eq {key lo n : Nat} (h : t.regs = s.regs) : regField t key lo n = regField s key lo n := by
  rw [regField, regField, rawReg, rawReg, h]

theorem taken_regs : (taken port p s).regs = s.regs := within_taken .causes (by decide)

theorem catDevice_taken : catDevice (taken port p s) = catDevice s := regField_eq taken_regs

theorem catRole_taken : catRole (taken port p s) = catRole s := by
  rw [catRole, catRole, regField_eq taken_regs]

/-- A packet for this module in its turn is taken and acts. -/
theorem catArrive_arrives {deliver : Nat → CatPkt → State → State} {buf : DmaBuf} (h : Arrives port p s) :
    catArrive deliver port p buf s = deliver port p (taken port p s) := by
  obtain ⟨hfaults, hready, hgood, htype, hhops, hlsn, hturn, htag, hsrc, hdest⟩ := h
  rw [catArrive_none hfaults (fits_of_good hgood hhops hlsn htag) (Or.inl hready)]
  unfold catLink
  simp only [hready, htype, hturn, ne_eq, not_true_eq_false, if_false, reduceCtorEq]
  unfold catAccept
  refine (if_neg hsrc).trans ?_
  rw [hgood]
  exact if_pos (hdest.trans catDevice_taken.symm)

theorem catPacket_arrives {dt : Nat} {buf : DmaBuf} (h : Arrives port p s) :
    catPacket p.type_ dt port p buf s = catDeliver clearRules buf port p (taken port p (tick dt s)) := by
  unfold catPacket
  rw [if_pos rfl]
  exact catArrive_arrives (s := tick dt s) h

end Sys2Proof.Machine
end

section
/-!
PROOFS. Frame lock (R521 to R523): FRAME_LOCK, the LOCK packets and their timers.
-/

namespace Sys2Proof.Machine
variable {s t : State} {m : List StatePart} {dt k j port : Nat} {d : Desc} {p : CatPkt}

/-! ### One lock -/

theorem within_modLock {f : FrameLock → FrameLock} : Within [.locks] s (modLock k f s) := within_of_eq rfl (by decide)

theorem Within.lockOf (h : Within m s t) (hm : .locks ∉ m) (j : Nat) : lockOf t j = lockOf s j :=
  congrArg (fun l : List FrameLock => l.getD j Reset.frameLock) (h .locks hm)

/-- What a change of a lock leaves of it, it leaves of every lock. -/
theorem lockOf_modLock_field {α : Type} {f : FrameLock → FrameLock} {g : FrameLock → α} (hg : ∀ l, g (f l) = g l) :
    g (lockOf (modLock k f s) j) = g (lockOf s j) := by
  by_cases hj : j = k
  · subst hj
    by_cases hlen : j < s.catum.locks.length
    · rw [lockOf_modLock_same hlen, hg]
    · have hout : s.catum.locks.modify j f = s.catum.locks := List.modify_eq_self (by omega)
      simp only [lockOf, modLock, upd, hout]
  · rw [lockOf_modLock_ne hj]

/-- A head with a part in a lock is one of the module's. -/
theorem lt_of_role (h : (lockOf s k).role ≠ 0) : k < s.catum.locks.length := by
  by_contra hk
  have hreset : lockOf s k = Reset.frameLock := by rw [lockOf, List.getD_eq_default _ _ (by omega)]
  rw [hreset] at h
  exact h rfl

/-- An announcement tells the head's timeline and the lock's number. -/
theorem lockPayload_eq (hheads : t.heads = s.heads) (hid : (lockOf t k).lockId = (lockOf s k).lockId) :
    lockPayload t k = lockPayload s k := by
  simp only [lockPayload, headOf, hheads, hid]

/-! ### Leaving a lock -/

/-- A lock that nobody waits for leaves no descriptor to complete. -/
theorem dropLockDesc_idle {l : FrameLock} (hreq : l.request = none) (hre : l.reanchor = none) : dropLockDesc k l s = s := by
  simp only [dropLockDesc, hreq, hre, Option.isSome_none, Bool.false_eq_true, if_false]
  rfl

theorem dropLock_idle {cause : Nat} (hreq : (lockOf s k).request = none) (hre : (lockOf s k).reanchor = none) :
    dropLock k cause s = let u := modLock k (fun _ => Reset.frameLock) s
      if (lockOf s k).role = 1 then forEach (lockOf s k).followers (fun dev => catSend 0x0E 1 dev 0
        (u16 (lockOf s k).lockId ++ u8 k ++ u8 2 ++ List.replicate 44 0)) u
      else if (lockOf s k).role = 2 then record 4 0x160A (u8 k ++ u8 cause) u else u := by
  unfold dropLock
  dsimp only
  rw [dropLockDesc_idle hreq hre]

theorem dropLock_follower {cause : Nat} (hreq : (lockOf s k).request = none) (hre : (lockOf s k).reanchor = none)
    (hrole : (lockOf s k).role = 2) :
    dropLock k cause s = record 4 0x160A (u8 k ++ u8 cause) (modLock k (fun _ => Reset.frameLock) s) := by
  rw [dropLock_idle hreq hre]
  exact (if_neg (by rw [hrole]; decide)).trans (if_pos hrole)

/-- A lock that is left tells its followers, or is recorded. -/
theorem within_dropLock {cause : Nat} (hreq : (lockOf s k).request = none) (hre : (lockOf s k).reanchor = none) :
    Within sendParts (modLock k (fun _ => Reset.frameLock) s) (dropLock k cause s) := by
  rw [dropLock_idle hreq hre]
  exact within_ite (within_forEach fun _ _ => within_catSend)
    (within_ite (Within.mono within_recordAt (by decide)) within_refl)

/-! ### FRAME_LOCK -/

theorem exec_frameLock_accepted (h : Runs (.frameLock dt d) s) :
    exec (.frameLock dt d) s = .next (frameLockAct d.trunc (begun d d.trunc (tick dt s))) :=
  congrArg Host.Outcome.next (runDesc_accepted h)

theorem begun_lockOf {e : Desc} : lockOf (begun d e (tick dt s)) k = lockOf s k := within_tick_begun.lockOf (by decide) k

theorem begun_lockBusy {e : Desc} {a id : Nat} : lockBusy (begun d e (tick dt s)) k a id = lockBusy s k a id := by
  simp only [lockBusy, begun_lockOf, begun_headOf]

/-- A lock that is not busy has no descriptor waiting for it. -/
theorem lockBusy_idle {a id : Nat} (h : lockBusy s k a id = false) : (lockOf s k).request = none ∧ (lockOf s k).reanchor = none := by
  simp only [lockBusy, Bool.or_eq_false_iff, Option.isSome_eq_false_iff, Option.isNone_iff_eq_none] at h
  obtain ⟨⟨⟨-, hreq⟩, hre⟩, -⟩ := h
  exact ⟨hreq, hre⟩

/-- The head that an accepted FRAME_LOCK names is one of the eight. -/
theorem frameLock_head (h : Runs (.frameLock dt d) s) : d.trunc.p8 16 < 8 := by
  have hbad := accepted_bad h
  simp only [frameLockBad, badField, Option.map_eq_none_iff, List.find?_eq_none, List.mem_cons] at hbad
  have hhead := hbad _ (Or.inl rfl)
  simp only [Bool.or_eq_true, decide_eq_true_eq, not_or] at hhead
  exact Nat.lt_succ_of_le (not_lt.1 hhead.1)

theorem frameLock_busy (hrun : Runs (.frameLock dt d) s) (h : lockBusy s (d.trunc.p8 16) (d.trunc.p8 17) (d.trunc.p16 18) = true) :
    exec (.frameLock dt d) s = .next (complete d.trunc 0x1686 (u8 (d.trunc.p8 16)) (begun d d.trunc (tick dt s))) := by
  rw [exec_frameLock_accepted hrun]
  exact congrArg Host.Outcome.next (if_pos (begun_lockBusy.trans h))

theorem frameLock_unlocks (hrun : Runs (.frameLock dt d) s) (hlen : s.catum.locks.length = 8)
    (h : lockBusy s (d.trunc.p8 16) (d.trunc.p8 17) (d.trunc.p16 18) = false) (ha : d.trunc.p8 17 = 0) :
    ∃ t, exec (.frameLock dt d) s = .next t ∧ lockOf t (d.trunc.p8 16) = Reset.frameLock ∧
      (∀ j, j ≠ d.trunc.p8 16 → lockOf t j = lockOf s j) ∧ OnlyReply { s with catum := t.catum } t := by
  have hhead := frameLock_head hrun
  have hexec := exec_frameLock_accepted hrun
  have hb : Within (clockParts ++ replyParts) s (begun d d.trunc (tick dt s)) := within_tick_begun
  have hbusy : lockBusy (begun d d.trunc (tick dt s)) (d.trunc.p8 16) (d.trunc.p8 17) (d.trunc.p16 18) = false :=
    begun_lockBusy.trans h
  have hlenb : (begun d d.trunc (tick dt s)).catum.locks.length = 8 := by rw [hb .locks (by decide), hlen]
  have hlock (j : Nat) : lockOf (begun d d.trunc (tick dt s)) j = lockOf s j := begun_lockOf
  generalize begun d d.trunc (tick dt s) = b at hexec hb hbusy hlenb hlock
  obtain ⟨hreq, hre⟩ := lockBusy_idle hbusy
  have hact : frameLockAct d.trunc b = complete d.trunc 0 [] (dropLock (d.trunc.p8 16) 3 b) := by
    rw [ha] at hbusy
    simp only [frameLockAct, ha, hbusy, Bool.false_eq_true, if_false]
  have hsent := (within_trans (within_dropLock hreq hre (cause := 3))
    (within_complete (d := d.trunc) (st := 0) (b := []))).mono (m' := replyParts) (by decide)
  refine ⟨_, hexec.trans (congrArg Host.Outcome.next hact), ?_, fun j hj => ?_, ?_⟩
  · exact (hsent.lockOf (by decide) _).trans (lockOf_modLock_same (by omega))
  · exact (hsent.lockOf (by decide) j).trans ((lockOf_modLock_ne hj).trans (hlock j))
  · exact onlyReply_patch (m := [.catPorts, .locks, .catum])
      ((within_trans (within_trans hb within_modLock) hsent).mono (by decide)) (by decide)

theorem frameLock_masters (hrun : Runs (.frameLock dt d) s)
    (h : lockBusy s (d.trunc.p8 16) (d.trunc.p8 17) (d.trunc.p16 18) = false) (ha : d.trunc.p8 17 = 1)
    (hrole : (lockOf s (d.trunc.p8 16)).role ≠ 2) :
    exec (.frameLock dt d) s = .next (complete d.trunc 0 [] (modLock (d.trunc.p8 16) (fun l => { l with
      role := 1, lockId := d.trunc.p16 18, degraded := s.time.state != .locked }) (begun d d.trunc (tick dt s)))) := by
  have hstate : (begun d d.trunc (tick dt s)).time.state = s.time.state :=
    within_tick_begun.time_field (f := fun x : Timebase => x.state) (by decide) fun _ => rfl
  have hbusy := begun_lockBusy (dt := dt) (d := d) (e := d.trunc).trans h
  have hroleb : (lockOf (begun d d.trunc (tick dt s)) (d.trunc.p8 16)).role ≠ 2 := by rwa [begun_lockOf]
  rw [exec_frameLock_accepted hrun]
  rw [ha] at hbusy
  simp only [frameLockAct, ha, hbusy, Bool.false_eq_true, if_false, if_neg hroleb, hstate]

theorem frameLock_asks (hrun : Runs (.frameLock dt d) s) (hlen : s.catum.locks.length = 8)
    (h : lockBusy s (d.trunc.p8 16) (d.trunc.p8 17) (d.trunc.p16 18) = false) (ha : d.trunc.p8 17 = 2) :
    ∃ t, exec (.frameLock dt d) s = .next t ∧ lockOf t (d.trunc.p8 16) = { lockOf s (d.trunc.p8 16) with
        request := some (d.trunc, d.trunc.p16 18, d.trunc.p16 20, d.trunc.p8 22, (tick dt s).now) } ∧
      t.catum.tag = (s.catum.tag + 1) % 2 ^ 32 ∧ (∀ j, j ≠ d.trunc.p8 16 → lockOf t j = lockOf s j) ∧
      t.host = (begun d d.trunc (tick dt s)).host ∧ OnlyReply { s with catum := t.catum } t := by
  have hhead := frameLock_head hrun
  have hexec := exec_frameLock_accepted hrun
  have hb : Within (clockParts ++ replyParts) s (begun d d.trunc (tick dt s)) := within_tick_begun
  have hbusy : lockBusy (begun d d.trunc (tick dt s)) (d.trunc.p8 16) (d.trunc.p8 17) (d.trunc.p16 18) = false :=
    begun_lockBusy.trans h
  have hlenb : (begun d d.trunc (tick dt s)).catum.locks.length = 8 := by rw [hb .locks (by decide), hlen]
  have hlock (j : Nat) : lockOf (begun d d.trunc (tick dt s)) j = lockOf s j := begun_lockOf
  have htag : (begun d d.trunc (tick dt s)).catum.tag = s.catum.tag :=
    hb.catum_field (f := fun x : Catum => x.tag) (by decide) fun _ => rfl
  have hnow : (begun d d.trunc (tick dt s)).now = (tick dt s).now := (within_begun (s := tick dt s)) .now (by decide)
  generalize begun d d.trunc (tick dt s) = b at hexec hb hbusy hlenb hlock htag hnow ⊢
  have hact : frameLockAct d.trunc b =
      askLock d.trunc (d.trunc.p8 16) (d.trunc.p16 18) (d.trunc.p16 20) (d.trunc.p8 22) b := by
    rw [ha] at hbusy
    simp only [frameLockAct, ha, hbusy, Bool.false_eq_true, if_false]
  have hsend {ty vc dest n : Nat} {l : List Byte} {u : State} : Within sendParts u (catSend ty vc dest n l u) := within_catSend
  refine ⟨_, hexec.trans (congrArg Host.Outcome.next hact), ?_, ?_, fun j hj => ?_, ?_, ?_⟩
  · rw [← hlock, ← hnow]
    exact (hsend.lockOf (by decide) _).trans (lockOf_modLock_same (s := { b with catum := { b.catum with
      tag := (b.catum.tag + 1) % 2 ^ 32 } }) (by rw [hlenb]; exact hhead))
  · rw [← htag]
    exact hsend.catum_field (f := fun x : Catum => x.tag) (by decide) fun _ => rfl
  · rw [← hlock]
    exact (hsend.lockOf (by decide) _).trans (lockOf_modLock_ne hj)
  · exact hsend.apply State.host rfl
  · exact onlyReply_patch (m := [.catPorts, .locks, .catum]) ((within_trans (within_trans hb
      (within_of_eq (m := [.locks, .catum]) rfl (by decide))) hsend).mono (by decide)) (by decide)

/-! ### LOCK packets -/

theorem forEach_cons {α : Type} {a : α} {l : List α} {f : α → State → State} : forEach (a :: l) f s = forEach l f (f a s) := rfl

theorem forEach_idle {α : Type} {l : List α} {f : α → State → State} (h : ∀ j ∈ l, f j s = s) : forEach l f s = s := by
  induction l with
  | nil => rfl
  | cons a l ih => rw [forEach_cons, h a List.mem_cons_self, ih fun j hj => h j (List.mem_cons_of_mem _ hj)]

/-- Of a walk over many only the step at `a` does something. -/
theorem forEach_single {α : Type} {a : α} {l : List α} {f : α → State → State} (hnodup : l.Nodup) (ha : a ∈ l)
    (hbefore : ∀ j ∈ l, j ≠ a → f j s = s) (hafter : ∀ j ∈ l, j ≠ a → f j (f a s) = f a s) : forEach l f s = f a s := by
  induction l with
  | nil => cases ha
  | cons b l ih =>
    obtain ⟨hb, hnodup⟩ := List.nodup_cons.1 hnodup
    rw [forEach_cons]
    rcases List.mem_cons.1 ha with rfl | ha
    · exact forEach_idle fun j hj => hafter j (List.mem_cons_of_mem _ hj) fun hja => hb (hja ▸ hj)
    · rw [hbefore b List.mem_cons_self fun hba => hb (hba ▸ ha)]
      exact ih hnodup ha (fun j hj => hbefore j (List.mem_cons_of_mem _ hj)) fun j hj => hafter j (List.mem_cons_of_mem _ hj)

theorem exec_catLockPacket (h : Arrives port p s) (htype : p.type_ = 14) :
    exec (.catLockPacket dt port p) s = .next (lockReceived p (taken port p (tick dt s))) := by
  have hpacket := catPacket_arrives (dt := dt) (buf := noBuf) h
  rw [htype] at hpacket
  refine congrArg Host.Outcome.next (hpacket.trans ?_)
  simp only [catDeliver, htype]

theorem within_tick_taken : Within (clockParts ++ [.catum, .catPorts]) s (taken port p (tick dt s)) :=
  within_trans within_tick within_taken

theorem taken_lockOf : lockOf (taken port p (tick dt s)) k = lockOf s k := within_tick_taken.lockOf (by decide) k

theorem taken_headOf : headOf (taken port p (tick dt s)) k = headOf s k := within_tick_taken.headOf (by decide) k

theorem taken_heads : (taken port p (tick dt s)).heads = s.heads := within_tick_taken .heads (by decide)

/-- A request joins the master's followers and is answered. -/
theorem lockReceived_request {head : Nat} (h0 : fieldOf p.payload 3 1 = 0) (hhead : fieldOf p.payload 2 1 = head)
    (hlt : head < 8) (hrole : (lockOf s head).role = 1) (hid : (lockOf s head).lockId = fieldOf p.payload 0 2)
    (hcfg : configured s head = true) :
    lockReceived p s = catSend 0x0E 1 p.src p.tag (lockPayload s head) (modLock head (fun l => { l with
      followers := if l.followers.contains p.src then l.followers else l.followers ++ [p.src] }) s) := by
  unfold lockReceived
  dsimp only
  rw [h0, hhead]
  refine (if_pos ⟨hlt, hrole, hid, hcfg⟩).trans ?_
  exact congrArg (fun l => catSend 0x0E 1 p.src p.tag l _)
    (lockPayload_eq rfl (lockOf_modLock_field (g := FrameLock.lockId) fun _ => rfl))

theorem lockReceived_stranger {head : Nat} (h0 : fieldOf p.payload 3 1 = 0) (hhead : fieldOf p.payload 2 1 = head)
    (hno : (lockOf s head).role ≠ 1 ∨ (lockOf s head).lockId ≠ fieldOf p.payload 0 2) : lockReceived p s = s := by
  unfold lockReceived
  dsimp only
  rw [h0, hhead]
  refine if_neg fun h => ?_
  obtain ⟨-, hrole, hid, -⟩ := h
  exact hno.elim (fun hn => hn hrole) fun hn => hn hid

/-- A follower that hears the rate it has keeps its frames. -/
theorem followChange_same {c : HeadCfg} {w : LockWord} (hword : (lockOf s k).word = some w) (hcfg : (headOf s k).pipe.cfg = some c)
    (hnow : w.changeAt = 0) (hrate : w.n * c.rateD = c.rateN * w.d) (hre : (lockOf s k).reanchor = none) : followChange k s = s := by
  unfold followChange
  simp only [hword, hcfg, hnow, hre, if_true]
  split
  · rfl
  · exact if_pos (Or.inr hrate)

/-- The heads but `k` follow nobody and wait for no master. -/
def OthersIdle (k : Nat) (s : State) : Prop := ∀ j < 8, j ≠ k → (lockOf s j).role ≠ 2 ∧ (lockOf s j).request = none

theorem hearLock_idle {src id head : Nat} {w : LockWord} (h : (lockOf s j).role ≠ 2 ∧ (lockOf s j).request = none) :
    hearLock src id head w j s = s := by
  unfold hearLock
  simp only [h.2]
  exact if_neg fun hm => h.1 hm.1

/-- An announcement of the master renews the follower's lock. -/
theorem hearLock_follower {src id head : Nat} {c : HeadCfg} {w : LockWord} (hk : k < s.catum.locks.length)
    (hrole : (lockOf s k).role = 2) (hid : (lockOf s k).lockId = id) (hdev : (lockOf s k).masterDev = src)
    (hhead : (lockOf s k).masterHead = head) (hreq : (lockOf s k).request = none) (hre : (lockOf s k).reanchor = none)
    (hcfg : (headOf s k).pipe.cfg = some c) (hnow : w.changeAt = 0) (hrate : w.n * c.rateD = c.rateN * w.d) :
    hearLock src id head w k s = modLock k (fun l => { l with heard := s.now, word := some w }) s := by
  unfold hearLock
  simp only [hreq]
  refine (if_pos ⟨hrole, hid, hdev, hhead⟩).trans (followChange_same (w := w) (c := c) ?_ hcfg hnow hrate ?_)
  · rw [lockOf_modLock_same hk]
  · rw [lockOf_modLock_same hk]
    exact hre

theorem othersIdle_modLock {f : FrameLock → FrameLock} (h : OthersIdle k s) : OthersIdle k (modLock k f s) := by
  intro j hj hne
  rw [lockOf_modLock_ne hne]
  exact h j hj hne

/-- Of the heads only the follower acts on an announcement. -/
theorem lockReceived_announced {c : HeadCfg} (h1 : fieldOf p.payload 3 1 = 1) (hk : k < 8) (hlen : s.catum.locks.length = 8)
    (hrole : (lockOf s k).role = 2) (hid : (lockOf s k).lockId = fieldOf p.payload 0 2) (hdev : (lockOf s k).masterDev = p.src)
    (hhead : (lockOf s k).masterHead = fieldOf p.payload 2 1) (hreq : (lockOf s k).request = none)
    (hre : (lockOf s k).reanchor = none) (hothers : OthersIdle k s)
    (hcfg : (headOf s k).pipe.cfg = some c) (hnow : (lockWord p.payload).changeAt = 0)
    (hrate : (lockWord p.payload).n * c.rateD = c.rateN * (lockWord p.payload).d) :
    lockReceived p s = modLock k (fun l => { l with heard := s.now, word := some (lockWord p.payload) }) s := by
  have hear := hearLock_follower (w := lockWord p.payload) (by omega) hrole hid hdev hhead hreq hre hcfg hnow hrate
  unfold lockReceived
  dsimp only
  rw [h1]
  refine (forEach_single List.nodup_range (List.mem_range.2 hk) (fun j hj hne => ?_) fun j hj hne => ?_).trans hear
  · exact hearLock_idle (hothers j (List.mem_range.1 hj) hne)
  · rw [hear]
    exact hearLock_idle (othersIdle_modLock hothers j (List.mem_range.1 hj) hne)

/-- Of the heads only the follower loses its lock by a withdrawal. -/
theorem lockReceived_withdrawn (h2 : fieldOf p.payload 3 1 = 2) (hk : k < 8)
    (hrole : (lockOf s k).role = 2) (hid : (lockOf s k).lockId = fieldOf p.payload 0 2) (hdev : (lockOf s k).masterDev = p.src)
    (hhead : (lockOf s k).masterHead = fieldOf p.payload 2 1) (hreq : (lockOf s k).request = none)
    (hre : (lockOf s k).reanchor = none) (hothers : OthersIdle k s) :
    lockReceived p s = record 4 0x160A (u8 k ++ u8 2) (modLock k (fun _ => Reset.frameLock) s) := by
  have hstep : (if (lockOf s k).role = 2 ∧ (lockOf s k).lockId = fieldOf p.payload 0 2 ∧ (lockOf s k).masterDev = p.src ∧
      (lockOf s k).masterHead = fieldOf p.payload 2 1 then dropLock k 2 s else s) =
      record 4 0x160A (u8 k ++ u8 2) (modLock k (fun _ => Reset.frameLock) s) :=
    (if_pos ⟨hrole, hid, hdev, hhead⟩).trans (dropLock_follower hreq hre hrole)
  unfold lockReceived
  dsimp only
  rw [h2]
  refine (forEach_single List.nodup_range (List.mem_range.2 hk) (fun j hj hne => ?_) fun j hj hne => ?_).trans hstep
  · exact if_neg fun hm => (hothers j (List.mem_range.1 hj) hne).1 hm.1
  · rw [hstep]
    exact if_neg fun hm => (othersIdle_modLock hothers j (List.mem_range.1 hj) hne).1 hm.1

/-! ### The timers of a lock -/

theorem lockAnnounceTimer_quiet (h : (lockOf s k).role ≠ 1 ∨ (tick dt s).now < (lockOf s k).toldAt + 100 * msec) :
    exec (.lockAnnounceTimer dt k) s = .next (tick dt s) := by
  refine congrArg Host.Outcome.next ?_
  show (if (lockOf s k).toldAt + 100 * msec ≤ (tick dt s).now then announceLock k (tick dt s) else tick dt s) = tick dt s
  split
  · next hdue => exact if_neg fun hm => h.elim (fun hr => hr hm.1) fun hlate => absurd hdue (not_le.2 hlate)
  · rfl

theorem lockAnnounceTimer_tells {dev : Nat} (hrole : (lockOf s k).role = 1) (hcfg : configured s k = true)
    (hdue : (lockOf s k).toldAt + 100 * msec ≤ (tick dt s).now) (hone : (lockOf s k).followers = [dev]) :
    exec (.lockAnnounceTimer dt k) s = .next (catSend 0x0E 1 dev 0 (lockPayload s k)
      (modLock k (fun l => { l with toldAt := (tick dt s).now }) (tick dt s))) := by
  have hpay : lockPayload (modLock k (fun l => { l with toldAt := (tick dt s).now }) (tick dt s)) k = lockPayload s k :=
    lockPayload_eq rfl (lockOf_modLock_field (s := tick dt s) (g := FrameLock.lockId) fun _ => rfl)
  have hlist : (lockOf (tick dt s) k).followers = [dev] := hone
  refine congrArg Host.Outcome.next ((if_pos hdue).trans ((if_pos ⟨hrole, hcfg⟩).trans ?_))
  rw [hlist, ← hpay]
  rfl

theorem lockRequestTimeout_waits {d : Desc} {i dev h a : Nat} (hreq : (lockOf s k).request = some (d, i, dev, h, a))
    (hwait : (tick dt s).now < a + msec) : exec (.lockRequestTimeout dt k) s = .next (tick dt s) := by
  have hreq' : (lockOf (tick dt s) k).request = some (d, i, dev, h, a) := hreq
  show execLockRequestTimeout dt k s = _
  simp only [execLockRequestTimeout, hreq']
  exact if_neg (not_le.2 hwait)

theorem lockRequestTimeout_ends {d : Desc} {i dev h a : Nat} (hreq : (lockOf s k).request = some (d, i, dev, h, a))
    (hdue : a + msec ≤ (tick dt s).now) : exec (.lockRequestTimeout dt k) s = .next (complete d 0x1682 (u16 dev)
      (modLock k (fun l => { l with request := none }) (tick dt s))) := by
  have hreq' : (lockOf (tick dt s) k).request = some (d, i, dev, h, a) := hreq
  show execLockRequestTimeout dt k s = _
  simp only [execLockRequestTimeout, hreq']
  exact if_pos hdue

theorem frameLockLost_waits (h : (tick dt s).now < (lockOf s k).heard + 300 * msec) :
    exec (.frameLockLost dt k) s = .next (tick dt s) :=
  congrArg Host.Outcome.next (if_neg fun hm => absurd hm.2 (not_le.2 h))

theorem frameLockLost_drops (hrole : (lockOf s k).role = 2) (hdue : (lockOf s k).heard + 300 * msec ≤ (tick dt s).now)
    (hreq : (lockOf s k).request = none) (hre : (lockOf s k).reanchor = none) : exec (.frameLockLost dt k) s =
      .next (record 4 0x160A (u8 k ++ u8 2) (modLock k (fun _ => Reset.frameLock) (tick dt s))) :=
  congrArg Host.Outcome.next ((if_pos ⟨hrole, hdue⟩).trans (dropLock_follower (s := tick dt s) hreq hre hrole))

/-- Settles O59. -/
theorem headsLockToAMaster : Obligations.HeadsLockToAMaster := by
  intro dt s
  refine ⟨fun d => ?_, fun port p => ?_, fun k => ⟨?_, ?_, ?_, ?_⟩⟩
  · intro _ _ _ _ hrun hlen
    exact ⟨frameLock_busy hrun, fun hidle => ⟨frameLock_unlocks hrun hlen hidle, frameLock_masters hrun hidle,
      frameLock_asks hrun hlen hidle⟩⟩
  · intro u id head harr htype hlen
    have hexec := exec_catLockPacket (dt := dt) harr htype
    have hlock (j : Nat) : lockOf u j = lockOf s j := taken_lockOf
    have hhead (j : Nat) : headOf u j = headOf s j := taken_headOf
    have hlenu : u.catum.locks.length = 8 := by rw [within_tick_taken .locks (by decide), hlen]
    have hnow : u.now = (tick dt s).now := within_taken .now (by decide)
    refine ⟨fun h0 => ⟨fun hlt hrole hid hcfg => ?_, fun hno => ?_⟩,
      fun k hk hrole hid hdev hmaster hreq hre hothers => ⟨fun c h1 hcfg hchange hrate => ?_, fun h2 => ?_⟩⟩
    · have hpay : lockPayload u head = lockPayload s head := lockPayload_eq taken_heads (by rw [hlock])
      rw [hexec, ← hpay]
      exact congrArg Host.Outcome.next (lockReceived_request h0 rfl hlt (by rw [hlock, hrole]) (by rw [hlock, hid])
        (by rw [configured, hhead]; exact hcfg))
    · rw [hexec]
      exact congrArg Host.Outcome.next (lockReceived_stranger h0 rfl (by rw [hlock]; exact hno))
    all_goals
      rw [← hlock] at hrole hid hdev hmaster hreq hre
      have hidle : OthersIdle k u := fun j hj hne => by rw [hlock]; exact hothers j hj hne
    · rw [hexec, ← hnow]
      exact congrArg Host.Outcome.next (lockReceived_announced h1 hk hlenu hrole hid hdev hmaster hreq hre hidle
        (by rw [hhead, hcfg]) hchange hrate)
    · rw [hexec]
      exact congrArg Host.Outcome.next (lockReceived_withdrawn h2 hk hrole hid hdev hmaster hreq hre hidle)
  · exact lockAnnounceTimer_quiet
  · exact fun dev => lockAnnounceTimer_tells
  · exact fun d i dev h a hreq => ⟨lockRequestTimeout_waits hreq, lockRequestTimeout_ends hreq⟩
  · exact fun hrole => ⟨frameLockLost_waits, frameLockLost_drops hrole⟩

end Sys2Proof.Machine
end

section
/-!
PROOFS. The begin of a stop: what it revokes and ends, and what it leaves as it was.
-/

namespace Sys2Proof.Machine
variable {s t : State} {m : List StatePart} {k c x p : Nat}

/-! ### What a stop reaches -/

/-- What the revocation of work, the end of sessions and of flows and the exit from P2 reach. -/
def stopParts : List StatePart :=
  [.pstate, .replies, .ledger, .ingest, .exhibits, .items, .transfers, .heads, .chans, .sps, .cells, .selfRef, .hbm, .training,
    .ecc, .catPorts, .fault, .causes, .ovf, .out]

theorem within_modChan {f : Chan → Chan} : Within [.chans] s (modChan c f s) := within_of_eq rfl (by decide)
theorem within_modSp {f : SetPoint → SetPoint} : Within [.sps] s (modSp c f s) := within_of_eq rfl (by decide)
theorem within_setFlow {f : Flow} : Within [.ingest] s (setFlow x f s) := within_of_eq rfl (by decide)
theorem within_modEth {f : EthPort → EthPort} : Within [.ingest] s (modEth p f s) := within_of_eq rfl (by decide)
theorem within_modDp {f : DpSink → DpSink} : Within [.ingest] s (modDp p f s) := within_of_eq rfl (by decide)

theorem within_modFlow {f : Flow → Flow} : Within [.ingest] s (modFlow x f s) := by
  unfold modFlow
  split
  · exact within_setFlow
  · exact within_refl

/-! ### The loop engine -/

theorem within_enableDone {n : Nat} {q : EnableReq} : Within (.chans :: replyParts) s (enableDone c n q s) := by
  unfold enableDone
  exact within_ite (Within.then (within_modChan.mono (by decide)) (within_of_eq_sub (m := [.chans]) rfl (by decide) (by decide)))
    (Within.then (within_modChan.mono (by decide)) (within_completeAt.mono (by decide)))

theorem within_endInjectAt {cause n : Nat} : Within (.sps :: replyParts) s (endInjectAt c cause n s) := by
  unfold endInjectAt
  split
  · exact within_refl
  · refine Within.then ?_ (within_forEach fun _ _ => within_completeAt.mono (by decide))
    refine Within.then ?_ (within_ite (within_completeAt.mono (by decide)) within_refl)
    exact Within.then (within_modSp.mono (by decide)) (within_ite (within_recordAt.mono (by decide)) within_refl)

theorem within_endInject {cause : Nat} : Within (.sps :: replyParts) s (endInject c cause s) :=
  within_forEach fun _ _ => within_endInjectAt

/-- What the end of a loop's set-up reaches. -/
def loopParts : List StatePart := .items :: .chans :: .sps :: replyParts

theorem within_dropLoop : Within loopParts s (dropLoop c s) := by
  unfold dropLoop
  extract_lets adm u w v done sp ended
  have hv : Within loopParts s w :=
    (within_trans (within_of_eq (m := [.items]) rfl (by decide)) within_modChan).mono (m' := loopParts) (by decide)
  refine within_ite hv (hv.then ?_)
  refine Within.then ?_ (within_forEach fun _ _ => within_complete.mono (by decide))
  refine Within.then ?_ (within_forEach fun _ _ => within_complete.mono (by decide))
  refine Within.then ?_ (within_modSp.mono (by decide))
  exact Within.then (within_forEach fun _ _ => within_enableDone.mono (by decide)) (within_endInject.mono (by decide))

/-! ### Flows and their ports -/

theorem within_loseHeld : Within sendParts s (loseHeld p s) := by
  unfold loseHeld
  exact Within.then (within_of_eq_sub (m := [.fault]) rfl (by decide) (by decide))
    (within_forEach fun _ _ => within_recordAt.mono (by decide))

theorem within_dropLink : Within (.ingest :: sendParts) s (dropLink p s) := by
  unfold dropLink
  have hlose {n : Nat} {q : Prop} [Decidable q] : Within (.ingest :: sendParts) s (if q then loseHeld n s else s) :=
    within_ite (within_loseHeld.mono (by decide)) within_refl
  exact within_ite (hlose.then (within_modEth.mono (by decide)))
    (within_ite (hlose.then (within_modDp.mono (by decide))) within_refl)

theorem within_restPort : Within (.ingest :: sendParts) s (restPort p s) := within_ite within_dropLink within_refl

theorem within_markPort : Within [.ingest] s (markPort p s) :=
  within_ite within_modEth (within_ite within_modDp (within_of_eq rfl (by decide)))

theorem within_stopPort : Within (.ingest :: sendParts) s (stopPort p s) :=
  (within_markPort.mono (by decide)).then within_restPort

theorem within_igmpReport {group src : Nat} {join : Bool} : Within [.out] s (igmpReport p group src join s) :=
  within_ite within_emit within_refl

/-- What the end of a flow reaches. -/
def flowParts : List StatePart := .ingest :: .items :: replyParts

theorem within_endFlow : Within flowParts s (endFlow x s) := by
  unfold endFlow
  split
  · exact within_refl
  · refine Within.then ?_ (within_forEach fun _ _ => within_complete.mono (by decide))
    refine Within.then ?_ (within_forEach fun _ _ => within_restPort.mono (by decide))
    refine Within.then ?_ (within_dropItem.mono (by decide))
    refine Within.then ?_ (within_forEach fun _ _ => within_ite within_refl (within_igmpReport.mono (by decide)))
    exact within_of_eq_sub (m := [.ingest]) rfl (by decide) (by decide)

theorem within_logGroup {g : Group} : Within (.ingest :: storeParts) s (logGroup x g s) := by
  unfold logGroup
  split
  · exact within_refl
  · exact within_ite within_refl ((within_writeInternal.mono (by decide)).then (within_setFlow.mono (by decide)))

theorem within_endGroup : Within (.ingest :: storeParts) s (endGroup x s) := by
  unfold endGroup
  split
  · exact within_refl
  · exact (within_modFlow.mono (by decide)).then within_logGroup

theorem within_closeOne {cause : Nat} {o : OpenFrame} : Within (.ingest :: exhParts ++ replyParts) s (closeOne x cause o s) := by
  unfold closeOne
  split
  · exact within_refl
  · split
    · exact within_setFlow.mono (by decide)
    · refine Within.then ?_ (within_runHeld.mono (by decide))
      refine Within.then ?_ (within_modExh.mono (by decide))
      exact Within.then (within_setFlow.mono (by decide)) (within_recordAt.mono (by decide))

theorem within_closeDue {cause : Nat} : Within (.ingest :: exhParts ++ replyParts) s (closeDue x cause s) := by
  unfold closeDue
  split
  · exact within_refl
  · refine (within_setFlow.mono (by decide)).then (within_forEach fun q _ => ?_)
    obtain ⟨n, o⟩ := q
    cases o with
    | none => exact within_refl
    | some o => exact within_closeOne

/-- What the close of a flow's frames reaches. -/
def closeParts : List StatePart := .ingest :: storeParts ++ exhParts ++ replyParts

theorem within_closeFrame {cause : Nat} : Within closeParts s (closeFrame x cause s) := by
  unfold closeFrame
  split
  · exact within_refl
  · refine Within.then ?_ (within_closeOne.mono (by decide))
    exact Within.then (within_endGroup.mono (by decide)) (within_modFlow.mono (by decide))

theorem within_stopIngestNow {cause : Nat} : Within closeParts s (stopIngestNow cause s) := by
  refine Within.then (within_forEach fun x s => ?_) (within_forEach fun _ _ => within_stopPort.mono (by decide))
  exact (within_closeFrame.then (within_closeDue.mono (by decide))).then (within_endFlow.mono (by decide))

/-! ### Revocation -/

theorem within_beginStop {i : Item} : Within [.heads, .chans, .sps, .ingest] s (beginStop i s) := by
  unfold beginStop
  cases i.kind with
  | head k => exact within_modPipe.mono (by decide)
  | loopSet c owner core => exact within_modChan.mono (by decide)
  | motion k => exact within_of_eq_sub (m := [.heads]) rfl (by decide) (by decide)
  | flow x => exact within_modFlow.mono (by decide)
  | capture x on => exact within_modSp.mono (by decide)
  | _ => exact within_refl

/-- What the revocation of work reaches. -/
def revokeParts : List StatePart := [.ingest, .exhibits, .items, .heads, .chans, .sps] ++ replyParts

theorem revokeParts_stopParts : ∀ p ∈ revokeParts, p ∈ stopParts := by decide

theorem within_stopIdle {i : Item} : Within revokeParts s (stopIdle i s) := by
  unfold stopIdle
  split
  · exact within_ite within_refl (within_of_eq_sub (m := [.items, .exhibits]) rfl (by decide) (by decide))
  · exact within_ite within_refl (within_dropLoop.mono (by decide))
  · split
    · exact within_ite (within_endFlow.mono (by decide)) within_refl
    · exact within_refl
  · exact within_refl

theorem within_revokeOne {quiet : Bool} {n res inst cause tag : Nat} {i : Item} :
    Within revokeParts s (revokeOne quiet n res inst cause tag i s) := by
  unfold revokeOne
  refine Within.then ?_ (Within.then (within_beginStop.mono (by decide)) within_stopIdle)
  have hrec {u : State} {b : List Byte} : Within revokeParts u (record 2 0x0804 b u) := within_recordAt.mono (by decide)
  refine within_ite ?_ (within_ite ?_ ?_)
  · exact Within.then (Within.then (within_of_eq_sub (m := [.items]) rfl (by decide) (by decide)) hrec) (within_completeAt.mono (by decide))
  · exact Within.then (within_of_eq_sub (m := [.items]) rfl (by decide) (by decide)) hrec
  · exact Within.then (Within.then (within_of_eq_sub (m := [.items]) rfl (by decide) (by decide)) hrec) (within_noticeAt.mono (by decide))

theorem within_revoke {quiet alone : Bool} {n res inst cause : Nat} {i : Item} :
    Within revokeParts s (revoke quiet alone n res inst cause i s) := by
  unfold revoke
  refine within_ite within_refl (within_ite within_revokeOne ?_)
  split
  · exact within_revokeOne
  · exact (within_revokeOne.then (within_forEach fun _ _ => within_revokeOne)).then (within_modPipe.mono (by decide))

theorem within_revokeAll {quiet alone : Bool} {n res cause : Nat} {f : Item → Bool} :
    Within revokeParts s (revokeAll quiet alone n res cause f s) := by
  refine within_forEach fun i u => ?_
  split
  · exact within_revoke
  · exact within_refl

/-! ### Sessions and diagnoses -/

theorem within_restSession {n : Nat} : Within [.training] s (restSession n s) := within_of_eq rfl (by decide)

theorem within_abortSessions {f : Session → Bool} : Within (.training :: replyParts) s (abortSessions f s) := by
  unfold abortSessions
  refine Within.then ?_ (within_forEach fun _ _ => within_ite (within_complete.mono (by decide)) within_refl)
  exact Within.then (within_ite (within_restSession.mono (by decide)) within_refl)
    (within_of_eq_sub (m := [.training]) rfl (by decide) (by decide))

theorem within_dropDiagnoses : Within [.training, .hbm] s (dropDiagnoses s) := by
  unfold dropDiagnoses
  exact Within.then (within_ite (within_restSession.mono (by decide)) within_refl)
    (within_of_eq_sub (m := [.hbm]) rfl (by decide) (by decide))

/-! ### The begin of a stop -/

theorem within_leaveP2_stop : Within stopParts s (leaveP2 s) := within_leaveP2_served.mono (by decide)

/-- A stop whose cause is noted: work is revoked, sessions and diagnoses end. -/
def stopWork (quiet : Bool) (cause : Nat) (s : State) : State :=
  dropDiagnoses (abortSessions (fun _ => true) (revokeAll quiet false s.now 0xFF cause (fun _ => true) s))

theorem within_stopWork {quiet : Bool} {cause : Nat} : Within stopParts s (stopWork quiet cause s) :=
  ((within_revokeAll.mono revokeParts_stopParts).then (within_abortSessions.mono (by decide))).then (within_dropDiagnoses.mono (by decide))

/-- The cause of a stop, noted. -/
def noteStop (why : StopCause) (s : State) : State :=
  { s with power := { s.power with stop := some (why, .ramping), pendingSets := [] } }

theorem beginStop4_idle {why : StopCause} {quiet : Bool} {cause : Nat} (h : s.power.stop = none) :
    beginStop4 why quiet cause s = stopIngestNow 5 (stopWork quiet cause (noteStop why (leaveP2 s))) := by
  unfold beginStop4
  rw [h]
  rfl

theorem within_stopRest {quiet : Bool} {cause n : Nat} : Within stopParts s (stopIngestNow n (stopWork quiet cause s)) :=
  within_stopWork.then (within_stopIngestNow.mono (by decide))

theorem beginStop4_stop {why : StopCause} {quiet : Bool} {cause : Nat} (h : s.power.stop = none) :
    (beginStop4 why quiet cause s).power.stop = some (why, .ramping) := by
  rw [beginStop4_idle h]
  exact within_stopRest.power_field (f := fun x : Power => x.stop) (by decide) fun _ => rfl

theorem beginStop4_armed {why : StopCause} {quiet : Bool} {cause : Nat} (h : s.power.stop = none) :
    (beginStop4 why quiet cause s).fault.armed = s.fault.armed := by
  rw [beginStop4_idle h]
  exact (within_stopRest .armed (by decide)).trans (within_leaveP2_stop .armed (by decide))

/-! ### No flow stays -/

def flowKeys (s : State) : List Nat := s.ingest.flows.map (·.1)

/-- No flow of `t` is new. -/
def FlowsFrom (s t : State) : Prop := ∀ y ∈ flowKeys t, y ∈ flowKeys s

theorem flowsFrom_refl : FlowsFrom s s := fun _ h => h

theorem FlowsFrom.then {u : State} (h1 : FlowsFrom s t) (h2 : FlowsFrom t u) : FlowsFrom s u := fun _ hy => h1 _ (h2 _ hy)

theorem flowsFrom_of_eq (h : t.ingest.flows = s.ingest.flows) : FlowsFrom s t := fun _ hy => by
  rw [flowKeys, h] at hy
  exact hy

theorem Within.flowsFrom (h : Within m s t) (hm : StatePart.ingest ∉ m) : FlowsFrom s t :=
  flowsFrom_of_eq (congrArg Ingest.flows (h .ingest hm))

theorem flowsFrom_forEach {α : Type} {l : List α} {f : α → State → State} (hf : ∀ a s, FlowsFrom s (f a s)) :
    FlowsFrom s (forEach l f s) := by
  unfold forEach
  induction l generalizing s with
  | nil => exact flowsFrom_refl
  | cons a l ih => exact (hf a s).then ih

theorem mem_keys_setKey {β : Type} {k y : Nat} {v : β} {l : List (Nat × β)} (h : y ∈ (setKey k v l).map (·.1)) :
    y = k ∨ y ∈ l.map (·.1) := by
  induction l with
  | nil => exact Or.inl (by simpa [setKey] using h)
  | cons e l ih =>
    unfold setKey at h
    split at h
    · rcases List.mem_cons.1 h with rfl | h
      · exact Or.inl rfl
      · exact Or.inr (List.mem_cons_of_mem _ h)
    · rcases List.mem_cons.1 h with rfl | h
      · exact Or.inr List.mem_cons_self
      · exact (ih h).imp_right (List.mem_cons_of_mem _)

theorem mem_keys_of_getKey {β : Type} {k : Nat} {v : β} {l : List (Nat × β)} (h : getKey k l = some v) : k ∈ l.map (·.1) := by
  simp only [getKey, Option.map_eq_some_iff] at h
  obtain ⟨e, he, -⟩ := h
  exact List.mem_map.2 ⟨e, List.mem_of_find?_eq_some he, by simpa using List.find?_some he⟩

theorem flowsFrom_setFlow {f g : Flow} (h : flowOf s x = some g) : FlowsFrom s (setFlow x f s) := fun y hy =>
  (mem_keys_setKey hy).elim (fun hx => hx ▸ mem_keys_of_getKey h) id

theorem flowsFrom_modFlow {f : Flow → Flow} : FlowsFrom s (modFlow x f s) := by
  unfold modFlow
  split
  · next g hg => exact flowsFrom_setFlow hg
  · exact flowsFrom_refl

theorem flowsFrom_logGroup {g : Group} : FlowsFrom s (logGroup x g s) := by
  unfold logGroup
  split
  · exact flowsFrom_refl
  · next f hf =>
    dsimp only
    split
    · exact flowsFrom_refl
    · have hw {a : Nat} {b : List Byte} : Within storeParts s (writeInternal a b s) := within_writeInternal
      refine (hw.flowsFrom (by decide)).then (flowsFrom_setFlow (g := f) ?_)
      rw [flowOf, hw .ingest (by decide)]
      exact hf

theorem flowsFrom_closeOne {cause : Nat} {o : OpenFrame} : FlowsFrom s (closeOne x cause o s) := by
  unfold closeOne
  split
  · exact flowsFrom_refl
  · next f hf =>
    split
    · exact flowsFrom_setFlow hf
    · refine FlowsFrom.then ?_ (within_runHeld.flowsFrom (by decide))
      refine FlowsFrom.then ?_ (within_modExh.flowsFrom (by decide))
      exact (flowsFrom_setFlow hf).then (within_recordAt.flowsFrom (by decide))

theorem flowsFrom_closeFrame {cause : Nat} : FlowsFrom s (closeFrame x cause s) := by
  unfold closeFrame
  split
  · exact flowsFrom_refl
  · refine FlowsFrom.then (FlowsFrom.then ?_ flowsFrom_modFlow) flowsFrom_closeOne
    unfold endGroup
    split
    · exact flowsFrom_refl
    · exact flowsFrom_modFlow.then flowsFrom_logGroup

theorem flowsFrom_closeDue {cause : Nat} : FlowsFrom s (closeDue x cause s) := by
  unfold closeDue
  split
  · exact flowsFrom_refl
  · next f hf =>
    refine (flowsFrom_setFlow hf).then (flowsFrom_forEach fun q u => ?_)
    obtain ⟨n, o⟩ := q
    cases o with
    | none => exact flowsFrom_refl
    | some o => exact flowsFrom_closeOne

/-- The link of a port is not among its flows. -/
theorem dropLink_flows : (dropLink p s).ingest.flows = s.ingest.flows := by
  have hlose {n : Nat} : (loseHeld n s).ingest = s.ingest := within_loseHeld .ingest (by decide)
  unfold dropLink
  split
  · show (State.ingest (if _ then _ else s)).flows = _
    split
    · rw [hlose]
    · rfl
  · split
    · show (State.ingest (if _ then _ else s)).flows = _
      split
      · rw [hlose]
      · rfl
    · rfl

theorem restPort_flows : (restPort p s).ingest.flows = s.ingest.flows := by
  unfold restPort
  split
  · exact dropLink_flows
  · rfl

theorem flowsFrom_stopPort : FlowsFrom s (stopPort p s) :=
  flowsFrom_of_eq (restPort_flows.trans (by unfold markPort; split <;> [skip; split] <;> rfl))

/-- A flow that ends is one no more. -/
theorem flowKeys_endFlow {y : Nat} (h : y ∈ flowKeys (endFlow x s)) : y ∈ flowKeys s ∧ y ≠ x := by
  unfold endFlow at h
  split at h
  · next hnone =>
    refine ⟨h, ?_⟩
    rintro rfl
    obtain ⟨e, he, rfl⟩ := List.mem_map.1 h
    simp only [flowOf, getKey, Option.map_eq_none_iff, List.find?_eq_none] at hnone
    exact hnone e he (by simp)
  · next f hf =>
    extract_lets left ing u v w at h
    have hu : FlowsFrom u w := by
      refine FlowsFrom.then (t := v) (flowsFrom_forEach fun g u => ?_) (FlowsFrom.then (t := dropItem (.flow x) v)
        (within_dropItem.flowsFrom (by decide)) (flowsFrom_forEach fun q u => flowsFrom_of_eq restPort_flows))
      split
      · exact flowsFrom_refl
      · exact within_igmpReport.flowsFrom (by decide)
    have hleft : y ∈ left.map (·.1) :=
      (hu.then (flowsFrom_forEach fun d u => within_complete.flowsFrom (by decide))) y h
    obtain ⟨e, he, rfl⟩ := List.mem_map.1 hleft
    obtain ⟨e', he', rfl⟩ := List.mem_map.1 he
    obtain ⟨hmem, hne⟩ := List.mem_filter.1 he'
    have hkey {q : Prop} [Decidable q] {f : Flow} : (if q then (e'.1, f) else e').1 = e'.1 := by split <;> rfl
    rw [hkey]
    exact ⟨List.mem_map_of_mem hmem, by simpa using hne⟩

/-- The frame in hand and those due of a flow close, and it ends. -/
def dropFlow (cause x : Nat) (s : State) : State := endFlow x (closeDue x cause (closeFrame x cause s))

theorem flowKeys_dropFlow {cause y : Nat} (h : y ∈ flowKeys (dropFlow cause x s)) : y ∈ flowKeys s ∧ y ≠ x := by
  obtain ⟨hmem, hne⟩ := flowKeys_endFlow h
  exact ⟨(flowsFrom_closeFrame.then flowsFrom_closeDue) y hmem, hne⟩

theorem flowKeys_dropFlows {cause : Nat} {l : List Nat} {y : Nat} (h : y ∈ flowKeys (forEach l (dropFlow cause) s)) :
    y ∈ flowKeys s ∧ y ∉ l := by
  induction l generalizing s with
  | nil => exact ⟨h, List.not_mem_nil⟩
  | cons a l ih =>
    obtain ⟨hmem, hl⟩ := ih h
    obtain ⟨hs, hne⟩ := flowKeys_dropFlow hmem
    exact ⟨hs, by simp [hne, hl]⟩

theorem stopIngestNow_eq {cause : Nat} :
    stopIngestNow cause s = forEach (List.range 7) stopPort (forEach (flowKeys s) (dropFlow cause) s) := rfl

theorem flows_nil_of_keys (h : ∀ y, y ∉ flowKeys s) : s.ingest.flows = [] := by
  cases hflows : s.ingest.flows with
  | nil => rfl
  | cons e l => exact absurd (by rw [flowKeys, hflows]; exact List.mem_cons_self) (h e.1)

theorem stopIngestNow_flows {cause : Nat} : (stopIngestNow cause s).ingest.flows = [] := by
  rw [stopIngestNow_eq]
  refine flows_nil_of_keys fun y h => ?_
  have hports : FlowsFrom (forEach (flowKeys s) (dropFlow cause) s)
      (forEach (List.range 7) stopPort (forEach (flowKeys s) (dropFlow cause) s)) := flowsFrom_forEach fun _ _ => flowsFrom_stopPort
  obtain ⟨hmem, hno⟩ := flowKeys_dropFlows (hports y h)
  exact hno hmem

theorem beginStop4_flows {why : StopCause} {quiet : Bool} {cause : Nat} (h : s.power.stop = none) :
    (beginStop4 why quiet cause s).ingest.flows = [] := by
  rw [beginStop4_idle h, stopIngestNow_flows]

/-! ### The host link is lost -/

theorem within_tellHostLost : Within sendParts s (tellHostLost s) :=
  within_ite (within_forEach fun _ _ => within_catSend) within_refl

theorem within_recordSaved {unit event : Nat} {det : List Byte} : Within [.ledger, .saved] s (recordSaved unit event det s) :=
  within_of_eq rfl (by decide)

theorem within_dropFaults : Within [.fault, .armed] s (dropFaults s) := within_of_eq rfl (by decide)

/-- The loss of the host link is told, disarms the faults and is kept for the ledger save. -/
def linkLost (s : State) : State := recordSaved 3 0x0507 [] (dropFaults (tellHostLost s))

theorem within_linkLost : Within (.saved :: .armed :: sendParts) s (linkLost s) :=
  (within_trans (within_trans within_tellHostLost within_dropFaults) within_recordSaved).mono (by decide)

theorem hostLost_idle (hready : s.startup.ready = true) (hstop : s.power.stop = none) :
    hostLost s = beginStop4 .hostLink true 1 (linkLost s) := by
  unfold hostLost
  rw [if_neg (by simp [hready]), hstop]
  rfl

theorem hostLost_begins (hready : s.startup.ready = true) (hstop : s.power.stop = none) :
    (hostLost s).power.stop = some (.hostLink, .ramping) ∧ (hostLost s).ingest.flows = [] ∧ (hostLost s).fault.armed = false ∧
      RegsStay s (hostLost s) := by
  have hlost : (linkLost s).power.stop = none := by
    rw [within_linkLost.power_field (f := fun x : Power => x.stop) (by decide) fun _ => rfl, hstop]
  rw [hostLost_idle hready hstop]
  refine ⟨beginStop4_stop hlost, beginStop4_flows hlost, beginStop4_armed hlost, ?_⟩
  rw [beginStop4_idle hlost]
  have hrest : Within (.power :: .saved :: .armed :: stopParts) s
      (stopIngestNow 5 (stopWork true 1 (noteStop .hostLink (leaveP2 (linkLost s))))) := by
    refine Within.then ?_ (within_stopRest.mono (by decide))
    refine Within.then (Within.then (within_linkLost.mono (by decide)) (within_leaveP2_stop.mono (by decide))) ?_
    exact within_of_eq_sub (m := [.power]) rfl (by decide) (by decide)
  exact hrest .regs (by decide)

end Sys2Proof.Machine
end

section
/-!
PROOFS. The domain of linked modules (R505, R508, R524 to R527): the mailbox, urgent words, lost followers and greetings.
-/

namespace Sys2Proof.Machine
variable {s t : State} {m : List StatePart} {dt k j port : Nat} {p : CatPkt}

/-! ### A packet taken -/

theorem checkLead_field {α : Type} {f : Catum → α} (hf : ∀ c v, f { c with leadLost := v } = f c) :
    f (checkLead s).catum = f s.catum := by
  unfold checkLead
  dsimp only
  split <;> exact hf _ _

theorem taken_mailbox : (taken port p (tick dt s)).catum.mailbox = s.catum.mailbox :=
  checkLead_field (f := Catum.mailbox) fun _ _ => rfl
theorem taken_ucw : (taken port p (tick dt s)).catum.ucw = s.catum.ucw := checkLead_field (f := Catum.ucw) fun _ _ => rfl
theorem taken_ucwIn : (taken port p (tick dt s)).catum.ucwIn = s.catum.ucwIn := checkLead_field (f := Catum.ucwIn) fun _ _ => rfl
theorem taken_host : (taken port p (tick dt s)).host = s.host := within_tick_taken.apply State.host rfl
theorem taken_now : (taken port p (tick dt s)).now = (tick dt s).now := within_taken .now (by decide)

theorem taken_role : catRole (taken port p (tick dt s)) = catRole s := catRole_taken

/-! ### The mailbox -/

theorem wordOf_fieldOf {b : List Byte} {lo : Nat} : (wordOf (fieldOf b lo 4)).toNat = fieldOf b lo 4 :=
  BitVec.toNat_ofNat .. |>.trans (Nat.mod_eq_of_lt (fieldOf_lt ..))

theorem exec_mbReq (h : Arrives port p s) (htype : p.type_ = 2) :
    exec (.mbReq dt port p) s = .next (mbReqReceived clearRules p (taken port p (tick dt s))) := by
  have hpacket := catPacket_arrives (dt := dt) (buf := noBuf) h
  rw [htype] at hpacket
  refine congrArg Host.Outcome.next (hpacket.trans ?_)
  simp only [catDeliver, htype]

theorem mbReq_reads {off : Nat} (h : Arrives port p s) (htype : p.type_ = 2) (hoff : off = fieldOf p.payload 0 4)
    (hread : fieldOf p.payload 4 1 = 0) (hbar : barOffset false off = some off) (hlo : pairLo off = false)
    (hhi : pairLo (off - 4) = false) : exec (.mbReq dt port p) s = .next (catSend 3 0 p.src p.tag
      (u32 (regWord (taken port p (tick dt s)) false off).toNat ++ u8 0 ++ u24 0) (taken port p (tick dt s))) := by
  rw [exec_mbReq h htype]
  simp only [mbReqReceived, mbAccess, hread, ← hoff, readBar0_plain hbar hlo hhi, Nat.zero_ne_one, beq_iff_eq, if_false]

theorem mbReq_writes (h : Arrives port p s) (htype : p.type_ = 2) (hwrite : fieldOf p.payload 4 1 = 1) :
    exec (.mbReq dt port p) s = .next (catSend 3 0 p.src p.tag (u32 (fieldOf p.payload 8 4) ++ u8 0 ++ u24 0)
      (barWrite clearRules (mbStart clearRules) (fieldOf p.payload 0 4) (wordOf (fieldOf p.payload 8 4)) (taken port p (tick dt s)))) := by
  rw [exec_mbReq h htype]
  simp only [mbReqReceived, mbAccess, hwrite, wordOf_fieldOf, beq_self_eq_true, if_true]

theorem exec_mbResp (h : Arrives port p s) (htype : p.type_ = 3) :
    exec (.mbResp dt port p) s = .next (mbRespReceived p (taken port p (tick dt s))) := by
  have hpacket := catPacket_arrives (dt := dt) (buf := noBuf) h
  rw [htype] at hpacket
  refine congrArg Host.Outcome.next (hpacket.trans ?_)
  simp only [catDeliver, htype]

/-- The end of a mailbox access reaches DATA and the mailbox. -/
theorem mbEnd_frame {err : Bool} {v : Word} : rawReg (mbEnd err v s) 0x00F00018 = (if err then wordOf top32 else v) ∧
    (∀ k, k ≠ 0x00F00018 → rawReg (mbEnd err v s) k = rawReg s k) ∧
    mbEnd err v s = { s with regs := (mbEnd err v s).regs, catum := { s.catum with
      mailbox := { s.catum.mailbox with busy := false, err := s.catum.mailbox.err || err } } } :=
  ⟨rawReg_setRaw_same, fun _ hk => rawReg_setRaw_ne hk, rfl⟩

theorem mbResp_ends (h : Arrives port p s) (htype : p.type_ = 3) (hbusy : s.catum.mailbox.busy = true)
    (htag : s.catum.mailbox.tag = p.tag) (hdev : s.catum.mailbox.device = p.src) :
    ∃ t, exec (.mbResp dt port p) s = .next t ∧
      t.catum.mailbox = { s.catum.mailbox with busy := false, err := s.catum.mailbox.err || fieldOf p.payload 4 1 == 1 } ∧
      (fieldOf p.payload 4 1 = 0 → rawReg t 0x00F00018 = wordOf (fieldOf p.payload 0 4)) ∧
      (∀ k, k ≠ 0x00F00018 → rawReg t k = rawReg s k) ∧
      t = { taken port p (tick dt s) with regs := t.regs, catum := { (taken port p (tick dt s)).catum with mailbox := t.catum.mailbox } } := by
  have hexec := exec_mbResp (dt := dt) h htype
  have hmail : (taken port p (tick dt s)).catum.mailbox = s.catum.mailbox := taken_mailbox
  have hregs (k : Nat) : rawReg (taken port p (tick dt s)) k = rawReg s k := by
    rw [rawReg, rawReg, within_tick_taken .causes (by decide)]
  generalize taken port p (tick dt s) = u at hexec hmail hregs
  obtain ⟨hdata, hother, hframe⟩ := mbEnd_frame (s := u) (err := fieldOf p.payload 4 1 == 1) (v := wordOf (fieldOf p.payload 0 4))
  refine ⟨_, hexec.trans (congrArg Host.Outcome.next (if_pos (by rw [hmail]; exact ⟨hbusy, htag, hdev⟩))), ?_, fun h0 => ?_,
    fun k hk => (hother k hk).trans (hregs k), rfl⟩
  · rw [← hmail]
    rfl
  · rw [hdata, h0]
    rfl

theorem mbResp_ignored (h : Arrives port p s) (htype : p.type_ = 3)
    (hno : s.catum.mailbox.busy = false ∨ s.catum.mailbox.tag ≠ p.tag ∨ s.catum.mailbox.device ≠ p.src) :
    exec (.mbResp dt port p) s = .next (taken port p (tick dt s)) := by
  rw [exec_mbResp h htype]
  refine congrArg Host.Outcome.next (if_neg fun hm => ?_)
  rw [taken_mailbox] at hm
  obtain ⟨hbusy, htag, hdev⟩ := hm
  rcases hno with hn | hn | hn
  · exact absurd hbusy (by simp [hn])
  · exact hn htag
  · exact hn hdev

theorem mailboxTimeout_ends (hbusy : s.catum.mailbox.busy = true) (hdue : s.catum.mailbox.since + msec ≤ (tick dt s).now) :
    ∃ t, exec (.mailboxTimeout dt) s = .next t ∧ rawReg t 0x00F00018 = 0xFFFFFFFF#32 ∧
      (∀ k, k ≠ 0x00F00018 → rawReg t k = rawReg s k) ∧ t = { tick dt s with
        regs := t.regs, catum := { s.catum with mailbox := { s.catum.mailbox with busy := false, err := true } } } := by
  obtain ⟨hdata, hother, hframe⟩ := mbEnd_frame (s := tick dt s) (err := true) (v := wordOf top32)
  refine ⟨_, congrArg Host.Outcome.next (if_pos ⟨hbusy, hdue⟩), hdata, hother, hframe.trans ?_⟩
  rw [Bool.or_true]
  rfl

/-! ### A mailbox access begins -/

theorem findReg_mailboxGo : findReg 0x00F0001C = some ⟨0x00F0001C, 4, 1, 2, 0, 0, 0⟩ := by decide

/-- Of a write of GO the register keeps WRITE. -/
theorem storeReg_mailboxGo {v : Word} {l : Bool} : storeReg 0x00F0001C 0x00F0001C v l s =
    setRaw 0x00F0001C ((rawReg s 0x00F0001C &&& ~~~wordOf 2) ||| (v &&& wordOf 2)) s := by
  have hwrite := wordOf_masked_write (rawReg s 0x00F0001C) v 2
  cases l <;> simpa [storeReg, findReg_mailboxGo, RegDef.writable, fieldDiscarded, normField, regIrqCause, pf1Base] using
    congrArg (setRaw 0x00F0001C · s) hwrite

/-- The state in which an access of the mailbox begins. -/
def goWritten (w : Bool) (s : State) : State :=
  setRaw 0x00F0001C ((rawReg s 0x00F0001C &&& ~~~wordOf 2) ||| (wordOf (1 + 2 * bit w) &&& wordOf 2)) s

theorem writeBar0_mailboxGo {w : Bool} : writeBar0 0x00F0001C (wordOf (1 + 2 * bit w)) false s = goWritten w s := by
  have hrwl : rwlChanged 0x00F0001C 0x00F0001C (wordOf (1 + 2 * bit w)) s = false := by simp [rwlChanged, findReg_mailboxGo]
  have hword : writeBar0 0x00F0001C (wordOf (1 + 2 * bit w)) false s =
      storeReg 0x00F0001C 0x00F0001C (wordOf (1 + 2 * bit w)) s.host.locked
        (if s.host.locked && rwlChanged 0x00F0001C 0x00F0001C (wordOf (1 + 2 * bit w)) s
          then rwlRecord 0 0x00F0001C (wordOf (1 + 2 * bit w)).toNat s else s) := by cases w <;> rfl
  rw [hword, hrwl, Bool.and_false, if_neg Bool.false_ne_true, storeReg_mailboxGo]
  rfl

theorem goWritten_write {w : Bool} : decide (regField (goWritten w s) 0x00F0001C 1 1 = 1) = w := by
  have hread : rawReg (goWritten w s) 0x00F0001C =
      (rawReg s 0x00F0001C &&& ~~~wordOf 2) ||| (wordOf (1 + 2 * bit w) &&& wordOf 2) := rawReg_setRaw_same
  have hbit : ((rawReg s 0x00F0001C &&& ~~~wordOf 2) ||| (wordOf (1 + 2 * bit w) &&& wordOf 2)).getLsbD 1 = w := by
    rw [BitVec.getLsbD_or, BitVec.getLsbD_and, BitVec.getLsbD_and]
    cases w <;> simp [wordOf, bit]
  rw [regField, hread]
  rw [BitVec.getLsbD, Nat.testBit_eq_decide_div_mod_eq] at hbit
  exact hbit

theorem goWritten_rawReg {w : Bool} (hk : k ≠ 0x00F0001C) : rawReg (goWritten w s) k = rawReg s k := rawReg_setRaw_ne hk

theorem goWritten_regField {w : Bool} {key lo n : Nat} (hk : key ≠ 0x00F0001C) :
    regField (goWritten w s) key lo n = regField s key lo n := by
  rw [regField, regField, goWritten, rawReg_setRaw_ne hk]

/-- An access of another device leaves for it, with the next TAG. -/
theorem mbStart_asks (hbusy : s.catum.mailbox.busy = false) (hdev : regField s 0x00F00010 0 10 ≠ catDevice s) :
    ∃ b, mbStart clearRules s = catSend 2 0 (regField s 0x00F00010 0 10) s.catum.tag b { s with catum := { s.catum with
      mailbox := ⟨true, decide (regField s 0x00F0001C 1 1 = 1), s.catum.mailbox.err, s.catum.tag, s.now, regField s 0x00F00010 0 10⟩
      tag := (s.catum.tag + 1) % 2 ^ 32 } } :=
  ⟨_, (if_neg (by simp [hbusy])).trans (if_neg hdev)⟩

theorem mailboxGo_asks {w : Bool} (hbusy : s.catum.mailbox.busy = false) (hdev : regField s 0x00F00010 0 10 ≠ catDevice s) :
    ∃ t, exec (.mailboxGo dt w) s = .next t ∧
      t.catum.mailbox = ⟨true, w, s.catum.mailbox.err, s.catum.tag, (tick dt s).now, regField s 0x00F00010 0 10⟩ ∧
      t.catum.tag = (s.catum.tag + 1) % 2 ^ 32 ∧ (∀ k, k ≠ 0x00F0001C → rawReg t k = rawReg s k) ∧
      t.catum.locks = s.catum.locks ∧ t.heads = s.heads ∧ t.power = s.power ∧ t.host = s.host ∧ t.hbm = s.hbm := by
  have hexec : exec (.mailboxGo dt w) s = .next (mbStart clearRules (goWritten w (tick dt s))) := by
    rw [← writeBar0_mailboxGo]
    cases w <;> rfl
  have hdevice : regField (goWritten w (tick dt s)) 0x00F00010 0 10 = regField s 0x00F00010 0 10 :=
    goWritten_regField (s := tick dt s) (by decide)
  have hown : catDevice (goWritten w (tick dt s)) = catDevice s := goWritten_regField (s := tick dt s) (by decide)
  obtain ⟨b, hstart⟩ := mbStart_asks (s := goWritten w (tick dt s)) hbusy (by rw [hdevice, hown]; exact hdev)
  rw [goWritten_write, hdevice] at hstart
  have hsend {ty vc dest tag : Nat} {l : List Byte} {u : State} : Within sendParts u (catSend ty vc dest tag l u) := within_catSend
  refine ⟨_, hexec, ?_⟩
  rw [hstart]
  refine ⟨?_, ?_, fun k hk => ?_, ?_, ?_, ?_, ?_, ?_⟩
  · exact hsend.catum_field (f := fun x : Catum => x.mailbox) (by decide) fun _ => rfl
  · exact hsend.catum_field (f := fun x : Catum => x.tag) (by decide) fun _ => rfl
  · refine Eq.trans ?_ (goWritten_rawReg (s := tick dt s) (w := w) hk)
    rw [rawReg, rawReg, hsend .causes (by decide)]
  · exact hsend .locks (by decide)
  · exact hsend .heads (by decide)
  · exact hsend.apply State.power rfl
  · exact hsend.apply State.host rfl
  · exact hsend.apply State.hbm rfl

/-! ### Urgent words -/

theorem exec_catUcwRequest (h : Arrives port p s) (htype : p.type_ = 4) (h0 : fieldOf p.payload 4 1 = 0) :
    exec (.catUcwRequest dt port p) s = .next (ucwRequested p (taken port p (tick dt s))) := by
  have hpacket := catPacket_arrives (dt := dt) (buf := noBuf) h
  rw [htype] at hpacket
  refine congrArg Host.Outcome.next ((if_pos h0).trans (hpacket.trans ?_))
  simp only [catDeliver, htype, h0, if_true]

theorem ucwRequested_stranger (h : catRole s ≠ 2) : ucwRequested p s = s := if_pos h

theorem ucwRequested_illegal (hrole : catRole s = 2) (h : ucwLegal false (fieldOf p.payload 0 4) = false) :
    ucwRequested p s = recordAt false s.now 3 0x0506 (u32 (fieldOf p.payload 0 4) ++ u16 0 ++ u8 1 ++ u8 0)
      { s with host := { s.host with ucwReject := true } } := by
  have hact : ucwRequested p s = ucwReject false (wordOf (fieldOf p.payload 0 4)) s :=
    (if_neg (by simp [hrole])).trans (if_pos (by simp [h]))
  rw [hact, ucwReject, wordOf_fieldOf]

theorem ucwRequested_legal (hrole : catRole s = 2) (h : ucwLegal false (fieldOf p.payload 0 4) = true) :
    ucwRequested p s = ucwAct (fieldOf p.payload 0 4 % 256) (bits (fieldOf p.payload 0 4) 8 8) { s with
      host := { s.host with
        ucwAction := fieldOf p.payload 0 4 % 256, ucwCount := (s.host.ucwCount + 1) % 256,
        ucwRuns := s.host.ucwRuns ++ [⟨fieldOf p.payload 0 4 % 256, namedHeads (bits (fieldOf p.payload 0 4) 8 8),
          rampsOf (fieldOf p.payload 0 4 % 256) (bits (fieldOf p.payload 0 4) 8 8) s, fieldOf p.payload 0 4, false, s.now⟩] }
      catum := { s.catum with ucwIn := s.catum.ucwIn ++ [(fieldOf p.payload 0 4, fieldOf p.payload 8 8, p.tag)] } } :=
  (if_neg (by simp [hrole])).trans (if_neg (by simp [h]))

theorem exec_catUcwReport (h : Arrives port p s) (htype : p.type_ = 4) (h1 : fieldOf p.payload 4 1 = 1) :
    exec (.catUcwReport dt port p) s = .next (ucwReported p (taken port p (tick dt s))) := by
  have hpacket := catPacket_arrives (dt := dt) (buf := noBuf) h
  rw [htype] at hpacket
  refine congrArg Host.Outcome.next ((if_pos h1).trans (hpacket.trans ?_))
  simp only [catDeliver, htype, h1, Nat.one_ne_zero, if_false]

/-- A report strikes its device from the word it reports on. -/
theorem ucwReported_one {v : UcwDomain} (hone : s.catum.ucw = [v]) (hact : v.action = fieldOf p.payload 0 1) (hmem : p.src ∈ v.waiting) :
    ucwReported p s =
      if (v.waiting.erase p.src).isEmpty ∧ v.ownEnd.isSome then ucwDomainDone { v with waiting := v.waiting.erase p.src }
        { s with catum := { s.catum with ucw := [{ v with waiting := v.waiting.erase p.src }] } }
      else { s with catum := { s.catum with ucw := [{ v with waiting := v.waiting.erase p.src }] } } := by
  have hfind : ([v].find? fun u => u.action = fieldOf p.payload 0 1 && u.waiting.contains p.src) = some v := by
    simp [hact, hmem]
  unfold ucwReported
  rw [hone]
  dsimp only
  rw [hfind]
  simp

theorem erase_isEmpty_iff {l : List Nat} {a : Nat} (h : a ∈ l) : (l.erase a).isEmpty = true ↔ l = [a] := by
  rw [List.isEmpty_iff]
  constructor
  · intro he
    have hperm := List.perm_cons_erase h
    rw [he] at hperm
    exact List.perm_singleton.1 hperm
  · rintro rfl
    simp

/-- A word that is done leaves the list, and the rest is recorded. -/
theorem ucwDomainDone_frame {v : UcwDomain} (hone : s.catum.ucw = [v]) :
    (ucwDomainDone v s).catum = { s.catum with ucw := [] } ∧
      Within [.causes, .ledger, .out] { s with catum := { s.catum with ucw := [] } } (ucwDomainDone v s) := by
  have herase : s.catum.ucw.erase v = [] := by simp [hone]
  have hw : Within [.causes, .ledger, .out] { s with catum := { s.catum with ucw := [] } } (ucwDomainDone v s) := by
    unfold ucwDomainDone
    rw [herase]
    refine Within.then (Within.then ?_ (within_forEach fun _ _ => within_recordAt.mono (by decide))) (within_raiseCause.mono (by decide))
    exact within_recordAt.mono (by decide)
  exact ⟨hw.apply State.catum rfl, hw⟩

/-! ### The host link of the lead -/

theorem exec_catHostLost (h : Arrives port p s) (htype : p.type_ = 5) :
    exec (.catHostLost dt port p) s = .next (if catRole s = 2 then
      hostLost (record 3 0x1608 (slice p.payload 0 2) (taken port p (tick dt s))) else taken port p (tick dt s)) := by
  have hpacket := catPacket_arrives (dt := dt) (buf := noBuf) h
  rw [htype] at hpacket
  refine congrArg Host.Outcome.next (hpacket.trans ?_)
  simp only [catDeliver, htype, taken_role]

/-- A lost host link stops the module after a record, too. -/
theorem hostLost_recorded {u : State} {unit event : Nat} {det : List Byte} (hu : Within m s u) (hpower : .power ∉ m) (hstart : .startup ∉ m)
    (hregs : .regs ∉ m) (hready : s.startup.ready = true) (hstop : s.power.stop = none) :
    let v := hostLost (record unit event det u)
    v.power.stop = some (.hostLink, .ramping) ∧ v.ingest.flows = [] ∧ v.fault.armed = false ∧ RegsStay s v := by
  have hr : Within (m ++ [.ledger]) s (record unit event det u) := within_trans hu within_recordAt
  have hready' : (record unit event det u).startup.ready = true := by
    rw [hr .startup (by simp [hstart]), hready]
  have hstop' : (record unit event det u).power.stop = none := by
    rw [hr.power_field (f := fun x : Power => x.stop) (by simp [hpower]) fun _ => rfl, hstop]
  obtain ⟨h1, h2, h3, h4⟩ := hostLost_begins hready' hstop'
  exact ⟨h1, h2, h3, StatePart.regs.same_trans (hr .regs (by simp [hregs])) h4⟩

/-! ### Followers -/

theorem sqOf_haltRings {l : List FwdEnt} {q : Nat} (hq : q < s.host.sq.length) :
    sqOf (forEach l (fun e => modSq e.ring fun r => { r with halted := true }) s) q =
      if ∃ f ∈ l, f.ring = q then { sqOf s q with halted := true } else sqOf s q := by
  induction l generalizing s with
  | nil => rfl
  | cons e l ih =>
    have hlen : (modSq e.ring (fun r => { r with halted := true }) s).host.sq.length = s.host.sq.length := List.length_modify ..
    rw [forEach_cons, ih (by rw [hlen]; exact hq)]
    by_cases he : e.ring = q
    · have hany : ∃ f ∈ e :: l, f.ring = q := ⟨e, List.mem_cons_self, he⟩
      rw [he, sqOf_modSq_same hq, if_pos hany, ite_self]
    · rw [sqOf_modSq_ne (Ne.symm he)]
      simp [he]

theorem followerLost_waits {dev e : Nat} (hkey : getKey dev s.catum.members = some e) (h : s.now < e + 300 * msec) :
    followerLost dev s = s := by
  unfold followerLost
  rw [hkey]
  exact if_pos (Or.inr h)

/-- Without descriptors held for a lost follower none ends. -/
theorem forEach_unreachable_none {dev : Nat} (h : ∀ x ∈ s.catum.fwdHeld, x.1 ≠ dev) :
    forEach ((s.catum.fwdHeld.filter fun x => x.1 = dev).map (·.2)) (unreachable dev)
      { s with catum := { s.catum with fwdHeld := s.catum.fwdHeld.filter fun x => x.1 ≠ dev } } = s := by
  have hnone : s.catum.fwdHeld.filter (fun x => x.1 = dev) = [] := List.filter_eq_nil_iff.2 fun x hx => by simpa using h x hx
  have hall : s.catum.fwdHeld.filter (fun x => x.1 ≠ dev) = s.catum.fwdHeld := List.filter_eq_self.2 fun x hx => by simpa using h x hx
  rw [hnone, hall]
  rfl

/-- The rings forwarded to a follower halt. -/
def haltFollower (dev : Nat) (s : State) : State :=
  forEach (s.catum.fwd.filter fun e => e.device = dev) (fun e => modSq e.ring fun r => { r with halted := true }) s

theorem within_haltFollower {dev : Nat} : Within [.sq] s (haltFollower dev s) := within_forEach fun _ _ => within_of_eq rfl (by decide)

theorem sqOf_haltFollower {dev q : Nat} (hq : q < s.host.sq.length) : sqOf (haltFollower dev s) q =
    if (∃ f ∈ s.catum.fwd, f.device = dev ∧ f.ring = q) then { sqOf s q with halted := true } else sqOf s q := by
  have hmem : (∃ f ∈ s.catum.fwd.filter fun e => e.device = dev, f.ring = q) ↔ ∃ f ∈ s.catum.fwd, f.device = dev ∧ f.ring = q := by
    simp only [List.mem_filter, decide_eq_true_eq, and_assoc]
  exact (sqOf_haltRings hq).trans (if_congr hmem rfl rfl)

/-- A follower unheard leaves the members, and its rings halt. -/
theorem followerLost_drops {dev e : Nat} (hkey : getKey dev s.catum.members = some e) (hrole : catRole s = 1)
    (hdue : e + 300 * msec ≤ s.now) (hheld : ∀ x ∈ s.catum.fwdHeld, x.1 ≠ dev) :
    followerLost dev s = haltFollower dev
      (record 3 0x1607 (u16 dev) { s with catum := { s.catum with members := dropKey dev s.catum.members } }) := by
  unfold followerLost
  rw [hkey]
  refine (if_neg (by rw [hrole]; omega)).trans (forEach_unreachable_none fun x hx => hheld x ?_)
  have hcat := within_haltFollower (dev := dev)
    (s := record 3 0x1607 (u16 dev) { s with catum := { s.catum with members := dropKey dev s.catum.members } }) |>.apply
    (fun u => u.catum.fwdHeld) rfl
  exact hcat ▸ hx

theorem catFollowerLost_drops {dev e : Nat} (hkey : getKey dev s.catum.members = some e) (hrole : catRole s = 1)
    (hdue : e + 300 * msec ≤ (tick dt s).now) (hheld : ∀ x ∈ s.catum.fwdHeld, x.1 ≠ dev) :
    ∃ t, exec (.catFollowerLost dt dev) s = .next t ∧ t.catum = { s.catum with members := dropKey dev s.catum.members } ∧
      (∀ q < s.host.sq.length, sqOf t q = if (∃ f ∈ s.catum.fwd, f.device = dev ∧ f.ring = q) then
        { sqOf s q with halted := true } else sqOf s q) ∧
      OnlyRecords { s with catum := t.catum, host := { s.host with sq := t.host.sq } } t := by
  have hexec : exec (.catFollowerLost dt dev) s = .next (followerLost dev (tick dt s)) := rfl
  rw [followerLost_drops (s := tick dt s) hkey hrole hdue hheld] at hexec
  have hrec : Within (.catum :: clockParts ++ [.causes, .ledger, .out]) s (record 3 0x1607 (u16 dev) { tick dt s with catum :=
      { (tick dt s).catum with members := dropKey dev (tick dt s).catum.members } }) :=
    (within_trans (within_trans within_tick (within_of_eq (m := [.catum]) rfl (by decide))) within_recordAt).mono (by decide)
  refine ⟨_, hexec, within_haltFollower.apply State.catum rfl, fun q hq => sqOf_haltFollower hq, ?_⟩
  exact onlyRecords_patch (m := [.catPorts, .locks, .catum, .sq])
    ((within_trans hrec within_haltFollower).mono (by decide)) (by decide)

/-! ### Greetings -/

theorem within_setRule {r : FaultRule} : Within [.fault] s (setRule r s) :=
  within_ite (within_of_eq rfl (by decide)) (within_of_eq rfl (by decide))

theorem within_recordFault {r : FaultRule} {i n : Nat} : Within [.fault, .ledger] s (recordFault r i n s) :=
  Within.then (within_of_eq_sub (m := [.fault]) rfl (by decide) (by decide)) (within_recordAt.mono (by decide))

theorem within_applyRule {i n : Nat} {r : FaultRule} {x : FaultFate × State} : Within [.fault, .ledger] x.2 (applyRule i n r x).2 := by
  obtain ⟨fate, s⟩ := x
  have hset {r : FaultRule} : Within [.fault, .ledger] s (setRule r s) := within_setRule.mono (by decide)
  unfold applyRule
  dsimp only
  split
  · exact hset
  · split
    · exact hset.then within_recordFault
    · split
      · exact hset.then within_recordFault
      · exact hset
    all_goals exact hset.then within_recordFault

theorem within_meetFaults {q c f i n : Nat} {b : Bool} : Within [.fault, .ledger] s (meetFaults q c f i n b s).2 := by
  have hfold (l : List FaultRule) (x : FaultFate × State) :
      Within [.fault, .ledger] x.2 (l.foldl (fun x r => applyRule i n r x) x).2 := by
    induction l generalizing x with
    | nil => exact within_refl
    | cons r l ih => exact within_applyRule.then (ih _)
  exact hfold _ (clearFate, s)

theorem within_throughPoint {q : Nat} {fate : FaultFate} {b : HeldBody} {go : State → State} (hm : .fault ∈ m)
    (hgo : ∀ s, Within m s (go s)) : Within m s (throughPoint q fate b go s) := by
  have hhold {h : Bool × Nat × Nat} {u : State} : Within m u (holdPkt q b h u) :=
    within_of_eq_sub (m := [.fault]) rfl (by decide) (by simpa using hm)
  unfold throughPoint
  refine Within.then (within_of_eq_sub (m := [.fault]) rfl (by decide) (by simpa using hm)) (within_ite within_refl ?_)
  split
  · exact hhold
  · split
    · exact hhold
    · exact hgo _

theorem within_catOut {q : Nat} {b : Bool} {c : CatPkt} : Within [.fault, .ledger, .out] s (catOut q b c s) :=
  (within_meetFaults.mono (by decide)).then (within_throughPoint (by decide) fun _ => within_emit.mono (by decide))

theorem Within.catOf (h : Within m s t) (hm : .catPorts ∉ m) (j : Nat) : catOf t j = catOf s j :=
  congrArg (fun l : List CatPort => l.getD j Reset.catPort) (h .catPorts hm).1

/-- What goes out of a port reaches no other port. -/
theorem catOf_catLaunch_ne {c : CatPkt} (hj : j ≠ port) : catOf (catLaunch port c s) j = catOf s j :=
  (within_catOut.catOf (by decide) j).trans (catOf_modCat_ne hj)

theorem catOf_catServe_ne {n : Nat} (hj : j ≠ port) : catOf (catServe port n s) j = catOf s j := by
  induction n generalizing s with
  | zero => rfl
  | succ n ih =>
    unfold catServe
    dsimp only
    split
    · rfl
    · split
      · rfl
      · rw [ih, catOf_catLaunch_ne hj, catOf_modCat_ne hj]

theorem catOf_catQueue_ne {c : CatPkt} (hj : j ≠ port) : catOf (catQueue port c s) j = catOf s j :=
  (catOf_catServe_ne hj).trans (catOf_modCat_ne hj)

theorem helloTimer_waits (h : catRole s ≠ 2 ∨ (tick dt s).now < s.catum.helloAt + 100 * msec) :
    exec (.helloTimer dt) s = .next (tick dt s) :=
  congrArg Host.Outcome.next (if_neg fun hm => h.elim (fun hr => hr hm.1) fun hlate => absurd hm.2 (not_le.2 hlate))

/-- The greeting leaves from the one port that is ready. -/
theorem helloTimer_greets (hrole : catRole s = 2) (hdue : s.catum.helloAt + 100 * msec ≤ (tick dt s).now) (hport : port < 4)
    (hready : ∀ j < 4, (catOf s j).state = .ready ↔ j = port) : exec (.helloTimer dt) s =
      .next (helloLead port { tick dt s with catum := { s.catum with helloAt := (tick dt s).now } }) := by
  refine congrArg Host.Outcome.next ((if_pos ⟨hrole, hdue⟩).trans ?_)
  have hstep : (if (catOf (tick dt s) port).state = .ready then helloLead port { tick dt s with catum := { s.catum with
      helloAt := (tick dt s).now } } else { tick dt s with catum := { s.catum with helloAt := (tick dt s).now } }) =
      helloLead port { tick dt s with catum := { s.catum with helloAt := (tick dt s).now } } := if_pos ((hready port hport).2 rfl)
  refine (forEach_single List.nodup_range (List.mem_range.2 hport) (fun j hj hne => ?_) fun j hj hne => ?_).trans hstep
  · exact if_neg fun hm => hne ((hready j (List.mem_range.1 hj)).1 hm)
  · refine if_neg fun hm => hne ((hready j (List.mem_range.1 hj)).1 ?_)
    refine Eq.trans (congrArg CatPort.state (Eq.symm ?_)) hm
    refine (congrArg (catOf · j) hstep).trans (catOf_catQueue_ne hne)

/-! ### The words of the domain -/

theorem ucwDomainTimeout_waits {v : UcwDomain} {e : Nat} (hone : s.catum.ucw = [v]) (hown : v.ownEnd = some e)
    (h : (tick dt s).now < e + msec) : exec (.ucwDomainTimeout dt) s = .next (tick dt s) := by
  have hnone : (tick dt s).catum.ucw.filter (fun u => u.ownEnd.any fun t => decide (t + msec ≤ (tick dt s).now)) = [] := by
    have hone' : (tick dt s).catum.ucw = [v] := hone
    rw [hone', List.filter_singleton, hown, Option.any_some, decide_eq_false (not_le.2 h), cond_false]
  have hexec : exec (.ucwDomainTimeout dt) s = execUcwDomainTimeout dt s := rfl
  rw [hexec, execUcwDomainTimeout]
  rw [hnone]
  rfl

theorem ucwDomainTimeout_ends {v : UcwDomain} {e : Nat} (hone : s.catum.ucw = [v]) (hown : v.ownEnd = some e)
    (h : e + msec ≤ (tick dt s).now) : ∃ t, exec (.ucwDomainTimeout dt) s = .next t ∧ t.catum = { s.catum with ucw := [] } ∧
      OnlyRecords { s with catum := t.catum } t := by
  have hone' : (tick dt s).catum.ucw = [v] := hone
  have hall : (tick dt s).catum.ucw.filter (fun u => u.ownEnd.any fun t => decide (t + msec ≤ (tick dt s).now)) = [v] := by
    rw [hone', List.filter_singleton, hown, Option.any_some, decide_eq_true h, cond_true]
  have hexec : exec (.ucwDomainTimeout dt) s = .next (ucwDomainDone v (tick dt s)) := by
    have hexec : exec (.ucwDomainTimeout dt) s = execUcwDomainTimeout dt s := rfl
    rw [hexec, execUcwDomainTimeout]
    rw [hall]
    rfl
  obtain ⟨hcat, hframe⟩ := ucwDomainDone_frame hone'
  refine ⟨_, hexec, hcat, ?_⟩
  exact onlyRecords_patch (m := [.catPorts, .locks, .catum]) ((within_trans (within_trans within_tick
    (within_of_eq (m := [.catum]) rfl (by decide))) hframe).mono (by decide)) (by decide)

theorem catUcwReport_waits {v : UcwDomain} (h : Arrives port p s) (htype : p.type_ = 4) (h1 : fieldOf p.payload 4 1 = 1)
    (hone : s.catum.ucw = [v]) (hact : v.action = fieldOf p.payload 0 1) (hmem : p.src ∈ v.waiting)
    (hmore : v.waiting ≠ [p.src] ∨ v.ownEnd = none) : exec (.catUcwReport dt port p) s = .next { taken port p (tick dt s) with
      catum := { (taken port p (tick dt s)).catum with ucw := [{ v with waiting := v.waiting.erase p.src }] } } := by
  rw [exec_catUcwReport h htype h1, ucwReported_one (taken_ucw.trans hone) hact hmem]
  refine congrArg Host.Outcome.next (if_neg fun hm => ?_)
  obtain ⟨hempty, hown⟩ := hm
  rcases hmore with hne | hno
  · exact hne ((erase_isEmpty_iff hmem).1 hempty)
  · exact absurd hown (by simp [hno])

theorem catUcwReport_ends {v : UcwDomain} (h : Arrives port p s) (htype : p.type_ = 4) (h1 : fieldOf p.payload 4 1 = 1)
    (hone : s.catum.ucw = [v]) (hact : v.action = fieldOf p.payload 0 1) (hmem : p.src ∈ v.waiting)
    (hlast : v.waiting = [p.src]) (hown : v.ownEnd ≠ none) : ∃ t, exec (.catUcwReport dt port p) s = .next t ∧
      t.catum = { (taken port p (tick dt s)).catum with ucw := [] } ∧ OnlyRecords { s with catum := t.catum } t := by
  have hexec := exec_catUcwReport (dt := dt) h htype h1
  rw [ucwReported_one (taken_ucw.trans hone) hact hmem,
    if_pos ⟨(erase_isEmpty_iff hmem).2 hlast, Option.isSome_iff_ne_none.2 hown⟩] at hexec
  obtain ⟨hcat, hframe⟩ := ucwDomainDone_frame (v := { v with waiting := v.waiting.erase p.src }) (s := { taken port p (tick dt s) with
    catum := { (taken port p (tick dt s)).catum with ucw := [{ v with waiting := v.waiting.erase p.src }] } }) rfl
  refine ⟨_, hexec, hcat, ?_⟩
  exact onlyRecords_patch (m := [.catPorts, .locks, .catum]) ((within_trans (within_trans within_tick_taken
    (within_of_eq (m := [.catum]) rfl (by decide))) hframe).mono (by decide)) (by decide)

theorem catUcwRequest_legal (h : Arrives port p s) (htype : p.type_ = 4) (h0 : fieldOf p.payload 4 1 = 0)
    (hrole : catRole s = 2) (hlegal : ucwLegal false (fieldOf p.payload 0 4) = true) :
    let u := taken port p (tick dt s); let w := fieldOf p.payload 0 4
    exec (.catUcwRequest dt port p) s = .next (ucwAct (w % 256) (bits w 8 8) { u with
      host := { s.host with ucwAction := w % 256, ucwCount := (s.host.ucwCount + 1) % 256,
                            ucwRuns := s.host.ucwRuns ++ [⟨w % 256, namedHeads (bits w 8 8),
                              rampsOf (w % 256) (bits w 8 8) s, w, false, (tick dt s).now⟩] },
      catum := { u.catum with ucwIn := s.catum.ucwIn ++ [(w, fieldOf p.payload 8 8, p.tag)] } }) := by
  intro u w
  have hramps : rampsOf (w % 256) (bits w 8 8) u = rampsOf (w % 256) (bits w 8 8) s :=
    within_tick_taken.apply (fun s => rampsOf (w % 256) (bits w 8 8) s) rfl
  have hhost : u.host = s.host := taken_host
  have hin : u.catum.ucwIn = s.catum.ucwIn := taken_ucwIn
  have hnow : u.now = (tick dt s).now := taken_now
  refine (exec_catUcwRequest h htype h0).trans (congrArg Host.Outcome.next ?_)
  rw [← hramps, ← hhost, ← hin, ← hnow]
  exact ucwRequested_legal (taken_role.trans hrole) hlegal

theorem followHold_waits {e : Nat} (hlost : s.catum.leadLost = some e) (h : (tick dt s).now < e + s.catum.followHold * msec) :
    exec (.followHoldExpiry dt) s = .next (tick dt s) := by
  have hlost' : (tick dt s).catum.leadLost = some e := hlost
  have hhold : (tick dt s).catum.followHold = s.catum.followHold := rfl
  have hexec : exec (.followHoldExpiry dt) s = execFollowHoldExpiry dt s := rfl
  rw [hexec]
  unfold execFollowHoldExpiry
  dsimp only
  rw [hlost']
  dsimp only
  rw [hhold]
  exact if_neg fun hm => absurd hm.2.1 (not_le.2 h)

theorem followHold_ends {e : Nat} (hlost : s.catum.leadLost = some e) (hrole : catRole s = 2) (hstop : s.power.stop = none)
    (hready : s.startup.ready = true) (h : e + s.catum.followHold * msec ≤ (tick dt s).now) :
    exec (.followHoldExpiry dt) s = .next (hostLost (record 3 0x1607 (u16 (catLead s)) (tick dt s))) := by
  have hlost' : (tick dt s).catum.leadLost = some e := hlost
  have hstop' : (tick dt s).power.stop.isNone = true := Option.isNone_iff_eq_none.2 hstop
  have hhold : (tick dt s).catum.followHold = s.catum.followHold := rfl
  have hexec : exec (.followHoldExpiry dt) s = execFollowHoldExpiry dt s := rfl
  rw [hexec]
  unfold execFollowHoldExpiry
  dsimp only
  rw [hlost']
  dsimp only
  rw [hhold]
  exact if_pos ⟨hrole, h, hstop', hready⟩

/-- Settles O57. -/
theorem theDomainActsTogether : Obligations.TheDomainActsTogether := by
  refine ⟨fun dt port p s => ?_, fun dt port p s => ?_⟩
  · intro u m dev
    refine ⟨?_, ?_, ?_, ?_, ?_⟩
    · intro h htype off
      exact ⟨mbReq_reads h htype rfl, mbReq_writes h htype⟩
    · exact fun h htype => ⟨mbResp_ends h htype, mbResp_ignored h htype⟩
    · exact fun w => mailboxGo_asks
    · exact mailboxTimeout_ends
    · exact fun hbusy => congrArg Host.Outcome.next (if_neg fun hm => absurd (show s.catum.mailbox.busy = true from hm.1) (by
        rw [show s.catum.mailbox.busy = false from hbusy]; decide))
  · intro u w
    refine ⟨fun h htype h0 => ⟨fun hrole => ?_, fun hrole hlegal => ?_, catUcwRequest_legal h htype h0⟩,
      fun v h htype h1 hone hact hmem => ⟨catUcwReport_waits h htype h1 hone hact hmem, catUcwReport_ends h htype h1 hone hact hmem⟩,
      fun v e hone hown => ⟨ucwDomainTimeout_waits hone hown, ucwDomainTimeout_ends hone hown⟩,
      fun h htype => ⟨fun hrole => ?_, fun hrole hready hstop => ?_⟩,
      fun e hlost hrole hstop => ⟨followHold_waits hlost, fun hdue hready => ?_⟩,
      fun dev e hkey hrole => ⟨fun hwait => ?_, fun hdue hheld => catFollowerLost_drops hkey hrole hdue hheld⟩,
      helloTimer_waits, helloTimer_greets⟩
    · rw [exec_catUcwRequest h htype h0]
      exact congrArg Host.Outcome.next (ucwRequested_stranger (by rwa [taken_role]))
    · have hhost : u.host = s.host := taken_host
      have hnow : u.now = (tick dt s).now := taken_now
      rw [exec_catUcwRequest h htype h0, ← hhost, ← hnow]
      exact congrArg Host.Outcome.next (ucwRequested_illegal (taken_role.trans hrole) hlegal)
    · rw [exec_catHostLost h htype]
      exact congrArg Host.Outcome.next (if_neg hrole)
    · refine ⟨_, (exec_catHostLost h htype).trans (congrArg Host.Outcome.next (if_pos hrole)), ?_⟩
      exact hostLost_recorded within_tick_taken (by decide) (by decide) (by decide) hready hstop
    · exact ⟨_, followHold_ends hlost hrole hstop hready hdue,
        hostLost_recorded within_tick (by decide) (by decide) (by decide) hready hstop⟩
    · exact congrArg Host.Outcome.next (followerLost_waits (s := tick dt s) hkey hwait)

end Sys2Proof.Machine
end

section
/-!
PROOFS. Catum Link ports: their training (R502, R503), the checks of their packets (R504 to R510) and CAT_CONFIG (R512).
-/

namespace Sys2Proof.Machine
variable {s t : State} {m : List StatePart} {dt k j port : Nat} {p : CatPkt}

/-! ### One port -/

theorem within_modCat {f : CatPort → CatPort} : Within [.catPorts] s (modCat port f s) := within_of_eq rfl (by decide)

theorem modCat_modCat {f g : CatPort → CatPort} : modCat port g (modCat port f s) = modCat port (fun c => g (f c)) s := by
  simp only [modCat, upd, List.modify_modify_eq]
  rfl

theorem loseHeld_none {n : Nat} (h : NoFaults s) : loseHeld n s = s := by
  obtain ⟨-, -, hheld⟩ := h
  simp only [loseHeld, hheld, List.filter_nil]
  show { s with fault := { s.fault with held := [] } } = s
  rw [← hheld]

/-! ### Training -/

theorem within_serviceStep : Within [.wear, .ledger] s (serviceStep s) := by
  unfold serviceStep
  have hwear : Within [.wear, .ledger] s { s with wear := { s.wear with
      status := serviceLevel (serviceCauses s)
      causes := maskOf ((List.range 8).filter fun i => (serviceCauses s).getD i false) } } :=
    within_of_eq_sub (m := [.wear]) rfl (by decide) (by decide)
  exact within_ite hwear (hwear.then (within_recordAt.mono (by decide)))

theorem catOf_serviceStep : catOf (serviceStep s) j = catOf s j := within_serviceStep.catOf (by decide) j

/-- The lanes of a port, heard. -/
def lanesHeard (port lock : Nat) (s : State) : State := modCat port (fun c => { c with lock := lock % 32 }) s

theorem catOf_lanesHeard {lock : Nat} (hport : port < s.catum.ports.length) :
    catOf (lanesHeard port lock s) port = { catOf s port with lock := lock % 32 } := catOf_modCat_same hport

/-- What heard lanes lead to, by the port's state. -/
theorem catLanes_eq {lock : Nat} {al : Bool} (hport : port < s.catum.ports.length) : catLanes port lock al s =
    match (catOf s port).state with
    | .bitlock => if (catOf s port).needed &&& lock % 32 == (catOf s port).needed then
        modCat port (fun c => { c with state := .align }) (lanesHeard port lock s) else lanesHeard port lock s
    | .align => if ((catOf s port).needed &&& lock % 32 == (catOf s port).needed) ∧ al then
        catIdent port (lanesHeard port lock s) else lanesHeard port lock s
    | .ready => if (catOf s port).needed &&& lock % 32 == (catOf s port).needed then lanesHeard port lock s
        else catLinkLost port 3 (lanesHeard port lock s)
    | _ => lanesHeard port lock s := by
  have hsame := catOf_lanesHeard (s := s) (lock := lock) hport
  unfold catLanes
  rw [← lanesHeard]
  dsimp only
  rw [hsame]
  rfl

section Lanes
variable {lock : Nat} {al : Bool} (hport : port < s.catum.ports.length)
include hport

theorem catLaneLock_bitlock (hst : (catOf s port).state = .bitlock)
    (hall : (catOf s port).needed &&& lock % 32 = (catOf s port).needed) : exec (.catLaneLock dt port lock al) s =
      .next (modCat port (fun c => { c with lock := lock % 32, state := .align }) (tick dt s)) := by
  have hst' : (catOf (tick dt s) port).state = .bitlock := hst
  refine congrArg Host.Outcome.next ((catLanes_eq (s := tick dt s) hport).trans ?_)
  rw [hst']
  exact (if_pos (beq_iff_eq.2 hall)).trans modCat_modCat

theorem catLaneLock_align (hst : (catOf s port).state = .align) (hfaults : NoFaults s)
    (hall : (catOf s port).needed &&& lock % 32 = (catOf s port).needed) (hal : al = true) :
    ∃ b, exec (.catLaneLock dt port lock al) s = .next { tick dt s with
      catum := { s.catum with ports := upd s.catum.ports port fun c => { c with lock := lock % 32, state := .ident } }
      out := .cat port b :: s.out } := by
  have hst' : (catOf (tick dt s) port).state = .align := hst
  have hident (u : State) (hu : NoFaults u) : ∃ b, catIdent port u =
      emit (.cat port b) (modCat port (fun c => { c with state := .ident }) u) := ⟨_, catOut_none hu⟩
  obtain ⟨b, hb⟩ := hident (lanesHeard port lock (tick dt s)) hfaults
  refine ⟨b, congrArg Host.Outcome.next ((catLanes_eq (s := tick dt s) hport).trans ?_)⟩
  rw [hst']
  refine (if_pos ⟨beq_iff_eq.2 hall, hal⟩).trans (hb.trans ?_)
  exact congrArg (emit (.cat port b)) modCat_modCat

theorem catLaneLock_ready (hst : (catOf s port).state = .ready)
    (hall : (catOf s port).needed &&& lock % 32 = (catOf s port).needed) : exec (.catLaneLock dt port lock al) s =
      .next (modCat port (fun c => { c with lock := lock % 32 }) (tick dt s)) := by
  have hst' : (catOf (tick dt s) port).state = .ready := hst
  refine congrArg Host.Outcome.next ((catLanes_eq (s := tick dt s) hport).trans ?_)
  rw [hst']
  exact if_pos (beq_iff_eq.2 hall)

theorem catLaneLock_lost (hst : (catOf s port).state = .ready)
    (hall : (catOf s port).needed &&& lock % 32 ≠ (catOf s port).needed) : exec (.catLaneLock dt port lock al) s =
      .next (catLinkLost port 3 (lanesHeard port lock (tick dt s))) := by
  have hst' : (catOf (tick dt s) port).state = .ready := hst
  refine congrArg Host.Outcome.next ((catLanes_eq (s := tick dt s) hport).trans ?_)
  rw [hst']
  exact if_neg fun hm => hall (beq_iff_eq.1 hm)

end Lanes

theorem within_catTrain : Within [.catPorts] s (catTrain port s) := within_modCat

/-- Loss of link without held packets: the port trains, and its marks go. -/
theorem catLinkLost_none {cause : Nat} (h : NoFaults s) : catLinkLost port cause s = let u := catTrain port (record (catUnit port) 0x1602
    (u8 port ++ u8 cause) s)
    checkLead { u with catum := { u.catum with marksIn := u.catum.marksIn.filter fun x => x.1 ≠ port } } := by
  unfold catLinkLost
  dsimp only
  rw [loseHeld_none (n := 0x20 + port) (s := record (catUnit port) 0x1602 (u8 port ++ u8 cause) s) h,
    loseHeld_none (n := 0x28 + port) (s := record (catUnit port) 0x1602 (u8 port ++ u8 cause) s) h]

theorem catLinkLost_frame {cause : Nat} (h : NoFaults s) (hport : port < s.catum.ports.length) :
    catOf (catLinkLost port cause s) port = { catOf s port with
        state := .bitlock, lock := 0, spared := 15, helloIn := false, nakSent := false, trainAt := s.now } ∧
      (catLinkLost port cause s).catum.marksIn = s.catum.marksIn.filter (fun x => x.1 ≠ port) ∧
      (∀ j, j ≠ port → catOf (catLinkLost port cause s) j = catOf s j) ∧
      Within [.ledger, .catPorts, .catum] s (catLinkLost port cause s) := by
  rw [catLinkLost_none h]
  dsimp only
  have hcheck {u : State} (j : Nat) : catOf (checkLead u) j = catOf u j := within_checkLead.catOf (by decide) j
  refine ⟨(hcheck _).trans (catOf_modCat_same (s := record _ _ _ s) hport), checkLead_field (f := Catum.marksIn) fun _ _ => rfl,
    fun j hj => (hcheck j).trans (catOf_modCat_ne (s := record _ _ _ s) hj), ?_⟩
  refine Within.then ?_ (within_checkLead.mono (by decide))
  refine Within.then ?_ (within_of_eq_sub (m := [.catum]) rfl (by decide) (by decide))
  exact (Within.mono within_recordAt (by decide)).then (within_catTrain.mono (by decide))

/-! ### Lanes that fail -/

theorem catLaneTimeout_spares {lane : Nat} (hst : (catOf s port).state = .bitlock) (hdue : (catOf s port).trainAt + 5 * msec ≤ s.now)
    (hone : ((List.range 4).filter fun l => !bitOf (catOf s port).lock l) = [lane]) (hfree : (catOf s port).spared = 15)
    (hreserve : bitOf (catOf s port).lock 4 = true) : catLaneTimeout port lane s =
      record (catUnit port) 0x1603 (u8 port ++ u8 lane) { modCat port (fun c => { c with spared := lane, state := .align }) s with
        wear := { s.wear with clSpared := upd s.wear.clSpared port fun _ => lane } } := by
  unfold catLaneTimeout
  dsimp only
  rw [if_neg fun h => h.elim (fun h => h hst) fun h => absurd hdue (not_le.2 h), hone]
  exact if_pos ⟨rfl, hfree, hreserve⟩

theorem catLaneTimeout_fails {lane : Nat} (hst : (catOf s port).state = .bitlock) (hdue : (catOf s port).trainAt + 5 * msec ≤ s.now)
    (htwo : 2 ≤ ((List.range 4).filter fun l => !bitOf (catOf s port).lock l).length) :
    catLaneTimeout port lane s = catFailed port s := by
  unfold catLaneTimeout
  dsimp only
  rw [if_neg fun h => h.elim (fun h => h hst) fun h => absurd hdue (not_le.2 h)]
  generalize ((List.range 4).filter fun l => !bitOf (catOf s port).lock l) = l at htwo
  match l, htwo with
  | _ :: _ :: _, _ => rfl

theorem catFailed_frame (hport : port < s.catum.ports.length) :
    catOf (catFailed port s) port = { catOf s port with state := .failed, trainAt := s.now } ∧
      (∀ j, j ≠ port → catOf (catFailed port s) j = catOf s j) ∧ Within [.wear, .ledger, .catPorts] s (catFailed port s) :=
  ⟨catOf_serviceStep.trans (catOf_modCat_same hport), fun _ hj => catOf_serviceStep.trans (catOf_modCat_ne hj),
    Within.then (within_modCat.mono (by decide)) (within_serviceStep.mono (by decide))⟩

/-- Only records and what is listed of the Catum ports and the wear record. -/
theorem portRecords_of_within (h : Within [.wear, .ledger, .catPorts] (tick dt s) t) :
    OnlyRecords { s with catum := t.catum, wear := t.wear } t :=
  onlyRecords_patch (m := [.catPorts, .locks, .catum, .wear]) ((within_trans within_tick h).mono (by decide)) (by decide)

theorem catumRecords_of_within (h : Within [.ledger, .catPorts, .catum] (tick dt s) t) : OnlyRecords { s with catum := t.catum } t :=
  onlyRecords_patch (m := [.catPorts, .locks, .catum]) ((within_trans within_tick h).mono (by decide)) (by decide)

theorem catLaneLockTimeout_spares {lane : Nat} (hport : port < s.catum.ports.length) (hst : (catOf s port).state = .bitlock)
    (hdue : (catOf s port).trainAt + 5 * msec ≤ (tick dt s).now)
    (hone : ((List.range 4).filter fun l => !bitOf (catOf s port).lock l) = [lane]) (hfree : (catOf s port).spared = 15)
    (hreserve : bitOf (catOf s port).lock 4 = true) : ∃ t, exec (.catLaneLockTimeout dt port lane) s = .next t ∧
      catOf t port = { catOf s port with spared := lane, state := .align } ∧ (∀ j, j ≠ port → catOf t j = catOf s j) ∧
      t.wear = { s.wear with clSpared := upd s.wear.clSpared port fun _ => lane } ∧
      OnlyRecords { s with catum := t.catum, wear := t.wear } t := by
  refine ⟨_, congrArg Host.Outcome.next (catLaneTimeout_spares (s := tick dt s) hst hdue hone hfree hreserve),
    catOf_modCat_same (s := tick dt s) hport, fun j hj => catOf_modCat_ne (s := tick dt s) hj, rfl, ?_⟩
  refine portRecords_of_within (dt := dt) (Within.then ?_ (Within.mono within_recordAt (by decide)))
  exact within_of_eq_sub (m := [.wear, .catPorts]) rfl (by decide) (by decide)

theorem catTrainTimeout_fails (hport : port < s.catum.ports.length) (htrain : (catOf s port).training = true)
    (hdue : (catOf s port).trainAt + 100 * msec ≤ (tick dt s).now) : ∃ t, exec (.catTrainTimeout dt port) s = .next t ∧
      catOf t port = { catOf s port with state := .failed, trainAt := (tick dt s).now } ∧
      (∀ j, j ≠ port → catOf t j = catOf s j) ∧ OnlyRecords { s with catum := t.catum, wear := t.wear } t := by
  obtain ⟨hsame, hother, hw⟩ := catFailed_frame (s := tick dt s) hport
  exact ⟨_, congrArg Host.Outcome.next (if_pos ⟨htrain, hdue⟩), hsame, hother, portRecords_of_within hw⟩

theorem catTrainRetry_trains (hst : (catOf s port).state = .failed) (hdue : (catOf s port).trainAt + sec ≤ (tick dt s).now) :
    exec (.catTrainRetry dt port) s = .next (catTrain port (tick dt s)) := congrArg Host.Outcome.next (if_pos ⟨hst, hdue⟩)

theorem catLinkDown_loses {cause : Nat} (hst : (catOf s port).state = .ready)
    (hgone : (catOf s port).linkGone cause (tick dt s).now = true) :
    exec (.catLinkDown dt port cause) s = .next (catLinkLost port cause (tick dt s)) := congrArg Host.Outcome.next (if_pos ⟨hst, hgone⟩)

theorem catAckTimer_sends (hst : (catOf s port).state = .ready) :
    exec (.catAckTimer dt port) s = .next (sendLink port false (tick dt s)) := congrArg Host.Outcome.next (if_pos hst)

/-! ### Packets -/

/-- Without fault rules a packet that fits reaches the port's checks. -/
theorem catArrive_checked {deliver : Nat → CatPkt → State → State} {buf : DmaBuf} (h : NoFaults s) (hgood : catGood p = true)
    (hhops : p.hops < 256) (hlsn : p.lsn < 65536) (htag : p.tag < 2 ^ 32)
    (hstate : (catOf s port).state = .ready ∨ (catOf s port).state = .ident) :
    catArrive deliver port p buf s = catLink deliver port p s := catArrive_none h (fits_of_good hgood hhops hlsn htag) hstate

/-- A LINK packet without a NAK, when nothing waits, acknowledges and renews credit. -/
theorem linkReceived_acks (hport : port < s.catum.ports.length) (hwait : (catOf s port).waiting = [])
    (hnak : bitOf (fieldOf p.payload 4 1) 0 = false) : linkReceived port p s = modCat port (fun c => { c with
      linkAt := s.now
      replay := c.replay.filter fun q => !decide ((fieldOf p.payload 0 2 + 65536 - q.lsn) % 65536 < 32768)
      sentAt := c.sentAt.drop (c.replay.filter fun q => decide ((fieldOf p.payload 0 2 + 65536 - q.lsn) % 65536 < 32768)).length
      limits := (List.range 4).map fun v => fieldOf p.payload (8 + 2 * v) 2 }) s := by
  have hpump {u : State} (hu : (catOf u port).waiting = []) : catPump port u = u := by
    rw [catPump, hu]
    rfl
  unfold linkReceived
  dsimp only
  rw [if_neg (by simp [hnak])]
  refine hpump ?_
  rw [catOf_modCat_same hport]
  exact hwait

theorem catLinkPacket_acks (hport : port < s.catum.ports.length) (hfaults : NoFaults s) (htype : p.type_ = 0)
    (hgood : catGood p = true) (hhops : p.hops < 256) (hlsn : p.lsn < 65536) (htag : p.tag < 2 ^ 32) (hsrc : p.src ≠ catDevice s)
    (hst : (catOf s port).state = .ready) (hwait : (catOf s port).waiting = [])
    (hnak : bitOf (fieldOf p.payload 4 1) 0 = false) : exec (.catLinkPacket dt port p) s = .next (modCat port (fun c => { c with
      linkAt := (tick dt s).now
      replay := c.replay.filter fun q => !decide ((fieldOf p.payload 0 2 + 65536 - q.lsn) % 65536 < 32768)
      sentAt := c.sentAt.drop (c.replay.filter fun q => decide ((fieldOf p.payload 0 2 + 65536 - q.lsn) % 65536 < 32768)).length
      limits := (List.range 4).map fun v => fieldOf p.payload (8 + 2 * v) 2 }) (tick dt s)) := by
  have hexec : exec (.catLinkPacket dt port p) s =
      .next (if p.type_ = 0x00 then catArrive (catDeliver clearRules noBuf) port p noBuf (tick dt s) else tick dt s) := rfl
  rw [hexec, if_pos htype, catArrive_checked (s := tick dt s) hfaults hgood hhops hlsn htag (Or.inl hst),
    ← linkReceived_acks (s := tick dt s) hport hwait hnak]
  refine congrArg Host.Outcome.next ?_
  have hst' : (catOf (tick dt s) port).state = .ready := hst
  unfold catLink
  simp only [hst', htype, ne_eq, reduceCtorEq, not_true_eq_false, if_false, if_true]
  exact (if_neg hsrc).trans (if_pos hgood)

/-- A HELLO leaves a module outside a domain as it was. -/
theorem helloReceived_stranger (h : catRole s ≠ 1) : helloReceived port p s = s := by
  unfold helloReceived
  dsimp only
  rw [decide_eq_false h]
  rfl

theorem helloReceived_member (hrole : catRole s = 1) (hfollow : bits (fieldOf p.payload 0 4) 14 2 = 2)
    (hlead : bits (fieldOf p.payload 0 4) 16 10 = catDevice s) (hdom : bits (fieldOf p.payload 0 4) 10 4 = catDomain s)
    (hmem : (getKey p.src s.catum.members).isSome = true) : helloReceived port p s =
      { s with catum := { s.catum with members := setKey p.src s.now s.catum.members } } := by
  have hmine : (decide (catRole s = 1) && bits (fieldOf p.payload 0 4) 14 2 == 2 &&
      bits (fieldOf p.payload 0 4) 16 10 == catDevice s && bits (fieldOf p.payload 0 4) 10 4 == catDomain s) = true := by
    simp only [hrole, hfollow, hlead, hdom, decide_true, beq_self_eq_true, Bool.and_self]
  unfold helloReceived
  dsimp only
  rw [hmine]
  exact (if_neg (by decide)).trans (if_pos hmem)

theorem exec_catHello (h : Arrives port p s) (htype : p.type_ = 1) :
    exec (.catHello dt port p) s = .next (helloReceived port p (taken port p (tick dt s))) := by
  have hpacket := catPacket_arrives (dt := dt) (buf := noBuf) h
  rw [htype] at hpacket
  refine congrArg Host.Outcome.next (hpacket.trans ?_)
  simp only [catDeliver, htype]

theorem catPump_none (h : (catOf s port).waiting = []) : catPump port s = s := by
  rw [catPump, h]
  rfl

/-- A port that becomes ready, its lanes put in the wear record and recorded. -/
def readyTold (port : Nat) (s : State) : State :=
  let s := modCat port (fun c => { c with state := .ready, linkAt := s.now, sentAt := c.replay.map fun _ => s.now }) s
  let c := catOf s port
  let s := serviceStep { s with wear := { s.wear with clSpared := upd s.wear.clSpared port fun _ =>
    if c.spared = 15 then 255 else c.spared } }
  record (catUnit port) 0x1601 (u8 port ++ u8 0 ++ u16 (catLaneMap c.spared) ++ u16 c.partner) s

theorem catReady_eq : catReady port s =
    let u := catPump port (catResend port (catOf (modCat port (fun c => { c with
      state := .ready, linkAt := s.now, sentAt := c.replay.map fun _ => s.now }) s) port).replay (readyTold port s))
    checkLead (if catRole u = 2 then helloLead port u else u) := rfl

theorem within_readyTold : Within [.wear, .ledger] (modCat port (fun c => { c with
    state := .ready, linkAt := s.now, sentAt := c.replay.map fun _ => s.now }) s) (readyTold port s) := by
  unfold readyTold
  refine Within.then (Within.then ?_ within_serviceStep) (Within.mono within_recordAt (by decide))
  exact within_of_eq_sub (m := [.wear]) rfl (by decide) (by decide)

/-- With nothing to send again, outside a domain, a port that hears its partner's HELLO is ready. -/
theorem catReady_idle (hport : port < s.catum.ports.length) (hreplay : (catOf s port).replay = [])
    (hwait : (catOf s port).waiting = []) (hrole : catRole s = 0) :
    catReady port s = checkLead (modCat port (fun c => { c with resent := satAdd top32 c.resent 0 }) (readyTold port s)) := by
  have hlen : port < (readyTold port s).catum.ports.length := by
    rw [(within_readyTold .catPorts (by decide)).1]
    exact (List.length_modify ..).symm ▸ hport
  have hnone : (catOf (modCat port (fun c => { c with
      state := .ready, linkAt := s.now, sentAt := c.replay.map fun _ => s.now }) s) port).replay = [] := by
    rw [catOf_modCat_same hport]
    exact hreplay
  have hquiet : (catOf (modCat port (fun c => { c with resent := satAdd top32 c.resent 0 }) (readyTold port s)) port).waiting = [] := by
    rw [catOf_modCat_same hlen, within_readyTold.catOf (by decide), catOf_modCat_same hport]
    exact hwait
  have hsent : catResend port [] (readyTold port s) =
      modCat port (fun c => { c with resent := satAdd top32 c.resent 0 }) (readyTold port s) := rfl
  have hregs : (modCat port (fun c => { c with resent := satAdd top32 c.resent 0 }) (readyTold port s)).regs = s.regs :=
    within_readyTold .causes (by decide)
  have hfree : catRole (modCat port (fun c => { c with resent := satAdd top32 c.resent 0 }) (readyTold port s)) ≠ 2 := by
    rw [catRole, regField_eq hregs]
    have hrole' : catRole s ≠ 2 := by rw [hrole]; decide
    exact hrole'
  rw [catReady_eq]
  dsimp only
  rw [hnone, hsent, catPump_none hquiet, if_neg hfree]

theorem catReady_frame (hport : port < s.catum.ports.length) (hreplay : (catOf s port).replay = []) (hwait : (catOf s port).waiting = [])
    (hrole : catRole s = 0) : (catOf (catReady port s) port).state = .ready ∧
      (catOf (catReady port s) port).partner = (catOf s port).partner ∧ (catReady port s).catum.learned = s.catum.learned ∧
      (∀ j, j ≠ port → catOf (catReady port s) j = catOf s j) ∧ Within [.wear, .ledger, .catPorts, .catum] s (catReady port s) := by
  have hlen : port < (readyTold port s).catum.ports.length := by
    rw [(within_readyTold .catPorts (by decide)).1]
    exact (List.length_modify ..).symm ▸ hport
  have hcheck {u : State} (j : Nat) : catOf (checkLead u) j = catOf u j := within_checkLead.catOf (by decide) j
  have htold (j : Nat) : catOf (readyTold port s) j = catOf (modCat port (fun c => { c with
      state := .ready, linkAt := s.now, sentAt := c.replay.map fun _ => s.now }) s) j := within_readyTold.catOf (by decide) j
  rw [catReady_idle hport hreplay hwait hrole]
  have hsame : catOf (checkLead (modCat port (fun c => { c with resent := satAdd top32 c.resent 0 }) (readyTold port s))) port =
      { catOf s port with
        state := .ready, linkAt := s.now, sentAt := (catOf s port).replay.map fun _ => s.now
        resent := satAdd top32 (catOf s port).resent 0 } := by
    rw [hcheck, catOf_modCat_same hlen, htold, catOf_modCat_same hport]
  refine ⟨by rw [hsame], by rw [hsame], ?_, fun j hj => ?_, ?_⟩
  · refine (checkLead_field (f := Catum.learned) fun _ _ => rfl).trans ?_
    exact within_readyTold.catum_field (f := Catum.learned) (by decide) fun _ => rfl
  · rw [hcheck, catOf_modCat_ne hj, htold, catOf_modCat_ne hj]
  · refine Within.then (Within.then ?_ (within_modCat.mono (by decide))) (within_checkLead.mono (by decide))
    exact Within.then (within_modCat.mono (by decide)) (within_readyTold.mono (by decide))

/-- The partner's HELLO in IDENT brings READY. -/
theorem catHello_ready (hport : port < s.catum.ports.length) (hfaults : NoFaults s) (htype : p.type_ = 1) (hhops : p.hops = 1)
    (hgood : catGood p = true) (hlsn : p.lsn < 65536) (htag : p.tag < 2 ^ 32) (hsrc : p.src ≠ catDevice s)
    (hst : (catOf s port).state = .ident) (hreplay : (catOf s port).replay = []) (hwait : (catOf s port).waiting = [])
    (hrole : catRole s = 0) : ∃ t, exec (.catHello dt port p) s = .next t ∧
      (catOf t port).state = .ready ∧ (catOf t port).partner = p.src ∧ getKey p.src t.catum.learned = some port ∧
      (∀ j, j ≠ port → catOf t j = catOf s j) ∧ OnlyRecords { s with catum := t.catum, wear := t.wear } t := by
  have hu : Within [.catPorts, .catum] (tick dt s)
      (modCat port (fun c => { c with partner := p.src, helloIn := true }) (catLearn port p.src (tick dt s))) :=
    within_of_eq rfl (by decide)
  have hsame : catOf (modCat port (fun c => { c with partner := p.src, helloIn := true }) (catLearn port p.src (tick dt s))) port =
      { catOf s port with partner := p.src, helloIn := true } :=
    catOf_modCat_same (s := catLearn port p.src (tick dt s)) hport
  have hother (j : Nat) (hj : j ≠ port) : catOf (modCat port (fun c => { c with partner := p.src, helloIn := true })
      (catLearn port p.src (tick dt s))) j = catOf s j := catOf_modCat_ne (s := catLearn port p.src (tick dt s)) hj
  have hlearned : getKey p.src (modCat port (fun c => { c with partner := p.src, helloIn := true })
      (catLearn port p.src (tick dt s))).catum.learned = some port := getKey_setKey_same
  have hlen : port < (modCat port (fun c => { c with partner := p.src, helloIn := true })
      (catLearn port p.src (tick dt s))).catum.ports.length := (List.length_modify ..).symm ▸ hport
  have hexec : exec (.catHello dt port p) s = .next (helloReceived port p (catReady port
      (modCat port (fun c => { c with partner := p.src, helloIn := true }) (catLearn port p.src (tick dt s))))) := by
    have hstart : exec (.catHello dt port p) s =
        .next (if p.type_ = 0x01 then catArrive (catDeliver clearRules noBuf) port p noBuf (tick dt s) else tick dt s) := rfl
    rw [hstart, if_pos htype,
      catArrive_checked (s := tick dt s) hfaults hgood (by omega) hlsn htag (Or.inr hst)]
    refine congrArg Host.Outcome.next ?_
    have hst' : (catOf (tick dt s) port).state = .ident := hst
    unfold catLink
    simp only [hst', if_true]
    refine (if_pos ⟨htype, hhops⟩).trans ((if_neg hsrc).trans ?_)
    rw [hgood]
    simp only [Bool.not_true, Bool.false_eq_true, if_false, catDeliver, htype]
  have hrole' : catRole (modCat port (fun c => { c with partner := p.src, helloIn := true }) (catLearn port p.src (tick dt s))) = 0 :=
    hrole
  generalize modCat port (fun c => { c with partner := p.src, helloIn := true }) (catLearn port p.src (tick dt s)) = u at *
  obtain ⟨hready, hpartner, hlearn, hothers, hw⟩ := catReady_frame hlen (by rw [hsame]; exact hreplay) (by rw [hsame]; exact hwait) hrole'
  have hroleT : catRole (catReady port u) ≠ 1 := by
    rw [catRole, regField_eq (hw .causes (by decide))]
    have hne : catRole u ≠ 1 := by rw [hrole']; decide
    exact hne
  rw [helloReceived_stranger hroleT] at hexec
  refine ⟨_, hexec, hready, by rw [hpartner, hsame], by rw [hlearn, hlearned], fun j hj => (hothers j hj).trans (hother j hj), ?_⟩
  exact onlyRecords_patch (m := [.catPorts, .locks, .catum, .wear])
    ((within_trans (within_trans within_tick hu) hw).mono (by decide)) (by decide)

theorem exec_catPacketBad_crc (hgood : catGood p = true) (hst : (catOf s port).state = .ready) :
    exec (.catPacketBad dt port p) s = .next (catCrcFail port (tick dt s)) := by
  have hup : ((catOf (tick dt s) port).state == .ready || (catOf (tick dt s) port).state == .ident) = true := by
    have hst' : (catOf (tick dt s) port).state = .ready := hst
    simp [hst']
  exact congrArg Host.Outcome.next ((if_neg (by simp [hgood])).trans (if_pos hup))

/-- The first packet with a bad CRC is counted and asked for again. -/
theorem catPacketBad_asks (hport : port < s.catum.ports.length) (hfaults : NoFaults s) (hgood : catGood p = true)
    (hst : (catOf s port).state = .ready) (hnak : (catOf s port).nakSent = false) :
    ∃ b, exec (.catPacketBad dt port p) s = .next { tick dt s with
      catum := { s.catum with ports := upd s.catum.ports port fun c => { c with crc := bump c.crc, nakSent := true } }
      out := .cat port b :: s.out } := by
  have hnak' : ¬(catOf (catCount port (tick dt s)) port).nakSent = true := by
    rw [catCount, catOf_modCat_same (s := tick dt s) hport]
    show ¬(catOf s port).nakSent = true
    simp [hnak]
  have hsend (u : State) (hu : NoFaults u) : ∃ b, sendLink port true u = emit (.cat port b) u := ⟨_, catOut_none hu⟩
  obtain ⟨b, hb⟩ := hsend (modCat port (fun c => { c with nakSent := true }) (catCount port (tick dt s))) hfaults
  refine ⟨b, (exec_catPacketBad_crc hgood hst).trans (congrArg Host.Outcome.next ((if_neg hnak').trans (hb.trans ?_)))⟩
  exact congrArg (emit (.cat port b)) modCat_modCat

theorem catPacketBad_counts (hport : port < s.catum.ports.length) (hgood : catGood p = true)
    (hst : (catOf s port).state = .ready) (hnak : (catOf s port).nakSent = true) : exec (.catPacketBad dt port p) s =
      .next (modCat port (fun c => { c with crc := bump c.crc }) (tick dt s)) := by
  have hnak' : (catOf (catCount port (tick dt s)) port).nakSent = true := by
    rw [catCount, catOf_modCat_same (s := tick dt s) hport]
    exact hnak
  exact (exec_catPacketBad_crc hgood hst).trans (congrArg Host.Outcome.next (if_pos hnak'))

/-- What a packet in its turn leaves of the port before it is checked. -/
def turnTaken (port : Nat) (p : CatPkt) (s : State) : State :=
  modCat port (fun c => { c with
    lsnRx := (c.lsnRx + 1) % 65536, nakSent := false
    rxUnits := upd c.rxUnits (p.vc % 4) fun n => (n + p.units) % 65536 }) s

theorem catLink_turn {deliver : Nat → CatPkt → State → State} (hst : (catOf s port).state = .ready) (htype : p.type_ ≠ 0)
    (hturn : p.lsn = (catOf s port).lsnRx) : catLink deliver port p s = catAccept deliver port p (turnTaken port p s) := by
  unfold catLink
  simp only [hst, htype, hturn, ne_eq, not_true_eq_false, if_false, reduceCtorEq]
  rfl

/-- A packet of a bad layout is taken and counted. -/
theorem catPacketBad_layout (hport : port < s.catum.ports.length) (hfaults : NoFaults s) (hst : (catOf s port).state = .ready)
    (hbad : catGood p = false) (hfits : Fits p) (htype : p.type_ ≠ 0) (hsrc : p.src ≠ catDevice s)
    (hturn : p.lsn = (catOf s port).lsnRx) : ∃ t, exec (.catPacketBad dt port p) s = .next t ∧
      (catOf t port).crc = bump (catOf s port).crc ∧ (catOf t port).lsnRx = ((catOf s port).lsnRx + 1) % 65536 ∧
      (∀ j, j ≠ port → catOf t j = catOf s j) ∧ t = { tick dt s with catum := { s.catum with ports := t.catum.ports } } := by
  have hexec : exec (.catPacketBad dt port p) s = .next (catCount port (turnTaken port p (tick dt s))) := by
    refine congrArg Host.Outcome.next ((if_pos (by simp [hbad])).trans ?_)
    rw [catArrive_none (s := tick dt s) hfaults hfits (Or.inl hst), catLink_turn (s := tick dt s) hst htype hturn]
    refine (if_neg hsrc).trans (if_pos (by simp [hbad]))
  have hsame : catOf (catCount port (turnTaken port p (tick dt s))) port =
      { catOf s port with
        crc := bump (catOf s port).crc, lsnRx := ((catOf s port).lsnRx + 1) % 65536, nakSent := false
        rxUnits := upd (catOf s port).rxUnits (p.vc % 4) fun n => (n + p.units) % 65536 } := by
    rw [catCount, turnTaken, modCat_modCat]
    exact catOf_modCat_same (s := tick dt s) hport
  refine ⟨_, hexec, by rw [hsame], by rw [hsame], fun j hj => ?_, rfl⟩
  rw [catCount, turnTaken, modCat_modCat]
  exact catOf_modCat_ne (s := tick dt s) hj

/-- A packet for another device is taken and forwarded. -/
theorem exec_catPacketForward (hfaults : NoFaults s) (hgood : catGood p = true) (hst : (catOf s port).state = .ready)
    (htype : p.type_ ≠ 0) (hhops : p.hops < 256) (hlsn : p.lsn < 65536) (htag : p.tag < 2 ^ 32) (hsrc : p.src ≠ catDevice s)
    (hturn : p.lsn = (catOf s port).lsnRx) (hdest : p.dest ≠ catDevice s) :
    exec (.catPacketForward dt port p) s = .next (catForward p (taken port p (tick dt s))) := by
  have hdest' : p.dest ≠ catDevice (taken port p (tick dt s)) := by
    rw [catDevice_taken]
    exact hdest
  refine congrArg Host.Outcome.next ((if_pos ⟨hdest, htype⟩).trans ?_)
  rw [catArrive_checked (s := tick dt s) hfaults hgood hhops hlsn htag (Or.inl hst),
    catLink_turn (s := tick dt s) hst htype hturn]
  refine (if_neg hsrc).trans ((if_neg (by simp [hgood])).trans (if_neg hdest'))

theorem catForward_routes {q : Nat} (hhops : 1 < p.hops) (hroute : routeOf s p.dest = some q) :
    catForward p s = catQueue q { p with hops := p.hops - 1 } s := by
  unfold catForward
  rw [if_neg (by omega), hroute]

theorem catForward_lost (hhops : 1 < p.hops) (hroute : routeOf s p.dest = none) : catForward p s = s := by
  unfold catForward
  rw [if_neg (by omega), hroute]

/-- A packet whose hops end is counted, and told once a second. -/
theorem catForward_ends (hhops : p.hops ≤ 1) : (catForward p s).catum.hopDrop = bump s.catum.hopDrop ∧
    (catForward p s).catum.ports = s.catum.ports ∧ Within [.ledger, .catum] s (catForward p s) := by
  have hcount : Within [.ledger, .catum] s { s with catum := { s.catum with hopDrop := bump s.catum.hopDrop } } :=
    within_of_eq_sub (m := [.catum]) rfl (by decide) (by decide)
  unfold catForward
  rw [if_pos hhops]
  dsimp only
  split
  · exact ⟨rfl, rfl, hcount⟩
  · refine ⟨rfl, rfl, Within.then ?_ (Within.mono within_recordAt (by decide))⟩
    exact within_of_eq_sub (m := [.catum]) rfl (by decide) (by decide)

/-! ### CAT_CONFIG -/

theorem exec_catConfig_accepted {d : Desc} {buf : HostBuf} (h : Runs (.catConfig dt d buf) s) :
    exec (.catConfig dt d buf) s = .next (catConfigAct buf d (begun d d (tick dt s))) :=
  congrArg Host.Outcome.next (runDesc_accepted h)

theorem fwdEntry_ring {b : List Byte} {q : Nat} {e : FwdEnt} (h : fwdEntry b q = some e) : e.ring = q := by
  unfold fwdEntry at h
  dsimp only at h
  split at h
  · exact (Option.some.inj h) ▸ rfl
  · cases h

/-- The entry of a ring among those of the block. -/
theorem find_fwdEntry {b : List Byte} {q : Nat} {l : List Nat} (hq : q ∈ l) :
    (l.filterMap (fwdEntry b)).find? (fun e => e.ring = q) = fwdEntry b q := by
  have hnot {l : List Nat} (hno : fwdEntry b q = none) : (l.filterMap (fwdEntry b)).find? (fun e => e.ring = q) = none := by
    refine List.find?_eq_none.2 fun e he => ?_
    obtain ⟨i, -, hi⟩ := List.mem_filterMap.1 he
    intro hring
    rw [fwdEntry_ring hi, decide_eq_true_eq] at hring
    subst hring
    rw [hno] at hi
    cases hi
  induction l with
  | nil => cases hq
  | cons i l ih =>
    by_cases hi : i = q
    · subst hi
      cases he : fwdEntry b i with
      | none => exact hnot he
      | some e => rw [List.filterMap_cons_some he, List.find?_cons_of_pos (by simp [fwdEntry_ring he])]
    · have hl : q ∈ l := (List.mem_cons.1 hq).resolve_left (Ne.symm hi)
      cases he : fwdEntry b i with
      | none => rw [List.filterMap_cons_none he, ih hl]
      | some e => rw [List.filterMap_cons_some he, List.find?_cons_of_neg (by simp [fwdEntry_ring he, hi]), ih hl]

/-- The route of a device among those of the block. -/
theorem getKey_routes {g : Nat → Nat} {own dev : Nat} {l : List Nat} (hdev : dev ∈ l) (hne : dev ≠ own) :
    (getKey dev ((l.map fun i => (i, g i)).filter fun e => e.2 ≠ 0xFE ∧ e.1 ≠ own)).getD 0xFE = g dev := by
  have hother {l : List Nat} (hg : g dev = 0xFE) :
      getKey dev ((l.map fun i => (i, g i)).filter fun e => e.2 ≠ 0xFE ∧ e.1 ≠ own) = none := by
    simp only [getKey, Option.map_eq_none_iff, List.find?_eq_none, List.mem_filter, List.mem_map, decide_eq_true_eq, beq_iff_eq]
    rintro e ⟨⟨i, -, rfl⟩, hfe, -⟩ rfl
    exact hfe hg
  by_cases hg : g dev = 0xFE
  · rw [hother hg, hg]
    rfl
  · have hfind : getKey dev ((l.map fun i => (i, g i)).filter fun e => e.2 ≠ 0xFE ∧ e.1 ≠ own) = some (g dev) := by
      induction l with
      | nil => cases hdev
      | cons i l ih =>
        by_cases hi : i = dev
        · subst hi
          simp [getKey, hg, hne]
        · have hl := ih ((List.mem_cons.1 hdev).resolve_left (Ne.symm hi))
          rw [List.map_cons, List.filter_cons]
          split
          · simp only [getKey, List.find?_cons, beq_eq_false_iff_ne.2 hi] at hl ⊢
            exact hl
          · exact hl
    rw [hfind]
    rfl

/-- What the block does to one port. -/
def portSet (b : List Byte) (p : Nat) (s : State) : State :=
  let on := bitOf (fieldOf b 0 1) p
  let s := modCat p (fun c => { c with asym := signed 16 (fieldOf b (8 + 2 * p) 2) }) s
  if on == (catOf s p).enabled then s
  else if on then catTrain p (modCat p (fun c => { c with enabled := true, dup := false }) s)
  else catOff p s

def blockRoutes (b : List Byte) (own : Nat) : List (Nat × Nat) :=
  ((List.range 1024).map fun i => (i, fieldOf b (64 + i) 1)).filter fun e => e.2 ≠ 0xFE ∧ e.1 ≠ own

def blockFwd (b : List Byte) : List FwdEnt := (List.range 256).filterMap (fwdEntry b)

/-- The block's routes, forwarding and time master. -/
def blockTables (b : List Byte) (s : State) : State :=
  { s with catum := { s.catum with
    master := fieldOf b 4 2
    neighDev := if decide (s.catum.master ≠ fieldOf b 4 2) then none else s.catum.neighDev
    followHold := fieldOf b 16 4
    routes := blockRoutes b (catDevice s)
    fwd := blockFwd b } }

/-- Tables of the Catum part that leave its ports, its reads and its locks. -/
theorem within_catum {c : Catum} (hports : c.ports = s.catum.ports) (hreads : c.reads = s.catum.reads) (hlocks : c.locks = s.catum.locks) :
    Within [.catum] s { s with catum := c } := by
  refine within_of_eq ?_ (by decide)
  show _ = { s with catum := { c with ports := s.catum.ports, reads := s.catum.reads, locks := s.catum.locks } }
  rw [← hports, ← hreads, ← hlocks]

theorem blockTables_routes {b : List Byte} : (blockTables b s).catum.routes = blockRoutes b (catDevice s) := by
  simp only [blockTables]

theorem within_blockTables {b : List Byte} : Within [.catum] s (blockTables b s) := within_catum rfl rfl rfl

def blockSet (b : List Byte) (s : State) : State := checkLead (blockTables b s)

/-- The ports as the block sets them. -/
def portsSet (b : List Byte) (s : State) : State := forEach (List.range 4) (portSet b) s

theorem within_blockSet {b : List Byte} : Within [.catum] s (blockSet b s) := within_blockTables.then within_checkLead

theorem catApply_eq {b : List Byte} : catApply b s =
    let u := portsSet b s
    if decide (u.catum.master ≠ fieldOf b 4 2) ∧ (blockSet b u).time.source = 2 then timeSource (blockSet b u) else blockSet b u := rfl

theorem within_catOff : Within (.catum :: sendParts) s (catOff port s) := by
  unfold catOff
  refine Within.then ?_ (within_checkLead.mono (by decide))
  refine Within.then ?_ (within_modCat.mono (by decide))
  exact Within.then (within_loseHeld.mono (by decide)) (within_loseHeld.mono (by decide))

theorem within_portSet {b : List Byte} : Within (.catum :: sendParts) s (portSet b port s) := by
  have hset {f : CatPort → CatPort} {u : State} : Within (.catum :: sendParts) u (modCat port f u) := within_modCat.mono (by decide)
  exact within_ite hset (within_ite ((hset.then hset).then hset) (hset.then within_catOff))

theorem loseHeld_catum {n : Nat} : (loseHeld n s).catum = s.catum := by
  have hw : Within [.fault, .ledger] s (loseHeld n s) := by
    unfold loseHeld
    exact Within.then (within_of_eq_sub (m := [.fault]) rfl (by decide) (by decide)) (within_forEach fun _ _ => within_recordAt.mono (by decide))
  exact hw.apply State.catum rfl

theorem catOff_catum : (catOff port s).catum = (checkLead (modCat port (fun c => { c with
    state := .down, enabled := false, lock := 0, spared := 15, helloIn := false, nakSent := false })
    (loseHeld (0x28 + port) (loseHeld (0x20 + port) s)))).catum := rfl

theorem catOff_field {α : Type} {f : Catum → α} (hl : ∀ c v, f { c with leadLost := v } = f c) (hp : ∀ c v, f { c with ports := v } = f c) :
    f (catOff port s).catum = f s.catum := by
  rw [catOff_catum, checkLead_field hl]
  exact (hp _ _).trans (by rw [loseHeld_catum, loseHeld_catum])

theorem portSet_field {b : List Byte} {α : Type} {f : Catum → α} (hl : ∀ c v, f { c with leadLost := v } = f c)
    (hp : ∀ c v, f { c with ports := v } = f c) : f (portSet b port s).catum = f s.catum := by
  unfold portSet
  dsimp only
  split
  · exact hp _ _
  · split
    · exact ((hp _ _).trans (hp _ _)).trans (hp _ _)
    · exact (catOff_field hl hp).trans (hp _ _)

theorem portSet_length {b : List Byte} : (portSet b port s).catum.ports.length = s.catum.ports.length := by
  have hoff {u : State} : (catOff port u).catum.ports.length = u.catum.ports.length := by
    rw [catOff_catum, checkLead_field (f := fun c : Catum => c.ports.length) fun _ _ => rfl]
    exact (List.length_modify ..).trans (by rw [loseHeld_catum, loseHeld_catum])
  have hmod {f : CatPort → CatPort} {u : State} : (modCat port f u).catum.ports.length = u.catum.ports.length := List.length_modify ..
  unfold portSet
  dsimp only
  split
  · exact hmod
  · split
    · exact (hmod.trans hmod).trans hmod
    · exact hoff.trans hmod

theorem catOf_catOff {j : Nat} : catOf (catOff port s) j = catOf (modCat port (fun c => { c with
    state := .down, enabled := false, lock := 0, spared := 15, helloIn := false, nakSent := false }) s) j := by
  have hcheck := within_checkLead (s := modCat port (fun c => { c with
    state := .down, enabled := false, lock := 0, spared := 15, helloIn := false, nakSent := false })
    (loseHeld (0x28 + port) (loseHeld (0x20 + port) s))) |>.catOf (by decide) j
  refine hcheck.trans ?_
  simp only [catOf, modCat, loseHeld_catum]

theorem catOf_portSet_ne {b : List Byte} (hj : j ≠ port) : catOf (portSet b port s) j = catOf s j := by
  have hmod {f : CatPort → CatPort} {u : State} : catOf (modCat port f u) j = catOf u j := catOf_modCat_ne hj
  unfold portSet
  dsimp only
  split
  · exact hmod
  · split
    · exact (hmod.trans hmod).trans hmod
    · rw [catOf_catOff, hmod, hmod]

/-- What the block makes of a port: its asymmetry, whether it is enabled, and the state that a change leads to. -/
def PortAsSet (b : List Byte) (p : Nat) (old new : CatPort) : Prop :=
  new.enabled = bitOf (fieldOf b 0 1) p ∧ new.asym = signed 16 (fieldOf b (8 + 2 * p) 2) ∧
    new.state = if old.enabled = bitOf (fieldOf b 0 1) p then old.state else if bitOf (fieldOf b 0 1) p then .bitlock else .down

theorem portAsSet_portSet {b : List Byte} (hport : port < s.catum.ports.length) :
    PortAsSet b port (catOf s port) (catOf (portSet b port s) port) := by
  have hasym := catOf_modCat_same (s := s) (f := fun c => { c with asym := signed 16 (fieldOf b (8 + 2 * port) 2) }) hport
  unfold portSet
  dsimp only
  cases hon : bitOf (fieldOf b 0 1) port <;> cases hold : (catOf s port).enabled <;>
    simp only [hasym, hold, beq_self_eq_true, if_true, Bool.false_eq_true, if_false, PortAsSet, hon, Bool.true_eq_false,
      beq_iff_eq, catOf_catOff, catTrain, modCat_modCat, catOf_modCat_same hport, and_self]

theorem portsSet_field {b : List Byte} {l : List Nat} {α : Type} {f : Catum → α} (hl : ∀ c v, f { c with leadLost := v } = f c)
    (hp : ∀ c v, f { c with ports := v } = f c) : f (forEach l (portSet b) s).catum = f s.catum := by
  induction l generalizing s with
  | nil => rfl
  | cons a l ih => exact ih.trans (portSet_field hl hp)

theorem catOf_portsSet_other {b : List Byte} {l : List Nat} (hj : j ∉ l) : catOf (forEach l (portSet b) s) j = catOf s j := by
  induction l generalizing s with
  | nil => rfl
  | cons a l ih =>
    exact (ih (List.not_mem_of_not_mem_cons hj)).trans (catOf_portSet_ne (List.ne_of_not_mem_cons hj))

/-- Each port is as the block sets it. -/
theorem portAsSet_portsSet {b : List Byte} {l : List Nat} (hnodup : l.Nodup) (hport : port ∈ l) (hlen : port < s.catum.ports.length) :
    PortAsSet b port (catOf s port) (catOf (forEach l (portSet b) s) port) := by
  induction l generalizing s with
  | nil => cases hport
  | cons a l ih =>
    obtain ⟨ha, hnodup⟩ := List.nodup_cons.1 hnodup
    rw [forEach_cons]
    rcases List.mem_cons.1 hport with rfl | hmem
    · rw [catOf_portsSet_other ha]
      exact portAsSet_portSet hlen
    · have hset := ih (s := portSet b a s) hnodup hmem (by rwa [portSet_length])
      have hne : port ≠ a := fun h => ha (by rwa [← h])
      rwa [catOf_portSet_ne hne] at hset

theorem timeSource_catum : (timeSource s).catum = s.catum := rfl

theorem within_timeSource : Within [.ledger] s (timeSource s) := within_recordAt

theorem within_catApply {b : List Byte} : Within (.catum :: sendParts) s (catApply b s) := by
  rw [catApply_eq]
  have hports : Within (.catum :: sendParts) s (portsSet b s) := within_forEach fun _ _ => within_portSet
  have hblock : Within (.catum :: sendParts) s (blockSet b (portsSet b s)) := hports.then (within_blockSet.mono (by decide))
  exact within_ite (hblock.then (within_timeSource.mono (by decide))) hblock

/-- Of the Catum part an applied block leaves that of its ports and its own tables. -/
theorem catApply_catum {b : List Byte} : (catApply b s).catum = (blockSet b (portsSet b s)).catum := by
  rw [catApply_eq]
  dsimp only
  split
  · exact timeSource_catum
  · rfl

theorem catApply_ports {b : List Byte} (hlen : s.catum.ports.length = 4) (hport : port < 4) :
    PortAsSet b port (catOf s port) (catOf (catApply b s) port) := by
  have hcheck : catOf (catApply b s) port = catOf (portsSet b s) port := by
    rw [catOf, catApply_catum]
    exact within_blockSet.catOf (by decide) port
  rw [hcheck]
  exact portAsSet_portsSet List.nodup_range (List.mem_range.2 hport) (by omega)

theorem catApply_kept {b : List Byte} {α : Type} {f : Catum → α} (hl : ∀ c v, f { c with leadLost := v } = f c)
    (hp : ∀ c v, f { c with ports := v } = f c) (hb : ∀ c m n h r w, f { c with
      master := m, neighDev := n, followHold := h, routes := r, fwd := w } = f c) : f (catApply b s).catum = f s.catum := by
  rw [catApply_catum, blockSet, checkLead_field hl]
  exact (hb _ _ _ _ _ _).trans (portsSet_field hl hp)

theorem catApply_set {b : List Byte} : (catApply b s).catum.master = fieldOf b 4 2 ∧ (catApply b s).catum.followHold = fieldOf b 16 4 ∧
    (catApply b s).catum.fwd = blockFwd b ∧ (catApply b s).catum.routes = blockRoutes b (catDevice s) := by
  have hports : Within (.catum :: sendParts) s (portsSet b s) := within_forEach fun _ _ => within_portSet
  have hown : catDevice (portsSet b s) = catDevice s := regField_eq (hports .causes (by decide))
  rw [catApply_catum, blockSet, ← hown]
  exact ⟨checkLead_field (f := Catum.master) fun _ _ => rfl, checkLead_field (f := Catum.followHold) fun _ _ => rfl,
    checkLead_field (f := Catum.fwd) fun _ _ => rfl, (checkLead_field (f := Catum.routes) fun _ _ => rfl).trans blockTables_routes⟩

theorem catConfigAct_short {d : Desc} {buf : HostBuf} (h : d.length < 2112) :
    catConfigAct buf d s = complete d 0x1680 (u16 d.length) s := by
  unfold catConfigAct
  rw [if_pos h]

/-! ### Completions and the ports -/

/-- What a completion leaves of every Catum port. -/
def portFace (c : CatPort) : CatState × Bool × Int := (c.state, c.enabled, c.asym)

def PortsKept (s t : State) : Prop :=
  t.catum.ports.length = s.catum.ports.length ∧ ∀ j, portFace (catOf t j) = portFace (catOf s j)

theorem portsKept_refl : PortsKept s s := ⟨rfl, fun _ => rfl⟩

theorem PortsKept.then {u : State} (h1 : PortsKept s t) (h2 : PortsKept t u) : PortsKept s u :=
  ⟨h2.1.trans h1.1, fun j => (h2.2 j).trans (h1.2 j)⟩

theorem portsKept_of_ports (h : t.catum.ports = s.catum.ports) : PortsKept s t :=
  ⟨congrArg List.length h, fun j => by rw [catOf, h, catOf]⟩

theorem portsKept_of_catum (h : t.catum = s.catum) : PortsKept s t := portsKept_of_ports (congrArg Catum.ports h)

theorem Within.portsKept (h : Within m s t) (hm : StatePart.catPorts ∉ m) : PortsKept s t := portsKept_of_ports (h .catPorts hm).1

theorem portsKept_modCat {f : CatPort → CatPort} (hf : ∀ c, portFace (f c) = portFace c) : PortsKept s (modCat port f s) := by
  refine ⟨List.length_modify .., fun j => ?_⟩
  by_cases hj : j = port
  · subst hj
    by_cases hlen : j < s.catum.ports.length
    · rw [catOf_modCat_same hlen, hf]
    · have hout : s.catum.ports.modify j f = s.catum.ports := List.modify_eq_self (by omega)
      simp only [catOf, modCat, upd, hout]
  · rw [catOf_modCat_ne hj]

theorem portsKept_catLaunch {c : CatPkt} : PortsKept s (catLaunch port c s) := by
  refine PortsKept.then ?_ (within_catOut.portsKept (by decide))
  exact portsKept_modCat fun _ => rfl

theorem portsKept_catServe {n : Nat} : PortsKept s (catServe port n s) := by
  induction n generalizing s with
  | zero => exact portsKept_refl
  | succ n ih =>
    unfold catServe
    dsimp only
    split
    · exact portsKept_refl
    · split
      · exact portsKept_refl
      · refine PortsKept.then (PortsKept.then ?_ portsKept_catLaunch) ih
        exact portsKept_modCat fun _ => rfl

theorem portsKept_catSend {ty vc dest tag : Nat} {b : List Byte} : PortsKept s (catSend ty vc dest tag b s) := by
  unfold catSend
  split
  · refine PortsKept.then ?_ portsKept_catServe
    exact portsKept_modCat fun _ => rfl
  · exact portsKept_refl

theorem portsKept_ite {c : Prop} [Decidable c] {a b : State} (ha : PortsKept s a) (hb : PortsKept s b) :
    PortsKept s (if c then a else b) := by
  split
  · exact ha
  · exact hb

theorem portsKept_raiseCause {pf1 : Bool} {b : Nat} : PortsKept s (raiseCause pf1 b s) := within_raiseCause.portsKept (by decide)

theorem portsKept_writeComp {c : Nat} {m : Comp} : PortsKept s (writeComp c m s) := by
  unfold writeComp
  extract_lets r size next s1 s2 s3
  have h0 : PortsKept s (if m.notice then s else markFirst m.sq s) := portsKept_ite portsKept_refl (portsKept_of_catum rfl)
  have h1 : PortsKept s s1 := h0.then (portsKept_of_catum rfl)
  have h2 : PortsKept s s2 := h1.then (portsKept_of_catum rfl)
  have h3 : PortsKept s s3 := portsKept_ite (h2.then portsKept_raiseCause) h2
  exact portsKept_ite (h3.then (portsKept_of_catum rfl)) h3

theorem portsKept_postTo {c : Nat} {m : Comp} : PortsKept s (postTo c m s) := by
  unfold postTo
  refine portsKept_ite portsKept_writeComp (portsKept_ite (portsKept_of_catum rfl) ?_)
  extract_lets pf1 t
  have ht : PortsKept s t := portsKept_ite (portsKept_of_catum rfl) portsKept_refl
  refine PortsKept.then ?_ portsKept_raiseCause
  exact ht.then (t := t) (portsKept_of_ports rfl)

theorem portsKept_postFor {d : Desc} {m : Comp} : PortsKept s (postFor d m s) := by
  unfold postFor
  split
  · exact portsKept_catSend
  · exact portsKept_postTo

theorem portsKept_hostErr {d : Desc} {st : Nat} : PortsKept s (hostErr d st s) := by
  unfold hostErr
  split
  · exact portsKept_raiseCause
  · exact portsKept_refl

theorem portsKept_firstAt {n st : Nat} {d : Desc} {b : List Byte} : PortsKept s (firstAt n d st b s) := by
  unfold firstAt
  split
  · exact portsKept_refl
  · extract_lets hst s1 cat s2 s3
    have h1 : PortsKept s s1 := PortsKept.then (portsKept_of_catum rfl) portsKept_hostErr
    have h2 : PortsKept s1 s2 := by
      unfold s2
      split
      · exact portsKept_refl
      · exact portsKept_of_ports rfl
    have h3 : PortsKept s s3 := (h1.then h2).then (portsKept_of_catum rfl)
    split
    · split
      · exact h3.then (portsKept_of_catum rfl)
      · exact h3
    · exact h3.then portsKept_postFor

theorem portsKept_settleBad {q n : Nat} : PortsKept s (settleBad q n s) := by
  induction n generalizing s with
  | zero => exact portsKept_refl
  | succ n ih =>
    unfold settleBad
    split
    · exact portsKept_refl
    · split
      · exact portsKept_refl
      · refine PortsKept.then (PortsKept.then ?_ portsKept_firstAt) ih
        refine portsKept_of_catum ?_
        unfold noteFence
        split <;> rfl

theorem portsKept_complete {d : Desc} {st : Nat} {b : List Byte} : PortsKept s (complete d st b s) :=
  portsKept_firstAt.then portsKept_settleBad

theorem portsKept_begun {d e : Desc} : PortsKept s (begun d e s) := by
  refine PortsKept.then (portsKept_of_catum ?_) portsKept_settleBad
  unfold noteFence
  split <;> rfl

section Config
variable {d : Desc} {x : List Byte} (hlen : 2112 ≤ d.length) (hfwd : d.fwd = none)
include hlen hfwd

theorem catConfigAct_invalid {o : Nat} (h : catInvalid s (padTo 2112 x) = some o) :
    catConfigAct (.data x) d s = complete d 0x1680 (u16 o) s := by
  unfold catConfigAct
  rw [if_neg (by omega), bufOf_host hfwd]
  dsimp only
  rw [h]

theorem catConfigAct_busy {q : Nat} (h : catInvalid s (padTo 2112 x) = none) (hbusy : fwdBusy s (padTo 2112 x) = some q) :
    catConfigAct (.data x) d s = complete d 0x1681 (u16 q) s := by
  unfold catConfigAct
  rw [if_neg (by omega), bufOf_host hfwd]
  dsimp only
  rw [h]
  dsimp only
  rw [hbusy]

theorem catConfigAct_applies (h : catInvalid s (padTo 2112 x) = none) (hfree : fwdBusy s (padTo 2112 x) = none) :
    catConfigAct (.data x) d s = complete d 0 [] (catApply (padTo 2112 x) s) := by
  unfold catConfigAct
  rw [if_neg (by omega), bufOf_host hfwd]
  dsimp only
  rw [h]
  dsimp only
  rw [hfree]

end Config

theorem begun_regField {d e : Desc} {lo n : Nat} : regField (begun d e (tick dt s)) 0x00F00004 lo n = regField s 0x00F00004 lo n := by
  have hb : Within (clockParts ++ replyParts) s (begun d e (tick dt s)) := within_tick_begun
  rw [regField, regField, hb .regs (by decide) 0x00F00004 (by decide) (by decide) (by omega)]

theorem begun_catDevice {d e : Desc} : catDevice (begun d e (tick dt s)) = catDevice s := begun_regField

theorem begun_catInvalid {d e : Desc} {b : List Byte} : catInvalid (begun d e (tick dt s)) b = catInvalid s b := by
  have hrole : catRole (begun d e (tick dt s)) = catRole s := by rw [catRole, catRole, begun_regField]
  unfold catInvalid
  rw [hrole, begun_catDevice]

theorem begun_fwdBusy {d e : Desc} {b : List Byte} : fwdBusy (begun d e (tick dt s)) b = fwdBusy s b := by
  have hb : Within (clockParts ++ replyParts) s (begun d e (tick dt s)) := within_tick_begun
  have hsq (q : Nat) : sqOf (begun d e (tick dt s)) q = sqOf s q :=
    congrArg (fun l : List SubRing => l.getD q Reset.subRing) (hb .sq (by decide))
  have hlist : (begun d e (tick dt s)).catum.fwd = s.catum.fwd := hb.catum_field (f := Catum.fwd) (by decide) fun _ => rfl
  have hfwd (q : Nat) : fwdOf (begun d e (tick dt s)) q = fwdOf s q := by rw [fwdOf, fwdOf, hlist]
  simp only [fwdBusy, hsq, hfwd]

theorem portAsSet_of_faces {b : List Byte} {old old' new new' : CatPort} (h : PortAsSet b port old new)
    (hold : portFace old = portFace old') (hnew : portFace new' = portFace new) : PortAsSet b port old' new' := by
  simp only [portFace, Prod.mk.injEq] at hold hnew
  obtain ⟨hst, hen, -⟩ := hold
  obtain ⟨hst', hen', hasym'⟩ := hnew
  rwa [PortAsSet, hst', hen', hasym', ← hst, ← hen]

theorem catumReply_of_within (h : Within ([.catPorts, .locks, .catum] ++ (clockParts ++ replyParts)) s t) :
    OnlyReply { s with catum := t.catum } t := onlyReply_patch (m := [.catPorts, .locks, .catum]) h (by decide)

/-- A block that nothing refuses applies. -/
theorem catConfig_applies {d : Desc} {x : List Byte} (hrun : Runs (.catConfig dt d (.data x)) s) (hfwd : d.fwd = none)
    (hlen : 2112 ≤ d.length) (hvalid : catInvalid s (padTo 2112 x) = none) (hfree : fwdBusy s (padTo 2112 x) = none) :
    ∃ t, exec (.catConfig dt d (.data x)) s = .next t ∧ t.catum.master = fieldOf (padTo 2112 x) 4 2 ∧
      t.catum.followHold = fieldOf (padTo 2112 x) 16 4 ∧ (∀ q < 256, fwdOf t q = fwdEntry (padTo 2112 x) q) ∧
      (∀ dev < 1024, dev ≠ catDevice s → (getKey dev t.catum.routes).getD 0xFE = fieldOf (padTo 2112 x) (64 + dev) 1) ∧
      (s.catum.ports.length = 4 → ∀ p < 4, PortAsSet (padTo 2112 x) p (catOf s p) (catOf t p)) ∧
      t.catum.locks = s.catum.locks ∧ t.catum.members = s.catum.members ∧ t.catum.mailbox = s.catum.mailbox ∧
      OnlyReply { s with catum := t.catum } t := by
  have hexec := exec_catConfig_accepted hrun
  have hb : Within (clockParts ++ replyParts) s (begun d d (tick dt s)) := within_tick_begun
  have hown : catDevice (begun d d (tick dt s)) = catDevice s := begun_catDevice
  have hkept : PortsKept s (begun d d (tick dt s)) := PortsKept.then (t := tick dt s) (portsKept_of_catum rfl) portsKept_begun
  rw [catConfigAct_applies hlen hfwd (begun_catInvalid.trans hvalid) (begun_fwdBusy.trans hfree)] at hexec
  generalize begun d d (tick dt s) = u at *
  generalize padTo 2112 x = b at *
  obtain ⟨hmaster, hhold, hfwds, hroutes⟩ := catApply_set (b := b) (s := u)
  have hw : Within (.catum :: sendParts) u (catApply b u) := within_catApply
  have hcomp : Within replyParts (catApply b u) (complete d 0 [] (catApply b u)) := within_complete
  have hfield {α : Type} {f : Catum → α} (hf : ∀ c, f c.bare = f c) :
      f (complete d 0 [] (catApply b u)).catum = f (catApply b u).catum := hcomp.catum_field (by decide) hf
  refine ⟨_, hexec, (hfield (f := Catum.master) fun _ => rfl).trans hmaster, (hfield (f := Catum.followHold) fun _ => rfl).trans hhold,
    fun q hq => ?_, fun dev hdev hne => ?_, fun h4 p hp => ?_, ?_, ?_, ?_, ?_⟩
  · rw [fwdOf, hfield (f := Catum.fwd) fun _ => rfl, hfwds, blockFwd]
    exact find_fwdEntry (List.mem_range.2 hq)
  · rw [hfield (f := Catum.routes) fun _ => rfl, hroutes, hown, blockRoutes]
    exact getKey_routes (List.mem_range.2 hdev) hne
  · exact portAsSet_of_faces (catApply_ports (hkept.1.trans h4) hp) (hkept.2 p) (portsKept_complete.2 p)
  · exact ((hcomp .locks (by decide)).trans (hw .locks (by decide))).trans (hb .locks (by decide))
  · exact ((hfield (f := Catum.members) fun _ => rfl).trans (catApply_kept (f := Catum.members) (fun _ _ => rfl) (fun _ _ => rfl)
      fun _ _ _ _ _ _ => rfl)).trans (hb.catum_field (f := Catum.members) (by decide) fun _ => rfl)
  · exact ((hfield (f := Catum.mailbox) fun _ => rfl).trans (catApply_kept (f := Catum.mailbox) (fun _ _ => rfl) (fun _ _ => rfl)
      fun _ _ _ _ _ _ => rfl)).trans (hb.catum_field (f := Catum.mailbox) (by decide) fun _ => rfl)
  · exact catumReply_of_within ((within_trans (within_trans hb hw) hcomp).mono (by decide))

theorem catLinkDown_frame {cause : Nat} (hport : port < s.catum.ports.length) (hfaults : NoFaults s) (hst : (catOf s port).state = .ready)
    (hgone : (catOf s port).linkGone cause (tick dt s).now = true) : ∃ t, exec (.catLinkDown dt port cause) s = .next t ∧
      catOf t port = { catOf s port with
        state := .bitlock, lock := 0, spared := 15, helloIn := false, nakSent := false, trainAt := (tick dt s).now } ∧
      t.catum.marksIn = s.catum.marksIn.filter (fun x => x.1 ≠ port) ∧ (∀ j, j ≠ port → catOf t j = catOf s j) ∧
      OnlyRecords { s with catum := t.catum } t := by
  obtain ⟨hsame, hmarks, hother, hw⟩ := catLinkLost_frame (s := tick dt s) (cause := cause) hfaults hport
  exact ⟨_, catLinkDown_loses hst hgone, hsame, hmarks, hother, catumRecords_of_within hw⟩

theorem catLaneLock_frame {lock : Nat} {al : Bool} (hport : port < s.catum.ports.length) (hfaults : NoFaults s)
    (hst : (catOf s port).state = .ready) (hall : (catOf s port).needed &&& lock % 32 ≠ (catOf s port).needed) :
    ∃ t, exec (.catLaneLock dt port lock al) s = .next t ∧ (catOf t port).state = .bitlock ∧
      (catOf t port).replay = (catOf s port).replay ∧ (∀ j, j ≠ port → catOf t j = catOf s j) ∧
      OnlyRecords { s with catum := t.catum } t := by
  have hlen : port < (lanesHeard port lock (tick dt s)).catum.ports.length := (List.length_modify ..).symm ▸ hport
  obtain ⟨hsame, -, hother, hw⟩ := catLinkLost_frame (s := lanesHeard port lock (tick dt s)) (cause := 3) hfaults hlen
  have hheard := catOf_lanesHeard (s := tick dt s) (lock := lock) hport
  refine ⟨_, catLaneLock_lost hport hst hall, by rw [hsame], ?_, fun j hj => (hother j hj).trans (catOf_modCat_ne (s := tick dt s) hj), ?_⟩
  · rw [hsame, hheard]
    rfl
  · exact catumRecords_of_within (Within.then (within_modCat.mono (by decide)) hw)

theorem catLaneLockTimeout_fails {lane : Nat} (hport : port < s.catum.ports.length) (hst : (catOf s port).state = .bitlock)
    (hdue : (catOf s port).trainAt + 5 * msec ≤ (tick dt s).now)
    (htwo : 2 ≤ ((List.range 4).filter fun l => !bitOf (catOf s port).lock l).length) :
    ∃ t, exec (.catLaneLockTimeout dt port lane) s = .next t ∧
      catOf t port = { catOf s port with state := .failed, trainAt := (tick dt s).now } ∧
      (∀ j, j ≠ port → catOf t j = catOf s j) ∧ OnlyRecords { s with catum := t.catum, wear := t.wear } t := by
  obtain ⟨hsame, hother, hw⟩ := catFailed_frame (s := tick dt s) hport
  exact ⟨_, congrArg Host.Outcome.next (catLaneTimeout_fails (s := tick dt s) hst hdue htwo), hsame, hother, portRecords_of_within hw⟩

theorem catAckTimer_wire (hfaults : NoFaults s) (hst : (catOf s port).state = .ready) :
    exec (.catAckTimer dt port) s = .next { tick dt s with
      out := .cat port (CatPkt.bytes ⟨0, 0, (catOf s port).partner, catDevice s, 1, 0, 0,
        u16 (((catOf s port).lsnRx + 65535) % 65536) ++ u16 0 ++ u8 0 ++ u24 0 ++
          (List.range 4).flatMap fun v => u16 (((catOf s port).rxUnits.getD v 0 + catBuffer v) % 65536)⟩) :: s.out } :=
  (catAckTimer_sends hst).trans (congrArg Host.Outcome.next (catOut_none (s := tick dt s) hfaults))

/-- Settles O56. -/
theorem catumPacketsAreChecked : Obligations.CatumPacketsAreChecked := by
  refine ⟨fun dt port s => ?_, fun dt d x s hrun hfwd hlen hvalid hfree => ?_, fun dt port p s => ?_⟩
  · intro c hport hfaults
    refine ⟨fun lock al hst hall => catLaneLock_bitlock hport hst hall, fun lane hst hdue hfree hreserve hone => ?_,
      fun htrain hdue => ?_, catTrainRetry_trains, fun cause hst hgone => ?_, catAckTimer_sends⟩
    · obtain ⟨t, hexec, hsame, -, hwear, -⟩ := catLaneLockTimeout_spares hport hst hdue hone hfree hreserve
      exact ⟨t, hexec, by rw [hsame], hwear⟩
    · obtain ⟨t, hexec, hsame, -, -⟩ := catTrainTimeout_fails hport htrain hdue
      exact ⟨t, hexec, by rw [hsame], by rw [hsame]⟩
    · obtain ⟨t, hexec, hsame, hmarks, -, -⟩ := catLinkDown_frame hport hfaults hst hgone
      exact ⟨t, hexec, by rw [hsame], hmarks⟩
  · obtain ⟨t, hexec, -, -, hring, hroute, -⟩ := catConfig_applies hrun hfwd (by omega) hvalid hfree
    exact ⟨t, hexec, hring, hroute⟩
  · intro c u hport hfaults
    refine ⟨?_, ?_, fun htype h => ⟨fun hrole => ?_, fun v hv hrole hfollow hlead hdom hmem => ?_⟩, ?_, ?_, ?_, ?_⟩
    · exact fun htype hgood hhops hlsn htag hsrc hst hwait hnak =>
        catLinkPacket_acks hport hfaults htype hgood hhops hlsn htag hsrc hst hwait hnak
    · exact fun htype hhops hgood hlsn htag hsrc hst hreplay hwait hrole =>
        catHello_ready hport hfaults htype hhops hgood hlsn htag hsrc hst hreplay hwait hrole
    · rw [exec_catHello h htype]
      exact congrArg Host.Outcome.next (helloReceived_stranger (by rwa [taken_role]))
    · subst hv
      have hmembers : u.catum.members = s.catum.members := checkLead_field (f := Catum.members) fun _ _ => rfl
      have hnow : u.now = (tick dt s).now := taken_now
      have hdomain : catDomain u = catDomain s := regField_eq (within_tick_taken .causes (by decide))
      have hdevice : catDevice u = catDevice s := regField_eq (within_tick_taken .causes (by decide))
      rw [exec_catHello h htype, ← hmembers, ← hnow]
      exact congrArg Host.Outcome.next (helloReceived_member (taken_role.trans hrole) hfollow (hlead.trans hdevice.symm)
        (hdom.trans hdomain.symm) (by rw [hmembers]; exact hmem))
    · exact fun hgood hst hnak => catPacketBad_asks hport hfaults hgood hst hnak
    · exact fun hgood hst hnak => catPacketBad_counts hport hgood hst hnak
    · exact fun hst hbad h0 htype hvc hdest hsrc hhops hlsn htag hpay hown hturn => catPacketBad_layout hport hfaults hst hbad
        ⟨htype, hvc, hdest, hsrc, hhops, hlsn, htag, hpay⟩ (by omega) hown hturn
    · intro hgood hst htype hhops hlsn htag hsrc hturn hdest
      have hexec := exec_catPacketForward (dt := dt) hfaults hgood hst htype hhops hlsn htag hsrc hturn hdest
      refine ⟨fun hmore => ⟨fun q hroute => ?_, fun hroute => ?_⟩, fun hends => ?_⟩
      · exact hexec.trans (congrArg Host.Outcome.next (catForward_routes hmore hroute))
      · exact hexec.trans (congrArg Host.Outcome.next (catForward_lost hmore hroute))
      · obtain ⟨hdrop, hports, hw⟩ := catForward_ends (s := u) hends
        have hdrops : u.catum.hopDrop = s.catum.hopDrop := checkLead_field (f := Catum.hopDrop) fun _ _ => rfl
        refine ⟨_, hexec, hdrop.trans (by rw [hdrops]), hports, catumRecords_of_within (dt := dt) ?_⟩
        exact Within.then (within_taken.mono (by decide)) (hw.mono (by decide))

/-- Settles O55. -/
theorem catumPortsTrainAndAreConfigured : Obligations.CatumPortsTrainAndAreConfigured := by
  refine ⟨fun dt port s => ?_, fun dt d x s => ?_⟩
  · intro c hfaults hport
    refine ⟨fun lock al => ⟨fun hall => ⟨fun hst => catLaneLock_bitlock hport hst hall,
        fun hst => catLaneLock_align hport hst hfaults hall, fun hst => catLaneLock_ready hport hst hall⟩,
        fun hall hst => catLaneLock_frame hport hfaults hst hall⟩,
      fun hst hdue => ⟨fun lane hone hfree hreserve => ?_, fun lane htwo => catLaneLockTimeout_fails hport hst hdue htwo⟩,
      catTrainTimeout_fails hport, fun hno => ?_, catTrainRetry_trains, fun cause => ⟨fun hno => ?_, fun hst hgone => ?_⟩,
      catAckTimer_wire hfaults⟩
    · obtain ⟨t, hexec, hsame, hother, -, hw⟩ := catLaneLockTimeout_spares hport hst hdue hone hfree hreserve
      exact ⟨t, hexec, hsame, hother, hw⟩
    · exact congrArg Host.Outcome.next (if_neg fun hm => hno.elim (fun hs => hs hm.1) fun hlate => absurd hm.2 (not_le.2 hlate))
    · refine congrArg Host.Outcome.next (if_neg fun hm => hno.elim (fun hs => hs hm.1) fun hkeep => ?_)
      exact absurd (show c.linkGone cause (tick dt s).now = true from hm.2) (by rw [hkeep]; decide)
    · obtain ⟨t, hexec, hsame, -, hother, hw⟩ := catLinkDown_frame hport hfaults hst hgone
      exact ⟨t, hexec, by rw [hsame], by rw [hsame], by rw [hsame], hother, hw⟩
  · intro u b hrun hfwd h4
    have hexec := exec_catConfig_accepted hrun
    refine ⟨fun hshort => hexec.trans (congrArg Host.Outcome.next (catConfigAct_short hshort)), fun hlen => ⟨fun o ho => ?_,
      fun hvalid => ⟨fun q hq => ?_, fun hfree => ?_⟩⟩⟩
    · exact hexec.trans (congrArg Host.Outcome.next (catConfigAct_invalid hlen hfwd (begun_catInvalid.trans ho)))
    · exact hexec.trans (congrArg Host.Outcome.next (catConfigAct_busy hlen hfwd (begun_catInvalid.trans hvalid)
        (begun_fwdBusy.trans hq)))
    · obtain ⟨t, hexec, hmaster, hhold, hring, hroute, hports, hlocks, hmembers, hmail, hw⟩ :=
        catConfig_applies hrun hfwd hlen hvalid hfree
      refine ⟨t, hexec, hmaster, hhold, hring, hroute, fun p hp => ?_, hlocks, hmembers, hmail, hw⟩
      obtain ⟨hen, hasym, hst⟩ := hports h4 p hp
      refine ⟨hen, hasym, fun hsame => by rw [hst, if_pos hsame], fun hoff hon => ?_, fun hon hoff => ?_⟩
      · rw [hen] at hon
        rw [hst, hoff, hon]
        rfl
      · rw [hen] at hoff
        rw [hst, hon, hoff]
        rfl

end Sys2Proof.Machine
end

section
/-!
PROOFS. The rules of the loop channels' and the Plane Link's operations: what ramping, resting and forcing channels reach, and
what a packet or a mark on a port reaches.
-/

namespace Sys2Proof.Machine
variable {s t : State} {m : List StatePart} {c k p : Nat}

/-! ### Channels -/

/-- What the ramps and rests of channels reach, their loop sets aside. -/
def rampParts : List StatePart := .chans :: .sps :: replyParts

theorem within_flushCoef : Within rampParts s (flushCoef c s) :=
  Within.then (within_modChan.mono (by decide)) (within_forEach fun _ _ => within_complete.mono (by decide))

theorem within_rampChan {why : Nat} : Within rampParts s (rampChan c why s) :=
  within_ite (((within_endInject.mono (by decide)).then within_flushCoef).then (within_modChan.mono (by decide))) within_refl

theorem within_loopDisabled {mask cause : Nat} : Within [.ledger] s (loopDisabled mask cause s) :=
  within_ite within_refl within_recordAt

theorem within_rampMask {mask why : Nat} : Within rampParts s (rampMask mask why s) :=
  (within_forEach fun _ _ => within_rampChan).then (within_loopDisabled.mono (by decide))

theorem within_chanRest : Within loopParts s (chanRest c s) := by
  unfold chanRest
  extract_lets rev u v w
  have hv : Within loopParts s w :=
    (((within_endInject.mono (by decide)).then (within_flushCoef.mono (by decide))).then (within_modChan.mono (by decide))).then
      (within_modSp.mono (by decide))
  exact within_ite (hv.then within_dropLoop) hv

theorem within_pinZero : Within [.chans, .out] s (pinZero c s) :=
  Within.then (within_modChan.mono (by decide)) (within_emit.mono (by decide))

theorem within_chanOff : Within loopParts s (chanOff c s) := within_chanRest.then (within_pinZero.mono (by decide))

theorem within_failEnables : Within rampParts s (failEnables s) :=
  Within.then (within_of_eq_sub (m := [.chans]) rfl (by decide) (by decide))
    (within_forEach fun _ _ => within_complete.mono (by decide))

theorem within_allOff {cause : Nat} : Within loopParts s (allOff cause s) := by
  unfold allOff
  extract_lets l u v
  have hoff : Within loopParts s u := within_forEach fun _ _ => within_chanOff.then (within_modChan.mono (by decide))
  have hv : Within loopParts s v := hoff.then (within_loopDisabled.mono (by decide))
  exact within_ite (hv.then (within_failEnables.mono (by decide))) hv

/-! ### Packets and marks -/

theorem within_modPort {f : Port → Port} : Within [.ports] s (modPort p f s) := within_of_eq rfl (by decide)

/-- What a packet or a mark on a Plane Link port reaches outside the port. -/
def plkParts : List StatePart := [.fault, .ledger, .out]

theorem within_plkOut {psn ty : Nat} {retry : Bool} {l : List Byte} : Within plkParts s (plkOut p psn ty retry l s) :=
  (within_meetFaults.mono (by decide)).then (within_throughPoint (by decide) fun _ => within_emit.mono (by decide))

theorem within_plkMark {code v fine n : Nat} : Within plkParts s (plkMark p code v fine n s) :=
  (within_meetFaults.mono (by decide)).then (within_throughPoint (by decide) fun _ => within_emit.mono (by decide))

theorem within_sendPkt {q : SentPkt} {l : List Byte} : Within (.ports :: plkParts) s (sendPkt p q l s) :=
  Within.then (within_modPort.mono (by decide)) (within_plkOut.mono (by decide))

end Sys2Proof.Machine
end

section
/-!
PROOFS. Plane Link ports: the return messages they hear (R305 to R318) and their timers.
-/

namespace Sys2Proof.Machine
variable {s t u : State} {m : List StatePart} {dt k j p : Nat}

/-! ### One port -/

theorem modPort_modPort {f g : Port → Port} : modPort p g (modPort p f s) = modPort p (fun o => g (f o)) s := by
  simp only [modPort, upd, List.modify_modify_eq]
  rfl

theorem Within.portOf (h : Within m s t) (hm : .ports ∉ m) (j : Nat) : portOf t j = portOf s j :=
  congrArg (·.getD j Reset.port) (h .ports hm)

@[simp] theorem modPort_length {f : Port → Port} : (modPort p f s).ports.length = s.ports.length := by simp [modPort, upd]

theorem Within.noFaults (h : Within m s t) (hm : .fault ∉ m) (hs : NoFaults s) : NoFaults t := by
  obtain ⟨hrules, hold, hheld⟩ := hs
  exact ⟨(h.fault_field (f := (·.rules)) hm fun _ => rfl).trans hrules,
    (h.fault_field (f := (·.old)) hm fun _ => rfl).trans hold, (h.fault_field (f := (·.held)) hm fun _ => rfl).trans hheld⟩

theorem portOf_modPort_field {α : Type} {f : Port → Port} {g : Port → α} (hg : ∀ o, g (f o) = g o) :
    g (portOf (modPort p f s) j) = g (portOf s j) := by
  by_cases hj : j = p
  · subst hj
    by_cases hlen : j < s.ports.length
    · rw [portOf_modPort_same hlen, hg]
    · have hsame : modPort j f s = s := by
        rw [modPort, upd, List.modify_eq_self (by omega)]
      rw [hsame]
  · rw [portOf_modPort_ne hj]

/-! ### Return messages in characters (Table 13.7) -/

theorem padTo_eq {n : Nat} {l : List Byte} (h : l.length ≤ n) : padTo n l = l ++ List.replicate (n - l.length) 0 := by
  rw [padTo, List.take_append, List.take_of_length_le h, List.take_replicate, Nat.min_eq_left (by omega)]

theorem retChars_eq {ty : Nat} {fields : List Byte} (h : fields.length ≤ 5) : retChars ty fields =
    leBytes 1 ty ++ (fields ++ (List.replicate (5 - fields.length) 0 ++ (u8 (crc16 (u8 ty ++ padTo 5 fields) / 256) ++
      u8 (crc16 (u8 ty ++ padTo 5 fields) % 256)))) := by
  simp only [retChars, padTo_eq h, List.append_assoc]
  rfl

theorem retChars_field {ty i n v : Nat} {l r : List Byte} (hi : 1 + l.length = i) (hlen : l.length + (n + r.length) ≤ 5)
    (hv : v < 256 ^ n) : fieldOf (retChars ty (l ++ (leBytes n v ++ r))) i n = v := by
  rw [retChars_eq (by simpa using hlen)]
  have hassoc : ∀ x : List Byte, leBytes 1 ty ++ ((l ++ (leBytes n v ++ r)) ++ x) =
      (leBytes 1 ty ++ l) ++ (leBytes n v ++ (r ++ x)) := fun x => by simp only [List.append_assoc]
  rw [hassoc]
  exact fieldOf_leBytes (by simpa using hi) hv

theorem retChars_type {ty : Nat} {fields : List Byte} (h : fields.length ≤ 5) (hty : ty < 256) :
    fieldOf (retChars ty fields) 0 1 = ty := by
  rw [retChars_eq h]
  exact fieldOf_leBytes (l := []) rfl hty

theorem foldl_lt {β : Type} {n : Nat} {f : Nat → β → Nat} (hf : ∀ c b, c < n → f c b < n) {c : Nat} (hc : c < n) (l : List β) :
    l.foldl f c < n := by
  induction l generalizing c with
  | nil => exact hc
  | cons b l ih => exact ih (hf c b hc)

theorem crc16_lt (l : List Byte) : crc16 l < 65536 := by
  refine foldl_lt (fun c b hc => foldl_lt (fun c _ _ => ?_) ?_ _) (by norm_num) l
  · split
    · exact Nat.xor_lt_two_pow (n := 16) (Nat.mod_lt _ (by norm_num)) (by norm_num)
    · exact Nat.mod_lt _ (by norm_num)
  · have hb := b.isLt
    exact Nat.xor_lt_two_pow (n := 16) hc (by omega)

theorem retChars_crc {ty : Nat} {fields : List Byte} :
    crc16 ((retChars ty fields).take 6) = 256 * fieldOf (retChars ty fields) 6 1 + fieldOf (retChars ty fields) 7 1 := by
  have hlt := crc16_lt (u8 ty ++ padTo 5 fields)
  have hlen : (u8 ty ++ padTo 5 fields).length = 6 := by simp [u8, padTo]
  have hform : retChars ty fields = (u8 ty ++ padTo 5 fields) ++ (leBytes 1 (crc16 (u8 ty ++ padTo 5 fields) / 256) ++
      leBytes 1 (crc16 (u8 ty ++ padTo 5 fields) % 256)) := by simp only [retChars, u8, List.append_assoc]
  have htake : (retChars ty fields).take 6 = u8 ty ++ padTo 5 fields := by rw [hform, ← hlen, List.take_left]
  have hhigh : fieldOf (retChars ty fields) 6 1 = crc16 (u8 ty ++ padTo 5 fields) / 256 := by
    rw [hform]
    exact fieldOf_leBytes hlen (by omega)
  have hlow : fieldOf (retChars ty fields) 7 1 = crc16 (u8 ty ++ padTo 5 fields) % 256 := by
    have hlast := fieldOf_leBytes (l := (u8 ty ++ padTo 5 fields) ++ leBytes 1 (crc16 (u8 ty ++ padTo 5 fields) / 256))
      (r := []) (i := 7) (n := 1) (v := crc16 (u8 ty ++ padTo 5 fields) % 256) (by rw [List.length_append, hlen, leBytes_length]) (by omega)
    rw [hform]
    simpa only [List.append_assoc, List.append_nil] using hlast
  rw [htake, hhigh, hlow]
  omega

/-- A port that has heard something. -/
def heardAt (p : Nat) (s : State) : State := modPort p (fun o => { o with lastRet := s.now }) s

theorem portOf_heardAt (hp : p < s.ports.length) : portOf (heardAt p s) p = { portOf s p with lastRet := s.now } :=
  portOf_modPort_same hp

theorem retArrive_hears {ty : Nat} {bip : List Nat} {fields : List Byte} (hfaults : NoFaults s) (hp : p < s.ports.length)
    (hhears : (portOf s p).hears = true) :
    retArrive p ty bip fields s = retDispatch p bip (retChars ty fields) (heardAt p s) := by
  have hstill : (portOf (heardAt p s) p).hears = true := by rw [portOf_heardAt hp]; exact hhears
  have hno : NoFaults (heardAt p s) := hfaults
  unfold retArrive
  rw [if_neg (by simp [hhears])]
  dsimp only
  rw [← heardAt, meetFaults_none hno]
  dsimp only
  rw [throughPoint_none hno]
  show retReceived p bip (retChars ty fields) (heardAt p s) = _
  rw [retReceived, if_neg (by simp [hstill]), if_pos retChars_crc]

theorem hears_of_up {o : Port} (hdown : o.state ≠ .down) (hfailed : o.state ≠ .failed) : o.hears = true := by
  simp [Port.hears, hdown, hfailed]

/-! ### What a message leads to -/

section Hears
variable (hfaults : NoFaults s) (hp : p < s.ports.length) (hhears : (portOf s p).hears = true)
include hfaults hp hhears

theorem exec_retCredit {v : Nat} (hv : v < 2 ^ 32) :
    exec (.retCredit dt p v) s = .next (retCredit p v (heardAt p (tick dt s))) := by
  refine congrArg Host.Outcome.next ((retArrive_hears (s := tick dt s) hfaults hp hhears).trans ?_)
  have hfield : fieldOf (retChars 1 (u32 v)) 1 4 = v := by
    have h := retChars_field (ty := 1) (l := []) (r := []) (n := 4) (i := 1) (v := v) rfl (by simp) (by omega)
    rwa [List.nil_append, List.append_nil] at h
  simp only [retDispatch, retChars_type (fields := u32 v) (by simp [u32]) (show 1 < 256 by omega), hfield]

theorem exec_retNak {psn why : Nat} (hpsn : psn < 65536) :
    exec (.retNak dt p psn why) s = .next (retNak p psn (heardAt p (tick dt s))) := by
  refine congrArg Host.Outcome.next ((retArrive_hears (s := tick dt s) hfaults hp hhears).trans ?_)
  have hfield : fieldOf (retChars 2 (u16 psn ++ u8 why)) 1 2 = psn :=
    retChars_field (l := []) rfl (by simp [u8]) (by omega)
  simp only [retDispatch, retChars_type (fields := u16 psn ++ u8 why) (by simp [u16, u8]) (show 2 < 256 by omega), hfield]

theorem exec_retLaneLock {lock : Nat} {al : Bool} (hlock : lock < 512) :
    exec (.retLaneLock dt p lock al []) s = .next (retLaneLock p lock al [] (heardAt p (tick dt s))) := by
  refine congrArg Host.Outcome.next ((retArrive_hears (s := tick dt s) hfaults hp hhears).trans ?_)
  rw [Nat.mod_eq_of_lt hlock]
  have hmask : fieldOf (retChars 3 (u16 lock ++ u8 (bit al))) 1 2 = lock :=
    retChars_field (l := []) rfl (by simp [u8]) (by omega)
  have hal : fieldOf (retChars 3 (u16 lock ++ u8 (bit al))) 3 1 = bit al := by
    have h := retChars_field (ty := 3) (l := u16 lock) (r := []) (n := 1) (i := 3) (v := bit al) (by simp [u16])
      (by simp [u16]) (by cases al <;> decide)
    rwa [List.append_nil] at h
  have hbit : bitOf (bit al) 0 = al := by cases al <;> rfl
  simp only [retDispatch, retChars_type (fields := u16 lock ++ u8 (bit al)) (by simp [u16, u8]) (show 3 < 256 by omega), hmask,
    hal, hbit]

theorem exec_retCaps {page v : Nat} (hpage : page < 256) (hv : v < 2 ^ 32) :
    exec (.retCaps dt p page v) s = .next (retCaps p page v (heardAt p (tick dt s))) := by
  refine congrArg Host.Outcome.next ((retArrive_hears (s := tick dt s) hfaults hp hhears).trans ?_)
  have hnumber : fieldOf (retChars 4 (u8 page ++ u32 v)) 1 1 = page :=
    retChars_field (l := []) rfl (by simp [u32]) (by omega)
  have hword : fieldOf (retChars 4 (u8 page ++ u32 v)) 2 4 = v := by
    have h := retChars_field (ty := 4) (l := u8 page) (r := []) (n := 4) (i := 2) (v := v) (by simp [u8]) (by simp [u8]) (by omega)
    rwa [List.append_nil] at h
  simp only [retDispatch, retChars_type (fields := u8 page ++ u32 v) (by simp [u32, u8]) (show 4 < 256 by omega), hnumber, hword]

theorem exec_retStatus {st flags frame : Nat} (hst : st < 256) : ∃ flags' frame',
    exec (.retStatus dt p st flags frame) s = .next (retStatus p st flags' frame' (heardAt p (tick dt s))) := by
  have hfield : fieldOf (retChars 5 (u8 st ++ (u8 flags ++ u24 frame))) 1 1 = st :=
    retChars_field (l := []) rfl (by simp [u8, u24]) (by omega)
  rw [← List.append_assoc] at hfield
  have harrive := retArrive_hears (ty := 5) (bip := []) (fields := u8 st ++ u8 flags ++ u24 frame) (s := tick dt s) hfaults hp hhears
  simp only [retDispatch, retChars_type (fields := u8 st ++ u8 flags ++ u24 frame) (by simp [u24, u8]) (show 5 < 256 by omega),
    hfield] at harrive
  exact ⟨_, _, congrArg Host.Outcome.next harrive⟩

end Hears

/-! ### CREDIT (R314) -/

/-- A port with a new limit of credit. -/
def creditedTo (p v : Nat) (s : State) : State := modPort p (fun o => { o with limit := v }) s

theorem portOf_creditedTo {v : Nat} (hp : p < s.ports.length) : portOf (creditedTo p v s) p = { portOf s p with limit := v } :=
  portOf_modPort_same hp

theorem retCredit_ready {v : Nat} (hv : v < 2 ^ 32) (hst : (portOf s p).state = .ready) :
    retCredit p v s = pump p (payPark p (creditedTo p v s)) := by
  simp only [retCredit, hst, Nat.mod_eq_of_lt hv]
  rfl

theorem payPark_none (h : (portOf s p).parkOwed = none) : payPark p s = s := by
  unfold payPark
  dsimp only
  rw [h]

theorem pump_idle (h : (portOf s p).queue = []) : pump p s = s := by
  unfold pump
  rw [h]
  rfl

theorem retCredit_idle {v : Nat} (hv : v < 2 ^ 32) (hp : p < s.ports.length) (hst : (portOf s p).state = .ready)
    (hqueue : (portOf s p).queue = []) (howed : (portOf s p).parkOwed = none) : retCredit p v s = creditedTo p v s := by
  have hport := portOf_creditedTo (s := s) (v := v) hp
  rw [retCredit_ready hv hst, payPark_none (by rw [hport]; exact howed), pump_idle (by rw [hport]; exact hqueue)]

/-- What sending on one port keeps: the other ports, what it owes, what has left, and the absence of faults. -/
def Pumped (p : Nat) (s t : State) : Prop :=
  (∀ j, j ≠ p → portOf t j = portOf s j) ∧ (portOf t p).parkOwed = (portOf s p).parkOwed ∧ (∀ o ∈ s.out, o ∈ t.out) ∧
    (NoFaults s → NoFaults t)

theorem pumped_refl : Pumped p s s := ⟨fun _ _ => rfl, rfl, fun _ h => h, id⟩

theorem Pumped.then (h1 : Pumped p s t) (h2 : Pumped p t u) : Pumped p s u := by
  obtain ⟨ho1, hp1, hout1, hf1⟩ := h1
  obtain ⟨ho2, hp2, hout2, hf2⟩ := h2
  exact ⟨fun j hj => (ho2 j hj).trans (ho1 j hj), hp2.trans hp1, fun o h => hout2 o (hout1 o h), fun h => hf2 (hf1 h)⟩

theorem Within.pumped (h : Within m s t) (hports : .ports ∉ m) (hfault : .fault ∉ m) (hout : ∀ o ∈ s.out, o ∈ t.out) : Pumped p s t :=
  ⟨fun j _ => h.portOf hports j, congrArg Port.parkOwed (h.portOf hports p), hout, h.noFaults hfault⟩

theorem Within.pumped_silent (h : Within m s t) (hm : .ports ∉ m ∧ .fault ∉ m ∧ .out ∉ m) : Pumped p s t := by
  obtain ⟨hports, hfault, hout⟩ := hm
  exact h.pumped hports hfault fun o ho => by rw [show t.out = s.out from h .out hout]; exact ho

theorem pumped_modPort {f : Port → Port} (hf : ∀ o, (f o).parkOwed = o.parkOwed) : Pumped p s (modPort p f s) :=
  ⟨fun _ hj => portOf_modPort_ne hj, portOf_modPort_field (g := Port.parkOwed) hf, fun _ h => h, id⟩

theorem record_out {unit event : Nat} {det : List Byte} : (record unit event det s).out = s.out := within_recordAt .out (by decide)

theorem pumped_record {unit event : Nat} {det : List Byte} : Pumped p s (record unit event det s) :=
  within_recordAt.pumped_silent (by decide)

theorem raiseCause_out {pf1 : Bool} {b : Nat} {o : Out} (h : o ∈ s.out) : o ∈ (raiseCause pf1 b s).out := by
  unfold raiseCause
  extract_lets off v _ s'
  by_cases hnew : (!v.getLsbD b && !BitVec.getLsbD (rawReg s (regIrqMask + if pf1 then pf1Base else 0)) b) = true
  · rw [if_pos hnew]
    exact List.mem_cons_of_mem _ h
  · rw [if_neg hnew]
    exact h

theorem pumped_raiseCause {pf1 : Bool} {b : Nat} : Pumped p s (raiseCause pf1 b s) := by
  refine within_raiseCause.pumped (by decide) (by decide) fun o ho => ?_
  exact raiseCause_out ho

theorem pumped_ite {c : Prop} [Decidable c] {a b : State} (ha : Pumped p s a) (hb : Pumped p s b) :
    Pumped p s (if c then a else b) := by
  split
  · exact ha
  · exact hb

theorem pumped_forEach {α : Type} {l : List α} {f : α → State → State} (hf : ∀ a s, Pumped p s (f a s)) :
    Pumped p s (forEach l f s) := by
  induction l generalizing s with
  | nil => exact pumped_refl
  | cons a l ih => exact (hf a s).then ih

theorem pumped_setRegion {c : RegionCount} : Pumped p s (setRegion c s) := within_setRegion.pumped_silent (by decide)

theorem pumped_countCe {r a : Nat} : Pumped p s (countCe r a s) := by
  unfold countCe
  exact pumped_ite pumped_setRegion (pumped_ite ((pumped_setRegion.then pumped_record).then pumped_raiseCause) pumped_setRegion)

theorem pumped_countUe {r unit_ : Nat} {l : List Nat} : Pumped p s (countUe r unit_ l s) := by
  unfold countUe
  split
  · exact pumped_refl
  · exact pumped_setRegion.then (pumped_ite pumped_refl (pumped_setRegion.then pumped_record))

theorem pumped_noteReads {unit_ : Nat} {l : List (Nat × Nat)} : Pumped p s (noteReads unit_ l s) := by
  have hbyte : ∀ a s, Pumped p s (correctByte a s) := fun a s =>
    pumped_countCe.then (Within.pumped_silent within_writeBack (by decide))
  have hone : ∀ (x : Nat × Nat) s, Pumped p s (noteRead unit_ x.1 x.2 s) := fun x s =>
    pumped_ite pumped_refl ((pumped_forEach hbyte).then (pumped_forEach fun _ _ => pumped_countUe))
  exact pumped_ite pumped_refl (pumped_forEach hone)

theorem within_writeTiles {e : PressEnv} {r : Recipe} {red : Bool} {ts : List (Nat × Nat)} :
    Within storeParts s (writeTiles e r red ts s) := by
  refine within_forEach fun x u => within_elim within_refl fun a => within_ite ?_ ?_
  · exact within_forEach fun _ _ => within_forEach fun _ _ => within_writeInternal
  · exact within_forEach fun _ _ => within_forEach fun _ _ => within_writeInternal

theorem within_takeTiles {n : Nat} : Within (.heads :: storeParts) s (takeTiles k n s) := by
  unfold takeTiles
  split
  · exact within_refl
  · exact (within_modHead.mono (by decide)).then (within_writeTiles.mono (by decide))

theorem within_pressOn {n : Nat} : Within (.heads :: .free :: storeParts) s (pressOn k n s) := by
  unfold pressOn
  dsimp only
  split
  · exact within_refl
  · refine within_ite within_refl (Within.then ?_ (within_takeTiles.mono (by decide)))
    exact within_of_eq_sub (m := [.free]) rfl (by decide) (by decide)

theorem pumped_recordSubst {q : SentPkt} : Pumped p s (recordSubst p k q s) := by
  unfold recordSubst
  exact pumped_ite pumped_record ((pumped_modPort (f := fun o => { o with subst := bump o.subst }) fun _ => rfl).then pumped_record)

theorem pumped_pressOn {n : Nat} : Pumped p s (pressOn k n s) := within_pressOn.pumped_silent (by decide)

theorem pumped_readStore {q : SentPkt} : Pumped p s (readStore p q s).2 := by
  unfold readStore
  dsimp only
  by_cases hload : q.isLoad = true
  · rw [if_pos hload]
    refine pumped_ite (Pumped.then ?_ pumped_recordSubst) ?_ <;>
      exact (pumped_pressOn.then pumped_noteReads).then (pumped_ite pumped_refl (pumped_modPort fun _ => rfl))
  · rw [if_neg hload]
    by_cases hbeam : q.type_ = 0x10
    · rw [if_pos hbeam]
      exact pumped_ite ((pumped_pressOn.then pumped_noteReads).then pumped_recordSubst) (pumped_pressOn.then pumped_noteReads)
    · rw [if_neg hbeam]
      exact pumped_refl

theorem pumped_staleFlip {q : SentPkt} : Pumped p s (staleFlip p q s) :=
  (pumped_modPort (f := fun o => { o with stale := bump o.stale }) fun _ => rfl).then pumped_record

theorem pumped_missPkt {q : SentPkt} : Pumped p s (missPkt p q s) := by
  have hmiss : ∀ k part unit deadline, Pumped p s (headMiss k part unit deadline s) := fun k part unit deadline =>
    pumped_ite pumped_refl ((pumped_record.then pumped_raiseCause).then pumped_raiseCause)
  refine pumped_ite pumped_refl ?_
  cases (portOf s p).owner with
  | none => exact pumped_refl
  | some k => exact hmiss k 0 _ _

theorem plkOut_none {psn ty : Nat} {retry : Bool} {l : List Byte} (h : NoFaults s) :
    plkOut p psn ty retry l s = emit (.plk p l) s := by
  unfold plkOut
  rw [meetFaults_none h]
  exact throughPoint_none h

/-- What sending a packet makes of its port, which had its PSN `n` next. -/
def sentPort (q : SentPkt) (n now : Nat) (o : Port) : Port :=
  { o with psn := (o.psn + 1) % 65536, lastSend := now, used := (o.used + q.cost) % 2 ^ 32,
           retry := if q.isRetry then bump o.retry else o.retry
           sent := if q.kept then o.sent ++ [{ q with psn := n }] else o.sent }

theorem sendPkt_none {q : SentPkt} {b : List Byte} (h : NoFaults s) : sendPkt p q b s =
    emit (.plk p ({ q with psn := (portOf s p).psn }.bytes p b)) (modPort p (sentPort q (portOf s p).psn s.now) s) :=
  plkOut_none (s := modPort p (sentPort q (portOf s p).psn s.now) s) h

theorem pumped_sendPkt {q : SentPkt} {b : List Byte} (h : NoFaults s) : Pumped p s (sendPkt p q b s) := by
  rw [sendPkt_none h]
  refine (pumped_modPort (f := sentPort q (portOf s p).psn s.now) fun _ => rfl).then ?_
  exact within_emit.pumped (by decide) (by decide) fun _ ho => List.mem_cons_of_mem _ ho

theorem pumped_sendNow {q : SentPkt} (h : NoFaults s) : Pumped p s (sendNow p q s) := by
  have hread : Pumped p s (readStore p q s).2 := pumped_readStore
  obtain ⟨-, -, -, hno⟩ := id hread
  exact hread.then (pumped_sendPkt (hno h))

theorem pumped_unqueue {rest : List SentPkt} : Pumped p s (modPort p (fun o => { o with queue := rest }) s) :=
  pumped_modPort fun _ => rfl

theorem pumped_pumpQueue {n : Nat} (h : NoFaults s) : Pumped p s (pumpQueue p n s) := by
  induction n generalizing s with
  | zero => exact pumped_refl
  | succ n ih =>
    have hgo : ∀ t, Pumped p s t → Pumped p s (pumpQueue p n t) := fun t ht => ht.then (ih (ht.2.2.2 h))
    unfold pumpQueue
    dsimp only
    split
    · exact pumped_refl
    next q rest _ =>
      refine pumped_ite (hgo _ ?_) (pumped_ite (hgo _ ?_) (pumped_ite (hgo _ ?_) pumped_refl))
      · exact pumped_unqueue.then ((pumped_ite pumped_refl pumped_readStore).then pumped_staleFlip)
      · exact pumped_unqueue.then pumped_missPkt
      · exact pumped_unqueue.then (pumped_sendNow h)

/-- A port that owes no PARK any more. -/
def parkSent (p : Nat) (s : State) : State := modPort p (fun o => { o with parkOwed := none }) s

theorem parkNow_up {cause : Nat} (hp : p < s.ports.length) (hst : (portOf s p).state ≠ .hold) : parkNow p cause s =
    record (0x18 + p) 0x0D08 (u8 p ++ u8 cause)
      (sendPkt p (barePkt 3 s.now) [] (parkSent p s)) := by
  unfold parkNow
  rw [← parkSent]
  dsimp only
  rw [if_neg (by rw [parkSent, portOf_modPort_same hp]; exact hst)]
  rfl

theorem payPark_sends {cause : Nat} (hfaults : NoFaults s) (hp : p < s.ports.length) (hst : (portOf s p).state = .ready)
    (howed : (portOf s p).parkOwed = some cause) (hending : (portOf s p).ending = false)
    (hallows : (portOf s p).allows (barePkt 3 s.now) = true) :
    ∃ b, Out.plk p b ∈ (payPark p s).out ∧ (portOf (payPark p s) p).parkOwed = none ∧
      (∀ j, j ≠ p → portOf (payPark p s) j = portOf s j) ∧ NoFaults (payPark p s) := by
  have hpay : payPark p s = record (0x18 + p) 0x0D08 (u8 p ++ u8 cause)
      (sendPkt p (barePkt 3 s.now) [] (parkSent p s)) := by
    unfold payPark
    dsimp only
    rw [howed]
    dsimp only
    rw [if_pos ⟨hst, hallows⟩, hending, if_neg Bool.false_ne_true, parkNow_up hp (by rw [hst]; decide)]
  have hsent : Pumped p (parkSent p s) (payPark p s) := by
    rw [hpay]
    exact Pumped.then (pumped_sendPkt (s := parkSent p s) (q := barePkt 3 s.now) (b := []) hfaults) pumped_record
  obtain ⟨hothers, hkept, -, hno⟩ := hsent
  have hout : ∃ b, Out.plk p b ∈ (payPark p s).out := by
    rw [hpay, record_out, sendPkt_none (s := parkSent p s) hfaults]
    exact ⟨_, List.mem_cons_self⟩
  obtain ⟨b, hout⟩ := hout
  exact ⟨b, hout, hkept.trans (congrArg Port.parkOwed (portOf_modPort_same hp)),
    fun j hj => (hothers j hj).trans (portOf_modPort_ne hj), hno hfaults⟩

theorem retCredit_parks {v cause : Nat} (hv : v < 2 ^ 32) (hfaults : NoFaults s) (hp : p < s.ports.length)
    (hst : (portOf s p).state = .ready) (howed : (portOf s p).parkOwed = some cause) (hending : (portOf s p).ending = false)
    (hallows : Port.allows { portOf s p with limit := v } (barePkt 3 s.now) = true) :
    (portOf (retCredit p v s) p).parkOwed = none ∧ (∃ b, Out.plk p b ∈ (retCredit p v s).out) ∧
      (∀ j, j ≠ p → portOf (retCredit p v s) j = portOf s j) := by
  have hport := portOf_creditedTo (s := s) (v := v) hp
  obtain ⟨b, hout, hnone, hothers, hno⟩ := payPark_sends (s := creditedTo p v s) (cause := cause) hfaults
    (by simpa [creditedTo, modPort, upd] using hp) (by rw [hport]; exact hst) (by rw [hport]; exact howed)
    (by rw [hport]; exact hending) (by rw [hport]; exact hallows)
  rw [retCredit_ready hv hst]
  obtain ⟨hpumped, hkept, hgrows, -⟩ := pumped_pumpQueue (p := p) (n := (portOf (payPark p (creditedTo p v s)) p).queue.length) hno
  exact ⟨hkept.trans hnone, ⟨b, hgrows _ hout⟩,
    fun j hj => (hpumped j hj).trans ((hothers j hj).trans (portOf_modPort_ne hj))⟩

/-! ### READY (R305) -/

/-- A port that has just become READY. -/
def readyPort (now : Nat) (o : Port) : Port := { o with state := .ready, readyAt := now, told := 0 }

/-- The lane on the reserve stands in the wear record and the port's readiness is told. -/
def toldReady (p lane : Nat) (s : State) : State :=
  record (0x18 + p) 0x0D01 (u8 p ++ u24 0 ++ u32 (laneMap lane)) (serviceStep { s with wear := { s.wear with
    plSpared := upd s.wear.plSpared p fun _ => if lane = 15 then 255 else lane } })

theorem within_toldReady {lane : Nat} : Within [.wear, .ledger] s (toldReady p lane s) := by
  refine Within.then (Within.then (?_ : Within _ s _) within_serviceStep) (within_recordAt.mono (by decide))
  exact within_of_eq_sub (m := [.wear]) rfl (by decide) (by decide)

theorem portReady_single (hp : p < s.ports.length) (hscan : (portOf s p).scan = false) (hpair : (portOf s p).pair = none)
    (howed : (portOf s p).parkOwed = none) : portReady p s =
      let u := toldReady p (portOf s p).spared (modPort p (readyPort s.now) s)
      (portOf s p).desc.elim u fun d => complete d 0 [] (modPort p (fun o => { o with desc := none }) u) := by
  have hport : portOf (modPort p (readyPort s.now) s) p = readyPort s.now (portOf s p) := portOf_modPort_same hp
  have htold : portOf (toldReady p (portOf s p).spared (modPort p (readyPort s.now) s)) p = readyPort s.now (portOf s p) :=
    (within_toldReady.portOf (by decide) p).trans hport
  unfold portReady
  rw [show modPort p (fun o => { o with state := .ready, readyAt := s.now, told := 0 }) s = modPort p (readyPort s.now) s from rfl]
  generalize modPort p (readyPort s.now) s = w at hport htold
  dsimp only
  rw [hport]
  rw [show (readyPort s.now (portOf s p)).scan = false from hscan, if_neg Bool.false_ne_true]
  rw [show record (0x18 + p) 0x0D01 (u8 p ++ u24 0 ++ u32 (laneMap (readyPort s.now (portOf s p)).spared)) (serviceStep { w with
    wear := { w.wear with plSpared := upd w.wear.plSpared p fun _ =>
      if (readyPort s.now (portOf s p)).spared = 15 then 255 else (readyPort s.now (portOf s p)).spared } }) =
      toldReady p (portOf s p).spared w from rfl]
  rw [payPark_none (by rw [htold]; exact howed)]
  rw [show (readyPort s.now (portOf s p)).pair = none from hpair]
  cases hdesc : (portOf s p).desc with
  | none =>
    rw [show (readyPort s.now (portOf s p)).desc = none from hdesc]
    rfl
  | some d =>
    rw [show (readyPort s.now (portOf s p)).desc = some d from hdesc]
    rfl

theorem portReady_frame (hp : p < s.ports.length) (hscan : (portOf s p).scan = false) (hpair : (portOf s p).pair = none)
    (howed : (portOf s p).parkOwed = none) : portOf (portReady p s) p = { readyPort s.now (portOf s p) with desc := none } ∧
      (∀ j, j ≠ p → portOf (portReady p s) j = portOf s j) ∧ Within ([.ports, .wear] ++ replyParts) s (portReady p s) := by
  have htold := within_toldReady (p := p) (lane := (portOf s p).spared) (s := modPort p (readyPort s.now) s)
  have hport : portOf (toldReady p (portOf s p).spared (modPort p (readyPort s.now) s)) p = readyPort s.now (portOf s p) :=
    (htold.portOf (by decide) p).trans (portOf_modPort_same hp)
  have hothers : ∀ j, j ≠ p → portOf (toldReady p (portOf s p).spared (modPort p (readyPort s.now) s)) j = portOf s j :=
    fun j hj => (htold.portOf (by decide) j).trans (portOf_modPort_ne hj)
  have hlen : p < (toldReady p (portOf s p).spared (modPort p (readyPort s.now) s)).ports.length := by
    rw [show (toldReady p (portOf s p).spared (modPort p (readyPort s.now) s)).ports = (modPort p (readyPort s.now) s).ports from
      htold .ports (by decide)]
    simpa [modPort, upd] using hp
  have hwithin : Within ([.ports, .wear] ++ replyParts) s (toldReady p (portOf s p).spared (modPort p (readyPort s.now) s)) :=
    (within_modPort.mono (by decide)).then (htold.mono (by decide))
  rw [portReady_single hp hscan hpair howed]
  generalize toldReady p (portOf s p).spared (modPort p (readyPort s.now) s) = u at *
  cases hdesc : (portOf s p).desc with
  | none =>
    refine ⟨?_, hothers, hwithin⟩
    show portOf u p = _
    rw [hport, readyPort, ← hdesc]
  | some d =>
    refine ⟨?_, fun j hj => ?_, hwithin.then (Within.then (t := modPort p (fun o => { o with desc := none }) u)
      (within_modPort.mono (by decide)) (within_complete.mono (by decide)))⟩
    · exact (within_complete.portOf (by decide) p).trans ((portOf_modPort_same hlen).trans (by rw [hport]))
    · exact (within_complete.portOf (by decide) j).trans ((portOf_modPort_ne hj).trans (hothers j hj))

theorem retCredit_ready_caps {v : Nat} (hv : v < 2 ^ 32) (hp : p < s.ports.length) (hst : (portOf s p).state = .caps)
    (hcaps : (portOf s p).capsSeen = 63) (hscan : (portOf s p).scan = false) (hpair : (portOf s p).pair = none)
    (howed : (portOf s p).parkOwed = none) : let t := retCredit p v s
      (portOf t p).state = .ready ∧ (portOf t p).limit = v ∧ (portOf t p).readyAt = s.now ∧ (portOf t p).desc = none ∧
        (∀ j, j ≠ p → portOf t j = portOf s j) ∧ Within ([.ports, .wear] ++ replyParts) s t := by
  have hcredit : retCredit p v s = portReady p (modPort p (fun o => { o with limit := v, credited := true }) s) := by
    simp only [retCredit, hst, Nat.mod_eq_of_lt hv, hcaps, if_true, modPort_modPort]
  have hport : portOf (modPort p (fun o => { o with limit := v, credited := true }) s) p =
      { portOf s p with limit := v, credited := true } := portOf_modPort_same hp
  obtain ⟨hsame, hothers, hwithin⟩ := portReady_frame (s := modPort p (fun o => { o with limit := v, credited := true }) s) (p := p)
    (by rw [modPort_length]; exact hp) (by rw [hport]; exact hscan) (by rw [hport]; exact hpair) (by rw [hport]; exact howed)
  dsimp only
  rw [hcredit, hsame, hport]
  exact ⟨rfl, rfl, rfl, rfl, fun j hj => (hothers j hj).trans (portOf_modPort_ne hj),
    Within.then (within_modPort.mono (by decide)) hwithin⟩

/-! ### NAK, LANE_LOCK and broken messages -/

theorem modPort_congr {f g : Port → Port} (hp : p < s.ports.length) (h : f (portOf s p) = g (portOf s p)) :
    modPort p f s = modPort p g s := by
  have hget : portOf s p = s.ports[p] := by simp [Machine.portOf, hp]
  rw [hget] at h
  have hports : upd s.ports p f = upd s.ports p g := by
    simp only [upd, List.modify_eq_set_getElem?, List.getElem?_eq_getElem hp, Option.map_eq_map, Option.map_some, h]
  rw [modPort, modPort, hports]

theorem retNak_unknown {psn : Nat} (hsent : ∀ q ∈ (portOf s p).sent, q.psn ≠ psn) :
    retNak p psn s = modPort p (fun o => { o with nak := bump o.nak }) s := by
  have hkept : (portOf (modPort p (fun o => { o with nak := bump o.nak }) s) p).sent = (portOf s p).sent :=
    portOf_modPort_field (g := Port.sent) fun _ => rfl
  unfold retNak
  dsimp only
  rw [hkept, List.find?_eq_none.2 fun q hq => by simpa using hsent q hq]

/-- A port that has heard the locks of its lanes. -/
def lanesPort (lock : Nat) (o : Port) : Port := { o with lock := lock, bip := o.bip.zipIdx.map fun x => satAdd top32 x.1 0 }

theorem needed_le {o : Port} : 0 < o.needed ∧ o.needed < 512 := by
  unfold Port.needed
  split
  next h =>
    have hpow : 2 ^ o.spared < 2 ^ 8 := Nat.pow_lt_pow_right (by norm_num) h
    have hpos : 0 < 2 ^ o.spared := Nat.pow_pos (by norm_num)
    omega
  next => omega

theorem lockedAll_full {o : Port} (h : o.lock = 0x1FF) : o.lockedAll = true := by
  rw [Port.lockedAll, h, show (0x1FF : Nat) = 2 ^ 9 - 1 by norm_num, Nat.and_two_pow_sub_one_eq_mod,
    Nat.mod_eq_of_lt needed_le.2, beq_self_eq_true]

theorem lockedAll_zero {o : Port} (h : o.lock = 0) : o.lockedAll = false := by
  rw [Port.lockedAll, h, Nat.and_zero]
  have hpos := needed_le (o := o).1
  simp only [beq_eq_false_iff_ne]
  omega

theorem retLaneLock_eq {lock : Nat} {al : Bool} (hp : p < s.ports.length) (hlock : lock < 512) :
    retLaneLock p lock al [] s =
      let u := modPort p (lanesPort lock) s
      match (portOf s p).state with
      | .bitlock =>
        let w := match (List.range 8).filter fun l => !bitOf lock l with
          | [l] => if (portOf s p).spared = 15 ∧ bitOf lock 8 ∧ (portOf s p).trainAt + 5 * msec ≤ s.now then spareLane p l u else u
          | _ => u
        if (portOf w p).lockedAll then modPort p (fun o => { o with state := .align }) w else w
      | .align => if al then modPort p (fun o => { o with state := .caps }) u else u
      | .ready => if (lanesPort lock (portOf s p)).lockedAll then u else linkDown p 2 u
      | .hold => if (lanesPort lock (portOf s p)).lockedAll ∧ al ∧ (portOf s p).owner.any (fun k => (headOf s k).cave.state = .leaving) then
          modPort p (fun o => { o with state := .ready, readyAt := s.now }) u
        else u
      | _ => u := by
  have hport : portOf (modPort p (lanesPort lock) s) p = lanesPort lock (portOf s p) := portOf_modPort_same hp
  unfold retLaneLock
  rw [Nat.mod_eq_of_lt hlock]
  rw [show modPort p (fun o => { o with
    lock := lock, bip := o.bip.zipIdx.map fun x => satAdd top32 x.1 ([].getD x.2 0) }) s = modPort p (lanesPort lock) s from rfl]
  dsimp only
  rw [hport]
  rfl

theorem retLaneLock_aligns {al : Bool} (hp : p < s.ports.length) (hst : (portOf s p).state = .bitlock) :
    retLaneLock p 0x1FF al [] s = modPort p (fun o => { lanesPort 0x1FF o with state := .align }) s := by
  have hport : portOf (modPort p (lanesPort 0x1FF) s) p = lanesPort 0x1FF (portOf s p) := portOf_modPort_same hp
  rw [retLaneLock_eq hp (by norm_num)]
  dsimp only
  rw [hst, show ((List.range 8).filter fun l => !bitOf 0x1FF l) = [] by decide]
  dsimp only
  rw [hport, lockedAll_full rfl, if_pos rfl, modPort_modPort]

theorem retLaneLock_caps {al : Bool} (hp : p < s.ports.length) (hst : (portOf s p).state = .align) :
    retLaneLock p 0x1FF al [] s =
      modPort p (fun o => { lanesPort 0x1FF o with state := if al = true then .caps else o.state }) s := by
  rw [retLaneLock_eq hp (by norm_num)]
  dsimp only
  rw [hst]
  cases al
  · rfl
  · exact modPort_modPort

/-! ### Links that go down and train again (R306) -/

/-- A port that begins its training. -/
def trainPort (now : Nat) (o : Port) : Port :=
  { o with state := .bitlock, lock := 0, spared := 15, capsSeen := 0, limit := 0, used := 0, credited := false, sent := [],
           queue := [], badRun := [], trainAt := now, lastRet := now }

/-- A port whose lane the reserve has taken, which the wear record keeps. -/
def laneSpared (p lane : Nat) (s : State) : State :=
  { s with ports := upd s.ports p (fun o => { o with spared := lane })
           wear := { s.wear with plSpared := upd s.wear.plSpared p fun _ => lane } }

theorem spareLane_eq {lane : Nat} : spareLane p lane s = record (0x18 + p) 0x0D04 (u8 p ++ u8 lane) (laneSpared p lane s) := rfl

theorem within_laneSpared {lane : Nat} : Within [.ports, .wear, .ledger] s (laneSpared p lane s) :=
  within_of_eq_sub (m := [.ports, .wear]) rfl (by decide) (by decide)

theorem within_spareLane {lane : Nat} : Within [.ports, .wear, .ledger] s (spareLane p lane s) :=
  within_laneSpared.then (within_recordAt.mono (by decide))

theorem portOf_spareLane {lane : Nat} : portOf (spareLane p lane s) j = portOf (modPort p (fun o => { o with spared := lane }) s) j :=
  (within_recordAt (s := laneSpared p lane s)).portOf (by decide) j

theorem startTraining_eq : startTraining p s = (let u := modPort p (trainPort s.now) s
    let r := (portOf u p).spareReq
    if r < 8 then spareLane p r u else u) := rfl

theorem within_startTraining : Within [.ports, .wear, .ledger] s (startTraining p s) := by
  rw [startTraining_eq]
  exact within_ite ((within_modPort.mono (by decide)).then within_spareLane) (within_modPort.mono (by decide))

theorem portOf_startTraining_ne (hj : j ≠ p) : portOf (startTraining p s) j = portOf s j := by
  rw [startTraining_eq]
  dsimp only
  split
  · rw [portOf_spareLane, portOf_modPort_ne hj, portOf_modPort_ne hj]
  · rw [portOf_modPort_ne hj]

theorem startTraining_field {α : Type} {g : Port → α} (hp : p < s.ports.length) (hg : ∀ (o : Port) n, g { o with spared := n } = g o) :
    g (portOf (startTraining p s) p) = g (trainPort s.now (portOf s p)) := by
  rw [startTraining_eq]
  dsimp only
  split
  · rw [portOf_spareLane, portOf_modPort_field fun o => hg o _, portOf_modPort_same hp]
  · rw [portOf_modPort_same hp]

theorem linkDown_none {cause : Nat} (h : NoFaults s) :
    linkDown p cause s = startTraining p (record (0x18 + p) 0x0D02 (u8 p ++ u8 cause) s) := by
  have hno : NoFaults (record (0x18 + p) 0x0D02 (u8 p ++ u8 cause) s) := within_recordAt.noFaults (by decide) h
  unfold linkDown
  dsimp only
  rw [loseHeld_none hno, loseHeld_none hno]

theorem linkDown_frame {cause : Nat} (h : NoFaults s) (hp : p < s.ports.length) : let t := linkDown p cause s
    (portOf t p).state = .bitlock ∧ (portOf t p).sent = [] ∧ (portOf t p).trainAt = s.now ∧
      (portOf t p).owner = (portOf s p).owner ∧ (∀ j, j ≠ p → portOf t j = portOf s j) ∧ Within [.ports, .wear, .ledger] s t := by
  have hrec : Within [.ledger] s (record (0x18 + p) 0x0D02 (u8 p ++ u8 cause) s) := within_recordAt
  have hports : ∀ j, portOf (record (0x18 + p) 0x0D02 (u8 p ++ u8 cause) s) j = portOf s j := hrec.portOf (by decide)
  have hlen : p < (record (0x18 + p) 0x0D02 (u8 p ++ u8 cause) s).ports.length := by rw [hrec .ports (by decide)]; exact hp
  dsimp only
  rw [linkDown_none h]
  refine ⟨?_, ?_, ?_, ?_, fun j hj => (portOf_startTraining_ne hj).trans (hports j),
    (hrec.mono (by decide)).then within_startTraining⟩
  · exact startTraining_field (g := Port.state) hlen fun _ _ => rfl
  · exact startTraining_field (g := Port.sent) hlen fun _ _ => rfl
  · exact (startTraining_field (g := Port.trainAt) hlen fun _ _ => rfl).trans (hrec .now (by decide))
  · exact (startTraining_field (g := Port.owner) hlen fun _ _ => rfl).trans (show (portOf (record (0x18 + p) 0x0D02 (u8 p ++ u8 cause) s) p).owner = _ from congrArg Port.owner (hports p))

theorem retLaneLock_lost {al : Bool} (hp : p < s.ports.length) (hst : (portOf s p).state = .ready) :
    retLaneLock p 0 al [] s = linkDown p 2 (modPort p (lanesPort 0) s) := by
  rw [retLaneLock_eq hp (by norm_num)]
  dsimp only
  rw [hst]
  dsimp only
  rw [lockedAll_zero rfl, if_neg Bool.false_ne_true]

/-- Records of the module that also change its ports and the wear record. -/
theorem portWear_of_within (h : Within [.ports, .wear, .ledger] (tick dt s) t) :
    OnlyRecords { s with ports := t.ports, wear := t.wear } t :=
  onlyRecords_patch (m := [.ports, .wear]) ((within_trans within_tick h).mono (by decide)) (by decide)

/-! ### Ports that fail (R305) -/

/-- The port of a head leaves its admission, and its pair goes down. -/
theorem within_endPort : Within [.items, .ports] s (endPort p s) := by
  unfold endPort
  dsimp only
  have hitem : Within [.items, .ports] s ((portOf s p).owner.elim s fun k => dropItem (.port k ((portOf s p).pair.elim p fun q => min p q)) s) :=
    within_elim within_refl fun _ => within_dropItem.mono (by decide)
  exact hitem.then (within_elim within_refl fun _ => within_modPort.mono (by decide))

theorem headDark_idle (h : (headOf s k).pipe.parkDue = none) : headDark k s = s := by
  have hdark : parkIfDark k s = s := by
    unfold parkIfDark
    rw [h]
  unfold headDark
  dsimp only
  rw [hdark, h]
  cases (headOf s k).pipe.releasing <;> rfl

/-- A port that has failed. -/
def failedPort (o : Port) : Port :=
  { o with state := .failed, owner := none, pair := none, desc := none, parkOwed := none, ending := false, sent := [], queue := [] }

theorem trainFailed_frame {status : Nat} {det : List Byte} (hp : p < s.ports.length)
    (hidle : ∀ k, (portOf s p).owner = some k → (headOf s k).pipe.parkDue = none) : let t := trainFailed p status det s
    (portOf t p).state = .failed ∧ (portOf t p).owner = none ∧ Within ([.items, .ports] ++ replyParts) s t := by
  have hlen : p < (endPort p s).ports.length := by
    have hitem : ∀ r, ((portOf s p).owner.elim s fun k => dropItem (.port k r) s).ports = s.ports := fun r =>
      within_elim (m := [.items]) within_refl (fun _ => within_dropItem) .ports (by decide)
    unfold endPort
    dsimp only
    cases (portOf s p).pair with
    | none => exact (congrArg List.length (hitem p)).symm ▸ hp
    | some q => exact (modPort_length.trans (congrArg List.length (hitem (min p q)))).symm ▸ hp
  have hfailed : Within ([.items, .ports] ++ replyParts) s (modPort p failedPort (endPort p s)) :=
    (within_endPort.mono (by decide)).then (within_modPort.mono (by decide))
  have hport : portOf (modPort p failedPort (endPort p s)) p = failedPort (portOf (endPort p s) p) := portOf_modPort_same hlen
  have hheads : ∀ k, headOf (modPort p failedPort (endPort p s)) k = headOf s k := hfailed.headOf (by decide)
  dsimp only
  unfold trainFailed
  rw [show (fun o : Port => { o with
    state := .failed, owner := none, pair := none, desc := none, parkOwed := none, ending := false, sent := [], queue := [] }) =
    failedPort from rfl]
  dsimp only
  generalize modPort p failedPort (endPort p s) = u at *
  generalize (portOf s p).desc.orElse (fun _ => (portOf s p).pair.bind fun q => (portOf s q).desc) = waiting
  have htold : Within replyParts u (waiting.elim u fun d => if owes d u then complete d status det u else u) :=
    within_elim within_refl fun d => within_ite within_complete within_refl
  generalize waiting.elim u (fun d => if owes d u then complete d status det u else u) = w at htold
  have hw : (portOf w p) = failedPort (portOf (endPort p s) p) := (htold.portOf (by decide) p).trans hport
  have hsame : ((portOf s p).owner.elim w fun k => headDark k w) = w := by
    cases howner : (portOf s p).owner with
    | none => rfl
    | some k => exact headDark_idle (by rw [htold.headOf (by decide), hheads, hidle k howner])
  rw [hsame, hw]
  exact ⟨rfl, rfl, hfailed.then (htold.mono (by decide))⟩

/-! ### CAPS (R304) -/

/-- A page of the capabilities of a port, heard. -/
def pageHeard (p page v : Nat) (s : State) : State := modPort p (fun o => { o with caps := upd o.caps page fun _ => v }) s

theorem pageMatches_pageHeard {o : Port} {page v : Nat} {l : List Nat} : pageMatches { o with caps := l } page v = pageMatches o page v := rfl

section Caps
variable {page v : Nat} (hpage : page < 6) (hv : v < 2 ^ 32) (hp : p < s.ports.length)
include hpage hv hp

theorem retCaps_matches (hst : (portOf s p).state = .caps) (hmatch : pageMatches (portOf s p) page v = true) :
    retCaps p page v s = modPort p (fun o => { o with caps := upd o.caps page fun _ => v, capsSeen := o.capsSeen ||| 2 ^ page }) s := by
  have hport : portOf (pageHeard p page v s) p = { portOf s p with caps := upd (portOf s p).caps page fun _ => v } := portOf_modPort_same hp
  unfold retCaps
  rw [if_neg (by omega), Nat.mod_eq_of_lt hv, ← pageHeard]
  dsimp only
  rw [hport]
  exact (if_pos hmatch).trans ((if_pos hst).trans modPort_modPort)

theorem retCaps_fails (hmatch : pageMatches (portOf s p) page v = false) :
    retCaps p page v s = trainFailed p 0xD84 (u8 page) (pageHeard p page v s) := by
  have hport : portOf (pageHeard p page v s) p = { portOf s p with caps := upd (portOf s p).caps page fun _ => v } := portOf_modPort_same hp
  unfold retCaps
  rw [if_neg (by omega), Nat.mod_eq_of_lt hv, ← pageHeard]
  dsimp only
  rw [hport]
  exact if_neg (by rw [pageMatches_pageHeard, hmatch]; exact Bool.false_ne_true)

end Caps

/-! ### STATUS (R308, R318) -/

/-- What a return STATUS reaches, its port aside. -/
def statusParts : List StatePart :=
  [.ports, .heads, .wear, .pstate, .selfRef, .hbm, .cells, .ecc, .ledger, .causes, .out, .chans, .sps, .replies, .ovf, .catPorts, .fault]

/-- What STATUS leaves of its port. -/
def StatusKept (p : Nat) (s t : State) : Prop :=
  Within statusParts s t ∧ t.ports.length = s.ports.length ∧ (portOf t p).parked = (portOf s p).parked ∧
    (portOf t p).parkDesc = (portOf s p).parkDesc

theorem StatusKept.then (h1 : StatusKept p s t) (h2 : StatusKept p t u) : StatusKept p s u := by
  obtain ⟨hw1, hl1, hp1, hd1⟩ := h1
  obtain ⟨hw2, hl2, hp2, hd2⟩ := h2
  exact ⟨hw1.then hw2, hl2.trans hl1, hp2.trans hp1, hd2.trans hd1⟩

theorem Within.statusKept (h : Within m s t) (hports : .ports ∉ m) (hm : ∀ q ∈ m, q ∈ statusParts) : StatusKept p s t :=
  ⟨h.mono hm, congrArg List.length (h .ports hports), congrArg Port.parked (h.portOf hports p),
    congrArg Port.parkDesc (h.portOf hports p)⟩

theorem statusKept_refl : StatusKept p s s := (within_refl (m := [])).statusKept (by decide) (by decide)

theorem statusKept_modPort {f : Port → Port} (hf : ∀ o, (f o).parked = o.parked ∧ (f o).parkDesc = o.parkDesc) :
    StatusKept p s (modPort j f s) :=
  ⟨within_modPort.mono (by decide), modPort_length, portOf_modPort_field (g := Port.parked) fun o => (hf o).1,
    portOf_modPort_field (g := Port.parkDesc) fun o => (hf o).2⟩

theorem statusKept_ite {c : Prop} [Decidable c] {a b : State} (ha : StatusKept p s a) (hb : StatusKept p s b) :
    StatusKept p s (if c then a else b) := by
  split
  · exact ha
  · exact hb

theorem statusKept_forEach {α : Type} {l : List α} {f : α → State → State} (hf : ∀ a s, StatusKept p s (f a s)) :
    StatusKept p s (forEach l f s) := by
  induction l generalizing s with
  | nil => exact statusKept_refl
  | cons a l ih => exact (hf a s).then ih

theorem statusKept_sendPkt {q : SentPkt} {l : List Byte} : StatusKept p s (sendPkt j q l s) :=
  StatusKept.then (t := modPort j (sentPort q (portOf s j).psn s.now) s) (statusKept_modPort fun _ => ⟨rfl, rfl⟩)
    (within_plkOut.statusKept (by decide) (by decide))

theorem statusKept_sendStatus : StatusKept p s (sendStatus j s) :=
  StatusKept.then statusKept_sendPkt (statusKept_modPort fun _ => ⟨rfl, rfl⟩)

theorem statusKept_tellState : StatusKept p s (tellState k s) :=
  statusKept_forEach fun _ _ => statusKept_ite statusKept_refl statusKept_sendStatus

theorem statusKept_spareLane {lane : Nat} : StatusKept p s (spareLane j lane s) := by
  have hport : StatusKept p s (modPort j (fun o => { o with spared := lane }) s) := statusKept_modPort fun _ => ⟨rfl, rfl⟩
  have hwear : Within [.wear] (modPort j (fun o => { o with spared := lane }) s) (laneSpared j lane s) := within_of_eq rfl (by decide)
  rw [spareLane_eq]
  exact (hport.then (hwear.statusKept (by decide) (by decide))).then (within_recordAt.statusKept (by decide) (by decide))

theorem statusKept_startTraining : StatusKept p s (startTraining j s) := by
  have hport : StatusKept p s (modPort j (trainPort s.now) s) := statusKept_modPort fun _ => ⟨rfl, rfl⟩
  rw [startTraining_eq]
  exact statusKept_ite (hport.then statusKept_spareLane) hport

theorem statusKept_loseLoop : StatusKept p s (loseLoop j s) := by
  unfold loseLoop
  split
  · exact statusKept_refl
  · split
    · exact statusKept_refl
    · refine StatusKept.then ?_ statusKept_startTraining
      refine StatusKept.then ?_ (within_rampMask.statusKept (by decide) (by decide))
      refine StatusKept.then ?_ (within_modCave.statusKept (by decide) (by decide))
      exact (within_caveExit.statusKept (by decide) (by decide)).then (within_leaveP2_served.statusKept (by decide) (by decide))

theorem retStatus_frame {st flags frame : Nat} (hp : p < s.ports.length) : let t := retStatus p st flags frame s
    (portOf t p).parked = decide (st = 1) ∧ (st = 1 → (portOf t p).parkDesc = []) ∧ Within statusParts s t := by
  unfold retStatus
  extract_lets o u v w x
  have hu : (portOf u p).parked = decide (st = 1) := congrArg Port.parked (portOf_modPort_same hp)
  have hwu : Within statusParts s u := within_modPort.mono (by decide)
  have hv : StatusKept p u v := statusKept_ite statusKept_refl (within_recordAt.statusKept (by decide) (by decide))
  have hw : StatusKept p u w := hv.then (statusKept_ite statusKept_loseLoop statusKept_refl)
  have hsettle : ∀ (l : List Desc) y, StatusKept p y (forEach l (fun d => parkSettled d 0) y) := fun l y =>
    statusKept_forEach fun _ _ => statusKept_ite statusKept_refl (within_complete.statusKept (by decide) (by decide))
  have htell : StatusKept p x (o.owner.elim x fun k => tellState k x) := by
    cases o.owner with
    | none => exact statusKept_refl
    | some k => exact statusKept_tellState
  obtain ⟨hww, hwlen, hwparked, -⟩ := hw
  obtain ⟨htw, -, htparked, htdesc⟩ := htell
  by_cases hst : st = 1
  · have hx : x = forEach (o.parkDesc.map (·.1)) (fun d => parkSettled d 0) (modPort p (fun o => { o with parkDesc := [] }) w) := if_pos hst
    have hlen : p < w.ports.length := by rw [hwlen, modPort_length]; exact hp
    have hclear : portOf (modPort p (fun o => { o with parkDesc := [] }) w) p = { portOf w p with parkDesc := [] } := portOf_modPort_same hlen
    obtain ⟨hsw, -, hsparked, hsdesc⟩ := hsettle (o.parkDesc.map (·.1)) (modPort p (fun o => { o with parkDesc := [] }) w)
    rw [← hx, hclear] at hsparked hsdesc
    rw [← hx] at hsw
    refine ⟨htparked.trans (hsparked.trans (hwparked.trans hu)), fun _ => htdesc.trans hsdesc, ?_⟩
    exact (((hwu.then hww).then (within_modPort.mono (by decide))).then hsw).then htw
  · have hx : x = w := if_neg hst
    have hwx : Within statusParts w x := by rw [hx]; exact within_refl
    exact ⟨htparked.trans ((congrArg (fun y => (portOf y p).parked) hx).trans (hwparked.trans hu)), fun h => absurd h hst,
      ((hwu.then hww).then hwx).then htw⟩

/-! ### Broken messages and timers -/

theorem badReturn_counts (hst : (portOf s p).state ≠ .ready) : badReturn p s = modPort p (fun o => { o with
    retErr := bump o.retErr, badRun := (s.now :: (portOf s p).badRun.filter fun t => decide (s.now ≤ t + msec)).take 5 }) s := by
  have hstill : (portOf (modPort p (fun o => { o with
      retErr := bump o.retErr, badRun := (s.now :: (portOf s p).badRun.filter fun t => decide (s.now ≤ t + msec)).take 5 }) s) p).state =
      (portOf s p).state := portOf_modPort_field (g := Port.state) fun _ => rfl
  unfold badReturn
  dsimp only
  rw [hstill]
  exact if_neg fun h => hst h.1

theorem exec_returnMessageBad (hp : p < s.ports.length) (hhears : (portOf s p).hears = true) (hst : (portOf s p).state ≠ .ready) :
    exec (.returnMessageBad dt p) s = .next (modPort p (fun o => { o with
      retErr := bump o.retErr
      badRun := ((tick dt s).now :: o.badRun.filter fun t => decide ((tick dt s).now ≤ t + msec)).take 5 }) (heardAt p (tick dt s))) := by
  have hheard := portOf_heardAt (s := tick dt s) (p := p) hp
  have hexec : exec (.returnMessageBad dt p) s = .next (badReturn p (heardAt p (tick dt s))) := if_pos hhears
  rw [hexec, badReturn_counts (by rw [hheard]; exact hst)]
  exact congrArg Host.Outcome.next (modPort_congr (by rw [heardAt, modPort_length]; exact hp) rfl)

theorem one_lane_out : ∀ l < 8, ((List.range 9).filter fun x => bitOf 0xFF x && !bitOf (0x1FF - 2 ^ l) x) = [l] ∧
    bitOf (0x1FF - 2 ^ l) 8 = true := by decide

theorem laneLockTimeout_spares {l : Nat} (hl : l < 8) (hst : (portOf s p).state = .bitlock)
    (hdue : (portOf s p).trainAt + 5 * msec ≤ (tick dt s).now) (hspared : (portOf s p).spared = 15)
    (hlock : (portOf s p).lock = 0x1FF - 2 ^ l) : exec (.laneLockTimeout dt p l) s =
      .next (modPort p (fun o => { o with state := .align }) (spareLane p l (tick dt s))) := by
  obtain ⟨hout, htop⟩ := one_lane_out l hl
  have hneeded : (portOf s p).needed = 0xFF := by rw [Port.needed, hspared]; rfl
  show execLaneLockTimeout dt p l s = _
  unfold execLaneLockTimeout
  dsimp only
  rw [show portOf (tick dt s) p = portOf s p from rfl, hneeded, hlock, hout, if_neg (by rw [hst]; simpa using hdue)]
  exact if_pos ⟨rfl, hl, hspared, htop⟩

theorem portTrainTimeout_fails (hst : (portOf s p).state = .bitlock ∨ (portOf s p).state = .align ∨ (portOf s p).state = .caps)
    (hdue : (portOf s p).trainAt + 100 * msec ≤ (tick dt s).now) :
    exec (.portTrainTimeout dt p) s = .next (failTraining p (tick dt s)) := if_pos ⟨hst, hdue⟩

theorem failTraining_frame (hp : p < s.ports.length)
    (hidle : ∀ k, (portOf s p).owner = some k → (headOf s k).pipe.parkDue = none) : let t := failTraining p s
    (portOf t p).state = .failed ∧ (portOf t p).owner = none ∧ Within ([.items, .ports, .wear] ++ replyParts) s t := by
  obtain ⟨hstate, howner, hwithin⟩ := trainFailed_frame (status := 0xD83) (det := u16 (portOf s p).lock) hp hidle
  have hport : portOf (failTraining p s) p = portOf (trainFailed p 0xD83 (u16 (portOf s p).lock) s) p :=
    within_serviceStep.portOf (by decide) p
  dsimp only
  rw [hport]
  exact ⟨hstate, howner, (hwithin.mono (by decide)).then (within_serviceStep.mono (by decide))⟩

theorem returnSilent_falls (hst : (portOf s p).state = .ready) (hdue : (portOf s p).lastRet + 100 * usec ≤ (tick dt s).now) :
    exec (.returnSilent dt p) s = .next (linkDown p 1 (tick dt s)) := by
  show execReturnSilent dt p s = _
  unfold execReturnSilent
  dsimp only
  rw [show portOf (tick dt s) p = portOf s p from rfl, if_neg (by omega), hst]

theorem portIdleTimer_sends (hst : (portOf s p).state = .ready) (hdue : (portOf s p).lastSend + 100 * usec ≤ (tick dt s).now) :
    exec (.portIdleTimer dt p) s = .next (sendPkt p (barePkt 6 (tick dt s).now) [] (tick dt s)) := if_pos ⟨hst, hdue⟩

theorem sentPort_idle {n now : Nat} : sentPort (barePkt 6 now) n now = fun o =>
    { o with psn := (o.psn + 1) % 65536, lastSend := now, used := o.used % 2 ^ 32 } := by
  have hretry : (barePkt 6 now).isRetry = false := (by decide : bitOf 0 0 = false)
  have hkept : (barePkt 6 now).kept = false := rfl
  have hcost : (barePkt 6 now).cost = 0 := rfl
  funext o
  simp only [sentPort, hretry, hkept, hcost, Bool.false_eq_true, if_false, Nat.add_zero]

theorem statusEvery_due {st : PortState} {last now : Nat}
    (h : st = .ready ∧ last + msec ≤ now ∨ st = .caps ∧ last + 100 * usec ≤ now) :
    ((statusEvery st).any fun t => decide (last + t ≤ now)) = true := by
  rcases h with ⟨hst, hdue⟩ | ⟨hst, hdue⟩ <;> rw [hst, statusEvery, Option.any_some] <;> exact decide_eq_true hdue

theorem portStatusTimer_sends (h : (portOf s p).state = .ready ∧ (portOf s p).lastStatus + msec ≤ (tick dt s).now ∨
    (portOf s p).state = .caps ∧ (portOf s p).lastStatus + 100 * usec ≤ (tick dt s).now) :
    exec (.portStatusTimer dt p) s = .next (sendStatus p (tick dt s)) := by
  have hdue := statusEvery_due h
  show execPortStatusTimer dt p s = _
  unfold execPortStatusTimer
  exact if_pos hdue

/-- The STATUS a port sends. -/
def statusBytes (s : State) (p : Nat) : List Byte :=
  { barePkt 7 s.now with len := 16, psn := (portOf s p).psn }.bytes p (u8 ((portOf s p).owner.getD 0) ++
    u8 (headState s ((portOf s p).owner.getD 0) p) ++ u16 0 ++ u32 (headOf s ((portOf s p).owner.getD 0)).pipe.flipped ++ u64 0)

/-- A port that has told its head's state. -/
def toldPort (st now : Nat) (o : Port) : Port := { o with told := st, lastStatus := now }

theorem sendStatus_none (h : NoFaults s) : sendStatus p s = modPort p (toldPort (headState s ((portOf s p).owner.getD 0) p) s.now)
    (emit (.plk p (statusBytes s p)) (modPort p (sentPort { barePkt 7 s.now with len := 16 } (portOf s p).psn s.now) s)) := by
  unfold sendStatus
  dsimp only
  rw [sendPkt_none h]
  rfl

theorem sendStatus_frame (h : NoFaults s) (hp : p < s.ports.length) : let t := sendStatus p s
    t.out = .plk p (statusBytes s p) :: s.out ∧ (portOf t p).told = headState s ((portOf s p).owner.getD 0) p ∧
      (portOf t p).lastStatus = s.now ∧ (portOf t p).lastSend = s.now ∧ (∀ j, j ≠ p → portOf t j = portOf s j) ∧
      t = { s with ports := t.ports, out := t.out } := by
  rw [sendStatus_none h]
  generalize hu : emit (.plk p (statusBytes s p)) (modPort p (sentPort { barePkt 7 s.now with len := 16 } (portOf s p).psn s.now) s) = u
  have hout : u.out = .plk p (statusBytes s p) :: s.out := by rw [← hu]; rfl
  have hlen : p < u.ports.length := by rw [← hu]; exact modPort_length (s := s) (p := p) ▸ hp
  have hsent : portOf u p = sentPort { barePkt 7 s.now with len := 16 } (portOf s p).psn s.now (portOf s p) := by
    rw [← hu]
    exact portOf_modPort_same hp
  have hothers : ∀ j, j ≠ p → portOf u j = portOf s j := fun j hj => by
    rw [← hu]
    exact portOf_modPort_ne hj
  have hform : u = { s with ports := u.ports, out := u.out } := by rw [← hu]; rfl
  dsimp only
  rw [portOf_modPort_same hlen, hsent]
  refine ⟨hout, rfl, rfl, rfl, fun j hj => (portOf_modPort_ne hj).trans (hothers j hj), ?_⟩
  rw [modPort]
  conv_lhs => rw [hform]

/-! ### The two clauses -/

theorem returnMessages_clause (hfaults : NoFaults s) (hdown : (portOf s p).state ≠ .down) (hfailed : (portOf s p).state ≠ .failed)
    (hp : p < s.ports.length) : let o := portOf s p; let u := heardAt p (tick dt s)
    (∀ v < 2 ^ 32, (o.state = .ready → o.queue = [] → o.parkOwed = none →
        exec (.retCredit dt p v) s = .next (modPort p (fun o => { o with limit := v }) u)) ∧
      (∀ cause, o.state = .ready → o.parkOwed = some cause → o.ending = false →
        Port.allows { o with limit := v } (barePkt 3 (tick dt s).now) = true →
        ∃ t b, exec (.retCredit dt p v) s = .next t ∧ (portOf t p).parkOwed = none ∧ .plk p b ∈ t.out ∧
          (∀ j, j ≠ p → portOf t j = portOf s j)) ∧
      (o.state = .caps → o.capsSeen = 63 → o.scan = false → o.pair = none → o.parkOwed = none → ∃ t,
        exec (.retCredit dt p v) s = .next t ∧ (portOf t p).state = .ready ∧ (portOf t p).limit = v ∧
        (portOf t p).readyAt = (tick dt s).now ∧ (portOf t p).desc = none ∧
        (∀ j, j ≠ p → portOf t j = portOf s j) ∧ OnlyReply { s with ports := t.ports, wear := t.wear } t)) ∧
    (∀ psn why, psn < 65536 → (∀ q ∈ o.sent, q.psn ≠ psn) →
      exec (.retNak dt p psn why) s = .next (modPort p (fun o => { o with nak := bump o.nak }) u)) ∧
    (∀ al, (o.state = .bitlock → ∃ t, exec (.retLaneLock dt p 0x1FF al []) s = .next t ∧
        t = modPort p (fun o => { o with lock := 0x1FF, bip := t.ports.getD p Reset.port |>.bip, state := .align }) u) ∧
      (o.state = .align → ∃ t, exec (.retLaneLock dt p 0x1FF al []) s = .next t ∧
        (portOf t p).state = (if al = true then .caps else .align) ∧ (∀ j, j ≠ p → portOf t j = portOf s j) ∧
        t = { tick dt s with ports := t.ports }) ∧
      (o.state = .ready → ∃ t, exec (.retLaneLock dt p 0 al []) s = .next t ∧ (portOf t p).state = .bitlock ∧
        (portOf t p).sent = [] ∧ (portOf t p).owner = o.owner ∧ (∀ j, j ≠ p → portOf t j = portOf s j) ∧
        OnlyRecords { s with ports := t.ports, wear := t.wear } t)) ∧
    (∀ pg v, pg < 6 → v < 2 ^ 32 → o.state = .caps →
      (pageMatches o pg v = true → exec (.retCaps dt p pg v) s = .next (modPort p (fun o => { o with
        caps := upd o.caps pg fun _ => v, capsSeen := o.capsSeen ||| 2 ^ pg }) u)) ∧
      (pageMatches o pg v = false → (∀ k, o.owner = some k → (headOf s k).pipe.parkDue = none) → ∃ t,
        exec (.retCaps dt p pg v) s = .next t ∧ (portOf t p).state = .failed ∧
        (portOf t p).owner = none ∧ t.heads = s.heads ∧ t.gheler = s.gheler ∧ t.ingest = s.ingest)) ∧
    (∀ st fl fr, st < 256 → ∃ t, exec (.retStatus dt p st fl fr) s = .next t ∧ (portOf t p).parked = decide (st = 1) ∧
      (st = 1 → (portOf t p).parkDesc = []) ∧ t.adm = s.adm ∧ t.ingest = s.ingest ∧ t.time = (tick dt s).time) ∧
    (o.state ≠ .ready → exec (.returnMessageBad dt p) s = .next (modPort p (fun o => { o with
      retErr := bump o.retErr, badRun := ((tick dt s).now :: o.badRun.filter fun t => decide ((tick dt s).now ≤ t + msec)).take 5 }) u)) := by
  have hhears : (portOf s p).hears = true := hears_of_up hdown hfailed
  have hheard : portOf (heardAt p (tick dt s)) p = { portOf s p with lastRet := (tick dt s).now } := portOf_heardAt (s := tick dt s) hp
  have hlen : p < (heardAt p (tick dt s)).ports.length := by rw [heardAt, modPort_length]; exact hp
  have hothers : ∀ j, j ≠ p → portOf (heardAt p (tick dt s)) j = portOf s j := fun j hj => portOf_modPort_ne (s := tick dt s) hj
  have hno : NoFaults (heardAt p (tick dt s)) := hfaults
  have hwithin : Within (clockParts ++ [.ports]) s (heardAt p (tick dt s)) := within_trans within_tick within_modPort
  have hheads : ∀ k, headOf (heardAt p (tick dt s)) k = headOf s k := hwithin.headOf (by decide)
  have hform : heardAt p (tick dt s) = { tick dt s with ports := (heardAt p (tick dt s)).ports } := rfl
  have hnow : (heardAt p (tick dt s)).now = (tick dt s).now := rfl
  have hcredit := fun v hv => exec_retCredit (dt := dt) (v := v) hfaults hp hhears hv
  have hnak := fun psn why hpsn => exec_retNak (dt := dt) (psn := psn) (why := why) hfaults hp hhears hpsn
  have hlanes := fun lock al hlock => exec_retLaneLock (dt := dt) (lock := lock) (al := al) hfaults hp hhears hlock
  have hcaps := fun page v hpage hv => exec_retCaps (dt := dt) (page := page) (v := v) hfaults hp hhears hpage hv
  have hstatus := fun st fl fr hst => exec_retStatus (dt := dt) (st := st) (flags := fl) (frame := fr) hfaults hp hhears hst
  refine ⟨fun v hv => ⟨fun hst hqueue howed => ?_, fun cause hst howed hending hallows => ?_, fun hst hseen hscan hpair howed => ?_⟩,
    fun psn why hpsn hsent => ?_, fun al => ⟨fun hst => ?_, fun hst => ?_, fun hst => ?_⟩, fun pg v hpg hv hst => ⟨fun hmatch => ?_, fun hmatch hidle => ?_⟩,
    fun st fl fr hst => ?_, exec_returnMessageBad hp hhears⟩
  · rw [hcredit v hv, retCredit_idle hv hlen (by rw [hheard]; exact hst) (by rw [hheard]; exact hqueue) (by rw [hheard]; exact howed)]
    rfl
  · obtain ⟨hnone, ⟨b, hout⟩, hports⟩ := retCredit_parks (s := heardAt p (tick dt s)) (cause := cause) hv hno hlen
      (by rw [hheard]; exact hst) (by rw [hheard]; exact howed) (by rw [hheard]; exact hending) (by rw [hheard]; exact hallows)
    exact ⟨_, b, hcredit v hv, hnone, hout, fun j hj => (hports j hj).trans (hothers j hj)⟩
  · obtain ⟨hready, hlimit, hat, hdesc, hports, hframe⟩ := retCredit_ready_caps (s := heardAt p (tick dt s)) hv hlen
      (by rw [hheard]; exact hst) (by rw [hheard]; exact hseen) (by rw [hheard]; exact hscan) (by rw [hheard]; exact hpair)
      (by rw [hheard]; exact howed)
    exact ⟨_, hcredit v hv, hready, hlimit, hat, hdesc, fun j hj => (hports j hj).trans (hothers j hj),
      onlyReply_patch (m := [.ports, .wear]) ((within_trans hwithin hframe).mono (by decide)) (by decide)⟩
  · rw [hnak psn why hpsn, retNak_unknown (by rw [hheard]; exact hsent)]
  · have hst' : (portOf (heardAt p (tick dt s)) p).state = .bitlock := by rw [hheard]; exact hst
    refine ⟨_, (hlanes 0x1FF al (by norm_num)).trans (congrArg Host.Outcome.next (retLaneLock_aligns hlen hst')), ?_⟩
    refine modPort_congr hlen ?_
    have hbip := portOf_modPort_same (f := fun o => { lanesPort 0x1FF o with state := .align }) hlen
    exact congrArg (fun o : Port => { portOf (heardAt p (tick dt s)) p with lock := 0x1FF, bip := o.bip, state := .align }) hbip.symm
  · have hst' : (portOf (heardAt p (tick dt s)) p).state = .align := by rw [hheard]; exact hst
    refine ⟨_, (hlanes 0x1FF al (by norm_num)).trans (congrArg Host.Outcome.next (retLaneLock_caps hlen hst')), ?_,
      fun j hj => (portOf_modPort_ne hj).trans (hothers j hj), rfl⟩
    rw [portOf_modPort_same hlen]
    exact congrArg (fun x => if al = true then PortState.caps else x) hst'
  · have hst' : (portOf (heardAt p (tick dt s)) p).state = .ready := by rw [hheard]; exact hst
    have howner : (portOf (modPort p (lanesPort 0) (heardAt p (tick dt s))) p).owner = (portOf s p).owner := by
      rw [portOf_modPort_same hlen, hheard]
      rfl
    obtain ⟨hstate, hsent, -, hkept, hports, hframe⟩ := linkDown_frame (s := modPort p (lanesPort 0) (heardAt p (tick dt s))) (p := p)
      (cause := 2) hno (by rw [modPort_length]; exact hlen)
    refine ⟨_, (hlanes 0 al (by norm_num)).trans (congrArg Host.Outcome.next (retLaneLock_lost hlen hst')), hstate, hsent,
      hkept.trans howner, fun j hj => (hports j hj).trans ((portOf_modPort_ne hj).trans (hothers j hj)), ?_⟩
    exact onlyRecords_patch (m := [.ports, .wear]) ((within_trans (within_trans hwithin within_modPort) hframe).mono (by decide)) (by decide)
  · rw [hcaps pg v (by omega) hv, retCaps_matches hpg hv hlen (by rw [hheard]; exact hst) (by rw [hheard]; exact hmatch)]
  · have hpage : portOf (pageHeard p pg v (heardAt p (tick dt s))) p = _ := portOf_modPort_same hlen
    have hdark : ∀ k, (portOf (pageHeard p pg v (heardAt p (tick dt s))) p).owner = some k →
        (headOf (pageHeard p pg v (heardAt p (tick dt s))) k).pipe.parkDue = none := fun k hk => by
      rw [hpage, hheard] at hk
      exact hidle k hk
    obtain ⟨hfail, hnone, hframe⟩ := trainFailed_frame (s := pageHeard p pg v (heardAt p (tick dt s))) (p := p) (status := 0xD84)
      (det := u8 pg) (by rw [pageHeard, modPort_length]; exact hlen) hdark
    have hall := within_trans (within_trans hwithin (within_modPort (p := p) (f := fun o => { o with caps := upd o.caps pg fun _ => v }))) hframe
    exact ⟨_, (hcaps pg v (by omega) hv).trans (congrArg Host.Outcome.next (retCaps_fails hpg hv hlen (by rw [hheard]; exact hmatch))),
      hfail, hnone, hall.apply State.heads rfl, hall.apply State.gheler rfl, hall.apply State.ingest rfl⟩
  · obtain ⟨fl', fr', hexec⟩ := hstatus st fl fr hst
    obtain ⟨hparked, hdesc, hframe⟩ := retStatus_frame (st := st) (flags := fl') (frame := fr') hlen
    have hall := (within_trans hwithin hframe)
    have htick := hframe.apply State.time rfl
    exact ⟨_, hexec, hparked, hdesc, hall.apply State.adm rfl, hall.apply State.ingest rfl, htick⟩

theorem portTimers_clause (hfaults : NoFaults s) (hp : p < s.ports.length) : let o := portOf s p
    (∀ l < 8, o.state = .bitlock → o.trainAt + 5 * msec ≤ (tick dt s).now → o.spared = 15 → o.lock = 0x1FF - 2 ^ l →
      ∃ t, exec (.laneLockTimeout dt p l) s = .next t ∧ (portOf t p).state = .align ∧ (portOf t p).spared = l ∧
        (∀ j, j ≠ p → portOf t j = portOf s j) ∧ t.wear = { s.wear with plSpared := upd s.wear.plSpared p fun _ => l } ∧
        OnlyRecords { s with ports := t.ports, wear := t.wear } t) ∧
    ((o.state = .bitlock ∨ o.state = .align ∨ o.state = .caps) → o.trainAt + 100 * msec ≤ (tick dt s).now →
      (∀ k, o.owner = some k → (headOf s k).pipe.parkDue = none) → ∃ t, exec (.portTrainTimeout dt p) s = .next t ∧
        (portOf t p).state = .failed ∧ (portOf t p).owner = none ∧
        t.heads = s.heads ∧ t.gheler = s.gheler ∧ t.ingest = s.ingest ∧ t.hbm = s.hbm ∧ t.power = s.power) ∧
    (o.state = .ready → o.lastRet + 100 * usec ≤ (tick dt s).now → ∃ t, exec (.returnSilent dt p) s = .next t ∧
      (portOf t p).state = .bitlock ∧ (portOf t p).trainAt = (tick dt s).now ∧ (portOf t p).owner = o.owner ∧
      (∀ j, j ≠ p → portOf t j = portOf s j) ∧ OnlyRecords { s with ports := t.ports, wear := t.wear } t) ∧
    (o.state = .ready → o.lastSend + 100 * usec ≤ (tick dt s).now → exec (.portIdleTimer dt p) s = .next { tick dt s with
      ports := upd s.ports p (fun o => { o with psn := (o.psn + 1) % 65536, lastSend := (tick dt s).now, used := o.used % 2 ^ 32 })
      out := .plk p (SentPkt.bytes p { barePkt 6 (tick dt s).now with psn := o.psn } []) :: s.out }) ∧
    ((o.state = .ready ∧ o.lastStatus + msec ≤ (tick dt s).now) ∨ (o.state = .caps ∧ o.lastStatus + 100 * usec ≤ (tick dt s).now) →
      ∃ t b, exec (.portStatusTimer dt p) s = .next t ∧ t.out = .plk p b :: s.out ∧
        (portOf t p).told = headState s (o.owner.getD 0) p ∧ (portOf t p).lastStatus = (tick dt s).now ∧
        (portOf t p).lastSend = (tick dt s).now ∧
        (∀ j, j ≠ p → portOf t j = portOf s j) ∧ t = { tick dt s with ports := t.ports, out := t.out }) := by
  refine ⟨fun l hl hst hdue hspared hlock => ?_, fun hst hdue hidle => ?_, fun hst hdue => ?_, fun hst hdue => ?_, fun h => ?_⟩
  · have hspare := within_spareLane (p := p) (lane := l) (s := tick dt s)
    have hlen : p < (spareLane p l (tick dt s)).ports.length := by
      rw [show (spareLane p l (tick dt s)).ports = (laneSpared p l (tick dt s)).ports from within_recordAt .ports (by decide)]
      exact modPort_length (s := s) (p := p) ▸ hp
    have hport : portOf (spareLane p l (tick dt s)) p = { portOf s p with spared := l } :=
      portOf_spareLane.trans (portOf_modPort_same (s := tick dt s) hp)
    have hwear : (spareLane p l (tick dt s)).wear = (laneSpared p l (tick dt s)).wear := within_recordAt .wear (by decide)
    refine ⟨_, laneLockTimeout_spares hl hst hdue hspared hlock, ?_, ?_, fun j hj => ?_, hwear, ?_⟩
    · exact congrArg Port.state (portOf_modPort_same hlen)
    · exact (congrArg Port.spared (portOf_modPort_same hlen)).trans (congrArg Port.spared hport)
    · exact (portOf_modPort_ne hj).trans (portOf_spareLane.trans (portOf_modPort_ne (s := tick dt s) hj))
    · exact portWear_of_within (hspare.then (within_modPort.mono (by decide)))
  · obtain ⟨hfail, hnone, hframe⟩ := failTraining_frame (s := tick dt s) hp hidle
    have hall := within_trans within_tick hframe
    exact ⟨_, portTrainTimeout_fails hst hdue, hfail, hnone, hall.apply State.heads rfl, hall.apply State.gheler rfl,
      hall.apply State.ingest rfl, hall.apply State.hbm rfl, hall.apply State.power rfl⟩
  · obtain ⟨hstate, -, hat, howner, hothers, hframe⟩ := linkDown_frame (s := tick dt s) (p := p) (cause := 1) hfaults hp
    exact ⟨_, returnSilent_falls hst hdue, hstate, hat, howner, hothers, portWear_of_within hframe⟩
  · rw [portIdleTimer_sends hst hdue, sendPkt_none (s := tick dt s) hfaults, sentPort_idle]
    rfl
  · obtain ⟨hout, htold, hat, hsend, hothers, hform⟩ := sendStatus_frame (s := tick dt s) (p := p) hfaults hp
    exact ⟨_, _, portStatusTimer_sends h, hout, htold, hat, hsend, hothers, hform⟩

/-- Settles O41: each return message by the state of its port, each timer by the state it acts in. -/
theorem planeLinkPortsFollowTheirMessages : Obligations.PlaneLinkPortsFollowTheirMessages := by
  unfold Obligations.PlaneLinkPortsFollowTheirMessages
  exact ⟨fun dt p s hfaults hdown hfailed hp => returnMessages_clause hfaults hdown hfailed hp,
    fun dt p s hfaults hp => portTimers_clause hfaults hp⟩

end Sys2Proof.Machine
end

section
/-!
PROOFS. PORT_CONFIG and PORT_PARK (R303, R319).
-/

namespace Sys2Proof.Machine
variable {s t u : State} {m : List StatePart} {dt k j p : Nat} {d : Desc}

/-! ### PORT_CONFIG -/

theorem within_settle {kind : ItemKind} : Within [.items] s (settle kind s) := within_of_eq rfl (by decide)

theorem within_dropItems {f : Item → Bool} : Within [.items] s (dropItems f s) := within_of_eq rfl (by decide)

theorem exec_portConfig_accepted (h : Runs (.portConfig dt d) s) :
    exec (.portConfig dt d) s = .next (portConfigAct d.trunc (begun d d.trunc (tick dt s))) :=
  congrArg Host.Outcome.next (runDesc_accepted h)

/-- What PORT_CONFIG makes of its port, before its training. -/
def configuredPort (d : Desc) (p : Nat) (o : Port) : Port :=
  { clearCounts o with
    owner := some (d.p8 17), scan := decide (d.p8 18 = 1)
    pair := if portLock d then some (if p % 2 = 0 then p + 1 else p - 1) else none,
    split := d.p16 20, cls := d.p8 22, ww := d.p16 24, wh := d.p16 26, rtx := d.p32 28,
    pol := d.p16 (if p = d.p8 16 then 32 else 34), spareReq := if bitOf (d.p8 19) 1 then d.p8 23 else 15,
    caps := List.replicate 6 0, desc := some d, parked := false, parkOwed := none,
    ending := false, readyAt := 0, loopEnd := false, lastLoad := none }

theorem configurePort_fresh (hdesc : (portOf s p).desc = none) (hpair : (portOf s p).pair = none)
    (hscan : (portOf s p).scan = decide (d.p8 18 = 1)) :
    configurePort d p s = startTraining p (modPort p (configuredPort d p) s) := by
  unfold configurePort
  dsimp only
  rw [hdesc, hpair, if_pos hscan]
  rfl

theorem configurePort_frame (hp : p < s.ports.length) (hdesc : (portOf s p).desc = none) (hpair : (portOf s p).pair = none)
    (hscan : (portOf s p).scan = decide (d.p8 18 = 1)) (hlock : portLock d = false) (hfirst : d.p8 16 = p) :
    let t := configurePort d p s
    (portOf t p).state = .bitlock ∧ (portOf t p).owner = some (d.p8 17) ∧
      (portOf t p).desc = some d ∧ (portOf t p).ww = d.p16 24 ∧ (portOf t p).wh = d.p16 26 ∧ (portOf t p).rtx = d.p32 28 ∧
      (portOf t p).cls = d.p8 22 ∧ (portOf t p).pol = d.p16 32 ∧ (portOf t p).pair = none ∧
      (portOf t p).trainAt = s.now ∧ (∀ j, j ≠ p → portOf t j = portOf s j) ∧ Within [.ports, .wear, .ledger] s t := by
  have htrain : ∀ {α : Type} (g : Port → α) (_ : ∀ (o : Port) n, g { o with spared := n } = g o),
      g (portOf (startTraining p (modPort p (configuredPort d p) s)) p) = g (trainPort s.now (configuredPort d p (portOf s p))) :=
    fun g hg => (startTraining_field (by rw [modPort_length]; exact hp) hg).trans
      (congrArg (fun o => g (trainPort s.now o)) (portOf_modPort_same hp))
  have hpol : (configuredPort d p (portOf s p)).pol = d.p16 32 := congrArg d.p16 (if_pos hfirst.symm)
  have hsingle : (configuredPort d p (portOf s p)).pair = none := if_neg (by rw [hlock]; exact Bool.false_ne_true)
  dsimp only
  rw [configurePort_fresh hdesc hpair hscan]
  exact ⟨htrain Port.state fun _ _ => rfl, htrain Port.owner fun _ _ => rfl, htrain Port.desc fun _ _ => rfl,
    htrain Port.ww fun _ _ => rfl, htrain Port.wh fun _ _ => rfl, htrain Port.rtx fun _ _ => rfl, htrain Port.cls fun _ _ => rfl,
    (htrain Port.pol fun _ _ => rfl).trans hpol, (htrain Port.pair fun _ _ => rfl).trans hsingle,
    htrain Port.trainAt fun _ _ => rfl, fun j hj => (portOf_startTraining_ne hj).trans (portOf_modPort_ne hj),
    (within_modPort.mono (by decide)).then within_startTraining⟩

theorem portInvalid_kind {c : HeadCfg} (h : portInvalid c d = none) : c.scan = decide (d.p8 18 = 1) := by
  unfold portInvalid at h
  dsimp only at h
  rw [Option.map_eq_none_iff, List.find?_eq_none] at h
  have hkind := h (decide (1 < d.p8 18) || (decide (d.p8 18 = 1) != c.scan), 18)
    (List.mem_append_left _ (List.mem_cons_of_mem _ List.mem_cons_self))
  simp only [Bool.or_eq_true, decide_eq_true_eq, bne_iff_ne, ne_eq, not_or, not_not] at hkind
  exact hkind.2.symm

section Config
variable {c : HeadCfg} (hcfg : (headOf s (d.p8 17)).pipe.cfg = some c) (hlock : portLock d = false)
include hcfg hlock

theorem portConfigAct_invalid {o : Nat} (h : portInvalid c d = some o) : portConfigAct d s = complete d 0xD85 (u16 o) s := by
  unfold portConfigAct
  dsimp only
  rw [hcfg]
  dsimp only
  rw [if_neg (by simp [hlock]), h]

theorem portConfigAct_named (hvalid : portInvalid c d = none) (h : recipeNames s true (d.p8 16) = true) :
    portConfigAct d s = complete d 0xD82 (u8 (d.p8 16)) s := by
  unfold portConfigAct
  dsimp only
  rw [hcfg]
  dsimp only
  rw [if_neg (by simp [hlock]), hvalid, portsNamed, if_neg (by simp [hlock])]
  dsimp only
  rw [List.find?_cons_of_pos h]

/-- A port's new work, admitted. -/
def portAdmitted (d : Desc) (s : State) : State :=
  let k := d.p8 17
  let p := d.p8 16
  let w := putItem (.port k p) d (portUnits p) s
  settle (.port k p) (dropItems (fun i => i.kind == .port k (p - 1) && p - 1 != p && (portOf w (p - 1)).pair == some p) w)

theorem portConfigAct_admitted (hvalid : portInvalid c d = none) (hnames : recipeNames s true (d.p8 16) = false)
    (hroom : shortage s (.port (d.p8 17) (d.p8 16)) (portUnits (d.p8 16)) = none) :
    portConfigAct d s = configurePort d (d.p8 16) (portAdmitted d s) := by
  unfold portConfigAct
  dsimp only
  rw [hcfg]
  dsimp only
  rw [if_neg (by simp [hlock]), hvalid, portsNamed, if_neg (by simp [hlock])]
  dsimp only
  rw [List.find?_cons_of_neg (by simp [hnames]), List.find?_nil]
  dsimp only
  unfold admitDesc
  rw [List.flatMap_cons, List.flatMap_nil, List.append_nil, hroom]
  rfl

end Config

theorem within_portAdmitted : Within [.items] s (portAdmitted d s) := by
  unfold portAdmitted
  exact (within_putItem.then within_dropItems).then within_settle

theorem recipeNames_eq {pend : Bool} (h : t.heads = s.heads) : recipeNames t pend p = recipeNames s pend p := by
  simp only [recipeNames, headOf, h]

theorem portConfig_trains {c : HeadCfg} (hrun : Runs (.portConfig dt d) s) (hcfg : (headOf s (d.trunc.p8 17)).pipe.cfg = some c)
    (hlock : portLock d.trunc = false) (hvalid : portInvalid c d.trunc = none) (hnames : recipeNames s true (d.trunc.p8 16) = false)
    (hroom : shortage (begun d d.trunc (tick dt s)) (.port (d.trunc.p8 17) (d.trunc.p8 16)) (portUnits (d.trunc.p8 16)) = none)
    (hp : d.trunc.p8 16 < s.ports.length) (hdesc : (portOf s (d.trunc.p8 16)).desc = none)
    (hpair : (portOf s (d.trunc.p8 16)).pair = none) (hscan : (portOf s (d.trunc.p8 16)).scan = c.scan) :
    let x := d.trunc; let b := begun d d.trunc (tick dt s); let p := d.trunc.p8 16
    ∃ t, exec (.portConfig dt d) s = .next t ∧ (portOf t p).state = .bitlock ∧ (portOf t p).owner = some (d.trunc.p8 17) ∧
      (portOf t p).desc = some x ∧ (portOf t p).ww = x.p16 24 ∧ (portOf t p).wh = x.p16 26 ∧ (portOf t p).rtx = x.p32 28 ∧
      (portOf t p).cls = x.p8 22 ∧ (portOf t p).pol = x.p16 32 ∧ (portOf t p).pair = none ∧
      (portOf t p).trainAt = (tick dt s).now ∧ (∀ j, j ≠ p → portOf t j = portOf s j) ∧ t.host = b.host ∧
      OnlyReply { s with ports := t.ports, wear := t.wear, adm := { s.adm with items := t.adm.items } } t := by
  intro x b p
  have hb : Within (clockParts ++ replyParts) s b := within_tick_begun
  have hadm : Within (clockParts ++ replyParts ++ [.items]) s (portAdmitted x b) := within_trans hb within_portAdmitted
  have hport : ∀ j, portOf (portAdmitted x b) j = portOf s j := hadm.portOf (by decide)
  have hscanned : (portOf (portAdmitted x b) p).scan = decide (x.p8 18 = 1) := by
    rw [hport, hscan]
    exact portInvalid_kind hvalid
  have hframed := configurePort_frame (d := x) (p := p) (s := portAdmitted x b)
    (by rw [show (portAdmitted x b).ports = s.ports from hadm .ports (by decide)]; exact hp) (by rw [hport]; exact hdesc)
    (by rw [hport]; exact hpair) hscanned hlock rfl
  have hnow : (portAdmitted x b).now = (tick dt s).now := (within_trans within_begun within_portAdmitted) .now (by decide)
  have hform : exec (.portConfig dt d) s = .next (configurePort x p (portAdmitted x b)) := by
    rw [exec_portConfig_accepted hrun, portConfigAct_admitted (c := c) (by rw [hb.headOf (by decide)]; exact hcfg) hlock hvalid
      (by rw [recipeNames_eq (hb .heads (by decide))]; exact hnames) hroom]
  have hhost : (portAdmitted x b).host = b.host := within_portAdmitted.apply State.host rfl
  rw [hnow] at hframed
  generalize configurePort x p (portAdmitted x b) = t at *
  obtain ⟨hstate, howner, hdesc', hww, hwh, hrtx, hcls, hpol, hpair', hat, hothers, hframe⟩ := hframed
  exact ⟨t, hform, hstate, howner, hdesc', hww, hwh, hrtx, hcls, hpol, hpair', hat, fun j hj => (hothers j hj).trans (hport j),
    (hframe.apply State.host rfl).trans hhost,
    onlyReply_patch (m := [.ports, .wear, .items]) ((within_trans hadm hframe).mono (by decide)) (by decide)⟩

/-! ### PORT_PARK -/

theorem exec_portPark_accepted (h : Runs (.portPark dt d) s) :
    exec (.portPark dt d) s = .next (portParkAct d.trunc (begun d d.trunc (tick dt s))) :=
  congrArg Host.Outcome.next (runDesc_accepted h)

/-- What a PARK on one port keeps. -/
def ParkKept (p : Nat) (s t : State) : Prop :=
  (∀ j, j ≠ p → portOf t j = portOf s j) ∧ (portOf t p).parkDesc = (portOf s p).parkDesc ∧
    t.ports.length = s.ports.length ∧ Within (.ports :: plkParts) s t

theorem ParkKept.then (h1 : ParkKept p s t) (h2 : ParkKept p t u) : ParkKept p s u := by
  obtain ⟨ho1, hd1, hl1, hw1⟩ := h1
  obtain ⟨ho2, hd2, hl2, hw2⟩ := h2
  exact ⟨fun j hj => (ho2 j hj).trans (ho1 j hj), hd2.trans hd1, hl2.trans hl1, hw1.then hw2⟩

theorem parkKept_refl : ParkKept p s s := ⟨fun _ _ => rfl, rfl, rfl, within_refl⟩

theorem Within.parkKept (h : Within plkParts s t) : ParkKept p s t :=
  ⟨fun j _ => h.portOf (by decide) j, congrArg Port.parkDesc (h.portOf (by decide) p), congrArg List.length (h .ports (by decide)),
    h.mono (by decide)⟩

theorem parkKept_modPort {f : Port → Port} (hf : ∀ o, (f o).parkDesc = o.parkDesc) : ParkKept p s (modPort p f s) :=
  ⟨fun _ hj => portOf_modPort_ne hj, portOf_modPort_field (g := Port.parkDesc) hf, modPort_length, within_modPort.mono (by decide)⟩

theorem parkKept_sendPkt {q : SentPkt} {l : List Byte} : ParkKept p s (sendPkt p q l s) :=
  ParkKept.then (t := modPort p (sentPort q (portOf s p).psn s.now) s) (parkKept_modPort fun _ => rfl) within_plkOut.parkKept

theorem parkKept_parkNow {cause : Nat} : ParkKept p s (parkNow p cause s) := by
  unfold parkNow
  dsimp only
  refine ParkKept.then ?_ (within_recordAt.mono (by decide)).parkKept
  refine ParkKept.then (parkKept_modPort (f := fun o => { o with parkOwed := none }) fun _ => rfl) ?_
  split
  · exact within_plkMark.parkKept
  · exact parkKept_sendPkt

theorem parkKept_parkPort {cause : Nat} : ParkKept p s (parkPort p cause s) := by
  unfold parkPort
  dsimp only
  split
  · exact parkKept_parkNow
  · split
    · exact parkKept_modPort fun _ => rfl
    · exact parkKept_refl

/-- A port that is asked to park for a descriptor. -/
def parkAsked (d : Desc) (p : Nat) (s : State) : State :=
  parkPort p 5 (modPort p (fun o => { o with parkDesc := o.parkDesc ++ [(d, s.now)] }) s)

theorem parkAsked_frame (hp : p < s.ports.length) : (portOf (parkAsked d p s) p).parkDesc = (portOf s p).parkDesc ++ [(d, s.now)] ∧
    (∀ j, j ≠ p → portOf (parkAsked d p s) j = portOf s j) ∧ (parkAsked d p s).ports.length = s.ports.length ∧
    Within (.ports :: plkParts) s (parkAsked d p s) := by
  obtain ⟨hothers, hdesc, hlen, hwithin⟩ := parkKept_parkPort (p := p) (cause := 5)
    (s := modPort p (fun o => { o with parkDesc := o.parkDesc ++ [(d, s.now)] }) s)
  exact ⟨hdesc.trans (congrArg Port.parkDesc (portOf_modPort_same hp)), fun j hj => (hothers j hj).trans (portOf_modPort_ne hj),
    hlen.trans modPort_length, Within.then (within_modPort.mono (by decide)) hwithin⟩

theorem parkAsked_all {ps : List Nat} (hnodup : ps.Nodup) (hlen : ∀ p ∈ ps, p < s.ports.length) :
    let t := forEach ps (parkAsked d) s
    (∀ p ∈ ps, (portOf t p).parkDesc = (portOf s p).parkDesc ++ [(d, s.now)]) ∧ (∀ p, p ∉ ps → portOf t p = portOf s p) ∧
      t.ports.length = s.ports.length ∧ Within (.ports :: plkParts) s t := by
  induction ps generalizing s with
  | nil => exact ⟨fun _ h => absurd h List.not_mem_nil, fun _ _ => rfl, rfl, within_refl⟩
  | cons q qs ih =>
    obtain ⟨hq, hqs⟩ := List.nodup_cons.1 hnodup
    obtain ⟨hdesc, hothers, hlen1, hwithin1⟩ := parkAsked_frame (d := d) (hlen q List.mem_cons_self)
    obtain ⟨hall, hrest, hlen2, hwithin2⟩ := ih hqs (s := parkAsked d q s) fun p hp => by
      rw [hlen1]
      exact hlen p (List.mem_cons_of_mem _ hp)
    have hnow : (parkAsked d q s).now = s.now := hwithin1 .now (by decide)
    refine ⟨fun p hp => ?_, fun p hp => ?_, hlen2.trans hlen1, hwithin1.then hwithin2⟩
    · rcases List.mem_cons.1 hp with rfl | hp
      · exact (congrArg Port.parkDesc (hrest p hq)).trans hdesc
      · have hne : p ≠ q := fun h => hq (h ▸ hp)
        rw [← hothers p hne, ← hnow]
        exact hall p hp
    · rw [List.mem_cons, not_or] at hp
      obtain ⟨hne, hp⟩ := hp
      exact (hrest p hp).trans (hothers p hne)

theorem parkSettled_waits {status : Nat} {o : Port} (ho : o ∈ s.ports) (h : ∃ x ∈ o.parkDesc, x.1 = d) : parkSettled d status s = s := by
  obtain ⟨x, hx, hd⟩ := h
  refine if_pos (Or.inl ?_)
  exact List.any_eq_true.2 ⟨o, ho, List.any_eq_true.2 ⟨x, hx, beq_iff_eq.2 hd⟩⟩

theorem portParkAct_named {q : Nat} (h : (bitsOf (d.p16 16) 16).find? (recipeNames s false) = some q) :
    portParkAct d s = complete d 0xD82 (u8 q) s := by
  unfold portParkAct
  dsimp only
  rw [h]

theorem portParkAct_parks (h : (bitsOf (d.p16 16) 16).find? (recipeNames s false) = none) (hports : s.ports.length = 16)
    (hsome : bitsOf (d.p16 16) 16 ≠ []) : let t := portParkAct d s
    (∀ p ∈ bitsOf (d.p16 16) 16, (portOf t p).parkDesc = (portOf s p).parkDesc ++ [(d, s.now)]) ∧
      (∀ p, p ∉ bitsOf (d.p16 16) 16 → portOf t p = portOf s p) ∧ Within (.ports :: plkParts) s t := by
  have hnodup : (bitsOf (d.p16 16) 16).Nodup := List.nodup_range.filter _
  have hbound : ∀ p ∈ bitsOf (d.p16 16) 16, p < s.ports.length := fun p hp => by
    rw [hports]
    exact List.mem_range.1 (List.mem_of_mem_filter hp)
  obtain ⟨hall, hrest, hlen, hwithin⟩ := parkAsked_all (d := d) hnodup hbound
  have hform : portParkAct d s = parkSettled d 0 (forEach (bitsOf (d.p16 16) 16) (parkAsked d) s) := by
    unfold portParkAct
    dsimp only
    rw [h]
    rfl
  obtain ⟨q, hq⟩ := List.exists_mem_of_ne_nil _ hsome
  have hqlen : q < (forEach (bitsOf (d.p16 16) 16) (parkAsked d) s).ports.length := hlen ▸ hbound q hq
  have hwaits : parkSettled d 0 (forEach (bitsOf (d.p16 16) 16) (parkAsked d) s) = forEach (bitsOf (d.p16 16) 16) (parkAsked d) s := by
    have hget : portOf (forEach (bitsOf (d.p16 16) 16) (parkAsked d) s) q = (forEach (bitsOf (d.p16 16) 16) (parkAsked d) s).ports[q] := by
      simp [Machine.portOf, hqlen]
    refine parkSettled_waits (List.getElem_mem hqlen) ⟨(d, s.now), ?_, rfl⟩
    rw [← hget, hall q hq]
    exact List.mem_append_right _ List.mem_cons_self
  dsimp only
  rw [hform, hwaits]
  exact ⟨hall, hrest, hwithin⟩

/-! ### The time of a PARK is over -/

/-- No port waits for a descriptor of the list any more. -/
def unparked (l : List Desc) (s : State) : State :=
  { s with ports := s.ports.map fun o => { o with parkDesc := o.parkDesc.filter fun x => !l.contains x.1 } }

theorem unparked_mem {l : List Desc} {o : Port} (ho : o ∈ (unparked l s).ports) {x : Desc × Nat} (hx : x ∈ o.parkDesc) : x.1 ∉ l := by
  obtain ⟨o', -, rfl⟩ := List.mem_map.1 ho
  have hkeep := (List.mem_filter.1 hx).2
  simpa using hkeep

theorem unparked_port {l : List Desc} {x : Desc × Nat} (hx : x ∈ (portOf (unparked l s) j).parkDesc) : x.1 ∉ l := by
  by_cases hj : j < (unparked l s).ports.length
  · have hget : portOf (unparked l s) j = (unparked l s).ports[j] := by simp [Machine.portOf, hj]
    rw [hget] at hx
    exact unparked_mem (List.getElem_mem hj) hx
  · rw [Machine.portOf, List.getD_eq_default _ _ (by omega)] at hx
    exact absurd hx List.not_mem_nil

theorem portParkTimeout_ends {n : Nat} (hdesc : (portOf s p).parkDesc = [(d, n)]) (hdue : n + msec ≤ (tick dt s).now)
    (howes : owes d s = true) : exec (.portParkTimeout dt p) s = .next (complete d 0x60 [] (unparked [d] (tick dt s))) := by
  have hlist : ((portOf (tick dt s) p).parkDesc.filter fun x => decide (x.2 + msec ≤ (tick dt s).now)).map (·.1) = [d] := by
    rw [show portOf (tick dt s) p = portOf s p from rfl, hdesc, List.filter_singleton, decide_eq_true hdue]
    rfl
  have hnone : (unparked [d] (tick dt s)).ports.any (fun o => o.parkDesc.any fun x => x.1 == d) = false := by
    rw [List.any_eq_false]
    intro o ho
    rw [Bool.not_eq_true, List.any_eq_false]
    exact fun x hx => by simpa using unparked_mem ho hx
  have hsettled : parkSettled d 0x60 (unparked [d] (tick dt s)) = complete d 0x60 [] (unparked [d] (tick dt s)) := by
    refine if_neg ?_
    rw [hnone, show owes d (unparked [d] (tick dt s)) = true from howes]
    decide
  show execPortParkTimeout dt p s = _
  unfold execPortParkTimeout
  dsimp only
  rw [hlist]
  exact congrArg Host.Outcome.next hsettled

/-- Settles O42. -/
theorem portsAreConfiguredAndParked : Obligations.PortsAreConfiguredAndParked := by
  intro dt d s x b
  have hb : Within (clockParts ++ replyParts) s b := within_tick_begun
  have hports : ∀ j, portOf b j = portOf s j := hb.portOf (by decide)
  have hnow : b.now = (tick dt s).now := within_begun .now (by decide)
  refine ⟨?_, ?_, fun p n hdesc hdue howes => ?_⟩
  · intro p k c hrun hcfg hlock
    have hcfg' : (headOf b k).pipe.cfg = some c := by rw [hb.headOf (by decide)]; exact hcfg
    refine ⟨fun o ho => ?_, fun hvalid hnames => ?_, fun hvalid hnames hroom hp hdesc hpair hscan => ?_⟩
    · rw [exec_portConfig_accepted hrun, portConfigAct_invalid hcfg' hlock ho]
    · rw [exec_portConfig_accepted hrun, portConfigAct_named hcfg' hlock hvalid
        (by rw [recipeNames_eq (hb .heads (by decide))]; exact hnames)]
    · exact portConfig_trains hrun hcfg hlock hvalid hnames hroom hp hdesc hpair hscan
  · intro ps hrun
    have hnames : recipeNames b false = recipeNames s false := funext fun p => recipeNames_eq (hb .heads (by decide))
    refine ⟨fun p hp => ?_, fun _ hlen hsome hfree => ?_⟩
    · rw [exec_portPark_accepted hrun, portParkAct_named (by rw [hnames]; exact hp)]
    · obtain ⟨hall, hrest, hwithin⟩ := portParkAct_parks (d := x) (s := b) (by rw [hnames]; exact hfree)
        (by rw [hb .ports (by decide)]; exact hlen) hsome
      rw [hnow] at hall
      exact ⟨_, exec_portPark_accepted hrun, fun p hp => (hall p hp).trans (by rw [hports]), fun p hp => (hrest p hp).trans (hports p),
        hwithin.apply State.host rfl, onlyReply_patch (m := [.ports]) ((within_trans hb hwithin).mono (by decide)) (by decide)⟩
  · refine ⟨_, portParkTimeout_ends hdesc hdue howes, fun j y hy => ?_, ?_⟩
    · rw [within_complete.portOf (by decide)] at hy
      simpa using unparked_port hy
    · have hsame : (complete d 0x60 [] (unparked [d] (tick dt s))).ports = (unparked [d] (tick dt s)).ports := within_complete .ports (by decide)
      rw [hsame]
      rfl

end Sys2Proof.Machine
end

section
/-!
PROOFS. Settings of loops: what LOOP_SET, CHAN_ENABLE, COEF_WRITE, SETPOINT_CFG, MODE_SET, INJECT and CAPTURE leave to their
samples (R380 to R416).
-/

namespace Sys2Proof.Machine
variable {s t u : State} {m : List StatePart} {dt c : Nat} {d e : Desc}

/-! ### The filter registers of inputs

A completion may set causes and overflows; the two low bits of the registers past the rings stand all the same. -/

/-- The two low bits of every register past the rings stand. -/
def FiltersKept (s t : State) : Prop := ∀ key, 0x00A08000 ≤ key → regField t key 0 2 = regField s key 0 2

theorem FiltersKept.then (h1 : FiltersKept s t) (h2 : FiltersKept t u) : FiltersKept s u := fun key hkey =>
  (h2 key hkey).trans (h1 key hkey)

theorem filtersKept_refl : FiltersKept s s := fun _ _ => rfl

theorem filtersKept_of_regs (h : t.regs = s.regs) : FiltersKept s t := fun _ _ => regField_eq h

theorem Within.filtersKept (h : Within m s t) (hm : .causes ∉ m) : FiltersKept s t := filtersKept_of_regs (h .causes hm)

theorem filtersKept_setRaw {key : Nat} {v : Word} (h : key < 0x00A08000) : FiltersKept s (setRaw key v s) := fun k hk => by
  rw [regField, regField, rawReg_setRaw_ne (by omega)]

theorem filtersKept_ite {p : Prop} [Decidable p] {a b : State} (ha : FiltersKept s a) (hb : FiltersKept s b) :
    FiltersKept s (if p then a else b) := by
  split
  · exact ha
  · exact hb

theorem bits_or_high {v : Word} {b : Nat} (hb : 2 ≤ b) (hlt : b < 32) : bits (v ||| wordOf (2 ^ b)).toNat 0 2 = bits v.toNat 0 2 := by
  have hword : (wordOf (2 ^ b)).toNat = 2 ^ b :=
    (BitVec.toNat_ofNat _ _).trans (Nat.mod_eq_of_lt (Nat.pow_lt_pow_right (by norm_num) hlt))
  have hfour : 2 ^ b % 2 ^ 2 = 0 := Nat.mod_eq_zero_of_dvd (pow_dvd_pow 2 hb)
  rw [bits, bits, BitVec.toNat_or, hword, pow_zero, Nat.div_one, Nat.div_one, Nat.or_mod_two_pow, hfour, Nat.or_zero]

theorem filtersKept_raiseCause {pf1 : Bool} {b : Nat} (hb : 2 ≤ b) (hlt : b < 32) : FiltersKept s (raiseCause pf1 b s) := by
  have hset : FiltersKept s (setRaw (regIrqCause + if pf1 then pf1Base else 0)
      (rawReg s (regIrqCause + if pf1 then pf1Base else 0) ||| wordOf (2 ^ b)) s) := fun k hk => by
    by_cases hsame : k = regIrqCause + if pf1 then pf1Base else 0
    · rw [regField, regField, hsame, rawReg_setRaw_same, bits_or_high hb hlt]
    · rw [regField, regField, rawReg_setRaw_ne hsame]
  unfold raiseCause
  exact filtersKept_ite (hset.then (filtersKept_of_regs rfl)) hset

theorem ringCq_lt {q : Nat} : ringCq s q < 256 := Nat.mod_lt _ (by norm_num)

theorem filtersKept_postTo {m : Comp} (hc : c < 256) : FiltersKept s (postTo c m s) := by
  have hroom : FiltersKept s (writeComp c m s) := by
    unfold writeComp
    extract_lets r size next u v w
    have hu : FiltersKept s u := filtersKept_ite (filtersKept_of_regs rfl) (filtersKept_of_regs rfl)
    have hv : FiltersKept s v := hu.then (filtersKept_of_regs rfl)
    have hw : FiltersKept s w := hv.then (filtersKept_ite (filtersKept_raiseCause (by norm_num) (by norm_num)) filtersKept_refl)
    exact hw.then (filtersKept_ite (filtersKept_of_regs rfl) filtersKept_refl)
  have hfree : FiltersKept s (if m.took then freeEntry c s else s) := filtersKept_ite (filtersKept_of_regs rfl) filtersKept_refl
  have hset : FiltersKept s (setBits (0x0010300C + 32 * c) 2 (if m.took then freeEntry c s else s)) :=
    hfree.then (filtersKept_setRaw (by omega))
  unfold postTo
  refine filtersKept_ite hroom (filtersKept_ite (filtersKept_of_regs rfl) ?_)
  exact (hset.then (within_recordAt.filtersKept (by decide))).then (filtersKept_raiseCause (by norm_num) (by norm_num))

theorem filtersKept_firstAt {n st : Nat} {b : List Byte} : FiltersKept s (firstAt n d st b s) := by
  unfold firstAt
  refine filtersKept_ite (filtersKept_of_regs rfl) ?_
  extract_lets hst s1 cat s2 s3
  have h1 : FiltersKept s s1 := by
    have h0 : FiltersKept s { s with host := { s.host with begun := s.host.begun.erase d } } := filtersKept_of_regs rfl
    exact h0.then (filtersKept_ite (filtersKept_raiseCause (by norm_num) (by norm_num)) filtersKept_refl)
  have h2 : FiltersKept s s2 := filtersKept_ite h1 (h1.then (filtersKept_of_regs rfl))
  have h3 : FiltersKept s s3 := h2.then (filtersKept_of_regs rfl)
  refine filtersKept_ite (filtersKept_ite (h3.then (filtersKept_of_regs rfl)) h3) (h3.then ?_)
  unfold postFor
  split
  · exact within_catSend.filtersKept (by decide)
  · exact filtersKept_postTo ringCq_lt

theorem filtersKept_begun : FiltersKept s (begun d e (tick dt s)) := by
  have hsettle : ∀ (q n : Nat) (s : State), FiltersKept s (settleBad q n s) := by
    intro q n
    induction n with
    | zero => exact fun _ => filtersKept_refl
    | succ n ih =>
      intro s
      unfold settleBad
      split
      · exact filtersKept_refl
      next f _ =>
        have hfront : FiltersKept s (noteFence (fenced f s) (dropFront q s)) := filtersKept_ite (filtersKept_of_regs rfl) (filtersKept_of_regs rfl)
        exact filtersKept_ite filtersKept_refl ((hfront.then filtersKept_firstAt).then (ih _))
  unfold begun
  extract_lets u v
  have hu : FiltersKept s u := filtersKept_ite (filtersKept_of_regs rfl) (filtersKept_of_regs rfl)
  exact (hu.then (t := u) (filtersKept_of_regs rfl)).then (hsettle _ _ _)

/-! ### What a descriptor finds of the loops -/

theorem inputLatency_eq (h : FiltersKept s t) (i : Nat) : inputLatency t i = inputLatency s i := by
  unfold inputLatency
  rw [h _ (by omega), h _ (by omega)]

theorem begun_loopInvalid {x : Desc} : loopInvalid (begun d e (tick dt s)) x = loopInvalid s x := by
  have hb : Within (clockParts ++ replyParts) s (begun d e (tick dt s)) := within_tick_begun
  have hreads : ∀ c x, loopReads (begun d e (tick dt s)) c x = loopReads s c x := fun c x => hb.apply (loopReads · c x) rfl
  have hsp : ∀ c x, spReads (begun d e (tick dt s)) c x = spReads s c x := fun c x => hb.apply (spReads · c x) rfl
  have hclash : ∀ c ts i, inputClash (begun d e (tick dt s)) c ts i = inputClash s c ts i := fun c ts i => hb.apply (inputClash · c ts i) rfl
  have hlatency : inputLatency (begun d e (tick dt s)) = inputLatency s := funext (inputLatency_eq filtersKept_begun)
  unfold loopInvalid
  simp only [hreads, hsp, hclash, hlatency]

theorem begun_apply {α : Type} (f : State → α) (hf : f (patch (clockParts ++ replyParts) s (begun d e (tick dt s))) = f s) :
    f (begun d e (tick dt s)) = f s := within_tick_begun.apply f hf

theorem begun_now : (begun d e (tick dt s)).now = (tick dt s).now := within_begun .now (by decide)

theorem begun_chanOf : chanOf (begun d e (tick dt s)) c = chanOf s c := begun_apply (chanOf · c) rfl
theorem begun_spOf : spOf (begun d e (tick dt s)) c = spOf s c := begun_apply (spOf · c) rfl
theorem begun_noLoop : noLoop (begun d e (tick dt s)) c = noLoop s c := begun_apply (noLoop · c) rfl
theorem begun_isBound : isBound (begun d e (tick dt s)) c = isBound s c := begun_apply (isBound · c) rfl
theorem begun_chanOwner : chanOwner (begun d e (tick dt s)) c = chanOwner s c := begun_apply (chanOwner · c) rfl
theorem begun_leadBreach {n : Nat} : leadBreach (begun d e (tick dt s)) c n = leadBreach s c n := begun_apply (leadBreach · c n) rfl
theorem begun_spInvalid {x : Desc} : spInvalid (begun d e (tick dt s)) x = spInvalid s x := begun_apply (spInvalid · x) rfl
theorem begun_groupInvalid {x : Desc} : groupInvalid (begun d e (tick dt s)) x = groupInvalid s x := begun_apply (groupInvalid · x) rfl
theorem begun_loopAdmitted : loopAdmitted (begun d e (tick dt s)) c = loopAdmitted s c := begun_apply (loopAdmitted · c) rfl
theorem begun_admittedSched : admittedSched (begun d e (tick dt s)) c = admittedSched s c := begun_apply (admittedSched · c) rfl
theorem begun_captureOwner : captureOwner (begun d e (tick dt s)) c = captureOwner s c := begun_apply (captureOwner · c) rfl
theorem begun_captureOpen : captureOpen (begun d e (tick dt s)) c = captureOpen s c := begun_apply (captureOpen · c) rfl
theorem begun_admittedTs : admittedTs (begun d e (tick dt s)) c = admittedTs s c := begun_apply (admittedTs · c) rfl
theorem begun_power : (begun d e (tick dt s)).power = s.power := begun_apply State.power rfl
theorem begun_gheler : (begun d e (tick dt s)).gheler = s.gheler := begun_apply State.gheler rfl
theorem begun_heads : (begun d e (tick dt s)).heads = s.heads := begun_apply State.heads rfl

theorem modChan_congr {f g : Chan → Chan} (h : f (chanOf s c) = g (chanOf s c)) : modChan c f s = modChan c g s := by
  have hchans : upd s.gheler.chans c f = upd s.gheler.chans c g := by
    by_cases hc : c < s.gheler.chans.length
    · have hget : chanOf s c = s.gheler.chans[c] := by simp [chanOf, hc]
      rw [hget] at h
      simp only [upd, List.modify_eq_set_getElem?, List.getElem?_eq_getElem hc, Option.map_eq_map, Option.map_some, h]
    · rw [upd, upd, List.modify_eq_self (by omega), List.modify_eq_self (by omega)]
  rw [modChan, modChan, hchans]

theorem modSp_congr {f g : SetPoint → SetPoint} (h : f (spOf s c) = g (spOf s c)) : modSp c f s = modSp c g s := by
  have hsps : upd s.gheler.sps c f = upd s.gheler.sps c g := by
    by_cases hc : c < s.gheler.sps.length
    · have hget : spOf s c = s.gheler.sps[c] := by simp [spOf, hc]
      rw [hget] at h
      simp only [upd, List.modify_eq_set_getElem?, List.getElem?_eq_getElem hc, Option.map_eq_map, Option.map_some, h]
    · rw [upd, upd, List.modify_eq_self (by omega), List.modify_eq_self (by omega)]
  rw [modSp, modSp, hsps]

/-! ### LOOP_SET -/

theorem exec_loopSet_accepted (h : Runs (.loopSet dt d) s) :
    exec (.loopSet dt d) s = .next (loopSetAct d.trunc (begun d d.trunc (tick dt s))) :=
  congrArg Host.Outcome.next (runDesc_accepted h)

/-- The frame that a LOOP_SET of a running channel waits for. -/
def loopWait (d : Desc) (ch : Chan) (owner : Option Nat) (s : State) : Option Nat :=
  if ch.state = .run ∧ (loopOf d).sched then owner.map fun k => (headOf s k).pipe.meets d.t else none

/-- A LOOP_SET that is admitted, on its channel. -/
def loopWaits (d : Desc) (ch : Chan) (owner : Option Nat) (s : State) : State :=
  modChan (d.p8 16) (fun c => { c with pendCfg := some (loopOf d, d, loopWait d ch owner s), pendAt := s.now }) s

theorem loopWait_run {ch : Chan} {owner : Option Nat} (h : loopWait d ch owner s ≠ none) : ch.state = .run ∧ (loopOf d).sched = true := by
  by_contra hnot
  exact h (if_neg hnot)

theorem loopSetAct_checked (hstate : (chanOf s (d.p8 16)).state ≠ .unavailable) (hvalid : loopInvalid s d = none)
    (hrun : (chanOf s (d.p8 16)).state = .run ∨ (chanOf s (d.p8 16)).state = .ramp →
      (chanOf s (d.p8 16)).cfg.bind (loopRunning (loopOf d)) = none)
    (hpend : (chanOf s (d.p8 16)).pendCfg = none) (hlead : leadBreach s (d.p8 16) (loopOf d).lead = none) :
    loopSetAct d s = admitDesc (.loopSet (d.p8 16) (chanOwner s (d.p8 16)) (loopOf d).sched) d [(36, (loopOf d).cost)]
      (loopWaits d (chanOf s (d.p8 16)) (chanOwner s (d.p8 16))) s := by
  have hrunning : (if (chanOf s (d.p8 16)).state == .run || (chanOf s (d.p8 16)).state == .ramp then
      (chanOf s (d.p8 16)).cfg.bind (loopRunning (loopOf d)) else none) = none := by
    split
    next h => exact hrun (by simpa using h)
    next => rfl
  unfold loopSetAct
  dsimp only
  rw [if_neg (fun h => hstate h.1), hvalid, hrunning, hpend, hlead]
  rfl

theorem admitDesc_refused {kind : ItemKind} {units : List (Nat × Nat)} {go : State → State} {n : Nat × Nat}
    (h : shortage s kind units = some n) : admitDesc kind d units go s = complete d 0x20 (shortDetail n.1 n.2) s := by
  unfold admitDesc
  rw [h]

theorem admitDesc_admitted {kind : ItemKind} {units : List (Nat × Nat)} {go : State → State}
    (h : shortage s kind units = none) : admitDesc kind d units go s = go (putItem kind d units s) := by
  unfold admitDesc
  rw [h]

theorem loopSet_clause (hrun : Runs (.loopSet dt d) s) : let m := d.trunc; let c := d.trunc.p8 16; let b := begun d d.trunc (tick dt s)
    let x := loopOf m; (chanOf s c).state ≠ .unavailable → loopInvalid s m = none →
      ((chanOf s c).state = .run ∨ (chanOf s c).state = .ramp → (chanOf s c).cfg.bind (loopRunning x) = none) →
      (chanOf s c).pendCfg = none → leadBreach s c x.lead = none →
      (∀ n, shortage b (.loopSet c (chanOwner s c) x.sched) [(36, x.cost)] = some n →
        exec (.loopSet dt d) s = .next (complete m 0x20 (shortDetail n.1 n.2) b)) ∧
      (shortage b (.loopSet c (chanOwner s c) x.sched) [(36, x.cost)] = none → ∃ t w, exec (.loopSet dt d) s = .next t ∧
        (w ≠ none → (chanOf s c).state = .run ∧ x.sched = true) ∧
        t = modChan c (fun ch => { ch with pendCfg := some (x, m, w), pendAt := (tick dt s).now })
          { b with adm := { s.adm with items := t.adm.items } }) := by
  intro m c b x hstate hvalid hrunning hpend hlead
  have hchan : chanOf b c = chanOf s c := begun_chanOf
  have howner : chanOwner b c = chanOwner s c := begun_chanOwner
  have hact := loopSetAct_checked (s := b) (d := m) (by rw [hchan]; exact hstate) (by rw [begun_loopInvalid]; exact hvalid)
    (by rw [hchan]; exact hrunning) (by rw [hchan]; exact hpend) (by rw [begun_leadBreach]; exact hlead)
  rw [howner, hchan] at hact
  have hexec := (exec_loopSet_accepted hrun).trans (congrArg Host.Outcome.next hact)
  refine ⟨fun n hn => hexec.trans (congrArg Host.Outcome.next (admitDesc_refused hn)), fun hroom => ?_⟩
  have hput : putItem (.loopSet c (chanOwner s c) x.sched) m [(36, x.cost)] b = { b with adm := { s.adm with
      items := (putItem (.loopSet c (chanOwner s c) x.sched) m [(36, x.cost)] b).adm.items } } := by
    have hadm : b.adm = s.adm := begun_adm
    rw [← hadm]
    rfl
  have hnow : (putItem (.loopSet c (chanOwner s c) x.sched) m [(36, x.cost)] b).now = (tick dt s).now :=
    (within_trans within_begun within_putItem) .now (by decide)
  refine ⟨_, loopWait m (chanOf s c) (chanOwner s c) (putItem (.loopSet c (chanOwner s c) x.sched) m [(36, x.cost)] b),
    hexec.trans (congrArg Host.Outcome.next (admitDesc_admitted hroom)), loopWait_run, ?_⟩
  generalize putItem (.loopSet c (chanOwner s c) x.sched) m [(36, x.cost)] b = w at *
  rw [loopWaits, hnow]
  exact congrArg (modChan c _) hput

/-! ### CHAN_ENABLE -/

theorem forEach_modChan {f : Chan → Chan} {l : List Nat} (hnodup : l.Nodup) : let t := forEach l (modChan · f) s
    (∀ c ∈ l, c < s.gheler.chans.length → chanOf t c = f (chanOf s c)) ∧ (∀ c, c ∉ l → chanOf t c = chanOf s c) ∧
      t = { s with gheler := { s.gheler with chans := t.gheler.chans } } := by
  induction l generalizing s with
  | nil => exact ⟨fun _ h => absurd h List.not_mem_nil, fun _ _ => rfl, rfl⟩
  | cons q qs ih =>
    obtain ⟨hq, hqs⟩ := List.nodup_cons.1 hnodup
    have hlen : (modChan q f s).gheler.chans.length = s.gheler.chans.length := by simp [modChan, upd]
    obtain ⟨hall, hrest, hform⟩ := ih hqs (s := modChan q f s)
    refine ⟨fun c hc hlt => ?_, fun c hc => ?_, ?_⟩
    · rcases List.mem_cons.1 hc with rfl | hc
      · exact (hrest c hq).trans (chanOf_modChan_same hlt)
      · have hne : c ≠ q := fun h => hq (h ▸ hc)
        rw [← chanOf_modChan_ne (s := s) (f := f) hne]
        exact hall c hc (hlen ▸ hlt)
    · rw [List.mem_cons, not_or] at hc
      obtain ⟨hne, hc⟩ := hc
      exact (hrest c hc).trans (chanOf_modChan_ne hne)
    · rw [forEach_cons]
      conv_lhs => rw [hform]
      rfl

theorem exec_chanEnable_accepted (h : Runs (.chanEnable dt d) s) :
    exec (.chanEnable dt d) s = .next (chanEnableAct d.trunc (begun d d.trunc (tick dt s))) :=
  congrArg Host.Outcome.next (runDesc_accepted h)

/-- The channels that a CHAN_ENABLE waits at. -/
def enableWaits (d : Desc) (s : State) : List Nat := (bitsOf (fieldOf d.bytes 16 6) 48).filter fun c => (chanOf s c).admittedCfg.isSome

theorem enableWaits_lt (h : c ∈ enableWaits d s) : c < s.gheler.chans.length := by
  by_contra hlen
  have hreset : chanOf s c = Reset.chan := List.getD_eq_default _ _ (by omega)
  have hcfg := (List.mem_filter.1 h).2
  rw [hreset] at hcfg
  exact absurd hcfg (by decide)

/-- What a CHAN_ENABLE asks of a channel. -/
def enableAsked (d : Desc) (now : Nat) (ch : Chan) : Chan :=
  { ch with enable := ch.enable ++ [⟨d.p8 22, max now (d.p64 24), d, 0⟩] }

theorem chanEnableAct_checked (hvalid : enableInvalid d = none) (h : d.p8 22 ≠ 0 ∨
    ((∀ c ∈ bitsOf (fieldOf d.bytes 16 6) 48, loopAdmitted s c = true) ∧ s.power.intlkLow = false ∧ s.power.resetB = false)) :
    chanEnableAct d s = if (enableWaits d s).isEmpty then complete d 0 [] s
      else forEach (enableWaits d s) (modChan · (enableAsked d s.now)) s := by
  have hadmitted : (if d.p8 22 = 0 then ((bitsOf (fieldOf d.bytes 16 6) 48).find? fun c => !loopAdmitted s c).map fun c => (0x1082, u8 c)
      else none) = none := by
    split
    next h0 =>
      obtain ⟨hall, -, -⟩ := h.resolve_left (not_not.2 h0)
      rw [Option.map_eq_none_iff, List.find?_eq_none]
      exact fun c hc => by simp [hall c hc]
    next => rfl
  have hlow : ¬ (d.p8 22 = 0 ∧ (s.power.intlkLow = true ∨ s.power.resetB = true)) := by
    rintro ⟨h0, hpins⟩
    obtain ⟨-, hintlk, hreset⟩ := h.resolve_left (not_not.2 h0)
    simp [hintlk, hreset] at hpins
  unfold chanEnableAct
  dsimp only
  rw [hvalid, hadmitted, if_neg hlow]
  rfl

theorem chanEnable_clause (hrun : Runs (.chanEnable dt d) s) : let m := d.trunc; let b := begun d d.trunc (tick dt s)
    let l := (bitsOf (fieldOf m.bytes 16 6) 48).filter fun c => (chanOf s c).admittedCfg.isSome
    enableInvalid m = none → m.p8 22 ≠ 0 ∨ ((∀ c ∈ bitsOf (fieldOf m.bytes 16 6) 48,
        loopAdmitted s c = true) ∧ s.power.intlkLow = false ∧ s.power.resetB = false) →
      (l = [] → exec (.chanEnable dt d) s = .next (complete m 0 [] b)) ∧
      (l ≠ [] → ∃ t, exec (.chanEnable dt d) s = .next t ∧
        (∀ c ∈ l, chanOf t c = { chanOf s c with enable := (chanOf s c).enable ++
          [⟨m.p8 22, max (tick dt s).now (m.p64 24), m, 0⟩] }) ∧
        (∀ c, c ∉ l → chanOf t c = chanOf s c) ∧ t = { b with gheler := { s.gheler with chans := t.gheler.chans } }) := by
  intro m b l hvalid hasked
  have hwaits : enableWaits m b = l := begun_apply (enableWaits m ·) rfl
  have hact := chanEnableAct_checked (s := b) hvalid (by
    rw [show b.power = s.power from begun_power]
    exact hasked.imp id fun ⟨hall, hpins⟩ => ⟨fun c hc => begun_loopAdmitted.trans (hall c hc), hpins⟩)
  rw [hwaits] at hact
  have hexec := (exec_chanEnable_accepted hrun).trans (congrArg Host.Outcome.next hact)
  refine ⟨fun hl => hexec.trans (by rw [hl]; rfl), fun hl => ?_⟩
  rw [if_neg (by simpa using hl)] at hexec
  have hnodup : l.Nodup := (List.nodup_range.filter _).filter _
  obtain ⟨hall, hrest, hform⟩ := forEach_modChan (s := b) (f := enableAsked m b.now) hnodup
  refine ⟨_, hexec, fun c hc => ?_, fun c hc => (hrest c hc).trans begun_chanOf, ?_⟩
  · have hlt : c < b.gheler.chans.length := enableWaits_lt (d := m) (s := b) (hwaits ▸ hc)
    rw [hall c hc hlt, begun_chanOf, enableAsked, begun_now]
  · have hgheler : b.gheler = s.gheler := begun_gheler
    rw [← hgheler]
    exact hform

/-! ### COEF_WRITE -/

theorem exec_coefWrite_accepted (h : Runs (.coefWrite dt d) s) :
    exec (.coefWrite dt d) s = .next (coefWriteAct d.trunc (begun d d.trunc (tick dt s))) :=
  congrArg Host.Outcome.next (runDesc_accepted h)

theorem chanOf_modChan_field {α : Type} {j : Nat} {f : Chan → Chan} {g : Chan → α} (hg : ∀ ch, g (f ch) = g ch) :
    g (chanOf (modChan c f s) j) = g (chanOf s j) := by
  by_cases hj : j = c
  · subst hj
    by_cases hlen : j < s.gheler.chans.length
    · rw [chanOf_modChan_same hlen, hg]
    · have hsame : modChan j f s = s := by rw [modChan, upd, List.modify_eq_self (by omega)]
      rw [hsame]
  · rw [chanOf_modChan_ne hj]

theorem modChan_modChan {f g : Chan → Chan} : modChan c g (modChan c f s) = modChan c (fun ch => g (f ch)) s := by
  simp only [modChan, upd, List.modify_modify_eq]
  rfl

/-- A channel at which a COEF_WRITE has come in. -/
def coefQueued (d : Desc) (now : Nat) (ch : Chan) : Chan := { ch with coefQ := ch.coefQ ++ [⟨d, coefEntries d, now⟩] }

theorem coefWriteAct_valid (hentries : ∀ e ∈ coefEntries d, coefEntryOk e = true) (hst : (chanOf s (d.p8 16)).state ≠ .unavailable) :
    coefWriteAct d s = (let u := modChan (d.p8 16) (coefQueued d s.now) s
      if (chanOf s (d.p8 16)).state = .run then u else flushCoef (d.p8 16) u) := by
  have hnone : ((coefEntries d).findIdx? fun e => !coefEntryOk e) = none :=
    List.findIdx?_eq_none_iff.2 fun e he => by simp [hentries e he]
  have hstate : (chanOf (modChan (d.p8 16) (coefQueued d s.now) s) (d.p8 16)).state = (chanOf s (d.p8 16)).state :=
    chanOf_modChan_field (g := Chan.state) fun _ => rfl
  unfold coefWriteAct
  dsimp only
  rw [if_neg hst, hnone]
  dsimp only
  rw [← hstate]
  rfl

theorem flushCoef_single {q : CoefReq} (h : (chanOf s c).coefQ = [q]) : flushCoef c s = complete q.desc 0 [] (modChan c (fun ch => { ch with
    coefQ := [], coefs := q.entries.foldl (fun m e => setKey e.1 e.2 m) ch.coefs }) s) := by
  unfold flushCoef
  dsimp only
  rw [h]
  rfl

theorem coefWriteAct_off (hentries : ∀ e ∈ coefEntries d, coefEntryOk e = true) (hst : (chanOf s (d.p8 16)).state = .off)
    (hqueue : (chanOf s (d.p8 16)).coefQ = []) (hc : d.p8 16 < s.gheler.chans.length) :
    coefWriteAct d s = complete d 0 [] (modChan (d.p8 16) (fun ch => { ch with
      coefs := (coefEntries d).foldl (fun l e => setKey e.1 e.2 l) ch.coefs }) s) := by
  have hone : (chanOf (modChan (d.p8 16) (coefQueued d s.now) s) (d.p8 16)).coefQ = [⟨d, coefEntries d, s.now⟩] := by
    rw [chanOf_modChan_same hc, coefQueued, hqueue]
    rfl
  rw [coefWriteAct_valid hentries (by rw [hst]; decide)]
  dsimp only
  rw [if_neg (by rw [hst]; decide), flushCoef_single hone, modChan_modChan]
  refine congrArg (complete d 0 []) (modChan_congr ?_)
  rw [coefQueued, hqueue]

theorem coefWrite_clause (hrun : Runs (.coefWrite dt d) s) (hentries : ∀ e ∈ coefEntries d.trunc, coefEntryOk e = true) :
    let m := d.trunc; let c := d.trunc.p8 16; let b := begun d d.trunc (tick dt s)
    ((chanOf s c).state = .run → exec (.coefWrite dt d) s = .next (modChan c (fun ch => { ch with
      coefQ := ch.coefQ ++ [⟨m, coefEntries m, (tick dt s).now⟩] }) b)) ∧
    ((chanOf s c).state = .off → (chanOf s c).coefQ = [] → c < s.gheler.chans.length → exec (.coefWrite dt d) s =
      .next (complete m 0 [] (modChan c (fun ch => { ch with
        coefs := (coefEntries m).foldl (fun l e => setKey e.1 e.2 l) ch.coefs }) b))) := by
  intro m c b
  have hchan : chanOf b c = chanOf s c := begun_chanOf
  refine ⟨fun hst => ?_, fun hst hqueue hc => ?_⟩
  · rw [exec_coefWrite_accepted hrun, coefWriteAct_valid hentries (by rw [hchan, hst]; decide), if_pos (hchan.symm ▸ hst), begun_now]
    rfl
  · rw [exec_coefWrite_accepted hrun, coefWriteAct_off hentries (hchan.symm ▸ hst) (hchan.symm ▸ hqueue)
      (by rw [show b.gheler = s.gheler from begun_gheler]; exact hc)]

/-! ### SETPOINT_CFG, MODE_SET and INJECT -/

theorem setpointAct_checked (hloop : noLoop s (d.p8 16) = none) (hsched : admittedSched s (d.p8 16) = false)
    (hbound : isBound s (d.p8 16) = none) (hvalid : spInvalid s d = none) (hpend : (spOf s (d.p8 16)).pending = none) :
    setpointAct d s = modSp (d.p8 16) (fun p => { p with pending := some (spOfDesc d, d, max s.now (d.p64 56)) }) s := by
  unfold setpointAct
  dsimp only
  rw [hloop, hsched, hbound, hvalid, hpend]
  rfl

theorem setpointCfg_clause (hrun : Runs (.setpointCfg dt d) s) : let m := d.trunc; let c := d.trunc.p8 16; let b := begun d d.trunc (tick dt s)
    noLoop s c = none → admittedSched s c = false → isBound s c = none → spInvalid s m = none → (spOf s c).pending = none →
      exec (.setpointCfg dt d) s =
        .next (modSp c (fun p => { p with pending := some (spOfDesc m, m, max (tick dt s).now (m.p64 56)) }) b) := by
  intro m c b hloop hsched hbound hvalid hpend
  have hexec : exec (.setpointCfg dt d) s = .next (setpointAct m b) := congrArg Host.Outcome.next (runDesc_accepted hrun)
  rw [hexec, setpointAct_checked (begun_noLoop.trans hloop) (begun_admittedSched.trans hsched) (begun_isBound.trans hbound)
    (begun_spInvalid.trans hvalid) (by rw [begun_spOf]; exact hpend), begun_now]

theorem modeSetAct_checked (hloop : (d.p8 16 :: if d.p8 17 = 2 then modeMembers d else []).findSome? (noLoop s) = none)
    (hbound : (d.p8 16 :: if d.p8 17 = 2 then modeMembers d else []).findSome? (isBound s) = none)
    (hvalid : modeInvalid d = none) (hgroup : groupInvalid s d = false) :
    modeSetAct d s = modSp (d.p8 16) (fun p => { p with modes := p.modes ++
      [⟨d, d.p8 17, bitOf (d.p8 18) 0, d.s32 20, modeMembers d, max s.now (d.p64 32)⟩] }) s := by
  unfold modeSetAct
  dsimp only
  rw [hloop, hbound, hvalid, hgroup]
  rfl

theorem modeSet_clause (hrun : Runs (.modeSet dt d) s) : let m := d.trunc; let c := d.trunc.p8 16; let b := begun d d.trunc (tick dt s)
    (c :: if m.p8 17 = 2 then modeMembers m else []).findSome? (noLoop s) = none →
      (c :: if m.p8 17 = 2 then modeMembers m else []).findSome? (isBound s) = none → modeInvalid m = none →
      groupInvalid s m = false → exec (.modeSet dt d) s = .next (modSp c (fun p => { p with modes := p.modes ++
        [⟨m, m.p8 17, bitOf (m.p8 18) 0, m.s32 20, modeMembers m, max (tick dt s).now (m.p64 32)⟩] }) b) := by
  intro m c b hloop hbound hvalid hgroup
  have hexec : exec (.modeSet dt d) s = .next (modeSetAct m b) := congrArg Host.Outcome.next (runDesc_accepted hrun)
  have hnoLoop : noLoop b = noLoop s := funext fun _ => begun_noLoop
  have hisBound : isBound b = isBound s := funext fun _ => begun_isBound
  rw [hexec, modeSetAct_checked (hnoLoop ▸ hloop) (hisBound ▸ hbound) hvalid (begun_groupInvalid.trans hgroup), begun_now]

/-- An INJECT past its checks (R413). -/
theorem injectAct_checked (hloop : noLoop s (d.p8 16) = none) (hvalid : injectInvalid d = none) (hstage : s.power.stage = 0) :
    injectAct d s = if (spOf s (d.p8 16)).inject.any (·.active) ∧ d.p8 18 ≠ 4 then complete d 0x1183 (u8 (d.p8 16)) s
      else if d.p8 18 = 4 then
        match (spOf s (d.p8 16)).inject with
        | none => complete d 0 [] s
        | some j => modSp (d.p8 16) (fun p => { p with inject := some { j with stops := j.stops ++ [(d, max s.now (d.p64 40))] } }) s
      else modSp (d.p8 16) (fun p => if p.inject.isNone then { p with inject := some (injectOf d s.now) }
        else { p with waiting := p.waiting ++ [injectOf d s.now] }) s := by
  unfold injectAct
  dsimp only
  rw [hloop, hvalid, hstage]
  by_cases hbusy : (spOf s (d.p8 16)).inject.any (·.active) ∧ d.p8 18 ≠ 4
  · rw [if_pos hbusy, if_pos hbusy]
    rfl
  · rw [if_neg hbusy, if_neg hbusy]
    rfl

theorem inject_clause (hrun : Runs (.inject dt d) s) : let m := d.trunc; let c := d.trunc.p8 16; let b := begun d d.trunc (tick dt s)
    noLoop s c = none → injectInvalid m = none → s.power.stage = 0 →
      (m.p8 18 ≠ 4 → (spOf s c).inject = none →
        exec (.inject dt d) s = .next (modSp c (fun p => { p with inject := some (injectOf m (tick dt s).now) }) b)) ∧
      (m.p8 18 = 4 → (spOf s c).inject = none → exec (.inject dt d) s = .next (complete m 0 [] b)) ∧
      (m.p8 18 ≠ 4 → ∀ j, (spOf s c).inject = some j → exec (.inject dt d) s = .next (if j.active = true then complete m 0x1183 (u8 c) b
        else modSp c (fun p => { p with waiting := p.waiting ++ [injectOf m (tick dt s).now] }) b)) := by
  intro m c b hloop hvalid hstage
  have hsp : spOf b c = spOf s c := begun_spOf
  have hexec : exec (.inject dt d) s = .next (injectAct m b) := congrArg Host.Outcome.next (runDesc_accepted hrun)
  rw [injectAct_checked (begun_noLoop.trans hloop) hvalid (by rw [begun_power]; exact hstage), begun_now] at hexec
  rw [show spOf b (m.p8 16) = spOf s c from hsp] at hexec
  refine ⟨fun hwave hidle => ?_, fun hwave hidle => ?_, fun hwave j hj => ?_⟩
  · rw [hidle, if_neg (fun h => absurd h.1 (by decide)), if_neg hwave] at hexec
    exact hexec.trans (congrArg Host.Outcome.next (modSp_congr (if_pos (by rw [hsp, hidle]; rfl))))
  · rw [hidle, if_neg (fun h => absurd h.1 (by decide)), if_pos hwave] at hexec
    exact hexec
  · rw [hj] at hexec
    by_cases hactive : j.active = true
    · rw [if_pos ⟨hactive, hwave⟩] at hexec
      rw [hexec, if_pos hactive]
    · rw [if_neg (fun h => hactive h.1), if_neg hwave] at hexec
      rw [hexec, if_neg hactive]
      exact congrArg Host.Outcome.next (modSp_congr (if_neg (by rw [hsp, hj]; exact Bool.false_ne_true)))

/-! ### CAPTURE -/

/-- A CAPTURE's item and exhibit. -/
def captureHeld (d : Desc) (s : State) : State :=
  modExh (captureHandle d) (fun e => { e with state := .filling }) (putItem (.capture (d.p8 16) (captureOwner s (d.p8 16))) d
    (hbmCost s (256 * 4000000000) (admittedTs s (d.p8 16) * d.p16 18) [captureHandle d]) s)

theorem captureAct_checked (hloop : noLoop s (d.p8 16) = none) (hvalid : captureInvalid d = none) (hopen : captureOpen s (d.p8 16) = false)
    (hroom : shortage s (.capture (d.p8 16) (captureOwner s (d.p8 16)))
      (hbmCost s (256 * 4000000000) (admittedTs s (d.p8 16) * d.p16 18) [captureHandle d]) = none) :
    captureAct d s = modSp (d.p8 16) (fun p => { p with capture := some (captureOf d (captureHeld d s).now) }) (captureHeld d s) := by
  unfold captureAct
  dsimp only
  simp only [hloop, hvalid, hopen, Option.map_none, Option.orElse_none, orElseDo, Bool.false_eq_true, if_false]
  exact admitDesc_admitted hroom

theorem captureBad_exhibit (h : captureBad d s = none) : ∃ e, exhOf s (captureHandle d) = some e := by
  cases he : exhOf s (captureHandle d) with
  | some e => exact ⟨e, rfl⟩
  | none =>
    unfold captureBad at h
    simp [he, badField] at h

theorem captureHeld_eq {e : Exhibit} (he : exhOf s (captureHandle d) = some e) : captureHeld d s = { s with adm := { s.adm with
    items := (captureHeld d s).adm.items, exhibits := setKey (captureHandle d) { e with state := .filling } s.adm.exhibits } } := by
  have hput (kind : ItemKind) (units : List (Nat × Nat)) : exhOf (putItem kind d units s) (captureHandle d) = some e := he
  unfold captureHeld modExh
  rw [hput]
  rfl

theorem capture_clause (hrun : Runs (.capture dt d) s) (hboot : s.power.bootStage < 1) :
    let m := d.trunc; let c := d.trunc.p8 16; let b := begun d d.trunc (tick dt s)
    noLoop s c = none → captureInvalid m = none → captureOpen s c = false →
      shortage b (.capture c (captureOwner s c)) (hbmCost b (256 * 4000000000) (admittedTs s c * m.p16 18) [captureHandle m]) = none →
      ∃ t e, exec (.capture dt d) s = .next t ∧ exhOf s (captureHandle m) = some e ∧
        exhOf t (captureHandle m) = some { e with state := .filling } ∧
        t = modSp c (fun p => { p with capture := some (captureOf m (tick dt s).now) }) { b with adm := { s.adm with
          items := t.adm.items, exhibits := setKey (captureHandle m) { e with state := .filling } s.adm.exhibits } } := by
  intro m c b hloop hvalid hopen hroom
  have howner : captureOwner b (m.p8 16) = captureOwner s c := begun_captureOwner
  have hts : admittedTs b (m.p8 16) = admittedTs s c := begun_admittedTs
  have hadm : b.adm = s.adm := begun_adm
  obtain ⟨e, he⟩ : ∃ e, exhOf b (captureHandle m) = some e := captureBad_exhibit (accepted_bad hrun)
  have hes : exhOf s (captureHandle m) = some e := (begun_apply (exhOf · (captureHandle m)) rfl).symm.trans he
  have hheld := captureHeld_eq he
  rw [hadm] at hheld
  have hnow : (captureHeld m b).now = (tick dt s).now := by
    rw [hheld]
    exact begun_now
  have hpower : (captureHeld m b).power = s.power := by
    rw [hheld]
    exact begun_power
  have hact := captureAct_checked (s := b) (d := m) (begun_noLoop.trans hloop) hvalid (begun_captureOpen.trans hopen)
    (by rw [howner, hts]; exact hroom)
  rw [hnow] at hact
  have hbelow : ∀ p, bootShed 1 1 p (captureAct m b) = captureAct m b := fun p => bootShed_below (by
    rw [hact]
    show (captureHeld m b).power.bootStage < 1
    rwa [hpower])
  have hexec : exec (.capture dt d) s = .next (captureAct m b) :=
    (congrArg Host.Outcome.next (runDesc_accepted hrun)).trans (congrArg Host.Outcome.next (hbelow _))
  rw [hact] at hexec
  refine ⟨_, e, hexec, hes, ?_, ?_⟩
  · show exhOf (captureHeld m b) (captureHandle m) = _
    rw [hheld]
    exact getKey_setKey_same
  · exact congrArg (modSp c _) hheld

/-- Settles O45. -/
theorem loopSettingsWaitForTheirSample : Obligations.LoopSettingsWaitForTheirSample := by
  intro dt d s
  exact ⟨loopSet_clause, chanEnable_clause, coefWrite_clause, setpointCfg_clause, modeSet_clause, inject_clause, capture_clause⟩

end Sys2Proof.Machine
end

section
/-!
PROOFS. The Vitrine function: VITRINE_SET, VITRINE_LOAD and the management-bus path (R220 to R227).
-/

namespace Sys2Proof.Machine
variable {s t u : State} {m : List StatePart} {dt k j : Nat} {d : Desc} {v : VitSet} {f : BusFrame}

/-! ### A setting takes hold -/

/-- What a setting makes of its head's Vitrine. -/
def vitSet (v : VitSet) (x : Vitrine) : Vitrine :=
  { x with
    content := bitOf v.flags 0, mask := bitOf v.flags 1, bank := if bitOf v.flags 2 then 1 - x.bank else x.bank,
    gate := bitOf v.flags 3, loaded := x.loaded || bitOf v.flags 1, canvasW := v.canvasW, canvasH := v.canvasH }

/-- A head with the setting, and the key it brings. -/
def vitKeyed (k : Nat) (v : VitSet) (s : State) : State :=
  let s := modVit k (vitSet v) s
  if bitOf v.flags 4 && v.desc.isSome then { s with vitKey := { s.vitKey with key := v.key } } else s

/-- The record of a setting. -/
def vitTold (k : Nat) (v : VitSet) (s : State) : State :=
  record (0x10 + k) 0x0906 (u8 k ++ u8 v.flags ++ u8 (headOf s k).vit.bank ++ u8 (bit v.desc.isNone)) s

theorem applyVit_eq {n : Nat} : applyVit k n v s = v.desc.elim (vitTold k v (vitKeyed k v s))
    fun d => completeAt n d 0 [] (vitTold k v (vitKeyed k v s)) := by
  have hmatch : ∀ (o : Option Desc) (u : State), (match o with
      | some d => completeAt n d 0 [] u
      | none => u) = o.elim u fun d => completeAt n d 0 [] u := fun o u => by cases o <;> rfl
  unfold applyVit
  exact hmatch v.desc _

theorem within_vitKeyed : Within [.heads, .vitKey] s (vitKeyed k v s) := by
  unfold vitKeyed
  have hhead : Within [.heads, .vitKey] s (modVit k (vitSet v) s) := within_modHead.mono (by decide)
  exact within_ite (hhead.then (within_of_eq_sub (m := [.vitKey]) rfl (by decide) (by decide))) hhead

theorem vitKeyed_heads : (vitKeyed k v s).heads = (modVit k (vitSet v) s).heads := by
  unfold vitKeyed
  dsimp only
  split <;> rfl

theorem vitKeyed_vitKey : (vitKeyed k v s).vitKey =
    { s.vitKey with key := if bitOf v.flags 4 && v.desc.isSome then v.key else s.vitKey.key } := by
  unfold vitKeyed
  dsimp only
  split <;> rfl

theorem within_applyVit {n : Nat} : Within ([.heads, .vitKey] ++ replyParts) s (applyVit k n v s) ∧
    Within replyParts (vitKeyed k v s) (applyVit k n v s) := by
  have hrest : Within replyParts (vitKeyed k v s) (applyVit k n v s) := by
    rw [applyVit_eq]
    have hrec : Within replyParts (vitKeyed k v s) (vitTold k v (vitKeyed k v s)) := within_recordAt.mono (by decide)
    cases v.desc with
    | none => exact hrec
    | some d => exact hrec.then within_completeAt
  exact ⟨(within_trans within_vitKeyed hrest).mono (by decide), hrest⟩

theorem applyVit_frame {n : Nat} (hk : k < s.heads.length) : let t := applyVit k n v s
    (headOf t k).vit = vitSet v (headOf s k).vit ∧ (∀ j, j ≠ k → headOf t j = headOf s j) ∧
      t.vitKey = { s.vitKey with key := if bitOf v.flags 4 && v.desc.isSome then v.key else s.vitKey.key } := by
  obtain ⟨-, hrest⟩ := within_applyVit (k := k) (n := n) (v := v) (s := s)
  have hhead : ∀ j, headOf (applyVit k n v s) j = headOf (modVit k (vitSet v) s) j := fun j =>
    (hrest.headOf (by decide) j).trans (congrArg (fun l : List Head => l.getD j Reset.head) vitKeyed_heads)
  refine ⟨?_, fun j hj => (hhead j).trans (headOf_modHead_ne hj), (hrest .vitKey (by decide)).trans vitKeyed_vitKey⟩
  rw [hhead, modVit, headOf_modHead_same hk]

/-- Without a descriptor a setting is recorded only. -/
theorem within_applyVit_mgmt {n : Nat} (h : v.desc = none) : Within [.heads, .vitKey, .ledger] s (applyVit k n v s) := by
  rw [applyVit_eq, h]
  exact (within_vitKeyed.mono (by decide)).then (within_recordAt.mono (by decide))

/-! ### VITRINE_SET -/

theorem exec_vitrineSet_accepted (h : Runs (.vitrineSet dt d) s) :
    exec (.vitrineSet dt d) s = .next (vitrineSetAct d.trunc (begun d d.trunc (tick dt s))) :=
  congrArg Host.Outcome.next (runDesc_accepted h)

theorem vitMismatch_off (h : configured s k = false) : vitMismatch s k v = none := by
  have hcfg : (headOf s k).pipe.cfg = none := by simpa [configured] using h
  unfold vitMismatch
  rw [hcfg]

theorem takeVit_off (h : configured s k = false) : takeVit k v s = applyVit k s.now v s := if_neg (by simp [h])

theorem takeVit_on (h : configured s k = true) :
    takeVit k v s = headChanged k v.db (modVit k (fun x => { x with pending := x.pending ++ [v] }) s) := if_pos h

theorem vitrineSetAct_off (h : configured s (d.p8 16) = false) : vitrineSetAct d s = applyVit (d.p8 16) s.now (vitOf d false) s := by
  unfold vitrineSetAct
  dsimp only
  rw [vitMismatch_off h]
  exact takeVit_off h

theorem vitrineSetAct_on (h : configured s (d.p8 16) = true) (hmask : vitMismatch s (d.p8 16) (vitOf d false) = none) :
    vitrineSetAct d s = headChanged (d.p8 16) (vitOf d false).db
      (modVit (d.p8 16) (fun x => { x with pending := x.pending ++ [vitOf d false] }) s) := by
  unfold vitrineSetAct
  dsimp only
  rw [hmask]
  exact takeVit_on h

theorem begun_configured {e : Desc} : configured (begun d e (tick dt s)) k = configured s k := begun_apply (configured · k) rfl

theorem vitrineSet_applies (hrun : Runs (.vitrineSet dt d) s) (hk : d.trunc.p8 16 < s.heads.length)
    (hoff : configured s (d.trunc.p8 16) = false) : let x := d.trunc; let k := d.trunc.p8 16; let f := d.trunc.p8 17
    ∃ t, exec (.vitrineSet dt d) s = .next t ∧ (headOf t k).vit = { (headOf s k).vit with
        content := bitOf f 0, mask := bitOf f 1
        bank := if bitOf f 2 = true then 1 - (headOf s k).vit.bank else (headOf s k).vit.bank
        gate := bitOf f 3, loaded := (headOf s k).vit.loaded || bitOf f 1, canvasW := x.p16 18, canvasH := x.p16 20 } ∧
      t.vitKey = { s.vitKey with key := if bitOf f 4 = true then x.p32 24 else s.vitKey.key } ∧
      (∀ j, j ≠ k → headOf t j = headOf s j) ∧ OnlyReply { s with heads := t.heads, vitKey := t.vitKey } t := by
  intro x k f
  have hb : Within (clockParts ++ replyParts) s (begun d x (tick dt s)) := within_tick_begun
  have hoff' : configured (begun d x (tick dt s)) (x.p8 16) = false := begun_configured.trans hoff
  have hkb : x.p8 16 < (begun d x (tick dt s)).heads.length := by rw [hb .heads (by decide)]; exact hk
  obtain ⟨hall, -⟩ := within_applyVit (k := x.p8 16) (n := (begun d x (tick dt s)).now) (v := vitOf x false) (s := begun d x (tick dt s))
  obtain ⟨hvit, hothers, hkey⟩ := applyVit_frame (n := (begun d x (tick dt s)).now) (v := vitOf x false) hkb
  rw [begun_headOf] at hvit
  rw [show (begun d x (tick dt s)).vitKey = s.vitKey from hb .vitKey (by decide),
    show (vitOf x false).desc.isSome = true from rfl, Bool.and_true] at hkey
  exact ⟨_, (exec_vitrineSet_accepted hrun).trans (congrArg Host.Outcome.next (vitrineSetAct_off hoff')), hvit, hkey,
    fun j hj => (hothers j hj).trans (begun_headOf ..), onlyReply_patch (m := [.heads, .vitKey]) ((within_trans hb hall).mono (by decide)) (by decide)⟩

theorem within_changed {g : Vitrine → Vitrine} {n : Nat} (h : s.power.state = .p2 → s.hbm.host = []) :
    Within [.heads, .pstate, .selfRef] s (headChanged k n (modVit k g s)) :=
  Within.then (t := modVit k g s) (within_modHead.mono (by decide)) (within_headChanged h)

theorem vitrineSet_waits (hrun : Runs (.vitrineSet dt d) s) (hk : d.trunc.p8 16 < s.heads.length)
    (hon : configured s (d.trunc.p8 16) = true) (hmask : vitMismatch s (d.trunc.p8 16) (vitOf d.trunc false) = none) :
    let x := d.trunc; let k := d.trunc.p8 16
    ∃ t, exec (.vitrineSet dt d) s = .next t ∧
      (headOf t k).vit = { (headOf s k).vit with pending := (headOf s k).vit.pending ++ [vitOf x false] } ∧
      (∀ j, j ≠ k → headOf t j = headOf s j) ∧ ((s.power.state = .p2 → s.hbm.host = []) → t = { begun d x (tick dt s) with
        heads := t.heads, power := { s.power with state := t.power.state }, hbm := { s.hbm with selfRef := t.hbm.selfRef } }) := by
  intro x k
  have hb : Within (clockParts ++ replyParts) s (begun d x (tick dt s)) := within_tick_begun
  have hon' : configured (begun d x (tick dt s)) (x.p8 16) = true := begun_configured.trans hon
  have hmask' : vitMismatch (begun d x (tick dt s)) (x.p8 16) (vitOf x false) = none := 
    (begun_apply (fun u => vitMismatch u (x.p8 16) (vitOf x false)) rfl).trans hmask
  have hkb : x.p8 16 < (begun d x (tick dt s)).heads.length := by rw [hb .heads (by decide)]; exact hk
  refine ⟨_, (exec_vitrineSet_accepted hrun).trans (congrArg Host.Outcome.next (vitrineSetAct_on hon' hmask')), ?_, fun j hj => ?_, fun hhost => ?_⟩
  · rw [headOf_headChanged_field (g := fun h : Head => h.vit) fun _ _ => rfl, modVit, headOf_modHead_same hkb, begun_headOf]
  · rw [headOf_headChanged_ne hj, modVit, headOf_modHead_ne hj, begun_headOf]
  · exact woken_frame hb (within_changed (begun_woken hb hhost))

/-! ### VITRINE_LOAD -/

theorem vitLoadAct_clear (h : 2 ≤ d.p8 25 ∨ anyFrozen s (vitAddr s (d.p8 24) (1 - (headOf s (d.p8 24)).vit.bank) (d.p8 25) (d.p32 28)) d.length = false) :
    vitLoadAct d s = { s with adm := { s.adm with transfers := s.adm.transfers ++
      [⟨d, 0x0711, d.p8 24, false, some (1 - (headOf s (d.p8 24)).vit.bank), [], false, none, 0, 0⟩] } } := by
  refine if_neg fun hfrozen => ?_
  rw [Bool.and_eq_true, decide_eq_true_eq] at hfrozen
  obtain ⟨hpart, hany⟩ := hfrozen
  rcases h with h | h
  · omega
  · exact absurd hany (by rw [h]; exact Bool.false_ne_true)

theorem vitrineLoad_begins (hrun : Runs (.vitrineLoad dt d) s) : let k := d.p8 24; let bank := 1 - (headOf s k).vit.bank
    (2 ≤ d.p8 25 ∨ anyFrozen s (vitAddr s k bank (d.p8 25) (d.p32 28)) d.length = false) → exec (.vitrineLoad dt d) s = .next
      { begun d d (tick dt s) with adm := { s.adm with transfers := s.adm.transfers ++
        [⟨d, 0x0711, k, false, some bank, [], false, none, 0, 0⟩] } } := by
  intro k bank h
  have hexec : exec (.vitrineLoad dt d) s = .next (vitLoadAct d (begun d d (tick dt s))) := congrArg Host.Outcome.next (runDesc_accepted hrun)
  have hfrozen : ∀ a n, anyFrozen (begun d d (tick dt s)) a n = anyFrozen s a n := fun a n => begun_anyFrozen a n
  have haddr : ∀ k b p n, vitAddr (begun d d (tick dt s)) k b p n = vitAddr s k b p n := fun k b p n => begun_apply (vitAddr · k b p n) rfl
  have hadm : (begun d d (tick dt s)).adm = s.adm := begun_adm
  rw [hexec, vitLoadAct_clear (by rw [begun_headOf, hfrozen, haddr]; exact h), hadm, begun_headOf]

/-! ### The management-bus path (R227) -/

/-- A keyed command as a descriptor. -/
def mgmtDesc (now : Nat) (l : List Byte) : Desc :=
  { ring := 252, bytes := padTo 64 (List.replicate 16 0 ++ l), db := now, hold := 0, fwd := none }

theorem mgmtSet_unserved {key : Nat} {l : List Byte} (h : served f s = false) : exec (.vitrineMgmtSet f key l) s = .next (tick f.dt s) :=
  if_pos (show (!served f (tick f.dt s)) = true by rw [show served f (tick f.dt s) = served f s from rfl, h]; rfl)

theorem not_keyless (hkey : s.vitKey.key ≠ 0) (hlock : s.vitKey.lockout = none) :
    ¬ (s.vitKey.key = 0 ∨ s.vitKey.lockout.isSome = true) := by
  simp [hkey, hlock]

section Served
variable {key : Nat} {l : List Byte} (h : served f s = true)
include h

theorem mgmtSet_served : exec (.vitrineMgmtSet f key l) s =
    (let u := tick f.dt s
    if u.vitKey.key = 0 ∨ u.vitKey.lockout.isSome then .next (vitStatus 0x987 u)
    else if key % 2 ^ 32 ≠ u.vitKey.key then .next (wrongKey u)
    else .next (vitMgmt (mgmtDesc u.now l) u)) :=
  if_neg (show ¬ (!served f (tick f.dt s)) = true by rw [show served f (tick f.dt s) = served f s from rfl, h]; exact Bool.false_ne_true)

theorem mgmtSet_keyless (hkey : s.vitKey.key = 0 ∨ s.vitKey.lockout ≠ none) : exec (.vitrineMgmtSet f key l) s =
    .next { tick f.dt s with vitKey := { s.vitKey with status := 0x987 } } :=
  (mgmtSet_served h).trans (if_pos (hkey.imp id Option.isSome_iff_ne_none.2))

theorem mgmtSet_wrong (hkey : s.vitKey.key ≠ 0) (hlock : s.vitKey.lockout = none) (hwrong : key % 2 ^ 32 ≠ s.vitKey.key) :
    exec (.vitrineMgmtSet f key l) s = .next (wrongKey (tick f.dt s)) :=
  (mgmtSet_served h).trans ((if_neg (not_keyless hkey hlock)).trans (if_pos hwrong))

theorem mgmtSet_right (hkey : s.vitKey.key ≠ 0) (hlock : s.vitKey.lockout = none) (hright : key % 2 ^ 32 = s.vitKey.key) :
    exec (.vitrineMgmtSet f key l) s = .next (vitMgmt (mgmtDesc (tick f.dt s).now l) (tick f.dt s)) :=
  (mgmtSet_served h).trans ((if_neg (not_keyless hkey hlock)).trans (if_neg (not_not.2 hright)))

end Served

theorem wrongKey_frame : (wrongKey s).vitKey.status = 0x987 ∧ (wrongKey s).vitKey.count = min 65535 (s.vitKey.count + 1) ∧
    (wrongKey s).vitKey.key = s.vitKey.key ∧ Within [.vitKey, .causes, .ledger, .out] s (wrongKey s) := by
  unfold wrongKey
  extract_lets k recent u
  have hu : Within [.vitKey, .causes, .ledger, .out] s u := within_of_eq_sub (m := [.vitKey]) rfl (by decide) (by decide)
  have hrest : Within [.causes, .ledger, .out] u (raiseCause true 6 (recordAt true s.now 0 0x0907 (u16 recent.length) u)) :=
    Within.then (within_recordAt.mono (by decide)) (within_raiseCause.mono (by decide))
  rw [show (raiseCause true 6 (recordAt true s.now 0 0x0907 (u16 recent.length) u)).vitKey = u.vitKey from hrest .vitKey (by decide)]
  exact ⟨rfl, rfl, rfl, hu.then (hrest.mono (by decide))⟩

theorem gate_bytes (k : Nat) : k < 8 → let x := mgmtDesc 0 [BitVec.ofNat 8 k, 9]
    x.p8 16 = k ∧ x.p8 17 = 9 ∧ (([22, 23] ++ span 28 63).any fun i => x.p8 i != 0) = false := by
  decide +revert

/-- The setting of a keyed command that lights the gate and the content. -/
theorem vitMgmt_gate {n : Nat} (hk : k < 8) (hoff : configured s k = false) : ∃ v, v.desc = none ∧ v.flags = 9 ∧
    vitMgmt (mgmtDesc n [BitVec.ofNat 8 k, 9]) s = vitStatus 0 (applyVit k s.now v s) := by
  obtain ⟨hhead, hflags, hzero⟩ := gate_bytes k hk
  have hhead' : (mgmtDesc n [BitVec.ofNat 8 k, 9]).p8 16 = k := hhead
  refine ⟨vitOf (mgmtDesc n [BitVec.ofNat 8 k, 9]) true, rfl, hflags, ?_⟩
  have hbad : (vitrineBad (mgmtDesc n [BitVec.ofNat 8 k, 9]) s).isSome = false := by
    have hflags' : (mgmtDesc n [BitVec.ofNat 8 k, 9]).p8 17 = 9 := hflags
    rw [vitrineBad, hhead', hflags', badField, List.find?_cons_of_neg (by simpa using Nat.lt_succ_iff.1 hk)]
    rfl
  have hmask : (vitMismatch s k (vitOf (mgmtDesc n [BitVec.ofNat 8 k, 9]) true)).isSome = false := by rw [vitMismatch_off hoff]; rfl
  unfold vitMgmt
  dsimp only
  rw [hhead']
  refine (if_neg fun h => Bool.false_ne_true (hzero.symm.trans h)).trans ((if_neg fun h => Bool.false_ne_true (hbad.symm.trans h)).trans
    ((if_neg fun h => Bool.false_ne_true (hmask.symm.trans h)).trans ?_))
  rw [takeVit_off hoff]

/-- Settles O37. -/
theorem vitrineIsSetFromPf1 : Obligations.VitrineIsSetFromPf1 := by
  intro dt s
  refine ⟨fun d hrun hk => ⟨vitrineSet_applies hrun hk, vitrineSet_waits hrun hk⟩, fun d => vitrineLoad_begins,
    fun f key pl => ⟨mgmtSet_unserved, fun hserved => ⟨mgmtSet_keyless hserved, fun hkey hlock hwrong => ?_,
      fun hkey hlock hright k hk h8 hoff => ?_⟩⟩, fun u hlock hdue => ?_⟩
  · obtain ⟨hstatus, hcount, hkept, hframe⟩ := wrongKey_frame (s := tick f.dt s)
    exact ⟨_, mgmtSet_wrong hserved hkey hlock hwrong, hstatus, hcount, hkept,
      onlyRecords_patch (m := [.vitKey]) ((within_trans within_tick hframe).mono (by decide)) (by decide)⟩
  · obtain ⟨v, hdesc, hflags, hact⟩ := vitMgmt_gate (s := tick f.dt s) (n := (tick f.dt s).now) h8 hoff
    obtain ⟨hvit, hothers, hvitKey⟩ := applyVit_frame (s := tick f.dt s) (k := k) (v := v) (n := (tick f.dt s).now) hk
    have hframe := within_applyVit_mgmt (s := tick f.dt s) (k := k) (n := (tick f.dt s).now) hdesc
    have hstatus : Within [.vitKey] (applyVit k (tick f.dt s).now v (tick f.dt s))
        (vitStatus 0 (applyVit k (tick f.dt s).now v (tick f.dt s))) := within_of_eq rfl (by decide)
    rw [hdesc, Option.isSome_none, Bool.and_false] at hvitKey
    refine ⟨_, (mgmtSet_right hserved hkey hlock hright).trans (congrArg Host.Outcome.next hact), ?_, ?_, ?_, ?_, hothers, ?_⟩
    · exact congrArg (fun x : KeyFail => { x with status := 0 }) hvitKey
    · exact (congrArg Vitrine.content hvit).trans (by rw [vitSet, hflags]; rfl)
    · exact (congrArg Vitrine.gate hvit).trans (by rw [vitSet, hflags]; rfl)
    · exact (congrArg Vitrine.mask hvit).trans (by rw [vitSet, hflags]; rfl)
    · exact onlyRecords_patch (m := [.heads, .vitKey])
        ((within_trans (within_trans within_tick hframe) hstatus).mono (by decide)) (by decide)
  · show execVitrineLockoutEnd dt s = _
    unfold execVitrineLockoutEnd
    dsimp only
    rw [show (tick dt s).vitKey = s.vitKey from rfl, hlock]
    exact if_pos hdue

end Sys2Proof.Machine
end

section
/-!
PROOFS. Thermal sensing and protection (chapter 21): readings, zones, θ and LATCH.
-/

namespace Sys2Proof.Machine
variable {s t u : State} {m : List StatePart} {dt x y z : Nat} {temp : Int} {d : Desc}

/-! ### Repricing -/

theorem within_setCap {i c : Nat} : Within [.caps, .ledger] s (setCap i c s) := by
  unfold setCap
  exact within_ite within_refl (Within.then (within_of_eq_sub (m := [.caps]) rfl (by decide) (by decide)) (within_recordAt.mono (by decide)))

theorem within_takeShrink : Within [.caps, .ledger] s (takeShrink s) :=
  within_ite within_refl (Within.then (within_of_eq_sub (m := [.caps]) rfl (by decide) (by decide)) (within_forEach fun _ _ => within_setCap))

/-- What repricing reaches when it revokes nothing. -/
def priceParts : List StatePart := [.adm, .caps, .ledger]

theorem within_passWalk {caps : List Nat} {cause : Nat} {l : List Item} : Within revokeParts s (passWalk caps cause l s) := by
  induction l generalizing s with
  | nil => exact within_refl
  | cons i rest ih =>
    unfold passWalk
    refine Within.then ?_ ih
    split
    · exact within_refl
    · split
      · exact within_refl
      · exact within_revoke

theorem within_revocationPass {caps : List Nat} {cause : Nat} (hm : .adm ∈ m)
    (hwalk : Within m s (passWalk caps cause (revOrder s.adm.items) s)) : Within m s (revocationPass caps cause s) := by
  unfold revocationPass
  exact within_ite (hwalk.then (within_of_eq_sub (m := [.adm]) rfl (by decide) (by simpa using hm))) within_refl

theorem within_reprice_of {cause : Nat} (hparts : ∀ p ∈ priceParts, p ∈ m)
    (hwalk : ∀ (u : State) caps, u.adm.items = s.adm.items → Within m u (passWalk caps cause (revOrder u.adm.items) u)) :
    Within m s (reprice cause s) := by
  unfold reprice
  generalize List.range 44 = slots
  refine within_ite within_refl ?_
  extract_lets caps _ u v pend stands
  have hfp : Within priceParts s { s with adm := { s.adm with fpPriced := pricedFp s } } := within_of_eq_sub (m := [.adm]) rfl (by decide) (by decide)
  have hu : Within priceParts s u := hfp.then (within_forEach (m := priceParts) fun _ _ => within_ite (within_setCap.mono (by decide)) within_refl)
  have hv : Within m s v := (hu.mono hparts).then
    (within_revocationPass (hparts _ (by decide)) (hwalk u caps (hu .items (by decide))))
  have hw : Within m s { v with adm := { v.adm with pendingCaps := pend, inForce := stands } } :=
    hv.then (within_of_eq_sub (m := [.caps]) rfl (by decide) (by simpa using hparts .caps (by decide)))
  exact hw.then (within_takeShrink.mono fun p hp => hparts p (by revert hp; revert p; decide))

theorem within_reprice {cause : Nat} : Within (priceParts ++ revokeParts) s (reprice cause s) :=
  within_reprice_of (by decide) fun _ _ _ => within_passWalk.mono (by decide)

theorem within_reprice_idle {cause : Nat} (h : s.adm.items = []) : Within priceParts s (reprice cause s) :=
  within_reprice_of (fun _ hp => hp) fun u caps hu => by rw [hu, h]; exact within_refl

/-! ### Zones -/

theorem within_modZone {f : Zone → Zone} : Within [.thermal] s (modZone z f s) := within_of_eq rfl (by decide)
theorem within_modSensor {f : Sensor → Sensor} : Within [.thermal] s (modSensor x f s) := within_of_eq rfl (by decide)




theorem zoneOf_modZone_field {α : Type} {f : Zone → Zone} {g : Zone → α} (hg : ∀ o, g (f o) = g o) :
    g (zoneOf (modZone z f s) y) = g (zoneOf s y) := by
  by_cases hy : y = z
  · subst hy
    by_cases hlen : y < s.thermal.zones.length
    · rw [zoneOf_modZone_same hlen, hg]
    · have hsame : modZone y f s = s := by rw [modZone, upd, List.modify_eq_self (by omega)]
      rw [hsame]
  · rw [zoneOf_modZone_ne hy]




theorem upd_congr {α : Type} {l : List α} {i : Nat} {f g : α → α} {e : α} (h : f (l.getD i e) = g (l.getD i e)) : upd l i f = upd l i g := by
  by_cases hi : i < l.length
  · have hget : l.getD i e = l[i] := by simp [hi]
    rw [hget] at h
    simp only [upd, List.modify_eq_set_getElem?, List.getElem?_eq_getElem hi, Option.map_eq_map, Option.map_some, h]
  · rw [upd, upd, List.modify_eq_self (by omega), List.modify_eq_self (by omega)]

theorem upd_upd {α : Type} {l : List α} {i : Nat} {f g : α → α} : upd (upd l i f) i g = upd l i fun a => g (f a) := by
  simp only [upd, List.modify_modify_eq]
  rfl

theorem upd_id {α : Type} {l : List α} {i : Nat} : upd l i (fun a => a) = l := List.modify_id i l

/-! ### θ -/

/-- What a change of θ reaches. -/
def thetaParts : List StatePart := [.thermal, .adm, .caps] ++ revokeParts

theorem setTheta_thermal {v : Nat} : (setTheta z v s).thermal = { s.thermal with zones := upd s.thermal.zones z fun y => { y with theta := v } } := by
  unfold setTheta
  dsimp only
  split
  next h =>
    have hsame : upd s.thermal.zones z (fun y => { y with theta := v }) = s.thermal.zones := by
      refine (upd_congr (e := Reset.zone) ?_).trans upd_id
      rw [← h]
      rfl
    rw [hsame]
  next => exact (within_reprice .thermal (by decide)).trans (within_recordAt (s := modZone z (fun y => { y with theta := v }) s) .thermal (by decide))

theorem within_setTheta_of {v : Nat} (hm : ∀ p ∈ [StatePart.thermal, .ledger], p ∈ m)
    (hprice : ∀ u : State, u.adm.items = s.adm.items → Within m u (reprice 2 u)) : Within m s (setTheta z v s) := by
  unfold setTheta
  refine within_ite within_refl ?_
  have hzone : Within [.thermal, .ledger] s (record 0x2C 0x1503 (u8 z ++ u8 0 ++ u16 (zoneOf s z).theta ++ u16 v ++ u16 0 ++ s32 (zoneTemp s z))
      (modZone z (fun y => { y with theta := v }) s)) := Within.then (within_modZone.mono (by decide)) (within_recordAt.mono (by decide))
  exact (hzone.mono hm).then (hprice _ (hzone .items (by decide)))

theorem within_setTheta {v : Nat} : Within thetaParts s (setTheta z v s) :=
  within_setTheta_of (by decide) fun _ _ => within_reprice.mono (by decide)

theorem within_setTheta_idle {v : Nat} (h : s.adm.items = []) : Within [.thermal, .adm, .caps, .ledger] s (setTheta z v s) :=
  within_setTheta_of (by decide) fun _ hu => (within_reprice_idle (hu.trans h)).mono (by decide)

/-- A change of θ after a change of its zone. -/
theorem zoneTheta_frame {f : Zone → Zone} {v : Nat} : let t := setTheta z v (modZone z f (tick dt s))
    t.thermal = { s.thermal with zones := upd s.thermal.zones z fun y => { f y with theta := v } } ∧ t.hbm = s.hbm ∧ t.power = s.power ∧
      t.ports = s.ports ∧ t.time = (tick dt s).time ∧ (s.adm.items = [] → t.heads = s.heads ∧ t.gheler = s.gheler) := by
  have hzone : Within [.thermal] (tick dt s) (modZone z f (tick dt s)) := within_modZone
  have hall := within_trans (within_trans within_tick hzone) (within_setTheta (z := z) (v := v))
  refine ⟨setTheta_thermal.trans ?_, hall.apply State.hbm rfl, hall.apply State.power rfl, hall.apply State.ports rfl,
    (within_trans hzone within_setTheta).apply State.time rfl, fun hitems => ?_⟩
  · exact congrArg (fun l => { s.thermal with zones := l }) upd_upd
  · have hidle := within_trans (within_trans within_tick hzone) (within_setTheta_idle (z := z) (v := v) hitems)
    exact ⟨hidle.apply State.heads rfl, hidle.apply State.gheler rfl⟩

theorem thetaFall_waits {w : Nat} (habove : (zoneOf s z).thrAbove = some w) (h : s.now < w + 100 * msec) : thetaFall z s = s := by
  unfold thetaFall
  dsimp only
  rw [habove, Option.any_some, decide_eq_false (by omega)]
  rfl

theorem thetaFall_falls {w : Nat} (habove : (zoneOf s z).thrAbove = some w) (h : w + 100 * msec ≤ s.now) :
    thetaFall z s = setTheta z (max 128 ((zoneOf s z).theta - 32)) (modZone z (fun y => { y with thrAbove := some s.now }) s) := by
  unfold thetaFall
  dsimp only
  rw [habove, Option.any_some, decide_eq_true h]
  rfl

theorem thetaRise_waits {w : Nat} (hbelow : (zoneOf s z).thrBelow = some w) (h : s.now < w + sec) : thetaRise z s = s := by
  unfold thetaRise
  dsimp only
  rw [hbelow, Option.any_some, decide_eq_false (by omega)]
  rfl

theorem thetaRise_rises {w : Nat} (hbelow : (zoneOf s z).thrBelow = some w) (h : w + sec ≤ s.now) :
    thetaRise z s = setTheta z (min 256 ((zoneOf s z).theta + 32)) (modZone z (fun y => { y with
      reached := false, thrBelow := if min 256 ((zoneOf s z).theta + 32) = 256 then none else some s.now }) s) := by
  unfold thetaRise
  dsimp only
  rw [hbelow, Option.any_some, decide_eq_true h]
  rfl

theorem throttleDecay_clause {w : Nat} (habove : (zoneOf s z).thrAbove = some w) :
    ((tick dt s).now < w + 100 * msec → exec (.throttleDecay dt z) s = .next (tick dt s)) ∧
    (w + 100 * msec ≤ (tick dt s).now → ∃ t, exec (.throttleDecay dt z) s = .next t ∧
      t.thermal = { s.thermal with zones := upd s.thermal.zones z fun y => { y with
        thrAbove := some (tick dt s).now, theta := max 128 (y.theta - 32) } } ∧ t.hbm = s.hbm ∧ t.power = s.power ∧
      t.ports = s.ports ∧ t.time = (tick dt s).time ∧ (s.adm.items = [] → t.heads = s.heads ∧ t.gheler = s.gheler)) := by
  refine ⟨fun h => congrArg Host.Outcome.next (thetaFall_waits (s := tick dt s) habove h), fun h => ?_⟩
  obtain ⟨hthermal, hrest⟩ := zoneTheta_frame (s := s) (dt := dt) (z := z) (f := fun y => { y with thrAbove := some (tick dt s).now })
    (v := max 128 ((zoneOf s z).theta - 32))
  have hzones : (upd s.thermal.zones z fun y => { y with thrAbove := some (tick dt s).now, theta := max 128 ((zoneOf s z).theta - 32) }) =
      upd s.thermal.zones z fun y => { y with thrAbove := some (tick dt s).now, theta := max 128 (y.theta - 32) } :=
    upd_congr (e := Reset.zone) rfl
  exact ⟨_, congrArg Host.Outcome.next (thetaFall_falls (s := tick dt s) habove h),
    hthermal.trans (congrArg (fun l => { s.thermal with zones := l }) hzones), hrest⟩

theorem throttleRecover_clause (hz : z < s.thermal.zones.length) {w : Nat} (hbelow : (zoneOf s z).thrBelow = some w) :
    ((tick dt s).now < w + sec → exec (.throttleRecover dt z) s = .next (tick dt s)) ∧
    (w + sec ≤ (tick dt s).now → (zoneOf s z).theta < 256 → ∃ t, exec (.throttleRecover dt z) s = .next t ∧
      (zoneOf t z).theta = min 256 ((zoneOf s z).theta + 32) ∧ (zoneOf t z).reached = false ∧
      (∀ w, w ≠ z → zoneOf t w = zoneOf s w) ∧ t.hbm = s.hbm ∧ t.power = s.power ∧ t.ports = s.ports ∧ t.time = (tick dt s).time ∧
      (s.adm.items = [] → t.heads = s.heads ∧ t.gheler = s.gheler)) := by
  refine ⟨fun h => congrArg Host.Outcome.next (thetaRise_waits (s := tick dt s) hbelow h), fun h _ => ?_⟩
  obtain ⟨hthermal, hrest⟩ := zoneTheta_frame (s := s) (dt := dt) (z := z) (f := fun y => { y with
    reached := false, thrBelow := if min 256 ((zoneOf s z).theta + 32) = 256 then none else some (tick dt s).now })
    (v := min 256 ((zoneOf s z).theta + 32))
  have hzone : ∀ w, zoneOf (setTheta z (min 256 ((zoneOf s z).theta + 32)) (modZone z (fun y => { y with
      reached := false, thrBelow := if min 256 ((zoneOf s z).theta + 32) = 256 then none else some (tick dt s).now }) (tick dt s))) w =
      zoneOf (modZone z (fun y => { y with
        reached := false, thrBelow := (if min 256 ((zoneOf s z).theta + 32) = 256 then none else some (tick dt s).now),
        theta := min 256 ((zoneOf s z).theta + 32) }) s) w := fun w => congrArg (fun h : Thermal => h.zones.getD w Reset.zone) hthermal
  refine ⟨_, congrArg Host.Outcome.next (thetaRise_rises (s := tick dt s) hbelow h), ?_, ?_, fun w hw => ?_, hrest⟩
  · exact (congrArg Zone.theta (hzone z)).trans (congrArg Zone.theta (zoneOf_modZone_same hz))
  · exact (congrArg Zone.reached (hzone z)).trans (congrArg Zone.reached (zoneOf_modZone_same hz))
  · exact (hzone w).trans (zoneOf_modZone_ne hw)

/-! ### Warnings and LATCH clear -/

theorem thermWarnClear_clause {w : Nat} (hwarn : (zoneOf s z).warn = true) (hbelow : (zoneOf s z).warnBelow = some w)
    (h : w + 100 * msec ≤ (tick dt s).now) : ∃ t, exec (.thermWarnClear dt z) s = .next t ∧
      t.thermal = { s.thermal with zones := upd s.thermal.zones z fun y => { y with warn := false, warnBelow := none } } ∧
      OnlyRecords { s with thermal := t.thermal } t := by
  have hform : warnClear z (tick dt s) = record 0x2C 0x1502 (u8 z) (modZone z (fun y => { y with warn := false, warnBelow := none }) (tick dt s)) := by
    unfold warnClear
    dsimp only
    rw [show zoneOf (tick dt s) z = zoneOf s z from rfl, hwarn, hbelow, Option.any_some, decide_eq_true h]
    rfl
  have hzone : Within [.thermal] (tick dt s) (modZone z (fun y => { y with warn := false, warnBelow := none }) (tick dt s)) := within_modZone
  have hrec := within_recordAt (s := modZone z (fun y => { y with warn := false, warnBelow := none }) (tick dt s)) (pf1 := false)
    (at_ := (tick dt s).now) (unit := 0x2C) (event := 0x1502) (det := u8 z)
  refine ⟨_, congrArg Host.Outcome.next hform, hrec .thermal (by decide), ?_⟩
  exact onlyRecords_patch (m := [.thermal]) ((within_trans (within_trans within_tick hzone) hrec).mono (by decide)) (by decide)

theorem thermLatchClear_clause {w : Nat} (hlatch : s.thermal.latch = true) (hbelow : s.thermal.latchBelow = some w)
    (h : w + 10 * sec ≤ (tick dt s).now) : ∃ t, exec (.thermLatchClear dt) s = .next t ∧
      t = { tick dt s with thermal := { s.thermal with latch := false, latchBelow := none }, ledger := t.ledger } ∧
      (∃ r, t.ledger.saved = s.ledger.saved ++ [r] ∧ r.event = 0x1508 ∧ r.saved = true) := by
  have hform : latchClear (tick dt s) = recordSaved 0x2C 0x1508 (u64 s.thermal.trip) { tick dt s with
      thermal := { s.thermal with latch := false, latchBelow := none } } := by
    unfold latchClear
    dsimp only
    rw [show (tick dt s).thermal = s.thermal from rfl, hlatch, hbelow, Option.any_some, decide_eq_true h]
    rfl
  exact ⟨_, congrArg Host.Outcome.next hform, rfl, _, rfl, rfl, rfl⟩

/-! ### THM_READ -/

theorem thmReadAct_sensor (h : d.p8 16 < 44) : thmReadAct d s = complete d 0
    (thmDetail (sensorOf s (d.p8 16)).temp (bit (suspect s (d.p8 16))) (sensorOf s (d.p8 16)).stamp s) s := by
  unfold thmReadAct
  dsimp only
  rw [if_pos h]

theorem thmReadAct_zone (h1 : 0x40 ≤ d.p8 16) (h2 : d.p8 16 < 0x48) : thmReadAct d s = complete d 0
    (thmDetail (zoneTemp s (d.p8 16 - 0x40)) (2 * bit (zoneOf s (d.p8 16 - 0x40)).blind) (zoneStamp s (d.p8 16 - 0x40)) s) s := by
  unfold thmReadAct
  dsimp only
  rw [if_neg (show ¬ d.p8 16 < 44 by omega), if_pos (show d.p8 16 < 0x50 by omega)]

theorem thmReadAct_carrier {y : Carrier} (h : 0x50 ≤ d.p8 16) (hy : s.thermal.carriers[d.p8 16 - 0x50]? = some y) :
    thmReadAct d s = complete d 0 (thmDetail y.temp (4 * bit y.fault.isSome) y.stamp s) s := by
  unfold thmReadAct
  dsimp only
  rw [if_neg (show ¬ d.p8 16 < 44 by omega), if_neg (show ¬ d.p8 16 < 0x50 by omega), hy]

theorem thmRead_clause (hrun : Runs (.thmRead dt d) s) : let x := d.trunc; let b := begun d d.trunc (tick dt s); let c := d.trunc.p8 16
    (c < 44 → exec (.thmRead dt d) s = .next (complete x 0
      (thmDetail (sensorOf s c).temp (bit (suspect s c)) (sensorOf s c).stamp b) b)) ∧
    (0x40 ≤ c → c < 0x48 → exec (.thmRead dt d) s = .next (complete x 0
      (thmDetail (zoneTemp s (c - 0x40)) (2 * bit (zoneOf s (c - 0x40)).blind) (zoneStamp s (c - 0x40)) b) b)) ∧
    (∀ y, 0x50 ≤ c → s.thermal.carriers[c - 0x50]? = some y → exec (.thmRead dt d) s = .next (complete x 0
      (thmDetail y.temp (4 * bit y.fault.isSome) y.stamp b) b)) := by
  intro x b c
  have hexec : exec (.thmRead dt d) s = .next (thmReadAct x b) := congrArg Host.Outcome.next (runDesc_accepted hrun)
  have hsensor : sensorOf b c = sensorOf s c := begun_apply (sensorOf · c) rfl
  have hsuspect : suspect b c = suspect s c := begun_apply (suspect · c) rfl
  have htemp : zoneTemp b (c - 0x40) = zoneTemp s (c - 0x40) := begun_apply (zoneTemp · (c - 0x40)) rfl
  have hzone : zoneOf b (c - 0x40) = zoneOf s (c - 0x40) := begun_apply (zoneOf · (c - 0x40)) rfl
  have hstamp : zoneStamp b (c - 0x40) = zoneStamp s (c - 0x40) := begun_apply (zoneStamp · (c - 0x40)) rfl
  have hthermal : b.thermal = s.thermal := begun_apply State.thermal rfl
  refine ⟨fun h => ?_, fun h1 h2 => ?_, fun y h hy => ?_⟩
  · rw [hexec, thmReadAct_sensor h, hsensor, hsuspect]
  · rw [hexec, thmReadAct_zone h1 h2, htemp, hzone, hstamp]
  · rw [hexec, thmReadAct_carrier h (by rw [hthermal]; exact hy)]

/-! ### What readings reach -/

theorem within_crossCheck : Within [.thermal, .ledger] s (crossCheck x temp s) := by
  unfold crossCheck
  split
  · exact within_refl
  · have hmod : ∀ f : Sensor → Sensor, Within [.thermal, .ledger] s (modSensor x f s) := fun _ => within_modSensor.mono (by decide)
    exact within_ite ((hmod _).then (within_recordAt.mono (by decide))) (hmod _)

theorem crossCheck_idle (h : neighbourMedian s x = none) : crossCheck x temp s = s := by
  unfold crossCheck
  rw [h]

theorem within_blindStep : Within [.thermal, .ledger] s (blindStep z s) :=
  within_ite (Within.then (within_modZone.mono (by decide)) (within_recordAt.mono (by decide))) within_refl

theorem within_latchStep : Within [.thermal] s (latchStep s) := within_of_eq rfl (by decide)

theorem within_warnStep : Within [.thermal, .causes, .ledger, .out] s (warnStep z x temp s) := by
  unfold warnStep
  dsimp only
  have hmod : ∀ f : Zone → Zone, Within [.thermal, .causes, .ledger, .out] s (modZone z f s) := fun _ => within_modZone.mono (by decide)
  exact within_ite (((hmod _).then (within_recordAt.mono (by decide))).then (within_raiseCause.mono (by decide))) (hmod _)

theorem within_throttleStep : Within thetaParts s (throttleStep z temp s) := by
  unfold throttleStep
  dsimp only
  have hmod : ∀ f : Zone → Zone, Within thetaParts s (modZone z f s) := fun _ => within_modZone.mono (by decide)
  exact within_ite (((hmod _).then within_setTheta).then (within_raiseCause.mono (by decide))) (hmod _)

theorem throttleStep_below (h : temp < limitOf z 1) : Within [.thermal] s (throttleStep z temp s) := by
  unfold throttleStep
  dsimp only
  rw [decide_eq_false (by omega), Bool.false_and, if_neg Bool.false_ne_true]
  exact within_modZone

/-! ### What readings leave of the sensors -/

/-- The readings of the sensors stand. -/
def ReadingsKept (s t : State) : Prop := ∀ y, (sensorOf t y).temp = (sensorOf s y).temp ∧ (sensorOf t y).stamp = (sensorOf s y).stamp ∧
  (sensorOf t y).seen = (sensorOf s y).seen

theorem ReadingsKept.then (h1 : ReadingsKept s t) (h2 : ReadingsKept t u) : ReadingsKept s u := fun y => by
  obtain ⟨ht1, hs1, hn1⟩ := h1 y
  obtain ⟨ht2, hs2, hn2⟩ := h2 y
  exact ⟨ht2.trans ht1, hs2.trans hs1, hn2.trans hn1⟩

theorem readingsKept_refl : ReadingsKept s s := fun _ => ⟨rfl, rfl, rfl⟩

theorem readingsKept_of_sensors (h : t.thermal.sensors = s.thermal.sensors) : ReadingsKept s t := fun y => by
  simp only [sensorOf, h, and_self]

theorem Within.readingsKept (h : Within m s t) (hm : .thermal ∉ m) : ReadingsKept s t :=
  readingsKept_of_sensors (congrArg Thermal.sensors (h .thermal hm))

theorem sensorOf_modSensor_field {α : Type} {f : Sensor → Sensor} {g : Sensor → α} (hg : ∀ o, g (f o) = g o) :
    g (sensorOf (modSensor x f s) y) = g (sensorOf s y) := by
  by_cases hy : y = x
  · subst hy
    by_cases hlen : y < s.thermal.sensors.length
    · rw [sensorOf_modSensor_same hlen, hg]
    · have hsame : modSensor y f s = s := by rw [modSensor, upd, List.modify_eq_self (by omega)]
      rw [hsame]
  · rw [sensorOf_modSensor_ne hy]

theorem readingsKept_modSensor {f : Sensor → Sensor} (hf : ∀ o, (f o).temp = o.temp ∧ (f o).stamp = o.stamp ∧ (f o).seen = o.seen) :
    ReadingsKept s (modSensor x f s) := fun _ => ⟨sensorOf_modSensor_field (g := Sensor.temp) fun o => (hf o).1,
  sensorOf_modSensor_field (g := Sensor.stamp) fun o => (hf o).2.1, sensorOf_modSensor_field (g := Sensor.seen) fun o => (hf o).2.2⟩

theorem readingsKept_ite {p : Prop} [Decidable p] {a b : State} (ha : ReadingsKept s a) (hb : ReadingsKept s b) :
    ReadingsKept s (if p then a else b) := by
  split
  · exact ha
  · exact hb

theorem readingsKept_modZone {f : Zone → Zone} : ReadingsKept s (modZone z f s) := readingsKept_of_sensors rfl

theorem readingsKept_record {unit event : Nat} {det : List Byte} : ReadingsKept s (record unit event det s) :=
  within_recordAt.readingsKept (by decide)

theorem readingsKept_crossCheck : ReadingsKept s (crossCheck x temp s) := by
  unfold crossCheck
  split
  · exact readingsKept_refl
  · have hmod : ∀ n, ReadingsKept s (modSensor x (fun y => { y with deviant := n, suspect := y.suspect || n == 16 }) s) := fun _ =>
      readingsKept_modSensor fun _ => ⟨rfl, rfl, rfl⟩
    dsimp only
    exact readingsKept_ite ((hmod _).then readingsKept_record) (hmod _)

theorem readingsKept_blindStep : ReadingsKept s (blindStep z s) := by
  have hmod : ∀ f : Zone → Zone, ReadingsKept s (modZone z f s) := fun _ => readingsKept_modZone
  unfold blindStep
  exact readingsKept_ite ((hmod _).then readingsKept_record) readingsKept_refl

theorem readingsKept_raiseCause {pf1 : Bool} {b : Nat} : ReadingsKept s (raiseCause pf1 b s) :=
  within_raiseCause.readingsKept (by decide)

theorem readingsKept_warnStep : ReadingsKept s (warnStep z x temp s) := by
  unfold warnStep
  dsimp only
  have hmod : ∀ f : Zone → Zone, ReadingsKept s (modZone z f s) := fun _ => readingsKept_modZone
  exact readingsKept_ite (((hmod _).then readingsKept_record).then readingsKept_raiseCause) (hmod _)

theorem readingsKept_setTheta {v : Nat} : ReadingsKept s (setTheta z v s) := readingsKept_of_sensors (by rw [setTheta_thermal])

theorem readingsKept_throttleStep : ReadingsKept s (throttleStep z temp s) := by
  unfold throttleStep
  dsimp only
  have hmod : ∀ f : Zone → Zone, ReadingsKept s (modZone z f s) := fun _ => readingsKept_modZone
  exact readingsKept_ite (((hmod _).then readingsKept_setTheta).then readingsKept_raiseCause) (hmod _)

/-! ### The hard trip (R494) -/

/-- The work of a hard trip, before the module is in standby. -/
def tripWork (z x : Nat) (temp : Int) (s : State) : State := recordSaved 0x2C 0x1505 (u8 z ++ u8 x ++ u16 0 ++ s32 temp) (allOff 7 s)

theorem within_tripWork : Within (.saved :: loopParts) s (tripWork z x temp s) :=
  Within.then (within_allOff.mono (by decide)) (within_recordSaved.mono (by decide))

theorem hardTrip_frame : let t := hardTrip z x temp s
    t.thermal.sensors = s.thermal.sensors ∧ t.thermal.latch = true ∧ t.thermal.trip = s.now ∧ t.power.state = .p3 ∧
      t.power.stop = none ∧ enabledChans t = [] ∧ t.now = s.now := by
  have hwork : Within (.saved :: loopParts) s (tripWork z x temp s) := within_tripWork
  have hsensors : (tripWork z x temp s).thermal.sensors = s.thermal.sensors := congrArg Thermal.sensors (hwork .thermal (by decide))
  have hdark : ∀ u : State, u.gheler.chans = Reset.gheler.chans → enabledChans u = [] := fun u hu => by
    simp only [enabledChans, chanOf, hu]
    decide
  exact ⟨hsensors, rfl, hwork .now (by decide), rfl, rfl, hdark _ rfl, hwork .now (by decide)⟩

theorem readingsKept_hardTrip : ReadingsKept s (hardTrip z x temp s) := by
  obtain ⟨hsensors, -⟩ := hardTrip_frame (z := z) (x := x) (temp := temp) (s := s)
  exact readingsKept_of_sensors hsensors

theorem within_beginStop4 {why : StopCause} {quiet : Bool} {cause : Nat} (h : s.power.stop = none) :
    Within (.power :: stopParts) s (beginStop4 why quiet cause s) := by
  rw [beginStop4_idle h]
  have hnote : Within [.power] (leaveP2 s) (noteStop why (leaveP2 s)) := within_of_eq rfl (by decide)
  exact (Within.then (within_leaveP2_stop.mono (by decide)) (hnote.mono (by decide))).then (within_stopRest.mono (by decide))

theorem readingsKept_criticalStep : ReadingsKept s (criticalStep z x temp s) := by
  unfold criticalStep
  dsimp only
  split
  · split
    · exact readingsKept_modZone
    next h =>
      refine (readingsKept_modZone.then readingsKept_record).then ((within_beginStop4 ?_).readingsKept (by decide))
      have hrec : (record 0x2C 0x1504 (u8 z ++ s32 temp ++ s32 (riseRate s x temp) ++ u32 (tripTime z temp (riseRate s x temp)) ++ u8 0)
        (modZone z (fun y => { y with critical := true }) s)).power = (modZone z (fun y => { y with critical := true }) s).power :=
        within_recordAt.apply State.power rfl
      rw [hrec]
      exact Option.not_isSome_iff_eq_none.1 h
  · exact (readingsKept_modZone.then readingsKept_record).then readingsKept_hardTrip

theorem readingsKept_compareZone : ReadingsKept s (compareZone z x s) := by
  have hrate : ∀ (l : Int) u, ReadingsKept u (modSensor x (fun y => { y with hist := (l :: y.hist).take 20 }) u) := fun _ _ =>
    readingsKept_modSensor fun _ => ⟨rfl, rfl, rfl⟩
  unfold compareZone
  dsimp only
  have hsteps := (readingsKept_blindStep (z := z) (s := s)).then
    ((readingsKept_warnStep (z := z) (x := x) (temp := zoneTemp s z)).then (readingsKept_throttleStep (z := z) (temp := zoneTemp s z)))
  refine readingsKept_ite (hsteps.then (hrate _ _)) (readingsKept_ite (readingsKept_ite hsteps (hsteps.then readingsKept_hardTrip))
    (readingsKept_ite (readingsKept_ite (hsteps.then (hrate _ _)) ((hsteps.then readingsKept_criticalStep).then (hrate _ _))) ?_))
  exact (hsteps.then readingsKept_modZone).then (hrate _ _)

theorem within_modHbm {f : Hbm → Hbm} (hf : ∀ h, (f h).cells = h.cells ∧ (f h).lanes = h.lanes ∧ (f h).selfRef = h.selfRef) :
    Within [.hbm] s (modHbm f s) := by
  obtain ⟨hcells, hlanes, hself⟩ := hf s.hbm
  refine within_of_eq ?_ (by decide)
  show { s with hbm := f s.hbm } = { s with hbm := { f s.hbm with cells := s.hbm.cells, lanes := s.hbm.lanes, selfRef := s.hbm.selfRef } }
  rw [← hcells, ← hlanes, ← hself]

theorem within_modHbm_told {f : Hbm → Hbm} (hf : ∀ h, (f h).cells = h.cells ∧ (f h).lanes = h.lanes ∧ (f h).selfRef = h.selfRef) :
    Within [.hbm, .ledger] s (modHbm f s) := (within_modHbm hf).mono (by decide)

theorem within_setDoubled {n : Nat} {on : Bool} : Within [.hbm, .ledger] s (setDoubled n on s) := by
  unfold setDoubled
  extract_lets mine most u v
  have hu : Within [.hbm, .ledger] s u :=
    within_ite (within_modHbm_told fun _ => ⟨rfl, rfl, rfl⟩) within_refl
  have hv : Within [.hbm, .ledger] s v := hu.then (within_modHbm_told fun _ => ⟨rfl, rfl, rfl⟩)
  exact hv.then (within_recordAt.mono (by decide))

theorem within_refreshMode {n : Nat} : Within [.hbm, .ledger] s (refreshMode n s) := by
  unfold refreshMode
  extract_lets x' cool since u
  have hu : Within [.hbm, .ledger] s u := within_modHbm_told fun _ => ⟨rfl, rfl, rfl⟩
  refine within_ite within_refl (within_ite hu (within_ite ?_ ?_))
  · exact within_ite (hu.then within_setDoubled) hu
  · exact within_ite (hu.then within_setDoubled) hu

/-! ### Readings -/

/-- A reading, kept by its sensor. -/
def readingOf (temp : Int) (now : Nat) (o : Sensor) : Sensor :=
  { o with temp := temp, stamp := now, seen := true, hist := if now ≤ o.stamp + 51 * usec then o.hist else [] }

/-- What the end of a reading does: LATCH's time and the service state. -/
def readEnd (x : Nat) (s : State) : State := serviceStep (latchStep (if x = 32 ∨ x = 33 then refreshMode (x - 32) s else s))

theorem readSensor_eq : readSensor x temp s = (let u := modSensor x (readingOf temp (crossCheck x temp s).now) (crossCheck x temp s)
    readEnd x (if u.power.state = .p3 ∨ u.power.state = .p4 then blindStep (sensorZone x) u else compareZone (sensorZone x) x u)) := rfl

theorem readingsKept_readEnd : ReadingsKept s (readEnd x s) := by
  have hrefresh : ReadingsKept s (if x = 32 ∨ x = 33 then refreshMode (x - 32) s else s) :=
    readingsKept_ite (within_refreshMode.readingsKept (by decide)) readingsKept_refl
  have hlatch : ∀ u, ReadingsKept u (latchStep u) := fun _ => readingsKept_of_sensors rfl
  exact (hrefresh.then (hlatch _)).then (within_serviceStep.readingsKept (by decide))

theorem exec_sensorReading {f : Option Nat} (hx : x < 44) : exec (.sensorReading dt x temp f) s = .next (readSensor x temp (tick dt s)) :=
  congrArg Host.Outcome.next (if_pos hx)

theorem modSensor_length {f : Sensor → Sensor} : (modSensor x f s).thermal.sensors.length = s.thermal.sensors.length := by
  simp [modSensor, upd]

theorem crossCheck_length : (crossCheck x temp s).thermal.sensors.length = s.thermal.sensors.length := by
  have hlen : ∀ p : Prop, [Decidable p] → ∀ (f : Sensor → Sensor) (det : List Byte),
      (if p then record 0x2C 0x1506 det (modSensor x f s) else modSensor x f s).thermal.sensors.length = s.thermal.sensors.length := by
    intro p _ f det
    have hrec : (record 0x2C 0x1506 det (modSensor x f s)).thermal = (modSensor x f s).thermal := within_recordAt.apply State.thermal rfl
    split
    · rw [hrec, modSensor_length]
    · exact modSensor_length
  unfold crossCheck
  split
  · rfl
  · exact hlen _ _ _

theorem readSensor_kept (hx : x < s.thermal.sensors.length) : let t := readSensor x temp s
    (sensorOf t x).temp = temp ∧ (sensorOf t x).stamp = s.now ∧ (sensorOf t x).seen = true ∧
      (∀ y, y ≠ x → (sensorOf t y).temp = (sensorOf s y).temp) := by
  have hcheck := readingsKept_crossCheck (x := x) (temp := temp) (s := s)
  have hnow : (crossCheck x temp s).now = s.now := within_crossCheck .now (by decide)
  have hlen : x < (crossCheck x temp s).thermal.sensors.length := by rw [crossCheck_length]; exact hx
  have hread := sensorOf_modSensor_same (f := readingOf temp (crossCheck x temp s).now) hlen
  have hzone : ∀ u : State, ReadingsKept u (if u.power.state = .p3 ∨ u.power.state = .p4 then blindStep (sensorZone x) u
      else compareZone (sensorZone x) x u) := fun u => readingsKept_ite readingsKept_blindStep readingsKept_compareZone
  have hall := (hzone (modSensor x (readingOf temp (crossCheck x temp s).now) (crossCheck x temp s))).then (readingsKept_readEnd (x := x))
  dsimp only
  rw [readSensor_eq]
  obtain ⟨htemp, hstamp, hseen⟩ := hall x
  rw [hread] at htemp hstamp hseen
  refine ⟨htemp, hstamp.trans hnow, hseen, fun y hy => ?_⟩
  obtain ⟨htemp', -, -⟩ := hall y
  exact htemp'.trans ((congrArg Sensor.temp (sensorOf_modSensor_ne hy)).trans (hcheck y).1)

/-- In P3 and P4 a reading of a sensor outside the stacks changes only what is sensed and told. -/
theorem readSensor_standby (hx : x < 32) (h : s.power.state = .p3 ∨ s.power.state = .p4) :
    Within [.thermal, .wear, .ledger] s (readSensor x temp s) := by
  have hcheck : Within [.thermal, .wear, .ledger] s (modSensor x (readingOf temp (crossCheck x temp s).now) (crossCheck x temp s)) :=
    (within_crossCheck.mono (by decide)).then (within_modSensor.mono (by decide))
  have hstate : (modSensor x (readingOf temp (crossCheck x temp s).now) (crossCheck x temp s)).power.state = s.power.state :=
    hcheck .pstate (by decide)
  rw [readSensor_eq]
  dsimp only
  rw [if_pos (hstate ▸ h), readEnd, if_neg (by omega)]
  exact ((hcheck.then (within_blindStep.mono (by decide))).then (within_latchStep.mono (by decide))).then (within_serviceStep.mono (by decide))

/-! ### Readings that set the temperature of their zone -/

theorem sensor_in_zone : ∀ x < 44, x ∈ zoneSensors (sensorZone x) ∧ sensorZone x < 8 := by decide

theorem limits_rise : ∀ z < 8, limitOf z 0 < limitOf z 1 ∧ limitOf z 1 < limitOf z 2 ∧ limitOf z 2 < limitOf z 3 := by decide

theorem foldl_max_eq {l : List Int} {a b : Int} (ha : a ≤ b) (hl : ∀ c ∈ l, c ≤ b) (h : a = b ∨ b ∈ l) : l.foldl max a = b := by
  induction l generalizing a with
  | nil => exact h.resolve_right List.not_mem_nil
  | cons c l ih =>
    have hc := hl c List.mem_cons_self
    refine ih (max_le ha hc) (fun e he => hl e (List.mem_cons_of_mem _ he)) ?_
    rcases h with rfl | h
    · exact Or.inl (max_eq_left hc)
    · rcases List.mem_cons.1 h with rfl | h
      · exact Or.inl (max_eq_right ha)
      · exact Or.inr h

theorem hottest_eq {l : List Int} (hl : ∀ c ∈ l, c ≤ temp) (hmem : temp ∈ l) : hottest l = some temp := by
  cases l with
  | nil => exact absurd hmem List.not_mem_nil
  | cons c l =>
    refine congrArg some (foldl_max_eq (hl c List.mem_cons_self) (fun e he => hl e (List.mem_cons_of_mem _ he)) ?_)
    exact (List.mem_cons.1 hmem).imp Eq.symm id

/-- A reading that no trusted sensor of the zone exceeds is the zone's temperature. -/
theorem zoneTemp_reading (hx : x ∈ zoneSensors z) (hlen : x < s.thermal.sensors.length)
    (hall : ∀ y ∈ zoneSensors z, suspect s y = false ∧ (sensorOf s y).temp ≤ temp) {n : Nat} :
    zoneTemp (modSensor x (readingOf temp n) s) z = temp ∧ (zoneSensors z).all (suspect (modSensor x (readingOf temp n) s)) = false := by
  have hsame := sensorOf_modSensor_same (f := readingOf temp n) hlen
  have hsuspect : ∀ y, suspect (modSensor x (readingOf temp n) s) y = suspect s y := fun y =>
    sensorOf_modSensor_field (g := Sensor.suspect) fun _ => rfl
  have hnot : (zoneSensors z).all (suspect (modSensor x (readingOf temp n) s)) = false :=
    List.all_eq_false.2 ⟨x, hx, by rw [hsuspect, (hall x hx).1]; exact Bool.false_ne_true⟩
  refine ⟨?_, hnot⟩
  unfold zoneTemp
  rw [hnot, if_neg Bool.false_ne_true]
  refine congrArg (fun o : Option Int => o.getD 0) (hottest_eq (fun c hc => ?_) ?_)
  · obtain ⟨y, hy, rfl⟩ := List.mem_map.1 hc
    by_cases hyx : y = x
    · rw [hyx, hsame]
      exact le_refl _
    · rw [sensorOf_modSensor_ne hyx]
      exact (hall y (List.mem_of_mem_filter hy)).2
  · refine List.mem_map.2 ⟨x, List.mem_filter.2 ⟨hx, ?_⟩, by rw [hsame]; rfl⟩
    rw [hsuspect, (hall x hx).1, hsame]
    rfl

/-! ### A reading below the throttle threshold -/

/-- Where a reading that sheds nothing reaches. -/
def coolParts : List StatePart := [.thermal, .causes, .ledger, .out]

/-- A warning below the throttle threshold changes what its zone senses, and is told. -/
theorem within_compareZone_cool (hz : z < 8) (h : zoneTemp s z < limitOf z 1) : Within coolParts s (compareZone z x s) := by
  obtain ⟨-, h12, h23⟩ := limits_rise z hz
  have hsteps : Within coolParts s (throttleStep z (zoneTemp s z) (warnStep z x (zoneTemp s z) (blindStep z s))) :=
    ((within_blindStep.mono (by decide)).then (within_warnStep.mono (by decide))).then ((throttleStep_below h).mono (by decide))
  have hrate : ∀ {u : State} {f : Sensor → Sensor}, Within coolParts u (modSensor x f u) := within_modSensor.mono (by decide)
  have hzone : ∀ {u : State} {f : Zone → Zone}, Within coolParts u (modZone z f u) := within_modZone.mono (by decide)
  unfold compareZone
  dsimp only
  rw [if_neg (show ¬ limitOf z 3 ≤ zoneTemp s z by omega), if_neg (show ¬ limitOf z 2 ≤ zoneTemp s z by omega)]
  exact within_ite (hsteps.then hrate) ((hsteps.then hzone).then hrate)

theorem within_told {unit event b : Nat} {det : List Byte} :
    Within [.ledger, .causes, .out] s (raiseCause false b (record unit event det s)) := by
  have hrec : Within [.ledger, .causes, .out] s (record unit event det s) := within_recordAt.mono (by decide)
  exact hrec.then (within_raiseCause.mono (by decide))

theorem modZone_warn {f : Zone → Zone} (hf : ∀ o, (f o).warn = o.warn) (h : (zoneOf s y).warn = true) : (zoneOf (modZone z f s) y).warn = true :=
  (zoneOf_modZone_field (g := Zone.warn) hf).trans h

theorem warnStep_warns (hz : z < s.thermal.zones.length) (h : limitOf z 0 ≤ temp) : (zoneOf (warnStep z x temp s) z).warn = true := by
  have hwarn : ∀ w : Zone → Option Nat, (zoneOf (modZone z (fun y => { y with
      warn := y.warn || (decide (limitOf z 0 ≤ temp) && !(zoneOf s z).warn), warnBelow := w y }) s) z).warn = true := fun w => by
    rw [zoneOf_modZone_same hz, decide_eq_true h]
    exact Bool.or_not_self _
  have htold : ∀ (u : State) det, (zoneOf (raiseCause false 17 (record 0x2C 0x1501 det u)) z).warn = (zoneOf u z).warn := fun u det =>
    within_told.apply (fun s => (zoneOf s z).warn) rfl
  unfold warnStep
  dsimp only
  split
  · rw [htold]
    exact hwarn fun _ => _
  · exact hwarn fun _ => _

theorem compareZone_warns (hz : z < s.thermal.zones.length) (hz8 : z < 8) (h0 : limitOf z 0 ≤ zoneTemp s z)
    (h1 : zoneTemp s z < limitOf z 1) : (zoneOf (compareZone z x s) z).warn = true := by
  obtain ⟨-, h12, h23⟩ := limits_rise z hz8
  have hlen : (blindStep z s).thermal.zones.length = s.thermal.zones.length := by
    have hrec : ∀ (u : State) det, (record 0x2C 0x1507 det u).thermal = u.thermal := fun u det => within_recordAt.apply State.thermal rfl
    unfold blindStep
    split
    · rw [hrec]
      simp [modZone, upd]
    · rfl
  have hwarn := warnStep_warns (x := x) (hlen ▸ hz) h0
  have hthrottle : (zoneOf (throttleStep z (zoneTemp s z) (warnStep z x (zoneTemp s z) (blindStep z s))) z).warn = true := by
    unfold throttleStep
    dsimp only
    rw [decide_eq_false (show ¬ limitOf z 1 ≤ zoneTemp s z by omega), Bool.false_and, if_neg Bool.false_ne_true]
    exact modZone_warn (fun _ => rfl) hwarn
  unfold compareZone
  dsimp only
  rw [if_neg (show ¬ limitOf z 3 ≤ zoneTemp s z by omega), if_neg (show ¬ limitOf z 2 ≤ zoneTemp s z by omega)]
  split
  · exact hthrottle
  · exact modZone_warn (s := throttleStep z (zoneTemp s z) (warnStep z x (zoneTemp s z) (blindStep z s))) (fun _ => rfl) hthrottle

/-- The service state changes the status and the causes of the wear record alone. -/
theorem serviceStep_wear : (serviceStep s).wear = { s.wear with status := (serviceStep s).wear.status, causes := (serviceStep s).wear.causes } := by
  have hrec : ∀ (u : State) det, (record 1 0x1801 det u).wear = u.wear := fun u det => within_recordAt.apply State.wear rfl
  have hwear : ∀ p : Prop, [Decidable p] → ∀ (a b : Nat) (det : List Byte), let u := { s with wear := { s.wear with status := a, causes := b } }
      (if p then u else record 1 0x1801 det u).wear = { s.wear with
        status := (if p then u else record 1 0x1801 det u).wear.status, causes := (if p then u else record 1 0x1801 det u).wear.causes } := by
    intro p _ a b det u
    split
    · rfl
    · rw [hrec]
  exact hwear _ _ _ _

/-- A reading in operation whose sensor none of its zone's exceeds, on a zone whose neighbours do not judge it. -/
theorem readSensor_operation (hmed : neighbourMedian s x = none) (h3 : s.power.state ≠ .p3) (h4 : s.power.state ≠ .p4) :
    readSensor x temp s = readEnd x (compareZone (sensorZone x) x (modSensor x (readingOf temp s.now) s)) := by
  rw [readSensor_eq, crossCheck_idle hmed]
  exact congrArg (readEnd x) (if_neg fun h => h.elim h3 h4)

theorem readSensor_cool (hmed : neighbourMedian s x = none) (h3 : s.power.state ≠ .p3) (h4 : s.power.state ≠ .p4)
    (hx : x < 44) (hlen : x < s.thermal.sensors.length)
    (hall : ∀ y ∈ zoneSensors (sensorZone x), suspect s y = false ∧ (sensorOf s y).temp ≤ temp) (hstack : x < 32 ∨ 34 ≤ x)
    (h : temp < limitOf (sensorZone x) 1) : let t := readSensor x temp (tick dt s)
    OnlyRecords { s with thermal := t.thermal, wear := { s.wear with status := t.wear.status, causes := t.wear.causes } } t := by
  obtain ⟨hin, hz8⟩ := sensor_in_zone x hx
  obtain ⟨htemp, -⟩ := zoneTemp_reading (s := tick dt s) (n := (tick dt s).now) hin hlen hall
  intro t
  have ht : t = serviceStep (latchStep (compareZone (sensorZone x) x (modSensor x (readingOf temp (tick dt s).now) (tick dt s)))) := by
    refine (readSensor_operation (s := tick dt s) hmed h3 h4).trans ?_
    rw [readEnd, if_neg (by omega)]
  have hread : Within coolParts (tick dt s) (modSensor x (readingOf temp (tick dt s).now) (tick dt s)) := within_modSensor.mono (by decide)
  have hzone := hread.then (within_compareZone_cool (x := x) hz8 (lt_of_eq_of_lt htemp h))
  have hlatch := within_trans within_tick (hzone.then (within_latchStep.mono (by decide)))
  have hwear : t.wear = { s.wear with status := t.wear.status, causes := t.wear.causes } := by
    have hkept := hlatch.apply State.wear rfl
    have hstep := serviceStep_wear (s := latchStep (compareZone (sensorZone x) x (modSensor x (readingOf temp (tick dt s).now) (tick dt s))))
    rw [hkept, ← ht] at hstep
    exact hstep
  have hall : Within ([.thermal, .wear] ++ (clockParts ++ [.causes, .ledger, .out])) s t :=
    ht ▸ ((within_trans hlatch within_serviceStep).mono (by decide))
  rw [← hwear]
  exact onlyRecords_patch hall (by decide)

theorem readSensor_warns (hmed : neighbourMedian s x = none) (h3 : s.power.state ≠ .p3) (h4 : s.power.state ≠ .p4)
    (hx : x < 44) (hlen : x < s.thermal.sensors.length) (hz : sensorZone x < s.thermal.zones.length)
    (hall : ∀ y ∈ zoneSensors (sensorZone x), suspect s y = false ∧ (sensorOf s y).temp ≤ temp) (hstack : x < 32 ∨ 34 ≤ x)
    (h0 : limitOf (sensorZone x) 0 ≤ temp) (h1 : temp < limitOf (sensorZone x) 1) :
    (zoneOf (readSensor x temp s) (sensorZone x)).warn = true := by
  obtain ⟨hin, hz8⟩ := sensor_in_zone x hx
  obtain ⟨htemp, -⟩ := zoneTemp_reading (n := s.now) hin hlen hall
  rw [readSensor_operation hmed h3 h4, readEnd, if_neg (by omega)]
  have hkept : ∀ u : State, zoneOf (serviceStep (latchStep u)) (sensorZone x) = zoneOf u (sensorZone x) := fun u =>
    within_serviceStep.apply (fun s => zoneOf s (sensorZone x)) rfl
  rw [hkept]
  exact compareZone_warns hz hz8 (htemp.symm ▸ h0) (htemp.symm ▸ h1)

/-! ### A reading at the hard-trip threshold -/

/-- LATCH, time and which zones are blind stand. -/
def TripKept (s t : State) : Prop := t.thermal.latch = s.thermal.latch ∧ t.now = s.now ∧ ∀ z, (zoneOf t z).blind = (zoneOf s z).blind

theorem TripKept.then (h1 : TripKept s t) (h2 : TripKept t u) : TripKept s u :=
  ⟨h2.1.trans h1.1, h2.2.1.trans h1.2.1, fun z => (h2.2.2 z).trans (h1.2.2 z)⟩

theorem tripKept_ite {p : Prop} [Decidable p] {a b : State} (ha : TripKept s a) (hb : TripKept s b) :
    TripKept s (if p then a else b) := by
  split
  · exact ha
  · exact hb

theorem Within.tripKept (h : Within m s t) (ht : .thermal ∉ m) (hn : .now ∉ m) : TripKept s t :=
  have hthermal := h .thermal ht
  ⟨congrArg Thermal.latch hthermal, h .now hn, fun z => congrArg (fun h : Thermal => (h.zones.getD z Reset.zone).blind) hthermal⟩

theorem tripKept_modZone {f : Zone → Zone} (hf : ∀ o, (f o).blind = o.blind) : TripKept s (modZone z f s) :=
  ⟨rfl, rfl, fun _ => zoneOf_modZone_field (g := Zone.blind) hf⟩

theorem tripKept_told {det : List Byte} : TripKept s (raiseCause false 17 (record 0x2C 0x1501 det s)) :=
  within_told.tripKept (by decide) (by decide)

theorem tripKept_warnStep : TripKept s (warnStep z x temp s) := by
  have hmod : ∀ (v : Zone → Bool) (w : Zone → Option Nat), TripKept s (modZone z (fun y => { y with warn := v y, warnBelow := w y }) s) := fun _ _ => tripKept_modZone fun _ => rfl
  unfold warnStep
  dsimp only
  exact tripKept_ite ((hmod _ _).then tripKept_told) (hmod _ _)

theorem tripKept_setTheta {v : Nat} : TripKept s (setTheta z v s) := by
  refine ⟨by rw [setTheta_thermal], within_setTheta .now (by decide), fun w => ?_⟩
  have hzone : zoneOf (setTheta z v s) w = zoneOf (modZone z (fun y => { y with theta := v }) s) w :=
    congrArg (fun h : Thermal => h.zones.getD w Reset.zone) setTheta_thermal
  rw [hzone]
  exact zoneOf_modZone_field (g := Zone.blind) fun _ => rfl

theorem tripKept_throttleStep : TripKept s (throttleStep z temp s) := by
  have hmod : ∀ (a : Zone → Bool) (b c : Zone → Option Nat), TripKept s (modZone z (fun y => { y with reached := a y, thrAbove := b y, thrBelow := c y }) s) := fun _ _ _ =>
    tripKept_modZone fun _ => rfl
  unfold throttleStep
  dsimp only
  exact tripKept_ite (((hmod _ _ _).then tripKept_setTheta).then (within_raiseCause.tripKept (by decide) (by decide))) (hmod _ _ _)

theorem compareZone_trips (hsee : (zoneSensors z).all (suspect s) = false) (hblind : (zoneOf s z).blind = false)
    (hlatch : s.thermal.latch = false) (h : limitOf z 3 ≤ zoneTemp s z) : ∃ u, u.now = s.now ∧
      compareZone z x s = hardTrip z x (zoneTemp s z) u := by
  have hsteps := (tripKept_warnStep (z := z) (x := x) (temp := zoneTemp s z) (s := s)).then
    (tripKept_throttleStep (z := z) (temp := zoneTemp s z))
  obtain ⟨hlatch', hnow, hblind'⟩ := hsteps
  refine ⟨_, hnow, ?_⟩
  unfold compareZone
  dsimp only
  rw [blindStep, hsee, Bool.false_and, if_neg Bool.false_ne_true, hblind', hblind, if_neg Bool.false_ne_true, if_pos h, hlatch', hlatch,
    if_neg Bool.false_ne_true]

theorem within_readEnd : Within [.thermal, .hbm, .wear, .ledger] s (readEnd x s) :=
  ((within_ite (within_refreshMode.mono (by decide)) within_refl).then (within_latchStep.mono (by decide))).then (within_serviceStep.mono (by decide))

theorem readEnd_latch : (readEnd x s).thermal.latch = s.thermal.latch ∧ (readEnd x s).thermal.trip = s.thermal.trip := by
  have hrefresh : (if x = 32 ∨ x = 33 then refreshMode (x - 32) s else s).thermal = s.thermal :=
    (within_ite within_refreshMode within_refl).apply State.thermal rfl
  have hkept : ∀ u, (serviceStep (latchStep u)).thermal.latch = u.thermal.latch ∧ (serviceStep (latchStep u)).thermal.trip = u.thermal.trip :=
    fun u => ⟨within_serviceStep.apply (fun s => s.thermal.latch) rfl, within_serviceStep.apply (fun s => s.thermal.trip) rfl⟩
  obtain ⟨hlatch, htrip⟩ := hkept (if x = 32 ∨ x = 33 then refreshMode (x - 32) s else s)
  exact ⟨hlatch.trans (congrArg Thermal.latch hrefresh), htrip.trans (congrArg Thermal.trip hrefresh)⟩

theorem readSensor_trips (hmed : neighbourMedian s x = none) (h3 : s.power.state ≠ .p3) (h4 : s.power.state ≠ .p4)
    (hx : x < 44) (hlen : x < s.thermal.sensors.length)
    (hall : ∀ y ∈ zoneSensors (sensorZone x), suspect s y = false ∧ (sensorOf s y).temp ≤ temp)
    (hblind : (zoneOf s (sensorZone x)).blind = false) (hlatch : s.thermal.latch = false) (h : limitOf (sensorZone x) 3 ≤ temp) :
    let t := readSensor x temp s
    t.thermal.latch = true ∧ t.thermal.trip = s.now ∧ t.power.state = .p3 ∧ t.power.stop = none ∧ enabledChans t = [] := by
  obtain ⟨hin, -⟩ := sensor_in_zone x hx
  obtain ⟨htemp, hsee⟩ := zoneTemp_reading (n := s.now) hin hlen hall
  obtain ⟨u, hnow, htrip⟩ := compareZone_trips (x := x) (s := modSensor x (readingOf temp s.now) s) hsee hblind hlatch (htemp.symm ▸ h)
  dsimp only
  rw [readSensor_operation hmed h3 h4, htrip]
  obtain ⟨-, hlatch', htrip', hstate, hstop, hdark, -⟩ :=
    hardTrip_frame (z := sensorZone x) (x := x) (temp := zoneTemp (modSensor x (readingOf temp s.now) s) (sensorZone x)) (s := u)
  generalize hardTrip (sensorZone x) x (zoneTemp (modSensor x (readingOf temp s.now) s) (sensorZone x)) u = v at *
  have hend : Within [.thermal, .hbm, .wear, .ledger] v (readEnd x v) := within_readEnd
  have hpower : (readEnd x v).power = v.power := hend.apply State.power rfl
  obtain ⟨hl, ht⟩ := readEnd_latch (x := x) (s := v)
  exact ⟨hl.trans hlatch', ht.trans (htrip'.trans hnow), hpower ▸ hstate, hpower ▸ hstop, (hend.apply enabledChans rfl).trans hdark⟩

/-! ### Carrier diodes -/

theorem readCarrier_frame {c : Nat} {f : Option Nat} : let t := readCarrier c temp f (tick dt s)
    t.thermal = { s.thermal with carriers := upd s.thermal.carriers c fun _ => ⟨temp, (tick dt s).now, f⟩ } ∧
      OnlyRecords { s with thermal := t.thermal } t := by
  have hread : Within (clockParts ++ [.thermal]) s { tick dt s with thermal := { (tick dt s).thermal with
      carriers := upd s.thermal.carriers c fun _ => ⟨temp, (tick dt s).now, f⟩ } } :=
    within_trans within_tick (within_of_eq (m := [.thermal]) rfl (by decide))
  have hrec : ∀ p : Prop, [Decidable p] → ∀ (u : State) det, Within [.ledger] u (if p then record 0x2C 0x1509 det u else u) :=
    fun p _ u det => within_ite within_recordAt within_refl
  have hboth : ∃ u, Within (clockParts ++ [.thermal]) s u ∧
      u.thermal = { s.thermal with carriers := upd s.thermal.carriers c fun _ => ⟨temp, (tick dt s).now, f⟩ } ∧
      Within [.ledger] u (readCarrier c temp f (tick dt s)) := by
    refine ⟨_, hread, rfl, ?_⟩
    unfold readCarrier
    cases f with
    | none => exact within_refl
    | some n => exact hrec _ _ _
  obtain ⟨u, hu, hthermal, htold⟩ := hboth
  exact ⟨(htold .thermal (by decide)).trans hthermal, onlyRecords_patch (m := [.thermal]) ((within_trans hu htold).mono (by decide)) (by decide)⟩

/-- Settles O54. -/
theorem temperaturesAct : Obligations.TemperaturesAct := by
  unfold Obligations.TemperaturesAct
  refine ⟨fun dt x temp s => ?_, fun dt z s => ?_⟩
  · intro z
    refine ⟨fun f hx hlen => ?_, fun f hx hlen hz hall hmed h3 h4 hblind => ?_, fun c f hc _ => ?_⟩
    · obtain ⟨htemp, hstamp, hseen, hother⟩ := readSensor_kept (temp := temp) (s := tick dt s) hlen
      refine ⟨_, exec_sensorReading hx, htemp, hstamp, hseen, hother, fun hx32 hstate => ?_⟩
      have hrun := within_trans (within_tick (dt := dt)) (readSensor_standby (s := tick dt s) (temp := temp) hx32 hstate)
      exact ⟨hrun.apply State.power rfl, hrun.apply State.gheler rfl, hrun.apply State.hbm rfl⟩
    · obtain ⟨hin, hz8⟩ := sensor_in_zone x hx
      obtain ⟨h01, h12, h23⟩ := limits_rise z hz8
      refine ⟨fun h hstack => ?_, fun h0 h1 _ hstack => ?_, fun h hlatch => ?_⟩
      · exact ⟨_, exec_sensorReading hx, readSensor_cool hmed h3 h4 hx hlen hall hstack (h.trans h01)⟩
      · exact ⟨_, exec_sensorReading hx, readSensor_warns (s := tick dt s) hmed h3 h4 hx hlen hz hall hstack h0 h1,
          readSensor_cool hmed h3 h4 hx hlen hall hstack h1⟩
      · exact ⟨_, exec_sensorReading hx, readSensor_trips (s := tick dt s) hmed h3 h4 hx hlen hall hblind hlatch h⟩
    · have hexec : exec (.sensorReading dt (0x50 + c) temp f) s = .next (readCarrier c temp f (tick dt s)) := by
        refine congrArg Host.Outcome.next ((if_neg (by omega)).trans ((if_pos (by omega)).trans ?_))
        rw [Nat.add_sub_cancel_left]
      exact ⟨_, hexec, readCarrier_frame⟩
  · intro y hz
    exact ⟨fun w => thermWarnClear_clause, fun w => throttleDecay_clause, fun w => throttleRecover_clause hz,
      fun w => thermLatchClear_clause, fun d => thmRead_clause⟩

end Sys2Proof.Machine
end

section
/-!
PROOFS. The HBM controllers (chapter 18): requests and their pages, row disturbance, refreshes, and HBM_CFG.
-/

namespace Sys2Proof.Machine
variable {s t u : State} {m : List StatePart} {dt st pc bank row port age : Nat} {r : MemReq}

/-! ### Changes of the controllers' state -/

theorem within_closePages {p : OpenPage → Bool} : Within [.hbm] s (closePages p s) := within_modHbm fun _ => ⟨rfl, rfl, rfl⟩
theorem within_setDebt {n : Nat} : Within [.hbm] s (setDebt st pc n s) := within_modHbm fun _ => ⟨rfl, rfl, rfl⟩
theorem within_refreshPc : Within [.hbm] s (refreshPc st pc s) := within_closePages
theorem within_markRefresh : Within [.hbm] s (markRefresh st pc s) := within_modHbm fun _ => ⟨rfl, rfl, rfl⟩
theorem within_markBusy : Within [.hbm] s (markBusy st pc s) := within_modHbm fun _ => ⟨rfl, rfl, rfl⟩
theorem within_rollWindow : Within [.hbm] s (rollWindow s) := within_ite within_refl (within_modHbm fun _ => ⟨rfl, rfl, rfl⟩)

theorem mem_closePages {p : OpenPage → Bool} {g : OpenPage} : g ∈ (closePages p s).hbm.pages ↔ g ∈ s.hbm.pages ∧ p g = false := by
  simp [closePages, modHbm, List.mem_filter]

/-! ### Debts of postponed refreshes -/

/-- The debt that a list of debts holds for a pseudo-channel. -/
def debtIn (l : List RefDebt) (st pc : Nat) : Nat := ((l.find? fun d => d.stack = st ∧ d.pc = pc).map (·.debt)).getD 0

theorem debtOf_eq : debtOf s st pc = debtIn s.hbm.debts st pc := rfl

/-- A list of debts in which a pseudo-channel holds another. -/
def debtsSet (l : List RefDebt) (st pc n : Nat) : List RefDebt :=
  let l := l.filter fun d => !(d.stack == st && d.pc == pc)
  if n = 0 then l else { stack := st, pc := pc, debt := n } :: l

theorem debtIn_cleared {l : List RefDebt} {a b : Nat} : debtIn (l.filter fun d => !(d.stack == st && d.pc == pc)) a b =
    if a = st ∧ b = pc then 0 else debtIn l a b := by
  unfold debtIn
  by_cases h : a = st ∧ b = pc
  · obtain ⟨rfl, rfl⟩ := h
    have hnone : (l.filter fun d => !(d.stack == a && d.pc == b)).find? (fun d => decide (d.stack = a ∧ d.pc = b)) = none := by
      rw [List.find?_eq_none]
      intro d hd
      have := (List.mem_filter.1 hd).2
      grind
    rw [if_pos ⟨rfl, rfl⟩, hnone]
    rfl
  · have hsame : (l.filter fun d => !(d.stack == st && d.pc == pc)).find? (fun d => decide (d.stack = a ∧ d.pc = b)) =
        l.find? (fun d => decide (d.stack = a ∧ d.pc = b)) := by
      rw [List.find?_filter]
      refine congrArg (fun p => List.find? p l) (funext fun d => ?_)
      grind
    rw [if_neg h, hsame]

theorem debtIn_set {l : List RefDebt} {n a b : Nat} : debtIn (debtsSet l st pc n) a b = if a = st ∧ b = pc then n else debtIn l a b := by
  unfold debtsSet
  dsimp only
  split
  next hn => rw [debtIn_cleared, hn]
  next =>
    have hcons : ∀ (d : RefDebt) (l : List RefDebt), debtIn (d :: l) a b = if d.stack = a ∧ d.pc = b then d.debt else debtIn l a b := by
      intro d l
      unfold debtIn
      rw [List.find?_cons]
      split <;> simp_all
    rw [hcons, debtIn_cleared]
    grind

theorem debtOf_setDebt {n a b : Nat} : debtOf (setDebt st pc n s) a b = if a = st ∧ b = pc then n else debtOf s a b := debtIn_set

theorem setDebt_eq {n : Nat} : setDebt st pc n s = { s with hbm := { s.hbm with debts := debtsSet s.hbm.debts st pc n } } := rfl

/-! ### Refreshes that fall due -/

theorem refreshDueStep_idle {q : Bool} (h : s.hbm.selfRef = true ∨ hbmPowered s = false ∨ refreshIsDue s st pc = false) :
    refreshDueStep st pc q s = s := by
  unfold refreshDueStep
  rw [if_pos]
  rcases h with h | h | h <;> simp [h]

theorem refreshDueStep_due {q : Bool} (hp : hbmPowered s = true) (hself : s.hbm.selfRef = false) (hdue : refreshIsDue s st pc = true) :
    refreshDueStep st pc q s = takeRefresh st pc q (markRefresh st pc s) := by
  unfold refreshDueStep
  rw [if_neg]
  simp [hp, hself, hdue]

theorem refreshDue_postponed (hp : hbmPowered s = true) (hself : s.hbm.selfRef = false) (hdue : refreshIsDue (tick dt s) st pc = true)
    (hfrozen : isFrozenPc s st pc = false) (hcap : debtOf s st pc < (if isDoubled s st then 4 else 8)) :
    ∃ t, exec (.refreshDue dt st pc true) s = .next t ∧ debtOf t st pc = debtOf s st pc + 1 ∧
      (∀ a b, a ≠ st ∨ b ≠ pc → debtOf t a b = debtOf s a b) ∧
      t = { tick dt s with hbm := { s.hbm with
        refAt := upd s.hbm.refAt (32 * st + pc) fun _ => (tick dt s).now, debts := t.hbm.debts, busyTill := t.hbm.busyTill } } := by
  have hcap' : debtOf s st pc < refCap s st pc := by
    rw [refCap, hfrozen, if_neg Bool.false_ne_true]
    exact hcap
  have hstep : takeRefresh st pc true (markRefresh st pc (tick dt s)) =
      setDebt st pc (debtOf s st pc + 1) (markBusy st pc (markRefresh st pc (tick dt s))) := by
    unfold takeRefresh
    exact (if_pos rfl).trans (if_pos hcap')
  refine ⟨_, congrArg Host.Outcome.next ((refreshDueStep_due (s := tick dt s) hp hself hdue).trans hstep), ?_, fun a b hab => ?_, rfl⟩
  · rw [debtOf_setDebt, if_pos ⟨rfl, rfl⟩]
  · rw [debtOf_setDebt, if_neg (by omega)]
    rfl

theorem refreshDue_issued (hp : hbmPowered s = true) (hself : s.hbm.selfRef = false) (hdue : refreshIsDue (tick dt s) st pc = true) :
    ∃ t, exec (.refreshDue dt st pc false) s = .next t ∧ debtOf t st pc = 0 ∧
      (∀ a b, a ≠ st ∨ b ≠ pc → debtOf t a b = debtOf s a b) ∧
      (∀ g, g ∈ t.hbm.pages ↔ g ∈ s.hbm.pages ∧ ¬(g.stack = st ∧ g.pc = pc)) ∧
      t = { tick dt s with hbm := { s.hbm with
        refAt := upd s.hbm.refAt (32 * st + pc) fun _ => (tick dt s).now, debts := t.hbm.debts, pages := t.hbm.pages } } := by
  have hdebt : ∀ a b, debtOf (refreshPc st pc (setDebt st pc 0 (markRefresh st pc (tick dt s)))) a b =
      debtOf (setDebt st pc 0 (markRefresh st pc (tick dt s))) a b := fun _ _ => rfl
  refine ⟨_, congrArg Host.Outcome.next (refreshDueStep_due (s := tick dt s) hp hself hdue), ?_, fun a b hab => ?_, fun g => ?_, rfl⟩
  · exact (hdebt st pc).trans (debtOf_setDebt.trans (if_pos ⟨rfl, rfl⟩))
  · exact (hdebt a b).trans (debtOf_setDebt.trans (if_neg (by omega)))
  · refine mem_closePages.trans (and_congr Iff.rfl ?_)
    simp

theorem pageIdleClose_clause {st pc bank : Nat} : ∃ t, exec (.pageIdleClose dt st pc bank) s = .next t ∧
    (∀ g, g ∈ t.hbm.pages ↔ g ∈ s.hbm.pages ∧ ¬(g.stack = st ∧ g.pc = pc ∧ g.bank = bank ∧
      g.last + 4 * regField s 0x00B00008 0 12 ≤ (tick dt s).now)) ∧
    t = { tick dt s with hbm := { s.hbm with pages := t.hbm.pages } } := by
  refine ⟨_, rfl, fun g => ?_, rfl⟩
  refine mem_closePages.trans (and_congr Iff.rfl ?_)
  have hreg : regField (tick dt s) 0x00B00008 0 12 = regField s 0x00B00008 0 12 := rfl
  rw [hreg]
  simp [and_assoc]

theorem rollWindow_idle (h : s.hbm.window = s.now / rdWindow s * rdWindow s) : rollWindow s = s := if_pos h

theorem rollWindow_rolls (h : s.hbm.window ≠ s.now / rdWindow s * rdWindow s) :
    rollWindow s = { s with hbm := { s.hbm with rows := [], throttled := [], window := s.now / rdWindow s * rdWindow s } } := if_neg h

/-! ### Row disturbance -/

/-- The row counts of a row group. -/
def rowHere (st pc bank group : Nat) (r : RowCount) : Bool := r.stack == st && r.pc == pc && r.bank == bank && r.group == group

/-- The count of a row group. -/
def rowCount (st pc bank group : Nat) (s : State) : RowCount :=
  (s.hbm.rows.find? (rowHere st pc bank group)).getD { stack := st, pc := pc, bank := bank, group := group, count := 0, told := false }

/-- The row counts with one in place of that of its row group. -/
def rowsWith (st pc bank group : Nat) (c : RowCount) (l : List RowCount) : List RowCount := c :: l.filter fun r => !rowHere st pc bank group r

/-- A row group's count put in place. -/
def keepRow (st pc bank group : Nat) (c : RowCount) : State → State := modHbm fun h => { h with rows := rowsWith st pc bank group c h.rows }

theorem keepRow_rows {group : Nat} {c : RowCount} : c ∈ (keepRow st pc bank group c s).hbm.rows ∧
    (keepRow st pc bank group c s).hbm.queued = s.hbm.queued ∧ (keepRow st pc bank group c s).hbm.debts = s.hbm.debts :=
  ⟨List.mem_cons_self, rfl, rfl⟩

/-- A row group with one more activate. -/
def countedUp (c : RowCount) : RowCount := { c with count := c.count + 1 }

theorem rdCount_below (h : (rowCount st pc bank (row / 16) s).count + 1 < rdThr s) : rdCount port st pc bank row s =
    keepRow st pc bank (row / 16) (countedUp (rowCount st pc bank (row / 16) s)) s := by
  have hdef : rdCount port st pc bank row s = (let c := rowCount st pc bank (row / 16) s
      let hit := decide (rdThr s ≤ c.count + 1)
      let s' := keepRow st pc bank (row / 16) { c with count := if hit then 0 else c.count + 1, told := c.told || hit } s
      if hit then rdHit port c s' else s') := rfl
  have hlow : decide (rdThr s ≤ (rowCount st pc bank (row / 16) s).count + 1) = false := decide_eq_false (by omega)
  rw [hdef]
  dsimp only
  rw [hlow]
  simp only [Bool.or_false, Bool.false_eq_true, if_false, countedUp]

theorem rdThr_pos : 256 ≤ rdThr s := le_max_left _ _

/-- What an activate leaves of the controllers' state. -/
def RowsOnly (s t : State) : Prop := ∃ rows queued throttled throt,
  t.hbm = { s.hbm with rows := rows, queued := queued, throttled := throttled, throt := throt }

theorem RowsOnly.then (h1 : RowsOnly s t) (h2 : RowsOnly t u) : RowsOnly s u := by
  obtain ⟨_, _, _, _, h1⟩ := h1
  obtain ⟨a, b, c, e, h2⟩ := h2
  exact ⟨a, b, c, e, by rw [h2, h1]⟩

theorem rowsOnly_record {unit event : Nat} {det : List Byte} : RowsOnly s (record unit event det s) := ⟨_, _, _, _, rfl⟩

theorem rowsOnly_rdHit {c : RowCount} : RowsOnly s (rdHit port c s) := by
  have hq : ∀ (q : Hbm → List RdTarget) (th : Hbm → List Throttle), RowsOnly s (modHbm (fun h => { h with queued := q h, throttled := th h }) s) := fun _ _ => ⟨_, _, _, _, rfl⟩
  have ht : ∀ v : State, RowsOnly v (modHbm (fun h => { h with throt := upd h.throt port bump }) v) := fun _ => ⟨_, _, _, _, rfl⟩
  unfold rdHit
  dsimp only
  split
  · exact hq (fun h => _) (fun h => _)
  · exact ((hq (fun h => _) (fun h => _)).then (ht _)).then rowsOnly_record

theorem rowsOnly_rdCount : RowsOnly s (rdCount port st pc bank row s) := by
  have hr : ∀ rows : Hbm → List RowCount, RowsOnly s (modHbm (fun h => { h with rows := rows h }) s) := fun _ => ⟨_, _, _, _, rfl⟩
  unfold rdCount
  dsimp only
  split
  · exact (hr fun h => _).then rowsOnly_rdHit
  · exact hr fun h => _

theorem within_rdHit {c : RowCount} : Within [.hbm, .ledger] s (rdHit port c s) := by
  have hq : ∀ (q : Hbm → List RdTarget) (th : Hbm → List Throttle),
      Within [.hbm, .ledger] s (modHbm (fun h => { h with queued := q h, throttled := th h }) s) := fun _ _ => within_modHbm_told fun _ => ⟨rfl, rfl, rfl⟩
  have ht : ∀ v : State, Within [.hbm, .ledger] v (modHbm (fun h => { h with throt := upd h.throt port bump }) v) := fun _ =>
    within_modHbm_told fun _ => ⟨rfl, rfl, rfl⟩
  have hrec : ∀ (v : State) unit event det, Within [.hbm, .ledger] v (record unit event det v) := fun _ _ _ _ => within_recordAt.mono (by decide)
  unfold rdHit
  dsimp only
  exact within_ite (hq (fun h => _) (fun h => _)) (((hq (fun h => _) (fun h => _)).then (ht _)).then (hrec _ _ _ _))

theorem within_rdCount : Within [.hbm, .ledger] s (rdCount port st pc bank row s) := by
  have hr : ∀ rows : Hbm → List RowCount, Within [.hbm, .ledger] s (modHbm (fun h => { h with rows := rows h }) s) := fun _ =>
    within_modHbm_told fun _ => ⟨rfl, rfl, rfl⟩
  unfold rdCount
  dsimp only
  exact within_ite ((hr fun h => _).then within_rdHit) (hr fun h => _)

/-! ### An access to a bank -/

/-- The pages of a bank. -/
def bankPage (st pc bank : Nat) (g : OpenPage) : Bool := g.stack == st && g.pc == pc && g.bank == bank

/-- An access hits a page that is open. -/
def pageHit (st pc bank row : Nat) (s : State) : Bool :=
  s.hbm.pages.any fun g => bankPage st pc bank g && g.row == row && decide (s.now < g.last + 4 * regField s 0x00B00008 0 12)

/-- The page of an access in place of the one of its bank. -/
def pageOpened (st pc bank row : Nat) (s : State) : State :=
  modHbm (fun h => { h with pages := { stack := st, pc := pc, bank := bank, row := row, last := s.now } :: h.pages })
    (closePages (bankPage st pc bank) s)

/-- The pages that an access leaves, before the page that an activate opens. -/
def pageLeft (st pc bank row : Nat) (s : State) : State :=
  if 4 * regField s 0x00B00008 0 12 = 0 then closePages (bankPage st pc bank) s else pageOpened st pc bank row s

/-- An activate is noted at its pseudo-channel. -/
def activated (st pc bank : Nat) : State → State :=
  modHbm fun h => { h with lastBank := (st, pc, bank) :: h.lastBank.filter fun b => !(b.1 == st && b.2.1 == pc) }

theorem accessBank_eq : accessBank port st pc bank row s = if pageHit st pc bank row s then pageLeft st pc bank row s
    else rdCount port st pc bank row (activated st pc bank (pageLeft st pc bank row s)) := rfl

theorem accessBank_opens (h : regField s 0x00B00008 0 12 ≠ 0) : accessBank port st pc bank row s =
    if pageHit st pc bank row s then pageOpened st pc bank row s
    else rdCount port st pc bank row (activated st pc bank (pageOpened st pc bank row s)) := by
  have hidle : ¬ 4 * regField s 0x00B00008 0 12 = 0 := fun h' => h ((Nat.mul_eq_zero.1 h').resolve_left (by decide))
  rw [accessBank_eq, pageLeft, if_neg hidle]

theorem within_pageOpened : Within [.hbm] s (pageOpened st pc bank row s) :=
  within_closePages.then (within_modHbm fun _ => ⟨rfl, rfl, rfl⟩)

theorem within_activated : Within [.hbm] s (activated st pc bank s) := within_modHbm fun _ => ⟨rfl, rfl, rfl⟩

theorem within_accessBank : Within [.hbm, .ledger] s (accessBank port st pc bank row s) := by
  have hpage : Within [.hbm, .ledger] s (pageLeft st pc bank row s) :=
    within_ite (within_closePages.mono (by decide)) (within_pageOpened.mono (by decide))
  exact within_ite hpage ((hpage.then (within_activated.mono (by decide))).then within_rdCount)

theorem accessBank_pages (h : regField s 0x00B00008 0 12 ≠ 0) {g : OpenPage} : g ∈ (accessBank port st pc bank row s).hbm.pages ↔
    g = ⟨st, pc, bank, row, s.now⟩ ∨ (g ∈ s.hbm.pages ∧ ¬(g.stack = st ∧ g.pc = pc ∧ g.bank = bank)) := by
  have hopen : g ∈ (pageOpened st pc bank row s).hbm.pages ↔
      g = ⟨st, pc, bank, row, s.now⟩ ∨ (g ∈ s.hbm.pages ∧ ¬(g.stack = st ∧ g.pc = pc ∧ g.bank = bank)) := by
    simp [pageOpened, modHbm, closePages, bankPage, List.mem_filter, or_assoc, imp_iff_not_or]
  rw [accessBank_opens h]
  split
  · exact hopen
  · obtain ⟨_, _, _, _, hrows⟩ := rowsOnly_rdCount (s := activated st pc bank (pageOpened st pc bank row s)) (port := port) (st := st) (pc := pc)
      (bank := bank) (row := row)
    rw [hrows]
    exact hopen

/-- An activate counts in its row group, which stays below THR. -/
theorem accessBank_counts (h : regField s 0x00B00008 0 12 ≠ 0) {c : RowCount} (hc : c ∈ s.hbm.rows)
    (hst : c.stack = st) (hpc : c.pc = pc) (hbank : c.bank = bank) (hgroup : c.group = row / 16)
    (honly : ∀ q ∈ s.hbm.rows, q.stack = c.stack → q.pc = c.pc → q.bank = c.bank → q.group = c.group → q = c)
    (hmiss : ∀ g ∈ s.hbm.pages, ¬(g.stack = st ∧ g.pc = pc ∧ g.bank = bank ∧ g.row = row)) (hthr : c.count + 1 < rdThr s) :
    { c with count := c.count + 1 } ∈ (accessBank port st pc bank row s).hbm.rows ∧
      (accessBank port st pc bank row s).hbm.queued = s.hbm.queued := by
  have hnohit : pageHit st pc bank row s = false := by
    refine List.any_eq_false.2 fun g hg => ?_
    have := hmiss g hg
    simp only [bankPage]
    grind
  have hfind : s.hbm.rows.find? (rowHere st pc bank (row / 16)) = some c := by
    cases hf : s.hbm.rows.find? (rowHere st pc bank (row / 16)) with
    | none =>
      have := List.find?_eq_none.1 hf c hc
      simp [rowHere, hst, hpc, hbank, hgroup] at this
    | some q =>
      have hq := List.find?_some hf
      simp only [rowHere, Bool.and_eq_true, beq_iff_eq] at hq
      obtain ⟨⟨⟨h1, h2⟩, h3⟩, h4⟩ := hq
      exact congrArg some (honly q (List.mem_of_find?_eq_some hf) (h1.trans hst.symm) (h2.trans hpc.symm) (h3.trans hbank.symm) (h4.trans hgroup.symm))
  have hrow : rowCount st pc bank (row / 16) (activated st pc bank (pageOpened st pc bank row s)) = c := by
    show (s.hbm.rows.find? (rowHere st pc bank (row / 16))).getD _ = c
    rw [hfind]
    rfl
  rw [accessBank_opens h, hnohit, if_neg Bool.false_ne_true, rdCount_below (by rw [hrow]; exact hthr), hrow]
  obtain ⟨hrows, hqueued, -⟩ := keepRow_rows (st := st) (pc := pc) (bank := bank) (c := countedUp c) (group := row / 16)
    (s := activated st pc bank (pageOpened st pc bank row s))
  exact ⟨hrows, hqueued⟩

/-- With no row counted, an activate queues no targeted refresh. -/
theorem accessBank_first (hrows : s.hbm.rows = []) : (accessBank port st pc bank row s).hbm.queued = s.hbm.queued ∧
    (accessBank port st pc bank row s).hbm.debts = s.hbm.debts := by
  have hpage : (pageLeft st pc bank row s).hbm.rows = s.hbm.rows ∧ (pageLeft st pc bank row s).hbm.queued = s.hbm.queued ∧
      (pageLeft st pc bank row s).hbm.debts = s.hbm.debts := by
    unfold pageLeft
    split <;> exact ⟨rfl, rfl, rfl⟩
  rw [accessBank_eq]
  obtain ⟨hr, hq, hd⟩ := hpage
  generalize pageLeft st pc bank row s = v at *
  by_cases hhit : pageHit st pc bank row s = true
  · rw [if_pos hhit]
    exact ⟨hq, hd⟩
  · have hrow : (rowCount st pc bank (row / 16) (activated st pc bank v)).count = 0 := by
      show ((v.hbm.rows.find? (rowHere st pc bank (row / 16))).getD _).count = 0
      rw [hr, hrows]
      rfl
    have hlow : (rowCount st pc bank (row / 16) (activated st pc bank v)).count + 1 < rdThr (activated st pc bank v) := by
      rw [hrow]
      exact (show 0 + 1 < 256 by decide).trans_le (rdThr_pos (s := activated st pc bank v))
    have hform := rdCount_below (port := port) (s := activated st pc bank v) (st := st) (pc := pc) (bank := bank) (row := row) hlow
    rw [if_neg hhit, hform]
    obtain ⟨-, hkq, hkd⟩ := keepRow_rows (st := st) (pc := pc) (bank := bank) (group := row / 16)
      (c := countedUp (rowCount st pc bank (row / 16) (activated st pc bank v))) (s := activated st pc bank v)
    exact ⟨hkq.trans hq, hkd.trans hd⟩


/-! ### The refreshes that go before a request -/

/-- What the debt of a pseudo-channel and the targeted refreshes leave. -/
def Refreshed (st pc : Nat) (s t : State) : Prop := (debtOf s st pc = 0 → debtOf t st pc = 0) ∧ t.hbm.rows = s.hbm.rows ∧ t.hbm.queued = s.hbm.queued

theorem within_targetDone {x : RdTarget} : Within [.hbm, .ledger] s (targetDone x s) := by
  unfold targetDone
  dsimp only
  exact within_ite ((within_closePages.mono (by decide)).then (within_recordAt.mono (by decide))) (within_closePages.mono (by decide))

theorem targetDone_hbm {x : RdTarget} : (targetDone x s).hbm = { s.hbm with pages := (targetDone x s).hbm.pages } ∧
    (∀ p, p ∈ (targetDone x s).hbm.pages ↔ p ∈ s.hbm.pages ∧ ¬(p.stack = x.stack ∧ p.pc = x.pc ∧ p.bank = x.bank)) ∧
    (x.tell = false → (targetDone x s).ledger = s.ledger) := by
  have hclosed : ∀ p, p ∈ (closePages (fun p => p.stack == x.stack && p.pc == x.pc && p.bank == x.bank) s).hbm.pages ↔
      p ∈ s.hbm.pages ∧ ¬(p.stack = x.stack ∧ p.pc = x.pc ∧ p.bank = x.bank) := fun p => by
    refine mem_closePages.trans (and_congr Iff.rfl ?_)
    simp
  unfold targetDone
  dsimp only
  split
  next h => exact ⟨rfl, hclosed, fun h' => absurd h (by rw [h']; exact Bool.false_ne_true)⟩
  · exact ⟨rfl, hclosed, fun _ => rfl⟩

theorem targetDone_queued {x : RdTarget} : (targetDone x s).hbm.queued = s.hbm.queued ∧ (targetDone x s).hbm.rows = s.hbm.rows ∧
    (targetDone x s).hbm.debts = s.hbm.debts := by
  obtain ⟨h, -, -⟩ := targetDone_hbm (s := s) (x := x)
  rw [h]
  exact ⟨rfl, rfl, rfl⟩

theorem targetsDone_queued {l : List RdTarget} : (forEach l targetDone s).hbm.queued = s.hbm.queued ∧
    (forEach l targetDone s).hbm.rows = s.hbm.rows ∧ (forEach l targetDone s).hbm.debts = s.hbm.debts := by
  induction l generalizing s with
  | nil => exact ⟨rfl, rfl, rfl⟩
  | cons x l ih =>
    obtain ⟨hq, hr, hd⟩ := ih (s := targetDone x s)
    obtain ⟨hq', hr', hd'⟩ := targetDone_queued (s := s) (x := x)
    exact ⟨hq.trans hq', hr.trans hr', hd.trans hd'⟩

/-- The targeted refreshes of a pseudo-channel. -/
def targetHere (st pc : Nat) (x : RdTarget) : Bool := x.stack == st && x.pc == pc

theorem targetHere_iff {x : RdTarget} : targetHere st pc x = true ↔ x.stack = st ∧ x.pc = pc := by
  simp [targetHere]

theorem targetsFirst_idle (h : ∀ y ∈ s.hbm.queued, ¬(y.stack = st ∧ y.pc = pc)) : targetsFirst st pc s = s := by
  have hnone : s.hbm.queued.filter (targetHere st pc) = [] := List.filter_eq_nil_iff.2 fun y hy hhere => h y hy (targetHere_iff.1 hhere)
  refine if_pos ?_
  exact List.isEmpty_iff.2 hnone

theorem targetsFirst_done : (∀ y ∈ (targetsFirst st pc s).hbm.queued, ¬(y.stack = st ∧ y.pc = pc)) ∧
    (∀ y ∈ s.hbm.queued, ¬(y.stack = st ∧ y.pc = pc) → y ∈ (targetsFirst st pc s).hbm.queued) ∧
    (targetsFirst st pc s).hbm.rows = s.hbm.rows ∧ (targetsFirst st pc s).hbm.debts = s.hbm.debts := by
  by_cases h : ∀ y ∈ s.hbm.queued, ¬(y.stack = st ∧ y.pc = pc)
  · rw [targetsFirst_idle h]
    exact ⟨h, fun y hy _ => hy, rfl, rfl⟩
  · have hsome : ¬ (s.hbm.queued.filter (targetHere st pc)).isEmpty = true := fun hnil => h fun y hy hhere =>
      List.filter_eq_nil_iff.1 (List.isEmpty_iff.1 hnil) y hy (targetHere_iff.2 hhere)
    have hform : targetsFirst st pc s = forEach (s.hbm.queued.filter (targetHere st pc)) targetDone
        (modHbm (fun h => { h with queued := h.queued.filter fun x => !targetHere st pc x }) s) := if_neg hsome
    obtain ⟨hq, hr, hd⟩ := targetsDone_queued (l := s.hbm.queued.filter (targetHere st pc))
      (s := modHbm (fun h => { h with queued := h.queued.filter fun x => !targetHere st pc x }) s)
    have hmem : ∀ y, y ∈ (targetsFirst st pc s).hbm.queued ↔ y ∈ s.hbm.queued ∧ ¬(y.stack = st ∧ y.pc = pc) := fun y => by
      rw [hform, hq]
      refine List.mem_filter.trans (and_congr Iff.rfl ?_)
      rw [← targetHere_iff, Bool.not_eq_true', Bool.not_eq_true]
    exact ⟨fun y hy => ((hmem y).1 hy).2, fun y hy hno => (hmem y).2 ⟨hy, hno⟩, hform ▸ hr, hform ▸ hd⟩

theorem within_targetsFirst : Within [.hbm, .ledger] s (targetsFirst st pc s) := by
  have hmod : ∀ l : Hbm → List RdTarget, Within [.hbm, .ledger] s (modHbm (fun h => { h with queued := l h }) s) := fun _ =>
    within_modHbm_told fun _ => ⟨rfl, rfl, rfl⟩
  exact within_ite within_refl ((hmod fun h => _).then (within_forEach fun _ _ => within_targetDone))

theorem repayDebt_zero : debtOf (repayDebt st pc s) st pc = 0 ∧ (repayDebt st pc s).hbm.rows = s.hbm.rows ∧
    (repayDebt st pc s).hbm.queued = s.hbm.queued := by
  unfold repayDebt
  split
  next h => exact ⟨h, rfl, rfl⟩
  · exact ⟨(debtOf_setDebt (s := s) (n := 0)).trans (if_pos ⟨rfl, rfl⟩), rfl, rfl⟩

theorem within_repayDebt : Within [.hbm, .ledger] s (repayDebt st pc s) :=
  within_ite within_refl ((within_setDebt.mono (by decide)).then (within_refreshPc.mono (by decide)))

/-- The refresh of an interval that goes before a request. -/
def refreshInTime (st pc : Nat) (scrub : Bool) (s : State) : State :=
  if refreshIsDue s st pc && (scrub || decide (refCap s st pc ≤ debtOf s st pc)) then refreshPc st pc (markRefresh st pc s) else s

theorem refreshInTime_kept {scrub : Bool} : debtOf (refreshInTime st pc scrub s) st pc = debtOf s st pc ∧
    (refreshInTime st pc scrub s).hbm.rows = s.hbm.rows ∧ (refreshInTime st pc scrub s).hbm.queued = s.hbm.queued := by
  unfold refreshInTime
  split <;> exact ⟨rfl, rfl, rfl⟩

theorem within_refreshInTime {scrub : Bool} : Within [.hbm, .ledger] s (refreshInTime st pc scrub s) :=
  within_ite ((within_markRefresh.mono (by decide)).then (within_refreshPc.mono (by decide))) within_refl

theorem refreshFirst_eq {arrived : Nat} {scrub : Bool} : refreshFirst st pc arrived scrub s = targetsFirst st pc (refreshInTime st pc scrub
    (if s.hbm.busyTill.getD (32 * st + pc) 0 < arrived then repayDebt st pc s else s)) := rfl

theorem within_refreshFirst {arrived : Nat} {scrub : Bool} : Within [.hbm, .ledger] s (refreshFirst st pc arrived scrub s) := by
  rw [refreshFirst_eq]
  exact ((within_ite within_repayDebt within_refl).then within_refreshInTime).then within_targetsFirst

theorem refreshFirst_idle {arrived : Nat} {scrub : Bool} (hdebt : debtOf s st pc = 0) (hdue : refreshIsDue s st pc = false)
    (hqueued : ∀ y ∈ s.hbm.queued, ¬(y.stack = st ∧ y.pc = pc)) : refreshFirst st pc arrived scrub s = s := by
  have hrepay : (if s.hbm.busyTill.getD (32 * st + pc) 0 < arrived then repayDebt st pc s else s) = s := by
    rw [repayDebt, if_pos hdebt, ite_self]
  rw [refreshFirst_eq, hrepay, refreshInTime, hdue, Bool.false_and, if_neg Bool.false_ne_true, targetsFirst_idle hqueued]

theorem refreshFirst_repays {arrived : Nat} {scrub : Bool} (h : s.hbm.busyTill.getD (32 * st + pc) 0 < arrived) :
    let t := refreshFirst st pc arrived scrub s
    debtOf t st pc = 0 ∧ t.hbm.rows = s.hbm.rows ∧ (∀ y ∈ t.hbm.queued, ¬(y.stack = st ∧ y.pc = pc)) ∧
      (∀ y ∈ s.hbm.queued, ¬(y.stack = st ∧ y.pc = pc) → y ∈ t.hbm.queued) := by
  obtain ⟨hd1, hr1, hq1⟩ := repayDebt_zero (st := st) (pc := pc) (s := s)
  obtain ⟨hd2, hr2, hq2⟩ := refreshInTime_kept (st := st) (pc := pc) (s := repayDebt st pc s) (scrub := scrub)
  obtain ⟨hgone, hkept, hr3, hd3⟩ := targetsFirst_done (st := st) (pc := pc) (s := refreshInTime st pc scrub (repayDebt st pc s))
  dsimp only
  rw [refreshFirst_eq, if_pos h]
  refine ⟨?_, hr3.trans (hr2.trans hr1), hgone, fun y hy => hkept y ?_⟩
  · rw [debtOf_eq, hd3]
    exact hd2.trans hd1
  · rw [hq2, hq1]
    exact hy


/-! ### One request -/

/-- The window rolled and the urgency of a request counted. -/
def rolled (p age : Nat) (s : State) : State :=
  if urgency (rollWindow s) p age = 3 then modHbm (fun h => { h with urg3 := upd h.urg3 p bump }) (rollWindow s) else rollWindow s

theorem rollWindow_form : ∃ rows throttled window,
    rollWindow s = { s with hbm := { s.hbm with rows := rows, throttled := throttled, window := window } } ∧
    (s.hbm.rows = [] → rows = []) ∧ (s.hbm.window = s.now / rdWindow s * rdWindow s → rows = s.hbm.rows) := by
  by_cases h : s.hbm.window = s.now / rdWindow s * rdWindow s
  · exact ⟨s.hbm.rows, s.hbm.throttled, s.hbm.window, rollWindow_idle h, id, fun _ => rfl⟩
  · exact ⟨[], [], _, rollWindow_rolls h, fun _ => rfl, fun h' => absurd h' h⟩

theorem rolled_form {p : Nat} : ∃ rows throttled window urg3,
    rolled p age s = { s with hbm := { s.hbm with rows := rows, throttled := throttled, window := window, urg3 := urg3 } } ∧
    (s.hbm.rows = [] → rows = []) ∧ (s.hbm.window = s.now / rdWindow s * rdWindow s → rows = s.hbm.rows) ∧
    (urgency s p age ≠ 3 → urg3 = s.hbm.urg3) := by
  obtain ⟨rows, throttled, window, hroll, hnil, hsame⟩ := rollWindow_form (s := s)
  have hurg : urgency (rollWindow s) p age = urgency s p age := by rw [hroll]; rfl
  unfold rolled
  rw [hurg]
  by_cases h : urgency s p age = 3
  · rw [if_pos h, hroll]
    exact ⟨rows, throttled, window, _, rfl, hnil, hsame, fun h' => absurd h h'⟩
  · rw [if_neg h]
    exact ⟨rows, throttled, window, s.hbm.urg3, hroll, hnil, hsame, fun _ => rfl⟩

/-- A request served: its refreshes, its bank, and what a read finds. -/
def requestServed (r : MemReq) (st pc bank row : Nat) (s : State) : State :=
  let s := markBusy st pc (accessBank (trafficPort r.traffic) st pc bank row s)
  if r.write then s else noteRead r.unit_ r.addr r.len s

theorem accessReq_served (h : (pcOf s r.addr).frozen = false) : accessReq r age s =
    requestServed r (pcOf s r.addr).stack (pcOf s r.addr).pc (bankOf (decodeAddr s r.addr).2) (rowOf (decodeAddr s r.addr).2)
      (refreshFirst (pcOf s r.addr).stack (pcOf s r.addr).pc ((rolled (trafficPort r.traffic) age s).now - age)
        (trafficPort r.traffic == 7) (rolled (trafficPort r.traffic) age s)) := by
  unfold accessReq
  dsimp only
  rw [h, if_neg Bool.false_ne_true]
  rfl

/-- Requests wait in their ports and queues. -/
def queuedUp (l : List (MemReq × Nat)) : State → State := modHbm fun h => { h with waiting := h.waiting ++ l }

theorem hbmServe_queues {l : List MemReq} (hp : hbmPowered s = true) (hflips : ∀ r ∈ l, r.flips = []) : hbmServe l s =
    if s.hbm.selfRef then queuedUp ((l.filter fun r => decide (r.addr < usable s)).map fun r => (r, s.now)) s
    else serveWaiting (queuedUp ((l.filter fun r => decide (r.addr < usable s)).map fun r => (r, s.now)) s) := by
  have hflip : flipAll (l.flatMap (·.flips)) s = s := by
    rw [List.flatMap_eq_nil_iff.2 hflips]
    rfl
  unfold hbmServe
  rw [hp, Bool.not_true, if_neg Bool.false_ne_true, hflip]
  rfl

theorem queuedUp_nil : queuedUp [] s = s := by
  have hnil : s.hbm.waiting ++ [] = s.hbm.waiting := List.append_nil _
  show { s with hbm := { s.hbm with waiting := s.hbm.waiting ++ [] } } = s
  rw [hnil]

/-- No request comes, and none waits that could be served. -/
theorem hbmServe_none {l : List MemReq} (hflips : ∀ r ∈ l, r.flips = []) (hl : l.filter (fun r => decide (r.addr < usable s)) = [])
    (h : s.hbm.selfRef = true ∨ s.hbm.waiting = []) : hbmServe l s = s := by
  by_cases hp : hbmPowered s = true
  · have hserve : s.hbm.waiting = [] → serveWaiting s = s := fun hw => by
      rw [serveWaiting, hw]
      rfl
    rw [hbmServe_queues hp hflips, hl, List.map_nil, queuedUp_nil]
    rcases h with h | h
    · rw [if_pos h]
    · rw [hserve h, ite_self]
  · unfold hbmServe
    rw [Bool.eq_false_iff.2 hp]
    rfl

/-- A request that stands alone is served at once, at its age. -/
theorem hbmServe_one (hp : hbmPowered s = true) (hflips : r.flips = []) (haddr : r.addr < usable s) (hself : s.hbm.selfRef = false)
    (hwait : s.hbm.waiting = []) : hbmServe [r] s = accessReq r r.age s := by
  have hlist : [r].filter (fun r => decide (r.addr < usable s)) = [r] := by simp [haddr]
  have hqueue : (queuedUp [(r, s.now)] s).hbm.waiting = [(r, s.now)] := by
    show s.hbm.waiting ++ _ = _
    rw [hwait]
    rfl
  have hnext : nextWaiting (queuedUp [(r, s.now)] s) = some (r, s.now) := by
    unfold nextWaiting candidates
    rw [hqueue]
    rfl
  have hage : ageOf (queuedUp [(r, s.now)] s) (r, s.now) = r.age := by
    show r.age + (s.now - s.now) = r.age
    omega
  have hdrop : modHbm (fun h => { h with waiting := h.waiting.erase (r, s.now) }) (queuedUp [(r, s.now)] s) = s := by
    have herase : (s.hbm.waiting ++ [(r, s.now)]).erase (r, s.now) = s.hbm.waiting := by
      rw [hwait]
      simp
    show { s with hbm := { s.hbm with waiting := (s.hbm.waiting ++ [(r, s.now)]).erase (r, s.now) } } = s
    rw [herase]
  have hserve : serveWaiting (queuedUp [(r, s.now)] s) = (nextWaiting (queuedUp [(r, s.now)] s)).elim (queuedUp [(r, s.now)] s) fun w =>
      accessReq w.1 (ageOf (queuedUp [(r, s.now)] s) w) (modHbm (fun h => { h with waiting := h.waiting.erase w }) (queuedUp [(r, s.now)] s)) := by
    unfold serveWaiting
    rw [hqueue]
    rfl
  rw [hbmServe_queues hp (fun x hx => (List.mem_singleton.1 hx) ▸ hflips), hself, if_neg Bool.false_ne_true, hlist, List.map_singleton,
    hserve, hnext, Option.elim_some, hage, hdrop]

theorem exec_memoryRequest_hbm {l : List MemReq} (h : ∀ r ∈ l, r.pool = none) : exec (.memoryRequest dt l) s = .next (hbmServe l (tick dt s)) := by
  have hpools : ∀ (l : List MemReq) (v : State), (∀ r ∈ l, r.pool = none) → forEach l (fun x s => x.pool.elim s fun p => poolServe x p s) v = v := by
    intro l v hl
    induction l with
    | nil => rfl
    | cons x l ih =>
      rw [forEach_cons, hl x List.mem_cons_self]
      exact ih fun r hr => hl r (List.mem_cons_of_mem _ hr)
  have hall : l.filter (·.pool.isNone) = l := List.filter_eq_self.2 fun r hr => by rw [h r hr]; rfl
  have hexec : exec (.memoryRequest dt l) s = .next (hbmServe (l.filter (·.pool.isNone))
      (forEach l (fun x s => x.pool.elim s fun p => poolServe x p s) (tick dt s))) := rfl
  rw [hexec, hall, hpools l _ h]

theorem hbmServe_unpowered {l : List MemReq} (h : hbmPowered s = false) : hbmServe l s = s := by
  unfold hbmServe
  rw [h]
  rfl

theorem accessReq_frozen (h : (pcOf s r.addr).frozen = true) : accessReq r age s = s := by
  unfold accessReq
  dsimp only
  rw [h, if_pos rfl]

/-- What an access to a bank leaves of the controllers' state. -/
theorem accessBank_hbm : ∃ pages lastBank rows queued throttled throt, (accessBank port st pc bank row s).hbm =
    { s.hbm with pages := pages, lastBank := lastBank, rows := rows, queued := queued, throttled := throttled, throt := throt } := by
  have hpage : ∃ pages, (pageLeft st pc bank row s).hbm = { s.hbm with pages := pages } := by
    unfold pageLeft
    split <;> exact ⟨_, rfl⟩
  obtain ⟨pages, hpage⟩ := hpage
  rw [accessBank_eq]
  split
  · exact ⟨pages, s.hbm.lastBank, s.hbm.rows, s.hbm.queued, s.hbm.throttled, s.hbm.throt, hpage⟩
  · obtain ⟨rows, queued, throttled, throt, hrows⟩ := rowsOnly_rdCount (port := port) (st := st) (pc := pc) (bank := bank) (row := row)
      (s := activated st pc bank (pageLeft st pc bank row s))
    refine ⟨pages, (st, pc, bank) :: s.hbm.lastBank.filter (fun b => !(b.1 == st && b.2.1 == pc)), rows, queued, throttled, throt, ?_⟩
    rw [hrows]
    show { { (pageLeft st pc bank row s).hbm with
      lastBank := (st, pc, bank) :: (pageLeft st pc bank row s).hbm.lastBank.filter fun b => !(b.1 == st && b.2.1 == pc) } with
      rows := rows, queued := queued, throttled := throttled, throt := throt } = _
    rw [hpage]

/-- A bank is accessed and its pseudo-channel marked busy. -/
def bankServed (port st pc bank row : Nat) (s : State) : State := markBusy st pc (accessBank port st pc bank row s)

theorem within_bankServed : Within [.hbm, .ledger] s (bankServed port st pc bank row s) :=
  within_accessBank.then (within_markBusy.mono (by decide))

theorem allReadable_bankServed : allReadable (bankServed port st pc bank row s) = allReadable s := by
  have hbytes : noBadBytes (bankServed port st pc bank row s) = noBadBytes s := within_bankServed.apply noBadBytes rfl
  have hmap : (bankServed port st pc bank row s).hbm.map = s.hbm.map := by
    obtain ⟨_, _, _, _, _, _, h⟩ := accessBank_hbm (port := port) (st := st) (pc := pc) (bank := bank) (row := row) (s := s)
    show (accessBank port st pc bank row s).hbm.map = s.hbm.map
    rw [h]
  rw [allReadable, allReadable, hbytes, hmap]

theorem requestServed_clean (h : r.write = true ∨ allReadable s = true) :
    requestServed r st pc bank row s = bankServed (trafficPort r.traffic) st pc bank row s := by
  have hdef : requestServed r st pc bank row s = if r.write then bankServed (trafficPort r.traffic) st pc bank row s
      else noteRead r.unit_ r.addr r.len (bankServed (trafficPort r.traffic) st pc bank row s) := rfl
  rw [hdef]
  rcases h with h | h
  · rw [if_pos h]
  · rw [noteRead, allReadable_bankServed, h, if_pos rfl, ite_self]

/-- A request whose pseudo-channel has stood empty since its debt was postponed: the debt is repaid and the targeted refreshes are done. -/
theorem accessReq_repays (hfrozen : (pcOf s r.addr).frozen = false)
    (hbusy : s.hbm.busyTill.getD (32 * (pcOf s r.addr).stack + (pcOf s r.addr).pc) 0 < s.now - age) (hrows : s.hbm.rows = []) :
    let e := pcOf s r.addr; let t := accessReq r age s
    debtOf t e.stack e.pc = 0 ∧ (∀ y ∈ t.hbm.queued, ¬(y.stack = e.stack ∧ y.pc = e.pc)) ∧
      (∀ y ∈ s.hbm.queued, ¬(y.stack = e.stack ∧ y.pc = e.pc) → y ∈ t.hbm.queued) := by
  intro e t
  obtain ⟨rows, throttled, window, urg3, hroll, hnil, -, -⟩ := rolled_form (p := trafficPort r.traffic) (age := age) (s := s)
  have ht : t = requestServed r e.stack e.pc (bankOf (decodeAddr s r.addr).2) (rowOf (decodeAddr s r.addr).2) (refreshFirst e.stack e.pc
      ((rolled (trafficPort r.traffic) age s).now - age) (trafficPort r.traffic == 7) (rolled (trafficPort r.traffic) age s)) := accessReq_served hfrozen
  obtain ⟨hdebt, hr, hgone, hkept⟩ := refreshFirst_repays (st := e.stack) (pc := e.pc) (arrived := (rolled (trafficPort r.traffic) age s).now - age)
    (scrub := trafficPort r.traffic == 7) (s := rolled (trafficPort r.traffic) age s) (by rw [hroll]; exact hbusy)
  generalize refreshFirst e.stack e.pc ((rolled (trafficPort r.traffic) age s).now - age) (trafficPort r.traffic == 7)
    (rolled (trafficPort r.traffic) age s) = v at *
  have hvrows : v.hbm.rows = [] := hr.trans (by rw [hroll]; exact hnil hrows)
  have hqueue : (rolled (trafficPort r.traffic) age s).hbm.queued = s.hbm.queued := by rw [hroll]
  obtain ⟨hq, hd⟩ := accessBank_first (port := trafficPort r.traffic) (st := e.stack) (pc := e.pc) (bank := bankOf (decodeAddr s r.addr).2)
    (row := rowOf (decodeAddr s r.addr).2) hvrows
  have hserved : ∀ w : State, w = bankServed (trafficPort r.traffic) e.stack e.pc (bankOf (decodeAddr s r.addr).2) (rowOf (decodeAddr s r.addr).2) v →
      ∀ p : Prop, [Decidable p] → (if p then w else noteRead r.unit_ r.addr r.len w).hbm.queued = v.hbm.queued ∧
        (if p then w else noteRead r.unit_ r.addr r.len w).hbm.debts = v.hbm.debts := by
    rintro w hw p _
    have hnote : Within readParts w (if p then w else noteRead r.unit_ r.addr r.len w) := within_ite within_refl within_noteRead
    have hwq : w.hbm.queued = v.hbm.queued := by rw [hw]; exact hq
    have hwd : w.hbm.debts = v.hbm.debts := by rw [hw]; exact hd
    exact ⟨(hnote.hbm_field (by decide) (f := Hbm.queued) fun _ => rfl).trans hwq, (hnote.hbm_field (by decide) (f := Hbm.debts) fun _ => rfl).trans hwd⟩
  obtain ⟨htq, htd⟩ := hserved _ rfl (r.write = true)
  have htqueued : t.hbm.queued = v.hbm.queued := by rw [ht]; exact htq
  have htdebts : t.hbm.debts = v.hbm.debts := by rw [ht]; exact htd
  refine ⟨?_, ?_, fun y hy hno => ?_⟩
  · rw [debtOf_eq, htdebts]
    exact hdebt
  · rw [htqueued]
    exact hgone
  · rw [htqueued]
    exact hkept y (by rw [hqueue]; exact hy) hno

/-- A request to a pseudo-channel without debt, refresh or targeted refresh, that meets no error. -/
theorem accessReq_clean (hfrozen : (pcOf s r.addr).frozen = false) (hread : r.write = true ∨ allReadable s = true)
    (hdebt : debtOf s (pcOf s r.addr).stack (pcOf s r.addr).pc = 0)
    (hdue : refreshIsDue s (pcOf s r.addr).stack (pcOf s r.addr).pc = false)
    (hqueued : ∀ y ∈ s.hbm.queued, ¬(y.stack = (pcOf s r.addr).stack ∧ y.pc = (pcOf s r.addr).pc)) :
    accessReq r age s = bankServed (trafficPort r.traffic) (pcOf s r.addr).stack (pcOf s r.addr).pc (bankOf (decodeAddr s r.addr).2)
      (rowOf (decodeAddr s r.addr).2) (rolled (trafficPort r.traffic) age s) := by
  obtain ⟨rows, throttled, window, urg3, hroll, -, -, -⟩ := rolled_form (p := trafficPort r.traffic) (age := age) (s := s)
  have hidle := refreshFirst_idle (s := rolled (trafficPort r.traffic) age s) (st := (pcOf s r.addr).stack) (pc := (pcOf s r.addr).pc)
    (arrived := (rolled (trafficPort r.traffic) age s).now - age) (scrub := trafficPort r.traffic == 7)
    (by rw [hroll]; exact hdebt) (by rw [hroll]; exact hdue) (by rw [hroll]; exact hqueued)
  have hclean : r.write = true ∨ allReadable (rolled (trafficPort r.traffic) age s) = true := by
    rw [hroll]
    exact hread
  rw [accessReq_served hfrozen, hidle, requestServed_clean hclean]

theorem request_clean_frame (hfrozen : (pcOf s r.addr).frozen = false) (hread : r.write = true ∨ allReadable s = true)
    (hdebt : debtOf s (pcOf s r.addr).stack (pcOf s r.addr).pc = 0)
    (hdue : refreshIsDue (tick dt s) (pcOf s r.addr).stack (pcOf s r.addr).pc = false)
    (hqueued : ∀ y ∈ s.hbm.queued, ¬(y.stack = (pcOf s r.addr).stack ∧ y.pc = (pcOf s r.addr).pc)) (hidle : regField s 0x00B00008 0 12 ≠ 0) :
    let e := pcOf s r.addr; let x := (decodeAddr s r.addr).2; let t := accessReq r r.age (tick dt s)
    (∀ g, g ∈ t.hbm.pages ↔ g = ⟨e.stack, e.pc, bankOf x, rowOf x, (tick dt s).now⟩ ∨
      (g ∈ s.hbm.pages ∧ ¬(g.stack = e.stack ∧ g.pc = e.pc ∧ g.bank = bankOf x))) ∧
    (urgency s (trafficPort r.traffic) r.age ≠ 3 → t.hbm.urg3 = s.hbm.urg3) ∧
    (s.hbm.window = (tick dt s).now / rdWindow s * rdWindow s →
      ∀ c ∈ s.hbm.rows, c.stack = e.stack → c.pc = e.pc → c.bank = bankOf x → c.group = rowOf x / 16 →
      (∀ q ∈ s.hbm.rows, q.stack = c.stack → q.pc = c.pc → q.bank = c.bank → q.group = c.group → q = c) →
      (∀ g ∈ s.hbm.pages, ¬(g.stack = e.stack ∧ g.pc = e.pc ∧ g.bank = bankOf x ∧ g.row = rowOf x)) →
      c.count + 1 < rdThr s → { c with count := c.count + 1 } ∈ t.hbm.rows ∧ t.hbm.queued = s.hbm.queued) ∧
    t.hbm.cells = s.hbm.cells ∧ t.hbm.lanes = s.hbm.lanes ∧ OnlyRecords { s with hbm := t.hbm } t := by
  intro e x t
  obtain ⟨rows, throttled, window, urg3, hroll, -, hsame, hurg⟩ := rolled_form (p := trafficPort r.traffic) (age := r.age) (s := tick dt s)
  have ht : t = bankServed (trafficPort r.traffic) e.stack e.pc (bankOf x) (rowOf x) (rolled (trafficPort r.traffic) r.age (tick dt s)) :=
    accessReq_clean (s := tick dt s) hfrozen hread hdebt hdue hqueued
  rw [hroll] at ht
  have hidle' : regField { tick dt s with hbm := { s.hbm with rows := rows, throttled := throttled, window := window, urg3 := urg3 } }
      0x00B00008 0 12 ≠ 0 := hidle
  have hall : Within (clockParts ++ [.hbm, .ledger]) s t := by
    rw [ht]
    have hroll : Within [.hbm, .ledger] (tick dt s) { tick dt s with
        hbm := { s.hbm with rows := rows, throttled := throttled, window := window, urg3 := urg3 } } :=
      within_modHbm_told (f := fun h => { h with rows := rows, throttled := throttled, window := window, urg3 := urg3 }) fun _ => ⟨rfl, rfl, rfl⟩
    exact (within_trans within_tick (hroll.then within_bankServed)).mono (by decide)
  have hcells : t.hbm.cells = s.hbm.cells ∧ t.hbm.lanes = s.hbm.lanes := hall .cells (by decide)
  refine ⟨fun g => ?_, fun h => ?_, fun hwin c hc h1 h2 h3 h4 honly hmiss hthr => ?_, hcells.1, hcells.2, ?_⟩
  · rw [ht]
    exact accessBank_pages hidle'
  · obtain ⟨_, _, _, _, _, _, hurg3⟩ := accessBank_hbm (port := trafficPort r.traffic) (st := e.stack) (pc := e.pc) (bank := bankOf x) (row := rowOf x)
      (s := { tick dt s with hbm := { s.hbm with rows := rows, throttled := throttled, window := window, urg3 := urg3 } })
    have hacc : t.hbm.urg3 = (accessBank (trafficPort r.traffic) e.stack e.pc (bankOf x) (rowOf x)
      { tick dt s with hbm := { s.hbm with rows := rows, throttled := throttled, window := window, urg3 := urg3 } }).hbm.urg3 := by
      rw [ht]
      rfl
    rw [hacc, hurg3]
    exact hurg h
  · have hrows : rows = s.hbm.rows := hsame hwin
    rw [ht]
    exact accessBank_counts (s := { tick dt s with hbm := { s.hbm with rows := rows, throttled := throttled, window := window, urg3 := urg3 } })
      hidle' (hrows ▸ hc) h1 h2 h3 h4 (hrows ▸ honly) hmiss hthr
  · have hpatch : patch [.cells, .hbm, .selfRef] s t = { s with hbm := t.hbm } := rfl
    rw [← hpatch]
    exact onlyRecords_patch (m := [.cells, .hbm, .selfRef]) (hall.mono (by decide)) (by decide)


/-! ### Requests to the pools -/

theorem exec_memoryRequest_pool {p : Nat} (h : r.pool = some p) :
    exec (.memoryRequest dt [r]) s = .next (hbmServe [] (poolServe r p (tick dt s))) := by
  have hnone : [r].filter (·.pool.isNone) = [] := by simp [h]
  have hexec : exec (.memoryRequest dt [r]) s = .next (hbmServe ([r].filter (·.pool.isNone))
      (r.pool.elim (tick dt s) fun p => poolServe r p (tick dt s))) := rfl
  rw [hexec, hnone, h, Option.elim_some]

theorem poolCells_none {p o n : Nat} (h : s.ecc.sram = []) : poolCells s p o n = [] := by
  rw [poolCells, h]
  rfl

theorem poolServe_clean {p : Nat} (hflips : r.flips = []) (h : s.ecc.sram = []) : poolServe r p s = s := by
  have hbad : poolBad s p r.addr r.len = [] := by rw [poolBad, poolCells_none h]; rfl
  have hnote : notePool p r.unit_ r.addr r.len s = s := by
    unfold notePool
    dsimp only
    rw [hbad, poolCells_none h]
    rfl
  unfold poolServe
  dsimp only
  rw [hflips, show forEach ([] : List (Nat × Nat)) (fun e => flipPool p e.1 e.2) s = s from rfl, hbad, hnote, poolCells_none h]
  split
  · rfl
  · split <;> rfl

/-- One byte of a pool whose stored bits are flipped. -/
def poolFlipped (p o b : Nat) (s : State) : State := { s with ecc := { s.ecc with sram := [(poolKey p o, b)] } }

theorem flipPool_first {p o b : Nat} (h : s.ecc.sram = []) (ho : o < poolSize p) (hb : b < (if p < 5 then 2 ^ 13 else 2 ^ 14)) (h0 : b ≠ 0) :
    flipPool p o b s = poolFlipped p o b s := by
  have hbits : poolBits s p o = 0 := by rw [poolBits, h]; rfl
  have hmod : b % (if p < 5 then 2 ^ 13 else 2 ^ 14) = b := Nat.mod_eq_of_lt hb
  have hxor : Nat.xor 0 b = b := Nat.zero_xor b
  unfold flipPool
  rw [if_neg (by omega), hbits, hmod, hxor]
  unfold setPoolBits poolFlipped
  dsimp only
  rw [h, if_neg h0]
  rfl

theorem poolCells_flipped {p o b a n : Nat} (h : s.ecc.sram = [(poolKey p o, b)]) (h1 : a ≤ o) (h2 : o < a + n) : poolCells s p a n = [o] := by
  have hlow : poolKey p a ≤ poolKey p o := Nat.add_le_add_left h1 _
  have hhigh : poolKey p o < poolKey p (a + n) := Nat.add_lt_add_left h2 _
  have hkey : poolKey p o - poolKey p 0 = o := by
    simp only [poolKey]
    omega
  simp [poolCells, h, hlow, hhigh, hkey]

theorem poolBits_flipped {p o b : Nat} (h : s.ecc.sram = [(poolKey p o, b)]) : poolBits s p o = b := by
  simp [poolBits, h, getKey]

/-- An uncorrectable byte of a pool is counted. -/
theorem notePool_bad {p o b a n unit_ : Nat} (h : s.ecc.sram = [(poolKey p o, b)]) (h1 : a ≤ o) (h2 : o < a + n) (hbad : (poolDecode p b).1 = 2) :
    poolBad s p a n = [o] ∧ notePool p unit_ a n s = countUe p unit_ [o] s := by
  have hone : poolBad s p a n = [o] := by
    rw [poolBad, poolCells_flipped h h1 h2]
    exact List.filter_cons_of_pos (by rw [poolBits_flipped h, hbad]; rfl)
  have hce : (poolCells s p a n).filter (fun x => decide ((poolDecode p (poolBits s p x)).1 = 1)) = [] := by
    rw [poolCells_flipped h h1 h2]
    exact List.filter_cons_of_neg (by rw [poolBits_flipped h, hbad]; decide)
  refine ⟨hone, ?_⟩
  unfold notePool
  dsimp only
  rw [hone, hce]
  rfl

theorem within_countUe_told {p unit_ : Nat} {l : List Nat} : Within [.ecc, .ledger] s (countUe p unit_ l s) := by
  have htell : ∀ v : State, Within [.ecc, .ledger] v (tellUe p v) := fun v => by
    unfold tellUe
    exact within_ite within_refl ((within_setRegion.mono (by decide)).then (within_recordAt.mono (by decide)))
  unfold countUe
  split
  · exact within_refl
  · exact (within_setRegion.mono (by decide)).then (htell _)

theorem countUe_sram {p unit_ : Nat} {l : List Nat} : (countUe p unit_ l s).ecc.sram = s.ecc.sram := by
  have htell : ∀ v : State, (tellUe p v).ecc.sram = v.ecc.sram := fun v => by
    unfold tellUe
    dsimp only
    split <;> rfl
  unfold countUe
  split
  · rfl
  · exact (htell _).trans rfl


theorem poolDecode_zero {p : Nat} : (poolDecode p 0).1 ≠ 2 := by
  unfold poolDecode
  split
  · decide
  · decide

theorem poolServe_flip {p o b off : Nat} {host : Bool} (hsram : s.ecc.sram = []) (hwrite : r.write = false) (hreg : r.reg = some (off, host))
    (hflips : r.flips = [(o, b)]) (hb : b < (if p < 5 then 2 ^ 13 else 2 ^ 14)) (hbad : (poolDecode p b).1 = 2) (ho : o < poolSize p)
    (h1 : r.addr ≤ o) (h2 : o < r.addr + r.len) : ∃ u, Within [.ecc, .ledger] s u ∧ u.ecc.sram = [(poolKey p o, b)] ∧
      poolServe r p s = if host then emit (.abort off) u else shadowLost off r.unit_ (setPoolBits p o 0 u) := by
  have h0 : b ≠ 0 := fun h => absurd (h ▸ hbad) poolDecode_zero
  have hflip : forEach r.flips (fun e => flipPool p e.1 e.2) s = poolFlipped p o b s := by
    rw [hflips, forEach_cons, flipPool_first hsram ho hb h0]
    rfl
  have hflipped : (poolFlipped p o b s).ecc.sram = [(poolKey p o, b)] := rfl
  obtain ⟨hlost, hnote⟩ := notePool_bad (unit_ := r.unit_) hflipped h1 h2 hbad
  have hcounted : (countUe p r.unit_ [o] (poolFlipped p o b s)).ecc.sram = [(poolKey p o, b)] := countUe_sram.trans hflipped
  have hfirst : Within [.ecc, .ledger] s (poolFlipped p o b s) := within_of_eq_sub (m := [.ecc]) rfl (by decide) (by decide)
  refine ⟨countUe p r.unit_ [o] (poolFlipped p o b s), hfirst.then within_countUe_told, hcounted, ?_⟩
  unfold poolServe
  dsimp only
  rw [hflip, hwrite, if_neg Bool.false_ne_true, hlost, hnote, hreg]
  dsimp only
  rw [poolCells_flipped hcounted h1 h2]
  simp only [List.isEmpty_cons, Bool.not_false, Bool.not_true, Bool.false_eq_true, if_false, regLost, if_true]
  exact if_congr Iff.rfl rfl (congrArg (shadowLost off r.unit_) forEach_cons)

theorem setPoolBits_last {p o b : Nat} (h : s.ecc.sram = [(poolKey p o, b)]) : (setPoolBits p o 0 s).ecc.sram = [] := by
  simp [setPoolBits, h]

/-- A register of another state whose registers stand is set as it would be here. -/
theorem within_setRaw {off : Nat} {v : Word} (h : Within (clockParts ++ [.ecc, .ledger]) s t) :
    Within (clockParts ++ [.ecc, .ledger]) (setRaw off v s) (setRaw off v t) := by
  refine within_of_eq ?_ (by decide)
  have hpatch : setRaw off v (patch (clockParts ++ [.ecc, .ledger]) s t) =
      patch (clockParts ++ [.ecc, .ledger]) (setRaw off v s) (setRaw off v t) := rfl
  exact (congrArg (setRaw off v) (within_eq h)).trans hpatch

theorem setGrain_kept {w : Nat} : (setGrain w s).hbm.waiting = s.hbm.waiting ∧ (setGrain w s).hbm.selfRef = s.hbm.selfRef ∧
    (setGrain w s).ecc = s.ecc := by
  unfold setGrain
  dsimp only
  split <;> exact ⟨rfl, rfl, rfl⟩

theorem pool_clause {p : Nat} (hpool : r.pool = some p) (hsram : s.ecc.sram = []) (hwait : s.hbm.selfRef = true ∨ s.hbm.waiting = []) :
    (r.flips = [] → exec (.memoryRequest dt [r]) s = .next (tick dt s)) ∧
    (∀ off host o b, r.write = false → r.reg = some (off, host) → r.flips = [(o, b)] → b < (if p < 5 then 2 ^ 13 else 2 ^ 14) →
      (poolDecode p b).1 = 2 → o < poolSize p → r.addr ≤ o → o < r.addr + r.len →
      off ≠ regIrqCause → off ≠ regIrqCause + pf1Base → ∃ t, exec (.memoryRequest dt [r]) s = .next t ∧
        (host = true → .abort off ∈ t.out ∧ OnlyRecords { s with ecc := t.ecc } t) ∧
        (host = false → rawReg t off = regReset off ∧ t.ecc.sram = [] ∧ (off ≠ 0x00B00004 → t.hbm = s.hbm ∧
          OnlyRecords { setRaw off (regReset off) s with ecc := t.ecc } t))) := by
  have hidle : ∀ v : State, (v.hbm.selfRef = true ∨ v.hbm.waiting = []) → hbmServe [] v = v := fun v hv =>
    hbmServe_none (fun _ hr => absurd hr List.not_mem_nil) rfl hv
  refine ⟨fun hflips => ?_, fun off host o b hwrite hreg hflips hb hbad ho h1 h2 _ _ => ?_⟩
  · rw [exec_memoryRequest_pool hpool, poolServe_clean (s := tick dt s) hflips hsram, hidle (tick dt s) hwait]
  · obtain ⟨u, hu, husram, hserve⟩ := poolServe_flip (s := tick dt s) hsram hwrite hreg hflips hb hbad ho h1 h2
    have hkept : u.hbm = s.hbm := hu.apply State.hbm rfl
    have hclock : Within (clockParts ++ [.ecc, .ledger]) s u := (within_trans within_tick hu).mono (by decide)
    cases host with
    | true =>
      have hexec : exec (.memoryRequest dt [r]) s = .next (emit (.abort off) u) := by
        rw [exec_memoryRequest_pool hpool, hserve, if_pos rfl, hidle _ (by rw [show (emit (.abort off) u).hbm = u.hbm from rfl, hkept]; exact hwait)]
      have hall : Within ([.ecc] ++ (clockParts ++ [.causes, .ledger, .out])) s (emit (.abort off) u) :=
        (within_trans hclock within_emit).mono (by decide)
      exact ⟨_, hexec, fun _ => ⟨List.mem_cons_self, onlyRecords_patch hall (by decide)⟩, fun h => absurd h (by decide)⟩
    | false =>
      have hlost : (shadowLost off r.unit_ (setPoolBits p o 0 u)).hbm.waiting = s.hbm.waiting ∧
          (shadowLost off r.unit_ (setPoolBits p o 0 u)).hbm.selfRef = s.hbm.selfRef := by
        obtain ⟨hw, hs, -⟩ := setGrain_kept (w := (regReset off).toNat) (s := setPoolBits p o 0 u)
        rw [← hkept]
        unfold shadowLost
        split
        · exact ⟨hw, hs⟩
        · exact ⟨rfl, rfl⟩
      have hexec : exec (.memoryRequest dt [r]) s = .next (shadowLost off r.unit_ (setPoolBits p o 0 u)) := by
        obtain ⟨hw, hs⟩ := hlost
        rw [exec_memoryRequest_pool hpool, hserve, if_neg Bool.false_ne_true, hidle _ (by rw [hw, hs]; exact hwait)]
      have hclear : Within (clockParts ++ [.ecc, .ledger]) s (setPoolBits p o 0 u) :=
        hclock.then (within_of_eq_sub (m := [.ecc]) rfl (by decide) (by decide))
      refine ⟨_, hexec, fun h => absurd h (by decide), fun _ => ⟨?_, ?_, fun hoff => ?_⟩⟩
      · exact rawReg_setRaw_same
      · have hecc : (shadowLost off r.unit_ (setPoolBits p o 0 u)).ecc = (setPoolBits p o 0 u).ecc := by
          obtain ⟨-, -, he⟩ := setGrain_kept (w := (regReset off).toNat) (s := setPoolBits p o 0 u)
          unfold shadowLost
          split
          · exact he
          · rfl
        rw [hecc, setPoolBits_last husram]
      · have hform : shadowLost off r.unit_ (setPoolBits p o 0 u) =
            record r.unit_ 0x1406 (u32 off) (setRaw off (regReset off) (setPoolBits p o 0 u)) := by
          rw [shadowLost, if_neg hoff]
        have hall : Within ([.ecc] ++ (clockParts ++ [.causes, .ledger, .out])) (setRaw off (regReset off) s)
            (shadowLost off r.unit_ (setPoolBits p o 0 u)) := by
          rw [hform]
          exact (within_trans (within_setRaw hclear) within_recordAt).mono (by decide)
        exact ⟨by rw [hform]; exact hkept, onlyRecords_patch hall (by decide)⟩


/-! ### HBM_CFG -/

theorem grain_bits {w : Word} : bits w.toNat 0 4 = w.toNat % 16 := by
  simp [bits]

theorem cfgWrite_kept {w : Word} (hlock : s.host.locked = false) (h8 : 8 ≤ w.toNat % 16) (hexh : s.adm.exhibits = [])
    (hvit : ∀ k < 8, vitReset s k = true) : cfgWrite w s = setRaw 0x00B00004 (wordOf (w.toNat % 32)) (setGrain w.toNat s) := by
  have hall : (List.range 8).all (vitReset s) = true := List.all_eq_true.2 fun k hk => hvit k (List.mem_range.1 hk)
  unfold cfgWrite
  dsimp only
  rw [hlock, if_neg Bool.false_ne_true, grain_bits, hexh, hall, decide_eq_true h8]
  rfl

theorem cfgWrite_refused {w : Word} (hlock : s.host.locked = false)
    (h : w.toNat % 16 < 8 ∨ s.adm.exhibits ≠ [] ∨ ∃ k < 8, vitReset s k = false) : cfgWrite w s = record 5 0x120A (u32 w.toNat) s := by
  have hno : ¬ (decide (8 ≤ bits w.toNat 0 4) && s.adm.exhibits.isEmpty && (List.range 8).all (vitReset s)) = true := by
    rw [grain_bits, Bool.and_eq_true, Bool.and_eq_true, decide_eq_true_eq, List.isEmpty_iff, List.all_eq_true]
    rintro ⟨⟨h8, hexh⟩, hall⟩
    rcases h with h | h | ⟨k, hk, hvit⟩
    · omega
    · exact h hexh
    · exact absurd (hall k (List.mem_range.2 hk)) (by rw [hvit]; exact Bool.false_ne_true)
  unfold cfgWrite
  dsimp only
  rw [hlock, if_neg Bool.false_ne_true, if_neg hno]
  rfl

theorem cfgWrite_locked {w : Word} (hlock : s.host.locked = true) : Within [.ledger] s (cfgWrite w s) := by
  unfold cfgWrite
  dsimp only
  rw [hlock, if_pos rfl]
  exact within_ite within_recordAt within_refl

/-- Settles O50. -/
theorem requestsReachTheStacks : Obligations.RequestsReachTheStacks := by
  unfold Obligations.RequestsReachTheStacks
  refine ⟨fun dt s => ⟨fun l hl hp => ?_, fun r hr hp hflips => ?_, fun r p hpool hsram hwait => pool_clause hpool hsram hwait,
    fun x rest hqueued hself => ?_⟩, fun dt w s => ?_⟩
  · rw [exec_memoryRequest_hbm hl, hbmServe_unpowered (s := tick dt s) hp]
  · intro e x
    have hexec : exec (.memoryRequest dt [r]) s = .next (hbmServe [r] (tick dt s)) :=
      exec_memoryRequest_hbm fun y hy => (List.mem_singleton.1 hy) ▸ hr
    have hflip : ∀ y ∈ [r], y.flips = [] := fun y hy => (List.mem_singleton.1 hy) ▸ hflips
    have hone : r.addr < usable s → s.hbm.selfRef = false → s.hbm.waiting = [] →
        exec (.memoryRequest dt [r]) s = .next (accessReq r r.age (tick dt s)) := fun haddr hself hwait => by
      rw [hexec, hbmServe_one (s := tick dt s) hp hflips haddr hself hwait]
    refine ⟨fun haddr hwait => ?_, fun haddr hself => ?_, fun haddr hself hwait => ⟨fun hfrozen => ?_, fun hfrozen hbusy hrows => ?_,
      fun hfrozen hread hdebt hdue hqueued hidle => ?_⟩⟩
    · have hnone : [r].filter (fun r => decide (r.addr < usable (tick dt s))) = [] :=
        List.filter_cons_of_neg (by rw [decide_eq_true_eq]; exact Nat.not_lt.2 haddr)
      rw [hexec, hbmServe_none (s := tick dt s) hflip hnone hwait]
    · have hone : [r].filter (fun r => decide (r.addr < usable (tick dt s))) = [r] :=
        List.filter_cons_of_pos (by rw [decide_eq_true_eq]; exact haddr)
      rw [hexec, hbmServe_queues (s := tick dt s) hp hflip, hone]
      exact congrArg Host.Outcome.next (if_pos hself)
    · rw [hone haddr hself hwait, accessReq_frozen (s := tick dt s) hfrozen]
    · exact ⟨_, hone haddr hself hwait, accessReq_repays (s := tick dt s) hfrozen hbusy hrows⟩
    · exact ⟨_, hone haddr hself hwait, request_clean_frame hfrozen hread hdebt hdue hqueued hidle⟩
  · have hexec : exec (.hbmRdNeighbour dt) s = .next (targetDone x (modHbm (fun h => { h with queued := rest }) (tick dt s))) := by
      refine congrArg Host.Outcome.next ?_
      show (match s.hbm.queued with | [] => _ | x :: rest => _) = _
      rw [hqueued]
      exact if_neg (by rw [show (tick dt s).hbm.selfRef = s.hbm.selfRef from rfl, hself]; exact Bool.false_ne_true)
    obtain ⟨hhbm, hpages, hledger⟩ := targetDone_hbm (x := x) (s := modHbm (fun h => { h with queued := rest }) (tick dt s))
    have hdrop : Within [.hbm, .ledger] (tick dt s) (modHbm (fun h => { h with queued := rest }) (tick dt s)) :=
      within_modHbm_told fun _ => ⟨rfl, rfl, rfl⟩
    have hall := within_trans (within_tick (dt := dt) (s := s)) (hdrop.then (within_targetDone (x := x)))
    refine ⟨_, hexec, hhbm, hpages, hledger, ?_⟩
    exact onlyRecords_patch (m := [.cells, .hbm, .selfRef]) (hall.mono (by decide)) (by decide)
  · intro g
    refine ⟨fun hlock h8 hexh hvit => ⟨fun hg => ?_, fun hg => ?_⟩, fun hlock h => ?_, fun hlock => ?_⟩
    · refine congrArg Host.Outcome.next ((cfgWrite_kept (s := tick dt s) hlock h8 hexh hvit).trans ?_)
      rw [setGrain, grain_bits]
      exact congrArg _ (if_pos hg)
    · refine congrArg Host.Outcome.next ((cfgWrite_kept (s := tick dt s) hlock h8 hexh hvit).trans ?_)
      rw [setGrain, grain_bits]
      exact congrArg _ (if_neg hg)
    · exact congrArg Host.Outcome.next (cfgWrite_refused (s := tick dt s) hlock h)
    · have hall := cfgWrite_locked (s := tick dt s) (w := w) hlock
      exact ⟨_, rfl, hall.apply (rawReg · 0x00B00004) rfl, onlyRecords_of_within ((within_trans within_tick hall).mono (by decide))⟩

end Sys2Proof.Machine
end

section
/-!
PROOFS. Frequency points of the stacks (chapter 18): FREQ_SET, the moves and what follows them.
-/

namespace Sys2Proof.Machine
variable {s t u : State} {m : List StatePart} {dt q cause : Nat} {d : Desc}

/-! ### FREQ_SET -/

theorem exec_freqSet_accepted (h : Runs (.freqSet dt d) s) :
    exec (.freqSet dt d) s = .next (freqSetAct d.trunc (begun d d.trunc (tick dt s))) := congrArg Host.Outcome.next (runDesc_accepted h)

theorem takeCommand_waits {e : Desc × Nat × Nat} (h : s.hbm.pendFreq = some e) (hnow : s.now < e.2.2) : takeCommand s = s := by
  unfold takeCommand
  rw [h]
  exact if_neg fun hc => Nat.not_le.2 hnow hc.1

theorem takeCommand_none (h : s.hbm.pendFreq = none) : takeCommand s = s := by
  unfold takeCommand
  rw [h]

theorem settleFreq_waits {e : Desc × Nat × Nat} (h : s.hbm.pendFreq = some e) (hnow : s.now < e.2.2) : settleFreq s = s := by
  unfold settleFreq
  rw [h]
  exact if_neg fun hc => Nat.not_le.2 hnow hc.1

theorem freqSet_clause (hrun : Runs (.freqSet dt d) s) : let x := d.trunc; let b := begun d d.trunc (tick dt s)
    (3 < x.p8 16 → exec (.freqSet dt d) s = .next (complete x 0x1280 (u16 16) b)) ∧
    (x.p8 16 ≤ 3 → firstNonZero x (span 17 23 ++ span 32 63) = none →
      (s.hbm.tsValid.getD (x.p8 16) false = false → exec (.freqSet dt d) s = .next (complete x 0x1281 (u8 (x.p8 16)) b)) ∧
      (s.hbm.tsValid.getD (x.p8 16) false = true →
        (∀ e, s.hbm.pendFreq = some e → exec (.freqSet dt d) s = .next (complete x 0x1282 (u32 e.1.tag) b)) ∧
        (s.hbm.pendFreq = none → (tick dt s).now < x.p64 24 → exec (.freqSet dt d) s = .next { b with
          hbm := { s.hbm with pendFreq := some (x, x.p8 16, x.p64 24) } }))) := by
  intro x b
  have hexec : exec (.freqSet dt d) s = .next (freqSetAct x b) := exec_freqSet_accepted hrun
  have hhbm : b.hbm = s.hbm := begun_apply State.hbm rfl
  have hnow : b.now = (tick dt s).now := begun_now
  rw [hexec]
  generalize b = b at *
  unfold freqSetAct tsValid
  rw [hhbm]
  refine ⟨fun h => ?_, fun h hzero => ⟨fun hvalid => ?_, fun hvalid => ⟨fun e he => ?_, fun hnone hat => ?_⟩⟩⟩
  · rw [decide_eq_true h]
    rfl
  · rw [decide_eq_false (by omega), hzero, hvalid]
    rfl
  · rw [decide_eq_false (by omega), hzero, hvalid, he]
    rfl
  · rw [decide_eq_false (by omega), hzero, hvalid, hnone]
    have hpend : (modHbm (fun h => { h with pendFreq := some (x, x.p8 16, x.p64 24) }) b).hbm.pendFreq = some (x, x.p8 16, x.p64 24) := rfl
    have hlate : (modHbm (fun h => { h with pendFreq := some (x, x.p8 16, x.p64 24) }) b).now < x.p64 24 := by
      show b.now < _
      rw [hnow]
      exact hat
    have hdo : settleFreq (takeCommand (modHbm (fun h => { h with pendFreq := some (x, x.p8 16, x.p64 24) }) b)) =
        modHbm (fun h => { h with pendFreq := some (x, x.p8 16, x.p64 24) }) b := by
      rw [takeCommand_waits hpend hlate, settleFreq_waits hpend hlate]
    refine congrArg Host.Outcome.next (hdo.trans ?_)
    rw [← hhbm]
    rfl

/-! ### A move begins -/

/-- A session suspended is told. -/
def suspTold (st pc p owner : Nat) (s : State) : State :=
  let s := if isLatest s st pc then restSession 2 s else s
  record 1 0x1302 (u8 st ++ u8 pc ++ u8 p ++ u8 owner) { s with training := { s.training with susp := bump s.training.susp } }

theorem within_suspendSessions : Within [.training, .ledger] s (suspendSessions s) := by
  have hbump : ∀ v : State, Within [.training, .ledger] v { v with training := { v.training with susp := bump v.training.susp } } := fun _ =>
    within_of_eq_sub (m := [.training]) rfl (by decide) (by decide)
  have htell : ∀ (p st pc owner : Nat) (v : State), Within [.training, .ledger] v (suspTold st pc p owner v) :=
    fun p st pc owner v => ((within_ite (within_restSession.mono (by decide)) within_refl).then (hbump _)).then (within_recordAt.mono (by decide))
  have hmap : ∀ l : List Session, Within [.training, .ledger] s { s with training := { s.training with sessions := l } } := fun _ =>
    within_of_eq_sub (m := [.training]) rfl (by decide) (by decide)
  unfold suspendSessions
  dsimp only
  exact ((hmap _).then (within_forEach fun _ _ => htell _ _ _ _ _)).then (within_forEach fun _ _ => htell _ _ _ _ _)

/-- The sessions of a state stand. -/
def SessionsKept (s t : State) : Prop := t.training.sessions = s.training.sessions

theorem SessionsKept.then (h1 : SessionsKept s t) (h2 : SessionsKept t u) : SessionsKept s u := Eq.trans h2 h1

theorem sessionsKept_forEach {α : Type} {l : List α} {f : α → State → State} (hf : ∀ x v, SessionsKept v (f x v)) : SessionsKept s (forEach l f s) := by
  induction l generalizing s with
  | nil => rfl
  | cons x l ih => exact (hf x s).then ih

/-- A session suspended. -/
def suspended (now : Nat) (x : Session) : Session :=
  if x.suspended then x else { x with suspended := true, susps := x.susps + 1, steps := x.stepsAt now }

theorem suspendSessions_sessions : (suspendSessions s).training.sessions = s.training.sessions.map (suspended s.now) := by
  have htell : ∀ (p st pc owner : Nat) (v : State), SessionsKept v (suspTold st pc p owner v) := by
    intro p st pc owner v
    have hrest : ∀ b : Bool, SessionsKept v (if b then restSession 2 v else v) := fun b => by cases b <;> rfl
    exact (hrest _).then rfl
  have hkept : SessionsKept { s with training := { s.training with sessions := s.training.sessions.map (suspended s.now) } } (suspendSessions s) := by
    unfold suspendSessions
    dsimp only
    exact (sessionsKept_forEach fun x v => htell _ _ _ _ v).then (sessionsKept_forEach fun x v => htell _ _ _ _ v)
  exact hkept

/-- A move has begun. -/
def freqMoved (q : Nat) (s : State) : State :=
  modHbm (fun h => { h with moving := some (q, h.why), selfRef := true, pages := [], debts := [] }) (suspendSessions (takeShrink s))

theorem freqMove_begins (hpend : s.hbm.pendFreq = none) (hmoving : s.hbm.moving = none) (hcalled : calledFp s ≠ s.hbm.fp) (hm : s.hbm.m ≠ 0)
    (hrun : s.startup.running = false) (hleave : s.hbm.fp < calledFp s → anyLeaving s = false) : freqMove s = freqMoved (calledFp s) s := by
  unfold freqMove
  rw [takeCommand_none hpend]
  refine if_neg ?_
  rw [hmoving, hrun]
  rintro (h | h | h | h | ⟨h1, h2⟩)
  · exact absurd h Bool.false_ne_true
  · exact hcalled h
  · exact hm h
  · exact absurd h Bool.false_ne_true
  · exact absurd h2 (by rw [hleave h1]; exact Bool.false_ne_true)

theorem freqMoved_frame : let t := freqMoved q (tick dt s)
    t.hbm = { s.hbm with moving := some (q, s.hbm.why), selfRef := true, pages := [], debts := [] } ∧
    (∀ x ∈ t.training.sessions, x.suspended = true) ∧
    OnlyRecords { s with hbm := t.hbm, training := t.training,
                         adm := { s.adm with caps := t.adm.caps, pendingCaps := t.adm.pendingCaps, inForce := t.adm.inForce } } t := by
  have hwork : Within (clockParts ++ [.caps, .training, .ledger]) s (suspendSessions (takeShrink (tick dt s))) :=
    ((within_trans within_tick within_takeShrink).mono (by decide)).then (within_suspendSessions.mono (by decide))
  have hhbm : (suspendSessions (takeShrink (tick dt s))).hbm = s.hbm := hwork.apply State.hbm rfl
  have hsessions := suspendSessions_sessions (s := takeShrink (tick dt s))
  have hsusp : ∀ x ∈ (suspendSessions (takeShrink (tick dt s))).training.sessions, x.suspended = true := fun x hx => by
    rw [hsessions] at hx
    obtain ⟨y, -, rfl⟩ := List.mem_map.1 hx
    unfold suspended
    split
    next h => exact h
    · rfl
  unfold freqMoved
  dsimp only
  generalize suspendSessions (takeShrink (tick dt s)) = v at *
  have hmove : Within [.hbm, .selfRef] v
      (modHbm (fun h => { h with moving := some (q, h.why), selfRef := true, pages := [], debts := [] }) v) := within_of_eq rfl (by decide)
  refine ⟨?_, hsusp, ?_⟩
  · rw [← hhbm]
    rfl
  · exact onlyRecords_patch (m := [.cells, .hbm, .selfRef, .training, .caps]) ((within_trans hwork hmove).mono (by decide)) (by decide)


/-! ### A move ends -/

/-- Of the stacks' controllers only what a new point lets follow has changed, where no debt stands. -/
def FreqKept (s t : State) : Prop := s.hbm.debts = [] → t.hbm = { s.hbm with
  pendFreq := t.hbm.pendFreq, doubled := t.hbm.doubled, coolSince := t.hbm.coolSince, pages := t.hbm.pages }

theorem FreqKept.then (h1 : FreqKept s t) (h2 : FreqKept t u) : FreqKept s u := fun h => by
  have ht := h1 h
  have hu := h2 (by rw [ht]; exact h)
  rw [ht] at hu
  exact hu

theorem freqKept_of_eq (h : t.hbm = s.hbm) : FreqKept s t := fun _ => by rw [h]

theorem freqKept_ite {p : Prop} [Decidable p] {a b : State} (ha : FreqKept s a) (hb : FreqKept s b) : FreqKept s (if p then a else b) := by
  split
  · exact ha
  · exact hb

theorem freqKept_setDoubled {n : Nat} {on : Bool} : FreqKept s (setDoubled n on s) := by
  have hrec : ∀ (v : State) unit event det, (record unit event det v).hbm = v.hbm := fun v _ _ _ => within_recordAt.apply State.hbm rfl
  intro h
  unfold setDoubled
  dsimp only
  rw [hrec]
  cases on <;> simp [modHbm, closePages, h]

theorem freqKept_refreshMode {n : Nat} : FreqKept s (refreshMode n s) := by
  have hcool : ∀ f : Hbm → List (Option Nat), FreqKept s (modHbm (fun h => { h with coolSince := f h }) s) := fun _ _ => rfl
  unfold refreshMode
  dsimp only
  refine freqKept_ite (freqKept_of_eq rfl) (freqKept_ite (hcool fun h => _) (freqKept_ite ?_ ?_))
  · exact freqKept_ite ((hcool fun h => _).then freqKept_setDoubled) (hcool fun h => _)
  · exact freqKept_ite ((hcool fun h => _).then freqKept_setDoubled) (hcool fun h => _)

theorem within_noteSession {owner point st pc action : Nat} : Within [.training, .free, .ledger] s (noteSession owner point st pc action s) :=
  within_of_eq_sub (m := [.training, .free]) rfl (by decide) (by decide)

/-- A session resumed. -/
def resumed (p now : Nat) (x : Session) : Session := if x.point = p ∧ x.suspended then { x with suspended := false, since := now } else x

/-- A session resumed is told. -/
def resumeTold (p : Nat) (x : Session) (s : State) : State :=
  let s := if isLatest s x.stack x.pc then { s with training := { s.training with state := 1, since := s.now } } else s
  record 1 0x1303 (u8 x.stack ++ u8 x.pc ++ u8 p ++ u8 1) s

theorem within_resumeTold {p : Nat} {x : Session} : Within [.training, .free, .ledger] s (resumeTold p x s) := by
  have hstate : Within [.training, .free, .ledger] s { s with training := { s.training with state := 1, since := s.now } } :=
    within_of_eq_sub (m := [.training]) rfl (by decide) (by decide)
  exact (within_ite hstate within_refl).then (within_recordAt.mono (by decide))

theorem resumeTold_sessions {p : Nat} {x : Session} : SessionsKept s (resumeTold p x s) := by
  have hstate : ∀ b : Bool, SessionsKept s (if b then { s with training := { s.training with state := 1, since := s.now } } else s) := fun b => by
    cases b <;> rfl
  exact (hstate _).then rfl

theorem within_resumeSessions : Within [.training, .free, .ledger] s (resumeSessions s) := by
  have hmap : ∀ l : List Session, Within [.training, .free, .ledger] s { s with training := { s.training with sessions := l } } := fun _ =>
    within_of_eq_sub (m := [.training]) rfl (by decide) (by decide)
  unfold resumeSessions
  dsimp only
  exact ((hmap _).then (within_forEach fun x _ => within_resumeTold (x := x))).then (within_forEach fun _ _ => within_noteSession)

theorem resumeSessions_sessions : (resumeSessions s).training.sessions = s.training.sessions.map (resumed s.hbm.fp s.now) := by
  have hkept : SessionsKept { s with training := { s.training with sessions := s.training.sessions.map (resumed s.hbm.fp s.now) } } (resumeSessions s) := by
    unfold resumeSessions
    dsimp only
    exact (sessionsKept_forEach fun x v => resumeTold_sessions (x := x)).then (sessionsKept_forEach fun _ _ => rfl)
  exact hkept

theorem resumed_runs {p now : Nat} {x : Session} (h : (resumed p now x).point = p) : (resumed p now x).suspended = false := by
  unfold resumed at *
  split at h
  next hx => rw [if_pos hx]
  next hx =>
    rw [if_neg hx]
    exact Bool.eq_false_iff.2 fun hs => hx ⟨h, hs⟩

theorem within_settleFreq : Within ([.hbm] ++ replyParts) s (settleFreq s) := by
  have hdrop : Within ([.hbm] ++ replyParts) s (modHbm (fun h => { h with pendFreq := none }) s) :=
    Within.mono (m := [.hbm]) (within_modHbm fun _ => ⟨rfl, rfl, rfl⟩) (by decide)
  have hdone : ∀ (c : Prop) [Decidable c] (d : Desc) st bs st' bs', Within ([.hbm] ++ replyParts) s
      (if c then complete d st bs (modHbm (fun h => { h with pendFreq := none }) s)
        else complete d st' bs' (modHbm (fun h => { h with pendFreq := none }) s)) := fun c _ d st bs st' bs' =>
    within_ite (hdrop.then (within_complete.mono (by decide))) (hdrop.then (within_complete.mono (by decide)))
  unfold settleFreq
  split
  · exact within_ite (hdone _ _ _ _ _ _) within_refl
  · exact within_refl

theorem freqKept_settleFreq : FreqKept s (settleFreq s) := by
  have hdone : ∀ (c : Prop) [Decidable c] (d : Desc) st bs st' bs', FreqKept s
      (if c then complete d st bs (modHbm (fun h => { h with pendFreq := none }) s)
        else complete d st' bs' (modHbm (fun h => { h with pendFreq := none }) s)) := fun c _ d st bs st' bs' => by
    have hdrop : FreqKept s (modHbm (fun h => { h with pendFreq := none }) s) := fun _ => rfl
    exact freqKept_ite (hdrop.then (freqKept_of_eq (within_complete.apply State.hbm rfl)))
      (hdrop.then (freqKept_of_eq (within_complete.apply State.hbm rfl)))
  unfold settleFreq
  split
  · exact freqKept_ite (hdone _ _ _ _ _ _) (freqKept_of_eq rfl)
  · exact freqKept_of_eq rfl

/-- The stacks have left self-refresh at a new point. -/
def freqLeft (q : Nat) (s : State) : State :=
  modHbm (fun h => { h with moving := none, fp := q, selfRef := decide (s.power.state = .p2), debts := [] }) s

/-- A move has ended, before what follows it. -/
def freqTold (q cause : Nat) (s : State) : State :=
  record (hbmUnit 0) 0x1201 (u8 s.hbm.fp ++ u8 q ++ u8 cause) (reprice cause (freqLeft q s))

/-- What follows a move. -/
def freqFollowed (s : State) : State := settleFreq (resumeSessions (refreshMode 1 (refreshMode 0 s)))

/-- What follows a move, in parts. -/
def followParts : List StatePart := [.hbm, .training, .free] ++ replyParts

theorem within_freqFollowed : Within followParts s (freqFollowed s) :=
  (((within_refreshMode.mono (by decide)).then (within_refreshMode.mono (by decide))).then (within_resumeSessions.mono (by decide))).then
    (within_settleFreq.mono (by decide))

theorem freqKept_freqFollowed : FreqKept s (freqFollowed s) :=
  ((freqKept_refreshMode.then freqKept_refreshMode).then (freqKept_of_eq (within_resumeSessions.apply State.hbm rfl))).then freqKept_settleFreq

theorem within_freqLeft : Within [.hbm, .selfRef] s (freqLeft q s) := within_of_eq rfl (by decide)

theorem freqTold_hbm : (freqTold q cause s).hbm = (freqLeft q s).hbm :=
  (within_recordAt.apply State.hbm rfl).trans (within_reprice.apply State.hbm rfl)

theorem within_freqTold : Within ([.hbm, .selfRef] ++ priceParts ++ revokeParts) s (freqTold q cause s) :=
  ((within_freqLeft.mono (by decide)).then (within_reprice.mono (by decide))).then (within_recordAt.mono (by decide))

theorem within_freqTold_idle (h : s.adm.items = []) : Within ([.hbm, .selfRef] ++ priceParts) s (freqTold q cause s) :=
  ((within_freqLeft.mono (by decide)).then ((within_reprice_idle (within_freqLeft.apply (fun s => s.adm.items) rfl |>.trans h)).mono (by decide))).then
    (within_recordAt.mono (by decide))


theorem freqChanged_idle (h : s.hbm.moving = none) : freqChanged s = s := by
  unfold freqChanged
  rw [h]

theorem freqChanged_moving (h : s.hbm.moving = some (q, cause)) : freqChanged s =
    (if (freqFollowed (freqTold q cause s)).hbm.selfRef then freqFollowed (freqTold q cause s)
      else serveWaiting (freqFollowed (freqTold q cause s))) := by
  unfold freqChanged
  rw [h]
  rfl

theorem serveWaiting_idle (h : s.hbm.waiting = []) : serveWaiting s = s := by
  rw [serveWaiting, h]
  rfl

/-- The host accesses that waited are served: none. -/
theorem serveHosts_idle (h : s.hbm.host = []) : forEach s.hbm.host serveHost (modHbm (fun h => { h with host := [] }) s) = s := by
  have hsame : modHbm (fun h => { h with host := [] }) s = s := by
    show { s with hbm := { s.hbm with host := [] } } = s
    rw [← h]
  rw [h, hsame]
  rfl

theorem exec_hbmFreqChanged : exec (.hbmFreqChanged dt) s = .next (if (freqChanged (tick dt s)).hbm.selfRef then freqChanged (tick dt s)
    else forEach (freqChanged (tick dt s)).hbm.host serveHost (modHbm (fun h => { h with host := [] }) (freqChanged (tick dt s)))) := rfl

theorem freqChanged_exec (h : s.hbm.moving = some (q, cause)) (hwait : s.hbm.waiting = []) (hhost : s.hbm.host = []) :
    exec (.hbmFreqChanged dt) s = .next (freqFollowed (freqTold q cause (tick dt s))) ∧
      (freqFollowed (freqTold q cause (tick dt s))).hbm = { s.hbm with
        moving := none, fp := q, selfRef := decide (s.power.state = .p2), debts := []
        pendFreq := (freqFollowed (freqTold q cause (tick dt s))).hbm.pendFreq
        doubled := (freqFollowed (freqTold q cause (tick dt s))).hbm.doubled
        coolSince := (freqFollowed (freqTold q cause (tick dt s))).hbm.coolSince
        pages := (freqFollowed (freqTold q cause (tick dt s))).hbm.pages } := by
  have htold : (freqTold q cause (tick dt s)).hbm = (freqLeft q (tick dt s)).hbm := freqTold_hbm
  have hkept := freqKept_freqFollowed (s := freqTold q cause (tick dt s)) (by rw [htold]; rfl)
  have hchanged := freqChanged_moving (s := tick dt s) h
  rw [exec_hbmFreqChanged, hchanged]
  generalize freqFollowed (freqTold q cause (tick dt s)) = t at *
  have hform : t.hbm = { s.hbm with
      moving := none, fp := q, selfRef := decide (s.power.state = .p2), debts := []
      pendFreq := t.hbm.pendFreq, doubled := t.hbm.doubled, coolSince := t.hbm.coolSince, pages := t.hbm.pages } := by
    rw [htold] at hkept
    exact hkept
  have hw : t.hbm.waiting = [] := by rw [hform]; exact hwait
  have hh : t.hbm.host = [] := by rw [hform]; exact hhost
  refine ⟨?_, hform⟩
  rw [serveWaiting_idle hw, ite_self, serveHosts_idle hh, ite_self]

theorem freqFollowed_sessions (hfp : s.hbm.fp = q) (hdebts : s.hbm.debts = []) :
    ∀ x ∈ (freqFollowed s).training.sessions, x.point = q → x.suspended = false := by
  have hkept : (refreshMode 1 (refreshMode 0 s)).hbm.fp = q := by
    rw [(freqKept_refreshMode.then freqKept_refreshMode) hdebts]
    exact hfp
  have hsessions : (freqFollowed s).training.sessions = (resumeSessions (refreshMode 1 (refreshMode 0 s))).training.sessions :=
    within_settleFreq.apply (fun s => s.training.sessions) rfl
  intro x hx hq
  rw [hsessions, resumeSessions_sessions, hkept] at hx
  obtain ⟨y, -, rfl⟩ := List.mem_map.1 hx
  exact resumed_runs hq

theorem freqTold_point : (freqTold q cause s).hbm.fp = q ∧ (freqTold q cause s).hbm.debts = [] := by
  rw [freqTold_hbm]
  exact ⟨rfl, rfl⟩

/-- What a move and what follows it reach. -/
def changeParts : List StatePart := [.hbm, .selfRef, .training, .free] ++ priceParts ++ revokeParts

theorem freqChanged_frame : let t := freqFollowed (freqTold q cause (tick dt s))
    (∀ x ∈ t.training.sessions, x.point = q → x.suspended = false) ∧ t.power = s.power ∧ t.ports = s.ports ∧
      t.time = (tick dt s).time ∧ t.thermal = s.thermal ∧ t.ecc = s.ecc ∧
      (s.adm.items = [] → t.heads = s.heads ∧ t.gheler = s.gheler ∧ t.ingest = s.ingest) := by
  obtain ⟨hfp, hdebts⟩ := freqTold_point (q := q) (cause := cause) (s := tick dt s)
  have hsessions := freqFollowed_sessions hfp hdebts
  have hmove : Within changeParts (tick dt s) (freqFollowed (freqTold q cause (tick dt s))) :=
    (within_freqTold.mono (by decide)).then (within_freqFollowed.mono (by decide))
  have hidle : s.adm.items = [] → Within ([.hbm, .selfRef] ++ priceParts ++ followParts) (tick dt s) (freqFollowed (freqTold q cause (tick dt s))) :=
    fun h => ((within_freqTold_idle (s := tick dt s) h).mono (by decide)).then (within_freqFollowed.mono (by decide))
  dsimp only
  generalize freqFollowed (freqTold q cause (tick dt s)) = t at *
  have hall := within_trans (within_tick (dt := dt) (s := s)) hmove
  refine ⟨hsessions, hall.apply State.power rfl, hall.apply State.ports rfl, hmove.apply State.time rfl, hall.apply State.thermal rfl,
    hall.apply State.ecc rfl, fun hitems => ?_⟩
  have hrest := within_trans (within_tick (dt := dt) (s := s)) (hidle hitems)
  exact ⟨hrest.apply State.heads rfl, hrest.apply State.gheler rfl, hrest.apply State.ingest rfl⟩

/-- Settles O49. -/
theorem frequencyPointsMoveAndRefreshesFollow : Obligations.FrequencyPointsMoveAndRefreshesFollow := by
  unfold Obligations.FrequencyPointsMoveAndRefreshesFollow
  refine ⟨fun dt s => ⟨fun d => freqSet_clause, fun hpend hmoving hcalled hm hrun hleave => ?_,
    fun q cause hmoving hwait hhost => ?_, fun hmoving hidle => ?_⟩, fun dt st pc s => ?_⟩
  · exact ⟨_, congrArg Host.Outcome.next (freqMove_begins (s := tick dt s) hpend hmoving hcalled hm hrun hleave), freqMoved_frame⟩
  · obtain ⟨hexec, hhbm⟩ := freqChanged_exec (dt := dt) hmoving hwait hhost
    exact ⟨_, hexec, hhbm, freqChanged_frame⟩
  · have hsame : freqChanged (tick dt s) = tick dt s := freqChanged_idle hmoving
    rw [exec_hbmFreqChanged, hsame]
    refine congrArg Host.Outcome.next ?_
    rcases hidle with h | h
    · exact if_pos h
    · rw [serveHosts_idle (s := tick dt s) h, ite_self]
  · intro at_
    refine ⟨fun hp hself hdue hfrozen hcap => refreshDue_postponed hp hself hdue hfrozen hcap, fun hp hself hdue => refreshDue_issued hp hself hdue,
      fun h q => congrArg Host.Outcome.next (refreshDueStep_idle (s := tick dt s) h), fun bank => pageIdleClose_clause, ?_⟩
    intro w
    exact ⟨fun h => congrArg Host.Outcome.next (rollWindow_rolls (s := tick dt s) h),
      fun h => congrArg Host.Outcome.next (rollWindow_idle (s := tick dt s) h)⟩

end Sys2Proof.Machine
end

section
/-!
PROOFS. Stored-data protection (chapter 20): Archive regions, their counts, the leak of the buckets, and the Conservator.
-/

namespace Sys2Proof.Machine
variable {s t u : State} {m : List StatePart} {dt n : Nat} {d : Desc}

/-! ### A range reads zero -/

theorem getKey_filter {α : Type} {p : Nat → Bool} {a : Nat} {l : List (Nat × α)} :
    getKey a (l.filter fun e => p e.1) = if p a then getKey a l else none := by
  unfold getKey
  rw [List.find?_filter]
  split
  next h =>
    have hsame : (fun e : Nat × α => decide ((p e.1 = true) ∧ (e.1 == a) = true)) = fun e => e.1 == a := funext fun e => by
      by_cases he : e.1 = a
      · simp [he, h]
      · simp [he]
    rw [hsame]
  next h =>
    refine congrArg (Option.map _) (List.find?_eq_none.2 fun e _ he => ?_)
    rw [decide_eq_true_eq, beq_iff_eq] at he
    exact h (he.2 ▸ he.1)

theorem rawByte_zeroRange {a n x : Nat} : rawByte (zeroRange a n s) x = if a ≤ x ∧ x < a + n then 0 else rawByte s x := by
  have hget : rawByte (zeroRange a n s) x = (getKey x (s.hbm.cells.filter fun e => decide (e.1 < a) || decide (a + n ≤ e.1))).getD 0 := rfl
  rw [hget, getKey_filter (p := fun y => decide (y < a) || decide (a + n ≤ y))]
  by_cases h : a ≤ x ∧ x < a + n
  · rw [if_pos h, if_neg (by rw [Bool.or_eq_true, decide_eq_true_eq, decide_eq_true_eq]; omega)]
    rfl
  · rw [if_neg h, if_pos (by rw [Bool.or_eq_true, decide_eq_true_eq, decide_eq_true_eq]; omega)]
    rfl

theorem within_zeroRange {a n : Nat} : Within storeParts s (zeroRange a n s) := within_of_eq rfl (by decide)

/-! ### Archive regions -/

theorem exec_regionCfg_accepted (h : Runs (.regionCfg dt d) s) :
    exec (.regionCfg dt d) s = .next (regionCfgAct d.trunc (begun d d.trunc (tick dt s))) := congrArg Host.Outcome.next (runDesc_accepted h)

/-- A region defined. -/
def regionDefined (d : Desc) (s : State) : State :=
  let r := newArchive d s
  let s := zeroRange r.comp (r.size / 8 * 5) (zeroRange r.base r.size s)
  { s with ecc := { s.ecc with archives := s.ecc.archives ++ [r] } }

theorem regionCfgAct_eq : regionCfgAct d s = orElseDo d (firstBad
    [((regionInvalid d s).isSome, 0x1480, u16 ((regionInvalid d s).getD 0)),
     (!(d.p8 17 == 1) && (regionOverlap d s).isSome, 0x1481, u16 ((regionOverlap d s).getD 0)),
     ((d.p8 17 == 1) && ((archiveNo s (d.p8 16)).bind (regionUser s)).isSome, 0x1482, u16 (((archiveNo s (d.p8 16)).bind (regionUser s)).getD 0)),
     ((archiveNo s (d.p8 16)).any fun r => !r.ready, 0x1483, u8 (d.p8 16))])
    (fun s => if (d.p8 17 == 1) = true then complete d 0 [] (removeArchive (d.p8 16) s) else complete d 0 [] (regionDefined d s)) s := rfl

theorem regionCfgAct_invalid {o : Nat} (h : regionInvalid d s = some o) : regionCfgAct d s = complete d 0x1480 (u16 o) s := by
  rw [regionCfgAct_eq, h]
  rfl

theorem regionCfgAct_overlap {h : Nat} (hvalid : regionInvalid d s = none) (h0 : d.p8 17 = 0) (hover : regionOverlap d s = some h) :
    regionCfgAct d s = complete d 0x1481 (u16 h) s := by
  rw [regionCfgAct_eq, hvalid, h0, hover]
  rfl

/-- A region that passes its first check is new. -/
theorem regionInvalid_new (h : regionInvalid d s = none) (h0 : d.p8 17 = 0) : archiveNo s (d.p8 16) = none := by
  unfold regionInvalid at h
  dsimp only at h
  rw [h0, Option.map_eq_none_iff, List.find?_eq_none] at h
  have hfirst := h _ List.mem_cons_self
  simp only [Bool.or_eq_true, Bool.and_eq_true, not_or, not_and] at hfirst
  exact Option.not_isSome_iff_eq_none.1 (hfirst.2 rfl)

theorem regionCfgAct_defines (hvalid : regionInvalid d s = none) (h0 : d.p8 17 = 0) (hover : regionOverlap d s = none) :
    regionCfgAct d s = complete d 0 [] (regionDefined d s) := by
  rw [regionCfgAct_eq, hvalid, regionInvalid_new hvalid h0, h0, hover]
  rfl

theorem regionCfgAct_used {r : Archive} {h : Nat} (hvalid : regionInvalid d s = none) (h1 : d.p8 17 = 1) (hr : archiveNo s (d.p8 16) = some r)
    (huser : regionUser s r = some h) : regionCfgAct d s = complete d 0x1482 (u16 h) s := by
  rw [regionCfgAct_eq, hvalid, hr, Option.bind_some, huser, h1]
  rfl

theorem regionCfgAct_removes {r : Archive} (hvalid : regionInvalid d s = none) (h1 : d.p8 17 = 1) (hr : archiveNo s (d.p8 16) = some r)
    (huser : regionUser s r = none) (hready : r.ready = true) : regionCfgAct d s = complete d 0 [] (removeArchive (d.p8 16) s) := by
  rw [regionCfgAct_eq, hvalid, hr, Option.bind_some, huser, Option.any_some, hready, h1]
  rfl

theorem within_regionDefined : Within storeParts s (regionDefined d s) :=
  (within_zeroRange.then within_zeroRange).then (within_of_eq_sub (m := [.ecc]) rfl (by decide) (by decide))

theorem regionDefined_frame : (regionDefined d s).ecc = { s.ecc with
      compBad := (regionDefined d s).ecc.compBad
      archives := s.ecc.archives ++ [{ index := d.p8 16, base := d.p64 24, size := d.p64 32, comp := d.p64 40, ready := false, since := s.now }] } ∧
    (∀ a, (d.p64 24 ≤ a ∧ a < d.p64 24 + d.p64 32) ∨ (d.p64 40 ≤ a ∧ a < d.p64 40 + d.p64 32 / 8 * 5) → rawByte (regionDefined d s) a = 0) ∧
    (∀ a, (a < d.p64 24 ∨ d.p64 24 + d.p64 32 ≤ a) → (a < d.p64 40 ∨ d.p64 40 + d.p64 32 / 8 * 5 ≤ a) →
      rawByte (regionDefined d s) a = rawByte s a) := by
  have hbyte : ∀ a, rawByte (regionDefined d s) a = if d.p64 40 ≤ a ∧ a < d.p64 40 + d.p64 32 / 8 * 5 then 0
      else if d.p64 24 ≤ a ∧ a < d.p64 24 + d.p64 32 then 0 else rawByte s a := fun a =>
    rawByte_zeroRange.trans (by rw [rawByte_zeroRange]; rfl)
  refine ⟨rfl, fun a h => ?_, fun a h1 h2 => ?_⟩
  · rw [hbyte]
    split
    · rfl
    · exact if_pos (h.resolve_right ‹_›)
  · rw [hbyte, if_neg (by omega), if_neg (by omega)]

/-! ### A region removed -/

/-- Bytes whose stored values stay read as before. -/
def BytesKept (s t : State) : Prop := s.memOk → t.memOk ∧ ∀ a, rawByte t a = rawByte s a

theorem BytesKept.then (h1 : BytesKept s t) (h2 : BytesKept t u) : BytesKept s u := fun h => by
  obtain ⟨ht, hb⟩ := h1 h
  obtain ⟨hu, hc⟩ := h2 ht
  exact ⟨hu, fun a => (hc a).trans (hb a)⟩

theorem bytesKept_storeOdd {x : Nat} : BytesKept s (storeOdd x (rawByte s x) s) := fun h => by
  obtain ⟨hcells, hlanes⟩ := h
  refine ⟨⟨putCell_wf _ _ hcells, putCell_wf _ _ hlanes⟩, fun a => ?_⟩
  by_cases ha : a = x
  · rw [ha]
    exact getKey_putCell_same hcells
  · exact congrArg (fun o : Option Byte => o.getD 0) (getKey_putCell_ne ha)

theorem bytesKept_storeOdds {l : List Nat} : BytesKept s (forEach l (fun x s => storeOdd x (rawByte s x) s) s) := by
  induction l generalizing s with
  | nil => exact fun h => ⟨h, fun _ => rfl⟩
  | cons x l ih => exact bytesKept_storeOdd.then ih

theorem storeOdds_ecc {l : List Nat} : (forEach l (fun x s => storeOdd x (rawByte s x) s) s).ecc = s.ecc := by
  induction l generalizing s with
  | nil => rfl
  | cons x l ih => exact ih

/-- The bytes of a region's companion. -/
def compRange (r : Archive) (x : Nat) : Bool := decide (r.comp ≤ x) && decide (x < r.comp + r.size / 8 * 5)

/-- A region taken off the list. -/
def regionDropped (n : Nat) (r : Archive) (s : State) : State :=
  mendComp (compRange r) { s with ecc := { s.ecc with archives := s.ecc.archives.filter fun r => r.index ≠ n } }

theorem removeArchive_eq {r : Archive} (h : archiveNo s n = some r) : removeArchive n s =
    forEach (s.ecc.compBad.filter (compRange r)) (fun x s => storeOdd x (rawByte s x) s) (regionDropped n r s) := by
  unfold removeArchive
  rw [h]
  rfl

theorem within_removeArchive : Within storeParts s (removeArchive n s) := by
  cases h : archiveNo s n with
  | none =>
    unfold removeArchive
    rw [h]
    exact within_refl
  | some r =>
    rw [removeArchive_eq h]
    have hdrop : Within storeParts s (regionDropped n r s) := within_of_eq_sub (m := [.ecc]) rfl (by decide) (by decide)
    exact hdrop.then (within_forEach fun _ _ => within_storeOdd)

theorem removeArchive_frame {r : Archive} (h : archiveNo s n = some r) : let t := removeArchive n s
    t.ecc = { s.ecc with archives := s.ecc.archives.filter (fun r => r.index ≠ n), compBad := t.ecc.compBad } ∧
    (s.ecc.compBad = [] → t.hbm = s.hbm) ∧ (s.memOk → ∀ a, rawByte t a = rawByte s a) := by
  have hecc := storeOdds_ecc (l := s.ecc.compBad.filter (compRange r)) (s := regionDropped n r s)
  have hbytes := bytesKept_storeOdds (l := s.ecc.compBad.filter (compRange r)) (s := regionDropped n r s)
  dsimp only
  rw [removeArchive_eq h]
  refine ⟨?_, fun hbad => ?_, fun hmem => ?_⟩
  · rw [hecc]
    rfl
  · rw [hbad]
    rfl
  · obtain ⟨-, hb⟩ := hbytes hmem
    exact hb


theorem regionCfg_clause (hrun : Runs (.regionCfg dt d) s) : let x := d.trunc; let b := begun d d.trunc (tick dt s)
    (∀ o, regionInvalid x s = some o → exec (.regionCfg dt d) s = .next (complete x 0x1480 (u16 o) b)) ∧
    (regionInvalid x s = none → x.p8 17 = 0 →
      (∀ h, regionOverlap x s = some h → exec (.regionCfg dt d) s = .next (complete x 0x1481 (u16 h) b)) ∧
      (regionOverlap x s = none → ∃ t, exec (.regionCfg dt d) s = .next t ∧ t.ecc = { s.ecc with
          compBad := t.ecc.compBad, archives := s.ecc.archives ++ [{ index := x.p8 16, base := x.p64 24, size := x.p64 32, comp := x.p64 40, ready := false, since := (tick dt s).now }] } ∧
        (∀ a, (x.p64 24 ≤ a ∧ a < x.p64 24 + x.p64 32) ∨
          (x.p64 40 ≤ a ∧ a < x.p64 40 + x.p64 32 / 8 * 5) → rawByte t a = 0) ∧
        (∀ a, (a < x.p64 24 ∨ x.p64 24 + x.p64 32 ≤ a) → (a < x.p64 40 ∨ x.p64 40 + x.p64 32 / 8 * 5 ≤ a) →
          rawByte t a = rawByte s a) ∧
        OnlyReply { s with ecc := t.ecc, hbm := { s.hbm with cells := t.hbm.cells, lanes := t.hbm.lanes } } t)) ∧
    (∀ r, regionInvalid x s = none → x.p8 17 = 1 → archiveNo s (x.p8 16) = some r → r.ready = true →
      (∀ h, regionUser s r = some h → exec (.regionCfg dt d) s = .next (complete x 0x1482 (u16 h) b)) ∧
      (regionUser s r = none → ∃ t, exec (.regionCfg dt d) s = .next t ∧
        t.ecc = { s.ecc with archives := s.ecc.archives.filter (fun r => r.index ≠ x.p8 16), compBad := t.ecc.compBad } ∧
        (s.ecc.compBad = [] → t.hbm = s.hbm) ∧ (s.memOk → ∀ a, rawByte t a = rawByte s a) ∧
        OnlyReply { s with ecc := t.ecc, hbm := { s.hbm with cells := t.hbm.cells, lanes := t.hbm.lanes } } t)) := by
  intro x b
  have hexec : exec (.regionCfg dt d) s = .next (regionCfgAct x b) := exec_regionCfg_accepted hrun
  have hinvalid : regionInvalid x b = regionInvalid x s := begun_apply (regionInvalid x) rfl
  have hover : regionOverlap x b = regionOverlap x s := begun_apply (regionOverlap x) rfl
  have hno : archiveNo b (x.p8 16) = archiveNo s (x.p8 16) := begun_apply (archiveNo · (x.p8 16)) rfl
  have huser : ∀ r, regionUser b r = regionUser s r := fun r => begun_apply (regionUser · r) rfl
  have hecc : b.ecc = s.ecc := begun_apply State.ecc rfl
  have hhbm : b.hbm = s.hbm := begun_apply State.hbm rfl
  have hnow : b.now = (tick dt s).now := begun_now
  have hbegun : Within (clockParts ++ replyParts) s b := within_tick_begun
  have hreply : ∀ v : State, (complete x 0 [] v).ecc = v.ecc ∧ (complete x 0 [] v).hbm = v.hbm := fun v =>
    ⟨within_complete.apply State.ecc rfl, within_complete.apply State.hbm rfl⟩
  have honly : ∀ v, Within storeParts b v → OnlyReply { s with ecc := (complete x 0 [] v).ecc, hbm := { s.hbm with
      cells := (complete x 0 [] v).hbm.cells, lanes := (complete x 0 [] v).hbm.lanes } } (complete x 0 [] v) := fun v hv =>
    onlyReply_patch (m := [.cells, .ecc]) ((within_trans (within_trans hbegun hv) within_complete).mono (by decide)) (by decide)
  have hbyte : ∀ v a, rawByte (complete x 0 [] v) a = rawByte v a := fun v a => within_complete.apply (rawByte · a) rfl
  rw [hexec]
  generalize b = b at *
  refine ⟨fun o h => ?_, fun hvalid h0 => ⟨fun h ho => ?_, fun ho => ?_⟩, fun r hvalid h1 hr hready => ⟨fun h hu => ?_, fun hu => ?_⟩⟩
  · rw [regionCfgAct_invalid (hinvalid.trans h)]
  · rw [regionCfgAct_overlap (hinvalid.trans hvalid) h0 (hover.trans ho)]
  · obtain ⟨he, hzero, hkept⟩ := regionDefined_frame (d := x) (s := b)
    obtain ⟨hce, -⟩ := hreply (regionDefined x b)
    refine ⟨_, congrArg Host.Outcome.next (regionCfgAct_defines (hinvalid.trans hvalid) h0 (hover.trans ho)), ?_, fun a ha => ?_, fun a h1 h2 => ?_,
      honly _ within_regionDefined⟩
    · rw [hce, ← hecc, ← hnow]
      exact he
    · exact (hbyte _ a).trans (hzero a ha)
    · refine (hbyte _ a).trans ((hkept a h1 h2).trans ?_)
      rw [rawByte, hhbm]
      rfl
  · rw [regionCfgAct_used (hinvalid.trans hvalid) h1 (hno.trans hr) ((huser r).trans hu)]
  · obtain ⟨he, hh, hkept⟩ := removeArchive_frame (hno.trans hr)
    obtain ⟨hce, hch⟩ := hreply (removeArchive (x.p8 16) b)
    refine ⟨_, congrArg Host.Outcome.next (regionCfgAct_removes (hinvalid.trans hvalid) h1 (hno.trans hr) ((huser r).trans hu) hready), ?_, fun hbad => ?_,
      fun hmem a => ?_, honly _ within_removeArchive⟩
    · rw [hce, ← hecc]
      exact he
    · exact hch.trans ((hh (by rw [hecc]; exact hbad)).trans hhbm)
    · have hmem' : b.memOk := by
        unfold State.memOk
        rw [hhbm]
        exact hmem
      refine (hbyte _ a).trans ((hkept hmem' a).trans ?_)
      rw [rawByte, hhbm]
      rfl

/-! ### Fills, counts and buckets -/

theorem archiveFilled_idle (h : s.hbm.moving ≠ none ∨ s.hbm.selfRef = true) : archiveFilled n s = s := by
  unfold archiveFilled
  split
  · rfl
  · refine if_pos ?_
    rcases h with h | h
    · simp [Option.isSome_iff_ne_none, h]
    · simp [h]

theorem archiveReady_clause {r : Archive} (hr : archiveNo s n = some r) (hready : r.ready = false) (hmoving : s.hbm.moving = none)
    (hself : s.hbm.selfRef = false) : ∃ t, exec (.archiveReady dt n) s = .next t ∧
      t.ecc = { s.ecc with archives := s.ecc.archives.map fun x => if x.index = n then { x with ready := true } else x } ∧
      OnlyRecords { s with ecc := t.ecc } t := by
  have hform : ∃ unit det, archiveFilled n (tick dt s) = record unit 0x1404 det { tick dt s with ecc := { s.ecc with
      archives := s.ecc.archives.map fun x => if x.index = n then { x with ready := true } else x } } := by
    have hno : archiveNo (tick dt s) n = some r := hr
    unfold archiveFilled
    rw [hno]
    dsimp only
    rw [hready, show (tick dt s).hbm = s.hbm from rfl, hmoving, hself]
    exact ⟨_, _, rfl⟩
  obtain ⟨unit, det, hform⟩ := hform
  have hfill : Within (clockParts ++ [.ecc]) s { tick dt s with ecc := { s.ecc with
      archives := s.ecc.archives.map fun x => if x.index = n then { x with ready := true } else x } } :=
    within_trans within_tick (within_of_eq (m := [.ecc]) rfl (by decide))
  refine ⟨_, congrArg Host.Outcome.next hform, within_recordAt.apply State.ecc rfl, ?_⟩
  exact onlyRecords_patch (m := [.ecc]) ((within_trans hfill within_recordAt).mono (by decide)) (by decide)

theorem errCounts_clause (hrun : Runs (.errCounts dt d) s) : let x := d.trunc; let c := regionCount s (d.trunc.p8 16)
    ∃ t, exec (.errCounts dt d) s = .next t ∧ OnlyReply { s with ecc := { s.ecc with regions := t.ecc.regions } } t ∧
      t = complete x 0 (u32 c.ce ++ u32 c.ue) { begun d x (tick dt s) with ecc := t.ecc } ∧ (x.p8 17 = 0 → t.ecc = s.ecc) ∧
      (x.p8 17 = 1 → regionCount t (x.p8 16) = { c with ce := 0, ue := 0, level := 0, ovf := 0 }) := by
  intro x c
  have hexec : exec (.errCounts dt d) s = .next (errCountsAct x (begun d x (tick dt s))) := congrArg Host.Outcome.next (runDesc_accepted hrun)
  have hecc : (begun d x (tick dt s)).ecc = s.ecc := begun_apply State.ecc rfl
  have hcount : regionCount (begun d x (tick dt s)) (x.p8 16) = c := begun_apply (regionCount · (x.p8 16)) rfl
  have hbegun : Within (clockParts ++ replyParts) s (begun d x (tick dt s)) := within_tick_begun
  generalize begun d x (tick dt s) = b at *
  have hform : errCountsAct x b = complete x 0 (u32 c.ce ++ u32 c.ue) (if bitOf (x.p8 17) 0 then clearRegion (x.p8 16) b else b) := by
    unfold errCountsAct
    dsimp only
    rw [hcount]
  have hclear : ∃ e : Ecc, { b with ecc := e } = (if bitOf (x.p8 17) 0 then clearRegion (x.p8 16) b else b) ∧
      e = { s.ecc with regions := e.regions } ∧ (bitOf (x.p8 17) 0 = false → e = s.ecc) := by
    cases bitOf (x.p8 17) 0 with
    | true => exact ⟨(clearRegion (x.p8 16) b).ecc, rfl, by rw [← hecc]; rfl, fun h => absurd h (by decide)⟩
    | false => exact ⟨b.ecc, rfl, by rw [hecc], fun _ => hecc⟩
  obtain ⟨e, he, hregions, hsame⟩ := hclear
  rw [← he] at hform
  have hte : (complete x 0 (u32 c.ce ++ u32 c.ue) { b with ecc := e }).ecc = e := within_complete.apply State.ecc rfl
  have hset : Within [.ecc] b { b with ecc := e } := within_of_eq rfl (by decide)
  have honly := onlyReply_patch (m := [.ecc]) (((within_trans (within_trans hbegun hset) within_complete).mono (by decide)) :
    Within ([.ecc] ++ (clockParts ++ replyParts)) s (complete x 0 (u32 c.ce ++ u32 c.ue) { b with ecc := e })) (by decide)
  refine ⟨_, hexec.trans (congrArg Host.Outcome.next hform), ?_, by rw [hte], fun h0 => ?_, fun h1 => ?_⟩
  · rw [hte, ← hregions]
    have hpatch : patch [.ecc] s (complete x 0 (u32 c.ce ++ u32 c.ue) { b with ecc := e }) = { s with ecc := e } :=
      congrArg (fun v : Ecc => { s with ecc := v }) hte
    rw [← hpatch]
    exact honly
  · rw [hte, hsame (by rw [h0]; rfl)]
  · have hread : regionCount (complete x 0 (u32 c.ce ++ u32 c.ue) { b with ecc := e }) (x.p8 16) = regionCount { b with ecc := e } (x.p8 16) :=
      within_complete.apply (regionCount · (x.p8 16)) rfl
    rw [hread, he, if_pos (by rw [h1]; rfl), regionCount_clearRegion, hcount]

theorem tellUe_idle {r : Nat} (h : (regionCount s r).ueSince = 0) : tellUe r s = s := by
  unfold tellUe
  exact if_pos (Or.inl h)

/-- Every bucket falls by one. -/
def bucketsLeaked (s : State) : State :=
  { s with ecc := { s.ecc with leaked := s.now, regions := s.ecc.regions.map fun c => { c with level := c.level - 1 } } }

/-- The buckets after the time that may have let them leak. -/
def bucketsNow (s : State) : State := if s.ecc.leaked + bucketLeak s * msec ≤ s.now then bucketsLeaked s else s

theorem exec_bucketLeak :
    exec (.bucketLeak dt) s = .next (forEach ((bucketsNow (tick dt s)).ecc.regions.map (·.region)) tellUe (bucketsNow (tick dt s))) := rfl

theorem bucketLeak_clause (hue : ∀ c ∈ s.ecc.regions, c.ueSince = 0) (hdue : s.ecc.leaked + bucketLeak s * msec ≤ (tick dt s).now) :
    exec (.bucketLeak dt) s = .next (bucketsLeaked (tick dt s)) := by
  have hnow : bucketsNow (tick dt s) = bucketsLeaked (tick dt s) := if_pos hdue
  rw [exec_bucketLeak, hnow]
  refine congrArg Host.Outcome.next (forEach_idle fun r _ => tellUe_idle ?_)
  unfold regionCount
  cases hfind : (bucketsLeaked (tick dt s)).ecc.regions.find? (fun c => decide (c.region = r)) with
  | none => rfl
  | some c =>
    obtain ⟨c', hc', rfl⟩ := List.mem_map.1 (List.mem_of_find?_eq_some hfind)
    exact hue c' hc'

/-! ### The Conservator -/

theorem scrubByte_idle {r o err : Nat} (h : scrubPaused s = true ∨ scrubSize s r ≤ o) : scrubByte r o err s = s := by
  unfold scrubByte
  refine if_pos ?_
  rcases h with h | h
  · rw [h, Bool.true_or]
  · rw [decide_eq_true h, Bool.or_true]

/-- A lap under way since now. -/
def lapBegun (s : State) : State := { s with ecc := { s.ecc with lapBegan := s.now } }

/-- The place of the last read of a lap. -/
def lapAt (r o : Nat) (s : State) : State := { s with ecc := { s.ecc with lapLast := some s.now, scrubReg := r, scrubOff := o } }

theorem scrubSize_pool {r : Nat} (h : r < 5) : scrubSize s r = poolSize r := if_pos h

/-- What the sizes of the regions in a lap rest on: a lap that no region is younger than reads them all. -/
theorem scrubSize_lap {r : Nat} (harch : t.ecc.archives = s.ecc.archives) (hlast : s.ecc.lapLast = none)
    (hold : ∀ x ∈ s.ecc.archives, x.since < t.ecc.lapBegan) : scrubSize t r = scrubSize s r := by
  have hno : archiveNo t (r - 0x10) = archiveNo s (r - 0x10) := by rw [archiveNo, archiveNo, harch]
  unfold scrubSize
  rw [hno]
  split
  · rfl
  · split
    · rfl
    · cases hr : archiveNo s (r - 0x10) with
      | none => rfl
      | some x =>
        have hx : x.since < t.ecc.lapBegan := hold x (List.mem_of_find?_eq_some hr)
        dsimp only
        rw [decide_eq_true hx, hlast]
        simp

theorem lapEnd_congr (h : ∀ r, scrubSize t r = scrubSize s r) : lapEnd t = lapEnd s := by
  unfold lapEnd
  simp only [h]

theorem placeLe_first {q : Nat × Nat} : placeLe (0, 0) q = true := by
  unfold placeLe
  rcases Nat.eq_zero_or_pos q.1 with h | h
  · rw [h]
    simp
  · simp [h]

theorem lapReads_first {q : Nat × Nat} (h : s.ecc.lapLast = none) : lapReads q s = lapAt q.1 q.2 (scrubRun (0, 0) q (lapBegun s)) := by
  have hnext : scrubNext s = (0, 0) := by rw [scrubNext, h]; rfl
  unfold lapReads
  dsimp only
  rw [hnext, if_pos (show s.ecc.lapLast.isNone = true by rw [h]; rfl)]
  rfl

/-- The first read of a lap, at the byte that ends no lap. -/
theorem scrubByte_first {r o err : Nat} (hpause : scrubPaused s = false) (ho : o < scrubSize s r) (hlast : s.ecc.lapLast = none)
    (hold : ∀ x ∈ s.ecc.archives, x.since < s.now) (hend : (r, o) ≠ lapEnd s) (hflip : flipPlace r o err s = t)
    (hnow : t.now = s.now) (harch : t.ecc.archives = s.ecc.archives) (hlap : t.ecc.lapLast = none)
    (hrun : (scrubRun (0, 0) (r, o) (lapBegun t)).ecc.archives = t.ecc.archives ∧
      (scrubRun (0, 0) (r, o) (lapBegun t)).ecc.lapBegan = t.now) :
    scrubByte r o err s = lapAt r o (scrubRun (0, 0) (r, o) (lapBegun t)) := by
  have hnext : scrubNext t = (0, 0) := by rw [scrubNext, hlap]; rfl
  have hreads := lapReads_first (q := (r, o)) hlap
  have hlapEnd : lapEnd (lapAt r o (scrubRun (0, 0) (r, o) (lapBegun t))) = lapEnd s := by
    obtain ⟨ha, hb⟩ := hrun
    refine lapEnd_congr fun q => scrubSize_lap (ha.trans harch) hlast fun x hx => ?_
    have hbegan : (lapAt r o (scrubRun (0, 0) (r, o) (lapBegun t))).ecc.lapBegan = s.now := hb.trans hnow
    rw [hbegan]
    exact hold x hx
  have hstays : (scrubPaused s || decide (scrubSize s r ≤ o)) = false := by
    rw [hpause, Bool.false_or]
    exact decide_eq_false (Nat.not_le.2 ho)
  unfold scrubByte
  dsimp only
  rw [hstays, if_neg Bool.false_ne_true, hflip, hnext, placeLe_first, if_pos rfl, hreads, hlapEnd, if_neg hend]

/-- One region's part of the reads of a lap from its start. -/
def scrubStep (r o q : Nat) (s : State) : State :=
  let hi := if q < r then scrubSize s q else if q = r then o + 1 else 0
  if 0 < hi then scrubPart q 0 hi s else s

theorem scrubRun_first {r o : Nat} : scrubRun (0, 0) (r, o) s = forEach scrubRegions (scrubStep r o) s := by
  have hstep : (fun (q : Nat) (s : State) =>
      let lo := if q < 0 then scrubSize s q else if q = 0 then 0 else 0
      let hi := if q < r then scrubSize s q else if q = r then o + 1 else 0
      if lo < hi then scrubPart q lo hi s else s) = scrubStep r o := by
    funext q s
    have hlo : (if q < 0 then scrubSize s q else if q = 0 then 0 else 0) = 0 := by rw [if_neg (Nat.not_lt_zero q), ite_self]
    dsimp only
    rw [hlo]
    rfl
  exact congrArg (fun f => forEach scrubRegions f s) hstep

theorem poolSize_lt : ∀ r < 5, poolSize r < 4294967296 := by decide

theorem poolCells_others {q n r o : Nat} (hkeys : ∀ e ∈ s.ecc.sram, e.1 = poolKey r o) (hq : q < r) (hn : n < 4294967296) :
    poolCells s q 0 n = [] := by
  have hnone : s.ecc.sram.filter (fun e => decide (poolKey q 0 ≤ e.1) && decide (e.1 < poolKey q (0 + n))) = [] := by
    refine List.filter_eq_nil_iff.2 fun e he hin => ?_
    rw [hkeys e he, Bool.and_eq_true, decide_eq_true_eq, decide_eq_true_eq] at hin
    have hmul : 4294967296 * (q + 1) ≤ 4294967296 * r := Nat.mul_le_mul_left _ hq
    simp only [poolKey] at hin
    omega
  rw [poolCells, hnone]
  rfl

theorem notePool_none {p unit_ a n : Nat} (h : poolCells s p a n = []) : notePool p unit_ a n s = s := by
  have hbad : poolBad s p a n = [] := by rw [poolBad, h]; rfl
  unfold notePool
  dsimp only
  rw [hbad, h]
  rfl

theorem scrubStep_other {r o q : Nat} (hr : r < 5) (hq : q ≠ r) (hkeys : ∀ e ∈ s.ecc.sram, e.1 = poolKey r o) : scrubStep r o q s = s := by
  unfold scrubStep
  dsimp only
  by_cases hlt : q < r
  · have hnone : poolCells s q 0 (scrubSize s q) = [] :=
      poolCells_others hkeys hlt (by rw [scrubSize_pool (hlt.trans hr)]; exact poolSize_lt q (hlt.trans hr))
    have hpart : scrubPart q 0 (scrubSize s q) s = s := by
      unfold scrubPart
      rw [if_pos (by omega), Nat.sub_zero, notePool_none hnone]
    rw [if_pos hlt, hpart, ite_self]
  · rw [if_neg hlt, if_neg hq]
    rfl

theorem scrubStep_place {r o : Nat} (hr : r < 5) : scrubStep r o r s = notePool r 7 0 (o + 1) s := by
  unfold scrubStep
  dsimp only
  rw [if_neg (lt_irrefl r), if_pos rfl, if_pos (Nat.succ_pos o), scrubPart, if_pos (by omega), Nat.sub_zero]

theorem scrubRegions_nodup : scrubRegions.Nodup := by decide

theorem scrubRegions_pool : ∀ r < 5, r ∈ scrubRegions := by decide

/-- The first reads of a lap meet the errors of the pool they end in. -/
theorem scrubRun_pool {r o : Nat} (hr : r < 5) (hkeys : ∀ e ∈ s.ecc.sram, e.1 = poolKey r o)
    (hkeys' : ∀ e ∈ (notePool r 7 0 (o + 1) s).ecc.sram, e.1 = poolKey r o) : scrubRun (0, 0) (r, o) s = notePool r 7 0 (o + 1) s := by
  rw [scrubRun_first, forEach_single scrubRegions_nodup (scrubRegions_pool r hr) (fun q _ hq => scrubStep_other hr hq hkeys) fun q _ hq => ?_,
    scrubStep_place hr]
  rw [scrubStep_place hr]
  exact scrubStep_other hr hq hkeys'

/-! ### The counts of a read -/

theorem regionCount_setRegion_ne {c : RegionCount} {q : Nat} (h : q ≠ c.region) : regionCount (setRegion c s) q = regionCount s q := by
  have hfind : ((c :: s.ecc.regions.filter fun x => decide (x.region ≠ c.region)).find? fun x => decide (x.region = q)) =
      s.ecc.regions.find? fun x => decide (x.region = q) := by
    rw [List.find?_cons_of_neg (by rw [decide_eq_true_eq]; exact fun h' => h h'.symm), List.find?_filter]
    refine congrArg (fun p => List.find? p s.ecc.regions) (funext fun x => ?_)
    by_cases hx : x.region = q
    · simp [hx, h]
    · simp [hx]
  show (((c :: s.ecc.regions.filter fun x => decide (x.region ≠ c.region)).find? fun x => decide (x.region = q))).getD (noCount q) = _
  rw [hfind]
  rfl

/-- The Conservator's place, the regions and the stored bits stand, and the counts of the other regions. -/
def CountOnly (r : Nat) (s t : State) : Prop :=
  t.ecc.archives = s.ecc.archives ∧ t.ecc.lapBegan = s.ecc.lapBegan ∧ t.ecc.sram = s.ecc.sram ∧ ∀ q, q ≠ r → regionCount t q = regionCount s q

theorem CountOnly.then {r : Nat} (h1 : CountOnly r s t) (h2 : CountOnly r t u) : CountOnly r s u := by
  obtain ⟨ha, hb, hs, hc⟩ := h1
  obtain ⟨ha', hb', hs', hc'⟩ := h2
  exact ⟨ha'.trans ha, hb'.trans hb, hs'.trans hs, fun q hq => (hc' q hq).trans (hc q hq)⟩

theorem countOnly_setRegion {r : Nat} {c : RegionCount} (h : c.region = r) : CountOnly r s (setRegion c s) :=
  ⟨rfl, rfl, rfl, fun _ hq => regionCount_setRegion_ne (h ▸ hq)⟩

theorem countOnly_of_ecc {r : Nat} (h : t.ecc = s.ecc) : CountOnly r s t := by
  refine ⟨?_, ?_, ?_, fun q _ => ?_⟩ <;> simp only [regionCount, h]

theorem countCe_frame {r a : Nat} : CountOnly r s (countCe r a s) ∧ (regionCount (countCe r a s) r).ce = bump (regionCount s r).ce := by
  have hset : ∀ c : RegionCount, c.region = r → c.ce = bump (regionCount s r).ce →
      CountOnly r s (setRegion c s) ∧ (regionCount (setRegion c s) r).ce = bump (regionCount s r).ce := fun c hc hce =>
    ⟨countOnly_setRegion hc, by rw [regionCount_setRegion hc]; exact hce⟩
  have htold : ∀ (c : RegionCount) unit det, c.region = r → c.ce = bump (regionCount s r).ce →
      CountOnly r s (raiseCause false 2 (record unit 0x1402 det (setRegion c s))) ∧
        (regionCount (raiseCause false 2 (record unit 0x1402 det (setRegion c s))) r).ce = bump (regionCount s r).ce := by
    intro c unit det hc hce
    obtain ⟨hone, hcount⟩ := hset c hc hce
    have hecc : (raiseCause false 2 (record unit 0x1402 det (setRegion c s))).ecc = (setRegion c s).ecc := within_told.apply State.ecc rfl
    refine ⟨hone.then (countOnly_of_ecc hecc), ?_⟩
    rw [regionCount, hecc]
    exact hcount
  have hregion := regionCount_region (s := s) (r := r)
  unfold countCe
  dsimp only
  split
  · exact hset _ hregion rfl
  · split
    · exact htold _ _ _ hregion rfl
    · exact hset _ hregion rfl

theorem tellUe_frame {r : Nat} : CountOnly r s (tellUe r s) ∧ (regionCount (tellUe r s) r).ce = (regionCount s r).ce ∧
    (regionCount (tellUe r s) r).ue = (regionCount s r).ue := by
  have hregion := regionCount_region (s := s) (r := r)
  unfold tellUe
  dsimp only
  split
  · exact ⟨countOnly_of_ecc rfl, rfl, rfl⟩
  · have hset : ∀ (c : RegionCount) unit det, c.region = r → c.ce = (regionCount s r).ce → c.ue = (regionCount s r).ue →
        CountOnly r s (record unit 0x1401 det (setRegion c s)) ∧
        (regionCount (record unit 0x1401 det (setRegion c s)) r).ce = (regionCount s r).ce ∧
        (regionCount (record unit 0x1401 det (setRegion c s)) r).ue = (regionCount s r).ue := by
      intro c unit det hc hce hue
      have hcount : regionCount (record unit 0x1401 det (setRegion c s)) r = c := regionCount_setRegion hc
      exact ⟨countOnly_setRegion hc, by rw [hcount, hce], by rw [hcount, hue]⟩
    exact hset _ _ _ hregion rfl rfl

theorem countUe_frame {r unit_ a : Nat} : CountOnly r s (countUe r unit_ [a] s) ∧
    (regionCount (countUe r unit_ [a] s) r).ce = (regionCount s r).ce ∧
    (regionCount (countUe r unit_ [a] s) r).ue = satAdd top32 (regionCount s r).ue 1 := by
  have hset : ∀ c : RegionCount, c.region = r → c.ce = (regionCount s r).ce → c.ue = satAdd top32 (regionCount s r).ue 1 →
      CountOnly r s (tellUe r (setRegion c s)) ∧ (regionCount (tellUe r (setRegion c s)) r).ce = (regionCount s r).ce ∧
        (regionCount (tellUe r (setRegion c s)) r).ue = satAdd top32 (regionCount s r).ue 1 := by
    intro c hc hce hue
    obtain ⟨hone, hce', hue'⟩ := tellUe_frame (s := setRegion c s) (r := r)
    rw [regionCount_setRegion hc] at hce' hue'
    exact ⟨(countOnly_setRegion hc).then hone, hce'.trans hce, hue'.trans hue⟩
  exact hset _ regionCount_region rfl rfl


/-! ### SCRUB_READ -/

/-- A lap's first reads, which find no error. -/
theorem scrub_clean {r o : Nat} (hpause : scrubPaused s = false) (hr : r < 5) (ho : o < scrubSize s r) (hlast : s.ecc.lapLast = none)
    (hsram : s.ecc.sram = []) (hold : ∀ x ∈ s.ecc.archives, x.since < s.now) (hend : (r, o) ≠ lapEnd s) :
    scrubByte r o 0 s = lapAt r o (lapBegun s) := by
  have hkeys : ∀ e ∈ (lapBegun s).ecc.sram, e.1 = poolKey r o := fun e he => absurd (hsram ▸ he) List.not_mem_nil
  have hnote : notePool r 7 0 (o + 1) (lapBegun s) = lapBegun s := notePool_none (poolCells_none hsram)
  have hrun : scrubRun (0, 0) (r, o) (lapBegun s) = lapBegun s :=
    (scrubRun_pool hr hkeys (by rw [hnote]; exact hkeys)).trans hnote
  have hflip : flipPlace r o 0 s = s := if_pos rfl
  rw [scrubByte_first hpause ho hlast hold hend hflip rfl rfl hlast (by rw [hrun]; exact ⟨rfl, rfl⟩), hrun]

/-- A lap's first reads, the last of which finds an error. -/
theorem scrub_found {r o err : Nat} (hpause : scrubPaused s = false) (hr : r < 5) (ho : o < scrubSize s r) (hlast : s.ecc.lapLast = none)
    (hsram : s.ecc.sram = []) (hold : ∀ x ∈ s.ecc.archives, x.since < s.now) (hend : (r, o) ≠ lapEnd s) (herr : err < 8192) (h0 : err ≠ 0)
    (hkept : CountOnly r (lapBegun (poolFlipped r o err s)) (notePool r 7 0 (o + 1) (lapBegun (poolFlipped r o err s))) ∨
      (notePool r 7 0 (o + 1) (lapBegun (poolFlipped r o err s))).ecc.sram = [] ∧
      (notePool r 7 0 (o + 1) (lapBegun (poolFlipped r o err s))).ecc.archives = s.ecc.archives ∧
      (notePool r 7 0 (o + 1) (lapBegun (poolFlipped r o err s))).ecc.lapBegan = s.now) :
    scrubByte r o err s = lapAt r o (notePool r 7 0 (o + 1) (lapBegun (poolFlipped r o err s))) := by
  have hpool : o < poolSize r := scrubSize_pool (s := s) hr ▸ ho
  have hflip : flipPlace r o err s = poolFlipped r o err s := by
    unfold flipPlace
    rw [if_neg h0, if_pos (by omega)]
    exact flipPool_first hsram hpool (by rw [if_pos hr]; exact herr) h0
  have hkeys : ∀ e ∈ (lapBegun (poolFlipped r o err s)).ecc.sram, e.1 = poolKey r o := fun e he => by
    rw [List.mem_singleton.1 he]
  have hafter : (∀ e ∈ (notePool r 7 0 (o + 1) (lapBegun (poolFlipped r o err s))).ecc.sram, e.1 = poolKey r o) ∧
      (notePool r 7 0 (o + 1) (lapBegun (poolFlipped r o err s))).ecc.archives = s.ecc.archives ∧
      (notePool r 7 0 (o + 1) (lapBegun (poolFlipped r o err s))).ecc.lapBegan = s.now := by
    rcases hkept with ⟨ha, hb, hs, -⟩ | ⟨hs, ha, hb⟩
    · exact ⟨by rw [hs]; exact hkeys, ha, hb⟩
    · exact ⟨by rw [hs]; exact fun e he => absurd he List.not_mem_nil, ha, hb⟩
  obtain ⟨hsame, harch, hbegan⟩ := hafter
  have hrun := scrubRun_pool hr hkeys hsame
  rw [scrubByte_first hpause ho hlast hold hend hflip rfl rfl hlast (by rw [hrun]; exact ⟨harch, hbegan⟩), hrun]

theorem notePool_corrects {p o b a n unit_ : Nat} (h : s.ecc.sram = [(poolKey p o, b)]) (h1 : a ≤ o) (h2 : o < a + n) (hone : poolDecode p b = (1, 0)) :
    notePool p unit_ a n s = setPoolBits p o 0 (countCe p o s) := by
  have hbad : poolBad s p a n = [] := by
    rw [poolBad, poolCells_flipped h h1 h2]
    exact List.filter_cons_of_neg (by rw [poolBits_flipped h, hone]; decide)
  have hce : (poolCells s p a n).filter (fun x => decide ((poolDecode p (poolBits s p x)).1 = 1)) = [o] := by
    rw [poolCells_flipped h h1 h2]
    exact List.filter_cons_of_pos (by rw [poolBits_flipped h, hone]; rfl)
  unfold notePool
  dsimp only
  rw [hbad, hce, forEach_cons, poolBits_flipped h, hone]
  rfl

theorem within_found {r o err : Nat} : Within [.ecc] s (lapBegun (poolFlipped r o err s)) := within_of_eq rfl (by decide)
theorem within_lapAt {r o : Nat} : Within [.ecc] s (lapAt r o s) := within_of_eq rfl (by decide)

theorem scrub_records {r o : Nat} {v : State} (h : Within [.ecc, .causes, .ledger, .out] (tick dt s) v) :
    OnlyRecords { s with ecc := (lapAt r o v).ecc } (lapAt r o v) :=
  onlyRecords_patch (m := [.ecc]) (((within_trans (within_trans within_tick h) within_lapAt).mono (by decide)) :
    Within ([.ecc] ++ (clockParts ++ [.causes, .ledger, .out])) s (lapAt r o v)) (by decide)

theorem scrub_corrected {r o err : Nat} (hpause : scrubPaused s = false) (hr : r < 5) (ho : o < scrubSize s r) (hlast : s.ecc.lapLast = none)
    (hsram : s.ecc.sram = []) (hold : ∀ x ∈ s.ecc.archives, x.since < (tick dt s).now) (hend : (r, o) ≠ lapEnd s) (herr : err < 8192)
    (hone : poolDecode r err = (1, 0)) : ∃ t, exec (.scrubRead dt r o err) s = .next t ∧ (regionCount t r).ce = bump (regionCount s r).ce ∧
      (∀ q, q ≠ r → regionCount t q = regionCount s q) ∧ t.ecc.scrubReg = r ∧ t.ecc.scrubOff = o ∧ OnlyRecords { s with ecc := t.ecc } t := by
  have h0 : err ≠ 0 := by
    rintro rfl
    have hzero : ∀ q < 5, poolDecode q 0 ≠ (1, 0) := by decide
    exact hzero r hr hone
  have hsram' : (lapBegun (poolFlipped r o err (tick dt s))).ecc.sram = [(poolKey r o, err)] := rfl
  have hnote := notePool_corrects (unit_ := 7) hsram' (Nat.zero_le o) (by omega : o < 0 + (o + 1)) hone
  obtain ⟨⟨ha, hb, hs, hothers⟩, hce⟩ := countCe_frame (s := lapBegun (poolFlipped r o err (tick dt s))) (r := r) (a := o)
  have hclear : (setPoolBits r o 0 (countCe r o (lapBegun (poolFlipped r o err (tick dt s))))).ecc.sram = [] := setPoolBits_last (hs.trans hsram')
  have hscrub := scrub_found (s := tick dt s) hpause hr ho hlast hsram hold hend herr h0 (Or.inr (by rw [hnote]; exact ⟨hclear, ha, hb⟩))
  rw [hnote] at hscrub
  refine ⟨_, congrArg Host.Outcome.next hscrub, hce, hothers, rfl, rfl, scrub_records (dt := dt) ?_⟩
  have hcount : Within [.ecc, .causes, .ledger, .out] (lapBegun (poolFlipped r o err (tick dt s)))
      (countCe r o (lapBegun (poolFlipped r o err (tick dt s)))) := by
    have hset : ∀ (v : State) c, Within [.ecc, .causes, .ledger, .out] v (setRegion c v) := fun _ _ => within_setRegion.mono (by decide)
    unfold countCe
    dsimp only
    exact within_ite (hset _ _) (within_ite ((hset _ _).then (within_told.mono (by decide))) (hset _ _))
  exact ((within_found.mono (by decide)).then hcount).then (within_of_eq_sub (m := [.ecc]) rfl (by decide) (by decide))

theorem scrub_uncorrectable {r o err : Nat} (hpause : scrubPaused s = false) (hr : r < 5) (ho : o < scrubSize s r) (hlast : s.ecc.lapLast = none)
    (hsram : s.ecc.sram = []) (hold : ∀ x ∈ s.ecc.archives, x.since < (tick dt s).now) (hend : (r, o) ≠ lapEnd s) (herr : err < 8192)
    (hbad : (poolDecode r err).1 = 2) : ∃ t, exec (.scrubRead dt r o err) s = .next t ∧
      (regionCount t r).ue = satAdd top32 (regionCount s r).ue 1 ∧ (regionCount t r).ce = (regionCount s r).ce ∧
      (∀ q, q ≠ r → regionCount t q = regionCount s q) ∧ OnlyRecords { s with ecc := t.ecc } t := by
  have h0 : err ≠ 0 := fun h => absurd (h ▸ hbad) poolDecode_zero
  have hsram' : (lapBegun (poolFlipped r o err (tick dt s))).ecc.sram = [(poolKey r o, err)] := rfl
  obtain ⟨-, hnote⟩ := notePool_bad (unit_ := 7) hsram' (Nat.zero_le o) (by omega : o < 0 + (o + 1)) hbad
  obtain ⟨hone, hce, hue⟩ := countUe_frame (s := lapBegun (poolFlipped r o err (tick dt s))) (r := r) (unit_ := 7) (a := o)
  have hscrub := scrub_found (s := tick dt s) hpause hr ho hlast hsram hold hend herr h0 (Or.inl (by rw [hnote]; exact hone))
  rw [hnote] at hscrub
  obtain ⟨-, -, -, hothers⟩ := hone
  refine ⟨_, congrArg Host.Outcome.next hscrub, hue, hce, hothers, scrub_records (dt := dt) ?_⟩
  exact (within_found.mono (by decide)).then (within_countUe_told.mono (by decide))

/-- Settles O53. -/
theorem storedDataIsProtected : Obligations.StoredDataIsProtected := by
  unfold Obligations.StoredDataIsProtected
  refine ⟨fun dt s => ⟨fun d => regionCfg_clause, fun n h => congrArg Host.Outcome.next (archiveFilled_idle (s := tick dt s) h),
    fun n r => archiveReady_clause, fun d => errCounts_clause⟩, fun dt s => ⟨bucketLeak_clause, fun r o err => ⟨fun h => ?_, ?_⟩⟩⟩
  · exact congrArg Host.Outcome.next (scrubByte_idle (s := tick dt s) h)
  · intro hpause hr ho hlast hsram hold hend
    refine ⟨fun herr => ?_, fun herr hone => scrub_corrected hpause hr ho hlast hsram hold hend herr hone,
      fun herr hbad => scrub_uncorrectable hpause hr ho hlast hsram hold hend herr hbad⟩
    rw [herr]
    exact congrArg Host.Outcome.next (scrub_clean (s := tick dt s) hpause hr ho hlast hsram hold hend)

end Sys2Proof.Machine
end

section
/-!
PROOFS. The ends of transfers: exhibits (chapter 8) and the loads of a head's buffers (chapter 9).
-/

namespace Sys2Proof.Machine
variable {s t u : State} {m : List StatePart} {dt ring tag : Nat} {tr : Transfer} {e : Exhibit} {bs : List Byte} {buf : HostBuf}

/-! ### What has left stays -/

/-- What has left the module has left it. -/
def OutKept (s t : State) : Prop := ∀ o ∈ s.out, o ∈ t.out

theorem outKept_refl : OutKept s s := fun _ h => h
theorem OutKept.then (h1 : OutKept s t) (h2 : OutKept t u) : OutKept s u := fun o h => h2 o (h1 o h)
theorem outKept_of_eq (h : t.out = s.out) : OutKept s t := fun o ho => by rw [h]; exact ho
theorem Within.outKept (h : Within m s t) (hm : .out ∉ m) : OutKept s t := outKept_of_eq (h .out hm)
theorem outKept_emit {o : Out} : OutKept s (emit o s) := fun _ h => List.mem_cons_of_mem _ h
theorem outKept_raiseCause {pf1 : Bool} {b : Nat} : OutKept s (raiseCause pf1 b s) := fun _ h => raiseCause_out h
theorem outKept_modCq {c : Nat} {f : CompRing → CompRing} : OutKept s (modCq c f s) := outKept_refl

theorem outKept_ite {p : Prop} [Decidable p] {a b : State} (ha : OutKept s a) (hb : OutKept s b) : OutKept s (if p then a else b) := by
  split
  · exact ha
  · exact hb

theorem outKept_catOut {q : Nat} {b : Bool} {c : CatPkt} : OutKept s (catOut q b c s) := by
  have hmeet : ∀ p cl f i n r, OutKept s (meetFaults p cl f i n r s).2 := fun _ _ _ _ _ _ => within_meetFaults.outKept (by decide)
  have hthrough : ∀ (fate : FaultFate) body o v, OutKept v (throughPoint (0x20 + q) fate body (emit o) v) := by
    intro fate body o v
    have hpass : OutKept v (passPoint (0x20 + q) v) := outKept_refl
    unfold throughPoint
    dsimp only
    refine outKept_ite hpass ?_
    split
    · exact hpass
    · split
      · exact hpass
      · exact hpass.then outKept_emit
  exact (hmeet _ _ _ _ _ _).then (hthrough _ _ _ _)

/-! ### What a completion keeps -/

/-- A relation between states that each step of a completion keeps. -/
structure ReplyRel (R : State → State → Prop) : Prop where
  refl : ∀ s, R s s
  trans : ∀ {s t u}, R s t → R t u → R s u
  quiet : ∀ {s t : State}, t.out = s.out → t.fault = s.fault → R s t
  emit : ∀ o s, R s (emit o s)
  raise : ∀ pf1 b s, R s (raiseCause pf1 b s)
  catOut : ∀ q b c s, R s (catOut q b c s)

namespace ReplyRel
variable {R : State → State → Prop} (hR : ReplyRel R)
include hR

omit hR in
theorem ite {p : Prop} [Decidable p] {a b : State} (_ : ReplyRel R) (ha : R s a) (hb : R s b) : R s (if p then a else b) := by
  split
  · exact ha
  · exact hb

theorem recordAt {pf1 : Bool} {a x e : Nat} {det : List Byte} : R s (recordAt pf1 a x e det s) := by
  obtain ⟨l, h, -⟩ := recordAt_ledger (s := s) (pf1 := pf1) (at_ := a) (unit := x) (event := e) (det := det)
  exact hR.quiet (by rw [h]) (by rw [h])

theorem catLaunch {q : Nat} {c : CatPkt} : R s (catLaunch q c s) := by
  unfold Machine.catLaunch
  refine hR.trans ?_ (hR.catOut ..)
  exact hR.quiet rfl rfl

theorem catServe {q n : Nat} : R s (catServe q n s) := by
  induction n generalizing s with
  | zero => exact hR.refl s
  | succ n ih =>
    unfold Machine.catServe
    dsimp only
    refine hR.ite (hR.refl s) ?_
    split
    · exact hR.refl s
    · refine hR.trans (hR.trans ?_ hR.catLaunch) ih
      exact hR.quiet rfl rfl

theorem catSend {ty vc dest tag : Nat} {b : List Byte} : R s (catSend ty vc dest tag b s) := by
  unfold Machine.catSend
  split
  · unfold catQueue catPump
    refine hR.trans ?_ hR.catServe
    exact hR.quiet rfl rfl
  · exact hR.refl s

theorem writeComp {c : Nat} {x : Comp} : R s (writeComp c x s) := by
  have hfirst : R s (if x.notice then s else markFirst x.sq s) := hR.ite (hR.refl s) (hR.quiet rfl rfl)
  have hmod : ∀ (f : CompRing → CompRing) v, R v (modCq c f v) := fun _ _ => hR.quiet rfl rfl
  have hwritten : ∀ (o : Out) (f : CompRing → CompRing), R s (modCq c f (Machine.emit o (if x.notice then s else markFirst x.sq s))) := fun o f =>
    hR.trans (hR.trans hfirst (hR.emit o _)) (hmod f _)
  have hvector : ∀ v, R v (sendCqVector c v) := fun v => hR.trans (hR.emit _ v) (hmod _ _)
  unfold Machine.writeComp
  dsimp only
  exact hR.ite (hR.trans (hR.ite (hR.trans (hwritten _ _) (hR.raise ..)) (hwritten _ _)) (hvector _))
    (hR.ite (hR.trans (hwritten _ _) (hR.raise ..)) (hwritten _ _))

theorem postTo {c : Nat} {x : Comp} : R s (postTo c x s) := by
  have hset : ∀ off v, R v (setBits off 2 v) := fun _ _ => hR.quiet rfl rfl
  have hlost : ∀ v off n pf1 unit event det, R v (raiseCause pf1 4 (Machine.recordAt pf1 n unit event det (setBits off 2 v))) :=
    fun v off n pf1 unit event det => hR.trans (hR.trans (hset off v) hR.recordAt) (hR.raise ..)
  unfold Machine.postTo
  dsimp only
  refine hR.ite hR.writeComp (hR.ite (hR.quiet rfl rfl) ?_)
  have hfree : R s (freeEntry c s) := hR.quiet rfl rfl
  exact hR.trans (hR.ite hfree (hR.refl s)) (hlost _ _ _ _ _ _ _)

theorem postFor {d : Desc} {x : Comp} : R s (postFor d x s) := by
  unfold Machine.postFor
  split
  · exact hR.catSend
  · exact hR.postTo

theorem hostErr {d : Desc} {n : Nat} : R s (hostErr d n s) := hR.ite (hR.raise ..) (hR.refl s)

end ReplyRel

/-- What a first completion ends, before it is posted. -/
def firstEnded (d : Desc) (status : Nat) (s : State) : State :=
  let s := hostErr d status { s with host := { s.host with begun := s.host.begun.erase d } }
  markFirst d.ring (if d.fwd.isNone then s
    else { s with catum := { s.catum with reads := s.catum.reads.filter fun r => !(r.ring == d.ring && r.dtag == d.tag) } })

namespace ReplyRel
variable {R : State → State → Prop} (hR : ReplyRel R)
include hR

theorem firstEnded {n : Nat} {d : Desc} : R s (firstEnded d n s) := by
  have hbegun : R s { s with host := { s.host with begun := s.host.begun.erase d } } := hR.quiet rfl rfl
  have hreads : ∀ v : State, R v (if d.fwd.isNone then v
      else { v with catum := { v.catum with reads := v.catum.reads.filter fun r => !(r.ring == d.ring && r.dtag == d.tag) } }) := fun v =>
    hR.ite (hR.refl v) (hR.quiet rfl rfl)
  exact hR.trans (hR.trans (hR.trans hbegun hR.hostErr) (hreads _)) (hR.quiet rfl rfl)

theorem firstAt {n st : Nat} {d : Desc} {det : List Byte} : R s (firstAt n d st det s) := by
  have hdrop : R s { s with host := { s.host with dropped := s.host.dropped.erase d } } := hR.quiet rfl rfl
  have hpost : ∀ x, R s (Machine.postFor d x (Machine.firstEnded d st s)) := fun _ => hR.trans hR.firstEnded hR.postFor
  have hfree : R s (if d.fwd.isNone then freeEntry (ringCq (Machine.firstEnded d st s) d.ring) (Machine.firstEnded d st s) else Machine.firstEnded d st s) :=
    hR.ite (hR.trans hR.firstEnded (hR.quiet rfl rfl)) hR.firstEnded
  unfold Machine.firstAt
  exact hR.ite hdrop (hR.ite hfree (hpost _))

theorem settleBad {q n : Nat} : R s (settleBad q n s) := by
  induction n generalizing s with
  | zero => exact hR.refl s
  | succ n ih =>
    unfold Machine.settleBad
    split
    · exact hR.refl s
    · refine hR.ite (hR.refl s) ?_
      have hdrop : R s (dropFront q s) := hR.quiet rfl rfl
      have hfence : ∀ d v, R v (noteFence d v) := fun _ v => hR.ite (hR.quiet rfl rfl) (hR.refl v)
      exact hR.trans (hR.trans (hR.trans hdrop (hfence _ _)) hR.firstAt) ih

theorem completeAt {n st : Nat} {d : Desc} {det : List Byte} : R s (completeAt n d st det s) := hR.trans hR.firstAt hR.settleBad

theorem noticeAt {n st : Nat} {d : Desc} {det : List Byte} : R s (noticeAt n d st det s) := hR.trans hR.hostErr hR.postFor

end ReplyRel

theorem replyRel_outKept : ReplyRel OutKept where
  refl _ := outKept_refl
  trans := OutKept.then
  quiet h _ := outKept_of_eq h
  emit _ _ := outKept_emit
  raise _ _ _ := outKept_raiseCause
  catOut _ _ _ _ := outKept_catOut

theorem outKept_catSend {ty vc dest tag : Nat} {b : List Byte} : OutKept s (catSend ty vc dest tag b s) := replyRel_outKept.catSend
theorem outKept_completeAt {n st : Nat} {d : Desc} {det : List Byte} : OutKept s (completeAt n d st det s) := replyRel_outKept.completeAt
theorem outKept_noticeAt {n st : Nat} {d : Desc} {det : List Byte} : OutKept s (noticeAt n d st det s) := replyRel_outKept.noticeAt

/-! ### What the end of a transfer runs -/

theorem bufOf_local (h : tr.desc.fwd = none) : bufOf tr.desc buf s = buf := by
  unfold bufOf
  dsimp only
  rw [h]
  rfl

theorem transferDone_waits (hx : xferOf s ring tag [0x0503, 0x0504] = some tr) (hself : s.hbm.selfRef = true) :
    exec (.transferDone dt ring tag buf) s = .next (holdHost (.ended ring tag false buf) (tick dt s)) := by
  have hexec : execTransferDone dt ring tag buf s = .next (holdHost (.ended ring tag false buf) (tick dt s)) := by
    have hx' : xferOf (tick dt s) ring tag [0x0503, 0x0504] = some tr := hx
    unfold execTransferDone
    dsimp only
    rw [hx']
    exact congrArg Host.Outcome.next (if_pos hself)
  exact hexec

theorem transferDone_ends (hx : xferOf s ring tag [0x0503, 0x0504] = some tr) (hself : s.hbm.selfRef = false) (hfwd : tr.desc.fwd = none) :
    exec (.transferDone dt ring tag buf) s = .next (if tr.opcode = 0x0503 then endWrite tr buf (tick dt s) else endRead tr buf (tick dt s)) := by
  have hexec : execTransferDone dt ring tag buf s = .next (endExhXfer tr buf (tick dt s)) := by
    have hx' : xferOf (tick dt s) ring tag [0x0503, 0x0504] = some tr := hx
    have hself' : (tick dt s).hbm.selfRef = false := hself
    unfold execTransferDone
    dsimp only
    rw [hx']
    exact congrArg Host.Outcome.next (if_neg (by rw [hself']; exact Bool.false_ne_true))
  refine hexec.trans (congrArg Host.Outcome.next ?_)
  unfold endExhXfer
  rw [bufOf_local hfwd]

theorem hostTransferDone_waits (hx : xferOf s ring tag loadOpcodes = some tr) (hself : s.hbm.selfRef = true) :
    exec (.hostTransferDone dt ring tag buf) s = .next (holdHost (.ended ring tag true buf) (tick dt s)) := by
  have hexec : execHostTransferDone dt ring tag buf s = .next (holdHost (.ended ring tag true buf) (tick dt s)) := by
    have hx' : xferOf (tick dt s) ring tag loadOpcodes = some tr := hx
    unfold execHostTransferDone
    dsimp only
    rw [hx']
    exact congrArg Host.Outcome.next (if_pos hself)
  exact hexec

theorem hostTransferDone_ends (hx : xferOf s ring tag loadOpcodes = some tr) (hself : s.hbm.selfRef = false) (hfwd : tr.desc.fwd = none)
    (hop : tr.opcode ≠ 0x0403) : exec (.hostTransferDone dt ring tag buf) s = .next (finishTransfer tr buf (tick dt s)) := by
  have hexec : execHostTransferDone dt ring tag buf s = .next (endHostLoad tr buf (tick dt s)) := by
    have hx' : xferOf (tick dt s) ring tag loadOpcodes = some tr := hx
    have hself' : (tick dt s).hbm.selfRef = false := hself
    unfold execHostTransferDone
    dsimp only
    rw [hx']
    exact congrArg Host.Outcome.next (if_neg (by rw [hself']; exact Bool.false_ne_true))
  have hpush : pushBehind tr (tick dt s) = false := by
    rw [pushBehind, beq_eq_false_iff_ne.2 hop, Bool.false_and]
  refine hexec.trans (congrArg Host.Outcome.next ?_)
  unfold endHostLoad
  rw [hpush, if_neg Bool.false_ne_true, bufOf_local hfwd]

/-! ### An exhibit write ends -/

/-- A transfer leaves the list. -/
def xferGone (tr : Transfer) (s : State) : State := { s with adm := { s.adm with transfers := s.adm.transfers.erase tr } }

/-- The bytes of a write, landed. -/
def bytesLanded (a : Nat) (bs : List Byte) (s : State) : State :=
  mendComp (fun x => decide (a ≤ x) && decide (x < a + bs.length)) (storeRaw a bs s)

theorem writeInternal_landed {a : Nat} (harch : s.ecc.archives = []) (hfrozen : anyFrozen s a bs.length = false) :
    writeInternal a bs s = bytesLanded a bs s := by
  rw [writeInternal, hfrozen]
  exact (writeHbm_plain harch).trans (storeHbm_plain harch)

theorem firstFrozen_none {a n : Nat} (h : anyFrozen s a n = false) : firstFrozen s a n = none := by
  have hnil : (stretches s a n).filter (frozenAt s) = [] := List.filter_eq_nil_iff.2 fun x hx => List.any_eq_false.1 h x hx
  rw [firstFrozen, hnil]
  rfl

theorem tearPins_idle {h : Nat} (hnone : ∀ t ∈ s.adm.transfers, t.object = h → t.force = false) : tearPins h s = s := by
  unfold tearPins
  split
  · rfl
  · dsimp only
    refine if_pos ?_
    rw [Bool.not_eq_true', List.any_eq_false]
    intro t ht hmine
    simp only [Bool.and_eq_true, beq_iff_eq] at hmine
    obtain ⟨⟨⟨hforce, -⟩, hobj⟩, -⟩ := hmine
    exact absurd hforce (by rw [hnone t ht hobj]; exact Bool.false_ne_true)

theorem within_noteChange {n k : Nat} (h : s.hbm.host = []) : Within [.heads, .pstate, .selfRef] s (noteChange n k s) :=
  (within_trans within_modCave (within_exitCause fun _ => h)).mono (by decide)

theorem within_noteChanges {n : Nat} {l : List Nat} (h : s.hbm.host = []) : Within [.heads, .pstate, .selfRef] s (forEach l (noteChange n) s) := by
  induction l generalizing s with
  | nil => exact within_refl
  | cons k l ih =>
    have hone := within_noteChange (n := n) (k := k) h
    have hhost : (noteChange n k s).hbm.host = [] := (hone.hbm_field (by decide) (f := Hbm.host) fun _ => rfl).trans h
    exact hone.then (ih hhost)

theorem runHeld_idle {h n : Nat} (he : exhOf s h = some e) (hheld : e.held = []) : runHeld h n s = s := by
  unfold runHeld
  rw [he]
  dsimp only
  rw [hheld]
  exact ite_self s

theorem modExh_some {h : Nat} {g : Exhibit → Exhibit} (he : exhOf s h = some e) : modExh h g s = setExh h (g e) s := by
  unfold modExh
  rw [he]

theorem within_xferComplete {n : Nat} {det : List Byte} : Within replyParts s (xferComplete tr n det s) := by
  unfold xferComplete
  split
  · exact within_ite within_complete within_refl
  · exact within_ite within_noticeAt within_noticeAt

theorem outKept_xferComplete {n : Nat} {det : List Byte} : OutKept s (xferComplete tr n det s) := by
  unfold xferComplete
  split
  · exact outKept_ite outKept_completeAt outKept_refl
  · exact outKept_ite outKept_noticeAt outKept_noticeAt

/-- The bytes that a write has moved. -/
def movedData (tr : Transfer) (buf : HostBuf) (rev : Bool) : List Byte :=
  if tr.fin then [] else if rev then (buf.bytes.take tr.desc.length).take (movedBytes tr.desc.length (buf.bytes.take tr.desc.length).length)
  else buf.bytes.take tr.desc.length

/-- The status and detail of a write's end. -/
def endStatus (tr : Transfer) (buf : HostBuf) (n : Nat) (s : State) : Nat × List Byte :=
  if tr.fin then (0x41, [])
  else if buf.bad then (0x501, u64 n)
  else match firstFrozen s tr.place tr.desc.length with
    | some x => (0x40, u64 x)
    | none => (0, [])

/-- The exhibit's state at a write's end. -/
def endState (tr : Transfer) (st : Nat) (rev : Bool) (s : State) : State :=
  if tr.force || s.adm.transfers.any (fun u => u.object == tr.object && u.opcode == 0x0503 && !u.force) then s
  else modExh tr.object (fun e => { e with state := if st = 0 ∧ !rev then .ready else .free }) s

theorem endWrite_eq : endWrite tr buf s = (let rev := xferRevoked tr s
    let data := movedData tr buf rev
    let v := xferGone tr (tearPins tr.object (writeInternal tr.place data s))
    let r := endStatus tr buf data.length v
    let w := dropItem (.transfer tr.desc.ring tr.desc.tag tr.item) (endState tr r.1 rev v)
    let x := if rev then w else xferComplete tr r.1 r.2 w
    runHeld tr.object (tr.held.getD 0xFFFFFFFF) (forEach (readers x tr.object) (noteChange tr.desc.t) x)) := rfl

/-- An exhibit whose write has ended. -/
def writeEnded (tr : Transfer) (e : Exhibit) (bs : List Byte) (s : State) : State :=
  dropItem (.transfer tr.desc.ring tr.desc.tag tr.item) (setExh tr.object { e with state := .ready } (xferGone tr (bytesLanded tr.place bs s)))

/-- What follows the end of a write: its completion, and the heads that read the exhibit. -/
def writeTold (tr : Transfer) (s : State) : State :=
  let s := xferComplete tr 0 [] s
  forEach (readers s tr.object) (noteChange tr.desc.t) s

theorem within_writeTold (h : s.hbm.host = []) : Within (replyParts ++ [.heads, .pstate, .selfRef]) s (writeTold tr s) := by
  have hdone : Within replyParts s (xferComplete tr 0 [] s) := within_xferComplete
  exact within_trans hdone (within_noteChanges ((hdone.hbm_field (by decide) (f := Hbm.host) fun _ => rfl).trans h))

theorem endWrite_whole (harch : s.ecc.archives = []) (he : exhOf s tr.object = some e) (hfrozen : anyFrozen s tr.place tr.desc.length = false)
    (hhost : s.hbm.host = []) (hfin : tr.fin = false) (hrev : xferRevoked tr s = false) (hforce : tr.force = false)
    (hlen : bs.length = tr.desc.length) (hheld : e.held = []) (hothers : ∀ u ∈ s.adm.transfers.erase tr, u.object ≠ tr.object) :
    endWrite tr (.data bs) s = writeTold tr (writeEnded tr e bs s) := by
  have hbytes : movedData tr (.data bs) false = bs := by
    rw [movedData, hfin]
    exact List.take_of_length_le (Nat.le_of_eq hlen)
  have hland : writeInternal tr.place bs s = bytesLanded tr.place bs s := writeInternal_landed harch (by rw [hlen]; exact hfrozen)
  have htear : tearPins tr.object (bytesLanded tr.place bs s) = bytesLanded tr.place bs s := tearPins_idle fun t ht hobj => by
    by_cases h : t = tr
    · rw [h, hforce]
    · exact absurd hobj (hothers t ((List.mem_erase_of_ne h).2 ht))
  have hstatus : endStatus tr (.data bs) bs.length (xferGone tr (bytesLanded tr.place bs s)) = (0, []) := by
    have hfirst : firstFrozen (xferGone tr (bytesLanded tr.place bs s)) tr.place tr.desc.length = none := firstFrozen_none hfrozen
    rw [endStatus, hfin, hfirst]
    rfl
  have hready : endState tr 0 false (xferGone tr (bytesLanded tr.place bs s)) =
      setExh tr.object { e with state := .ready } (xferGone tr (bytesLanded tr.place bs s)) := by
    have hbusy : (xferGone tr (bytesLanded tr.place bs s)).adm.transfers.any (fun u => u.object == tr.object && u.opcode == 0x0503 && !u.force) = false := by
      refine List.any_eq_false.2 fun u hu hb => ?_
      simp only [Bool.and_eq_true, beq_iff_eq] at hb
      exact hothers u hu hb.1.1
    rw [endState, hforce, hbusy]
    exact modExh_some he
  have hexh : exhOf (writeTold tr (writeEnded tr e bs s)) tr.object = some { e with state := .ready } := by
    have hset : exhOf (writeEnded tr e bs s) tr.object = some { e with state := .ready } := exhOf_setExh_same
    exact ((within_writeTold (s := writeEnded tr e bs s) hhost).apply (exhOf · tr.object) rfl).trans hset
  have hrun : ∀ n, runHeld tr.object n (writeTold tr (writeEnded tr e bs s)) = writeTold tr (writeEnded tr e bs s) := fun n => runHeld_idle hexh hheld
  rw [endWrite_eq]
  dsimp only
  rw [hrev, hbytes, hland, htear, hstatus, hready, if_neg Bool.false_ne_true]
  exact hrun _

theorem writeEnded_fields : (∀ x, rawByte (writeEnded tr e bs s) x = rawByte (storeRaw tr.place bs s) x) ∧
    (writeEnded tr e bs s).adm.transfers = s.adm.transfers.erase tr ∧ (writeEnded tr e bs s).hbm.host = s.hbm.host ∧
    (writeEnded tr e bs s).ports = s.ports ∧ (writeEnded tr e bs s).gheler = s.gheler ∧ (writeEnded tr e bs s).ingest = s.ingest := by
  have hland : Within storeParts s (bytesLanded tr.place bs s) := within_storeRaw.then within_mendComp
  have hgone : Within [.transfers, .exhibits, .items] (bytesLanded tr.place bs s) (writeEnded tr e bs s) :=
    ((within_of_eq_sub (m := [.transfers]) rfl (by decide) (by decide) : Within [.transfers, .exhibits, .items] _ (xferGone tr _)).then
      (within_setExh.mono (by decide))).then (within_dropItem.mono (by decide))
  have hxfers : (writeEnded tr e bs s).adm.transfers = (bytesLanded tr.place bs s).adm.transfers.erase tr := by
    have hlist : ∀ v : State, (dropItem (.transfer tr.desc.ring tr.desc.tag tr.item) (setExh tr.object { e with state := .ready } v)).adm.transfers =
        v.adm.transfers := fun _ => rfl
    exact hlist _
  have hadm : (bytesLanded tr.place bs s).adm.transfers = s.adm.transfers := hland.apply (fun s => s.adm.transfers) rfl
  generalize writeEnded tr e bs s = w at *
  refine ⟨fun x => hgone.apply (rawByte · x) rfl, hxfers.trans (by rw [hadm]), ?_, ?_, ?_, ?_⟩
  · exact (hgone.hbm_field (by decide) (f := Hbm.host) fun _ => rfl).trans (hland.hbm_field (by decide) (f := Hbm.host) fun _ => rfl)
  · exact (hgone.apply State.ports rfl).trans (hland.apply State.ports rfl)
  · exact (hgone.apply State.gheler rfl).trans (hland.apply State.gheler rfl)
  · exact (hgone.apply State.ingest rfl).trans (hland.apply State.ingest rfl)

theorem writeEnded_exhOf : exhOf (writeEnded tr e bs s) tr.object = some { e with state := .ready } ∧
    ∀ y, y ≠ tr.object → exhOf (writeEnded tr e bs s) y = exhOf s y :=
  ⟨exhOf_setExh_same (s := xferGone tr (bytesLanded tr.place bs s)), fun _ hy => exhOf_setExh_ne (s := xferGone tr (bytesLanded tr.place bs s)) hy⟩

theorem writeEnded_frame (hmem : s.memOk) (hhost : s.hbm.host = []) : let t := writeTold tr (writeEnded tr e bs s)
    (∀ i (h : i < bs.length), rawByte t (tr.place + i) = bs[i]) ∧
    (∀ x, x < tr.place ∨ tr.place + bs.length ≤ x → rawByte t x = rawByte s x) ∧
    exhOf t tr.object = some { e with state := .ready } ∧ (∀ y, y ≠ tr.object → exhOf t y = exhOf s y) ∧
    t.adm.transfers = s.adm.transfers.erase tr ∧ t.ports = s.ports ∧ t.gheler = s.gheler ∧ t.ingest = s.ingest := by
  obtain ⟨hbyte, hxfers, hhosts, hports, hgheler, hingest⟩ := writeEnded_fields (tr := tr) (e := e) (bs := bs) (s := s)
  obtain ⟨hsame, hne⟩ := writeEnded_exhOf (tr := tr) (e := e) (bs := bs) (s := s)
  dsimp only
  generalize writeEnded tr e bs s = w at *
  have htold := within_writeTold (s := w) (tr := tr) (hhosts.trans hhost)
  generalize writeTold tr w = t at *
  have hraw : ∀ x, rawByte t x = rawByte w x := fun x => htold.apply (rawByte · x) rfl
  have hexh : ∀ y, exhOf t y = exhOf w y := fun y => htold.apply (exhOf · y) rfl
  exact ⟨fun i h => ((hraw _).trans (hbyte _)).trans (rawByte_storeRaw_in hmem h), fun x h => ((hraw _).trans (hbyte _)).trans (rawByte_storeRaw_out h),
    (hexh _).trans hsame, fun y hy => (hexh y).trans (hne y hy), (htold.apply (fun s => s.adm.transfers) rfl).trans hxfers,
    (htold.apply State.ports rfl).trans hports, (htold.apply State.gheler rfl).trans hgheler, (htold.apply State.ingest rfl).trans hingest⟩

/-! ### An exhibit read ends -/

/-- An exhibit read that has met no error, before its completion. -/
def readEnded (tr : Transfer) (s : State) : State :=
  dropItem (.transfer tr.desc.ring tr.desc.tag tr.item) (xferGone tr (emit (.host (tr.desc.p64 16) (readHbm s tr.place tr.desc.length)) s))

theorem hostWrite_local {d : Desc} {a : Nat} (h : d.fwd = none) : hostWrite d a bs s = emit (.host a bs) s := by
  unfold hostWrite
  rw [h]

/-- What the end of a read does after its bytes: the poison of those that failed, the counts, the item and the completion. -/
def readTail (tr : Transfer) (n : Nat) (rev : Bool) (s : State) : State :=
  let bad := badAddrs s tr.place n
  let s := forEach (bad.map fun x => (tr.desc.p64 16 + (x - tr.place)) / 64 * 64).eraseDups (fun x => emit (.poison x)) s
  let s := dropItem (.transfer tr.desc.ring tr.desc.tag tr.item) (noteRead 3 tr.place n (xferGone tr s))
  if rev then s
  else match leastOf ((firstFrozen s tr.place n).toList ++ bad) with
    | some x => xferComplete tr 0x40 (u64 x) s
    | none => xferComplete tr 0 [] s

theorem endRead_eq : endRead tr buf s = readTail tr
    (if xferRevoked tr s then movedBytes tr.desc.length buf.bytes.length else tr.desc.length) (xferRevoked tr s)
    (hostWrite tr.desc (tr.desc.p64 16)
      (readHbm s tr.place (if xferRevoked tr s then movedBytes tr.desc.length buf.bytes.length else tr.desc.length)) s) := rfl

theorem readTail_clean (harch : s.ecc.archives = []) (hfrozen : anyFrozen s tr.place tr.desc.length = false)
    (hbad : anyBad s tr.place tr.desc.length = false) : readTail tr tr.desc.length false s =
      xferComplete tr 0 [] (dropItem (.transfer tr.desc.ring tr.desc.tag tr.item) (xferGone tr s)) := by
  have hnone : badAddrs s tr.place tr.desc.length = [] := by simpa [anyBad] using hbad
  have hfix : fixable (xferGone tr s) tr.place tr.desc.length = [] := by
    show s.ecc.archives.flatMap _ = []
    rw [harch]
    rfl
  have hnote : noteRead 3 tr.place tr.desc.length (xferGone tr s) = xferGone tr s := noteRead_clean hnone hfix
  have hfirst : firstFrozen (dropItem (.transfer tr.desc.ring tr.desc.tag tr.item) (xferGone tr s)) tr.place tr.desc.length = none :=
    firstFrozen_none hfrozen
  unfold readTail
  dsimp only
  rw [hnone]
  rw [show forEach (([] : List Nat).map fun x => (tr.desc.p64 16 + (x - tr.place)) / 64 * 64).eraseDups (fun x => emit (.poison x)) s = s from rfl, hnote, hfirst]
  rfl

theorem endRead_whole (harch : s.ecc.archives = []) (hfrozen : anyFrozen s tr.place tr.desc.length = false)
    (hbad : anyBad s tr.place tr.desc.length = false) (hfwd : tr.desc.fwd = none) (hrev : xferRevoked tr s = false) :
    endRead tr buf s = xferComplete tr 0 [] (readEnded tr s) := by
  rw [endRead_eq, hrev, if_neg Bool.false_ne_true, hostWrite_local hfwd]
  exact readTail_clean harch hfrozen hbad

theorem readEnded_frame : let t := xferComplete tr 0 [] (readEnded tr (tick dt s))
    .host (tr.desc.p64 16) (readHbm s tr.place tr.desc.length) ∈ t.out ∧ t.adm.transfers = s.adm.transfers.erase tr ∧
      OnlyReply { s with adm := { s.adm with transfers := t.adm.transfers, items := t.adm.items } } t := by
  have hdone : Within replyParts (readEnded tr (tick dt s)) (xferComplete tr 0 [] (readEnded tr (tick dt s))) := within_xferComplete
  have hend : Within [.transfers, .items, .out] (tick dt s) (readEnded tr (tick dt s)) := within_of_eq rfl (by decide)
  refine ⟨?_, hdone.apply (fun s => s.adm.transfers) rfl, ?_⟩
  · exact outKept_xferComplete _ List.mem_cons_self
  · exact onlyReply_patch (m := [.transfers, .items]) ((within_trans (within_trans within_tick hend) hdone).mono (by decide)) (by decide)


/-! ### A load ends -/

theorem endLoad_data {good : List Byte → State → State} (hheld : tr.held = none) :
    endLoad tr (.data bs) good s = good (padTo tr.desc.length bs) (xferGone tr s) := by
  have hcover : ∀ v, releaseCover tr.object tr v = v := fun v => by
    unfold releaseCover
    rw [hheld]
  unfold endLoad
  dsimp only
  rw [hcover, ite_self]
  rfl

theorem endLoad_error {good : List Byte → State → State} (hheld : tr.held = none) (howes : owes tr.desc s = true) :
    endLoad tr (.error bs) good s = complete tr.desc 0x501 (u64 bs.length) (xferGone tr s) := by
  have hcover : ∀ v, releaseCover tr.object tr v = v := fun v => by
    unfold releaseCover
    rw [hheld]
  have howes' : owes tr.desc (xferGone tr s) = true := howes
  unfold endLoad
  dsimp only
  rw [hcover, ite_self]
  exact if_pos howes'

theorem finishTransfer_error (hheld : tr.held = none) (howes : owes tr.desc s = true)
    (hop : tr.opcode = 0x0801 ∨ tr.opcode = 0x0902 ∨ tr.opcode = 0x0A02 ∨ tr.opcode = 0x0C02) :
    finishTransfer tr (.error bs) s = complete tr.desc 0x501 (u64 bs.length) (xferGone tr s) := by
  unfold finishTransfer
  rcases hop with h | h | h | h <;> rw [h] <;> exact endLoad_error hheld howes

/-- The tile of a DITHER_LOAD in the open shadow. -/
def tileShadow (tr : Transfer) (bs : List Byte) : Shadow :=
  { Reset.shadow with dither := [(tr.desc.p8 25, (List.range 65536).map fun i => fieldOf (padTo tr.desc.length bs) (2 * i) 2)] }

theorem finishTransfer_dither (hheld : tr.held = none) (hop : tr.opcode = 0x0902) : finishTransfer tr (.data bs) s =
    complete tr.desc 0 [] (openWrite (tr.desc.p8 24) tr.desc (tileShadow tr bs) (xferGone tr s)) := by
  have hopen : modShadow (tr.desc.p8 24) tr.held tr.desc (tileShadow tr bs) (xferGone tr s) =
      openWrite (tr.desc.p8 24) tr.desc (tileShadow tr bs) (xferGone tr s) := by
    rw [hheld]
    rfl
  have hfinish : finishTransfer tr (.data bs) s = finishDither tr (.data bs) s := by
    unfold finishTransfer
    rw [hop]
    rfl
  rw [hfinish, ← hopen]
  exact endLoad_data hheld

theorem ditherEnded_frame : let t := complete tr.desc 0 [] (openWrite (tr.desc.p8 24) tr.desc (tileShadow tr bs) (xferGone tr (tick dt s)))
    t.heads = upd s.heads (tr.desc.p8 24) (fun h => { h with pipe := { h.pipe with openSh := h.pipe.openSh ++
      [⟨tr.desc.ring, (tick dt s).now, tileShadow tr bs⟩] } }) ∧
    OnlyReply { s with heads := t.heads, adm := { s.adm with transfers := s.adm.transfers.erase tr } } t := by
  have hgone : Within [.transfers] (tick dt s) (xferGone tr (tick dt s)) := within_of_eq rfl (by decide)
  have hopen : Within [.heads] (xferGone tr (tick dt s)) (openWrite (tr.desc.p8 24) tr.desc (tileShadow tr bs) (xferGone tr (tick dt s))) := within_modHead
  have hheads : (openWrite (tr.desc.p8 24) tr.desc (tileShadow tr bs) (xferGone tr (tick dt s))).heads =
      upd s.heads (tr.desc.p8 24) (fun h => { h with pipe := { h.pipe with openSh := h.pipe.openSh ++ [⟨tr.desc.ring, (tick dt s).now, tileShadow tr bs⟩] } }) := rfl
  have hxfers : (openWrite (tr.desc.p8 24) tr.desc (tileShadow tr bs) (xferGone tr (tick dt s))).adm.transfers = s.adm.transfers.erase tr := rfl
  have hwork := within_trans (within_trans (within_tick (dt := dt)) hgone) hopen
  dsimp only
  generalize openWrite (tr.desc.p8 24) tr.desc (tileShadow tr bs) (xferGone tr (tick dt s)) = w at *
  have hdone : Within replyParts w (complete tr.desc 0 [] w) := within_complete
  have ht : (complete tr.desc 0 [] w).adm.transfers = s.adm.transfers.erase tr := (hdone.apply (fun s => s.adm.transfers) rfl).trans hxfers
  refine ⟨(hdone.apply State.heads rfl).trans hheads, ?_⟩
  rw [← ht]
  exact onlyReply_patch (m := [.heads, .transfers]) ((within_trans hwork hdone).mono (by decide)) (by decide)

/-- Settles O31. -/
theorem transfersEndAsAWhole : Obligations.TransfersEndAsAWhole := by
  unfold Obligations.TransfersEndAsAWhole
  refine ⟨fun dt ring tag buf tr s hself => ⟨fun hx => transferDone_waits hx hself, fun hx => hostTransferDone_waits hx hself⟩,
    fun dt ring tag bs tr e s => ?_, fun dt ring tag bs tr s hself hx hfwd hheld => ⟨fun hop => ?_, fun hop howes => ?_⟩⟩
  · intro a hmem harch he hfrozen hself hhost hx hfwd hfin _ hrev
    have hexec : ∀ buf, exec (.transferDone dt ring tag buf) s =
        .next (if tr.opcode = 0x0503 then endWrite tr buf (tick dt s) else endRead tr buf (tick dt s)) := fun buf => transferDone_ends hx hself hfwd
    refine ⟨fun hop hforce hlen hheld hothers => ?_, fun hop hbad => ?_⟩
    · have hend := endWrite_whole (s := tick dt s) harch he hfrozen hhost hfin hrev hforce hlen hheld hothers
      exact ⟨_, (hexec _).trans (congrArg Host.Outcome.next ((if_pos hop).trans hend)), writeEnded_frame (s := tick dt s) hmem hhost⟩
    · have hend := endRead_whole (s := tick dt s) (buf := .data bs) harch hfrozen hbad hfwd hrev
      exact ⟨_, (hexec _).trans (congrArg Host.Outcome.next ((if_neg (by rw [hop]; decide)).trans hend)), readEnded_frame⟩
  · have hexec := hostTransferDone_ends (dt := dt) (buf := .data bs) hx hself hfwd (by rw [hop]; decide)
    exact ⟨_, hexec.trans (congrArg Host.Outcome.next (finishTransfer_dither hheld hop)), ditherEnded_frame⟩
  · have hno : tr.opcode ≠ 0x0403 := by
      rcases hop with h | h | h | h <;> rw [h] <;> decide
    have hexec := hostTransferDone_ends (dt := dt) (buf := .error bs) hx hself hfwd hno
    exact hexec.trans (congrArg Host.Outcome.next (finishTransfer_error (s := tick dt s) hheld howes hop))

end Sys2Proof.Machine
end

section
/-!
PROOFS. Settings of a head that wait for their frame (chapters 11, 12 and 15), and the loads of its buffers.
-/

namespace Sys2Proof.Machine
variable {s t u b : State} {dt k n : Nat} {d : Desc} {x : List Byte}

/-! ### A setting that waits -/

/-- A setting put at a head, which a change then notes. -/
theorem settingPut_frame {f : Head → Head} {w : State} (hk : k < b.heads.length) (hb : Within (clockParts ++ replyParts) s b)
    (hw : Within [.items] b w) : let t := headChanged k n (modHead k f w)
    (∀ {α : Type} (g : Head → α), (∀ h v, g { h with cave := v } = g h) → g (headOf t k) = g (f (headOf s k))) ∧
    (∀ j, j ≠ k → headOf t j = headOf s j) ∧
    ((s.power.state = .p2 → s.hbm.host = []) → t = { b with
      heads := t.heads, adm := { s.adm with items := t.adm.items }
      power := { s.power with state := t.power.state }, hbm := { s.hbm with selfRef := t.hbm.selfRef } }) := by
  have hhead : ∀ j, headOf w j = headOf s j := fun j => (hw.headOf (by decide) j).trans (hb.headOf (by decide) j)
  have hlen : k < w.heads.length := by
    rw [show w.heads = b.heads from hw .heads (by decide)]
    exact hk
  refine ⟨fun g hg => ?_, fun j hj => ?_, fun hhost => ?_⟩
  · rw [headOf_headChanged_field hg, headOf_modHead_same hlen, hhead]
  · rw [headOf_headChanged_ne hj, headOf_modHead_ne hj, hhead]
  · have hmod : Within [.items, .heads] b (modHead k f w) := within_trans hw within_modHead
    have hhost' : (modHead k f w).power.state = .p2 → (modHead k f w).hbm.host = [] := fun hp => by
      have hstate : (modHead k f w).power.state = b.power.state := hmod .pstate (by decide)
      rw [hmod.hbm_field (by decide) (f := Hbm.host) fun _ => rfl]
      exact begun_woken hb hhost (hstate.symm.trans hp)
    have hall := within_trans hmod (within_headChanged (k := k) (n := n) hhost')
    have hpower : b.power = s.power := hb.apply State.power rfl
    have hhbm : b.hbm = s.hbm := hb.apply State.hbm rfl
    have hadm : b.adm = s.adm := hb.apply State.adm rfl
    rw [← hpower, ← hhbm, ← hadm]
    exact within_eq (hall.mono (by decide) : Within [.items, .heads, .pstate, .selfRef] b _)

/-! ### MOTION_CFG -/

theorem begun_heads_length {e : Desc} : (begun d e (tick dt s)).heads.length = s.heads.length := begun_apply (fun s => s.heads.length) rfl

theorem lt_of_cfg {c : HeadCfg} (h : (headOf s k).pipe.cfg = some c) : k < s.heads.length :=
  lt_of_configured (by rw [configured, h]; rfl)

/-- A motion setting that waits at its head. -/
def motionPends (m : MotionCfg) (d : Desc) (h : Head) : Head := { h with motion := { h.motion with pending := some (m, d) } }

theorem motionAct_off {c : HeadCfg} (hcfg : (headOf s (d.p8 16)).pipe.cfg = some c) (hvalid : motionInvalid c d = none)
    (hpend : (headOf s (d.p8 16)).motion.pending = none) (hoff : (motionOf d).source = 0) :
    motionAct d s = headChanged (d.p8 16) d.t (modHead (d.p8 16) (motionPends (motionOf d) d) s) := by
  unfold motionAct
  dsimp only
  rw [hcfg]
  dsimp only
  rw [hvalid]
  dsimp only
  rw [if_pos hoff, if_neg (Nat.not_lt_zero _), hpend]
  exact if_pos hoff

theorem motionAct_on {c : HeadCfg} (hcfg : (headOf s (d.p8 16)).pipe.cfg = some c) (hvalid : motionInvalid c d = none)
    (hpend : (headOf s (d.p8 16)).motion.pending = none) (hon : (motionOf d).source ≠ 0)
    (hpool : otherBands s (d.p8 16) + bandBytes c (motionOf d).band ≤ motionPool)
    (hroom : shortage s (.motion (d.p8 16)) (motionUnits s (d.p8 16) c (motionOf d) (headOf s (d.p8 16)).press.counted
      ((headOf s (d.p8 16)).press.countedForm || reducedNow s)) = none) :
    motionAct d s = headChanged (d.p8 16) d.t (modHead (d.p8 16) (motionPends (motionOf d) d) (putItem (.motion (d.p8 16)) d
      (motionUnits s (d.p8 16) c (motionOf d) (headOf s (d.p8 16)).press.counted ((headOf s (d.p8 16)).press.countedForm || reducedNow s)) s)) := by
  unfold motionAct
  dsimp only
  rw [hcfg]
  dsimp only
  rw [hvalid]
  dsimp only
  rw [if_neg hon, if_neg (Nat.not_lt.2 hpool), hpend]
  exact (if_neg hon).trans (admitDesc_admitted hroom)

theorem within_headChanged_served : Within ([.heads, .pstate, .selfRef, .hbm] ++ readParts) s (headChanged k n s) := by
  have hcave : Within [.heads] s (caveExit k 1 n (modCave k (fun v => { v with latest := max v.latest n }) s)) := within_modCave.then within_caveExit
  exact within_ite ((hcave.mono (by decide)).then (within_leaveP2_served.mono (by decide))) (hcave.mono (by decide))

theorem headChanged_bootStage : (headChanged k n s).power.bootStage = s.power.bootStage :=
  within_headChanged_served.power_field (by decide) (f := Power.bootStage) fun _ => rfl

theorem bootShed_idle {stage cause : Nat} {p : Item → Bool} (h : s.power.bootStage < stage) : bootShed stage cause p s = s :=
  if_neg (Nat.not_le.2 h)

theorem exec_motionCfg_accepted (h : Runs (.motionCfg dt d) s) : exec (.motionCfg dt d) s =
    .next (bootShed 3 1 (fun i => i.kind == .motion (d.p8 16)) (motionAct d.trunc (begun d d.trunc (tick dt s)))) :=
  congrArg Host.Outcome.next (runDesc_accepted h)

theorem motionCfg_clause {c : HeadCfg} (hcfg : (headOf s (d.trunc.p8 16)).pipe.cfg = some c) (hrun : Runs (.motionCfg dt d) s)
    (hvalid : motionInvalid c d.trunc = none) (hpend : (headOf s (d.trunc.p8 16)).motion.pending = none) :
    let m := d.trunc; let b := begun d m (tick dt s); let k := d.trunc.p8 16; let cfg := motionOf d.trunc
    (cfg.source = 0 ∨ (otherBands s k + bandBytes c cfg.band ≤ motionPool ∧ shortage b (.motion k)
      (motionUnits b k c cfg (headOf s k).press.counted ((headOf s k).press.countedForm || reducedNow s)) = none)) →
    s.power.bootStage < 3 →
    ∃ t, exec (.motionCfg dt d) s = .next t ∧ (headOf t k).motion = { (headOf s k).motion with pending := some (cfg, m) } ∧
      (∀ j, j ≠ k → headOf t j = headOf s j) ∧
      ((s.power.state = .p2 → s.hbm.host = []) → t = { b with
        heads := t.heads, adm := { s.adm with items := t.adm.items }
        power := { s.power with state := t.power.state }, hbm := { s.hbm with selfRef := t.hbm.selfRef } }) := by
  intro m b k cfg hroom hboot
  have hb : Within (clockParts ++ replyParts) s b := within_tick_begun
  have hhead : headOf b k = headOf s k := begun_headOf
  have hlen : k < b.heads.length := by
    rw [begun_heads_length]
    exact lt_of_cfg hcfg
  have hbands : otherBands b k = otherBands s k := begun_apply (otherBands · k) rfl
  have hred : reducedNow b = reducedNow s := begun_apply reducedNow rfl
  have hact : ∃ w, Within [.items] b w ∧ motionAct m b = headChanged k m.t (modHead k (motionPends cfg m) w) := by
    rcases hroom with hoff | ⟨hpool, hroom⟩
    · exact ⟨b, within_refl, motionAct_off (by rw [hhead]; exact hcfg) hvalid (by rw [hhead]; exact hpend) hoff⟩
    · by_cases hoff : cfg.source = 0
      · exact ⟨b, within_refl, motionAct_off (by rw [hhead]; exact hcfg) hvalid (by rw [hhead]; exact hpend) hoff⟩
      · refine ⟨_, within_putItem, motionAct_on (by rw [hhead]; exact hcfg) hvalid (by rw [hhead]; exact hpend) hoff (by rw [hbands]; exact hpool) ?_⟩
        rw [hhead, hred]
        exact hroom
  obtain ⟨w, hw, hact⟩ := hact
  obtain ⟨hfield, hothers, hform⟩ := settingPut_frame (f := motionPends cfg m) (n := m.t) hlen hb hw
  have hstage : (headChanged k m.t (modHead k (motionPends cfg m) w)).power.bootStage < 3 := by
    have hwb : (modHead k (motionPends cfg m) w).power.bootStage = b.power.bootStage :=
      (within_trans hw within_modHead).power_field (by decide) (f := Power.bootStage) fun _ => rfl
    rw [headChanged_bootStage, hwb, hb.power_field (by decide) (f := Power.bootStage) fun _ => rfl]
    exact hboot
  refine ⟨_, (exec_motionCfg_accepted hrun).trans (congrArg Host.Outcome.next ?_), hfield (fun h => h.motion) fun _ _ => rfl, hothers, hform⟩
  exact (congrArg _ hact).trans (bootShed_idle hstage)

/-! ### RECIPE_LOAD -/

/-- A Recipe that waits at its head. -/
def recipePends (r : Recipe) (d : Desc) (h : Head) : Head := { h with press := { h.press with pending := some (r, d) } }

theorem admitRecipe_plain {c : HeadCfg} {r : Recipe} (hmotion : (headOf s k).motion.counted = none)
    (hroom : shortageMany s [(.recipe k, recipeUnits s k c r (reducedNow s))] = none) : admitRecipe d k c r s =
      headChanged k d.t (modHead k (recipePends { r with red := reducedNow s } d) (putItem (.recipe k) d (recipeUnits s k c r (reducedNow s)) s)) := by
  unfold admitRecipe
  dsimp only
  rw [hmotion]
  simp only [Option.toList_none, List.map_nil]
  rw [hroom]
  rfl

theorem checkRecipe_plain {c : HeadCfg} (hcfg : (headOf s (d.p8 24)).pipe.cfg = some c) {r : Recipe}
    (hr : r = parseRecipe x (d.p16 26) [d.p16 28, d.p16 30] c.scan)
    (hvalid : (if c.scan = true then scanRecipeBad s (d.p8 24) c x d.length r else planeRecipeBad s (d.p8 24) c x d.length r) = none)
    (hstores : ∀ h ∈ [d.p16 28, d.p16 30], r.storeSize c ≤ (exhRange s h).2) : checkRecipe d x s = admitRecipe d (d.p8 24) c r s := by
  have hsmall : ∀ h ∈ [d.p16 28, d.p16 30], decide ((exhRange s h).2 < r.storeSize c) = false := fun h hh => decide_eq_false (Nat.not_lt.2 (hstores h hh))
  have hbad : badField [(decide ((exhRange s (d.p16 28)).2 < r.storeSize c), 28), (decide ((exhRange s (d.p16 30)).2 < r.storeSize c), 30)] = none := by
    rw [hsmall _ List.mem_cons_self, hsmall _ (List.mem_cons_of_mem _ List.mem_cons_self)]
    rfl
  unfold checkRecipe
  dsimp only
  rw [hcfg]
  dsimp only
  rw [← hr, hvalid]
  dsimp only
  rw [hbad]

theorem exec_recipeLoad_accepted {buf : HostBuf} (h : Runs (.recipeLoad dt d buf) s) :
    exec (.recipeLoad dt d buf) s = .next (recipeAct buf d (begun d d (tick dt s))) := congrArg Host.Outcome.next (runDesc_accepted h)

theorem bufOf_own {buf : HostBuf} (h : d.fwd = none) : bufOf d buf s = buf := by
  unfold bufOf
  dsimp only
  rw [h]
  rfl

theorem recipeAct_checks (hfwd : d.fwd = none) (hpend : (headOf s (d.p8 24)).press.pending = none) :
    recipeAct (.data x) d s = checkRecipe d (padTo (max 160 d.length) (x.take d.length)) s := by
  unfold recipeAct
  rw [hpend, bufOf_own hfwd]

theorem recipeLoad_clause {c : HeadCfg} (hfwd : d.fwd = none) (hcfg : (headOf s (d.p8 24)).pipe.cfg = some c) :
    let b := begun d d (tick dt s); let k := d.p8 24; let bs := padTo (max 160 d.length) (x.take d.length)
    let r := parseRecipe bs (d.p16 26) [d.p16 28, d.p16 30] c.scan
    Runs (.recipeLoad dt d (.data x)) s → (headOf s k).press.pending = none →
    (if c.scan = true then scanRecipeBad b k c bs d.length r else planeRecipeBad b k c bs d.length r) = none →
    (∀ h ∈ [d.p16 28, d.p16 30], r.storeSize c ≤ (exhRange s h).2) → (headOf s k).motion.counted = none →
    shortageMany b [(.recipe k, recipeUnits b k c r (reducedNow s))] = none → ∃ t, exec (.recipeLoad dt d (.data x)) s = .next t ∧
      (headOf t k).press = { (headOf s k).press with pending := some ({ r with red := reducedNow s }, d) } ∧ (∀ j, j ≠ k → headOf t j = headOf s j) ∧
      ((s.power.state = .p2 → s.hbm.host = []) → t = { b with
        heads := t.heads, adm := { s.adm with items := t.adm.items }
        power := { s.power with state := t.power.state }, hbm := { s.hbm with selfRef := t.hbm.selfRef } }) := by
  intro b k bs r hrun hpend hvalid hstores hmotion hroom
  have hb : Within (clockParts ++ replyParts) s b := within_tick_begun
  have hhead : headOf b k = headOf s k := begun_headOf
  have hlen : k < b.heads.length := by
    rw [begun_heads_length]
    exact lt_of_cfg hcfg
  have hred : reducedNow b = reducedNow s := begun_apply reducedNow rfl
  have hrange : ∀ h, exhRange b h = exhRange s h := fun h => begun_apply (exhRange · h) rfl
  have hact := (recipeAct_checks (x := x) (s := b) hfwd (by rw [hhead]; exact hpend)).trans
    ((checkRecipe_plain (r := r) (by rw [hhead]; exact hcfg) rfl hvalid fun h hh => by rw [hrange]; exact hstores h hh).trans
      (admitRecipe_plain (by rw [hhead]; exact hmotion) (by rw [hred]; exact hroom)))
  rw [hred] at hact
  obtain ⟨hfield, hothers, hform⟩ := settingPut_frame (f := recipePends { r with red := reducedNow s } d) (n := d.t) hlen hb
    (within_putItem (kind := .recipe k) (d := d) (units := recipeUnits b k c r (reducedNow s)))
  exact ⟨_, (exec_recipeLoad_accepted hrun).trans (congrArg Host.Outcome.next hact), hfield (fun h => h.press) fun _ _ => rfl, hothers, hform⟩


/-! ### The solver's settings: SOLVER_CFG, CAL_LOAD and CAL_CORRECT -/

theorem begun_solverBusy {e : Desc} : solverBusy (begun d e (tick dt s)) k = solverBusy s k := begun_apply (solverBusy · k) rfl

theorem begun_changeFrame {e : Desc} : changeFrame (begun d e (tick dt s)) k n = changeFrame s k n := begun_apply (changeFrame · k n) rfl

theorem pendSolver_begun {e : Desc} {c : SolverChange} : pendSolver k e c (begun d e (tick dt s)) =
    modSolver k (fun v => { v with pending := some (c, e, changeFrame s k e.t) }) (begun d e (tick dt s)) := by
  unfold pendSolver
  rw [begun_changeFrame]

theorem exec_solverCfg_accepted (h : Runs (.solverCfg dt d) s) :
    exec (.solverCfg dt d) s = .next (solverAct d.trunc (begun d d.trunc (tick dt s))) := congrArg Host.Outcome.next (runDesc_accepted h)

theorem solverAct_pends (hvalid : solverInvalid s d = none) (hfree : solverBusy s (d.p8 16) = none) : solverAct d s =
    pendSolver (d.p8 16) d (.cfg ⟨decide (d.p8 17 = 1), d.p8 18, bitOf (d.p8 19) 0, d.p32 20, d.p32 24, d.p16 28, d.p8 30, d.p8 31⟩) s := by
  unfold solverAct
  dsimp only
  rw [hvalid, hfree]
  rfl

theorem exec_calLoad_accepted {buf : HostBuf} (h : Runs (.calLoad dt d buf) s) :
    exec (.calLoad dt d buf) s = .next (calAct buf d (begun d d (tick dt s))) := congrArg Host.Outcome.next (runDesc_accepted h)

theorem entries_owned {l : List CalEntry} (h : ∀ e ∈ l, chanOwner s e.chan = some k) :
    (l.zipIdx.find? fun e => chanOwner s e.1.chan != some k) = none := by
  rw [List.find?_eq_none]
  intro e he
  simp [h e.1 (List.fst_mem_of_mem_zipIdx he)]

theorem calAct_pends (hfwd : d.fwd = none) (hvalid : calInvalid (padTo (max 128 d.length) (x.take d.length)) d.length = none)
    (howned : ∀ e ∈ (calOf (padTo (max 128 d.length) (x.take d.length))).entries, chanOwner s e.chan = some (d.p8 24))
    (hfree : solverBusy s (d.p8 24) = none) : calAct (.data x) d s =
    pendSolver (d.p8 24) d (.cal (calOf (padTo (max 128 d.length) (x.take d.length)))) s := by
  unfold calAct
  rw [bufOf_own hfwd]
  dsimp only
  rw [hvalid]
  dsimp only
  rw [entries_owned howned, hfree]


theorem exec_calCorrect_accepted {lost : List Nat} (h : Runs (.calCorrect dt ⟨d, lost⟩) s) :
    exec (.calCorrect dt ⟨d, lost⟩) s = .next (correctAct lost d.trunc (begun d d.trunc (tick dt s))) :=
  congrArg Host.Outcome.next (runDesc_accepted h)


/-- The light a correction brings. -/
def correctLight (d : Desc) : Vec3 := ((d.p32 24 : Rat) / 65536, (d.p32 28 : Rat) / 65536, (d.p32 32 : Rat) / 65536)

/-- The frames whose estimates a correction is measured against, as far as they are held. -/
def correctHeld (d : Desc) (s : State) : List (Option Estimate) :=
  ((List.range (d.p16 18)).map fun i => (d.p32 20 + i) % 2 ^ 32).map fun n => (headOf s (d.p8 16)).solver.history.find? fun e => e.frame = n

/-- A factor and two moves judged by the bounds of Table 15.7. -/
def judgeCorrection (d : Desc) (f dx dy : Rat) (s : State) : State :=
  if f < 1 / 2 ∨ 2 < f ∨ 1 / 50 < rabs dx ∨ 1 / 50 < rabs dy then
    complete d 0xF83 (correctDetail (f * 4294967296).floor (roundAway (dx * 50000)) (roundAway (dy * 50000))) s
  else pendSolver (d.p8 16) d (.correct (d.p8 17) (f * 4294967296).floor (roundAway (dx * 50000)) (roundAway (dy * 50000))) s

/-- What a correction does with the estimate and the light it compares. -/
def compareLight (d : Desc) (est meas : Vec3) (s : State) : State :=
  judgeCorrection d (rquot meas.2.1 est.2.1)
    (rquot meas.1 (meas.1 + meas.2.1 + meas.2.2) - rquot est.1 (est.1 + est.2.1 + est.2.2))
    (rquot meas.2.1 (meas.1 + meas.2.1 + meas.2.2) - rquot est.2.1 (est.1 + est.2.1 + est.2.2)) s

/-- A correction of a solver that is free. -/
def correctFree (lost : List Nat) (d : Desc) (s : State) : State :=
  if (correctHeld d s).any Option.isNone || !lost.isEmpty then
    complete d 0xF82 (u32 ((headOf s (d.p8 16)).solver.history.getLast?.elim top32 (·.frame))) (countBad (0x10 + d.p8 16) lost s)
  else compareLight d (meanEst (((correctHeld d s).filterMap id).map fun x => if d.p8 17 = 255 then x.white else x.phi.getD (d.p8 17) []))
    (correctLight d) s

theorem correctAct_eq {lost : List Nat} : correctAct lost d s = (match solverBusy s (d.p8 16) with
    | some tag => complete d 0xF84 (u32 tag) s
    | none => correctFree lost d s) := rfl

theorem correctAct_free {lost : List Nat} (hfree : solverBusy s (d.p8 16) = none) : correctAct lost d s = correctFree lost d s := by
  rw [correctAct_eq, hfree]

theorem correctFree_lost {lost : List Nat} (hlost : lost ≠ []) : correctFree lost d s =
    complete d 0xF82 (u32 ((headOf s (d.p8 16)).solver.history.getLast?.elim 0xFFFFFFFF (·.frame))) (countBad (0x10 + d.p8 16) lost s) := by
  have hsome : (!lost.isEmpty) = true := by simpa using hlost
  exact if_pos (by rw [hsome, Bool.or_true])

theorem p32_mod (o : Nat) : d.p32 o % 2 ^ 32 = d.p32 o := by
  have hlt : d.p32 o < 256 ^ 4 := fieldOf_lt d.bytes o 4
  exact Nat.mod_eq_of_lt (lt_of_lt_of_eq hlt (by norm_num))

theorem correctHeld_one {e : Estimate} (hone : d.p16 18 = 1)
    (hheld : ((headOf s (d.p8 16)).solver.history.find? fun e => e.frame = d.p32 20) = some e) : correctHeld d s = [some e] := by
  have hframes : ((List.range (d.p16 18)).map fun i => (d.p32 20 + i) % 2 ^ 32) = [d.p32 20] := by
    rw [hone, List.range_one, List.map_singleton, Nat.add_zero, p32_mod]
  unfold correctHeld
  rw [hframes, List.map_singleton, hheld]

theorem correctFree_one {e : Estimate} (hheld : correctHeld d s = [some e]) : correctFree [] d s =
    compareLight d (meanEst [if d.p8 17 = 255 then e.white else e.phi.getD (d.p8 17) []]) (correctLight d) s := by
  unfold correctFree
  rw [hheld]
  rfl

theorem rquot_ne {a b : Rat} (h : b ≠ 0) : rquot a b = a / b := if_neg h

theorem judgeCorrection_fits {f dx dy : Rat} (hlow : 1 / 2 ≤ f) (hhigh : f ≤ 2) (hdx : rabs dx ≤ 1 / 50) (hdy : rabs dy ≤ 1 / 50) :
    judgeCorrection d f dx dy s =
      pendSolver (d.p8 16) d (.correct (d.p8 17) (f * 4294967296).floor (roundAway (dx * 50000)) (roundAway (dy * 50000))) s := by
  refine if_neg ?_
  rintro (h | h | h | h)
  · exact absurd hlow (not_le.2 h)
  · exact absurd hhigh (not_le.2 h)
  · exact absurd hdx (not_le.2 h)
  · exact absurd hdy (not_le.2 h)


theorem solverCfg_clause (hrun : Runs (.solverCfg dt d) s) :
    let m := d.trunc; let k := d.trunc.p8 16; solverInvalid s m = none → solverBusy s k = none →
      exec (.solverCfg dt d) s = .next (modSolver k (fun v => { v with pending := some (.cfg ⟨decide (m.p8 17 = 1), m.p8 18,
        bitOf (m.p8 19) 0, m.p32 20, m.p32 24, m.p16 28, m.p8 30, m.p8 31⟩, m, changeFrame s k m.t) }) (begun d m (tick dt s))) := by
  intro m k hvalid hfree
  have hinv : solverInvalid (begun d m (tick dt s)) m = solverInvalid s m := begun_apply (solverInvalid · m) rfl
  rw [exec_solverCfg_accepted hrun, solverAct_pends (hinv.trans hvalid) (begun_solverBusy.trans hfree), pendSolver_begun]

theorem calLoad_clause (hfwd : d.fwd = none) (hrun : Runs (.calLoad dt d (.data x)) s) :
    let k := d.p8 24; let bs := padTo (max 128 d.length) (x.take d.length); calInvalid bs d.length = none →
      (∀ e ∈ (calOf bs).entries, chanOwner s e.chan = some k) → solverBusy s k = none →
      exec (.calLoad dt d (.data x)) s = .next (modSolver k (fun v => { v with
        pending := some (.cal (calOf bs), d, changeFrame s k d.t) }) (begun d d (tick dt s))) := by
  intro k bs hvalid howned hfree
  have howner : ∀ c, chanOwner (begun d d (tick dt s)) c = chanOwner s c := fun c => begun_apply (chanOwner · c) rfl
  have hact := calAct_pends (s := begun d d (tick dt s)) hfwd hvalid (fun e he => (howner e.chan).trans (howned e he)) (begun_solverBusy.trans hfree)
  rw [exec_calLoad_accepted hrun, hact, pendSolver_begun]

theorem calCorrect_lost_clause {lost : List Nat} (hrun : Runs (.calCorrect dt ⟨d, lost⟩) s) (hlost : lost ≠ []) :
    let m := d.trunc; let k := d.trunc.p8 16; solverBusy s k = none → exec (.calCorrect dt ⟨d, lost⟩) s = .next (complete m 0xF82
      (u32 ((headOf s k).solver.history.getLast?.elim 0xFFFFFFFF (·.frame))) (countBad (0x10 + k) lost (begun d m (tick dt s)))) := by
  intro m k hfree
  rw [exec_calCorrect_accepted hrun, correctAct_free (begun_solverBusy.trans hfree), correctFree_lost hlost, begun_headOf]

theorem calCorrect_clause {e : Estimate} (hrun : Runs (.calCorrect dt ⟨d, []⟩) s) (hone : d.trunc.p16 18 = 1) :
    let m := d.trunc; let k := d.trunc.p8 16
    ((headOf s k).solver.history.find? fun e => e.frame = m.p32 20) = some e → solverBusy s k = none →
    let est := meanEst [if m.p8 17 = 255 then e.white else e.phi.getD (m.p8 17) []]
    let meas : Vec3 := ((m.p32 24 : Rat) / 65536, (m.p32 28 : Rat) / 65536, (m.p32 32 : Rat) / 65536)
    let tot := fun v : Vec3 => v.1 + v.2.1 + v.2.2
    let f := meas.2.1 / est.2.1
    let dx := meas.1 / tot meas - est.1 / tot est
    let dy := meas.2.1 / tot meas - est.2.1 / tot est
    est.2.1 ≠ 0 → tot est ≠ 0 → tot meas ≠ 0 → 1 / 2 ≤ f → f ≤ 2 → rabs dx ≤ 1 / 50 → rabs dy ≤ 1 / 50 →
    exec (.calCorrect dt ⟨d, []⟩) s = .next (modSolver k (fun v => { v with pending := some (.correct (m.p8 17)
      (f * 4294967296).floor (roundAway (dx * 50000)) (roundAway (dy * 50000)), m, changeFrame s k m.t) })
      (begun d m (tick dt s))) := by
  intro m k hheld hfree est meas tot f dx dy hlum hest hmeas hlow hhigh hdx hdy
  have hhead : headOf (begun d m (tick dt s)) k = headOf s k := begun_headOf
  have hone' : correctHeld m (begun d m (tick dt s)) = [some e] := correctHeld_one hone (by rw [hhead]; exact hheld)
  have hcompare : compareLight m est meas (begun d m (tick dt s)) = judgeCorrection m f dx dy (begun d m (tick dt s)) := by
    unfold compareLight
    rw [rquot_ne hlum, rquot_ne hmeas, rquot_ne hest, rquot_ne hmeas, rquot_ne hest]
  rw [exec_calCorrect_accepted hrun, correctAct_free (begun_solverBusy.trans hfree), correctFree_one hone']
  exact congrArg Host.Outcome.next (hcompare.trans ((judgeCorrection_fits hlow hhigh hdx hdy).trans pendSolver_begun))

/-! ### Loads of a head's buffers -/

theorem startLoad_begun {op : Nat} (hop : op ≠ 0x0503 ∧ op ≠ 0x0504) : startLoad d op k (begun d d (tick dt s)) =
    { begun d d (tick dt s) with adm := { s.adm with transfers := s.adm.transfers ++ [⟨d, op, k, false, none, [], false, none, 0, 0⟩] } } := by
  have hplace : ¬(op = 0x0503 ∨ op = 0x0504) := fun h => h.elim hop.1 hop.2
  unfold startLoad startXfer
  rw [if_neg hplace, begun_adm]

theorem exec_ditherLoad_accepted (h : Runs (.ditherLoad dt d) s) : exec (.ditherLoad dt d) s =
    .next (headChanged (d.p8 24) d.t (startLoad d 0x0902 (d.p8 24) (begun d d (tick dt s)))) := congrArg Host.Outcome.next (runDesc_accepted h)

theorem headChanged_transfers : (headChanged k n s).adm.transfers = s.adm.transfers := within_headChanged_served .transfers (by decide)

theorem startLoad_changed_off {op : Nat} (hop : op ≠ 0x0503 ∧ op ≠ 0x0504) (hoff : (headOf s k).cave.state = .off) :
    headChanged k d.t (startLoad d op k (begun d d (tick dt s))) = modCave k (fun v => { v with latest := max v.latest d.t })
      { begun d d (tick dt s) with adm := { s.adm with transfers := s.adm.transfers ++ [⟨d, op, k, false, none, [], false, none, 0, 0⟩] } } := by
  have hhead : headOf (begun d d (tick dt s)) k = headOf s k := begun_headOf
  rw [startLoad_begun hop]
  generalize begun d d (tick dt s) = b at hhead
  exact headChanged_off ((congrArg (fun h : Head => h.cave.state) hhead).trans hoff)

theorem exec_scanProfileLoad_accepted (h : Runs (.scanProfileLoad dt d) s) :
    exec (.scanProfileLoad dt d) s = .next (startLoad d 0x0C02 (d.p8 24) (begun d d (tick dt s))) := congrArg Host.Outcome.next (runDesc_accepted h)

theorem exec_vectorLoad_accepted (h : Runs (.vectorLoad dt d) s) :
    exec (.vectorLoad dt d) s = .next (vectorAct d (begun d d (tick dt s))) := congrArg Host.Outcome.next (runDesc_accepted h)

/-- A whole field for a frame whose field exhibit is no longer read. -/
theorem vectorAct_whole {c : HeadCfg} {m : MotionCfg} (hcfg : (headOf s (d.p8 24)).pipe.cfg = some c)
    (hmotion : (headOf s (d.p8 24)).motion.cfg = some m) (hwhole : d.length = fieldBytes c)
    (hread : d.p32 28 < 3 ∨ prdOf s (d.p8 24) (d.p32 28 - 3) ≤ s.now) : vectorAct d s =
      if pseOf s (d.p8 24) (d.p32 28) ≤ s.now then complete d 0xC80 (u32 (d.p32 28) ++ u32 (pseOf s (d.p8 24) (d.p32 28))) s
      else if anyFrozen s (exhRange s (fieldExh m (d.p32 28))).1 d.length = true then complete d 0x41 [] s
      else headChanged (d.p8 24) d.t (startLoad d 0x0A02 (d.p8 24) s) := by
  have hgone : ¬(3 ≤ d.p32 28 ∧ s.now < prdOf s (d.p8 24) (d.p32 28 - 3)) := by omega
  unfold vectorAct
  dsimp only
  rw [hcfg, hmotion]
  dsimp only
  rw [if_neg (by omega), if_neg hgone]


theorem ditherLoad_clause (hrun : Runs (.ditherLoad dt d) s) : let k := d.p8 24; let b := begun d d (tick dt s)
    (∃ t, exec (.ditherLoad dt d) s = .next t ∧ t.adm.transfers = s.adm.transfers ++
      [⟨d, 0x0902, k, false, none, [], false, none, 0, 0⟩]) ∧
    ((headOf s k).cave.state = .off → exec (.ditherLoad dt d) s = .next (modCave k (fun v => { v with
      latest := max v.latest d.t }) { b with adm := { s.adm with
        transfers := s.adm.transfers ++ [⟨d, 0x0902, k, false, none, [], false, none, 0, 0⟩] } })) := by
  refine ⟨⟨_, exec_ditherLoad_accepted hrun, ?_⟩, fun hoff => ?_⟩
  · rw [headChanged_transfers, startLoad_begun (by decide)]
  · rw [exec_ditherLoad_accepted hrun, startLoad_changed_off (by decide) hoff]

theorem vectorLoad_clause {c : HeadCfg} {m : MotionCfg} (hrun : Runs (.vectorLoad dt d) s) :
    let k := d.p8 24; let b := begun d d (tick dt s); (headOf s k).pipe.cfg = some c → (headOf s k).motion.cfg = some m →
    d.length = fieldBytes c → (d.p32 28 < 3 ∨ prdOf s k (d.p32 28 - 3) ≤ (tick dt s).now) →
    (pseOf s k (d.p32 28) ≤ (tick dt s).now →
      exec (.vectorLoad dt d) s = .next (complete d 0xC80 (u32 (d.p32 28) ++ u32 (pseOf s k (d.p32 28))) b)) ∧
    ((tick dt s).now < pseOf s k (d.p32 28) → anyFrozen s (exhRange s (fieldExh m (d.p32 28))).1 d.length = false →
      (headOf s k).cave.state = .off → exec (.vectorLoad dt d) s = .next (modCave k (fun v => { v with
        latest := max v.latest d.t }) { b with adm := { s.adm with
          transfers := s.adm.transfers ++ [⟨d, 0x0A02, k, false, none, [], false, none, 0, 0⟩] } })) := by
  intro k b hcfg hmotion hwhole hread
  have hhead : headOf b k = headOf s k := begun_headOf
  have hnow : b.now = (tick dt s).now := begun_now
  have hprd : prdOf b k (d.p32 28 - 3) = prdOf s k (d.p32 28 - 3) := begun_apply (prdOf · k _) rfl
  have hpse : pseOf b k (d.p32 28) = pseOf s k (d.p32 28) := begun_apply (pseOf · k _) rfl
  have hrange : exhRange b (fieldExh m (d.p32 28)) = exhRange s (fieldExh m (d.p32 28)) := begun_apply (exhRange · _) rfl
  have hact := vectorAct_whole (s := b) (d := d) (by rw [hhead]; exact hcfg) (by rw [hhead]; exact hmotion) hwhole (by rw [hprd, hnow]; exact hread)
  rw [hpse, hnow, hrange, begun_anyFrozen] at hact
  rw [exec_vectorLoad_accepted hrun]
  refine ⟨fun hlate => congrArg Host.Outcome.next (hact.trans (if_pos hlate)), fun hearly hclear hoff => congrArg Host.Outcome.next ?_⟩
  rw [if_neg (Nat.not_le.2 hearly), if_neg (by rw [hclear]; exact Bool.false_ne_true)] at hact
  exact hact.trans (startLoad_changed_off (by decide) hoff)

/-! ### The obligation -/

/-- Settles O38: a setting is put at its head as the pending one, and the loads begin as transfers of their own object. -/
theorem settingsAndBuffersWaitForTheirFrame : Obligations.SettingsAndBuffersWaitForTheirFrame := by
  unfold Obligations.SettingsAndBuffersWaitForTheirFrame
  refine ⟨fun dt d x s hfwd => ⟨fun c hcfg => recipeLoad_clause hfwd hcfg, fun c hcfg hrun => motionCfg_clause hcfg hrun, fun hrun => solverCfg_clause hrun,
    fun hrun => calLoad_clause hfwd hrun, fun e hrun hone => calCorrect_clause hrun hone, fun lost hrun hlost => calCorrect_lost_clause hrun hlost⟩,
    fun dt d s => ⟨fun hrun => ditherLoad_clause hrun, fun hrun => ?_, fun c m hrun => vectorLoad_clause hrun⟩⟩
  rw [exec_scanProfileLoad_accepted hrun, startLoad_begun (by decide)]

end Sys2Proof.Machine
end

section
/-!
PROOFS. Group commits (chapter 9, R225 and R226): the commit of a single member, READY, GO, the decision and its end.
-/

namespace Sys2Proof.Machine
variable {s t u b : State} {dt k j n gid : Nat} {d : Desc}

/-! ### A walk over heads -/

/-- A head that no step of a walk reaches stays as it was. -/
theorem forEach_headOf_notMem {l : List Nat} {f : Nat → State → State} (hf : ∀ k u j, j ≠ k → headOf (f k u) j = headOf u j)
    (hj : j ∉ l) : headOf (forEach l f s) j = headOf s j := by
  induction l generalizing s with
  | nil => rfl
  | cons a l ih =>
    obtain ⟨ha, hl⟩ := not_or.1 (List.mem_cons.not.1 hj)
    exact (ih hl).trans (hf a s j ha)

/-- What no step of a walk changes of a head stays. -/
theorem forEach_headOf_field {α : Type} {g : Head → α} {l : List Nat} {f : Nat → State → State}
    (hf : ∀ k u, g (headOf (f k u) j) = g (headOf u j)) : g (headOf (forEach l f s) j) = g (headOf s j) := by
  induction l generalizing s with
  | nil => rfl
  | cons a l ih => exact ih.trans (hf a s)

theorem forEach_heads_length {l : List Nat} {f : Nat → State → State} (hf : ∀ k u, (f k u).heads.length = u.heads.length) :
    (forEach l f s).heads.length = s.heads.length := by
  induction l generalizing s with
  | nil => rfl
  | cons a l ih => exact ih.trans (hf a s)

/-- A walk reaches each of its heads once, from a state that has that head as it was. -/
theorem forEach_headOf_mem {l : List Nat} {f : Nat → State → State} (hf : ∀ k u j, j ≠ k → headOf (f k u) j = headOf u j)
    (hlen : ∀ k u, (f k u).heads.length = u.heads.length) (hnodup : l.Nodup) (hk : k ∈ l) :
    ∃ u : State, u.heads.length = s.heads.length ∧ headOf u k = headOf s k ∧ headOf (forEach l f s) k = headOf (f k u) k := by
  induction l generalizing s with
  | nil => cases hk
  | cons a l ih =>
    obtain ⟨ha, hnodup⟩ := List.nodup_cons.1 hnodup
    rcases List.mem_cons.1 hk with rfl | hk
    · exact ⟨s, rfl, rfl, forEach_headOf_notMem hf ha⟩
    · obtain ⟨u, hu, hhead, hwalk⟩ := ih hnodup hk (s := f a s)
      exact ⟨u, hu.trans (hlen a s), hhead.trans (hf a s k fun h => ha (h ▸ hk)), hwalk⟩

/-! ### GROUP_COMMIT -/

/-- The latest of the frames that a commit calls for at each of its heads. -/
def groupFrame (heads : List Nat) (t v : Nat) (s : State) : Nat := heads.foldl (fun m k => max m (targetOf (headOf s k).pipe t v)) 0

/-- The frame at which a group commit can apply on every head. -/
def groupApply (heads : List Nat) (d : Desc) (s : State) : Nat :=
  heads.foldl (fun m k => max m (applyFrame (headOf s k) d.t (groupFrame heads d.t (d.p32 24) s))) (groupFrame heads d.t (d.p32 24) s)

/-- The group that a commit forms. -/
def groupFormed (heads : List Nat) (d : Desc) (T e : Nat) (s : State) : GroupC :=
  { gid := d.p16 16, desc := some d, heads := heads, members := d.p16 20, leader := d.p16 22, target := T,
    go := if d.p16 20 = 1 then some e else none,
    ready := ((s.groups.find? fun g => g.gid = d.p16 16 ∧ g.desc = none).map (·.ready)).getD [], deferred := 0, decim := 0, disabled := 0 }

/-- A commit's group in place of the one that only a READY had begun. -/
def groupKept (heads : List Nat) (d : Desc) (T e : Nat) (s : State) : State :=
  { s with groups := (s.groups.filter fun g => !(g.gid = d.p16 16 ∧ g.desc = none)) ++ [groupFormed heads d T e s] }

/-- The shadows of a commit's heads sealed for one frame. -/
def groupSealed (heads : List Nat) (d : Desc) (T e : Nat) (s : State) : State :=
  let frame := groupFrame heads d.db (d.p32 24) s
  forEach heads (fun k => sealShadow k (if d.p16 20 = 1 then e else T) frame d (some (d.p16 16))) s

/-- What a commit tells once its heads are sealed. -/
def groupTold (d : Desc) (e : Nat) (s : State) : State :=
  if d.p16 20 = 1 then s
  else if d.p16 22 = catDevice s then hearReady (d.p16 16) (catDevice s) e s
  else catSend 0x0F 0 (d.p16 22) 0 (groupPacket (d.p16 16) 0 e (d.p16 20)) s

/-- A commit whose heads have heard of the change. -/
def groupSeals (heads : List Nat) (d : Desc) (s : State) : State :=
  match heads.find? fun k => sealBusy s k (groupApply heads d s) with
  | some k => complete d 0x983 (busyDetail s k) s
  | none => groupTold d (groupApply heads d s) (groupKept heads d (groupFrame heads d.t (d.p32 24) s) (groupApply heads d s)
      (groupSealed heads d (groupFrame heads d.t (d.p32 24) s) (groupApply heads d s) s))

theorem groupCommitAct_eq : groupCommitAct d s = (match groupRefused s (bitsOf (d.p8 18) 8) (d.p16 20) with
    | some r => complete d r.1 (u8 r.2) s
    | none => groupSeals (bitsOf (d.p8 18) 8) d (forEach (bitsOf (d.p8 18) 8) (fun k => headChanged k d.t) s)) := by
  unfold groupCommitAct
  dsimp only
  cases groupRefused s (bitsOf (d.p8 18) 8) (d.p16 20) <;> rfl


theorem groupCommitAct_refused {r : Nat × Nat} (h : groupRefused s (bitsOf (d.p8 18) 8) (d.p16 20) = some r) :
    groupCommitAct d s = complete d r.1 (u8 r.2) s := by
  rw [groupCommitAct_eq, h]

theorem sealBusy_nothing {T : Nat} (h : (headOf s k).pipe.sealed_ = []) : sealBusy s k T = false := by
  unfold sealBusy
  rw [h]
  rfl

theorem groupSeals_single {heads : List Nat} (hone : d.p16 20 = 1) (hempty : ∀ k ∈ heads, (headOf s k).pipe.sealed_ = []) :
    groupSeals heads d s = groupKept heads d (groupFrame heads d.t (d.p32 24) s) (groupApply heads d s)
      (groupSealed heads d (groupFrame heads d.t (d.p32 24) s) (groupApply heads d s) s) := by
  have hfree : (heads.find? fun k => sealBusy s k (groupApply heads d s)) = none :=
    List.find?_eq_none.2 fun k hk => by rw [sealBusy_nothing (hempty k hk)]; exact Bool.false_ne_true
  unfold groupSeals
  rw [hfree]
  exact if_pos hone

theorem within_sealShadow {T f : Nat} {g : Option Nat} : Within [.heads, .transfers] s (sealShadow k T f d g s) :=
  within_of_eq rfl (by decide)

theorem headOf_sealShadow_ne {T f : Nat} {g : Option Nat} (hj : j ≠ k) : headOf (sealShadow k T f d g s) j = headOf s j :=
  headOf_modHead_ne hj

theorem sealShadow_heads_length {T f : Nat} {g : Option Nat} : (sealShadow k T f d g s).heads.length = s.heads.length :=
  List.length_modify ..

/-- A head with nothing sealed seals of its open shadow what the commit takes. -/
theorem headOf_sealShadow_first {T f : Nat} {g : Option Nat} (hk : k < s.heads.length) (hempty : (headOf s k).pipe.sealed_ = []) :
    (headOf (sealShadow k T f d g s) k).pipe = { (headOf s k).pipe with
      openSh := (headOf s k).pipe.openSh.filter fun w => !sealsWrite d w
      sealed_ := [⟨T, shadowOf ((headOf s k).pipe.openSh.filter (sealsWrite d)), [⟨d, f, decide (T < T), g⟩]⟩] } := by
  unfold sealShadow
  dsimp only
  rw [hempty]
  exact congrArg Head.pipe (headOf_modHead_same hk)


theorem exec_groupCommit_accepted (h : Runs (.groupCommit dt d) s) :
    exec (.groupCommit dt d) s = .next (groupCommitAct d.trunc (begun d d.trunc (tick dt s))) := congrArg Host.Outcome.next (runDesc_accepted h)

theorem badField_false {l : List (Bool × Nat)} (h : badField l = none) : ∀ x ∈ l, x.1 = false := fun x hx =>
  Bool.eq_false_iff.2 (List.find?_eq_none.1 (Option.map_eq_none_iff.1 h) x hx)

theorem groupBad_configured (h : groupBad d s = none) : ∀ k ∈ bitsOf (d.p8 18) 8, configured s k = true := by
  intro k hk
  have hflag := badField_false h (decide (d.p8 18 = 0) || (bitsOf (d.p8 18) 8).any fun k => !configured s k, 18) List.mem_cons_self
  have hany : ((bitsOf (d.p8 18) 8).any fun k => !configured s k) = false := (Bool.or_eq_false_iff.1 hflag).2
  simpa using List.any_eq_false.1 hany k hk

/-- The heads of a group commit once they have heard of the change. -/
def groupHeard (d : Desc) (s : State) : State := forEach (bitsOf (d.p8 18) 8) (fun k => headChanged k d.t) s

theorem groupHeard_pipe : (headOf (groupHeard d s) k).pipe = (headOf s k).pipe :=
  forEach_headOf_field (g := fun h : Head => h.pipe) fun _ _ => headOf_headChanged_field (g := fun h : Head => h.pipe) fun _ _ => rfl

theorem groupHeard_ne (hk : k ∉ bitsOf (d.p8 18) 8) : headOf (groupHeard d s) k = headOf s k :=
  forEach_headOf_notMem (fun _ _ _ hj => headOf_headChanged_ne hj) hk

theorem groupHeard_heads_length : (groupHeard d s).heads.length = s.heads.length := forEach_heads_length fun _ _ => headChanged_heads_length

theorem within_groupHeard : Within ([.heads, .pstate, .selfRef, .hbm] ++ readParts) s (groupHeard d s) :=
  within_forEach fun _ _ => within_headChanged_served

theorem within_groupSealed {heads : List Nat} {T e : Nat} : Within [.heads, .transfers] s (groupSealed heads d T e s) :=
  within_forEach fun _ _ => within_sealShadow

theorem groupSealed_ne {heads : List Nat} {T e : Nat} (hk : k ∉ heads) : headOf (groupSealed heads d T e s) k = headOf s k :=
  forEach_headOf_notMem (fun _ _ _ hj => headOf_sealShadow_ne hj) hk

/-- Each head of a group commit that had nothing sealed seals what the commit takes of its open shadow. -/
theorem groupSealed_first {heads : List Nat} {T e : Nat} (hnodup : heads.Nodup) (hk : k ∈ heads) (hlen : k < s.heads.length)
    (hempty : (headOf s k).pipe.sealed_ = []) : let p := (headOf (groupSealed heads d T e s) k).pipe
    p.openSh = ((headOf s k).pipe.openSh.filter fun w => !sealsWrite d w) ∧
      ∃ y, p.sealed_ = [y] ∧ y.shadow = shadowOf ((headOf s k).pipe.openSh.filter (sealsWrite d)) ∧ y.commits.map (·.desc) = [d] := by
  intro p
  obtain ⟨u, hu, hhead, hwalk⟩ := forEach_headOf_mem (s := s) (l := heads)
    (f := fun k => sealShadow k (if d.p16 20 = 1 then e else T) (groupFrame heads d.db (d.p32 24) s) d (some (d.p16 16)))
    (fun _ _ _ hj => headOf_sealShadow_ne hj) (fun _ _ => sealShadow_heads_length) hnodup hk
  have hsealed := headOf_sealShadow_first (s := u) (d := d) (T := if d.p16 20 = 1 then e else T)
    (f := groupFrame heads d.db (d.p32 24) s) (g := some (d.p16 16)) (hu ▸ hlen) (by rw [hhead]; exact hempty)
  have hp : p = _ := (congrArg Head.pipe hwalk).trans hsealed
  rw [hp, hhead]
  exact ⟨rfl, _, rfl, rfl, rfl⟩


theorem groupCommit_clause (hrun : Runs (.groupCommit dt d) s) :
    let x := d.trunc; let b := begun d d.trunc (tick dt s); let hs := bitsOf (d.trunc.p8 18) 8
    groupRefused b hs (x.p16 20) = none → x.p16 20 = 1 → (∀ k ∈ hs, (headOf s k).pipe.sealed_ = []) →
      ∃ t, exec (.groupCommit dt d) s = .next t ∧ (∀ k ∈ hs,
        (headOf t k).pipe.openSh = ((headOf s k).pipe.openSh.filter fun w => !sealsWrite x w) ∧ ∃ y,
        (headOf t k).pipe.sealed_ = [y] ∧ y.shadow = shadowOf ((headOf s k).pipe.openSh.filter (sealsWrite x)) ∧ y.commits.map (·.desc) = [x]) ∧
        (∃ g ∈ t.groups, g.gid = x.p16 16 ∧ g.heads = hs ∧ g.desc = some x ∧ g.go ≠ none) ∧
        (∀ j, j ∉ hs → headOf t j = headOf s j) ∧ t.ports = s.ports ∧ t.ingest = s.ingest ∧ t.gheler = s.gheler := by
  intro x b hs hclear hone hempty
  have hb : Within (clockParts ++ replyParts) s b := within_tick_begun
  have hconf : ∀ k ∈ hs, k < b.heads.length := fun k hk => lt_of_configured (groupBad_configured (accepted_bad hrun) k hk)
  have hpipe : ∀ k, (headOf (groupHeard x b) k).pipe = (headOf s k).pipe := fun k => groupHeard_pipe.trans (congrArg Head.pipe begun_headOf)
  have hact : groupCommitAct x b = groupSeals hs x (groupHeard x b) := by
    rw [groupCommitAct_eq, hclear]
    rfl
  have hseals := groupSeals_single (s := groupHeard x b) (d := x) (heads := hs) hone fun k hk => by rw [hpipe]; exact hempty k hk
  have hheard : Within (clockParts ++ replyParts ++ ([.heads, .pstate, .selfRef, .hbm] ++ readParts)) s (groupHeard x b) :=
    within_trans hb within_groupHeard
  refine ⟨_, (exec_groupCommit_accepted hrun).trans (congrArg Host.Outcome.next (hact.trans hseals)), ?_⟩
  generalize groupFrame hs x.t (x.p32 24) (groupHeard x b) = T, groupApply hs x (groupHeard x b) = e
  have hall := within_trans hheard (within_groupSealed (s := groupHeard x b) (d := x) (heads := hs) (T := T) (e := e))
  refine ⟨fun k hk => ?_, ⟨groupFormed hs x T e (groupSealed hs x T e (groupHeard x b)), List.mem_append_right _ List.mem_cons_self, rfl, rfl, rfl, ?_⟩, fun j hj => ?_,
    hall .ports (by decide), hall.apply State.ingest rfl, hall.apply State.gheler rfl⟩
  · have hfirst := groupSealed_first (s := groupHeard x b) (d := x) (T := T) (e := e) (List.nodup_range.filter _) hk
      (groupHeard_heads_length.symm ▸ hconf k hk) (by rw [hpipe]; exact hempty k hk)
    rw [hpipe] at hfirst
    exact hfirst
  · rw [groupFormed, if_pos hone]
    exact Option.some_ne_none e
  · exact (groupSealed_ne hj).trans ((groupHeard_ne hj).trans begun_headOf)


/-! ### READY and GO -/

theorem exec_groupReady_known {src e : Nat} (h : ∃ g ∈ s.groups, g.gid = gid) : exec (.groupReady dt gid src e) s = .next { tick dt s with
    groups := s.groups.map fun g => if g.gid = gid then { g with ready := setKey src e g.ready } else g } := by
  obtain ⟨g, hg, hgid⟩ := h
  exact congrArg Host.Outcome.next (if_pos (List.any_eq_true.2 ⟨g, hg, decide_eq_true hgid⟩))

/-- A sealed shadow that belongs to a group. -/
def OfGroup (gid : Nat) (x : Sealed) : Prop := ∃ c ∈ x.commits, c.group = some gid

/-- All that a group sealed waits for one frame. -/
def GroupAt (gid frame : Nat) (l : List Sealed) : Prop := ∀ x ∈ l, OfGroup gid x → x.target = frame

theorem groupAt_nil {f : Nat} : GroupAt gid f [] := fun _ hx => absurd hx List.not_mem_nil

theorem groupAt_append {f : Nat} {l : List Sealed} {x : Sealed} (hl : GroupAt gid f l) (hx : OfGroup gid x → x.target = f) :
    GroupAt gid f (l ++ [x]) := by
  intro y hy hgroup
  rcases List.mem_append.1 hy with hy | hy
  · exact hl y hy hgroup
  · rw [List.mem_singleton.1 hy] at hgroup ⊢
    exact hx hgroup

/-- A sealed shadow that takes in another one for its frame. -/
def joined (x y : Sealed) : Sealed := { y with shadow := y.shadow.merge x.shadow, commits := y.commits ++ x.commits }

theorem groupAt_join {f : Nat} {l : List Sealed} {x : Sealed} (hl : GroupAt gid f l) (hx : OfGroup gid x → x.target = f) :
    GroupAt gid f (l.map fun y => if y.target = x.target then joined x y else y) := by
  intro z hz hgroup
  obtain ⟨y, hy, rfl⟩ := List.mem_map.1 hz
  by_cases htarget : y.target = x.target
  · rw [if_pos htarget] at hgroup ⊢
    obtain ⟨c, hc, hgid⟩ := hgroup
    rcases List.mem_append.1 hc with hc | hc
    · exact hl y hy ⟨c, hc, hgid⟩
    · exact htarget.trans (hx ⟨c, hc, hgid⟩)
  · rw [if_neg htarget] at hgroup ⊢
    exact hl y hy hgroup

theorem groupAt_joinSealed {f : Nat} {l : List Sealed} (h : GroupAt gid f l) : GroupAt gid f (joinSealed l) := by
  refine List.foldlRecOn l _ groupAt_nil fun acc hacc x hx => ?_
  by_cases hany : (acc.any fun y => y.target = x.target) = true
  · rw [if_pos hany]
    exact groupAt_join hacc (h x hx)
  · rw [if_neg hany]
    exact groupAt_append hacc (h x hx)

/-- What a GO does at one of its heads. -/
def goAt (gid n : Nat) (k : Nat) (s : State) : State :=
  ((headOf s k).pipe.sealed_.find? fun x => x.commits.any fun c => c.group = some gid).elim s fun x => retarget k x.target (max n x.target) s

theorem find_ofGroup_none {l : List Sealed} (h : (l.find? fun x => x.commits.any fun c => c.group = some gid) = none) {f : Nat} : GroupAt gid f l := by
  rintro x hx ⟨c, hc, hgid⟩
  exact absurd (List.any_eq_true.2 ⟨c, hc, decide_eq_true hgid⟩) (List.find?_eq_none.1 h x hx)

theorem find_ofGroup_some {l : List Sealed} {x : Sealed} (h : (l.find? fun x => x.commits.any fun c => c.group = some gid) = some x) :
    x ∈ l ∧ OfGroup gid x := by
  obtain ⟨c, hc, hgid⟩ := List.any_eq_true.1 (List.find?_some (p := fun x : Sealed => x.commits.any fun c => c.group = some gid) h)
  exact ⟨List.mem_of_find?_eq_some h, c, hc, of_decide_eq_true hgid⟩

theorem within_goAt : Within [.heads, .transfers] s (goAt gid n k s) :=
  within_elim within_refl fun _ => within_of_eq rfl (by decide)

theorem headOf_goAt_ne (hj : j ≠ k) : headOf (goAt gid n k s) j = headOf s j := by
  unfold goAt
  cases (headOf s k).pipe.sealed_.find? fun x => x.commits.any fun c => c.group = some gid with
  | none => rfl
  | some x => exact headOf_modHead_ne hj

/-- What a GO finds at a head: what the group sealed there waits for one frame, not after the GO's. -/
def GoMeets (gid n : Nat) (l : List Sealed) : Prop :=
  ∀ y ∈ l, ∀ z ∈ l, OfGroup gid y → OfGroup gid z → y.target = z.target ∧ y.target ≤ n

theorem goMeets_of_at {l : List Sealed} (h : GroupAt gid n l) : GoMeets gid n l := fun y hy z hz hgy hgz =>
  ⟨(h y hy hgy).trans (h z hz hgz).symm, (h y hy hgy).le⟩


theorem lt_of_sealed {x : Sealed} (h : x ∈ (headOf s k).pipe.sealed_) : k < s.heads.length := by
  by_contra hk
  rw [headOf, List.getD_eq_default _ _ (Nat.not_lt.1 hk)] at h
  cases h

theorem groupAt_goAt (h : GoMeets gid n (headOf s k).pipe.sealed_) : GroupAt gid n (headOf (goAt gid n k s) k).pipe.sealed_ := by
  unfold goAt
  cases hfind : (headOf s k).pipe.sealed_.find? fun x => x.commits.any fun c => c.group = some gid with
  | none => exact find_ofGroup_none hfind
  | some x =>
    obtain ⟨hx, hgroup⟩ := find_ofGroup_some hfind
    have hmax : max n x.target = n := max_eq_left (h x hx x hx hgroup hgroup).2
    have hhead : (headOf (retarget k x.target (max n x.target) s) k).pipe.sealed_ =
        joinSealed ((headOf s k).pipe.sealed_.map fun y => if y.target = x.target then { y with target := max n x.target } else y) :=
      congrArg (fun h : Head => h.pipe.sealed_) (headOf_modHead_same (lt_of_sealed hx))
    change GroupAt gid n (headOf (retarget k x.target (max n x.target) s) k).pipe.sealed_
    rw [hhead, hmax]
    refine groupAt_joinSealed fun z hz hgz => ?_
    obtain ⟨y, hy, rfl⟩ := List.mem_map.1 hz
    by_cases htarget : y.target = x.target
    · rw [if_pos htarget]
    · rw [if_neg htarget] at hgz
      exact absurd (h y hy x hx hgz hgroup).1 htarget

theorem groupAt_goWalk {l : List Nat} (h : ∀ k ∈ l, GoMeets gid n (headOf s k).pipe.sealed_)
    (hj : j ∈ l ∨ GroupAt gid n (headOf s j).pipe.sealed_) : GroupAt gid n (headOf (forEach l (goAt gid n) s) j).pipe.sealed_ := by
  induction l generalizing s with
  | nil => exact hj.resolve_left List.not_mem_nil
  | cons a l ih =>
    have ha := groupAt_goAt (h a List.mem_cons_self)
    refine ih (fun k hk => ?_) ?_
    · by_cases hka : k = a
      · rw [hka]
        exact goMeets_of_at ha
      · rw [headOf_goAt_ne hka]
        exact h k (List.mem_cons_of_mem _ hk)
    · by_cases hja : j = a
      · exact .inr (hja ▸ ha)
      · rw [headOf_goAt_ne hja]
        exact hj.imp_left fun hmem => (List.mem_cons.1 hmem).resolve_left hja

/-- A GO in time: the group's sealed shadows apply at its frame. -/
theorem groupGo_inTime {g : GroupC} (hg : (s.groups.find? fun g => g.gid = gid ∧ g.desc.isSome ∧ g.go.isNone) = some g)
    (htime : ∀ k ∈ g.heads, s.now ≤ (headOf s k).pipe.cseAt n) :
    groupGo gid n s = modGroup gid (fun h => { h with go := some n, deferred := n - h.target }) (forEach g.heads (goAt gid n) s) := by
  have hsplit : decide (∃ k ∈ g.heads, (headOf s k).pipe.cseAt n < s.now) = false :=
    decide_eq_false fun ⟨k, hk, hlate⟩ => absurd (htime k hk) (Nat.not_le.2 hlate)
  unfold groupGo
  rw [hg]
  dsimp only
  rw [hsplit]
  rfl

theorem groupGo_clause {g : GroupC} (hg : (s.groups.find? fun g => g.gid = gid ∧ g.desc.isSome ∧ g.go.isNone) = some g)
    (htime : ∀ k ∈ g.heads, (tick dt s).now ≤ (headOf s k).pipe.cseAt n)
    (hmeets : ∀ k ∈ g.heads, GoMeets gid n (headOf s k).pipe.sealed_) : ∃ t, exec (.groupGo dt gid n) s = .next t ∧
      (∀ k ∈ g.heads, ∀ y ∈ (headOf t k).pipe.sealed_, (∃ c ∈ y.commits, c.group = some gid) → y.target = n) ∧
      (∀ h ∈ t.groups, h.gid = gid → h.go = some n) ∧ (∀ j, j ∉ g.heads → headOf t j = headOf s j) ∧
      t = { tick dt s with heads := t.heads, groups := t.groups, adm := { s.adm with transfers := t.adm.transfers } } := by
  have hgo := groupGo_inTime (s := tick dt s) hg htime
  refine ⟨_, congrArg Host.Outcome.next hgo, fun k hk => ?_, fun h hh hgid => ?_, fun j hj => ?_, ?_⟩
  · exact groupAt_goWalk (s := tick dt s) hmeets (.inl hk)
  · obtain ⟨h, -, rfl⟩ := List.mem_map.1 hh
    by_cases hsame : h.gid = gid
    · rw [if_pos hsame]
    · rw [if_neg hsame] at hgid
      exact absurd hgid hsame
  · exact forEach_headOf_notMem (s := tick dt s) (fun _ _ _ hne => headOf_goAt_ne hne) hj
  · have hwalk : Within [.heads, .transfers] (tick dt s) (forEach g.heads (goAt gid n) (tick dt s)) := within_forEach fun _ _ => within_goAt
    have hmod : ∀ u : State, Within [.groups] u (modGroup gid (fun h => { h with go := some n, deferred := n - h.target }) u) :=
      fun u => within_of_eq rfl (by decide)
    exact within_eq ((within_trans hwalk (hmod _)).mono (by decide) : Within [.heads, .transfers, .groups] (tick dt s) _)

/-! ### The decision and the end of a group -/

theorem find_leading {l : List GroupC} {g : GroupC} {dev : Nat} (h : (l.find? fun g => g.gid = gid ∧ g.desc.isSome ∧ g.go.isNone) = some g)
    (hlead : g.leader = dev) : (l.find? fun g => g.gid = gid ∧ g.desc.isSome ∧ g.go.isNone ∧ g.leader = dev) = some g := by
  obtain ⟨hg, before, after, rfl, hbefore⟩ := List.find?_eq_some_iff_append.1 h
  refine List.find?_eq_some_iff_append.2 ⟨?_, before, after, rfl, fun a ha => ?_⟩
  · simp only [decide_eq_true_eq] at hg ⊢
    exact ⟨hg.1, hg.2.1, hg.2.2, hlead⟩
  · have hnot := hbefore a ha
    simp only [Bool.not_eq_true', decide_eq_false_iff_not] at hnot ⊢
    exact fun ⟨hgid, hdesc, hgo, _⟩ => hnot ⟨hgid, hdesc, hgo⟩


theorem groupDecision_waits {g : GroupC} {m : Nat} (hg : (s.groups.find? fun g => g.gid = gid ∧ g.desc.isSome ∧ g.go.isNone) = some g)
    (hlead : g.leader = catDevice s)
    (hlast : (headOf s (g.heads.headD 0)).pipe.lastCse ((tick dt s).now + ((headOf s (g.heads.headD 0)).pipe.cfg.elim 0 (·.guard)) - 24000) = some m)
    (hdue : g.target + g.deferred ≤ m) (hmissing : g.ready.length ≠ g.members) : exec (.groupDecision dt gid) s =
      .next (record (0x10 + g.heads.headD 0) 0x0903
        (u16 gid ++ u32 m ++ u16 (g.members - (g.ready.filter fun r => decide (r.2 ≤ m)).length))
        (modGroup gid (fun h => { h with deferred := m + 1 - h.target }) (tick dt s))) := by
  have hfind : ((tick dt s).groups.find? fun g => g.gid = gid ∧ g.desc.isSome ∧ g.go.isNone ∧ g.leader = catDevice (tick dt s)) = some g :=
    find_leading (l := s.groups) hg hlead
  change execGroupDecision dt gid s = _
  unfold execGroupDecision
  dsimp only
  rw [hfind]
  dsimp only
  rw [show (headOf (tick dt s) (g.heads.headD 0)) = headOf s (g.heads.headD 0) from rfl, hlast]
  dsimp only
  rw [if_neg (by omega), if_neg fun h => hmissing h.1, if_neg (by omega)]

/-- The shadows that a group sealed at a head, taken out. -/
def unsealed (gid : Nat) (p : Pipe) : Pipe := { p with sealed_ := p.sealed_.filter fun x => !(x.commits.any fun c => c.group = some gid) }

/-- A group taken out with what it sealed. -/
def groupGone (gid : Nat) (heads : List Nat) (s : State) : State :=
  let u := forEach heads (fun k => modPipe k (unsealed gid)) s
  { u with groups := u.groups.filter fun x => x.gid ≠ gid }

/-- The commits of a group. -/
def groupDescs (gid : Nat) (heads : List Nat) (s : State) : List Desc :=
  ((heads.flatMap fun k => (headOf s k).pipe.sealed_.filter fun x => x.commits.any fun c => c.group = some gid).flatMap fun x =>
    x.commits.map (·.desc)).eraseDups

/-- A group's end told: by the completions still owed, and by the leader's record. -/
def groupEnded (g : GroupC) (gid : Nat) (l : List Desc) (s : State) : State :=
  let u := forEach l (fun d s => if owes d s then complete d 0x60 (u8 0 ++ u8 0 ++ u16 17 ++ u32 g.target) s else s) s
  if g.leader = catDevice u then record (0x10 + g.heads.headD 0) 0x0905 (u16 gid ++ u32 g.target) u else u

theorem groupAbandoned_due {g : GroupC} (hg : (s.groups.find? fun g => g.gid = gid ∧ g.desc.isSome ∧ g.go.isNone) = some g)
    (hdue : ∀ k ∈ g.heads, (headOf s k).pipe.cseAt (g.target + 16) ≤ (tick dt s).now) : exec (.groupAbandoned dt gid) s =
      .next (groupEnded g gid (groupDescs gid g.heads s) (groupGone gid g.heads (tick dt s))) := by
  have hlate : (g.heads.any fun k => decide ((tick dt s).now < (headOf (tick dt s) k).pipe.cseAt (g.target + 16))) = false :=
    List.any_eq_false.2 fun k hk hlate => absurd (of_decide_eq_true hlate) (Nat.not_lt.2 (hdue k hk))
  have hfind : ((tick dt s).groups.find? fun g => g.gid = gid ∧ g.desc.isSome ∧ g.go.isNone) = some g := hg
  change execGroupAbandoned dt gid s = _
  unfold execGroupAbandoned
  dsimp only
  rw [hfind]
  dsimp only
  rw [hlate]
  rfl

theorem within_groupEnded {g : GroupC} {l : List Desc} : Within replyParts s (groupEnded g gid l s) := by
  have htold : Within replyParts s (forEach l (fun d s => if owes d s then complete d 0x60 (u8 0 ++ u8 0 ++ u16 17 ++ u32 g.target) s else s) s) :=
    within_forEach fun _ _ => within_ite within_complete within_refl
  exact within_ite (htold.then (within_recordAt.mono (by decide))) htold

theorem within_groupGone {heads : List Nat} : Within [.heads, .groups] s (groupGone gid heads s) := by
  have hwalk : Within [.heads] s (forEach heads (fun k => modPipe k (unsealed gid)) s) := within_forEach fun _ _ => within_modPipe
  have hgroups : ∀ u : State, Within [.groups] u { u with groups := u.groups.filter fun x => x.gid ≠ gid } := fun u => within_of_eq rfl (by decide)
  exact (within_trans hwalk (hgroups _)).mono (by decide)

/-- Nothing of a group is sealed. -/
def GroupNowhere (gid : Nat) (l : List Sealed) : Prop := ∀ y ∈ l, ∀ c ∈ y.commits, c.group ≠ some gid

theorem groupNowhere_unsealed {p : Pipe} : GroupNowhere gid (unsealed gid p).sealed_ := by
  intro y hy c hc hgid
  have hkeep := (List.mem_filter.1 hy).2
  simp only [Bool.not_eq_true', List.any_eq_false, decide_eq_true_eq] at hkeep
  exact hkeep c hc hgid

theorem groupNowhere_modPipe (h : GroupNowhere gid (headOf s j).pipe.sealed_ ∨ j = k) :
    GroupNowhere gid (headOf (modPipe k (unsealed gid) s) j).pipe.sealed_ := by
  by_cases hj : j = k
  · rw [hj]
    by_cases hk : k < s.heads.length
    · rw [modPipe, headOf_modHead_same hk]
      exact groupNowhere_unsealed
    · intro y hy
      have hlen : (modPipe k (unsealed gid) s).heads.length = s.heads.length := List.length_modify ..
      exact absurd (hlen ▸ lt_of_sealed hy) hk
  · rw [modPipe, headOf_modHead_ne hj]
    exact h.resolve_right hj

theorem groupNowhere_walk {l : List Nat} (h : GroupNowhere gid (headOf s j).pipe.sealed_ ∨ j ∈ l) :
    GroupNowhere gid (headOf (forEach l (fun k => modPipe k (unsealed gid)) s) j).pipe.sealed_ := by
  induction l generalizing s with
  | nil => exact h.resolve_right List.not_mem_nil
  | cons a l ih =>
    refine ih ?_
    rcases h with h | hj
    · exact .inl (groupNowhere_modPipe (.inl h))
    · exact (List.mem_cons.1 hj).imp (fun hja => groupNowhere_modPipe (.inr hja)) id

theorem groupAbandoned_clause {g : GroupC} (hg : (s.groups.find? fun g => g.gid = gid ∧ g.desc.isSome ∧ g.go.isNone) = some g)
    (hdue : ∀ k ∈ g.heads, (headOf s k).pipe.cseAt (g.target + 16) ≤ (tick dt s).now) : ∃ t, exec (.groupAbandoned dt gid) s = .next t ∧
      (∀ h ∈ t.groups, h.gid ≠ gid) ∧ (∀ k ∈ g.heads, ∀ y ∈ (headOf t k).pipe.sealed_, ∀ c ∈ y.commits, c.group ≠ some gid) ∧
      (∀ j, j ∉ g.heads → headOf t j = headOf s j) ∧ OnlyReply { s with heads := t.heads, groups := t.groups } t := by
  have hend := within_groupEnded (g := g) (gid := gid) (l := groupDescs gid g.heads s) (s := groupGone gid g.heads (tick dt s))
  refine ⟨_, groupAbandoned_due hg hdue, fun h hh => ?_, fun k hk => ?_, fun j hj => ?_, ?_⟩
  · rw [show (groupEnded g gid (groupDescs gid g.heads s) (groupGone gid g.heads (tick dt s))).groups = (groupGone gid g.heads (tick dt s)).groups
      from hend .groups (by decide)] at hh
    exact of_decide_eq_true (List.mem_filter.1 hh).2
  · rw [hend.headOf (by decide)]
    exact groupNowhere_walk (s := tick dt s) (.inr hk)
  · rw [hend.headOf (by decide)]
    exact forEach_headOf_notMem (s := tick dt s) (fun _ _ _ hne => headOf_modHead_ne hne) hj
  · exact onlyReply_patch (m := [.heads, .groups]) ((within_trans (within_trans within_tick within_groupGone) hend).mono (by decide)) (by decide)

/-! ### The obligation -/

/-- Settles O36: a group of one seals as a commit does, READY and GO move the group they name, and an abandoned group leaves with what it sealed. -/
theorem groupsCommitTogether : Obligations.GroupsCommitTogether := by
  unfold Obligations.GroupsCommitTogether
  intro dt s
  refine ⟨?_, fun gid src e hknown => exec_groupReady_known hknown,
    fun gid g hg => ⟨fun frame htime hmeets => groupGo_clause hg htime hmeets,
      fun m hlead hlast hdue hmissing => groupDecision_waits hg hlead hlast hdue hmissing, fun hdue => groupAbandoned_clause hg hdue⟩⟩
  intro d x b hs hrun
  refine ⟨fun r hr => ?_, fun hclear hone hempty => groupCommit_clause hrun hclear hone hempty⟩
  exact (exec_groupCommit_accepted hrun).trans (congrArg Host.Outcome.next (groupCommitAct_refused hr))

end Sys2Proof.Machine
end

section
/-!
PROOFS. Scanners (chapter 14): SCAN_CONFIG, the edges of the scanner's phase, its loss, and the passes.
-/

namespace Sys2Proof.Machine
variable {s t u b : State} {dt k j n : Nat} {d : Desc}

/-! ### SCAN_CONFIG -/

theorem exec_scanConfig_accepted (h : Runs (.scanConfig dt d) s) :
    exec (.scanConfig dt d) s = .next (scanConfigAct d.trunc (begun d d.trunc (tick dt s))) := congrArg Host.Outcome.next (runDesc_accepted h)

theorem scanConfigAct_invalid {c : HeadCfg} {o : Nat} (hcfg : (headOf s (d.p8 16)).pipe.cfg = some c) (h : scanInvalid c d = some o) :
    scanConfigAct d s = complete d 0xE80 (u16 o) s := by
  unfold scanConfigAct
  dsimp only
  rw [hcfg]
  dsimp only
  rw [h]
  rfl

/-- A first set-up that fits and is admitted is in force at once. -/
theorem scanConfigAct_first {c : HeadCfg} (hcfg : (headOf s (d.p8 16)).pipe.cfg = some c) (hvalid : scanInvalid c d = none)
    (hbound : scanBound s (d.p8 16) c (scanOf d) = none) (hpend : (headOf s (d.p8 16)).scan.pending = none)
    (hfit : scanUnfit s (d.p8 16) c (scanOf d) = none) (hroom : shortage s (.scan (d.p8 16)) (scanUnits (scanOf d).port) = none)
    (hfirst : (headOf s (d.p8 16)).scan.cfg = none) :
    scanConfigAct d s = scanFirst d (d.p8 16) (scanOf d) (putItem (.scan (d.p8 16)) d (scanUnits (scanOf d).port) s) := by
  have hnone : (headOf (putItem (.scan (d.p8 16)) d (scanUnits (scanOf d).port) s) (d.p8 16)).scan.cfg.isNone = true := by
    rw [(within_putItem (s := s)).headOf (by decide), hfirst]
    rfl
  unfold scanConfigAct
  dsimp only
  rw [hcfg]
  dsimp only
  rw [hvalid, hbound, hpend, hfit]
  simp only [Option.map_none, Option.orElse_none, orElseDo]
  rw [admitDesc_admitted hroom]
  exact if_pos hnone

/-- A scanner with its first set-up. -/
def scanStarted (x : ScanCfg) (v : Scan) : Scan :=
  { v with cfg := some x, since := 0, lock := .acquiring, edges := [], good := 0, t8 := 0, preds := [] }

/-- A first set-up in force, recorded. -/
def scanInForce (k : Nat) (x : ScanCfg) (s : State) : State :=
  let u := modScan k (scanStarted x) (settle (.scan k) s)
  record (0x10 + k) 0x0E06 (u8 k ++ u24 0 ++ u32 (headOf u k).pipe.nextFrame) u

theorem within_scanInForce {x : ScanCfg} : Within [.items, .heads, .ledger] s (scanInForce k x s) :=
  (within_trans (within_trans within_settle within_modHead) within_recordAt).mono (by decide)

theorem scanFirst_unready {x : ScanCfg} (h : (portOf s x.port).state ≠ .ready) : scanFirst d k x s = complete d 0 [] (scanInForce k x s) := by
  have hport : portOf (scanInForce k x s) x.port = portOf s x.port := within_scanInForce.portOf (by decide) _
  exact congrArg (complete d 0 []) (if_neg fun hready => h (hport ▸ hready.1))


theorem headOf_scanInForce {x : ScanCfg} : headOf (scanInForce k x s) j = headOf (modScan k (scanStarted x) s) j :=
  within_recordAt.headOf (by decide) j

theorem scanConfig_clause {c : HeadCfg} (hrun : Runs (.scanConfig dt d) s) (hk : k = d.trunc.p8 16) (hcfg : (headOf s k).pipe.cfg = some c) :
    let v := (headOf s k).scan; let x := d.trunc; let b := begun d d.trunc (tick dt s)
    scanInvalid c x = none → scanBound s k c (scanOf x) = none → v.pending = none → scanUnfit s k c (scanOf x) = none →
      shortage b (.scan k) (scanUnits (scanOf x).port) = none → v.cfg = none → (portOf s (scanOf x).port).state ≠ .ready →
      ∃ t, exec (.scanConfig dt d) s = .next t ∧ (headOf t k).scan = { v with
          cfg := some (scanOf x), since := 0, lock := .acquiring, edges := [], good := 0, t8 := 0, preds := [] } ∧
        (∀ j, j ≠ k → headOf t j = headOf s j) ∧
        OnlyReply { s with heads := t.heads, adm := { s.adm with items := t.adm.items } } t := by
  intro v x b hvalid hbound hpend hfit hroom hfirst hport
  have hb : Within (clockParts ++ replyParts) s b := within_tick_begun
  have hhead : ∀ j, headOf b j = headOf s j := fun j => begun_headOf
  have hboundb : scanBound b k c (scanOf x) = scanBound s k c (scanOf x) := begun_apply (scanBound · k c (scanOf x)) rfl
  have hfitb : scanUnfit b k c (scanOf x) = scanUnfit s k c (scanOf x) := begun_apply (scanUnfit · k c (scanOf x)) rfl
  subst hk
  have hact := scanConfigAct_first (s := b) (d := x) (by rw [hhead]; exact hcfg) hvalid (hboundb.trans hbound) (by rw [hhead]; exact hpend)
    (hfitb.trans hfit) hroom (by rw [hhead]; exact hfirst)
  have hput : Within [.items] b (putItem (.scan (x.p8 16)) x (scanUnits (scanOf x).port) b) := within_putItem
  have hunready := scanFirst_unready (s := putItem (.scan (x.p8 16)) x (scanUnits (scanOf x).port) b) (d := x) (k := x.p8 16) (x := scanOf x)
    (by rw [hput.portOf (by decide), hb.portOf (by decide)]; exact hport)
  refine ⟨_, (exec_scanConfig_accepted hrun).trans (congrArg Host.Outcome.next (hact.trans hunready)), ?_, fun j hj => ?_, ?_⟩
  all_goals generalize putItem (.scan (x.p8 16)) x (scanUnits (scanOf x).port) b = w at hput ⊢
  · have hlen : x.p8 16 < w.heads.length := by
      rw [show w.heads = b.heads from hput .heads (by decide), begun_heads_length]
      exact lt_of_cfg hcfg
    have hsame : headOf w (x.p8 16) = headOf s (x.p8 16) := (hput.headOf (by decide) _).trans (hhead _)
    rw [within_complete.headOf (by decide), headOf_scanInForce, modScan, headOf_modHead_same hlen, hsame]
    rfl
  · rw [within_complete.headOf (by decide), headOf_scanInForce, modScan, headOf_modHead_ne hj, hput.headOf (by decide)]
    exact hhead j
  · exact onlyReply_patch (m := [.heads, .items]) ((within_trans (within_trans (within_trans hb hput) within_scanInForce) within_complete).mono (by decide)) (by decide)

/-! ### Edges -/

theorem modHead_congr {f g : Head → Head} (h : f (headOf s k) = g (headOf s k)) : modHead k f s = modHead k g s :=
  congrArg (fun l => { s with heads := l }) (upd_congr h)

theorem modHead_modHead {f g : Head → Head} : modHead k g (modHead k f s) = modHead k (fun h => g (f h)) s :=
  congrArg (fun l => { s with heads := l }) upd_upd

theorem lt_of_scan {sc : ScanCfg} (h : (headOf s k).scan.cfg = some sc) : k < s.heads.length := by
  by_contra hk
  rw [headOf, List.getD_eq_default _ _ (Nat.not_lt.1 hk)] at h
  cases h

theorem fillAhead_idle {bad : Bool} (h : (headOf s k).scan.preds = []) : fillAhead k bad s = s := by
  unfold fillAhead
  rw [h]
  rfl

/-- An edge before the ninth: kept, and good for nothing yet. -/
def earlyEdge (e : Nat) (v : Scan) : Scan :=
  { v with edges := e :: v.edges, lastEdge := e, good := 0, lock := if v.lock = .lost then .acquiring else v.lock }


theorem phaseEdge_early {sc : ScanCfg} (hk : k < s.heads.length) (hlock : (headOf s k).scan.lock ≠ .locked) (hfew : (headOf s k).scan.edges.length < 8)
    (hpreds : (headOf s k).scan.preds = []) : phaseEdge k sc s = modScan k (earlyEdge (s.now / 5 * 5)) (countEdge sc.pulse (s.now / 5 * 5) s) := by
  have htake : (s.now / 5 * 5 :: (headOf s k).scan.edges).take 9 = s.now / 5 * 5 :: (headOf s k).scan.edges :=
    List.take_of_length_le (by rw [List.length_cons]; omega)
  have h8 : (s.now / 5 * 5 :: (headOf s k).scan.edges)[8]? = none := List.getElem?_eq_none (by rw [List.length_cons]; omega)
  have hkept : modScan k (fun v => { v with lock := if v.lock = .lost then .acquiring else v.lock, good := 0 })
      (modScan k (fun v => { v with edges := s.now / 5 * 5 :: (headOf s k).scan.edges, lastEdge := s.now / 5 * 5 })
        (countEdge sc.pulse (s.now / 5 * 5) s)) = modScan k (earlyEdge (s.now / 5 * 5)) (countEdge sc.pulse (s.now / 5 * 5) s) :=
    modHead_modHead.trans (modHead_congr rfl)
  have hscan : (headOf (modScan k (earlyEdge (s.now / 5 * 5)) (countEdge sc.pulse (s.now / 5 * 5) s)) k).scan =
      earlyEdge (s.now / 5 * 5) (headOf s k).scan := congrArg Head.scan (headOf_modHead_same hk)
  unfold phaseEdge
  dsimp only
  rw [htake, h8]
  simp only [Option.elim_none, bne_self_eq_false, Bool.false_and, Bool.not_false, and_true, if_neg hlock, Bool.false_eq_true, if_false, if_true]
  rw [hkept, hscan, if_neg fun h => absurd h.2 (show ¬64 ≤ 0 by decide)]
  exact fillAhead_idle ((congrArg Scan.preds hscan).trans hpreds)

theorem scanPhaseEdge_clause {sc : ScanCfg} : let v := (headOf s k).scan
    v.cfg = some sc → v.lock ≠ .locked → v.edges.length < 8 → v.preds = [] → exec (.scanPhaseEdge dt k) s = .next
      (modScan k (fun v => { v with
        edges := (tick dt s).now / 5 * 5 :: v.edges, lastEdge := (tick dt s).now / 5 * 5, good := 0, lock := if v.lock = .lost then .acquiring else v.lock })
        (countEdge sc.pulse ((tick dt s).now / 5 * 5) (tick dt s))) := by
  intro v hcfg hlock hfew hpreds
  have hedge := phaseEdge_early (s := tick dt s) (sc := sc) (lt_of_scan hcfg) hlock hfew hpreds
  change execScanPhaseEdge dt k s = _
  unfold execScanPhaseEdge
  dsimp only
  rw [show (headOf (tick dt s) k).scan.cfg = some sc from hcfg]
  exact congrArg Host.Outcome.next hedge

theorem scanPhaseLost_clause {e : Nat} {rest : List Nat} : let v := (headOf s k).scan
    v.edges = e :: rest → v.lock = .locked → e + 3 * v.t8 / 16 < (tick dt s).now → exec (.scanPhaseLost dt k) s = .next
      (record (0x10 + k) 0x0E02 (u8 k ++ u8 1) (modScan k (fun v => { v with
        lock := .lost, lost := bump v.lost, good := 0, ann := [], preds := [], wins := [], outFrom := none, output := false,
        lowRun := 0 }) (tick dt s))) := by
  intro v hedges hlock hlate
  change execScanPhaseLost dt k s = _
  unfold execScanPhaseLost
  dsimp only
  rw [show (headOf (tick dt s) k).scan.edges = e :: rest from hedges]
  exact if_pos ⟨hlock, hlate⟩


/-! ### Passes -/

/-- A pass begun: its place, with the amplitude of the pass before. -/
def ampKept (low : Nat) (v : Scan) : Scan := { v with amp := v.ampRun, ampRun := 0, lowRun := low }

/-- A pass that takes its place in the frame under way. -/
def passPlaced (a : PassAnn) (lit : Bool) (v : Scan) : Scan :=
  { v with
    ann := v.ann.tail, frame := a.frame, pass := a.g, line := if a.dark then 65535 else a.line, th := a.th, output := lit,
    lit := if lit then a.g + 1 else v.lit, thSum := v.thSum + a.th, thN := v.thN + 1,
    wins := v.wins.filter fun w => decide (a.start < w.closes + 40000) }

/-- A port that no longer keeps what was sent or waits up to a pass. -/
def passDropped (a : PassAnn) (o : Port) : Port :=
  { o with sent := o.sent.filter (fun q => decide (a.start < q.stamp) || q.type_ = 0x12),
           queue := o.queue.filter fun q => decide (a.start < q.stamp) || q.type_ = 0x12 || q.type_ = 3 }

/-- The runs of passes below the amplitude wanted, with the one that ends. -/
def lowRuns (sc : ScanCfg) (v : Scan) : Nat := if v.ampRun * 65536 < sc.ampTgt * sc.ampMin then v.lowRun + 1 else 0

theorem passAmp_keeps {sc : ScanCfg} (hk : k < s.heads.length)
    (h : (headOf s k).scan.lock ≠ .locked ∨ sc.ampTgt * sc.ampMin ≤ (headOf s k).scan.ampRun * 65536) :
    passAmp k sc s = modScan k (ampKept (lowRuns sc (headOf s k).scan)) s := by
  have hkept : modScan k (fun v => { v with amp := v.ampRun, ampRun := 0, lowRun := if v.ampRun * 65536 < sc.ampTgt * sc.ampMin then v.lowRun + 1 else 0 }) s =
      modScan k (ampKept (lowRuns sc (headOf s k).scan)) s := modHead_congr rfl
  have hscan : (headOf (modScan k (ampKept (lowRuns sc (headOf s k).scan)) s) k).scan = ampKept (lowRuns sc (headOf s k).scan) (headOf s k).scan :=
    congrArg Head.scan (headOf_modHead_same hk)
  unfold passAmp
  dsimp only
  rw [hkept, hscan]
  refine if_neg fun hlow => ?_
  rcases h with h | h
  · exact h hlow.1
  · have hrun : lowRuns sc (headOf s k).scan = 0 := if_neg (Nat.not_lt.2 h)
    have hfour : 4 ≤ lowRuns sc (headOf s k).scan := hlow.2
    omega

theorem passStart_again {sc : ScanCfg} {a : PassAnn} {bad : Bool} (hk : k < s.heads.length) (hagain : a.frame = (headOf s k).scan.frame)
    (hpreds : (headOf s k).scan.preds = []) (hport : (portOf s sc.port).state ≠ .ready) :
    passStart k sc a bad s = modPort sc.port (passDropped a) (modScan k (passPlaced a (passesLit s k a.frame)) s) := by
  have hready : ∀ f : Scan → Scan, (decide ((portOf (modScan k f s) sc.port).state = .ready) && !(headOf (modScan k f s) k).pipe.safeDark) = false :=
    fun f => by rw [show portOf (modScan k f s) sc.port = portOf s sc.port from rfl, decide_eq_false hport, Bool.false_and]
  unfold passStart
  dsimp only
  simp only [decide_eq_true hagain, if_true]
  rw [hready]
  simp only [Bool.false_eq_true, false_and, if_false]
  have hscan : (headOf (modScan k (passPlaced a (passesLit s k a.frame)) s) k).scan = passPlaced a (passesLit s k a.frame) (headOf s k).scan :=
    congrArg Head.scan (headOf_modHead_same hk)
  exact fillAhead_idle (s := modPort sc.port (passDropped a) (modScan k (passPlaced a (passesLit s k a.frame)) s)) ((congrArg Scan.preds hscan).trans hpreds)


theorem scanPass_clause {sc : ScanCfg} {a : PassAnn} {rest : List PassAnn} {bad : Bool} : let v := (headOf s k).scan
    v.cfg = some sc → v.ann = a :: rest → v.preds = [] → a.frame = v.frame → a.start ≤ (tick dt s).now →
      (v.lock ≠ .locked ∨ sc.ampTgt * sc.ampMin ≤ v.ampRun * 65536) →
      (portOf s sc.port).state ≠ .ready → ∃ t, exec (.scanPass dt k bad) s = .next t ∧
        (headOf t k).scan.frame = a.frame ∧ (headOf t k).scan.pass = a.g ∧ (headOf t k).scan.line = (if a.dark = true then 65535 else a.line) ∧
        (headOf t k).scan.th = a.th ∧ (headOf t k).scan.ann = rest ∧ (headOf t k).scan.amp = v.ampRun ∧
        (headOf t k).scan.ampRun = 0 ∧ (headOf t k).scan.cfg = some sc ∧ (∀ j, j ≠ k → headOf t j = headOf s j) ∧
        t = { tick dt s with heads := t.heads, ports := t.ports } := by
  intro v hcfg hann hpreds hframe hdue hamp hport
  have hk := lt_of_scan hcfg
  have hkept : passAmp k sc (tick dt s) = modScan k (ampKept (lowRuns sc v)) (tick dt s) := passAmp_keeps (s := tick dt s) hk hamp
  generalize hw : modScan k (ampKept (lowRuns sc v)) (tick dt s) = w at hkept
  have hwlen : k < w.heads.length := by
    rw [← hw]
    exact (List.length_modify ..).symm ▸ hk
  have hwscan : (headOf w k).scan = ampKept (lowRuns sc v) v := by
    rw [← hw]
    exact congrArg Head.scan (headOf_modHead_same hk)
  have hwport : portOf w sc.port = portOf s sc.port := by
    rw [← hw]
    rfl
  have hstart := passStart_again (s := w) (sc := sc) (a := a) (bad := bad) hwlen (by rw [hwscan]; exact hframe) (by rw [hwscan]; exact hpreds)
    (by rw [hwport]; exact hport)
  have hexec : exec (.scanPass dt k bad) s = .next (passStart k sc a bad w) := by
    change execScanPass dt k bad s = _
    unfold execScanPass
    dsimp only
    rw [show (headOf (tick dt s) k).scan.cfg = some sc from hcfg]
    dsimp only
    rw [show (headOf (tick dt s) k).scan.ann = a :: rest from hann]
    dsimp only
    rw [if_pos hdue, hkept]
    unfold passBegins
    rw [hwscan, show (ampKept (lowRuns sc v) v).ann = a :: rest from hann]
  have hscan : ∀ f : Port → Port, (headOf (modPort sc.port f (modScan k (passPlaced a (passesLit w k a.frame)) w)) k).scan =
      passPlaced a (passesLit w k a.frame) (ampKept (lowRuns sc v) v) := fun f => by
    rw [← hwscan]
    exact congrArg Head.scan (headOf_modHead_same hwlen)
  refine ⟨_, hexec.trans (congrArg Host.Outcome.next hstart), ?_, ?_, ?_, ?_, ?_, ?_, ?_, ?_, fun j hj => ?_, ?_⟩
  iterate 4 rw [hscan]; rfl
  · rw [hscan]
    exact congrArg List.tail hann
  iterate 2 rw [hscan]; rfl
  · rw [hscan]
    exact hcfg
  · rw [within_modPort.headOf (by decide), modScan, headOf_modHead_ne hj, ← hw, modScan, headOf_modHead_ne hj]
    rfl
  · have hall : Within [.heads, .ports] (tick dt s) (modPort sc.port (passDropped a) (modScan k (passPlaced a (passesLit w k a.frame)) w)) := by
      have hwithin : Within [.heads] (tick dt s) w := hw ▸ within_modHead
      exact (within_trans (hwithin.then within_modHead) within_modPort).mono (by decide)
    exact within_eq hall

/-! ### The obligation -/

/-- Settles O40: each clause by what its command does to the head's scanner. -/
theorem scannersAreFollowed : Obligations.ScannersAreFollowed := by
  unfold Obligations.ScannersAreFollowed
  intro dt k s v
  refine ⟨?_, fun sc => scanPhaseEdge_clause, fun e rest => scanPhaseLost_clause, fun sc a rest bad hcfg hann hpreds hframe hdue _ =>
    scanPass_clause hcfg hann hpreds hframe hdue⟩
  intro d c x b hk hrun hcfg
  refine ⟨fun o ho => ?_, fun hvalid hbound => scanConfig_clause hrun hk hcfg hvalid hbound⟩
  subst hk
  have hhead : headOf b (x.p8 16) = headOf s (x.p8 16) := begun_headOf
  exact (exec_scanConfig_accepted hrun).trans (congrArg Host.Outcome.next (scanConfigAct_invalid (by rw [hhead]; exact hcfg) ho))

end Sys2Proof.Machine
end

section
/-!
PROOFS. What a head does once its channels are dark (chapters 3, 9 and 13): the PARK of its ports and the end of its release.
-/

namespace Sys2Proof.Machine
variable {s t u : State} {c k p n cause : Nat} {d : Desc} {m : List StatePart}

/-! ### Ports without faults -/

/-- A change after which ports that had no fault rule have none. -/
def FaultFree (s t : State) : Prop := NoFaults s → NoFaults t

theorem FaultFree.then (h1 : FaultFree s t) (h2 : FaultFree t u) : FaultFree s u := fun h => h2 (h1 h)

theorem Within.faultFree (h : Within m s t) (hm : .fault ∉ m) : FaultFree s t := h.noFaults hm

theorem replyRel_faultFree : ReplyRel FaultFree where
  refl _ := id
  trans := FaultFree.then
  quiet _ h hs := by
    rw [NoFaults, h]
    exact hs
  emit _ _ := id
  raise _ _ _ := within_raiseCause.faultFree (by decide)
  catOut _ _ _ _ hs := by
    rw [catOut_none hs]
    exact hs

/-! ### The relation -/

/-- What the end of a head reaches. -/
def darkParts : List StatePart :=
  [.exhibits, .items, .transfers, .heads, .ports, .chans, .sps, .startup, .groups, .locks] ++ replyParts

/-- A change that reaches those parts alone, keeps what has left the module, leaves each channel in its state and brings no fault rule. -/
structure DarkKept (s t : State) : Prop where
  within : Within darkParts s t
  out : OutKept s t
  free : FaultFree s t
  states : ∀ c, (chanOf t c).state = (chanOf s c).state

theorem darkKept_refl : DarkKept s s := ⟨within_refl, outKept_refl, id, fun _ => rfl⟩

theorem DarkKept.then (h1 : DarkKept s t) (h2 : DarkKept t u) : DarkKept s u :=
  ⟨h1.within.then h2.within, h1.out.then h2.out, h1.free.then h2.free, fun c => (h2.states c).trans (h1.states c)⟩

theorem darkKept_ite {q : Prop} [Decidable q] {a b : State} (ha : DarkKept s a) (hb : DarkKept s b) : DarkKept s (if q then a else b) := by
  split
  · exact ha
  · exact hb

theorem darkKept_elim {α : Type} {o : Option α} {f : α → State} {a : State} (ha : DarkKept s a) (hf : ∀ x, DarkKept s (f x)) : DarkKept s (o.elim a f) := by
  cases o with
  | none => exact ha
  | some x => exact hf x

theorem darkKept_forEach {α : Type} {l : List α} {f : α → State → State} (hf : ∀ a s, DarkKept s (f a s)) : DarkKept s (forEach l f s) := by
  induction l generalizing s with
  | nil => exact darkKept_refl
  | cons a l ih => exact (hf a s).then ih

theorem Within.chanOf (h : Within m s t) (hm : .chans ∉ m) (c : Nat) : chanOf t c = chanOf s c := by
  have hchans : t.gheler.chans = s.gheler.chans := h .chans hm
  rw [Machine.chanOf, hchans]
  rfl

/-- Parts of a head's end other than the channels and what leaves the module. -/
theorem Within.dark (h : Within m s t) (hm : ∀ q ∈ m, q ∈ darkParts) (hout : .out ∉ m) (hchans : .chans ∉ m ∧ .fault ∉ m) : DarkKept s t :=
  ⟨h.mono hm, h.outKept hout, h.faultFree hchans.2, fun c => congrArg Chan.state (h.chanOf hchans.1 c)⟩

theorem darkKept_replied (h : Within replyParts s t) (hout : OutKept s t) (hfree : FaultFree s t) : DarkKept s t :=
  ⟨h.mono (by decide), hout, hfree, fun c => congrArg Chan.state (h.chanOf (by decide) c)⟩

theorem darkKept_completeAt {st : Nat} {det : List Byte} : DarkKept s (completeAt n d st det s) := 
  darkKept_replied within_completeAt outKept_completeAt replyRel_faultFree.completeAt
theorem darkKept_complete {st : Nat} {det : List Byte} : DarkKept s (complete d st det s) := darkKept_completeAt
theorem darkKept_noticeAt {st : Nat} {det : List Byte} : DarkKept s (noticeAt n d st det s) := 
  darkKept_replied within_noticeAt outKept_noticeAt replyRel_faultFree.noticeAt
theorem darkKept_catSend {ty vc dest tag : Nat} {b : List Byte} : DarkKept s (catSend ty vc dest tag b s) :=
  darkKept_replied (within_catSend.mono (by decide)) outKept_catSend replyRel_faultFree.catSend
theorem darkKept_recordAt {pf1 : Bool} {a x e : Nat} {det : List Byte} : DarkKept s (recordAt pf1 a x e det s) :=
  within_recordAt.dark (by decide) (by decide) (by decide)
theorem darkKept_modHead {f : Head → Head} : DarkKept s (modHead k f s) := within_modHead.dark (by decide) (by decide) (by decide)
theorem darkKept_modPort {f : Port → Port} : DarkKept s (modPort p f s) := within_modPort.dark (by decide) (by decide) (by decide)
theorem darkKept_modSp {f : SetPoint → SetPoint} : DarkKept s (modSp c f s) := within_modSp.dark (by decide) (by decide) (by decide)
theorem darkKept_modExh {f : Exhibit → Exhibit} : DarkKept s (modExh n f s) := within_modExh.dark (by decide) (by decide) (by decide)
theorem darkKept_setExh {e : Exhibit} : DarkKept s (setExh n e s) := within_setExh.dark (by decide) (by decide) (by decide)
theorem darkKept_dropItems {f : Item → Bool} : DarkKept s (dropItems f s) := within_dropItems.dark (by decide) (by decide) (by decide)

/-- A change of a channel that leaves its state. -/
theorem darkKept_modChan {f : Chan → Chan} (hf : ∀ ch, (f ch).state = ch.state) : DarkKept s (modChan c f s) :=
  ⟨within_modChan.mono (by decide), outKept_refl, id, fun _ => chanOf_modChan_field (g := Chan.state) hf⟩

/-! ### Loops -/

theorem chanState_map {f : Chan → Chan} (hf : ∀ ch, (f ch).state = ch.state) :
    (({ s with gheler := { s.gheler with chans := s.gheler.chans.map f } } : State).gheler.chans.getD c Reset.chan).state = (chanOf s c).state := by
  by_cases hc : c < s.gheler.chans.length
  · simp [chanOf, hc, hf]
  · simp [chanOf, hc]

theorem darkKept_enableDone {q : EnableReq} : DarkKept s (enableDone c n q s) := by
  have hmod : DarkKept s (modChan c (fun ch => { ch with enable := ch.enable.filter (· ≠ q) }) s) := darkKept_modChan fun _ => rfl
  have hmap : ∀ (v : State) (f : Chan → Chan), (∀ ch, (f ch).state = ch.state) → DarkKept v { v with gheler := { v.gheler with chans := v.gheler.chans.map f } } :=
    fun v f hf => ⟨within_of_eq_sub (m := [.chans]) rfl (by decide) (by decide), fun _ h => h, id, fun _ => chanState_map hf⟩
  exact darkKept_ite (hmod.then (hmap _ _ fun _ => rfl)) (hmod.then darkKept_completeAt)

theorem darkKept_endInjectAt : DarkKept s (endInjectAt c cause n s) := by
  unfold endInjectAt
  split
  · exact darkKept_refl
  · refine DarkKept.then ?_ (darkKept_forEach fun _ _ => darkKept_completeAt)
    have hmod := darkKept_modSp (s := s) (c := c) (f := fun sp => { sp with inject := sp.waiting.head?, waiting := sp.waiting.tail })
    exact (hmod.then (darkKept_ite darkKept_recordAt darkKept_refl)).then (darkKept_ite darkKept_completeAt darkKept_refl)

theorem darkKept_endInject : DarkKept s (endInject c cause s) := darkKept_forEach fun _ _ => darkKept_endInjectAt

theorem darkKept_flushCoef : DarkKept s (flushCoef c s) := by
  unfold flushCoef
  extract_lets l u
  have hu : DarkKept s u := darkKept_modChan fun _ => rfl
  exact hu.then (darkKept_forEach fun _ _ => darkKept_complete)

theorem darkKept_items {l : List Item} : DarkKept s { s with adm := { s.adm with items := l } } :=
  (within_of_eq (m := [.items]) rfl (by decide)).dark (by decide) (by decide) (by decide)

theorem darkKept_dropLoop : DarkKept s (dropLoop c s) := by
  unfold dropLoop
  extract_lets adm u w v done sp ended
  have hw : DarkKept s w := darkKept_items.then (darkKept_modChan fun _ => rfl)
  refine darkKept_ite hw (hw.then ?_)
  refine DarkKept.then ?_ (darkKept_forEach fun _ _ => darkKept_complete)
  refine DarkKept.then ?_ (darkKept_forEach fun _ _ => darkKept_complete)
  exact ((darkKept_forEach fun _ _ => darkKept_enableDone).then darkKept_endInject).then darkKept_modSp

/-- A channel at rest is off. -/
theorem chanRest_off (h : (chanOf s c).state ≠ .unavailable) :
    OutKept s (chanRest c s) ∧ (chanOf (chanRest c s) c).state = .off := by
  unfold chanRest
  extract_lets rev u v w
  have hu : DarkKept s u := darkKept_endInject.then darkKept_flushCoef
  have hv : (chanOf v c).state = .off := by
    by_cases hlen : c < u.gheler.chans.length
    · rw [show chanOf v c = _ from chanOf_modChan_same hlen]
      exact if_neg (by rw [hu.states]; exact h)
    · have hv : chanOf v c = Reset.chan := List.getD_eq_default _ _ (by rw [show v.gheler.chans.length = _ from List.length_modify ..]; omega)
      rw [hv]
      rfl
  have hw : DarkKept v w := darkKept_modSp
  have hout : OutKept s w := hu.out.then hw.out
  have hoff : (chanOf w c).state = .off := (hw.states c).trans hv
  split
  · exact ⟨hout.then darkKept_dropLoop.out, (darkKept_dropLoop.states c).trans hoff⟩
  · exact ⟨hout, hoff⟩

/-! ### Exhibits -/

theorem darkKept_beginHeld {h frame : Nat} {w : Desc × Nat} : DarkKept s (beginHeld h frame w s) :=
  within_beginHeld.dark (by decide) (by decide) (by decide)

theorem darkKept_dropExh {h : Nat} {e : Exhibit} : DarkKept s (dropExh h e s) := by
  have hgone : DarkKept s { s with adm := { s.adm with exhibits := dropKey h s.adm.exhibits } } :=
    (within_of_eq (m := [.exhibits]) rfl (by decide)).dark (by decide) (by decide) (by decide)
  exact hgone.then (darkKept_forEach fun _ _ => darkKept_noticeAt.then darkKept_dropItems)

theorem darkKept_freeNow {h frame : Nat} : DarkKept s (freeNow h frame s) := by
  unfold freeNow
  split
  · exact darkKept_refl
  · extract_lets frees writes gone u v
    have hv : DarkKept s v := darkKept_setExh.then (darkKept_forEach fun f w => darkKept_ite darkKept_complete darkKept_noticeAt)
    refine darkKept_ite (hv.then darkKept_dropExh) ?_
    clear_value writes
    cases writes with
    | nil => exact hv
    | cons w rest => exact hv.then darkKept_beginHeld

theorem darkKept_runHeld {h frame : Nat} : DarkKept s (runHeld h frame s) := by
  unfold runHeld
  split
  · exact darkKept_refl
  · refine darkKept_ite darkKept_refl ?_
    split
    · exact darkKept_refl
    · exact darkKept_freeNow
    · exact darkKept_ite darkKept_refl (darkKept_setExh.then darkKept_beginHeld)

theorem darkKept_unpinAll {fence : Option Nat} : DarkKept s (unpinAll k fence s) := by
  have hunpin : ∀ h v, DarkKept v (unpin k fence h v) := fun _ _ => within_unpin.dark (by decide) (by decide) (by decide)
  exact (darkKept_forEach hunpin).then (darkKept_forEach fun _ _ => darkKept_runHeld)

/-! ### The end of a head -/

theorem darkKept_reapGroup : DarkKept s (reapGroup k s) := darkKept_ite darkKept_refl darkKept_dropItems

theorem darkKept_startup {x : Startup} : DarkKept s { s with startup := x } :=
  (within_of_eq (m := [.startup]) rfl (by decide)).dark (by decide) (by decide) (by decide)

theorem darkKept_leaveCab : DarkKept s (leaveCab k s) := by
  unfold leaveCab
  split
  · exact darkKept_refl
  · exact darkKept_ite darkKept_refl (darkKept_ite (darkKept_startup.then darkKept_completeAt) darkKept_startup)

theorem darkKept_dropLockDesc {l : FrameLock} : DarkKept s (dropLockDesc k l s) :=
  (darkKept_ite darkKept_modHead darkKept_refl).then (darkKept_forEach fun _ _ => darkKept_ite darkKept_complete darkKept_refl)

theorem darkKept_dropLock : DarkKept s (dropLock k cause s) := by
  have hlock : DarkKept s (modLock k (fun _ => Reset.frameLock) s) := within_modLock.dark (by decide) (by decide) (by decide)
  have hdesc := hlock.then (darkKept_dropLockDesc (k := k) (l := lockOf s k))
  exact darkKept_ite (hdesc.then (darkKept_forEach fun _ _ => darkKept_catSend)) (darkKept_ite (hdesc.then darkKept_recordAt) hdesc)

theorem darkKept_groups {l : List GroupC} : DarkKept s { s with groups := l } :=
  (within_of_eq (m := [.groups]) rfl (by decide)).dark (by decide) (by decide) (by decide)

theorem darkKept_transfers {l : List Transfer} : DarkKept s { s with adm := { s.adm with transfers := l } } :=
  (within_of_eq (m := [.transfers]) rfl (by decide)).dark (by decide) (by decide) (by decide)

theorem darkKept_endHead {st : Nat} : DarkKept s (endHead k cause st s) := by
  unfold endHead
  dsimp only
  split
  · exact darkKept_refl
  · refine DarkKept.then ?_ darkKept_reapGroup
    refine DarkKept.then ?_ darkKept_leaveCab
    refine DarkKept.then ?_ darkKept_dropLock
    refine DarkKept.then ?_ darkKept_modHead
    refine DarkKept.then ?_ darkKept_groups
    refine DarkKept.then ?_ darkKept_modHead
    refine DarkKept.then ?_ (darkKept_forEach fun _ _ => darkKept_modExh)
    refine DarkKept.then ?_ (darkKept_forEach fun _ _ => darkKept_modChan fun _ => rfl)
    refine DarkKept.then ?_ darkKept_transfers
    exact darkKept_unpinAll.then (darkKept_forEach fun _ _ => darkKept_ite darkKept_complete darkKept_refl)

theorem darkKept_finishRelease : DarkKept s (finishRelease k d s) := by
  unfold finishRelease
  extract_lets chans u v mine w x
  have hv : DarkKept s v := darkKept_modHead.then darkKept_endHead
  exact (((hv.then (darkKept_forEach fun _ _ => darkKept_dropLoop)).then darkKept_dropItems).then darkKept_modHead).then darkKept_complete

/-! ### PARK -/

theorem outKept_throughPoint {q : Nat} {fate : FaultFate} {body : HeldBody} {o : Out} : OutKept s (throughPoint q fate body (emit o) s) := by
  have hpass : OutKept s (passPoint q s) := outKept_refl
  unfold throughPoint
  dsimp only
  refine outKept_ite hpass ?_
  split
  · exact hpass
  · split
    · exact hpass
    · exact hpass.then outKept_emit

theorem outKept_meetFaults {q cl f i r : Nat} {b : Bool} : OutKept s (meetFaults q cl f i r b s).2 := within_meetFaults.outKept (by decide)

theorem outKept_plkOut {psn ty : Nat} {retry : Bool} {l : List Byte} : OutKept s (plkOut p psn ty retry l s) := by
  unfold plkOut
  exact outKept_meetFaults.then outKept_throughPoint

theorem outKept_plkMark {code v fine : Nat} : OutKept s (plkMark p code v fine n s) := by
  unfold plkMark
  exact outKept_meetFaults.then outKept_throughPoint

theorem faultFree_plkOut {psn ty : Nat} {retry : Bool} {l : List Byte} : FaultFree s (plkOut p psn ty retry l s) := fun h => by
  rw [plkOut_none h]
  exact h

theorem faultFree_plkMark {code v fine : Nat} : FaultFree s (plkMark p code v fine n s) := fun h => by
  unfold plkMark
  simp only [meetFaults_none h]
  rw [throughPoint_none h]
  exact h

theorem darkKept_plkMark {code v fine : Nat} : DarkKept s (plkMark p code v fine n s) :=
  darkKept_replied (within_plkMark.mono (by decide)) outKept_plkMark faultFree_plkMark

theorem darkKept_sendPkt {q : SentPkt} {l : List Byte} : DarkKept s (sendPkt p q l s) := by
  have hout : ∀ v psn ty re b, DarkKept v (plkOut p psn ty re b v) := fun v psn ty re b =>
    darkKept_replied (within_plkOut.mono (by decide)) outKept_plkOut faultFree_plkOut
  unfold sendPkt
  exact darkKept_modPort.then (hout _ _ _ _ _)

theorem darkKept_parkNow : DarkKept s (parkNow p cause s) := by
  unfold parkNow
  exact (darkKept_modPort.then (darkKept_ite darkKept_plkMark darkKept_sendPkt)).then darkKept_recordAt

theorem darkKept_parkAndEnd : DarkKept s (parkAndEnd cause p s) := by
  have hpark : DarkKept s (parkPort p cause s) := darkKept_ite darkKept_parkNow (darkKept_ite darkKept_modPort darkKept_refl)
  exact darkKept_ite darkKept_refl (darkKept_ite (hpark.then darkKept_modPort) (hpark.then darkKept_modPort))

theorem darkKept_parkIfDark : DarkKept s (parkIfDark k s) := by
  unfold parkIfDark
  split
  · refine darkKept_ite darkKept_refl ?_
    extract_lets why u
    have hu : DarkKept s u := darkKept_forEach fun _ _ => darkKept_parkAndEnd
    exact darkKept_ite (hu.then darkKept_modHead) hu
  · exact darkKept_refl

theorem darkKept_headDark : DarkKept s (headDark k s) := by
  unfold headDark
  extract_lets due u
  have hu : DarkKept s u := darkKept_parkIfDark
  split
  · exact darkKept_ite (hu.then darkKept_finishRelease) hu
  · exact hu

/-! ### A capture that ends with its channel -/

theorem darkKept_endCapture : DarkKept s (endCapture c cause s) := by
  unfold endCapture
  split
  · exact darkKept_refl
  · refine darkKept_ite darkKept_refl ?_
    extract_lets u v w x
    have hw : DarkKept s w := ((darkKept_ite darkKept_complete darkKept_refl).then darkKept_modSp).then darkKept_recordAt
    exact ((hw.then darkKept_dropItems).then darkKept_modExh).then darkKept_runHeld

theorem darkKept_reapCapture : DarkKept s (reapCapture c s) := darkKept_ite darkKept_endCapture darkKept_refl

end Sys2Proof.Machine
end

section
/-!
PROOFS. Outputs on their update grid, and the pins of the loop engine (chapters 2, 16 and 17).
-/

namespace Sys2Proof.Machine
variable {s t u : State} {dt c n i p : Nat} {x : LoopCfg}

/-! ### The update of an output -/

theorem exec_aoutUpdate_early (h : (tick dt s).now / 200 * 200 < (chanOf s c).upd + 100) : exec (.aoutUpdate dt c) s = .next (tick dt s) :=
  congrArg Host.Outcome.next (if_pos (.inl h))

/-- An update that is due begins with its stamp. -/
def updated (n : Nat) (ch : Chan) : Chan := { ch with upd := n }

theorem aoutStep_run (hdue : (chanOf s c).upd + 100 ≤ n) (hrun : (chanOf s c).state = .run) (hon : (chanOf s c).offNext = false)
    (hcfg : (chanOf s c).cfg = some x) : aoutStep c n s = updateRun c (chanOf s c).upd n x (modChan c (updated n) s) := by
  unfold aoutStep
  dsimp only
  rw [if_neg (by rw [hrun]; rintro (h | h); omega; exact absurd h.1 (by decide)), hrun]
  dsimp only
  rw [hon, hcfg]
  rfl

theorem aoutStep_ramp (hdue : (chanOf s c).upd + 100 ≤ n) (hramp : (chanOf s c).state = .ramp) (hgoes : (chanOf s c).rampI < 9999) :
    aoutStep c n s = (let u := modChan c (updated n) s
      drivePin c n (rampCode u c ((chanOf s c).rampI + 1)) (modChan c (fun ch => { ch with rampI := ch.rampI + 1 }) u)) := by
  unfold aoutStep
  dsimp only
  rw [if_neg (by rintro (h | h); omega; omega), hramp]
  rfl

theorem aoutStep_off (hdue : (chanOf s c).upd + 100 ≤ n) (hoff : (chanOf s c).state = .off) (hcode : (chanOf s c).code ≠ 0) :
    aoutStep c n s = pinZero c (modChan c (updated n) s) := by
  unfold aoutStep
  dsimp only
  rw [if_neg (by rw [hoff]; rintro (h | h); omega; exact absurd h.1 (by decide)), hoff]
  exact if_neg hcode

theorem drivePin_free {k : Int} (hzero : (chanOf s c).zeroTill ≤ n) (hheld : pinHeld s c = false) (hlow : forcedLow s = false) :
    drivePin c n k s = writeAout c k s := by
  refine if_neg ?_
  rw [hheld, hlow]
  rintro (h | h | h)
  · omega
  · cases h
  · cases h

theorem drivePin_modChan {k : Int} {f : Chan → Chan} (hf : ∀ ch, (f ch).zeroTill = ch.zeroTill) (hzero : (chanOf s c).zeroTill ≤ n)
    (hheld : pinHeld s c = false) (hlow : forcedLow s = false) : drivePin c n k (modChan c f s) = writeAout c k (modChan c f s) :=
  drivePin_free ((chanOf_modChan_field (g := Chan.zeroTill) hf).trans_le hzero) hheld hlow

/-- A running channel whose last result stands keeps driving it. -/
theorem updateRun_stands {last : Nat} (hnew : (chanOf s c).uNew = []) (happlied : (chanOf s c).applied = true) (hfollows : follows s c x = false)
    (hheld : (chanOf s c).heldAt n = false) :
    updateRun c last n x s = driveOut c n (chanOf s c).u (modChan c (fun ch => { ch with uPrev := (chanOf s c).u }) s) := by
  have htake : takeDue c n s = s := by
    unfold takeDue
    dsimp only
    rw [hnew]
    rfl
  have hlate : lateStep c last n x s = s := by
    refine if_neg ?_
    rw [hfollows]
    exact fun h => absurd h.1 Bool.false_ne_true
  unfold updateRun
  dsimp only
  rw [htake, hlate, hheld]
  simp only [hfollows, happlied, Bool.false_eq_true, or_self, if_false, Bool.not_true, Bool.or_self, Bool.and_false]


theorem chanOf_updated {α : Type} {g : Chan → α} (hg : ∀ ch, g (updated n ch) = g ch) : g (chanOf (modChan c (updated n) s) c) = g (chanOf s c) :=
  chanOf_modChan_field hg

theorem aoutUpdate_run (hdue : (chanOf s c).upd + 100 ≤ (tick dt s).now / 200 * 200) (hrun : (chanOf s c).state = .run) (hon : (chanOf s c).offNext = false)
    (hcfg : (chanOf s c).cfg = some x) (hnew : (chanOf s c).uNew = []) (happlied : (chanOf s c).applied = true) (hfollows : follows s c x = false)
    (hheld : (chanOf s c).heldAt ((tick dt s).now / 200 * 200) = false) (hzero : (chanOf s c).zeroTill ≤ (tick dt s).now / 200 * 200)
    (hpin : pinHeld s c = false) (hlow : forcedLow s = false) : let n := (tick dt s).now / 200 * 200
    exec (.aoutUpdate dt c) s = .next (writeAout c (outCode (aoutBipolar s c) (chanOf s c).u)
      (modChan c (fun ch => { ch with upd := n, uPrev := ch.u }) (tick dt s))) := by
  intro n
  have hstep := aoutStep_run (s := tick dt s) hdue hrun hon hcfg
  have hstands := updateRun_stands (s := modChan c (updated n) (tick dt s)) (c := c) (n := n) (x := x) (last := (chanOf s c).upd)
    ((chanOf_updated (g := Chan.uNew) fun _ => rfl).trans hnew) ((chanOf_updated (g := Chan.applied) fun _ => rfl).trans happlied) hfollows
    ((chanOf_updated (g := fun ch => ch.heldAt n) fun _ => rfl).trans hheld)
  have hu : (chanOf (modChan c (updated n) (tick dt s)) c).u = (chanOf s c).u := chanOf_updated (s := tick dt s) (g := Chan.u) fun _ => rfl
  rw [hu] at hstands
  have hmod : modChan c (fun ch => { ch with uPrev := (chanOf s c).u }) (modChan c (updated n) (tick dt s)) =
      modChan c (fun ch => { ch with upd := n, uPrev := ch.u }) (tick dt s) := modChan_modChan.trans (modChan_congr rfl)
  rw [hmod] at hstands
  have hdrive : driveOut c n (chanOf s c).u (modChan c (fun ch => { ch with upd := n, uPrev := ch.u }) (tick dt s)) =
      writeAout c (outCode (aoutBipolar s c) (chanOf s c).u) (modChan c (fun ch => { ch with upd := n, uPrev := ch.u }) (tick dt s)) :=
    drivePin_modChan (fun _ => rfl) hzero hpin hlow
  exact congrArg Host.Outcome.next (hstep.trans (hstands.trans hdrive))

theorem aoutUpdate_ramp (hdue : (chanOf s c).upd + 100 ≤ (tick dt s).now / 200 * 200) (hramp : (chanOf s c).state = .ramp)
    (hgoes : (chanOf s c).rampI < 9999) (hzero : (chanOf s c).zeroTill ≤ (tick dt s).now / 200 * 200)
    (hpin : pinHeld s c = false) (hlow : forcedLow s = false) : let ch := chanOf s c
    exec (.aoutUpdate dt c) s = .next (writeAout c (ch.rampC0 + roundDiv ((darkCode s c - ch.rampC0) * (ch.rampI + 1 : Nat)) 10000)
      (modChan c (fun ch => { ch with upd := (tick dt s).now / 200 * 200, rampI := ch.rampI + 1 }) (tick dt s))) := by
  intro ch
  have hstep := aoutStep_ramp (s := tick dt s) hdue hramp hgoes
  have hc0 : (chanOf (modChan c (updated ((tick dt s).now / 200 * 200)) (tick dt s)) c).rampC0 = ch.rampC0 :=
    chanOf_updated (s := tick dt s) (g := Chan.rampC0) fun _ => rfl
  have hcode : rampCode (modChan c (updated ((tick dt s).now / 200 * 200)) (tick dt s)) c (ch.rampI + 1) =
      ch.rampC0 + roundDiv ((darkCode s c - ch.rampC0) * (ch.rampI + 1 : Nat)) 10000 := by
    unfold rampCode
    dsimp only
    rw [hc0]
    rfl
  have hmod : modChan c (fun ch => { ch with rampI := ch.rampI + 1 }) (modChan c (updated ((tick dt s).now / 200 * 200)) (tick dt s)) =
      modChan c (fun ch => { ch with upd := (tick dt s).now / 200 * 200, rampI := ch.rampI + 1 }) (tick dt s) := modChan_modChan
  dsimp only at hstep
  rw [hmod, show (chanOf (tick dt s) c).rampI = ch.rampI from rfl, hcode] at hstep
  have hfree : ∀ k, drivePin c ((tick dt s).now / 200 * 200) k
      (modChan c (fun ch => { ch with upd := (tick dt s).now / 200 * 200, rampI := ch.rampI + 1 }) (tick dt s)) = writeAout c k
      (modChan c (fun ch => { ch with upd := (tick dt s).now / 200 * 200, rampI := ch.rampI + 1 }) (tick dt s)) := fun k =>
    drivePin_modChan (fun _ => rfl) hzero hpin hlow
  exact congrArg Host.Outcome.next (hstep.trans (hfree _))

theorem aoutUpdate_off (hdue : (chanOf s c).upd + 100 ≤ (tick dt s).now / 200 * 200) (hoff : (chanOf s c).state = .off) (hcode : (chanOf s c).code ≠ 0) :
    exec (.aoutUpdate dt c) s = .next (pinZero c (modChan c (fun ch => { ch with upd := (tick dt s).now / 200 * 200 }) (tick dt s))) :=
  congrArg Host.Outcome.next (aoutStep_off (s := tick dt s) hdue hoff hcode)

theorem writeAout_clamped {v : Int} (hc : c < s.gheler.chans.length) : (chanOf (writeAout c v s) c).code = clampCode s c v := by
  have hmod : ∀ f : Chan → Chan, chanOf (modChan c f s) c = f (chanOf s c) := fun _ => chanOf_modChan_same hc
  have hrec : ∀ (q : Prop) [Decidable q] (v : State) det, chanOf (if q then record 8 0x1004 det v else v) c = chanOf v c := fun q _ v det => by
    split
    · exact within_recordAt.chanOf (by decide) c
    · rfl
  unfold writeAout
  dsimp only
  rw [hrec]
  exact congrArg Chan.code (hmod _)

theorem clampCode_between {v : Int} : let lo := codeOf (aoutBipolar s c) (bits (rawReg s (0x00A01004 + 0x40 * c)).toNat 0 16)
    let hi := codeOf (aoutBipolar s c) (bits (rawReg s (0x00A01004 + 0x40 * c)).toNat 16 16)
    lo ≤ hi → lo ≤ clampCode s c v ∧ clampCode s c v ≤ hi := by
  intro lo hi h
  exact ⟨le_min h (le_max_left _ _), min_le_left _ _⟩


/-! ### The end of a ramp -/

theorem darkKept_emit {o : Out} : DarkKept s (emit o s) := darkKept_replied (within_emit.mono (by decide)) outKept_emit id

theorem darkKept_pinZero : DarkKept s (pinZero c s) := by
  unfold pinZero
  refine DarkKept.then ?_ darkKept_emit
  exact darkKept_modChan fun _ => rfl

theorem darkKept_writeAout {v : Int} : DarkKept s (writeAout c v s) := by
  unfold writeAout
  extract_lets w hit first u x
  have hu : DarkKept s u := darkKept_modChan fun _ => rfl
  have hx : DarkKept s x := hu.then darkKept_emit
  exact darkKept_ite (hx.then darkKept_recordAt) hx

theorem writeAout_out {v : Int} : Out.aout c (clampCode s c v) ∈ (writeAout c v s).out := by
  unfold writeAout
  extract_lets w hit first u x
  have hx : Out.aout c w ∈ x.out := List.mem_cons_self
  split
  · exact darkKept_recordAt.out _ hx
  · exact hx

theorem darkKept_drivePin {v : Int} : DarkKept s (drivePin c n v s) :=
  darkKept_ite (darkKept_ite darkKept_refl darkKept_pinZero) darkKept_writeAout

/-- The last update of a ramp. -/
def rampLast (c n : Nat) (s : State) : State := modChan c (fun ch => { ch with upd := n, rampI := 10000 }) (drivePin c n (darkCode s c) s)

/-- What the end of a channel brings to the capture, the groups and the heads. -/
def darkEnd (c why : Nat) (s : State) : State :=
  forEach (List.range 8) (fun k s => headDark k (reapGroup k s)) (reapCapture c (setCause c why s))

theorem rampEnd_eq : rampEnd c n s = darkEnd c (chanOf s c).rampWhy (chanRest c (rampLast c n s)) := rfl

theorem darkKept_rampLast : DarkKept s (rampLast c n s) := darkKept_drivePin.then (darkKept_modChan fun _ => rfl)

theorem darkKept_darkEnd {why : Nat} : DarkKept s (darkEnd c why s) := by
  have hcause : DarkKept s (setCause c why s) := darkKept_modChan fun _ => rfl
  exact (hcause.then darkKept_reapCapture).then (darkKept_forEach fun _ _ => darkKept_reapGroup.then darkKept_headDark)

theorem rampEnd_frame (h : (chanOf s c).state = .ramp) : let u := rampEnd c n s
    (chanOf u c).state = .off ∧ OutKept (rampLast c n s) u ∧ Within darkParts s u := by
  intro u
  have hstate : (chanOf (rampLast c n s) c).state = .ramp := (darkKept_rampLast.states c).trans h
  obtain ⟨hout, hoff⟩ := chanRest_off (s := rampLast c n s) (c := c) (by rw [hstate]; decide)
  have hend := darkKept_darkEnd (s := chanRest c (rampLast c n s)) (c := c) (why := (chanOf s c).rampWhy)
  have hu : u = darkEnd c (chanOf s c).rampWhy (chanRest c (rampLast c n s)) := rampEnd_eq
  rw [hu]
  exact ⟨(hend.states c).trans hoff, hout.then hend.out, (darkKept_rampLast.within.then (within_chanRest.mono (by decide))).then hend.within⟩

theorem rampLast_out (hzero : (chanOf s c).zeroTill ≤ n) (hpin : pinHeld s c = false) (hlow : forcedLow s = false) :
    Out.aout c (clampCode s c (darkCode s c)) ∈ (rampLast c n s).out := by
  unfold rampLast
  rw [drivePin_free hzero hpin hlow]
  exact writeAout_out

theorem rampEnd_clause : let ch := chanOf s c; let n := (tick dt s).now / 200 * 200
    ch.state = .ramp → ch.rampI = 9999 → ch.upd + 100 ≤ n → ∃ u, exec (.rampEnd dt c) s = .next u ∧ (chanOf u c).state = .off ∧
      (ch.zeroTill ≤ n → pinHeld s c = false → forcedLow s = false → .aout c (clampCode s c (darkCode s c)) ∈ u.out) ∧
      u.power = s.power ∧ u.time = (tick dt s).time ∧ u.ingest = s.ingest ∧ u.hbm = s.hbm := by
  intro ch n hramp hlast hdue
  obtain ⟨hoff, hout, hwithin⟩ := rampEnd_frame (s := tick dt s) (c := c) (n := n) hramp
  refine ⟨rampEnd c n (tick dt s), congrArg Host.Outcome.next (if_pos ⟨hramp, hlast, hdue⟩), hoff, fun hzero hpin hlow => ?_, ?_, ?_, ?_, ?_⟩
  · exact hout _ (rampLast_out (s := tick dt s) hzero hpin hlow)
  · exact hwithin.apply State.power rfl
  · exact hwithin.apply State.time rfl
  · exact hwithin.apply State.ingest rfl
  · exact hwithin.apply State.hbm rfl

theorem exec_rampEnd_idle (h : (chanOf s c).state ≠ .ramp) : exec (.rampEnd dt c) s = .next (tick dt s) :=
  congrArg Host.Outcome.next (if_neg fun hramp => h hramp.1)

/-! ### Pins -/

theorem exec_spSafe_due (hrun : (chanOf s c).state = .run) (hhold : (spOf s c).input = .holding)
    (hdue : (spOf s c).lostAt + (spOf s c).cfg.holdT ≤ (tick dt s).now / max 1 (chanOf s c).period * (chanOf s c).period) (hlive : (spOf s c).liveRun < 15) :
    exec (.spSafe dt c) s = .next (recordAt false ((tick dt s).now / max 1 (chanOf s c).period * (chanOf s c).period) 8 0x1103
      (u8 c ++ u24 0 ++ s32 (spOf s c).cfg.safe) (modSp c (fun p => { p with input := .safe }) (tick dt s))) :=
  congrArg Host.Outcome.next (if_pos ⟨hrun, hhold, hdue, hlive⟩)

theorem aoutRange_clause {v : Word} : let off := 0x00A08000 + 4 * c
    (s.host.locked = true → aoutBipolar s c = v.getLsbD 0 → exec (.aoutRangeWrite dt c v) s = .next (tick dt s)) ∧
    (s.host.locked = true → aoutBipolar s c ≠ v.getLsbD 0 → exec (.aoutRangeWrite dt c v) s = .next (rwlRecord 0 off v.toNat (tick dt s))) ∧
    (s.host.locked = false → (chanOf s c).enabled = true ∨ lasersLow s c = false → exec (.aoutRangeWrite dt c v) s = .next
      (record 8 0x0204 (u8 c) (tick dt s))) ∧
    (s.host.locked = false → (chanOf s c).enabled = false → lasersLow s c = true → aoutBipolar s c ≠ v.getLsbD 0 →
      exec (.aoutRangeWrite dt c v) s = .next (modChan c (fun ch => { ch with zeroTill := (tick dt s).now + 40000 })
        (pinZero c (setRaw off (wordOf (bit (v.getLsbD 0))) (tick dt s))))) := by
  intro off
  have hexec : exec (.aoutRangeWrite dt c v) s = .next (if s.host.locked = true then
      (if (aoutBipolar s c == v.getLsbD 0) = true then tick dt s else rwlRecord 0 off v.toNat (tick dt s))
    else if ((chanOf s c).enabled || !lasersLow s c) = true then record 8 0x0204 (u8 c) (tick dt s)
    else if (aoutBipolar s c == v.getLsbD 0) = true then tick dt s
    else modChan c (fun ch => { ch with zeroTill := (tick dt s).now + 40000 }) (pinZero c (setRaw off (wordOf (bit (v.getLsbD 0))) (tick dt s)))) := rfl
  rw [hexec]
  refine ⟨fun hlock hsame => ?_, fun hlock hdiff => ?_, fun hopen hlit => ?_, fun hopen hdark hlow hdiff => ?_⟩
  · rw [if_pos hlock, if_pos (beq_iff_eq.2 hsame)]
  · rw [if_pos hlock, if_neg fun h => hdiff (beq_iff_eq.1 h)]
  · rw [if_neg (by rw [hopen]; exact Bool.false_ne_true), if_pos (by rcases hlit with h | h <;> simp [h])]
  · rw [if_neg (by rw [hopen]; exact Bool.false_ne_true), if_neg (by simp [hdark, hlow]), if_neg fun h => hdiff (beq_iff_eq.1 h)]

/-- A pulse input with an edge taken. -/
def edgeTaken (counted : Bool) (now : Nat) (x : Pulse) : Pulse :=
  if counted = true then { x with edges := (now / 5 * 5 :: x.edges).take 16, last := now } else { x with opp := (now / 5 * 5 :: x.opp).take 16, last := now }

theorem upd_congr_mem {α : Type} {l : List α} {f g : α → α} (h : ∀ x ∈ l, f x = g x) : upd l i f = upd l i g := by
  by_cases hi : i < l.length
  · simp only [upd, List.modify_eq_set_getElem?, List.getElem?_eq_getElem hi, Option.map_eq_map, Option.map_some, h _ (List.getElem_mem hi)]
  · rw [upd, upd, List.modify_eq_self (by omega), List.modify_eq_self (by omega)]

theorem pulseEdge_unfiltered {e : PinEdge} (hglitch : glitch s p = 0) (hpast : ∀ x ∈ s.gheler.pulses, x.last ≤ s.now) :
    pulseEdge p e s = { s with gheler := { s.gheler with pulses := upd s.gheler.pulses p (edgeTaken (countsEdge s p e) s.now) } } := by
  unfold pulseEdge
  dsimp only
  rw [hglitch]
  refine congrArg (fun l => { s with gheler := { s.gheler with pulses := l } }) (upd_congr_mem fun x hx => ?_)
  have hlast := hpast x hx
  rw [if_neg (by omega)]
  rfl

theorem auxFreeSample_clause {k : Int} (hread : isRead s (0x40 + i) = false) (hdue : s.gheler.auxAt.getD i 0 < (tick dt s).now / 4000 * 4000)
    (hend : endCode (adcCode k) = false) : exec (.auxFreeSample dt i k) s = .next { tick dt s with
      gheler := { s.gheler with auxAt := upd s.gheler.auxAt i (fun _ => (tick dt s).now / 4000 * 4000), aux := upd s.gheler.aux i fun _ => adcCode k } } := by
  have hfree : ¬(isRead (tick dt s) (0x40 + i) = true ∨ (tick dt s).now / 4000 * 4000 ≤ (tick dt s).gheler.auxAt.getD i 0) := by
    rintro (h | h)
    · rw [show isRead (tick dt s) (0x40 + i) = isRead s (0x40 + i) from rfl, hread] at h
      cases h
    · exact absurd hdue (Nat.not_lt.2 h)
  have haux : decide (0x40 ≤ 0x40 + i) = true := decide_eq_true (Nat.le_add_right _ _)
  refine (congrArg Host.Outcome.next (if_neg hfree)).trans ?_
  unfold takeCode
  simp only [haux, if_true, hend, Bool.not_false, Nat.add_sub_cancel_left]
  rfl


/-! ### The obligation -/

/-- Settles O47: an update drives the code its channel's state gives, and each pin command has its one effect. -/
theorem outputsAndPinsFollowTheirGrid : Obligations.OutputsAndPinsFollowTheirGrid := by
  unfold Obligations.OutputsAndPinsFollowTheirGrid
  refine ⟨fun dt c s => ⟨fun h => exec_aoutUpdate_early h, fun x hdue hrun hon hcfg hnew happlied hfollows hheld hzero hpin hlow =>
      aoutUpdate_run hdue hrun hon hcfg hnew happlied hfollows hheld hzero hpin hlow,
    fun hdue hramp hgoes hzero hpin hlow => aoutUpdate_ramp hdue hramp hgoes hzero hpin hlow, fun hdue hoff hcode => aoutUpdate_off hdue hoff hcode,
    fun hramp hlast hdue => rampEnd_clause hramp hlast hdue, fun h => exec_rampEnd_idle h, fun v hc hle => ?_⟩, fun dt c s =>
    ⟨fun hrun hhold hdue hlive => exec_spSafe_due hrun hhold hdue hlive, fun v => aoutRange_clause, fun p e hglitch hpast => ?_, fun i k h => ?_,
      fun i k hread hdue hend => auxFreeSample_clause hread hdue hend⟩⟩
  · rw [writeAout_clamped hc]
    exact clampCode_between hle
  · exact congrArg Host.Outcome.next (pulseEdge_unfiltered (s := tick dt s) hglitch hpast)
  · exact congrArg Host.Outcome.next (if_pos h)

end Sys2Proof.Machine
end

section
/-!
PROOFS. Packets of the Ethernet ports and the ports' own answers (chapter 7).
-/

namespace Sys2Proof.Machine
variable {s t u : State} {dt k x h a : Nat} {p : EthPkt} {f : Flow}

/-! ### Flows by context -/

theorem setKey_setKey {α β : Type} [BEq α] [LawfulBEq α] {i : α} {v w : β} {l : List (α × β)} : setKey i w (setKey i v l) = setKey i w l := by
  induction l with
  | nil => simp [setKey]
  | cons e l ih =>
    simp only [setKey]
    split
    · simp [setKey]
    · next hne => simp only [setKey, hne, Bool.false_eq_true, if_false, ih]

theorem setFlow_setFlow {g : Flow} : setFlow x g (setFlow x f s) = setFlow x g s :=
  congrArg (fun l => { s with ingest := { s.ingest with flows := l } }) setKey_setKey

theorem flowOf_setFlow_same : flowOf (setFlow x f s) x = some f := getKey_setKey_same
theorem flowOf_setFlow_ne {y : Nat} (hy : y ≠ x) : flowOf (setFlow x f s) y = flowOf s y := getKey_setKey_ne hy

theorem modFlow_some {g : Flow → Flow} (hf : flowOf s x = some f) : modFlow x g s = setFlow x (g f) s := by
  unfold modFlow
  rw [hf]

/-! ### Packets of a running port -/

theorem exec_ethPacket_unfit (hruns : ethRuns s k = true) (hfits : ethFits s k p = false) :
    exec (.ethPacket dt k p) s = .next (ethDrop k (tick dt s)) := by
  change execEthPacket dt k p s = _
  unfold execEthPacket
  dsimp only
  rw [if_neg (by rw [show ethRuns (tick dt s) k = ethRuns s k from rfl, hruns]; exact Bool.false_ne_true),
    if_pos (by rw [show ethFits (tick dt s) k p = ethFits s k p from rfl, hfits]; rfl)]

theorem exec_ethPacket_fits (hno : NoFaults s) (hruns : ethRuns s k = true) (hfits : ethFits s k p = true) :
    exec (.ethPacket dt k p) s = .next (ethReceived k p (tick dt s).now (tick dt s)) := by
  have hno' : NoFaults (tick dt s) := hno
  change execEthPacket dt k p s = _
  unfold execEthPacket
  dsimp only
  rw [if_neg (by rw [show ethRuns (tick dt s) k = ethRuns s k from rfl, hruns]; exact Bool.false_ne_true),
    if_neg (by rw [show ethFits (tick dt s) k p = ethFits s k p from rfl, hfits]; exact Bool.false_ne_true)]
  simp only [meetFaults_none hno']
  exact congrArg Host.Outcome.next (throughPoint_none hno')

theorem ethReceived_unclaimed (hcls : p.cls ≠ 2) (hmatch : matchFlow s k p = none) : ethReceived k p a s = ethDrop k s := by
  unfold ethReceived
  rw [if_neg hcls, hmatch]

theorem ethReceived_claimed (hcls : p.cls ≠ 2) (hmatch : matchFlow s k p = some (x, false)) :
    ethReceived k p a s = flowPacket x k a false p (pathHeard x k false s) := by
  unfold ethReceived
  rw [if_neg hcls, hmatch]

/-- A flow that has heard its primary path. -/
def heardPri (n : Nat) (f : Flow) : Flow := { f with pathPri := true, lastPri := n }

theorem pathHeard_pri (hf : flowOf s x = some f) (hlost : f.lostPri = false) : pathHeard x k false s = setFlow x (heardPri s.now f) s := by
  unfold pathHeard
  rw [hf]
  simp only [Bool.false_eq_true, if_false, hlost]
  rw [heardPri, ← hlost]

theorem rowsOutside_heard {n : Nat} : rowsOutside (setFlow x (heardPri n f) s) (heardPri n f) p = rowsOutside s f p := rfl

/-- A packet of its open frame that repeats a sequence number. -/
theorem flowPacket_duplicate {o : OpenFrame} (hf : flowOf s x = some f) (hpt : p.pt = f.cfg.pt) (hrows : rowsOutside s f p = false)
    (hstarved : ofStarved f p.rtp = false) (hlate : isLate f p.rtp = false) (hopen : f.openFrame = some o) (hrtp : o.rtp = p.rtp)
    (hcut : o.cut = false) (hseq : o.seqs.contains p.seq = true) : flowPacket x k a false p s = setFlow x { f with dup := bump f.dup } s := by
  unfold flowPacket
  rw [hf]
  dsimp only
  rw [if_neg (by rw [hrows]; simp [hpt]), hstarved, hlate, hopen]
  simp only [Bool.false_eq_true, if_false, hrtp, if_true, hcut, hseq]

theorem ethPacket_duplicate {o : OpenFrame} (hno : NoFaults s) (hruns : ethRuns s k = true) (hfits : ethFits s k p = true) (hcls : p.cls ≠ 2)
    (hmatch : matchFlow s k p = some (x, false)) (hf : flowOf s x = some f) (hpt : p.pt = f.cfg.pt) (hrows : rowsOutside s f p = false)
    (hstarved : ofStarved f p.rtp = false) (hlate : isLate f p.rtp = false) (hopen : f.openFrame = some o) (hrtp : o.rtp = p.rtp)
    (hcut : o.cut = false) (hseq : o.seqs.contains p.seq = true) (hlost : f.lostPri = false) : exec (.ethPacket dt k p) s =
      .next (setFlow x { f with pathPri := true, lastPri := (tick dt s).now, dup := bump f.dup } (tick dt s)) := by
  have hclaimed := ethReceived_claimed (s := tick dt s) (a := (tick dt s).now) hcls hmatch
  rw [pathHeard_pri (s := tick dt s) hf hlost] at hclaimed
  have hdup := flowPacket_duplicate (s := setFlow x (heardPri (tick dt s).now f) (tick dt s)) (x := x) (k := k) (a := (tick dt s).now) (p := p) flowOf_setFlow_same
    hpt (rowsOutside_heard.trans hrows) hstarved hlate hopen hrtp hcut hseq
  rw [exec_ethPacket_fits hno hruns hfits, hclaimed, hdup, setFlow_setFlow]
  rfl

/-! ### The first packet of a flow -/

theorem endGroup_unlogged (hf : flowOf s x = some f) (hlog : f.cfg.stampLog = false) : ∃ v, endGroup x s = v ∧
    flowOf v x = some { f with group := none } ∧ (v = s ∨ v = setFlow x { f with group := none } s) := by
  unfold endGroup
  rw [hf]
  cases hgroup : f.group with
  | none =>
    refine ⟨s, by simp [hgroup], ?_, .inl rfl⟩
    rw [hf, ← hgroup]
  | some g =>
    refine ⟨setFlow x { f with group := none } s, ?_, flowOf_setFlow_same, .inr rfl⟩
    simp only [Option.bind_some, hgroup]
    rw [modFlow_some hf]
    unfold logGroup
    rw [flowOf_setFlow_same]
    simp [hlog]


/-- The first frame of a flow. -/
def firstFrame (h rtp a : Nat) : OpenFrame :=
  { number := 0, exh := some h, tStart := a, rtp := rtp, got := [], endSeen := false, lastLine := none, anc := 0, seqs := [], first := none, cut := false }

/-- A flow that begins its first frame. -/
def flowBegun (h rtp a : Nat) (f : Flow) : Flow :=
  let fresh := f.fresh.filter fun x => some h ≠ some x.2.1
  { f with
    frameNo := 0, begunAny := true, lastStart := a, lastRtp := rtp, openFrame := some (firstFrame h rtp a), nextSeq := none,
    frames := (rtp, 0) :: f.frames, fresh := fresh, newest := fresh.head?.map (·.2), starveRun := false }

/-- What the packets of one flow reach: the flow, and the exhibits of its chain. -/
structure FlowOnly (x : Nat) (s t : State) : Prop where
  others : ∀ y, y ≠ x → flowOf t y = flowOf s y
  within : Within [.ingest, .exhibits] s t

theorem flowOnly_refl : FlowOnly x s s := ⟨fun _ _ => rfl, within_refl⟩
theorem FlowOnly.then (h1 : FlowOnly x s t) (h2 : FlowOnly x t u) : FlowOnly x s u :=
  ⟨fun y hy => (h2.others y hy).trans (h1.others y hy), h1.within.then h2.within⟩
theorem flowOnly_setFlow : FlowOnly x s (setFlow x f s) := ⟨fun _ hy => flowOf_setFlow_ne hy, within_setFlow.mono (by decide)⟩

theorem flowOf_modExh {g : Exhibit → Exhibit} {y : Nat} : flowOf (modExh h g s) y = flowOf s y := by
  unfold modExh
  split <;> rfl

theorem flowOnly_modExh {g : Exhibit → Exhibit} : FlowOnly x s (modExh h g s) := ⟨fun _ _ => flowOf_modExh, within_modExh.mono (by decide)⟩

theorem flowOnly_endGroup (hf : flowOf s x = some f) (hlog : f.cfg.stampLog = false) : FlowOnly x s (endGroup x s) := by
  obtain ⟨v, hv, -, h | h⟩ := endGroup_unlogged hf hlog
  · rw [hv, h]
    exact flowOnly_refl
  · rw [hv, h]
    exact flowOnly_setFlow

theorem flowOf_endGroup (hf : flowOf s x = some f) (hlog : f.cfg.stampLog = false) : flowOf (endGroup x s) x = some { f with group := none } := by
  obtain ⟨v, hv, hflow, -⟩ := endGroup_unlogged hf hlog
  exact hv ▸ hflow

theorem adm_endGroup (hf : flowOf s x = some f) (hlog : f.cfg.stampLog = false) : (endGroup x s).adm = s.adm := by
  obtain ⟨v, hv, -, h | h⟩ := endGroup_unlogged hf hlog
  · rw [hv, h]
  · rw [hv, h]
    rfl

theorem startFrame_first {rtp : Nat} (hf : flowOf s x = some f) (hlog : f.cfg.stampLog = false) (hlive : f.state = .live)
    (hnew : f.begunAny = false) (hopen : f.openFrame = none) (hpick : pickExh s f.cfg = some h) : startFrame x rtp a s =
      modExh h (fun e => { e with state := .filling }) (setFlow x (flowBegun h rtp a { f with group := none }) (endGroup x s)) := by
  have hpick' : pickExh (endGroup x s) f.cfg = some h := by
    rw [← hpick]
    unfold pickExh exhOf
    rw [adm_endGroup hf hlog]
  unfold startFrame
  dsimp only
  rw [flowOf_endGroup hf hlog]
  dsimp only
  simp only [hlive, if_true, hpick', hnew, hopen, Flow.nextNumber, Bool.false_eq_true, and_false, if_false, Option.isNone_some]
  rfl

theorem takePacket_first {o : OpenFrame} (hf : flowOf s x = some f) (hopen : f.openFrame = some o) (hlog : f.cfg.stampLog = false)
    (hsource : f.cfg.source = 0) (hrows : p.rows = []) (hgot : o.got = []) : takePacket x a false p s = setFlow x { f with
      openFrame := some { o with seqs := p.seq :: o.seqs, endSeen := o.endSeen || p.marker }
      nextSeq := if p.marker then some ((p.seq + 1) % 2 ^ 32) else f.nextSeq } s := by
  unfold takePacket
  rw [hf]
  dsimp only
  rw [hopen]
  dsimp only
  rw [if_neg (by rw [hsource]; decide), hrows]
  simp only [hlog, Bool.false_eq_true, if_false]
  change (if Option.any frameFull (flowOf (setFlow x _ s) x) = true then _ else setFlow x _ s) = _
  rw [flowOf_setFlow_same]
  exact if_neg (by simp [frameFull, hgot])


/-- The packet that begins a flow's first frame. -/
theorem flowPacket_first (hf : flowOf s x = some f) (hpt : p.pt = f.cfg.pt) (hsource : f.cfg.source = 0)
    (hrows : p.rows = []) (hstarved : ofStarved f p.rtp = false) (hlate : isLate f p.rtp = false) (hopen : f.openFrame = none)
    (hclosing : f.closing = none) (hlive : f.state = .live) :
    flowPacket x k a false p s = takePacket x a false p (startFrame x p.rtp a s) := by
  have hinside : rowsOutside s f p = false := by
    unfold rowsOutside
    rw [if_neg (by rw [hsource]; decide), hrows]
    rfl
  have hgoes : stopAtStart x s = (false, s) := by
    unfold stopAtStart
    rw [hf]
    dsimp only
    rw [hclosing]
    rfl
  unfold flowPacket
  rw [hf]
  dsimp only
  rw [if_neg (by rw [hinside]; simp [hpt]), hstarved, hlate, hopen]
  unfold flowPacket.begin_
  dsimp only
  rw [hgoes, hlive]
  simp

theorem pickExh_eq {c : FlowCfg} (h : t.adm.exhibits = s.adm.exhibits) : pickExh t c = pickExh s c := by
  unfold pickExh exhOf
  rw [h]

theorem ethPacket_first {e : Exhibit} (hno : NoFaults s) (hruns : ethRuns s k = true) (hfits : ethFits s k p = true) (hcls : p.cls ≠ 2) (hrows : p.rows = [])
    (hmatch : matchFlow s k p = some (x, false)) (hf : flowOf s x = some f) (hpt : p.pt = f.cfg.pt) (hsource : f.cfg.source = 0)
    (hlog : f.cfg.stampLog = false) (hstarved : ofStarved f p.rtp = false) (hlate : isLate f p.rtp = false) (hopen : f.openFrame = none)
    (hclosing : f.closing = none) (hlive : f.state = .live) (hnew : f.begunAny = false) (hlost : f.lostPri = false)
    (hpick : pickExh s f.cfg = some h) (he : exhOf s h = some e) : ∃ t, exec (.ethPacket dt k p) s = .next t ∧
      (∃ g o, flowOf t x = some g ∧ g.frameNo = 0 ∧ g.openFrame = some o ∧ o.number = 0 ∧ o.exh = some h ∧
        o.seqs = [p.seq] ∧ o.tStart = (tick dt s).now) ∧ exhOf t h = some { e with state := .filling } ∧
      (∀ y, y ≠ x → flowOf t y = flowOf s y) ∧ t = { tick dt s with ingest := t.ingest, adm := t.adm } := by
  have hclaimed := ethReceived_claimed (s := tick dt s) (a := (tick dt s).now) hcls hmatch
  rw [pathHeard_pri (s := tick dt s) hf hlost] at hclaimed
  generalize hv : setFlow x (heardPri (tick dt s).now f) (tick dt s) = v at hclaimed
  have hvflow : flowOf v x = some (heardPri (tick dt s).now f) := hv ▸ flowOf_setFlow_same
  have hvpick : pickExh v f.cfg = some h := by rw [← hv]; exact hpick
  have hvexh : exhOf v h = some e := by rw [← hv]; exact he
  have hvonly : FlowOnly x (tick dt s) v := hv ▸ flowOnly_setFlow
  have hstarts := flowPacket_first (k := k) (a := (tick dt s).now) (p := p) hvflow hpt hsource hrows hstarved hlate hopen hclosing hlive
  rw [startFrame_first hvflow hlog hlive hnew hopen hvpick] at hstarts
  generalize hg : flowBegun h p.rtp (tick dt s).now { heardPri (tick dt s).now f with group := none } = g at hstarts
  have hgopen : g.openFrame = some (firstFrame h p.rtp (tick dt s).now) := hg ▸ rfl
  have htaken := takePacket_first (s := modExh h (fun e => { e with state := .filling }) (setFlow x g (endGroup x v))) (a := (tick dt s).now) (p := p)
    (flowOf_modExh.trans flowOf_setFlow_same) hgopen (by rw [← hg]; exact hlog) (by rw [← hg]; exact hsource) hrows rfl
  have hexec := (exec_ethPacket_fits hno hruns hfits).trans (congrArg Host.Outcome.next (hclaimed.trans (hstarts.trans htaken)))
  refine ⟨_, hexec, ⟨_, _, flowOf_setFlow_same, ?_, rfl, rfl, rfl, rfl, rfl⟩, ?_, ?_, ?_⟩
  · rw [← hg]
    rfl
  · refine ((within_setFlow.exhOf (by decide) h).trans ?_)
    have hstill : exhOf (setFlow x g (endGroup x v)) h = some e := by
      rw [← hvexh]
      exact congrArg (fun a : Admission => getKey h a.exhibits) (adm_endGroup hvflow hlog)
    rw [modExh_some hstill]
    exact exhOf_setExh_same
  all_goals have hall : ∀ i, FlowOnly x (tick dt s) (setFlow x i (modExh h (fun e => { e with state := .filling }) (setFlow x g (endGroup x v)))) := fun i =>
    (((hvonly.then (flowOnly_endGroup hvflow hlog)).then flowOnly_setFlow).then flowOnly_modExh).then flowOnly_setFlow
  · exact (hall _).others
  · exact within_eq ((hall _).within.mono (by decide) : Within [.ingest, .exhibits, .items, .transfers, .caps, .adm] (tick dt s) _)

/-! ### The port's own answers -/

theorem exec_ethArpIcmp_runs {arp : Bool} (hno : NoFaults s) (hruns : ethRuns s k = true) : exec (.ethArpIcmp dt k a arp) s = .next (if a = ethAddr s k then
    emit (.eth k (ethVlan s k) (if arp then .arp a else .icmp a)) (tick dt s) else tick dt s) := by
  have hno' : NoFaults (tick dt s) := hno
  change execEthArpIcmp dt k a arp s = _
  unfold execEthArpIcmp
  dsimp only
  rw [if_neg (by rw [show ethRuns (tick dt s) k = ethRuns s k from rfl, hruns]; exact Bool.false_ne_true)]
  simp only [meetFaults_none hno']
  exact congrArg Host.Outcome.next (throughPoint_none hno')

theorem exec_ethLinkChange_runs {link fec : Bool} (hno : NoFaults s) (hruns : ethRuns s k = true) :
    exec (.ethLinkChange dt k link fec) s = .next (modEth k (fun e => { e with link := link, fec := fec && link }) (tick dt s)) := by
  have hno' : NoFaults (tick dt s) := hno
  change execEthLinkChange dt k link fec s = _
  unfold execEthLinkChange
  dsimp only
  rw [show ethRuns (tick dt s) k = ethRuns s k from rfl, hruns, loseHeld_none hno', ite_self, Bool.and_true]

/-! ### The obligation -/

/-- Settles O28: what a packet does is told by the flow that claims it; the ports answer for themselves. -/
theorem ethernetPacketsReachTheirFlow : Obligations.EthernetPacketsReachTheirFlow := by
  unfold Obligations.EthernetPacketsReachTheirFlow
  refine ⟨fun dt k p s hno hruns => ⟨fun hfits => exec_ethPacket_unfit hruns hfits, fun hfits hcls hmatch => ?_,
    fun x f o hfits hcls hmatch hf hpt hrows hstarved hlate hopen hrtp hcut hseq hlost =>
      ethPacket_duplicate hno hruns hfits hcls hmatch hf hpt hrows hstarved hlate hopen hrtp hcut hseq hlost,
    fun x f h e hfits hcls hrows hmatch hf hpt hsource hlog hstarved hlate hopen hclosing hlive hnew hlost hpick he =>
      ethPacket_first hno hruns hfits hcls hrows hmatch hf hpt hsource hlog hstarved hlate hopen hclosing hlive hnew hlost hpick he⟩,
    fun dt k a arp link fec s hno hruns => ⟨exec_ethArpIcmp_runs hno hruns, exec_ethLinkChange_runs hno hruns⟩⟩
  exact (exec_ethPacket_fits hno hruns hfits).trans (congrArg Host.Outcome.next (ethReceived_unclaimed (s := tick dt s) hcls hmatch))

end Sys2Proof.Machine
end

section
/-!
PROOFS. The timebase (chapter 6): PTP_CFG, STAMP_READ, PTP messages, Delay_Req, the end of a slew and of an Announce timeout.
-/

namespace Sys2Proof.Machine
variable {s t u b : State} {dt k n : Nat} {d : Desc} {m : PtpMsg}

/-! ### Steps of the timebase -/

theorem within_modTime {f : Timebase → Timebase} : Within [.time, .keeperPos] s (modTime f s) := within_of_eq rfl (by decide)

/-- What leaving a lock reaches. -/
def epochParts : List StatePart := [.gheler, .chans, .sps, .heads, .pstate, .power, .training, .ports]

theorem moveIntlk_zero {p : Power} : moveIntlk 0 p = p := by
  unfold moveIntlk
  have hkeep : ∀ n : Nat, ((n : Int) + 0).toNat = n := fun n => by omega
  simp only [hkeep]
  by_cases h : p.intlkRise = 0
  · rw [if_pos h, ← h]
  · rw [if_neg h]

/-- A move of the epoch by nothing reaches the heads alone. -/
theorem epochMove_zero : epochMove 0 s = { s with heads := s.heads.map (moveHead 0) } := by
  unfold epochMove
  simp only [if_true, moveIntlk_zero, ite_self]

theorem within_epochMove_zero : Within [.heads] s (epochMove 0 s) := by
  rw [epochMove_zero]
  exact within_of_eq rfl (by decide)

theorem within_degradeLocks : Within [.locks, .ledger] s (degradeLocks s) :=
  within_forEach fun _ _ => within_ite within_refl ((within_trans within_modLock within_recordAt).mono (by decide))

theorem degradeLocks_none (h : ∀ k, (lockOf s k).role = 0) : degradeLocks s = s := forEach_idle fun k _ => if_pos (.inl (h k))

theorem loseLock_locked {cause : Nat} (h : s.time.state = .locked) : loseLock cause s =
    degradeLocks (epochMove 0 (record 4 0x0602 (u8 cause) (modTime (fun t => { t with state := .holdover, good := 0, bad := 0 }) s))) := by
  unfold loseLock
  rw [h]

theorem loseLock_powerOn {cause : Nat} (h : s.time.state = .powerOn) : loseLock cause s = s := by
  unfold loseLock
  rw [h]

/-! ### PTP_CFG -/

theorem exec_ptpCfg_accepted (h : Runs (.ptpCfg dt d) s) : exec (.ptpCfg dt d) s =
    .next (orElseDo d.trunc (ptpCheck d.trunc (begun d d.trunc (tick dt s))) (applyPtp d.trunc) (begun d d.trunc (tick dt s))) :=
  congrArg Host.Outcome.next (runDesc_accepted h)

/-- The source and ports of a PTP_CFG in force. -/
def ptpSet (d : Desc) (changed : Bool) (t : Timebase) : Timebase :=
  { t with
    source := d.p8 16, state := if changed && d.p8 16 == 0 then t.fallen else t.state, portPri := d.p8 17
    portSec := if d.p8 18 = 0xFF then none else some (d.p8 18), domain := d.p8 19, annTimeout := d.p8 20, dscp := d.p8 21, vlan := d.p16 22
    port := d.p8 17, lastSync := none, syncTs := [], reqSent := none, pathDelay := none, other := PtpPath.fresh 0, masters := [], parent := 0
    secGm := none }

/-- A PTP_CFG told: to the groups of its ports, by the record of a new source, and by its completion. -/
def ptpTold (d : Desc) (changed : Bool) (old : List Nat) (s : State) : State :=
  let new := s.time.ptpPorts
  let u := ptpGroup true (new.filter fun p => !old.contains p) (ptpGroup false (old.filter fun p => !new.contains p) s)
  complete d 0 [] (if changed then timeSource u else u)

theorem applyPtp_eq : applyPtp d s = (let changed := decide (s.time.source ≠ d.p8 16)
    ptpTold d changed s.time.ptpPorts (modTime (ptpSet d changed) (if changed then loseLock 4 s else s))) := rfl

theorem within_ptpGroup {join : Bool} {l : List Nat} : Within [.out] s (ptpGroup join l s) := within_forEach fun _ _ => within_igmpReport

theorem within_ptpTold {changed : Bool} {old : List Nat} : Within replyParts s (ptpTold d changed old s) := by
  unfold ptpTold
  extract_lets new u
  have hu : Within [.out] s u := within_ptpGroup.then within_ptpGroup
  refine Within.then ?_ within_complete
  exact within_ite ((within_trans hu within_timeSource).mono (by decide)) (hu.mono (by decide))

theorem ptpTold_time {changed : Bool} {old : List Nat} : (ptpTold d changed old s).time = s.time := within_ptpTold.apply State.time rfl


theorem ptpCfg_clause (hrun : Runs (.ptpCfg dt d) s) (hcheck : ptpCheck d.trunc (begun d d.trunc (tick dt s)) = none) :
    ∃ t, exec (.ptpCfg dt d) s = .next t ∧
      t.time.source = d.trunc.p8 16 ∧ t.time.portPri = d.trunc.p8 17 ∧ t.time.domain = d.trunc.p8 19 ∧
      t.time.annTimeout = d.trunc.p8 20 ∧ t.time.dscp = d.trunc.p8 21 ∧ t.time.vlan = d.trunc.p16 22 ∧
      t.time.pathDelay = none ∧ t.time.lastSync = none ∧
      (s.time.source = d.trunc.p8 16 → OnlyReply { s with time := t.time } t) := by
  have hb : Within (clockParts ++ replyParts) s (begun d d.trunc (tick dt s)) := within_tick_begun
  have hsource : (begun d d.trunc (tick dt s)).time.source = s.time.source := begun_apply (fun s => s.time.source) rfl
  have hexec := exec_ptpCfg_accepted hrun
  rw [hcheck] at hexec
  generalize begun d d.trunc (tick dt s) = b at hb hsource hexec
  refine ⟨applyPtp d.trunc b, hexec, ?_⟩
  rw [applyPtp_eq]
  dsimp only
  rw [ptpTold_time]
  refine ⟨rfl, rfl, rfl, rfl, rfl, rfl, rfl, rfl, fun hsame => ?_⟩
  have hset : (if decide (b.time.source ≠ d.trunc.p8 16) = true then loseLock 4 b else b) = b :=
    if_neg (by rw [hsource, hsame]; simp)
  rw [hset]
  have hall : Within ([.time, .keeperPos] ++ (clockParts ++ replyParts)) s (ptpTold d.trunc (decide (b.time.source ≠ d.trunc.p8 16)) b.time.ptpPorts
      (modTime (ptpSet d.trunc (decide (b.time.source ≠ d.trunc.p8 16))) b)) :=
    (within_trans (within_trans hb within_modTime) within_ptpTold).mono (by decide)
  have hpatch := onlyReply_patch hall (by decide)
  have htime := ptpTold_time (s := modTime (ptpSet d.trunc (decide (b.time.source ≠ d.trunc.p8 16))) b) (d := d.trunc)
    (changed := decide (b.time.source ≠ d.trunc.p8 16)) (old := b.time.ptpPorts)
  generalize ptpTold d.trunc (decide (b.time.source ≠ d.trunc.p8 16)) b.time.ptpPorts
      (modTime (ptpSet d.trunc (decide (b.time.source ≠ d.trunc.p8 16))) b) = t at hpatch htime ⊢
  rw [← htime]
  exact hpatch

/-! ### STAMP_READ -/

theorem stampRead_clause (hrun : Runs (.stampRead dt d) s) : ∃ t, exec (.stampRead dt d) s = .next t ∧
    t = completeAt (tick dt s).now d.trunc 0 (u16 (tmbStat s) ++ u16 s.time.utc) (begun d d.trunc (tick dt s)) ∧ OnlyReply s t := by
  have hexec : exec (.stampRead dt d) s = .next (complete d.trunc 0 (u16 (tmbStat (begun d d.trunc (tick dt s))) ++ u16 (begun d d.trunc (tick dt s)).time.utc)
      (begun d d.trunc (tick dt s))) := congrArg Host.Outcome.next (runDesc_accepted hrun)
  have hstat : tmbStat (begun d d.trunc (tick dt s)) = tmbStat s := begun_apply tmbStat rfl
  have hutc : (begun d d.trunc (tick dt s)).time.utc = s.time.utc := begun_apply (fun s => s.time.utc) rfl
  have hnow : (begun d d.trunc (tick dt s)).now = (tick dt s).now := begun_now
  rw [hstat, hutc] at hexec
  refine ⟨_, hexec, ?_, onlyReply_trans onlyReply_tick_begun onlyReply_complete⟩
  unfold complete
  rw [hnow]

/-! ### PTP messages -/

theorem exec_ptpMessage_none (hno : NoFaults s) : exec (.ptpMessage dt m) s = .next (ptpReceived m (tick dt s).now (tick dt s)) := by
  have hno' : NoFaults (tick dt s) := hno
  change execPtpMessage dt m s = _
  unfold execPtpMessage
  dsimp only
  simp only [meetFaults_none hno']
  exact congrArg Host.Outcome.next (throughPoint_none hno')

theorem ptpReceived_untagged (h : m.vlan ≠ ethVlan s m.port) : ptpReceived m n s =
    { s with ingest := { s.ingest with eth := upd s.ingest.eth m.port fun e => { e with drop := bump e.drop } } } := if_pos h

/-- A PTP message that came in tagged on a named port. -/
def ptpTagged (m : PtpMsg) (n : Nat) (s : State) : State :=
    if !ptpSupported m then modTime (fun t => { t with ptpDrop := bump t.ptpDrop }) s
    else if m.domain ≠ s.time.domain then s
    else match m.kind with
      | .announce => announced m s
      | .syncOne => syncTimed m m.origin.stamp n s
      | .syncTwo => modTime (fun t => { t with syncTs := waitFollowUp m n t.syncTs }) s
      | .followUp => followedUp m s
      | .delayResp => delayAnswered m s
      | .other => s

theorem ptpReceived_tagged (hsource : s.time.source = 1) (hport : m.port = s.time.portPri) (hvlan : m.vlan = ethVlan s m.port) :
    ptpReceived m n s = ptpTagged m n s := by
  unfold ptpReceived
  dsimp only
  rw [if_neg (fun h => h hvlan), if_neg (by rw [hsource, hport]; simp)]
  rfl

theorem ptpTagged_unsupported (h : ptpSupported m = false) : ptpTagged m n s = modTime (fun t => { t with ptpDrop := bump t.ptpDrop }) s :=
  if_pos (by rw [h]; rfl)

theorem ptpTagged_sync (hsupported : ptpSupported m = true) (hdomain : m.domain = s.time.domain) (hkind : m.kind = .syncTwo) :
    ptpTagged m n s = modTime (fun t => { t with syncTs := waitFollowUp m n t.syncTs }) s := by
  unfold ptpTagged
  rw [if_neg (by rw [hsupported]; decide), if_neg fun h => h hdomain, hkind]

theorem ptpTagged_announce (hsupported : ptpSupported m = true) (hdomain : m.domain = s.time.domain) (hkind : m.kind = .announce) :
    ptpTagged m n s = announced m s := by
  unfold ptpTagged
  rw [if_neg (by rw [hsupported]; decide), if_neg fun h => h hdomain, hkind]

theorem tick_time_field {α : Type} {g : Timebase → α} (hg : ∀ t k, g { t with keeperPos := k } = g t) : g (tick dt s).time = g s.time :=
  (congrArg g tick_time).trans (hg _ _)

/-- The timebase that a tick leaves for a message: its named ports, its domain and its state. -/
theorem tick_named : (tick dt s).time.source = s.time.source ∧ (tick dt s).time.portPri = s.time.portPri ∧ (tick dt s).time.domain = s.time.domain ∧
    (tick dt s).time.state = s.time.state :=
  ⟨tick_time_field fun _ _ => rfl, tick_time_field fun _ _ => rfl, tick_time_field fun _ _ => rfl, tick_time_field fun _ _ => rfl⟩

theorem bestMaster_mem {x : Timebase} {now : Nat} {f : Foreign} (h : bestMaster x now = some f) : f ∈ x.masters := by
  refine (List.mem_filter.1 (?_ : f ∈ x.masters.filter (·.counts x now))).1
  revert f
  unfold bestMaster
  refine List.foldlRecOn (motive := fun o => ∀ {f}, o = some f → f ∈ x.masters.filter (·.counts x now)) _ _ (fun h => by cases h) fun o ho g hg f hf => ?_
  cases o with
  | none =>
    cases hf
    exact hg
  | some y =>
    dsimp only at hf
    split at hf
    · cases hf
      exact hg
    · exact ho hf

/-- The best master on a port that has just been heard there is the one whose Announce it was. -/
theorem bestMaster_heard {f : Foreign} {now : Nat} (hbest : bestMaster (hearMaster m s).time now = some f) (hport : f.port = m.port)
    (hsender : f.sender = m.sender) : f.data = m.master := by
  have hmem : f ∈ (hearMaster m s).time.masters := bestMaster_mem hbest
  rcases List.mem_append.1 hmem with hold | hnew
  · have hnot := (List.mem_filter.1 hold).2
    simp [hport, hsender] at hnot
  · rw [List.mem_singleton.1 hnew]


/-- A timebase that follows a master heard, not locked before. -/
theorem selectMaster_powerOn {f : Foreign} (hstate : s.time.state = .powerOn) : ∃ x, selectMaster f s = { s with time := x } ∧
    x.state = .powerOn ∧ x.gmId = f.data.gm ∧ x.port = f.port ∧ x.parent = f.sender := by
  have huse : (useMaster f s).time.state = .powerOn := hstate
  unfold selectMaster
  dsimp only
  by_cases hsel : f.selected s.time = true ∧ s.time.gmId = f.data.gm
  · obtain ⟨hsel, hgm⟩ := hsel
    have hboth := hsel
    simp only [Foreign.selected, Bool.and_eq_true, beq_iff_eq] at hboth
    rw [if_pos ⟨hsel, hgm⟩]
    exact ⟨s.time, rfl, hstate, hgm, hboth.1.symm, hboth.2.symm⟩
  · rw [if_neg hsel]
    by_cases hgm : s.time.gmId = f.data.gm
    · rw [if_pos hgm, loseLock_powerOn huse, ite_self]
      exact ⟨(useMaster f s).time, rfl, hstate, rfl, rfl, rfl⟩
    · rw [if_neg hgm]
      simp only [hstate, reduceCtorEq, or_self, decide_false, Bool.false_eq_true, if_false]
      exact ⟨(useMaster f s).time, rfl, hstate, rfl, rfl, rfl⟩

theorem announced_follows {f : Foreign} (hbest : bestMaster (hearMaster m s).time s.now = some f) (hport : f.port = m.port)
    (hsender : f.sender = m.sender) (hstate : s.time.state = .powerOn) : ∃ x, announced m s = { s with time := x } ∧
      x.state = .acquiring ∧ x.gmId = m.master.gm ∧ x.port = m.port ∧ x.parent = m.sender := by
  have hdata := bestMaster_heard hbest hport hsender
  obtain ⟨x, hsel, hx, hgm, hxport, hparent⟩ := selectMaster_powerOn (s := hearMaster m s) (f := f) hstate
  have hbest' : bestMaster (hearMaster m s).time (hearMaster m s).now = some f := hbest
  unfold announced
  dsimp only
  rw [hbest']
  dsimp only
  rw [hsel]
  dsimp only
  rw [hxport, hparent, hport, hsender]
  simp only [ne_eq, not_true_eq_false, or_self, if_false, modTime, hx, true_or, if_true]
  exact ⟨_, rfl, rfl, hgm.trans (congrArg MasterData.gm hdata), hxport.trans hport, hparent.trans hsender⟩

theorem exec_ptpMessage_tagged (hno : NoFaults s) (hsource : s.time.source = 1) (hport : m.port = s.time.portPri)
    (hvlan : m.vlan = ethVlan s m.port) : exec (.ptpMessage dt m) s = .next (ptpTagged m (tick dt s).now (tick dt s)) := by
  obtain ⟨htsource, htport, -, -⟩ := tick_named (s := s) (dt := dt)
  exact (exec_ptpMessage_none hno).trans (congrArg Host.Outcome.next (ptpReceived_tagged (htsource.trans hsource) (hport.trans htport.symm) hvlan))

theorem ptpAnnounce_clause {f : Foreign} (hno : NoFaults s) (hsource : s.time.source = 1) (hport : m.port = s.time.portPri)
    (hvlan : m.vlan = ethVlan s m.port) (hsupported : ptpSupported m = true) (hdomain : m.domain = s.time.domain) (hkind : m.kind = .announce)
    (hbest : bestMaster (hearMaster m (tick dt s)).time (tick dt s).now = some f) (hfport : f.port = m.port) (hsender : f.sender = m.sender)
    (hstate : s.time.state = .powerOn) : ∃ t, exec (.ptpMessage dt m) s = .next t ∧ t.time.state = .acquiring ∧
      t.time.gmId = m.master.gm ∧ t.time.port = m.port ∧ t.time.parent = m.sender ∧ t = { tick dt s with time := t.time } := by
  obtain ⟨-, -, htdomain, htstate⟩ := tick_named (s := s) (dt := dt)
  have htagged := ptpTagged_announce (s := tick dt s) (n := (tick dt s).now) hsupported (hdomain.trans htdomain.symm) hkind
  obtain ⟨x, hx, hacq, hgm, hxport, hparent⟩ := announced_follows (s := tick dt s) hbest hfport hsender (htstate.trans hstate)
  exact ⟨_, (exec_ptpMessage_tagged hno hsource hport hvlan).trans (congrArg Host.Outcome.next (htagged.trans hx)), hacq, hgm, hxport, hparent, rfl⟩

theorem ptpSync_clause (hno : NoFaults s) (hsource : s.time.source = 1) (hport : m.port = s.time.portPri)
    (hvlan : m.vlan = ethVlan s m.port) (hsupported : ptpSupported m = true) (hdomain : m.domain = s.time.domain) (hkind : m.kind = .syncTwo) :
    exec (.ptpMessage dt m) s = .next { tick dt s with
      time := { (tick dt s).time with syncTs := waitFollowUp m (tick dt s).now s.time.syncTs } } := by
  obtain ⟨-, -, htdomain, -⟩ := tick_named (s := s) (dt := dt)
  have hts : (tick dt s).time.syncTs = s.time.syncTs := tick_time_field fun _ _ => rfl
  have htagged := ptpTagged_sync (s := tick dt s) (n := (tick dt s).now) hsupported (hdomain.trans htdomain.symm) hkind
  rw [← hts]
  exact (exec_ptpMessage_tagged hno hsource hport hvlan).trans (congrArg Host.Outcome.next htagged)

theorem ptpUnsupported_clause (hno : NoFaults s) (hsource : s.time.source = 1) (hport : m.port = s.time.portPri)
    (hvlan : m.vlan = ethVlan s m.port) (hsupported : ptpSupported m = false) : exec (.ptpMessage dt m) s = .next { tick dt s with
      time := { (tick dt s).time with ptpDrop := bump s.time.ptpDrop } } := by
  have hdrop : (tick dt s).time.ptpDrop = s.time.ptpDrop := tick_time_field fun _ _ => rfl
  rw [← hdrop]
  exact (exec_ptpMessage_tagged hno hsource hport hvlan).trans (congrArg Host.Outcome.next (ptpTagged_unsupported hsupported))

/-! ### Delay_Req -/

theorem delayReqSend_own (hsource : s.time.source = 1) (hsync : s.time.lastSync ≠ none) (hother : s.time.other.sync = none ∨ s.time.otherPort = none) :
    delayReqSend s = { s with
      time := { s.time with reqSent := some s.now, reqSeq := (s.time.reqSeq + 1) % 65536 }
      out := .eth s.time.port (ethVlan s s.time.port) (.delayReq (ethAddr s s.time.port) s.time.dscp s.time.reqSeq) :: s.out } := by
  have hmine : (s.time.source == 1 && s.time.lastSync.isSome) = true := by
    rw [hsource, Option.isSome_iff_ne_none.2 hsync]
    rfl
  have hits : (s.time.otherPort.filter fun _ => s.time.source == 1 && s.time.other.sync.isSome) = none := by
    rcases hother with h | h
    · rw [h]
      cases s.time.otherPort with
      | none => rfl
      | some p => simp [Option.filter]
    · rw [h]
      rfl
  unfold delayReqSend
  dsimp only
  rw [hmine, hits]
  rfl

theorem delayReqSend_other {p : Nat} (hsource : s.time.source = 1) (hsync : s.time.lastSync = none) (hport : s.time.otherPort = some p)
    (hother : s.time.other.sync ≠ none) : delayReqSend s = { s with
      time := { s.time with other := { s.time.other with sent := some s.now }, reqSeq := (s.time.reqSeq + 1) % 65536 }
      out := .eth p (ethVlan s p) (.delayReq (ethAddr s p) s.time.dscp s.time.reqSeq) :: s.out } := by
  have hmine : (s.time.source == 1 && s.time.lastSync.isSome) = false := by rw [hsync, Option.isSome_none, Bool.and_false]
  have hits : (s.time.otherPort.filter fun _ => s.time.source == 1 && s.time.other.sync.isSome) = some p := by
    rw [hport, hsource, Option.isSome_iff_ne_none.2 hother]
    rfl
  unfold delayReqSend
  dsimp only
  rw [hmine, hits]
  rfl


theorem delayReqSend_own_clause (hsource : s.time.source = 1) (hsync : s.time.lastSync ≠ none) (hother : s.time.other.sync = none ∨ s.time.otherPort = none) :
    exec (.delayReqSend dt) s = .next { tick dt s with
      time := { (tick dt s).time with reqSent := some (tick dt s).now, reqSeq := (s.time.reqSeq + 1) % 65536 }
      out := .eth s.time.port (ethVlan s s.time.port) (.delayReq (ethAddr s s.time.port) s.time.dscp s.time.reqSeq) :: s.out } := by
  have hfield : ∀ {α : Type} (g : Timebase → α), (∀ t k, g { t with keeperPos := k } = g t) → g (tick dt s).time = g s.time := fun g hg => tick_time_field hg
  have hsent := delayReqSend_own (s := tick dt s) ((hfield Timebase.source fun _ _ => rfl).trans hsource)
    (by rw [hfield Timebase.lastSync fun _ _ => rfl]; exact hsync)
    (by rw [hfield (fun t => t.other.sync) fun _ _ => rfl, hfield Timebase.otherPort fun _ _ => rfl]; exact hother)
  rw [hfield Timebase.port fun _ _ => rfl, hfield Timebase.reqSeq fun _ _ => rfl, hfield Timebase.dscp fun _ _ => rfl] at hsent
  exact congrArg Host.Outcome.next hsent

theorem delayReqSend_other_clause {p : Nat} (hsource : s.time.source = 1) (hsync : s.time.lastSync = none) (hport : s.time.otherPort = some p)
    (hother : s.time.other.sync ≠ none) : exec (.delayReqSend dt) s = .next { tick dt s with
      time := { (tick dt s).time with other := { s.time.other with sent := some (tick dt s).now }, reqSeq := (s.time.reqSeq + 1) % 65536 }
      out := .eth p (ethVlan s p) (.delayReq (ethAddr s p) s.time.dscp s.time.reqSeq) :: s.out } := by
  have hfield : ∀ {α : Type} (g : Timebase → α), (∀ t k, g { t with keeperPos := k } = g t) → g (tick dt s).time = g s.time := fun g hg => tick_time_field hg
  have hsent := delayReqSend_other (s := tick dt s) ((hfield Timebase.source fun _ _ => rfl).trans hsource)
    ((hfield Timebase.lastSync fun _ _ => rfl).trans hsync) ((hfield Timebase.otherPort fun _ _ => rfl).trans hport)
    (by rw [hfield (fun t => t.other.sync) fun _ _ => rfl]; exact hother)
  rw [hfield Timebase.other fun _ _ => rfl, hfield Timebase.reqSeq fun _ _ => rfl, hfield Timebase.dscp fun _ _ => rfl] at hsent
  exact congrArg Host.Outcome.next hsent

/-! ### The end of a slew -/

/-- A timebase that has locked. -/
def lockedTime (t : Timebase) : Timebase := { t with state := .locked, everLocked := true, good := 0, bad := 0, slew := 0 }

theorem within_enterLocked : Within [.time, .keeperPos, .ledger, .heads, .locks] s (enterLocked s) := by
  unfold enterLocked
  extract_lets u v w
  have hv : Within [.time, .keeperPos, .ledger] s v := within_trans within_modTime within_recordAt
  exact (within_trans (within_trans hv within_epochMove_zero) (within_forEach fun _ _ => within_modLock)).mono (by decide)

theorem Within.time_eq {m : List StatePart} (h : Within m s t) (hm : .time ∉ m ∧ .keeperPos ∉ m) : t.time = s.time := by
  have hbare : t.time.bare = s.time.bare := h .time hm.1
  have hpos : t.time.keeperPos = s.time.keeperPos := h .keeperPos hm.2
  have hjoin : ∀ x : Timebase, x = { x.bare with keeperPos := x.keeperPos } := fun _ => rfl
  rw [hjoin t.time, hbare, hpos, ← hjoin]

theorem recordAt_time {pf1 : Bool} {a x e : Nat} {det : List Byte} : (recordAt pf1 a x e det s).time = s.time := within_recordAt.time_eq (by decide)

theorem epochMove_zero_time : (epochMove 0 s).time = s.time := within_epochMove_zero.time_eq (by decide)

theorem enterLocked_time : (enterLocked s).time = lockedTime s.time := by
  unfold enterLocked
  extract_lets u v w
  have hlocks : ∀ x, (forEach (List.range 8) (fun k => modLock k fun l => { l with degraded := false }) x).time = x.time := fun x =>
    (within_forEach fun _ _ => within_modLock).time_eq (by decide)
  exact (hlocks w).trans (epochMove_zero_time.trans recordAt_time)

theorem slewDone_clause (hslew : s.time.state = .slewing) (hsource : s.time.source = 1) (hleft : slewLeft (tick dt s) ≤ 400) :
    ∃ t, exec (.slewDone dt) s = .next t ∧ t.time.state = .locked ∧
      t.time.slew = 0 ∧ t.time.everLocked = true ∧ t = { tick dt s with
        time := t.time, ledger := t.ledger, heads := t.heads, catum := { s.catum with locks := t.catum.locks } } := by
  obtain ⟨htsource, -, -, htstate⟩ := tick_named (s := s) (dt := dt)
  have hdone : slewDone (tick dt s) = enterLocked (record 4 0x0605 (u64 ((tick dt s).now - (tick dt s).time.slewStart)) (tick dt s)) := by
    unfold slewDone
    rw [if_neg (by rw [htstate, hslew]; simp; omega), if_neg (by rw [htsource, hsource]; rintro ⟨h, -⟩; cases h)]
  have htime := enterLocked_time (s := record 4 0x0605 (u64 ((tick dt s).now - (tick dt s).time.slewStart)) (tick dt s))
  refine ⟨_, congrArg Host.Outcome.next hdone, ?_, ?_, ?_, ?_⟩
  iterate 3 rw [htime]; rfl
  have hall : Within [.time, .keeperPos, .ledger, .saved, .heads, .locks] (tick dt s)
      (enterLocked (record 4 0x0605 (u64 ((tick dt s).now - (tick dt s).time.slewStart)) (tick dt s))) :=
    (within_trans within_recordAt within_enterLocked).mono (by decide)
  exact within_eq hall

/-! ### The Announce timeout -/

/-- The masters that are not the selected one. -/
def masterGone (t : Timebase) : Timebase := { t with masters := t.masters.filter fun f => !f.selected t }

theorem announceTimeout_loses (hsource : s.time.source = 1) (hstale : ∀ f ∈ s.time.masters, f.selected s.time = true → f.fresh s.time s.now = false)
    (hother : ∀ f ∈ s.time.masters, f.port = s.time.port ∨ secAgrees s.time f.data.gm = false) :
    announceTimeout s = loseLock 1 (modTime masterGone s) := by
  have hnone : (s.time.masters.any fun f => f.selected s.time && f.fresh s.time s.now) = false :=
    List.any_eq_false.2 fun f hf hboth => by
      obtain ⟨hsel, hfresh⟩ := Bool.and_eq_true_iff.1 hboth
      rw [hstale f hf hsel] at hfresh
      cases hfresh
  unfold announceTimeout
  dsimp only
  rw [if_neg (by rw [hsource, hnone]; simp)]
  change (match bestMaster (modTime masterGone s).time s.now with | some f => _ | none => loseLock 1 (modTime masterGone s)) = _
  cases hbest : bestMaster (modTime masterGone s).time s.now with
  | none => rfl
  | some f =>
    refine if_neg fun hagrees => ?_
    rcases hother f (List.mem_filter.1 (bestMaster_mem hbest)).1 with hport | hagree
    · exact hagrees.1 hport
    · rw [hagree] at hagrees
      exact absurd hagrees.2 Bool.false_ne_true


/-- A timebase that has lost its grandmaster. -/
def heldOver (t : Timebase) : Timebase := { t with state := .holdover, good := 0, bad := 0 }

theorem loseLock_frame {cause : Nat} (h : s.time.state = .locked) : (loseLock cause s).time = heldOver s.time ∧
    Within [.time, .keeperPos, .ledger, .heads, .locks] s (loseLock cause s) ∧
    ((∀ k, (lockOf s k).role = 0) → (loseLock cause s).ledger = (record 4 0x0602 (u8 cause) (modTime heldOver s)).ledger) := by
  rw [loseLock_locked h]
  change (degradeLocks (epochMove 0 (record 4 0x0602 (u8 cause) (modTime heldOver s)))).time = _ ∧ Within _ s (degradeLocks (epochMove 0 (record 4 0x0602 (u8 cause) (modTime heldOver s)))) ∧
    (_ → (degradeLocks (epochMove 0 (record 4 0x0602 (u8 cause) (modTime heldOver s)))).ledger = _)
  have hdegrade : ∀ x, (degradeLocks x).time = x.time := fun x => within_degradeLocks.time_eq (by decide)
  refine ⟨(hdegrade _).trans (epochMove_zero_time.trans recordAt_time), ?_, fun hroles => ?_⟩
  · exact (within_trans (within_trans (within_trans within_modTime within_recordAt) within_epochMove_zero) within_degradeLocks).mono (by decide)
  · have hlocks : ∀ k, (lockOf (epochMove 0 (record 4 0x0602 (u8 cause) (modTime heldOver s))) k).role = 0 := fun k => by
      have hrec : ∀ x, lockOf (record 4 0x0602 (u8 cause) x) k = lockOf x k := fun x => within_recordAt.lockOf (by decide) k
      rw [within_epochMove_zero.lockOf (by decide), hrec]
      exact hroles k
    rw [degradeLocks_none hlocks, epochMove_zero]

theorem announceTimeout_clause (hsource : s.time.source = 1) (hlocked : s.time.state = .locked)
    (hstale : ∀ f ∈ s.time.masters, f.selected s.time = true → f.fresh s.time (tick dt s).now = false)
    (hother : ∀ f ∈ s.time.masters, f.port = s.time.port ∨ secAgrees s.time f.data.gm = false) :
    ∃ t, exec (.announceTimeout dt) s = .next t ∧
      t.time = { (tick dt s).time with
        state := .holdover, good := 0, bad := 0, masters := s.time.masters.filter fun f => !f.selected s.time } ∧
      ((∀ k, (lockOf s k).role = 0) → t.ledger = (record 4 0x0602 (u8 1) { tick dt s with time := t.time }).ledger) ∧
      t = { tick dt s with
        time := t.time, ledger := t.ledger, heads := t.heads, catum := { s.catum with locks := t.catum.locks } } := by
  have hfield : ∀ {α : Type} (g : Timebase → α), (∀ t k, g { t with keeperPos := k } = g t) → g (tick dt s).time = g s.time := fun g hg => tick_time_field hg
  have hmasters : (tick dt s).time.masters = s.time.masters := hfield Timebase.masters fun _ _ => rfl
  have hsel : ∀ f : Foreign, f.selected (tick dt s).time = f.selected s.time := fun f => hfield (fun t => f.selected t) fun _ _ => rfl
  have hloses := announceTimeout_loses (s := tick dt s) ((hfield Timebase.source fun _ _ => rfl).trans hsource)
    (fun f hf hs => (hfield (fun t => f.fresh t (tick dt s).now) fun _ _ => rfl).trans (hstale f (hmasters ▸ hf) ((hsel f).symm.trans hs)))
    fun f hf => by
      rw [hfield Timebase.port fun _ _ => rfl, hfield (fun t => secAgrees t f.data.gm) fun _ _ => rfl]
      exact hother f (hmasters ▸ hf)
  obtain ⟨htime, hwithin, hledger⟩ := loseLock_frame (s := modTime masterGone (tick dt s)) (cause := 1) ((hfield Timebase.state fun _ _ => rfl).trans hlocked)
  have hgone : (tick dt s).time.masters.filter (fun f => !f.selected (tick dt s).time) = s.time.masters.filter fun f => !f.selected s.time := by
    simp only [hmasters, hsel]
  refine ⟨_, congrArg Host.Outcome.next hloses, ?_, fun hroles => ?_, ?_⟩
  · rw [htime, ← hgone]
    rfl
  · rw [hledger hroles, htime]
    rfl
  · have hall : Within [.time, .keeperPos, .ledger, .saved, .heads, .locks] (tick dt s) (loseLock 1 (modTime masterGone (tick dt s))) :=
      (within_trans within_modTime hwithin).mono (by decide)
    exact within_eq hall

/-! ### The obligation -/

/-- Settles O26: the settings, the answers and the losses of lock, each by its own command. -/
theorem timeIsKept : Obligations.TimeIsKept := by
  unfold Obligations.TimeIsKept
  refine ⟨fun dt d s hrun => ⟨fun hcheck => ptpCfg_clause hrun hcheck, fun st det hcheck => ?_⟩, fun dt d s hrun => stampRead_clause hrun,
    fun dt m s hno => ⟨fun hvlan => (exec_ptpMessage_none hno).trans (congrArg Host.Outcome.next (ptpReceived_untagged (s := tick dt s) hvlan)),
      fun hsource hport hvlan => ⟨fun hsupported => ptpUnsupported_clause hno hsource hport hvlan hsupported,
        fun hsupported hdomain hkind => ptpSync_clause hno hsource hport hvlan hsupported hdomain hkind,
        fun f hsupported hdomain hkind hbest hfport hsender hstate =>
          ptpAnnounce_clause hno hsource hport hvlan hsupported hdomain hkind hbest hfport hsender hstate⟩⟩,
    fun dt s => ⟨fun hsource hsync hother => delayReqSend_own_clause hsource hsync hother,
      fun p hsource hsync hport hother => delayReqSend_other_clause hsource hsync hport hother,
      fun hslew hsource hleft => slewDone_clause hslew hsource hleft,
      fun hsource hlocked hstale hother => announceTimeout_clause hsource hlocked hstale hother⟩⟩
  rw [exec_ptpCfg_accepted hrun, hcheck]
  rfl

end Sys2Proof.Machine
end

section
/-!
PROOFS. The reference clock, the host link, the interlock and the test access port (chapters 2, 3 and 5).
-/

namespace Sys2Proof.Machine
variable {s t u : State} {dt c j k p n cause : Nat}

/-! ### Every channel off -/

/-- A change that turns no channel on, keeps what has left the module and brings no fault rule. -/
structure OffKept (s t : State) : Prop where
  out : OutKept s t
  free : FaultFree s t
  stays : ∀ c, (chanOf s c).enabled = false → (chanOf t c).enabled = false

theorem offKept_refl : OffKept s s := ⟨outKept_refl, id, fun _ => id⟩
theorem OffKept.then (h1 : OffKept s t) (h2 : OffKept t u) : OffKept s u :=
  ⟨h1.out.then h2.out, h1.free.then h2.free, fun c h => h2.stays c (h1.stays c h)⟩

theorem enabled_of_state {x y : Chan} (h : x.state = y.state) : x.enabled = y.enabled := by rw [Chan.enabled, h, ← Chan.enabled]

theorem DarkKept.off (h : DarkKept s t) : OffKept s t :=
  ⟨h.out, h.free, fun c hc => (enabled_of_state (h.states c)).trans hc⟩

theorem offKept_modChan {f : Chan → Chan} (hf : ∀ ch, ch.enabled = false → (f ch).enabled = false) : OffKept s (modChan c f s) := by
  refine ⟨outKept_refl, id, fun j hj => ?_⟩
  by_cases hjc : j = c
  · subst hjc
    by_cases hlen : j < s.gheler.chans.length
    · rw [chanOf_modChan_same hlen]
      exact hf _ hj
    · rw [modChan, upd, List.modify_eq_self (by omega)]
      exact hj
  · rw [chanOf_modChan_ne hjc]
    exact hj

/-- A channel put to rest is off, and no other one is turned on. -/
theorem chanRest_offKept : OffKept s (chanRest c s) ∧ (chanOf (chanRest c s) c).enabled = false := by
  unfold chanRest
  extract_lets rev u v w
  have hu : DarkKept s u := darkKept_endInject.then darkKept_flushCoef
  have hrest : ∀ ch : Chan, ({ ch with
      state := (if ch.state = .unavailable then .unavailable else .off),
      x := List.replicate 8 0, z := 0, uPrev := 0, dPrev := 0, uNew := [], applied := false, offNext := false, held := none,
      lastStep := none } : Chan).enabled = false := fun ch => by
    unfold Chan.enabled
    by_cases h : ch.state = .unavailable
    · simp [h]
    · simp [h]
  have hv : OffKept u v := offKept_modChan fun ch _ => hrest ch
  have hoff : (chanOf v c).enabled = false := by
    by_cases hlen : c < u.gheler.chans.length
    · rw [show chanOf v c = _ from chanOf_modChan_same hlen]
      exact hrest _
    · have hv : chanOf v c = Reset.chan := List.getD_eq_default _ _ (by rw [show v.gheler.chans.length = _ from List.length_modify ..]; omega)
      rw [hv]
      rfl
  have hw : DarkKept v w := darkKept_modSp
  have hall := (hu.off.then hv).then hw.off
  split
  · exact ⟨hall.then darkKept_dropLoop.off, darkKept_dropLoop.off.stays c (hw.off.stays c hoff)⟩
  · exact ⟨hall, hw.off.stays c hoff⟩

theorem chanOff_offKept : OffKept s (chanOff c s) ∧ (chanOf (chanOff c s) c).enabled = false :=
  ⟨chanRest_offKept.1.then darkKept_pinZero.off, darkKept_pinZero.off.stays c chanRest_offKept.2⟩

theorem darkKept_failEnables : DarkKept s (failEnables s) := by
  have hmap : DarkKept s { s with gheler := { s.gheler with chans := s.gheler.chans.map fun ch =>
      { ch with enable := ch.enable.filter fun q => q.action ≠ 0 } } } :=
    ⟨within_of_eq_sub (m := [.chans]) rfl (by decide) (by decide), fun _ h => h, id, fun _ => chanState_map fun _ => rfl⟩
  exact hmap.then (darkKept_forEach fun _ _ => darkKept_complete)

/-- The channels of a list turned off. -/
theorem offWalk {l : List Nat} : OffKept s (forEach l (fun c s => setCause c cause (chanOff c s)) s) ∧
    ∀ c ∈ l, (chanOf (forEach l (fun c s => setCause c cause (chanOff c s)) s) c).enabled = false := by
  induction l generalizing s with
  | nil => exact ⟨offKept_refl, fun _ h => by cases h⟩
  | cons a l ih =>
    have hcause : DarkKept (chanOff a s) (setCause a cause (chanOff a s)) := darkKept_modChan fun _ => rfl
    have ha : OffKept s (setCause a cause (chanOff a s)) := chanOff_offKept.1.then hcause.off
    obtain ⟨hkept, hoff⟩ := ih (s := setCause a cause (chanOff a s))
    refine ⟨ha.then hkept, fun c hc => ?_⟩
    rcases List.mem_cons.1 hc with rfl | hc
    · exact hkept.stays c (hcause.off.stays c chanOff_offKept.2)
    · exact hoff c hc

theorem allOff_offKept : OffKept s (allOff cause s) ∧ ∀ c < 48, (chanOf (allOff cause s) c).enabled = false := by
  unfold allOff
  extract_lets l u v
  obtain ⟨hkept, hoff⟩ := offWalk (s := s) (l := l) (cause := cause)
  have hdark : ∀ c < 48, (chanOf u c).enabled = false := fun c hc => by
    by_cases hmem : c ∈ l
    · exact hoff c hmem
    · refine hkept.stays c (Bool.eq_false_iff.2 fun h => hmem ?_)
      exact List.mem_filter.2 ⟨List.mem_range.2 hc, h⟩
  have hv : DarkKept u v := within_loopDisabled.dark (by decide) (by decide) (by decide)
  split
  · exact ⟨(hkept.then hv.off).then darkKept_failEnables.off, fun c hc => darkKept_failEnables.off.stays c (hv.off.stays c (hdark c hc))⟩
  · exact ⟨hkept.then hv.off, fun c hc => hv.off.stays c (hdark c hc)⟩

/-! ### The reference clock and the host link -/

/-- What the reading of REFCLK leaves in P3. -/
def refclkRead (ok : Bool) (s : State) : State := { s with power := { s.power with refclkOk := ok } }

theorem exec_refclkCheckRetry {ok : Bool} (hp3 : s.power.state = .p3) (hrun : s.startup.running = true) :
    exec (.refclkCheckRetry dt ok) s = .next (goStep3 s.startup.waking (refclkRead ok (tick dt s))) := by
  have hp3' : (tick dt s).power.state = .p3 := hp3
  have hrun' : (tick dt s).startup.running = true := hrun
  change Host.Outcome.next _ = _
  rw [decide_eq_true hp3', if_pos rfl, if_pos ⟨rfl, hrun'⟩]
  rfl

/-- With a good REFCLK and a slot to load start-up restarts at step 3. -/
theorem goStep3_trains {wake : Bool} (hmay : mayStart s = true) (hok : s.power.refclkOk = true) (hslot : anySlot s = true) :
    goStep3 wake s = beginTraining { restart3 s with startup := { (restart3 s).startup with waking := wake } } := by
  rw [goStep3, hmay, hok, hslot]
  rfl

theorem goStep3_waits {wake : Bool} (hmay : mayStart s = true) (hok : s.power.refclkOk = false) :
    goStep3 wake s = { s with startup := { s.startup with step := 2, running := true, waking := wake, ready := false } } := by
  rw [goStep3, hmay, hok]
  rfl

/-- What start-up reads to begin at step 3, the measurement of the hold-up apart. -/
def startReads (s : State) : Bool × Bool × Bool := (mayStart s, s.power.refclkOk, anySlot s)

/-- The measured hold-up noted. -/
def heldUp (mj : Nat) (s : State) : State :=
  { s with
    power := { s.power with holdup := mj }
    startup := { s.startup with running := true }
    wear := { s.wear with holdFirst := (if s.wear.holdFirst = 0 then min 0xFFFF mj else s.wear.holdFirst), holdLast := min 0xFFFF mj } }

theorem measureHoldup_eq : measureHoldup n s = if n < 2000 then record 0x2D 0x302 (u16 (min 0xFFFF n)) (heldUp n s) else heldUp n s := rfl

theorem startReads_measureHoldup : startReads (measureHoldup n s) = startReads s := by
  have hrec : ∀ det, startReads (record 0x2D 0x302 det (heldUp n s)) = startReads (heldUp n s) := fun det =>
    (within_recordAt (s := heldUp n s)).apply startReads rfl
  rw [measureHoldup_eq]
  split
  · exact (hrec _).trans rfl
  · rfl

theorem startStep3_trains {wake : Bool} (hmay : mayStart s = true) (hok : s.power.refclkOk = true) (hslot : anySlot s = true) :
    ∃ u, u.power.perstB = s.power.perstB ∧ startStep3 wake s = beginTraining { restart3 u with startup := { (restart3 u).startup with waking := wake } } := by
  have hreads : startReads (measureFree s) = startReads s := startReads_measureHoldup (s := { s with free := s.free + 1 })
  have hreads' : startReads s = (true, true, true) := by rw [startReads, hmay, hok, hslot]
  obtain ⟨hmay', hrest⟩ := Prod.ext_iff.1 (hreads.trans hreads')
  obtain ⟨hok', hslot'⟩ := Prod.ext_iff.1 hrest
  refine ⟨measureFree s, ?_, (if_pos hmay).trans (goStep3_trains hmay' hok' hslot')⟩
  rw [show measureFree s = measureHoldup (Config.freeValue s.free % 65536) { s with free := s.free + 1 } from rfl, measureHoldup_eq]
  split
  · exact within_recordAt.power_field (by decide) (f := Power.perstB) fun _ => rfl
  · rfl

/-! ### The interlock and the test access port -/

/-- A short low level during a trip changes nothing but the time. -/
theorem intlkLow_short (h : n ≤ 400) : intlkLow n s = s := if_pos (.inr h)

theorem intlkLow_long (h : 4000 ≤ n) (hlow : s.power.intlkLow = true) :
    intlkLow n s = { s with power := { s.power with intlkRise := s.now } } := by
  unfold intlkLow
  rw [if_neg (by rw [hlow]; simp; omega), if_pos h]

theorem intlkRelease_high {high : Nat} (hlow : s.power.intlkLow = true) (hat : s.power.intlkAt ≤ risingEdge high s)
    (hlong : risingEdge high s + 40000000 ≤ s.now) : intlkRelease high s =
      record 8 0x202 (u64 (risingEdge high s)) { s with power := { s.power with intlkLow := false } } := by
  unfold intlkRelease
  rw [if_neg]
  simp only [msec, hlow]
  simp
  omega

theorem intlkRelease_early {high : Nat}
    (h : s.power.intlkLow = false ∨ risingEdge high s < s.power.intlkAt ∨ s.now < risingEdge high s + 40000000) :
    intlkRelease high s = s := by
  unfold intlkRelease
  rw [if_pos]
  simpa [msec] using h


/-! ### Outputs forced with no PARK due -/

theorem forceOff_idle (h : ∀ k < 8, (headOf s k).pipe.parkDue = none) : forceOff cause s = allOff cause s := by
  unfold forceOff
  refine forEach_idle fun k hk => headDark_idle ?_
  rw [within_allOff.headOf (by decide)]
  exact h k (List.mem_range.1 hk)

/-- The interlock's trip noted. -/
def tripNoted (s : State) : State :=
  setBits 0x00A082C0 2 { s with power := { s.power with
    intlkLow := true, intlkCount := min 255 (s.power.intlkCount + 1), intlkStamp := s.now, intlkAt := s.now, intlkRise := 0 } }

/-- What a trip of the interlock leaves to the forcing of the outputs. -/
def tripped (s : State) : State := record 8 0x201 [] (raiseCause true 3 (raiseCause false 3 (tripNoted s)))

theorem intlkTrip_forces (hlow : s.power.intlkLow = false) (hp4 : s.power.state ≠ .p4) : intlkTrip s = forceOff 3 (tripped s) := by
  unfold intlkTrip
  rw [if_neg (by simp [hlow, hp4])]
  rfl

theorem within_tripped : Within [.causes, .out, .ledger] (tripNoted s) (tripped s) :=
  Within.then (Within.then (within_raiseCause.mono (by decide)) (within_raiseCause.mono (by decide))) (within_recordAt.mono (by decide))

theorem within_tripNoted : Within [.power, .regs, .ovf, .causes] s (tripNoted s) :=
  within_of_shape rfl (fun h => absurd (by decide) h) fun h => absurd (by decide) h

theorem within_trip : Within [.power, .regs, .ovf, .causes, .out, .ledger] s (tripped s) :=
  Within.then (within_tripNoted.mono (by decide)) (within_tripped.mono (by decide))

/-- What a test instruction that takes the pins leaves to the forcing of the outputs. -/
def scanTaken (s : State) : State := { s with power := { s.power with bscan := true } }

theorem within_scanTaken : Within [.power] s (scanTaken s) := within_of_eq rfl (by decide)
theorem exec_boundaryScanForce : exec (.boundaryScanForce dt .other) s = .next (forceOff 5 (scanTaken (tick dt s))) := rfl

/-- A change within the parts that forced outputs reach leaves every other field. -/
theorem forced_frame (h : Within loopParts s t) : t = { s with
    now := t.now, meter := t.meter, host := t.host, ledger := t.ledger, adm := t.adm, gheler := t.gheler, catum := t.catum, fault := t.fault, regs := t.regs, out := t.out } :=
  within_eq (h.mono (by decide) : Within (loopParts ++ [.exhibits, .transfers, .caps, .adm, .saved, .hostRest, .sq, .gheler, .locks,
    .catum, .armed, .now, .meter]) s t)

theorem intlkTrip_frame (hlow : s.power.intlkLow = false) (hp4 : s.power.state ≠ .p4) (hidle : ∀ k < 8, (headOf s k).pipe.parkDue = none) :
    let t := intlkTrip s
    t.power = { s.power with intlkLow := true, intlkCount := min 255 (s.power.intlkCount + 1), intlkStamp := s.now, intlkAt := s.now,
                             intlkRise := 0 } ∧
      (∀ c < 48, (chanOf t c).enabled = false) ∧ RegsStay (setBits 0x00A082C0 2 s) t ∧
      t = { s with now := t.now, meter := t.meter, power := t.power, host := t.host, ledger := t.ledger, adm := t.adm, gheler := t.gheler, catum := t.catum,
                   fault := t.fault, regs := t.regs, out := t.out } := by
  have hheads : ∀ k, headOf (tripped s) k = headOf s k := within_tripped.headOf (by decide)
  have htrip : intlkTrip s = allOff 3 (tripped s) := by
    rw [intlkTrip_forces hlow hp4, forceOff_idle]
    exact fun k hk => by rw [hheads, hidle k hk]
  dsimp only
  rw [htrip]
  have hwithin : Within loopParts (tripNoted s) (allOff 3 (tripped s)) := (within_tripped.mono (by decide)).then within_allOff
  have hpower : (allOff 3 (tripped s)).power = (tripNoted s).power := hwithin.apply State.power rfl
  refine ⟨hpower, allOff_offKept.2, hwithin .regs (by decide), (forced_frame hwithin).trans ?_⟩
  rw [hpower]
  rfl

/-! ### The PARK of a head whose channels are forced dark -/

theorem lt_of_due (h : (headOf s k).pipe.parkDue ≠ none) : k < s.heads.length := by
  by_contra hge
  exact h (congrArg (fun x => x.pipe.parkDue) (List.getD_eq_default _ _ (Nat.le_of_not_lt hge)))

/-- Sending on a port keeps their number. -/
theorem ports_length_sendPkt {q : SentPkt} {b : List Byte} (h : NoFaults s) : (sendPkt p q b s).ports.length = s.ports.length := by
  rw [sendPkt_none h]
  exact List.length_modify ..

/-- The PARK of a READY port with credit goes out and the port goes down. -/
theorem parkAndEnd_down (hfaults : NoFaults s) (hp : p < s.ports.length) (hst : (portOf s p).state = .ready)
    (hending : (portOf s p).ending = false) (hallows : (portOf s p).allows (barePkt 3 s.now) = true) :
    let t := parkAndEnd cause p s
    (portOf t p).state = .down ∧ (portOf t p).owner = none ∧ (∀ q, q ≠ p → portOf t q = portOf s q) ∧ t.heads = s.heads ∧
      ∃ b, Out.plk p b ∈ t.out := by
  have hpark : parkPort p cause s = parkNow p cause s := if_pos (.inr ⟨hst, hallows⟩)
  have hnow := parkNow_up (cause := cause) hp (by rw [hst]; decide)
  have hsent : Pumped p (parkSent p s) (parkNow p cause s) := by
    rw [hnow]
    exact Pumped.then (pumped_sendPkt (s := parkSent p s) (q := barePkt 3 s.now) (b := []) hfaults) pumped_record
  have hwithin : Within [.ports, .fault, .ledger, .out] s (parkNow p cause s) := by
    rw [hnow]
    exact ((within_modPort.mono (by decide)).then within_sendPkt).then (within_recordAt.mono (by decide))
  obtain ⟨hothers, hkept, -, -⟩ := hsent
  have howed : (portOf (parkNow p cause s) p).parkOwed = none := hkept.trans (congrArg Port.parkOwed (portOf_modPort_same hp))
  have hout : ∃ b, Out.plk p b ∈ (parkNow p cause s).out := by
    rw [hnow, record_out, sendPkt_none (s := parkSent p s) hfaults]
    exact ⟨_, List.mem_cons_self⟩
  have hlen : p < (parkNow p cause s).ports.length := by
    rw [hnow, show (record (0x18 + p) 0x0D08 (u8 p ++ u8 cause) _).ports = _ from within_recordAt .ports (by decide),
      ports_length_sendPkt (s := parkSent p s) hfaults]
    exact (List.length_modify ..).symm ▸ hp
  have hend : parkAndEnd cause p s = downPort p (parkNow p cause s) := by
    unfold parkAndEnd
    dsimp only
    rw [hending, if_neg Bool.false_ne_true, hpark, howed]
    rfl
  dsimp only
  rw [hend]
  refine ⟨congrArg Port.state (portOf_modPort_same hlen), congrArg Port.owner (portOf_modPort_same hlen), fun q hq => ?_,
    hwithin .heads (by decide), hout⟩
  exact (portOf_modPort_ne hq).trans ((hothers q hq).trans (portOf_modPort_ne hq))

/-- A head whose channels are dark and whose one port can park it. -/
structure ParksOn (s : State) (k p ports : Nat) : Prop where
  releasing : (headOf s k).pipe.releasing = none
  faults : NoFaults s
  lt : p < s.ports.length
  left : portsLeft s k ports = [p]
  ending : (portOf s p).ending = false
  ready : (portOf s p).state = .ready
  allows : (portOf s p).allows (barePkt 3 s.now) = true

theorem headDark_parks {ports chans : Nat} (h : ParksOn s k p ports) (hdue : (headOf s k).pipe.parkDue = some (ports, chans, cause))
    (hdark : ∀ c < 48, (chanOf s c).enabled = false) : let t := headDark k s
    (portOf t p).state = .down ∧ (headOf t k).pipe.parkDue = none ∧ (∀ q, q ≠ p → portOf t q = portOf s q) ∧
      (∀ j, j ≠ k → headOf t j = headOf s j) ∧ ∃ b, Out.plk p b ∈ t.out := by
  obtain ⟨hrel, hfaults, hlt, hleft, hending, hready, hallows⟩ := h
  obtain ⟨why, hwhy⟩ : ∃ why, why = if s.power.stop.any (fun x => x.1 == .refclkLost) then 2 else cause := ⟨_, rfl⟩
  obtain ⟨hdown, hfree, hothers, hheads, hout⟩ := parkAndEnd_down (cause := why) hfaults hlt hready hending hallows
  have hempty : portsLeft (parkAndEnd why p s) k ports = [] := by
    refine List.filter_eq_nil_iff.2 fun q hq hown => ?_
    by_cases hqp : q = p
    · subst hqp
      rw [hfree] at hown
      cases hown
    · rw [hothers q hqp] at hown
      have hmem : q ∈ portsLeft s k ports := List.mem_filter.2 ⟨hq, hown⟩
      rw [hleft] at hmem
      exact hqp (List.mem_singleton.1 hmem)
  have hpark : parkIfDark k s = modPipe k (fun x => { x with parkDue := none }) (parkAndEnd why p s) := by
    have hany : ((bitsOf chans 48).any fun c => (chanOf s c).enabled) = false := List.any_eq_false.2 fun c hc => by
      rw [hdark c (List.mem_range.1 (List.mem_filter.1 hc).1)]
      exact Bool.false_ne_true
    unfold parkIfDark
    rw [hdue]
    dsimp only
    rw [hany, if_neg Bool.false_ne_true, ← hwhy, hleft, forEach_cons, show forEach [] (parkAndEnd why) (parkAndEnd why p s) = parkAndEnd why p s from rfl, hempty]
    rfl
  have hklt : k < (parkAndEnd why p s).heads.length := by
    rw [hheads]
    exact lt_of_due (by rw [hdue]; exact nofun)
  have hhead : ∀ j, headOf (parkAndEnd why p s) j = headOf s j := fun j => congrArg (fun l => l.getD j Reset.head) hheads
  have hpipe : (headOf (parkIfDark k s) k).pipe = { (headOf s k).pipe with parkDue := none } := by
    rw [hpark, modPipe, headOf_modHead_same hklt, hhead]
  have hall : headDark k s = parkIfDark k s := by
    unfold headDark
    dsimp only
    rw [hpipe, hrel]
  dsimp only
  rw [hall]
  refine ⟨?_, congrArg Pipe.parkDue hpipe, ?_, fun j hj => ?_, ?_⟩
  · rw [hpark]; exact hdown
  · rw [hpark]; exact hothers
  · rw [hpark]; exact (headOf_modHead_ne hj).trans (hhead j)
  · rw [hpark]; exact hout

theorem forceOff_parks {ports chans why : Nat} (h : ParksOn s k p ports) (hdue : (headOf s k).pipe.parkDue = some (ports, chans, why))
    (hk : k < 8) (hidle : ∀ j < 8, j ≠ k → (headOf s j).pipe.parkDue = none) : let t := forceOff cause s
    (portOf t p).state = .down ∧ (headOf t k).pipe.parkDue = none ∧ (∀ q, q ≠ p → portOf t q = portOf s q) ∧
      ∃ b, Out.plk p b ∈ t.out := by
  have hoff : Within loopParts s (allOff cause s) := within_allOff
  have hhead : ∀ j, headOf (allOff cause s) j = headOf s j := hoff.headOf (by decide)
  have hport : ∀ q, portOf (allOff cause s) q = portOf s q := hoff.portOf (by decide)
  have hports : (allOff cause s).ports = s.ports := hoff .ports (by decide)
  obtain ⟨hrel, hfaults, hlt, hleft, hending, hready, hallows⟩ := h
  have hparks : ParksOn (allOff cause s) k p ports := by
    refine ⟨by rw [hhead, hrel], allOff_offKept.1.free hfaults, by rw [hports]; exact hlt, ?_, by rw [hport, hending], by rw [hport, hready], ?_⟩
    · rw [← hleft]
      exact List.filter_congr fun q _ => by rw [hport]
    · rw [hport, show (allOff cause s).now = s.now from hoff .now (by decide), hallows]
  obtain ⟨hdown, hnone, hothers, hheads, hout⟩ := headDark_parks hparks (by rw [hhead, hdue]) allOff_offKept.2
  have hwalk : forceOff cause s = headDark k (allOff cause s) := by
    refine forEach_single List.nodup_range (List.mem_range.2 hk) (fun j hj hne => headDark_idle ?_) fun j hj hne => headDark_idle ?_
    · rw [hhead, hidle j (List.mem_range.1 hj) hne]
    · rw [hheads j hne, hhead, hidle j (List.mem_range.1 hj) hne]
  dsimp only
  rw [hwalk]
  exact ⟨hdown, hnone, fun q hq => (hothers q hq).trans (hport q), hout⟩

/-- A change of neither the heads nor their ports leaves a head ready to be parked. -/
theorem ParksOn.of_within {m : List StatePart} {ports : Nat} (h : ParksOn s k p ports) (hw : Within m s t)
    (hm : .heads ∉ m ∧ .ports ∉ m ∧ .now ∉ m ∧ .fault ∉ m) : ParksOn t k p ports := by
  obtain ⟨hheads, hports, hnow, hfault⟩ := hm
  obtain ⟨hrel, hfaults, hlt, hleft, hending, hready, hallows⟩ := h
  have hport : ∀ q, portOf t q = portOf s q := hw.portOf hports
  refine ⟨by rw [hw.headOf hheads, hrel], hw.noFaults hfault hfaults, by rw [show t.ports = s.ports from hw .ports hports]; exact hlt, ?_,
    by rw [hport, hending], by rw [hport, hready], by rw [hport, show t.now = s.now from hw .now hnow, hallows]⟩
  rw [← hleft]
  exact List.filter_congr fun q _ => by rw [hport]

/-- What the urgent word DARK_NOW for every head notes before it acts. -/
def darkNoted (s : State) : State := ucwBegin 1 255 false false s

theorem exec_darkNow (hp2 : s.power.state ≠ .p2) : exec (.darkNow dt 255 false false) s = .next (forceOff 4 (darkNoted (tick dt s))) := by
  have hwake : wakeP2 0 (tick dt s) = tick dt s := if_neg (by rw [show (tick dt s).power.state = s.power.state from rfl]; simp [hp2])
  change Host.Outcome.next (ucwSent 1 255 false false dt s) = _
  rw [ucwSent, hwake]
  rfl

theorem within_darkNoted : Within [.hostRest] s (darkNoted s) := within_of_eq rfl (by decide)

theorem forced_parks {m : List StatePart} {ports chans why : Nat} (h : ParksOn s k p ports)
    (hdue : (headOf s k).pipe.parkDue = some (ports, chans, why)) (hk : k < 8)
    (hidle : ∀ j < 8, j ≠ k → (headOf s j).pipe.parkDue = none) (hw : Within m s u)
    (hm : .heads ∉ m ∧ .ports ∉ m ∧ .now ∉ m ∧ .fault ∉ m) : let t := forceOff cause u
    (portOf t p).state = .down ∧ (headOf t k).pipe.parkDue = none ∧ (∀ q, q ≠ p → portOf t q = portOf s q) ∧
      ∃ b, Out.plk p b ∈ t.out := by
  obtain ⟨hdown, hnone, hothers, hout⟩ := forceOff_parks (cause := cause) (h.of_within hw hm) (by rw [hw.headOf hm.1, hdue]) hk
    fun j hj hne => by rw [hw.headOf hm.1, hidle j hj hne]
  exact ⟨hdown, hnone, fun q hq => (hothers q hq).trans (hw.portOf hm.2.1 q), hout⟩

/-- The reference clock and the host link. -/
theorem linkPins_followed :
     (s.power.state = .p3 → s.startup.running = true → mayStart s = true → anySlot s = true →
       (∃ t, exec (.refclkCheckRetry dt true) s = .next t ∧ t.power.state = .p0 ∧ t.startup.step = 3 ∧ t.training.point = 3) ∧
       ∃ t, exec (.refclkCheckRetry dt false) s = .next t ∧ t.power = { s.power with refclkOk := false } ∧
         t.startup.running = true) ∧
     (s.power.perstB = true → s.power.state ≠ .p3 →
       exec (.perstBRelease dt) s = .next { tick dt s with power := { s.power with perstB := false } }) ∧
     (s.power.perstB = true → s.power.state = .p3 → s.startup.running = false → s.thermal.latch = false → mayStart s = true →
       s.power.refclkOk = true → anySlot s = true → ∃ t, exec (.perstBRelease dt) s = .next t ∧ t.power.perstB = false ∧
         t.power.state = .p0 ∧ t.startup.step = 3) ∧
     (s.power.perstB = false → s.power.fastClocks = true → ∀ w v,
       exec (.pcieLinkChange dt true w v) s = .next { tick dt s with
         power := { s.power with pcieUp := true, pcieWidth := w, pcieSpeed := v, pcieDownAt := none } } ∧
       (s.power.pcieUp = true → exec (.pcieLinkChange dt false w v) s = .next { tick dt s with
         power := { s.power with pcieUp := false, pcieDownAt := some (tick dt s).now } })) := by
  refine ⟨fun hp3 hrun hmay hslot => ⟨?_, ?_⟩, fun hperst hp3 => ?_, fun hperst hp3 hrun _ hmay hok hslot => ?_, fun hperst hfast w v => ⟨?_, fun hup => ?_⟩⟩
  · exact ⟨_, (exec_refclkCheckRetry hp3 hrun).trans (congrArg Host.Outcome.next
      (goStep3_trains (s := refclkRead true (tick dt s)) hmay rfl hslot)), rfl, rfl, rfl⟩
  · exact ⟨_, (exec_refclkCheckRetry hp3 hrun).trans (congrArg Host.Outcome.next
      (goStep3_waits (s := refclkRead false (tick dt s)) hmay rfl)), rfl, rfl⟩
  · have hrelease : perstRelease (tick dt s) = { tick dt s with power := { s.power with perstB := false } } :=
      if_neg fun h => hp3 h.1
    exact congrArg Host.Outcome.next ((if_pos hperst).trans hrelease)
  · obtain ⟨u, hu, hstart⟩ := startStep3_trains (wake := false)
      (s := { tick dt s with power := { s.power with perstB := false } }) hmay hok hslot
    have hrelease : perstRelease (tick dt s) = startStep3 false { tick dt s with power := { s.power with perstB := false } } :=
      if_pos ⟨hp3, by rw [show (tick dt s).startup.running = s.startup.running from rfl, hrun]; rfl⟩
    exact ⟨_, congrArg Host.Outcome.next ((if_pos hperst).trans (hrelease.trans hstart)), hu, rfl, rfl⟩
  · have hlink : ¬((tick dt s).power.perstB = true ∨ (!(tick dt s).power.fastClocks) = true) := by
      rw [show (tick dt s).power = s.power from rfl, hperst, hfast]
      simp
    exact congrArg Host.Outcome.next ((if_neg hlink).trans (if_pos rfl))
  · have hlink : ¬((tick dt s).power.perstB = true ∨ (!(tick dt s).power.fastClocks) = true) := by
      rw [show (tick dt s).power = s.power from rfl, hperst, hfast]
      simp
    exact congrArg Host.Outcome.next ((if_neg hlink).trans ((if_neg Bool.false_ne_true).trans (if_pos hup)))

/-- Settles O21, part by part: a forced output turns every channel off first, so a head that waited for its dark lasers has its
one port parked and brought down. -/
theorem pinsAreFollowed : Obligations.PinsAreFollowed := by
  refine ⟨fun dt s => linkPins_followed, fun dt s => ⟨fun hlow hp4 hidle => ?_, fun len hlen hlow => ?_, fun len hlen => ?_,
    fun high => ⟨fun hlow hat hlong => ?_, fun h => ?_⟩, fun hidle => ?_, ?_, fun i hi => ?_⟩⟩
  · obtain ⟨hpower, hoff, hregs, hframe⟩ := intlkTrip_frame (s := tick dt s) hlow hp4 hidle
    exact ⟨_, rfl, hpower, hoff, hregs, hframe⟩
  · exact congrArg Host.Outcome.next (intlkLow_long (s := tick dt s) hlen hlow)
  · exact congrArg Host.Outcome.next (intlkLow_short hlen)
  · exact congrArg Host.Outcome.next (intlkRelease_high (s := tick dt s) hlow hat hlong)
  · exact congrArg Host.Outcome.next (intlkRelease_early (s := tick dt s) h)
  · refine ⟨_, congrArg Host.Outcome.next (forceOff_idle (cause := 5)
      (s := { tick dt s with power := { s.power with bscan := true } }) hidle), ?_, allOff_offKept.2⟩
    exact within_allOff.apply State.power rfl
  · intro k p ports chans cause c hk hdue hidle hrel hfaults hlt hleft hending hready hallows hp4 hp2 hlow hc
    have hparks : ParksOn (tick dt s) k p ports := ⟨hrel, hfaults, hlt, hleft, hending, hready, hallows⟩
    rcases hc with rfl | rfl | rfl
    · obtain ⟨hdown, hnone, hothers, hout⟩ := forced_parks (cause := 3) hparks hdue hk hidle within_trip (by decide)
      exact ⟨_, congrArg Host.Outcome.next (intlkTrip_forces (s := tick dt s) hlow hp4), hdown, hnone, hothers, hout⟩
    · obtain ⟨hdown, hnone, hothers, hout⟩ := forced_parks (cause := 5) hparks hdue hk hidle within_scanTaken (by decide)
      exact ⟨_, exec_boundaryScanForce, hdown, hnone, hothers, hout⟩
    · obtain ⟨hdown, hnone, hothers, hout⟩ := forced_parks (cause := 4) hparks hdue hk hidle within_darkNoted (by decide)
      exact ⟨_, exec_darkNow hp2, hdown, hnone, hothers, hout⟩
  · cases i with
    | other => exact absurd rfl hi
    | bypass => rfl
    | idcode => rfl
    | sample => rfl


end Sys2Proof.Machine
end

section
/-!
PROOFS. Start-up after its training: the set-up fields loaded, the channels placed, CONFIG_READY; and the training points themselves
(chapters 4 and 19).
-/

namespace Sys2Proof.Machine
variable {s t u : State} {dt k n p q c off cause : Nat} {v : Word} {m : List StatePart}

/-! ### What start-up keeps on its way to CONFIG_READY -/

/-- A change that leaves start-up, the counter and the capacities, and an empty stack memory empty. -/
structure ReadyKept (s t : State) : Prop where
  startup : t.startup = s.startup
  now : t.now = s.now
  caps : t.adm.caps = s.adm.caps
  empty : s.hbm.cells = [] ∧ s.hbm.lanes = [] → t.hbm.cells = [] ∧ t.hbm.lanes = []

theorem readyKept_refl : ReadyKept s s := ⟨rfl, rfl, rfl, id⟩

theorem ReadyKept.then (h1 : ReadyKept s t) (h2 : ReadyKept t u) : ReadyKept s u :=
  ⟨h2.startup.trans h1.startup, h2.now.trans h1.now, h2.caps.trans h1.caps, fun h => h2.empty (h1.empty h)⟩

theorem Within.ready (h : Within m s t) (hm : .startup ∉ m ∧ .now ∉ m ∧ .caps ∉ m ∧ .cells ∉ m) : ReadyKept s t := by
  obtain ⟨hstartup, hnow, hcaps, hcells⟩ := hm
  obtain ⟨hc, hl⟩ := h .cells hcells
  obtain ⟨hk, -⟩ := h .caps hcaps
  exact ⟨h .startup hstartup, h .now hnow, hk, fun he => ⟨hc.trans he.1, hl.trans he.2⟩⟩

theorem readyKept_ite {x : Prop} [Decidable x] {a b : State} (ha : ReadyKept s a) (hb : ReadyKept s b) : ReadyKept s (if x then a else b) := by
  split
  · exact ha
  · exact hb

theorem readyKept_forEach {α : Type} {l : List α} {f : α → State → State} (hf : ∀ a s, ReadyKept s (f a s)) : ReadyKept s (forEach l f s) := by
  induction l generalizing s with
  | nil => exact readyKept_refl
  | cons a l ih => exact (hf a s).then (ih (s := f a s))

theorem readyKept_record {unit event : Nat} {det : List Byte} : ReadyKept s (record unit event det s) := within_recordAt.ready (by decide)

/-! ### A register written as BAR0 would -/

theorem readyKept_lockShedding : ReadyKept s (lockShedding s) := by
  have hset : ∀ (l : List Nat) (u : State), ReadyKept u (forEach (List.range 4) (fun i => setRaw (0x01100010 + 4 * i) (wordOf (l.getD i 0))) u) :=
    fun _ _ => readyKept_forEach fun _ _ => ⟨rfl, rfl, rfl, id⟩
  have hbits : ∀ (w : Word) (u : State), ReadyKept u (setBits 0x01100028 0x100 (setRaw 0x01100020 w u)) := fun _ _ => ⟨rfl, rfl, rfl, id⟩
  have hthr : ∀ (l : List Nat) (h : Nat), ReadyKept s { s with power := { s.power with thr := l, hyst := h } } := fun _ _ => ⟨rfl, rfl, rfl, id⟩
  unfold lockShedding
  dsimp only
  exact readyKept_ite (hthr _ _) ((((hthr _ _).then (hset _ _)).then (hbits _ _)).then readyKept_record)

theorem readyKept_setupLock : ReadyKept s (setupLock n s) := by
  have hlock : ∀ u : State, ReadyKept u { u with host := { u.host with locked := true } } := fun _ => ⟨rfl, rfl, rfl, id⟩
  unfold setupLock
  exact readyKept_ite readyKept_refl ((readyKept_lockShedding.then (hlock _)).then readyKept_record)

theorem readyKept_testEnable : ReadyKept s (testEnable (fun _ s => s) n s) := by
  have harm : ∀ f : Faults, ReadyKept s { s with fault := f } := fun _ => ⟨rfl, rfl, rfl, id⟩
  unfold testEnable
  exact readyKept_ite (readyKept_ite readyKept_record (readyKept_ite readyKept_refl ((harm _).then readyKept_record)))
    (readyKept_ite ((harm _).then readyKept_record) readyKept_refl)

theorem readyKept_setGrain : ReadyKept s (setGrain n s) := by
  unfold setGrain
  refine readyKept_ite readyKept_refl ⟨rfl, rfl, rfl, fun h => ?_⟩
  obtain ⟨hcells, hlanes⟩ := h
  simp [modHbm, regrain, hcells, hlanes]

theorem readyKept_cfgWrite : ReadyKept s (cfgWrite v s) := by
  have hset : ∀ (w : Word) (u : State), ReadyKept u (setRaw 0x00B00004 w u) := fun _ _ => ⟨rfl, rfl, rfl, id⟩
  unfold cfgWrite
  exact readyKept_ite (readyKept_ite readyKept_record readyKept_refl) (readyKept_ite (readyKept_setGrain.then (hset _ _)) readyKept_record)

theorem readyKept_storeReg {key : Nat} {locked : Bool} : ReadyKept s (storeReg key off v locked s) := by
  unfold storeReg
  split
  · exact readyKept_refl
  · exact ⟨rfl, rfl, rfl, id⟩

theorem readyKept_writeWord {key : Nat} {locked : Bool} : ReadyKept s (writeWord key off v locked s) := by
  have hheld : ∀ (h : HostIf) (u : State), ReadyKept u { u with host := h } := fun _ _ => ⟨rfl, rfl, rfl, id⟩
  have hcat : ∀ (x : Catum) (u : State), ReadyKept u { u with catum := x } := fun _ _ => ⟨rfl, rfl, rfl, id⟩
  have htold : ReadyKept s (if locked && rwlChanged key off v s then rwlRecord 0 off v.toNat s else s) :=
    readyKept_ite readyKept_record readyKept_refl
  unfold writeWord
  dsimp only
  refine readyKept_ite (htold.then (hheld _ _)) (readyKept_ite ?_ (readyKept_ite ?_ ?_))
  · split
    · exact ((htold.then (hheld _ _)).then readyKept_storeReg).then readyKept_storeReg
    · exact htold.then readyKept_storeReg
  · exact (htold.then readyKept_storeReg).then (hcat _ _)
  · exact htold.then readyKept_storeReg

theorem readyKept_writeBar0 : ReadyKept s (writeBar0 off v false s) := by
  unfold writeBar0
  rw [if_neg Bool.false_ne_true]
  exact readyKept_ite readyKept_refl readyKept_writeWord

theorem readyKept_clearHead {w : Nat} : ReadyKept s (clearHead k off w s) := by
  unfold clearHead
  split
  · exact ⟨rfl, rfl, rfl, id⟩
  · exact ⟨rfl, rfl, rfl, id⟩
  · exact readyKept_ite ⟨rfl, rfl, rfl, id⟩ readyKept_refl
  · exact readyKept_ite ⟨rfl, rfl, rfl, id⟩ readyKept_refl
  · exact readyKept_ite ⟨rfl, rfl, rfl, id⟩ readyKept_refl
  · exact readyKept_refl

theorem readyKept_aoutRange : ReadyKept s (aoutRange c v s) := by
  have hset : ∀ (r : Nat) (w : Word) (u : State), ReadyKept u (setRaw r w u) := fun _ _ _ => ⟨rfl, rfl, rfl, id⟩
  have hdark : ∀ (f : Chan → Chan) (u : State), ReadyKept u (modChan c f (pinZero c u)) := fun _ _ => ⟨rfl, rfl, rfl, id⟩
  unfold aoutRange
  dsimp only
  exact readyKept_ite (readyKept_ite readyKept_refl readyKept_record)
    (readyKept_ite readyKept_record (readyKept_ite readyKept_refl ((hset _ _ _).then (hdark _ _))))

theorem readyKept_clearFlow : ReadyKept s (clearFlow s) := by
  unfold clearFlow modAnyFlow
  split
  · exact ⟨rfl, rfl, rfl, id⟩
  · split
    · exact ⟨rfl, rfl, rfl, id⟩
    · exact readyKept_refl

/-- The counters that a write of a block's clear register clears. -/
theorem readyKept_clearBlock (h : clearBlock off n s = some t) : ReadyKept s t := by
  have hone : ∀ f : State → State, ReadyKept s (f s) → some (if n % 2 = 1 then f s else s) = some t → ReadyKept s t := fun f hf he => by
    rw [← Option.some.inj he]
    exact readyKept_ite hf readyKept_refl
  unfold clearBlock at h
  dsimp only at h
  split at h
  · exact hone _ ⟨rfl, rfl, rfl, id⟩ h
  · exact hone _ ⟨rfl, rfl, rfl, id⟩ h
  · exact hone _ ⟨rfl, rfl, rfl, id⟩ h
  · split at h
    · exact hone _ readyKept_clearFlow h
    · exact hone _ ⟨rfl, rfl, rfl, id⟩ h
    · exact hone _ ⟨rfl, rfl, rfl, id⟩ h
    · exact hone _ ⟨rfl, rfl, rfl, id⟩ h
    · cases h

theorem readyKept_flushRing : ReadyKept s (flushRing q s) := by
  have hfetched : ∀ h : HostIf, ReadyKept s { s with host := h } := fun _ => ⟨rfl, rfl, rfl, id⟩
  unfold flushRing
  exact (hfetched _).then (readyKept_forEach fun _ _ => within_complete.ready (by decide))

theorem readyKept_enableWrite : ReadyKept s (enableWrite off n false s) := by
  have hsq : ∀ r : Nat, ReadyKept s (sqEnable r false s) := fun r =>
    readyKept_ite readyKept_refl (readyKept_ite ⟨rfl, rfl, rfl, id⟩ ⟨rfl, rfl, rfl, id⟩)
  have hsqOff : ∀ r : Nat, ReadyKept s (sqDisable r false s) := fun r => by
    have hstop : ∀ f : SubRing → SubRing, ReadyKept s (modSq r f s) := fun _ => ⟨rfl, rfl, rfl, id⟩
    exact readyKept_ite readyKept_refl ((hstop _).then readyKept_flushRing)
  have hcq : ∀ r : Nat, ReadyKept s (cqEnable r false s) := fun r => readyKept_ite readyKept_refl ⟨rfl, rfl, rfl, id⟩
  have hcqOff : ∀ r : Nat, ReadyKept s (cqDisable r false s) := fun r => readyKept_ite readyKept_refl ⟨rfl, rfl, rfl, id⟩
  have hledger : ReadyKept s (ledgerEnable false s) := readyKept_ite readyKept_refl ⟨rfl, rfl, rfl, id⟩
  unfold enableWrite
  dsimp only
  split
  · exact readyKept_ite (hsq _) (hsqOff _)
  · exact readyKept_ite (hcq _) (hcqOff _)
  · exact readyKept_ite (readyKept_ite hledger ⟨rfl, rfl, rfl, id⟩) readyKept_refl

/-- A write of start-up, which clears no fault rules and runs no mailbox. -/
theorem readyKept_barWrite : ReadyKept s (barWrite (fun _ s => s) id off v s) := by
  unfold barWrite
  dsimp only
  refine readyKept_ite readyKept_setupLock (readyKept_ite readyKept_testEnable (readyKept_ite (readyKept_ite readyKept_refl readyKept_refl)
    (readyKept_ite readyKept_cfgWrite (readyKept_ite (readyKept_ite readyKept_writeBar0 readyKept_writeBar0) ?_))))
  split
  · exact readyKept_clearHead
  · split
    · exact readyKept_aoutRange
    · split
      next t ht => exact readyKept_clearBlock ht
      · exact readyKept_enableWrite.then readyKept_writeBar0

/-! ### CONFIG_READY -/

theorem readyKept_loadS {x : Nat × Nat} : ReadyKept s (loadS x s) := by
  unfold loadS
  dsimp only
  split
  · exact readyKept_refl
  · split
    · exact readyKept_forEach fun _ _ => readyKept_barWrite
    · exact readyKept_barWrite.then readyKept_barWrite
    · exact readyKept_barWrite

theorem readyKept_placeChan : ReadyKept s (placeChan c s) := by
  have hchan : ∀ f : Chan → Chan, ReadyKept s (modChan c f s) := fun _ => ⟨rfl, rfl, rfl, id⟩
  unfold placeChan
  dsimp only
  refine readyKept_ite (hchan _) ?_
  split
  · exact (hchan _).then readyKept_record
  · exact hchan _

theorem readyKept_testSlots {l : List Nat} : ReadyKept s (testSlots l s) := by
  have hbad : ReadyKept s { s with gheler := { s.gheler with slotsBad := l.filter (· < 52) } } := ⟨rfl, rfl, rfl, id⟩
  exact hbad.then (readyKept_forEach fun _ _ => readyKept_placeChan)

/-- The stage in force at start-up noted. -/
def bootNoted (s : State) : State := { s with power := { s.power with bootStage := s.power.stage } }
def shedNoted (s : State) : State := { s with hbm := { s.hbm with why := 1 } }

theorem readyKept_bootNoted : ReadyKept s (bootNoted s) := ⟨rfl, rfl, rfl, id⟩
theorem readyKept_shedNoted : ReadyKept s (shedNoted s) := ⟨rfl, rfl, rfl, id⟩

theorem readyKept_stagesAtReady : ReadyKept s (stagesAtReady s) := by
  have hstops : ∀ l u, ReadyKept u (forEach l stopPort u) := fun _ _ => readyKept_forEach fun _ _ => within_stopPort.ready (by decide)
  generalize hl : List.range 7 = l
  unfold stagesAtReady
  rw [hl]
  exact readyKept_ite readyKept_bootNoted ((readyKept_bootNoted.then (hstops l _)).then readyKept_shedNoted)

theorem readyKept_followerPorts : ReadyKept s (followerPorts s) := by
  have henable : ∀ (i : Nat) (u : State), ReadyKept u (catTrain i (modCat i (fun x => { x with enabled := true }) u)) := fun i u =>
    (Within.ready (m := [.catPorts]) within_modCat (by decide)).then (within_catTrain.ready (by decide))
  have hall : ReadyKept s (forEach (List.range 4) (fun p s => catTrain p (modCat p (fun c => { c with enabled := true }) s)) s) :=
    readyKept_forEach henable
  unfold followerPorts
  exact readyKept_ite (hall.then (within_checkLead.ready (by decide))) readyKept_refl

/-- What start-up leaves before it becomes ready. -/
def placed (fails : List Nat) (s : State) : State := testSlots fails (loadClassS (fillHbm s))

theorem placed_keeps {fails : List Nat} : let t := placed fails s
    t.now = s.now ∧ t.hbm.cells = [] ∧ t.hbm.lanes = [] ∧ t.startup.bank = s.startup.bank ∧ t.startup.gen = s.startup.gen ∧
      t.startup.cabinet = s.startup.bootCab := by
  obtain ⟨u, hu⟩ : ∃ u, u = { fillHbm s with startup := { s.startup with
    step := 6, cabinet := s.startup.bootCab, cabSrc := false, hFields := resolveH (recsInUse (fillHbm s)) s.startup.bootCab } } := ⟨_, rfl⟩
  have hplaced : placed fails s = testSlots fails (forEach s.startup.sFields loadS u) := by
    rw [hu]
    rfl
  have hkept : ReadyKept u (placed fails s) := by
    rw [hplaced]
    exact (readyKept_forEach fun _ _ => readyKept_loadS).then readyKept_testSlots
  obtain ⟨hstartup, hnow, -, hempty⟩ := hkept
  dsimp only
  obtain ⟨hcells, hlanes⟩ := hempty (by rw [hu]; exact ⟨rfl, rfl⟩)
  rw [hstartup, hnow, hcells, hlanes, hu]
  exact ⟨rfl, rfl, rfl, rfl, rfl, rfl⟩

/-- What start-up records as CONFIG_READY. -/
def readied (fails : List Nat) (s : State) : State :=
  serviceStep (followerPorts (stagesAtReady (becomeReady (placed fails s))))

theorem configReady_eq {fails : List Nat} : configReady fails s = { recordReady (readied fails s) with
    startup := { (readied fails s).startup with running := false, waking := false } } := by
  have hrec : (recordReady (readied fails s)).startup = (readied fails s).startup := within_recordAt .startup (by decide)
  rw [← hrec]
  rfl

theorem becomeReady_hbm : (becomeReady s).hbm = s.hbm := rfl
theorem becomeReady_startup : (becomeReady s).startup = { s.startup with step := 7, ready := true, readyStamp := s.now } := rfl
theorem becomeReady_caps : (becomeReady s).adm.caps.length = 44 := (List.length_map _).trans List.length_range

theorem readied_keeps {fails : List Nat} : let u := readied fails s
    u.startup.readyStamp = s.now ∧ u.startup.ready = true ∧ u.startup.step = 7 ∧ u.startup.bank = s.startup.bank ∧
      u.startup.gen = s.startup.gen ∧ u.startup.cabinet = s.startup.bootCab ∧ u.hbm.cells = [] ∧ u.hbm.lanes = [] ∧
      u.adm.caps.length = 44 := by
  obtain ⟨hnow, hcells, hlanes, hbank, hgen, hcab⟩ := placed_keeps (fails := fails) (s := s)
  have hkept : ReadyKept (becomeReady (placed fails s)) (readied fails s) :=
    (readyKept_stagesAtReady.then readyKept_followerPorts).then (within_serviceStep.ready (by decide))
  generalize readied fails s = u at hkept ⊢
  generalize placed fails s = w at *
  obtain ⟨hstartup, -, hcaps, hempty⟩ := hkept
  rw [becomeReady_hbm] at hempty
  obtain ⟨hc, hl⟩ := hempty ⟨hcells, hlanes⟩
  dsimp only
  rw [hstartup, hc, hl, hcaps, becomeReady_startup]
  exact ⟨hnow, rfl, rfl, hbank, hgen, hcab, rfl, rfl, becomeReady_caps⟩


/-! ### The requests that waited out a move -/

/-- A change of the stacks' bookkeeping and of what reads note, which leaves the frequency point in force. -/
structure Served (s t : State) : Prop where
  within : Within (.hbm :: readParts) s t
  point : t.hbm.fp = s.hbm.fp

theorem served_refl : Served s s := ⟨within_refl, rfl⟩
theorem Served.then (h1 : Served s t) (h2 : Served t u) : Served s u := ⟨h1.within.then h2.within, h2.point.trans h1.point⟩

theorem served_ite {x : Prop} [Decidable x] {a b : State} (ha : Served s a) (hb : Served s b) : Served s (if x then a else b) := by
  split
  · exact ha
  · exact hb

theorem served_forEach {α : Type} {l : List α} {f : α → State → State} (hf : ∀ a s, Served s (f a s)) : Served s (forEach l f s) := by
  induction l generalizing s with
  | nil => exact served_refl
  | cons a l ih => exact (hf a s).then (ih (s := f a s))

theorem Within.served (h : Within m s t) (hm : .hbm ∉ m) (hsub : ∀ x ∈ m, x ∈ readParts) : Served s t :=
  ⟨h.mono fun x hx => List.mem_cons_of_mem _ (hsub x hx), h.hbm_field hm fun _ => rfl⟩

theorem served_modHbm {f : Hbm → Hbm} (hf : ∀ h, ((f h).cells = h.cells ∧ (f h).lanes = h.lanes ∧ (f h).selfRef = h.selfRef) ∧ (f h).fp = h.fp) :
    Served s (modHbm f s) :=
  ⟨(within_modHbm fun h => (hf h).1).mono (by decide), (hf s.hbm).2⟩

theorem served_record {unit event : Nat} {det : List Byte} : Served s (record unit event det s) :=
  within_recordAt.served (by decide) (by decide)

theorem served_closePages {f : OpenPage → Bool} : Served s (closePages f s) := served_modHbm fun _ => ⟨⟨rfl, rfl, rfl⟩, rfl⟩

theorem served_refreshFirst {st pc arrived : Nat} {scrub : Bool} : Served s (refreshFirst st pc arrived scrub s) := by
  have hdebt : ∀ u, Served u (setDebt st pc 0 u) := fun _ => served_modHbm fun _ => ⟨⟨rfl, rfl, rfl⟩, rfl⟩
  have hrepay : ∀ u, Served u (repayDebt st pc u) := fun _ => served_ite served_refl ((hdebt _).then served_closePages)
  have hmark : ∀ u, Served u (markRefresh st pc u) := fun _ => served_modHbm fun _ => ⟨⟨rfl, rfl, rfl⟩, rfl⟩
  have htime : ∀ u, Served u (refreshInTime st pc scrub u) := fun _ => served_ite ((hmark _).then served_closePages) served_refl
  have hdone : ∀ x u, Served u (targetDone x u) := fun _ _ => served_ite (served_closePages.then served_record) served_closePages
  have hqueue : ∀ (f : Hbm → List RdTarget) (u : State), Served u (modHbm (fun h => { h with queued := f h }) u) := fun _ _ =>
    served_modHbm fun _ => ⟨⟨rfl, rfl, rfl⟩, rfl⟩
  have hfirst : ∀ u, Served u (targetsFirst st pc u) := fun _ =>
    served_ite served_refl ((hqueue _ _).then (served_forEach hdone))
  rw [refreshFirst_eq]
  exact ((served_ite (hrepay _) served_refl).then (htime _)).then (hfirst _)

theorem served_bankServed {port st pc bank row : Nat} : Served s (bankServed port st pc bank row s) := by
  refine ⟨within_bankServed.mono (by decide), ?_⟩
  obtain ⟨_, _, _, _, _, _, h⟩ := accessBank_hbm (port := port) (st := st) (pc := pc) (bank := bank) (row := row) (s := s)
  have hbank : (accessBank port st pc bank row s).hbm.fp = s.hbm.fp := by rw [h]
  exact hbank

theorem served_accessReq {r : MemReq} {age : Nat} : Served s (accessReq r age s) := by
  have hroll : Served s (rollWindow s) := served_ite served_refl (served_modHbm fun _ => ⟨⟨rfl, rfl, rfl⟩, rfl⟩)
  have hurgent : ∀ (p : Nat) (u : State), Served u (modHbm (fun h => { h with urg3 := upd h.urg3 p bump }) u) := fun _ _ =>
    served_modHbm fun _ => ⟨⟨rfl, rfl, rfl⟩, rfl⟩
  have hrolled : ∀ p, Served s (if urgency (rollWindow s) p age = 3 then
      modHbm (fun h => { h with urg3 := upd h.urg3 p bump }) (rollWindow s) else rollWindow s) := fun p =>
    served_ite (hroll.then (hurgent p _)) hroll
  unfold accessReq
  dsimp only
  exact served_ite served_refl (served_ite (((hrolled _).then served_refreshFirst).then served_bankServed)
    ((((hrolled _).then served_refreshFirst).then served_bankServed).then (within_noteRead.served (by decide) (by decide))))

theorem served_serveWaiting : Served s (serveWaiting s) := by
  have herase : ∀ (w : MemReq × Nat) (u : State), Served u (modHbm (fun h => { h with waiting := h.waiting.erase w }) u) := fun _ _ =>
    served_modHbm fun _ => ⟨⟨rfl, rfl, rfl⟩, rfl⟩
  unfold serveWaiting
  refine served_forEach fun _ u => ?_
  cases nextWaiting u with
  | none => exact served_refl
  | some w => exact (herase w u).then served_accessReq

/-- The end of a move puts the point in force, and the counter goes on. -/
theorem freqChanged_point (h : s.hbm.moving = some (q, cause)) : (freqChanged s).hbm.fp = q := by
  have htold : (freqTold q cause s).hbm = (freqLeft q s).hbm := freqTold_hbm
  have hkept := freqKept_freqFollowed (s := freqTold q cause s) (by rw [htold]; rfl)
  have hfp : (freqFollowed (freqTold q cause s)).hbm.fp = q := by rw [hkept, htold]; rfl
  rw [freqChanged_moving h]
  split
  · exact hfp
  · exact served_serveWaiting.point.trans hfp

theorem freqChanged_now : (freqChanged s).now = s.now := by
  cases h : s.hbm.moving with
  | none => rw [freqChanged_idle h]
  | some x =>
    have hfollowed : (freqFollowed (freqTold x.1 x.2 s)).now = s.now :=
      (within_freqFollowed .now (by decide)).trans (within_freqTold .now (by decide))
    rw [freqChanged_moving h]
    split
    · exact hfollowed
    · exact (served_serveWaiting.within .now (by decide)).trans hfollowed

/-! ### A training point -/

theorem within_trainRecord {point before b : Nat} : Within [.training, .free] s (trainRecord point before b s) := by
  have hset : ∀ (r : List Byte) (u : State), Within [.training] u (setRecord point (b / 32) (b % 32) r u) := fun _ _ => within_of_eq rfl (by decide)
  have hfree : Within [.training, .free] s (takeFree s).2 := within_of_eq_sub (m := [.free]) rfl (by decide) (by decide)
  unfold trainRecord
  split
  · exact (hset _ s).mono (by decide)
  · exact hfree.then ((hset _ _).mono (by decide))

/-- A timing set made valid. -/
def setValid (point : Nat) (s : State) : State := { s with hbm := { s.hbm with tsValid := upd s.hbm.tsValid point fun _ => true } }

/-- The pseudo-channels whose result a point that ends records. -/
def recorded (point before : Nat) (old : Bool) (s : State) : List Nat :=
  (List.range 64).filter fun b => if bitOf s.training.fail b then !old || !bitOf before b else !old && !hasRecord s point b

/-- The end of a point in which no pseudo-channel failed, before what follows it. -/
def pointTold (point us before : Nat) (old : Bool) (s : State) : State :=
  let s := forEach (recorded point before old s) (trainRecord point before) s
  if old then s
  else record 1 0x1304 (u8 point ++ u8 (64 - (bitsOf s.training.fail 64).length) ++ u16 0 ++ u32 us) s

theorem pointDone_next {us : Nat} : pointDone (p + 1) us [] s = trainMove p
    (pointTold (p + 1) us (freqChanged s).training.fail (verifies (freqChanged s) (p + 1)) (setValid (p + 1) (freqChanged s))) := rfl

/-- Step 4 of start-up begun, training at rest. -/
def trainedOut (s : State) : State := { s with
  training := { s.training with state := 0, steps := stepsNow s, last := s.now, time := min top32 ((s.now - s.training.began) / usec) }
  startup := { s.startup with step := 4, degraded := decide (s.hbm.m < 62) } }

theorem pointDone_last {us : Nat} : pointDone 0 us [] s = serviceStep (trainedOut (replaceFailed
    (pointTold 0 us (freqChanged s).training.fail (verifies (freqChanged s) 0) (setValid 0 (freqChanged s))))) := rfl

theorem within_pointTold {point us before : Nat} {old : Bool} : Within [.training, .free, .ledger] s (pointTold point us before old s) := by
  have hwalk : ∀ l, Within [.training, .free, .ledger] s (forEach l (trainRecord point before) s) := fun _ =>
    within_forEach fun _ _ => within_trainRecord.mono (by decide)
  unfold pointTold
  dsimp only
  exact within_ite (hwalk _) ((hwalk _).then (within_recordAt.mono (by decide)))

theorem within_setValid {point : Nat} : Within [.hbm] s (setValid point s) := within_of_eq rfl (by decide)

theorem within_replaceFailed : Within [.hbm, .ledger] s (replaceFailed s) := by
  have hone : ∀ (st pc : Nat) (u : State), Within [.hbm, .ledger] u (replacePc st pc u) := fun st pc u => by
    unfold replacePc
    split
    · exact within_refl
    · split
      · have hrec : ∀ det, Within [.hbm, .ledger] u (record 1 0x1306 det u) := fun _ => within_recordAt.mono (by decide)
        exact (hrec _).then (within_of_eq_sub (m := [.hbm]) rfl (by decide) (by decide))
      · exact within_of_eq_sub (m := [.hbm]) rfl (by decide) (by decide)
  have hres : ∀ u : State, Within [.hbm, .ledger] u
      { u with hbm := { u.hbm with reserves := u.hbm.reserves.filter fun r => !bitOf u.training.fail (32 * r.1 + r.2) } } :=
    fun _ => within_of_eq_sub (m := [.hbm]) rfl (by decide) (by decide)
  exact (hres s).then (within_forEach fun b _ => hone _ _ _)

theorem exec_trnPointDone {us : Nat} (hrun : s.startup.running = true) (hp0 : s.power.state = .p0) (hstep : s.startup.step = 3)
    (hpoint : s.training.point = p) : exec (.trnPointDone dt p us []) s = .next (pointDone p us [] (tick dt s)) := by
  have hat : atStep (tick dt s) 3 = true := by
    simp only [atStep]
    rw [show (tick dt s).startup = s.startup from rfl, show (tick dt s).power = s.power from rfl, hrun, hstep, hp0]
    rfl
  exact congrArg Host.Outcome.next (if_pos ⟨hat, hpoint.symm⟩)

/-- The end of a point above F0. -/
theorem trnPointDone_next {us : Nat} : let t := pointDone (p + 1) us [] (tick dt s)
    t.training.point = p ∧ t.hbm.moving = some (p, 4) ∧ t.hbm.selfRef = true ∧ (∀ q c, s.hbm.moving = some (q, c) → t.hbm.fp = q) ∧
      (s.hbm.moving = none → t.startup = s.startup ∧ t.hbm = { s.hbm with
          tsValid := upd s.hbm.tsValid (p + 1) fun _ => true, moving := some (p, 4), selfRef := true, pages := [], debts := [] } ∧
        t = { tick dt s with now := t.now, meter := t.meter, training := t.training, hbm := t.hbm, ledger := t.ledger,
                             wear := t.wear, startup := s.startup, free := t.free }) := by
  dsimp only
  rw [pointDone_next]
  generalize (freqChanged (tick dt s)).training.fail = before
  generalize verifies (freqChanged (tick dt s)) (p + 1) = old
  have htold : Within [.training, .free, .ledger] (setValid (p + 1) (freqChanged (tick dt s)))
      (pointTold (p + 1) us before old (setValid (p + 1) (freqChanged (tick dt s)))) := within_pointTold
  have hhbm := htold.apply State.hbm rfl
  refine ⟨rfl, rfl, rfl, fun q c hmoving => ?_, fun hmoving => ?_⟩
  · have hfp : (pointTold (p + 1) us before old (setValid (p + 1) (freqChanged (tick dt s)))).hbm.fp = (freqChanged (tick dt s)).hbm.fp := by
      rw [hhbm]
      rfl
    exact hfp.trans (freqChanged_point (s := tick dt s) hmoving)
  · rw [freqChanged_idle (s := tick dt s) hmoving] at *
    have hmove : ∀ u, Within [.hbm, .selfRef, .training] u (trainMove p u) := fun _ => within_of_eq rfl (by decide)
    have hall : Within [.hbm, .selfRef, .training, .free, .ledger] (tick dt s)
        (trainMove p (pointTold (p + 1) us before old (setValid (p + 1) (tick dt s)))) :=
      ((within_setValid.mono (by decide)).then (htold.mono (by decide))).then ((hmove _).mono (by decide))
    refine ⟨hall .startup (by decide), ?_, within_eq (hall.mono (by decide) : Within [.now, .meter, .training, .hbm, .selfRef, .cells,
      .ledger, .saved, .wear, .free] _ _)⟩
    rw [trainMove, hhbm]
    rfl

/-- The end of the point F0. -/
theorem trnPointDone_last {us : Nat} : let t := pointDone 0 us [] (tick dt s)
    t.startup.step = 4 ∧ t.training.state = 0 ∧ t.training.last = (tick dt s).now ∧ t.startup.degraded = decide (t.hbm.m < 62) := by
  dsimp only
  rw [pointDone_last]
  generalize (freqChanged (tick dt s)).training.fail = before
  generalize verifies (freqChanged (tick dt s)) 0 = old
  obtain ⟨v, hv⟩ : ∃ v, v = replaceFailed (pointTold 0 us before old (setValid 0 (freqChanged (tick dt s)))) := ⟨_, rfl⟩
  rw [← hv]
  have hnow : v.now = (tick dt s).now := by
    rw [hv]
    exact (within_replaceFailed .now (by decide)).trans ((within_pointTold .now (by decide)).trans freqChanged_now)
  have hservice : Within [.wear, .ledger] (trainedOut v) (serviceStep (trainedOut v)) := within_serviceStep
  rw [show (serviceStep (trainedOut v)).startup = _ from hservice .startup (by decide),
    show (serviceStep (trainedOut v)).training = _ from hservice .training (by decide), hservice.apply State.hbm rfl]
  exact ⟨rfl, rfl, hnow, rfl⟩

/-- Settles O18: what is loaded, placed and started between the last training point and CONFIG_READY leaves what start-up noted. -/
theorem startUpProceeds : Obligations.StartUpProceeds := by
  refine fun dt us s hrun hp0 => ⟨fun hstep _ p _ hpoint => ?_, fun hstep hpoint => ?_, fun hstep fails => ?_⟩
  · obtain ⟨hp, hmoving, hself, hfp, hidle⟩ := trnPointDone_next (dt := dt) (s := s) (p := p) (us := us)
    refine ⟨_, exec_trnPointDone hrun hp0 hstep hpoint, hp, hmoving, hself, hfp, fun hm => ?_⟩
    obtain ⟨hstartup, hhbm, hframe⟩ := hidle hm
    exact ⟨(congrArg Startup.step hstartup).trans hstep, hhbm, hframe⟩
  · exact ⟨_, exec_trnPointDone hrun hp0 hstep hpoint, trnPointDone_last⟩
  · have hat : atStep (tick dt s) 4 = true := by
      simp only [atStep]
      rw [show (tick dt s).startup = s.startup from rfl, show (tick dt s).power = s.power from rfl, hrun, hstep, hp0]
      rfl
    exact ⟨readied fails (tick dt s), congrArg Host.Outcome.next ((if_pos hat).trans configReady_eq), readied_keeps⟩

end Sys2Proof.Machine
end

section
/-!
PROOFS. The Keeper's boot and RESET_B (chapters 3 and 4): what a boot keeps of the input and of the image banks, and what the
assertion of RESET_B leaves.
-/

namespace Sys2Proof.Machine
variable {s t u : State} {dt cab n q vin : Nat} {info : BootInfo} {m : List StatePart}

/-! ### What a boot keeps -/

/-- The input, the counter, the power-ups and what start-up knows of the flash and the cabinet pins. -/
structure BootKept (s t : State) : Prop where
  now : t.now = s.now
  resetB : t.power.resetB = s.power.resetB
  inputValid : t.power.inputValid = s.power.inputValid
  vin : t.power.vin = s.power.vin
  powerUps : t.wear.powerUps = s.wear.powerUps
  bankA : t.startup.bankA = s.startup.bankA
  bankB : t.startup.bankB = s.startup.bankB
  cabPins : t.startup.cabPins = s.startup.cabPins
  step : t.startup.step = s.startup.step

theorem bootKept_refl : BootKept s s := ⟨rfl, rfl, rfl, rfl, rfl, rfl, rfl, rfl, rfl⟩

theorem BootKept.then (h1 : BootKept s t) (h2 : BootKept t u) : BootKept s u :=
  ⟨h2.now.trans h1.now, h2.resetB.trans h1.resetB, h2.inputValid.trans h1.inputValid, h2.vin.trans h1.vin, h2.powerUps.trans h1.powerUps,
    h2.bankA.trans h1.bankA, h2.bankB.trans h1.bankB, h2.cabPins.trans h1.cabPins, h2.step.trans h1.step⟩

theorem bootKept_ite {x : Prop} [Decidable x] {a b : State} (ha : BootKept s a) (hb : BootKept s b) : BootKept s (if x then a else b) := by
  split
  · exact ha
  · exact hb

theorem bootKept_forEach {α : Type} {l : List α} {f : α → State → State} (hf : ∀ a s, BootKept s (f a s)) : BootKept s (forEach l f s) := by
  induction l generalizing s with
  | nil => exact bootKept_refl
  | cons a l ih => exact (hf a s).then (ih (s := f a s))

theorem Within.bootKept (h : Within m s t) (hm : .now ∉ m ∧ .power ∉ m ∧ .wear ∉ m ∧ .startup ∉ m) : BootKept s t := by
  obtain ⟨hnow, hpower, hwear, hstartup⟩ := hm
  have hst : t.startup = s.startup := h .startup hstartup
  have hw : t.wear = s.wear := h .wear hwear
  refine ⟨h .now hnow, h.power_field hpower (f := Power.resetB) fun _ => rfl, h.power_field hpower (f := Power.inputValid) fun _ => rfl,
    h.power_field hpower (f := Power.vin) fun _ => rfl, by rw [hw], by rw [hst], by rw [hst], by rw [hst], by rw [hst]⟩

theorem bootKept_record {unit event : Nat} {det : List Byte} : BootKept s (record unit event det s) := within_recordAt.bootKept (by decide)

theorem bootKept_measureHoldup : BootKept s (measureHoldup n s) := by
  have hheld : BootKept s (heldUp n s) := ⟨rfl, rfl, rfl, rfl, rfl, rfl, rfl, rfl, rfl⟩
  rw [measureHoldup_eq]
  exact bootKept_ite (hheld.then bootKept_record) hheld

theorem bootKept_applyK : BootKept s (applyK s) := by
  have hset : ∀ (r : Nat) (w : Word) (u : State), BootKept u (setRaw r w u) := fun _ _ _ => ⟨rfl, rfl, rfl, rfl, rfl, rfl, rfl, rfl, rfl⟩
  have haddr : ∀ a : Nat, BootKept s { s with power := { s.power with smbAddr := a } } := fun _ => ⟨rfl, rfl, rfl, rfl, rfl, rfl, rfl, rfl, rfl⟩
  exact ((((haddr _).then (bootKept_forEach fun _ _ => hset _ _ _)).then (hset _ _ _)).then (hset _ _ _)).then (hset _ _ _)

/-- The slot that a boot chooses among images, for the pin level stored. -/
def slotPicked (slots : List FwImage) (pin : Nat) (s : State) : State :=
  match bestSlot slots (fun f => imageGood f && (decide (pin = 0) || f.level == pin)) with
  | some i => { s with wear := { s.wear with slot := i } }
  | none => match bestSlot slots imageGood with
    | some i =>
      let lvl := (slots[i]?).elim 0 (·.level)
      record 0x2E 0x1804 (u16 pin ++ u16 lvl ++ u8 i) { s with wear := { s.wear with slot := i, mismatch := true } }
    | none => { s with wear := { s.wear with slot := 0 } }

/-- The images found by a boot, the bad ones recorded. -/
def slotsTold (slots : List FwImage) (pin : Nat) (s : State) : State :=
  forEach [0, 1] (fun (i : Nat) s => if (slots[i]?).any imageGood then s else record 0x2E 0x404 (u8 i) s)
    { s with wear := { s.wear with slots := slots, pin := pin, mismatch := false } }

def slotsSeen (bad : List Nat) (s : State) : List FwImage := s.wear.slots.zipIdx.map fun x => { x.1 with ok := x.1.ok && !bad.contains x.2 }

theorem chooseSlot_eq {bad : List Nat} : chooseSlot bad s =
    slotPicked (slotsSeen bad s) s.wear.pinStored (slotsTold (slotsSeen bad s) s.wear.pinStored s) := rfl

theorem bootKept_slotsTold {slots : List FwImage} {pin : Nat} : BootKept s (slotsTold slots pin s) := by
  have hslots : BootKept s { s with wear := { s.wear with slots := slots, pin := pin, mismatch := false } } :=
    ⟨rfl, rfl, rfl, rfl, rfl, rfl, rfl, rfl, rfl⟩
  exact hslots.then (bootKept_forEach fun _ _ => bootKept_ite bootKept_refl bootKept_record)

theorem bootKept_slotPicked {slots : List FwImage} {pin : Nat} : BootKept s (slotPicked slots pin s) := by
  have hslot : ∀ (i : Nat) (b : Bool), BootKept s { s with wear := { s.wear with slot := i, mismatch := b } } :=
    fun _ _ => ⟨rfl, rfl, rfl, rfl, rfl, rfl, rfl, rfl, rfl⟩
  have hpick : ∀ i : Nat, BootKept s { s with wear := { s.wear with slot := i } } := fun _ => ⟨rfl, rfl, rfl, rfl, rfl, rfl, rfl, rfl, rfl⟩
  unfold slotPicked
  split
  · exact hpick _
  · split
    · exact (hslot _ _).then bootKept_record
    · exact hpick _

theorem bootKept_chooseSlot {bad : List Nat} : BootKept s (chooseSlot bad s) := by
  rw [chooseSlot_eq]
  exact bootKept_slotsTold.then bootKept_slotPicked

/-- The cabinet of the boot noted at its pins. -/
def cabNoted (cab : Nat) (s : State) : State := { s with startup := { s.startup with cabPins := cab } }

/-- The image resolved for a cabinet, before what is recorded of it. -/
def imageResolved (cab : Nat) (s : State) : State :=
  let (bank, bad) := chooseBank s.startup.bankA s.startup.bankB
  let s := { s with startup := { s.startup with bank := bank, bankBad := bad, cabinet := cab, cabPins := cab, bootCab := cab, cabSrc := false } }
  let rs := recsInUse s
  let es := rs.filterMap (clampOf bank rs)
  { s with startup := { s.startup with
    gen := match bank with
      | 0 => bankGen s.startup.bankA
      | 1 => bankGen s.startup.bankB
      | _ => 0
    clamps := es.take 256
    clampTotal := es.length
    kFields := resolveK rs cab
    sFields := resolveS rs cab
    hFields := resolveH rs cab } }

theorem bootKept_imageResolved : BootKept (cabNoted cab s) (imageResolved cab s) := ⟨rfl, rfl, rfl, rfl, rfl, rfl, rfl, rfl, rfl⟩

theorem bootKept_resolveImage : BootKept (cabNoted cab s) (resolveImage cab s) := by
  have hrec : ∀ (b : Bool) (event : Nat) (det : List Byte) (u : State), BootKept u (if b then record 0x2E event det u else u) := fun _ _ _ _ =>
    bootKept_ite bootKept_record bootKept_refl
  have hnone : ∀ (x : Prop) [Decidable x] (event : Nat) (det : List Byte) (u : State), BootKept u (if x then record 0x2E event det u else u) :=
    fun _ _ _ _ _ => bootKept_ite bootKept_record bootKept_refl
  have hlast : ∀ (l : List (Nat × List Byte)) (det : List Byte) (u : State), BootKept u (if l.isEmpty then u else record 0x2E 0x405 det u) :=
    fun _ _ _ => bootKept_ite bootKept_refl bootKept_record
  exact ((bootKept_imageResolved.then (hrec _ _ _ _)).then (hnone _ _ _ _)).then (bootKept_ite bootKept_refl bootKept_record)


/-! ### The boot -/

/-- What a boot's last step leaves: as before, the counter perhaps one on, and start-up past step 2 where it was. -/
structure BootEnd (s t : State) : Prop where
  now : t.now = s.now ∨ t.now = (s.now + 1) % 2 ^ 64
  resetB : t.power.resetB = s.power.resetB
  inputValid : t.power.inputValid = s.power.inputValid
  vin : t.power.vin = s.power.vin
  powerUps : t.wear.powerUps = s.wear.powerUps
  bankA : t.startup.bankA = s.startup.bankA
  bankB : t.startup.bankB = s.startup.bankB
  cabPins : t.startup.cabPins = s.startup.cabPins
  step : 2 ≤ s.startup.step → 2 ≤ t.startup.step

theorem BootKept.ends (h : BootKept s t) : BootEnd s t :=
  ⟨.inl h.now, h.resetB, h.inputValid, h.vin, h.powerUps, h.bankA, h.bankB, h.cabPins, fun hs => by rw [h.step]; exact hs⟩

theorem BootKept.thenEnd (h1 : BootKept s t) (h2 : BootEnd t u) : BootEnd s u := by
  obtain ⟨hnow, hresetB, hinput, hvin, hups, hbankA, hbankB, hcab, hstep⟩ := h1
  exact ⟨hnow ▸ h2.now, h2.resetB.trans hresetB, h2.inputValid.trans hinput, h2.vin.trans hvin, h2.powerUps.trans hups,
    h2.bankA.trans hbankA, h2.bankB.trans hbankB, h2.cabPins.trans hcab, fun h => h2.step (by rw [hstep]; exact h)⟩

theorem bootEnd_restart {wake : Bool} :
    BootEnd s (beginTraining { restart3 s with startup := { (restart3 s).startup with waking := wake } }) := by
  refine ⟨?_, rfl, rfl, rfl, rfl, rfl, rfl, rfl, fun _ => (by decide : 2 ≤ 3)⟩
  by_cases hfast : s.power.fastClocks = true
  · exact .inl (if_pos hfast)
  · exact .inr (if_neg hfast)

theorem bootEnd_goStep3 {wake : Bool} : BootEnd s (goStep3 wake s) := by
  unfold goStep3
  split
  · exact bootKept_refl.ends
  · split
    · exact ⟨.inl rfl, rfl, rfl, rfl, rfl, rfl, rfl, rfl, fun _ => (by decide : 2 ≤ 2)⟩
    · split
      · exact ⟨.inl rfl, rfl, rfl, rfl, rfl, rfl, rfl, rfl, fun _ => (by decide : 2 ≤ 3)⟩
      · exact bootEnd_restart

/-- What a boot clears before it does anything else. -/
def bootCleared (cab : Nat) (info : BootInfo) (s : State) : State := { s with
  ledger := { s.ledger with seqs := List.replicate 64 0 }
  training := { s.training with records := [] }
  thermal := { s.thermal with
    sensors := s.thermal.sensors.map fun (x : Sensor) => { x with suspect := false, deviant := 0, hist := [] }
    zones := List.replicate 8 Reset.zone }
  startup := { s.startup with step := 1, running := true, waking := false, ready := false, abandoned := false
                              factoryBad := info.factoryBad, cabPins := cab % 8, bootCab := cab % 8, clamps := []
                              clampTotal := 0 } }

/-- The boot's rings counted. -/
def bootBegun (cab : Nat) (info : BootInfo) (s : State) : State := { bootCleared cab info s with wear := { s.wear with
  ringsBad := info.ringsBad.drop 8, ringSpared := max s.wear.ringSpared (min 8 info.ringsBad.length) } }

/-- Start-up's first step done. -/
def firstDone (s : State) : State := serviceStep { s with startup := { s.startup with step := 2 } }

/-- A boot up to step 2. -/
def bootStep2 (cab : Nat) (info : BootInfo) (s : State) : State :=
  firstDone (chooseSlot info.slotBad (applyK (resolveImage (cab % 8) (measureHoldup info.holdup (bootBegun cab info s)))))

theorem serviceStep_bootKept : BootKept s (serviceStep s) := by
  have hwear : (serviceStep s).wear.powerUps = s.wear.powerUps := by rw [serviceStep_wear]
  have hstartup : (serviceStep s).startup = s.startup := within_serviceStep .startup (by decide)
  have hpower : (serviceStep s).power = s.power := within_serviceStep.apply State.power rfl
  exact ⟨within_serviceStep .now (by decide), by rw [hpower], by rw [hpower], by rw [hpower], hwear, by rw [hstartup], by rw [hstartup],
    by rw [hstartup], by rw [hstartup]⟩

/-- A boot that stops where start-up may not go on. -/
def bootStopped (s : State) : State := { s with startup := { s.startup with running := false } }

theorem keeperBoot_eq (h : info.factoryBad = false) : keeperBoot cab info s =
    if mayStart (bootStep2 cab info s) then goStep3 false (bootStep2 cab info s) else bootStopped (bootStep2 cab info s) := by
  unfold keeperBoot
  extract_lets a b c d e f g i j k w x v y
  have hi : i = bootBegun cab info s := rfl
  have hw : w = chooseSlot info.slotBad (applyK (resolveImage (cab % 8) (measureHoldup info.holdup i))) := rfl
  clear_value w
  have hv : v = firstDone w := rfl
  clear_value v
  rw [if_neg (by rw [h]; exact Bool.false_ne_true), bootStep2, ← hi, ← hw, ← hv]
  rfl

/-- A state with its pins and start-up step as given. -/
def stampedBoot (cab step : Nat) (s : State) : State := { s with startup := { s.startup with cabPins := cab, step := step } }

theorem BootKept.stamped (h : BootKept s t) {step : Nat} : BootKept (stampedBoot cab step s) (stampedBoot cab step t) :=
  ⟨h.now, h.resetB, h.inputValid, h.vin, h.powerUps, h.bankA, h.bankB, rfl, rfl⟩

theorem bootKept_bootStep2 : BootKept (stampedBoot (cab % 8) 2 s) (bootStep2 cab info s) := by
  have hbegun : BootKept (stampedBoot (cab % 8) 2 s) (stampedBoot (cab % 8) 2 (bootBegun cab info s)) :=
    ⟨rfl, rfl, rfl, rfl, rfl, rfl, rfl, rfl, rfl⟩
  have hheld : BootKept (bootBegun cab info s) (measureHoldup info.holdup (bootBegun cab info s)) := bootKept_measureHoldup
  rw [bootStep2]
  generalize measureHoldup info.holdup (bootBegun cab info s) = v at hheld ⊢
  have himage : BootKept (cabNoted (cab % 8) v) (chooseSlot info.slotBad (applyK (resolveImage (cab % 8) v))) :=
    (bootKept_resolveImage.then bootKept_applyK).then bootKept_chooseSlot
  generalize chooseSlot info.slotBad (applyK (resolveImage (cab % 8) v)) = w at himage ⊢
  have hnoted : BootKept (stampedBoot (cab % 8) 2 v) (stampedBoot (cab % 8) 2 (cabNoted (cab % 8) v)) :=
    ⟨rfl, rfl, rfl, rfl, rfl, rfl, rfl, rfl, rfl⟩
  have hstep : BootKept (stampedBoot (cab % 8) 2 w) { w with startup := { w.startup with step := 2 } } :=
    ⟨rfl, rfl, rfl, rfl, rfl, rfl, rfl, himage.cabPins, rfl⟩
  have hservice : ∀ u, BootKept u (serviceStep u) := fun _ => serviceStep_bootKept
  exact ((((hbegun.then hheld.stamped).then hnoted).then himage.stamped).then hstep).then (hservice _)

/-- A boot with a good factory record takes start-up past step 2. -/
theorem bootEnd_keeperBoot (h : info.factoryBad = false) : BootEnd (stampedBoot (cab % 8) 2 s) (keeperBoot cab info s) := by
  have hstop : ∀ u, BootKept u (bootStopped u) := fun _ => ⟨rfl, rfl, rfl, rfl, rfl, rfl, rfl, rfl, rfl⟩
  rw [keeperBoot_eq h]
  split
  · exact bootKept_bootStep2.thenEnd bootEnd_goStep3
  · exact (bootKept_bootStep2.then (hstop _)).ends

/-! ### The input becomes valid -/

theorem within_latchAtValid : Within [.thermal] s (latchAtValid s) := within_ite (within_of_eq rfl (by decide)) within_refl

/-- A cold module that has seen its input become valid and sampled its pins. -/
def inputSeen (vin cab : Nat) (s : State) : State :=
  sampleCab cab (seeVin vin { coldState s with
    power := { (coldState s).power with inputValid := true, overStop := false }
    wear := { s.wear with powerUps := bump s.wear.powerUps } })

theorem inputValid_boots (hvin : 9000 ≤ vin) (hinput : s.power.inputValid = false) (hover : s.power.overStop = false)
    (hp4 : s.power.state = .p4) (hreset : s.power.resetB = false) :
    inputValid vin cab info s = keeperBoot cab info (latchAtValid (inputSeen vin cab s)) := by
  have hcond : ¬(vin < 9000 ∨ s.power.inputValid = true ∨ s.power.overStop = true ∧ 60000 < vin) := by
    rw [hinput, hover]
    simp
    omega
  have hseen : inputValid vin cab info s =
      if (latchAtValid (inputSeen vin cab s)).power.state ≠ .p3 ∨ (latchAtValid (inputSeen vin cab s)).power.resetB then latchAtValid (inputSeen vin cab s)
      else if (latchAtValid (inputSeen vin cab s)).startup.step < 2 ∧ !(latchAtValid (inputSeen vin cab s)).startup.factoryBad then
        keeperBoot cab info (latchAtValid (inputSeen vin cab s))
      else if mayStart (latchAtValid (inputSeen vin cab s)) then
        goStep3 false (measureHoldup info.holdup (latchAtValid (inputSeen vin cab s)))
      else latchAtValid (inputSeen vin cab s) := by
    unfold inputValid
    rw [if_neg hcond]
    dsimp only
    rw [if_pos hp4]
    rfl
  have hpower : (latchAtValid (inputSeen vin cab s)).power = (inputSeen vin cab s).power := within_latchAtValid.apply State.power rfl
  have hstartup : (latchAtValid (inputSeen vin cab s)).startup = (inputSeen vin cab s).startup := within_latchAtValid .startup (by decide)
  rw [hseen, hpower, hstartup, if_neg, if_pos]
  · exact ⟨Nat.zero_lt_two, rfl⟩
  · intro h
    rcases h with h | h
    · exact h rfl
    · rw [show (inputSeen vin cab s).power.resetB = s.power.resetB from rfl, hreset] at h
      cases h

theorem exec_inputValid {v : Supply} (hgood : info.factoryBad = false) (hvin : 9000 ≤ v.vin) (hinput : s.power.inputValid = false)
    (hover : s.power.overStop = false) (hp4 : s.power.state = .p4) (hreset : s.power.resetB = false) :
    ∃ t, exec (.inputValid dt v cab info) s = .next t ∧ t.power.inputValid = true ∧ t.power.vin = v.vin ∧ t.now ≤ 1 ∧
      t.wear.powerUps = bump s.wear.powerUps ∧ t.startup.cabPins = cab % 8 ∧ 2 ≤ t.startup.step ∧
      t.startup.bankA = s.startup.bankA ∧ t.startup.bankB = s.startup.bankB := by
  have hkept : BootKept (inputSeen v.vin cab (tick dt s)) (latchAtValid (inputSeen v.vin cab (tick dt s))) := within_latchAtValid.bootKept (by decide)
  have hend := hkept.stamped.thenEnd (bootEnd_keeperBoot (cab := cab) hgood)
  refine ⟨_, congrArg Host.Outcome.next (inputValid_boots (s := tick dt s) hvin hinput hover hp4 hreset), hend.inputValid, hend.vin, ?_,
    hend.powerUps, hend.cabPins, hend.step (by decide : 2 ≤ 2), hend.bankA, hend.bankB⟩
  rcases hend.now with h | h
  · rw [h]
    exact Nat.zero_le 1
  · rw [h]
    exact (by decide : (0 + 1) % 2 ^ 64 ≤ 1)

/-! ### RESET_B -/

/-- What the release of RESET_B leaves to the boot. -/
def released (cab : Nat) (s : State) : State :=
  sampleCab cab { s with gheler := Reset.gheler, adm := { s.adm with items := [] }, power := { s.power with resetB := false } }

theorem exec_resetBRelease (hgood : info.factoryBad = false) (hreset : s.power.resetB = true) (hp4 : s.power.state ≠ .p4)
    (hlatch : s.thermal.latch = false) (hinput : s.power.inputValid = true) :
    ∃ t, exec (.resetBRelease dt cab info) s = .next t ∧ t.power.resetB = false ∧ t.startup.cabPins = cab % 8 ∧
      2 ≤ t.startup.step ∧ (t.now = (tick dt s).now ∨ t.now = ((tick dt s).now + 1) % 2 ^ 64) ∧
      t.wear.powerUps = s.wear.powerUps := by
  have hboot : resetRelease cab info (tick dt s) = keeperBoot cab info (released cab (tick dt s)) := by
    have hcond : ¬((released cab (tick dt s)).power.state = .p4 ∨ (released cab (tick dt s)).thermal.latch = true ∨
        (!(released cab (tick dt s)).power.inputValid) = true) := by
      rw [show (released cab (tick dt s)).power.state = s.power.state from rfl, show (released cab (tick dt s)).thermal.latch = s.thermal.latch from rfl,
        show (released cab (tick dt s)).power.inputValid = s.power.inputValid from rfl, hlatch, hinput]
      simp [hp4]
    exact if_neg hcond
  have hend := bootEnd_keeperBoot (s := released cab (tick dt s)) (cab := cab) hgood
  exact ⟨_, congrArg Host.Outcome.next ((if_pos hreset).trans hboot), hend.resetB, hend.cabPins, hend.step (by decide : 2 ≤ 2), hend.now, hend.powerUps⟩


/-- A mask of some bits is not empty. -/
theorem foldl_or_le {l : List Nat} : ∀ m : Nat, m ≤ l.foldl (fun m i => m ||| 2 ^ i) m := by
  induction l with
  | nil => exact fun m => Nat.le_refl m
  | cons a l ih => exact fun m => Nat.le_trans Nat.left_le_or (ih (m ||| 2 ^ a))

theorem maskOf_ne_zero {l : List Nat} (h : l ≠ []) : maskOf l ≠ 0 := by
  cases l with
  | nil => exact absurd rfl h
  | cons a l =>
    have hbit : 0 < 0 ||| 2 ^ a := by
      rw [Nat.zero_or]
      exact Nat.two_pow_pos a
    exact Nat.ne_of_gt (Nat.lt_of_lt_of_le hbit (foldl_or_le _))

/-- The outputs forced off and the sessions ended by RESET_B. -/
def resetOff (s : State) : State := abortSessions (fun _ => true) (allOff 5 { s with power := { s.power with resetB := true } })

/-- The units reset, their loops kept. -/
def unitsReset (s : State) : State := keepLoops s (resetUnits s)

theorem within_resetOff : Within (.training :: loopParts) { s with power := { s.power with resetB := true } } (resetOff s) :=
  Within.then (within_allOff.mono (by decide)) (within_abortSessions.mono (by decide))

theorem resetAssert_eq (hp4 : s.power.state ≠ .p4) (hlatch : s.thermal.latch = false) : resetAssert s =
    loopDisabled (maskOf (enabledChans s)) 5 (unitsReset (resetOff s)) := by
  have hcold : ¬s.thermal.latch = true := by
    rw [hlatch]
    exact Bool.false_ne_true
  unfold resetAssert
  dsimp only
  rw [if_neg hp4]
  exact congrArg (loopDisabled (maskOf (enabledChans s)) 5) (if_neg hcold)

theorem unitsReset_dark {c : Nat} : (chanOf (unitsReset s) c).enabled = false := by
  have hchan : chanOf (unitsReset s) c = (s.gheler.chans.map fun ch =>
      { Reset.chan with cause := ch.cause, cfg := ch.cfg, pendCfg := ch.pendCfg }).getD c Reset.chan := rfl
  rw [hchan, List.getD_eq_getElem?_getD, List.getElem?_map]
  cases s.gheler.chans[c]? <;> rfl

theorem unitsReset_released {k : Nat} : (headOf (unitsReset s) k).pipe.cfg = none := by
  have hhead : headOf (unitsReset s) k = (s.heads.map fun h =>
      { Reset.head with vit := { Reset.vitrine with gate := h.vit.gate } }).getD k Reset.head := rfl
  rw [hhead, List.getD_eq_getElem?_getD, List.getElem?_map]
  cases s.heads[k]? <;> rfl

/-- One LOOP_DISABLED is kept where a channel was enabled. -/
theorem loopDisabled_kept {mask cause : Nat} (hmask : mask ≠ 0) (hrun : s.startup.running = false)
    (hroom : s.ledger.main.hold.length < 16384) : ∃ r ∈ (loopDisabled mask cause s).ledger.main.hold, r.event = 0x1002 := by
  have hput : ∀ r : Rec, r ∈ (s.ledger.main.put r).hold := fun r => by
    rw [LedgerRing.put, if_pos hroom]
    exact List.mem_append_right _ List.mem_cons_self
  rw [loopDisabled, if_neg hmask]
  unfold record recordAt keepRec
  dsimp only
  rw [hrun, if_neg Bool.false_ne_true]
  split
  · exact ⟨_, hput _, rfl⟩
  · exact ⟨_, hput _, rfl⟩

theorem exec_resetBAssert (hreset : s.power.resetB = false) (hp4 : s.power.state ≠ .p4) (hlatch : s.thermal.latch = false) :
    ∃ t, exec (.resetBAssert dt) s = .next t ∧ t.power.resetB = true ∧ t.power.state = .p3 ∧ t.now = (tick dt s).now ∧
      (∀ c, (chanOf t c).enabled = false) ∧ (∀ k, (headOf t k).pipe.cfg = none) ∧ t.regs = [] ∧ t.wear = s.wear ∧
      (enabledChans s ≠ [] → ∃ r ∈ t.ledger.main.hold, r.event = 0x1002) ∧ t.startup.bankA = s.startup.bankA ∧
      t.startup.bankB = s.startup.bankB ∧ t.startup.running = false := by
  have hoff := within_resetOff (s := tick dt s)
  have hnow : (resetOff (tick dt s)).now = (tick dt s).now := hoff .now (by decide)
  have hwear : (resetOff (tick dt s)).wear = s.wear := hoff .wear (by decide)
  have hbanks : (resetOff (tick dt s)).startup = s.startup := hoff .startup (by decide)
  have hexec : exec (.resetBAssert dt) s =
      .next (loopDisabled (maskOf (enabledChans s)) 5 (unitsReset (resetOff (tick dt s)))) :=
    congrArg Host.Outcome.next ((if_neg (by rw [show (tick dt s).power = s.power from rfl, hreset]; exact Bool.false_ne_true)).trans
      (resetAssert_eq (s := tick dt s) hp4 hlatch))
  generalize resetOff (tick dt s) = v at *
  have hlast : Within [.ledger] (unitsReset v) (loopDisabled (maskOf (enabledChans s)) 5 (unitsReset v)) := within_loopDisabled
  have hpower := hlast.apply State.power rfl
  have hstartup : (loopDisabled (maskOf (enabledChans s)) 5 (unitsReset v)).startup = (unitsReset v).startup := hlast .startup (by decide)
  refine ⟨_, hexec, by rw [hpower]; rfl, by rw [hpower]; rfl, (hlast .now (by decide)).trans hnow, fun c => ?_, fun k => ?_,
    hlast .causes (by decide), (hlast .wear (by decide)).trans hwear, fun hsome => ?_, by rw [hstartup, ← hbanks]; rfl,
    by rw [hstartup, ← hbanks]; rfl, by rw [hstartup]; rfl⟩
  · rw [hlast.chanOf (by decide)]
    exact unitsReset_dark
  · rw [hlast.headOf (by decide)]
    exact unitsReset_released
  · exact loopDisabled_kept (maskOf_ne_zero hsome) rfl (by decide : 0 < 16384)

/-- Settles O17: the boot keeps the input, the banks and the pins through every step, and what RESET_B resets is the units. -/
theorem keeperBootsAndResets : Obligations.KeeperBootsAndResets :=
  ⟨fun _ _ _ _ _ hgood => ⟨exec_inputValid hgood, exec_resetBRelease hgood⟩, fun _ _ => exec_resetBAssert⟩

end Sys2Proof.Machine
end

section
/-!
PROOFS. The end of an orderly stop whose input has come back (chapters 3 and 4).
-/

namespace Sys2Proof.Machine
variable {s : State} {n : Nat}

/-! ### A new start-up after the save -/

theorem measureHoldup_clock : (measureHoldup n s).now = s.now ∧ (measureHoldup n s).power.fastClocks = s.power.fastClocks := by
  rw [measureHoldup_eq]
  split
  · exact ⟨within_recordAt .now (by decide), within_recordAt.power_field (by decide) (f := Power.fastClocks) fun _ => rfl⟩
  · exact ⟨rfl, rfl⟩

/-- A start-up whose fast clocks stood has the stamp counter one on (log 70). -/
theorem startStep3_clock {wake : Bool} (hmay : mayStart s = true) (hok : s.power.refclkOk = true) (hslot : anySlot s = true)
    (hslow : s.power.fastClocks = false) : (startStep3 wake s).now = (s.now + 1) % 2 ^ 64 := by
  obtain ⟨hnow, hfast⟩ := measureHoldup_clock (s := { s with free := s.free + 1 }) (n := Config.freeValue s.free % 65536)
  have hmeasured : measureFree s = measureHoldup (Config.freeValue s.free % 65536) { s with free := s.free + 1 } := rfl
  have hreads : startReads (measureFree s) = (true, true, true) := by
    rw [hmeasured, startReads_measureHoldup]
    exact Prod.ext_iff.2 ⟨hmay, Prod.ext_iff.2 ⟨hok, hslot⟩⟩
  obtain ⟨hmay', hrest⟩ := Prod.ext_iff.1 hreads
  obtain ⟨hok', hslot'⟩ := Prod.ext_iff.1 hrest
  have hclock : (restart3 (measureFree s)).now = (s.now + 1) % 2 ^ 64 := by
    rw [hmeasured]
    generalize measureHoldup (Config.freeValue s.free % 65536) { s with free := s.free + 1 } = v at hnow hfast
    have hslowed : ¬(loseVolatile v).power.fastClocks = true := by
      rw [show (loseVolatile v).power.fastClocks = v.power.fastClocks from rfl, hfast]
      exact fun h => Bool.false_ne_true (hslow.symm.trans h)
    exact (if_neg hslowed).trans (congrArg (fun x => (x + 1) % 2 ^ 64) hnow)
  rw [startStep3, if_pos hmay, goStep3_trains hmay' hok' hslot']
  exact hclock

/-! ### A stage 4 stop that ends with its input back -/

/-- A module at the ledger save of a stage 4 stop, whose input is valid again. -/
def savingWithInput : State := { State.reset with
  power := { Reset.power with state := .p0, inputValid := true, fastClocks := true, stop := some (.stage4, .saving) }
  startup := { Reset.startup with step := 7, ready := true } }

/-- What the save leaves before the new start-up. -/
def savedWithInput : State := enterStandby false (saveLedger (countErase 4 (tick 0 savingWithInput)))

theorem ledgerSave_savingWithInput : exec (.ledgerSave 0 []) savingWithInput = .next (startStep3 false savedWithInput) := rfl

/-- Refutes O19: the statement lets no save move the stamp counter while the fast clocks ran before it, but a stage 4 stop whose
input has come back stops the fast clocks and starts up again, and their restart counts one on. -/
theorem not_stopsRunTheirCourse : ¬ Obligations.StopsRunTheirCourse := by
  rintro ⟨-, -, hstops⟩
  obtain ⟨-, hsave⟩ := hstops 0 .stage4 savingWithInput
  obtain ⟨t, hexec, -, -, -, hclock, -⟩ := hsave rfl
  cases ledgerSave_savingWithInput.symm.trans hexec
  have hmoved : (startStep3 false savedWithInput).now = (savedWithInput.now + 1) % 2 ^ 64 :=
    startStep3_clock (by decide) (by decide) (by decide) rfl
  have hstood : (startStep3 false savedWithInput).now = (tick 0 savingWithInput).now := hclock rfl
  have hbefore : savedWithInput.now = 0 := by decide
  have hafter : (tick 0 savingWithInput).now = 0 := by decide
  rw [hmoved, hbefore, hafter] at hstood
  exact absurd hstood (by decide)

end Sys2Proof.Machine
end

section
/-!
PROOFS. A sample of a loop (chapters 16 and 17): what its inputs note, and the result it queues.
-/

namespace Sys2Proof.Machine
variable {s t u v : State} {dt c e n : Nat} {ys sp : List Int} {dist sense : Int} {x : LoopCfg} {m : List StatePart}

/-! ### What a sample keeps -/

/-- What the result queued for a channel rests on. -/
def loopCore (ch : Chan) : Option LoopCfg × ChanState × List NextOut × Nat × Nat :=
  (ch.cfg, ch.state, ch.uNew, ch.edge, ch.sample)

/-- A step of channel `c` alone that keeps its configuration, its state, the results queued and its instants. -/
structure SampleKept (c : Nat) (s t : State) : Prop where
  adm : t.adm = s.adm
  host : t.host = s.host
  ports : t.ports = s.ports
  groups : t.gheler.groups = s.gheler.groups
  others : ∀ j, j ≠ c → chanOf t j = chanOf s j
  own : loopCore (chanOf t c) = loopCore (chanOf s c)
  capture : (spOf t c).capture = (spOf s c).capture
  owner : chanOwner t c = chanOwner s c

theorem sampleKept_refl : SampleKept c s s := ⟨rfl, rfl, rfl, rfl, fun _ _ => rfl, rfl, rfl, rfl⟩

theorem SampleKept.then (h1 : SampleKept c s t) (h2 : SampleKept c t u) : SampleKept c s u :=
  ⟨h2.adm.trans h1.adm, h2.host.trans h1.host, h2.ports.trans h1.ports, h2.groups.trans h1.groups,
    fun j hj => (h2.others j hj).trans (h1.others j hj), h2.own.trans h1.own, h2.capture.trans h1.capture,
    h2.owner.trans h1.owner⟩

theorem sampleKept_ite {q : Prop} [Decidable q] {a b : State} (ha : SampleKept c s a) (hb : SampleKept c s b) : SampleKept c s (if q then a else b) := by
  split
  · exact ha
  · exact hb

theorem sampleKept_modChan {f : Chan → Chan} (hf : ∀ ch, loopCore (f ch) = loopCore ch) : SampleKept c s (modChan c f s) :=
  ⟨rfl, rfl, rfl, rfl, fun _ hj => chanOf_modChan_ne hj, chanOf_modChan_field hf, rfl, rfl⟩

theorem spOf_modSp_capture {f : SetPoint → SetPoint} (hf : ∀ p, (f p).capture = p.capture) : (spOf (modSp c f s) c).capture = (spOf s c).capture := by
  by_cases hc : c < s.gheler.sps.length
  · rw [spOf_modSp_same hc, hf]
  · rw [modSp, upd, List.modify_eq_self (by omega)]

theorem sampleKept_modSp {f : SetPoint → SetPoint} (hf : ∀ p, (f p).capture = p.capture) : SampleKept c s (modSp c f s) :=
  ⟨rfl, rfl, rfl, rfl, fun _ _ => rfl, rfl, spOf_modSp_capture hf, rfl⟩

theorem chanOwner_congr (h : ∀ k, (headOf t k).pipe = (headOf s k).pipe) : chanOwner t c = chanOwner s c := by
  unfold chanOwner
  simp only [h]

/-- A change of neither loops nor the host, of which a sample takes no notice. -/
theorem sampleKept_quiet (hadm : t.adm = s.adm) (hhost : t.host = s.host) (hports : t.ports = s.ports) (hgheler : t.gheler = s.gheler)
    (hheads : t.heads = s.heads) : SampleKept c s t := by
  have hchan : ∀ j, chanOf t j = chanOf s j := fun j => by rw [chanOf, hgheler, ← chanOf]
  exact ⟨hadm, hhost, hports, by rw [hgheler], fun j _ => hchan j, by rw [hchan], by rw [spOf, hgheler, ← spOf],
    chanOwner_congr fun k => by rw [headOf, hheads, ← headOf]⟩

theorem sampleKept_recordAt {pf1 : Bool} {at_ unit event : Nat} {det : List Byte} : SampleKept c s (recordAt pf1 at_ unit event det s) :=
  sampleKept_quiet (within_recordAt.apply State.adm rfl) (within_recordAt.apply State.host rfl) (within_recordAt .ports (by decide))
    (within_recordAt.apply State.gheler rfl) (within_recordAt .heads (by decide))

theorem sampleKept_told {f : SetPoint → SetPoint} {pf1 : Bool} {at_ unit event : Nat} {det : List Byte} (hf : ∀ p, (f p).capture = p.capture) :
    SampleKept c s (recordAt pf1 at_ unit event det (modSp c f s)) := (sampleKept_modSp hf).then sampleKept_recordAt

/-! ### A sample's result -/

theorem sampleKept_goSafe : SampleKept c s (goSafe c n s) := sampleKept_told fun _ => rfl

theorem sampleKept_liveTarget {y : SpCfg} {q : Pulse} {k : Int} : SampleKept c s (liveTarget y q k n s).2 := by
  unfold liveTarget
  dsimp only
  split
  · exact sampleKept_refl
  · split
    · exact sampleKept_refl
    · exact sampleKept_quiet rfl rfl rfl rfl rfl

theorem sampleKept_externalTarget {k : Int} : SampleKept c s (externalTarget c n k s).2 := by
  have hheard : SampleKept c s (if inputStopped (spOf s c).cfg (s.gheler.pulses.getD (spOf s c).cfg.input { edges := [], opp := [], last := 0 }) k n
      then ((0 : Int), s) else liveTarget (spOf s c).cfg (s.gheler.pulses.getD (spOf s c).cfg.input { edges := [], opp := [], last := 0 }) k n s).2 := by
    split
    · exact sampleKept_refl
    · exact sampleKept_liveTarget
  unfold externalTarget
  dsimp only
  generalize (if inputStopped (spOf s c).cfg (s.gheler.pulses.getD (spOf s c).cfg.input { edges := [], opp := [], last := 0 }) k n
      then ((0 : Int), s) else liveTarget (spOf s c).cfg (s.gheler.pulses.getD (spOf s c).cfg.input { edges := [], opp := [], last := 0 }) k n s) = heard at hheard ⊢
  obtain ⟨live, w⟩ := heard
  dsimp only at hheard ⊢
  split
  · exact hheard.then (sampleKept_modSp fun _ => rfl)
  · have hlost : SampleKept c s (if (spOf s c).input = .live then
        recordAt false n 8 0x1102 (u8 c ++ u8 (spOf s c).cfg.input ++ u16 0 ++ s32 ((spOf s c).haveLive.getD (spOf s c).target))
          (modSp c (fun p => { p with input := .holding, lostAt := n, liveRun := 0, stopRun := 0, lost := bump p.lost }) w) else w) :=
      sampleKept_ite (hheard.then (sampleKept_told fun _ => rfl)) hheard
    generalize (if (spOf s c).input = .live then
        recordAt false n 8 0x1102 (u8 c ++ u8 (spOf s c).cfg.input ++ u16 0 ++ s32 ((spOf s c).haveLive.getD (spOf s c).target))
          (modSp c (fun p => { p with input := .holding, lostAt := n, liveRun := 0, stopRun := 0, lost := bump p.lost }) w) else w) = lost at hlost ⊢
    generalize (if inputStopped (spOf s c).cfg (s.gheler.pulses.getD (spOf s c).cfg.input { edges := [], opp := [], last := 0 }) k n
      then 0 else (spOf lost c).liveRun + 1) = run
    split
    · exact hlost.then (sampleKept_told fun _ => rfl)
    · have hrun : ∀ r, SampleKept c s (modSp c (fun p => { p with liveRun := r, stopRun := p.stopRun + 1 }) lost) := fun r =>
        hlost.then (sampleKept_modSp fun _ => rfl)
      split
      · split
        · exact (hrun run).then sampleKept_goSafe
        · exact (hrun run).then sampleKept_goSafe
      · split
        · exact hrun run
        · exact hrun run

theorem sampleKept_sourceSample : SampleKept c s (sourceSample c n x s).2.2 := by
  have hlast : ∀ (w : State) (np nv dv tgt r : Int) (b : Bool), SampleKept c w
      (modChan c (fun ch => { ch with r := r, lastStep := if b then some n else ch.lastStep })
        (modSp c (fun q => { q with p := np, v := nv, dv := dv, target := tgt, formed := true }) w)) := fun w np nv dv tgt r b =>
    SampleKept.then (t := modSp c (fun q => { q with p := np, v := nv, dv := dv, target := tgt, formed := true }) w)
      (sampleKept_modSp fun _ => rfl) (sampleKept_modChan fun _ => rfl)
  unfold sourceSample
  dsimp only
  rcases boundOf s c with _ | ⟨h, sc, b⟩
  · have hheard : SampleKept c s (if (!(spOf s c).applied) = true then (x.rDark, s)
        else if (spOf s c).cfg.source = 1 then ((spOf s c).cfg.value, s)
        else externalTarget c n (s.gheler.aux.getD (spOf s c).cfg.input 0) s).2 := by
      split
      · exact sampleKept_refl
      · split
        · exact sampleKept_refl
        · exact sampleKept_externalTarget
    dsimp only
    generalize (if (!(spOf s c).applied) = true then (x.rDark, s)
        else if (spOf s c).cfg.source = 1 then ((spOf s c).cfg.value, s)
        else externalTarget c n (s.gheler.aux.getD (spOf s c).cfg.input 0) s) = heard at hheard ⊢
    exact hheard.then (hlast _ _ _ _ _ _ _)
  · cases b
    · exact hlast _ _ _ _ _ _ _
    · exact hlast _ _ _ _ _ _ _

theorem sampleKept_nextSignal : SampleKept c s (nextSignal c s).2.2 := by
  unfold nextSignal
  split
  · split
    · exact sampleKept_modSp fun _ => rfl
    · exact sampleKept_refl
  · exact sampleKept_refl

/-- What a sample computes of a channel, and where its result waits. -/
def sampleDone (c t : Nat) (x : LoopCfg) (o : SampleOut) (d u r sig : Int) (y : List Int) (gate : Bool) (s : State) : State :=
  noteSat c t (decide (x.uMax < o.uRaw)) (decide (o.uRaw < x.uMin)) (noteAccSat c t o.sat
    (modChan c (fun ch => { ch with
      x := o.x, dPrev := d, y := y, sample := t, vLast := o.v, wLast := o.w, eLast := o.e, dLast := d, sLast := sig, dz := o.dz,
      uRaw := o.uRaw, uLim := u, rIn := r, gate := gate }) s))

theorem sampleKept_noteSat {hi lo : Bool} : SampleKept c s (noteSat c n hi lo s) := by
  have hchan : ∀ f : Chan → Chan, (∀ ch, loopCore (f ch) = loopCore ch) → SampleKept c s (modChan c f s) := fun _ h => sampleKept_modChan h
  unfold noteSat
  extract_lets ch out w
  have hw : SampleKept c s w := hchan _ fun _ => rfl
  exact sampleKept_ite (hw.then sampleKept_recordAt) hw

theorem sampleKept_noteAccSat {l : List Nat} : SampleKept c s (noteAccSat c n l s) := by
  have hbits : ∀ k m, SampleKept c s (setBits k m s) := fun _ _ => sampleKept_quiet rfl rfl rfl rfl rfl
  unfold noteAccSat
  split
  · exact sampleKept_refl
  · exact sampleKept_ite sampleKept_refl ((hbits _ _).then sampleKept_recordAt)

/-- A channel sampled at an instant. -/
def sampledAt (c t : Nat) (s : State) : State := modChan c (fun ch => { ch with sample := t }) s

theorem sampleKept_sampleDone {o : SampleOut} {d w r sig : Int} {y : List Int} {gate : Bool} :
    SampleKept c (sampledAt c n s) (sampleDone c n x o d w r sig y gate s) := by
  have hdone : sampleDone c n x o d w r sig y gate s =
      noteSat c n (decide (x.uMax < o.uRaw)) (decide (o.uRaw < x.uMin)) (noteAccSat c n o.sat
        (modChan c (fun ch => { ch with
          x := o.x, dPrev := d, y := y, vLast := o.v, wLast := o.w, eLast := o.e, dLast := d, sLast := sig, dz := o.dz,
          uRaw := o.uRaw, uLim := w, rIn := r, gate := gate }) (sampledAt c n s))) := by
    rw [sampleDone, sampledAt, modChan_modChan]
  rw [hdone]
  refine SampleKept.then ?_ (sampleKept_noteAccSat.then sampleKept_noteSat)
  exact sampleKept_modChan fun _ => rfl

theorem captureStep_none (h : (spOf s c).capture = none) : captureStep c n s = s := by
  rw [captureStep, h]

/-- The integrator of a channel after a sample. -/
def integrated (c : Nat) (z : Int → Int) (s : State) : State := modChan c (fun ch => { ch with z := z ch.z }) s

/-- Of a sample in a channel outside a group: the steps that keep the channel, the instant, and one result within the limits. -/
theorem runSample_steps (hgroup : groupOf s c = none) (hcapture : (spOf s c).capture = none) : ∃ w u, ∃ (z : Int → Int) (manual : Bool), SampleKept c s w ∧
    ∃ v, SampleKept c (sampledAt c n w) v ∧ u ≤ x.uMax ∧ (x.uMin ≤ x.uMax → x.uMin ≤ u) ∧
      runSample c n x ys dist s = queueOut c n x u manual (integrated c z v) := by
  have hbase : SampleKept c s (if follows s c x then ((chanOf s c).r, (0 : Int), modSp c (fun p => { p with target := (chanOf s c).r, formed := true }) s)
      else sourceSample c n x s).2.2 := by
    split
    · exact sampleKept_modSp fun _ => rfl
    · exact sampleKept_sourceSample
  unfold runSample
  dsimp only
  generalize (if follows s c x then ((chanOf s c).r, (0 : Int), modSp c (fun p => { p with target := (chanOf s c).r, formed := true }) s)
      else sourceSample c n x s) = base at hbase ⊢
  obtain ⟨r0, acc, s1⟩ := base
  dsimp only at hbase ⊢
  have hsignal := hbase.then (sampleKept_nextSignal (c := c) (s := s1))
  generalize nextSignal c s1 = signal at hsignal ⊢
  obtain ⟨sig, point, s2⟩ := signal
  dsimp only at hsignal ⊢
  have hstepped : SampleKept c s (if (point == 0 && (spOf s2 c).inject.any fun j => j.wave == 0 && j.i == 1) = true then
      modChan c (fun ch => { ch with lastStep := some n }) s2 else s2) :=
    sampleKept_ite (hsignal.then (sampleKept_modChan fun _ => rfl)) hsignal
  generalize (if (point == 0 && (spOf s2 c).inject.any fun j => j.wave == 0 && j.i == 1) = true then
      modChan c (fun ch => { ch with lastStep := some n }) s2 else s2) = s3 at hstepped ⊢
  generalize hv : noteSat c n _ _ _ = v
  have hkept : SampleKept c (sampledAt c n s3) v := by
    rw [← hv]
    exact sampleKept_sampleDone
  have hnone : groupOf v c = none := by
    rw [groupOf, hkept.groups, show (sampledAt c n s3).gheler.groups = s3.gheler.groups from rfl, hstepped.groups, ← groupOf, hgroup]
  have hcap : (spOf v c).capture = none := by
    rw [hkept.capture, show spOf (sampledAt c n s3) c = spOf s3 c from rfl, hstepped.capture, hcapture]
  have hqueued : ∀ (u : Int) (manual : Bool) (z : Int → Int),
      captureStep c n (queueOut c n x u manual (integrated c z v)) = queueOut c n x u manual (integrated c z v) := fun _ _ _ => captureStep_none hcap
  rw [hnone]
  refine ⟨s3, ?_, ?_, ?_, hstepped, v, hkept, ?_, ?_, ?_⟩
  rotate_left 5
  · exact hqueued _ _ (fun z => if (spOf s3 c).manual = true then preset _ _ _ else integrate z _ _ _ _ _)
  · exact min_le_right _ _
  · exact fun h => le_min (le_max_right _ _) h

/-! ### A sample's inputs -/

/-- A change of what a sample reads at its inputs alone. -/
structure InputKept (s t : State) : Prop where
  adm : t.adm = s.adm
  host : t.host = s.host
  ports : t.ports = s.ports
  groups : t.gheler.groups = s.gheler.groups
  chans : t.gheler.chans = s.gheler.chans
  sps : t.gheler.sps = s.gheler.sps
  pipes : ∀ k, (headOf t k).pipe = (headOf s k).pipe

theorem inputKept_refl : InputKept s s := ⟨rfl, rfl, rfl, rfl, rfl, rfl, fun _ => rfl⟩
theorem InputKept.then (h1 : InputKept s t) (h2 : InputKept t u) : InputKept s u :=
  ⟨h2.adm.trans h1.adm, h2.host.trans h1.host, h2.ports.trans h1.ports, h2.groups.trans h1.groups, h2.chans.trans h1.chans,
    h2.sps.trans h1.sps, fun k => (h2.pipes k).trans (h1.pipes k)⟩

theorem inputKept_ite {q : Prop} [Decidable q] {a b : State} (ha : InputKept s a) (hb : InputKept s b) : InputKept s (if q then a else b) := by
  split
  · exact ha
  · exact hb

theorem inputKept_forEach {α : Type} {l : List α} {f : α → State → State} (hf : ∀ a s, InputKept s (f a s)) : InputKept s (forEach l f s) := by
  induction l generalizing s with
  | nil => exact inputKept_refl
  | cons a l ih => exact (hf a s).then (ih (s := f a s))

theorem inputKept_quiet (hadm : t.adm = s.adm) (hhost : t.host = s.host) (hports : t.ports = s.ports) (hgheler : t.gheler = s.gheler)
    (hheads : t.heads = s.heads) : InputKept s t :=
  ⟨hadm, hhost, hports, by rw [hgheler], by rw [hgheler], by rw [hgheler], fun k => by rw [headOf, hheads, ← headOf]⟩

theorem inputKept_recordAt {pf1 : Bool} {at_ unit event : Nat} {det : List Byte} : InputKept s (recordAt pf1 at_ unit event det s) :=
  inputKept_quiet (within_recordAt.apply State.adm rfl) (within_recordAt.apply State.host rfl) (within_recordAt .ports (by decide))
    (within_recordAt.apply State.gheler rfl) (within_recordAt .heads (by decide))

theorem inputKept_raiseCause {pf1 : Bool} {b : Nat} : InputKept s (raiseCause pf1 b s) :=
  inputKept_quiet (within_raiseCause.apply State.adm rfl) (within_raiseCause.apply State.host rfl) (within_raiseCause .ports (by decide))
    (within_raiseCause.apply State.gheler rfl) (within_raiseCause .heads (by decide))

theorem inputKept_takeCode {k : Int} : InputKept s (takeCode n k s) := by
  have hset : ∀ (aux : Bool) (i : Nat) (v : Int), InputKept s { s with gheler := if aux then { s.gheler with aux := upd s.gheler.aux i fun _ => v }
      else { s.gheler with ain := upd s.gheler.ain i fun _ => v } } := fun aux _ _ => by cases aux <;> exact ⟨rfl, rfl, rfl, rfl, rfl, rfl, fun _ => rfl⟩
  have hamp : ∀ (i : Nat) (v : Int) (u : State), InputKept u (noteAmp i v u) := fun _ _ _ =>
    inputKept_forEach fun _ _ => ⟨rfl, rfl, rfl, rfl, rfl, rfl, fun _ => headOf_modHead_field (g := Head.pipe) fun _ => rfl⟩
  have hbits : ∀ (r m : Nat) (u : State), InputKept u (setBits r m u) := fun _ _ _ => inputKept_quiet rfl rfl rfl rfl rfl
  unfold takeCode
  extract_lets aux i off code g w v was b
  have hw : InputKept s w := hset _ _ _
  have hv : InputKept s v := inputKept_ite hw (hw.then (hamp _ _ _))
  exact inputKept_ite hv (inputKept_ite ((hv.then (hbits _ _ _)).then inputKept_recordAt) (hv.then (hbits _ _ _)))

theorem inputKept_takeInputs : InputKept s (takeInputs c ys dist sp s) := by
  have hwalk : ∀ (l : List (Nat × Nat)) (f : Nat × Nat → Int) (u : State), InputKept u (forEach l (fun q => takeCode q.1 (f q)) u) := fun _ _ _ =>
    inputKept_forEach fun _ _ => inputKept_takeCode
  unfold takeInputs
  split
  · exact inputKept_refl
  · exact ((hwalk _ _ _).then (inputKept_ite inputKept_takeCode inputKept_refl)).then (hwalk _ _ _)

theorem inputKept_loopMiss : InputKept s (loopMiss c n s) := by
  unfold loopMiss promiseMiss
  exact inputKept_ite inputKept_refl ((inputKept_recordAt.then inputKept_raiseCause).then inputKept_raiseCause)

theorem InputKept.chanOf (h : InputKept s t) (j : Nat) : chanOf t j = chanOf s j := by rw [Machine.chanOf, h.chans, ← Machine.chanOf]
theorem InputKept.spOf (h : InputKept s t) (j : Nat) : spOf t j = spOf s j := by rw [Machine.spOf, h.sps, ← Machine.spOf]
theorem InputKept.groupOf (h : InputKept s t) (j : Nat) : groupOf t j = groupOf s j := by rw [Machine.groupOf, h.groups, ← Machine.groupOf]

theorem InputKept.sampled (h : InputKept s t) : SampleKept c s t :=
  ⟨h.adm, h.host, h.ports, h.groups, fun j _ => h.chanOf j, by rw [h.chanOf], by rw [h.spOf], chanOwner_congr h.pipes⟩


/-! ### A channel that runs -/

/-- A running channel outside every head, with nothing that its sample instant would begin or end. -/
structure Steady (c : Nat) (x : LoopCfg) (s : State) : Prop where
  state : (chanOf s c).state = .run
  cfg : (chanOf s c).cfg = some x
  revoked : (chanOf s c).revoked = false
  enable : (chanOf s c).enable = []
  owner : chanOwner s c = none

theorem lt_of_loop (h : (chanOf s c).cfg = some x) : c < s.gheler.chans.length := by
  by_contra hge
  have hreset : chanOf s c = Reset.chan := List.getD_eq_default _ _ (Nat.le_of_not_lt hge)
  rw [hreset] at h
  cases h

theorem Steady.lt (h : Steady c x s) : c < s.gheler.chans.length := lt_of_loop h.cfg

/-- The sample's instant noted at its channel, after the report of a late one. -/
def edgeSeen (c e : Nat) (s : State) : State :=
  modChan c (fun ch => { ch with edge := e }) (if (chanOf s c).state = .run ∧ e + 4 < s.now then loopMiss c e s else s)

/-- The inputs of a sample taken. -/
def sampleHeard (c e : Nat) (ys : List Int) (dist : Int) (sp : List Int) (s : State) : State := takeInputs c ys dist sp (edgeSeen c e s)

theorem edgeSeen_kept : InputKept s (if (chanOf s c).state = .run ∧ e + 4 < s.now then loopMiss c e s else s) :=
  inputKept_ite inputKept_loopMiss inputKept_refl

theorem chanOf_edgeSeen (h : Steady c x s) : chanOf (edgeSeen c e s) c = { chanOf s c with edge := e } := by
  have hkept := edgeSeen_kept (c := c) (e := e) (s := s)
  rw [edgeSeen, chanOf_modChan_same (by rw [hkept.chans]; exact h.lt), hkept.chanOf]

/-- A running channel neither revoked nor asked to start or stop goes on. -/
theorem boundary_idle (hrun : (chanOf s c).state = .run) (hrevoked : (chanOf s c).revoked = false) (henable : (chanOf s c).enable = []) :
    boundary c n s = s := by
  have hstay : ¬((chanOf s c).revoked = true ∧ (chanOf s c).state = .run) := fun h => Bool.false_ne_true (hrevoked.symm.trans h.1)
  have hload : ¬((chanOf s c).state = .off ∧ (chanOf s c).pendCfg.isSome = true ∧ (chanOf s c).pendAt ≤ n) := fun h => by
    rw [hrun] at h
    cases h.1
  unfold boundary
  dsimp only
  rw [if_neg hstay, if_neg hload, henable]
  rfl

theorem boundary_edgeSeen (h : Steady c x s) : boundary c e (edgeSeen c e s) = edgeSeen c e s := by
  refine boundary_idle ?_ ?_ ?_
  all_goals rw [chanOf_edgeSeen h]
  · exact h.state
  · exact h.revoked
  · exact h.enable

theorem sampleHeard_kept : InputKept (edgeSeen c e s) (sampleHeard c e ys dist sp s) := inputKept_takeInputs

theorem chanOf_sampleHeard (h : Steady c x s) : chanOf (sampleHeard c e ys dist sp s) c = { chanOf s c with edge := e } :=
  (sampleHeard_kept.chanOf c).trans (chanOf_edgeSeen h)

theorem takeSense_unowned (h : chanOwner s c = none) : takeSense c n sense s = s := by
  rw [takeSense, h]

theorem sampleChannel_run {me : Option Nat} (h : Steady c x s) (he : e % 200 ≠ 0) :
    sampleChannel c e ys dist sp sense me s = takeSense c e sense (match me with
      | some i => captureStep c e (regather c e (recordAt false e 8 0x1006 (u8 c ++ u8 0 ++ u16 i)
          (modChan c (fun ch => { ch with offNext := true }) (sampleHeard c e ys dist sp s))))
      | none => runChannel c e ys dist (sampleHeard c e ys dist sp s)) := by
  have hstate : (chanOf (sampleHeard c e ys dist sp s) c).state = .run := by
    rw [chanOf_sampleHeard h]
    exact h.state
  have hbound : takeInputs c ys dist sp (boundary c e (edgeSeen c e s)) = sampleHeard c e ys dist sp s := by
    rw [boundary_edgeSeen h]
    rfl
  unfold sampleChannel
  rw [if_neg he]
  dsimp only
  rw [← edgeSeen, hbound, hstate] <;> cases me <;> rfl


/-- An uncorrectable coefficient read stops the channel at its next update. -/
theorem sampleChannel_uncorrectable {i : Nat} (h : Steady c x s) (he : e % 200 ≠ 0) (hgroup : groupOf s c = none)
    (hcapture : (spOf s c).capture = none) : let t := sampleChannel c e ys dist sp sense (some i) s
    (chanOf t c).offNext = true ∧ (chanOf t c).edge = e ∧ (∀ j, j ≠ c → chanOf t j = chanOf s j) ∧ t.adm = s.adm ∧ t.host = s.host ∧
      t.ports = s.ports := by
  have hseen := edgeSeen_kept (c := c) (e := e) (s := s)
  have hheard := sampleHeard_kept (c := c) (e := e) (ys := ys) (dist := dist) (sp := sp) (s := s)
  have hown := chanOf_sampleHeard (e := e) (ys := ys) (dist := dist) (sp := sp) h
  obtain ⟨w, hw⟩ : ∃ w, w = recordAt false e 8 0x1006 (u8 c ++ u8 0 ++ u16 i)
    (modChan c (fun ch => { ch with offNext := true }) (sampleHeard c e ys dist sp s)) := ⟨_, rfl⟩
  have hrec : InputKept (modChan c (fun ch => { ch with offNext := true }) (sampleHeard c e ys dist sp s)) w := by
    rw [hw]
    exact inputKept_recordAt
  have hgroupw : groupOf w c = none := (hrec.groupOf c).trans ((hheard.groupOf c).trans ((hseen.groupOf c).trans hgroup))
  have hspw : (spOf w c).capture = none := by
    rw [hrec.spOf]
    exact (congrArg SetPoint.capture ((hheard.spOf c).trans (hseen.spOf c))).trans hcapture
  have howner : chanOwner w c = none :=
    (chanOwner_congr hrec.pipes).trans ((chanOwner_congr hheard.pipes).trans ((chanOwner_congr hseen.pipes).trans h.owner))
  have ht : sampleChannel c e ys dist sp sense (some i) s = w := by
    have hregather : regather c e w = w := by rw [regather, hgroupw]
    rw [sampleChannel_run h he]
    dsimp only
    rw [← hw, hregather, captureStep_none hspw, takeSense_unowned howner]
  have hlen : c < (sampleHeard c e ys dist sp s).gheler.chans.length := by
    rw [hheard.chans, show (edgeSeen c e s).gheler.chans.length = _ from List.length_modify .., hseen.chans]
    exact h.lt
  dsimp only
  rw [ht, hrec.chanOf, chanOf_modChan_same hlen, hown]
  refine ⟨rfl, rfl, fun j hj => ?_, hrec.adm.trans (hheard.adm.trans hseen.adm), hrec.host.trans (hheard.host.trans hseen.host),
    hrec.ports.trans (hheard.ports.trans hseen.ports)⟩
  rw [hrec.chanOf, chanOf_modChan_ne hj, hheard.chanOf]
  exact (chanOf_modChan_ne hj).trans (hseen.chanOf j)

/-- Nothing waits for a sample of the channel. -/
structure NothingDue (c : Nat) (s : State) : Prop where
  pendCfg : (chanOf s c).pendCfg = none
  coefQ : (chanOf s c).coefQ = []
  modes : (spOf s c).modes = []
  pending : (spOf s c).pending = none
  inject : (spOf s c).inject = none
  waiting : (spOf s c).waiting = []
  group : groupOf s c = none
  others : ∀ o, ∀ q ∈ (spOf s o).modes, q.members.contains c = false

theorem leadModes_idle (h : NothingDue c s) : leadModes c n s = s := by
  refine forEach_idle fun o ho => ?_
  exfalso
  obtain ⟨-, hlead⟩ := List.mem_filter.1 ho
  have hgroups : ∀ o, (groupOf s o).any (fun g => g.members.contains c) = false := fun o => by
    cases hg : groupOf s o with
    | none => rfl
    | some g =>
      have hnone := List.find?_eq_none.1 h.group g (List.mem_of_find?_eq_some hg)
      exact Bool.eq_false_iff.2 hnone
  have hmodes : ((spOf s o).modes.any fun q => decide (q.at_ ≤ n) && (q.members.contains c || (groupOf s o).any (·.members.contains c))) = false := by
    refine List.any_eq_false.2 fun q hq => ?_
    rw [h.others o q hq, hgroups o]
    simp
  rw [hmodes] at hlead
  simp at hlead

theorem applyModes_idle (h : (spOf s c).modes = []) : applyModes c n s = s := by
  have hmod : modSp c (fun p => { p with modes := p.modes.filter fun q => decide (n < q.at_) }) s = s := by
    have hid : upd s.gheler.sps c (fun p => { p with modes := p.modes.filter fun q => decide (n < q.at_) }) = s.gheler.sps := by
      refine (upd_congr (e := Reset.setPoint) ?_).trans upd_id
      show ({ spOf s c with modes := (spOf s c).modes.filter fun q => decide (n < q.at_) } : SetPoint) = spOf s c
      rw [h]
      show ({ spOf s c with modes := [] } : SetPoint) = spOf s c
      rw [← h]
    rw [modSp, hid]
  unfold applyModes
  dsimp only
  rw [hmod, h]
  rfl

theorem runChannel_due (h : NothingDue c s) (hcfg : (chanOf s c).cfg = some x) : runChannel c n ys dist s = runSample c n x ys dist s := by
  have hload : ¬((chanOf s c).pendCfg.any (fun x => x.2.2.isNone) = true ∧ (chanOf s c).pendAt ≤ n) := by
    rw [h.pendCfg]
    exact fun h => Bool.false_ne_true h.1
  have hcoef : applyCoef c n s = s := by rw [applyCoef, h.coefQ]
  have hsp : applySp c n s = s := by rw [applySp, h.pending]
  have hstop : stopInject c n s = s := by rw [stopInject, h.inject]
  have hstart : startInject c n s = s := by
    unfold startInject
    dsimp only
    rw [h.inject, h.waiting]
    rfl
  unfold runChannel
  dsimp only
  rw [leadModes_idle h, applyModes_idle h.modes, if_neg hload, hcoef, hsp, hstop, hstart, hcfg]


theorem nothingDue_sampleHeard (h : Steady c x s) (hdue : NothingDue c s) : NothingDue c (sampleHeard c e ys dist sp s) := by
  have hseen := edgeSeen_kept (c := c) (e := e) (s := s)
  have hheard := sampleHeard_kept (c := c) (e := e) (ys := ys) (dist := dist) (sp := sp) (s := s)
  have hown := chanOf_sampleHeard (e := e) (ys := ys) (dist := dist) (sp := sp) h
  have hsp : ∀ o, spOf (sampleHeard c e ys dist sp s) o = spOf s o := fun o => (hheard.spOf o).trans (hseen.spOf o)
  refine ⟨by rw [hown]; exact hdue.pendCfg, by rw [hown]; exact hdue.coefQ, by rw [hsp]; exact hdue.modes, by rw [hsp]; exact hdue.pending,
    by rw [hsp]; exact hdue.inject, by rw [hsp]; exact hdue.waiting, (hheard.groupOf c).trans ((hseen.groupOf c).trans hdue.group),
    fun o => by rw [hsp]; exact hdue.others o⟩

/-- A sample queues one result within the limits. -/
theorem sampleChannel_queues (h : Steady c x s) (he : e % 200 ≠ 0) (hdue : NothingDue c s) (hcapture : (spOf s c).capture = none) :
    let t := sampleChannel c e ys dist sp sense none s
    ∃ r, (chanOf t c).uNew = (chanOf s c).uNew ++ [r] ∧ r.due = e + x.ts ∧ r.u ≤ x.uMax ∧ (x.uMin ≤ x.uMax → x.uMin ≤ r.u) ∧
      (chanOf t c).sample = e ∧ (chanOf t c).edge = e ∧ (chanOf t c).state = .run ∧ (chanOf t c).cfg = some x ∧
      (∀ j, j ≠ c → chanOf t j = chanOf s j) ∧ t.adm = s.adm ∧ t.host = s.host ∧ t.ports = s.ports := by
  have hseen := edgeSeen_kept (c := c) (e := e) (s := s)
  have hheard := sampleHeard_kept (c := c) (e := e) (ys := ys) (dist := dist) (sp := sp) (s := s)
  have hown := chanOf_sampleHeard (e := e) (ys := ys) (dist := dist) (sp := sp) h
  have hquiet := nothingDue_sampleHeard (e := e) (ys := ys) (dist := dist) (sp := sp) h hdue
  have hlen : c < (sampleHeard c e ys dist sp s).gheler.chans.length := by
    rw [hheard.chans, show (edgeSeen c e s).gheler.chans.length = _ from List.length_modify .., hseen.chans]
    exact h.lt
  have hrun := sampleChannel_run (ys := ys) (dist := dist) (sp := sp) (sense := sense) (me := none) h he
  dsimp only at hrun ⊢
  rw [runChannel_due hquiet (by rw [hown]; exact h.cfg)] at hrun
  have hothers : ∀ j, j ≠ c → chanOf (sampleHeard c e ys dist sp s) j = chanOf s j := fun j hj =>
    (hheard.chanOf j).trans ((chanOf_modChan_ne hj).trans (hseen.chanOf j))
  have hadm := hheard.adm.trans hseen.adm
  have hhost := hheard.host.trans hseen.host
  have hports := hheard.ports.trans hseen.ports
  have howner : chanOwner (sampleHeard c e ys dist sp s) c = none :=
    (chanOwner_congr hheard.pipes).trans ((chanOwner_congr hseen.pipes).trans h.owner)
  have hcap : (spOf (sampleHeard c e ys dist sp s) c).capture = none :=
    (congrArg SetPoint.capture ((hheard.spOf c).trans (hseen.spOf c))).trans hcapture
  generalize sampleHeard c e ys dist sp s = a at *
  obtain ⟨w, u, z, manual, hw, v, hv, hmax, hmin, hres⟩ := runSample_steps (n := e) (x := x) (ys := ys) (dist := dist) hquiet.group hcap
  have hwc : loopCore (chanOf w c) = (some x, .run, (chanOf s c).uNew, e, (chanOf s c).sample) := by
    rw [hw.own, hown, loopCore, h.cfg, h.state]
  obtain ⟨hwcfg, hwrest⟩ := Prod.ext_iff.1 hwc
  have hwlen : c < w.gheler.chans.length := lt_of_loop hwcfg
  have hvc : loopCore (chanOf v c) = (some x, .run, (chanOf s c).uNew, e, e) := by
    obtain ⟨hstate, hwrest⟩ := Prod.ext_iff.1 hwrest
    obtain ⟨hnew, hwrest⟩ := Prod.ext_iff.1 hwrest
    rw [hv.own, sampledAt, chanOf_modChan_same hwlen]
    exact Prod.ext_iff.2 ⟨hwcfg, Prod.ext_iff.2 ⟨hstate, Prod.ext_iff.2 ⟨hnew, Prod.ext_iff.2 ⟨(Prod.ext_iff.1 hwrest).1, rfl⟩⟩⟩⟩
  obtain ⟨hcfg, hrest⟩ := Prod.ext_iff.1 hvc
  obtain ⟨hstate, hrest⟩ := Prod.ext_iff.1 hrest
  obtain ⟨hnew, hrest⟩ := Prod.ext_iff.1 hrest
  obtain ⟨hedge, hsample⟩ := Prod.ext_iff.1 hrest
  have hvlen : c < v.gheler.chans.length := lt_of_loop hcfg
  have hvown : chanOwner v c = none := hv.owner.trans (hw.owner.trans howner)
  have hqueue : chanOf (queueOut c e x u manual (integrated c z v)) c = { chanOf v c with
      z := z (chanOf v c).z
      uNew := (chanOf v c).uNew ++ [{ due := e + x.ts, u := u, r := (chanOf v c).rIn, hold := manual }] } := by
    rw [queueOut, chanOf_modChan_same (by rw [integrated, modChan]; exact (List.length_modify ..).symm ▸ hvlen), integrated, chanOf_modChan_same hvlen]
  have hend : sampleChannel c e ys dist sp sense none s = queueOut c e x u manual (integrated c z v) := by
    rw [hrun, hres]
    exact takeSense_unowned hvown
  rw [hend, hqueue]
  refine ⟨_, congrArg (· ++ _) hnew, rfl, hmax, hmin, hsample, hedge, hstate, hcfg, fun j hj => ?_, hv.adm.trans (hw.adm.trans hadm),
    hv.host.trans (hw.host.trans hhost), hv.ports.trans (hw.ports.trans hports)⟩
  have hqueued : chanOf (queueOut c e x u manual (integrated c z v)) j = chanOf v j := (chanOf_modChan_ne hj).trans (chanOf_modChan_ne hj)
  exact hqueued.trans ((hv.others j hj).trans ((chanOf_modChan_ne hj).trans ((hw.others j hj).trans (hothers j hj))))

theorem exec_loopSample {me : Option Nat} (hrun : (chanOf s c).state = .run) (hcfg : (chanOf s c).cfg = some x) (hts : x.ts ≠ 0) :
    exec (.loopSample dt c ys dist sp sense me) s =
      if freshEdge (chanOf s c) ((tick dt s).now / max 1 x.ts * x.ts) then
        .next (sampleChannel c ((tick dt s).now / max 1 x.ts * x.ts) (ys.map adcCode) (adcCode dist) (sp.map adcCode) (adcCode sense) me (tick dt s))
      else .next (tick dt s) := by
  have hperiod : (chanOf (tick dt s) c).period = x.ts := by
    rw [show chanOf (tick dt s) c = chanOf s c from rfl, Chan.period, hrun, hcfg]
    rfl
  change execLoopSample dt c ys dist sp sense me s = _
  unfold execLoopSample
  dsimp only
  rw [hperiod, if_neg hts]
  rfl

/-- Settles O48: nothing of a sample between its instant and the result it queues reaches another channel. -/
theorem samplesQueueTheirResult : Obligations.SamplesQueueTheirResult := by
  intro dt c ys sp dist sense x s ch e hrun hcfg hts
  refine ⟨fun hold me => ?_, fun hfresh he hrevoked henable howner => ⟨fun i hgroup hcapture => ?_, ?_⟩⟩
  · rw [exec_loopSample hrun hcfg hts]
    exact if_neg (by rw [hold]; exact Bool.false_ne_true)
  · have hsteady : Steady c x (tick dt s) := ⟨hrun, hcfg, hrevoked, henable, howner⟩
    exact ⟨_, (exec_loopSample hrun hcfg hts).trans (if_pos hfresh), sampleChannel_uncorrectable hsteady he hgroup hcapture⟩
  · intro hpend hcoef hmodes hpending hinject hcapture hwaiting hgroup hothers
    have hsteady : Steady c x (tick dt s) := ⟨hrun, hcfg, hrevoked, henable, howner⟩
    obtain ⟨r, hr⟩ := sampleChannel_queues (ys := ys.map adcCode) (dist := adcCode dist) (sp := sp.map adcCode) (sense := adcCode sense)
      hsteady he ⟨hpend, hcoef, hmodes, hpending, hinject, hwaiting, hgroup, hothers⟩ hcapture
    exact ⟨_, r, (exec_loopSample hrun hcfg hts).trans (if_pos hfresh), hr⟩

end Sys2Proof.Machine
end

section
/-!
PROOFS. The end of a frame's pressing where a companion byte stands marked bad (chapters 11 and 20).
-/

namespace Sys2Proof.Machine

/-- A Recipe of one slot on one array of one pixel. -/
def dotRecipe : Recipe :=
  { id := 0, stores := [0, 0], dither := 0, tiles := 0, seqs := 1, depth := [1], depthR := [0], chans := [0]
    arrays := [{ ports := 1, seq := 0, cls := 0, wx := 0, wy := 0, ww := 1, wh := 1 }]
    slots := [{ seq := 0, order := 0, prim := 0, bit := 0, amp := 0, settle := 0, offset := 0, onTime := 0 }]
    scan := [], red := false, first := 0, dark := [] }

/-- The canvas of one pixel that it presses. -/
def dotCfg : HeadCfg :=
  { scan := false, forerunner := 0, rateN := 1, rateD := 1, anchor := 0, anchorF := 0, lead := 0, guard := 0, canvasW := 1, canvasH := 1
    ports := 1, channels := 1, comp := [], peak := 0, bg := [], prims := [] }

def dotJob : PressJob :=
  { env := { k := 0, c := dotCfg, n := 0, cnt := 0, motion := none, band := 0, prev := false, dither := [], vit := Reset.vitrine
             mix := [], errs := noErr }
    recipe := dotRecipe, reduced := false, taken := 0 }

/-- A head that presses it, while the byte at address 0 stands marked bad. -/
def pressingMarked : State := { State.reset with
  ecc := { Reset.ecc with compBad := [0] }
  heads := [{ Reset.head with press := { Reset.press with pressing := some 0, job := some dotJob } }] }

/-- The plane's row is written at address 0, whose mark goes. -/
theorem finishPress_pressingMarked : (finishPress 0 0 noErr (tick 0 pressingMarked)).ecc.compBad = [] := by decide

/-- Refutes O39: the statement lets the marks of stored-data protection stand as they were, but the planes of a frame are written to
HBM, and a write mends the bytes it writes. -/
theorem not_framesArePressedAndMeasured : ¬ Obligations.FramesArePressedAndMeasured := by
  rintro ⟨hpress, -, -⟩
  obtain ⟨-, hdone⟩ := hpress 0 0 0 pressingMarked
  have hclean : ∀ j, (headOf pressingMarked 0).press.job = some j → j.env.errs.tiles = [] := fun j hj => by
    cases hj
    rfl
  obtain ⟨t, hexec, -, hframe, -⟩ := hdone noErr rfl rfl (by decide) hclean
  cases hexec
  have hstay := hframe (by decide)
  have hmarks : (finishPress 0 0 noErr (tick 0 pressingMarked)).ecc.compBad = [0] := congrArg (fun u : State => u.ecc.compBad) hstay
  rw [finishPress_pressingMarked] at hmarks
  cases hmarks

end Sys2Proof.Machine
end

section
/-!
PROOFS. Frozen pseudo-channels (chapters 18 and 24, R438 to R456): freezing, the diagnosis, sparing and CHANNEL_SPARE.
-/

namespace Sys2Proof.Machine
variable {s t u : State} {dt st pc k i : Nat} {d : Desc}

/-! ### The queue of diagnoses -/

/-- Of the stacks only the queue of diagnoses has moved. -/
def JobsMoved (s t : State) : Prop := t.hbm = { s.hbm with jobs := t.hbm.jobs }

/-- What the queue of diagnoses reaches. -/
def jobParts : List StatePart := [.hbm, .training, .free, .ledger]

theorem nextDiag_empty (h : s.hbm.jobs = []) : nextDiag s = s := by
  unfold nextDiag
  rw [h]
  exact ite_self s

theorem within_nextDiag : Within jobParts s (nextDiag s) := by
  unfold nextDiag
  refine within_ite ?_ within_refl
  split
  · exact within_refl
  · exact within_ite within_refl (Within.then (within_of_eq_sub (m := [.hbm]) rfl (by decide) (by decide)) (within_noteSession.mono (by decide)))

/-- The diagnosis that the next one due begins: whatever it is, the queue keeps its last one. -/
theorem nextDiag_jobs {j : DiagJob} (h : s.hbm.jobs.getLast? = some j) : JobsMoved s (nextDiag s) ∧
    ∃ q, (nextDiag s).hbm.jobs.getLast? = some q ∧ q.stack = j.stack ∧ q.pc = j.pc ∧ q.action = j.action := by
  have hkept : JobsMoved s s ∧ ∃ q, s.hbm.jobs.getLast? = some q ∧ q.stack = j.stack ∧ q.pc = j.pc ∧ q.action = j.action :=
    ⟨rfl, j, h, rfl, rfl, rfl⟩
  unfold nextDiag
  split
  · split
    · exact hkept
    · next j1 l hl =>
      split
      · exact hkept
      · refine ⟨rfl, ?_⟩
        rw [hl] at h
        cases l with
        | nil =>
          obtain rfl : j1 = j := by simpa using h
          exact ⟨_, rfl, rfl, rfl, rfl⟩
        | cons j2 l =>
          rw [List.getLast?_cons_cons] at h
          exact ⟨j, (List.getLast?_cons_cons).trans h, rfl, rfl, rfl⟩
  · exact hkept

theorem addJob_jobs {action : Nat} {o : Option Desc} : JobsMoved s (addJob st pc action o s) ∧
    ∃ q, (addJob st pc action o s).hbm.jobs.getLast? = some q ∧ q.stack = st ∧ q.pc = pc ∧ q.action = action := by
  have h := nextDiag_jobs (s := modHbm (fun h => { h with jobs := h.jobs ++
    [{ stack := st, pc := pc, action := action, desc := o, running := false, sparing := none }] }) s) (List.getLast?_concat ..)
  exact h

theorem within_addJob {action : Nat} {o : Option Desc} : Within jobParts s (addJob st pc action o s) :=
  Within.then (within_of_eq_sub (m := [.hbm]) rfl (by decide) (by decide)) within_nextDiag

/-! ### Revocation leaves the heads dark -/

/-- The head is dark for the safety of its stores. -/
def SafeDark (k : Nat) (s : State) : Prop := (headOf s k).pipe.safeDark = true

/-- What is dark stays dark. -/
def DarkStays (s t : State) : Prop := ∀ k, SafeDark k s → SafeDark k t

theorem darkStays_refl : DarkStays s s := fun _ h => h
theorem DarkStays.then (h1 : DarkStays s t) (h2 : DarkStays t u) : DarkStays s u := fun k h => h2 k (h1 k h)

theorem Within.darkStays {m : List StatePart} (h : Within m s t) (hm : .heads ∉ m) : DarkStays s t := fun k hk =>
  (congrArg (fun h : Head => h.pipe.safeDark) (h.headOf hm k)).trans hk

theorem darkStays_modHead {f : Head → Head} (hf : ∀ h, (f h).pipe.safeDark = h.pipe.safeDark) : DarkStays s (modHead k f s) :=
  fun _ h => (headOf_modHead_field (g := fun h => h.pipe.safeDark) hf).trans h

theorem darkStays_forEach {α : Type} {l : List α} {f : α → State → State} (hf : ∀ x v, DarkStays v (f x v)) :
    DarkStays s (forEach l f s) := by
  unfold forEach
  induction l generalizing s with
  | nil => exact darkStays_refl
  | cons x l ih => exact (hf x s).then ih

theorem darkStays_ite {c : Prop} [Decidable c] {a b : State} (ha : DarkStays s a) (hb : DarkStays s b) :
    DarkStays s (if c then a else b) := by split <;> assumption

theorem darkStays_beginStop {x : Item} : DarkStays s (beginStop x s) := by
  unfold beginStop
  cases x.kind with
  | head k => exact darkStays_modHead fun _ => rfl
  | loopSet c owner core => exact within_modChan.darkStays (by decide)
  | motion k => exact darkStays_modHead fun _ => rfl
  | flow x => exact within_modFlow.darkStays (by decide)
  | capture x on => exact within_modSp.darkStays (by decide)
  | _ => exact darkStays_refl

theorem darkStays_stopIdle {x : Item} : DarkStays s (stopIdle x s) := by
  unfold stopIdle
  split
  · exact darkStays_ite darkStays_refl fun _ h => h
  · exact darkStays_ite darkStays_refl (within_dropLoop.darkStays (by decide))
  · split
    · exact darkStays_ite (within_endFlow.darkStays (by decide)) darkStays_refl
    · exact darkStays_refl
  · exact darkStays_refl

theorem darkStays_revokeOne {quiet : Bool} {n res inst cause tag : Nat} {x : Item} :
    DarkStays s (revokeOne quiet n res inst cause tag x s) := by
  unfold revokeOne
  extract_lets det _ u v w
  have hu : DarkStays s u := fun _ h => h
  have hv : DarkStays s v := hu.then (within_recordAt.darkStays (by decide))
  have hw : DarkStays s w := darkStays_ite (hv.then (within_completeAt.darkStays (by decide)))
    (darkStays_ite hv (hv.then (within_noticeAt.darkStays (by decide))))
  exact (hw.then darkStays_beginStop).then darkStays_stopIdle

theorem darkStays_revoke {quiet alone : Bool} {n res inst cause : Nat} {x : Item} :
    DarkStays s (revoke quiet alone n res inst cause x s) := by
  unfold revoke
  refine darkStays_ite darkStays_refl (darkStays_ite darkStays_revokeOne ?_)
  split
  · exact darkStays_revokeOne
  · exact (darkStays_revokeOne.then (darkStays_forEach fun _ _ => darkStays_revokeOne)).then (darkStays_modHead fun _ => rfl)

theorem darkStays_revokeAll {quiet alone : Bool} {n res cause : Nat} {f : Item → Bool} :
    DarkStays s (revokeAll quiet alone n res cause f s) := by
  refine darkStays_forEach fun x v => ?_
  split
  · exact darkStays_revoke
  · exact darkStays_refl

theorem darkStays_passWalk {caps : List Nat} {cause : Nat} {l : List Item} : DarkStays s (passWalk caps cause l s) := by
  induction l generalizing s with
  | nil => exact darkStays_refl
  | cons x rest ih =>
    unfold passWalk
    refine DarkStays.then ?_ ih
    split
    · exact darkStays_refl
    · split
      · exact darkStays_refl
      · exact darkStays_revoke

theorem darkStays_reprice {cause : Nat} : DarkStays s (reprice cause s) := by
  unfold reprice
  generalize List.range 44 = slots
  refine darkStays_ite darkStays_refl ?_
  extract_lets caps _ u v pend stands
  have hu : DarkStays s u := DarkStays.then (t := { s with adm := { s.adm with fpPriced := pricedFp s } }) (fun _ h => h)
    (darkStays_forEach fun _ _ => darkStays_ite (within_setCap.darkStays (by decide)) darkStays_refl)
  have hpass : DarkStays u v := by
    unfold v revocationPass
    exact darkStays_ite darkStays_passWalk darkStays_refl
  have hlast : DarkStays v (takeShrink { v with adm := { v.adm with pendingCaps := pend, inForce := stands } }) :=
    DarkStays.then (t := { v with adm := { v.adm with pendingCaps := pend, inForce := stands } }) (fun _ h => h)
      (within_takeShrink.darkStays (by decide))
  exact (hu.then hpass).then hlast

/-! ### Heads with a store in the slot -/

/-- What keeping a head dark reaches. -/
def safeParts : List StatePart := [.chans, .ports, .heads] ++ plkParts

theorem within_parkPorts {mask cause : Nat} : Within (.ports :: plkParts) s (parkPorts mask cause s) := by
  refine within_forEach fun p v => ?_
  obtain ⟨-, -, -, hwithin⟩ := parkKept_parkPort (p := p) (cause := cause) (s := v)
  exact hwithin

/-- A head kept dark is marked; its channels are held and its ports rest. -/
theorem safeDark_marks : ∃ u : State, Within [.chans, .ports] s u ∧
    Within (.ports :: plkParts) (modPipe k (fun p => { p with safeDark := true }) u) (safeDark k s) := by
  unfold safeDark
  extract_lets c u mine v w
  have hu : Within [.chans, .ports] s u := within_forEach fun _ _ => within_modChan.mono (by decide)
  have hv : Within [.chans, .ports] s v := hu.then (within_forEach fun _ _ => within_modPort.mono (by decide))
  exact ⟨v, hv, within_ite within_refl within_parkPorts⟩

theorem within_safeDark : Within safeParts s (safeDark k s) := by
  obtain ⟨u, hu, hparks⟩ := safeDark_marks (k := k) (s := s)
  exact ((hu.mono (by decide)).then (within_modPipe.mono (by decide))).then (hparks.mono (by decide))

theorem darkStays_safeDark : DarkStays s (safeDark k s) := by
  obtain ⟨u, hu, hparks⟩ := safeDark_marks (k := k) (s := s)
  refine ((hu.darkStays (by decide)).then fun j hj => ?_).then (hparks.darkStays (by decide))
  by_cases hjk : j = k
  · subst hjk
    by_cases hlen : j < u.heads.length
    · exact congrArg (fun h : Head => h.pipe.safeDark) (headOf_modHead_same hlen)
    · have hout : headOf (modPipe j (fun p => { p with safeDark := true }) u) j = headOf u j := by
        simp only [headOf, modPipe, modHead, upd, List.modify_eq_self (Nat.le_of_not_lt hlen)]
      exact (congrArg (fun h : Head => h.pipe.safeDark) hout).trans hj
  · exact (congrArg (fun h : Head => h.pipe.safeDark) (headOf_modHead_ne hjk)).trans hj

theorem safeDark_dark (hk : k < s.heads.length) : SafeDark k (safeDark k s) := by
  obtain ⟨u, hu, hparks⟩ := safeDark_marks (k := k) (s := s)
  have hlen : k < u.heads.length := by rwa [hu .heads (by decide)]
  exact (hparks.darkStays (by decide)) k (congrArg (fun h : Head => h.pipe.safeDark) (headOf_modHead_same hlen))

theorem safeDark_length : (safeDark k s).heads.length = s.heads.length := by
  obtain ⟨u, hu, hparks⟩ := safeDark_marks (k := k) (s := s)
  calc (safeDark k s).heads.length = (modPipe k (fun p => { p with safeDark := true }) u).heads.length := congrArg List.length (hparks .heads (by decide))
    _ = u.heads.length := List.length_modify ..
    _ = s.heads.length := congrArg List.length (hu .heads (by decide))

theorem forEach_safeDark {l : List Nat} (hlen : ∀ k ∈ l, k < s.heads.length) (hk : k ∈ l) : SafeDark k (forEach l safeDark s) := by
  induction l generalizing s with
  | nil => cases hk
  | cons a l ih =>
    show SafeDark k (forEach l safeDark (safeDark a s))
    rcases List.mem_cons.1 hk with rfl | hmem
    · exact darkStays_forEach (fun _ _ => darkStays_safeDark) _ (safeDark_dark (hlen k (List.mem_cons_self ..)))
    · exact ih (fun j hj => by rw [safeDark_length]; exact hlen j (List.mem_cons_of_mem _ hj)) hmem

/-! ### A parity failure -/

theorem within_repriceNow {cause : Nat} : Within (priceParts ++ revokeParts) s (repriceNow cause s) := by
  unfold repriceNow
  extract_lets u at_
  refine (within_reprice (s := s) (cause := cause)).then ?_
  exact Within.then (t := { u with adm := { u.adm with pendingCaps := (at_.filter fun e => decide (e.2.1 < e.2.2)).map fun e => (e.1, e.2.1) } })
    (within_of_eq_sub (m := [.caps]) rfl (by decide) (by decide)) (within_forEach fun _ _ => within_setCap.mono (by decide))

theorem darkStays_repriceNow {cause : Nat} : DarkStays s (repriceNow cause s) := by
  unfold repriceNow
  extract_lets u at_
  refine (darkStays_reprice (s := s) (cause := cause)).then ?_
  exact DarkStays.then (t := { u with adm := { u.adm with pendingCaps := (at_.filter fun e => decide (e.2.1 < e.2.2)).map fun e => (e.1, e.2.1) } })
    (fun _ h => h) (darkStays_forEach fun _ _ => within_setCap.darkStays (by decide))

/-- The stacks with a pseudo-channel frozen. -/
def freezeHbm (st pc i : Nat) (h : Hbm) : Hbm := { h with
  frozen := h.frozen ++ [{ stack := st, pc := pc, diagnosed := false, lost := false }]
  map := upd h.map i fun e => { e with frozen := true }
  reserves := h.reserves.filter (· ≠ (st, pc))
  debts := h.debts.filter fun d => !(d.stack == st && d.pc == pc)
  throttled := h.throttled.filter fun t => !(t.stack == st && t.pc == pc)
  queued := h.queued.filter fun t => !(t.stack == st && t.pc == pc)
  pages := h.pages.filter fun g => !(g.stack == st && g.pc == pc) }

/-- A frozen pseudo-channel is counted. -/
def freezeMarked (st pc i : Nat) (s : State) : State :=
  { modHbm (freezeHbm st pc i) s with wear := { s.wear with freezes := bump s.wear.freezes } }

/-- A frozen pseudo-channel is told, and its helper sessions end. -/
def freezeTold (st pc i cause cmd : Nat) (s : State) : State :=
  raiseCause true 1 <| raiseCause false 1 <| record (hbmUnit st) 0x1205 (u8 st ++ u8 pc ++ u8 cause ++ u8 cmd) <|
    abortSessions (fun x => x.stack == st && x.pc == pc) (freezeMarked st pc i s)

/-- The heads with a store in the slot go dark, and the work that `f` names and what no longer fits is revoked. -/
def darkenHeads (f : Item → Bool) (st pc : Nat) (ks : List Nat) (s : State) : State :=
  let s := forEach ks safeDark s
  let s := if ks.isEmpty then s else record (hbmUnit st) 0x1206 (u8 (maskOf ks) ++ u8 st ++ u8 pc) s
  repriceNow 3 (revokeAll false false s.now 0xFF 3 f s)

theorem freezePc_freezes {cause cmd : Nat} (hslot : slotOfPc s st pc = some i) (hfree : isFrozenPc s st pc = false)
    (hpower : hbmPowered s = true) (hself : s.hbm.selfRef = false) : ∃ f, freezePc st pc cause cmd s =
      serviceStep (addJob st pc 3 none (darkenHeads f st pc (headsIn (freezeTold st pc i cause cmd s) i) (freezeTold st pc i cause cmd s))) := by
  unfold freezePc
  simp only [hslot, hfree, hpower, hself, Option.isNone_some, Bool.false_and, Bool.or_false, Bool.not_true, Bool.false_eq_true, if_false]
  exact ⟨_, rfl⟩

/-- What the heads of a frozen pseudo-channel and their work reach. -/
def frozenParts : List StatePart := [.ports] ++ priceParts ++ revokeParts

theorem within_darkenHeads {f : Item → Bool} {ks : List Nat} : Within frozenParts s (darkenHeads f st pc ks s) := by
  unfold darkenHeads
  extract_lets u v
  have hu : Within frozenParts s u := within_forEach fun _ _ => within_safeDark.mono (by decide)
  have hv : Within frozenParts s v := within_ite hu (hu.then (within_recordAt.mono (by decide)))
  exact (hv.then (within_revokeAll.mono (by decide))).then (within_repriceNow.mono (by decide))

theorem darkenHeads_dark {f : Item → Bool} {ks : List Nat} (hlen : ∀ k ∈ ks, k < s.heads.length) (hk : k ∈ ks) :
    SafeDark k (darkenHeads f st pc ks s) := by
  unfold darkenHeads
  extract_lets u v
  have hu : SafeDark k u := forEach_safeDark hlen hk
  have hv : DarkStays u v := darkStays_ite darkStays_refl (within_recordAt.darkStays (by decide))
  exact ((hv.then darkStays_revokeAll).then darkStays_repriceNow) k hu

theorem within_freezeMarked : Within [.hbm, .wear] s (freezeMarked st pc i s) := within_of_eq rfl (by decide)

/-- What telling of the freeze reaches. -/
def toldParts : List StatePart := .training :: replyParts

theorem within_freezeTold {cause cmd : Nat} : Within toldParts (freezeMarked st pc i s) (freezeTold st pc i cause cmd s) :=
  ((within_abortSessions.then (within_recordAt.mono (by decide))).then (within_raiseCause.mono (by decide))).then (within_raiseCause.mono (by decide))

/-- The heads with a store in a slot depend on the heads, the exhibits and the grain of the stacks. -/
theorem headsIn_eq (hheads : t.heads = s.heads) (hexh : t.adm.exhibits = s.adm.exhibits) (hm : t.hbm.m = s.hbm.m)
    (hreg : rawReg t 0x00B00004 = rawReg s 0x00B00004) : headsIn t i = headsIn s i := by
  have hgrain : regField t 0x00B00004 0 4 = regField s 0x00B00004 0 4 := by rw [regField, regField, hreg]
  have hdec : ∀ a, decodeAddr t a = decodeAddr s a := fun a => by simp only [decodeAddr, hgrain, hm]
  have hblocks : ∀ a n, blocksOf t a n = blocksOf s a n := fun a n => by simp only [blocksOf, hgrain, hm]
  have hrange : ∀ e, exhRange t e = exhRange s e := fun e => by simp only [exhRange, exhOf, hexh]
  have hstores : ∀ k, storesInForce t k = storesInForce s k := fun k => by simp only [storesInForce, headOf, hheads]
  have hconf : ∀ k, configured t k = configured s k := fun k => by simp only [configured, headOf, hheads]
  simp only [headsIn, hconf, hstores, hrange, touchesSlot, hblocks, hdec]

theorem lt_of_headsIn (h : k ∈ headsIn s i) : k < s.heads.length := by
  obtain ⟨-, hk⟩ := List.mem_filter.1 h
  exact lt_of_configured (Bool.and_eq_true_iff.1 hk).1

/-- What a parity failure reaches. -/
def parityParts : List StatePart := [.hbm, .wear, .training, .free] ++ frozenParts

theorem hbmParityFail_clause {cause cmd : Nat} (hslot : slotOfPc s st pc = some i) (hfree : isFrozenPc s st pc = false)
    (hpower : hbmPowered s = true) (hself : s.hbm.selfRef = false) :
    ∃ t, exec (.hbmParityFail dt st pc cause cmd) s = .next t ∧ t.hbm.frozen = s.hbm.frozen ++ [⟨st, pc, false, false⟩] ∧
      t.hbm.map = upd s.hbm.map i (fun e => { e with frozen := true }) ∧
      (∃ j, t.hbm.jobs.getLast? = some j ∧ j.stack = st ∧ j.pc = pc ∧ j.action = 3) ∧
      (∀ k ∈ headsIn s i, (headOf t k).pipe.safeDark = true) ∧
      (∀ g ∈ t.hbm.pages, ¬(g.stack = st ∧ g.pc = pc)) ∧ t.wear.freezes = bump s.wear.freezes ∧
      t.hbm.cells = s.hbm.cells ∧ t.hbm.fp = s.hbm.fp ∧ t.power = s.power ∧ t.time = (tick dt s).time := by
  obtain ⟨f, heq⟩ := freezePc_freezes (s := tick dt s) (cause := cause) (cmd := cmd) hslot hfree hpower hself
  have hmarked : Within (clockParts ++ [.hbm, .wear]) s (freezeMarked st pc i (tick dt s)) := within_trans within_tick within_freezeMarked
  have htold := within_freezeTold (st := st) (pc := pc) (i := i) (cause := cause) (cmd := cmd) (s := tick dt s)
  generalize hv : freezeTold st pc i cause cmd (tick dt s) = v at heq htold
  have hheads : headsIn v i = headsIn s i := by
    have hall := within_trans hmarked htold
    exact headsIn_eq (hall .heads (by decide)) (hall .exhibits (by decide)) ((congrArg Hbm.m (htold.apply State.hbm rfl)).trans rfl)
      (hall .regs (by decide) _ (by decide) (by decide) (by omega))
  rw [hheads] at heq
  have hdark := within_darkenHeads (f := f) (st := st) (pc := pc) (ks := headsIn s i) (s := v)
  have hsafe : ∀ k ∈ headsIn s i, SafeDark k (darkenHeads f st pc (headsIn s i) v) := fun k hk =>
    darkenHeads_dark (fun j hj => by rw [(within_trans hmarked htold) .heads (by decide)]; exact lt_of_headsIn hj) hk
  generalize darkenHeads f st pc (headsIn s i) v = w at heq hdark hsafe
  obtain ⟨hjobs, hlast⟩ := addJob_jobs (st := st) (pc := pc) (action := 3) (o := none) (s := w)
  have hadd := within_addJob (st := st) (pc := pc) (action := 3) (o := none) (s := w)
  generalize addJob st pc 3 none w = x at heq hjobs hlast hadd
  have hlater : Within (jobParts ++ [.wear, .ledger]) w (serviceStep x) := within_trans hadd within_serviceStep
  have hhbm : (serviceStep x).hbm = { freezeHbm st pc i s.hbm with jobs := x.hbm.jobs } := by
    rw [within_serviceStep.apply State.hbm rfl, hjobs, hdark.apply State.hbm rfl, htold.apply State.hbm rfl]
    rfl
  have hrest : Within (jobParts ++ [.wear, .ledger] ++ (frozenParts ++ toldParts)) (freezeMarked st pc i (tick dt s)) (serviceStep x) :=
    (within_trans (within_trans htold hdark) hlater).mono (by decide)
  have hwear : x.wear = (freezeMarked st pc i (tick dt s)).wear := (within_trans (within_trans htold hdark) hadd).apply State.wear rfl
  refine ⟨serviceStep x, congrArg Host.Outcome.next heq, congrArg Hbm.frozen hhbm, congrArg Hbm.map hhbm, ?_, fun k hk => ?_, fun g hg => ?_, ?_,
    (congrArg Hbm.cells hhbm).trans rfl, (congrArg Hbm.fp hhbm).trans rfl, hrest.apply State.power rfl, hrest.apply State.time rfl⟩
  · obtain ⟨q, hq, hrest⟩ := hlast
    exact ⟨q, (congrArg (fun h : Hbm => h.jobs.getLast?) hhbm).trans hq, hrest⟩
  · exact (hlater.darkStays (by decide)) k (hsafe k hk)
  · rw [hhbm] at hg
    obtain ⟨-, hother⟩ := List.mem_filter.1 hg
    rintro ⟨rfl, rfl⟩
    simp at hother
  · calc (serviceStep x).wear.freezes = x.wear.freezes := (congrArg Wear.freezes serviceStep_wear).trans rfl
      _ = bump s.wear.freezes := congrArg Wear.freezes hwear

theorem hbmParityFail_frozen {cause cmd : Nat} (h : isFrozenPc s st pc = true) : exec (.hbmParityFail dt st pc cause cmd) s = .next (tick dt s) := by
  refine congrArg Host.Outcome.next ?_
  unfold freezePc
  rw [show isFrozenPc (tick dt s) st pc = true from h]
  simp

/-! ### The end of a diagnosis -/

variable {j : DiagJob} {r : DiagResult}

theorem runningJob_single (hjobs : s.hbm.jobs = [j]) (hrun : j.running = true) : runningJob s = some j := by
  unfold runningJob
  rw [hjobs, List.find?_cons_of_pos hrun]

/-- The training engine rests after the session of a diagnosis. -/
def restAfter (j : DiagJob) (s : State) : State := if isLatest s j.stack j.pc then restSession 0 s else s

/-- A diagnosis is told with its outcome. -/
def diagTold (j : DiagJob) (o : Nat) (s : State) : State :=
  record (hbmUnit j.stack) 0x1207 (u8 j.stack ++ u8 j.pc ++ u8 o) (restAfter j s)

theorem within_restAfter : Within [.training] s (restAfter j s) := within_ite within_restSession within_refl

theorem within_diagTold {o : Nat} : Within [.training, .ledger] s (diagTold j o s) :=
  (within_restAfter.mono (by decide)).then (within_recordAt.mono (by decide))

theorem diagTold_training {o : Nat} : (diagTold j o s).training = (if isLatest s j.stack j.pc = true then
    { s.training with steps := stepsNow s, state := 0 } else s.training) := by
  have hrec : (diagTold j o s).training = (restAfter j s).training := within_recordAt.apply State.training rfl
  rw [hrec, restAfter]
  split <;> rfl

theorem exec_hbmDiagDone (hjobs : s.hbm.jobs = [j]) (hrun : j.running = true) (hsparing : j.sparing = none) (hmoving : s.hbm.moving = none) :
    exec (.hbmDiagDone dt r) s = .next (serviceStep (diagDone r j (tick dt s))) := by
  refine congrArg Host.Outcome.next ?_
  rw [runningJob_single (s := tick dt s) hjobs hrun]
  dsimp only
  rw [show (tick dt s).hbm.moving = none from hmoving, hsparing]
  rfl

theorem endJob_single (hjobs : s.hbm.jobs = [j]) (hrun : j.running = true) : endJob s = modHbm (fun h => { h with jobs := [] }) s := by
  have hout : modHbm (fun h => { h with jobs := h.jobs.filter fun j => !j.running }) s = modHbm (fun h => { h with jobs := [] }) s := by
    simp only [modHbm, hjobs, List.filter_cons, hrun, Bool.not_true, Bool.false_eq_true, if_false, List.filter_nil]
  unfold endJob
  rw [hout]
  exact nextDiag_empty rfl

theorem within_completeJob {det : List Byte} : Within replyParts s (completeJob j det s) :=
  within_elim within_refl fun _ => within_ite within_complete within_refl

/-- The stacks with a pseudo-channel taken back into use. -/
def unfreezeHbm (slot : Option Nat) (st pc : Nat) (h : Hbm) : Hbm := { h with
  frozen := h.frozen.filter fun f => !(f.stack == st && f.pc == pc)
  patterns := h.patterns.filter fun x => x.pc ≠ 32 * st + pc
  map := slot.elim h.map fun i => upd h.map i fun e => { e with frozen := false }
  reserves := if slot.isNone then h.reserves ++ [(st, pc)] else h.reserves }

/-- A pseudo-channel taken back into use may have lost bytes, and the work is priced anew. -/
theorem unfreeze_steps {bad : List Nat} : ∃ v, unfreeze st pc bad s = reprice 3 (record (hbmUnit st) 0x1209 (u8 st ++ u8 pc) v) ∧
    Within storeParts (modHbm (unfreezeHbm (slotOfPc s st pc) st pc) s) v ∧
    (bad = [] → (∀ f ∈ s.hbm.frozen, f.lost = false) → v = modHbm (unfreezeHbm (slotOfPc s st pc) st pc) s) := by
  refine ⟨_, rfl, ?_, fun hbad hlost => ?_⟩
  · refine Within.then (within_ite ?_ within_refl) within_markBad
    exact within_elim within_refl fun _ => within_markBad
  · have hnone : (s.hbm.frozen.any fun f => f.stack == st && f.pc == pc && f.lost) = false :=
      List.any_eq_false.2 fun f hf => by simp [hlost f hf]
    rw [hnone, hbad]
    rfl

theorem isFrozenPc_filter (h : t.hbm.frozen = s.hbm.frozen.filter fun f => !(f.stack == st && f.pc == pc)) : isFrozenPc t st pc = false := by
  unfold isFrozenPc
  rw [h]
  exact List.any_eq_false.2 fun f hf => by simpa [-not_and, Decidable.not_and_iff_or_not] using (List.mem_filter.1 hf).2

/-- What the end of a diagnosis that passes reaches, beside the bytes of the stacks. -/
def passParts : List StatePart := [.hbm, .wear, .training] ++ priceParts ++ revokeParts

theorem serviceStep_ppr : (serviceStep s).wear.ppr = s.wear.ppr := (congrArg Wear.ppr serviceStep_wear).trans rfl

/-- A pseudo-channel that has passed, after `u`: taken back, its job ended and answered. -/
def passEnd (j : DiagJob) (bad : List Nat) (u : State) : State :=
  serviceStep (completeJob j (spareDetail 1 none) (endJob (unfreeze j.stack j.pc bad u)))

theorem within_endJob : Within jobParts s (endJob s) := Within.then (within_of_eq_sub (m := [.hbm]) rfl (by decide) (by decide)) within_nextDiag

theorem passEnd_frame {bad : List Nat} (hjobs : u.hbm.jobs = [j]) (hrun : j.running = true) : let t := passEnd j bad u
    t.hbm.bare = { unfreezeHbm (slotOfPc u j.stack j.pc) j.stack j.pc u.hbm with jobs := [] }.bare ∧
    (bad = [] → (∀ f ∈ u.hbm.frozen, f.lost = false) →
      t.hbm = { unfreezeHbm (slotOfPc u j.stack j.pc) j.stack j.pc u.hbm with jobs := [] }) ∧
    t.wear.ppr = u.wear.ppr ∧ t.power = u.power ∧ t.ports = u.ports ∧ t.time = u.time := by
  obtain ⟨v, heq, hstore, hsame⟩ := unfreeze_steps (st := j.stack) (pc := j.pc) (bad := bad) (s := u)
  have hpriced : Within (priceParts ++ revokeParts) v (unfreeze j.stack j.pc bad u) := by
    rw [heq]
    exact Within.then (within_recordAt.mono (by decide)) within_reprice
  have hbare : (unfreeze j.stack j.pc bad u).hbm.bare = (unfreezeHbm (slotOfPc u j.stack j.pc) j.stack j.pc u.hbm).bare :=
    (within_trans hstore hpriced) .hbm (by decide)
  have hend : endJob (unfreeze j.stack j.pc bad u) = modHbm (fun h => { h with jobs := [] }) (unfreeze j.stack j.pc bad u) := by
    refine endJob_single ?_ hrun
    exact (congrArg Hbm.jobs hbare).trans hjobs
  have hlater : Within (replyParts ++ [.wear, .ledger]) (endJob (unfreeze j.stack j.pc bad u)) (passEnd j bad u) :=
    within_trans within_completeJob within_serviceStep
  have hopen : Within [.hbm] u (modHbm (unfreezeHbm (slotOfPc u j.stack j.pc) j.stack j.pc) u) := within_modHbm fun _ => ⟨rfl, rfl, rfl⟩
  have hearly := within_trans (within_trans (within_trans hopen hstore) hpriced) (within_endJob (s := unfreeze j.stack j.pc bad u))
  have hall := within_trans hearly hlater
  refine ⟨?_, fun hbad hlost => ?_, ?_, hall.apply State.power rfl, hall.apply State.ports rfl, hall.apply State.time rfl⟩
  · rw [hlater.apply State.hbm rfl, hend]
    exact congrArg (fun h : Hbm => { h with jobs := [] }) hbare
  · rw [hlater.apply State.hbm rfl, hend]
    have hv := hsame hbad hlost
    rw [hv] at hpriced
    exact congrArg (fun h : Hbm => { h with jobs := [] }) (hpriced.apply State.hbm rfl)
  · have hwear : (completeJob j (spareDetail 1 none) (endJob (unfreeze j.stack j.pc bad u))).wear = u.wear :=
      (within_trans hearly (within_completeJob (j := j) (det := spareDetail 1 none))).apply State.wear rfl
    exact serviceStep_ppr.trans (congrArg Wear.ppr hwear)

theorem diagDone_passes (hretrain : r.retrain = true) (hpattern : r.pattern = true) :
    serviceStep (diagDone r j s) = passEnd j [] (diagTold j 1 s) := by
  unfold diagDone
  rw [hretrain, hpattern]
  rfl

theorem diagDone_repairs {l : List Nat} (hretrain : r.retrain = true) (hpattern : r.pattern = false) (hrows : r.pprRows = some l)
    (hfits : pprFits s j.stack j.pc l = true) :
    ∃ bad, serviceStep (diagDone r j s) = passEnd j bad (record (hbmUnit j.stack) 0x1207 (u8 j.stack ++ u8 j.pc ++ u8 1)
      (usePpr j.stack j.pc l (restAfter j s))) := by
  have hfit : Option.filter (pprFits (restAfter j s) j.stack j.pc) (some l) = some l := by
    rw [Option.filter_some, if_pos]
    unfold restAfter
    split
    · exact hfits
    · exact hfits
  unfold diagDone
  rw [hretrain, hpattern, hrows]
  unfold restAfter at hfit ⊢
  simp only [hfit, Option.isSome_some, Bool.or_true, Bool.and_true, if_true, Bool.false_eq_true, if_false, Option.elim_some]
  exact ⟨_, rfl⟩

theorem diagPass_clause (hjobs : s.hbm.jobs = [j]) (hrun : j.running = true) (hsparing : j.sparing = none) (hmoving : s.hbm.moving = none)
    (hretrain : r.retrain = true) (hpattern : r.pattern = true) (hlost : ∀ f ∈ s.hbm.frozen, f.lost = false) :
    ∃ t, exec (.hbmDiagDone dt r) s = .next t ∧ isFrozenPc t j.stack j.pc = false ∧ t.hbm.jobs = [] ∧
      t.hbm = { s.hbm with jobs := [], frozen := t.hbm.frozen, map := t.hbm.map, reserves := t.hbm.reserves,
                           patterns := t.hbm.patterns } ∧
      (∀ i, slotOfPc s j.stack j.pc = some i → t.hbm.map = upd s.hbm.map i (fun e => { e with frozen := false })) ∧
      t.power = s.power ∧ t.ports = s.ports ∧ t.time = (tick dt s).time := by
  have htold : Within (clockParts ++ [.training, .ledger]) s (diagTold j 1 (tick dt s)) := within_trans within_tick within_diagTold
  have htoldHbm : (diagTold j 1 (tick dt s)).hbm = s.hbm := htold.apply State.hbm rfl
  have hslot : slotOfPc (diagTold j 1 (tick dt s)) j.stack j.pc = slotOfPc s j.stack j.pc := by
    unfold slotOfPc
    rw [htoldHbm]
  obtain ⟨-, hhbm, -, hpower, hports, htime⟩ := passEnd_frame (bad := []) (htoldHbm ▸ hjobs) hrun
  replace hhbm := hhbm rfl (htoldHbm ▸ hlost)
  rw [htoldHbm, hslot] at hhbm
  refine ⟨_, (exec_hbmDiagDone hjobs hrun hsparing hmoving).trans (congrArg Host.Outcome.next (diagDone_passes hretrain hpattern)),
    isFrozenPc_filter (s := s) (congrArg Hbm.frozen hhbm), congrArg Hbm.jobs hhbm, ?_, fun i hi => ?_,
    hpower.trans (htold.apply State.power rfl), hports.trans (htold.apply State.ports rfl), htime.trans (within_diagTold.apply State.time rfl)⟩
  · rw [hhbm]
    rfl
  · refine (congrArg Hbm.map hhbm).trans ?_
    rw [hi]
    rfl

theorem diagRepair_clause (hjobs : s.hbm.jobs = [j]) (hrun : j.running = true) (hsparing : j.sparing = none) (hmoving : s.hbm.moving = none)
    {l : List Nat} (hretrain : r.retrain = true) (hpattern : r.pattern = false) (hrows : r.pprRows = some l)
    (hfits : pprFits s j.stack j.pc l = true) :
    ∃ t, exec (.hbmDiagDone dt r) s = .next t ∧ isFrozenPc t j.stack j.pc = false ∧ t.hbm.jobs = [] ∧
      t.wear.ppr = upd s.wear.ppr (32 * j.stack + j.pc) (fun _ => min 24 (s.wear.ppr.getD (32 * j.stack + j.pc) 0 + l.length)) ∧
      t.power = s.power ∧ t.ports = s.ports ∧ t.time = (tick dt s).time := by
  obtain ⟨bad, heq⟩ := diagDone_repairs (s := tick dt s) hretrain hpattern hrows hfits
  have hrest : Within (clockParts ++ [.training]) s (restAfter j (tick dt s)) := within_trans within_tick within_restAfter
  have hused : Within [.wear, .ledger] (restAfter j (tick dt s)) (record (hbmUnit j.stack) 0x1207 (u8 j.stack ++ u8 j.pc ++ u8 1)
      (usePpr j.stack j.pc l (restAfter j (tick dt s)))) := by
    refine Within.then (Within.then ?_ (within_recordAt.mono (by decide))) (within_recordAt.mono (by decide))
    exact within_of_eq_sub (m := [.wear]) rfl (by decide) (by decide)
  have hppr : (record (hbmUnit j.stack) 0x1207 (u8 j.stack ++ u8 j.pc ++ u8 1) (usePpr j.stack j.pc l (restAfter j (tick dt s)))).wear.ppr =
      upd (restAfter j (tick dt s)).wear.ppr (32 * j.stack + j.pc)
        (fun _ => min 24 ((restAfter j (tick dt s)).wear.ppr.getD (32 * j.stack + j.pc) 0 + l.length)) := rfl
  have hwear : (restAfter j (tick dt s)).wear = s.wear := hrest.apply State.wear rfl
  rw [hwear] at hppr
  have hall := within_trans hrest hused
  generalize record (hbmUnit j.stack) 0x1207 (u8 j.stack ++ u8 j.pc ++ u8 1) (usePpr j.stack j.pc l (restAfter j (tick dt s))) = u at *
  have huHbm : u.hbm = s.hbm := hall.apply State.hbm rfl
  obtain ⟨hhbm, -, hpprs, hpower, hports, htime⟩ := passEnd_frame (bad := bad) (huHbm ▸ hjobs) hrun
  refine ⟨_, (exec_hbmDiagDone hjobs hrun hsparing hmoving).trans (congrArg Host.Outcome.next heq),
    isFrozenPc_filter (s := u) ((congrArg Hbm.frozen hhbm).trans rfl), (congrArg Hbm.jobs hhbm).trans rfl, hpprs.trans hppr,
    hpower.trans (hall.apply State.power rfl), hports.trans (hall.apply State.ports rfl), htime.trans ?_⟩
  exact (within_trans within_restAfter hused).apply State.time rfl

/-- Of the stacks it is noted that a diagnosis has found its pseudo-channel bad. -/
def diagnosedHbm (j : DiagJob) (h : Hbm) : Hbm := { h with frozen := h.frozen.map fun f =>
  if f.stack = j.stack ∧ f.pc = j.pc then { f with diagnosed := true } else f }

/-- The reserve taken for the diagnosed pseudo-channel. -/
def spareHbm (x : Nat × Nat) (h : Hbm) : Hbm := { h with
  reserves := h.reserves.filter (· ≠ x)
  jobs := h.jobs.map fun q => if q.running then { q with sparing := some x } else q }

/-- The reserve that the end of an automatic diagnosis takes. -/
def autoSpare (j : DiagJob) (s : State) : Option (Nat × Nat) :=
  if j.action = 3 ∧ (slotOfPc s j.stack j.pc).isSome ∧ regField s 0x00B00004 4 1 = 1 then reserveFor s j.stack else none

theorem autoSpare_restAfter : autoSpare j (restAfter j s) = autoSpare j s := by
  unfold restAfter
  split <;> rfl

theorem diagDone_fails (hretrain : r.retrain = false) (hspare : autoSpare j s = none) :
    diagDone r j s = completeJob j (spareDetail 3 none) (endJob (modHbm (diagnosedHbm j) (diagTold j 3 s))) := by
  rw [← autoSpare_restAfter] at hspare
  unfold autoSpare restAfter at hspare
  unfold diagDone
  rw [hretrain]
  dsimp only
  rw [Bool.false_and, if_neg Bool.false_ne_true, hspare]
  rfl

theorem diagDone_spares {x : Nat × Nat} (hretrain : r.retrain = false) (hspare : autoSpare j s = some x) :
    diagDone r j s = modHbm (spareHbm x) (diagTold j 2 s) := by
  rw [← autoSpare_restAfter] at hspare
  unfold autoSpare restAfter at hspare
  unfold diagDone
  rw [hretrain]
  dsimp only
  rw [Bool.false_and, if_neg Bool.false_ne_true, hspare]
  rfl

/-- What the end of a diagnosis that takes nothing back into use leaves: the reply, the stacks, the engine's session and the
service state. -/
theorem onlyReply_diag {o : Nat} {f : Hbm → Hbm} (ht : Within ([.hbm, .wear] ++ replyParts) (modHbm f (diagTold j o (tick dt s))) t) :
    OnlyReply { s with hbm := t.hbm, training := t.training, wear := t.wear } t := by
  have hall : Within (clockParts ++ ([.training, .ledger] ++ [.hbm, .selfRef, .cells]) ++ ([.hbm, .wear] ++ replyParts)) s t :=
    within_trans (within_trans within_tick (within_trans within_diagTold (within_of_eq (t := modHbm f (diagTold j o (tick dt s))) rfl (by decide)))) ht
  exact onlyReply_patch (m := [.hbm, .selfRef, .cells, .training, .wear]) (hall.mono (by decide)) (by decide)

theorem diagFail_clause (hjobs : s.hbm.jobs = [j]) (hrun : j.running = true) (hsparing : j.sparing = none) (hmoving : s.hbm.moving = none)
    (hretrain : r.retrain = false) (hspare : autoSpare j s = none) :
    ∃ t, exec (.hbmDiagDone dt r) s = .next t ∧ t.hbm = { diagnosedHbm j s.hbm with jobs := [] } ∧
      OnlyReply { s with hbm := t.hbm, training := t.training, wear := t.wear } t ∧
      t.training = if isLatest s j.stack j.pc = true then { s.training with steps := stepsNow (tick dt s), state := 0 } else s.training := by
  have hform := diagDone_fails (s := tick dt s) hretrain hspare
  have htoldHbm : (diagTold j 3 (tick dt s)).hbm = s.hbm := within_diagTold.apply State.hbm rfl
  have hend : endJob (modHbm (diagnosedHbm j) (diagTold j 3 (tick dt s))) =
      modHbm (fun h => { diagnosedHbm j h with jobs := [] }) (diagTold j 3 (tick dt s)) := endJob_single ((congrArg Hbm.jobs htoldHbm).trans hjobs) hrun
  rw [hend] at hform
  have hlater : Within (replyParts ++ [.wear, .ledger]) (modHbm (fun h => { diagnosedHbm j h with jobs := [] }) (diagTold j 3 (tick dt s)))
      (serviceStep (diagDone r j (tick dt s))) := by
    rw [hform]
    exact within_trans within_completeJob within_serviceStep
  refine ⟨_, exec_hbmDiagDone hjobs hrun hsparing hmoving, (hlater.apply State.hbm rfl).trans ?_, onlyReply_diag (hlater.mono (by decide)), ?_⟩
  · rw [← htoldHbm]
    rfl
  · exact (hlater.apply State.training rfl).trans (diagTold_training (s := tick dt s) (o := 3))

theorem diagSpare_clause (hjobs : s.hbm.jobs = [j]) (hrun : j.running = true) (hsparing : j.sparing = none) (hmoving : s.hbm.moving = none)
    {x : Nat × Nat} (hretrain : r.retrain = false) (hspare : autoSpare j s = some x) :
    ∃ t, exec (.hbmDiagDone dt r) s = .next t ∧
      t.hbm = { s.hbm with reserves := s.hbm.reserves.filter (· ≠ x), jobs := [{ j with sparing := some x }] } ∧
      OnlyReply { s with hbm := t.hbm, training := t.training, wear := t.wear } t ∧
      t.training = if isLatest s j.stack j.pc = true then { s.training with steps := stepsNow (tick dt s), state := 0 } else s.training := by
  have hform := diagDone_spares (s := tick dt s) hretrain hspare
  have htoldHbm : (diagTold j 2 (tick dt s)).hbm = s.hbm := within_diagTold.apply State.hbm rfl
  have hlater : Within [.wear, .ledger] (modHbm (spareHbm x) (diagTold j 2 (tick dt s))) (serviceStep (diagDone r j (tick dt s))) := by
    rw [hform]
    exact within_serviceStep
  refine ⟨_, exec_hbmDiagDone hjobs hrun hsparing hmoving, (hlater.apply State.hbm rfl).trans ?_, onlyReply_diag (hlater.mono (by decide)), ?_⟩
  · show spareHbm x (diagTold j 2 (tick dt s)).hbm = _
    rw [htoldHbm, spareHbm, hjobs, List.map_cons, if_pos hrun, List.map_nil]
  · exact (hlater.apply State.training rfl).trans (diagTold_training (s := tick dt s) (o := 2))

/-! ### The end of sparing -/

/-- The stacks with the reserve `x` in slot `i` in place of the pseudo-channel of `j`. -/
def sparedHbm (i : Nat) (x : Nat × Nat) (j : DiagJob) (h : Hbm) : Hbm := { h with
  map := upd h.map i fun _ => { stack := x.1, pc := x.2, frozen := false, reserve := true }
  frozen := h.frozen.filter fun f => !(f.stack == j.stack && f.pc == j.pc) }

/-- The end of a sparing whose bytes are in place: told, priced anew, answered. -/
def sparedEnd (j : DiagJob) (x : Nat × Nat) (n : Nat) (s : State) : State :=
  serviceStep (completeJob j (spareDetail 2 (some x)) (endJob (repriceNow 3
    (record (hbmUnit j.stack) 0x1208 (u8 j.stack ++ u8 j.pc ++ u8 x.1 ++ u8 x.2 ++ u32 n) s))))

theorem within_zeroSlot : Within [.cells] s (zeroSlot i s) := within_of_eq rfl (by decide)
theorem within_spareBlank : Within storeParts s (spareBlank i s) := (within_zeroSlot.mono (by decide)).then within_markBad

/-- The bytes of a spared slot are copied, or blanked where they are lost or not to be copied. -/
theorem sparedDone_steps {x : Nat × Nat} (hslot : slotOfPc s j.stack j.pc = some i) : ∃ n v, sparedDone [] j x s = sparedEnd j x n v ∧
    Within storeParts (modHbm (sparedHbm i x j) s) v ∧ (j.action = 2 → v = spareBlank i (modHbm (sparedHbm i x j) s)) ∧
    (j.action ≠ 2 → (∀ f ∈ s.hbm.frozen, f.lost = false) → v = modHbm (sparedHbm i x j) s) := by
  unfold sparedDone
  rw [hslot]
  refine ⟨_, _, rfl, within_ite within_spareBlank within_markBad, fun h2 => ?_, fun h2 hlost => ?_⟩
  · rw [if_pos]
    · rfl
    · rw [beq_iff_eq.2 h2, Bool.or_true]
  · have hnone : (s.hbm.frozen.any fun f => f.stack == j.stack && f.pc == j.pc && f.lost) = false :=
      List.any_eq_false.2 fun f hf => by simp [hlost f hf]
    rw [if_neg]
    · rfl
    · simp only [hnone, beq_eq_false_iff_ne.2 h2, Bool.or_false, Bool.false_eq_true, not_false_eq_true]

theorem mem_putCell {a : Nat} {v : Byte} {l : List (Nat × Byte)} {e : Nat × Byte} (h : e ∈ putCell a v l) :
    e ∈ l ∨ (e = (a, v) ∧ v ≠ 0) := by
  induction l with
  | nil =>
    unfold putCell at h
    split at h
    · cases h
    · next hv => exact Or.inr ⟨List.mem_singleton.1 h, hv⟩
  | cons b l ih =>
    unfold putCell at h
    split at h
    · split at h
      · exact Or.inl h
      · next hv => exact (List.mem_cons.1 h).symm.imp_right fun he => ⟨he, hv⟩
    · split at h
      · split at h
        · exact Or.inl (List.mem_cons_of_mem _ h)
        · next hv => exact (List.mem_cons.1 h).symm.imp (List.mem_cons_of_mem _) fun he => ⟨he, hv⟩
      · rcases List.mem_cons.1 h with rfl | hl
        · exact Or.inl (List.mem_cons_self ..)
        · exact (ih hl).imp_left (List.mem_cons_of_mem _)

/-- Without Archive regions a byte that is marked stands where one stood. -/
def CellsStand (s t : State) : Prop := s.ecc.archives = [] → t.ecc.archives = [] ∧ ∀ e ∈ t.hbm.cells, e.1 ∈ s.hbm.cells.map (·.1)

theorem cellsStand_refl : CellsStand s s := fun h => ⟨h, fun _ he => List.mem_map_of_mem he⟩

theorem CellsStand.then (h1 : CellsStand s t) (h2 : CellsStand t u) : CellsStand s u := fun h => by
  obtain ⟨ht, hcells⟩ := h1 h
  obtain ⟨hu, hlater⟩ := h2 ht
  refine ⟨hu, fun e he => ?_⟩
  obtain ⟨e', hmem, heq⟩ := List.mem_map.1 (hlater e he)
  rw [← heq]
  exact hcells e' hmem

theorem cellsStand_markByte {a : Nat} : CellsStand s (markByte a s) := fun h => by
  have hform : markByte a s = storeOdd a (rawByte s a) s := by
    simp only [markByte, archiveData, inArchive, h, List.find?_nil, List.any_nil, Bool.false_eq_true, if_false]
  rw [hform]
  refine ⟨h, fun e he => ?_⟩
  rcases mem_putCell he with hold | ⟨rfl, hne⟩
  · exact List.mem_map_of_mem hold
  · cases hkey : getKey a s.hbm.cells with
    | none => exact absurd (by rw [rawByte, hkey]; rfl) hne
    | some v => exact mem_keys_of_getKey hkey

theorem cellsStand_markBad {l : List Nat} : CellsStand s (markBad l s) := by
  unfold markBad forEach
  induction l generalizing s with
  | nil => exact cellsStand_refl
  | cons a l ih => exact cellsStand_markByte.then ih

theorem spareBlank_cells (harch : s.ecc.archives = []) {e : Nat × Byte} (he : e ∈ (spareBlank i s).hbm.cells) : (decodeAddr s e.1).1 ≠ i := by
  obtain ⟨-, hcells⟩ := cellsStand_markBad (s := zeroSlot i s) (l := slotAddrs (zeroSlot i s) i (vitBase (zeroSlot i s)) 3221225472) harch
  obtain ⟨e', hmem, heq⟩ := List.mem_map.1 (hcells e he)
  rw [← heq]
  exact of_decide_eq_true (List.mem_filter.1 hmem).2

theorem sparedEnd_frame {x : Nat × Nat} {n : Nat} (hjobs : s.hbm.jobs = [j]) (hrun : j.running = true) : let t := sparedEnd j x n s
    t.hbm = { s.hbm with jobs := [] } ∧ t.power = s.power ∧ t.ports = s.ports ∧ t.time = s.time := by
  have hpriced : Within (priceParts ++ revokeParts) s (repriceNow 3
      (record (hbmUnit j.stack) 0x1208 (u8 j.stack ++ u8 j.pc ++ u8 x.1 ++ u8 x.2 ++ u32 n) s)) :=
    Within.then (within_recordAt.mono (by decide)) within_repriceNow
  unfold sparedEnd
  generalize repriceNow 3 (record (hbmUnit j.stack) 0x1208 (u8 j.stack ++ u8 j.pc ++ u8 x.1 ++ u8 x.2 ++ u32 n) s) = v at hpriced ⊢
  have hhbm : v.hbm = s.hbm := hpriced.apply State.hbm rfl
  have hend := endJob_single ((congrArg Hbm.jobs hhbm).trans hjobs) hrun
  have hlater : Within (replyParts ++ [.wear, .ledger]) (endJob v) (serviceStep (completeJob j (spareDetail 2 (some x)) (endJob v))) :=
    within_trans within_completeJob within_serviceStep
  have hall := within_trans (within_trans hpriced within_endJob) hlater
  generalize serviceStep (completeJob j (spareDetail 2 (some x)) (endJob v)) = w at hlater hall ⊢
  refine ⟨?_, hall.apply State.power rfl, hall.apply State.ports rfl, hall.apply State.time rfl⟩
  rw [hlater.apply State.hbm rfl, hend]
  exact congrArg (fun h : Hbm => { h with jobs := [] }) hhbm

theorem exec_hbmSpared {x : Nat × Nat} (hjobs : s.hbm.jobs = [j]) (hrun : j.running = true) (hsparing : j.sparing = some x)
    (hmoving : s.hbm.moving = none) : exec (.hbmSpared dt []) s = .next (sparedDone [] j x (tick dt s)) := by
  refine congrArg Host.Outcome.next ?_
  rw [runningJob_single (s := tick dt s) hjobs hrun]
  dsimp only
  rw [hsparing]
  dsimp only
  rw [show (tick dt s).hbm.moving = none from hmoving]
  rfl

theorem hbmSpared_clause {x : Nat × Nat} (hjobs : s.hbm.jobs = [j]) (hrun : j.running = true) (hsparing : j.sparing = some x)
    (hmoving : s.hbm.moving = none) (hslot : slotOfPc s j.stack j.pc = some i) : ∃ t, exec (.hbmSpared dt []) s = .next t ∧
      t.hbm.map = upd s.hbm.map i (fun _ => ⟨x.1, x.2, false, true⟩) ∧ t.hbm.jobs = [] ∧
      isFrozenPc t j.stack j.pc = false ∧ (∀ f ∈ s.hbm.frozen, ¬(f.stack = j.stack ∧ f.pc = j.pc) → f ∈ t.hbm.frozen) ∧
      (j.action ≠ 2 → (∀ f ∈ s.hbm.frozen, f.lost = false) → t.hbm.cells = s.hbm.cells ∧ t.hbm.lanes = s.hbm.lanes) ∧
      (j.action = 2 → s.ecc.archives = [] → ∀ e ∈ t.hbm.cells, (decodeAddr s e.1).1 ≠ i) ∧
      t.power = s.power ∧ t.ports = s.ports ∧ t.time = (tick dt s).time := by
  obtain ⟨n, v, heq, hstore, hblank, hcopy⟩ := sparedDone_steps (s := tick dt s) (j := j) (x := x) hslot
  have hfields : v.hbm.bare = (sparedHbm i x j s.hbm).bare := hstore .hbm (by decide)
  obtain ⟨hhbm, hpower, hports, htime⟩ := sparedEnd_frame (s := v) (x := x) (n := n) (j := j) ((congrArg Hbm.jobs hfields).trans hjobs) hrun
  have hopen : Within [.hbm] (tick dt s) (modHbm (sparedHbm i x j) (tick dt s)) := within_modHbm fun _ => ⟨rfl, rfl, rfl⟩
  have hall : Within (clockParts ++ ([.hbm] ++ storeParts)) s v := within_trans within_tick (within_trans hopen hstore)
  have hmap : (sparedEnd j x n v).hbm.map = upd s.hbm.map i (fun _ => ⟨x.1, x.2, false, true⟩) :=
    (congrArg Hbm.map hhbm).trans (congrArg Hbm.map hfields)
  have hfrozen : (sparedEnd j x n v).hbm.frozen = s.hbm.frozen.filter fun f => !(f.stack == j.stack && f.pc == j.pc) :=
    (congrArg Hbm.frozen hhbm).trans (congrArg Hbm.frozen hfields)
  refine ⟨_, (exec_hbmSpared hjobs hrun hsparing hmoving).trans (congrArg Host.Outcome.next heq), hmap, congrArg Hbm.jobs hhbm,
    isFrozenPc_filter hfrozen, fun f hf hne => ?_, fun h2 hlost => ?_, fun h2 harch e he => ?_,
    hpower.trans (hall.apply State.power rfl), hports.trans (hall.apply State.ports rfl), htime.trans ?_⟩
  · rw [hfrozen]
    exact List.mem_filter.2 ⟨hf, by simpa [-not_and, Decidable.not_and_iff_or_not] using hne⟩
  · have hv := hcopy h2 hlost
    rw [hhbm, hv]
    exact ⟨rfl, rfl⟩
  · have hv := hblank h2
    have hcells : (sparedEnd j x n v).hbm.cells = v.hbm.cells := (congrArg Hbm.cells hhbm).trans rfl
    rw [hcells, hv] at he
    exact spareBlank_cells (s := modHbm (sparedHbm i x j) (tick dt s)) harch he
  · exact (within_trans hopen hstore).apply State.time rfl

/-! ### CHANNEL_SPARE -/

theorem spareAct_notFrozen (h : isFrozenPc s (d.p8 16) (d.p8 17) = false) :
    spareAct d s = complete d 0x1283 (u8 (d.p8 16) ++ u8 (d.p8 17)) s := by
  unfold spareAct
  dsimp only
  rw [h]
  rfl

theorem spareAct_diagnoses (h : isFrozenPc s (d.p8 16) (d.p8 17) = true) (hjobs : s.hbm.jobs = []) (ha : d.p8 18 = 0) :
    spareAct d s = addJob (d.p8 16) (d.p8 17) 0 (some d) s := by
  unfold spareAct
  dsimp only
  rw [h, hjobs, ha]
  rfl

theorem reserves_ne_nil {x : Nat × Nat} (h : reserveFor s st = some x) : s.hbm.reserves.isEmpty = false := by
  cases hl : s.hbm.reserves with
  | nil =>
    rw [reserveFor, hl] at h
    cases h
  | cons y l => rfl

theorem spareAct_spares {x : Nat × Nat} (h : isFrozenPc s (d.p8 16) (d.p8 17) = true) (hjobs : s.hbm.jobs = []) (ha : d.p8 18 ≠ 0)
    (hslot : slotOfPc s (d.p8 16) (d.p8 17) = some i) (hreserve : reserveFor s (d.p8 16) = some x) :
    spareAct d s = modHbm (fun h => { h with
      reserves := h.reserves.filter (· ≠ x), jobs := [⟨d.p8 16, d.p8 17, d.p8 18, some d, true, some x⟩] }) s := by
  unfold spareAct
  dsimp only
  rw [h, hjobs, hslot, reserves_ne_nil hreserve, Option.isNone_some, Bool.or_false, Bool.and_false]
  refine (if_neg ha).trans ?_
  rw [hreserve]
  rfl

theorem nextDiag_begins {q : DiagJob} (hjobs : s.hbm.jobs = [q]) (hidle : q.running = false)
    (hsessions : ∀ y ∈ s.training.sessions, ¬(y.stack = q.stack ∧ y.pc = q.pc)) :
    nextDiag s = noteSession 0 s.hbm.fp q.stack q.pc 0 (modHbm (fun h => { h with jobs := [{ q with running := true }] }) s) := by
  have hnone : (s.training.sessions.any fun x => x.stack == q.stack && x.pc == q.pc) = false :=
    List.any_eq_false.2 fun y hy => by simpa [-not_and, Decidable.not_and_iff_or_not] using hsessions y hy
  unfold nextDiag diagIdle
  rw [hjobs, List.any_cons, List.any_nil, hidle, Bool.or_false, Bool.not_false, if_pos rfl]
  dsimp only
  rw [hnone]
  rfl

theorem nextDiag_waits {q : DiagJob} {y : Session} (hjobs : s.hbm.jobs = [q]) (hy : y ∈ s.training.sessions) (hstack : y.stack = q.stack)
    (hpc : y.pc = q.pc) : nextDiag s = s := by
  have hsome : (s.training.sessions.any fun x => x.stack == q.stack && x.pc == q.pc) = true :=
    List.any_eq_true.2 ⟨y, hy, by simp [hstack, hpc]⟩
  unfold nextDiag
  rw [hjobs]
  dsimp only
  rw [hsome, if_pos rfl, ite_self]

theorem addJob_first {o : Option Desc} {n : Nat} (hjobs : s.hbm.jobs = []) :
    addJob st pc n o s = nextDiag (modHbm (fun h => { h with jobs := [⟨st, pc, n, o, false, none⟩] }) s) := by
  refine congrArg nextDiag (congrArg (fun h : Hbm => { s with hbm := h }) ?_)
  exact congrArg (fun l : List DiagJob => { s.hbm with jobs := l ++ [(⟨st, pc, n, o, false, none⟩ : DiagJob)] }) hjobs

theorem spareAct_begins (h : isFrozenPc s (d.p8 16) (d.p8 17) = true) (hjobs : s.hbm.jobs = []) (ha : d.p8 18 = 0)
    (hnone : ∀ y ∈ s.training.sessions, ¬(y.stack = d.p8 16 ∧ y.pc = d.p8 17)) :
    spareAct d s = { s with hbm := { s.hbm with jobs := [⟨d.p8 16, d.p8 17, 0, some d, true, none⟩] },
                            training := (spareAct d s).training, free := (spareAct d s).free } := by
  rw [spareAct_diagnoses h hjobs ha, addJob_first hjobs, nextDiag_begins rfl rfl hnone]
  rfl

theorem spareAct_waits {y : Session} (h : isFrozenPc s (d.p8 16) (d.p8 17) = true) (hjobs : s.hbm.jobs = []) (ha : d.p8 18 = 0)
    (hy : y ∈ s.training.sessions) (hstack : y.stack = d.p8 16) (hpc : y.pc = d.p8 17) :
    spareAct d s = modHbm (fun h => { h with jobs := [⟨d.p8 16, d.p8 17, 0, some d, false, none⟩] }) s := by
  rw [spareAct_diagnoses h hjobs ha, addJob_first hjobs]
  exact nextDiag_waits (q := ⟨d.p8 16, d.p8 17, 0, some d, false, none⟩) rfl hy hstack hpc

theorem exec_channelSpare_accepted (h : Runs (.channelSpare dt d) s) :
    exec (.channelSpare dt d) s = .next (spareAct d.trunc (begun d d.trunc (tick dt s))) := congrArg Host.Outcome.next (runDesc_accepted h)

theorem channelSpare_clause (hrun : Runs (.channelSpare dt d) s) :
    let x := d.trunc; let b := begun d d.trunc (tick dt s); let st := d.trunc.p8 16; let pc := d.trunc.p8 17
    (isFrozenPc s st pc = false → exec (.channelSpare dt d) s = .next (complete x 0x1283 (u8 st ++ u8 pc) b)) ∧
    (isFrozenPc s st pc = true → s.hbm.jobs = [] → x.p8 18 = 0 → (∀ y ∈ s.training.sessions, ¬(y.stack = st ∧ y.pc = pc)) →
      ∃ t, exec (.channelSpare dt d) s = .next t ∧ t = { b with
        hbm := { s.hbm with jobs := [⟨st, pc, 0, some x, true, none⟩] }, training := t.training, free := t.free }) ∧
    (∀ y ∈ s.training.sessions, y.stack = st → y.pc = pc → isFrozenPc s st pc = true → s.hbm.jobs = [] → x.p8 18 = 0 →
      exec (.channelSpare dt d) s = .next { b with hbm := { s.hbm with jobs := [⟨st, pc, 0, some x, false, none⟩] } }) ∧
    (∀ i r, isFrozenPc s st pc = true → s.hbm.jobs = [] → x.p8 18 ≠ 0 → slotOfPc s st pc = some i →
      reserveFor s st = some r → exec (.channelSpare dt d) s = .next { b with hbm := { s.hbm with
        reserves := s.hbm.reserves.filter (· ≠ r), jobs := [⟨st, pc, x.p8 18, some x, true, some r⟩] } }) := by
  intro x b st pc
  have hexec : exec (.channelSpare dt d) s = .next (spareAct x b) := exec_channelSpare_accepted hrun
  have hhbm : b.hbm = s.hbm := begun_apply State.hbm rfl
  have htraining : b.training = s.training := begun_apply State.training rfl
  clear_value b
  rw [hexec]
  have hfrozen : isFrozenPc b st pc = isFrozenPc s st pc := by rw [isFrozenPc, hhbm, isFrozenPc]
  have hslot : slotOfPc b st pc = slotOfPc s st pc := by rw [slotOfPc, hhbm, slotOfPc]
  have hreserve : reserveFor b st = reserveFor s st := by rw [reserveFor, hhbm, reserveFor]
  rw [← hfrozen, ← hreserve, ← hslot, ← hhbm, ← htraining]
  refine ⟨fun h => ?_, fun h hjobs ha hnone => ?_, fun y hy hstack hpc h hjobs ha => ?_, fun i r h hjobs ha hi hr => ?_⟩
  · exact congrArg Host.Outcome.next (spareAct_notFrozen h)
  · exact ⟨_, rfl, spareAct_begins h hjobs ha hnone⟩
  · exact congrArg Host.Outcome.next (spareAct_waits h hjobs ha hy hstack hpc)
  · exact congrArg Host.Outcome.next (spareAct_spares h hjobs ha hi hr)

theorem autoSpare_none (h : j.action ≠ 3 ∨ regField s 0x00B00004 4 1 = 0) : autoSpare j s = none := by
  unfold autoSpare
  refine if_neg ?_
  rintro ⟨h3, -, hreg⟩
  rcases h with hne | hzero
  · exact hne h3
  · omega

theorem autoSpare_some {x : Nat × Nat} (h3 : j.action = 3) (hslot : slotOfPc s j.stack j.pc = some i) (hreg : regField s 0x00B00004 4 1 = 1)
    (hreserve : reserveFor s j.stack = some x) : autoSpare j s = some x := by
  unfold autoSpare
  rw [if_pos ⟨h3, by rw [hslot]; rfl, hreg⟩, hreserve]

/-- Settles O51: freezing marks the slot, darkens its heads before any revocation and queues a diagnosis; the end of a diagnosis
and of sparing act on the stacks first and only then price and answer. -/
theorem channelsFreezeAndAreSpared : Obligations.ChannelsFreezeAndAreSpared := by
  unfold Obligations.ChannelsFreezeAndAreSpared
  intro dt s
  refine ⟨fun st pc cause cmd => ⟨hbmParityFail_frozen, fun i hslot hfree hpower hself => hbmParityFail_clause hslot hfree hpower hself⟩,
    fun j r hjobs hrun hsparing hmoving => ?_, fun j x i hjobs hrun hsparing hmoving hslot => hbmSpared_clause hjobs hrun hsparing hmoving hslot,
    fun d => channelSpare_clause⟩
  refine ⟨diagPass_clause hjobs hrun hsparing hmoving, fun l => diagRepair_clause hjobs hrun hsparing hmoving,
    fun hretrain hmanual => ?_, fun i x hretrain h3 hslot hreg hreserve => ?_⟩
  · obtain ⟨t, hexec, hhbm, hreply, htraining⟩ := diagFail_clause (dt := dt) hjobs hrun hsparing hmoving hretrain (autoSpare_none hmanual)
    rw [htraining] at hreply
    exact ⟨t, hexec, hhbm, hreply⟩
  · obtain ⟨t, hexec, hhbm, hreply, htraining⟩ := diagSpare_clause (dt := dt) hjobs hrun hsparing hmoving hretrain
      (autoSpare_some h3 hslot hreg hreserve)
    rw [htraining] at hreply
    exact ⟨t, hexec, hhbm, hreply⟩

end Sys2Proof.Machine
end

section
/-!
PROOFS. The load of a slot and the flip of a frame (chapter 13, R307 to R316; chapter 11): what a port's queue reaches as it is
pumped, LOAD_START, and SLOT_FLIP.
-/

namespace Sys2Proof.Machine
variable {s t u : State} {dt p k n order : Nat} {q : SentPkt}

/-! ### What a port's queue reaches -/

/-- The parts that a port's queue reaches as it is pumped. -/
def pumpParts : List StatePart := [.ports, .heads, .free, .cells, .ecc, .ledger, .causes, .out, .fault]

/-- What of a port does not change as its queue is pumped. -/
def Port.face (o : Port) : Option Nat × PortState × Option (Nat × Nat) × Bool := (o.owner, o.state, o.lastLoad, o.loopEnd)

/-- The frame in hand with another job. -/
def setJob (job : Option PressJob) (h : Head) : Head := { h with press := { h.press with job := job } }

/-- The head whose frames a port loads. -/
def loadHead (s : State) (p : Nat) : Nat := (portOf s p).owner.getD 0

/-- A port's queue moves: of the heads only the frame in hand of its own may get on, and nothing of heads and stacks
changes where none is in hand and every byte is readable. -/
structure PumpKept (p : Nat) (s t : State) : Prop where
  frame : Within pumpParts s t
  face : (portOf t p).face = (portOf s p).face
  heads : ∃ job, t.heads = upd s.heads (loadHead s p) (setJob job)
  quiet : (headOf s (loadHead s p)).press.pressing = none → allReadable s = true → t.heads = s.heads ∧ t.hbm = s.hbm ∧ t.ecc = s.ecc

theorem heads_setJob_self : s.heads = upd s.heads k (setJob (headOf s k).press.job) :=
  (upd_id.symm).trans (upd_congr (e := Reset.head) rfl)

theorem allReadable_congr (hhbm : t.hbm = s.hbm) (hecc : t.ecc = s.ecc) : allReadable t = allReadable s := by
  unfold allReadable noBadBytes badBytes
  rw [hhbm, hecc]

theorem loadHead_of_face (h : (portOf t p).face = (portOf s p).face) : loadHead t p = loadHead s p :=
  congrArg (fun o : Option Nat × PortState × Option (Nat × Nat) × Bool => o.1.getD 0) h

theorem PumpKept.then (h1 : PumpKept p s t) (h2 : PumpKept p t u) : PumpKept p s u := by
  have hhead := loadHead_of_face h1.face
  refine ⟨h1.frame.then h2.frame, h2.face.trans h1.face, ?_, fun hidle hread => ?_⟩
  · obtain ⟨job1, hjob1⟩ := h1.heads
    obtain ⟨job2, hjob2⟩ := h2.heads
    refine ⟨job2, ?_⟩
    rw [hjob2, hjob1, hhead, upd_upd]
    rfl
  · obtain ⟨hheads1, hhbm1, hecc1⟩ := h1.quiet hidle hread
    have hidle2 : (headOf t (loadHead t p)).press.pressing = none := by rw [headOf, hheads1, hhead]; exact hidle
    obtain ⟨hheads2, hhbm2, hecc2⟩ := h2.quiet hidle2 ((allReadable_congr hhbm1 hecc1).trans hread)
    exact ⟨hheads2.trans hheads1, hhbm2.trans hhbm1, hecc2.trans hecc1⟩

/-- The parts of the queue that leave heads and stacks. -/
def quietParts : List StatePart := [.ports, .free, .ledger, .causes, .out, .fault]

theorem pumpKept_of_within (h : Within quietParts s t) (hface : (portOf t p).face = (portOf s p).face) : PumpKept p s t :=
  ⟨h.mono (by decide), hface, ⟨(headOf s (loadHead s p)).press.job, (h .heads (by decide)).trans heads_setJob_self⟩,
    fun _ _ => ⟨h .heads (by decide), h.apply State.hbm rfl, h .ecc (by decide)⟩⟩

theorem pumpKept_refl : PumpKept p s s := pumpKept_of_within within_refl rfl

theorem Within.pumpKept {m : List StatePart} (h : Within m s t) (hm : ∀ x ∈ m, x ∈ quietParts) (hports : .ports ∉ m) : PumpKept p s t :=
  pumpKept_of_within (h.mono hm) (congrArg Port.face (h.portOf hports p))

theorem pumpKept_modPort {f : Port → Port} (hf : ∀ o, (f o).face = o.face) : PumpKept p s (modPort n f s) :=
  pumpKept_of_within (within_modPort.mono (by decide)) (portOf_modPort_field (g := Port.face) hf)

theorem pumpKept_ite {c : Prop} [Decidable c] {a b : State} (ha : PumpKept p s a) (hb : PumpKept p s b) : PumpKept p s (if c then a else b) := by
  split <;> assumption

theorem pumpKept_record {unit event : Nat} {det : List Byte} : PumpKept p s (record unit event det s) :=
  within_recordAt.pumpKept (by decide) (by decide)

/-- A read that can change stacks changes nothing of them where every byte is readable. -/
theorem pumpKept_of_read (h : Within readParts s t) (hclean : allReadable s = true → t = s) : PumpKept p s t := by
  refine ⟨h.mono (by decide), congrArg Port.face (h.portOf (by decide) p),
    ⟨(headOf s (loadHead s p)).press.job, (h .heads (by decide)).trans heads_setJob_self⟩, fun _ hread => ?_⟩
  rw [hclean hread]
  exact ⟨rfl, rfl, rfl⟩

theorem pumpKept_noteReads {unit_ : Nat} {l : List (Nat × Nat)} : PumpKept p s (noteReads unit_ l s) := by
  refine pumpKept_of_read (within_ite within_refl (within_forEach fun _ _ => within_noteRead)) fun hread => ?_
  rw [noteReads, if_pos hread]

theorem takeTiles_heads : ∃ job, (takeTiles k n s).heads = upd s.heads k (setJob job) := by
  unfold takeTiles
  split
  · exact ⟨_, heads_setJob_self⟩
  · exact ⟨_, within_writeTiles .heads (by decide)⟩

theorem pressOn_idle (h : (headOf s k).press.pressing = none) : pressOn k n s = s := by
  unfold pressOn
  dsimp only
  split
  · rfl
  · rw [h, if_pos (by simp)]

theorem pressOn_heads : ∃ job, (pressOn k n s).heads = upd s.heads k (setJob job) := by
  unfold pressOn
  dsimp only
  split
  · exact ⟨_, heads_setJob_self⟩
  · split
    · exact ⟨_, heads_setJob_self⟩
    · exact takeTiles_heads (s := (takeFree s).2)

theorem pumpKept_pressOn : PumpKept p s (pressOn (loadHead s p) n s) := by
  refine ⟨within_pressOn.mono (by decide), congrArg Port.face (within_pressOn.portOf (by decide) p), pressOn_heads, fun hidle _ => ?_⟩
  rw [pressOn_idle hidle]
  exact ⟨rfl, rfl, rfl⟩

theorem pumpKept_recordSubst : PumpKept p s (recordSubst p k q s) := by
  unfold recordSubst
  exact pumpKept_ite pumpKept_record ((pumpKept_modPort (f := fun o => { o with subst := bump o.subst }) fun _ => rfl).then pumpKept_record)

theorem pumpKept_readStore : PumpKept p s (readStore p q s).2 := by
  unfold readStore
  dsimp only
  have hpress : PumpKept p s (pressOn ((portOf s p).owner.getD 0) q.frame s) := pumpKept_pressOn
  by_cases hload : q.isLoad = true
  · rw [if_pos hload]
    have hread : ∀ l b, PumpKept p s (if q.isRetry then noteReads (0x18 + p) l (pressOn ((portOf s p).owner.getD 0) q.frame s)
        else modPort p (fun o => { o with crc := crc32Over (if q.offset = 0 then 0xFFFFFFFF else o.crc) b })
          (noteReads (0x18 + p) l (pressOn ((portOf s p).owner.getD 0) q.frame s))) := fun _ _ =>
      (hpress.then pumpKept_noteReads).then (pumpKept_ite pumpKept_refl (pumpKept_modPort fun _ => rfl))
    exact pumpKept_ite ((hread _ _).then pumpKept_recordSubst) (hread _ _)
  · rw [if_neg hload]
    by_cases hbeam : q.type_ = 0x10
    · rw [if_pos hbeam]
      exact pumpKept_ite ((hpress.then pumpKept_noteReads).then pumpKept_recordSubst) (hpress.then pumpKept_noteReads)
    · rw [if_neg hbeam]
      exact pumpKept_refl

theorem pumpKept_staleFlip : PumpKept p s (staleFlip p q s) :=
  (pumpKept_modPort (f := fun o => { o with stale := bump o.stale }) fun _ => rfl).then pumpKept_record

theorem within_headMiss {part unit deadline : Nat} : Within [.ledger, .causes, .out] s (headMiss k part unit deadline s) :=
  within_ite within_refl (((within_recordAt.mono (by decide)).then (within_raiseCause.mono (by decide))).then (within_raiseCause.mono (by decide)))

theorem pumpKept_missPkt : PumpKept p s (missPkt p q s) := by
  unfold missPkt
  refine pumpKept_ite pumpKept_refl ?_
  cases (portOf s p).owner with
  | none => exact pumpKept_refl
  | some k => exact within_headMiss.pumpKept (by decide) (by decide)

theorem pumpKept_sendPkt {b : List Byte} : PumpKept p s (sendPkt p q b s) :=
  PumpKept.then (t := modPort p (sentPort q (portOf s p).psn s.now) s) (pumpKept_modPort fun _ => rfl)
    (within_plkOut.pumpKept (by decide) (by decide))

theorem pumpKept_sendNow : PumpKept p s (sendNow p q s) := pumpKept_readStore.then pumpKept_sendPkt

theorem pumpKept_pumpQueue : PumpKept p s (pumpQueue p n s) := by
  induction n generalizing s with
  | zero => exact pumpKept_refl
  | succ n ih =>
    unfold pumpQueue
    dsimp only
    split
    · exact pumpKept_refl
    next q rest _ =>
      have hrest : PumpKept p s (modPort p (fun o => { o with queue := rest }) s) := pumpKept_modPort fun _ => rfl
      refine pumpKept_ite (PumpKept.then ?_ ih) (pumpKept_ite (PumpKept.then ?_ ih) (pumpKept_ite (PumpKept.then ?_ ih) pumpKept_refl))
      · exact hrest.then ((pumpKept_ite pumpKept_refl pumpKept_readStore).then pumpKept_staleFlip)
      · exact hrest.then pumpKept_missPkt
      · exact hrest.then pumpKept_sendNow

theorem pumpKept_sendAll {l : List SentPkt} : PumpKept p s (sendAll p l s) :=
  PumpKept.then (t := modPort p (fun o => { o with queue := o.queue ++ l }) s) (pumpKept_modPort fun _ => rfl) pumpKept_pumpQueue

theorem pumpKept_sendStatus : PumpKept p s (sendStatus n s) := by
  unfold sendStatus
  refine PumpKept.then (t := sendPkt n { barePkt 7 s.now with len := 16 } _ s) ?_ (pumpKept_modPort fun _ => rfl)
  refine PumpKept.then (t := modPort n (sentPort { barePkt 7 s.now with len := 16 } (portOf s n).psn s.now) s) (pumpKept_modPort fun _ => rfl) ?_
  exact within_plkOut.pumpKept (by decide) (by decide)

theorem pumpKept_forEach {α : Type} {l : List α} {f : α → State → State} (hf : ∀ x v, PumpKept p v (f x v)) : PumpKept p s (forEach l f s) := by
  unfold forEach
  induction l generalizing s with
  | nil => exact pumpKept_refl
  | cons x l ih => exact (hf x s).then ih

theorem pumpKept_tellState : PumpKept p s (tellState k s) :=
  pumpKept_forEach fun _ _ => pumpKept_ite pumpKept_refl pumpKept_sendStatus

/-! ### LOAD_START -/

/-- A port that begins the slot of an order of frame `n`. -/
def slotBegun (n order : Nat) (o : Port) : Port :=
  { o with lastLoad := some (n, order), loopEnd := false, state := if o.state = .hold then .ready else o.state }

section
variable {bad : List Nat} {c : HeadCfg} {r : Recipe} {red : Bool} {ai : ArrayEnt × Nat} {i : Nat} {x : Slot}

theorem loadStart_starts (hindex : (r.flips red ai.1.seq).findIdx? (fun x => x.order = order) = some i)
    (hslot : (r.flips red ai.1.seq)[i]? = some x) (hsafe : (headOf s k).pipe.safeDark = false)
    (hshown : n ∈ (headOf s k).press.pressed ∨ (headOf s k).press.pressing = some n) (hcave : (headOf s k).cave.state = .off)
    (hlater : ∀ q, (portOf s p).lastLoad = some q → q.1 < n ∨ (q.1 = n ∧ q.2 < order))
    (hfree : max (bufferFree s k ai.1.seq n i (bits ((portOf s p).caps.getD 1 0) 16 8) (r.flips red ai.1.seq)) (prdOf s k n) ≤ s.now)
    (hstamp : s.now < slotStamp_ (headOf s k).pipe n x) (hback : (portOf s p).readyAt + tLead s c r ≤ (headOf s k).pipe.flipAt n) :
    ∃ pk, loadStart p n order bad k c r red ai s = tellState k (sendAll p pk (modPort p (slotBegun n order) s)) := by
  have hpress : ((headOf s k).press.pressed.contains n || (headOf s k).press.pressing == some n) = true := by simpa using hshown
  unfold loadStart
  dsimp only
  rw [hindex]
  dsimp only
  rw [hslot]
  dsimp only
  rw [hcave, hsafe, hpress]
  cases hlast : (portOf s p).lastLoad with
  | none =>
    refine ⟨_, (if_neg ?_).trans rfl⟩
    simp only [Bool.false_eq_true, Bool.not_true, false_or, not_or, Nat.not_lt, Nat.not_le]
    exact ⟨hfree, hstamp, hback⟩
  | some q =>
    have hlate : (decide (q.1 < n) || (decide (q.1 = n) && decide (q.2 < order))) = true := by simpa using hlater q hlast
    refine ⟨_, (if_neg ?_).trans rfl⟩
    simp only [hlate, Bool.false_eq_true, Bool.not_true, false_or, not_or, Nat.not_lt, Nat.not_le]
    exact ⟨hfree, hstamp, hback⟩
theorem exec_loadStart (howner : (portOf s p).owner = some k) (hstate : (portOf s p).state = .ready) (hscan : (portOf s p).scan = false)
    (hcfg : (headOf s k).pipe.cfg = some c) (hgov : (headOf s k).press.governing n = some (r, red)) (harray : r.arrayOf p = some ai) :
    exec (.loadStart dt p n order bad) s = .next (loadStart p n order bad k c r red ai (tick dt s)) := by
  show execLoadStart dt p n order bad s = _
  unfold execLoadStart
  dsimp only
  rw [show portOf (tick dt s) p = portOf s p from rfl, howner]
  dsimp only
  rw [show headOf (tick dt s) k = headOf s k from rfl, hscan, if_neg Bool.false_ne_true, hcfg, hgov]
  dsimp only
  rw [harray]
  dsimp only
  rw [if_pos (Or.inl hstate)]

/-- The state after the load of a slot has begun: the slot's port remembers it, and of the heads only the job of the frame in
hand may have moved. -/
theorem loadStart_frame (hp : p < s.ports.length) (hk : k < s.heads.length) (howner : (portOf s p).owner = some k)
    (hstate : (portOf s p).state = .ready) {pk : List SentPkt} :
    let t := tellState k (sendAll p pk (modPort p (slotBegun n order) (tick dt s)))
    (portOf t p).lastLoad = some (n, order) ∧ (portOf t p).loopEnd = false ∧ (portOf t p).state = .ready ∧ t.adm = s.adm ∧
      t.gheler = s.gheler ∧ t.host = s.host ∧
      t.heads = upd s.heads k (fun h => { h with press := { h.press with job := (headOf t k).press.job } }) ∧
      ((headOf s k).press.pressing = none → allReadable s = true → t.heads = s.heads ∧ t.hbm = s.hbm) := by
  intro t
  have hbegun : portOf (modPort p (slotBegun n order) (tick dt s)) p = slotBegun n order (portOf s p) := portOf_modPort_same (s := tick dt s) hp
  have hkept : PumpKept p (modPort p (slotBegun n order) (tick dt s)) t := pumpKept_sendAll.then pumpKept_tellState
  have hhead : loadHead (modPort p (slotBegun n order) (tick dt s)) p = k := by
    rw [loadHead, hbegun]
    exact congrArg (Option.getD · 0) howner
  have hface : (portOf t p).face = (some k, .ready, some (n, order), false) := by
    rw [hkept.face, hbegun]
    simp only [Port.face, slotBegun, howner, hstate, reduceCtorEq, if_false]
  have hport : Within [.ports] (tick dt s) (modPort p (slotBegun n order) (tick dt s)) := within_modPort
  have hall := within_trans (within_trans within_tick hport) hkept.frame
  clear_value t
  refine ⟨congrArg (fun o : Option Nat × PortState × Option (Nat × Nat) × Bool => o.2.2.1) hface,
    congrArg (fun o : Option Nat × PortState × Option (Nat × Nat) × Bool => o.2.2.2) hface,
    congrArg (fun o : Option Nat × PortState × Option (Nat × Nat) × Bool => o.2.1) hface, hall.apply State.adm rfl,
    hall.apply State.gheler rfl, hall.apply State.host rfl, ?_, fun hidle hread => ?_⟩
  · obtain ⟨job, hjob⟩ := hkept.heads
    rw [hhead] at hjob
    have hsame : (headOf t k).press.job = job := by
      have hget : headOf t k = setJob job (headOf s k) := by
        rw [headOf, hjob]
        exact headOf_modHead_same (s := s) hk
      rw [hget]
      rfl
    rw [hsame]
    exact hjob
  · obtain ⟨hheads, hhbm, -⟩ := hkept.quiet (by rw [hhead]; exact hidle) hread
    exact ⟨hheads, hhbm⟩

theorem loadStart_clause (hp : p < s.ports.length) (howner : (portOf s p).owner = some k)
    (hstate : (portOf s p).state = .ready) (hscan : (portOf s p).scan = false)
    (hcfg : (headOf s k).pipe.cfg = some c) (hgov : (headOf s k).press.governing n = some (r, red)) (harray : r.arrayOf p = some ai)
    (hindex : (r.flips red ai.1.seq).findIdx? (fun x => x.order = order) = some i)
    (hslot : (r.flips red ai.1.seq)[i]? = some x) (hsafe : (headOf s k).pipe.safeDark = false)
    (hshown : n ∈ (headOf s k).press.pressed ∨ (headOf s k).press.pressing = some n) (hcave : (headOf s k).cave.state = .off)
    (hlater : ∀ q, (portOf s p).lastLoad = some q → q.1 < n ∨ (q.1 = n ∧ q.2 < order))
    (hfree : max (bufferFree s k ai.1.seq n i (bits ((portOf s p).caps.getD 1 0) 16 8) (r.flips red ai.1.seq)) (prdOf s k n) ≤ (tick dt s).now)
    (hstamp : (tick dt s).now < slotStamp_ (headOf s k).pipe n x) (hback : (portOf s p).readyAt + tLead s c r ≤ (headOf s k).pipe.flipAt n) :
    ∃ t, exec (.loadStart dt p n order bad) s = .next t ∧ (portOf t p).lastLoad = some (n, order) ∧
      (portOf t p).loopEnd = false ∧ (portOf t p).state = .ready ∧ t.adm = s.adm ∧ t.gheler = s.gheler ∧ t.host = s.host ∧
      t.heads = upd s.heads k (fun h => { h with press := { h.press with job := (headOf t k).press.job } }) ∧
      ((headOf s k).press.pressing = none → allReadable s = true → t.heads = s.heads ∧ t.hbm = s.hbm) := by
  obtain ⟨pk, heq⟩ := loadStart_starts (s := tick dt s) (bad := bad) hindex hslot hsafe hshown hcave hlater hfree hstamp hback
  have hk : k < s.heads.length := lt_of_configured (by rw [configured, hcfg]; rfl)
  exact ⟨_, (exec_loadStart howner hstate hscan hcfg hgov harray).trans (congrArg Host.Outcome.next heq),
    loadStart_frame hp hk howner hstate⟩

end

/-! ### What a flip keeps -/

/-- What the flip of a frame reaches. -/
def flipParts : List StatePart := [.heads, .ports, .chans, .sps, .items, .free, .cells, .ecc] ++ replyParts

/-- What of a head stands once its frame's flip is noted: the frame shown, the configuration, a release, and the frames whose
measurement is closed. -/
def Head.face (h : Head) : Nat × Bool × Option HeadCfg × Option (Desc × Nat) × List Nat :=
  (h.pipe.flipped, h.pipe.flipAny, h.pipe.cfg, h.pipe.releasing, h.solver.closed.map (·.frame))

/-- Within the parts of a flip the head's face stands. -/
def FlipKept (k : Nat) (s t : State) : Prop := Within flipParts s t ∧ (headOf t k).face = (headOf s k).face

theorem flipKept_refl : FlipKept k s s := ⟨within_refl, rfl⟩

theorem FlipKept.then (h1 : FlipKept k s t) (h2 : FlipKept k t u) : FlipKept k s u := ⟨h1.1.then h2.1, h2.2.trans h1.2⟩

theorem Within.flipKept {m : List StatePart} (h : Within m s t) (hm : ∀ x ∈ m, x ∈ flipParts) (hheads : .heads ∉ m) : FlipKept k s t :=
  ⟨h.mono hm, congrArg Head.face (h.headOf hheads k)⟩

theorem flipKept_modHead {j : Nat} {f : Head → Head} (hf : ∀ h, (f h).face = h.face) : FlipKept k s (modHead j f s) :=
  ⟨within_modHead.mono (by decide), headOf_modHead_field (g := Head.face) hf⟩

theorem flipKept_ite {c : Prop} [Decidable c] {a b : State} (ha : FlipKept k s a) (hb : FlipKept k s b) : FlipKept k s (if c then a else b) := by
  split <;> assumption

theorem flipKept_elim {α : Type} {o : Option α} {a : State} {f : α → State} (ha : FlipKept k s a) (hf : ∀ x, FlipKept k s (f x)) :
    FlipKept k s (o.elim a f) := by
  cases o with
  | none => exact ha
  | some x => exact hf x

theorem flipKept_forEach {α : Type} {l : List α} {f : α → State → State} (hf : ∀ x v, FlipKept k v (f x v)) : FlipKept k s (forEach l f s) := by
  unfold forEach
  induction l generalizing s with
  | nil => exact flipKept_refl
  | cons x l ih => exact (hf x s).then ih

theorem flipKept_record {unit event : Nat} {det : List Byte} : FlipKept k s (record unit event det s) := within_recordAt.flipKept (by decide) (by decide)

theorem flipKept_completeAt {c n : Nat} {d : Desc} {det : List Byte} : FlipKept k s (completeAt c d n det s) :=
  within_completeAt.flipKept (by decide) (by decide)

theorem PumpKept.flipKept (h : PumpKept p s t) : FlipKept k s t := by
  refine ⟨h.frame.mono (by decide), ?_⟩
  obtain ⟨job, hjob⟩ := h.heads
  have hhead : headOf t k = headOf (modHead (loadHead s p) (setJob job) s) k := congrArg (fun l : List Head => l.getD k Reset.head) hjob
  rw [hhead]
  exact headOf_modHead_field (g := Head.face) fun _ => rfl

theorem flipKept_modSolver {j : Nat} {f : Solver → Solver} (hf : ∀ v, (f v).closed.map (·.frame) = v.closed.map (·.frame)) :
    FlipKept k s (modSolver j f s) :=
  flipKept_modHead fun h => congrArg (fun l => (h.pipe.flipped, h.pipe.flipAny, h.pipe.cfg, h.pipe.releasing, l)) (hf h.solver)

theorem past_frames {l : List Closed} : (l.map fun z => { z with past := true }).map (·.frame) = l.map (·.frame) := by
  rw [List.map_map]
  rfl

theorem flipKept_solverDue {j : Nat} : FlipKept k s (solverDue j s) := by
  unfold solverDue
  dsimp only
  split
  · exact flipKept_refl
  · next x d m _ =>
    refine flipKept_ite flipKept_refl ?_
    have hclear : FlipKept k s (modSolver j (fun v => { v with pending := none }) s) := flipKept_modSolver fun _ => rfl
    generalize modSolver j (fun v => { v with pending := none }) s = u at hclear ⊢
    refine hclear.then ?_
    cases x with
    | cfg c =>
      refine FlipKept.then (FlipKept.then ?_ flipKept_record) flipKept_completeAt
      exact flipKept_modSolver fun _ => rfl
    | cal c =>
      refine FlipKept.then ?_ flipKept_completeAt
      exact flipKept_modSolver fun _ => past_frames
    | correct p f dx dy =>
      refine FlipKept.then (FlipKept.then ?_ flipKept_record) flipKept_completeAt
      exact flipKept_modSolver fun _ => past_frames

theorem flipKept_settleRecipe {j : Nat} : FlipKept k s (settleRecipe j s) := by
  unfold settleRecipe
  extract_lets h held items _ v
  have hv : FlipKept k s v := Within.flipKept (m := [.items]) (within_of_eq rfl (by decide)) (by decide) (by decide)
  exact flipKept_ite hv (hv.then (within_settle.flipKept (by decide) (by decide)))

theorem flipKept_applyLoop {c n : Nat} : FlipKept k s (applyLoop c n s) := by
  unfold applyLoop
  split
  · exact flipKept_refl
  · refine FlipKept.then (FlipKept.then (FlipKept.then ?_ (within_settle.flipKept (by decide) (by decide)))
      (within_recordAt.flipKept (by decide) (by decide))) flipKept_completeAt
    exact within_modChan.flipKept (by decide) (by decide)

theorem flipKept_applyLoopsAt {mask m n : Nat} : FlipKept k s (applyLoopsAt mask m n s) := flipKept_forEach fun _ _ => flipKept_applyLoop

theorem flipKept_recordShift {j n : Nat} : FlipKept k s (recordShift j n s) :=
  FlipKept.then (t := modPipe j (fun p => { p with shift := [] }) s) (flipKept_modHead fun _ => rfl) (flipKept_forEach fun _ _ => flipKept_record)

theorem flipKept_scanFlip {j n : Nat} : FlipKept k s (scanFlip j n s) := by
  unfold scanFlip
  extract_lets x due later y0 y u
  have hu : FlipKept k s u := flipKept_modHead fun _ => rfl
  exact flipKept_ite (hu.then (within_settle.flipKept (by decide) (by decide))) hu

theorem flipKept_caveExit {j c n : Nat} : FlipKept k s (caveExit j c n s) := by
  unfold caveExit
  dsimp only
  split
  · exact flipKept_refl
  · split
    · exact flipKept_modHead fun _ => rfl
    · exact flipKept_ite (flipKept_modHead fun _ => rfl) flipKept_refl
    · exact flipKept_refl

theorem flipKept_enterHold {j n : Nat} : FlipKept k s (enterHold j n s) := by
  unfold enterHold
  extract_lets v f u1 u2 u3 u4
  have h1 : FlipKept k s u1 := flipKept_forEach fun _ _ => within_modPort.flipKept (by decide) (by decide)
  have h2 : FlipKept k u1 u2 := flipKept_modHead fun _ => rfl
  have h4 : FlipKept k u3 u4 := flipKept_elim flipKept_refl fun _ => flipKept_ite flipKept_completeAt flipKept_refl
  have hall : FlipKept k s u4 := ((h1.then h2).then flipKept_record).then h4
  exact flipKept_ite hall (hall.then flipKept_caveExit)

theorem within_enterRun {c : Nat} : Within [.chans, .sps] s (enterRun c s) := by
  unfold enterRun
  split
  · exact within_refl
  · exact Within.then (within_modChan.mono (by decide)) (within_modSp.mono (by decide))

theorem flipKept_leaveHold {j n : Nat} : FlipKept k s (leaveHold j n s) := by
  unfold leaveHold
  extract_lets v f u1 u2 u3
  have h1 : FlipKept k s u1 := flipKept_modHead fun _ => rfl
  have h3 : FlipKept k u2 u3 := flipKept_forEach fun _ _ => flipKept_ite flipKept_completeAt flipKept_refl
  exact ((h1.then flipKept_record).then h3).then (flipKept_forEach fun _ _ => within_enterRun.flipKept (by decide) (by decide))

theorem flipKept_caveFlip {j n : Nat} : FlipKept k s (caveFlip j n s) := by
  unfold caveFlip
  dsimp only
  split
  · exact flipKept_ite flipKept_enterHold flipKept_refl
  · exact flipKept_ite flipKept_leaveHold flipKept_refl
  · exact flipKept_refl

theorem flipKept_tellState {j : Nat} : FlipKept k s (tellState j s) := (pumpKept_tellState (p := 0)).flipKept

/-! ### SLOT_FLIP -/

theorem flipKept_markValue {j c : Nat} : FlipKept k s (markValue s j p n c).2 := by
  have hfree : FlipKept k s (takeFree s).2 := Within.flipKept (m := [.free]) (within_of_eq rfl (by decide)) (by decide) (by decide)
  unfold markValue
  dsimp only
  split
  · exact flipKept_refl
  · split
    · exact flipKept_refl
    · exact hfree

theorem flipKept_markFlip {j stamp : Nat} {x : Slot} {fine : Nat → Nat} : FlipKept k s (markFlip j n x stamp fine p s) := by
  have hpump : FlipKept k s (pump p s) := pumpKept_pumpQueue.flipKept
  unfold markFlip
  dsimp only
  generalize pump p s = u at hpump ⊢
  have hvalue : FlipKept k u (markValue u j p n x.order).2 := flipKept_markValue
  generalize markValue u j p n x.order = vu at hvalue ⊢
  have hmark : FlipKept k vu.2 (plkMark p 0x5F vu.1 (fine p) stamp vu.2) := within_plkMark.flipKept (by decide) (by decide)
  generalize plkMark p 0x5F vu.1 (fine p) stamp vu.2 = w at hmark ⊢
  have hmiss : FlipKept k w (if stamp + 4 < w.now then headMiss j 0 (0x18 + p) stamp w else w) :=
    flipKept_ite (within_headMiss.flipKept (by decide) (by decide)) flipKept_refl
  exact flipKept_ite ((((hpump.then hvalue).then hmark).then hmiss).then (within_modPort.flipKept (by decide) (by decide))) flipKept_refl

theorem flipKept_slotFlip {j seq : Nat} : FlipKept k s (slotFlip j n seq order s) := by
  unfold slotFlip
  dsimp only
  split
  · exact flipKept_refl
  · split
    · exact flipKept_refl
    · refine flipKept_ite flipKept_refl (FlipKept.then (t := afterFine s) ?_ (flipKept_forEach fun _ _ => flipKept_markFlip))
      exact Within.flipKept (m := [.free]) (within_of_eq rfl (by decide)) (by decide) (by decide)

/-- The first flip of a frame is noted. -/
def flipNoted (k n : Nat) (s : State) : State :=
  modPipe k (fun p => { p with flipped := n, flipAny := true, flips := ((n, p.flipAt n) :: p.flips).take 3 }) s

theorem flipNoted_face (hk : k < s.heads.length) : (headOf (flipNoted k n s) k).face = (n, true, (headOf s k).pipe.cfg, (headOf s k).pipe.releasing,
    (headOf s k).solver.closed.map (·.frame)) :=
  congrArg Head.face (headOf_modHead_same (s := s) (f := fun h => { h with pipe := { h.pipe with
    flipped := n, flipAny := true, flips := ((n, h.pipe.flipAt n) :: h.pipe.flips).take 3 } }) hk)

theorem headOf_modSolver_same {f : Solver → Solver} (hk : k < s.heads.length) :
    headOf (modSolver k f s) k = { headOf s k with solver := f (headOf s k).solver } := headOf_modHead_same hk

/-- The measurement of the frame before is closed. -/
theorem solverRoll_face (hk : k < s.heads.length) : ∃ l, (n ≠ 0 → n - 1 ∈ l) ∧ (headOf (solverRoll k n s) k).face =
    ((headOf s k).pipe.flipped, (headOf s k).pipe.flipAny, (headOf s k).pipe.cfg, (headOf s k).pipe.releasing, l) := by
  unfold solverRoll
  dsimp only
  split
  · next h0 => exact ⟨_, fun h => absurd h0 h, rfl⟩
  · rw [headOf_modSolver_same hk]
    refine ⟨_, fun _ => ?_, rfl⟩
    rw [List.map_append]
    exact List.mem_append_right _ (List.mem_singleton_self _)

theorem within_solverRoll : Within [.heads] s (solverRoll k n s) := within_ite within_refl within_modHead

theorem rebaseAt_idle (h : (headOf s k).pipe.nextRate = none) : rebaseAt k n s = (n, s) := by
  unfold rebaseAt
  dsimp only
  rw [h]
  cases (headOf s k).pipe.cfg <;> rfl

theorem releaseFlip_idle (h : (headOf s k).pipe.releasing = none) : releaseFlip k n s = s := by
  unfold releaseFlip
  rw [h]
  cases (headOf s k).pipe.cfg <;> rfl

/-- After its first flip the head takes up what waits for the frame. -/
def flipFollowed (k n : Nat) (s : State) : State :=
  let s := settleRecipe k (modPress k (fun p => p.settleAt n) (solverDue k s))
  let s := applyLoopsAt ((headOf s k).pipe.cfg.elim 0 (·.channels)) n ((headOf s k).pipe.flipAt n) s
  caveFlip k n (scanFlip k n (recordShift k n s))

theorem flipKept_flipFollowed : FlipKept k s (flipFollowed k n s) := by
  unfold flipFollowed
  extract_lets u v
  have hpress : ∀ w : State, FlipKept k w (modPress k (fun p => p.settleAt n) w) := fun _ => flipKept_modHead fun _ => rfl
  have hu : FlipKept k s u := (flipKept_solverDue.then (hpress _)).then flipKept_settleRecipe
  exact (((hu.then flipKept_applyLoopsAt).then flipKept_recordShift).then flipKept_scanFlip).then flipKept_caveFlip

theorem frameFlip_eq (hrate : (headOf s k).pipe.nextRate = none) : frameFlip k n s =
    tellState k (releaseFlip k n (flipFollowed k n (solverRoll k n (flipNoted k n s)))) := by
  unfold frameFlip
  rw [rebaseAt_idle hrate]
  rfl

theorem frameFlip_face (hk : k < s.heads.length) (hrate : (headOf s k).pipe.nextRate = none) (hrel : (headOf s k).pipe.releasing = none) :
    Within flipParts s (frameFlip k n s) ∧ ∃ l, (n ≠ 0 → n - 1 ∈ l) ∧
      (headOf (frameFlip k n s) k).face = (n, true, (headOf s k).pipe.cfg, none, l) := by
  have hfull := frameFlip_eq (n := n) hrate
  have hnoted := flipNoted_face (n := n) hk
  have hlen : k < (flipNoted k n s).heads.length := by
    rw [flipNoted, modPipe, modHead, upd, List.length_modify]
    exact hk
  obtain ⟨l, hl, hroll⟩ := solverRoll_face (s := flipNoted k n s) (n := n) hlen
  obtain ⟨hwithin, hface⟩ := flipKept_flipFollowed (k := k) (n := n) (s := solverRoll k n (flipNoted k n s))
  have hstart : Within flipParts s (solverRoll k n (flipNoted k n s)) :=
    Within.then (t := flipNoted k n s) (within_modPipe.mono (by decide)) (within_solverRoll.mono (by decide))
  simp only [Head.face, Prod.mk.injEq] at hnoted hroll hface
  obtain ⟨hn1, hn2, hn3, hn4, -⟩ := hnoted
  obtain ⟨hr1, hr2, hr3, hr4, hr5⟩ := hroll
  obtain ⟨hf1, hf2, hf3, hf4, hf5⟩ := hface
  generalize flipFollowed k n (solverRoll k n (flipNoted k n s)) = u at *
  have hidle : (headOf u k).pipe.releasing = none := (hf4.trans (hr4.trans hn4)).trans hrel
  obtain ⟨htell, htold⟩ := flipKept_tellState (k := k) (j := k) (s := u)
  rw [hfull, releaseFlip_idle hidle, htold]
  refine ⟨(hstart.then hwithin).then htell, l, hl, ?_⟩
  rw [Head.face, hf1, hf2, hf3, hf4, hf5, hr1, hr2, hr3, hr4, hr5, hn1, hn2, hn3, hn4, hrel]

theorem slotFlip_waits {seq : Nat} (hnow : (tick dt s).now < (headOf s k).pipe.flipAt n) :
    exec (.slotFlip dt k n seq order) s = .next (tick dt s) := by
  show execSlotFlip dt k n seq order s = _
  exact if_pos (Or.inr (Or.inl hnow))

/-- The flip of a frame that the head has not shown yet brings the frame, and then marks the slot. -/
theorem slotFlip_first {seq : Nat} (hcfg : (headOf s k).pipe.cfg ≠ none) (hnow : (headOf s k).pipe.flipAt n ≤ (tick dt s).now)
    (hfirst : (headOf s k).pipe.flipAny = false ∨ (headOf s k).pipe.flipped < n) : ∃ m,
    exec (.slotFlip dt k n seq order) s = .next (slotFlip k m seq order (recordShift k m (frameFlip k n (tick dt s)))) := by
  have hconf : (headOf s k).pipe.cfg.isNone = false := by simpa [Option.isSome_iff_ne_none] using hcfg
  have hnew : (!(headOf s k).pipe.flipAny) = true ∨ (headOf s k).pipe.flipped < n := by simpa using hfirst
  have hgo : ¬((headOf s k).pipe.cfg.isNone = true ∨ (tick dt s).now < (headOf s k).pipe.flipAt n ∨
      (headOf s k).pipe.flipAny = true ∧ n < (headOf s k).pipe.flipped) := by
    rw [hconf]
    rintro (h | h | ⟨hany, hlt⟩)
    · cases h
    · omega
    · rcases hfirst with hno | hold
      · rw [hno] at hany
        cases hany
      · omega
  have hexec : exec (.slotFlip dt k n seq order) s = execSlotFlip dt k n seq order s := rfl
  rw [hexec, execSlotFlip]
  extract_lets u m
  have hu : u = frameFlip k n (tick dt s) := if_pos hnew
  exact ⟨m, (if_neg hgo).trans (by rw [hu])⟩

/-- What the first flip of a frame leaves of its head and of the module. -/
theorem slotFlip_frame {seq m : Nat} (hk : k < s.heads.length) (hrate : (headOf s k).pipe.nextRate = none)
    (hrel : (headOf s k).pipe.releasing = none) : let t := slotFlip k m seq order (recordShift k m (frameFlip k n s))
    Within flipParts s t ∧ (headOf t k).pipe.flipped = n ∧ (headOf t k).pipe.flipAny = true ∧ (headOf t k).pipe.cfg = (headOf s k).pipe.cfg ∧
      (n ≠ 0 → ∃ z ∈ (headOf t k).solver.closed, z.frame = n - 1) := by
  obtain ⟨hframe, l, hl, hface⟩ := frameFlip_face (n := n) hk hrate hrel
  have hmark := (flipKept_recordShift (k := k) (j := k) (n := m) (s := frameFlip k n s)).then
    (flipKept_slotFlip (j := k) (n := m) (seq := seq) (order := order))
  generalize slotFlip k m seq order (recordShift k m (frameFlip k n s)) = t at hmark ⊢
  obtain ⟨hwithin, hmarked⟩ := hmark
  rw [hface] at hmarked
  simp only [Head.face, Prod.mk.injEq] at hmarked
  obtain ⟨hflipped, hany, hconf, -, hclosed⟩ := hmarked
  exact ⟨hframe.then hwithin, hflipped, hany, hconf, fun hn => List.mem_map.1 (hclosed ▸ hl hn)⟩

theorem slotFlip_clause {seq : Nat} (hcfg : (headOf s k).pipe.cfg ≠ none) :
    ((tick dt s).now < (headOf s k).pipe.flipAt n → exec (.slotFlip dt k n seq order) s = .next (tick dt s)) ∧
    ((headOf s k).pipe.flipAt n ≤ (tick dt s).now → ((headOf s k).pipe.flipAny = false ∨ (headOf s k).pipe.flipped < n) →
      (headOf s k).pipe.nextRate = none → (headOf s k).pipe.releasing = none → (headOf s k).pipe.stopping = false →
      ∃ t, exec (.slotFlip dt k n seq order) s = .next t ∧
        (headOf t k).pipe.flipped = n ∧ (headOf t k).pipe.flipAny = true ∧ (headOf t k).pipe.cfg = (headOf s k).pipe.cfg ∧
        (n ≠ 0 → ∃ z ∈ (headOf t k).solver.closed, z.frame = n - 1) ∧
        t.power = s.power ∧ t.time = (tick dt s).time ∧ t.ingest = s.ingest ∧ t.training = s.training) := by
  refine ⟨slotFlip_waits, fun hnow hfirst hrate hrel _ => ?_⟩
  obtain ⟨m, hexec⟩ := slotFlip_first (seq := seq) (order := order) hcfg hnow hfirst
  have hk : k < s.heads.length := lt_of_configured (by simpa [configured, Option.isSome_iff_ne_none] using hcfg)
  have hframe := slotFlip_frame (s := tick dt s) (n := n) (m := m) (seq := seq) (order := order) hk hrate hrel
  generalize slotFlip k m seq order (recordShift k m (frameFlip k n (tick dt s))) = t at hframe hexec
  obtain ⟨hwithin, hflipped, hany, hconf, hclosed⟩ := hframe
  have hall := within_trans (within_tick (s := s) (dt := dt)) hwithin
  exact ⟨t, hexec, hflipped, hany, hconf, hclosed, hall.apply State.power rfl, hwithin.apply State.time rfl, hall.apply State.ingest rfl,
    hall.apply State.training rfl⟩

/-- Settles O44: what a port's queue reaches of heads and stacks is the job of the frame in hand, and a flip closes the measurement
of the frame before first; what follows keeps frame, configuration and closed frames. -/
theorem slotsLoadAndFlip : Obligations.SlotsLoadAndFlip := by
  unfold Obligations.SlotsLoadAndFlip
  intro dt k n s h
  refine ⟨?_, fun seq order => slotFlip_clause⟩
  intro p order bad c r red ai i x o l hp howner hstate hscan hcfg hgov harray hindex hslot hsafe hshown hcave hlater hfree hstamp hback
  exact loadStart_clause hp howner hstate hscan hcfg hgov harray hindex hslot hsafe hshown hcave hlater hfree hstamp hback

end Sys2Proof.Machine
end

section
/-!
PROOFS. COMMIT of a head whose two sealed shadows leave no room (chapter 9, R228): the statement of shadows and composition fails
there.
-/

namespace Sys2Proof.Machine

/-- The configuration of a small head. -/
def smallCfg : HeadCfg :=
  { scan := false, forerunner := 0, rateN := 60, rateD := 1, anchor := 100000000, anchorF := 0, lead := 8000000, guard := 100000
    canvasW := 64, canvasH := 64, ports := 1, channels := 3, comp := [1, 2, 3], peak := 1000, bg := [0, 0, 0], prims := [1, 1, 1, 1] }

/-- A COMMIT of head 0 for frame 5, stamped 1 by its doorbell. -/
def lateCommit : Desc :=
  ⟨0, padTo 64 (u16 0x0702 ++ u16 0 ++ u32 7 ++ u24 48 ++ u8 0 ++ u16 0 ++ u16 0 ++ u32 0 ++ u32 5), 1, 1, none⟩

/-- The commit is in front, and head 0 has sealed shadows for frames 3 and 4. -/
def sealedTwice : State := { State.reset with
  host := { Reset.host with fetched := [lateCommit] }
  heads := [{ Reset.head with pipe := { Reset.pipe with cfg := some smallCfg, sealed_ := [⟨3, Reset.shadow, []⟩, ⟨4, Reset.shadow, []⟩] } }] }

theorem lateCommit_runs : Runs (.commit 0 lateCommit) sealedTwice := ⟨by decide, by decide, by decide⟩

variable {s : State} {d : Desc}

/-- A COMMIT that finds no room is answered after the head's latest change is noted. -/
theorem commitAct_busy (hcave : (headOf s (d.p8 16)).cave.state = .off)
    (hbusy : let u := modCave (d.p8 16) (fun v => { v with latest := max v.latest d.t }) s
      sealBusy u (d.p8 16) (applyFrame (headOf u (d.p8 16)) d.t (targetOf (headOf u (d.p8 16)).pipe d.t (d.p32 20))) = true) :
    ∃ det, commitAct d s = complete d 0x983 det (modCave (d.p8 16) (fun v => { v with latest := max v.latest d.t }) s) := by
  unfold commitAct
  dsimp only
  rw [headChanged_off hcave, if_pos hbusy]
  exact ⟨_, rfl⟩

/-- The state in which the commit acts. -/
def commitBegun : State := begun lateCommit lateCommit.trunc (tick 0 sealedTwice)

theorem exec_lateCommit : exec (.commit 0 lateCommit) sealedTwice = .next (commitAct lateCommit.trunc commitBegun) :=
  congrArg Host.Outcome.next (runDesc_accepted lateCommit_runs)

theorem latest_lateCommit : (headOf (commitAct lateCommit.trunc commitBegun) 0).cave.latest = 1 := by
  obtain ⟨det, heq⟩ := commitAct_busy (s := commitBegun) (d := lateCommit.trunc) (by decide) (by decide)
  rw [heq, within_complete.headOf (by decide)]
  decide

/-- Refutes O35: a COMMIT completed with COMMIT_BUSY has still noted its doorbell's stamp as the head's latest change, which the
statement leaves where it was. -/
theorem not_shadowsAreFilledSealedAndComposed : ¬ Obligations.ShadowsAreFilledSealedAndComposed := by
  rintro ⟨-, hcommit, -⟩
  obtain ⟨-, hbusy⟩ := hcommit 0 lateCommit sealedTwice lateCommit_runs (by decide)
  have hexec := exec_lateCommit.symm.trans (hbusy (by decide))
  have hstate := Host.Outcome.next.inj hexec
  have hlatest := congrArg (fun u : State => (headOf u 0).cave.latest) hstate
  rw [latest_lateCommit, within_complete.headOf (by decide), begun_headOf] at hlatest
  exact absurd hlatest (by decide)

end Sys2Proof.Machine
end
